-- ==== Sys2Proof/Word.lean ====
section
/-! DEFINITION. The words of the HJ-9460: a tick is one period of the 600 MHz fabric clock (00_scope.md,
Conventions), registers are 32 bits wide, identities 64 bits. -/
namespace Sys2Proof

/-- One byte of a buffer, a frame or a record. -/
abbrev Byte := BitVec 8

/-- A 16-bit field. -/
abbrev Half := BitVec 16

/-- A 32-bit register or field. -/
abbrev Word := BitVec 32

/-- A 64-bit field. -/
abbrev Dword := BitVec 64

/-- A node identity (R29). -/
abbrev Nid := BitVec 64

/-- A MAC address, 48 bits, first transmitted byte most significant. -/
abbrev Mac := BitVec 48

/-- Ticks of the 600 MHz fabric clock in a millisecond, a microsecond and a second. -/
def ticksPerMs : Nat := 600000
def ticksPerUs : Nat := 600
def ticksPerSec : Nat := 600000000

end Sys2Proof
end

