-- ==== Sys2Proof/Operand.lean ====
section
/-! DEFINITION. The data that commands carry and that the state holds in the same shape: node states, levels of an
output, the header of an ACS command, frames. -/
namespace Sys2Proof

/-- The node states of R44's table. -/
inductive NodeState where
  | off | backup | boot | held | ready | run | degraded | safe | stabled
  deriving DecidableEq, Repr

/-- The code of a node state (R44's table). -/
def NodeState.code : NodeState → Nat
  | .off => 0 | .backup => 1 | .boot => 2 | .held => 3 | .ready => 4 | .run => 5 | .degraded => 6 | .safe => 7
  | .stabled => 8

/-- What an output ball shows (R650). -/
inductive Level where
  | hiz | low | high
  deriving DecidableEq, Repr

/-- Form of a node, NODE_ROLE.FORM (R48). -/
inductive Form where
  | simplex | span | troika
  deriving DecidableEq, Repr

/-- The code of a form (R48). -/
def Form.code : Form → Nat
  | .simplex => 0 | .span => 1 | .troika => 2

/-- The two lines of the backbone (R21). -/
inductive Line where
  | a | b
  deriving DecidableEq, Repr

/-- The code of a line, 0 A and 1 B (R676). -/
def Line.code : Line → Nat
  | .a => 0 | .b => 1

/-- An ACS command as the chip starts it (R577): the mailbox and its place in the batch, the header's FLAGS, TAG, GEN and
reserved field, and the argument bytes. -/
structure Acs where
  mbx   : Nat
  idx   : Nat
  flags : Half
  tag   : Half
  gen   : Word
  rsvd  : Word
  args  : List Byte
  deriving DecidableEq, Repr

/-- Which waiting command an answer belongs to: mailbox, place in the batch, opcode, tag, NOTIFY. -/
structure AcsRef where
  mbx    : Nat
  idx    : Nat
  opcode : Nat
  tag    : Half
  notify : Bool
  deriving DecidableEq, Repr

/-- An IEEE 802.1Q tag. -/
structure VlanTag where
  pcp : Nat
  dei : Bool
  vid : Nat
  deriving DecidableEq, Repr

/-- An Ethernet frame without its FCS: addresses, an optional VLAN tag, an optional R-TAG sequence number, the Ethertype
and what follows it. -/
structure Frame where
  da      : Mac
  sa      : Mac
  vlan    : Option VlanTag
  rtag    : Option Half
  etype   : Nat
  payload : List Byte
  deriving DecidableEq, Repr

/-- A stamp at the medium boundary (R114): a free-counter value and sixteenths of a tick. -/
structure Stamp where
  tick : Nat
  frac : Nat
  deriving DecidableEq, Repr

/-- The verdict of MACsec on a received frame (R205 to R208): none where the frame came unprotected, else whether it passed
and, if not, what failed: 1 ICV, 2 replay, 3 SecTAG. -/
inductive MacsecVerdict where
  | plain
  | pass
  | fail (kind : Nat)
  deriving DecidableEq, Repr

/-- The colour a flow meter of IEEE 802.1Qci gives a frame (R198). -/
inductive Colour where
  | green | yellow | red
  deriving DecidableEq, Repr

/-- A frame as an external port receives it (R168, R230): its content, its length, what the MAC found, whether
transmission had begun cut-through before its end, its stamp, the MACsec verdict, the colour its meter gives, the table
entry met with a parity error (R633), and the line it carries for a frame of a Span peer. -/
structure RxFrame where
  frame    : Frame
  len      : Nat
  fcsOk    : Bool
  codeErr  : Bool
  frags    : Nat
  asmError : Bool
  smdError : Bool
  express  : Bool
  fifoLost : Bool
  cut      : Bool
  stamp    : Stamp
  macsec   : MacsecVerdict
  colour   : Colour
  tableErr : Option (Nat × Nat)
  /-- The cell in which the internal port's read finds a parity error (R209). -/
  cellErr  : Option Nat
  /-- The bytes from the destination address as the MAC received them, where MACsec protects the frame. -/
  raw      : Option (List Byte)
  /-- An RX ring under STREAM had begun its DMA before the frame's end (R256). -/
  dma      : Bool
  deriving DecidableEq, Repr

/-- What an MKA exchange of IEEE 802.1X-2020 came to (R207). -/
inductive MkaEvent where
  | peerLive (sci : Dword) (server : Bool)
  | saInUse (an kn : Nat)
  | other
  deriving DecidableEq, Repr

/-- A failing copy of a stored slot (R534): die, area or region, slot, and whether the twin is good. -/
structure BadCopy where
  die    : Nat
  area   : Nat
  slot   : Nat
  twinOk : Bool
  deriving DecidableEq, Repr

/-- A CAN frame: identifier (a base identifier in bits 28 to 18), its control bits, data length code and data (R449). -/
structure CanFrame where
  id   : Nat
  ide  : Bool
  rtr  : Bool
  fdf  : Bool
  brs  : Bool
  esi  : Bool
  dlc  : Nat
  data : List Byte
  deriving DecidableEq, Repr

/-- What one legacy line delivers of a frame (R481). -/
inductive LineRx where
  | valid | bad | absent
  deriving DecidableEq, Repr

/-- A master frame on an MVB (R474): process data by F_code and port address, event arbitration, message data, device status,
mastership transfer to a device. -/
inductive MvbMaster where
  | process (fcode addr : Nat)
  | event (fcode : Nat)
  | message (dev : Nat)
  | status (dev : Nat)
  | transfer (dev : Nat)
  deriving DecidableEq, Repr

/-- A slave frame on an MVB: process data of a port, a message data packet, any other answer. -/
inductive MvbSlave where
  | process (addr : Nat) (data : List Byte)
  | message (src dst : Nat) (data : List Byte)
  | other
  deriving DecidableEq, Repr

/-- A frame on the WTB: process data of a node, a poll of this node by the master, a message data packet, an inauguration frame. -/
inductive WtbFrame where
  | process (src : Nat) (data : List Byte)
  | poll
  | message (src dst : Nat) (data : List Byte)
  | inauguration
  deriving DecidableEq, Repr

/-- A node of the WTB composition (R483, R493): address, orientation, signed position from this node. -/
structure WtbNode where
  addr   : Nat
  orient : Nat
  pos    : Int
  deriving DecidableEq, Repr

/-- What an image block of a task object is bound to (R320). -/
inductive BlockKind where
  | stream | can | legacy | gpio | taskvar | cycle
  deriving DecidableEq, Repr

/-- An image block of a task object: symbol identifier, direction, kind, what it names, place in its image, and the remote
position it names (R320, R333). -/
structure ObjBlock where
  sym  : Nat
  out  : Bool
  kind : BlockKind
  ref  : Nat
  off  : Nat
  len  : Nat
  pos  : Option Nat
  deriving DecidableEq, Repr

/-- A variable of a task object: ID, type code, size, places in the segment, the input image and the output image, whether it
can be forced, its place in the retain layout, its initial value (R321, R335, R343). -/
structure ObjVar where
  id     : Nat
  typ    : Nat
  size   : Nat
  seg    : Option Nat
  inp    : Option Nat
  outp   : Option Nat
  force  : Bool
  retain : Option Nat
  init   : List Byte
  deriving DecidableEq, Repr

/-- A task object as read: identifier, variables, image blocks (chapter 7). -/
structure TaskObj where
  objId  : Nat
  /-- Marked NONVOTABLE (R428). -/
  nonvote : Bool
  vars   : List ObjVar
  blocks : List ObjBlock
  inLen  : Nat
  outLen : Nat
  segLen : Nat
  deriving DecidableEq, Repr

/-- A node of the train as a completed TTDP inauguration orders it (R94): identity, orientation, committed generation, consist
identifier, vehicles, index of its vehicle, consist direction, form. -/
structure TtdpNode where
  nid       : Nid
  orient    : Bool
  prevGen   : Word
  consistId : Word
  vehCount  : Nat
  vehIndex  : Nat
  cstDir    : Bool
  form      : Nat
  deriving DecidableEq, Repr

/-- A tug frame of a channel other than LINK as it arrives (R406): link, SEQ, ACK where valid, the channel and count of its CREDITS field, TYPE,
payload. -/
structure TugRx where
  link   : Nat
  seq    : Nat
  ack    : Option Nat
  credit : Option (Nat × Nat)
  typ    : Nat
  data   : List Byte
  deriving DecidableEq, Repr

end Sys2Proof
end

