-- ==== Sys2Proof/Syntax.lean ====
section
/-! DEFINITION. The commands of the block: one constructor per row of the opcode table. Each docstring gives the row and its rule. -/
namespace Sys2Proof

/-- One command or event (a row of spec/opcode_table.json). -/
inductive Instr where
  /-- VBAK_APPLIED (R44): VBAK appears while main rails are absent and the node moves from OFF to BACKUP. -/
  | vbakApplied
  /-- VBAK_LOST (R655): VBAK falls below 1.8 V while main rails are absent, so the node enters OFF and the backup counter time is lost. -/
  | vbakLost
  /-- RESET_RELEASE (R660): Reset release 200 µs after PGOOD and RESET_N are high starts the Boot ROM and enters BOOT. -/
  | resetRelease (mode : Nat)
  /-- PGOOD_FALL (R653): PGOOD falls, or a rail monitor trips, and the chip stops MRAM writes, floats its claim and bypass outputs and enters BACKUP or OFF. -/
  | pgoodFall
  /-- RESET_N_LOW (R661): RESET_N held low for at least 10 µs acts as a watchdog reset into BOOT without announcement. -/
  | resetNLow
  /-- RAIL_MONITOR_TRIP (R414): VDD_CORE, VDDA_SD or VDD_MRAM leaves its monitor window, so the claim is released and the chip is held in reset. -/
  | railMonitorTrip
  /-- ROOT_PLL_UNLOCK (R414): Root PLL unlock or loss of REFCLK releases the claim and resets the chip into BOOT. -/
  | rootPllUnlock
  /-- GROOM_LOCKSTEP_MISMATCH (R414): A Groom pair mismatch releases the claim in hardware and resets the chip into BOOT. -/
  | groomLockstepMismatch
  /-- GROOM_PARITY_ERROR (R414): A parity error in Groom local memory releases the claim and resets the chip. -/
  | groomParityError
  /-- GROOM_WATCHDOG_EXPIRY (R414): The Groom firmware watchdog expires after 40 µs without service, releasing the claim and resetting into BOOT. -/
  | groomWatchdogExpiry
  /-- THERMAL_THRESHOLD (R672): The junction crosses 110, 120 or 125 °C, so THERMAL is logged or the chip shuts down as on rail loss. -/
  | thermalThreshold (sensor : Nat) (temp : Int)
  /-- THERMAL_RECOVERY (R672): After a thermal shutdown, the junction falls below 100 °C, which counts as PGOOD rising. -/
  | thermalRecovery
  /-- FIRMWARE_LOAD_DONE (R602): The Boot ROM finishes checking a firmware slot image, then starts it or passes over it and logs FW_SLOT_FAIL. -/
  | firmwareLoadDone
  /-- DL_LOAD (R603): A write of LOAD to DL_CMD makes the chip fetch a firmware image by DMA, check it and start it, or report a refusal. -/
  | dlLoad (image : List Byte) (dmaOk : Bool)
  /-- RECOVERY_SCAN (R543): At firmware start the Studbook checkpoint scan rebuilds each region's next slot and the next SEQ, then writes SCAN_DONE. -/
  | recoveryScan (durationMs : Nat)
  /-- WHOLE_REGION_SCAN_DONE (R544): A whole-region Studbook scan completes, clears SCANNING and writes SCAN_DONE. -/
  | wholeRegionScanDone (durationMs : Nat)
  /-- TACK_SELECT (R616): At BOOT the chip tries the committed banks and the flash tack area, then activates an image and enters READY or enters HELD. -/
  | tackSelect (ms : Nat)
  /-- HELD_FLASH_POLL (R616): Every 10 s in HELD the flash tack area is read, and a new valid image found there is activated. -/
  | heldFlashPoll (image : List Byte)
  /-- TACK_STAGE (R611): Command that writes a chunk of a tack image into the staging bank. -/
  | tackStage (c : Acs)
  /-- TACK_VALIDATE (R610): Command that runs validation checks 1 to 6 on the staged image and returns the result. -/
  | tackValidate (c : Acs)
  /-- TACK_COMMIT (R613): Command that validates the staged image, then stops control at cycle ends before the image is committed. -/
  | tackCommit (c : Acs)
  /-- TACK_COMMIT_ACTIVATE (R613): Once running cycles have committed, the commit record is written, the bank verified and the retain re-stamped, and the command completes before BOOT or READY. -/
  | tackCommitActivate (verified : Bool)
  /-- TACK_READ (R625): Command that returns bytes of the committed or staging bank. -/
  | tackRead (c : Acs)
  /-- TACK_STATUS (R626): Command that returns the commit and staging status. -/
  | tackStatus (c : Acs)
  /-- SEC_STATUS (R626): Command that returns lifecycle, key, floor and slot status. -/
  | secStatus (c : Acs)
  /-- SEC_CHALLENGE (R622): Command that returns a fresh 32-byte nonce for an authorisation. -/
  | secChallenge (c : Acs)
  /-- SEC_AUTHORISE (R622): Command that checks a signature over the nonce, NID and opcode and admits one authorised command. -/
  | secAuthorise (c : Acs)
  /-- SEC_KEY_INSTALL (R620): Authorised command that installs an owner key with a permission mask. -/
  | secKeyInstall (c : Acs)
  /-- SEC_KEY_REVOKE (R624): Authorised command that revokes an owner slot or blows a firmware key fuse. -/
  | secKeyRevoke (c : Acs)
  /-- SEC_ADVANCE (R624): Authorised command that raises the FW_SVN or TACK_SVN floor. -/
  | secAdvance (c : Acs)
  /-- SEC_LOCK (R621): Authorised command that moves the lifecycle from OPEN to SECURED. -/
  | secLock (c : Acs)
  /-- SEC_DEBUG_UNLOCK (R623): Authorised command in HELD that unlocks JTAG until the next BOOT. -/
  | secDebugUnlock (c : Acs)
  /-- SEC_FW_WRITE (R626): Command that writes a chunk of firmware into the slot that is not running. -/
  | secFwWrite (c : Acs)
  /-- SEC_FW_SELECT (R626): Authorised command that makes a slot with a valid image the preferred slot for the next BOOT. -/
  | secFwSelect (c : Acs)
  /-- STABLE_IDLE_EXPIRY (R617): STABLE_IDLE elapses in READY or RUN and the STABLED entry sequence begins. -/
  | stableIdleExpiry
  /-- STABLED_ENTRY_DONE (R617): Once control has stopped and removal is announced, ports, CAN and DRAM are put to standby and the node reads STABLED. -/
  | stabledEntryDone
  /-- WAKE_IN_EDGE (R618): An edge of WAKE_IN to its active level, held 100 µs, wakes the node from STABLED or restarts the idle timer. -/
  | wakeInEdge
  /-- WAKE_ALARM_EXPIRY (R619): WAKE_ALARM elapses on the backup counter, waking the node or pulsing WAKE_OUT from VBAK. -/
  | wakeAlarmExpiry
  /-- WAKE_OUT_PULSE_END (R618): The 100 ms WAKE_OUT pulse ends and the output returns low. -/
  | wakeOutPulseEnd
  /-- BYPASS_ANNOUNCE_EXPIRY (R87): The 1 ms after BYPASSING was sent ends and the bypass outputs are asserted. -/
  | bypassAnnounceExpiry
  /-- BYPASS_SETTLE_EXPIRY (R212): BYPASS_SETTLE ends after the bypass was asserted, so queued frames are discarded as STATE_DROP. -/
  | bypassSettleExpiry
  /-- BATCH_SUBMIT (R572): A doorbell write with ABORT 0 accepts a batch, or sets OVERRUN or BAD_BATCH. -/
  | batchSubmit (m : Nat) (count : Nat) (seq : Half)
  /-- BATCH_ABORT (R576): A doorbell write with ABORT 1 completes unstarted commands with TIMEOUT and lets started ones finish. -/
  | batchAbort (m : Nat)
  /-- BATCH_COMPLETE (R575): The last command of a batch completes, and DONE_SEQ, DONE and BUSY are updated in one update. -/
  | batchComplete (m : Nat)
  /-- MBX_REQUEST_WRITE (R573): A host write to a request buffer is stored, or is discarded with OVERRUN while BUSY. -/
  | mbxRequestWrite (m : Nat) (off : Nat) (data : List Byte)
  /-- CAUSE_CLEAR (R589): A W1C write clears cause bits and resends the vector message if another unmasked cause of that vector is still set. -/
  | causeClear (off : Nat) (value : Word)
  /-- MSIX_VECTOR_UNMASK (R589): Unmasking an MSI-X vector with its pending bit set sends the message if a cause is still set. -/
  | msixVectorUnmask (v : Nat)
  /-- REGISTER_WRITE (R14): A write to a register with no behaviour of its own updates its fields, keeping fields written with a reserved encoding. -/
  | registerWrite (off : Nat) (value : Word)
  /-- UNSUPPORTED_ACCESS (R559): A non-aligned or partial Window C access is refused without effect and counted. -/
  | unsupportedAccess
  /-- HOST_WATCH_WRITE (R595): A write with ARMED 1 arms and restarts the host watchdog and clears EXPIRED. -/
  | hostWatchWrite (value : Word)
  /-- HOST_WATCH_EXPIRY (R595): The host watchdog expires, so rings stop, busy mailboxes abort and HOST_LOST is raised. -/
  | hostWatchExpiry
  /-- PCIE_RESET (R596): PCIe link-down, hot reset, PERST_N release or FLR stops rings, aborts mailboxes and resets masks. -/
  | pcieReset (kind : Nat)
  /-- PCIE_LINK_UP (R596): The PCIe link comes up and HOST_LINK is logged. -/
  | pcieLinkUp (speed : Nat) (width : Nat)
  /-- PCIE_DMA_ERROR (R268): A PCIe error in a descriptor or data access clears the ring's ENABLE, sets FETCH_ERROR and logs RING_ERROR. -/
  | pcieDmaError (tx : Bool) (ring : Nat) (kind : Nat) (status : Word) (descs : List (List Byte))
  /-- QSPI_WRITE (R560): A QSPI single-lane write transaction writes words to Window C or M. -/
  | qspiWrite (addr : Nat) (data : List Byte)
  /-- QSPI_WRITE_QUAD (R560): A QSPI quad write transaction writes words to Window C or M. -/
  | qspiWriteQuad (addr : Nat) (data : List Byte)
  /-- QSPI_READ (R560): A QSPI single-lane read transaction returns a marker and then words. -/
  | qspiRead (addr : Nat) (words : Nat) (cut : Bool)
  /-- QSPI_READ_QUAD (R560): A QSPI quad read transaction returns a marker and then words. -/
  | qspiReadQuad (addr : Nat) (words : Nat) (cut : Bool)
  /-- QSPI_STATUS (R560): A QSPI status transaction returns READY, IRQ and ERR and clears ERR. -/
  | qspiStatus
  /-- STAT_COUNTER_READ (R271): A read of a statistics counter returns it and clears it. -/
  | statCounterRead (off : Nat)
  /-- SAT_MAP_READ (R271): A read of a saturation map returns it and clears it. -/
  | satMapRead (off : Nat)
  /-- SNAP_FC_LO_READ (R149): A read of SNAP_FC_LO latches every SNAP_ register from one instant. -/
  | snapFcLoRead
  /-- PPSIN_STAT_READ (R149): A read of PPSIN_STAT latches the PPS_IN capture and clears NEW and OVR. -/
  | ppsinStatRead
  /-- TXTS_POP (R154): A read of TXTS_POP removes and returns the head entry of the selected port's timestamp queue. -/
  | txtsPop
  /-- SYS_IDENTIFY (R593): Command that returns the identity, serial, NID, form and tack fingerprint. -/
  | sysIdentify (c : Acs)
  /-- SYS_STATE (R593): Command that returns the node state registers and LOST mask taken at one instant. -/
  | sysState (c : Acs)
  /-- SYS_FENCE (R584): Command that waits for all preceding commands and, optionally, ring write-backs and Studbook commits. -/
  | sysFence (c : Acs)
  /-- SYS_RESTART (R594): Command that takes the chip into BOOT within 1 ms, with a START mode for the next control start. -/
  | sysRestart (c : Acs)
  /-- SYS_STABLE (R617): Node-wide command that starts the STABLED entry sequence. -/
  | sysStable (c : Acs)
  /-- RING_ENABLE (R245): Setting RING_CTRL.ENABLE starts a host ring. -/
  | ringEnable (tx : Bool) (ring : Nat) (value : Word)
  /-- RING_DISABLE (R245): Clearing RING_CTRL.ENABLE finishes the frame in progress, sets STOPPED and zeroes HEAD and TAIL. -/
  | ringDisable (tx : Bool) (ring : Nat)
  /-- RING_TAIL_WRITE (R249): A RING_TAIL write gives descriptors to the chip, which may then fetch them. -/
  | ringTailWrite (tx : Bool) (ring : Nat) (index : Nat)
  /-- TX_FRAME_FETCHED (R264): A TX frame read from host memory is admitted, placed in the launch list or dropped, and is written back with its RESULT. -/
  | txFrameFetched (ring : Nat) (descs : List (List Byte)) (data : List Byte)
  /-- TX_FENCE_RELEASE (R266): The frames that a FENCE or FENCE_ALL frame waits for have left, so the fenced frame is admitted. -/
  | txFenceRelease (ring : Nat)
  /-- RX_RING_DELIVER (R255): A frame waiting for descriptors is written to an RX ring and written back, status words last. -/
  | rxRingDeliver (ring : Nat) (bufs : List Nat) (cutAt : Nat)
  /-- RX_HOLD_EXPIRY (R255): A frame has waited HOLD_US at the head of its ring's queue and is dropped whole as RXR_DROP. -/
  | rxHoldExpiry (ring : Nat)
  /-- RING_IRQ_DELAY_EXPIRY (R250): DELAY_US elapses after an unreported completion and the ring's vector is raised. -/
  | ringIrqDelayExpiry (tx : Bool) (ring : Nat)
  /-- LINK_UP (R66): A PHY reports link up on a port, starting LINK_DEBOUNCE and MAC merge verification. -/
  | linkUp (port : Nat) (rate : Nat)
  /-- LINK_DOWN (R63): A PHY reports link down, losing the neighbour on that line and counting link loss. -/
  | linkDown (port : Nat) (cutOff : Bool)
  /-- LINK_DEBOUNCE_EXPIRY (R66): LINK_DEBOUNCE ends, so the port begins hitch frames and supervision and MKA starts. -/
  | linkDebounceExpiry (port : Nat)
  /-- FRAME_RECEIVE (R168): A frame received on an external port passes the switch stages and is queued, forwarded cut-through or dropped. -/
  | frameReceive (port : Nat) (rx : RxFrame)
  /-- FRAME_TRANSMIT_DONE (R191): A frame finishes transmission on a port, its timestamp entry is made and the next eligible frame is selected. -/
  | frameTransmitDone (port : Nat) (cls : Nat) (stamp : Stamp) (frags : Nat)
  /-- CELL_PARITY_ERROR (R209): An egress read finds a parity error in a frame's cell, so the frame is dropped or stomped and recovered from its twin where possible. -/
  | cellParityError (port : Nat) (cls : Nat) (cell : Nat) (later : Bool)
  /-- FRER_HOLD_EXPIRY (R202): A frame held on a slot for more than 2 ms is discarded. -/
  | frerHoldExpiry (ctx : Nat) (seq : Nat)
  /-- FRER_RESET_TIMER_EXPIRY (R201): RESET_TIME passes with no frame passed, so the context becomes fresh and held frames are discarded. -/
  | frerResetTimerExpiry (ctx : Nat)
  /-- FRER_LATENT_PERIOD_END (R204): A LATENT_PERIOD ends and a line that delivered nothing is marked silent, or a mark clears. -/
  | frerLatentPeriodEnd (ctx : Nat)
  /-- ADDRESS_AGE_OUT (R178): A learned address entry reaches AGE_TIME and is removed. -/
  | addressAgeOut (mac : Mac) (vid : Nat)
  /-- GATE_EVENT (R193): A gate control list entry begins at its tick and sets the gate states and hold or release. -/
  | gateEvent (port : Nat) (err : Bool)
  /-- GATE_CONFIG_CHANGE (R194): At the config change time the pending gate list replaces the current one. -/
  | gateConfigChange (port : Nat)
  /-- LAUNCH_TIME_REACHED (R137): A launched frame's tick arrives, and it joins its class queue and is sent, dropped or sent late. -/
  | launchTimeReached (ctx : Bool) (source : Nat) (lateNs : Nat)
  /-- PAUSE_FRAME_RECEIVE (R232): A received pause frame pauses the port, restarts the pause, ends it, or is ignored. -/
  | pauseFrameReceive (port : Nat) (quanta : Nat) (sa : Mac)
  /-- PAUSE_EXPIRY (R232): The pause time of the paused state runs out and transmission resumes. -/
  | pauseExpiry (port : Nat)
  /-- PAUSE_WATCHDOG (R235): Continuous pause reaches PAUSE_WD_LIMIT, so the pause ends and pause frames are ignored for the hold-off. -/
  | pauseWatchdog (port : Nat)
  /-- PAUSE_HOLDOFF_EXPIRY (R235): PAUSE_WD_HOLDOFF ends and the port honours pause frames again. -/
  | pauseHoldoffExpiry (port : Nat)
  /-- PAUSE_REFRESH (R236): Half the pause time passes while ingress occupancy exceeds XON, and the XOFF pause frame is repeated. -/
  | pauseRefresh (port : Nat)
  /-- VERIFY_FRAME_RECEIVE (R225): A verify frame from the peer is answered with a respond frame. -/
  | verifyFrameReceive (port : Nat)
  /-- RESPOND_FRAME_RECEIVE (R226): A respond frame makes verification SUCCEEDED and activates preemption. -/
  | respondFrameReceive (port : Nat)
  /-- VERIFY_TIME_EXPIRY (R226): VERIFY_TIME passes without a response, so another verify frame is sent or the state becomes FAILED. -/
  | verifyTimeExpiry (port : Nat)
  /-- MKA_FRAME_RECEIVE (R207): An EAPOL MKA frame on a backbone port is handled by MKA in the Groom firmware. -/
  | mkaFrameReceive (port : Nat) (ev : MkaEvent)
  /-- MKA_HELLO_TIMER (R207): The 2 s MKA hello time elapses and an MKA hello is sent. -/
  | mkaHelloTimer (port : Nat)
  /-- MKA_LIFETIME_EXPIRY (R207): The 6 s MKA lifetime passes without a live peer. -/
  | mkaLifetimeExpiry (port : Nat)
  /-- SAK_REKEY_TIMER (R207): The rekey interval elapses and the key server distributes a new SAK. -/
  | sakRekeyTimer (port : Nat)
  /-- TABLE_RELOAD_DONE (R632): A Harness table entry reload from the tack image completes. -/
  | tableReloadDone (table : Nat) (port : Nat) (index : Nat)
  /-- PORT_FDB_READ (R217): Command that reads address table entries from a cursor. -/
  | portFdbRead (c : Acs)
  /-- PORT_FDB_WRITE (R218): Command that adds, replaces or removes a static address entry. -/
  | portFdbWrite (c : Acs)
  /-- PORT_FDB_FLUSH (R217): Command that removes learned entries by port mask and VID. -/
  | portFdbFlush (c : Acs)
  /-- PORT_VLAN_SET (R217): Command that sets a VID's member and untag masks. -/
  | portVlanSet (c : Acs)
  /-- PORT_GATE_SET (R194): Command that sets a pending gate list and returns its config change time. -/
  | portGateSet (c : Acs)
  /-- PORT_GATE_STATUS (R217): Command that returns the operational and pending gate list headers. -/
  | portGateStatus (c : Acs)
  /-- PORT_QUOTA_SET (R217): Command that sets the RESERVE and QUOTA of an egress queue. -/
  | portQuotaSet (c : Acs)
  /-- PORT_PSFP_SET (R198): Command that sets a stream filter or meter, or clears a filter block. -/
  | portPsfpSet (c : Acs)
  /-- PORT_FRER_STATUS (R220): Command that returns a recovery context's state and counts. -/
  | portFrerStatus (c : Acs)
  /-- PORT_MACSEC_STATUS (R221): Command that returns a backbone port's MACsec state. -/
  | portMacsecStatus (c : Acs)
  /-- PORT_FORWARD (R222): Command that disables or enables forwarding on ports 4 to 14. -/
  | portForward (c : Acs)
  /-- PORT_MAC_STATUS (R276): Command that returns a port's link, merge and pause state. -/
  | portMacStatus (c : Acs)
  /-- PORT_MAC_SET (R277): Command that sets a port's pause and merge parameters, restarting verification on a merge change. -/
  | portMacSet (c : Acs)
  /-- PORT_WAKE_SET (R278): Command that writes wake patterns of a port and restarts its match counts. -/
  | portWakeSet (c : Acs)
  /-- PORT_WAKE_READ (R275): Command that returns a port's wake patterns and match counts. -/
  | portWakeRead (c : Acs)
  /-- SYNC_RECEIVE (R128): A Sync of a domain updates the servo, starts or confirms a step candidate, locks a FREE domain, or counts towards return. -/
  | syncReceive (dom : Nat) (line : Line) (offset : Int)
  /-- SYNC_TIMEOUT (R128): SYNC_TIMEOUT intervals pass without Sync and the domain enters HOLDOVER. -/
  | syncTimeout (dom : Nat)
  /-- ANNOUNCE_RECEIVE (R123): An Announce frame feeds the BMCA and may change the grandmaster. -/
  | announceReceive (dom : Nat) (gm : Nid) (own : Bool)
  /-- ANNOUNCE_TIMEOUT (R123): The Announce receipt timeout of IEEE 802.1AS-2020 expires on a port. -/
  | announceTimeout (dom : Nat) (port : Nat) (gm : Nid) (own : Bool)
  /-- PDELAY_MESSAGE_RECEIVE (R122): A peer-delay message on a consist port or MG0 is answered or used to measure link delay. -/
  | pdelayMessageReceive (port : Nat) (typ : Nat) (delay : Nat)
  /-- SYNC_INTERVAL_TICK (R125): A sync interval elapses and the chip sends Sync and Follow_Up on its master ports. -/
  | syncIntervalTick (dom : Nat) (ports : List Nat)
  /-- BACKUP_COUNTER_WRITE (R147): At each second boundary while a domain is LOCKED, selected train time is written to the backup counter. -/
  | backupCounterWrite
  /-- PPS_OUT_PULSE (R141): At a PPS_PERIOD boundary of the named domain a PPS_OUT pulse is emitted. -/
  | ppsOutPulse
  /-- PPS_IN_EDGE (R142): A PPS_IN rising edge is stamped and may discipline the domain or apply a pending TIME_SET. -/
  | ppsInEdge (stamp : Stamp) (highNs : Nat)
  /-- SYNC_OUT_PULSE (R144): The Troika time leader drives the SYNC pulse at each 1 ms counter multiple and sends its counter value. -/
  | syncOutPulse
  /-- SYNC_IN_EDGE (R144): A Troika chip stamps the SYNC pulse, computes TB_DELTA and locks or loses lock. -/
  | syncInEdge (stamp : Stamp) (leader : Nat)
  /-- SYNC_PULSE_TIMEOUT (R144): Two SYNC pulses are missed and the time base loses lock. -/
  | syncPulseTimeout
  /-- TIME_CHANGE_EFFECTIVE (R145): The leader tick tagged on a time change arrives and the chip applies the change. -/
  | timeChangeEffective
  /-- TIME_STATUS (R160): Command that returns epoch, selection and the state of both domains. -/
  | timeStatus (c : Acs)
  /-- TIME_SELECT (R161): Command that switches the selected domain, with or without a step. -/
  | timeSelect (c : Acs)
  /-- TIME_SET (R162): Command that sets a grandmaster domain's time at command start or at the next PPS_IN edge. -/
  | timeSet (c : Acs)
  /-- TIME_SET_TIMEOUT (R162): No PPS_IN edge arrives within 2 s of a mode 0 TIME_SET, which completes with TIMEOUT. -/
  | timeSetTimeout
  /-- TIME_CONVERT (R163): Command that converts between ticks and selected train time. -/
  | timeConvert (c : Acs)
  /-- TIME_LINKS (R164): Command that returns link delay and asymmetry per backbone port. -/
  | timeLinks (c : Acs)
  /-- TIME_PPS (R159): Command that sets PPS_OUT period, domain, polarity and width. -/
  | timePps (c : Acs)
  /-- HITCH_BEAT (R51): At each 1 ms counter multiple a beat frame is sent on every linked backbone port in use. -/
  | hitchBeat
  /-- HITCH_FRAME_RECEIVE (R59): A hitch frame is checked, updates the vector for its side and may declare coupling, change or commit. -/
  | hitchFrameReceive (port : Nat) (frame : Frame) (stamp : Stamp)
  /-- HITCH_PROPOSE (R69): Within 1 ms of a new complete chain the node computes a proposal or refuses the chain. -/
  | hitchPropose
  /-- HITCH_SWITCH (R71): The switch step ends: generation, numbering, links, bindings and addresses take the new values and HITCHED is raised. -/
  | hitchSwitch
  /-- NEIGHBOUR_LOSS_TIMEOUT (R63): LOSS_COUNT beat periods pass without a valid hitch frame and the neighbour is lost on that line. -/
  | neighbourLossTimeout (port : Nat)
  /-- LINE_SETTLE_EXPIRY (R68): LINE_SETTLE elapses after a one-line coupling, so a round starts and the absent line is faulted. -/
  | lineSettleExpiry (dir : Nat)
  /-- HITCH_PENDING_EXPIRY (R75): LINK_DEBOUNCE plus LINE_SETTLE elapse after entry into READY and a round starts. -/
  | hitchPendingExpiry
  /-- BYPASS_WINDOW_EXPIRY (R75): BYPASS_WINDOW expires without the successor appearing and an uncoupling is declared. -/
  | bypassWindowExpiry
  /-- TTDP_HELLO_RECEIVE (R94): A TTDP HELLO or TOPOLOGY frame is taken by the Hitch unit. -/
  | ttdpHelloReceive (port : Nat)
  /-- TTDP_HELLO_TIMEOUT (R94): 10 ms pass after a TTDP HELLO without a valid hitch frame and the node enters TTDP-compatible mode. -/
  | ttdpHelloTimeout (port : Nat)
  /-- TTDP_HELLO_SEND (R93): The slow HELLO interval elapses and TTDP HELLO frames are sent. -/
  | ttdpHelloSend
  /-- INHIBIT_INPUT_CHANGE (R90): The INHIBIT_GPIO input changes level and the node's INHIBIT is re-evaluated. -/
  | inhibitInputChange (gpio : Nat) (level : Bool)
  /-- HITCH_STATUS (R104): Command that returns the committed generation, fingerprint and hitch process state. -/
  | hitchStatus (c : Acs)
  /-- HITCH_TOPOLOGY (R105): Command that returns the committed train topology. -/
  | hitchTopology (c : Acs)
  /-- HITCH_LINKS (R106): Command that returns the state of each backbone port's link. -/
  | hitchLinks (c : Acs)
  /-- HITCH_INHIBIT (R103): Node-wide command that asserts or releases the host inhibit source. -/
  | hitchInhibit (c : Acs)
  /-- HITCH_REQUEST (R107): Node-wide command that starts or joins a round and completes once it completes. -/
  | hitchRequest (c : Acs)
  /-- HITCH_REQUEST_TIMEOUT (R107): No switch within 100 ms of a HITCH_REQUEST, which completes with TIMEOUT. -/
  | hitchRequestTimeout (mbx : Nat) (idx : Nat)
  /-- HITCH_WAIT (R108): Command that waits until HITCH_GEN differs from a given generation. -/
  | hitchWait (c : Acs)
  /-- HITCH_WAIT_TIMEOUT (R108): The HITCH_WAIT timeout elapses first and the command completes with TIMEOUT. -/
  | hitchWaitTimeout (mbx : Nat) (idx : Nat)
  /-- STREAM_SNAPSHOT (R285): SNAP_LEAD before a publication instant the payload is snapshot and the frame queued for launch. -/
  | streamSnapshot (ctx : Nat) (err : Nat)
  /-- STREAM_FRAME_RECEIVE (R294): A stream frame handed to a SUBSCRIBE context is checked and accepted or dropped, updating freshness. -/
  | streamFrameReceive (ctx : Nat) (port : Nat) (frame : Frame) (stamp : Stamp) (err : Nat)
  /-- FRESH_TIMEOUT_EXPIRY (R295): FRESH_TIMEOUT passes without an accepted frame, so the context becomes LOST and SAFE_POLICY applies. -/
  | freshTimeoutExpiry (ctx : Nat)
  /-- HOLD_PERIODS_EXPIRY (R296): HOLD_PERIODS periods pass in LOST under HOLD_THEN_SAFE and the safe value is presented. -/
  | holdPeriodsExpiry (ctx : Nat)
  /-- SWITCH_GRACE_EXPIRY (R292): SWITCH_GRACE ends and the previous generation's position sources are no longer accepted. -/
  | switchGraceExpiry
  /-- CTX_RELOAD (R301): A stream context record reload from the tack image completes. -/
  | ctxReload (ctx : Nat)
  /-- STREAM_STATUS (R308): Command that returns a stream context's state and counts. -/
  | streamStatus (c : Acs)
  /-- STREAM_READ (R306): Command that returns the stream context record in force. -/
  | streamRead (c : Acs)
  /-- STREAM_PUT (R307): Node-wide command that writes a SOURCE HOST payload for the next snapshot. -/
  | streamPut (c : Acs)
  /-- STREAM_GET (R309): Command that returns a subscriber's presented image and header. -/
  | streamGet (c : Acs)
  /-- STREAM_LINE (R307): Node-wide command that changes a non-replicated publisher's line mode. -/
  | streamLine (c : Acs)
  /-- STREAM_ENABLE (R306): Node-wide command that enables or disables a stream context. -/
  | streamEnable (c : Acs)
  /-- LATCH (R315): At a task's grid instant its inputs are copied into its input image. -/
  | latch (task : Nat) (err : Nat) (ctxErr : Option Nat)
  /-- TASK_EXECUTION_END (R323): A task's execution ends on its pair and the pair runs the next ready task. -/
  | taskExecutionEnd (task : Nat) (working : List Byte) (outImage : List Byte) (ns : Nat)
  /-- COMMIT (R325): At the deadline the forces are applied, the bank committed, outputs copied to sinks and the retain write started. -/
  | commit (task : Nat) (err : Nat) (canBad : Option (Nat × Nat))
  /-- CONTROL_LOCKSTEP_MISMATCH (R326): A control-core pair mismatch stops the pair, and the task is run again or its cycle held. -/
  | controlLockstepMismatch (pair : Nat)
  /-- PAIR_RESYNC_DONE (R326): A stopped pair finishes resynchronising and the faulting task runs again. -/
  | pairResyncDone (pair : Nat)
  /-- MEMORY_PARITY_ERROR (R328): A variable store, local memory or DRAM guard fails during a cycle, and the task is run again, held or faulted. -/
  | memoryParityError (kind : Nat) (task : Nat) (addr : Nat)
  /-- PAGE_RELOAD_DONE (R328): A task code page reload from the tack store completes. -/
  | pageReloadDone (task : Nat) (ok : Bool)
  /-- FW_PAGE (R634): A firmware code or data page CRC error is repaired and the firmware step repeated or the structure rebuilt. -/
  | fwPage (kind : Nat) (addr : Nat) (source : Nat)
  /-- RETAIN_WRITE_DONE (R336): A retain write finishes on both dies, or a die fails verification and is marked degraded. -/
  | retainWriteDone (task : Nat) (ok0 : Bool) (ok1 : Bool)
  /-- START_WAIT_EXPIRY (R340): START_WAIT elapses after READY without a first hitch and automatic control start begins. -/
  | startWaitExpiry
  /-- CONTROL_START (R340): Control starts COLD or WARM, retained state is restored and the node enters RUN or DEGRADED. -/
  | controlStart
  /-- TASK_LIST (R357): Command that returns the state of every task. -/
  | taskList (c : Acs)
  /-- TASK_START (R340): Node-wide command that starts control COLD or WARM from READY. -/
  | taskStart (c : Acs)
  /-- TASK_STOP (R356): Node-wide command that stops a task as STOP_TASK does. -/
  | taskStop (c : Acs)
  /-- TASK_RESUME (R356): Node-wide command that restarts a stopped task from its committed bank. -/
  | taskResume (c : Acs)
  /-- TASK_SWAP (R348): Node-wide command that checks the staged object and schedules its swap cycle. -/
  | taskSwap (c : Acs)
  /-- TASK_STAGE (R347): Command that writes a chunk of a task object into the staging area. -/
  | taskStage (c : Acs)
  /-- FORCE_SET (R359): Node-wide command that sets or replaces a force, effective at the owner's next latch. -/
  | forceSet (c : Acs)
  /-- FORCE_RELEASE (R344): Node-wide command that releases a force at the owner's next latch. -/
  | forceRelease (c : Acs)
  /-- FORCE_LIST (R356): Command that returns force table entries. -/
  | forceList (c : Acs)
  /-- FORCE_RELEASE_ALL (R356): Node-wide command that releases every force. -/
  | forceReleaseAll (c : Acs)
  /-- SCHEDULED_ROUND (R375): At each PLACE_PERIOD instant a Wrangler round snapshots and sends REPORT. -/
  | scheduledRound (resA : Nat) (resB : Nat)
  /-- REPORT_RECEIVE (R372): A Wrangler REPORT is kept for its round, starting that round if it has not started. -/
  | reportReceive (f : Frame)
  /-- VERDICT_RECEIVE (R374): A Wrangler VERDICT is kept for agreement on its round. -/
  | verdictReceive (f : Frame)
  /-- WRANGLER_FREEZE (R376): At the first tick boundary 4 ms after the snapshot the input set is frozen and computation begins. -/
  | wranglerFreeze
  /-- PLACEMENT_COMPUTED (R377): The placement computation ends and VERDICT is sent. -/
  | placementComputed
  /-- PLACEMENT_APPLY (R376): At a tick boundary with agreeing VERDICTs from every member, adoptions, stops and migrations start. -/
  | placementApply
  /-- ROUND_DISAGREE_CHECK (R381): At the second tick boundary after freeze a round without agreeing VERDICTs is disagreed and may lead to fallback. -/
  | roundDisagreeCheck
  /-- DWELL_EXPIRY (R380): MIN_DWELL ends for a moved or adopted unit, which may take improving moves again. -/
  | dwellExpiry (placeId : Nat)
  /-- STATE_RECEIVE (R384): A Wrangler STATE frame of FULL, DELTA, META or OUTPUT is applied at the migration destination. -/
  | stateReceive (f : Frame)
  /-- ACK_RECEIVE (R384): A Wrangler ACK tells the migration source that a cycle's state was applied. -/
  | ackReceive (f : Frame)
  /-- RELEASE_RECEIVE (R386): A Wrangler RELEASE lets the destination take ownership at its next commit. -/
  | releaseReceive (f : Frame)
  /-- TAKEN_RECEIVE (R386): A Wrangler TAKEN ends the source's repetition of RELEASE, META and OUTPUT. -/
  | takenReceive (f : Frame)
  /-- ABORT_RECEIVE (R387): A Wrangler ABORT makes the destination disable the task's contexts and discard its state. -/
  | abortReceive (f : Frame)
  /-- MIGRATE_ABORT (R387): A migration with no overlap cycle in PLACE_PERIOD, or past MIG_EXTEND_MAX cycles, is aborted by its source. -/
  | migrateAbort (task : Nat)
  /-- WRANGLER_STATUS (R400): Command that returns the last applied round's status. -/
  | wranglerStatus (c : Acs)
  /-- WRANGLER_PLACEMENT (R401): Command that returns placement entries of the last applied round. -/
  | wranglerPlacement (c : Acs)
  /-- WRANGLER_HOLD (R402): Node-wide command that asserts or releases HOLD in this node's reports. -/
  | wranglerHold (c : Acs)
  /-- TUG_HELLO_RECEIVE (R405): A tug-link HELLO is compared with the reference chip, forming the node or entering HELD on mismatch. -/
  | tugHelloReceive (link : Nat) (data : List Byte)
  /-- TUG_HELLO_SEND (R409): Every 1 ms until the peer's HELLO is accepted, a HELLO is sent. -/
  | tugHelloSend
  /-- HEARTBEAT_SEND (R409): Every 10 µs the hardware sends a HEARTBEAT. -/
  | heartbeatSend
  /-- HEARTBEAT_RECEIVE (R410): A valid HEARTBEAT updates the peer's claim and credits and may bring the link up. -/
  | heartbeatReceive (link : Nat) (data : List Byte)
  /-- TUG_LINK_DOWN (R410): Block lock is lost or 4 HEARTBEAT periods pass without one, so the tug link goes down. -/
  | tugLinkDown (link : Nat) (lockLost : Bool)
  /-- TUG1_HANDBACK (R410): TUG0 has been up for 1 s and the spare TUG1 hands its channels back. -/
  | tug1Handback
  /-- TIMING_RECEIVE (R409): A tug-link TIMING message updates the tug-link delay measurement. -/
  | timingReceive (link : Nat) (stamp : Stamp) (data : List Byte)
  /-- NAK_RECEIVE (R408): A NAK makes the sender resend from the expected SEQ with REPLAY set. -/
  | nakReceive (link : Nat) (data : List Byte)
  /-- TUG_REPLAY_TIMEOUT (R408): 4 µs pass without acknowledgement and the sender replays unacknowledged frames. -/
  | tugReplayTimeout (link : Nat)
  /-- TUG_FRAME_ERROR (R408): A tug frame arrives with a CRC error or SEQ gap, so it is discarded and a NAK sent. -/
  | tugFrameError (link : Nat) (crc : Bool)
  /-- TUG_SYNC_MESSAGE (R407): A SYNC channel message arrives: a time pulse value, time change, hitch or gPTP relay, or node event. -/
  | tugSyncMessage (m : TugRx)
  /-- SAFE_NODE_EVENT (R421): A node-wide SAFE event from the active makes the standby enter SAFE without claiming. -/
  | safeNodeEvent (m : TugRx)
  /-- STATE_PART_RECEIVE (R417): A Span STATE part of DELTA, OUTPUT, META, FULL or ACK is applied to the standby copy or processed by the active. -/
  | statePartReceive (m : TugRx)
  /-- STATE_END_RECEIVE (R417): A STATE END completes a cycle on the standby after its bank check, or requests FULL on mismatch. -/
  | stateEndReceive (m : TugRx)
  /-- AGREE_INPUT_RECEIVE (R422): A member's INPUT image arrives, and once every image is held the agreed image is formed. -/
  | agreeInputReceive (m : TugRx)
  /-- AGREE_TIMEOUT (R423): 20 µs after the latch the agreed image is formed from the images held. -/
  | agreeTimeout (task : Nat)
  /-- AGREE_OUTPUT_RECEIVE (R425): A member's OUTPUT or CHECK arrives, and once all are held the vote is taken. -/
  | agreeOutputReceive (m : TugRx)
  /-- VOTE_TIMEOUT (R425): 20 µs after the commit instant the vote is taken on the images held. -/
  | voteTimeout (task : Nat)
  /-- FRAME_SEGMENT_RECEIVE (R412): A FRAME channel segment is reassembled into an Ethernet frame entering the peer's switch. -/
  | frameSegmentReceive (m : TugRx)
  /-- MGMT_COMMAND_RECEIVE (R413): A forwarded ACS command arrives at the coordinator or a chip for node-wide application. -/
  | mgmtCommandReceive (m : TugRx)
  /-- MGMT_RESPONSE_RECEIVE (R413): A forwarded ACS response arrives at the chip that received the command. -/
  | mgmtResponseReceive (m : TugRx)
  /-- NODE_WIDE_APPLY (R432): At its effective instant a node-wide command is applied on every chip. -/
  | nodeWideApply
  /-- NODE_WIDE_TIMEOUT (R433): A chip has not applied a node-wide command within 10 ms and is treated as having lost its tug links. -/
  | nodeWideTimeout
  /-- PEER_CLAIM_CHANGE (R415): A PEER_CLAIM_IN input changes level, starting or stopping the claim wait or changing Troika membership. -/
  | peerClaimChange (pin : Nat) (level : Bool)
  /-- CLAIM_WAIT_EXPIRY (R415): PEER_CLAIM_IN0 has stayed low for 10 or 30 µs and the chip asserts CLAIM_OUT and takes over. -/
  | claimWaitExpiry
  /-- CLAIM_WIRE_TIMEOUT (R416): PEER_CLAIM_IN0 reads low for 1 ms while HEARTBEATs carry CLAIM, so CLAIM_WIRE is logged. -/
  | claimWireTimeout
  /-- REJOIN_MEMBERSHIP (R430): At the first whole second 10 ms after synchronisation a rejoining chip becomes a member. -/
  | rejoinMembership
  /-- REDUND_STATUS (R440): Command that returns the chip's role and membership. -/
  | redundStatus (c : Acs)
  /-- REDUND_TUG (R441): Command that returns the state of both tug links. -/
  | redundTug (c : Acs)
  /-- REDUND_SWITCH (R439): Node-wide command that schedules the active's claim release for a Span switch. -/
  | redundSwitch (c : Acs)
  /-- REDUND_SWITCH_INSTANT (R419): At the requested instant the active sends END of each commit and releases its claim, becoming STANDBY. -/
  | redundSwitchInstant
  /-- REDUND_EXCLUDE (R439): Command that excludes a Troika chip from the vote. -/
  | redundExclude (c : Acs)
  /-- REDUND_REJOIN (R430): Command that starts synchronisation of an excluded chip. -/
  | redundRejoin (c : Acs)
  /-- CAN_FRAME_RECEIVE (R453): A CAN frame received without error is delivered to a buffer, the FIFO or nowhere, and may wake or match a transaction. -/
  | canFrameReceive (ch : Nat) (f : CanFrame) (sof : Nat) (bad : Option Nat)
  /-- CAN_TX_SUCCESS (R457): A CAN frame is sent successfully, so the buffer becomes TX_DONE and its TX_EVENT bit sets. -/
  | canTxSuccess (ch : Nat)
  /-- CAN_ARBITRATION_LOST (R457): A frame loses arbitration and its buffer returns to TX_PENDING. -/
  | canArbitrationLost (ch : Nat)
  /-- CAN_ERROR_DETECTED (R461): A CAN error updates the error counters and state, and signals an error frame. -/
  | canErrorDetected (ch : Nat) (tx : Bool) (kind : Nat) (inData : Bool) (exempt : Bool) (extra : Nat) (tdc : Bool)
  /-- BUS_OFF_RECOVERED (R462): After 128 occurrences of 11 recessive bits the channel returns to error active. -/
  | busOffRecovered (ch : Nat)
  /-- CAN_INTEGRATION_DONE (R445): After 11 recessive bits the channel takes part in bus traffic. -/
  | canIntegrationDone (ch : Nat)
  /-- CAN_WAKE_ACTIVITY (R467): A dominant level held for WAKE_FILTER in STABLED is a wake event. -/
  | canWakeActivity (ch : Nat)
  /-- CAN_BUFFER_WORD0_READ (R454): A read of word 0 locks a HOST RX buffer and latches the start-of-frame stamp. -/
  | canBufferWord0Read (buf : Nat) (err : Bool)
  /-- CAN_BUFFER_WORD17_READ (R454): A read of word 17 releases the buffer lock and moves in any shadow frame. -/
  | canBufferWord17Read (buf : Nat)
  /-- CAN_FIFO_HEAD_WORD0_READ (R455): A read of word 0 of CAN_FIFO_HEAD locks the oldest entry and latches its stamp. -/
  | canFifoHeadWord0Read (err : Bool)
  /-- CAN_FIFO_HEAD_WORD17_READ (R455): A read of word 17 of CAN_FIFO_HEAD removes the oldest entry. -/
  | canFifoHeadWord17Read
  /-- CAN_WRITE_RX_EMPTY (R450): A word 0 write of RX_EMPTY empties an RX buffer and releases its lock. -/
  | canWriteRxEmpty (buf : Nat)
  /-- CAN_WRITE_TX_PENDING (R450): A word 0 write of TX_PENDING requests transmission, or cancels at once with TX_REJECTED or NO_TX. -/
  | canWriteTxPending (buf : Nat) (w : Word)
  /-- CAN_WRITE_TX_IDLE (R450): A word 0 write of TX_IDLE returns a TX buffer to idle. -/
  | canWriteTxIdle (buf : Nat) (w : Word)
  /-- CAN_CANCEL_BUFFER (R459): A CAN_TX_CANCEL write naming one buffer cancels it or marks a late cancel. -/
  | canCancelBuffer (ch : Nat) (buf : Nat)
  /-- CAN_CANCEL_ALL (R460): A CAN_TX_CANCEL write with ALL cancels every HOST TX buffer of the channel. -/
  | canCancelAll (ch : Nat)
  /-- CAN_CONFIG_RELOAD_DONE (R468): A CAN filter and parameter reload from the tack image completes. -/
  | canConfigReloadDone (ch : Nat)
  /-- CAN_CONFIG (R473): Node-wide command that applies a new channel parameter block. -/
  | canConfig (c : Acs)
  /-- CAN_CONFIG_READ (R473): Command that returns the channel parameter block in force. -/
  | canConfigRead (c : Acs)
  /-- MVB_BASIC_PERIOD (R477): At each basic period the bus administrator polls due ports, then runs event arbitration and message data. -/
  | mvbBasicPeriod (unit : Nat) (events : List Nat) (err : Bool)
  /-- MVB_MASTER_FRAME_RECEIVE (R480): A master frame is answered for a SOURCE port or status, or ends own mastership on collision. -/
  | mvbMasterFrameReceive (unit : Nat) (m : MvbMaster) (a : LineRx) (b : LineRx)
  /-- MVB_SLAVE_FRAME_RECEIVE (R480): A slave frame on a SINK port updates its data, and message data is queued or exported. -/
  | mvbSlaveFrameReceive (unit : Nat) (f : MvbSlave) (a : LineRx) (b : LineRx) (err : Nat)
  /-- MVB_REPLY_TIMEOUT (R486): A poll receives no reply and NO_REPLY is counted. -/
  | mvbReplyTimeout (unit : Nat) (addr : Nat)
  /-- BA_SILENCE_EXPIRY (R479): The bus carries no master frame for BA_SILENCE, so a BA node takes mastership. -/
  | baSilenceExpiry (unit : Nat)
  /-- MASTERSHIP_TURN_END (R479): A mastership holder passes mastership on at the end of its turn. -/
  | mastershipTurnEnd (unit : Nat)
  /-- LINE_DISTURB_RESTORE (R481): 1 s passes without errors on a disturbed line and it is logged as restored. -/
  | lineDisturbRestore (unit : Nat) (line : Line)
  /-- WTB_FRAME_RECEIVE (R482): A WTB frame is handled by the WTB link layer: process data, message data or inauguration. -/
  | wtbFrameReceive (f : WtbFrame) (a : LineRx) (b : LineRx)
  /-- WTB_INAUGURATED (R483): A WTB inauguration completes and the WTB composition is updated. -/
  | wtbInaugurated (comp : List WtbNode) (own : Nat) (master : Nat) (endA : Bool) (endB : Bool)
  /-- LEGACY_RELOAD_DONE (R489): A legacy port record and poll table reload completes. -/
  | legacyReloadDone (unit : Nat)
  /-- LEGACY_STATUS (R493): Command that returns a unit's role and line status. -/
  | legacyStatus (c : Acs)
  /-- LEGACY_PORT_READ (R493): Command that returns a legacy port's header and data. -/
  | legacyPortRead (c : Acs)
  /-- LEGACY_PORT_WRITE (R493): Node-wide command that writes a HOST SOURCE port. -/
  | legacyPortWrite (c : Acs)
  /-- LEGACY_COMPOSITION (R493): Command that returns the WTB composition. -/
  | legacyComposition (c : Acs)
  /-- LEGACY_MSG_SEND (R493): Node-wide command that sends a message data packet. -/
  | legacyMsgSend (c : Acs)
  /-- LEGACY_MSG_RECV (R493): Command that removes a received packet from a unit's queue. -/
  | legacyMsgRecv (c : Acs)
  /-- TUNNEL_RECEIVE (R504): A TUNNEL envelope is accepted by its session and its items queued, or dropped. -/
  | tunnelReceive (f : Frame) (err : Nat)
  /-- READ_REQ_RECEIVE (R508): A READ_REQ is served from the named space, from the volatile cache, or as a CAN transaction. -/
  | readReqReceive (f : Frame) (err : Bool)
  /-- READ_RSP_RECEIVE (R510): A READ_RSP completes its open read, or is discarded as LATE_RSP. -/
  | readRspReceive (f : Frame) (err : Bool)
  /-- TUG_REQ_SEGMENT_RECEIVE (R514): A REQ channel segment of a Saddlebag envelope is reassembled at the owner chip. -/
  | tugReqSegmentReceive (m : TugRx)
  /-- TUG_RSP_SEGMENT_RECEIVE (R514): An RSP channel segment of a READ_RSP is reassembled at the requesting chip. -/
  | tugRspSegmentReceive (m : TugRx)
  /-- EXPORT_HOLD_EXPIRY (R502): HOLD_US passes since an envelope's first item and the envelope is sent. -/
  | exportHoldExpiry (session : Nat)
  /-- TUN_AGED (R505): An imported item waits ITEM_MAX_AGE and is dropped. -/
  | tunAged (session : Nat)
  /-- READ_RESEND (R511): Half a non-volatile read's timeout passes without a response and READ_REQ is resent. -/
  | readResend (reqId : Nat)
  /-- READ_TIMEOUT (R510): A read's timeout expires without a response and it completes with TIMEOUT. -/
  | readTimeout (reqId : Nat)
  /-- RESPONDER_REQUEST_EXPIRY (R511): TIMEOUT_MS passes since receipt of a request, so the responder drops it or its cached response. -/
  | responderRequestExpiry (nid : Nid) (chip : Nat) (reqId : Nat)
  /-- SESSION_RELOAD_DONE (R516): A session record reload from the tack image completes. -/
  | sessionReloadDone (session : Nat)
  /-- BRIDGE_STATUS (R520): Command that returns tag, result, transaction and session counts. -/
  | bridgeStatus (c : Acs)
  /-- BRIDGE_SESSION (R520): Command that reads, enables or disables a session. -/
  | bridgeSession (c : Acs)
  /-- BRIDGE_READ (R521): Command that starts a remote read, waiting for it or completing PENDING. -/
  | bridgeRead (c : Acs)
  /-- BRIDGE_COLLECT (R521): Command that returns completed read results and frees their tags. -/
  | bridgeCollect (c : Acs)
  /-- RECORD_COMMIT_DONE (R532): A Studbook record's mirrored write is verified and committed, or a die fails verification. -/
  | recordCommitDone (ok0 : Bool) (ok1 : Bool)
  /-- RATE_SUMMARY (R536): 10 s after a limiter's first suppression with no record passing, a RATE_SUMMARY record is written. -/
  | rateSummary (limiter : Nat)
  /-- WITNESS_REPEAT (R540): 10 ms after a witness was sent, it is sent again, up to three times. -/
  | witnessRepeat
  /-- WITNESS_RECEIVE (R541): A witness frame from another node is checked and stored as a WITNESS record. -/
  | witnessReceive (src : Nid) (gen : Word) (slot : List Byte)
  /-- SCRUB_PASS (R635): The daily MRAM scrub pass ends, having rewritten failing copies, and a SCRUB record is written. -/
  | scrubPass (area : Nat) (slots : Nat) (bad : List BadCopy)
  /-- LOG_READ (R555): Command that returns Studbook records from a cursor. -/
  | logRead (c : Acs) (bad : List BadCopy)
  /-- LOG_WRITE (R552): Command that writes one host record and completes when it is committed, suppressed or filtered. -/
  | logWrite (c : Acs)
  /-- LOG_STATUS (R556): Command that returns Studbook region status. -/
  | logStatus (c : Acs)
  /-- LOG_CLEAR (R553): Command that writes SEQ_FLOOR and empties the regions named. -/
  | logClear (c : Acs)
  /-- LOG_MEDIA (R554): Authorised command that restores a degraded die from the good die. -/
  | logMedia (c : Acs) (verified : Bool)
  /-- ROOT_PLL_LOCK (R604): The root PLL locks up to 0.5 ms after reset release (or after REFCLK returns), the free counter starts and BYPASS_A and BYPASS_B go from high impedance to driven low. -/
  | rootPllLock
  /-- RAIL_RECOVERY (R414): A rail that tripped its monitor returns into its window and the chip, held in reset until then, leaves reset. -/
  | railRecovery
  /-- PPS_OUT_PULSE_END (R141): PPS_WIDTH after the active edge, PPS_OUT returns to its inactive level. -/
  | ppsOutPulseEnd
  /-- SYNC_OUT_PULSE_END (R666): 600 ticks after the rising edge, the time leader returns SYNC_OUT low. -/
  | syncOutPulseEnd
  /-- SLEW_TERM_RETURNS_TO_0 (R129): The slew term set at a domain switch reaches 0, so SLEWING clears and selected train time runs on the selected domain's RATE alone. -/
  | slewTermReturnsTo0
  /-- TUG_TIMING_SEND (R409): Every 1 ms a TIMING message is sent on each tug link for the link delay measurement. -/
  | tugTimingSend (link : Nat) (stamp : Stamp)
  /-- ANNOUNCE_SEND (R123): The Announce interval elapses and the chip sends Announce on its gPTP master ports as a grandmaster-capable or master node. -/
  | announceSend (dom : Nat) (ports : List Nat)
  /-- PDELAY_REQUEST_SEND (R122): The peer-delay request interval elapses and the chip sends a peer-delay request on a consist port or MG0. -/
  | pdelayRequestSend (port : Nat)
  /-- TTDP_INAUGURATION_TIMER (R95): A timer of the TTDP inauguration process expires in TTDP-compatible mode and the TTDP process moves on as IEC 61375-2-5 specifies. -/
  | ttdpInaugurationTimer (result : Option (List TtdpNode))
  /-- CAN_START_OF_FRAME (R456): The bus becomes free after intermission, the channel chooses a pending buffer and drives start of frame, and the buffer becomes TX_ACTIVE. -/
  | canStartOfFrame (ch : Nat) (err : Bool)
  /-- WTB_INDIVIDUAL_PERIOD (R482): As WTB master the unit starts its periodic polling of process data at each WTB_PERIOD. -/
  | wtbIndividualPeriod
  /-- WAKE_IN_INACTIVE_EDGE (R617): WAKE_IN leaves its active level, so the idle timer, stopped while WAKE_IN was active, restarts. -/
  | wakeInInactiveEdge
  /-- BUS_MASTERING_CHANGE (R241): The host sets or clears PCIe bus mastering, so every enabled ring's NO_DMA is cleared or set and ring DMA starts or stops. -/
  | busMasteringChange (on : Bool)
  deriving DecidableEq, Repr

end Sys2Proof
end

