-- ==== Sys2Proof/Decode.lean ====
section
/-! DEFINITION. The decoder: no row of the opcode table gives bits, so no word spells a command. -/
namespace Sys2Proof

/-- The command that a word spells by the opcode table's bits: the table gives no row any. -/
def decodeTableWord (_nbits _w : Nat) : Option Instr := none

end Sys2Proof
end

