-- ==== Sys2Proof/Machine/Bytes.lean ====
section
/-! DEFINITION. Bytes and bit fields: little-endian and network-order integers, fields of a byte string, CRC-32 (R38) and
CRC-16 (R238). -/
namespace Sys2Proof.Machine

/-- A byte from a number. -/
def byte (n : Nat) : Byte := BitVec.ofNat 8 n

/-- n bytes of a number, least significant first. -/
def le (n v : Nat) : List Byte := (List.range n).map (fun i => byte (v / 256 ^ i))

/-- n bytes of a number, most significant first. -/
def be (n v : Nat) : List Byte := (le n v).reverse

/-- n bytes of a signed number, least significant first, in two's complement. -/
def leInt (n : Nat) (v : Int) : List Byte := le n (v % (256 ^ n : Nat)).toNat

/-- n bytes of a signed number, saturating at the ends of its range. -/
def leIntSat (n : Nat) (v : Int) : List Byte :=
  let m : Int := ((2 ^ (8 * n - 1) : Nat) : Int)
  leInt n (if v ≥ m then m - 1 else if v < -m then -m else v)

/-- The number that little-endian bytes spell. -/
def leNat : List Byte → Nat
  | [] => 0
  | b :: bs => b.toNat + 256 * leNat bs

/-- The number that bytes in network order spell. -/
def beNat (bs : List Byte) : Nat := leNat bs.reverse

/-- A slice of a byte string. -/
def slice (bs : List Byte) (off n : Nat) : List Byte := (bs.drop off).take n

/-- A little-endian field; bytes past the end read 0. -/
def fLe (bs : List Byte) (off n : Nat) : Nat := leNat (slice bs off n)

/-- A field in network order. -/
def fBe (bs : List Byte) (off n : Nat) : Nat := beNat (slice bs off n)

/-- The number as signed, of w bits. -/
def signed (w v : Nat) : Int := if v % 2 ^ w < 2 ^ (w - 1) then (v % 2 ^ w : Nat) else ((v % 2 ^ w : Nat) : Int) - (2 ^ w : Nat)

/-- One bit of a number. -/
def bit (v i : Nat) : Bool := v / 2 ^ i % 2 = 1

/-- Bits hi to lo of a number. -/
def bits (v hi lo : Nat) : Nat := v / 2 ^ lo % 2 ^ (hi - lo + 1)

/-- A flag as a bit at a place. -/
def flag (b : Bool) (i : Nat) : Nat := if b then 2 ^ i else 0

/-- A Bool as 0 or 1. -/
def b01 (b : Bool) : Nat := if b then 1 else 0

/-- Bytes padded with zeros to a multiple of 8 (R570). -/
def pad8 (bs : List Byte) : List Byte := bs ++ List.replicate ((8 - bs.length % 8) % 8) 0

/-- Zero bytes. -/
def zeros (n : Nat) : List Byte := List.replicate n 0

/-- One bit of the reflected CRC-32. -/
def crc32Bit (c : Word) : Word := if c.getLsbD 0 then (c >>> 1) ^^^ 0xEDB88320#32 else c >>> 1

/-- One byte of the reflected CRC-32. -/
def crc32Byte (c : Word) (b : Byte) : Word :=
  let x := c ^^^ b.setWidth 32
  crc32Bit (crc32Bit (crc32Bit (crc32Bit (crc32Bit (crc32Bit (crc32Bit (crc32Bit x)))))))

/-- The CRC-32 of R38: polynomial 0x04C1_1DB7, reflected, initial and final value all ones. -/
def crc32 (bs : List Byte) : Word := bs.foldl crc32Byte 0xFFFFFFFF#32 ^^^ 0xFFFFFFFF#32

/-- One bit of the CRC-16 of R238. -/
def crc16Bit (c : Half) : Half := if c.getLsbD 15 then (c <<< 1) ^^^ 0x1021#16 else c <<< 1

/-- One byte of the CRC-16. -/
def crc16Byte (c : Half) (b : Byte) : Half :=
  let x := c ^^^ (b.setWidth 16 <<< 8)
  crc16Bit (crc16Bit (crc16Bit (crc16Bit (crc16Bit (crc16Bit (crc16Bit (crc16Bit x)))))))

/-- The CRC-16 of R238: polynomial 0x1021, initial value 0xFFFF, no reflection. -/
def crc16 (bs : List Byte) : Half := bs.foldl crc16Byte 0xFFFF#16

/-- The bytes of a MAC address in transmitted order. -/
def macBytes (m : Mac) : List Byte := be 6 m.toNat

/-- A group address: the first transmitted bit is 1. -/
def isGroup (m : Mac) : Bool := m.getLsbD 40

/-- The length of a frame on the medium, its FCS included, padded to 64 bytes (R223). -/
def frameLen (f : Frame) : Nat :=
  max 64 (18 + (if f.vlan.isSome then 4 else 0) + (if f.rtag.isSome then 6 else 0) + f.payload.length)

/-- The bytes of a frame from its destination address, without FCS. -/
def frameBytes (f : Frame) : List Byte :=
  macBytes f.da ++ macBytes f.sa
    ++ (match f.vlan with | some t => be 2 0x8100 ++ be 2 (t.pcp * 8192 + (if t.dei then 4096 else 0) + t.vid) | none => [])
    ++ (match f.rtag with | some q => be 2 0xF1C1 ++ [0, 0] ++ be 2 q.toNat | none => [])
    ++ be 2 f.etype ++ f.payload

/-- The frame that bytes from the destination address spell. -/
def frameOf (b : List Byte) : Frame :=
  let v := fBe b 12 2 = 0x8100
  let i := if v then 16 else 12
  let r := fBe b i 2 = 0xF1C1
  let j := if r then i + 6 else i
  let tci := fBe b 14 2
  { da := BitVec.ofNat 48 (fBe b 0 6), sa := BitVec.ofNat 48 (fBe b 6 6)
    vlan := if v then some { pcp := tci / 8192, dei := bit tci 12, vid := tci % 4096 } else none
    rtag := if r then some (BitVec.ofNat 16 (fBe b (i + 4) 2)) else none
    etype := fBe b j 2, payload := b.drop (j + 2) }

/-- The stream header of R280. -/
def streamHeader (flags func : Nat) (nid : Nid) (gen : Word) (epoch : Half) (len sec ns : Nat) : List Byte :=
  [1, byte flags] ++ be 2 func ++ be 8 nid.toNat ++ be 4 gen.toNat ++ be 2 epoch.toNat ++ be 2 len ++ be 4 sec ++ be 4 ns
    ++ zeros 4

/-- Replace n elements from a place. -/
def putSlice (bs : List Byte) (off : Nat) (new : List Byte) : List Byte :=
  bs.take off ++ zeros (off - bs.length) ++ new ++ bs.drop (off + new.length)

/-- Lexicographic maximum of a list of numbers, 0 for none. -/
def maxOf (xs : List Nat) : Nat := xs.foldl max 0

/-- Least of a list of numbers, if there is one. -/
def minOf : List Nat → Option Nat
  | [] => none
  | x :: xs => some (xs.foldl min x)

/-- Sum of a list. -/
def sumOf (xs : List Nat) : Nat := xs.foldl (· + ·) 0

/-- Insert into a list kept in an order. -/
def insertBy {α : Type} (le : α → α → Bool) (x : α) : List α → List α
  | [] => [x]
  | y :: ys => if le x y then x :: y :: ys else y :: insertBy le x ys

/-- A list put into an order; equals keep their places. -/
def sortBy {α : Type} (le : α → α → Bool) : List α → List α
  | [] => []
  | x :: xs => insertBy le x (sortBy le xs)

end Sys2Proof.Machine
end

