-- ==== Sys2Proof/Config.lean ====
section
/-! DEFINITION. What an implementation fixes and the free values: constants of the part, results of the external
standards the spec names and does not give, and values the spec leaves open. -/
namespace Sys2Proof.Config

/-- A value the spec leaves open, the i-th one used (log entry 1). -/
opaque freeNat : Nat → Nat

/-- The chip serial, fused at manufacture (R563); below 2^48. -/
opaque serial : Nat

/-- Order code of the part (R593): false CYP-HJ9460-IB1, true CYP-HJ9460-TB1. -/
opaque orderTb1 : Bool

/-- SHA-256 of a byte string, the standard's function (R606). -/
opaque sha256 : List Byte → BitVec 256

/-- SHA-384 of a byte string (R601). -/
opaque sha384 : List Byte → BitVec 384

/-- Whether an ECDSA P-384 signature verifies: key, signature, digest (R601, R605, R622). -/
opaque ecdsaOk : List Byte → List Byte → BitVec 384 → Bool

/-- The Noltodo firmware keys held in the Boot ROM (R601). -/
opaque romKey : Nat → List Byte

/-- The task object that an OBJECT section's bytes hold (Keany Studio's format, which the spec does not lay out), none where they
cannot be read as one (R312). -/
opaque taskObj : List Byte → Option TaskObj

/-- The Ethertypes that IEC 61375-2-5 assigns to TTDP frames (R58, R169). -/
opaque ttdpEtype : Nat → Bool

/-- Ethertype and destination address of a TTDP HELLO frame, as IEC 61375-2-5 gives them (R93). -/
opaque helloEtype : Nat
opaque helloDa : Mac

/-- The body of a frame that an external standard lays out (gPTP, TTDP, MKA), the i-th one sent. -/
opaque frameBody : Nat → List Byte

/-- The longest time in ns that polling a port of an F_code takes, frame and reply, as IEC 61375-3-1 gives it (R478). -/
opaque mvbPollNs : Nat → Nat

end Sys2Proof.Config
end

