-- ==== Sys2Proof/Machine/Store.lean ====
section
/-! DEFINITION. Sparse tables as plain data: a list of (key, value) pairs, keys strictly rising. A table read with a
default lists no entry equal to that default, so equal tables are equal lists (the canonical form asked of a memory). -/
namespace Sys2Proof.Machine

/-- A sparse table keyed by natural numbers. -/
abbrev Store (α : Type) := List (Nat × α)

/-- The entry at a key. -/
def Store.find {α : Type} : Store α → Nat → Option α
  | [], _ => none
  | (k', v) :: m, k => if k = k' then some v else Store.find m k

/-- The table with the entry of a key set. -/
def Store.ins {α : Type} : Store α → Nat → α → Store α
  | [], k, v => [(k, v)]
  | (k', w) :: m, k, v =>
    if k < k' then (k, v) :: (k', w) :: m
    else if k = k' then (k, v) :: m
    else (k', w) :: Store.ins m k v

/-- The table with the entry of a key removed. -/
def Store.del {α : Type} : Store α → Nat → Store α
  | [], _ => []
  | (k', w) :: m, k => if k = k' then m else (k', w) :: Store.del m k

/-- What a key reads as, an unlisted key reading as the default. -/
def Store.get {α : Type} (d : α) (m : Store α) (k : Nat) : α := (Store.find m k).getD d

/-- Write a key of a table with a default: writing the default removes the entry. -/
def Store.put {α : Type} [DecidableEq α] (d : α) (m : Store α) (k : Nat) (v : α) : Store α :=
  if v = d then Store.del m k else Store.ins m k v

/-- Change the entry of a key, if there is one. -/
def Store.upd {α : Type} (m : Store α) (k : Nat) (f : α → α) : Store α :=
  m.map (fun e => if e.1 = k then (e.1, f e.2) else e)

/-- Keys strictly rising. -/
def Store.sorted {α : Type} : Store α → Bool
  | [] => true
  | [_] => true
  | (k, _) :: (k', w) :: m => decide (k < k') && Store.sorted ((k', w) :: m)

/-- The canonical form of a table with a default. -/
def Store.wf {α : Type} [DecidableEq α] (d : α) (m : Store α) : Bool :=
  Store.sorted m && m.all (fun e => decide (e.2 ≠ d))

/-- The mailbox memory: the request and response buffers of Window M (R565), byte by byte. An unlisted address reads 0. -/
abbrev Mem := Store Byte

/-- Read one byte of the mailbox memory. -/
def Mem.read (m : Mem) (a : Nat) : Byte := Store.get 0#8 m a

/-- Write one byte of the mailbox memory. -/
def Mem.write (m : Mem) (a : Nat) (b : Byte) : Mem := Store.put 0#8 m a b

/-- Write consecutive bytes. -/
def Mem.writeList : Mem → Nat → List Byte → Mem
  | m, _, [] => m
  | m, a, b :: bs => Mem.writeList (Mem.write m a b) (a + 1) bs

/-- Read consecutive bytes. -/
def Mem.readList (m : Mem) (a n : Nat) : List Byte := (List.range n).map (fun i => Mem.read m (a + i))

/-- The canonical form of the mailbox memory. -/
def Mem.wf (m : Mem) : Bool := Store.wf 0#8 m

end Sys2Proof.Machine
end

