-- ==== Sys2Proof/Machine/BridgeState.lean ====
section
/-! DEFINITION. The state of the Saddlebag bridge (12_saddlebag_bridge.md): sessions, open reads, responder. -/
namespace Sys2Proof.Machine

/-- An imported item and the tick it arrived at (R505). -/
structure TunItem where
  item : List Byte
  tick : Nat
  deriving DecidableEq, Repr

/-- A session (R500 to R505). -/
structure Session where
  record    : List Byte
  enabled   : Bool := false
  remote    : Option Nid := none
  reloading : Bool := false
  /-- Items of the open export envelope, and the tick of its first. -/
  items     : List (List Byte) := []
  openTick  : Nat := 0
  txSeq     : Half := 0
  /-- The last accepted SEQ; none before the first envelope after activation or a switch. -/
  rxSeq     : Option Half := none
  lastSeq   : Half := 0
  queue     : List TunItem := []
  /-- The buffer whose TX_DONE the next item waits for (IN_ORDER). -/
  order     : Option Nat := none
  deriving DecidableEq, Repr

/-- A remote read this chip has started (R506, R510). -/
structure OpenRead where
  reqId   : Nat
  dst     : Nid
  space   : Nat
  vol     : Bool
  wait    : Option AcsRef
  flags   : Nat
  body    : List Byte
  ms      : Nat
  resent  : Bool := false
  deriving DecidableEq, Repr

/-- A result that awaits BRIDGE_COLLECT (R521). -/
structure ReadResult where
  reqId  : Nat
  status : Nat
  stamp  : Nat
  data   : List Byte
  deriving DecidableEq, Repr

/-- Who asked: NID, chip, REQ_ID, flags of the request (R511); local where the read is the node's own. -/
structure Asker where
  nid   : Nid
  chip  : Nat
  reqId : Nat
  flags : Nat
  deriving DecidableEq, Repr

/-- A volatile request held by the responder, with its answer where it has one (R511). -/
structure Served where
  who  : Asker
  body : Option (List Byte)
  bad  : Bool := false
  deriving DecidableEq, Repr

/-- A CAN transaction at the responder (R512). -/
structure CanTxn where
  who    : Asker
  chan   : Nat
  item   : List Byte
  rspId  : Nat
  rspMask : Nat
  placed : Bool := false
  /-- Free counter at the request frame's TX_DONE. -/
  sent   : Option Nat := none
  deriving DecidableEq, Repr

/-- The bridge. -/
structure Bridge where
  sessions : Store Session := []
  /-- Tags never used start here; then come the freed ones, in order (R506). -/
  fresh    : Nat := 0
  freed    : List Nat := []
  uses     : Store Nat := []
  /-- When each REQ_ID was last sent, and that read's timeout in ms. -/
  sentAt   : Store (Nat × Nat) := []
  reads    : List OpenRead := []
  results  : List ReadResult := []
  served   : List Served := []
  txns     : List CanTxn := []
  dropTick : Option Nat := none
  /-- Number of the next envelope sent in tug segments. -/
  envNum   : Nat := 0
  deriving DecidableEq, Repr

end Sys2Proof.Machine
end

