-- ==== Sys2Proof/Machine/CanState.lean ====
section
/-! DEFINITION. The state of the CAN FD channels (10_can_fd.md): parameter blocks, message buffers, FIFO, error state. -/
namespace Sys2Proof.Machine

/-- CODE values of a buffer (R449). -/
def cInactive : Nat := 0x0
def cRxEmpty : Nat := 0x1
def cRxFull : Nat := 0x2
def cTxIdle : Nat := 0x8
def cTxPending : Nat := 0x9
def cTxActive : Nat := 0xA
def cTxDone : Nat := 0xB
def cTxCancelled : Nat := 0xC
def cTxSuspended : Nat := 0xD

/-- Content of a buffer, a shadow slot or a FIFO entry: frame fields, OVR, PARITY, free counter at the start of frame. -/
structure CanMsg where
  id    : Nat := 0
  ide   : Bool := false
  rtr   : Bool := false
  fdf   : Bool := false
  brs   : Bool := false
  esi   : Bool := false
  dlc   : Nat := 0
  data  : List Byte := []
  ovr   : Bool := false
  sof   : Nat := 0
  deriving DecidableEq, Repr

/-- A message buffer (R449). -/
structure CanBuf where
  code    : Nat := 0
  msg     : CanMsg := {}
  locked  : Bool := false
  shadow  : Option CanMsg := none
  late    : Bool := false
  noTx    : Bool := false
  parity  : Bool := false
  /-- A cancel waits for the end of the attempt (R459). -/
  cancel  : Bool := false
  /-- Consecutive attempts that ended with a bit error in the data field (R458). -/
  bitRun  : Nat := 0
  /-- Content that a commit wrote while the frame was on the bus (R464). -/
  next    : Option CanMsg := none
  /-- Frames received since control start (R463). -/
  arrived : Nat := 0
  deriving DecidableEq, Repr

/-- A channel. -/
structure CanChan where
  /-- The parameter block in force (R443). -/
  block     : List Byte := [0, 5, 2, 0, 63, 0, 16, 16, 1, 31, 8, 8, 32, 32, 0, 0, 0, 0, 0, 0, 0, 0, 0, 0, 0, 0, 0, 0, 0, 0, 0, 0]
  /-- The mode in force (R443, R465, R466). -/
  mode      : Nat := 0
  /-- The 11 recessive bits of R445 have passed. -/
  ready     : Bool := false
  tec       : Nat := 0
  recv      : Nat := 0
  lec       : Nat := 0
  passive   : Bool := false
  busOff    : Bool := false
  busOffAt  : Nat := 0
  bufs      : Store CanBuf := []
  filtId    : Store Nat := []
  filtMask  : Store Nat := []
  fifoFilt  : Store Nat := []
  fifo      : List CanMsg := []
  fifoLock  : Bool := false
  /-- The next entry stored carries OVR (R455). -/
  fifoOvr   : Bool := false
  /-- Frames dropped by the FIFO: since an entry was last stored, and since the previous latch. -/
  fifoLost  : Nat := 0
  fifoDrops : Nat := 0
  /-- The buffer whose frame is on the bus. -/
  active    : Option Nat := none
  lockTick  : Nat := 0
  txEvent   : BitVec 128 := 0
  /-- A reload of filters and parameters runs (R468). -/
  reloading : Bool := false
  /-- Buffers whose filter was found bad and not reloaded yet; 128 the FIFO's. -/
  badFilts  : List Nat := []
  /-- A CAN_CONFIG that waits for the frame in progress. -/
  pendCfg   : Option (List Byte × Option AcsRef) := none
  /-- Arrivals a task has latched, by buffer * 64 + task (R463). -/
  seen      : Store Nat := []
  deriving DecidableEq, Repr

/-- The CAN unit. -/
structure Can where
  chans  : List CanChan := List.replicate 8 {}
  winSel : Nat := 0
  deriving DecidableEq, Repr

end Sys2Proof.Machine
end

