-- ==== Sys2Proof/Machine/StreamState.lean ====
section
/-! DEFINITION. The state of the Stream unit (06_streams.md): contexts with their records, images and freshness. -/
namespace Sys2Proof.Machine

/-- Freshness (R295). -/
inductive Fresh where
  | none | fresh | lost
  deriving DecidableEq, Repr

/-- The code of a freshness state (R308). -/
def Fresh.code : Fresh → Nat
  | .none => 0 | .fresh => 1 | .lost => 2

/-- A cycle start as a stream header carries it: seconds [31:0], nanoseconds, epoch (R280). -/
structure CycleStart where
  sec   : Nat := 0
  ns    : Nat := 0
  epoch : Half := 0
  deriving DecidableEq, Repr

/-- What the header of an accepted or presented frame said (R294, R309). -/
structure StreamHdr where
  flags : Nat
  seq   : Option Half
  gen   : Word
  nid   : Nid
  start : CycleStart
  deriving DecidableEq, Repr

/-- A publication queued for its launch (R285): tick, frame, and the preferred line where it is not replicated. -/
structure StreamLaunch where
  tick  : Nat
  frame : Frame
  pref  : Option Line
  deriving DecidableEq, Repr

/-- A stream context in use. -/
structure StreamCtx where
  /-- The record in force (R282). -/
  record    : List Byte
  enabled   : Bool
  suspended : Bool := false
  /-- The record is being reloaded (R301). -/
  reloading : Bool := false
  reloaded  : Bool := false
  fresh     : Fresh := .none
  run       : Nat := 0
  /-- ACTIVE_FROM (R293) and the tick at which it was set. -/
  since     : CycleStart := {}
  sinceTick : Nat := 0
  /-- The last accepted frame and its tick. -/
  acc       : Option StreamHdr := none
  accTick   : Nat := 0
  /-- The presented image, with its header where it is a frame's. -/
  image     : List Byte := []
  hdr       : Option StreamHdr := none
  cand      : List Byte := []
  lostTick  : Nat := 0
  /-- HOLD_THEN_SAFE still holds the last payload (R296). -/
  holding   : Bool := false
  /-- The payload was found bad: the next accepted frame is FRESH at once (R301). -/
  payBad    : Bool := false
  /-- Sequence generator, held twice (R288, R301). -/
  seqGen    : Half := 0
  seqTwin   : Half := 0
  /-- Host payload, if one was written, and whether it is new since the last snapshot. -/
  put       : Option (List Byte) := none
  putNew    : Bool := false
  /-- Committed outputs of the task seen at the last snapshot. -/
  seenOut   : Nat := 0
  countOk   : Nat := 0
  countDrop : Nat := 0
  lostCount : Nat := 0
  /-- The resolved destination, expected source and the one of the previous generation (R290 to R292). -/
  da        : Mac := 0
  src       : Nid := 0
  grace     : Option Nid := none
  /-- Images of cycles that started before this are withheld (R291). -/
  minCycle  : Option CycleStart := none
  /-- TARGET_POS lies beyond the node count (R291). -/
  beyond    : Bool := false
  /-- Wrangler assigned line B (R289). -/
  wrB       : Bool := false
  lastLine  : Nat := 0
  lastGen   : Word := 0
  lastTick  : Nat := 0
  missTick  : Option Nat := none
  launches  : List StreamLaunch := []
  deriving DecidableEq, Repr

/-- The Stream unit. -/
structure Stream where
  ctxs  : Store StreamCtx := []
  /-- SWITCH_GRACE runs (R292). -/
  grace : Bool := false
  deriving DecidableEq, Repr

end Sys2Proof.Machine
end

