-- ==== Sys2Proof/Machine/ControlState.lean ====
section
/-! DEFINITION. The state of the control engine (07_cyclic_control.md): tasks, pairs, forces, staging, retain area. -/
namespace Sys2Proof.Machine

/-- STATE of a TASK_LIST entry (R357). -/
inductive TaskSt where
  | idle | running | stopped | remote | migIn | migOut | faulted
  deriving DecidableEq, Repr

/-- The code of a task state (R357). -/
def TaskSt.code : TaskSt → Nat
  | .idle => 0 | .running => 1 | .stopped => 2 | .remote => 3 | .migIn => 4 | .migOut => 5 | .faulted => 6

/-- Where the current cycle of a task stands: none, latched and waiting for its pair, executing, waiting for its pair's
resynchronisation or a page reload, ended, held. -/
inductive CyclePh where
  | idle | ready | executing | waiting | ended | held
  deriving DecidableEq, Repr

/-- A task (R311, R315 to R330). -/
structure Task where
  desc      : List Byte
  /-- The object in force. -/
  obj       : List Byte
  st        : TaskSt := .idle
  pair      : Option Nat := none
  ph        : CyclePh := .idle
  /-- Cycle count of the current or next cycle. -/
  cycle     : Nat := 0
  startTick : Nat := 0
  start     : CycleStart := {}
  startSec  : Nat := 0
  /-- The cycle was run again already, and its commit counts RECOMPUTED (R326). -/
  again     : Bool := false
  heldCause : Nat := 0
  overRun   : Nat := 0
  overruns  : Nat := 0
  etLast    : Nat := 0
  etMax     : Option Nat := none
  et        : Nat := 0
  prevHeld  : Bool := false
  lastHeld  : Bool := false
  longer    : Bool := false
  first     : Bool := false
  warm      : Bool := false
  committed : List Byte := []
  working   : List Byte := []
  input     : List Byte := []
  /-- The output image that the running cycle computes, and the committed one with its cycle start and marks. -/
  outWork   : List Byte := []
  output    : List Byte := []
  outStart  : CycleStart := {}
  outHeld   : Bool := false
  /-- Committed outputs so far. -/
  outs      : Nat := 0
  lastCommit : Nat := 0
  swapped   : Bool := false
  /-- Consecutive skipped retain writes (R337), and the write under way: slot and bytes (R336). -/
  skips     : Nat := 0
  writing   : Option (Nat × List Byte) := none
  /-- First tick at which a cycle may start. -/
  fromTick  : Nat := 0
  runNid    : Nid := 0
  /-- Consecutive votes held (chapter 9). -/
  voteHeld  : Nat := 0
  deriving DecidableEq, Repr

/-- A force entry (R359). -/
structure Force where
  var   : Nat
  typ   : Nat
  task  : Nat
  input : Bool
  value : List Byte
  deriving DecidableEq, Repr

/-- A force change that waits for its latch (R344): set, or release with none. -/
structure ForceWait where
  var   : Nat
  task  : Nat
  cycle : Nat
  entry : Option Force
  deriving DecidableEq, Repr

/-- A swap that waits for its cycle (R349). -/
structure SwapWait where
  ref   : Option AcsRef
  task  : Nat
  atTick : Nat
  obj   : List Byte
  deriving DecidableEq, Repr

/-- A control-core pair (R310, R331). -/
structure CorePair where
  retired  : Bool := false
  /-- Stopped on a mismatch, being resynchronised: the faulting task. -/
  stopped  : Option (Option Nat) := none
  misses   : List Nat := []
  running  : Option Nat := none
  deriving DecidableEq, Repr

/-- The control engine. -/
structure Control where
  tasks    : Store Task := []
  pairs    : List CorePair := List.replicate 4 {}
  forces   : List Force := []
  fwaits   : List ForceWait := []
  stage    : List Byte := []
  stageLen : Nat := 0
  staged   : Bool := false
  swaps    : List SwapWait := []
  /-- Kind of the last start: 0 none, 1 COLD, 2 WARM (R356). -/
  started  : Nat := 0
  /-- An automatic start waits for the first hitch or START_WAIT; it is due (R340). -/
  startArmed : Bool := false
  startDue : Bool := false
  /-- RETAIN_FAULT for both dies has been logged (R338). -/
  retainDead : Bool := false
  /-- Pages being reloaded: task (R328). -/
  pages    : List Nat := []
  deriving DecidableEq, Repr

/-- One MRAM die's copies of the retain slots, by task * 2 + slot (R335). -/
structure RetainArea where
  die0 : Store (List Byte) := []
  die1 : Store (List Byte) := []
  deriving DecidableEq, Repr

end Sys2Proof.Machine
end

