-- ==== Sys2Proof/Machine/CoreState.lean ====
section
/-! DEFINITION. The state of the node itself: node state and role, supplies and resets, firmware sources, tack store,
protection, mailboxes, interrupt causes, statistics, Studbook. -/
namespace Sys2Proof.Machine

/-- Why a node has announced removal (R87). -/
inductive Removal where
  | restart | commit | stable
  deriving DecidableEq, Repr

/-- The node (R44 to R48). -/
structure Node where
  state      : NodeState := .boot
  prev       : NodeState := .off
  heldCause  : Nat := 0
  /-- The LOST field of SYS_STATE (R593), bit by bit. -/
  lost       : Word := 0
  stateTick  : Nat := 0
  form       : Form := .simplex
  chipIndex  : Nat := 0
  lineA      : Bool := true
  lineB      : Bool := true
  active     : Bool := true
  nid        : Nid := 0
  bypassA    : Level := .hiz
  bypassB    : Level := .hiz
  /-- The removal announced and not yet carried out (R87). -/
  removal    : Option Removal := none
  /-- START for the first control start after a restart or an activation (R594, R615): 0 as START_MODE, 1, 2, 3. -/
  startArg   : Nat := 0
  /-- START of a SYS_RESTART or TACK_COMMIT whose entry into BOOT is still to come. -/
  startNext  : Nat := 0
  /-- Cause of the entry into STABLED under way: 13 SYS_STABLE, 14 idle. -/
  stableCause : Nat := 13
  /-- The entry into BOOT that the firmware has still to record: the state before it and the cause (R43). -/
  bootFrom   : Option (Nat × Nat) := some (0, 1)
  /-- BYPASS_SETTLE runs: the chip still forwards on its old paths (R212). -/
  settling   : Bool := false
  deriving DecidableEq, Repr

/-- Supplies, clocks and resets (R414, R651 to R661, R672), and the standby inputs (R617 to R619). -/
structure Power where
  vbak        : Bool := false
  /-- Main rails good. -/
  main        : Bool := true
  pllLocked   : Bool := false
  /-- A rail monitor holds the chip in reset (R414). -/
  railTrip    : Bool := false
  /-- A thermal shutdown stands (R672). -/
  thermal     : Bool := false
  /-- Highest THERMAL threshold crossed and not left: 0, 110, 120 (R672). -/
  thermalStep : Nat := 0
  wakeIn      : Bool := false
  wakeOut     : Level := .low
  /-- A wake event kept during the entry sequence (R618). -/
  wakeKept    : Bool := false
  /-- The STABLED entry sequence runs (R617). -/
  entering    : Bool := false
  /-- WAKE_ALARM is armed (R619). -/
  alarmArmed  : Bool := false
  /-- The idle timer: tick of its last restart. -/
  idleFrom    : Nat := 0
  /-- SYS_STABLE waits for STABLED (R594). -/
  stableCmd   : Option AcsRef := none
  /-- GPIO input levels (R646). -/
  gpioIn      : BitVec 24 := 0
  /-- GPIO output levels (R650). -/
  gpioOut     : BitVec 24 := 0
  deriving DecidableEq, Repr

/-- A firmware image in a flash slot, byte for byte (R600). -/
structure FwImage where
  bytes : List Byte := []
  deriving DecidableEq, Repr

/-- Firmware sources and the Boot ROM (R599 to R604). -/
structure Boot where
  mode       : Nat := 0
  slotA      : FwImage := {}
  slotB      : FwImage := {}
  /-- Bytes written so far and total length of the slot being written by SEC_FW_WRITE (R626). -/
  fwWritten  : Nat := 0
  fwTotal    : Nat := 0
  fwSlot     : Nat := 0
  tryA       : Nat := 0
  tryB       : Nat := 0
  preferB    : Bool := false
  /-- The Groom firmware runs and serves the mailboxes (R564). -/
  fwRunning  : Bool := false
  /-- Running slot: 0 A, 1 B, 2 download (R626). -/
  runSlot    : Nat := 0
  fwSvn      : Nat := 0
  fwBuild    : Half := 0
  fwKey      : Nat := 0
  dlAddr     : Dword := 0
  dlLen      : Word := 0
  dlStatus   : Nat := 0
  /-- Slots passed over by the Boot ROM, kept for the firmware to log: slot and cause. -/
  passed     : List (Nat × Nat) := []
  deriving DecidableEq, Repr

/-- One parameter entry of a tack image (R607). -/
structure Param where
  sec   : Nat
  id    : Nat
  index : Nat
  val   : List Byte
  deriving DecidableEq, Repr

/-- One section of a tack image (R605). -/
structure Section where
  typ     : Nat
  flags   : Nat
  off     : Nat
  len     : Nat
  crc     : Word
  content : List Byte
  deriving DecidableEq, Repr

/-- A tack image as read (R605, R606). -/
structure Tack where
  length   : Nat := 0
  svn      : Nat := 0
  imageId  : Dword := 0
  sections : List Section := []
  params   : List Param := []
  fp       : BitVec 256 := 0
  nodeFp   : BitVec 256 := 0
  keySlot  : Nat := 255
  deriving DecidableEq, Repr

/-- A commit record (R612). -/
structure CommitRec where
  seq       : Nat
  bank      : Nat
  fromFlash : Bool
  length    : Nat
  fp        : BitVec 256
  deriving DecidableEq, Repr

/-- Staging state (R626): 0 EMPTY, 1 PARTIAL, 2 COMPLETE, 3 VALID, 4 INVALID. -/
inductive StageState where
  | empty | part | complete | valid | invalid
  deriving DecidableEq, Repr

/-- The code of a staging state (R626). -/
def StageState.code : StageState → Nat
  | .empty => 0 | .part => 1 | .complete => 2 | .valid => 3 | .invalid => 4

/-- One tack bank, mirrored on both dies (R611). -/
structure Bank where
  die0 : List Byte := []
  die1 : List Byte := []
  deriving DecidableEq, Repr

/-- Tack store and staging (R605 to R616). -/
structure TackStore where
  bank0      : Bank := {}
  bank1      : Bank := {}
  rec0       : Option CommitRec := none
  rec1       : Option CommitRec := none
  flash      : List Byte := []
  stage      : StageState := .empty
  staged     : Nat := 0
  total      : Nat := 0
  active     : Option Tack := none
  /-- Fingerprints of images that failed since BOOT (R616). -/
  failed     : List (BitVec 256) := []
  fallback   : Bool := false
  /-- TACK_COMMIT runs, waiting for cycles to end (R613), and the command that asked for it where this chip received it. -/
  commitOn   : Bool := false
  committing : Option AcsRef := none
  commitArg  : Nat := 0
  deriving DecidableEq, Repr

/-- One owner key slot (R620). -/
structure OwnerKey where
  key  : List Byte
  perm : Nat
  deriving DecidableEq, Repr

/-- An authorisation of one opcode on one mailbox (R622). -/
structure Auth where
  mbx    : Nat
  opcode : Nat
  tick   : Nat
  /-- The owner key slot that signed, 0xFF for none. -/
  key    : Nat := 255
  deriving DecidableEq, Repr

/-- Protection (R620 to R624). -/
structure Sec where
  secured   : Bool := false
  key0      : Option OwnerKey := none
  key1      : Option OwnerKey := none
  key2      : Option OwnerKey := none
  key3      : Option OwnerKey := none
  fwFloor   : Nat := 1
  tackFloor : Nat := 1
  revoked   : BitVec 4 := 0
  nonce     : Option (BitVec 256) := none
  nonceTick : Nat := 0
  auths     : List Auth := []
  fails     : List Nat := []
  lockFrom  : Option Nat := none
  jtagOpen  : Bool := false
  /-- The MACsec CAK and CKN pairs in embedded MRAM, which commit copies from the MACSEC section (R620). -/
  macKeys   : List Param := []
  deriving DecidableEq, Repr

/-- Where a command of a batch stands. -/
inductive Phase where
  | waiting | started | done
  deriving DecidableEq, Repr

/-- One command of a batch as read from the request buffer (R570, R577), with its reservation (R574). -/
structure Slot where
  opcode  : Nat
  flags   : Half
  tag     : Half
  gen     : Word
  rsvd    : Word
  args    : List Byte
  fits    : Bool
  phase   : Phase
  deriving DecidableEq, Repr

/-- One mailbox (R571). -/
structure Mailbox where
  busy      : Bool := false
  done      : Bool := false
  notify    : Bool := false
  overrun   : Bool := false
  badBatch  : Bool := false
  aborted   : Bool := false
  completed : Nat := 0
  rspLen    : Nat := 0
  doneSeq   : Half := 0
  accSeq    : Half := 0
  notifyEn  : Bool := false
  doneEn    : Bool := false
  slots     : List Slot := []
  /-- The batch is being aborted (R576). -/
  aborting  : Bool := false
  /-- Its responses are not written (R596). -/
  discard   : Bool := false
  /-- The batch's place in the order of acceptance (R581). -/
  order     : Nat := 0
  /-- The agent that submitted the batch (R561): 1 PCIe, 2 QSPI. -/
  agent     : Nat := 1
  deriving DecidableEq, Repr

/-- A SYS_FENCE with BARRIER that has started (R584). -/
structure Barrier where
  mbx   : Nat
  idx   : Nat
  order : Nat
  deriving DecidableEq, Repr

/-- A started SYS_FENCE (R584). -/
structure FenceCmd where
  ref     : AcsRef
  /-- TX rings whose frame fetched before its start has still to be written back. -/
  rings   : List Nat
  logTo   : Option Nat
  barrier : Bool
  fc      : Nat
  seq     : Nat
  deriving DecidableEq, Repr

/-- The host interface (R557 to R597). -/
structure HostIf where
  boxes     : List Mailbox := List.replicate 16 {}
  accepted  : Nat := 0
  barriers  : List Barrier := []
  fences    : List FenceCmd := []
  armed     : Bool := false
  expired   : Bool := false
  timeoutMs : Nat := 1000
  watchTick : Nat := 0
  scratch   : Word := 0
  pcieUp    : Bool := false
  pcieSpeed : Nat := 0
  pcieWidth : Nat := 0
  master    : Bool := false
  qspiSeen  : Bool := false
  qspiErr   : Bool := false
  /-- MSI-X vectors masked in Window X (R566) and pending (R589). -/
  vecMask   : Word := 0xFFFFFFFF
  vecPend   : Word := 0
  /-- Address and data words of the MSI-X table in Window X, by entry * 4 + word (R566). -/
  vecTable  : Store Word := []
  deriving DecidableEq, Repr

/-- A cause register and its mask (R590). -/
structure CauseReg where
  cause : Word := 0
  mask  : Word := 0
  deriving DecidableEq, Repr

/-- The statistics blocks (R269 to R272): counters by Window C word from 0x4000, their saturation marks, their mirrors. -/
structure Stats where
  count  : Store Nat := []
  sat    : Store Bool := []
  mirror : Store Nat := []
  deriving DecidableEq, Repr

/-- A Studbook record (R523, R524). -/
structure Rec where
  seq      : Nat
  ticks    : Word
  epoch    : Half
  code     : Nat
  ttSec    : Word
  ttNs     : Word
  gen      : Word
  sev      : Nat
  chip     : Nat
  witness  : Bool
  host     : Bool
  locked   : Bool
  node     : Nat
  supp     : Nat
  payload  : List Byte
  deriving DecidableEq, Repr

/-- A slot on both dies; none is a copy that is not valid. -/
structure Pair where
  die0 : Option Rec
  die1 : Option Rec
  deriving DecidableEq, Repr

/-- A Studbook region (R527). -/
structure Region where
  slots  : Store Pair := []
  next   : Nat := 0
  /-- The two checkpoint entries (R543): slot and SEQ, newest first; none where the CRC fails. -/
  ckptA  : Option (Nat × Nat) := none
  ckptB  : Option (Nat × Nat) := none
  since  : Nat := 0
  deriving DecidableEq, Repr

/-- One rate limiter (R535): the tokens missing from a full bucket, in parts of one token per tick and second. -/
structure Limiter where
  deficit  : Nat := 0
  last     : Nat := 0
  supp     : Nat := 0
  lastCode : Nat := 0
  deriving DecidableEq, Repr

/-- A LOG_WRITE that waits for its record (R537). -/
structure LogWait where
  seq : Nat
  ref : AcsRef
  deriving DecidableEq, Repr

/-- A record accepted during a hitch switch step, stamped after it (R71, R531); with the LOG_WRITE that waits for it. -/
structure LogDefer where
  code    : Nat
  sev     : Nat
  witness : Bool
  host    : Bool
  payload : List Byte
  ref     : Option AcsRef
  deriving DecidableEq, Repr

/-- A witness to be sent again (R540). -/
structure WitnessOut where
  slot : List Byte
  seq  : Nat
  left : Nat
  deriving DecidableEq, Repr

/-- The Studbook (R522 to R547). -/
structure Studbook where
  nextSeq     : Nat := 1
  seqFloor    : Nat := 0
  seqLimit    : Nat := 1048576
  queue       : List Rec := []
  low         : Region := {}
  high        : Region := {}
  seald       : Region := {}
  sealedSlots : Nat := 16384
  highSlots   : Nat := 507904
  /-- The last-words area, oldest slot first by index (R539). -/
  lastWords   : Store Rec := []
  lwNext      : Nat := 0
  lwKept      : Option Nat := none
  degraded0   : Bool := false
  degraded1   : Bool := false
  mediaFault  : Bool := false
  /-- Commits may begin: the scan of R543 has ended. -/
  scanned     : Bool := false
  scanning    : Bool := true
  scanStart   : Nat := 0
  limiters    : Store Limiter := []
  dropCount   : Nat := 0
  dropLowest  : Nat := 0
  dropLast    : Option Nat := none
  dropPending : Bool := false
  sealedSaid  : Bool := false
  seen        : List (Nid × Nat) := []
  witnesses   : List WitnessOut := []
  witnessSeq  : Half := 0
  waits       : List LogWait := []
  deferred    : List LogDefer := []
  deriving DecidableEq, Repr

end Sys2Proof.Machine
end

