-- ==== Sys2Proof/Machine/HitchState.lean ====
section
/-! DEFINITION. The state of the Hitch unit and of the hitch decision (02_hitch.md). -/
namespace Sys2Proof.Machine

/-- A node record of a hitch frame (R56). -/
structure HRec where
  nid       : Nid
  prevGen   : Word
  prevFp    : Word
  propGen   : Word
  propFp    : Word
  consistId : Word
  vehCount  : Nat
  vehIndex  : Nat
  facing    : Bool
  prevOri   : Bool
  cstDir    : Bool
  fast      : Bool
  inhibit   : Bool
  bypassing : Bool
  committed : Bool
  ttdp      : Bool
  form      : Nat
  linkAFar  : Bool
  linkBFar  : Bool
  deriving DecidableEq, Repr

/-- The vector of one side (R60, R61): records beyond the node, nearest first. -/
structure HVec where
  recs     : List HRec := []
  atEnd    : Bool := false
  overflow : Bool := false
  deriving DecidableEq, Repr

/-- One node of the committed chain, with its numbering (R77, R105). -/
structure CNode where
  nid       : Nid
  orient    : Bool
  consist   : Nat
  vehicle   : Nat
  consistId : Word
  firstVeh  : Nat
  vehCount  : Nat
  reversed  : Bool
  form      : Nat
  absent    : Bool
  deriving DecidableEq, Repr

/-- The hitch process (R75). -/
inductive HProc where
  | offline | pending | steady | gather | agree | refused | bypassWait | ttdp
  deriving DecidableEq, Repr

/-- The code of a hitch process state (R104). -/
def HProc.code : HProc → Nat
  | .offline => 0 | .pending => 1 | .steady => 2 | .gather => 3 | .agree => 4 | .refused => 5 | .bypassWait => 6
  | .ttdp => 7

/-- One backbone port as the Hitch unit sees it (R54, R63, R66, R106). -/
structure HPort where
  /-- LINK_DEBOUNCE has ended: hitch frames are sent and supervised. -/
  live      : Bool := false
  /-- The link is admitted: the Harness switch forwards all classes over it (R67). -/
  admitted  : Bool := false
  fault     : Bool := false
  ttdpNb    : Bool := false
  ttdpSaid  : Bool := false
  /-- A TTDP HELLO has come and the 10 ms of R94 run. -/
  helloWait : Bool := false
  neighbour : Option Nid := none
  nbBypass  : Bool := false
  txSeq     : Nat := 0
  rxSeq     : Option Nat := none
  lastRx    : Stamp := { tick := 0, frac := 0 }
  lastTx    : Stamp := { tick := 0, frac := 0 }
  heard     : Bool := false
  missedRun : Nat := 0
  missed    : Nat := 0
  invalid   : Nat := 0
  losses    : Nat := 0
  /-- Last measured round-trip time, in 1/16 tick. -/
  rtt       : Nat := 0
  /-- RX_SEQ and RX_TS of the next frame: the last frame received before the last one was sent (R54). -/
  latSeq    : Nat := 0xFFFF
  latTs     : Stamp := { tick := 0, frac := 0 }
  /-- SEQ and stamp of the last frames sent, newest first. -/
  txHist    : List (Nat × Stamp) := []
  /-- Flags and records as last sent (R51). -/
  content   : List Byte := []
  deriving DecidableEq, Repr

/-- The result of the numbering procedure (R77). -/
structure Proposal where
  gen   : Word
  fp    : Word
  chain : List CNode
  deriving DecidableEq, Repr

/-- A waiting HITCH_REQUEST or HITCH_WAIT (R107, R108). -/
structure HWait where
  ref   : AcsRef
  /-- HITCH_WAIT's generation; none for HITCH_REQUEST. -/
  gen   : Option Word
  deriving DecidableEq, Repr

/-- The hitch unit. -/
structure Hitch where
  proc       : HProc := .offline
  gen        : Word := 0
  fp         : Word := 0
  orient     : Bool := false
  position   : Nat := 0
  consist    : Nat := 0
  nodes      : Nat := 0
  vehicle    : Nat := 0
  consists   : Nat := 0
  vehicles   : Nat := 0
  mode       : Nat := 0
  rehitch    : Bool := false
  inhibited  : Bool := false
  chain      : List CNode := []
  vec1       : HVec := {}
  vec2       : HVec := {}
  prop       : Option Proposal := none
  /-- Records of the chain last computed on (R69). -/
  lastChain  : List HRec := []
  /-- The inconsistencies of that chain (R80). -/
  consErr    : List (Word × Nat) := []
  /-- The commit condition is met; the switch step runs (R70, R71). -/
  switching  : Bool := false
  committed  : Bool := false
  bypassing  : Bool := false
  ttdpMode   : Bool := false
  /-- TTDP's inauguration process, as IEC 61375-2-5 moves it on. -/
  ttdpPhase  : Nat := 0
  hostInh    : Bool := false
  gpioInh    : Bool := false
  streamInh  : Bool := false
  refuse     : Nat := 0
  roundStart : Nat := 0
  roundUs    : Nat := 0
  switchTick : Nat := 0
  /-- LINE_SETTLE runs in direction 1, in direction 2 (R66, R68). -/
  settle1    : Bool := false
  settle2    : Bool := false
  /-- Ports of couplings in direction 1, 2 whose COUPLE record waits for the round (R102). -/
  couple1    : Option Nat := none
  couple2    : Option Nat := none
  /-- The committed neighbour in direction 1, 2 was lost since the last switch (R71). -/
  lost1      : Bool := false
  lost2      : Bool := false
  ports      : List HPort := List.replicate 4 {}
  waits      : List HWait := []
  /-- Directions on which a coupling is held under inhibit (R91). -/
  heldInh    : Bool := false
  /-- The node that BYPASS_WAIT waits for, and the one that left (R75, R88). -/
  successor  : Option Nid := none
  leaver     : Option Nid := none
  deriving DecidableEq, Repr

end Sys2Proof.Machine
end

