-- ==== Sys2Proof/Machine/LegacyState.lean ====
section
/-! DEFINITION. The state of the MVB and WTB line units (11_legacy_lines.md). -/
namespace Sys2Proof.Machine

/-- A port's memory (R476, R488). -/
structure LegPort where
  data   : List Byte := []
  /-- A frame has been captured. -/
  got    : Bool := false
  /-- Discarded for parity: STALE until the next frame (R489). -/
  bad    : Bool := false
  lineB  : Bool := false
  tick   : Nat := 0
  deriving DecidableEq, Repr

/-- A message data packet: source or destination, and its bytes. -/
structure LegMsg where
  peer : Nat
  data : List Byte
  deriving DecidableEq, Repr

/-- A line unit: 0 MVB0, 1 MVB1, 2 WTB0. -/
structure LegUnit where
  /-- Port memories by address; for WTB, address 0 is the node's own source port. -/
  ports     : Store LegPort := []
  /-- The trusted line is B (R481). -/
  trustB    : Bool := false
  /-- Ticks of the errors of the last second on line A and line B. -/
  errsA     : List Nat := []
  errsB     : List Nat := []
  badA      : Bool := false
  badB      : Bool := false
  /-- Mastership held (R479). -/
  master    : Bool := false
  changeTick : Nat := 0
  /-- Polls without an answer so far in this basic period. -/
  polls     : List Nat := []
  queue     : List LegMsg := []
  sendq     : List LegMsg := []
  reloading : Bool := false
  comp      : List WtbNode := []
  own       : Nat := 0
  masterAddr : Nat := 0
  /-- WTB inauguration inhibit requested (R487). -/
  inhibit   : Bool := false
  esA       : Bool := false
  esB       : Bool := false
  /-- End setting of each line as the last inauguration found it: no WTB neighbour there (R482). -/
  endA      : Bool := false
  endB      : Bool := false
  deriving DecidableEq, Repr

/-- The three line units. -/
structure Legacy where
  units : List LegUnit := List.replicate 3 {}
  deriving DecidableEq, Repr

end Sys2Proof.Machine
end

