-- ==== Sys2Proof/Machine/TimeState.lean ====
section
/-! DEFINITION. The state of the Time Unit (03_time_unit.md). A train time is a count of 1/65,536 ns. -/
namespace Sys2Proof.Machine

/-- The states of a domain (R128). -/
inductive DomState where
  | free | locked | stepWait | holdover | disabled
  deriving DecidableEq, Repr

/-- The code of a domain state (R151). -/
def DomState.code : DomState → Nat
  | .free => 0 | .locked => 1 | .stepWait => 2 | .holdover => 3 | .disabled => 4

/-- RATE nominal (R111). -/
def nominalRate : Nat := 0x1AAAAAAAAAAAAAAB

/-- One time domain (R110, R128, R160). -/
structure Domain where
  st        : DomState := .free
  anchor    : Nat := 0
  offset    : Int := 0
  rate      : Nat := nominalRate
  cand      : Int := 0
  count     : Nat := 0
  steps     : Nat := 0
  suspect   : Bool := false
  isGm      : Bool := false
  gmId      : Nid := 0
  line      : Line := .a
  lastOff   : Int := 0
  lastSync  : Nat := 0
  agree     : Nat := 0
  /-- Tick of the last Sync that came over line A, none before one (R125). -/
  lastA     : Option Nat := none
  deriving DecidableEq, Repr

/-- One entry of a transmit-timestamp queue (R138 to R140). -/
structure TxTs where
  id    : Nat
  tick  : Nat
  frac  : Nat
  fail  : Bool
  late  : Bool
  ovf   : Bool
  deriving DecidableEq, Repr

/-- A port's transmit-timestamp queue. -/
structure TxQueue where
  entries : List TxTs := []
  ovf     : Bool := false
  deriving DecidableEq, Repr

/-- Link calibration of one backbone port (R118 to R121, R164). Delays are in 1/16 ns. -/
structure TLink where
  nb      : Nid := 0
  /-- theta of the exchanges of this round, oldest first, 16 at most. -/
  thetas  : List Int := []
  d       : Int := 0
  corr    : Int := 0
  delay   : Nat := 0
  /-- Neighbour rate ratio minus 1, in 2^-40. -/
  ratio   : Int := 0
  gen     : Word := 0
  both    : Bool := false
  suspect : Bool := false
  uncal   : Bool := false
  /-- Stamps of the exchange before, in 1/16 tick: own transmission and the neighbour's reception. -/
  prevT1  : Nat := 0
  prevT2  : Nat := 0
  deriving DecidableEq, Repr

/-- The SNAP_ registers as last latched (R149). -/
structure Snap where
  fc      : Nat := 0
  tt      : Nat := 0
  info    : Word := 0
  rate    : Dword := 0
  domDiff : Word := 0
  deriving DecidableEq, Repr

/-- What the leader sends ahead (R143, R145): a change and the tick at which it applies. -/
structure TimeChange where
  tick   : Nat
  dom    : Nat
  anchor : Nat
  offset : Int
  rate   : Nat
  slew   : Int
  sel    : Nat
  epoch  : Half
  st     : DomState
  deriving DecidableEq, Repr

/-- A TIME_SET that waits for a PPS_IN edge (R162). -/
structure TimeSetWait where
  ref   : Option AcsRef
  dom   : Nat
  value : Nat
  deriving DecidableEq, Repr

/-- A TIME_SET beyond STEP_THRESHOLD on its way into the node's own domain: the step and the sync intervals left (R162). -/
structure TimeSetStep where
  dom  : Nat
  step : Int
  left : Nat
  deriving DecidableEq, Repr

/-- The Time Unit. -/
structure TimeUnit where
  /-- The free counter (R109). -/
  fc        : Dword := 0
  running   : Bool := false
  pri       : Domain := {}
  sec       : Domain := {}
  sel       : Nat := 0
  slew      : Int := 0
  /-- Tick at which the slew term was set, from which it falls. -/
  slewFrom  : Nat := 0
  epoch     : Half := 0
  backInit  : Bool := false
  /-- The backup counter (R147): mark, last written time, crystal periods since. -/
  backValid : Bool := false
  backTime  : Nat := 0
  backCount : Nat := 0
  snap      : Snap := {}
  ppsTick   : Nat := 0
  ppsFrac   : Nat := 0
  ppsNew    : Bool := false
  ppsOvr    : Bool := false
  ppsCount  : Nat := 0
  ppsLatch  : Nat := 0
  ppsSeen   : Bool := false
  ppsPeriod : Nat := 3
  ppsDom    : Nat := 0
  ppsLow    : Bool := false
  ppsOn     : Bool := true
  ppsWidth  : Nat := 100
  ppsLevel  : Bool := false
  ppsLast   : Nat := 0
  txtsSel   : Nat := 0
  txtsTick  : Nat := 0
  txts      : List TxQueue := List.replicate 15 {}
  links     : List TLink := List.replicate 4 {}
  tbLock    : Bool := false
  tbDelta   : Int := 0
  tbCount   : Nat := 0
  tbCand    : Int := 0
  tbMissed  : Nat := 0
  leaderAt  : Nat := 0
  /-- SYNC_OUT (R404). -/
  syncOut   : Level := .hiz
  changes   : List TimeChange := []
  setWaits  : List TimeSetWait := []
  setSteps  : List TimeSetStep := []
  /-- A step that fell due during a hitch switch: domain and step (R131). -/
  dueStep   : Option (Nat × Int) := none
  /-- Peer delay of consist ports and MG0, as the standard measures it, by port (R122). -/
  pdelay    : List Nat := List.replicate 15 0
  /-- gPTP state that IEEE 802.1AS-2020 keeps and this manual does not lay out: sequence numbers, per port. -/
  gptpSeq   : List Nat := List.replicate 15 0
  deriving DecidableEq, Repr

end Sys2Proof.Machine
end

