-- ==== Sys2Proof/Machine/RedundState.lean ====
section
/-! DEFINITION. The state of Span and Troika redundancy (09_span_and_troika.md): roles and claims, tug links, held copies and images. -/
namespace Sys2Proof.Machine

/-- ROLE_STATE (R440). -/
inductive Role where
  | detached | syncing | standby | active | member | excluded
  deriving DecidableEq, Repr

/-- The code of a role (R440). -/
def Role.code : Role → Nat
  | .detached => 0 | .syncing => 1 | .standby => 2 | .active => 3 | .member => 4 | .excluded => 5

/-- Tug-link channels, VC 0 to 7 (R407). -/
inductive TugChan where
  | link | sync | agree | state | rsp | req | frame | mgmt
  deriving DecidableEq, Repr

/-- The number of a channel. -/
def TugChan.code : TugChan → Nat
  | .link => 0 | .sync => 1 | .agree => 2 | .state => 3 | .rsp => 4 | .req => 5 | .frame => 6 | .mgmt => 7

/-- A tug frame on its way: sequence number, channel, type, payload (R406). -/
structure TugMsg where
  seq  : Nat
  chan : TugChan
  typ  : Nat
  data : List Byte
  deriving DecidableEq, Repr

/-- One tug link (R406 to R410, R441). -/
structure TugLink where
  up        : Bool := false
  /-- TUG1 wired as a spare and not in use (R410). -/
  spare     : Bool := false
  /-- Consecutive valid HEARTBEATs since the link was last down. -/
  beats     : Nat := 0
  helloOk   : Bool := false
  peerIndex : Option Nat := none
  peerNid   : Nid := 0
  peerForm  : Nat := 0
  peerFw    : Nat := 0
  peerFp    : BitVec 256 := 0
  peerState : Nat := 0
  peerRole  : Nat := 0
  /-- FLAGS of the peer's last HEARTBEAT: bit 0 CLAIM, 1 MEMBER, 2 TB_LOCK, 3 NODE_SAFE. -/
  peerFlags : Nat := 0
  hello     : List Byte := []
  txSeq     : Nat := 1
  rxSeq     : Nat := 1
  unacked   : List TugMsg := []
  /-- Frames that wait for credit or for room in the replay buffer, oldest first. -/
  waiting   : List TugMsg := []
  /-- Cumulative 256-byte units sent and granted, by VC. -/
  sent      : List Nat := List.replicate 8 0
  /-- Cumulative units received and taken out of the receive buffers, by VC. -/
  got       : List Nat := List.replicate 8 0
  granted   : List Nat := [0, 16, 256, 512, 64, 64, 1024, 128]
  replays   : Nat := 0
  crcErrors : Nat := 0
  /-- Delay measurement (R122, R409): as for a backbone link; own SEQ, the last SEQ received and its stamp, what the next message names, SEQ and
  stamp of the last messages sent, newest first. -/
  timing    : TLink := {}
  tSeq      : Nat := 0
  tRx       : Option (Nat × Stamp) := none
  tLat      : Option (Nat × Stamp) := none
  tHist     : List (Nat × Stamp) := []
  deriving DecidableEq, Repr

/-- A member's image or output that waits for agreement or vote (R422, R425). -/
structure HeldImage where
  chip   : Nat
  task   : Nat
  cycle  : Nat
  data   : List Byte
  check  : Word
  absent : Bool
  deriving DecidableEq, Repr

/-- The copy of a task that a standby or synchronising chip holds (R417). -/
structure TaskCopy where
  bank     : List Byte := []
  output   : List Byte := []
  info     : List Byte := []
  /-- Lines of the cycle being received, for its bank check. -/
  lines    : List Byte := []
  complete : Option Nat := none
  full     : Bool := false
  /-- Grid instant of the task's period, counted from train time 0, in which the complete cycle lay (R420). -/
  grid     : Nat := 0
  deriving DecidableEq, Repr

/-- A node-wide command under way (R432): where it came from, and the chips that have not applied it. -/
structure NodeCmd where
  ref    : Option AcsRef
  chip   : Nat
  opcode : Nat
  tag    : Half
  gen    : Word
  args   : List Byte
  /-- Chips other than this one that have still to apply it, as this chip knows where it received the command. -/
  left   : List Nat
  /-- The coordinator has given it its place in the order. -/
  ordered : Bool := true
  /-- This chip has applied it. -/
  applied : Bool := false
  /-- Its answer, kept until every chip has applied it. -/
  result : Option (Nat × List Byte) := none
  deriving DecidableEq, Repr

/-- Segments of a frame being reassembled (R412, R514). -/
structure Reassembly where
  link : Nat
  chan : TugChan
  num  : Nat
  head : List Byte
  data : List Byte
  deriving DecidableEq, Repr

/-- Redundancy. -/
structure Redund where
  role         : Role := .detached
  claim        : Bool := false
  peerClaim0   : Bool := false
  peerClaim1   : Bool := false
  tugs         : List TugLink := List.replicate 2 {}
  /-- The time leader of a Troika node (R144). -/
  leader       : Nat := 0
  members      : BitVec 3 := 0
  excludeCause : Nat := 0
  changeTick   : Nat := 0
  syncDone     : Nat := 0
  syncTotal    : Nat := 0
  dissents     : List Nat := []
  copies       : Store TaskCopy := []
  inputs       : List HeldImage := []
  outputs      : List HeldImage := []
  parts        : List Reassembly := []
  /-- Number of the next frame sent in segments. -/
  frameNum     : Nat := 0
  /-- TUG1 carries every channel in place of TUG0 (R410). -/
  onSpare      : Bool := false
  /-- A node-wide SAFE event stands (R421). -/
  nodeSafe     : Bool := false
  cmds         : List NodeCmd := []
  /-- What the node's other chips have said of their staged images: chip, NODE_FP of one that validates, none of one that does not (R433). -/
  stages       : List (Nat × Option (BitVec 256)) := []
  /-- The REDUND_SWITCH that waits for its instant (R439). -/
  switchAt     : Option (Option AcsRef × Nat) := none
  /-- Synchronisation waits for REDUND_REJOIN (R429, R430). -/
  needRejoin   : Bool := false
  deriving DecidableEq, Repr

end Sys2Proof.Machine
end

