-- ==== Sys2Proof/Machine/Output.lean ====
section
/-! DEFINITION. What the chip drives or sends, in order: the model's own record of the block's outputs (log entry 2). -/
namespace Sys2Proof.Machine

/-- The output balls that change by themselves (R650). -/
inductive PinName where
  | bypassA | bypassB | claimOut | syncOut | ppsOut | wakeOut
  | wtbEsA | wtbEsB
  | gpio (n : Nat)
  deriving DecidableEq, Repr

/-- One output event. -/
inductive Output where
  /-- An MSI-X message (R588). -/
  | msix (vector : Nat)
  /-- A frame leaves a port (R168 stage 10); stomped under R186. -/
  | frame (port : Nat) (f : Frame) (stomped : Bool)
  /-- A verify frame, or a respond frame, of the MAC merge sublayer (R225, R226). -/
  | merge (port : Nat) (respond : Bool)
  /-- The chip writes host memory (R257). -/
  | hostWrite (addr : Nat) (data : List Byte)
  /-- The value a register read returns. -/
  | read (off : Nat) (data : Word)
  /-- A QSPI transaction's answer, marker and data (R560). -/
  | qspi (data : List Byte)
  /-- An ACS command completes (R578). -/
  | acs (mbx idx opcode status : Nat) (payload : List Byte)
  /-- An output ball changes. -/
  | pin (p : PinName) (l : Level)
  /-- A tug frame (R406): link, SEQ, ACK where valid, replayed, channel, type, payload. -/
  | tug (link seq : Nat) (ack : Option Nat) (replay : Bool) (chan : TugChan) (typ : Nat) (data : List Byte)
  /-- A CAN frame's start, or the cancelling of one. -/
  | can (chan buf : Nat)
  /-- A CAN error frame (R461). -/
  | canError (chan : Nat)
  /-- A frame on a legacy line: unit, kind, data. -/
  | legacy (unit kind : Nat) (data : List Byte)
  deriving DecidableEq, Repr

end Sys2Proof.Machine
end

