-- ==== Sys2Proof/Machine/SwitchState.lean ====
section
/-! DEFINITION. The state of the Harness switch (04_harness_switch.md): address table, VLANs, queues, gates, filters and
meters, recovery contexts, MACsec. -/
namespace Sys2Proof.Machine

/-- An address table entry (R174, R218). -/
structure FdbEntry where
  mac    : Mac
  vid    : Nat
  /-- 0 to 15 a port, 16 and 17 a direction, 32 the port mask. -/
  dest   : Nat
  static : Bool
  drop   : Bool
  locked : Bool
  mask   : BitVec 16
  /-- Free counter when the address was last seen. -/
  seen   : Nat
  deriving DecidableEq, Repr

/-- Member and untag masks of a VID (R170). -/
structure VlanRow where
  member : BitVec 16 := 0
  untag  : BitVec 16 := 0
  deriving DecidableEq, Repr

/-- Where a queued frame comes from, so far as its departure matters. -/
inductive TxOrigin where
  /-- A forwarded frame. -/
  | transit
  /-- The Hitch unit (R51). -/
  | hitch
  /-- The Groom firmware: gPTP, Wrangler, witnesses, MKA. -/
  | groom
  /-- The MAC itself: pause, verify and respond frames. -/
  | mac
  /-- A stream context (R285). -/
  | stream (ctx : Nat)
  /-- A host TX ring, with the timestamp request (R138) and the completion it belongs to. -/
  | ring (ring : Nat) (tsId : Option Nat)
  deriving DecidableEq, Repr

/-- A frame in an egress queue (R188, R191). -/
structure QFrame where
  frame  : Frame
  len    : Nat
  cells  : Nat
  origin : TxOrigin
  handle : Option Nat
  /-- Ingress port whose occupancy the frame counts towards (R236). -/
  inPort : Nat
  /-- The recovery context and the sequence number the frame was passed for (R201). -/
  frer   : Option (Nat × Nat)
  /-- The launch tick it is held to, and whether it left late (R137). -/
  launch : Option Nat
  late   : Bool
  /-- The queue entry's number, for completions and parity errors. -/
  uid    : Nat
  deriving DecidableEq, Repr

/-- A gate control list (R192, R193). -/
structure GateList where
  entries : List Word
  base    : Nat
  cycle   : Nat
  ext     : Nat
  epoch   : Half
  changed : Nat
  deriving DecidableEq, Repr

/-- The gates of one port (R192 to R196). -/
structure Gate where
  oper    : Option GateList := none
  /-- The pending list, none inside for a CLEAR, with its config change time. -/
  pend    : Option (Option GateList × Nat) := none
  cur     : Nat := 0
  states  : BitVec 8 := 0xFF
  /-- A step of train time has re-phased the schedule: its next event begins the first entry (R196). -/
  rephase : Bool := false
  deriving DecidableEq, Repr

/-- A stream filter (R198). -/
structure PsFilter where
  handle   : Option Nat
  pcp      : Option Nat
  maxSdu   : Nat
  meter    : Option Nat
  blockOn  : Bool
  blocked  : Bool
  deriving DecidableEq, Repr

/-- A flow meter (R198): rates in 64 kbit/s steps, sizes in bytes, and its two buckets. -/
structure PsMeter where
  cir     : Nat
  cbs     : Nat
  eir     : Nat
  ebs     : Nat
  coupl   : Bool
  dropY   : Bool
  markRed : Bool
  red     : Bool
  deriving DecidableEq, Repr

/-- A slot of a recovery history (R201). -/
inductive SlotSt where
  | no | unknown | prov | accepted
  deriving DecidableEq, Repr

/-- A frame held on a slot (R202). -/
structure HeldCopy where
  frame : Frame
  len   : Nat
  port  : Nat
  vid   : Nat
  pcp   : Nat
  dei   : Bool
  line  : Line
  stamp : Stamp
  deriving DecidableEq, Repr

/-- A passed frame that local egresses still have to read (R201, R202). -/
structure Passed where
  seq  : Nat
  left : BitVec 16
  held : List HeldCopy
  deriving DecidableEq, Repr

/-- An armed slot with what its FRAME_PARITY record will say (R202, R209). -/
structure Armed where
  seq  : Nat
  port : Nat
  cell : Nat
  deriving DecidableEq, Repr

/-- A recovery context (R201 to R204, R220). -/
structure Frer where
  fresh   : Bool := true
  rseq    : Nat := 0
  hist    : List SlotSt := []
  live    : List Passed := []
  armed   : List Armed := []
  passed  : Nat := 0
  discard : Nat := 0
  ooo     : Nat := 0
  lost    : Nat := 0
  rogue   : Nat := 0
  tagless : Nat := 0
  resets  : Nat := 0
  recov   : Nat := 0
  curA    : Nat := 0
  curB    : Nat := 0
  fromA   : Nat := 0
  fromB   : Nat := 0
  silentA : Bool := false
  silentB : Bool := false
  deriving DecidableEq, Repr

/-- MACsec of one backbone port (R205 to R208, R221). -/
structure MacSec where
  st       : Nat := 0
  an       : Nat := 0
  kn       : Nat := 0
  server   : Bool := false
  txPn     : Nat := 0
  peerSci  : Dword := 0
  icvFail  : Nat := 0
  replay   : Nat := 0
  lastFail : Option Nat := none
  /-- Frames that failed verification since the SA came into use, of every kind (R208). -/
  fails    : Nat := 0
  running  : Bool := false
  nb       : Nid := 0
  deriving DecidableEq, Repr

/-- Parity errors of a frame-buffer cell within a second (R210). -/
structure CellErr where
  first  : Nat := 0
  second : Nat := 0
  count  : Nat := 0
  deriving DecidableEq, Repr

/-- Reserve and quota of an egress queue, in cells (R188). -/
structure Quota where
  reserve : Nat
  quota   : Nat
  deriving DecidableEq, Repr

/-- The Harness switch. -/
structure Switch where
  fdb      : List FdbEntry := []
  /-- VLAN rows that differ from the default of R170, by VID. -/
  vlan     : Store VlanRow := []
  queues   : Store (List QFrame) := []
  /-- Quotas set by PORT_QUOTA_SET, by port * 8 + class. -/
  quotas   : Store Quota := []
  gates    : List Gate := List.replicate 15 {}
  filters  : Store PsFilter := []
  meters   : Store PsMeter := []
  frer     : Store Frer := []
  macsec   : List MacSec := List.replicate 4 {}
  retired  : List Nat := []
  cellErrs : Store CellErr := []
  /-- Ports whose forwarding PORT_FORWARD has disabled (R222). -/
  noFwd    : BitVec 16 := 0
  /-- Table entries with a parity error whose reload is under way (R633): table, port, index. -/
  reloads  : List (Nat × Nat × Nat) := []
  /-- The number of the next queue entry. -/
  nextUid  : Nat := 0
  deriving DecidableEq, Repr

end Sys2Proof.Machine
end

