-- ==== Sys2Proof/Machine/PortState.lean ====
section
/-! DEFINITION. The state of the Frame Engine (05_frame_engine.md): MACs, wake patterns, host rings. -/
namespace Sys2Proof.Machine

/-- MAC parameters in force (R224, R277). -/
structure MacCfg where
  pauseRx  : Bool
  pauseTx  : Bool
  exempt   : Bool
  mmEnable : Bool
  mmVerify : Bool
  addFrag  : Nat
  verifyMs : Nat
  wdLimit  : Nat
  /-- In units of 100 ms. -/
  wdHold   : Nat
  xoffKiB  : Nat
  xonKiB   : Nat
  deriving DecidableEq, Repr

/-- A wake pattern (R237). -/
structure WakePat where
  mask   : BitVec 128 := 0
  check  : Half := 0
  minLen : Nat := 0
  enable : Bool := false
  deriving DecidableEq, Repr

/-- MAC merge states (R276): 0 DISABLED, 1 INITIAL, 2 VERIFYING, 3 SUCCEEDED, 4 FAILED, 5 ACTIVE without verification. -/
inductive MmState where
  | disabled | initial | verifying | succeeded | failed | unverified
  deriving DecidableEq, Repr

/-- The code of a MAC merge state (R276). -/
def MmState.code : MmState → Nat
  | .disabled => 0 | .initial => 1 | .verifying => 2 | .succeeded => 3 | .failed => 4 | .unverified => 5

/-- One external port's MAC. -/
structure MacPort where
  link      : Bool := false
  rate      : Nat := 255
  /-- LINK_DEBOUNCE runs (R66). -/
  debounce  : Bool := false
  changes   : Nat := 0
  linkTick  : Nat := 0
  /-- Parameters set by PORT_MAC_SET; none while the tack image's hold. -/
  cfg       : Option MacCfg := none
  mm        : MmState := .disabled
  attempts  : Nat := 0
  hold      : Bool := false
  paused    : Bool := false
  pauseTo   : Nat := 0
  /-- Start of continuous pause, and when the port last left the paused state (R235). -/
  pauseFrom : Option Nat := none
  pauseEnd  : Nat := 0
  holdTo    : Option Nat := none
  pauseSa   : Mac := 0
  /-- When the port last entered the paused state, and paused ticks not yet counted as a whole millisecond (PAUSED_MS). -/
  pausedAt  : Nat := 0
  pausedRem : Nat := 0
  xoffSent  : Bool := false
  wake      : List WakePat := List.replicate 16 {}
  wakeHits  : List Nat := List.replicate 16 0
  deriving DecidableEq, Repr

/-- A frame waiting for descriptors of an RX ring (R255), with what its write-back reports (R253). -/
structure RxWait where
  frame   : Frame
  tagged  : Bool
  len     : Nat
  port    : Nat
  cls     : Nat
  handle  : Option Nat
  seq     : Option Half
  stamp   : Stamp
  tci     : Nat
  cells   : Nat
  uid     : Nat
  since   : Nat
  /-- The recovery context and sequence number the frame was passed for (R201). -/
  frer    : Option (Nat × Nat)
  /-- What the frame proved to be after DMA under STREAM had begun (R254): 0 good, 1 bad FCS, 2 failing MACsec, 3 parity error. -/
  bad     : Nat := 0
  deriving DecidableEq, Repr

/-- A TX frame that a fence holds (R266): its descriptors and data as read, and the frames it waits for. -/
structure Fenced where
  descs   : List (List Byte)
  data    : List Byte
  waitFor : List Nat
  deriving DecidableEq, Repr

/-- One host ring (R244 to R252). -/
structure Ring where
  base     : Dword := 0
  size     : Nat := 64
  enable   : Bool := false
  stream   : Bool := false
  late     : Bool := false
  keepFcs  : Bool := false
  roEn     : Bool := true
  bufUnits : Nat := 8
  holdUs   : Nat := 100
  tail     : Nat := 0
  head     : Nat := 0
  irqCount : Nat := 1
  irqDelay : Nat := 0
  selCls   : BitVec 8 := 0xFF
  selPort  : BitVec 16 := 0xFFFF
  stopped  : Bool := true
  noDma    : Bool := false
  fetchErr : Bool := false
  descErr  : Bool := false
  nobuf    : Bool := false
  holdDrop : Bool := false
  /-- Completions not yet reported (R250). -/
  unsaid   : Nat := 0
  waiting  : List RxWait := []
  launch   : List (Nat × QFrame) := []
  fenced   : Option Fenced := none
  /-- Frames written back whose departure a fence would wait for. -/
  pending  : List Nat := []
  deriving DecidableEq, Repr

end Sys2Proof.Machine
end

