-- ==== Sys2Proof/Machine/WranglerState.lean ====
section
/-! DEFINITION. The state of Wrangler (08_wrangler.md): rounds, placements, migrations. -/
namespace Sys2Proof.Machine

/-- A received VERDICT, or the own one (R374). -/
structure WrVerdict where
  nid    : Nid
  digest : Nat
  fp     : Nat
  moves  : Nat
  unmet  : Nat
  deriving DecidableEq, Repr

/-- Where a placement puts one task (R377, R401): its owner before the moves, the constraint that left it unmet, its load. -/
structure Placed where
  id    : Nat
  nid   : Nid
  was   : Nid
  unmet : Nat
  load  : Nat
  home  : Nid
  pin   : Bool
  dwell : Bool
  moved : Bool
  /-- The number of its unit. -/
  unit  : Nat
  /-- The candidates of the task in that round (R366). -/
  cands : List Nid
  deriving DecidableEq, Repr

/-- A round under way (R375, R376). kind: 0 SCHEDULED, 1 HITCH, 2 MEMBERSHIP. -/
structure WrRound where
  kind     : Nat
  round    : Nat
  reports  : List (Nid × List Byte) := []
  verdicts : List WrVerdict := []
  frozen   : Bool := false
  place    : Option (List Placed) := none
  own      : Option WrVerdict := none
  deriving DecidableEq, Repr

/-- Lines of a DELTA being received for a cycle (R384). -/
structure WrDelta where
  cycle : Nat
  lines : List (Nat × List Byte) := []
  last  : Bool := false
  deriving DecidableEq, Repr

/-- A migration of one task (R384 to R388). -/
structure Migration where
  task     : Nat
  id       : Nat
  /-- This node is the source. -/
  out      : Bool
  peer     : Nid
  applyTick : Nat := 0
  /-- Overlap cycles so far, and cycles since the first. -/
  overlaps : Nat := 0
  cycles   : Nat := 0
  /-- Source: FULL has been sent; last cycle acknowledged; committed bank as last sent; cycle released. -/
  fullSent : Bool := false
  acked    : Option Nat := none
  sentBank : List Byte := []
  released : Option Nat := none
  /-- Destination: state of the source's cycle held exactly; FULL under way; DELTAs to apply. -/
  bank     : List Byte := []
  have_    : Option Nat := none
  deltas   : List WrDelta := []
  outImage : List Byte := []
  outDone  : Bool := false
  metas    : List (Nat × Nat) := []
  metaEt   : Nat := 0
  metaDone : Bool := false
  release  : Option Nat := none
  /-- The current cycle is an overlap cycle. -/
  shadow   : Bool := false
  deriving DecidableEq, Repr

/-- The exact state of a task whose migration ended with its source lost (R389). -/
structure WrExact where
  id    : Nat
  cycle : Nat
  bank  : List Byte
  metas : List (Nat × Nat)
  et    : Nat
  deriving DecidableEq, Repr

/-- Wrangler. -/
structure Wrangler where
  msgSeq     : Half := 0
  rseq       : Half := 0
  seen       : List (Nid × Nat) := []
  hold       : Bool := false
  round      : Option WrRound := none
  /-- Rounds of this generation already started: HITCH, the highest MEMBERSHIP, the last SCHEDULED. -/
  hitchDone  : Bool := false
  memberNo   : Nat := 0
  /-- Nodes whose REPORTs have been kept under this generation: the domain as this node knows it. -/
  known      : List Nid := []
  /-- The last disagreed round, whose input set the home placement rests on (R382). -/
  lastInputs : Option WrRound := none
  lastSched  : Option Nat := none
  /-- Consecutive disagreed rounds, fallback, and a home placement that waits for the next tick boundary. -/
  disagreed  : Nat := 0
  fallback   : Bool := false
  homeDue    : Option (List Placed) := none
  outlier    : Bool := false
  /-- The last applied round. -/
  applied    : List Placed := []
  appliedGen : Word := 0
  appliedKind : Nat := 0
  appliedRound : Nat := 0
  appliedFp  : Nat := 0
  appliedDigest : Nat := 0
  appliedMembers : List Nid := []
  appliedHold : Bool := false
  isMember   : Bool := false
  applyTick  : Nat := 0
  lastCapacity : Nat := 0
  lastFixed  : Nat := 0
  dwell      : List Nat := []
  migs       : List Migration := []
  exact      : List WrExact := []
  /-- Retained copies of a WARM start may still be adopted (R389). -/
  warmFirst  : Bool := false
  /-- A task that stops without commit at its next grid instant, and the owner kept (R390). -/
  dups       : List (Nat × Nid) := []
  /-- Execution times within MEASURE_WINDOW by task: tick and ns, falling (R368). -/
  times      : Store (List (Nat × Nat)) := []
  resA       : Nat := 0
  resB       : Nat := 0
  /-- What a MEMBERSHIP round would be started for: own ELIGIBLE and the nodes marked absent, as last seen. -/
  wasEligible : Bool := false
  wasAbsent  : List Nid := []
  deriving DecidableEq, Repr

end Sys2Proof.Machine
end

