-- ==== Sys2Proof/Machine/State.lean ====
section
/-! DEFINITION. The state of the whole block as plain data, the reasons a step can stop, and the state after reset. -/
namespace Sys2Proof.Machine

/-- Everything the spec gives the chip, and the queue of waiting commands. -/
structure State where
  /-- Commands that wait, first in, first out. -/
  pending : List Instr := []
  /-- What the chip has driven or sent, oldest first: the model's own record (log entry 2). -/
  out     : List Output := []
  /-- Free values used so far: the model's own counter (log entry 1). -/
  freeIdx : Nat := 0
  node    : Node := {}
  pwr     : Power := {}
  boot    : Boot := {}
  tack    : TackStore := {}
  sec     : Sec := {}
  host    : HostIf := {}
  /-- Request and response buffers of the mailboxes by Window M offset (R565). -/
  mem     : Mem := []
  causes  : Store CauseReg := []
  stats   : Stats := {}
  log     : Studbook := {}
  hitch   : Hitch := {}
  time    : TimeUnit := {}
  sw      : Switch := {}
  macs    : List MacPort := List.replicate 15 {}
  rx      : List Ring := List.replicate 8 {}
  tx      : List Ring := List.replicate 8 {}
  stream  : Stream := {}
  ctl     : Control := {}
  /-- The retain area in MRAM (R335). -/
  retain  : RetainArea := {}
  red     : Redund := {}
  wr      : Wrangler := {}
  can     : Can := {}
  leg     : Legacy := {}
  br      : Bridge := {}
  deriving DecidableEq, Repr

/-- Reasons the block stops: none; no rule of the spec stops it. -/
inductive Fault where
  /-- Raised by nothing: the spec names no event that stops the block for good. -/
  | never
  deriving DecidableEq, Repr

/-- Reasons a command has no meaning. -/
inductive Refusal where
  /-- A command of the table that the model does not give a meaning; raised by exec's arm of that command. Safe: no next state is claimed. -/
  | notModelled (mnemonic : String)
  deriving DecidableEq, Repr

/-- The machine right after reset release of the first power-up: BOOT, every register at its Reset value, the MRAM and embedded
MRAM as shipped (R16, R47, R674). -/
def State.reset : State := {}

end Sys2Proof.Machine
end

