-- ==== Sys2Proof/Machine/Ops.lean ====
section
/-! DEFINITION. The named operations that the meanings share: free values, time, tack parameters, statistics, interrupt
causes, Studbook records, egress of frames, ACS completion, node state. -/
namespace Sys2Proof

/-- The reference of a command. -/
def Acs.ref (c : Acs) (opcode : Nat) : AcsRef :=
  { mbx := c.mbx, idx := c.idx, opcode := opcode, tag := c.tag, notify := c.flags.getLsbD 2 }

/-- A field of a command's arguments. -/
def Acs.arg (c : Acs) (off n : Nat) : Nat := Machine.fLe c.args off n

/-- Any set bit in bytes of the arguments that must be 0 (R15). -/
def Acs.nonZero (c : Acs) (off n : Nat) : Bool := Machine.fLe c.args off n ≠ 0

/-- READY, RUN, DEGRADED or SAFE: the states in which the node is in line. -/
def NodeState.inLine : NodeState → Bool
  | .ready | .run | .degraded | .safe => true
  | _ => false

/-- RUN or DEGRADED: control runs. -/
def NodeState.running : NodeState → Bool
  | .run | .degraded => true
  | _ => false

/-- HELD and the states in line: where most ACS commands are accepted. -/
def NodeState.serving : NodeState → Bool
  | .held | .ready | .run | .degraded | .safe => true
  | _ => false

end Sys2Proof

namespace Sys2Proof.Machine

/-! ## Outcomes and free values -/

/-- The outcome of a command. -/
abbrev Out := Host.Outcome State Fault Refusal

/-- A value the spec leaves open (log entry 1): the free value in force, and the counter moved on. -/
def State.freeNat (s : State) : Nat := Config.freeNat s.freeIdx

/-- The counter of free values moved on. -/
def useFree (s : State) : State := { s with freeIdx := s.freeIdx + 1 }

/-- Add an output event. -/
def emit (o : Output) (s : State) : State := { s with out := s.out ++ [o] }

/-! ## Time (R109 to R112) -/

/-- The free counter as a number of ticks. -/
def State.now (s : State) : Nat := s.time.fc.toNat

/-- One tick of the free counter, which runs while the root PLL is locked (R109; log entry 5). -/
def idleTick (s : State) : State :=
  if s.pwr.pllLocked then { s with time := { s.time with fc := s.time.fc + 1 } } else s

/-- Units of train time, 1/65,536 ns, in a second and in a nanosecond. -/
def ttNs : Nat := 65536
def ttSec : Nat := 65536 * 1000000000

/-- The train time of a domain at a free-counter value and fraction (R110), truncated to 1/65,536 ns. -/
def Domain.timeAt (d : Domain) (c f : Nat) : Int :=
  d.offset + ((d.rate * (16 * ((c + (2 ^ 64 - d.anchor % 2 ^ 64)) % 2 ^ 64) + f) / 2 ^ 48 : Nat) : Int)

/-- The selected domain (R112). -/
def TimeUnit.cur (t : TimeUnit) : Domain := if t.sel = 0 then t.pri else t.sec

/-- What is left of the slew term at a tick: it falls to 0 at SLEW_MAX parts per million (R129). -/
def TimeUnit.slewAt (t : TimeUnit) (ppm : Nat) (c : Nat) : Int :=
  let fall : Int := (((c - t.slewFrom) * 5 * ppm * 65536 / 3000000 : Nat) : Int)
  if t.slew > 0 then max 0 (t.slew - fall) else min 0 (t.slew + fall)

/-! ## Tack parameters (R607, R608) -/

/-- The value bytes of a parameter: the entry of the index, else the entry for every index. -/
def Tack.val (t : Tack) (sec id index : Nat) : Option (List Byte) :=
  match t.params.find? (fun p => p.sec = sec && p.id = id && p.index = index) with
  | some p => some p.val
  | none => (t.params.find? (fun p => p.sec = sec && p.id = id && p.index = 0xFFFF)).map Param.val

/-- A parameter of the active image, none where it has no entry. -/
def State.param? (s : State) (sec id index : Nat) : Option Nat :=
  match s.tack.active with
  | some t => (t.val sec id index).map leNat
  | none => none

/-- A parameter of the active image with its default. -/
def State.param (s : State) (sec id index dflt : Nat) : Nat := (s.param? sec id index).getD dflt

/-- An address parameter, 6 bytes in transmitted order (R607). -/
def State.macParam? (s : State) (sec id index : Nat) : Option Mac :=
  match s.tack.active with
  | some t => (t.val sec id index).map (fun b => BitVec.ofNat 48 (beNat b))
  | none => none

/-- The section of a type and INSTANCE of the active image. -/
def State.sectionOf (s : State) (typ inst : Nat) : List Byte :=
  match s.tack.active with
  | some t => ((t.sections.find? (fun x => x.typ = typ && x.flags / 256 = inst)).map Section.content).getD []
  | none => []

/-- The n-th fixed-size record of a section. -/
def recordAt (bs : List Byte) (size n : Nat) : List Byte := slice bs (size * n) size

/-- SLEW_MAX, in ppm (R127). -/
def State.slewMax (s : State) : Nat := s.param 5 8 0xFFFF 20

/-- Selected train time at a free-counter value and fraction, in 1/65,536 ns (R112). -/
def State.selTime (s : State) (c f : Nat) : Int := s.time.cur.timeAt c f + s.time.slewAt s.slewMax c

/-- Selected train time now; train time is never negative. -/
def State.trainNow (s : State) : Nat := (s.selTime s.now 0).toNat

/-- A train time as 6-byte seconds, 4-byte nanoseconds and 2-byte fraction (R163, R219). -/
def ttBytes (t : Nat) : List Byte := le 6 (t / ttSec) ++ le 4 (t % ttSec / ttNs) ++ le 2 (t % ttNs)

/-- The train time that such bytes spell. -/
def ttOf (bs : List Byte) : Nat := fLe bs 0 6 * ttSec + fLe bs 6 4 * ttNs + fLe bs 10 2

/-- The chip is powered and out of reset: it has registers (BOOT to STABLED). -/
def State.alive (s : State) : Bool :=
  match s.node.state with
  | .off => false
  | .backup => false
  | _ => s.pwr.main && !s.pwr.railTrip && !s.pwr.thermal

/-- The owner of the node's outputs (R431): a simplex chip, the active chip of a Span node, the time leader of a Troika node. -/
def State.owner (s : State) : Bool :=
  match s.node.form with
  | .simplex => true
  | .span => s.node.active
  | .troika => s.node.active && s.node.chipIndex = s.red.leader

/-! ## Interrupt causes (R588 to R591) -/

/-- The cause registers, one per block; CAN channels have their own (R470). -/
inductive CauseBlk where
  | sys | hitch | time | harness | port | stream | control | wrangler | redund | can (ch : Nat) | legacy | bridge | log
  deriving DecidableEq, Repr

/-- The key of a cause register. -/
def CauseBlk.key : CauseBlk → Nat
  | .sys => 0 | .hitch => 1 | .time => 2 | .harness => 3 | .port => 4 | .stream => 5 | .control => 6 | .wrangler => 7
  | .redund => 8 | .legacy => 10 | .bridge => 11 | .log => 12 | .can ch => 16 + ch

/-- The vector of a cause bit (R588, and the chapters that send a bit to vector 24). -/
def causeVector : CauseBlk → Nat → Nat
  | .sys, _ => 24
  | .hitch, _ => 1
  | .time, _ => 2
  | .harness, _ => 24
  | .port, _ => 24
  | .stream, b => if b = 5 then 24 else 5
  | .control, b => if b = 7 ∨ b = 8 then 24 else 5
  | .wrangler, _ => 5
  | .redund, _ => 4
  | .can _, b => if b = 10 then 24 else 6
  | .legacy, b => if b = 5 then 24 else 7
  | .bridge, b => if b = 6 then 24 else 7
  | .log, _ => 3

/-- A cause register and its mask. -/
def State.cause (s : State) (b : CauseBlk) : CauseReg := Store.get {} s.causes b.key

/-- One bit as a word. -/
def bit32 (i : Nat) : Word := 1#32 <<< i

/-- Statistics words: the index of counter i of each block, from Window C 0x4000 (R562). -/
def statPort (p i : Nat) : Nat := p * 64 + i
def statCan (ch i : Nat) : Nat := 1024 + ch * 32 + i
def statLegacy (u i : Nat) : Nat := 1280 + u * 32 + i
def statLog (i : Nat) : Nat := 1536 + i
def statStream (i : Nat) : Nat := 2048 + i
def statControl (i : Nat) : Nat := 2112 + i
def statRedund (i : Nat) : Nat := 2176 + i
def statBridge (i : Nat) : Nat := 2240 + i
def statHost (i : Nat) : Nat := 2304 + i

/-- The value a 32-bit counter sticks at (R638). -/
def statMax : Nat := 0xFFFFFFFF

/-- Count n events at once: the counter sticks, its saturation mark is set by every event that brings it to the
end or finds it there, and the mirror moves with it (R271, R272, R638). -/
def Stats.add (k n : Nat) (st : Stats) : Stats :=
  if n = 0 then st else
  let c := Store.get 0 st.count k + n
  { count := Store.put 0 st.count k (min c statMax)
    sat := if c ≥ statMax then Store.put false st.sat k true else st.sat
    mirror := Store.put 0 st.mirror k ((Store.get 0 st.mirror k + n) % 2 ^ 64) }

/-- Send a vector's message, or mark it pending while the vector is masked (R589). MSIX_SENT is host counter 9. -/
def sendVector (v : Nat) (s : State) : State :=
  { s with
    host := if s.host.vecMask.getLsbD v then { s.host with vecPend := s.host.vecPend ||| bit32 v } else s.host
    out := if s.host.vecMask.getLsbD v then s.out else s.out ++ [.msix v]
    stats := if s.host.vecMask.getLsbD v then s.stats else s.stats.add (statHost 9) 1 }

/-- Set a cause bit; its vector's message is sent when the bit sets while its mask bit is 1 (R589). -/
def raise (b : CauseBlk) (i : Nat) (s : State) : State :=
  let r := s.cause b
  let s1 := { s with causes := Store.put {} s.causes b.key { r with cause := r.cause ||| bit32 i } }
  if !r.cause.getLsbD i && r.mask.getLsbD i then sendVector (causeVector b i) s1 else s1

/-- The STAT_SAT cause of the block a counter belongs to (R271); the host block names none. -/
def satCause (k : Nat) : Option (CauseBlk × Nat) :=
  if k < 1024 then some (.port, 4)
  else if k < 1280 then some (.can ((k - 1024) / 32), 8)
  else if k < 1376 then some (.legacy, 4)
  else if k < 1600 then some (.log, 7)
  else if k < 2112 then some (.stream, 6)
  else if k < 2176 then some (.control, 9)
  else if k < 2240 then some (.redund, 9)
  else if k < 2304 then some (.bridge, 5)
  else none

/-- Count n events of a counter and raise STAT_SAT at the first setting of its mark (R271). -/
def countN (k n : Nat) (s : State) : State :=
  let st := s.stats.add k n
  let first := Store.get false st.sat k && !Store.get false s.stats.sat k
  let s1 := { s with stats := st }
  match satCause k with
  | some (b, i) => if first then raise b i s1 else s1
  | none => s1

/-- Count one event. -/
def count (k : Nat) (s : State) : State := countN k 1 s

/-! ## Studbook records (R523 to R536) -/

/-- Fields of a payload (R526, R676). -/
def nidBytes (n : Nid) : List Byte := le 8 n.toNat
def wordBytes (w : Word) : List Byte := le 4 w.toNat

/-- The 128 bytes of a record's slot (R523, R524). -/
def Rec.header (r : Rec) : List Byte :=
  le 8 r.seq ++ wordBytes r.ticks ++ le 2 r.epoch.toNat ++ le 2 r.code ++ wordBytes r.ttSec ++ wordBytes r.ttNs
    ++ wordBytes r.gen
    ++ [byte (r.sev + r.chip * 8 + flag r.witness 5 + flag r.host 6 + flag r.locked 7), byte r.node] ++ le 2 r.supp

/-- The record's slot, CRC and VALID included (R523). -/
def Rec.slot (r : Rec) : List Byte :=
  let body := r.header ++ (r.payload ++ zeros (88 - r.payload.length)).take 88
  body ++ wordBytes (crc32 body) ++ wordBytes (BitVec.ofNat 32 r.seq ^^^ 0xA5A55A5A#32)

/-- MIN_SEVERITY, IRQ_SEVERITY, HOST_SEAL of R529 (section 0x1A). -/
def State.minSeverity (s : State) : Nat := s.param 0x1A 3 0xFFFF 0
def State.irqSeverity (s : State) : Nat := s.param 0x1A 10 0xFFFF 3
def State.hostSeal (s : State) : Bool := s.param 0x1A 9 0xFFFF 0 = 1

/-- RATE and BURST of a code: its RATE_OVERRIDE, else the device's or the host's (R529, R608). -/
def State.rateOf (s : State) (code : Nat) : Nat × Nat :=
  let dflt := if code < 0x8000 then (s.param 0x1A 4 0xFFFF 10, s.param 0x1A 5 0xFFFF 32)
    else (s.param 0x1A 7 0xFFFF 10, s.param 0x1A 8 0xFFFF 32)
  match s.tack.active with
  | none => dflt
  | some t =>
    match t.params.find? (fun p => p.sec = 0x1A && p.id = 6 && fLe p.val 0 2 = code) with
    | some p => (fLe p.val 2 2, fLe p.val 4 2)
    | none => dflt

/-- The limiter of a code (R535). -/
def limiterOf (code : Nat) : Nat :=
  if code < 0x8000 then (code / 256 - 1) * 128 + code % 128 else 2048 + code % 2048

/-- The limiter's missing tokens at a tick, in parts of a token per tick and second. -/
def Limiter.refill (l : Limiter) (rate now : Nat) : Nat := l.deficit - rate * (now - l.last)

/-- Whether a limiter holds a token (R535). -/
def Limiter.hasToken (l : Limiter) (rate burst now : Nat) : Bool :=
  l.refill rate now + ticksPerSec ≤ burst * ticksPerSec

/-- A token taken where there is one; the count carried and cleared (R536). -/
def Limiter.pass (l : Limiter) (rate burst now : Nat) : Limiter :=
  { deficit := if l.hasToken rate burst now then l.refill rate now + ticksPerSec else l.refill rate now
    last := now, supp := 0, lastCode := l.lastCode }

/-- A record suppressed (R535). -/
def Limiter.suppress (l : Limiter) (rate now code : Nat) : Limiter :=
  { deficit := l.refill rate now, last := now, supp := min 0xFFFF (l.supp + 1), lastCode := code }

/-- The record as accepted now: SEQ, TICKS, EPOCH, train time, GEN and NODE (R531). -/
def State.stampRec (s : State) (code sev supp : Nat) (witness host : Bool) (payload : List Byte) : Rec :=
  { seq := s.log.nextSeq
    ticks := BitVec.ofNat 32 (s.now / 65536)
    epoch := s.time.epoch
    code := code
    ttSec := BitVec.ofNat 32 (s.trainNow / ttSec)
    ttNs := BitVec.ofNat 32 (s.trainNow % ttSec / ttNs)
    gen := s.hitch.gen
    sev := sev
    chip := s.node.chipIndex
    witness := witness
    host := host
    locked := s.time.cur.st = .locked
    node := s.hitch.position
    supp := supp
    payload := payload.take 88 }

/-- The place of the newest queued record of severity below CRITICAL (5), if there is one (R531). -/
def newestLow (q : List Rec) : Option Nat :=
  let i := q.reverse.findIdx (fun r => r.sev < 5)
  if i < q.length then some (q.length - 1 - i) else none

/-- A record joins the commit queue, or is dropped or displaces one at a full queue (R531). -/
def Studbook.accept (r : Rec) (l : Studbook) : Studbook :=
  let bumped := { l with nextSeq := l.nextSeq + 1,
                         seqLimit := if l.seqLimit ≤ l.nextSeq + 1 + 2 ^ 19 then l.seqLimit + 2 ^ 20 else l.seqLimit }
  if l.queue.length < 1024 then { bumped with queue := l.queue ++ [r] }
  else
    match (if r.sev ≥ 5 then newestLow l.queue else none) with
    | some i =>
      { bumped with
        queue := l.queue.eraseIdx i ++ [r]
        dropCount := l.dropCount + 1
        dropPending := true
        dropLowest := match l.queue[i]? with
          | some d => if l.dropLowest = 0 then d.seq else min l.dropLowest d.seq
          | none => l.dropLowest }
    | none => { l with dropCount := l.dropCount + 1, dropPending := true }

/-- Whether a full queue makes this record count as QUEUE_DROP. -/
def Studbook.full (l : Studbook) : Bool := 1024 ≤ l.queue.length

/-- The chip records: from the start of the Groom firmware, never in OFF or BACKUP (R546). -/
def State.logs (s : State) : Bool := s.alive && s.boot.fwRunning

/-- A record enters the queue without limiter (R531, R536). -/
def logQueue (r : Rec) (s : State) : State :=
  let s1 := { s with log := s.log.accept r }
  if s.log.full then raise .log 5 (count (statLog 2) s1) else s1

/-- What became of a record offered to the Studbook. -/
inductive LogFate where
  | filtered | suppressed | dropped | accepted (seq : Nat)
  deriving DecidableEq, Repr

/-- What becomes of a record of a code and severity offered now (R531). -/
def State.fate (s : State) (code sev : Nat) : LogFate :=
  if !s.logs then .filtered
  else if sev < s.minSeverity then .filtered
  else if sev < 5 && !(Store.get {} s.log.limiters (limiterOf code)).hasToken (s.rateOf code).1 (s.rateOf code).2 s.now
    then .suppressed
  else if s.log.full && (sev < 5 || (newestLow s.log.queue).isNone) then .dropped
  else .accepted s.log.nextSeq

/-- Write one limiter. -/
def setLimiter (k : Nat) (l : Limiter) (s : State) : State :=
  { s with log := { s.log with limiters := Store.put {} s.log.limiters k l } }

/-- Offer a record: filter, limiter, queue (R531, R535). -/
def logWith (code sev : Nat) (witness host : Bool) (payload : List Byte) (s : State) : State :=
  let k := limiterOf code
  let lim := Store.get {} s.log.limiters k
  let rb := s.rateOf code
  if s.hitch.switching && s.logs then
    { s with log := { s.log with deferred := s.log.deferred ++
      [{ code := code, sev := sev, witness := witness, host := host, payload := payload, ref := none }] } }
  else
  match s.fate code sev with
  | .filtered => s
  | .suppressed =>
    count (statLog 1) (setLimiter k (lim.suppress rb.1 s.now code) s)
  | _ =>
    logQueue (s.stampRec code sev lim.supp witness host payload)
      (setLimiter k (lim.pass rb.1 rb.2 s.now) s)

/-- The chip writes a record of its own. -/
def logEvent (code sev : Nat) (payload : List Byte) (s : State) : State := logWith code sev false false payload s

/-- Severities of R524: 0 TRACE, 1 INFO, 2 NOTICE, 3 WARNING, 4 ERROR, 5 CRITICAL, 6 ALERT, 7 SEALED. -/
def sevInfo : Nat := 1
def sevNotice : Nat := 2
def sevWarning : Nat := 3
def sevError : Nat := 4
def sevCritical : Nat := 5
def sevAlert : Nat := 6
def sevSealed : Nat := 7

/-! ## Node state changes (R43 to R47) -/

/-- Change the node state: PREV, the entry tick, the SYS cause, the NODE_STATE record with its cause and resource (R43, R47,
R598); nothing if the state is the same. -/
def setState (new : NodeState) (cause res : Nat) (s : State) : State :=
  if s.node.state = new then s else
  let old := s.node.state
  let sev := match new with
    | .held => sevWarning
    | .safe => sevWarning
    | .degraded => sevWarning
    | _ => sevNotice
  logEvent 0x0101 sev [byte old.code, byte new.code, byte cause, byte res]
    (raise .sys 0 { s with node := { s.node with state := new, prev := old, stateTick := s.now } })

/-- A resource of R45 is lost or restored: LOST, the state between RUN and DEGRADED, the record (bit as R593). -/
def setResource (i : Nat) (lost : Bool) (s : State) : State :=
  if s.node.lost.getLsbD i = lost then s else
  let l' := if lost then s.node.lost ||| bit32 i else s.node.lost &&& ~~~ (bit32 i)
  let s1 := { s with node := { s.node with lost := l' } }
  if lost && s.node.state = .run then setState .degraded 9 (i + 1) s1
  else if !lost && l' = 0 && s.node.state = .degraded then setState .run 10 (i + 1) s1
  else logEvent 0x0101 sevNotice
    [byte s.node.state.code, byte s.node.state.code, byte (if lost then 9 else 10), byte (i + 1)] s1

/-- Drive an output ball. -/
def drivePin (p : PinName) (l : Level) (s : State) : State :=
  match p with
  | .bypassA => if s.node.bypassA = l then s else emit (.pin p l) { s with node := { s.node with bypassA := l } }
  | .bypassB => if s.node.bypassB = l then s else emit (.pin p l) { s with node := { s.node with bypassB := l } }
  | .wakeOut => if s.pwr.wakeOut = l then s else emit (.pin p l) { s with pwr := { s.pwr with wakeOut := l } }
  | .syncOut => if s.time.syncOut = l then s else emit (.pin p l) { s with time := { s.time with syncOut := l } }
  | .ppsOut => emit (.pin p l) { s with time := { s.time with ppsLevel := l = .high } }
  | _ => emit (.pin p l) s

/-! ## ACS commands (R577 to R584) -/

/-- ACS status codes (R580). -/
def stOk : Nat := 0x0000
def stPending : Nat := 0x0001
def stBadOpcode : Nat := 0x0010
def stBadArg : Nat := 0x0011
def stBadLength : Nat := 0x0012
def stWrongState : Nat := 0x0013
def stStale : Nat := 0x0014
def stDenied : Nat := 0x0015
def stBusy : Nat := 0x0016
def stNoResource : Nat := 0x0017
def stTimeout : Nat := 0x0018
def stTooLate : Nat := 0x0019
def stMedia : Nat := 0x001A

/-- A mailbox; a number above 15 names none. -/
def HostIf.box (h : HostIf) (m : Nat) : Mailbox := h.boxes.getD m {}

/-- Change one mailbox. -/
def HostIf.setBox (h : HostIf) (m : Nat) (f : Mailbox → Mailbox) : HostIf := { h with boxes := h.boxes.modify m f }

/-- The command of a batch at a place. -/
def State.slot? (s : State) (m i : Nat) : Option Slot := (s.host.box m).slots[i]?

/-- The response header and payload of a command (R578). -/
def rspBytes (r : AcsRef) (status : Nat) (gen : Word) (payload : List Byte) : List Byte :=
  pad8 (le 2 r.opcode ++ le 2 status ++ le 2 r.tag.toNat ++ le 2 payload.length ++ wordBytes gen
    ++ [byte r.idx, 0, 0, 0] ++ payload)

/-- Raise vector 0 where a mailbox enables it (R571, R588). -/
def mbxVector (en : Bool) (s : State) : State := if en then sendVector 0 s else s

/-- A command completes: its response is written after those before it, COMPLETED and RSP_LEN move, NOTIFY raises vector 0, and
its place in the batch is done (R575, R578, R597). The reference of a command that another chip received is of no mailbox. -/
def acsDone (r : AcsRef) (status : Nat) (payload : List Byte) (s : State) : State :=
  if 16 ≤ r.mbx then s else
  let b := s.host.box r.mbx
  let live := b.busy && (match s.slot? r.mbx r.idx with | some x => decide (x.phase ≠ .done) && x.opcode = r.opcode | none => false)
  let rsp := rspBytes r status s.hitch.gen payload
  let s1 := emit (.acs r.mbx r.idx r.opcode status payload) (count (statHost 1) s)
  if !live then s1 else
  let write := !b.discard
  let s2 := { s1 with
    mem := if write then Mem.writeList s1.mem (r.mbx * 0x2000 + 0x1000 + b.rspLen) rsp else s1.mem
    host := s1.host.setBox r.mbx (fun b => { b with
      completed := b.completed + 1
      rspLen := if write then b.rspLen + rsp.length else b.rspLen
      notify := b.notify || r.notify
      slots := b.slots.modify r.idx (fun x => { x with phase := .done }) }) }
  if r.notify && !b.notify then mbxVector b.notifyEn s2 else s2

end Sys2Proof.Machine
end

