-- ==== Sys2Proof/Machine/TugOps.lean ====
section
/-! DEFINITION. Sending on the tug links (R406 to R412): sequence numbers, credits, the replay buffer, segments. -/
namespace Sys2Proof.Machine

/-- A tug link. -/
def State.tug (s : State) (l : Nat) : TugLink := s.red.tugs.getD l {}

/-- Change a tug link. -/
def setTug (l : Nat) (f : TugLink → TugLink) (s : State) : State :=
  { s with red := { s.red with tugs := s.red.tugs.modify l f } }

/-- Bytes of a tug frame: header, payload, CRC (R406). -/
def TugMsg.size (m : TugMsg) : Nat := 20 + m.data.length

/-- Credit units of a tug frame. -/
def TugMsg.units (m : TugMsg) : Nat := (m.size + 255) / 256

/-- The link holds credit for a frame (R407). -/
def TugLink.credit (t : TugLink) (m : TugMsg) : Bool :=
  t.sent.getD m.chan.code 0 + m.units ≤ t.granted.getD m.chan.code 0

/-- The replay buffer has room for a frame (R408). -/
def TugLink.room (t : TugLink) (m : TugMsg) : Bool := sumOf (t.unacked.map TugMsg.size) + m.size ≤ 32768

/-- The last SEQ received in order, where one was (R406). -/
def TugLink.ackNow (t : TugLink) : Option Nat := if t.rxSeq = 1 && t.got.all (· = 0) then none else some ((t.rxSeq + 65535) % 65536)

/-- Put a frame on the link: it takes the next SEQ and stays in the replay buffer until acknowledged (R408). -/
def tugPut (l : Nat) (m : TugMsg) (s : State) : State :=
  let t := s.tug l
  let m1 := { m with seq := t.txSeq }
  emit (.tug l t.txSeq t.ackNow false m.chan m.typ m.data) (setTug l (fun t => { t with
    txSeq := (t.txSeq + 1) % 65536, unacked := t.unacked ++ [m1]
    sent := t.sent.modify m.chan.code (· + m.units) }) s)

/-- Send a message on a channel of an up link; without credit or room it waits its turn (R407, R408). LINK messages are sent whatever the
link's state and carry SEQ 0. -/
def tugSend (l : Nat) (c : TugChan) (typ : Nat) (data : List Byte) (s : State) : State :=
  let t := s.tug l
  if c = .link then emit (.tug l 0 t.ackNow false c typ data) s
  else if !t.up then s
  else
    let m : TugMsg := { seq := 0, chan := c, typ := typ, data := data }
    if t.waiting.any (fun w => w.chan = c) || !t.credit m || !t.room m then
      (if t.credit m then id else count (statRedund 7)) (setTug l (fun t => { t with waiting := t.waiting ++ [m] }) s)
    else tugPut l m s

/-- Frames that waited leave as credit and room allow, the lowest channel first (R407). -/
def tugDrain (l : Nat) (s : State) : State :=
  (s.tug l).waiting.foldl (fun s _ =>
    let t := s.tug l
    let ready := (List.range 8).findSome? (fun c =>
      (t.waiting.find? (fun w => w.chan.code = c)).bind (fun w => if t.credit w && t.room w then some w else none))
    match ready with
    | some w => tugPut l w (setTug l (fun t => { t with waiting := t.waiting.erase w }) s)
    | none => s) s

/-- The links that carry channels 1 to 7 to the node's other chips: in Span TUG0, or TUG1 while it stands in for it; in Troika both (R403, R410). -/
def State.carriers (s : State) : List Nat :=
  match s.node.form with
  | .simplex => []
  | .span => if s.red.onSpare then (if (s.tug 1).up then [1] else []) else if (s.tug 0).up then [0] else []
  | .troika => [0, 1].filter (fun l => (s.tug l).up)

/-- The chip at the far end of a tug link. -/
def State.linkChip (s : State) (l : Nat) : Nat :=
  if s.node.form = .troika then (s.node.chipIndex + 1 + l % 2) % 3 else 1 - s.node.chipIndex

/-- The link that carries channels to a chip, if it is up. -/
def State.linkTo (s : State) (chip : Nat) : Option Nat := s.carriers.find? (fun l => s.linkChip l = chip)

/-- The coordinator's CHIP_INDEX, where this chip is not it (R432). -/
def State.coordinator (s : State) : Bool := s.owner

/-- Send a message to every other chip of the node. -/
def tugAll (c : TugChan) (typ : Nat) (data : List Byte) (s : State) : State :=
  s.carriers.foldl (fun s l => tugSend l c typ data s) s

/-- Pieces of at most n bytes with their offsets. -/
def pieces (n : Nat) : Nat → Nat → List Byte → List (Nat × List Byte)
  | 0, _, _ => []
  | fuel + 1, off, b => if b.length ≤ n then [(off, b)] else (off, b.take n) :: pieces n fuel (off + n) (b.drop n)

/-- The pieces of a body on the STATE and AGREE channels, 1,008 bytes each. -/
def parts (b : List Byte) : List (Nat × List Byte) := pieces 1008 (b.length / 1008 + 1) 0 b

/-- A STATE or AGREE message's sub-header (R411). -/
def subHeader (task part flags off cycle : Nat) : List Byte :=
  [byte task, byte part] ++ be 2 flags ++ be 4 off ++ be 8 cycle

/-- Send a body as parts of a STATE or AGREE message to a link; LAST marks the final one. -/
def sendParts (l : Nat) (c : TugChan) (task part cycle : Nat) (b : List Byte) (s : State) : State :=
  let ps := parts b
  ps.foldl (fun s p =>
    tugSend l c part (subHeader task part (flag (p.1 + p.2.length = b.length) 0) p.1 cycle ++ p.2) s) s

/-- Send an Ethernet frame in segments on the FRAME channel (R412). -/
def sendSegments (l port dir line rtag handle : Nat) (b : List Byte) (s : State) : State :=
  let n := s.red.frameNum
  (parts b).foldl (fun s p =>
    let flags := flag (p.1 = 0) 0 + flag (p.1 + p.2.length = b.length) 1
    tugSend l .frame 0 ([byte port, byte dir, byte line, byte flags] ++ be 2 n ++ be 2 rtag ++ be 2 handle ++ zeros 6 ++ p.2) s)
    { s with red := { s.red with frameNum := (n + 1) % 65536 } }

end Sys2Proof.Machine
end

