-- ==== Sys2Proof/Machine/Operands.lean ====
section
/-! DEFINITION. The operand form of an ACS command: when it may start, the checks every command shares (R579), its
arguments, and the form of the commands that are node-wide (R432). -/
namespace Sys2Proof.Machine

/-- The batches accepted before a given one that are still running have all completed (R581). -/
def State.othersDone (s : State) (order : Nat) : Bool :=
  s.host.boxes.all (fun b => !b.busy || order ≤ b.order || b.slots.all (fun x => x.phase = .done))

/-- A started barrier holds a command (R584): of a batch accepted after its start, or later in its own batch. -/
def State.barred (s : State) (m i order : Nat) : Bool :=
  s.host.barriers.any (fun x => x.order < order || (x.mbx = m && x.idx < i))

/-- A command of a batch may start: firmware serves the mailboxes, ORD, FENCE and BARRIER let it (R580, R582 to R584), and the
hitch switch step does not hold it (R71). -/
def State.mayStart (s : State) (c : Acs) (opcode : Nat) : Bool :=
  let b := s.host.box c.mbx
  s.boot.fwRunning
    && !(c.flags.getLsbD 0 && (b.slots.take c.idx).any (fun x => x.flags.getLsbD 0 && decide (x.phase ≠ .done)))
    && !((c.flags.getLsbD 1 || opcode = 0x0102)
        && !((b.slots.take c.idx).all (fun x => x.phase = .done) && s.othersDone b.order))
    && !s.barred c.mbx c.idx b.order
    && !(s.hitch.switching && (c.gen ≠ 0 || opcode / 256 = 3))

/-- The place of a command in the batch its mailbox runs, where it waits there. -/
def State.waitingSlot (s : State) (c : Acs) (opcode : Nat) : Option Slot :=
  match s.slot? c.mbx c.idx with
  | some x => if (s.host.box c.mbx).busy && x.phase = .waiting && x.opcode = opcode then some x else none
  | none => none

/-- Mark the command of a batch as started. -/
def acsMark (c : Acs) (s : State) : State :=
  { s with host := s.host.setBox c.mbx (fun b => { b with
      slots := b.slots.modify c.idx (fun x => { x with phase := .started }) }) }

/-- The node states in which a command is accepted. -/
abbrev States := List NodeState

/-- HELD, READY, RUN, DEGRADED and SAFE. -/
def inServing : States := [.held, .ready, .run, .degraded, .safe]
/-- READY, RUN, DEGRADED and SAFE. -/
def inLineStates : States := [.ready, .run, .degraded, .safe]
/-- Every state in which the mailboxes are served. -/
def anyState : States := [.boot, .held, .ready, .run, .degraded, .safe, .stabled]

/-- Complete a command with a status and payload. -/
def done (c : Acs) (opcode status : Nat) (payload : List Byte) (s : State) : State :=
  acsDone (c.ref opcode) status payload s

/-- The opcodes of the node-wide commands (R432, R466, R486, R520). -/
def nodeWideOps : List Nat :=
  [0x0104, 0x0202, 0x0303, 0x0304, 0x0401, 0x0402, 0x0602, 0x0604, 0x0605, 0x0701, 0x0702, 0x0703, 0x0704, 0x0800, 0x0801, 0x0803, 0x0902
  , 0x0A02, 0x0B00, 0x0C02, 0x0C04, 0x0D01]

/-- This chip judges a command's GEN: a node-wide command's is judged by the coordinator (R432, R579). BRIDGE_SESSION's operation 0 is not node-wide (R520). -/
def State.judgesGen (s : State) (opcode : Nat) (c : Acs) : Bool :=
  !(nodeWideOps.contains opcode && !(opcode = 0x0D01 && c.arg 1 1 = 0) && !s.coordinator && !s.carriers.isEmpty)

/-- The start of an ACS command (R579): a command that does not fit its reservation completes with NO_RESOURCE (R574), then come the
checks of FLAGS and the reserved field, of the node state, of GEN, and then the command's own work. A command that
may not start yet waits. -/
def acs (opcode : Nat) (states : States) (c : Acs) (body : State → State) (s : State) : State :=
  if !s.alive || !s.mayStart c opcode then s else
  let slot := s.waitingSlot c opcode
  let s1 := if slot.isSome then acsMark c s else s
  if (slot.map Slot.fits) = some false then done c opcode stNoResource [] s1
  else if c.flags.toNat / 8 ≠ 0 ∨ c.rsvd ≠ 0 then done c opcode stBadArg [] s1
  else if s.node.state ∉ states then done c opcode stWrongState [] s1
  else if s.judgesGen opcode c && c.gen ≠ 0 && c.gen ≠ s.hitch.gen then done c opcode stStale [] s1
  else body s1

/-- A command whose arguments have a fixed length: another completes with BAD_LENGTH (R580). -/
def acsLen (opcode : Nat) (states : States) (n : Nat) (c : Acs) (body : State → State) (s : State) : State :=
  acs opcode states c (fun s1 => if c.args.length ≠ n then done c opcode stBadLength [] s1 else body s1) s

/-- What a started fence waits for has come about (R584): the write-backs of frames fetched before its start, the records accepted before it. -/
def FenceCmd.met (f : FenceCmd) (q : List Rec) : Bool :=
  f.rings.isEmpty && (match f.logTo with
    | some n => q.all (fun r => decide (n ≤ r.seq))
    | none => true)

/-- Fences that have what they wait for complete, and their barriers go (R584). -/
def releaseFences (s : State) : State :=
  (s.host.fences.filter (fun f => f.met s.log.queue)).foldl (fun s f => acsDone f.ref stOk (le 8 f.fc ++ le 8 f.seq)
      { s with host := { s.host with barriers := s.host.barriers.filter (fun b => b.mbx ≠ f.ref.mbx || b.idx ≠ f.ref.idx) } })
    { s with host := { s.host with fences := s.host.fences.filter (fun f => !f.met s.log.queue) } }

/-- Complete with BAD_ARG where a condition holds. -/
def badArgIf (p : Bool) (opcode : Nat) (c : Acs) (body : State → State) (s : State) : State :=
  if p then done c opcode stBadArg [] s else body s

/-- The reference under which a chip applies a node-wide command that another chip received: no mailbox has it. -/
def NodeCmd.guest (c : NodeCmd) : AcsRef := { mbx := 16, idx := 0, opcode := c.opcode, tag := c.tag, notify := false }

/-- Complete a command that may be none of this chip's: a node-wide command forwarded by another (R432). While chips have still to apply it, its
answer is kept. -/
def finish (r : Option AcsRef) (status : Nat) (payload : List Byte) (s : State) : State :=
  match r with
  | none => s
  | some x =>
    if s.red.cmds.any (fun c => c.ref = some x && !c.left.isEmpty) then
      { s with red := { s.red with cmds := s.red.cmds.map (fun c => if c.ref = some x then { c with result := some (status, payload) } else c) } }
    else acsDone x status payload s

/-- A node-wide command as MGMT carries it: the ACS header and the arguments (R413, R577). -/
def mgmtBytes (opcode : Nat) (flags tag : Half) (gen : Word) (args : List Byte) : List Byte :=
  le 2 opcode ++ le 2 flags.toNat ++ le 2 tag.toNat ++ le 2 args.length ++ wordBytes gen ++ zeros 4 ++ args

/-- Forward a command to the coordinator, or from it to every other chip. -/
def forwardCmd (m : List Byte) (s : State) : State :=
  if s.coordinator then tugAll .mgmt 0x01 m s
  else match s.linkTo (if s.node.form = .troika then s.red.leader else 1 - s.node.chipIndex) with
    | some l => tugSend l .mgmt 0x01 m s
    | none => s

/-- A node-wide command whose arguments have been checked (R432): a node of one chip, or a chip without tug links, carries it out; else
it is forwarded on MGMT and waits for its effective instant. -/
def nodeWide (opcode : Nat) (c : Acs) (eff : Option AcsRef → State → State) (s : State) : State :=
  if s.carriers.isEmpty then eff (some (c.ref opcode)) s
  else
    let s1 := count (statRedund 19) { s with red := { s.red with cmds := s.red.cmds ++
      [{ ref := some (c.ref opcode), chip := s.node.chipIndex, opcode := opcode, tag := c.tag, gen := c.gen, args := c.args
         left := s.carriers.map s.linkChip, ordered := s.coordinator }] } }
    forwardCmd (mgmtBytes opcode c.flags c.tag c.gen c.args) s1

end Sys2Proof.Machine
end

