-- ==== Sys2Proof/Machine/CanOps.lean ====
section
/-! DEFINITION. Shared operations of the CAN channels: parameter block (R443, R444), modes (R465, R466), delivery (R452 to R455),
transmission (R456 to R459), error states (R461, R462), task blocks (R463, R464). -/
namespace Sys2Proof.Machine

/-! ## Parameter block -/

/-- Fields of a channel's block in force. -/
def CanChan.blk (c : CanChan) (off n : Nat) : Nat := fLe c.block off n
def CanChan.flagBit (c : CanChan) (i : Nat) : Bool := bit (c.blk 1 1) i
def CanChan.fd (c : CanChan) : Bool := c.flagBit 0
def CanChan.pex (c : CanChan) : Bool := c.flagBit 1
def CanChan.suspends (c : CanChan) : Bool := c.flagBit 3
def CanChan.byIndex (c : CanChan) : Bool := c.flagBit 4
def CanChan.wakes (c : CanChan) : Bool := c.flagBit 5

/-- A value lies in a range. -/
def inRange (lo hi v : Nat) : Bool := decide (lo ≤ v) && decide (v ≤ hi)

/-- CAN clocks of a nominal bit and of a data-phase bit (R444). -/
def canNominal (b : List Byte) : Nat := fLe b 2 2 * (1 + fLe b 4 2 + fLe b 6 1)
def canDataBit (b : List Byte) : Nat := fLe b 8 1 * (1 + fLe b 9 1 + fLe b 10 1)

/-- A parameter block that R443 and R444 accept. -/
def canBlockOk (b : List Byte) : Bool :=
  let fd := bit (fLe b 1 1) 0
  let nom := canNominal b
  b.length = 32 && inRange 0 4 (fLe b 0 1) && fLe b 1 1 / 64 = 0 && inRange 1 256 (fLe b 2 2) && inRange 2 256 (fLe b 4 2)
    && inRange 2 128 (fLe b 6 1) && inRange 1 (fLe b 6 1) (fLe b 7 1) && decide (80 ≤ nom)
    && (!fd || (inRange 1 32 (fLe b 8 1) && inRange 1 32 (fLe b 9 1) && inRange 1 16 (fLe b 10 1)
        && inRange 1 (fLe b 10 1) (fLe b 11 1) && inRange 10 nom (canDataBit b)))
    && inRange 0 127 (fLe b 12 1) && inRange 1 64 (fLe b 13 1) && inRange 0 100 (fLe b 14 2) && fLe b 16 4 / 2 ^ 30 = 0
    && !bit (fLe b 20 4) 30 && fLe b 24 8 = 0

/-! ## Channels, buffers, records -/

/-- A channel. -/
def State.canCh (s : State) (ch : Nat) : CanChan := s.can.chans.getD ch {}

/-- Change a channel. -/
def setCan (ch : Nat) (f : CanChan → CanChan) (s : State) : State := { s with can := { s.can with chans := s.can.chans.modify ch f } }

/-- A buffer of a channel. -/
def CanChan.buf (c : CanChan) (b : Nat) : CanBuf := Store.get {} c.bufs b

/-- Change a buffer. -/
def setBuf (ch b : Nat) (f : CanBuf → CanBuf) (s : State) : State :=
  setCan ch (fun c => { c with bufs := Store.put {} c.bufs b (f (c.buf b)) }) s

/-- The buffer record of R448, 128 the FIFO's. -/
def State.canRec (s : State) (ch b : Nat) : List Byte := slice (s.sectionOf 0x14 ch) (32 + 12 * b) 12
def State.canKind (s : State) (ch b : Nat) : Nat := fLe (s.canRec ch b) 8 1
def State.canOwnerOf (s : State) (ch b : Nat) : Nat := fLe (s.canRec ch b) 9 1
/-- A buffer the host may write: HOST with a record. -/
def State.canHost (s : State) (ch b : Nat) : Bool := decide (s.canKind ch b = 1 ∨ s.canKind ch b = 2) && s.canOwnerOf ch b = 0

/-- The data length that a DLC codes (R449). -/
def dlcLen (fdf : Bool) (dlc : Nat) : Nat :=
  if dlc ≤ 8 then dlc else if !fdf then 8
  else match dlc with
    | 9 => 12 | 10 => 16 | 11 => 20 | 12 => 24 | 13 => 32 | 14 => 48 | _ => 64

/-- Data bytes of a message. -/
def CanMsg.len (m : CanMsg) : Nat := if m.rtr then 0 else dlcLen m.fdf m.dlc

/-- Word 0 (R449). -/
def CanBuf.word0 (b : CanBuf) : Nat :=
  let m := b.msg
  b.code * 2 ^ 28 + flag m.ovr 27 + flag b.locked 26 + flag b.late 25 + flag b.noTx 24 + flag b.parity 23 + flag m.ide 15
    + flag m.rtr 14 + flag m.fdf 13 + flag m.brs 12 + flag m.esi 11 + m.dlc % 16

/-- Word w of a buffer. -/
def CanBuf.word (b : CanBuf) (w : Nat) : Nat :=
  if w = 0 then b.word0 else if w = 1 then b.msg.id else if w < 18 then fLe b.msg.data (4 * (w - 2)) 4 else 0

/-- A FIFO entry read as a buffer. -/
def fifoBuf (m : CanMsg) (locked : Bool) : CanBuf := { code := cRxFull, msg := m, locked := locked }

/-- A received frame as a buffer's content. -/
def msgOf (f : CanFrame) (sof : Nat) : CanMsg :=
  let n := if f.rtr then 0 else dlcLen f.fdf f.dlc
  { id := f.id, ide := f.ide, rtr := f.rtr, fdf := f.fdf, brs := f.brs, esi := f.esi, dlc := f.dlc, data := f.data.take n, sof := sof }

/-! ## Modes -/

/-- The mode a block gives in this node state and role (R465, R466). -/
def State.canModeOf (s : State) (block : List Byte) : Nat :=
  let m := fLe block 0 1
  if m = 0 || !s.node.state.inLine then 0
  else if !s.owner then 2
  else if s.node.state.running then m
  else if m = 1 then 3 else m

/-- Host requests may be sent in this state and role (R465, R466). -/
def State.canMayAsk (s : State) : Bool := s.node.state.running && s.owner

/-- A TX buffer reaches an end: its CODE, flags and, for a HOST buffer, its TX_EVENT bit. -/
def canTxEnd (ch b : Nat) (f : CanBuf → CanBuf) (s : State) : State :=
  let s1 := setBuf ch b (fun x => { f x with cancel := false }) s
  if s.canHost ch b then raise (.can ch) 1 (setCan ch (fun c => { c with txEvent := c.txEvent ||| (1#128 <<< b) }) s1) else s1

/-- A request that state or role forbids ends as TX_CANCELLED with NO_TX (R465). -/
def canNoTx (ch b : Nat) (s : State) : State :=
  count (statCan ch 21) (canTxEnd ch b (fun x => { x with code := cTxCancelled, noTx := true }) s)

/-- End the pending host requests of a channel where they may not be sent. -/
def canEndRequests (ch : Nat) (s : State) : State :=
  if s.canMayAsk then s else
  (s.canCh ch).bufs.foldl (fun s e => if e.2.code = cTxPending && s.canHost ch e.1 then canNoTx ch e.1 s else s) s

/-- Bring a channel's mode into force (R445, R465, R466): entering NORMAL or RESTRICTED it integrates again with error counters at 0. cause: 1
tack, 2 command, 3 state, 4 owner. -/
def canMode (cause ch : Nat) (s : State) : State :=
  let c := s.canCh ch
  let m := s.canModeOf c.block
  let s1 := canEndRequests ch s
  if m = c.mode then s1 else
  logEvent 0x0B06 sevNotice [byte ch, byte c.mode, byte m, byte cause]
    (setCan ch (fun c => { c with mode := m, ready := decide (m ≠ 1 ∧ m ≠ 3), tec := 0, recv := 0, passive := false, busOff := false }) s1)

/-- Bring every channel's mode into force. -/
def canModes (cause : Nat) (s : State) : State := (List.range 8).foldl (fun s ch => canMode cause ch s) s

/-- Buffers, filters and parameter block as the tack image gives them. -/
def canLoad (s : State) : State :=
  { s with can := { s.can with chans := (List.range 8).map (fun ch =>
      let sec := s.sectionOf 0x14 ch
      let d : CanChan := {}
      let kinds := (List.range 128).map (fun b => (b, s.canKind ch b))
      { d with
        block := if sec.length < 32 then d.block else sec.take 32
        bufs := kinds.filterMap (fun e => if e.2 = 1 then some (e.1, { code := cRxEmpty })
          else if e.2 = 2 then some (e.1, { code := cTxIdle }) else none)
        filtId := (kinds.filter (fun e => e.2 = 1)).foldl (fun m e => Store.put 0 m e.1 (fLe (s.canRec ch e.1) 0 4)) []
        filtMask := (kinds.filter (fun e => e.2 = 1)).foldl (fun m e => Store.put 0 m e.1 (fLe (s.canRec ch e.1) 4 4)) []
        fifoFilt := (List.range 16).foldl (fun m i => Store.put 0 m i (fLe sec (1580 + 4 * i) 4)) [] }) } }

/-- Control start: no frame has arrived yet (R463). -/
def canControlStart (s : State) : State :=
  { s with can := { s.can with chans := s.can.chans.map (fun c =>
      { c with bufs := c.bufs.map (fun e => (e.1, { e.2 with arrived := 0 })), seen := [], fifoDrops := 0 }) } }

/-- Every lock released, every buffer and shadow emptied (R454). -/
def canEmpty (ch : Nat) (s : State) : State :=
  setCan ch (fun c => { c with fifoLock := false, bufs := c.bufs.map (fun e => (e.1,
    if e.2.code = cRxEmpty ∨ e.2.code = cRxFull then
      { e.2 with code := cRxEmpty, msg := {}, locked := false, shadow := none, parity := false }
    else e.2)) }) s

/-- Put a parameter block into force (R445, R454, R473). -/
def canSetBlock (cause ch : Nat) (block : List Byte) (s : State) : State :=
  let c := s.canCh ch
  let timing := decide (slice c.block 2 11 ≠ slice block 2 11)
  let s1 := canMode cause ch (setCan ch (fun c => { c with block := block }) s)
  if timing && decide (c.mode = (s1.canCh ch).mode) && decide ((s1.canCh ch).mode ≠ 0) then
    setCan ch (fun c => { c with ready := false, tec := 0, recv := 0, passive := false, busOff := false }) s1
  else s1

/-- A CAN_CONFIG that waited for the frame in progress takes effect. -/
def canSettle (ch : Nat) (s : State) : State :=
  let c := s.canCh ch
  match c.pendCfg with
  | some (b, r) =>
    if c.active.isSome then s
    else finish r stOk [] (canEmpty ch (canSetBlock 2 ch b (setCan ch (fun c => { c with pendCfg := none }) s)))
  | none => s

/-! ## Parity (R468) -/

/-- A parity error: what 1 a buffer, 2 the FIFO, 3 filters or parameters; action the bullet of R468 taken. -/
def canParity (ch what action : Nat) (s : State) : State :=
  raise (.can ch) 10 (logEvent 0x1004 sevError [byte ch, byte what, byte action] (count (statCan ch 25) s))

/-- Recovery of a buffer by its kind and owner. -/
def canBufParity (ch b : Nat) (s : State) : State :=
  if s.canKind ch b = 1 then
    canParity ch 1 1 (setBuf ch b (fun x => { x with code := cRxEmpty, parity := true, shadow := none, msg := {} }) s)
  else if s.canOwnerOf ch b = 1 then
    canParity ch 1 4 (setBuf ch b (fun x => { x with code := cTxIdle, parity := true, next := none }) s)
  else canParity ch 1 3 (canTxEnd ch b (fun x => { x with code := cTxCancelled, parity := true }) s)

/-- The FIFO's oldest entry is removed (R468). -/
def canFifoParity (ch : Nat) (s : State) : State :=
  canParity ch 2 2 (count (statCan ch 15) (setCan ch (fun c =>
    { c with fifo := (c.fifo.drop 1).modify 0 (fun m => { m with ovr := true }), fifoLock := false
             fifoOvr := c.fifoOvr || c.fifo.length ≤ 1, fifoDrops := c.fifoDrops + 1 }) s))

/-- Filters or parameters: a reload starts; the filter found bad matches nothing until it ends. -/
def canConfigParity (ch b : Nat) (s : State) : State :=
  canParity ch 3 5 (setCan ch (fun c => { c with reloading := true, badFilts := c.badFilts ++ [b] }) s)

/-! ## Receiving (R452 to R455) -/

/-- A frame matches an identifier under a mask (R452). -/
def canMatch (id : Nat) (ide : Bool) (filt mask : Nat) : Bool :=
  ((id + flag ide 29) ^^^ filt) &&& mask &&& (2 ^ 30 - 1) = 0

/-- A buffer's filter accepts a frame. -/
def CanChan.accepts (c : CanChan) (b : Nat) (f : CanFrame) : Bool :=
  !(c.badFilts.contains b) && canMatch f.id f.ide (Store.get 0 c.filtId b) (Store.get 0 c.filtMask b)

/-- The FIFO accepts a frame: no pair enabled, or an enabled pair matches (R453). -/
def CanChan.fifoAccepts (c : CanChan) (f : CanFrame) : Bool :=
  let on := (List.range 8).filter (fun k => bit (Store.get 0 c.fifoFilt (2 * k + 1)) 31)
  on.isEmpty || (!(c.badFilts.contains 128)
    && on.any (fun k => canMatch f.id f.ide (Store.get 0 c.fifoFilt (2 * k)) (Store.get 0 c.fifoFilt (2 * k + 1))))

/-- Deliver to an RX buffer. -/
def canToBuf (ch b : Nat) (m : CanMsg) (s : State) : State :=
  let x := (s.canCh ch).buf b
  if x.locked then
    if x.shadow.isSome then
      raise (.can ch) 2 (count (statCan ch 14)
        (setBuf ch b (fun x => { x with shadow := some { m with ovr := true }, arrived := x.arrived + 1 }) s))
    else setBuf ch b (fun x => { x with shadow := some m, arrived := x.arrived + 1 }) s
  else if x.code = cRxFull then
    raise (.can ch) 2 (count (statCan ch 13)
      (setBuf ch b (fun x => { x with msg := { m with ovr := true }, parity := false, arrived := x.arrived + 1 }) s))
  else
    let s1 := setBuf ch b (fun x => { x with code := cRxFull, msg := m, parity := false, arrived := x.arrived + 1 }) s
    if s.canOwnerOf ch b = 0 then raise (.can ch) 0 s1 else s1

/-- Deliver to the FIFO (R455); whether it was stored. -/
def canToFifo (ch : Nat) (m : CanMsg) (s : State) : Bool × State :=
  let c := s.canCh ch
  if 64 ≤ c.fifo.length then
    (false, raise (.can ch) 4 (logEvent 0x0B05 sevNotice (byte ch :: le 4 (c.fifoLost + 1)) (count (statCan ch 15)
      (setCan ch (fun c => { c with fifoOvr := true, fifoLost := c.fifoLost + 1, fifoDrops := c.fifoDrops + 1 }) s))))
  else
    let s1 := setCan ch (fun c => { c with fifo := c.fifo ++ [{ m with ovr := c.fifoOvr }], fifoOvr := false, fifoLost := 0 }) s
    (true, if c.fifo.length + 1 = c.blk 13 1 then raise (.can ch) 3 s1 else s1)

/-- Deliver a frame received without error (R453); where it went, 128 for the FIFO. -/
def canDeliver (ch : Nat) (f : CanFrame) (sof : Nat) (s : State) : Option Nat × State :=
  let c := s.canCh ch
  let s1 := count (statCan ch 0) (if f.fdf then count (statCan ch 1) s else s)
  match (List.range 128).find? (fun b => s.canKind ch b = 1 && c.accepts b f) with
  | some b => (some b, canToBuf ch b (msgOf f sof) s1)
  | none =>
    if s.canKind ch 128 = 3 && c.fifoAccepts f then
      let r := canToFifo ch (msgOf f sof) s1
      (if r.1 then some 128 else none, r.2)
    else (none, count (statCan ch 16) s1)

/-- Release a buffer's lock (R454): the shadow moves in, or the buffer is empty. -/
def canRelease (ch b : Nat) (s : State) : State :=
  let x := (s.canCh ch).buf b
  match x.shadow with
  | some m =>
    let s1 := setBuf ch b (fun x => { x with code := cRxFull, msg := m, locked := false, shadow := none, parity := false }) s
    if s.canOwnerOf ch b = 0 then raise (.can ch) 0 s1 else s1
  | none => setBuf ch b (fun x => { x with code := cRxEmpty, msg := {}, locked := false }) s

/-! ## Transmitting (R456 to R459) -/

/-- The place of a frame in the order of arbitration: the bits from identifier to the last control bit. -/
def CanMsg.prio (m : CanMsg) : Nat :=
  let base := m.id / 2 ^ 18
  let b12 := if m.ide then 1 else b01 m.rtr
  (((((base * 2 + b12) * 2 + b01 m.ide) * 2 ^ 18 + (if m.ide then m.id % 2 ^ 18 else 0)) * 2
    + (if m.ide then b01 m.rtr else 0)) * 2 + b01 m.fdf)

/-- The buffer chosen for the next arbitration (R456). -/
def CanChan.choose (c : CanChan) : Option Nat :=
  let ps := c.bufs.filter (fun e => e.2.code = cTxPending)
  if c.byIndex then ps.head?.map Prod.fst
  else (ps.foldl (fun (a : Option (Nat × Nat)) e => match a with
    | none => some (e.1, e.2.msg.prio)
    | some x => if e.2.msg.prio < x.2 then some (e.1, e.2.msg.prio) else a) none).map Prod.fst

/-- Request transmission of a message in a buffer. -/
def canRequest (ch b : Nat) (m : CanMsg) (s : State) : State :=
  setBuf ch b (fun x => { x with code := cTxPending, msg := m, late := false, noTx := false, parity := false, cancel := false }) s

/-- A frame that failed returns its buffer to TX_PENDING, or ends it (R457, R459, R464, R465). -/
def canRequeue (ch b : Nat) (s : State) : State :=
  let x := (s.canCh ch).buf b
  let s1 := setCan ch (fun c => { c with active := none }) s
  if x.code ≠ cTxActive then s1
  else if x.cancel then
    count (statCan ch 19) (canTxEnd ch b (fun x => { x with code := cTxCancelled, late := true }) s1)
  else match x.next with
    | some m => count (statCan ch 20) (setBuf ch b (fun x => { x with code := cTxPending, msg := m, next := none }) s1)
    | none =>
      if s.canHost ch b && !s.canMayAsk then canNoTx ch b s1
      else setBuf ch b (fun x => { x with code := cTxPending }) s1

/-- Cancel one buffer (R459). -/
def canCancel (ch b : Nat) (s : State) : State :=
  if !s.canHost ch b then s else
  let x := (s.canCh ch).buf b
  if x.code = cTxPending then count (statCan ch 18) (canTxEnd ch b (fun x => { x with code := cTxCancelled }) s)
  else if x.code = cTxActive then setBuf ch b (fun x => { x with cancel := true }) s
  else if x.code = cTxSuspended then canTxEnd ch b (fun x => { x with code := cTxCancelled }) s
  else s

/-! ## Register accesses (R449 to R451, R454, R455) -/

/-- Latch the start-of-frame stamp (R451). -/
def canStamp (ch tick : Nat) (s : State) : State := setCan ch (fun c => { c with lockTick := tick }) s

/-- A read of word 0 of a buffer: it locks a HOST RX buffer; err: a parity error is found (R468). -/
def canRead0 (b : Nat) (err : Bool) (s : State) : Nat × State :=
  let ch := s.can.winSel
  let s0 := if err then canBufParity ch b s else s
  let host := s0.canHost ch b
  let s1 := if host && s0.canKind ch b = 1 then setBuf ch b (fun x => { x with locked := true }) s0 else s0
  let x := (s1.canCh ch).buf b
  (x.word0, canStamp ch (if x.code = cRxFull ∨ x.code = cTxDone then x.msg.sof else 0) s1)

/-- A read of word 17 releases the lock. -/
def canRead17 (b : Nat) (s : State) : Nat × State :=
  let ch := s.can.winSel
  let x := (s.canCh ch).buf b
  (x.word 17, if x.locked then canRelease ch b s else s)

/-- A read of word 0 of CAN_FIFO_HEAD locks the oldest entry of a HOST FIFO. -/
def fifoRead0 (err : Bool) (s : State) : Nat × State :=
  let ch := s.can.winSel
  let s0 := if err && !(s.canCh ch).fifo.isEmpty then canFifoParity ch s else s
  match (s0.canCh ch).fifo with
  | [] => (0, canStamp ch 0 s0)
  | m :: _ =>
    let lock := s0.canOwnerOf ch 128 = 0
    ((fifoBuf m lock).word 0, canStamp ch m.sof (setCan ch (fun c => { c with fifoLock := lock }) s0))

/-- A read of word 17 of CAN_FIFO_HEAD removes the oldest entry. -/
def fifoRead17 (s : State) : Nat × State :=
  let ch := s.can.winSel
  match (s.canCh ch).fifo with
  | [] => (0, s)
  | m :: rest => ((fifoBuf m false).word 17,
      if (s.canCh ch).fifoLock then setCan ch (fun c => { c with fifo := rest, fifoLock := false }) s else s)

/-- The frame fields of a word 0 write. -/
def CanMsg.fields (m : CanMsg) (w : Nat) : CanMsg :=
  { m with ide := bit w 15, rtr := bit w 14, fdf := bit w 13, brs := bit w 12, dlc := w % 16, ovr := false, sof := 0 }

/-- RX_EMPTY written to a HOST RX buffer (R450, R454). -/
def canWriteEmpty (b : Nat) (s : State) : State :=
  let ch := s.can.winSel
  if s.canHost ch b && s.canKind ch b = 1 then canRelease ch b (setBuf ch b (fun x => { x with msg := {} }) s) else s

/-- The frame fields R450 rejects. -/
def CanChan.rejects (c : CanChan) (m : CanMsg) : Bool := (m.rtr && m.fdf) || (m.brs && !m.fdf) || (m.fdf && !c.fd)

/-- TX_PENDING written to a HOST TX buffer at rest (R450, R465). -/
def canWritePending (b w : Nat) (s : State) : State :=
  let ch := s.can.winSel
  let c := s.canCh ch
  let x := c.buf b
  if !s.canHost ch b || s.canKind ch b ≠ 2 || x.code = cTxPending || x.code = cTxActive then s
  else
    let m := x.msg.fields w
    let s1 := canRequest ch b m s
    if c.rejects m then count (statCan ch 22) (canTxEnd ch b (fun x => { x with code := cTxCancelled }) s1)
    else if !s.canMayAsk then canNoTx ch b s1
    else s1

/-- TX_IDLE written to a HOST TX buffer at rest (R450). -/
def canWriteIdle (b w : Nat) (s : State) : State :=
  let ch := s.can.winSel
  let x := (s.canCh ch).buf b
  if !s.canHost ch b || s.canKind ch b ≠ 2 || x.code = cTxPending || x.code = cTxActive then s
  else setBuf ch b (fun x => { x with code := cTxIdle, msg := x.msg.fields w, late := false, noTx := false, parity := false }) s

/-- Any write of word 0 (R450); another CODE leaves CODE unchanged (R14). -/
def canWrite0 (b w : Nat) (s : State) : State :=
  let ch := s.can.winSel
  let x := (s.canCh ch).buf b
  let code := bits w 31 28
  if code = cRxEmpty then canWriteEmpty b s
  else if code = cTxPending then canWritePending b w s
  else if code = cTxIdle then canWriteIdle b w s
  else if !s.canHost ch b || s.canKind ch b ≠ 2 || x.code = cTxPending || x.code = cTxActive then s
  else setBuf ch b (fun x => { x with msg := x.msg.fields w }) s

/-- A write of word n, 1 to 17, of a HOST TX buffer (R450); words of a receive buffer hold what was received. -/
def canWriteWord (b n w : Nat) (s : State) : State :=
  let ch := s.can.winSel
  let x := (s.canCh ch).buf b
  if !s.canHost ch b || s.canKind ch b ≠ 2 || x.code = cTxPending || x.code = cTxActive then s
  else if n = 1 then setBuf ch b (fun x => { x with msg := { x.msg with id := w % 2 ^ 29 } }) s
  else setBuf ch b (fun x => { x with msg := { x.msg with data := putSlice (x.msg.data ++ zeros (64 - x.msg.data.length)) (4 * (n - 2)) (le 4 w) } }) s

/-! ## Error states (R461, R462) -/

/-- What TEC and REC read as (R469). -/
def CanChan.tecReg (c : CanChan) : Nat := min 255 c.tec
def CanChan.recReg (c : CanChan) : Nat := min 255 c.recv

/-- Error passive entered or left. -/
def canPassive (ch : Nat) (entered : Bool) (s : State) : State :=
  let c := s.canCh ch
  let s1 := setCan ch (fun c => { c with passive := entered }) (if entered then count (statCan ch 10) s else s)
  raise (.can ch) 5 (logEvent 0x0B03 sevWarning
    [byte ch, byte c.tecReg, byte c.recReg, byte (if entered then 1 else 2)] s1)

/-- The error state after the counters have moved. -/
def canErrState (ch : Nat) (s : State) : State :=
  let c := s.canCh ch
  if c.busOff then s
  else if 256 ≤ c.tec then
    let s1 := if c.passive then canPassive ch false s else s
    let s2 := match c.active with | some b => canRequeue ch b s1 | none => s1
    raise (.can ch) 6 (logEvent 0x0B01 sevError [byte ch, byte c.tecReg, byte c.lec] (count (statCan ch 11)
      (setCan ch (fun c => { c with busOff := true, busOffAt := s.now }) s2)))
  else if c.passive ≠ (decide (128 ≤ c.tec) || decide (128 ≤ c.recv)) then canPassive ch (!c.passive) s
  else s

/-- A frame received without error lowers REC (R461): from above 127 the standard sets a value from 119 to 127. -/
def canRxGood (ch : Nat) (s : State) : State :=
  let c := s.canCh ch
  if c.mode ≠ 1 || c.recv = 0 then s
  else if c.recv ≤ 127 then canErrState ch (setCan ch (fun c => { c with recv := c.recv - 1 }) s)
  else canErrState ch (useFree (setCan ch (fun c => { c with recv := 119 + s.freeNat % 9 }) s))

/-- CAN_STATUS (R469). -/
def State.canStatusReg (s : State) (ch : Nat) : Nat :=
  let c := s.canCh ch
  let st := if c.mode = 0 || !c.ready then 3 else if c.busOff then 2 else if c.passive then 1 else 0
  c.tecReg * 2 ^ 24 + c.recReg * 2 ^ 16 + st * 2 ^ 14 + c.mode * 2 ^ 11
    + flag (c.mode ≠ 0 && s.owner) 10 + c.lec * 2 ^ 7 + c.fifo.length % 128

/-! ## Task blocks (R463, R464) -/

/-- An 80-byte input entry. -/
def canEntry (st : Nat) (m : CanMsg) : List Byte :=
  [byte st, byte (b01 m.ide + flag m.rtr 1 + flag m.fdf 2 + flag m.brs 3 + flag m.esi 4 + flag m.ovr 5), byte m.dlc, byte m.len]
    ++ le 4 m.id ++ le 8 m.sof ++ (m.data ++ zeros 64).take 64

/-- The buffer block that a task latches; old is the block of its previous latch. -/
def canLatchBuf (ch b task : Nat) (old : List Byte) (s : State) : List Byte × State :=
  let c := s.canCh ch
  let x := c.buf b
  let k := b * 64 + task
  let st := if x.arrived = 0 then 0 else if Store.get 0 c.seen k < x.arrived then 1 else 2
  let e := if x.parity then putSlice old 0 [2] else canEntry st x.msg
  (e, setCan ch (fun c => { c with
    seen := Store.put 0 c.seen k x.arrived
    bufs := Store.put {} c.bufs b { x with code := if x.code = cRxFull then cRxEmpty else x.code } }) s)

/-- The FIFO block of N entries that a task latches. -/
def canLatchFifo (ch n : Nat) (s : State) : List Byte × State :=
  let c := s.canCh ch
  let es := c.fifo.take n
  ([byte es.length, byte (min 255 c.fifoDrops)] ++ zeros 6 ++ (es.flatMap (canEntry 1)) ++ zeros (80 * (n - es.length)),
    setCan ch (fun c => { c with fifo := c.fifo.drop n, fifoDrops := 0, fifoLock := false }) s)

/-- A commit writes a TASK TX buffer and requests its transmission. -/
def canCommit (ch b : Nat) (block : List Byte) (s : State) : State :=
  let r := fLe (s.canRec ch b) 0 4
  let fdf := bit r 30
  let dlc := fLe block 0 1 % 16
  let m : CanMsg := { id := r % 2 ^ 29, ide := bit r 29, fdf := fdf, brs := bit r 31, dlc := dlc
                      data := slice block 4 (dlcLen fdf dlc) }
  let x := (s.canCh ch).buf b
  if x.code = cTxActive then setBuf ch b (fun x => { x with next := some m }) s
  else canRequest ch b m (if x.code = cTxPending then count (statCan ch 20) s else s)

end Sys2Proof.Machine
end

