-- ==== Sys2Proof/Machine/LegacyOps.lean ====
section
/-! DEFINITION. Shared operations of the MVB and WTB line units (11_legacy_lines.md): records, lines, mastership, sending, inhibit and
end setting, task blocks. -/
namespace Sys2Proof.Machine

/-! ## Units, parameters, records -/

/-- A line unit: 0 MVB0, 1 MVB1, 2 WTB0. -/
def State.legUnit (s : State) (u : Nat) : LegUnit := s.leg.units.getD u {}

/-- Change a line unit. -/
def setLeg (u : Nat) (f : LegUnit → LegUnit) (s : State) : State := { s with leg := { s.leg with units := s.leg.units.modify u f } }

/-- ROLE (0 OFF, 1 DEVICE, 2 BA) or WTB_ROLE (0 OFF, 1 STRONG, 2 WEAK, 3 SLAVE) of the tack image (R475). -/
def State.legRoleSet (s : State) (u : Nat) : Nat := if u = 2 then s.param 0x15 7 u 0 else s.param 0x15 1 u 0
def State.devAddr (s : State) (u : Nat) : Nat := s.param 0x15 2 u 0
def State.basicMs (s : State) (u : Nat) : Nat := max 1 (s.param 0x15 3 u 1)
def State.lineDisturb (s : State) (u : Nat) : Nat := s.param 0x15 6 u 16

/-- BA_LIST: 2 bytes for each address; the own address where the image gives none (R475). -/
def State.baList (s : State) (u : Nat) : List Nat :=
  match s.tack.active.bind (fun t => t.val 0x15 4 u) with
  | some b => (List.range (b.length / 2)).map (fun i => fLe b (2 * i) 2)
  | none => [s.devAddr u]

/-- The unit may transmit: control runs and this chip is the owner (R485). -/
def State.legSends (s : State) : Bool := s.node.state.running && s.owner

/-- The role in force (R485). -/
def State.legRole (s : State) (u : Nat) : Nat := if s.legSends then s.legRoleSet u else 0

/-- The unit hears its line (R485). -/
def State.legHears (s : State) (u : Nat) : Bool := s.node.state.inLine && s.legRoleSet u ≠ 0

/-- The record of a port (R476); a record of KIND 0 is unused. -/
def State.legRec (s : State) (u addr : Nat) : Option (List Byte) :=
  let b := s.sectionOf 0x16 u
  ((List.range (b.length / 8)).map (fun i => recordAt b 8 i)).find? (fun r => fLe r 0 2 = addr && fLe r 2 1 ≠ 0)

/-- Fields of a record. -/
def legKind (r : List Byte) : Nat := fLe r 2 1
def legOwner (r : List Byte) : Nat := fLe r 4 1
def legSize (u : Nat) (r : List Byte) : Nat := if u = 2 then 4 * fLe r 3 1 else 2 * 2 ^ fLe r 3 1
def legLimit (r : List Byte) : Nat := fLe r 6 2

/-- A port's memory. -/
def State.legPort (s : State) (u addr : Nat) : LegPort := Store.get {} (s.legUnit u).ports addr

/-- Change a port's memory. -/
def setPort (u addr : Nat) (f : LegPort → LegPort) (s : State) : State :=
  setLeg u (fun x => { x with ports := Store.put {} x.ports addr (f (Store.get {} x.ports addr)) }) s

/-- The port's data at its size. -/
def State.legData (s : State) (u addr : Nat) (r : List Byte) : List Byte :=
  let n := legSize u r
  ((s.legPort u addr).data ++ zeros n).take n

/-- The 16-byte header of R488. -/
def State.legHeader (s : State) (u addr : Nat) (r : List Byte) : List Byte :=
  let p := s.legPort u addr
  let us := (s.now - p.tick) / ticksPerUs
  let st := if !p.got then 0 else if p.bad || decide (legLimit r * 1000 < us) then 2 else 1
  [byte st, byte (b01 p.lineB), 0, 0] ++ le 4 (if p.got then min 0xFFFFFFFF us else 0xFFFFFFFF) ++ le 8 p.tick

/-- Parity: what 1 a port, 2 a table; action the bullet of R489 taken. -/
def legParity (u what action : Nat) (s : State) : State :=
  raise .legacy 5 (logEvent 0x1005 sevError [byte u, byte what, byte action] (count (statLegacy u 11) s))

/-- Records and poll table are reloaded (R489). -/
def legReload (u : Nat) (s : State) : State := legParity u 2 3 (setLeg u (fun x => { x with reloading := true }) s)

/-! ## Lines (R481) -/

/-- A line became disturbed (1) or was restored (2). -/
def lineSaid (u : Nat) (l : Line) (what : Nat) (s : State) : State :=
  raise .legacy 0 (logEvent 0x0C01 sevWarning [byte u, byte l.code, byte what] s)

/-- An erroneous frame on a line: counted, and LINE_DISTURB of them within 1 s disturb an MVB line. -/
def lineError (u : Nat) (l : Line) (s : State) : State :=
  let x := s.legUnit u
  let old := if l = .a then x.errsA else x.errsB
  let es := old.filter (fun t => decide (s.now < t + ticksPerSec)) ++ [s.now]
  let was := if l = .a then x.badA else x.badB
  let bad := was || (u ≠ 2 && decide (s.lineDisturb u ≤ es.length))
  let s1 := count (statLegacy u (if l = .a then 3 else 4)) (setLeg u (fun x =>
    if l = .a then { x with errsA := es, badA := bad } else { x with errsB := es, badB := bad }) s)
  if bad && !was then lineSaid u l 1 s1 else s1

/-- A frame as both lines deliver it: whether it is accepted from line A (false) or B (true), none where from neither. -/
def legLines (u : Nat) (a b : LineRx) (s : State) : Option Bool × State :=
  let s1 := if a = .bad then lineError u .a s else s
  let s2 := if b = .bad then lineError u .b s1 else s1
  let x := s2.legUnit u
  let okT := if x.trustB then b = .valid else a = .valid
  let okO := if x.trustB then a = .valid else b = .valid
  let badT := if x.trustB then x.badB else x.badA
  let badO := if x.trustB then x.badA else x.badB
  if okT then (some x.trustB, count (statLegacy u 2) s2)
  else if okO && (!badO || badT) then
    (some (!x.trustB), count (statLegacy u 2) (count (statLegacy u 6) (setLeg u (fun x => { x with trustB := !x.trustB }) s2)))
  else (none, s2)

/-! ## Sending -/

/-- A slave frame, or a WTB frame, leaves on both lines. kind: the F_code of an MVB frame; for WTB 0 process data, 1 poll, 12 message,
16 inauguration, 17 inhibit request. -/
def legSlave (u kind : Nat) (data : List Byte) (s : State) : State := emit (.legacy u kind data) (count (statLegacy u 1) s)

/-- A master frame leaves: F_code and address. -/
def legMaster (u fcode addr : Nat) (s : State) : State :=
  emit (.legacy u fcode (le 2 addr)) (count (statLegacy u 0) s)

/-- The oldest message of a unit is sent. -/
def sendMessage (u : Nat) (s : State) : State :=
  match (s.legUnit u).sendq with
  | [] => s
  | m :: rest => legSlave u 12 (le 2 m.peer ++ m.data) (setLeg u (fun x => { x with sendq := rest }) s)

/-- Queue a message data packet for sending; only the owner chip transmits (R485, R493). -/
def queueMessage (u dst : Nat) (data : List Byte) (s : State) : State :=
  if !s.owner then s
  else setLeg u (fun x => { x with sendq := x.sendq ++ [{ peer := dst, data := data }] }) s

/-! ## Mastership (R479) -/

/-- Mastership taken: 1 taken. -/
def takeMaster (u : Nat) (s : State) : State :=
  raise .legacy 1 (logEvent 0x0C02 sevNotice [byte u, 1] (count (statLegacy u 7)
    (setLeg u (fun x => { x with master := true, changeTick := s.now }) s)))

/-- Mastership lost: 2 passed, 3 COLLISION, 0 neither. -/
def loseMaster (u cause : Nat) (s : State) : State :=
  raise .legacy 1 (logEvent 0x0C02 sevNotice [byte u, byte cause]
    (setLeg u (fun x => { x with master := false, changeTick := s.now, polls := [] }) s))

/-! ## Inhibit, end setting, changes of state and owner (R482, R485 to R487) -/

/-- The WTB inauguration inhibit follows hitch inhibit while WTB_INHIBIT_LINK is On (R487). -/
def wtbInhibit (s : State) : State :=
  let want := s.hitch.inhibited && s.legRole 2 ≠ 0 && s.param 0x15 9 2 1 = 1
  if (s.legUnit 2).inhibit = want then s
  else
    let s1 := setLeg 2 (fun x => { x with inhibit := want }) (logEvent 0x0C04 sevInfo [byte (if want then 1 else 2)] s)
    if s1.legRole 2 ≠ 0 then legSlave 2 17 [byte (b01 want)] s1 else s1

/-- The end-setting outputs: high for end setting, on a line without WTB neighbour, while the unit operates (R482). -/
def wtbEnds (s : State) : State :=
  let x := s.legUnit 2
  let on := s.legRole 2 ≠ 0
  let a := on && x.endA
  let b := on && x.endB
  let s1 := if x.esA = a then s else emit (.pin .wtbEsA (if a then .high else .low)) s
  let s2 := if x.esB = b then s1 else emit (.pin .wtbEsB (if b then .high else .low)) s1
  setLeg 2 (fun x => { x with esA := a, esB := b }) s2

/-- What a change of node state or owner does to the line units. -/
def legSync (s : State) : State :=
  let s1 := [0, 1].foldl (fun s u => if (s.legUnit u).master && s.legRole u ≠ 2 then loseMaster u 0 s else s) s
  wtbInhibit (wtbEnds s1)

/-! ## Receiving -/

/-- A complete frame without error on a SINK port (R480): the data changes. False where no SINK of that size takes it. -/
def legCapture (u addr : Nat) (lineB : Bool) (data : List Byte) (s : State) : Bool × State :=
  match s.legRec u addr with
  | none => (false, s)
  | some r =>
    if (s.legUnit u).reloading || legKind r ≠ 2 || data.length ≠ legSize u r then (false, s)
    else (true, setPort u addr (fun _ => { data := data, got := true, bad := false, lineB := lineB, tick := s.now }) s)

/-- A message data packet enters the unit's queue of 64 (R493). -/
def legMessage (u src : Nat) (data : List Byte) (s : State) : State :=
  let q := (s.legUnit u).queue
  if 64 ≤ q.length then count (statLegacy u 10) s
  else
    let s1 := setLeg u (fun x => { x with queue := q ++ [{ peer := src, data := data }] }) s
    if q.isEmpty then raise .legacy 3 s1 else s1

/-! ## Task blocks (R488) -/

/-- The input block of a SINK port. -/
def State.legLatch (s : State) (u addr : Nat) : List Byte :=
  match s.legRec u addr with
  | some r => s.legHeader u addr r ++ s.legData u addr r
  | none => []

/-- A commit writes a TASK SOURCE port. -/
def legCommit (u addr : Nat) (data : List Byte) (s : State) : State :=
  setPort u addr (fun p => { p with data := data }) s

end Sys2Proof.Machine
end

