-- ==== Sys2Proof/Machine/Egress.lean ====
section
/-! DEFINITION. Shared operations of the switch and the MACs: ports in use, classes, queues and quotas, sending a frame,
transmit-timestamp entries. -/
namespace Sys2Proof.Machine

/-- One external port's MAC. -/
def State.mac (s : State) (p : Nat) : MacPort := s.macs.getD p {}

/-- Change one external port's MAC. -/
def setMac (p : Nat) (f : MacPort → MacPort) (s : State) : State := { s with macs := s.macs.modify p f }

/-- The hitch state of a backbone port. -/
def State.hport (s : State) (p : Nat) : HPort := s.hitch.ports.getD p {}

/-- Change the hitch state of a backbone port. -/
def setHPort (p : Nat) (f : HPort → HPort) (s : State) : State :=
  { s with hitch := { s.hitch with ports := s.hitch.ports.modify p f } }

/-- The line of a backbone port (R21). -/
def lineOfPort (p : Nat) : Line := if p = 0 ∨ p = 1 then .a else .b

/-- The direction of a backbone port, 1 or 2 (R21). -/
def dirOfPort (p : Nat) : Nat := if p = 0 ∨ p = 2 then 1 else 2

/-- The backbone port of a line in a direction. -/
def portOf (l : Line) (d : Nat) : Nat := (if l = .a then 0 else 2) + (if d = 1 then 0 else 1)

/-- The chip's form uses a backbone port (R23). -/
def State.usesLine (s : State) (l : Line) : Bool := if l = .a then s.node.lineA else s.node.lineB

/-- WAKE_PORTS, as a mask (R224). -/
def State.wakePorts (s : State) : Nat := s.param 6 13 0xFFFF 0

/-- A port is enabled: its ENABLE, and for a backbone port the chip's form (R167); in STABLED only the wake ports are powered (R617). -/
def State.portOn (s : State) (p : Nat) : Bool :=
  if s.node.state = .stabled && p < 15 && !bit s.wakePorts p then false
  else if p < 4 then s.param 6 15 p 1 = 1 && s.usesLine (lineOfPort p)
  else if p < 15 then s.param 6 15 p 0 = 1
  else p = 15

/-- A port is enabled and has link. -/
def State.portUp (s : State) (p : Nat) : Bool := s.portOn p && (s.mac p).link

/-- A backbone port's link is admitted and not faulty (R67, R65). -/
def State.admitted (s : State) (p : Nat) : Bool := s.portUp p && (s.hport p).admitted && !(s.hport p).fault

/-- The maximum frame size of a port (R166). -/
def State.maxFrame (s : State) (p : Nat) : Nat := s.param 6 16 p 1522

/-- The class of a priority (R49, PRIO_MAP). -/
def State.classOf (s : State) (prio : Nat) : Nat :=
  match s.tack.active with
  | none => prio
  | some t => match t.val 6 35 0xFFFF with
    | some b => (b.getD prio (byte prio)).toNat
    | none => prio

/-- A class is express (R49, R50). -/
def State.express (s : State) (c : Nat) : Bool := bit (s.param 6 36 0xFFFF 0xE0) c

/-- A port's own MAC address (R223). -/
def State.portMac (s : State) (p : Nat) : Mac :=
  (s.macParam? 6 37 p).getD (BitVec.ofNat 48 (0x0E * 2 ^ 40 + Config.serial % 2 ^ 36 * 16 + p))

/-- MAC parameters of a port in force (R224, R277). -/
def State.macCfg (s : State) (p : Nat) : MacCfg :=
  ((s.mac p).cfg).getD
    { mmEnable := s.param 6 1 p (if p < 14 then 1 else 0) = 1
      mmVerify := s.param 6 2 p 1 = 1
      verifyMs := s.param 6 3 p 10
      addFrag := s.param 6 5 p 0
      pauseRx := s.param 6 6 p (if p < 4 then 0 else 1) = 1
      pauseTx := s.param 6 7 p 0 = 1
      exempt := s.param 6 8 p 1 = 1
      xoffKiB := s.param 6 9 p 256
      xonKiB := s.param 6 10 p 128
      wdLimit := s.param 6 11 p 10
      wdHold := s.param 6 12 p 10 }

/-- An egress queue (R188). -/
def State.queue (s : State) (p c : Nat) : List QFrame := Store.get [] s.sw.queues (p * 8 + c)

/-- Cells queued. -/
def cellsOf (q : List QFrame) : Nat := sumOf (q.map QFrame.cells)

/-- Default reserve and quota of a class, in cells (R189). -/
def defaultQuota (c : Nat) : Quota :=
  match c with
  | 7 => { reserve := 64, quota := 256 }
  | 6 => { reserve := 256, quota := 1024 }
  | 5 => { reserve := 512, quota := 2048 }
  | 4 => { reserve := 0, quota := 4096 }
  | 3 => { reserve := 0, quota := 4096 }
  | 2 => { reserve := 0, quota := 4096 }
  | 1 => { reserve := 0, quota := 2048 }
  | _ => { reserve := 0, quota := 1024 }

/-- Reserve and quota in force: the command's, the tack image's, the default (R188, R217). -/
def State.quotaOf (s : State) (p c : Nat) : Quota :=
  (Store.find s.sw.quotas (p * 8 + c)).getD
    { reserve := s.param 6 24 (p * 8 + c) (defaultQuota c).reserve
      quota := s.param 6 25 (p * 8 + c) (defaultQuota c).quota }

/-- Cells of the frame buffer (R188). -/
def bufferCells : Nat := 65536

/-- Cells that a queue holds: at port 15, those of frames waiting for RX rings (R188, R255). -/
def State.cellsAt (s : State) (p c : Nat) : Nat :=
  if p = 15 then sumOf (s.rx.map (fun r => sumOf ((r.waiting.filter (fun w => w.cls = c)).map RxWait.cells)))
  else cellsOf (s.queue p c)

/-- Free cells of the shared pool: the buffer less retired cells, every reserve, and what queues hold beyond theirs
(R188, R210). -/
def State.poolFree (s : State) : Nat :=
  let idx := List.range 128
  bufferCells - s.sw.retired.length - sumOf (idx.map (fun k => (s.quotaOf (k / 8) (k % 8)).reserve))
    - sumOf (idx.map (fun k => s.cellsAt (k / 8) (k % 8) - (s.quotaOf (k / 8) (k % 8)).reserve))

/-- Admission of n cells to a queue (R188). -/
def State.admits (s : State) (p c n : Nat) : Bool :=
  let have_ := s.cellsAt p c
  let q := s.quotaOf p c
  have_ + n ≤ q.quota && (have_ + n ≤ q.reserve || n ≤ s.poolFree)

/-- Write a queue. -/
def setQueue (p c : Nat) (q : List QFrame) (s : State) : State :=
  { s with sw := { s.sw with queues := Store.put [] s.sw.queues (p * 8 + c) q } }

/-- Put a frame into a queue, or drop it at admission as QUOTA_DROP of its class (R188). -/
def enqueue (p c : Nat) (q : QFrame) (s : State) : State :=
  if s.admits p c q.cells then setQueue p c (s.queue p c ++ [q]) s else count (statPort p (33 + c)) s

/-- A queue entry for a frame. -/
def State.mkQ (s : State) (f : Frame) (o : TxOrigin) : QFrame :=
  { frame := f, len := frameLen f, cells := (frameLen f + 255) / 256, origin := o, handle := none, inPort := 15, frer := none
    launch := none, late := false, uid := s.sw.nextUid }

/-- The next queue entry number. -/
def bumpUid (s : State) : State := { s with sw := { s.sw with nextUid := s.sw.nextUid + 1 } }

/-- The chip sends a frame of its own on a port, if the port is up. -/
def sendFrame (p c : Nat) (f : Frame) (o : TxOrigin) (s : State) : State :=
  if s.portUp p then bumpUid (enqueue p c (s.mkQ f o) s) else s

/-- A port's transmit-timestamp queue (R138). -/
def State.txq (s : State) (p : Nat) : TxQueue := s.time.txts.getD p {}

/-- An entry enters a transmit-timestamp queue, or is lost at a full one (R138 to R140, R157, R158). -/
def pushTxTs (p : Nat) (e : TxTs) (s : State) : State :=
  let q := s.txq p
  if q.entries.length < 16 then
    let q1 : TxQueue := { entries := q.entries ++ [{ e with ovf := q.ovf }], ovf := false }
    let s1 := { s with time := { s.time with txts := s.time.txts.set p q1 } }
    if q.entries.isEmpty then raise .time 7 s1 else s1
  else
    logEvent 0x040C sevNotice ([byte p] ++ le 2 e.id)
      (raise .time 8 (count (statPort p 51)
        { s with time := { s.time with txts := s.time.txts.set p { q with ovf := true } } }))

/-- A requested frame is not sent: an entry with FAIL and a zero stamp (R139). -/
def failTxTs (p : Nat) (o : TxOrigin) (s : State) : State :=
  match o with
  | .ring _ (some id) => pushTxTs p { id := id, tick := 0, frac := 0, fail := true, late := false, ovf := false } s
  | _ => s

/-- A frame with this number still waits at some egress. -/
def State.uidLive (s : State) (uid : Nat) : Bool :=
  s.sw.queues.any (fun e => e.2.any (fun q => q.uid = uid)) || s.rx.any (fun r => r.waiting.any (fun w => w.uid = uid))
    || s.tx.any (fun r => r.launch.any (fun l => l.2.uid = uid))

/-- Frames that a fence may wait for: those that have left every egress are struck off (R266). -/
def settleUids (s : State) : State :=
  { s with tx := s.tx.map (fun r => { r with pending := r.pending.filter s.uidLive }) }

/-! ## Settling the slots of recovery contexts (R201, R202) -/

/-- A stream context. -/
def State.ctx? (s : State) (n : Nat) : Option StreamCtx := Store.find s.stream.ctxs n

/-- A field of a context's record (R282). -/
def StreamCtx.f (c : StreamCtx) (off n : Nat) : Nat := fLe c.record off n

/-- Parameters of a recovery context (R203, R282). -/
def StreamCtx.history (c : StreamCtx) : Nat := if c.f 41 1 % 64 = 0 then 16 else c.f 41 1 % 64
def State.historyOf (s : State) (n : Nat) : Nat := (s.ctx? n).elim 16 StreamCtx.history

/-- A recovery context. -/
def State.frer (s : State) (n : Nat) : Frer := Store.get {} s.sw.frer n

/-- Write a recovery context. -/
def setFrer (n : Nat) (f : Frer → Frer) (s : State) : State :=
  { s with sw := { s.sw with frer := Store.put {} s.sw.frer n (f (s.frer n)) } }

/-- A counter of 32 bits that sticks (R220). -/
def satAdd (a b : Nat) : Nat := min 0xFFFFFFFF (a + b)

/-- The place of a sequence number in the history, none where it has left it. -/
def Frer.slotOf (f : Frer) (h seq : Nat) : Option Nat :=
  let k := (f.rseq + 65536 - seq) % 65536
  if k < h then some k else none

/-- A slot is settled clean: ACCEPTED, and frames held on it are discarded (R202). -/
def frerClean (n seq : Nat) (s : State) : State :=
  let h := s.historyOf n
  setFrer n (fun f =>
    let held := sumOf ((f.live.filter (fun p => p.seq = seq)).map (fun p => p.held.length))
    { f with
      live := f.live.filter (fun p => p.seq ≠ seq)
      discard := satAdd f.discard held
      hist := match f.slotOf h seq with | some k => f.hist.set k .accepted | none => f.hist }) s

/-- A local egress has read a passed frame clean; when it was the last, the slot is settled (R202). -/
def frerRead (n seq port : Nat) (s : State) : State :=
  let s1 := setFrer n (fun f => { f with live := f.live.map (fun p =>
    if p.seq = seq then { p with left := p.left &&& ~~~ (1#16 <<< port) } else p) }) s
  if (s1.frer n).live.any (fun p => p.seq = seq && decide (p.left = 0)) then frerClean n seq s1 else s1

/-- A local egress that drops a passed frame has no more to read of it (log entry 25). -/
def unread (p : Nat) (o : Option (Nat × Nat)) (s : State) : State := match o with | some (n, seq) => frerRead n seq p s | none => s

/-- A queued frame, removed from its queue, is not sent: its timestamp request fails (R139). -/
def dropQueued (p : Nat) (q : QFrame) (s : State) : State := unread p q.frer (failTxTs p q.origin (settleUids s))

/-- Drop every frame queued on a port, counting each (R212, LINE_DOWN_DROP at link loss). -/
def dropPort (p stat : Nat) (s : State) : State :=
  (List.range 8).foldl (fun s c =>
    let q := s.queue p c
    q.foldl (fun s x => dropQueued p x (count (statPort p stat) s)) (setQueue p c [] s)) s

/-- The chip sends a Groom frame on both lines towards both directions, over admitted links (R370, R540). -/
def sendBackbone (c : Nat) (mk : Nat → Frame) (s : State) : State :=
  [0, 1, 2, 3].foldl (fun s p => if s.admitted p then sendFrame p c (mk p) .groom s else s) s

end Sys2Proof.Machine
end

