-- ==== Sys2Proof/Machine/TimeOps.lean ====
section
/-! DEFINITION. Shared operations of the Time Unit: domains, changes of train time and who decides them, domain switches and
steps, link calibration (R109 to R134, R143 to R146). -/
namespace Sys2Proof.Machine

/-- A domain by its place: 0 primary, 1 secondary. -/
def TimeUnit.dom (t : TimeUnit) (i : Nat) : Domain := if i = 0 then t.pri else t.sec

/-- Write a domain. -/
def TimeUnit.setDom (t : TimeUnit) (i : Nat) (f : Domain → Domain) : TimeUnit :=
  if i = 0 then { t with pri := f t.pri } else { t with sec := f t.sec }

/-- Change a domain. -/
def setDomain (i : Nat) (f : Domain → Domain) (s : State) : State := { s with time := s.time.setDom i f }

/-- Parameters of R127. -/
def State.domNumber (s : State) (i : Nat) : Nat := s.param 5 (1 + i) 0xFFFF i
def State.secondaryOn (s : State) : Bool := s.param 5 3 0xFFFF 1 = 1
def State.syncTimeout (s : State) : Nat := s.param 5 5 0xFFFF 3
def State.stepThreshold (s : State) : Int := ((s.param 5 6 0xFFFF 1000 * ttNs : Nat) : Int)
def State.stepConfirm (s : State) : Nat := s.param 5 7 0xFFFF 8
def State.autoReturn (s : State) : Bool := s.param 5 9 0xFFFF 1 = 1
def State.returnCount (s : State) : Nat := s.param 5 10 0xFFFF 64
def State.gmCapable (s : State) (i : Nat) : Bool := s.param 5 11 i 0 = 1
def State.gmSource (s : State) (i : Nat) : Nat := s.param 5 12 i 0
def State.asymLimit (s : State) : Nat := s.param 5 15 0xFFFF 50

/-- SYNC_INTERVAL in ticks (R127): a signed base-2 logarithm of seconds. -/
def State.syncTicks (s : State) : Nat :=
  let e := signed 8 (s.param 5 4 0xFFFF 0xFB)
  if e ≥ 0 then ticksPerSec * 2 ^ e.toNat else ticksPerSec / 2 ^ (-e).toNat

/-- The chip decides selection, steps and epoch: a simplex chip, the Span chip with the claim, the Troika leader (R143, R145). -/
def State.timeLeads (s : State) : Bool :=
  match s.node.form with
  | .simplex => true
  | .span => s.node.active
  | .troika => s.node.chipIndex = s.red.leader

/-! ## Changes of train time -/

/-- Apply a change: the domain's anchor, OFFSET and RATE, the slew term, selection and epoch. -/
def TimeUnit.applied (t : TimeUnit) (c : TimeChange) : TimeUnit :=
  let t1 := t.setDom c.dom (fun d => { d with anchor := c.anchor, offset := c.offset, rate := c.rate, st := c.st })
  { t1 with slew := c.slew, slewFrom := c.tick, sel := c.sel, epoch := c.epoch }

/-- The tick at which a change decided now takes effect: in Troika 100 µs ahead (R145). -/
def State.effTick (s : State) : Nat := if s.node.form = .troika then s.now + 100 * ticksPerUs else s.now

/-- Time as it will be once every change under way has been applied. -/
def TimeUnit.planned (t : TimeUnit) : TimeUnit := t.changes.foldl TimeUnit.applied t

/-- The content of a SYNC-channel message that carries a change. -/
def TimeChange.bytes (c : TimeChange) : List Byte :=
  le 8 c.tick ++ [byte c.dom, byte c.sel] ++ le 2 c.epoch.toNat ++ le 8 c.anchor ++ leInt 8 c.offset ++ le 8 c.rate
    ++ leInt 8 c.slew ++ [byte c.st.code]

/-- A step moves the grid of every task whose period does not divide it: the cycle in progress is lengthened (R134, R318). -/
def lengthen (step : Int) (s : State) : State :=
  { s with ctl := { s.ctl with tasks := s.ctl.tasks.map (fun e =>
      let p := fLe e.2.desc 2 2 * 250000 * ttNs
      (e.1, if decide (step % (p : Int) ≠ 0) && (e.2.st = .running || e.2.st = .migOut || e.2.st = .migIn) && !(e.2.first && e.2.ph = .idle) then { e.2 with longer := true } else e.2)) } }

/-- Apply a change now. A new epoch re-phases the cycle grid by the step it makes, and the gate schedules (R196). -/
def applyChange (c : TimeChange) (s : State) : State :=
  let before := s.selTime s.now 0
  let s1 := { s with time := s.time.applied c }
  if c.epoch = s.time.epoch then s1
  else lengthen (s1.selTime s.now 0 - before)
    { s1 with sw := { s1.sw with gates := s1.sw.gates.map (fun g => { g with rephase := g.oper.isSome }) } }

/-- Decide a change of a domain's A, OFFSET, RATE, of the slew term, selection or epoch. A simplex or Span chip applies it at once and
tells its Span peer; a Troika leader sends it ahead over both tug links and applies it at its tick (R143, R145). -/
def changeTime (i : Nat) (g : TimeChange → TimeChange) (s : State) : State :=
  let e := s.effTick
  let p := s.time.planned
  let d := p.dom i
  let c := g { tick := e, dom := i, anchor := d.anchor, offset := d.offset, rate := d.rate, slew := p.slewAt s.slewMax e
               sel := p.sel, epoch := p.epoch, st := d.st }
  match s.node.form with
  | .simplex => applyChange c s
  | .span => if s.node.active then tugAll .sync 1 c.bytes (applyChange c s) else applyChange c s
  | .troika =>
    tugAll .sync 1 c.bytes { s with time := { s.time with changes := s.time.changes ++ [c] } }

/-- The limits of RATE, nominal ±500 ppm (R111). -/
def minRate : Nat := nominalRate * 999500 / 1000000
def maxRate : Nat := nominalRate * 1000500 / 1000000

/-- A servo update (R111): the anchor moves to the tick of effect, OFFSET to the time there under the old RATE, and RATE takes a new value
within its limits; the spec gives no servo law, so that value is free (log entry 1). -/
def servo (i : Nat) (s : State) : State :=
  let r := minRate + s.freeNat % (maxRate - minRate + 1)
  useFree (changeTime i (fun c =>
    { c with offset := (s.time.planned.dom i).timeAt c.tick 0, anchor := c.tick, rate := r }) s)

/-! ## Domain states -/

/-- Move a domain to a state; SYNC_CHANGE where it enters or leaves LOCKED or HOLDOVER, STEP_PENDING where it enters STEP_WAIT
(R157). -/
def setDomSt (i : Nat) (n : DomState) (s : State) : State :=
  let o := (s.time.dom i).st
  if o = n then s else
  let edge (x : DomState) : Bool := x = .locked || x = .holdover
  let s1 := setDomain i (fun d => { d with st := n }) s
  let s2 := if edge o || edge n then raise .time 0 s1 else s1
  if n = .stepWait then raise .time 1 s2 else s2

/-- Log DOMAIN_SWITCH and raise it: new domain, residual in ns, cause (1 step, 2 holdover, 3 return, 4 command). -/
def switchSaid (i cause : Nat) (res : Int) (s : State) : State :=
  raise .time 3 (logEvent 0x0406 sevNotice ([byte i] ++ leInt 8 (res / (ttNs : Int)) ++ [byte cause]) s)

/-- Select a domain with the slew term that keeps selected train time continuous (R129, R132). -/
def selectSlewed (i cause : Nat) (s : State) : State :=
  let p := s.time.planned
  let e := s.effTick
  let res := (p.cur.timeAt e 0 + p.slewAt s.slewMax e) - (p.dom i).timeAt e 0
  switchSaid i cause res (changeTime i (fun c => { c with sel := i, slew := res }) s)

/-- The selected domain has entered STEP_WAIT or HOLDOVER: the other takes over where it is LOCKED and agrees with the held time, and the
first domain's grandmaster is suspect (R129). Cause 1 step, 2 holdover. -/
def trySwitch (cause : Nat) (s : State) : State :=
  let i := s.time.sel
  let j := 1 - i
  let diff := (s.time.dom j).timeAt s.now 0 - (s.time.dom i).timeAt s.now 0
  if !s.timeLeads || (s.time.dom j).st ≠ .locked || s.stepThreshold < diff || diff < -s.stepThreshold then s
  else
    raise .time 4 (logEvent 0x0407 sevWarning ([byte i] ++ nidBytes (s.time.dom i).gmId)
      (setDomain i (fun d => { d with suspect := true }) (selectSlewed j cause s)))

/-- An accepted step of a domain (R130, R146): OFFSET moves by the step; for the selected domain the epoch increments, the slew term
ends and STEP_ACCEPTED is raised. log: the record, which a non-selected FREE domain does not write. -/
def stepDomain (i : Nat) (step : Int) (log : Bool) (s : State) : State :=
  let sel := decide (s.time.sel = i)
  let old := s.time.planned.epoch
  let new := if sel then old + 1 else old
  let s1 := changeTime i (fun c =>
    { c with offset := c.offset + step, st := .locked, epoch := new, slew := if sel then 0 else c.slew }) s
  let s2 := setDomain i (fun d => { d with steps := (d.steps + 1) % 256, count := 0, cand := 0 }) s1
  let s3 := if log then logEvent 0x0405 sevWarning
      ([byte i] ++ leInt 8 (step / (ttNs : Int)) ++ le 2 old.toNat ++ le 2 new.toNat) s2 else s2
  if sel then raise .time 2 s3 else s3

/-- Accept a step, or keep it until a hitch switch under way completes (R131). -/
def acceptStep (i : Nat) (step : Int) (s : State) : State :=
  if s.hitch.switching then { s with time := { s.time with dueStep := some (i, step) } }
  else
    let free := (s.time.dom i).st = .free
    let s1 := setDomSt i .locked s
    let s2 := if free then logEvent 0x0401 sevInfo
        ([byte i] ++ nidBytes (s.time.dom i).gmId ++ [byte (s.time.dom i).line.code]) s1 else s1
    stepDomain i step (!free || decide (s.time.sel = i)) s2

/-- The step that a hitch switch held back is applied when it completes (R131). -/
def applyDueStep (s : State) : State :=
  match s.time.dueStep with
  | some (i, st) => acceptStep i st { s with time := { s.time with dueStep := none } }
  | none => s

/-- The grandmaster of a domain changes (R128, R132, R158); the first identity a domain learns is no change. -/
def gmChange (i : Nat) (gm : Nid) (s : State) : State :=
  let old := (s.time.dom i).gmId
  if old = gm then s else
  let s1 := setDomain i (fun d => { d with gmId := gm, suspect := if i = 0 then false else d.suspect }) s
  if old = 0 then s1
  else raise .time 5 (logEvent 0x0408 sevNotice ([byte i] ++ nidBytes old ++ nidBytes gm) s1)

/-- The node enters READY from BOOT: every enabled domain starts FREE with RATE nominal and OFFSET from the backup counter or 0
(R146). The crystal periods counted since the last write are a free value (log entry 1). -/
def startDomains (s0 : State) : State :=
  let s := useFree { s0 with time := { s0.time with backCount := s0.freeNat } }
  let t := s.time
  let off : Int := if t.backValid then ((t.backTime + t.backCount * (ttSec / 32768) : Nat) : Int) else 0
  let d : Domain := { anchor := s.now, offset := off }
  { s with time := { t with
      pri := d
      sec := { d with st := if s.secondaryOn then .free else .disabled }
      sel := 0, slew := 0, slewFrom := s.now, backInit := t.backValid, dueStep := none, setWaits := [], setSteps := [] } }

/-- gPTP stops: a domain that is neither FREE nor DISABLED enters HOLDOVER (R128, R148). -/
def stopGptp (s : State) : State :=
  [0, 1].foldl (fun s i => match (s.time.dom i).st with
    | .locked => setDomSt i .holdover s
    | .stepWait => setDomSt i .holdover (setDomain i (fun d => { d with count := 0 }) s)
    | _ => s) s

/-- The free-counter value and fraction of a train time in the selected domain (R135): the first sixteenth of a tick whose train time is
not below it; 0 where none in the counter's range is. -/
def State.toTicks (s : State) (t : Nat) : Nat × Nat :=
  let d := s.time.cur
  let slew := s.time.slewAt s.slewMax s.now
  let need : Int := (t : Int) - d.offset - slew
  let n := if need ≤ 0 then 0 else (need.toNat * 2 ^ 48 + d.rate - 1) / d.rate
  let back := if need < 0 then ((-need).toNat * 2 ^ 48) / d.rate else 0
  let x := d.anchor * 16 + n - back
  (x / 16, x % 16)

/-! ## Link calibration (R118 to R121) -/

/-- A link's calibration. -/
def TimeUnit.link (t : TimeUnit) (p : Nat) : TLink := t.links.getD p {}

/-- Change a link's calibration. -/
def setTLink (p : Nat) (f : TLink → TLink) (s : State) : State :=
  { s with time := { s.time with links := s.time.links.modify p f } }

/-- A new round begins: its exchanges are counted anew (R118). -/
def restartLinks (s : State) : State :=
  { s with time := { s.time with links := s.time.links.map (fun l => { l with thetas := [] }) } }

/-- Sixteenths of a tick in sixteenths of a ns. -/
def ns16 (x : Int) : Int := x * 5 / 3

/-- The mean of a list. -/
def meanInt (xs : List Int) : Int := xs.foldl (· + ·) 0 / (max 1 xs.length : Nat)

/-- The two lines of a direction give D once each holds two exchanges; its halves are the corrections (R118, R120). -/
def calibrate (d : Nat) (s : State) : State :=
  let pa := portOf .a d
  let pb := portOf .b d
  let a := s.time.link pa
  let b := s.time.link pb
  if a.nb = 0 || a.nb ≠ b.nb || a.thetas.length < 2 || b.thetas.length < 2 then s else
  let diff := ns16 (meanInt a.thetas - meanInt b.thetas)
  let bad := decide (((s.asymLimit * 16 : Nat) : Int) < diff ∨ diff < -((s.asymLimit * 16 : Nat) : Int))
  let put (l : TLink) : TLink := { l with d := diff, gen := s.hitch.gen, both := true, uncal := false, suspect := bad }
  let s1 := setTLink pb put (setTLink pa put s)
  if bad && !a.suspect then
    raise .time 9 (logEvent 0x0409 sevWarning ([byte pa] ++ nidBytes a.nb ++ leInt 4 diff) s1) else s1

/-- One exchange of frames on a link: t1 own frame sent, t2 received by the neighbour, t3 its answer sent, t4 received
here, all in 1/16 tick. -/
def TLink.exchange (l : TLink) (t1 t2 t3 t4 : Nat) : TLink :=
  let dt1 : Int := (t1 : Int) - l.prevT1
  let dt2 : Int := (t2 : Int) - l.prevT2
  let ratio : Int := if l.prevT1 = 0 || dt2 ≤ 0 then l.ratio else (dt1 - dt2) * 2 ^ 40 / dt2
  let turn : Int := (t3 : Int) - t2
  let rtt : Int := ((t4 : Int) - t1) - turn - turn * ratio / 2 ^ 40
  let theta : Int := (((t2 : Int) - t1) - ((t4 : Int) - t3)) / 2
  { l with
    ratio := ratio, prevT1 := t1, prevT2 := t2, delay := (ns16 (rtt / 2)).toNat
    thetas := if l.thetas.length < 16 then l.thetas ++ [theta] else l.thetas }

/-- An exchange of hitch frames on a backbone port. -/
def linkExchange (p : Nat) (nb : Nid) (t1 t2 t3 t4 : Nat) (s : State) : State :=
  let l0 := s.time.link p
  let l : TLink := if l0.nb = nb then l0 else { nb := nb }
  let l1 := l.exchange t1 t2 t3 t4
  calibrate (dirOfPort p) (setTLink p (fun _ => l1) s)

/-- At a switch, a link present on one line only is uncalibrated: the last D for the same neighbour stays, and the condition is logged
once (R121). -/
def uncalibrated (s : State) : State :=
  [1, 2].foldl (fun s d =>
    let up (l : Line) : Bool := s.portUp (portOf l d) && !(s.hport (portOf l d)).fault
    if up .a = up .b then s else
    let p := if up .a then portOf .a d else portOf .b d
    let l := s.time.link p
    if l.uncal then s else
    logEvent 0x040A sevNotice ([byte p] ++ nidBytes l.nb) (setTLink p (fun l => { l with uncal := true, both := false }) s)) s

/-- The correction applied on a port moves towards ±D/2 by at most 1/16 ns each sync interval (R118). -/
def moveCorrections (s : State) : State :=
  { s with time := { s.time with links := s.time.links.mapIdx (fun p l =>
      let want := if lineOfPort p = .a then l.d / 2 else -(l.d / 2)
      { l with corr := if l.corr < want then l.corr + 1 else if want < l.corr then l.corr - 1 else l.corr }) } }

end Sys2Proof.Machine
end

