-- ==== Sys2Proof/Machine/HitchOps.lean ====
section
/-! DEFINITION. Shared operations of the Hitch unit and the hitch decision: frames and records (R51 to R61), the committed chain and what a
vector should be, links and faults (R63 to R67), rounds (R68 to R76), the numbering procedure (R77 to R80), inhibit (R90 to R92). -/
namespace Sys2Proof.Machine

/-! ## Records and frames -/

/-- A node record (R56), in network byte order. -/
def HRec.bytes (r : HRec) : List Byte :=
  be 8 r.nid.toNat ++ be 4 r.prevGen.toNat ++ be 4 r.prevFp.toNat ++ be 4 r.propGen.toNat ++ be 4 r.propFp.toNat
    ++ be 4 r.consistId.toNat
    ++ [byte r.vehCount, byte r.vehIndex,
        byte (b01 r.facing + flag r.prevOri 1 + flag r.cstDir 2 + flag r.fast 3 + flag r.inhibit 4 + flag r.bypassing 5
          + flag r.committed 6 + flag r.ttdp 7),
        byte (r.form % 4 + flag r.linkAFar 2 + flag r.linkBFar 3)]

/-- The record that 32 bytes spell. -/
def hrecOf (b : List Byte) : HRec :=
  let f1 := fBe b 30 1
  let f2 := fBe b 31 1
  { nid := BitVec.ofNat 64 (fBe b 0 8), prevGen := BitVec.ofNat 32 (fBe b 8 4), prevFp := BitVec.ofNat 32 (fBe b 12 4)
    propGen := BitVec.ofNat 32 (fBe b 16 4), propFp := BitVec.ofNat 32 (fBe b 20 4), consistId := BitVec.ofNat 32 (fBe b 24 4)
    vehCount := fBe b 28 1, vehIndex := fBe b 29 1, facing := bit f1 0, prevOri := bit f1 1, cstDir := bit f1 2
    fast := bit f1 3, inhibit := bit f1 4, bypassing := bit f1 5, committed := bit f1 6, ttdp := bit f1 7
    form := f2 % 4, linkAFar := bit f2 2, linkBFar := bit f2 3 }

/-- A stamp as a timestamp field (R55), and its difference base in 1/16 tick. -/
def stampField (t : Stamp) : Nat := t.tick % 2 ^ 60 * 16 + t.frac % 16

/-- HITCH_ETHERTYPE (R62). -/
def State.hitchEtype (s : State) : Nat := s.param 4 8 0xFFFF 0x88B6

/-- The Hitch process runs (R75). -/
def State.hitchOn (s : State) : Bool := s.hitch.proc ≠ .offline

/-- This node asserts INHIBIT (R90). -/
def Hitch.asserting (h : Hitch) : Bool := h.gpioInh || h.streamInh || h.hostInh

/-- The ports of a direction: line A, line B. -/
def portsOf (d : Nat) : List Nat := [portOf .a d, portOf .b d]

/-- The node has an admitted neighbour in a direction. -/
def State.sideAdmitted (s : State) (d : Nat) : Bool :=
  (portsOf d).any (fun p => (s.hport p).admitted && (s.hport p).neighbour.isSome)

/-- The vector of a side. -/
def Hitch.vec (h : Hitch) (d : Nat) : HVec := if d = 1 then h.vec1 else h.vec2

/-- Write the vector of a side. -/
def setVec (d : Nat) (v : HVec) (s : State) : State :=
  { s with hitch := if d = 1 then { s.hitch with vec1 := v } else { s.hitch with vec2 := v } }

/-- A round runs or has been refused: held neighbours belong to the chain. -/
def HProc.rounds : HProc → Bool
  | .gather | .agree | .refused => true
  | _ => false

/-- The vector of a side as it counts: a held neighbour joins the chain with the round that takes it in (R61, R67). -/
def State.effVec (s : State) (d : Nat) : HVec :=
  if s.sideAdmitted d || s.hitch.proc.rounds then s.hitch.vec d else { recs := [], atEnd := true }

/-- The node's own record as its port in direction d sends it (R56). -/
def State.ownRec (s : State) (d : Nat) : HRec :=
  let h := s.hitch
  let far (l : Line) : Bool := let p := s.hport (portOf l (3 - d)); p.admitted && p.neighbour.isSome
  { nid := s.node.nid, prevGen := h.gen, prevFp := h.fp
    propGen := (h.prop.map Proposal.gen).getD h.gen, propFp := (h.prop.map Proposal.fp).getD h.fp
    consistId := BitVec.ofNat 32 (s.param 4 10 0xFFFF 0), vehCount := s.param 4 11 0xFFFF 1, vehIndex := s.param 4 12 0xFFFF 1
    facing := d = 2, prevOri := h.orient, cstDir := s.param 4 13 0xFFFF 0 = 1, fast := true, inhibit := h.asserting
    bypassing := h.bypassing, committed := h.committed, ttdp := h.ttdpMode, form := s.node.form.code
    linkAFar := far .a, linkBFar := far .b }

/-- Flags and records that a port sends (R54, R61). -/
def State.hitchContent (s : State) (p : Nat) : List Byte :=
  let d := dirOfPort p
  let v := s.effVec (3 - d)
  let recs := v.recs.take 62
  let vflags := b01 (v.recs.isEmpty || v.atEnd) + flag (!(s.hport p).admitted) 1 + flag (62 < v.recs.length || v.overflow) 2
  [byte (recs.length + 1), byte vflags] ++ zeros 6 ++ (s.ownRec d).bytes ++ (recs.map HRec.bytes).flatten

/-- Send a hitch frame on a port: type 1 beat, 2 change (R51, R52, R54). -/
def sendHitch (typ p : Nat) (s : State) : State :=
  let h := s.hport p
  let body := s.hitchContent p
  let head := [1, byte typ, byte (lineOfPort p).code, byte (dirOfPort p)] ++ be 2 h.txSeq ++ be 2 h.latSeq ++ be 8 (stampField h.lastTx)
    ++ be 8 (stampField h.latTs)
  let f : Frame := { da := 0x0180C200000E#48, sa := s.portMac p, vlan := some { pcp := 7, dei := false, vid := 0 }
                     rtag := none, etype := s.hitchEtype, payload := head ++ body }
  sendFrame p 7 f .hitch
    (setHPort p (fun h => { h with txSeq := if h.txSeq = 0xFFFE then 0 else h.txSeq + 1, content := body }) s)

/-- A change frame leaves on every port whose content has changed (R51). -/
def sendChanges (s : State) : State :=
  [0, 1, 2, 3].foldl (fun s p =>
    if s.hitchOn && (s.hport p).live && (s.hport p).content ≠ s.hitchContent p then sendHitch 2 p s else s) s

/-- A received hitch frame. -/
structure HFrame where
  line   : Nat
  dir    : Nat
  seq    : Nat
  rxSeq  : Nat
  txPrev : Nat
  rxTs   : Nat
  vec    : HVec
  deriving DecidableEq, Repr

/-- The valid hitch frame that a payload spells on a line, none where R59 discards it. -/
def hframeOf (l : Line) (b : List Byte) : Option HFrame :=
  let n := fBe b 24 1
  let recs := (List.range n).map (fun i => hrecOf (slice b (32 + 32 * i) 32))
  let vf := fBe b 25 1
  let ok := fBe b 0 1 = 1 && fBe b 2 1 = l.code && (fBe b 3 1 = 1 || fBe b 3 1 = 2) && 1 ≤ n && n ≤ 63
    && b.length = 32 + 32 * n && recs.all (fun r => decide (r.nid ≠ 0 ∧ r.nid ≠ BitVec.allOnes 64))
    && (match recs.head? with | some r => b01 r.facing = fBe b 3 1 - 1 | none => false)
  if ok then
    some { line := fBe b 2 1, dir := fBe b 3 1, seq := fBe b 4 2, rxSeq := fBe b 6 2, txPrev := fBe b 8 8, rxTs := fBe b 16 8
           vec := { recs := recs, atEnd := bit vf 0, overflow := bit vf 2 } }
  else none

/-! ## The committed chain -/

/-- Committed nodes beyond this one in a direction, nearest first. -/
def Hitch.beyond (h : Hitch) (d : Nat) : List CNode :=
  let before := (h.chain.take (h.position - 1)).reverse
  let after := h.chain.drop h.position
  if h.gen = 0 then [] else if h.orient = (d = 1) then after else before

/-- NIDs and FACING that the vector of a side has in the committed train (R68). -/
def Hitch.expected (h : Hitch) (d : Nat) : List (Nid × Bool) :=
  (h.beyond d).map (fun x => (x.nid, (x.orient = h.orient) = (d = 1)))

/-- The committed neighbour in a direction: the nearest node not absent (R91). -/
def Hitch.nextNode (h : Hitch) (d : Nat) : Option Nid := ((h.beyond d).find? (fun x => !x.absent)).map CNode.nid

/-- A vector differs from the committed view of its side (R68). -/
def State.vecDiffers (s : State) (d : Nat) : Bool :=
  let v := s.effVec d
  let e := (s.hitch.beyond d).zip (s.hitch.expected d)
  v.recs.map (fun r => (r.nid, r.facing)) ≠ (e.filter (fun x => !x.1.absent)).map Prod.snd
    || (!v.recs.isEmpty && (!v.atEnd || v.overflow))

/-- The records of a node's complete chain, in physical order from the end its direction 1 faces, each with whether its direction 1 faces
that end. -/
def State.physChain (s : State) : List (HRec × Bool) :=
  (s.effVec 1).recs.reverse.map (fun r => (r, r.facing)) ++ [(s.ownRec 1, true)]
    ++ (s.effVec 2).recs.map (fun r => (r, !r.facing))

/-- The node holds a complete chain (R68). -/
def State.chainComplete (s : State) : Bool :=
  [1, 2].all (fun d => (s.effVec d).recs.isEmpty || (s.effVec d).atEnd)

/-- The fields of a record on which the procedure works; the others make no new chain (R69). -/
def HRec.key (r : HRec) : HRec :=
  { r with propGen := 0, propFp := 0, inhibit := false, bypassing := false, committed := false, ttdp := false
           linkAFar := false, linkBFar := false }

/-- The chain as it was or will be computed on. -/
def State.chainKey (s : State) : List HRec := s.physChain.map (fun x => { x.1.key with facing := x.2 })

/-! ## Numbering (R77 to R80) -/

/-- Runs of adjacent elements with an equal key. -/
def runsBy {α β : Type} [DecidableEq β] (k : α → β) : List α → List (List α)
  | [] => []
  | x :: xs => match runsBy k xs with
    | (y :: ys) :: rest => if k x = k y then (x :: y :: ys) :: rest else [x] :: (y :: ys) :: rest
    | r => [x] :: r

/-- The record of lowest NID. -/
def lowestNid (xs : List (HRec × Bool)) : Option (HRec × Bool) :=
  xs.foldl (fun a x => match a with | some y => if x.1.nid < y.1.nid then some x else a | none => some x) none

/-- The part that keeps its reference direction: most records, then the lowest NID. -/
def bestPart (ps : List (List (HRec × Bool))) : Option (List (HRec × Bool)) :=
  ps.foldl (fun a p => match a with
    | none => some p
    | some q =>
      if q.length < p.length then some p
      else if q.length = p.length then
        (match lowestNid p, lowestNid q with
         | some x, some y => if x.1.nid < y.1.nid then some p else a
         | _, _ => a)
      else a) none

/-- The reference end is the one at the start of the list (R77): a chain in physical order with whether direction 1 faces its start. -/
def refAtStart (xs : List (HRec × Bool)) : Bool :=
  let parts := (runsBy (fun x : HRec × Bool => (x.1.prevGen, x.1.prevFp)) xs).filter (fun p =>
    match p.head? with | some x => decide (x.1.prevGen ≠ 0) | none => false)
  match bestPart parts with
  | none => (lowestNid xs).elim true (fun x => x.2)
  | some p => (lowestNid p).elim true (fun x => if x.1.prevOri then !x.2 else x.2)

/-- The chain ordered from the reference end, each record with its orientation. -/
def ordered (xs : List (HRec × Bool)) : List (HRec × Bool) :=
  if refAtStart xs then xs.map (fun x => (x.1, !x.2)) else xs.reverse.map (fun x => (x.1, x.2))

/-- One run of equal CONSIST_ID numbered: its nodes and the next base. -/
def numberRun (c base : Nat) (run : List (HRec × Bool)) : List CNode × Nat :=
  match lowestNid run with
  | none => ([], base)
  | some l =>
    let v := l.1.vehCount
    let rev := decide (l.1.cstDir ≠ l.2)
    (run.map (fun x =>
      { nid := x.1.nid, orient := x.2, consist := c, vehicle := base + (if rev then v - x.1.vehIndex + 1 else x.1.vehIndex)
        consistId := x.1.consistId, firstVeh := base + 1, vehCount := v, reversed := rev, form := x.1.form, absent := false }),
      base + v)

/-- Every run numbered in turn. -/
def numberRuns : Nat → Nat → List (List (HRec × Bool)) → List CNode × Nat
  | _, base, [] => ([], base)
  | c, base, r :: rs =>
    let a := numberRun c base r
    let b := numberRuns (c + 1) a.2 rs
    (a.1 ++ b.1, b.2)

/-- The fingerprint of R38. -/
def fingerprint (xs : List (Nid × Bool)) : Word :=
  crc32 ((xs.map (fun x => be 8 x.1.toNat ++ [byte (b01 x.2)])).flatten)

/-- The new generation (R36, R77). -/
def nextGen (g : Nat) : Word := if g = 0xFFFFFFFF ∨ g = 0 then 1 else BitVec.ofNat 32 (g + 1)

/-- The procedure of R77 on a chain in physical order: a proposal, or the cause of a refusal (1 TOO_MANY, 2 DUP_NID, 3 LIMIT). overflow:
a vector came with OVERFLOW set. -/
def propose (xs : List (HRec × Bool)) (overflow : Bool) : Except Nat Proposal :=
  let nids := xs.map (fun x => x.1.nid)
  if 63 < xs.length || overflow then .error 1
  else if nids.eraseDups.length ≠ nids.length then .error 2
  else
    let ys := match xs with
      | [x] => [(x.1, if x.1.prevGen ≠ 0 then x.1.prevOri else false)]
      | _ => ordered xs
    let runs := runsBy (fun x : HRec × Bool => x.1.consistId) ys
    let r := numberRuns 1 0 runs
    if 32 < runs.length || runs.any (fun x => 8 < x.length) || 255 < r.2 then .error 3
    else
      .ok { gen := nextGen (maxOf (xs.map (fun x => x.1.prevGen.toNat)))
            fp := fingerprint (ys.map (fun x => (x.1.nid, x.2)))
            chain := r.1 }

/-- Consecutive VEH_INDEX values that run against the consist's sense (R80). -/
def againstSense (rev : Bool) : List Nat → Bool
  | a :: b :: rest => (if rev then a < b else b < a) || againstSense rev (b :: rest)
  | _ => false

/-- The inconsistencies of R80 in a chain ordered from the reference end: CONSIST_ID and kind. -/
def consistErrors (ys : List (HRec × Bool)) : List (Word × Nat) :=
  let runs := runsBy (fun x : HRec × Bool => x.1.consistId) ys
  let ids := runs.filterMap (fun r => r.head?.map (fun x => x.1.consistId))
  let dup := (ids.filter (fun i => 1 < ids.count i)).eraseDups
  dup.map (fun i => (i, 1)) ++ runs.flatMap (fun r => match lowestNid r with
    | none => []
    | some l =>
      let rev := decide (l.1.cstDir ≠ l.2)
      (if r.any (fun x => x.1.vehCount ≠ l.1.vehCount) then [(l.1.consistId, 2)] else [])
        ++ (if againstSense rev (r.map (fun x => x.1.vehIndex)) then [(l.1.consistId, 3)] else []))

/-! ## Faults, rounds, inhibit -/

/-- A line is lost: one of its ports is faulted, and so is every port of it whose direction has a neighbour on the other line (R45). -/
def State.lineLost (s : State) (l : Line) : Bool :=
  let fault (d : Nat) : Bool := (s.hport (portOf l d)).fault
  s.usesLine l && (fault 1 || fault 2)
    && [1, 2].all (fun d => fault d || (s.hport (portOf (otherLine l) d)).neighbour.isNone)
where
  otherLine (l : Line) : Line := if l = .a then .b else .a

/-- Lost lines are lost resources, and their BYPASS outputs are asserted while the node is in line (R40, R45). -/
def settleLines (s : State) : State :=
  [Line.a, Line.b].foldl (fun s l =>
    let i := l.code
    let lost := s.lineLost l
    if s.node.lost.getLsbD i = lost then s
    else
      let s1 := setResource i lost s
      if s.node.state.inLine then drivePin (if l = .a then .bypassA else .bypassB) (if lost then .low else .high) s1 else s1) s

/-- A line fault is declared or cleared on a port (R65). -/
def setFault (p : Nat) (on : Bool) (nid : Nid) (s : State) : State :=
  if (s.hport p).fault = on then s else
  settleLines (raise .hitch 4 (logEvent 0x0305 sevWarning
    ([byte (lineOfPort p).code, byte (dirOfPort p)] ++ nidBytes nid ++ [byte (if on then 1 else 2)])
    (setHPort p (fun h => { h with fault := on }) s)))

/-- COUPLE records of couplings that the round takes in (R102). -/
def logCouples (s : State) : State :=
  let one (o : Option Nat) (s : State) : State := match o with
    | some p => match (s.hport p).neighbour with
      | some n => logEvent 0x0304 sevNotice ([byte p] ++ nidBytes n) s
      | none => s
    | none => s
  let s1 := one s.hitch.couple2 (one s.hitch.couple1 s)
  { s1 with hitch := { s1.hitch with couple1 := none, couple2 := none } }

/-- Start a round, or join the one in progress (R68, R75): causes as R676 codes them; port 0xFF for none. -/
def startRound (cause p : Nat) (nid : Nid) (s : State) : State :=
  match s.hitch.proc with
  | .gather | .agree => logCouples s
  | .offline => s
  | _ =>
    let s1 := logCouples s
    let s2 := { s1 with hitch := { s1.hitch with
      proc := .gather, rehitch := true, committed := false, prop := none, lastChain := [], roundStart := s.now
      successor := none, leaver := none } }
    raise .hitch 1 (logEvent 0x0301 sevInfo ([byte cause, byte p] ++ nidBytes nid) (restartLinks s2))

/-- Mark the nodes beyond in a direction absent where the side's vector does not hold them (R91). -/
def markAbsent (d : Nat) (s : State) : State :=
  let have_ := (s.effVec d).recs.map HRec.nid
  let side := (s.hitch.beyond d).map CNode.nid
  { s with hitch := { s.hitch with chain := s.hitch.chain.map (fun x =>
      if side.contains x.nid then { x with absent := !have_.contains x.nid } else x) } }

/-- The train's inhibit state as the complete chain shows it (R90); outside a round only (R91). When it ceases with a link held or a
node absent, a round starts (R92). -/
def evalInhibit (s : State) : State :=
  if !s.chainComplete || s.hitch.proc = .gather || s.hitch.proc = .agree || s.hitch.proc = .offline || s.hitch.switching then s
  else
    let now_ := s.hitch.asserting || (s.effVec 1).recs.any HRec.inhibit || (s.effVec 2).recs.any HRec.inhibit
    if now_ = s.hitch.inhibited then s
    else
      let h := s.hitch
      let s1 := wtbInhibit (raise .hitch 5 (logEvent 0x030A sevInfo
        [byte (b01 now_), byte (b01 h.gpioInh + flag h.streamInh 1 + flag h.hostInh 2)]
        { s with hitch := { h with inhibited := now_, heldInh := now_ && h.heldInh } }))
      if !now_ && (h.heldInh || h.chain.any CNode.absent) then startRound 9 0xFF 0 s1 else s1

/-- An uncoupling in a direction (R64, R75, R91): a round, or under inhibit SEPARATION. -/
def uncouple (cause d p : Nat) (nid : Nid) (s : State) : State :=
  let s0 := { s with hitch := if d = 1 then { s.hitch with lost1 := true } else { s.hitch with lost2 := true } }
  if s.hitch.inhibited && s.hitch.proc = .steady then
    raise .hitch 6 (logEvent 0x0307 sevAlert ([byte d] ++ nidBytes nid ++ wordBytes s.hitch.gen) (markAbsent d s0))
  else
    startRound cause p nid (raise .hitch 2 (logEvent 0x0303 sevNotice ([byte d] ++ nidBytes nid) s0))

/-- The settle flag of a direction. -/
def Hitch.settling (h : Hitch) (d : Nat) : Bool := if d = 1 then h.settle1 else h.settle2

/-- Write the settle flag and the pending coupling of a direction. -/
def setSettle (d : Nat) (on : Bool) (c : Option Nat) (s : State) : State :=
  { s with hitch := if d = 1 then { s.hitch with settle1 := on, couple1 := c } else { s.hitch with settle2 := on, couple2 := c } }

/-- A neighbour is lost on a port (R63 to R65, R75). -/
def loseNeighbour (p : Nat) (s : State) : State :=
  match (s.hport p).neighbour with
  | none => s
  | some n =>
    let d := dirOfPort p
    let q := portOf (if lineOfPort p = .a then .b else .a) d
    let bypassed := (s.hport p).nbBypass
    let s1 := setHPort p (fun h => { h with
      neighbour := none, admitted := false, rxSeq := none, heard := false, missedRun := 0, nbBypass := false
      losses := min 0xFFFFFFFF (h.losses + 1) }) s
    if (s.hport q).neighbour = some n then setFault p true n s1
    else
      let wasNext := decide (s.hitch.nextNode d = some n)
      let s2 := settleLines (setSettle d false none (setVec d {}
        (setHPort q (fun h => { h with fault := false }) (setHPort p (fun h => { h with fault := false }) s1))))
      if !wasNext then s2
      else match s.hitch.proc with
        | .offline | .pending => s2
        | .ttdp => raise .hitch 2 (logEvent 0x0303 sevNotice ([byte d] ++ nidBytes n) s2)
        | .steady =>
          if bypassed && !s.hitch.inhibited then
            { s2 with hitch := { s2.hitch with
              proc := .bypassWait, leaver := some n
              successor := ((s.hitch.beyond d).filter (fun x => decide (x.nid ≠ n))).head?.map CNode.nid } }
          else uncouple 1 d p n s2
        | _ => uncouple 1 d p n s2

/-- The nodes that a regained link rejoins are no longer absent (R91). -/
def rejoin (d : Nat) (s : State) : State := markAbsent d s

/-- A new neighbour is heard on a port (R65, R66, R75, R91). -/
def gainNeighbour (p : Nat) (r : HRec) (s : State) : State :=
  let d := dirOfPort p
  let q := portOf (if lineOfPort p = .a then .b else .a) d
  let n := r.nid
  let h := s.hitch
  let letIn (s : State) : State := setHPort p (fun h => { h with admitted := true }) s
  let s1 := setHPort p (fun h => { h with neighbour := some n, nbBypass := false }) s
  match h.proc with
  | .offline => s1
  | .pending => if h.nextNode d = some n then letIn s1 else setSettle d false (some ((if d = 1 then h.couple1 else h.couple2).getD p)) s1
  | .ttdp => if h.nextNode d = some n then letIn s1 else s1
  | _ =>
    let wasFault := (s.hport p).fault
    let s2 := if wasFault && (s.hport q).neighbour = some n then setFault p false n s1 else s1
    let onSide := (h.beyond d).any (fun x => decide (x.nid = n))
    let known := onSide && decide (r.prevGen = h.gen ∧ r.prevFp = h.fp)
    if h.nextNode d = some n then
      letIn (if h.proc = .bypassWait && h.leaver = some n then
        { s2 with hitch := { s2.hitch with proc := .steady, leaver := none, successor := none } } else s2)
    else if h.inhibited && h.proc = .steady && known then rejoin d (letIn s2)
    else if h.inhibited && h.proc = .steady then
      raise .hitch 8 (logEvent 0x030B sevNotice ([byte p] ++ nidBytes n)
        { s2 with hitch := { s2.hitch with heldInh := true } })
    else if h.proc = .bypassWait && h.successor = some n then startRound 7 p n (setSettle d false (some p) s2)
    else if wasFault && (s.hport q).neighbour = some n then s2
    else if h.proc = .gather || h.proc = .agree then logCouples (setSettle d false (some p) s2)
    else if (s.hport q).neighbour = some n then
      let first := ((if d = 1 then h.couple1 else h.couple2).getD p)
      startRound 2 p n (setSettle d false (some first) s2)
    else setSettle d true (some p) s2

/-- The commit condition (R70): every record of the complete chain carries the proposal, or a committed record does. -/
def tryCommit (s : State) : State :=
  match s.hitch.prop with
  | none => s
  | some pr =>
    let same (r : HRec) : Bool := decide (r.propGen = pr.gen ∧ r.propFp = pr.fp)
    let all := s.chainComplete && ((s.effVec 1).recs ++ (s.effVec 2).recs).all same
    let seen := (s.hitch.vec1.recs ++ s.hitch.vec2.recs).any (fun r => r.committed && same r)
    if s.hitch.proc = .agree && !s.hitch.switching && (all || seen) then
      { s with hitch := { s.hitch with switching := true, committed := true } }
    else s

/-- A mode change is logged and raised (R96): new mode, or 3 TTDP_REFUSED, and the port. -/
def modeSaid (mode p : Nat) (s : State) : State :=
  raise .hitch 7 (logEvent 0x0308 sevWarning [byte mode, byte p] s)

/-- Enter TTDP-compatible mode (R94). -/
def enterTtdp (p : Nat) (s : State) : State :=
  if s.hitch.proc = .offline || s.hitch.proc = .ttdp || s.param 4 5 0xFFFF 1 ≠ 1 then s
  else modeSaid 2 p { s with hitch := { s.hitch with proc := .ttdp, ttdpMode := true, mode := 2, prop := none, rehitch := false } }

/-- What a changed vector brings (R68, R75, R90, R91, R94, R96): commit first, then fallback and return, then a round where the view differs,
then inhibit. d is the side whose vector changed. -/
def review (d p : Nat) (nid : Nid) (s : State) : State :=
  let s1 := tryCommit s
  if s1.hitch.switching then s1 else
  let anyTtdp := (s1.hitch.vec1.recs ++ s1.hitch.vec2.recs).any HRec.ttdp
  let s2 := match s1.hitch.proc with
    | .offline | .pending | .gather | .agree | .bypassWait => s1
    | .ttdp =>
      if s1.chainComplete && s1.physChain.all (fun x => x.1.fast) && !s1.hitch.ports.any HPort.ttdpNb then
        startRound 4 p nid (modeSaid 1 p { s1 with hitch := { s1.hitch with ttdpMode := false, mode := 1 } })
      else s1
    | .steady =>
      if s1.hitch.inhibited then (if s1.sideAdmitted d && (s1.hitch.vec d).atEnd then markAbsent d s1 else s1)
      else if s1.vecDiffers d && s1.sideAdmitted d then startRound 4 p nid s1 else s1
    | .refused => if s1.chainKey ≠ s1.hitch.lastChain then startRound 4 p nid s1 else s1
  let s3 := if anyTtdp && s2.hitch.proc ≠ .gather && s2.hitch.proc ≠ .agree then enterTtdp p s2 else s2
  evalInhibit s3

/-- Complete waiting hitch commands that a test selects. -/
def finishHitchWaits (p : HWait → Bool) (st : Nat) (pay : List Byte) (s : State) : State :=
  (s.hitch.waits.filter p).foldl (fun s w => finish (some w.ref) st pay s)
    { s with hitch := { s.hitch with waits := s.hitch.waits.filter (fun w => !p w) } }

/-- A refused chain (R79): cause 1 TOO_MANY, 2 DUP_NID, 3 LIMIT. -/
def refuse (cause n : Nat) (s : State) : State :=
  finishHitchWaits (fun w => w.gen.isNone) stDenied []
    (raise .hitch 3 (logEvent 0x0306 sevError ([byte cause] ++ le 4 n)
      { s with hitch := { s.hitch with
        proc := .refused, rehitch := false, refuse := cause, prop := none, lastChain := s.chainKey } }))

/-- Announce removal (R87): BYPASSING in the record, change frames, the record of the Studbook. -/
def announceBypass (s : State) : State :=
  if s.hitch.bypassing || !s.hitchOn then s else
  sendChanges (logEvent 0x030C sevNotice ([1] ++ nidBytes s.node.nid)
    { s with hitch := { s.hitch with bypassing := true } })

/-- The Hitch process stops (R75): OFFLINE, nothing of the links kept but their counts. -/
def hitchStop (s : State) : State :=
  finishHitchWaits (fun _ => true) stWrongState []
    { s with hitch := { s.hitch with
      proc := .offline, rehitch := false, prop := none, switching := false, committed := false, bypassing := false
      vec1 := {}, vec2 := {}, lastChain := [], settle1 := false, settle2 := false, couple1 := none, couple2 := none
      lost1 := false, lost2 := false, ttdpMode := false, heldInh := false, successor := none, leaver := none
      ports := s.hitch.ports.map (fun h => { missed := h.missed, invalid := h.invalid, losses := h.losses, rtt := h.rtt }) } }

/-- The INHIBIT_GPIO input is at the INHIBIT_ACTIVE level (R90). -/
def State.gpioInhibit (s : State) : Bool :=
  match s.param? 4 6 0xFFFF with
  | some g => g < 24 && s.pwr.gpioIn.getLsbD g = (s.param 4 9 0xFFFF 0 = 0)
  | none => false

/-- The Hitch process starts when the node enters READY (R75): PENDING, debounce on linked backbone ports. -/
def hitchStart (s : State) : State :=
  let s1 := { s with hitch := { s.hitch with proc := .pending, gpioInh := s.gpioInhibit } }
  [0, 1, 2, 3].foldl (fun s p =>
    if s.portUp p then setMac p (fun m => { m with debounce := true }) s else s) s1

/-- INHIBIT_STREAM's part of the node's inhibit (R90): fresh with a non-zero first payload byte. -/
def streamInhibit (s : State) : State :=
  let on := match s.param? 4 7 0xFFFF with
    | some n => (match Store.find s.stream.ctxs n with
      | some c => c.fresh = .fresh && decide ((c.image.headD 0) ≠ 0)
      | none => false)
    | none => false
  if s.hitch.streamInh = on then s
  else sendChanges (evalInhibit { s with hitch := { s.hitch with streamInh := on } })

end Sys2Proof.Machine
end

