-- ==== Sys2Proof/Machine/Forward.lean ====
section
/-! DEFINITION. The lookups of the Harness switch: VLAN table, classification, stream identification, filters and meters, address
table, egress sets (R169 to R184, R198). -/
namespace Sys2Proof.Machine

/-- Every enabled port as a mask. -/
def State.enabledMask (s : State) : BitVec 16 :=
  BitVec.ofNat 16 (sumOf ((List.range 16).map (fun p => flag (s.portOn p) p)))

/-- A VID's row: the one set, else the default table's (R170). -/
def State.vlanRow (s : State) (v : Nat) : VlanRow :=
  (Store.find s.sw.vlan v).getD (if v = 1 then { member := s.enabledMask, untag := 0 } else {})

/-- The switch forwards on a port in this state (R211, R212). -/
def State.switches (s : State) (p : Nat) : Bool :=
  if s.node.state.inLine || s.node.settling then s.portOn p
  else if s.node.state = .held then (p = 14 || p = 15) && s.portOn p
  else false

/-- PORT parameters of VLAN classification and learning: PVID, ACCEPT (0 ALL, 1 TAGGED_ONLY), DEFAULT_PCP, LEARN, UNKNOWN_UC (0 FLOOD,
1 DROP), FORWARD_MASK (R171 to R184). -/
def State.pvid (s : State) (p : Nat) : Nat := s.param 6 17 p 1
def State.taggedOnly (s : State) (p : Nat) : Bool := s.param 6 18 p 0 = 1
def State.defaultPcp (s : State) (p : Nat) : Nat := s.param 6 19 p 0
def State.learns (s : State) (p : Nat) : Bool := s.param 6 20 p 1 = 1
def State.ucDrop (s : State) (p : Nat) : Bool := s.param 6 21 p 0 = 1
def State.forwardMask (s : State) (p : Nat) : BitVec 16 := BitVec.ofNat 16 (s.param 6 22 p 0xFFFF)

/-- AGE_TIME in seconds, 0 for Off (R178). -/
def State.ageTime (s : State) : Nat := s.param 6 33 0xFFFF 300

/-- A switch table's entry is being reloaded (R633): table, index. -/
def State.reloading (s : State) (table index : Nat) : Bool := s.sw.reloads.any (fun r => r.1 = table && r.2.2 = index)

/-- What stage 4 makes of a frame: VID, priority, and whether it came tagged; none where it is dropped, as while the VID's entry is
being reloaded (R171, R173, R632). -/
def State.classify (s : State) (p : Nat) (prio : Option Nat) (f : Frame) : Option (Nat × Nat × Bool) :=
  let r := match f.vlan with
    | some t => if t.vid = 4095 then none
      else if t.vid = 0 then (if s.taggedOnly p then none else some (s.pvid p, t.pcp, true))
      else some (t.vid, t.pcp, true)
    | none => if s.taggedOnly p then none else some (s.pvid p, prio.getD (s.defaultPcp p), false)
  match r with
  | some (v, q, t) => if (s.vlanRow v).member.getLsbD p && !s.reloading 2 v then some (v, q, t) else none
  | none => none

/-! ## Stream contexts as the switch sees them -/

/-- The Ethertype of stream frames, none where the image gives none (R281). -/
def State.streamEtype (s : State) : Option Nat := s.param? 0x0D 1 0xFFFF

/-- Fields of a context's record (R282). -/
def StreamCtx.role (c : StreamCtx) : Nat := c.f 0 1
def StreamCtx.vid (c : StreamCtx) : Nat := c.f 2 2 % 4096
def StreamCtx.replicates (c : StreamCtx) : Bool := c.f 4 1 = 0 && (c.role = 1 || c.role = 2)
def StreamCtx.strip (c : StreamCtx) : Bool := bit (c.f 41 1) 6

/-- A PUBLISH context with the fields of the record in the address kind. -/
def StreamCtx.positional (c : StreamCtx) : Bool := c.f 5 1 = 1

/-- The context subscribes and owns an identification entry (R284). -/
def StreamCtx.listens (c : StreamCtx) : Bool := c.role = 2 && (c.enabled || bit (c.f 52 4) 0) && !c.suspended

/-- The context that subscribes a destination and VID, lowest index first (R284). -/
def State.ctxFor (s : State) (da : Mac) (vid : Nat) : Option Nat :=
  (s.stream.ctxs.find? (fun e => e.2.listens && decide (e.2.da = da) && e.2.vid = vid)).map Prod.fst

/-- A transit or source identification entry of the tack image (R608, STREAM_ID). -/
structure IdEntry where
  mac   : Mac
  vid   : Nat
  src   : Bool
  repl  : Bool
  split : Bool
  mask  : Nat
  hdl   : Nat
  ctx   : Nat
  deriving DecidableEq, Repr

/-- Read an identification record. -/
def idEntry (b : List Byte) : IdEntry :=
  { mac := BitVec.ofNat 48 (fBe b 0 6), vid := fLe b 6 2, src := fLe b 8 1 = 1, repl := bit (fLe b 9 1) 0, split := bit (fLe b 9 1) 1
    mask := fLe b 10 2, hdl := fLe b 12 2 % 4096, ctx := fLe b 14 2 }

/-- The identification entries of the active image. -/
def State.idEntries (s : State) : List IdEntry :=
  let b := s.sectionOf 0x0B 0
  (List.range (b.length / 16)).map (fun i => idEntry (recordAt b 16 i))

/-- An entry matches a frame from a port (R198). -/
def IdEntry.hits (e : IdEntry) (p vid : Nat) (f : Frame) : Bool :=
  e.vid = vid && decide (e.mac = if e.src then f.sa else f.da) && (e.mask = 0 || bit e.mask p)

/-- What identification gives a frame: handle, whether replicated, and the SPLIT context (R198, R199). A null entry wins over a source
entry. -/
structure StreamId where
  handle : Option Nat := none
  repl   : Bool := false
  split  : Option Nat := none
  deriving DecidableEq, Repr

/-- Stream identification of a frame (R198, R284). An entry under reload yields no handle (R632): entry n of the table is context n's, entry
2,048 + i the i-th of the image (log entry 22). -/
def State.identify (s : State) (p vid : Nat) (f : Frame) : StreamId :=
  let ents := (s.idEntries.mapIdx (fun i e => (i, e))).filter (fun x => !s.reloading 4 (2048 + x.1))
  let hits := (ents.map Prod.snd).filter (fun e => e.hits p vid f)
  match (s.ctxFor f.da vid).filter (fun n => !s.reloading 4 n) with
  | some n => { handle := some n, repl := (s.ctx? n).elim false StreamCtx.replicates, split := none }
  | none =>
    match (hits.find? (fun e => !e.src)).orElse (fun _ => hits.head?) with
    | some e =>
      { handle := some e.hdl
        repl := e.repl || (s.ctx? e.hdl).elim false StreamCtx.replicates
        split := if e.split then some e.ctx else none }
    | none => {}

/-! ## Address table -/

/-- The bucket of an address and VID (R174); the VID's two bytes in network order (log entry 20). -/
def fdbBucket (m : Mac) (v : Nat) : Nat := (crc32 (macBytes m ++ be 2 v)).toNat % 4096

/-- The entry of an address and VID. -/
def State.fdbFind (s : State) (m : Mac) (v : Nat) : Option FdbEntry :=
  s.sw.fdb.find? (fun e => decide (e.mac = m) && e.vid = v)

/-- Entries in the same bucket. -/
def State.bucketOf (s : State) (m : Mac) (v : Nat) : List FdbEntry :=
  s.sw.fdb.filter (fun e => fdbBucket e.mac e.vid = fdbBucket m v)

/-- The number of an entry: its bucket and its way (log entry 23). -/
def State.fdbIndex (s : State) (e : FdbEntry) : Nat := fdbBucket e.mac e.vid * 4 + (s.bucketOf e.mac e.vid).idxOf e

/-- The entry that a lookup uses: one under reload is not used (R632). -/
def State.fdbSeen (s : State) (m : Mac) (v : Nat) : Option FdbEntry := (s.fdbFind m v).filter (fun e => !s.reloading 1 (s.fdbIndex e))

/-- The destination number of a port as the table names it: a backbone port stands for its direction (R175). -/
def destOfPort (p : Nat) : Nat := if p < 4 then 15 + dirOfPort p else p

/-- The destinations a table entry names: ports, and directions as 16 and 17. -/
def FdbEntry.dests (e : FdbEntry) : List Nat :=
  if e.drop then []
  else if e.dest = 32 then ((List.range 16).filter (fun p => e.mask.getLsbD p)).map destOfPort
  else if e.dest < 16 then [destOfPort e.dest]
  else [e.dest]

/-- Targets of a frame: what its entry names, else the flood set of its VID (R179, R180). -/
def State.targets (s : State) (da : Mac) (vid : Nat) : List Nat :=
  let e := s.fdbSeen da vid
  let member := (s.vlanRow vid).member
  let flood := ((List.range 16).filter (fun p => member.getLsbD p && (isGroup da || !s.ucDrop p))).map destOfPort
  (match e with
   | some x => if isGroup da && !x.static then flood else x.dests
   | none => flood).eraseDups

/-! ## Egress -/

/-- Where a frame goes: one of the node's own ports, or a line and direction the Span peer carries (R213). -/
inductive Egress where
  | port (p : Nat)
  | peer (l : Line) (d : Nat)
  deriving DecidableEq, Repr

/-- A tug link is up. -/
def State.tugUp (s : State) : Bool := s.red.tugs.any (fun t => t.up)

/-- A line has an admitted link without fault in a direction, on this chip. -/
def State.lineOk (s : State) (l : Line) (d : Nat) : Bool := s.admitted (portOf l d)

/-- The other line. -/
def otherLine (l : Line) : Line := if l = .a then .b else .a

/-- The egress on a line in a direction: the own port, or the peer's over the tug link in Span (R181, R213). -/
def State.lineEgress (s : State) (l : Line) (d : Nat) : Option Egress :=
  if s.lineOk l d then some (.port (portOf l d))
  else if s.node.form = .span && !s.usesLine l && s.tugUp then some (.peer l d)
  else none

/-- The egress on the active line of a direction (R181): line A first; in Span the own line first. -/
def State.activeEgress (s : State) (d : Nat) : Option Egress :=
  let first := if s.node.form = .span && !s.node.lineA then Line.b else Line.a
  (s.lineEgress first d).orElse (fun _ => s.lineEgress (otherLine first) d)

/-- The egress of one target (R182). -/
def State.targetEgress (s : State) (inLine : Option Line) (t : Nat) : Option Egress :=
  if t < 16 then some (.port t)
  else
    let d := t - 15
    match inLine with
    | some l => (if s.lineOk l d then some (.port (portOf l d)) else s.activeEgress d)
    | none => s.activeEgress d

/-- The switch may send a forwarded frame of a VID on a port (R172, R184, R211, R222). -/
def State.maySend (s : State) (inPort vid : Nat) : Egress → Bool
  | .port p => s.switches p && (s.vlanRow vid).member.getLsbD p && (s.forwardMask inPort).getLsbD p && !s.sw.noFwd.getLsbD p
      && decide (p ≠ inPort)
  | .peer _ _ => true

/-- The egress set of a non-replicated frame and the count of directions without an egress (R182). inDir is the direction it came
from. -/
def State.egressSet (s : State) (inPort vid : Nat) (inLine : Option Line) (inDir : Option Nat) (da : Mac) : List Egress × Nat :=
  let ts := (s.targets da vid).filter (fun t => match inDir with | some d => decide (t ≠ 15 + d) | none => true)
  let found := ts.map (fun t => s.targetEgress inLine t)
  ((found.filterMap id).filter (s.maySend inPort vid), found.countP Option.isNone)

/-- The egress set of a replicated frame from a backbone port: the same line in the onward direction, and local egresses
(R200). -/
def State.replicatedSet (s : State) (inPort vid : Nat) (da : Mac) : List Egress × List Nat × Nat :=
  let l := lineOfPort inPort
  let ts := (s.targets da vid).filter (fun t => decide (t ≠ 15 + dirOfPort inPort))
  let onward := (ts.filter (16 ≤ ·)).map (fun t => if s.lineOk l (t - 15) then some (Egress.port (portOf l (t - 15))) else none)
  let loc := (ts.filter (· < 16)).filter (fun p => s.maySend inPort vid (.port p))
  ((onward.filterMap id).filter (s.maySend inPort vid), loc, onward.countP Option.isNone)

/-- The switch may send a frame that the chip itself sources: a port that PORT_FORWARD has disabled still carries it (R222). -/
def State.mayPublish (s : State) (vid p : Nat) : Bool := s.switches p && (s.vlanRow vid).member.getLsbD p && decide (p ≠ 15)

/-- The lines and directions of a frame that this node replicates: one copy per line and direction its destination requires
(R199, R288); and the local egresses, one copy each. inPort 15 is the Stream unit. -/
def State.publishSet (s : State) (inPort vid : Nat) (da : Mac) : List (Line × Nat) × List Nat :=
  let ts := s.targets da vid
  ((ts.filter (16 ≤ ·)).flatMap (fun t => [(Line.a, t - 15), (Line.b, t - 15)]),
    (ts.filter (· < 16)).filter (fun p => if inPort = 15 then s.mayPublish vid p else s.maySend inPort vid (.port p)))

/-! ## Filters and meters -/

/-- The first stream filter that matches a frame (R198). -/
def State.filterFor (s : State) (handle : Option Nat) (pcp : Nat) : Option (Nat × PsFilter) :=
  s.sw.filters.find? (fun e => (e.2.handle.isNone || decide (e.2.handle = handle)) && (e.2.pcp.isNone || e.2.pcp = some pcp))

/-- A frame as it leaves a port: tagged or not (R172), its R-TAG kept or not. -/
def State.tagFor (s : State) (p vid pcp : Nat) (dei keepR : Bool) (f : Frame) : Frame :=
  let untag := 4 ≤ p && (s.vlanRow vid).untag.getLsbD p
  { f with vlan := if untag then none else some { pcp := pcp, dei := dei, vid := vid }
           rtag := if keepR then f.rtag else none }

/-- A frame over the tug link to the peer: line, direction, frame (R213, R412). -/
def sendPeer (l : Line) (d handle : Nat) (f : Frame) (s : State) : State :=
  match s.carriers with
  | k :: _ => sendSegments k 15 d l.code (f.rtag.getD 0).toNat handle (frameBytes f) s
  | [] => s

end Sys2Proof.Machine
end

