-- ==== Sys2Proof/Machine/RxRing.lean ====
section
/-! DEFINITION. Frames on their way to host RX rings: choice of ring, waiting, drops (R241, R242, R255, R256). -/
namespace Sys2Proof.Machine

/-- An RX ring. -/
def State.rxRing (s : State) (n : Nat) : Ring := s.rx.getD n {}

/-- Change an RX ring. -/
def setRx (n : Nat) (f : Ring → Ring) (s : State) : State := { s with rx := s.rx.modify n f }

/-- A TX ring. -/
def State.txRing (s : State) (n : Nat) : Ring := s.tx.getD n {}

/-- Change a TX ring. -/
def setTx (n : Nat) (f : Ring → Ring) (s : State) : State := { s with tx := s.tx.modify n f }

/-- Ring DMA is possible (R241). -/
def State.dmaOk (s : State) : Bool := s.host.pcieUp && s.host.master

/-- Bytes of a buffer. -/
def Ring.bufSize (r : Ring) : Nat := r.bufUnits * 256

/-- Descriptors posted after HEAD. -/
def Ring.posted (r : Ring) : Nat := if r.size = 0 then 0 else (r.tail + r.size - r.head) % r.size

/-- Length of a frame as delivered: VLAN tag kept or not, R-TAG and FCS removed unless KEEP_FCS (R243). -/
def Ring.frameBytes (r : Ring) (w : RxWait) : List Byte :=
  let f := { w.frame with rtag := none, vlan := if w.tagged then w.frame.vlan else none }
  let b := Sys2Proof.Machine.frameBytes f
  b ++ (if r.keepFcs then le 4 (crc32 b).toNat else [])

/-- Descriptors a frame needs. -/
def Ring.needs (r : Ring) (w : RxWait) : Nat :=
  if r.bufSize = 0 then 0 else ((r.frameBytes w).length + r.bufSize - 1) / r.bufSize

/-- The ring that takes a frame of a class from a port (R242). -/
def State.ringFor (s : State) (cls port : Nat) : Option Nat :=
  (List.range 8).find? (fun n =>
    (s.rxRing n).enable && (s.rxRing n).selCls.getLsbD cls && (s.rxRing n).selPort.getLsbD port)

/-- A frame is dropped whole at an RX ring (R255). -/
def rxHoldDrop (n len : Nat) (s : State) : State :=
  logEvent 0x0525 sevInfo ([byte n] ++ le 4 len)
    (setRx n (fun r => { r with holdDrop := true }) (count (statPort 15 (8 + n)) s))

/-- Offer a frame to an RX ring: it joins the ring's queue, or is dropped where DMA is impossible, the ring is stopped, no cells
are left, or it can never fit (R188, R241, R245, R255). True where it was taken. -/
def rxOffer (n : Nat) (w : RxWait) (s : State) : Bool × State :=
  let r := s.rxRing n
  if !s.dmaOk then (false, count (statPort 15 24) s)
  else if !r.enable then (false, count (statPort 15 (8 + n)) s)
  else if !s.admits 15 w.cls w.cells then (false, count (statPort 15 (33 + w.cls)) s)
  else if r.size - 1 < r.needs w && !r.stream then (false, rxHoldDrop n (r.frameBytes w).length s)
  else (true, setRx n (fun r => { r with waiting := r.waiting ++ [w] }) s)

/-- The Saddlebag Ethertype and the group address of Wrangler frames (R494, R392). -/
def State.bridgeEtype (s : State) : Nat := s.param 0x18 1 0xFFFF 0x88B5
def State.bridgeVid (s : State) : Nat := s.param 0x18 2 0xFFFF 1
def State.wrMac (s : State) : Mac := (s.macParam? 0x12 16 0xFFFF).getD 0x034E4CFFFF10#48

/-- WITNESS_MAC (R529). -/
def State.witnessMac (s : State) : Mac := (s.macParam? 0x1A 11 0xFFFF).getD 0x034E4CFFFF30#48

/-- The consumer at port 15 is a unit of the chip (R242, R370, R541): its own step follows with the frame. -/
def State.unitTakes (s : State) (handle : Option Nat) (f : Frame) : Bool :=
  (match handle with | some h => (s.ctx? h).elim false StreamCtx.listens | none => false)
    || f.etype = s.bridgeEtype || decide (f.da = s.wrMac) || decide (f.da = s.witnessMac)

/-- A frame reaches port 15 (R242). True where an RX ring still has to read it. -/
def toInternal (w : RxWait) (s : State) : Bool × State :=
  if s.unitTakes w.handle w.frame then (false, s)
  else match s.ringFor w.cls w.port with
    | some n => rxOffer n w s
    | none => (false, count (statPort 15 24) s)

end Sys2Proof.Machine
end

