-- ==== Sys2Proof/Machine/Frer.lean ====
section
/-! DEFINITION. Elimination (R201 to R204, R209): recovery contexts, frames held on a slot, parity at a local egress, and delivery of
a frame to the node's egresses. -/
namespace Sys2Proof.Machine

/-- What a frame brings to its egresses: as received, with its classification. -/
structure Fwd where
  frame  : Frame
  len    : Nat
  inPort : Nat
  line   : Line
  vid    : Nat
  pcp    : Nat
  dei    : Bool
  cls    : Nat
  handle : Option Nat
  stamp  : Stamp
  origin : TxOrigin := .transit
  deriving DecidableEq, Repr

/-- Cells of a frame. -/
def Fwd.cells (x : Fwd) : Nat := (x.len + 255) / 256

/-- What the recovery algorithm does with a frame. -/
inductive FrerDo where
  | pass | hold | discard
  deriving DecidableEq, Repr

/-- The recovery algorithm of R201 on one sequence number: the new context, the verdict, and the armed slots that left the history
without a frame. -/
def Frer.recover (h : Nat) (q : Half) (f : Frer) : Frer × FrerDo × List Armed :=
  if f.fresh then
    ({ f with fresh := false, rseq := q.toNat, hist := SlotSt.prov :: List.replicate (h - 1) .unknown}, .pass, [])
  else
    let delta := signed 16 ((q.toNat + 65536 - f.rseq) % 65536)
    if delta ≥ (h : Int) ∨ delta ≤ -(h : Int) then ({ f with rogue := satAdd f.rogue 1 }, .discard, [])
    else if delta > 0 then
      let d := delta.toNat
      let gone := f.hist.drop (h - d)
      let hist := SlotSt.prov :: (List.replicate (d - 1) .no ++ f.hist.take (h - d))
      let inHist (a : Armed) : Bool := decide ((q.toNat + 65536 - a.seq) % 65536 < h)
      ({ f with hist := hist, rseq := q.toNat, lost := satAdd f.lost (gone.countP (· = .no))
                armed := f.armed.filter inHist }, .pass, f.armed.filter (fun a => !inHist a))
    else
      let k := (-delta).toNat
      match f.hist.getD k .unknown with
      | .prov => (f, .hold, [])
      | .accepted => ({ f with discard := satAdd f.discard 1 }, .discard, [])
      | _ =>
        let isArmed := f.armed.any (fun a => a.seq = q.toNat)
        ({ f with hist := f.hist.set k .prov
                  recov := if isArmed then satAdd f.recov 1 else f.recov
                  ooo := if isArmed then f.ooo else satAdd f.ooo 1
                  armed := f.armed.filter (fun a => a.seq ≠ q.toNat) }, .pass, [])

/-- A frame passed: PASSED and the line it came from (R204). -/
def Frer.passedOn (l : Line) (f : Frer) : Frer :=
  { f with passed := satAdd f.passed 1
           curA := if l = .a then min 0xFFFF (f.curA + 1) else f.curA
           curB := if l = .b then min 0xFFFF (f.curB + 1) else f.curB }

/-- A FRAME_PARITY record: port, cell, handle, 1 recovered or 2 lost (R216); 0xFFFF where no handle names the frame. -/
def logParity (port cell : Nat) (handle : Option Nat) (lost : Bool) (s : State) : State :=
  logEvent 0x1001 sevError ([byte port] ++ le 4 cell ++ le 2 (handle.getD 0xFFFF) ++ [byte (if lost then 2 else 1)]) s

/-- Armed slots that left the history with no frame passed on them (R209). -/
def lostArmed (n : Nat) (gone : List Armed) (s : State) : State :=
  gone.foldl (fun s a => logParity a.port a.cell (some n) true s) s

/-- A frame leaves for one local egress: its queue, or port 15. True where the egress still has to read it. -/
def toLocal (x : Fwd) (keepR : Bool) (tag : Option (Nat × Nat)) (p : Nat) (s : State) : Bool × State :=
  let f := s.tagFor p x.vid x.pcp x.dei keepR x.frame
  if p = 15 then
    toInternal { frame := x.frame, tagged := f.vlan.isSome, len := x.len, port := x.inPort, cls := x.cls, handle := x.handle
                 seq := x.frame.rtag, stamp := x.stamp, tci := x.pcp * 8192 + (if x.dei then 4096 else 0) + x.vid
                 cells := x.cells, uid := s.sw.nextUid, since := s.now, frer := tag } s
  else
    let ok := s.admits p x.cls x.cells
    let q := { s.mkQ f x.origin with cells := x.cells, len := frameLen f, handle := x.handle, inPort := x.inPort, frer := tag }
    (ok, enqueue p x.cls q s)

/-- A frame leaves for several local egresses; the mask of those that still have to read it. -/
def toLocals (x : Fwd) (keepR : Bool) (tag : Option (Nat × Nat)) (ps : List Nat) (s : State) : BitVec 16 × State :=
  let r := ps.foldl (fun (a : BitVec 16 × State) p =>
    let r := toLocal x keepR tag p a.2
    (if r.1 then a.1 ||| (1#16 <<< p) else a.1, r.2)) (0#16, s)
  (r.1, bumpUid r.2)

/-- The local egresses of a replicated frame. -/
def Fwd.locals (x : Fwd) (s : State) : List Nat := (s.replicatedSet x.inPort x.vid x.frame.da).2.1

/-- A frame passes its recovery context: it goes to every local egress (R201). -/
def frerPassOpen (n : Nat) (x : Fwd) (held : List HeldCopy) (s : State) : State :=
  let seq := (x.frame.rtag.getD 0).toNat
  let keepR := !((s.ctx? n).elim true StreamCtx.strip)
  let r := toLocals x keepR (some (n, seq)) (x.locals s) (setFrer n (Frer.passedOn x.line) s)
  setFrer n (fun f => { f with live := f.live ++ [{ seq := seq, left := r.1, held := held }] }) r.2

/-- The slot of a passed frame is settled where no local egress still has to read it. -/
def frerSettle (n seq : Nat) (s : State) : State :=
  if (s.frer n).live.any (fun p => p.seq = seq && decide (p.left = 0)) then frerClean n seq s else s

/-- A frame passes, and its slot waits for the local egresses' reads. -/
def frerPass (n : Nat) (x : Fwd) (held : List HeldCopy) (s : State) : State :=
  frerSettle n (x.frame.rtag.getD 0).toNat (frerPassOpen n x held s)

/-- A frame waits on a slot (R202). -/
def frerHold (n : Nat) (x : Fwd) (s : State) : State :=
  let seq := (x.frame.rtag.getD 0).toNat
  setFrer n (fun f => { f with live := f.live.map (fun p => if p.seq = seq then
    { p with held := p.held ++ [{ frame := x.frame, len := x.len, port := x.inPort, vid := x.vid, pcp := x.pcp, dei := x.dei
                                  line := x.line, stamp := x.stamp }] } else p) }) s

/-- A held copy as a frame to deliver. -/
def HeldCopy.fwd (h : HeldCopy) (n : Nat) (s : State) : Fwd :=
  { frame := h.frame, len := h.len, inPort := h.port, line := h.line, vid := h.vid, pcp := h.pcp, dei := h.dei
    cls := s.classOf h.pcp, handle := some n, stamp := h.stamp }

/-- Remove every copy of a passed frame that has not left. -/
def dropCopies (n seq : Nat) (s : State) : State :=
  let keep (o : Option (Nat × Nat)) : Bool := decide (o ≠ some (n, seq))
  { s with
    sw := { s.sw with queues := (s.sw.queues.map (fun e => (e.1, e.2.filter (fun q => keep q.frer)))).filter (fun e => !e.2.isEmpty) }
    rx := s.rx.map (fun r => { r with waiting := r.waiting.filter (fun w => keep w.frer) }) }

/-- A local egress finds a parity error in a passed frame (R202): its other copies are dropped, a held frame passes in its place, or the
slot returns to NONE and is armed. -/
def frerParity (n seq port cell : Nat) (s : State) : State :=
  let h := s.historyOf n
  let f := s.frer n
  let held := ((f.live.find? (fun p => p.seq = seq)).map Passed.held).getD []
  let s1 := setFrer n (fun f => { f with live := f.live.filter (fun p => p.seq ≠ seq) }) (dropCopies n seq s)
  match held, f.slotOf h seq with
  | x :: rest, some _ =>
    frerPass n (x.fwd n s1) rest (logParity port cell (some n) false
      (setFrer n (fun f => { f with recov := satAdd f.recov 1 }) s1))
  | x :: rest, none =>
    let s2 := setFrer n (fun f => Frer.passedOn x.line { f with recov := satAdd f.recov 1, discard := satAdd f.discard rest.length }) s1
    let y := x.fwd n s2
    (toLocals y (!((s.ctx? n).elim true StreamCtx.strip)) none (y.locals s2) (logParity port cell (some n) false s2)).2
  | [], some k =>
    setFrer n (fun f => { f with hist := f.hist.set k .no, armed := f.armed ++ [{ seq := seq, port := port, cell := cell }] }) s1
  | [], none => logParity port cell (some n) true s1

/-- A unit's read at port 15 finds a parity error in a frame without recovery (R209). -/
def unitParity (x : Fwd) (err : Option Nat) (s : State) : State :=
  match err with
  | some cell => if s.unitTakes x.handle x.frame then logParity 15 cell x.handle true (count (statPort 15 43) (raise .harness 0 s)) else s
  | none => s

/-- A replicated frame for a local egress meets its recovery context (R201, R203). err: the cell in which a unit's read at port 15 finds a
parity error (R209). -/
def frerOffer (n : Nat) (x : Fwd) (err : Option Nat) (s : State) : State :=
  match x.frame.rtag with
  | none =>
    let s1 := setFrer n (fun f => { f with tagless := satAdd f.tagless 1 }) s
    let s2 := (toLocals x true none (x.locals s) s1).2
    if (x.locals s).contains 15 then unitParity x err s2 else s2
  | some q =>
    let f := s.frer n
    let armed := f.armed.find? (fun a => a.seq = q.toNat)
    let r := f.recover (s.historyOf n) q
    let s1 := lostArmed n r.2.2 (setFrer n (fun _ => r.1) s)
    match r.2.1 with
    | .discard => s1
    | .hold => frerHold n x s1
    | .pass =>
      let s2 := match armed with
        | some a => if r.2.2.any (fun b => b.seq = a.seq) then s1 else logParity a.port a.cell (some n) false s1
        | none => s1
      let s3 := frerPassOpen n x [] s2
      match (if (x.locals s).contains 15 && s.unitTakes (some n) x.frame then err else none) with
      | some cell => frerParity n q.toNat 15 cell (count (statPort 15 43) (raise .harness 0 s3))
      | none => frerSettle n q.toNat s3

/-- FRER_HOLD_EXPIRY: 2 ms after it came, the frame held longest on a slot is discarded (R202). -/
def execFrerHoldExpiry (ctx seq : Nat) (s : State) : Out :=
  .next (setFrer ctx (fun f =>
    { f with discard := satAdd f.discard (sumOf ((f.live.filter (fun p => p.seq = seq)).map (fun p => min 1 p.held.length)))
             live := f.live.map (fun p => if p.seq = seq then { p with held := p.held.drop 1 } else p) }) s)

/-- FRER_RESET_TIMER_EXPIRY: RESET_TIME passes without a frame passed, and the context becomes fresh (R201). -/
def execFrerResetTimerExpiry (ctx : Nat) (s : State) : Out :=
  .next (let f := s.frer ctx
    if f.fresh then s else
    let held := sumOf (f.live.map (fun p => p.held.length))
    lostArmed ctx f.armed (setFrer ctx (fun f =>
      { f with fresh := true, hist := [], armed := [], resets := satAdd f.resets 1, discard := satAdd f.discard held
               live := f.live.map (fun p => { p with held := [] }) }) s))

/-- One line of a context at a period's end: silent or not (R204). -/
def latentLine (ctx : Nat) (l : Line) (was now_ : Bool) (s : State) : State :=
  if was = now_ then s else
    raise .harness 4 (logEvent 0x0505 sevWarning (le 2 ctx ++ [byte l.code, byte (if now_ then 1 else 2)]) s)

/-- FRER_LATENT_PERIOD_END: the frames passed from each line decide which line is silent (R204). -/
def execFrerLatentPeriodEnd (ctx : Nat) (s : State) : Out :=
  .next (if !s.node.state.inLine || !((s.ctx? ctx).elim false (fun c => c.role = 2 && c.replicates)) then s else
    let f := s.frer ctx
    let total := f.curA + f.curB
    let a := if f.curA > 0 then false else if total ≥ 4 then true else f.silentA
    let b := if f.curB > 0 then false else if total ≥ 4 then true else f.silentB
    latentLine ctx .b f.silentB b (latentLine ctx .a f.silentA a (setFrer ctx (fun f =>
      { f with silentA := a, silentB := b, fromA := f.curA, fromB := f.curB, curA := 0, curB := 0 }) s)))

end Sys2Proof.Machine
end

