-- ==== Sys2Proof/Machine/SwitchOps.lean ====
section
/-! DEFINITION. Shared operations of the Harness switch: forwarding a classified frame (stages 4 to 9 of R168), gates (R192 to R197),
pause thresholds (R236), tables loaded from the tack image. -/
namespace Sys2Proof.Machine

/-! ## Rates and gates -/

/-- A RATE code in Mbit/s (R276). -/
def rateMbps (r : Nat) : Nat :=
  match r with
  | 0 => 10 | 1 => 100 | 2 => 1000 | 3 => 2500 | 4 => 5000 | 5 => 10000 | _ => 1

/-- Preemption is active on a port (R225). -/
def State.preempts (s : State) (p : Nat) : Bool :=
  let m := s.mac p
  let c := s.macCfg p
  p < 14 && c.mmEnable && m.link && (!c.mmVerify || decide (m.mm = .succeeded))

/-- MACsec overhead in bytes of frames sent on a port (R205): 24 without SCI and 32 with it, while an SA is in use. -/
def State.secOverhead (s : State) (p : Nat) : Nat :=
  if p < 4 && (s.sw.macsec.getD p {}).st = 2 then (if s.param 6 28 p 0 = 1 then 32 else 24) else 0

/-- Transmission time in ns that gate eligibility counts (R195). -/
def State.gateTime (s : State) (p c : Nat) (q : QFrame) : Nat :=
  let whole := q.len + s.secOverhead p
  let bytes := if !s.express c && s.preempts p then min whole (64 * (1 + (s.macCfg p).addFrag)) else whole
  bytes * 8 * 1000 / rateMbps (s.mac p).rate

/-- Fields of a gate entry (R192). -/
def gateOp (e : Word) : Nat := bits e.toNat 31 30
def gateMask (e : Word) : BitVec 8 := BitVec.ofNat 8 (bits e.toNat 29 22)
def gateNs (e : Word) : Nat := bits e.toNat 21 0 * 8

/-- The gate states of one cycle as (mask, ns), cut off at the cycle's end or prolonged to it (R193). -/
def GateList.spans (g : GateList) : List (BitVec 8 × Nat) :=
  let r := g.entries.foldl (fun (a : List (BitVec 8 × Nat) × Nat) e =>
    let d := min (gateNs e) (g.cycle - a.2)
    (if d = 0 then a.1 else a.1 ++ [(gateMask e, d)], a.2 + d)) ([], 0)
  match r.1.getLast? with
  | some l => if r.2 < g.cycle then r.1.dropLast ++ [(l.1, l.2 + (g.cycle - r.2))] else r.1
  | none => []

/-- The longest run in ns, over two cycles, in which a class's gate has a state; none where it always has it. -/
def GateList.longest (g : GateList) (c : Nat) (st : Bool) : Option Nat :=
  let sp := g.spans
  if sp.all (fun x => x.1.getLsbD c = st) then none
  else
    let r := (sp ++ sp).foldl (fun (a : Nat × Nat) x =>
      let run := if x.1.getLsbD c = st then a.1 + x.2 else 0
      (run, max a.2 run)) (0, 0)
    some r.2

/-- Why a list is rejected (R197): 1 a reserved OP, 2 an INTERVAL below 8, 3 TC7 closed for more than 125 µs; 0 accepted. -/
def GateList.fault (g : GateList) : Nat :=
  if g.entries.any (fun e => gateOp e = 3) then 1
  else if g.entries.any (fun e => bits e.toNat 21 0 < 8) then 2
  else match g.longest 7 false with
    | none => if g.spans.isEmpty then 0 else 3
    | some n => if n > 125000 then 3 else 0

/-- A port's gates. -/
def State.gate (s : State) (p : Nat) : Gate := s.sw.gates.getD p {}

/-- Change a port's gates. -/
def setGate (p : Nat) (f : Gate → Gate) (s : State) : State := { s with sw := { s.sw with gates := s.sw.gates.modify p f } }

/-- A frame fits some open interval of its class in the current list (R195). -/
def State.fitsGate (s : State) (p c : Nat) (q : QFrame) : Bool :=
  match (s.gate p).oper with
  | none => true
  | some g => match g.longest c true with
    | none => true
    | some n => s.gateTime p c q ≤ n

/-- Frames at the heads of a port's queues that fit no open interval are dropped as GATE_OVERSIZE (R195). -/
def settleHeads (p : Nat) (s : State) : State :=
  (List.range 8).foldl (fun s c =>
    (s.queue p c).foldl (fun s _ =>
      match s.queue p c with
      | [] => s
      | q :: rest =>
        if s.fitsGate p c q then s
        else raise .harness 2 (count (statPort p 41) (dropQueued p q (setQueue p c rest s)))) s) s

/-- Put a frame into a port's queue: tail drop at admission, then the gate rule at the head (R188, R195). -/
def letIn (p c : Nat) (q : QFrame) (s : State) : State := settleHeads p (enqueue p c q s)

/-! ## Pause thresholds -/

/-- Cells held by frames received on a port, each frame once (R236). -/
def State.occupancy (s : State) (p : Nat) : Nat :=
  let qs := (s.sw.queues.flatMap (fun e => e.2)).filter (fun q => q.inPort = p)
  let ws := (s.rx.flatMap (fun r => r.waiting)).filter (fun w => w.port = p)
  let all := qs.map (fun q => (q.uid, q.cells)) ++ ws.map (fun w => (w.uid, w.cells))
  sumOf (all.eraseDups.map Prod.snd)

/-- Cells of a threshold in KiB. -/
def cellsOfKib (n : Nat) : Nat := n * 4

/-- The MAC sends a pause frame with a pause time (R236). -/
def sendPause (p quanta : Nat) (s : State) : State :=
  let f : Frame := { da := 0x0180C2000001#48, sa := s.portMac p, vlan := none, rtag := none, etype := 0x8808
                     payload := be 2 1 ++ be 2 quanta ++ zeros 42 }
  emit (.frame p f false) (count (statPort p 19) (count (statPort p 14) (countN (statPort p 15) 64 (count (statPort p 17) s))))

/-- XOFF and XON of a port whose PAUSE_TX is On (R236). -/
def pauseCheck (p : Nat) (s : State) : State :=
  let c := s.macCfg p
  if 15 ≤ p || !c.pauseTx || !(s.mac p).link then s
  else if !(s.mac p).xoffSent && decide (cellsOfKib c.xoffKiB < s.occupancy p) then
    sendPause p 0xFFFF (setMac p (fun m => { m with xoffSent := true }) s)
  else if (s.mac p).xoffSent && decide (s.occupancy p ≤ cellsOfKib c.xonKiB) then
    sendPause p 0 (setMac p (fun m => { m with xoffSent := false }) s)
  else s

/-! ## Forwarding -/

/-- A frame joins one egress (stage 8 and 9). True where it was admitted. -/
def sendEgress (x : Fwd) (keepR : Bool) (e : Egress) (s : State) : Bool × State :=
  match e with
  | .peer l d => (true, sendPeer l d (x.handle.getD 0xFFFF) (s.tagFor 0 x.vid x.pcp x.dei keepR x.frame) s)
  | .port p =>
    if p = 15 then
      let r := toLocal x keepR none p s
      (r.1 || s.unitTakes x.handle x.frame, r.2)
    else
      let g := match x.origin with | .stream _ => { x.frame with sa := s.portMac p } | _ => x.frame
      let f := s.tagFor p x.vid x.pcp x.dei keepR g
      let q := { s.mkQ f x.origin with cells := x.cells, handle := x.handle, inPort := x.inPort }
      (s.admits p x.cls x.cells, letIn p x.cls q s)

/-- A frame joins every egress of a list, under one frame number; whether any admitted it. -/
def sendAll (x : Fwd) (keepR : Bool) (es : List Egress) (s : State) : Bool × State :=
  let r := es.foldl (fun (a : Bool × State) e => let r := sendEgress x keepR e a.2; (a.1 || r.1, r.2)) (false, s)
  (r.1, bumpUid r.2)

/-- Stage 6 drops: directions without an egress, and a frame with no egress at all (R168, R182). -/
def countEgress (p down : Nat) (any_ : Bool) (s : State) : State :=
  if down = 0 && !any_ then count (statPort p 32) s else countN (statPort p 42) down s

/-- A non-replicated frame (R182). -/
def forwardPlain (x : Fwd) (inLine : Option Line) (inDir : Option Nat) (s : State) : Bool × State :=
  let r := s.egressSet x.inPort x.vid inLine inDir x.frame.da
  sendAll x true r.1 (countEgress x.inPort r.2 (!r.1.isEmpty) s)

/-- A replicated frame received on a backbone port: onward on its line, and to local egresses through its recovery context (R200,
R201); in Span the peer's recovery context sees it too (R213). -/
def forwardReplicated (x : Fwd) (err : Option Nat) (s : State) : State :=
  let r := s.replicatedSet x.inPort x.vid x.frame.da
  let s0 := (sendAll x true r.1 (countEgress x.inPort r.2.2 (!r.1.isEmpty || !r.2.1.isEmpty) s)).2
  let s1 := match x.handle with
    | some n => if s.node.form = .span && n < 2048 then sendPeer x.line 0 n (s.tagFor 0 x.vid x.pcp x.dei true x.frame) s0 else s0
    | none => s0
  let plain (s : State) : State :=
    let s2 := (sendAll x true (r.2.1.map .port) s).2
    if r.2.1.contains 15 then unitParity x err s2 else s2
  if r.2.1.isEmpty then s1
  else match x.handle with
    | some n => if n < 2048 then frerOffer n x err s1 else plain s1
    | none => plain s1

/-- The lines on which this chip sends a node's replicated frame: in Troika its own, else both (R213, R431). -/
def State.sendsLine (s : State) (l : Line) : Bool := s.node.form ≠ .troika || s.usesLine l

/-- The copies of a frame that this node replicates (R199, R288): one per line and direction, and one for each local egress. True where a
copy was admitted. -/
def publishCopies (x : Fwd) (stripLocal : Bool) (s : State) : Bool × State :=
  let t := s.publishSet x.inPort x.vid x.frame.da
  let r := (t.1.filter (fun ld => s.sendsLine ld.1)).foldl (fun (a : Bool × State) ld => match a.2.lineEgress ld.1 ld.2 with
    | some e => let r := sendAll x true [e] a.2; (a.1 || r.1, r.2)
    | none => (a.1, count (statPort (portOf ld.1 ld.2) 42) a.2)) (false, s)
  let l := sendAll x (!stripLocal) ((t.2.filter (fun p => p ≠ 15 || x.inPort ≠ 15)).map .port) r.2
  (r.1 || l.1, l.2)

/-- The next sequence number of a context's generator (R199, R288). -/
def State.nextSeqOf (s : State) (n : Nat) : Half := (s.ctx? n).elim 0 (fun c => c.seqGen)

/-- Change a stream context. -/
def setCtx (n : Nat) (f : StreamCtx → StreamCtx) (s : State) : State :=
  { s with stream := { s.stream with ctxs := Store.upd s.stream.ctxs n f } }

/-- Advance a context's generator, both copies. -/
def bumpSeq (n : Nat) (s : State) : State := setCtx n (fun c => { c with seqGen := c.seqGen + 1, seqTwin := c.seqGen + 1 }) s

/-- Stages 6 to 9 for a frame from a consist port or MG0 whose entry has SPLIT set (R199). -/
def forwardSplit (x : Fwd) (ctx : Nat) (s : State) : State :=
  (publishCopies { x with frame := { x.frame with rtag := some (s.nextSeqOf ctx) } } false (bumpSeq ctx s)).2

/-! ## Learning (R175 to R177) -/

/-- Learn a source address on a port. -/
def learn (p vid : Nat) (f : Frame) (s : State) : State :=
  if isGroup f.sa || !s.learns p then s else
  let d := destOfPort p
  match s.fdbFind f.sa vid with
  | some e =>
    if e.static || e.locked then s
    else
      let put := fun (x : FdbEntry) => if decide (x.mac = f.sa) && x.vid = vid then { x with dest := d, seen := s.now } else x
      let s1 := { s with sw := { s.sw with fdb := s.sw.fdb.map put } }
      if e.dest = d then s1 else count (statPort p 45) s1
  | none =>
    if 4 ≤ (s.bucketOf f.sa vid).length then
      raise .harness 1 (logEvent 0x0501 sevWarning (le 2 (fdbBucket f.sa vid) ++ macBytes f.sa ++ le 2 vid)
        (count (statPort p 46) s))
    else { s with sw := { s.sw with fdb := s.sw.fdb ++
      [{ mac := f.sa, vid := vid, dest := d, static := false, drop := false, locked := false, mask := 0, seen := s.now }] } }

/-- Remove learned entries that a test selects (R178). -/
def unlearn (p : FdbEntry → Bool) (s : State) : State :=
  { s with sw := { s.sw with fdb := s.sw.fdb.filter (fun e => e.static || !p e) } }

/-! ## Filters and meters (R198) -/

/-- Stage 5: what the stream filter and its meter make of a frame: dropped, or forwarded with DEI as it becomes. -/
def police (x : Fwd) (colour : Colour) (s : State) : Option Bool × State :=
  match s.filterFor x.handle x.pcp with
  | none => (some x.dei, s)
  | some (i, fl) =>
    if s.reloading 5 i then (some x.dei, s)
    else if fl.blockOn && fl.blocked then (none, count (statPort x.inPort 30) s)
    else if fl.maxSdu ≠ 0 && decide (fl.maxSdu < x.frame.payload.length) then
      let s1 := count (statPort x.inPort 30) s
      if fl.blockOn then
        (none, raise .harness 3 (logEvent 0x0504 sevWarning (le 2 i ++ le 2 (x.handle.getD 0xFFFF))
          { s1 with sw := { s1.sw with filters := Store.upd s1.sw.filters i (fun f => { f with blocked := true }) } }))
      else (none, s1)
    else match fl.meter with
      | none => (some x.dei, s)
      | some m =>
        match Store.find s.sw.meters m with
        | none => (some x.dei, s)
        | some mt =>
          if s.reloading 6 m then (some x.dei, s)
          else if mt.markRed && mt.red then (none, count (statPort x.inPort 31) s)
          else match colour with
            | .green => (some x.dei, s)
            | .yellow => if mt.dropY then (none, count (statPort x.inPort 31) s) else (some true, s)
            | .red =>
              let s1 := count (statPort x.inPort 31) s
              (none, if mt.markRed then
                { s1 with sw := { s1.sw with meters := Store.upd s1.sw.meters m (fun y => { y with red := true }) } } else s1)

/-! ## Tables from the tack image (R608) -/

/-- A VLAN record. -/
def vlanOf (b : List Byte) : Nat × VlanRow :=
  (fLe b 0 2, { member := BitVec.ofNat 16 (fLe b 2 2), untag := BitVec.ofNat 16 (fLe b 4 2) })

/-- An address entry record (R218). -/
def fdbOf (b : List Byte) (now : Nat) : FdbEntry :=
  { mac := BitVec.ofNat 48 (fBe b 0 6), vid := fLe b 6 2 % 4096, dest := fLe b 8 1, static := bit (fLe b 9 1) 0
    drop := bit (fLe b 9 1) 1, locked := bit (fLe b 9 1) 2, mask := BitVec.ofNat 16 (fLe b 10 2), seen := now }

/-- The n-byte records of a section. -/
def records (b : List Byte) (n : Nat) : List (List Byte) := (List.range (b.length / n)).map (fun i => recordAt b n i)

/-- A filter's 24 value bytes (log entry 21): handle (0xFFFF ANY), PCP (0xFF ANY), BLOCK_OVERSIZE, maximum SDU, meter (0xFFFF
none). -/
def filterOf (v : List Byte) : PsFilter :=
  { handle := if fLe v 0 2 = 0xFFFF then none else some (fLe v 0 2)
    pcp := if fLe v 2 1 = 0xFF then none else some (fLe v 2 1)
    maxSdu := fLe v 4 4
    meter := if fLe v 8 2 = 0xFFFF then none else some (fLe v 8 2)
    blockOn := bit (fLe v 10 1) 0
    blocked := false }

/-- A meter's 24 value bytes (log entry 21): CIR, EIR, CBS, EBS, flags. -/
def meterOf (v : List Byte) : PsMeter :=
  { cir := fLe v 0 4, eir := fLe v 4 4, cbs := fLe v 8 4, ebs := fLe v 12 4, coupl := bit (fLe v 16 1) 0
    dropY := bit (fLe v 16 1) 1, markRed := bit (fLe v 16 1) 2, red := false }

/-- A gate list from its 32-byte header and entries (R219). -/
def gateListOf (h es : List Byte) (changed : Nat) : GateList :=
  { entries := (List.range (es.length / 4)).map (fun i => BitVec.ofNat 32 (fLe es (4 * i) 4))
    base := ttOf (slice h 4 12), cycle := fLe h 16 4, ext := fLe h 20 4, epoch := BitVec.ofNat 16 (fLe h 24 2), changed := changed }

/-- The lists of a GATE section, one after another: port and list. -/
def gateLists : Nat → List Byte → List (Nat × GateList)
  | 0, _ => []
  | fuel + 1, b =>
    if b.length < 32 then []
    else
      let n := fLe b 2 2
      (fLe b 0 1, gateListOf (b.take 32) (slice b 32 (4 * n)) 0) :: gateLists fuel (b.drop (32 + 4 * n))

/-- The first cycle start of a list at or after a train time. -/
def GateList.cycleFrom (g : GateList) (t : Nat) : Nat :=
  let c := max 1 g.cycle * ttNs
  if t ≤ g.base then g.base - (g.base - t) / c * c
  else g.base + (t - g.base + c - 1) / c * c

/-- Load the switch's tables from the active image: VLAN, static addresses, filters, meters; gate lists start at their first cycle start;
what PORT commands have set is lost (R170, R179, R194, R198, R217, R224). -/
def loadSwitch (s : State) : State :=
  let ps := records (s.sectionOf 0x0C 0) 28
  let start (e : Nat × GateList) : Nat := e.2.cycleFrom s.trainNow
  let lists := gateLists 64 (s.sectionOf 0x0A 0)
  { s with macs := s.macs.map (fun m => { m with cfg := none }), sw := { s.sw with
      vlan := (records (s.sectionOf 0x08 0) 8).foldl (fun m b => Store.ins m (vlanOf b).1 (vlanOf b).2) []
      fdb := (records (s.sectionOf 0x09 0) 16).map (fun b => { fdbOf b s.now with static := true })
      filters := (ps.filter (fun b => fLe b 0 1 = 0)).foldl (fun m b => Store.ins m (fLe b 2 2) (filterOf (b.drop 4))) []
      meters := (ps.filter (fun b => fLe b 0 1 = 1)).foldl (fun m b => Store.ins m (fLe b 2 2) (meterOf (b.drop 4))) []
      quotas := []
      noFwd := 0
      gates := (List.range 15).map (fun p => match lists.find? (fun e => e.1 = p) with
        | some e => { pend := some (some { e.2 with changed := start e }, start e) }
        | none => {})
      frer := []
      reloads := [] } }

end Sys2Proof.Machine
end

