-- ==== Sys2Proof/Machine/StreamOps.lean ====
section
/-! DEFINITION. Shared operations of the Stream unit: contexts and their bindings (R282 to R293), snapshots and launches (R285 to R289),
acceptance and safe policy (R294 to R301). -/
namespace Sys2Proof.Machine

/-! ## Fields of a record (R282) -/

/-- Fields that a context's record holds. -/
def StreamCtx.pcp (c : StreamCtx) : Nat := c.f 1 1 % 8
def StreamCtx.lineMode (c : StreamCtx) : Nat := c.f 4 1
def StreamCtx.targetPos (c : StreamCtx) : Nat := c.f 6 1
def StreamCtx.srcKind (c : StreamCtx) : Nat := c.f 7 1
def StreamCtx.groupMac (c : StreamCtx) : Mac := BitVec.ofNat 48 (fBe c.record 8 6)
def StreamCtx.func (c : StreamCtx) : Nat := c.f 14 2
def StreamCtx.srcNid (c : StreamCtx) : Nid := BitVec.ofNat 64 (c.f 16 8)
def StreamCtx.srcPos (c : StreamCtx) : Nat := c.f 24 1
def StreamCtx.hostSource (c : StreamCtx) : Bool := c.role = 1 && c.f 25 1 = 1
def StreamCtx.toTask (c : StreamCtx) : Bool := c.role = 2 && bit (c.f 25 1) 0
def StreamCtx.toHost (c : StreamCtx) : Bool := c.role = 2 && bit (c.f 25 1) 1
def StreamCtx.payLen (c : StreamCtx) : Nat := c.f 28 2
def StreamCtx.periodNs (c : StreamCtx) : Nat := c.f 30 2 * 250000
def StreamCtx.offsetNs (c : StreamCtx) : Nat := c.f 32 4
/-- FRESH_TIMEOUT in ticks: units of 250 µs. -/
def StreamCtx.freshTicks (c : StreamCtx) : Nat := c.f 36 2 * 250 * ticksPerUs
def StreamCtx.policy (c : StreamCtx) : Nat := c.f 38 1
def StreamCtx.recover (c : StreamCtx) : Nat := if c.f 40 1 = 0 then 1 else c.f 40 1
def StreamCtx.imageRef (c : StreamCtx) : Nat := c.f 48 4

/-- The entries of a SAFE section (R608). -/
def safeEntries : Nat → List Byte → List (List Byte)
  | 0, _ => []
  | fuel + 1, b =>
    if b.length < 4 then [] else
    let n := fLe b 0 4
    slice b 4 n :: safeEntries fuel (b.drop ((4 + n + 7) / 8 * 8))

/-- The safe value of a context, zeros under ZERO or where it has none (R295, R296). -/
def State.safeValue (s : State) (c : StreamCtx) : List Byte :=
  let v := ((safeEntries 2048 (s.sectionOf 0x0F 0))[c.f 46 2]?).getD (zeros c.payLen)
  if c.role = 2 && c.policy = 2 then zeros c.payLen else v

/-! ## Bindings (R290 to R293) -/

/-- The node at a position of the committed chain, 0 for none. -/
def Hitch.nidAt (h : Hitch) (pos : Nat) : Nid :=
  if h.gen = 0 ∨ pos = 0 then 0 else ((h.chain[pos - 1]?).map CNode.nid).getD 0

/-- The resolved destination address (R290). -/
def State.ctxDa (s : State) (c : StreamCtx) : Mac :=
  if !c.positional then c.groupMac
  else (c.groupMac &&& ~~~ 0x3F#48) ||| BitVec.ofNat 48 ((if c.role = 1 then c.targetPos else s.hitch.position) % 64)

/-- The expected source, 0 for ANY (R290). -/
def State.ctxSrc (s : State) (c : StreamCtx) : Nid :=
  if c.role ≠ 2 then 0 else if c.srcKind = 1 then c.srcNid else if c.srcKind = 2 then s.hitch.nidAt c.srcPos else 0

/-- Selected train time now as a cycle start (R280). -/
def State.startNow (s : State) : CycleStart :=
  { sec := s.trainNow / ttSec % 2 ^ 32, ns := s.trainNow % ttSec / ttNs, epoch := s.time.epoch }

/-- A cycle start later than another of its epoch, in serial-number arithmetic (R294). -/
def CycleStart.later (a b : CycleStart) : Bool :=
  let d := (a.sec + 2 ^ 32 - b.sec % 2 ^ 32) % 2 ^ 32
  (decide (1 ≤ d) && decide (d < 2 ^ 31)) || (d = 0 && decide (b.ns < a.ns))

/-- A cycle started before another instant: earlier in its epoch, or in an epoch before. -/
def CycleStart.before (a b : CycleStart) : Bool :=
  if a.epoch = b.epoch then b.later a else decide (signed 16 (b.epoch - a.epoch).toNat > 0)

/-- A context made inactive: NONE, with its activation image (R295, R299). -/
def StreamCtx.idle (c : StreamCtx) (image : List Byte) : StreamCtx :=
  { c with fresh := .none, run := 0, acc := none, image := image, hdr := none, cand := [], holding := false, payBad := false }

/-- A context activated now: bindings resolved, generator at 0, no payload of the host, ACTIVE_FROM (R288, R293, R295, R596). -/
def State.activated (s : State) (c : StreamCtx) : StreamCtx :=
  { c.idle (s.safeValue c) with
    da := s.ctxDa c, src := s.ctxSrc c, since := s.startNow, sinceTick := s.now, seqGen := 0, seqTwin := 0, put := none
    putNew := false, seenOut := 0, reloading := false, reloaded := false, suspended := false, launches := [] }

/-- The record of context n in the committed image. -/
def State.tackRecord (s : State) (n : Nat) : List Byte := recordAt (s.sectionOf 0x0E 0) 64 n

/-- IMAGE_REF names a stream block of a placeable task: the context follows the task, and its FLAGS.ENABLE is ignored (R367). -/
def State.placedCtx (s : State) (c : StreamCtx) : Bool :=
  (c.toTask || (c.role = 1 && !c.hostSource)) && s.ctl.tasks.any (fun e => bit (fLe e.2.desc 1 1) 1 && (match Config.taskObj e.2.obj with
    | some o => o.blocks.any (fun b => b.kind = .stream && b.sym = c.imageRef && b.out = decide (c.role = 1))
    | none => false))

/-- Contexts as the committed image gives them, activated (R293, R306). -/
def loadStreams (s : State) : State :=
  let n := (s.sectionOf 0x0E 0).length / 64
  let recs := ((List.range n).map (fun i => (i, s.tackRecord i))).filter (fun e => fLe e.2 0 1 ≠ 0)
  { s with stream := { ctxs := recs.map (fun e =>
      (e.1, s.activated { record := e.2, enabled := bit (fLe e.2 52 4) 0 && !s.placedCtx { record := e.2, enabled := false } })), grace := false } }

/-- Contexts activated again on wake from STABLED, with the records in force (R148, R293). -/
def reactivateStreams (s : State) : State :=
  { s with stream := { ctxs := s.stream.ctxs.map (fun e => (e.1, s.activated e.2)), grace := false } }

/-- Outside READY, RUN, DEGRADED and SAFE every context is NONE and nothing is queued (R287, R299). -/
def stopStreams (s : State) : State :=
  { s with stream := { ctxs := s.stream.ctxs.map (fun e => (e.1, { e.2.idle (s.safeValue e.2) with launches := [] })), grace := false } }

/-- Frames of a context that wait in an egress queue. -/
def State.queuedOf (s : State) (n : Nat) : Nat :=
  sumOf (s.sw.queues.map (fun e => e.2.countP (fun q => decide (q.origin = .stream n))))

/-- An image of a context is discarded under R291: counted, logged and raised. -/
def staleGen (n k : Nat) (s : State) : State :=
  if k = 0 then s else
  let pos := (s.ctx? n).elim 0 StreamCtx.targetPos
  raise .stream 3 (logEvent 0x0603 sevNotice (le 2 n ++ [byte pos] ++ wordBytes s.hitch.gen) (countN (statStream 3) k
    (setCtx n (fun c => { c with countDrop := min 0xFFFFFFFF (c.countDrop + k) }) s)))

/-- Withdraw what a context has queued and not sent (R291). -/
def withdraw (n : Nat) (s : State) : State :=
  let k := (s.ctx? n).elim 0 (fun c => c.launches.length) + s.queuedOf n
  let s1 := { s with sw := { s.sw with queues :=
      (s.sw.queues.map (fun e => (e.1, e.2.filter (fun q => decide (q.origin ≠ .stream n))))).filter (fun e => !e.2.isEmpty) } }
  staleGen n k (setCtx n (fun c => { c with launches := [] }) s1)

/-- Re-bind one publisher at a switch: old is the hitch state before it (R291, 3 to 5). -/
def rebindPublisher (old : Hitch) (n : Nat) (c : StreamCtx) (s : State) : State :=
  let was := old.nidAt c.targetPos
  let is := s.hitch.nidAt c.targetPos
  let s1 := setCtx n (fun c => { c with beyond := decide (s.hitch.nodes < c.targetPos)
                                        minCycle := if is ≠ 0 ∧ is ≠ was then some s.startNow else c.minCycle }) s
  if was ≠ is then withdraw n s1 else s1

/-- Re-bind one subscriber at a switch: addresses, expected source, ACTIVE_FROM (R290, R292, R293). -/
def rebindSubscriber (old : Hitch) (n : Nat) (c : StreamCtx) (s : State) : State :=
  let src := s.ctxSrc c
  let who := if src ≠ 0 then some src else if c.srcKind = 0 then c.acc.map StreamHdr.nid else none
  let absent := match who with
    | some w => !(old.chain.any (fun x => x.nid = w && !x.absent))
    | none => false
  setCtx n (fun c => { c with
    da := s.ctxDa c, src := src, grace := if c.srcKind = 2 then some c.src else none
    since := if absent then s.startNow else c.since, sinceTick := if absent then s.now else c.sinceTick }) s

/-- A subscriber in conflict with an enabled one of lower index is suspended; a suspended one without conflict is activated anew
(R291, 6). -/
def checkConflict (n : Nat) (s : State) : State :=
  match s.ctx? n with
  | none => s
  | some c =>
    if c.role ≠ 2 || !c.enabled then s else
    match s.stream.ctxs.find? (fun e => e.1 < n && e.2.role = 2 && e.2.enabled && decide (e.2.da = c.da) && e.2.vid = c.vid) with
    | some e =>
      if c.suspended then s else
      raise .stream 4 (logEvent 0x0604 sevError (le 2 n ++ le 2 e.1 ++ macBytes c.da) (count (statStream 11)
        (setCtx n (fun c => { c.idle (s.safeValue c) with suspended := true }) s)))
    | none => if c.suspended then setCtx n (fun c => s.activated c) s else s

/-- The Stream unit's part of a switch (R291 to R293). -/
def rebindStreams (old : Hitch) (s : State) : State :=
  let s1 := s.stream.ctxs.foldl (fun s e =>
    if e.2.role = 1 && e.2.positional then rebindPublisher old e.1 e.2 s
    else if e.2.role = 2 then rebindSubscriber old e.1 e.2 s else s) s
  let s2 := s.stream.ctxs.foldl (fun s e => checkConflict e.1 s) s1
  streamInhibit { s2 with stream := { s2.stream with grace := true } }

/-! ## Publishing (R285 to R289) -/

/-- The chip publishes its node's streams in this state (R287, R431): SAFE only those of SOURCE HOST. -/
def State.publishes (s : State) (c : StreamCtx) : Bool :=
  c.enabled && c.role = 1 && s.node.active && !(s.node.form = .troika && decide (2 ≤ s.node.chipIndex))
    && (s.node.state.running || (s.node.state = .safe && c.hostSource))

/-- The task block of a symbol identifier in a direction (R320). -/
def State.taskBlock (s : State) (sym : Nat) (out : Bool) : Option (Nat × Task × ObjBlock) :=
  s.ctl.tasks.findSome? (fun e => match Config.taskObj e.2.obj with
    | some o => (o.blocks.find? (fun b => b.sym = sym && b.out = out && b.kind = .stream)).map (fun b => (e.1, e.2, b))
    | none => none)

/-- An image to publish: payload, header flags, the start of the cycle it comes from. -/
structure PubImage where
  data  : List Byte
  flags : Nat
  start : CycleStart

/-- The image of a context's snapshot (R285, R596): none before a task's first committed image. -/
def State.pubImage (s : State) (c : StreamCtx) : Option PubImage :=
  if c.hostSource then
    let p := max 1 (c.periodNs * ttNs)
    let t := s.trainNow / p * p
    some { data := c.put.getD (s.safeValue c), flags := flag (!c.putNew) 1 + 4
           start := { sec := t / ttSec % 2 ^ 32, ns := t % ttSec / ttNs, epoch := s.time.epoch } }
  else match s.taskBlock c.imageRef true with
    | some (_, t, b) =>
      if t.outs = 0 then none
      else some { data := slice t.output b.off b.len, flags := b01 t.outHeld + flag (t.outs = c.seenOut) 1, start := t.outStart }
    | none => none

/-- The next publication instant of a context: the first at OFFSET of a period not before now (R285). -/
def State.publication (s : State) (c : StreamCtx) : Nat :=
  let p := max 1 (c.periodNs * ttNs)
  let o := c.offsetNs * ttNs
  let t := s.trainNow
  o + (t - o + p - 1) / p * p

/-- The stream frame of a context (R280, R289). -/
def State.streamFrame (s : State) (c : StreamCtx) (et : Nat) (im : PubImage) : Frame :=
  { da := c.da, sa := 0, vlan := some { pcp := c.pcp, dei := false, vid := c.vid }
    rtag := if c.replicates then some c.seqGen else none, etype := et
    payload := streamHeader im.flags c.func s.node.nid s.hitch.gen im.start.epoch im.data.length im.start.sec im.start.ns ++ im.data }

/-- The preferred line of a context that does not REPLICATE (R289). -/
def StreamCtx.preferred (c : StreamCtx) : Option Line :=
  if c.replicates then none else if c.lineMode = 2 ∨ (c.lineMode = 3 ∧ c.wrB) then some .b else some .a

/-- A parity error in the Stream unit is counted, logged (1 record, 2 payload) and raised (R301). -/
def ctxParity (n kind : Nat) (s : State) : State :=
  raise .stream 5 (logEvent 0x0606 sevError (le 2 n ++ [byte kind]) (count (statStream 10) s))

/-- A snapshot that sends nothing is skipped (R301). -/
def skipSnapshot (n : Nat) (s : State) : State :=
  count (statStream 4) (setCtx n (fun c => { c with countDrop := min 0xFFFFFFFF (c.countDrop + 1) }) s)

/-- The snapshot proper: the frame is built and queued for its launch, or withheld under R291. -/
def snapshot (n : Nat) (c : StreamCtx) (s : State) : State :=
  match s.streamEtype, s.pubImage c with
  | some et, some im =>
    let seen := match s.taskBlock c.imageRef true with | some (_, t, _) => t.outs | none => c.seenOut
    let s1 := setCtx n (fun c => { c with putNew := false, seenOut := if c.hostSource then c.seenOut else seen }) s
    if c.beyond then staleGen n 1 s1
    else if (match c.minCycle with | some m => im.start.before m | none => false) then staleGen n 1 s1
    else setCtx n (fun x => { x with minCycle := none, launches := x.launches ++
      [{ tick := (s.toTicks (s.publication c)).1, frame := s.streamFrame c et im, pref := c.preferred }] }) s1
  | _, _ => s

/-- The lines a copy leaves on for a direction: the preferred one, else the other (R289). -/
def State.preferEgress (s : State) (l : Line) (d : Nat) : Option (Line × Egress) :=
  let o := otherLine l
  match (if s.sendsLine l then s.lineEgress l d else none) with
  | some e => some (l, e)
  | none =>
    (if s.sendsLine o then s.lineEgress o d else none).map (fun e => (o, e))

/-- Send a publication at its launch (R288, R289). True where a copy was admitted; the line code for STREAM_STATUS. -/
def sendPublication (n : Nat) (c : StreamCtx) (l : StreamLaunch) (s : State) : State :=
  let x : Fwd := { frame := l.frame, len := frameLen l.frame, inPort := 15, line := .a, vid := c.vid, pcp := c.pcp, dei := false
                   cls := s.classOf c.pcp, handle := some n, stamp := { tick := s.now, frac := 0 }, origin := .stream n }
  let done (line : Nat) (s : State) : State :=
    count (statStream 0) (setCtx n (fun c => { c with
      countOk := min 0xFFFFFFFF (c.countOk + 1), lastLine := line, lastGen := s.hitch.gen, lastTick := s.now }) s)
  match l.pref with
  | none => done 2 (publishCopies x c.strip s).2
  | some pl =>
    let t := s.publishSet 15 c.vid l.frame.da
    let dirs := (t.1.map Prod.snd).eraseDups
    let r := dirs.foldl (fun (a : Nat × State) d => match a.2.preferEgress pl d with
      | some (ln, e) => (ln.code, (sendAll x true [e] a.2).2)
      | none => (a.1, count (statPort (portOf pl d) 42) a.2)) (pl.code, s)
    done r.1 (sendAll x true ((t.2.filter (· ≠ 15)).map .port) r.2).2

/-- LATE_ACTION and LAUNCH_LATE_TOL (R127): 0 DROP, 1 SEND; index 8 the streams. -/
def State.lateSends (s : State) (i : Nat) : Bool := s.param 5 19 i 0 = 1
def State.lateTolUs (s : State) : Nat := s.param 5 18 0xFFFF 1

/-- The launch of a context's oldest queued publication, lateNs after its instant (R137). -/
def launchStream (n lateNs : Nat) (s : State) : State :=
  match s.ctx? n with
  | none => s
  | some c =>
    match c.launches with
    | [] => s
    | l :: rest =>
      let s1 := setCtx n (fun c => { c with launches := rest }) s
      if lateNs ≤ s.lateTolUs * 1000 then sendPublication n c l s1
      else
        let s2 := logEvent 0x040D sevNotice (le 2 (0x8000 + n) ++ leInt 8 lateNs ++ [byte (if s.lateSends 8 then 2 else 1)]) s1
        if s.lateSends 8 then count (statStream 2) (sendPublication n c l s2)
        else count (statStream 1) (setCtx n (fun c => { c with countDrop := min 0xFFFFFFFF (c.countDrop + 1) }) s2)

/-! ## Subscribing (R294 to R301) -/

/-- The header of a stream frame. -/
def hdrOf (f : Frame) : StreamHdr :=
  { flags := fBe f.payload 1 1, seq := f.rtag, gen := BitVec.ofNat 32 (fBe f.payload 12 4), nid := BitVec.ofNat 64 (fBe f.payload 4 8)
    start := { sec := fBe f.payload 20 4, ns := fBe f.payload 24 4, epoch := BitVec.ofNat 16 (fBe f.payload 16 2) } }

/-- The format check (R294): VERSION, LEN, and the frame's length, padding of a minimum frame apart. -/
def formatOk (c : StreamCtx) (f : Frame) : Bool :=
  let n := c.payLen
  fBe f.payload 0 1 = 1 && fBe f.payload 18 2 = n
    && (f.payload.length = 32 + n || (decide (32 + n ≤ f.payload.length) && decide (f.payload.length ≤ 46)))

/-- The source check (R292, R294). -/
def State.sourceOk (s : State) (c : StreamCtx) (f : Frame) : Bool :=
  let h := hdrOf f
  if c.srcKind = 1 then fBe f.payload 2 2 = c.func && decide (h.nid = c.srcNid)
  else if c.srcKind = 2 then decide (h.nid = c.src) || (s.stream.grace && decide (c.grace = some h.nid))
  else true

/-- Which check a frame fails, by the index of its counter; none where it is accepted (R294). -/
def State.rejects (s : State) (c : StreamCtx) (f : Frame) : Option Nat :=
  let h := hdrOf f
  if !formatOk c f then some 6
  else if !s.sourceOk c f then some 7
  else if h.start.epoch = c.since.epoch && c.since.later h.start then some 8
  else if (match c.acc with | some a => a.start.epoch = h.start.epoch && !h.start.later a.start | none => false) then some 8
  else if !c.enabled || c.suspended then some 8
  else none

/-- A frame of a context is dropped under a counter; SOURCE_MISMATCH after 1 s without one (R294, R304, R305). -/
def dropSub (n k : Nat) (f : Frame) (s : State) : State :=
  let c := (s.ctx? n).getD { record := [], enabled := false }
  let s1 := count (statStream k) (setCtx n (fun c => { c with countDrop := min 0xFFFFFFFF (c.countDrop + 1) }) s)
  if k ≠ 7 then s1 else
  let s2 := setCtx n (fun c => { c with missTick := some s.now }) s1
  if (match c.missTick with | some t => decide (s.now < t + ticksPerSec) | none => false) then s2
  else raise .stream 2 (logEvent 0x0605 sevWarning (le 2 n ++ le 2 (fBe f.payload 2 2) ++ nidBytes (hdrOf f).nid) s2)

/-- An accepted frame updates freshness and, where it is to, the presented image (R295). -/
def acceptSub (n : Nat) (c : StreamCtx) (line : Line) (f : Frame) (s : State) : State :=
  let h := hdrOf f
  let pay := slice f.payload 32 c.payLen
  let run := if c.acc.isSome && decide (s.now < c.accTick + c.freshTicks) then c.run + 1 else 1
  let fresh := decide (c.fresh = .fresh) || c.payBad || decide (c.recover ≤ run)
  let s1 := count (statStream 5) (setCtx n (fun c => { c with
    run := run, acc := some h, accTick := s.now, countOk := min 0xFFFFFFFF (c.countOk + 1), lastLine := line.code, lastGen := h.gen
    lastTick := s.now, payBad := false
    cand := if fresh then [] else pay
    image := if fresh then pay else c.image
    hdr := if fresh then some h else c.hdr
    holding := if fresh then false else c.holding
    fresh := if fresh then .fresh else c.fresh }) s)
  if fresh && c.fresh ≠ .fresh then
    let ms := if c.fresh = .lost then (s.now - c.lostTick) / ticksPerMs else 0
    let s2 := logEvent 0x0602 sevInfo (le 2 n ++ nidBytes h.nid ++ le 4 ms) s1
    if c.fresh = .lost then raise .stream 1 s2 else s2
  else s1

/-- SAFE_POLICY at the transition to LOST (R296). -/
def State.lostImage (s : State) (c : StreamCtx) : StreamCtx :=
  match c.policy with
  | 0 => c
  | 3 => { c with holding := true }
  | 2 => { c with image := zeros c.payLen, hdr := none }
  | _ => { c with image := s.safeValue c, hdr := none }

/-- The state code of STREAM_STATUS (R308). -/
def StreamCtx.stateCode (c : StreamCtx) : Nat :=
  if !c.enabled then 3 else if c.suspended then 4 else if c.role = 2 then c.fresh.code else 0

/-! ## Changes by command (R306, R307) -/

/-- STREAM_PUT's effect. -/
def streamPut (n : Nat) (data : List Byte) (s : State) : State :=
  setCtx n (fun c => { c with put := some data, putNew := true }) s

/-- STREAM_LINE's effect. -/
def streamLine (n mode : Nat) (s : State) : State :=
  setCtx n (fun c => { c with record := putSlice c.record 4 [byte mode] }) s

/-- Enable or disable a context: activation, or NONE with the activation image. -/
def streamEnable (n : Nat) (on : Bool) (s : State) : State :=
  match s.ctx? n with
  | none => s
  | some c =>
    if c.enabled = on then s
    else if on then streamInhibit (setCtx n (fun c => { s.activated c with enabled := true }) s)
    else streamInhibit (setCtx n (fun c => { c.idle (s.safeValue c) with enabled := false, launches := [] }) s)

end Sys2Proof.Machine
end

