-- ==== Sys2Proof/Machine/BridgeOps.lean ====
section
/-! DEFINITION. Shared operations of the Saddlebag bridge (12_saddlebag_bridge.md): envelopes, sessions, export and import, tags, remote
reads, CAN transactions. -/
namespace Sys2Proof.Machine

/-! ## Parameters, addresses, envelopes (R494 to R499) -/

/-- Parameters of R494. -/
def State.readTimeout (s : State) : Nat := s.param 0x18 3 0xFFFF 20
def State.itemMaxAge (s : State) : Nat := s.param 0x18 4 0xFFFF 50
def State.txnBuffer (s : State) (ch : Nat) : Option Nat := s.param? 0x18 5 ch

/-- The bridge address of a node (R495). -/
def bridgeMac (n : Nid) : Mac := BitVec.ofNat 48 (2 * 2 ^ 40 + n.toNat % 2 ^ 40)

/-- A Saddlebag header (R497). -/
structure SbHdr where
  ver   : Nat := 1
  kind  : Nat
  flags : Nat
  items : Nat
  src   : Nid
  dst   : Nid
  srcF  : Nat
  dstF  : Nat
  gen   : Word
  seq   : Nat
  chip  : Nat
  deriving DecidableEq, Repr

/-- The header's 32 bytes. -/
def SbHdr.bytes (h : SbHdr) : List Byte :=
  [byte h.ver, byte h.kind, byte h.flags, byte h.items] ++ be 8 h.src.toNat ++ be 8 h.dst.toNat ++ be 2 h.srcF ++ be 2 h.dstF
    ++ be 4 h.gen.toNat ++ be 2 h.seq ++ [byte h.chip, 0]

/-- The header that bytes spell. -/
def sbHdrOf (b : List Byte) : SbHdr :=
  { ver := fBe b 0 1, kind := fBe b 1 1, flags := fBe b 2 1, items := fBe b 3 1, src := BitVec.ofNat 64 (fBe b 4 8)
    dst := BitVec.ofNat 64 (fBe b 12 8), srcF := fBe b 20 2, dstF := fBe b 22 2, gen := BitVec.ofNat 32 (fBe b 24 4)
    seq := fBe b 28 2, chip := fBe b 30 1 % 4 }

/-- Bytes padded with zeros to a multiple of 4. -/
def pad4 (b : List Byte) : List Byte := b ++ zeros ((4 - b.length % 4) % 4)

/-- A tunnel item (R499): kind, flags, DLC, address, stamp, data. -/
def itemBytes (kind flags dlc addr stamp : Nat) (data : List Byte) : List Byte :=
  [byte kind, byte flags, byte dlc, 0] ++ be 4 addr ++ be 8 stamp ++ be 2 data.length ++ [0, 0] ++ data

/-- A CAN frame as an item. -/
def canItem (m : CanMsg) : List Byte :=
  itemBytes 1 (b01 m.ide + flag m.rtr 1 + flag m.fdf 2 + flag m.brs 3 + flag m.esi 4 + flag m.ovr 5) m.dlc m.id m.sof (m.data.take m.len)

/-- The CAN message of an item. -/
def itemCan (b : List Byte) : CanMsg :=
  let f := fBe b 1 1
  { id := fBe b 4 4 % 2 ^ 29, ide := bit f 0, rtr := bit f 1, fdf := bit f 2, brs := bit f 3, dlc := fBe b 2 1 % 16
    data := slice b 20 (fBe b 16 2) }

/-- The first item of a body, unpadded, where it is one (R499). -/
def itemAt (b : List Byte) : Option (List Byte) :=
  let k := fBe b 0 1
  let f := fBe b 1 1
  let n := fBe b 16 2
  let flagsOk := if k = 1 then f / 64 = 0 else f = 32 ∨ f = 0
  let lenOk := if k = 1 then n = (if bit f 1 then 0 else dlcLen (bit f 2) (fBe b 2 1 % 16))
    else if k = 2 ∨ k = 3 then 2 ≤ n ∧ n ≤ 128 else 1 ≤ n ∧ n ≤ 256
  if 20 + n ≤ b.length ∧ 1 ≤ k ∧ k ≤ 5 ∧ flagsOk ∧ lenOk then some (b.take (20 + n)) else none

/-- The run of n items of a TUNNEL body, and what follows it. -/
def itemsOf : Nat → List Byte → Option (List (List Byte) × List Byte)
  | 0, b => some ([], b)
  | n + 1, b =>
    match itemAt b with
    | none => none
    | some i =>
      match itemsOf n (b.drop (pad4 i).length) with
      | some r => some (i :: r.1, r.2)
      | none => none

/-- The bytes after a frame's content are padding of a minimum frame only. -/
def tailOk (total : Nat) (rest : List Byte) : Bool := rest.isEmpty || decide (total ≤ 46)

/-- The checks of R498 on header and body. -/
def envelopeOk (b : List Byte) : Bool :=
  let h := sbHdrOf b
  let body := b.drop 32
  decide (32 ≤ b.length) && h.ver = 1 && h.flags / 8 = 0
    && (match h.kind with
      | 1 => inRange 1 64 h.items && (match itemsOf h.items body with | some r => tailOk b.length r.2 | none => false)
      | 2 => h.items = 1 && (if fBe body 0 1 = 5
          then (match itemAt (body.drop 24) with | some i => tailOk b.length (body.drop (24 + i.length)) | none => false)
          else decide (24 ≤ body.length) && tailOk b.length (body.drop 24))
      | 3 => h.items = 1 && decide (16 + fBe body 2 2 ≤ body.length) && tailOk b.length (body.drop (16 + fBe body 2 2))
      | _ => false)

/-- Send an envelope into the switch at port 15 (R495). -/
def sendEnvelope (h : SbHdr) (body : List Byte) (s : State) : State :=
  let f : Frame := { da := bridgeMac h.dst, sa := bridgeMac s.node.nid, vlan := some { pcp := 4, dei := false, vid := s.bridgeVid }
                     rtag := none, etype := s.bridgeEtype, payload := h.bytes ++ body }
  let x : Fwd := { frame := f, len := frameLen f, inPort := 15, line := .a, vid := s.bridgeVid, pcp := 4, dei := false
                   cls := s.classOf 4, handle := none, stamp := { tick := s.now, frac := 0 }, origin := .groom }
  (forwardPlain x none none s).2

/-- Header and body over the tug links, in segments of at most 1,020 bytes (R514). -/
def sendEnvTug (l : Nat) (c : TugChan) (b : List Byte) (s : State) : State :=
  let n := s.br.envNum
  (pieces 1020 (b.length / 1020 + 1) 0 b).foldl (fun s p =>
    tugSend l c 0 ([byte (flag (p.1 = 0) 0 + flag (p.1 + p.2.length = b.length) 1), 0] ++ be 2 n ++ p.2) s)
    { s with br := { s.br with envNum := (n + 1) % 65536 } }

/-- The bridge serves this node's sessions and requests here (R431, R514). -/
def State.bridgeOwner (s : State) : Bool := s.owner

/-- Parity: what 1 record, 2 queue, 3 tag, 4 cache; action the bullet of R516 taken. -/
def bridgeParity (what action : Nat) (s : State) : State :=
  raise .bridge 6 (logEvent 0x1006 sevError [byte what, byte action] (count (statBridge 20) s))

/-! ## Sessions (R500, R501) -/

/-- Fields of a session's record. -/
def Session.f (x : Session) (off n : Nat) : Nat := fLe x.record off n
def Session.medium (x : Session) : Nat := x.f 1 1
def Session.unit (x : Session) : Nat := x.f 2 1
def Session.exports (x : Session) : Bool := bit (x.f 3 1) 0
def Session.imports (x : Session) : Bool := bit (x.f 3 1) 1
def Session.position (x : Session) : Bool := x.f 16 1 = 1
def Session.inOrder (x : Session) : Bool := bit (x.f 19 1) 1
def Session.maxItems (x : Session) : Nat := max 1 (x.f 22 1)
/-- The session takes frames of an RX buffer; 128 the FIFO. -/
def Session.hasRx (x : Session) (b : Nat) : Bool := decide (x.f 24 1 ≤ b) && decide (b < x.f 24 1 + x.f 25 1)
/-- The session's TX buffers. -/
def Session.txBufs (x : Session) : List Nat := (List.range (x.f 27 1)).map (fun i => x.f 26 1 + i)
/-- A port address lies in the session's range. -/
def Session.inScope (x : Session) (a : Nat) : Bool := inRange (x.f 24 2) (x.f 26 2) a

/-- A session. -/
def State.session? (s : State) (n : Nat) : Option Session := Store.find s.br.sessions n

/-- Change a session. -/
def setSession (n : Nat) (f : Session → Session) (s : State) : State :=
  { s with br := { s.br with sessions := Store.upd s.br.sessions n f } }

/-- The resolved remote of a session under the committed chain (R501). -/
def State.resolve (s : State) (x : Session) : Option Nid :=
  if !x.position then some (BitVec.ofNat 64 (x.f 8 8))
  else
    let n := s.hitch.nidAt (x.f 17 1)
    if n = 0 then none else some n

/-- SESSION_STATE: 1 enabled, 2 disabled, and the resolved NID. -/
def sessionSaid (n what : Nat) (s : State) : State :=
  let nid := ((s.session? n).bind Session.remote).getD 0
  raise .bridge 2 (logEvent 0x0D01 sevNotice ([byte n, byte what] ++ nidBytes nid) s)

/-- A session activated with its bindings (R504). -/
def State.sessionOn (s : State) (x : Session) (on : Bool) : Session :=
  { x with enabled := on, remote := s.resolve x, items := [], rxSeq := none, lastSeq := 0, queue := [], order := none, txSeq := 0 }

/-- Sessions as the tack image gives them. -/
def bridgeLoad (s : State) : State :=
  let rs := (records (s.sectionOf 0x19 0) 32).filter (fun r => fLe r 1 1 ≠ 0)
  { s with br := { s.br with sessions := rs.foldl (fun m r =>
      Store.ins m (fLe r 0 1) (s.sessionOn { record := r } (bit (fLe r 19 1) 0))) [] } }

/-- A switch resolves every session again (R501, R504): what POSITION sessions have built is withdrawn, the next SEQ is accepted whatever it is. -/
def rebindSessions (s : State) : State :=
  s.br.sessions.foldl (fun s e =>
    let is := s.resolve e.2
    let s1 := setSession e.1 (fun x => { x with remote := is, rxSeq := none, items := if x.position then [] else x.items }) s
    if is ≠ e.2.remote then sessionSaid e.1 (if e.2.enabled then 1 else 2) s1 else s1) s

/-! ## Export (R502, R503) -/

/-- Items were dropped: kind 1 queue, 2 age (R505, R518). -/
def tunDrop (n kind k : Nat) (s : State) : State :=
  if k = 0 then s else
  let s1 := logEvent 0x0D04 sevWarning ([byte n, byte kind] ++ le 4 k) (countN (statBridge (if kind = 1 then 8 else 9)) k s)
  let s2 := { s1 with br := { s1.br with dropTick := some s.now } }
  if (match s.br.dropTick with | some t => decide (s.now < t + ticksPerSec) | none => false) then s2 else raise .bridge 3 s2

/-- Send a session's open envelope. -/
def sendExport (n : Nat) (s : State) : State :=
  match s.session? n with
  | none => s
  | some x =>
    match x.items, x.remote with
    | [], _ => s
    | _, none => setSession n (fun x => { x with items := [] }) s
    | is, some r =>
      let h : SbHdr := { kind := 1, flags := flag x.position 1, items := is.length, src := s.node.nid, dst := r, srcF := x.f 4 2
                         dstF := x.f 6 2, gen := s.hitch.gen, seq := x.txSeq.toNat, chip := 0 }
      sendEnvelope h (is.flatMap pad4) (countN (statBridge 2) is.length (count (statBridge 0)
        (setSession n (fun x => { x with items := [], txSeq := x.txSeq + 1 }) s)))

/-- An item of a session's source joins its open envelope (R502, R515). -/
def exportItem (n : Nat) (item : List Byte) (s : State) : State :=
  match s.session? n with
  | none => s
  | some x =>
    if !x.enabled || !x.exports || x.reloading || !s.bridgeOwner || !s.node.state.inLine then s
    else if x.remote.isNone then count (statBridge 7) s
    else
      let room := decide (sumOf (x.items.map (fun i => (pad4 i).length)) + (pad4 item).length ≤ 1440)
      let s1 := if room then s else sendExport n s
      let s2 := setSession n (fun x => { x with
        items := x.items ++ [item], openTick := if x.items.isEmpty then s.now else x.openTick }) s1
      let k := ((s2.session? n).elim 0 (fun x => x.items.length))
      if x.maxItems ≤ k || x.f 20 2 = 0 then sendExport n s2 else s2

/-- A frame delivered to a BRIDGE buffer or FIFO is taken at once: the buffer is empty, the entry removed (R502). -/
def exportCan (ch b : Nat) (s : State) : State :=
  if s.canOwnerOf ch b ≠ 2 || !s.bridgeOwner then s else
  let c := s.canCh ch
  let got := if b = 128 then c.fifo.getLast? else some (c.buf b).msg
  match got with
  | none => s
  | some m =>
    let s1 := if b = 128 then setCan ch (fun c => { c with fifo := c.fifo.dropLast }) s
      else setBuf ch b (fun x => { x with code := cRxEmpty, msg := {} }) s
    match s.br.sessions.find? (fun e => e.2.medium = 1 && e.2.unit = ch && e.2.exports && e.2.hasRx b) with
    | some e => exportItem e.1 (canItem m) s1
    | none => s1

/-- Process data of a BRIDGE SINK port that a frame has updated (R502). -/
def exportPort (u addr : Nat) (data : List Byte) (s : State) : State :=
  if (s.legRec u addr).elim 0 legOwner ≠ 2 then s else
  let med := if u = 2 then 3 else 2
  match s.br.sessions.find? (fun e => e.2.medium = med && e.2.unit = u && e.2.exports && e.2.inScope addr) with
  | some e => exportItem e.1 (itemBytes med 0 0 addr s.now data) s
  | none => s

/-- A received packet: to the session that exports its source, else to the unit's queue (R493, R502). -/
def takeMessage (u src dst : Nat) (data : List Byte) (s : State) : State :=
  let med := if u = 2 then 5 else 4
  let s1 := count (statLegacy u 9) s
  match s.br.sessions.find? (fun e => e.2.medium = med && e.2.unit = u && e.2.exports && e.2.enabled
      && (e.2.f 24 2 = 0xFFFF || e.2.f 24 2 = src)) with
  | some e => exportItem e.1 (itemBytes med 0 0 (src + dst * 65536) s.now data) s1
  | none => legMessage u src data s1

/-! ## Import (R504, R505) -/

/-- A buffer is free for the bridge. -/
def CanBuf.free (b : CanBuf) : Bool := b.code = cTxIdle || b.code = cTxDone || b.code = cTxCancelled || b.code = cTxSuspended

/-- The channel can send a CAN message. -/
def CanChan.sendable (c : CanChan) (m : CanMsg) : Bool := !(m.fdf && (m.rtr || !c.fd)) && !(m.brs && !m.fdf)

/-- Drop the head of a session's import queue. -/
def popImport (n : Nat) (s : State) : State := setSession n (fun x => { x with queue := x.queue.drop 1 }) s

/-- Place the oldest item of a session on its medium, where it can be (R505). -/
def importOne (n : Nat) (s : State) : State :=
  match s.session? n with
  | none => s
  | some x =>
    match x.queue with
    | [] => s
    | i :: _ =>
      let u := x.unit
      let addr := fBe i.item 4 4
      let data := i.item.drop 20
      let drop := fun (s : State) => tunDrop n 1 1 (popImport n s)
      let placed := fun (s : State) => count (statBridge 3) (popImport n s)
      match x.medium with
      | 1 =>
        let c := s.canCh u
        let m := itemCan i.item
        if fBe i.item 0 1 ≠ 1 || !c.sendable m then drop s
        else if x.order.isSome then s
        else match x.txBufs.find? (fun b => (c.buf b).free) with
          | some b => placed (setSession n (fun x => { x with order := if x.inOrder then some b else none }) (canRequest u b m s))
          | none => s
      | 4 | 5 => if fBe i.item 0 1 ≠ x.medium then drop s else placed (queueMessage u (addr / 65536) data s)
      | _ =>
        match s.legRec u addr with
        | some r =>
          if fBe i.item 0 1 = x.medium && x.inScope addr && legKind r = 1 && legOwner r = 2 && data.length = legSize u r then
            placed (legCommit u addr data s)
          else drop s
        | none => drop s

/-- Place what can be placed (R505, R515): in READY and SAFE queued items are dropped as TUN_AGED. -/
def importPlace (n : Nat) (s : State) : State :=
  match s.session? n with
  | none => s
  | some x =>
    if !s.node.state.running then tunDrop n 2 x.queue.length (setSession n (fun x => { x with queue := [] }) s)
    else if !s.bridgeOwner then s
    else x.queue.foldl (fun s _ => importOne n s) s

/-- Place items of every session. -/
def importAll (s : State) : State := s.br.sessions.foldl (fun s e => importPlace e.1 s) s

/-- A TUNNEL envelope (R504). -/
def takeTunnel (b : List Byte) (s : State) : State :=
  let h := sbHdrOf b
  if !s.node.state.inLine then count (statBridge 4) s else
  match s.br.sessions.find? (fun e => e.2.enabled && e.2.imports && e.2.f 4 2 = h.dstF && decide (e.2.remote = some h.src)
      && e.2.f 6 2 = h.srcF) with
  | none => count (statBridge 4) s
  | some e =>
    if bit h.flags 1 && decide (h.gen ≠ s.hitch.gen) then count (statBridge 7) s
    else
      let delta : Int := match e.2.rxSeq with
        | some q => signed 16 ((h.seq + 65536 - q.toNat) % 65536)
        | none => 1
      if delta ≤ 0 then count (statBridge 5) s
      else
        let is := ((itemsOf h.items (b.drop 32)).elim [] Prod.fst)
        let room := 64 - e.2.queue.length
        let s1 := countN (statBridge 6) (delta - 1).toNat (count (statBridge 1) (setSession e.1 (fun x => { x with
          rxSeq := some (BitVec.ofNat 16 h.seq), lastSeq := BitVec.ofNat 16 h.seq
          queue := x.queue ++ (is.take room).map (fun i => { item := i, tick := s.now }) }) s))
        importPlace e.1 (tunDrop e.1 1 (is.length - room) s1)

/-! ## Tags and remote reads (R506 to R511, R521) -/

/-- The REQ_ID a tag would carry next. -/
def Bridge.nextId (b : Bridge) (tag : Nat) : Nat := tag + Store.get 0 b.uses tag % 16 * 4096

/-- The tag may be taken now: its next REQ_ID was last sent long enough ago (R506). -/
def State.tagOk (s : State) (tag : Nat) : Bool :=
  match Store.find s.br.sentAt (s.br.nextId tag) with
  | some (t, ms) => decide (t + (2000 + ms) * ticksPerMs ≤ s.now)
  | none => true

/-- A free tag, the longest free first. -/
def State.freeTag (s : State) : Option Nat :=
  if s.br.fresh < 4096 then some s.br.fresh else s.br.freed.find? s.tagOk

/-- Take a free tag: its REQ_ID. -/
def takeTag (tag : Nat) (s : State) : State :=
  { s with br := { s.br with
      fresh := if tag = s.br.fresh then tag + 1 else s.br.fresh
      freed := s.br.freed.erase tag
      uses := Store.put 0 s.br.uses tag (Store.get 0 s.br.uses tag + 1) } }

/-- Free the tag of a REQ_ID. -/
def freeTag (reqId : Nat) (s : State) : State := { s with br := { s.br with freed := s.br.freed ++ [reqId % 4096] } }

/-- Send the READ_REQ of an open read. -/
def sendRead (o : OpenRead) (resend : Bool) (s : State) : State :=
  let h : SbHdr := { kind := 2, flags := o.flags + flag resend 2, items := 1, src := s.node.nid, dst := o.dst, srcF := 0xFF20
                     dstF := 0xFF20, gen := s.hitch.gen, seq := o.reqId, chip := s.node.chipIndex }
  sendEnvelope h o.body (count (statBridge 10)
    { s with br := { s.br with sentAt := Store.ins s.br.sentAt o.reqId (s.now, o.ms) } })

/-- The 16-byte result header (R521). -/
def ReadResult.header (r : ReadResult) : List Byte := le 2 r.reqId ++ le 2 r.status ++ le 2 r.data.length ++ [0, 0] ++ le 8 r.stamp

/-- An open read completes: with WAIT its command does, with the given ACS status; without, the result awaits collection (R521). -/
def endRead (o : OpenRead) (acsStatus : Nat) (r : ReadResult) (s : State) : State :=
  let s1 := { s with br := { s.br with reads := s.br.reads.filter (fun x => x.reqId ≠ o.reqId) } }
  match o.wait with
  | some ref => freeTag o.reqId (acsDone ref acsStatus (if acsStatus = stOk then r.header ++ r.data else []) s1)
  | none => raise .bridge 0 { s1 with br := { s1.br with results := s1.br.results ++ [r] } }

/-- A READ_RSP reaches the requesting chip (R510). -/
def takeResponse (b : List Byte) (s : State) : State :=
  let h := sbHdrOf b
  let body := b.drop 32
  match s.br.reads.find? (fun o => o.reqId = h.seq) with
  | some o =>
    endRead o stOk { reqId := h.seq, status := fBe body 0 2, stamp := fBe body 8 8, data := slice body 16 (fBe body 2 2) }
      (count (statBridge 11) s)
  | none => logEvent 0x0D03 sevInfo (le 2 h.seq ++ nidBytes h.src) (count (statBridge 13) s)

/-- The responder's answer (R509): a READ_RSP frame, or for a chip of this node the tug link; a volatile request keeps it. -/
def respond (who : Asker) (status stamp : Nat) (data : List Byte) (s : State) : State :=
  let body := be 2 status ++ be 2 data.length ++ zeros 4 ++ be 8 stamp ++ data
  let h : SbHdr := { kind := 3, flags := who.flags % 2, items := 1, src := s.node.nid, dst := who.nid, srcF := 0xFF20, dstF := 0xFF20
                     gen := s.hitch.gen, seq := who.reqId, chip := who.chip }
  let s1 := count (statBridge 15) { s with br := { s.br with
    served := s.br.served.map (fun x => if x.who = who then { x with body := some body } else x) } }
  if who.nid = s.node.nid then
    if who.chip = s.node.chipIndex then takeResponse (h.bytes ++ body) s1
    else s1.carriers.foldl (fun s l => sendEnvTug l .rsp (h.bytes ++ body) s) s1
  else sendEnvelope h body s1

/-- The request frames of waiting transactions go to a channel's TXN_BUFFER when it is free, in order of receipt (R512). -/
def txnPlace (ch : Nat) (s : State) : State :=
  match s.txnBuffer ch with
  | none => s
  | some b =>
    if !((s.canCh ch).buf b).free || s.br.txns.any (fun t => t.chan = ch && t.placed && t.sent.isNone) then s
    else match s.br.txns.find? (fun t => t.chan = ch && !t.placed) with
      | none => s
      | some t =>
        canRequest ch b (itemCan t.item) { s with br := { s.br with
          txns := s.br.txns.modify (s.br.txns.findIdx (fun x => x.chan = ch && !x.placed)) (fun x => { x with placed := true }) } }

/-- The TXN_BUFFER's frame has been sent: its transaction's wait begins (R512). -/
def txnSent (ch b : Nat) (s : State) : State :=
  if s.txnBuffer ch ≠ some b then s
  else txnPlace ch { s with br := { s.br with txns := s.br.txns.map (fun t =>
    if t.chan = ch && t.placed && t.sent.isNone then { t with sent := some s.now } else t) } }

/-- The first matching frame after TX_DONE completes the oldest transaction it matches (R512). -/
def txnMatch (ch : Nat) (f : CanFrame) (sof : Nat) (s : State) : State :=
  let mine (t : CanTxn) : Bool := t.chan = ch && (match t.sent with | some x => decide (x < sof) | none => false)
      && canMatch f.id f.ide t.rspId t.rspMask
  match s.br.txns.find? mine with
  | none => s
  | some t =>
    respond t.who stOk sof (canItem (msgOf f sof))
      { s with br := { s.br with txns := s.br.txns.eraseIdx (s.br.txns.findIdx mine) } }

/-! ## Changes of state and owner (R501, R514, R515) -/

/-- Entry into BOOT, HELD or STABLED: open reads complete with WRONG_STATE and free their tags; queues are empty. -/
def bridgeStop (s : State) : State :=
  let s1 := s.br.reads.foldl (fun s o => freeTag o.reqId (match o.wait with
    | some ref => acsDone ref stWrongState [] s
    | none => s)) s
  { s1 with br := { s1.br with
      reads := [], served := [], txns := []
      sessions := s1.br.sessions.map (fun e => (e.1, { e.2 with items := [], queue := [], order := none })) } }

/-- A change of owner: sessions are resolved afresh and start a new envelope; the old owner's transactions are dropped (R514). -/
def bridgeOwnerChange (s : State) : State :=
  { s with br := { s.br with
      txns := if s.bridgeOwner then s.br.txns else []
      sessions := s.br.sessions.map (fun e => (e.1, { e.2 with remote := s.resolve e.2, items := [], order := none })) } }

end Sys2Proof.Machine
end

