-- ==== Sys2Proof/Machine/MacsecOps.lean ====
section
/-! DEFINITION. Shared operations of MACsec and MKA (R205 to R208). -/
namespace Sys2Proof.Machine

/-- MACsec of a backbone port. -/
def State.sec_ (s : State) (p : Nat) : MacSec := s.sw.macsec.getD p {}

/-- Change MACsec of a backbone port. -/
def setSec (p : Nat) (f : MacSec → MacSec) (s : State) : State := { s with sw := { s.sw with macsec := s.sw.macsec.modify p f } }

/-- MACSEC_MODE (R206): 0 OFF, 1 SHOULD, 2 MUST. -/
def State.macsecMode (s : State) (p : Nat) : Nat := s.param 6 26 p 0

/-- GCM-AES-XPN-256 is in use (R205). -/
def State.xpn (s : State) (p : Nat) : Bool := s.param 6 27 p 1 = 1

/-- Frames that bypass MACsec in every mode (R206). -/
def State.bypassesSec (s : State) (f : Frame) : Bool :=
  f.etype = s.hitchEtype || f.etype = 0x88F7 || f.etype = 0x888E || f.etype = 0x8808 || Config.ttdpEtype f.etype

/-- An SA is in use on a port. -/
def State.saInUse (s : State) (p : Nat) : Bool := decide (p < 4) && decide (s.macsecMode p ≠ 0) && (s.sec_ p).st = 2

/-- The controlled port carries no frame yet: MUST without an SA (R206). -/
def State.closed (s : State) (p : Nat) (f : Frame) : Bool :=
  decide (p < 4) && s.macsecMode p = 2 && !s.saInUse p && !s.bypassesSec f

/-- An MKA frame, its body laid out by IEEE 802.1X-2020. -/
def State.mkaFrame (s : State) (p : Nat) : Frame :=
  { da := 0x0180C2000003#48, sa := s.portMac p, vlan := none, rtag := none, etype := 0x888E, payload := Config.frameBody s.freeIdx }

/-- Send an MKA frame on a port, in TC7 (log entry 24). -/
def sendMka (p : Nat) (s : State) : State := sendFrame p 7 (s.mkaFrame p) .groom (useFree s)

/-- The key server distributes a new SAK (R207). -/
def newSak (p : Nat) (s : State) : State := if s.saInUse p && (s.sec_ p).server then sendMka p s else s

/-- The neighbour on a port is known: a change of its NID brings a new SAK (R207). -/
def mkaNeighbour (p : Nat) (n : Nid) (s : State) : State :=
  let m := s.sec_ p
  if m.nb = n then s
  else
    let s1 := setSec p (fun x => { x with nb := n }) s
    if m.nb = 0 then s1 else newSak p s1

/-- A frame leaves a port under an SA: the packet number moves, and at its limit the key server distributes a new SAK (R207). -/
def countPn (p : Nat) (f : Frame) (s : State) : State :=
  if !s.saInUse p || s.bypassesSec f then s
  else
    let n := (s.sec_ p).txPn + 1
    let s1 := setSec p (fun x => { x with txPn := n }) s
    if n = (if s.xpn p then 0xC000000000000000 else 0xC0000000) then newSak p s1 else s1

/-- A frame fails verification: kinds 1 ICV, 2 replay, 3 SecTAG (R208). The first after 1 s without failures is logged and raised. -/
def secFail (p kind : Nat) (s : State) : State :=
  let m := s.sec_ p
  let first := match m.lastFail with | some t => decide (t + ticksPerSec < s.now) | none => true
  let s1 := count (statPort p 27) (setSec p (fun x => { x with
    icvFail := if kind = 1 then satAdd x.icvFail 1 else x.icvFail
    replay := if kind = 2 then satAdd x.replay 1 else x.replay
    fails := satAdd x.fails 1, lastFail := some s.now }) s)
  if first then raise .harness 5 (logEvent 0x0507 sevWarning ([byte p, byte kind] ++ le 4 (satAdd m.fails 1)) s1) else s1

/-- Stage 2 (R168, R206): whether a frame goes on, and what its failure counts. -/
def secStage (p : Nat) (f : Frame) (v : MacsecVerdict) (s : State) : Bool × State :=
  if 4 ≤ p || s.bypassesSec f || s.macsecMode p = 0 then (true, s)
  else match v with
    | .fail k => (false, secFail p k s)
    | .pass => (true, s)
    | .plain =>
      if s.saInUse p then (false, secFail p 3 s)
      else if s.macsecMode p = 2 then (false, count (statPort p 27) s)
      else (true, s)

/-- A controlled port changes state: an SA comes into use, or is gone (R215, R216). -/
def saSaid (p : Nat) (s : State) : State :=
  raise .harness 6 (logEvent 0x0506 sevNotice ([byte p, byte (s.sec_ p).an] ++ le 4 (s.sec_ p).kn) s)

/-- The MKA peer is gone, and with it the SA. -/
def mkaLost (p : Nat) (s : State) : State :=
  let was := s.saInUse p
  let s1 := setSec p (fun x => { x with st := 0, an := 0, kn := 0, server := false, peerSci := 0, txPn := 0 }) s
  if was then saSaid p s1 else s1

end Sys2Proof.Machine
end

