-- ==== Sys2Proof/Machine/ControlOps.lean ====
section
/-! DEFINITION. Shared operations of the control engine (07_cyclic_control.md): tasks and pairs, latch and images, forces, commit, held cycles,
retain, control start. -/
namespace Sys2Proof.Machine

/-! ## Tasks (R311, R313, R324) -/

/-- Fields of a task's descriptor. -/
def Task.f (t : Task) (off n : Nat) : Nat := fLe t.desc off n
def Task.index (t : Task) : Nat := t.f 0 1
def Task.flagBit (t : Task) (i : Nat) : Bool := bit (t.f 1 1) i
def Task.enabled (t : Task) : Bool := t.flagBit 0
def Task.placeable (t : Task) : Bool := t.flagBit 1
def Task.cycleIrq (t : Task) : Bool := t.flagBit 2
def Task.stopsOnFault (t : Task) : Bool := t.flagBit 3
def Task.period (t : Task) : Nat := max 1 (t.f 2 2)
/-- Period in units of train time. -/
def Task.periodTt (t : Task) : Nat := t.period * 250000 * ttNs
def Task.prio (t : Task) : Nat := t.f 4 1
def Task.pairSel (t : Task) : Nat := t.f 5 1
def Task.limit (t : Task) : Nat := t.f 6 1
def Task.objId (t : Task) : Nat := fLe t.obj 0 8
def Task.descObj (t : Task) : Nat := t.f 8 8
def Task.deadlineUs (t : Task) : Nat := if t.f 16 4 = 0 then t.period * 250 else t.f 16 4
def Task.wcetNs (t : Task) : Nat := t.f 20 4
def Task.retainLen (t : Task) : Nat := t.f 24 4
def Task.inLen (t : Task) : Nat := t.f 28 4
def Task.outLen (t : Task) : Nat := t.f 32 4
def Task.stateLen (t : Task) : Nat := t.f 36 4
/-- ET_MAX: the largest execution time since control start, WCET_NS before the first (R326). -/
def Task.etMaxNs (t : Task) : Nat := t.etMax.getD t.wcetNs
/-- WCET_NS ÷ PERIOD as a share of one second. -/
def Task.share (t : Task) : Nat := t.wcetNs * (4000 / t.period)

/-- The object in force as laid out. -/
def Task.layout (t : Task) : TaskObj :=
  (Config.taskObj t.obj).getD { objId := t.objId, nonvote := false, vars := [], blocks := [], inLen := t.inLen, outLen := t.outLen, segLen := t.stateLen }

/-- A task. -/
def State.task? (s : State) (n : Nat) : Option Task := Store.find s.ctl.tasks n

/-- Change a task. -/
def setTask (n : Nat) (f : Task → Task) (s : State) : State := { s with ctl := { s.ctl with tasks := Store.upd s.ctl.tasks n f } }

/-- Change a pair. -/
def setPair (p : Nat) (f : CorePair → CorePair) (s : State) : State := { s with ctl := { s.ctl with pairs := s.ctl.pairs.modify p f } }

/-- A pair. -/
def State.pairOf (s : State) (p : Nat) : CorePair := s.ctl.pairs.getD p {}

/-- Pairs not retired. -/
def State.activePairs (s : State) : List Nat := (List.range 4).filter (fun p => !(s.pairOf p).retired)

/-- Tasks as the active image gives them (R311). -/
def controlLoad (s : State) : State :=
  let ds := (records (s.sectionOf 0x10 0) 64)
  let secs := (s.tack.active.map Tack.sections).getD []
  { s with ctl := { s.ctl with
      tasks := ds.foldl (fun m d => Store.ins m (fLe d 0 1)
        { desc := d, obj := ((secs[fLe d 40 2]?).map Section.content).getD [] }) []
      swaps := [], fwaits := [], forces := [] } }

/-- The value of initial variables in a segment (R342). -/
def initialBank (o : TaskObj) (n : Nat) : List Byte :=
  o.vars.foldl (fun b v => match v.seg with | some p => putSlice b p ((v.init ++ zeros v.size).take v.size) | none => b) (zeros n)

/-- The sum of WCET_NS ÷ PERIOD assigned to a pair. -/
def State.pairShare (s : State) (p : Nat) : Nat :=
  sumOf ((s.ctl.tasks.filter (fun e => e.2.pair = some p)).map (fun e => e.2.share))

/-- The pair a task is assigned to (R324): its own, else the one with the lowest sum, the lower number at a tie. -/
def State.choosePair (s : State) (t : Task) : Option Nat :=
  if t.pairSel < 4 && !(s.pairOf t.pairSel).retired then some t.pairSel
  else (s.activePairs.foldl (fun (a : Option (Nat × Nat)) p => match a with
    | none => some (p, s.pairShare p)
    | some x => if s.pairShare p < x.2 then some (p, s.pairShare p) else a) none).map Prod.fst

/-- Assign a task to a pair. -/
def assignPair (n : Nat) (s : State) : State :=
  match s.task? n with
  | some _ => setTask n (fun t => { t with pair := s.choosePair t }) (setTask n (fun t => { t with pair := none }) s)
  | none => s

/-- Assign tasks in the order of R324. -/
def assignPairs (ns : List Nat) (s : State) : State :=
  let ts := ns.filterMap (fun n => (s.task? n).map (fun t => (n, t.share, decide (t.pairSel < 4))))
  let fixed := ts.filter (fun e => e.2.2)
  let rest := sortBy (fun a b => decide (b.2.1 < a.2.1) || (a.2.1 = b.2.1 && decide (a.1 ≤ b.1))) (ts.filter (fun e => !e.2.2))
  (fixed ++ rest).foldl (fun s e => assignPair e.1 s) s

/-- A task goes before another on its pair (R324). -/
def Task.before (a b : Task) : Bool :=
  decide (b.prio < a.prio) || (a.prio = b.prio && (decide (a.period < b.period) || (a.period = b.period && decide (a.index < b.index))))

/-- The pair runs its ready task of the highest rank (R324); a stopped or retired pair runs none. -/
def schedule (p : Nat) (s : State) : State :=
  let x := s.pairOf p
  if x.retired || x.stopped.isSome then s else
  let ready := s.ctl.tasks.filter (fun e => e.2.pair = some p && (e.2.ph = .ready || e.2.ph = .executing))
  let best := ready.foldl (fun (a : Option Task) e => match a with
    | none => some e.2
    | some b => if e.2.before b then some e.2 else a) none
  match best with
  | none => setPair p (fun x => { x with running := none }) s
  | some b => setTask b.index (fun t => { t with ph := .executing }) (setPair p (fun x => { x with running := some b.index }) s)

/-- This chip runs task cycles (R403, R422): simplex, the active of a Span node, a member of a Troika node. -/
def State.runsTasks (s : State) : Bool :=
  s.node.state.running && (match s.node.form with
    | .simplex => true
    | .span => s.node.active
    | .troika => s.red.members.getLsbD s.node.chipIndex)

/-- This chip runs a task's cycles: in Troika a task that cannot be voted runs on the time leader alone (R428). -/
def State.runsTask (s : State) (t : Task) : Bool := s.runsTasks && !(s.node.form = .troika && t.layout.nonvote && !s.owner)

/-! ## Forces (R343 to R346) -/

/-- A variable of a task's object. -/
def Task.var? (t : Task) (id : Nat) : Option ObjVar := t.layout.vars.find? (fun v => v.id = id)

/-- The force's bytes at the variable's size. -/
def Force.bytes (x : Force) (v : ObjVar) : List Byte := x.value.take v.size

/-- Forced input variables of a task put into its input image. -/
def forceInputs (fs : List Force) (t : Task) (img : List Byte) : List Byte :=
  fs.foldl (fun b x => match (t.var? x.var).bind (fun v => v.inp.map (fun p => (v, p))) with
    | some (v, p) => if x.input then putSlice b p (x.bytes v) else b
    | none => b) img

/-- Forced other variables put into the bank. -/
def forceBank (fs : List Force) (t : Task) (bank : List Byte) : List Byte :=
  fs.foldl (fun b x => match (t.var? x.var).bind (fun v => v.seg.map (fun p => (v, p))) with
    | some (v, p) => if x.input then b else putSlice b p (x.bytes v)
    | none => b) bank

/-- Forced output variables put into the output image. -/
def forceOutputs (fs : List Force) (t : Task) (img : List Byte) : List Byte :=
  fs.foldl (fun b x => match (t.var? x.var).bind (fun v => v.outp.map (fun p => (v, p))) with
    | some (v, p) => if x.input then b else putSlice b p (x.bytes v)
    | none => b) img

/-- Forces in force on a task. -/
def State.forcesOf (s : State) (n : Nat) : List Force := s.ctl.forces.filter (fun x => x.task = n)

/-- A task is pinned (R345, R351, R393). -/
def State.pinned (s : State) (n : Nat) : Bool :=
  !(s.forcesOf n).isEmpty || s.ctl.fwaits.any (fun w => w.task = n && w.entry.isSome)
    || (match s.task? n with | some t => t.swapped || t.st = .stopped || t.st = .faulted | none => false)

/-- FORCE_RELEASED: reason 1 by command, NOTICE; every other at WARNING, 6 at ERROR, counted and raised. -/
def forceReleased (x : Force) (reason : Nat) (s : State) : State :=
  let pay := le 4 x.var ++ [byte x.task, byte reason]
  if reason = 1 then logEvent 0x0802 sevNotice pay s
  else raise .control 4 (logEvent 0x0802 (if reason = 6 then sevError else sevWarning) pay (count (statControl 11) s))

/-- Release the forces that a test selects, with the changes that still wait for them. -/
def releaseForces (p : Force → Bool) (reason : Nat) (s : State) : State :=
  let gone := s.ctl.forces.filter p
  gone.foldl (fun s x => forceReleased x reason s) { s with ctl := { s.ctl with
    forces := s.ctl.forces.filter (fun x => !p x)
    fwaits := s.ctl.fwaits.filter (fun w => match w.entry with
      | some x => !p x
      | none => !gone.any (fun x => x.var = w.var)) } }

/-- Force changes that are due at a latch (R344). -/
def dueForces (n cycle : Nat) (s : State) : State :=
  let due := s.ctl.fwaits.filter (fun w => w.task = n && decide (w.cycle ≤ cycle))
  due.foldl (fun s w => match w.entry with
    | some x => logEvent 0x0801 sevNotice (le 4 x.var ++ [byte x.task] ++ x.value)
        { s with ctl := { s.ctl with forces := s.ctl.forces.filter (fun y => y.var ≠ x.var) ++ [x] } }
    | none =>
      match s.ctl.forces.find? (fun y => y.var = w.var) with
      | some x => forceReleased x 1 { s with ctl := { s.ctl with forces := s.ctl.forces.filter (fun y => y.var ≠ w.var) } }
      | none => s)
    { s with ctl := { s.ctl with fwaits := s.ctl.fwaits.filter (fun w => !(w.task = n && decide (w.cycle ≤ cycle))) } }

/-! ## Latch (R314, R315, R320 to R322) -/

/-- The grid instant of a period nearest to now, in train time. -/
def State.gridNow (s : State) (p : Nat) : Nat := (s.trainNow + p / 2) / p * p

/-- The first grid instant of a period at least d units of train time from now. -/
def State.gridAfter (s : State) (p d : Nat) : Nat := (s.trainNow + d + p - 1) / p * p

/-- The cycle block of a cycle (R321). -/
def State.cycleBlock (s : State) (t : Task) (at_ : Nat) : List Byte :=
  let h := s.hitch
  le 8 t.cycle ++ le 6 (at_ / ttSec) ++ le 2 s.time.epoch.toNat ++ le 4 (at_ % ttSec / ttNs) ++ wordBytes h.gen
    ++ [byte h.position, byte h.consist, byte h.vehicle,
        byte (b01 h.orient + flag h.rehitch 1 + flag t.first 2 + flag t.warm 3 + flag t.prevHeld 4 + flag t.longer 5)] ++ zeros 20

/-- A STREAM input block (R322). -/
def State.streamBlock (s : State) (sym len : Nat) : List Byte :=
  match s.stream.ctxs.find? (fun e => e.2.toTask && e.2.imageRef = sym) with
  | none => zeros len
  | some e =>
    let c := e.2
    let age := if c.acc.isNone then 0xFFFFFFFF else min 0xFFFFFFFF ((s.now - c.accTick) / ticksPerUs)
    ([byte c.fresh.code, byte ((c.hdr.map StreamHdr.flags).getD 0), 0, 0] ++ le 4 age ++ c.image ++ zeros len).take len

/-- The bytes of a task's variable at its last commit. -/
def State.varBytes (s : State) (task id : Nat) : List Byte :=
  match s.task? task with
  | some t => (match (t.var? id) with
    | some v => (match v.seg with | some p => slice t.committed p v.size | none => [])
    | none => [])
  | none => []

/-- The bytes of an input block now; CAN blocks mark what has been latched. -/
def latchBlock (n : Nat) (t : Task) (b : ObjBlock) (at_ : Nat) (s : State) : List Byte × State :=
  match b.kind with
  | .cycle => (s.cycleBlock t at_, s)
  | .stream => (s.streamBlock b.sym b.len, s)
  | .can =>
    if b.ref % 256 = 128 then canLatchFifo (b.ref / 256) ((b.len - 8) / 80) s
    else canLatchBuf (b.ref / 256) (b.ref % 256) n (slice t.input b.off b.len) s
  | .legacy => (s.legLatch (b.ref / 65536) (b.ref % 65536), s)
  | .gpio => ([byte (b01 (s.pwr.gpioIn.getLsbD b.ref))], s)
  | .taskvar => (s.varBytes (b.ref / 2 ^ 32) (b.ref % 2 ^ 32), s)

/-- The input image of a cycle. -/
def latchImage (n : Nat) (t : Task) (at_ : Nat) (s : State) : List Byte × State :=
  let r := (t.layout.blocks.filter (fun b => !b.out)).foldl (fun (a : List Byte × State) b =>
    let x := latchBlock n t b at_ a.2
    (putSlice a.1 b.off ((x.1 ++ zeros b.len).take b.len), x.2)) (zeros t.inLen, s)
  (forceInputs (r.2.forcesOf n) t (putSlice r.1 0 (s.cycleBlock t at_)), r.2)

/-- The task is ready on an input image: the working bank is the committed one with its forces, and its pair schedules (R323, R324, R343). -/
def makeReady (n : Nat) (img : List Byte) (s : State) : State :=
  match s.task? n with
  | none => s
  | some t =>
    let s1 := setTask n (fun t => { t with input := img, working := forceBank (s.forcesOf n) t t.committed, ph := .ready, again := false }) s
    match t.pair with | some p => schedule p s1 | none => s1

/-! ## Held cycles, stop, GPIO (R327, R330) -/

/-- Drive a GPIO output. -/
def driveGpio (g : Nat) (on : Bool) (s : State) : State :=
  if s.pwr.gpioOut.getLsbD g = on then s
  else emit (.pin (.gpio g) (if on then .high else .low))
    { s with pwr := { s.pwr with gpioOut := if on then s.pwr.gpioOut ||| (1#24 <<< g) else s.pwr.gpioOut &&& ~~~ (1#24 <<< g) } }

/-- The reset level of a GPIO output (R609). -/
def State.gpioReset (s : State) (g : Nat) : Bool := s.param 1 9 g 0 = 1

/-- The task's GPIO outputs go to their reset levels. -/
def resetGpio (t : Task) (s : State) : State :=
  (t.layout.blocks.filter (fun b => b.out && b.kind = .gpio)).foldl (fun s b => driveGpio b.ref (s.gpioReset b.ref) s) s

/-- The current cycle will be held: cause 1 lock-step, 2 memory, 3 overrun, 4 vote. It counts at the commit instant. -/
def holdTask (n cause : Nat) (s : State) : State :=
  let s1 := setTask n (fun t => { t with ph := .held, heldCause := cause }) s
  match (s.task? n).bind Task.pair with | some p => schedule p s1 | none => s1

/-- The commit instant of a held cycle (R327). -/
def heldCommit (n cause : Nat) (s : State) : State :=
  match s.task? n with
  | none => s
  | some t =>
    raise .control 2 (logEvent 0x0705 sevWarning ([byte n] ++ le 8 t.cycle ++ [byte cause]) (count (statControl 1)
      (setTask n (fun t => { t with
        ph := .idle, cycle := t.cycle + 1, prevHeld := true, lastHeld := true, outHeld := true, first := false, warm := false
        heldCause := 0 }) s)))

/-- Contexts whose IMAGE_REF names a block of a task in a direction (R367). -/
def State.taskCtxs (s : State) (t : Task) (out : Bool) : List Nat :=
  let syms := (t.layout.blocks.filter (fun b => b.out = out && b.kind = .stream)).map ObjBlock.sym
  (s.stream.ctxs.filter (fun e => syms.contains e.2.imageRef
    && (if out then decide (e.2.role = 1) && !e.2.hostSource else e.2.toTask))).map Prod.fst

/-- Enable or disable the PUBLISH contexts a task sources. -/
def enablePubs (t : Task) (on : Bool) (s : State) : State := (s.taskCtxs t true).foldl (fun s c => streamEnable c on s) s
def enableSubs (t : Task) (on : Bool) (s : State) : State := (s.taskCtxs t false).foldl (fun s c => streamEnable c on s) s

/-- A task's CAN transmit requests cease. -/
def ceaseCan (t : Task) (s : State) : State :=
  (t.layout.blocks.filter (fun b => b.out && b.kind = .can)).foldl (fun s b =>
    setBuf (b.ref / 256) (b.ref % 256) (fun x => if x.code = cTxPending then { x with code := cTxIdle } else { x with next := none }) s) s

/-- A task leaves its pair, its current cycle ended without commit. -/
def haltTask (n : Nat) (st : TaskSt) (s : State) : State :=
  let s1 := setTask n (fun t => { t with st := st, ph := .idle, heldCause := 0 }) s
  match (s.task? n).bind Task.pair with | some p => schedule p s1 | none => s1

/-- STOP_TASK (R330, R346): publishers disabled, requests cease, GPIO at reset levels, forces released. how: 1 by command, 2 by fault. -/
def stopTask (n how : Nat) (s : State) : State :=
  match s.task? n with
  | none => s
  | some t =>
    let s1 := haltTask n (if how = 1 then .stopped else .faulted) s
    let s2 := releaseForces (fun x => x.task = n) 4 (resetGpio t (ceaseCan t (enablePubs t false s1)))
    let s3 := { s2 with ctl := { s2.ctl with fwaits := s2.ctl.fwaits.filter (fun w => w.task ≠ n) } }
    logEvent 0x070A sevNotice [byte n, byte how] s3

/-! ## Retain (R334 to R339) -/

/-- Bytes of a task's retain slot: 88 and RETAIN_LEN, in multiples of 64; none for a task that retains nothing (R335). -/
def Task.slotSize (t : Task) : Nat := if t.retainLen = 0 then 0 else (88 + t.retainLen + 63) / 64 * 64

/-- The place of a task's slot in the retain area: two slots per retaining task, in ascending task index (R335). -/
def State.retainOff (s : State) (n k : Nat) : Nat :=
  sumOf ((s.ctl.tasks.filter (fun e => decide (e.1 < n))).map (fun e => 2 * e.2.slotSize)) + k * ((s.task? n).map Task.slotSize).getD 0

/-- A copy of a slot on a die. -/
def State.retainCopy (s : State) (die n k : Nat) : List Byte :=
  Store.get [] (if die = 0 then s.retain.die0 else s.retain.die1) (s.retainOff n k)

/-- Bytes written at a place of a die: what overlapped them is no copy any more. -/
def placeCopy (off : Nat) (b : List Byte) (m : Store (List Byte)) : Store (List Byte) :=
  Store.put [] (m.filter (fun e => decide (e.1 + e.2.length ≤ off) || decide (off + b.length ≤ e.1))) off b

/-- Write a copy of a slot on a die. -/
def setRetain (die n k : Nat) (b : List Byte) (s : State) : State :=
  { s with retain := if die = 0 then { s.retain with die0 := placeCopy (s.retainOff n k) b s.retain.die0 }
                     else { s.retain with die1 := placeCopy (s.retainOff n k) b s.retain.die1 } }

/-- A die of the MRAM is degraded. -/
def State.dieBad (s : State) (die : Nat) : Bool := if die = 0 then s.log.degraded0 else s.log.degraded1

/-- A valid copy (R339). -/
def slotValid (n k len : Nat) (b : List Byte) : Bool :=
  b.length = 88 + len && fLe b 0 4 = 0x52544E31 && fLe b 4 1 = n && fLe b 5 1 = k
    && fLe b (84 + len) 4 = (fLe b 8 8 % 2 ^ 32) ^^^ 0x3C3CC3C3 && fLe b (80 + len) 4 = (crc32 (b.take (80 + len))).toNat

/-- The valid copy with the highest cycle count: slot and bytes; of two with one cycle count, the one of the committed image. -/
def State.retainBest (s : State) (n : Nat) (t : Task) : Option (Nat × List Byte) :=
  let fp := ((s.tack.active.map Tack.fp).getD 0).toNat
  let cs := (([0, 1] : List Nat).flatMap (fun k => ([0, 1] : List Nat).map (fun d => (k, s.retainCopy d n k)))).filter (fun e =>
    slotValid n e.1 t.retainLen e.2)
  cs.foldl (fun (a : Option (Nat × List Byte)) e => match a with
    | none => some e
    | some x =>
      if fLe x.2 8 8 < fLe e.2 8 8 || (fLe x.2 8 8 = fLe e.2 8 8 && fBe x.2 32 32 ≠ fp && fBe e.2 32 32 = fp) then some e else a) none

/-- The retained variables of a bank, in the object's retain layout. -/
def Task.retained (t : Task) (bank : List Byte) : List Byte :=
  t.layout.vars.foldl (fun b v => match v.retain, v.seg with
    | some r, some p => putSlice b r (slice bank p v.size)
    | _, _ => b) (zeros t.retainLen)

/-- A retain slot's bytes (R335); valid clear while the write runs. -/
def State.slotBytes (s : State) (n k : Nat) (t : Task) (bank : List Byte) (ok : Bool) : List Byte :=
  let fp := ((s.tack.active.map Tack.fp).getD 0).toNat
  let body := le 4 0x52544E31 ++ [byte n, byte k] ++ le 2 t.start.epoch.toNat ++ le 8 t.cycle ++ le 8 t.objId ++ wordBytes s.hitch.gen
    ++ le 4 t.retainLen ++ be 32 fp ++ (le 6 t.startSec ++ le 4 t.start.ns ++ le 2 0) ++ zeros 4 ++ t.retained bank
  body ++ wordBytes (crc32 body) ++ le 4 (if ok then (t.cycle % 2 ^ 32) ^^^ 0x3C3CC3C3 else 0)

/-- RETAIN_FAULT: kind 1 three skips, 2 a die, 3 both dies. -/
def retainFault (n kind : Nat) (s : State) : State :=
  raise .control 6 (logEvent 0x0709 (if kind = 3 then sevCritical else sevError) [byte n, byte kind] s)

/-- Both dies are degraded: said once. -/
def retainDead (n : Nat) (s : State) : State :=
  if s.log.degraded0 && s.log.degraded1 && !s.ctl.retainDead then
    retainFault n 3 { s with ctl := { s.ctl with retainDead := true } }
  else s

/-- The retain write of a commit starts (R336, R337). -/
def startRetain (n : Nat) (s : State) : State :=
  match s.task? n with
  | none => s
  | some t =>
    if t.retainLen = 0 then s
    else if s.log.degraded0 && s.log.degraded1 then retainDead n s
    else if t.writing.isSome then
      let s1 := count (statControl 10) (setTask n (fun t => { t with skips := t.skips + 1 }) s)
      if t.skips + 1 = 3 then retainFault n 1 s1 else s1
    else
      let k := match s.retainBest n t with | some (0, _) => 1 | _ => 0
      let open_ := s.slotBytes n k t t.committed false
      let s1 := ([0, 1] : List Nat).foldl (fun s d => if s.dieBad d then s else setRetain d n k open_ s) s
      setTask n (fun t => { t with skips := 0, writing := some (k, s.slotBytes n k t t.committed true) }) s1

/-! ## Commit (R325) -/

/-- An output block's sink at commit; a block whose position does not exist is not sent (R333). -/
def sinkBlock (t : Task) (b : ObjBlock) (s : State) : State :=
  let data := slice t.output b.off b.len
  if (match b.pos with | some p => decide (s.hitch.nodes < p) || p = 0 | none => false) then count (statControl 5) s
  else match b.kind with
    | .can => canCommit (b.ref / 256) (b.ref % 256) data s
    | .legacy => legCommit (b.ref / 65536) (b.ref % 65536) data s
    | .gpio => driveGpio b.ref (bit (fLe data 0 1) 0) s
    | _ => s

/-- The first two steps of a commit: forces, and the working bank becomes the committed one. -/
def commitBank (n : Nat) (s : State) : State :=
  setTask n (fun t => { t with committed := forceBank (s.forcesOf n) t t.working, outWork := forceOutputs (s.forcesOf n) t t.outWork }) s

/-- The output image to its sinks (step 3). -/
def commitOutput (n : Nat) (image : List Byte) (s : State) : State :=
  let s1 := setTask n (fun t => { t with output := image, outStart := t.start, outHeld := false, outs := t.outs + 1 }) s
  match s1.task? n with
  | some t => (t.layout.blocks.filter (fun b => b.out)).foldl (fun s b => sinkBlock t b s) s1
  | none => s1

/-- Retain, CYCLE, counts, the end of the cycle (steps 4 and 5). -/
def commitEnd (n : Nat) (s : State) : State :=
  match s.task? n with
  | none => s
  | some t =>
    let s1 := count (statControl 0) (if t.again then count (statControl 4) (startRetain n s) else startRetain n s)
    let s2 := if t.cycleIrq then raise .control 0 s1 else s1
    setTask n (fun t => { t with
      ph := .idle, cycle := t.cycle + 1, lastCommit := t.cycle, prevHeld := false, lastHeld := false, first := false, warm := false
      etLast := t.et, etMax := some (max t.et (t.etMax.getD 0)), overRun := 0, voteHeld := 0 }) s2

/-- A commit on a chip that does not vote. -/
def commitTask (n : Nat) (s : State) : State :=
  let s1 := commitBank n s
  commitEnd n (commitOutput n (((s1.task? n).map Task.outWork).getD []) s1)

/-! ## Running a task again (R326) -/

/-- The time left to the deadline, in ns. -/
def State.leftNs (s : State) (t : Task) : Nat :=
  (t.startTick + t.deadlineUs * ticksPerUs - s.now) * 5 / 3

/-- Whether the task may be run again: the first time in the cycle, and enough time left. -/
def State.mayRedo (s : State) (t : Task) : Bool := !t.again && decide (t.etMaxNs + 2000 ≤ s.leftNs t)

/-- The task is run again from its kept input image. -/
def redoTask (n : Nat) (s : State) : State :=
  match s.task? n with
  | none => s
  | some t =>
    let s1 := makeReady n t.input s
    setTask n (fun t => { t with again := true }) s1

/-- A slot stamped again (R613 step 4): another SLOT and TACK_FP, CRC and VALID to match. -/
def stampCopy (k : Nat) (fp : BitVec 256) (b : List Byte) : List Byte :=
  let body := putSlice (putSlice (b.take (b.length - 8)) 5 [byte k]) 32 (be 32 fp.toNat)
  body ++ wordBytes (crc32 body) ++ le 4 ((fLe b 8 8 % 2 ^ 32) ^^^ 0x3C3CC3C3)

/-- The retain area is stamped for a new image: each retaining task's latest valid copy goes into its other slot (R613, R614). -/
def restamp (fp : BitVec 256) (s : State) : State :=
  s.ctl.tasks.foldl (fun s e =>
    match (if e.2.retainLen = 0 then none else s.retainBest e.1 e.2) with
    | none => s
    | some (k, b) => ([0, 1] : List Nat).foldl (fun s d => if s.dieBad d then s else setRetain d e.1 (1 - k) (stampCopy (1 - k) fp b) s) s) s

/-! ## Control start (R340 to R342) -/

/-- Why a retaining task's copy is not usable: 0 it is, else the cause of R341. -/
def State.retainCause (s : State) (n : Nat) (t : Task) : Nat :=
  if s.log.degraded0 && s.log.degraded1 then 4
  else match s.retainBest n t with
    | none => 1
    | some (_, b) =>
      if fBe b 32 32 ≠ ((s.tack.active.map Tack.fp).getD 0).toNat then 2 else if fLe b 16 8 ≠ t.descObj then 3 else 0

/-- The home NID of a placeable task by its placement record (R363), and its PLACE_ID. -/
def State.placeRec (s : State) (n : Nat) : Option (List Byte) := (records (s.sectionOf 0x13 0) 32).find? (fun r => fLe r 0 1 = n)
def placeId (r : List Byte) : Nat := fLe r 4 4
def homeNid (r : List Byte) : Nid := BitVec.ofNat 64 (fLe r 8 8)
def State.placeDomain (s : State) : Nat := s.param 0x12 1 0xFFFF 0

/-- Control start starts this task on this node (R340, R361, R396). -/
def State.startsHere (s : State) (n : Nat) (t : Task) : Bool :=
  t.enabled && (!t.placeable || (s.placeDomain = 0 && (match s.placeRec n with
    | some r => decide (homeNid r = s.node.nid) | none => false)))

/-- A placeable task of a domain 0 node that is homed elsewhere takes no part (R361). -/
def State.elsewhere (s : State) (n : Nat) (t : Task) : Bool := t.placeable && s.placeDomain = 0 && !s.startsHere n t

/-- The first task that demotes a WARM start, with its cause (R341). -/
def State.demotion (s : State) : Option (Nat × Nat) :=
  s.ctl.tasks.findSome? (fun e =>
    if !e.2.enabled || e.2.retainLen = 0 || s.elsewhere e.1 e.2 then none
    else
      let c := s.retainCause e.1 e.2
      if c = 0 then none else some (e.1, c))

/-- The retained variables of DATA put into a bank. -/
def Task.restore (t : Task) (dat bank : List Byte) : List Byte :=
  t.layout.vars.foldl (fun b v => match v.retain, v.seg with
    | some r, some p => putSlice b p (slice dat r v.size)
    | _, _ => b) bank

/-- A task as control start or adoption sets it: bank, cycle count, first cycle (R342). -/
def State.freshTask (s : State) (n : Nat) (t : Task) (warm : Bool) : Task :=
  let copy := if warm && t.retainLen ≠ 0 then s.retainBest n t else none
  let init := initialBank t.layout t.stateLen
  { t with
    ph := .idle, cycle := match copy with | some (_, b) => fLe b 8 8 + 1 | none => 0
    committed := match copy with | some (_, b) => t.restore (slice b 80 t.retainLen) init | none => init
    working := [], input := [], outWork := zeros t.outLen, output := zeros t.outLen, outs := 0, outHeld := false, lastCommit := 0
    first := true, warm := warm, prevHeld := false, lastHeld := false, longer := false, overRun := 0, overruns := 0, etLast := 0
    etMax := none, et := 0, heldCause := 0, again := false, voteHeld := 0, skips := 0, fromTick := s.now + 600000 }

/-- Every slot's VALID is 0 on both dies (R342). -/
def State.clearedRetain (s : State) : RetainArea :=
  let z := fun (m : Store (List Byte)) => m.map (fun e => (e.1, putSlice e.2 (e.2.length - 4) (zeros 4)))
  { die0 := if s.log.degraded0 then s.retain.die0 else z s.retain.die0, die1 := if s.log.degraded1 then s.retain.die1 else z s.retain.die1 }

/-- Control starts (R340 to R342): kind 0 COLD, 1 WARM. The node enters RUN, or DEGRADED where a resource is lost. -/
def controlStart (kind : Nat) (s : State) : State :=
  let dem := if kind = 1 then s.demotion else none
  let warm := kind = 1 && dem.isNone
  let s0 := match dem with | some (n, c) => logEvent 0x0702 sevWarning [byte n, byte c] s | none => s
  let s1 := releaseForces (fun _ => true) 5 s0
  let area := if warm then s1.retain else s1.clearedRetain
  let s2 : State := { s1 with retain := area, ctl := { s1.ctl with
    tasks := s1.ctl.tasks.map (fun (e : Nat × Task) => (e.1, { s.freshTask e.1 e.2 warm with
      obj := (((s.tack.active.map Tack.sections).getD [])[fLe e.2.desc 40 2]?).elim e.2.obj Section.content
      st := (if s.startsHere e.1 e.2 then .running else .idle), pair := none, swapped := false
      runNid := (if s.startsHere e.1 e.2 then s.node.nid else 0) }))
    fwaits := [], swaps := [], started := (if warm then 2 else 1), startArmed := false, startDue := false } }
  let s2p := s2.ctl.tasks.foldl (fun s e => if e.2.placeable then
    enableSubs e.2 (e.2.st = .running) (enablePubs e.2 (e.2.st = .running) s) else s) { s2 with wr := { s2.wr with warmFirst := warm } }
  let s3 := assignPairs ((s2p.ctl.tasks.filter (fun e => e.2.st = .running)).map Prod.fst) s2p
  let s4 := setState (if s.node.lost = 0 then .run else .degraded) 8 0 (canControlStart s3)
  let k := (s4.ctl.tasks.filter (fun e => e.2.st = .running)).length
  let s5 := raise .control 1 (logEvent 0x0701 sevNotice ([byte (b01 warm)] ++ le 4 k) s4)
  s5.ctl.tasks.foldl (fun s e => if s.elsewhere e.1 e.2 && e.2.enabled then
    raise .wrangler 6 (logEvent 0x0908 sevError (le 4 ((s.placeRec e.1).elim 0 placeId) ++ [1]) s) else s) s5

end Sys2Proof.Machine
end

