-- ==== Sys2Proof/Machine/Flags.lean ====
section
/-! DEFINITION. The status registers computed from the state: NODE_STATE, NODE_ROLE, HITCH_INFO, LOG_STATUS, HOST_WATCH,
mailbox registers, IRQ_SUMMARY, SNAP_INFO. -/
namespace Sys2Proof.Machine

/-- NODE_STATE (R47). -/
def State.nodeStateReg (s : State) : Nat :=
  s.node.state.code + flag (s.node.lost ≠ 0) 4 + s.node.heldCause * 256 + s.node.prev.code * 65536

/-- NODE_ROLE (R48). -/
def State.nodeRoleReg (s : State) : Nat :=
  s.node.form.code + s.node.chipIndex * 4 + flag s.node.active 4 + flag s.node.lineA 5 + flag s.node.lineB 6

/-- HITCH_INFO (R99). -/
def State.hitchInfoReg (s : State) : Nat :=
  let h := s.hitch
  h.vehicle % 256 + h.nodes % 64 * 2 ^ 8 + h.consist % 64 * 2 ^ 14 + h.position % 64 * 2 ^ 20 + flag h.orient 27
    + h.mode % 4 * 2 ^ 28 + flag h.inhibited 30 + flag h.rehitch 31

/-- The SEALED region holds as many records as it has slots (R528). -/
def Studbook.sealedFull (l : Studbook) : Bool := l.sealedSlots ≤ l.seald.slots.length

/-- LOG_STATUS (R547). -/
def State.logStatusReg (s : State) : Nat :=
  b01 s.log.degraded0 + flag s.log.degraded1 1 + flag s.log.mediaFault 2 + flag s.log.sealedFull 3 + flag s.log.scanning 4

/-- FW_VERSION and ACS_VERSION (R564). -/
def State.fwVersion (s : State) : Nat := if s.boot.fwRunning then 0x03020000 + s.boot.fwBuild.toNat else 0
def State.acsVersion (s : State) : Nat := if s.boot.fwRunning then 0x0302 else 0

/-- HOST_WATCH (R595). -/
def State.hostWatchReg (s : State) : Nat := s.host.timeoutMs % 65536 + flag s.host.expired 30 + flag s.host.armed 31

/-- MBX_STATUS (R571). -/
def Mailbox.statusReg (b : Mailbox) : Nat :=
  b.rspLen % 8192 + b.completed % 64 * 2 ^ 16 + flag b.aborted 26 + flag b.badBatch 27 + flag b.overrun 28
    + flag b.notify 29 + flag b.done 30 + flag b.busy 31

/-- MBX_SEQ (R571). -/
def Mailbox.seqReg (b : Mailbox) : Nat := b.accSeq.toNat + b.doneSeq.toNat * 65536

/-- MBX_DONE_MAP (R591). -/
def State.mbxDoneMap (s : State) : Nat :=
  sumOf ((List.range 16).map (fun m =>
    let b := s.host.box m
    flag ((b.done && b.doneEn) || (b.notify && b.notifyEn)) m))

/-- A block holds a set cause bit whose mask bit is 1. -/
def State.causeSet (s : State) (b : CauseBlk) : Bool := (s.cause b).cause &&& (s.cause b).mask ≠ 0

/-- CAN_CAUSE: the OR of each channel's cause bits under its mask (R470). -/
def State.canCauseReg (s : State) : Nat := sumOf ((List.range 8).map (fun c => flag (s.causeSet (.can c)) c))

/-- IRQ_SUMMARY (R591). -/
def State.irqSummary (s : State) : Nat :=
  let c := s.causeSet
  b01 (c .sys) + flag (c .hitch) 1 + flag (c .time) 2 + flag (c .harness) 3 + flag (c .port) 4 + flag (c .stream) 5
    + flag (c .control) 6 + flag (c .wrangler) 7 + flag (c .redund) 8 + flag (s.canCauseReg ≠ 0) 9 + flag (c .legacy) 10
    + flag (c .bridge) 11 + flag (c .log) 12 + flag (s.mbxDoneMap ≠ 0) 13

/-- SNAP_INFO (R151). -/
def State.snapInfo (s : State) : Nat :=
  let t := s.time
  flag t.backInit 5 + flag t.tbLock 6 + flag t.pri.suspect 7 + t.pri.st.code * 2 ^ 8 + t.sec.st.code * 2 ^ 11
    + t.sel % 2 * 2 ^ 14 + flag (s.time.slewAt s.slewMax s.now ≠ 0) 15 + s.time.epoch.toNat * 2 ^ 16

end Sys2Proof.Machine
end

