-- ==== Sys2Proof/Machine/Studbook.lean ====
section
/-! DEFINITION. The Studbook's commands (13_studbook.md): committing records, media faults, witnesses, scans, the LOG
commands. -/
namespace Sys2Proof.Machine

/-- Region sizes of the active image in slots: SEALED and HIGH (R529). -/
def State.sealedCfg (s : State) : Nat := s.param 0x1A 1 0xFFFF 2 * 8192
def State.highCfg (s : State) : Nat := s.param 0x1A 2 0xFFFF 62 * 8192

/-- Slots of the LOW region: the rest of 192 MiB (R529). -/
def Studbook.lowSlots (l : Studbook) : Nat := 1572864 - l.sealedSlots - l.highSlots

/-- The payload of a stream frame that the Groom firmware sends: header and body. The spec gives CYCLE_SEC and CYCLE_NS of such a
frame no value: a free value (log entry 1). -/
def State.chipFrame (s : State) (func : Nat) (body : List Byte) : List Byte :=
  streamHeader 0 func s.node.nid s.hitch.gen s.time.epoch body.length (s.freeNat % 2 ^ 32) (s.freeNat / 2 ^ 32 % 2 ^ 32) ++ body

/-- Send a witness slot on both lines towards both directions and on MGMT (R540). -/
def sendWitness (slot : List Byte) (s : State) : State :=
  match s.streamEtype with
  | none => s
  | some et =>
    let s1 := { s with log := { s.log with witnessSeq := s.log.witnessSeq + 1 } }
    let s2 := sendBackbone (s.classOf 6) (fun p =>
      { da := s.witnessMac, sa := s.portMac p, vlan := some { pcp := 6, dei := false, vid := s.bridgeVid }
        rtag := some s.log.witnessSeq, etype := et, payload := s.chipFrame 0xFF30 slot }) (useFree s1)
    tugAll .mgmt 0x03 slot s2

/-- A record is witnessed: sent now and twice more (R540); witness records never are (R545). -/
def witness (r : Rec) (s : State) : State :=
  if r.witness || s.node.state = .stabled || (s.streamEtype).isNone then s
  else sendWitness r.slot (count (statLog 13)
    { s with log := { s.log with witnesses := s.log.witnesses ++ [{ slot := r.slot, seq := r.seq, left := 2 }] } })

/-- The region number of a severity: 0 LOW, 1 HIGH, 2 SEALED (R527). -/
def regionOf (sev : Nat) : Nat := if sev < 3 then 0 else if sev < 7 then 1 else 2

/-- A region by its number. -/
def Studbook.region (l : Studbook) (k : Nat) : Region := if k = 0 then l.low else if k = 1 then l.high else l.seald

/-- Write a region by its number. -/
def Studbook.setRegion (l : Studbook) (k : Nat) (r : Region) : Studbook :=
  if k = 0 then { l with low := r } else if k = 1 then { l with high := r } else { l with seald := r }

/-- Slots of a region. -/
def Studbook.capacity (l : Studbook) (k : Nat) : Nat :=
  if k = 0 then l.lowSlots else if k = 1 then l.highSlots else l.sealedSlots

/-- A record written to the next slot of a region on the dies that verify it, with the checkpoint every 4,096 records
(R532, R543). -/
def Region.write (cap : Nat) (r : Rec) (on0 on1 : Bool) (g : Region) : Region :=
  let p := (Store.find g.slots g.next).getD { die0 := none, die1 := none }
  let g1 := { g with
    slots := Store.ins g.slots g.next { die0 := if on0 then some r else p.die0, die1 := if on1 then some r else p.die1 }
    next := if cap = 0 then 0 else (g.next + 1) % cap
    since := g.since + 1 }
  if g1.since < 4096 then g1 else { g1 with since := 0, ckptB := g.ckptA, ckptA := some (g.next, r.seq) }

/-- Whether the next slot of a region already holds a record. -/
def Region.wraps (g : Region) : Bool := (Store.find g.slots g.next).isSome

/-- LOG_WRITE commands whose record is committed complete (R537, R552). -/
def finishWaits (seq status : Nat) (s : State) : State :=
  (s.log.waits.filter (fun w => w.seq = seq)).foldl
    (fun s w => acsDone w.ref status (le 8 seq ++ le 4 0) (count (statLog 15) s))
    { s with log := { s.log with waits := s.log.waits.filter (fun w => w.seq ≠ seq) } }

/-- A committed record counts, and raises NEW_RECORD from IRQ_SEVERITY on (R548, R549). -/
def committed (r : Rec) (status : Nat) (s : State) : State :=
  let s1 := count (statLog 0) s
  finishWaits r.seq status (if s.irqSeverity ≤ r.sev then raise .log 0 s1 else s1)

/-- A record goes to the next last-words slot, the kept MEDIA_FAULT slot left alone (R539). -/
def lastWords (r : Rec) (keep : Bool) (s : State) : State :=
  let i := if s.log.lwKept = some s.log.lwNext then (s.log.lwNext + 1) % 512 else s.log.lwNext
  let s1 := count (statLog 11)
    { s with log := { s.log with
        lastWords := Store.ins s.log.lastWords i r
        lwNext := (i + 1) % 512
        lwKept := if keep then some i else s.log.lwKept } }
  committed r stMedia (if r.sev ≥ 4 then witness r s1 else s1)

/-- The QUEUE_DROP record is due when the queue has room: at once, then at most one a second (R531). -/
def queueDropDue (s : State) : State :=
  let due := s.log.dropPending && decide (s.log.queue.length < 1024)
    && (match s.log.dropLast with | some t => decide (t + ticksPerSec ≤ s.now) | none => true)
  if due then
    let pay := le 4 s.log.dropCount ++ le 8 s.log.dropLowest
    logQueue (s.stampRec 0x0E07 sevWarning 0 false false pay)
      { s with log := { s.log with dropPending := false, dropCount := 0, dropLowest := 0, dropLast := some s.now } }
  else s

/-- A die fails verification: its mark, its counter, the cause, the lost resource (R533). -/
def degradeDie (die : Nat) (s : State) : State :=
  let s1 := { s with log := { s.log with
    degraded0 := s.log.degraded0 || die = 0, degraded1 := s.log.degraded1 || die = 1 } }
  raise .log 1 (count (statLog (6 + die)) s1)

/-- The front record meets a media fault: last words, then a MEDIA_FAULT record of its own (R538). -/
def mediaFault (die : Nat) (r : Rec) (s : State) : State :=
  let s1 := raise .log 2 { s with log := { s.log with mediaFault := true } }
  let s2 := lastWords r false s1
  let m := s2.stampRec 0x0E02 sevAlert 0 false false ([byte die] ++ le 8 r.seq)
  lastWords m true { s2 with log := { s2.log with nextSeq := s2.log.nextSeq + 1 } }

/-- The front record committed in its region (R527, R528, R532, R533). -/
def commitRecord (r : Rec) (ok0 ok1 : Bool) (s : State) : State :=
  let in0 := !s.log.degraded0
  let in1 := !s.log.degraded1
  let good0 := in0 && ok0
  let good1 := in1 && ok1
  if s.log.mediaFault then
    if r.sev ≥ 3 then lastWords r false s else count (statLog 12) s
  else if !good0 && !good1 then
    let s1 := if in0 then degradeDie 0 s else s
    let s2 := if in1 then degradeDie 1 s1 else s1
    setResource 2 true (mediaFault (if in1 && !ok1 then 1 else 0) r s2)
  else
    let full := r.sev = 7 && s.log.sealedFull
    let k := if full then 1 else regionOf r.sev
    let g := s.log.region k
    let s1 := { s with log := s.log.setRegion k (g.write (s.log.capacity k) r good0 good1) }
    let s2 := if k = 0 && g.wraps then count (statLog 3) s1 else if k = 1 && g.wraps then count (statLog 4) s1 else s1
    let s3 := committed r stOk s2
    let s4 := if full then
        let t := count (statLog 5) s3
        if s.log.sealedSaid then t
        else raise .log 3 (logEvent 0x0E05 sevError (le 4 s.log.sealedSlots)
          { t with log := { t.log with sealedSaid := true } })
      else s3
    let bad := if in0 && !ok0 then some 0 else if in1 && !ok1 then some 1 else none
    match bad with
    | none => s4
    | some d =>
      setResource 2 true (logEvent 0x0E01 sevCritical ([byte d, byte k] ++ le 4 g.next ++ le 8 r.seq) (degradeDie d s4))

/-- RECORD_COMMIT_DONE: the record at the front of the commit queue has been written and read back on the dies in service; ok0 and
ok1 say which die verified (R532, R533, R538, R539). -/
def execRecordCommitDone (ok0 ok1 : Bool) (s : State) : Out :=
  .next (if !s.logs || !s.log.scanned then s else
    match s.log.queue with
    | [] => s
    | r :: rest =>
      releaseFences (queueDropDue (commitRecord r ok0 ok1 { s with log := { s.log with queue := rest } })))

/-- RATE_SUMMARY: 10 s after a limiter's first suppression without a record passing, a record without limiter gives its count
(R536). -/
def execRateSummary (limiter : Nat) (s : State) : Out :=
  let l := Store.get {} s.log.limiters limiter
  .next (if !s.logs || l.supp = 0 then s else
    logQueue (s.stampRec 0x0E06 sevInfo 0 false false (le 2 limiter ++ le 2 l.lastCode ++ le 4 l.supp))
      (setLimiter limiter { l with supp := 0 } s))

/-- WITNESS_REPEAT: the witness sent longest ago is sent again, three times in all (R540). -/
def execWitnessRepeat (s : State) : Out :=
  .next (match s.log.witnesses with
    | [] => s
    | w :: rest =>
      if !s.logs then s else
      sendWitness w.slot { s with log := { s.log with
        witnesses := if w.left ≤ 1 then rest else rest ++ [{ w with left := w.left - 1 }] } })

/-- A witness slot is intact: its CRC and VALID are right (R541). -/
def slotOk (b : List Byte) : Bool :=
  b.length = 128 && fLe b 120 4 = (crc32 (b.take 120)).toNat
    && fLe b 124 4 = (BitVec.ofNat 32 (fLe b 0 4) ^^^ 0xA5A55A5A#32).toNat

/-- WITNESS_RECEIVE: a witness of another node is checked and stored once as a WITNESS record (R541). -/
def storeWitness (src : Nid) (gen : Word) (slot : List Byte) (s : State) : State :=
  let seq := fLe slot 0 8
  if !s.node.state.inLine || (s.streamEtype).isNone || !slotOk slot || s.log.seen.contains (src, seq) then s else
  let pay := nidBytes src ++ slice slot 0 8 ++ slice slot 16 4 ++ slice slot 20 4 ++ slice slot 14 2 ++ slice slot 28 1
    ++ [0] ++ slice slot 32 60
  let s1 := { s with log := { s.log with seen := (src, seq) :: s.log.seen } }
  let lim := Store.get {} s.log.limiters (limiterOf 0x0E03)
  let r := { s1.stampRec 0x0E03 sevAlert lim.supp true false pay with gen := gen, node := fLe slot 29 1 }
  raise .log 4 (count (statLog 14)
    (logQueue r (setLimiter (limiterOf 0x0E03) (lim.pass (s.rateOf 0x0E03).1 (s.rateOf 0x0E03).2 s.now) s1)))

/-- WITNESS_RECEIVE (R541). -/
def execWitnessReceive (src : Nid) (gen : Word) (slot : List Byte) (s : State) : Out :=
  .next (if s.logs then storeWitness src gen slot s else s)

/-- A slot read finds a failing copy: the twin is used and rewritten, or the record is unreadable (R534). -/
def badCopy (b : BadCopy) (s : State) : State :=
  let s1 := if b.twinOk then count (statLog (8 + b.die)) s else count (statLog 10) s
  let fix (g : Region) : Region :=
    if b.twinOk then { g with slots := Store.upd g.slots b.slot (fun p =>
      if b.die = 0 then { p with die0 := p.die1 } else { p with die1 := p.die0 }) }
    else { g with slots := Store.upd g.slots b.slot (fun _ => { die0 := none, die1 := none }) }
  let s2 := { s1 with log := s1.log.setRegion b.area (fix (s1.log.region b.area)) }
  logEvent 0x1007 sevError ([byte b.die, byte b.area] ++ le 4 b.slot ++ [byte (if b.twinOk then 1 else 2)]) s2

/-- SCRUB_PASS: the daily pass ends, having rewritten the failing copies whose twin is good, and a SCRUB record is written (R635,
R637). -/
def execScrubPass (area slots : Nat) (bad : List BadCopy) (s : State) : Out :=
  .next (if !s.logs || !s.node.state.inLine then s else
    let s1 := if area = 3 then bad.foldl (fun s b => badCopy b s) s else
      bad.foldl (fun s b => logEvent 0x1007 sevError
        ([byte b.die, byte b.area] ++ le 4 b.slot ++ [byte (if b.twinOk then 1 else 2)])
        (if b.twinOk then count (statLog (8 + b.die)) s else count (statLog 10) s)) s
    logEvent 0x100B sevNotice ([byte area] ++ le 4 slots ++ le 4 (bad.countP (fun b => b.twinOk))
      ++ le 4 (bad.countP (fun b => !b.twinOk))) s1)

/-- Every readable record of a region, by rising SEQ order of its slots. -/
def Region.recs (l : Studbook) (g : Region) : List Rec :=
  g.slots.filterMap (fun e => (if l.degraded0 then none else e.2.die0) <|> (if l.degraded1 then none else e.2.die1))

/-- Insert a record by SEQ. -/
def insBySeq (r : Rec) : List Rec → List Rec
  | [] => [r]
  | x :: xs => if r.seq ≤ x.seq then r :: x :: xs else x :: insBySeq r xs

/-- Records in SEQ order. -/
def sortBySeq (rs : List Rec) : List Rec := rs.foldr insBySeq []

/-- Valid copies on both dies made equal, the higher SEQ kept (R543). -/
def Pair.repair (p : Pair) : Pair :=
  match p.die0, p.die1 with
  | some a, some b => if a.seq < b.seq then { die0 := some b, die1 := some b } else { die0 := some a, die1 := some a }
  | some a, none => { die0 := some a, die1 := some a }
  | none, some b => { die0 := some b, die1 := some b }
  | none, none => p

/-- A region after its scan: copies repaired, the next slot after the record of highest SEQ (R543). -/
def Region.scan (cap : Nat) (both : Bool) (g : Region) : Region :=
  let slots := if both then g.slots.map (fun e => (e.1, e.2.repair)) else g.slots
  let best := slots.foldl (fun (a : Option (Nat × Nat)) e =>
    match e.2.die0 <|> e.2.die1 with
    | some r => (match a with | some b => if b.2 < r.seq then some (e.1, r.seq) else a | none => some (e.1, r.seq))
    | none => a) none
  { g with slots := slots, next := match best with | some b => if cap = 0 then 0 else (b.1 + 1) % cap | none => 0 }

/-- The highest SEQ a chip still holds. -/
def Studbook.highest (l : Studbook) : Nat :=
  maxOf ((l.low.slots ++ l.high.slots ++ l.seald.slots).map (fun e =>
      max ((e.2.die0.map Rec.seq).getD 0) ((e.2.die1.map Rec.seq).getD 0))
    ++ l.lastWords.map (fun e => e.2.seq))

/-- A region needs a scan of its whole: it has records and neither checkpoint reads (R544); a region of fewer than 4,096 records was
never checkpointed and is read from its first slot. -/
def Region.needsWhole (g : Region) : Bool := g.ckptA.isNone && g.ckptB.isNone && decide (4096 < g.slots.length)

/-- Records the scan repaired. -/
def Studbook.repairs (l : Studbook) : Nat :=
  (l.low.slots ++ l.high.slots ++ l.seald.slots).countP (fun e => decide (e.2.die0 ≠ e.2.die1))

/-- The state after a scan of the regions (R543, R544). -/
def Studbook.afterScan (l : Studbook) (whole : Bool) : Studbook :=
  let both := !l.degraded0 && !l.degraded1
  let n := max (l.highest + 1) l.seqFloor
  { l with
    low := l.low.scan l.lowSlots both
    high := l.high.scan l.highSlots both
    seald := l.seald.scan l.sealedSlots both
    nextSeq := if whole then max l.nextSeq (max n l.seqLimit) else max n 1
    scanned := !whole
    scanning := whole }

/-- Re-number the records accepted before the scan gave the next SEQ. -/
def renumber (from_ : Nat) (q : List Rec) : List Rec := q.mapIdx (fun i r => { r with seq := from_ + i })

/-- RECOVERY_SCAN: at firmware start the checkpoint scan rebuilds each region's next slot and the next SEQ, repairs copies, and writes
SCAN_DONE; a region without a readable checkpoint leaves SCANNING set (R543, R544). -/
def execRecoveryScan (durationMs : Nat) (s : State) : Out :=
  .next (if !s.logs || s.log.scanned then s else
    let whole := s.log.low.needsWhole || s.log.high.needsWhole || s.log.seald.needsWhole
    let l := s.log.afterScan whole
    let l1 := { l with queue := renumber l.nextSeq l.queue, nextSeq := l.nextSeq + l.queue.length }
    let s1 := { s with log := l1 }
    if whole then s1 else
    raise .log 6 (logEvent 0x0E04 sevNotice ([1] ++ le 4 s.log.repairs ++ le 8 s.log.highest ++ le 4 durationMs) s1))

/-- WHOLE_REGION_SCAN_DONE: SCANNING clears and SCAN_DONE is written; SEQ has gone on from SEQ_LIMIT (R544). -/
def execWholeRegionScanDone (durationMs : Nat) (s : State) : Out :=
  .next (if !s.logs || !s.log.scanning then s else
    raise .log 6 (logEvent 0x0E04 sevNotice ([2] ++ le 4 s.log.repairs ++ le 8 s.log.highest ++ le 4 durationMs)
      { s with log := { s.log with scanning := false, scanned := true } }))

/-! ## LOG commands (R551 to R556) -/

/-- The records LOG_READ selects, in the order asked (R555). -/
def logSelect (rs : List Rec) (cursor : Nat) (desc : Bool) (minSev code mask max_ : Nat) : List Rec :=
  let ok := (sortBySeq rs).filter (fun r => minSev ≤ r.sev && (BitVec.ofNat 16 r.code ^^^ BitVec.ofNat 16 code) &&& BitVec.ofNat 16 mask = 0
    && (if desc then decide (r.seq ≤ cursor) else decide (cursor ≤ r.seq)))
  (if desc then ok.reverse else ok).take max_

/-- LOG_READ (R555): records from a cursor, merged in SEQ order; from the last-words area while a media fault stands (R542). -/
def execLogRead (c : Acs) (bad : List BadCopy) (s : State) : Out :=
  .next (acsLen 0x0E00 inServing 16 c (fun s =>
    badArgIf (c.arg 8 1 > 1 || c.arg 9 1 > 7 || c.arg 10 1 > 7 || c.arg 11 1 = 0 || c.arg 11 1 > 31) 0x0E00 c (fun s =>
    if s.log.scanning then done c 0x0E00 stBusy [] s else
    let s1 := if s.log.mediaFault then s else bad.foldl (fun s b => badCopy b s) s
    let l := s1.log
    let sel := c.arg 9 1
    let pool := if l.mediaFault then l.lastWords.map Prod.snd else
      (if sel = 0 ∨ bit sel 0 then l.low.recs l else []) ++ (if sel = 0 ∨ bit sel 1 then l.high.recs l else [])
        ++ (if sel = 0 ∨ bit sel 2 then l.seald.recs l else [])
    let seqs := pool.map Rec.seq
    let oldest := (minOf seqs).getD 0
    let newest := maxOf seqs
    let raw := c.arg 0 8
    let cursor := if raw = 0 then oldest else if raw = 2 ^ 64 - 1 then newest else raw
    let desc := c.arg 8 1 = 1
    let got := logSelect pool cursor desc (c.arg 10 1) (c.arg 12 2) (c.arg 14 2) (c.arg 11 1)
    let next := match got.getLast? with
      | some r => if desc then r.seq - 1 else r.seq + 1
      | none => raw
    let more := logSelect pool next desc (c.arg 10 1) (c.arg 12 2) (c.arg 14 2) 1
    let gap := (match got.head? with
      | some r => (if desc then cursor - r.seq else r.seq - cursor) ≠ 0 && (sel = 0)
          && decide (raw ≠ 0 ∧ raw ≠ 2 ^ 64 - 1) && !(seqs.contains cursor)
      | none => false)
    let flags := flag (got.isEmpty || more.isEmpty) 0 + flag gap 1 + flag l.mediaFault 2
      + flag (bad.any (fun b => !b.twinOk)) 3
    done c 0x0E00 (if l.mediaFault then stMedia else stOk)
      (le 8 next ++ [byte got.length, byte flags, 0, 0] ++ le 8 oldest ++ le 8 newest ++ zeros 4
        ++ (got.map Rec.slot).flatten) s1) s) s)

/-- A host record is offered, and its LOG_WRITE completes or waits for the commit (R537, R552). -/
def hostRecord (r : AcsRef) (code sev : Nat) (pay : List Byte) (s : State) : State :=
  let s1 := logWith code sev false true pay s
  let st := if s.log.mediaFault then stMedia else stOk
  match s.fate code sev with
  | .filtered => acsDone r st (le 8 0 ++ le 4 2) s1
  | .suppressed => acsDone r st (le 8 0 ++ le 4 1) s1
  | .dropped => acsDone r st (le 8 0 ++ le 4 0) s1
  | .accepted q => { s1 with log := { s1.log with waits := s1.log.waits ++ [{ seq := q, ref := r }] } }

/-- Records accepted during a hitch switch step are stamped when it ends (R71, R531). -/
def logRelease (s : State) : State :=
  s.log.deferred.foldl (fun s d => match d.ref with
      | some r => hostRecord r d.code d.sev d.payload s
      | none => logWith d.code d.sev d.witness d.host d.payload s)
    { s with log := { s.log with deferred := [] } }

/-- LOG_WRITE (R537, R552): one host record; it completes when the record is committed, suppressed or filtered. -/
def execLogWrite (c : Acs) (s : State) : Out :=
  .next (acs 0x0E01 inServing c (fun s =>
    let code := c.arg 0 2
    let sev := c.arg 2 1
    if c.args.length < 4 || c.args.length ≠ 4 + c.arg 3 1 || c.arg 3 1 > 88 then done c 0x0E01 stBadLength [] s
    else badArgIf (code < 0x8000 || sev > 7 || (sev = 7 && !s.hostSeal)) 0x0E01 c (fun s =>
      if s.hitch.switching then
        { s with log := { s.log with deferred := s.log.deferred ++
          [{ code := code, sev := sev, witness := false, host := true, payload := c.args.drop 4, ref := some (c.ref 0x0E01) }] } }
      else hostRecord (c.ref 0x0E01) code sev (c.args.drop 4) s) s) s)

/-- One region's block of LOG_STATUS (R556). -/
def regionBlock (l : Studbook) (k : Nat) : List Byte :=
  let seqs := ((l.region k).recs l).map Rec.seq
  le 4 (l.capacity k) ++ le 4 (l.region k).slots.length ++ le 8 ((minOf seqs).getD 0) ++ le 8 (maxOf seqs)

/-- LOG_STATUS (R556). -/
def execLogStatus (c : Acs) (s : State) : Out :=
  .next (acsLen 0x0E02 inServing 0 c (fun s =>
    done c 0x0E02 stOk (le 4 s.logStatusReg ++ le 2 s.log.queue.length ++ le 2 s.log.lastWords.length
      ++ le 8 s.log.nextSeq ++ regionBlock s.log 0 ++ regionBlock s.log 1 ++ regionBlock s.log 2) s) s)

/-- An authorisation for an opcode stands on a mailbox; using it removes it (R622). -/
def State.authOk (s : State) (m opcode : Nat) : Bool :=
  s.sec.auths.any (fun a => a.mbx = m && a.opcode = opcode && decide (s.now ≤ a.tick + 60 * ticksPerSec))

/-- Each authorisation admits one command (R622): the oldest that stands goes. -/
def useAuth (m opcode : Nat) (s : State) : State :=
  { s with sec := { s.sec with auths := s.sec.auths.eraseP (fun a => a.mbx = m && a.opcode = opcode && decide (s.now ≤ a.tick + 60 * ticksPerSec)) } }

/-- A region emptied (R553). -/
def Region.cleared (g : Region) : Region := { g with slots := [], next := 0, since := 0, ckptA := none, ckptB := none }

/-- Slots of the SEALED region moved to its start in SEQ order (R530). -/
def Region.packed (cap : Nat) (g : Region) : Region :=
  let seqOf (p : Pair) : Nat := ((p.die0 <|> p.die1).map Rec.seq).getD 0
  let ps := sortBy (fun a b => decide (seqOf a ≤ seqOf b)) ((g.slots.map Prod.snd).filter (fun p => p.die0.isSome || p.die1.isSome))
  { slots := (List.range ps.length).zip ps, next := if cap = 0 then 0 else ps.length % cap }

/-- Region sizes of the active image take effect (R530): where they change, SEQ_FLOOR is written, LOW and HIGH are erased, the SEALED records are kept, and a
LOG_CLEAR record with cause partition says so. -/
def repartition (s : State) : State :=
  if s.log.sealedSlots = s.sealedCfg && s.log.highSlots = s.highCfg then s else
  let l := s.log
  let l1 := { l with
    seqFloor := l.nextSeq, low := l.low.cleared, high := l.high.cleared, seald := l.seald.packed s.sealedCfg
    sealedSlots := s.sealedCfg, highSlots := s.highCfg }
  logEvent 0x0E08 sevNotice [3, 2] { s with log := l1 }

/-- LOG_CLEAR (R553): SEQ_FLOOR is written first, then the regions named are emptied, then the LOG_CLEAR record. -/
def execLogClear (c : Acs) (s : State) : Out :=
  .next (acsLen 0x0E03 inServing 4 c (fun s =>
    let r := c.arg 0 1
    badArgIf (r > 15 || c.nonZero 1 3) 0x0E03 c (fun s =>
      let guarded := bit r 2 || bit r 3
      if guarded && (decide (s.node.state ≠ .ready) || !s.authOk c.mbx 0x0E03) then done c 0x0E03 stDenied [] s
      else if bit r 3 && s.log.mediaFault then done c 0x0E03 stDenied [] s
      else
        let l := s.log
        let l1 := { l with
          seqFloor := l.nextSeq
          low := if bit r 0 then l.low.cleared else l.low
          high := if bit r 1 then l.high.cleared else l.high
          seald := if bit r 2 then l.seald.cleared else l.seald
          sealedSaid := if bit r 2 then false else l.sealedSaid
          lastWords := if bit r 3 then [] else l.lastWords
          lwNext := if bit r 3 then 0 else l.lwNext
          lwKept := if bit r 3 then none else l.lwKept }
        let s1 := { s with log := l1 }
        let s2 := if guarded then useAuth c.mbx 0x0E03 s1 else s1
        done c 0x0E03 stOk [] (logEvent 0x0E08 sevNotice [byte r, 1] s2)) s) s)

/-- LOG_MEDIA RESTORE (R554): a degraded die is copied whole from the good one; verified says that every write did. -/
def execLogMedia (c : Acs) (verified : Bool) (s : State) : Out :=
  .next (acsLen 0x0E04 [.ready] 4 c (fun s =>
    let die := c.arg 1 1
    badArgIf (c.arg 0 1 ≠ 1 || die > 1 || c.nonZero 2 2) 0x0E04 c (fun s =>
      let d0 := s.log.degraded0
      let d1 := s.log.degraded1
      if (if die = 0 then !d0 || d1 else !d1 || d0) then done c 0x0E04 stDenied [] s
      else if !verified then done c 0x0E04 stMedia [] s
      else
        let copy (g : Region) : Region := { g with slots := g.slots.map (fun e =>
          (e.1, if die = 0 then { e.2 with die0 := e.2.die1 } else { e.2 with die1 := e.2.die0 })) }
        let bank (b : Bank) : Bank := if die = 0 then { b with die0 := b.die1 } else { b with die1 := b.die0 }
        let s1 := { s with
          log := { s.log with
            low := copy s.log.low, high := copy s.log.high, seald := copy s.log.seald
            degraded0 := if die = 0 then false else d0, degraded1 := if die = 1 then false else d1 }
          tack := { s.tack with bank0 := bank s.tack.bank0, bank1 := bank s.tack.bank1 } }
        let kib := (192 + 32 + 32) * 1024
        done c 0x0E04 stOk (le 4 kib) (setResource 2 false
          (logEvent 0x0E09 sevNotice ([byte die] ++ le 4 kib) s1))) s) s)

end Sys2Proof.Machine
end

