-- ==== Sys2Proof/Machine/WranglerOps.lean ====
section
/-! DEFINITION. Shared operations of Wrangler (08_wrangler.md): measurements and frames, rounds, the placement procedure, migrations, adoption. -/
namespace Sys2Proof.Machine

/-! ## Policy (R362, R392) -/

/-- Parameters of R392, in the units of R607. -/
def State.wrTickMs (s : State) : Nat := s.param 0x12 2 0xFFFF 20
def State.wrPeriodS (s : State) : Nat := s.param 0x12 3 0xFFFF 1
def State.measureS (s : State) : Nat := s.param 0x12 4 0xFFFF 10
def State.capLimit (s : State) : Nat := s.param 0x12 5 0xFFFF 700
def State.pairLimit (s : State) : Nat := s.param 0x12 6 0xFFFF 900
def State.hysteresis (s : State) : Nat := s.param 0x12 7 0xFFFF 100
def State.homeBonus (s : State) : Nat := s.param 0x12 8 0xFFFF 200
def State.hopWeight (s : State) : Nat := s.param 0x12 9 0xFFFF 5
def State.maxMoves (s : State) : Nat := s.param 0x12 10 0xFFFF 4
def State.minDwellS (s : State) : Nat := s.param 0x12 11 0xFFFF 30
def State.fallbackCount (s : State) : Nat := s.param 0x12 12 0xFFFF 3
def State.handoverRate (s : State) : Nat := s.param 0x12 13 0xFFFF 1000
def State.migExtend (s : State) : Nat := s.param 0x12 14 0xFFFF 8
def State.lineHystUs (s : State) : Nat := s.param 0x12 15 0xFFFF 2

/-- The policy digest (R362): every parameter but PLACE_DOMAIN in the order of R392, little-endian, in its size of R607. -/
def State.policyDigest (s : State) : Nat :=
  (crc32 (le 2 s.wrTickMs ++ le 1 s.wrPeriodS ++ le 2 s.measureS ++ le 2 s.capLimit ++ le 2 s.pairLimit ++ le 2 s.hysteresis
    ++ le 2 s.homeBonus ++ le 1 s.hopWeight ++ le 1 s.maxMoves ++ le 2 s.minDwellS ++ le 1 s.fallbackCount ++ le 2 s.handoverRate
    ++ le 1 s.migExtend ++ le 1 s.lineHystUs ++ macBytes s.wrMac)).toNat

/-- The node takes part in rounds (R360, R370, R375, R396). -/
def State.wrOn (s : State) : Bool := s.placeDomain ≠ 0 && s.node.state.inLine && s.hitch.gen ≠ 0

/-- This chip sends the node's Wrangler frames and keeps its rounds (R394, R395). -/
def State.wrSender (s : State) : Bool := s.wrOn && s.timeLeads

/-- This chip acts and records for Wrangler: every chip but a Span standby. -/
def State.wrActs (s : State) : Bool := s.node.form ≠ .span || s.node.active

/-- Record and raise a Wrangler event; a Span standby is silent. -/
def wrSay (code sev : Nat) (pay : List Byte) (bit_ : Option Nat) (s : State) : State :=
  if !s.wrActs then s else
  let s1 := logEvent code sev pay s
  match bit_ with | some b => raise .wrangler b s1 | none => s1

/-! ## Measurements (R368, R369, R393) -/

/-- The largest execution time within MEASURE_WINDOW of a task, WCET_NS before the first. -/
def State.etEst (s : State) (n : Nat) (t : Task) : Nat :=
  let w := s.measureS * ticksPerSec
  (((Store.get [] s.wr.times n).filter (fun e => decide (s.now ≤ e.1 + w))).head?.map Prod.snd).getD t.wcetNs

/-- Note an execution time: older ones that it covers are struck off, so that the times fall. -/
def wrMeasure (n ns : Nat) (s : State) : State :=
  let w := s.measureS * ticksPerSec
  let old := (Store.get [] s.wr.times n).filter (fun e => decide (s.now ≤ e.1 + w) && decide (ns < e.2))
  { s with wr := { s.wr with times := Store.ins s.wr.times n (old ++ [(s.now, ns)]) } }

/-- LOAD of a task. -/
def State.taskLoad (s : State) (n : Nat) (t : Task) : Nat := (1000 * s.etEst n t + t.period * 250000 - 1) / (t.period * 250000)

/-- FIXED_LOAD, CAPACITY, ELIGIBLE. -/
def State.eligible (s : State) : Bool := s.node.state.running && s.ctl.started ≠ 0 && !s.activePairs.isEmpty && !s.wr.outlier
def State.capacity (s : State) : Nat := if s.eligible then 1000 * s.activePairs.length else 0
def State.fixedLoad (s : State) : Nat :=
  sumOf ((s.ctl.tasks.filter (fun e => e.2.st = .running && !e.2.placeable)).map (fun e => s.taskLoad e.1 e.2)) + 40 * s.activePairs.length

/-- Placement records with the tasks they place, in ascending PLACE_ID: record, index, task. -/
def State.placeTasks (s : State) : List (List Byte × Nat × Task) :=
  sortBy (fun a b => decide (placeId a.1 ≤ placeId b.1))
    ((records (s.sectionOf 0x13 0) 32).filterMap (fun r => (s.task? (fLe r 0 1)).map (fun t => (r, fLe r 0 1, t))))

/-- The migration of a task. -/
def State.mig? (s : State) (n : Nat) : Option Migration := s.wr.migs.find? (fun m => m.task = n)

/-- Change the migration of a task. -/
def setMig (n : Nat) (f : Migration → Migration) (s : State) : State :=
  { s with wr := { s.wr with migs := s.wr.migs.map (fun m => if m.task = n then f m else m) } }

/-- Remove the migration of a task. -/
def dropMig (n : Nat) (s : State) : State := { s with wr := { s.wr with migs := s.wr.migs.filter (fun m => m.task ≠ n) } }

/-- The exact state held of a task. -/
def State.exact? (s : State) (id : Nat) : Option WrExact := s.wr.exact.find? (fun x => x.id = id)

/-- STATE_CYCLE of a task (R373, R389). -/
def State.stateCycle (s : State) (id n : Nat) (t : Task) : Nat :=
  match t.st with
  | .running | .migOut | .stopped | .faulted => t.lastCommit
  | .migIn => ((s.mig? n).bind Migration.have_).getD 0
  | _ =>
    match s.exact? id with
    | some x => x.cycle
    | none => if s.wr.warmFirst && t.retainLen ≠ 0 && s.retainCause n t = 0 then (s.retainBest n t).elim 0 (fun e => fLe e.2 8 8) else 0

/-- STATE of a task entry. -/
def entryState (t : Task) : Nat :=
  match t.st with
  | .running | .migOut => 1 | .migIn => 2 | .stopped => 3 | .faulted => 4 | _ => 0

/-- A task entry of the REPORT (R373). -/
def State.reportEntry (s : State) (r : List Byte) (n : Nat) (t : Task) : List Byte :=
  be 4 (placeId r) ++ be 4 (t.descObj % 2 ^ 32) ++ be 2 (min 0xFFFF (s.taskLoad n t))
    ++ [byte (entryState t), byte (b01 (s.pinned n) + flag (s.wr.dwell.contains (placeId r)) 1 + flag (s.mig? n).isSome 2)]
    ++ be 8 (s.stateCycle (placeId r) n t)

/-- MEAN_DELAY of the link on the direction-2 side of a line, in ns. -/
def State.delayNs (s : State) (l : Line) : Nat := min 0xFFFF ((s.time.link (portOf l 2)).delay / 16)

/-- The body of the node's REPORT (R372). -/
def State.reportBody (s : State) : List Byte :=
  let es := (s.placeTasks.map (fun e => s.reportEntry e.1 e.2.1 e.2.2)).take 64
  be 2 s.capacity ++ be 2 (min 0xFFFF s.fixedLoad)
    ++ [byte (b01 s.eligible + flag s.wr.fallback 1 + flag s.wr.hold 2 + s.node.form.code * 8), byte es.length]
    ++ be 2 (min 0xFFFF s.wr.resA) ++ be 2 (min 0xFFFF s.wr.resB) ++ be 2 (s.delayNs .a) ++ be 2 (s.delayNs .b) ++ zeros 2 ++ es.flatten

/-! ## Frames (R370, R371) -/

/-- The message header. -/
def State.wrHeader (s : State) (msg kind round : Nat) : List Byte :=
  [byte msg, 0] ++ be 2 s.wr.msgSeq.toNat ++ be 4 s.placeDomain ++ be 4 s.policyDigest ++ [byte kind, 0, 0, 0] ++ be 4 round ++ zeros 4

/-- Tell the node's other chips of a step: 1 own report, 2 frame received, 4 freeze, 5 computed, 6 apply, 7 disagreed (R394, R395). -/
def wrTell (step : Nat) (nid : Nid) (data : List Byte) (s : State) : State :=
  (pieces 1000 (data.length / 1000 + 1) 0 data).foldl (fun s p =>
    tugAll .sync 7 ([byte step, byte (b01 (p.1 + p.2.length = data.length))] ++ nidBytes nid ++ p.2) s) s

/-- Send a message, with the next MSG_SEQ. -/
def wrSend (msg kind round : Nat) (body : List Byte) (s : State) : State :=
  let m := s.wrHeader msg kind round ++ body
  let s1 := { s with wr := { s.wr with msgSeq := s.wr.msgSeq + 1, rseq := s.wr.rseq + 1 } }
  match (if s.wrSender then s.streamEtype else none) with
  | none => s1
  | some et => sendBackbone (s.classOf 5) (fun p =>
      { da := s.wrMac, sa := s.portMac p, vlan := some { pcp := 5, dei := false, vid := s.bridgeVid }
        rtag := some s.wr.rseq, etype := et, payload := s.chipFrame 0xFF10 m }) (useFree s1)

/-- The sender and message of a Wrangler frame that this node takes: its own generation and domain, the first copy (R360, R370). -/
def State.wrTakes (s : State) (f : Frame) : Option (Nid × List Byte) :=
  let p := f.payload
  let m := slice p 32 (fBe p 18 2)
  let nid : Nid := BitVec.ofNat 64 (fBe p 4 8)
  if s.wrOn && decide (s.streamEtype = some f.etype) && fBe p 0 1 = 1 && fBe p 2 2 = 0xFF10 && fBe p 12 4 = s.hitch.gen.toNat
      && decide (24 ≤ m.length) && decide (nid ≠ s.node.nid) && fBe m 4 4 = s.placeDomain
      && !(s.wr.seen.contains (nid, fBe m 2 2)) then some (nid, m) else none

/-! ## Reports as read -/

/-- A task entry as read. -/
structure WrEntry where
  id    : Nat
  tag   : Nat
  load  : Nat
  st    : Nat
  flags : Nat
  cycle : Nat
  deriving DecidableEq, Repr

/-- A REPORT as read. -/
structure WrIn where
  nid  : Nid
  digest : Nat
  cap  : Nat
  fixed : Nat
  flags : Nat
  resA : Nat
  resB : Nat
  delA : Nat
  delB : Nat
  ents : List WrEntry
  deriving DecidableEq, Repr

/-- Read a REPORT message. -/
def wrInOf (e : Nid × List Byte) : WrIn :=
  let m := e.2
  let b := m.drop 24
  { nid := e.1, digest := fBe m 8 4, cap := fBe b 0 2, fixed := fBe b 2 2, flags := fBe b 4 1, resA := fBe b 6 2, resB := fBe b 8 2
    delA := fBe b 10 2, delB := fBe b 12 2
    ents := (List.range (min 64 (fBe b 5 1))).map (fun i =>
      let x := slice b (16 + 20 * i) 20
      { id := fBe x 0 4, tag := fBe x 4 4, load := fBe x 8 2, st := fBe x 10 1, flags := fBe x 11 1, cycle := fBe x 12 8 }) }

def WrIn.eligible (r : WrIn) : Bool := bit r.flags 0
def WrIn.fallback (r : WrIn) : Bool := bit r.flags 1
def WrIn.hold (r : WrIn) : Bool := bit r.flags 2
def WrIn.form (r : WrIn) : Nat := bits r.flags 4 3
def WrIn.ent (r : WrIn) (id : Nat) : Option WrEntry := r.ents.find? (fun e => e.id = id)

/-- The input set of a round, in ascending SRC_NID. -/
def WrRound.inputs (r : WrRound) : List WrIn := (sortBy (fun a b => decide (a.1 ≤ b.1)) r.reports).map wrInOf

/-- The domain digest: the one of most reports, the lowest at a tie (R362). -/
def domainDigest (is : List WrIn) : Nat :=
  let ds := is.map WrIn.digest
  ((ds.foldl (fun (a : Option Nat) d => match a with
    | none => some d
    | some x => if ds.count x < ds.count d || (ds.count x = ds.count d && decide (d < x)) then some d else a) none)).getD 0

/-- The members of an input set. -/
def membersOf (is : List WrIn) : List WrIn := is.filter (fun r => r.digest = domainDigest is)

/-! ## The placement procedure (R377, R378) -/

/-- A unit: its tasks and the properties they give it. -/
structure WrUnit where
  no     : Nat
  tasks  : List Nat
  load   : Nat
  redund : Nat
  hops   : Nat
  home   : Nid
  anti   : List Nat
  /-- PINNED, stopped or faulted: stays where it is. -/
  stuck  : Bool
  dwell  : Bool
  mig    : Bool
  deriving DecidableEq, Repr

/-- What a placement needs: input set, members, eligible members, policy and positions, own placement records. -/
structure WrWorld where
  ins   : List WrIn
  mems  : List WrIn
  elig  : List WrIn
  chain : List Nid
  recs  : List (List Byte)
  cap   : Nat
  pair  : Nat
  hyst  : Nat
  bonus : Nat
  hopw  : Nat
  maxMv : Nat

/-- The world of a round at this node. -/
def State.wrWorld (s : State) (r : WrRound) : WrWorld :=
  let is := r.inputs
  let ms := membersOf is
  { ins := is, mems := ms, elig := ms.filter WrIn.eligible, chain := s.hitch.chain.map CNode.nid
    recs := records (s.sectionOf 0x13 0) 32, cap := s.capLimit, pair := s.pairLimit, hyst := s.hysteresis, bonus := s.homeBonus
    hopw := s.hopWeight, maxMv := s.maxMoves }

namespace WrWorldOps

/-- Position in the committed chain, 0 where it is not in it. -/
def pos (w : WrWorld) (n : Nid) : Nat := let i := w.chain.findIdx (fun x => x = n); if i < w.chain.length then i + 1 else 0

/-- The placement record of a task, zeros where this node holds none. -/
def recOf (w : WrWorld) (id : Nat) : List Byte := (w.recs.find? (fun r => placeId r = id)).getD (zeros 32)

/-- Task identities of the input set, the lowest first. -/
def ids (w : WrWorld) : List Nat := sortBy (fun a b => decide (a ≤ b)) ((w.ins.flatMap (fun r => r.ents.map WrEntry.id)).eraseDups)

/-- The LOAD by which a task sorts: the owner's, else the largest reported. -/
def load (w : WrWorld) (id : Nat) : Nat :=
  let es := w.ins.filterMap (fun r => r.ent id)
  match es.find? (fun e => e.st = 1 || e.st = 3 || e.st = 4) with
  | some e => e.load
  | none => maxOf (es.map WrEntry.load)

/-- The reference tag of a task (R366). -/
def refTag (w : WrWorld) (id : Nat) (home : Nid) : Nat :=
  match (w.mems.find? (fun r => r.nid = home)).bind (fun r => r.ent id) with
  | some e => e.tag
  | none =>
    let ts := w.mems.filterMap (fun r => (r.ent id).map WrEntry.tag)
    ((ts.foldl (fun (a : Option Nat) d => match a with
      | none => some d
      | some x => if ts.count x < ts.count d || (ts.count x = ts.count d && decide (d < x)) then some d else a) none)).getD 0

/-- A node is a candidate for a task (R366). -/
def candidate (w : WrWorld) (id : Nat) (n : WrIn) : Bool :=
  match n.ent id with
  | some e => e.tag = refTag w id (homeNid (recOf w id))
  | none => false

/-- The unit of some tasks, the lowest PLACE_ID first. -/
def unitOf (w : WrWorld) (no : Nat) (ts : List Nat) : WrUnit :=
  let rs := ts.map (recOf w)
  let es := w.elig.flatMap (fun r => ts.filterMap r.ent)
  { no := no, tasks := ts, load := sumOf (ts.map (load w))
    redund := maxOf (rs.map (fun r => fLe r 1 1 % 4)), hops := (minOf ((rs.map (fun r => fLe r 2 1)).filter (· ≠ 0))).getD 0
    home := (ts.head?).elim 0 (fun i => homeNid (recOf w i)), anti := (rs.map (fun r => fLe r 20 4)).filter (· ≠ 0)
    stuck := es.any (fun e => bit e.flags 0 || e.st = 3 || e.st = 4), dwell := es.any (fun e => bit e.flags 1)
    mig := es.any (fun e => bit e.flags 2) }

/-- Units of the 512 lowest tasks (R360), by LOAD descending, then lowest PLACE_ID. -/
def units (w : WrWorld) : List WrUnit :=
  let ts := (ids w).take 512
  let grp (i : Nat) : Nat := fLe (recOf w i) 16 4
  let us := ts.filterMap (fun i =>
    if grp i = 0 then some (unitOf w i [i])
    else
      let all := ts.filter (fun j => grp j = grp i)
      if all.head? = some i then some (unitOf w i all) else none)
  sortBy (fun a b => decide (b.load < a.load) || (a.load = b.load && decide (a.no ≤ b.no))) us

/-- The LOAD that a unit puts on a node, as the node reports it. -/
def loadOn (w : WrWorld) (n : WrIn) (u : WrUnit) : Nat := sumOf (u.tasks.map (fun i => ((n.ent i).map WrEntry.load).getD (load w i)))

/-- A placement: the node of each unit by its number. -/
abbrev Places := Store Nid

/-- U of a node under a placement (R369). -/
def uOf (w : WrWorld) (us : List WrUnit) (P : Places) (n : WrIn) : Nat :=
  n.fixed + sumOf ((us.filter (fun u => Store.find P u.no = some n.nid)).map (loadOn w n))

/-- The home of a unit is a member. -/
def homeIn (w : WrWorld) (u : WrUnit) : Bool := w.mems.any (fun r => r.nid = u.home)

/-- Distance of two nodes in the chain. -/
def dist (w : WrWorld) (a b : Nid) : Nat := (pos w a - pos w b) + (pos w b - pos w a)

/-- The constraints of R378 in the order of R676, each with its code. -/
def tests (w : WrWorld) (us : List WrUnit) (u : WrUnit) (P : Places) : List (Nat × (WrIn → Bool)) :=
  [(2, fun n => u.tasks.all (fun i => candidate w i n)),
   (3, fun n => u.redund ≤ n.form),
   (4, fun n => !(homeIn w u) || u.hops = 0 || decide (dist w n.nid u.home ≤ u.hops)),
   (5, fun n => !us.any (fun v => v.no ≠ u.no && Store.find P v.no = some n.nid && v.anti.any (u.anti.contains ·))),
   (6, fun n => decide (uOf w us P n + loadOn w n u ≤ w.cap * n.cap / 1000)),
   (7, fun n => u.tasks.all (fun i => decide (((n.ent i).map WrEntry.load).getD (load w i) ≤ w.pair)))]

/-- Nodes where a unit may run, P being without it; and the constraint that left none, 0 where some is left. -/
def feasible (w : WrWorld) (us : List WrUnit) (u : WrUnit) (P : Places) : List WrIn × Nat :=
  (tests w us u P).foldl (fun a t =>
    let b := a.1.filter t.2
    (b, if a.2 = 0 && b.isEmpty then t.1 else a.2)) (w.elig, 0)

/-- The placement cost (R378); a member that reports no capacity hosts nothing and adds a constant, left out (log entry 61). -/
def cost (w : WrWorld) (us : List WrUnit) (P : Places) : Int :=
  let load : Nat := sumOf (w.mems.map (fun n => if n.cap = 0 then 0 else
    let x := 1000 * uOf w us P n / n.cap
    x * x / 1000))
  us.foldl (fun (a : Int) u => match Store.find P u.no with
    | none => a
    | some n => a + (((if homeIn w u then w.hopw * dist w n u.home else 0) : Nat) : Int) - ((if n = u.home then w.bonus else 0 : Nat) : Int)) (load : Int)

/-- The node of a list with the lowest cost for a unit, the lowest NID at a tie. -/
def cheapest (w : WrWorld) (us : List WrUnit) (u : WrUnit) (P : Places) (ns : List WrIn) : Option WrIn :=
  ((ns.map (fun n => (n, cost w us (Store.ins P u.no n.nid)))).foldl (fun (a : Option (WrIn × Int)) e => match a with
    | none => some e
    | some x => if e.2 < x.2 || (e.2 = x.2 && decide (e.1.nid < x.1.nid)) then some e else a) none).map Prod.fst

/-- STATE_CYCLE that a node reports for a unit. -/
def cycleOf (u : WrUnit) (n : WrIn) : Nat := maxOf (u.tasks.filterMap (fun i => (n.ent i).map WrEntry.cycle))

/-- Of a list the nodes of highest STATE_CYCLE. -/
def newest (u : WrUnit) (ns : List WrIn) : List WrIn :=
  let m := maxOf (ns.map (cycleOf u))
  ns.filter (fun n => cycleOf u n = m)

/-- The owner of a unit before the moves: of several the one of highest STATE_CYCLE, then lowest NID. -/
def ownerOf (w : WrWorld) (u : WrUnit) : Option Nid :=
  let os := w.elig.filter (fun n => u.tasks.any (fun i => match n.ent i with
    | some e => e.st = 1 || e.st = 3 || e.st = 4
    | none => false))
  (minOf ((newest u os).map (fun n => n.nid.toNat))).map (BitVec.ofNat 64)

/-- Adoption and forced move of one unit; with the constraint that leaves it unmet. -/
def settle (w : WrWorld) (us : List WrUnit) (a : Places × Store Nat) (u : WrUnit) : Places × Store Nat :=
  if u.stuck then a else
  let P := a.1
  let Q := Store.del P u.no
  let f := feasible w us u Q
  match Store.find P u.no with
  | none =>
    match cheapest w us u Q (newest u f.1) with
    | some n => (Store.ins P u.no n.nid, a.2)
    | none => (if w.elig.any (fun n => n.nid = u.home) then Store.ins P u.no u.home else P, Store.ins a.2 u.no f.2)
  | some o =>
    if f.1.any (fun n => n.nid = o) then a
    else match cheapest w us u Q f.1 with
      | some n => (Store.ins P u.no n.nid, a.2)
      | none => (P, Store.ins a.2 u.no f.2)

/-- One improving move. -/
def improve (w : WrWorld) (us : List WrUnit) (a : Places × Nat) (u : WrUnit) : Places × Nat :=
  if w.maxMv ≤ a.2 || u.stuck || u.dwell || u.mig then a
  else
    let Q := Store.del a.1 u.no
    match cheapest w us u Q (feasible w us u Q).1 with
    | none => a
    | some n =>
      let R := Store.ins a.1 u.no n.nid
      if (w.hyst : Int) ≤ cost w us a.1 - cost w us R then (R, a.2 + 1) else a

/-- Tasks beyond the 512 (R360): unmet, staying with an owner they have. -/
def beyond (w : WrWorld) : List Placed :=
  ((ids w).drop 512).map (fun i =>
    let u := unitOf w i [i]
    let o := (ownerOf w u).getD 0
    { id := i, nid := o, was := o, unmet := 8, load := u.load, home := u.home, pin := u.stuck, dwell := u.dwell, moved := false, unit := i
      cands := (w.ins.filter (candidate w i)).map WrIn.nid })

/-- A unit's tasks as placed. -/
def placed (w : WrWorld) (u : WrUnit) (nid was : Nid) (unmet : Nat) : List Placed :=
  u.tasks.map (fun i =>
    { id := i, nid := nid, was := was, unmet := unmet
      load := ((w.ins.find? (fun r => r.nid = nid)).bind (fun r => r.ent i)).elim (load w i) WrEntry.load
      home := homeNid (recOf w i), pin := u.stuck, dwell := u.dwell, moved := nid ≠ 0 && nid ≠ was, unit := u.no
      cands := (w.ins.filter (candidate w i)).map WrIn.nid })

/-- In ascending PLACE_ID. -/
def byId (ps : List Placed) : List Placed := sortBy (fun a b => decide (a.id ≤ b.id)) ps

/-- The procedure of R377. -/
def place (w : WrWorld) : List Placed :=
  let us := units w
  let P0 : Places := us.foldl (fun P u => match ownerOf w u with | some n => Store.ins P u.no n | none => P) []
  let a := us.foldl (settle w us) (P0, [])
  let P := if w.ins.any WrIn.hold || w.mems.any WrIn.fallback then a.1 else (us.foldl (improve w us) (a.1, 0)).1
  byId (us.flatMap (fun u => placed w u ((Store.find P u.no).getD 0) ((Store.find P0 u.no).getD 0) (Store.get 0 a.2 u.no)) ++ beyond w)

/-- The home placement (R382). -/
def homePlace (w : WrWorld) : List Placed :=
  byId ((units w).flatMap (fun u =>
    let o := (ownerOf w u).getD 0
    let c := ((w.ins.filter (fun n => u.tasks.all (fun i => candidate w i n))).foldl (fun (a : Option WrIn) n => match a with
      | none => some n
      | some x => if pos w n.nid < pos w x.nid then some n else a) none).elim 0 WrIn.nid
    let n := if w.ins.any (fun r => r.nid = u.home && r.eligible) then u.home else if o ≠ 0 then o else c
    placed w u n o 0) ++ beyond w)

end WrWorldOps

/-- Units of a placement that a test selects. -/
def unitCount (p : Placed → Bool) (ps : List Placed) : Nat := ((ps.filter p).map Placed.unit).eraseDups.length

/-- INPUT_DIGEST (R379): the REPORT messages, MSG_SEQ 0. -/
def inputDigest (r : WrRound) : Nat :=
  (crc32 ((sortBy (fun a b => decide (a.1 ≤ b.1)) r.reports).flatMap (fun e => putSlice e.2 2 [0, 0]))).toNat

/-- PLACE_FP (R379). -/
def placeFp (ps : List Placed) : Nat := (crc32 (ps.flatMap (fun p => be 4 p.id ++ be 8 p.nid.toNat))).toNat

/-! ## Rounds (R375, R376, R381) -/

/-- Note that a round has started: identities are used once per generation. -/
def noteRound (kind round : Nat) (w : Wrangler) : Wrangler :=
  match kind with
  | 0 => { w with lastSched := some round }
  | 1 => { w with hitchDone := true }
  | _ => { w with memberNo := max w.memberNo round }

/-- A round has not been started yet (R375). -/
def Wrangler.unstarted (w : Wrangler) (kind round : Nat) : Bool :=
  match kind with
  | 0 => w.lastSched ≠ some round
  | 1 => !w.hitchDone && round = 0
  | 2 => w.memberNo < round
  | _ => false

/-- A round starts with a report, and replaces one under way. -/
def openRound (kind round : Nat) (reports : List (Nid × List Byte)) (s : State) : State :=
  { s with wr := noteRound kind round { s.wr with round := some { kind := kind, round := round, reports := reports } } }

/-- Snapshot (R376): the node's own REPORT is frozen, sent, and told to its other chips. -/
def startWrRound (kind round : Nat) (others : List (Nid × List Byte)) (s : State) : State :=
  if !s.wrOn then s
  else if !s.wrSender then (if others.isEmpty then s else openRound kind round others s)
  else
    let b := s.reportBody
    let m := s.wrHeader 1 kind round ++ b
    let s1 := openRound kind round (others ++ [(s.node.nid, m)])
      { s with wr := { s.wr with lastCapacity := s.capacity, lastFixed := s.fixedLoad, wasEligible := s.eligible } }
    wrTell 1 s.node.nid m (wrSend 1 kind round b s1)

/-- A MEMBERSHIP round of the next number (R375). -/
def membershipRound (s : State) : State := startWrRound 2 (s.wr.memberNo + 1) [] s

/-- Nodes of the domain marked absent, as this node knows the domain. -/
def State.absentNodes (s : State) : List Nid :=
  (s.hitch.chain.filter (fun x => x.absent && s.wr.known.contains x.nid)).map CNode.nid

/-- A MEMBERSHIP round starts where the node's ELIGIBLE or the set of absent domain nodes has changed (R375). -/
def wrCheck (s : State) : State :=
  if !s.wrOn then { s with wr := { s.wr with wasEligible := s.eligible } }
  else if s.eligible = s.wr.wasEligible && s.absentNodes = s.wr.wasAbsent then s
  else membershipRound { s with wr := { s.wr with wasEligible := s.eligible, wasAbsent := s.absentNodes } }

/-- A REPORT is kept for its round, which it starts where this node has not (R375). -/
def takeReport (nid : Nid) (m : List Byte) (s0 : State) : State :=
  let s := { s0 with wr := { s0.wr with known := if s0.wr.known.contains nid then s0.wr.known else s0.wr.known ++ [nid] } }
  let kind := fBe m 12 1
  let round := fBe m 16 4
  match s.wr.round with
  | some r =>
    if r.kind = kind && r.round = round then
      (if r.frozen || r.reports.any (fun e => e.1 = nid) then s
       else { s with wr := { s.wr with round := some { r with reports := r.reports ++ [(nid, m)] } } })
    else if s.wr.unstarted kind round then startWrRound kind round [(nid, m)] s else s
  | none => if s.wr.unstarted kind round then startWrRound kind round [(nid, m)] s else s

/-- The own REPORT as the node's sending chip made it (R394, R395). -/
def takeOwnReport (m : List Byte) (s : State) : State :=
  let kind := fBe m 12 1
  let round := fBe m 16 4
  match s.wr.round with
  | some r =>
    if r.kind = kind && r.round = round then
      (if r.reports.any (fun e => e.1 = s.node.nid) then s
       else { s with wr := { s.wr with round := some { r with reports := r.reports ++ [(s.node.nid, m)] } } })
    else openRound kind round [(s.node.nid, m)] s
  | none => openRound kind round [(s.node.nid, m)] s

/-- A VERDICT is kept for its round. -/
def takeVerdict (nid : Nid) (m : List Byte) (s : State) : State :=
  match s.wr.round with
  | some r =>
    if r.kind = fBe m 12 1 && r.round = fBe m 16 4 then
      let v : WrVerdict := { nid := nid, digest := fBe m 24 4, fp := fBe m 28 4, moves := fBe m 32 2, unmet := fBe m 34 2 }
      { s with wr := { s.wr with round := some { r with verdicts := r.verdicts.filter (fun x => x.nid ≠ nid) ++ [v] } } }
    else s
  | none => s

/-- Every member's VERDICT equals the own one. -/
def WrRound.agreed (r : WrRound) (own : Nid) : Bool :=
  match r.own with
  | none => false
  | some v => (membersOf r.inputs).all (fun m => m.nid = own || r.verdicts.any (fun x => x.nid = m.nid && x.digest = v.digest && x.fp = v.fp))

/-! ## Migration (R384 to R388) -/

/-- Send a message about a task to the other node of its migration (R374). -/
def wrMig (msg id part last cycle : Nat) (peer : Nid) (data : List Byte) (s : State) : State :=
  wrSend msg 0 0 (be 4 id ++ [byte part, byte last, 0, 0] ++ be 8 cycle ++ be 8 peer.toNat ++ data) s

/-- Send a bank or image in pieces of 1,344 bytes: part 0 FULL, 3 OUTPUT. -/
def sendBank (part cycle : Nat) (m : Migration) (b : List Byte) (s : State) : State :=
  (pieces 1344 (b.length / 1344 + 1) 0 b).foldl (fun s p =>
    wrMig 3 m.id part (b01 (p.1 + p.2.length = b.length)) cycle m.peer (be 4 p.1 ++ p.2) s) s

/-- Lines of 64 bytes in which two banks differ. -/
def changedLines (old new : List Byte) : List (Nat × List Byte) :=
  (List.range ((new.length + 63) / 64)).filterMap (fun i =>
    let a := slice new (64 * i) 64
    if a = slice old (64 * i) 64 then none else some (64 * i, (a ++ zeros 64).take 64))

/-- Chunks of at most n elements. -/
def chunks {α : Type} (n : Nat) : Nat → List α → List (List α)
  | 0, _ => []
  | fuel + 1, xs => if xs.length ≤ n then [xs] else xs.take n :: chunks n fuel (xs.drop n)

/-- Send a cycle's DELTA: 20 lines a frame. -/
def sendDelta (cycle : Nat) (m : Migration) (new : List Byte) (s : State) : State :=
  let cs := chunks 20 (new.length + 1) (changedLines m.sentBank new)
  (cs.mapIdx (fun i c => (decide (i + 1 = cs.length), c))).foldl (fun s c =>
    wrMig 3 m.id 1 (b01 c.1) cycle m.peer (c.2.flatMap (fun l => be 4 l.1 ++ l.2)) s) s

/-- RELEASE, META and OUTPUT of the last commit (R384, R386). -/
def sendRelease (n : Nat) (s : State) : State :=
  match s.mig? n, s.task? n with
  | some m, some t =>
    match m.released with
    | none => s
    | some r =>
      let seqs := (s.taskCtxs t true).flatMap (fun c => match s.ctx? c with
        | some x => be 4 x.imageRef ++ be 2 x.seqGen.toNat ++ zeros 2
        | none => [])
      sendBank 3 (r - 1) m t.output (wrMig 3 m.id 2 1 (r - 1) m.peer (seqs ++ be 4 (min 0xFFFFFFFF t.etMaxNs))
        (wrMig 5 m.id 0 0 r m.peer [] s))
  | _, _ => s

/-- A migration out of this node starts (R384). -/
def migrateOut (n id : Nat) (peer : Nid) (s : State) : State :=
  wrSay 0x0904 sevInfo (le 4 id ++ nidBytes s.node.nid ++ nidBytes peer) none
    (setTask n (fun t => { t with st := .migOut })
      { s with wr := { s.wr with migs := s.wr.migs ++ [{ task := n, id := id, out := true, peer := peer, applyTick := s.now }] } })

/-- A migration into this node starts. -/
def migrateIn (n id : Nat) (peer : Nid) (s : State) : State :=
  match s.task? n with
  | none => s
  | some t =>
    wrSay 0x0904 sevInfo (le 4 id ++ nidBytes peer ++ nidBytes s.node.nid) none
      (enableSubs t true (assignPair n (setTask n (fun t => { s.freshTask n t false with st := .migIn, first := false, fromTick := s.now, runNid := peer })
        { s with wr := { s.wr with migs := s.wr.migs ++ [{ task := n, id := id, out := false, peer := peer, applyTick := s.now }] } })))

/-- A task leaves its pair and is run by another node, or by none. -/
def leaveTask (n : Nat) (st : TaskSt) (owner : Nid) (s : State) : State :=
  match s.task? n with
  | none => s
  | some t => setTask n (fun t => { t with pair := none, runNid := owner }) (haltTask n st (enableSubs t false (enablePubs t false s)))

/-- The source ends a migration that has not handed over: it remains owner (R387, R388). -/
def abortOut (n cause : Nat) (s : State) : State :=
  match s.mig? n, s.task? n with
  | some m, some t =>
    if !m.out then s else
    let s1 := if t.st = .remote then enableSubs t true (enablePubs t true (assignPair n (setTask n (fun t => { t with runNid := s.node.nid }) s))) else s
    let s2 := dropMig n (setTask n (fun t => { t with st := if t.st = .stopped ∨ t.st = .faulted then t.st else .running }) s1)
    wrSay 0x0906 sevWarning (le 4 m.id ++ [byte cause]) (some 3)
      (wrMig 7 m.id 0 0 0 m.peer [] { s2 with wr := { s2.wr with dwell := s2.wr.dwell.filter (· ≠ m.id) ++ [m.id] } })
  | _, _ => s

/-- The destination discards what it holds (R387). -/
def dropIn (n : Nat) (owner : Nid) (s : State) : State := dropMig n (leaveTask n (if owner = 0 then .idle else .remote) owner s)

/-- The source was lost before this node owned: its exact state is kept for the adoption (R388, R389). -/
def sourceLost (n : Nat) (s : State) : State :=
  match s.mig? n with
  | none => s
  | some m =>
    let s1 := dropIn n 0 s
    match m.have_ with
    | some c => { s1 with wr := { s1.wr with exact := s1.wr.exact.filter (fun x => x.id ≠ m.id) ++
        [{ id := m.id, cycle := c, bank := m.bank, metas := m.metas, et := m.metaEt }] } }
    | none => s1

/-- Peers that are no longer there or no longer ELIGIBLE end their migrations (R388). -/
def wrPeersGone (gone : Nid → Bool) (s : State) : State :=
  s.wr.migs.foldl (fun s m => if !gone m.peer then s else if m.out then abortOut m.task 4 s else sourceLost m.task s) s

/-- The node itself no longer takes part: what it was handing over or taking in is dropped (R388, R396). -/
def wrLeave (s : State) : State :=
  let s1 := s.wr.migs.foldl (fun s m => if m.out then dropMig m.task s else dropIn m.task 0 s) s
  { s1 with wr := { s1.wr with dups := [] } }

/-- Apply one complete DELTA to the exact bank. -/
def applyDelta (bank : List Byte) (d : WrDelta) : List Byte := d.lines.foldl (fun b l => putSlice b l.1 (l.2.take (b.length - l.1))) bank

/-- Apply complete DELTAs in cycle order (R384): the exact state, and what is left. -/
def applyDeltas : List WrDelta → List Byte → Nat → List Byte × Nat × List WrDelta
  | [], b, c => (b, c, [])
  | d :: ds, b, c =>
    if d.cycle ≤ c then applyDeltas ds b c
    else if d.last then applyDeltas ds (applyDelta b d) d.cycle
    else (b, c, d :: ds)

/-- The exact state has moved on: the bank in force is overwritten by it. -/
def takeExact (n : Nat) (s : State) : State :=
  match s.mig? n with
  | none => s
  | some m =>
    match m.have_ with
    | none => s
    | some c =>
      let r := applyDeltas (sortBy (fun a b => decide (a.cycle ≤ b.cycle)) m.deltas) m.bank c
      setTask n (fun t => { t with committed := r.1, cycle := r.2.1 + 1 })
        (setMig n (fun m => { m with bank := r.1, have_ := some r.2.1, deltas := r.2.2 }) s)

/-- The cycle that the newest exact state carries, before and after: acknowledgements of those applied. -/
def ackCycles (n : Nat) (before : Option Nat) (done_ : List Nat) (s : State) : State :=
  match s.mig? n with
  | none => s
  | some m => (done_.filter (fun c => match m.have_, before with
      | some h, some b => decide (b < c) && decide (c ≤ h)
      | some h, none => decide (c ≤ h)
      | none, _ => false)).foldl (fun s c => wrMig 4 m.id 0 0 c m.peer [] s) s

/-- A STATE message at the destination (R384, R386). -/
def takeState (nid : Nid) (b : List Byte) (s : State) : State :=
  match s.wr.migs.find? (fun m => m.id = fBe b 0 4 && m.peer = nid && !m.out) with
  | none => s
  | some m =>
    let part := fBe b 4 1
    let last := bit (fBe b 5 1) 0
    let cycle := fBe b 8 8
    let dat := b.drop 24
    let off := fBe dat 0 4
    let n := m.task
    let ack := fun (s : State) => if last then wrMig 4 m.id 0 0 cycle m.peer [] s else s
    match part with
    | 0 =>
      let s1 := setMig n (fun m => { m with bank := putSlice m.bank off (dat.drop 4), have_ := if last then some cycle else none }) s
      if last then
        let cs := (m.deltas.filter (fun d => d.last && decide (cycle < d.cycle))).map WrDelta.cycle
        ackCycles n (some cycle) cs (takeExact n (ack s1))
      else s1
    | 1 =>
      let ls := (chunks 68 (dat.length + 1) dat).filter (fun l => l.length = 68)
      let old := (m.deltas.find? (fun d => d.cycle = cycle)).getD { cycle := cycle }
      let new : WrDelta := { old with lines := old.lines ++ ls.map (fun l => (fBe l 0 4, l.drop 4)), last := old.last || last }
      let ds := m.deltas.filter (fun d => d.cycle ≠ cycle) ++ [new]
      let s1 := setMig n (fun m => { m with deltas := ds }) s
      if last && m.have_.isSome then ackCycles n m.have_ ((ds.filter WrDelta.last).map WrDelta.cycle) (takeExact n s1) else s1
    | 2 =>
      let k := (dat.length - 4) / 8
      ack (setMig n (fun m => { m with
        metas := (List.range k).map (fun i => (fBe dat (8 * i) 4, fBe dat (8 * i + 4) 2)), metaEt := fBe dat (8 * k) 4
        metaDone := m.metaDone || last }) s)
    | 3 => ack (setMig n (fun m => { m with outImage := putSlice m.outImage off (dat.drop 4), outDone := m.outDone || last }) s)
    | _ => s

/-- A RELEASE at the destination. -/
def takeRelease (nid : Nid) (b : List Byte) (s : State) : State :=
  match s.wr.migs.find? (fun m => m.id = fBe b 0 4 && m.peer = nid && !m.out) with
  | some m => setMig m.task (fun m => { m with release := some (fBe b 8 8) }) s
  | none => s

/-- The source releases where it may (R384): the second or later overlap cycle is committed, its DELTA acknowledged, and 50 µs are left. -/
def tryRelease (n : Nat) (s : State) : State :=
  match s.mig? n, s.task? n with
  | some m, some t =>
    if m.out && m.released.isNone && decide (2 ≤ m.overlaps) && m.shadow && t.ph = .idle && m.acked = some t.lastCommit && t.cycle = t.lastCommit + 1
        && decide (s.gridAfter t.periodTt 0 = s.gridAfter t.periodTt (50000 * ttNs)) then
      sendRelease n (setMig n (fun m => { m with released := some t.cycle }) s)
    else s
  | _, _ => s

/-- An ACK at the source. -/
def takeAck (nid : Nid) (b : List Byte) (s : State) : State :=
  match s.wr.migs.find? (fun m => m.id = fBe b 0 4 && m.peer = nid && m.out) with
  | some m => tryRelease m.task (setMig m.task (fun m => { m with acked := some (max (fBe b 8 8) (m.acked.getD 0)) }) s)
  | none => s

/-- A TAKEN at the source: the migration is done (R386). -/
def takeTaken (nid : Nid) (b : List Byte) (s : State) : State :=
  match s.wr.migs.find? (fun m => m.id = fBe b 0 4 && m.peer = nid && m.out) with
  | some m => wrSay 0x0905 sevNotice (le 4 m.id ++ le 8 (fBe b 8 8) ++ le 4 m.overlaps) (some 3) (dropMig m.task s)
  | none => s

/-- An ABORT at the destination. -/
def takeAbort (nid : Nid) (b : List Byte) (s : State) : State :=
  match s.wr.migs.find? (fun m => m.id = fBe b 0 4 && m.peer = nid && !m.out) with
  | some m =>
    let s1 := dropIn m.task nid s
    raise .wrangler 3 { s1 with wr := { s1.wr with dwell := s1.wr.dwell.filter (· ≠ m.id) ++ [m.id] } }
  | none => s

/-- A message this node takes, by its MSG (R371). -/
def wrMessage (nid : Nid) (m : List Byte) (s : State) : State :=
  let b := m.drop 24
  match fBe m 0 1 with
  | 1 => takeReport nid m s
  | 2 => takeVerdict nid m s
  | 3 => takeState nid b s
  | 4 => takeAck nid b s
  | 5 => takeRelease nid b s
  | 6 => takeTaken nid b s
  | 7 => takeAbort nid b s
  | _ => s

/-- A received Wrangler frame with a given MSG: the first copy is taken and told to the node's other chips. -/
def wrFrame (msg : Nat) (f : Frame) (s : State) : State :=
  match s.wrTakes f with
  | none => s
  | some (nid, m) =>
    if fBe m 0 1 ≠ msg then s
    else wrMessage nid m (wrTell 2 nid m { s with wr := { s.wr with seen := (s.wr.seen ++ [(nid, fBe m 2 2)]).drop (s.wr.seen.length - 4095) } })

/-! ## What the control engine does for a migration -/

/-- A grid instant of a migrating task at its source: the hand-over takes effect and is repeated, or an overlap cycle is counted (R384, R386). -/
def migAtGrid (n : Nat) (s : State) : State :=
  match s.mig? n, s.task? n with
  | some m, some t =>
    if !m.out then s
    else if m.released.isSome then sendRelease n (if t.st = .migOut then leaveTask n .remote m.peer s else s)
    else
      let whole := m.acked = some t.lastCommit && m.fullSent
      setMig n (fun m => { m with
        shadow := whole, overlaps := if whole then m.overlaps + 1 else m.overlaps
        cycles := if whole || m.overlaps ≠ 0 then m.cycles + 1 else m.cycles }) s
  | _, _ => s

/-- After a commit of the source: FULL the first time, then the cycle's DELTA. -/
def migCommitted (n : Nat) (s : State) : State :=
  match s.mig? n, s.task? n with
  | some m, some t =>
    if !m.out || m.released.isSome then s
    else
      let s1 := if m.fullSent then sendDelta t.lastCommit m t.committed s else sendBank 0 t.lastCommit m t.committed s
      setMig n (fun m => { m with fullSent := true, sentBank := t.committed }) s1
  | _, _ => s

/-- The destination holds what it needs to own a cycle (R386). -/
def Migration.owns (m : Migration) (cycle : Nat) : Bool :=
  m.metaDone && (match m.release with | some r => decide (r ≤ cycle) | none => false)

/-- The task's publishers are enabled on the output image handed over, their sequence numbers from META (R386, R389). -/
def handedPubs (n : Nat) (metas : List (Nat × Nat)) (image : Option (List Byte)) (s : State) : State :=
  match s.task? n with
  | none => s
  | some t =>
    let s1 := match image with
      | some i => setTask n (fun t => { t with output := i, outs := max 1 t.outs, outHeld := true }) s
      | none => s
    (s.taskCtxs t true).foldl (fun s c => setCtx c (fun x => match metas.find? (fun e => e.1 = x.imageRef) with
      | some e => { x with seqGen := BitVec.ofNat 16 e.2, seqTwin := BitVec.ofNat 16 e.2 }
      | none => x) s) (enablePubs t true s1)

/-- The grid instant of the first owned cycle at the destination: its publishers take over where the hand-over is complete. -/
def migHandOver (n : Nat) (s : State) : State :=
  match s.mig? n, s.task? n with
  | some m, some t =>
    if !m.out && m.owns t.cycle && m.outDone && (s.taskCtxs t true).all (fun c => !((s.ctx? c).elim true StreamCtx.enabled)) then
      handedPubs n m.metas (some m.outImage) s
    else s
  | _, _ => s

/-- The destination has committed as owner (R386). -/
def migTaken (n first : Nat) (s : State) : State :=
  match s.mig? n with
  | none => s
  | some m =>
    let s1 := migHandOver n s
    raise .wrangler 3 (wrMig 6 m.id 0 0 first m.peer []
      (dropMig n (setTask n (fun t => { t with st := .running, runNid := s.node.nid, etMax := some (max m.metaEt (t.etMax.getD 0)) }) s1)))

/-! ## Adoption, duplicates, lines (R383, R389, R390) -/

/-- A task starts here without an owner before (R389): exact state, retained copy, initial values. -/
def adopt (n id : Nat) (s : State) : State :=
  match s.task? n with
  | none => s
  | some t =>
    let warm := s.wr.warmFirst && t.retainLen ≠ 0 && s.retainCause n t = 0
    let x := s.exact? id
    let kind := if x.isSome then 1 else if warm then 2 else 3
    let t0 := s.freshTask n t (x.isNone && warm)
    let t1 : Task := match x with
      | some e => { t0 with committed := e.bank, cycle := e.cycle + 1, first := false, etMax := some e.et }
      | none => t0
    let s1 := assignPair n (setTask n (fun _ => { t1 with st := .running, runNid := s.node.nid })
      { s with wr := { s.wr with exact := s.wr.exact.filter (fun e => e.id ≠ id) } })
    let s2 := handedPubs n ((x.map WrExact.metas).getD []) none (enableSubs t true s1)
    wrSay 0x0907 sevNotice (le 4 id ++ [byte kind]) (some 4) s2

/-- A line fault on the committed chain (R383): an own port's, or a link that a chain record shows missing. -/
def State.chainFault (s : State) (l : Line) : Bool :=
  [1, 2].any (fun d =>
    (s.hport (portOf l d)).fault
      || ((s.effVec d).recs.dropLast).any (fun r => if l = .a then !r.linkAFar else !r.linkBFar))

/-- The line of each WRANGLER publisher (R383). -/
def chooseLines (is : List WrIn) (s : State) : State :=
  let pa := sumOf (is.map (fun r => r.delA + r.resA))
  let pb := sumOf (is.map (fun r => r.delB + r.resB))
  let d := (pa - pb) + (pb - pa)
  s.stream.ctxs.foldl (fun s e =>
    if e.2.role = 1 && e.2.lineMode = 3 then
      let b := if s.chainFault .a && !s.chainFault .b then true
        else if s.chainFault .b && !s.chainFault .a then false
        else if s.lineHystUs * 1000 ≤ d then decide (pb < pa)
        else decide (e.1 % 2 ≠ s.node.nid.toNat % 2)
      setCtx e.1 (fun c => { c with wrB := b }) s
    else s) s

/-- What an applied placement calls for on one local task (R376, R387 to R390). -/
def applyOne (p : Placed) (n : Nat) (t : Task) (s : State) : State :=
  let own := s.node.nid
  let owns := t.st = .running || t.st = .migOut || t.st = .stopped || t.st = .faulted
  let dup (s : State) : State := { s with wr := { s.wr with dups := s.wr.dups.filter (fun d => d.1 ≠ n) ++ [(n, p.nid)] } }
  if p.nid = own then
    match t.st with
    | .migOut => abortOut n 3 s
    | .running | .stopped | .faulted => s
    | .migIn => if p.was = 0 then adopt n p.id (sourceLost n s) else s
    | _ => if !s.eligible then s else if p.was = 0 then adopt n p.id s else if p.was = own then s else migrateIn n p.id p.was s
  else if owns then
    match t.st with
    | .migOut =>
      if (s.mig? n).any (fun m => m.peer = p.nid) then s
      else
        let s1 := abortOut n 3 s
        if p.was = own && p.nid ≠ 0 then migrateOut n p.id p.nid s1 else if p.nid ≠ 0 then dup s1 else s1
    | .running => if p.nid = 0 then s else if p.was = own then migrateOut n p.id p.nid s else dup s
    | _ => s
  else if t.st = .migIn then s
  else setTask n (fun t => { t with st := if p.nid = 0 then .idle else .remote, runNid := p.nid }) s

/-- Every local task of a placement. -/
def applyPlaces (ps : List Placed) (s : State) : State :=
  s.placeTasks.foldl (fun s e => match ps.find? (fun p => p.id = placeId e.1), s.task? e.2.1 with
    | some p, some t => applyOne p e.2.1 t s
    | _, _ => s) s

/-- An outlier hosts only the tasks homed at it (R362). -/
def outlierPlaces (s : State) (ps : List Placed) : List Placed :=
  ps.map (fun p => if p.home = s.node.nid then { p with nid := s.node.nid, was := if p.was = 0 then 0 else s.node.nid }
    else if p.nid = s.node.nid then { p with nid := 0 } else p)

/-- A placement takes effect here: home says that it is the home placement of fallback. -/
def applyPlacement (r : WrRound) (ps0 : List Placed) (home : Bool) (s : State) : State :=
  let ps := if s.wr.outlier then outlierPlaces s ps0 else ps0
  let is := r.inputs
  let fp := placeFp ps0
  let moves := unitCount (fun p => p.was ≠ 0 && p.nid ≠ p.was) ps0
  let unmet := unitCount (fun p => p.unmet ≠ 0) ps0
  let s1 := wrPeersGone (fun n => is.any (fun i => i.nid = n && !i.eligible)) s
  let s2 := chooseLines is (applyPlaces ps s1)
  let s3 := { s2 with wr := { s2.wr with
    applied := ps0, appliedGen := s.hitch.gen, appliedKind := r.kind, appliedRound := r.round, appliedFp := fp, appliedDigest := inputDigest r
    appliedMembers := (membersOf is).map WrIn.nid, appliedHold := is.any WrIn.hold
    isMember := (membersOf is).any (fun m => m.nid = s.node.nid), applyTick := s.now, warmFirst := false
    dwell := (s2.wr.dwell ++ (ps0.filter Placed.moved).map Placed.id).eraseDups
    round := if home then s2.wr.round else none, homeDue := none
    disagreed := if home then s2.wr.disagreed else 0 } }
  let s4 := wrSay 0x0901 sevInfo ([byte r.kind] ++ le 4 r.round ++ le 4 fp ++ le 4 moves ++ le 4 unmet) (some 0) s3
  let s5 := (ps0.filter (fun p => p.unmet ≠ 0 && p.id = p.unit)).foldl (fun s p =>
    wrSay 0x0908 sevError (le 4 p.id ++ [byte p.unmet]) (some 6) s) s4
  if !home && s.wr.fallback then
    wrSay 0x0903 sevNotice (le 4 s.wr.disagreed) (some 2) { s5 with wr := { s5.wr with fallback := false } }
  else s5

/-! ## Steps of a round, as they run here or on the node's deciding chip -/

/-- Freeze (R376). -/
def wrFreeze (s : State) : State :=
  match s.wr.round with
  | some r => if r.frozen then s else { s with wr := { s.wr with round := some { r with frozen := true } } }
  | none => s

/-- Compute (R377, R379): the placement, the VERDICT, and what R362 says of outliers. -/
def wrCompute (s : State) : State :=
  match s.wr.round with
  | none => s
  | some r =>
    if !r.frozen || r.own.isSome then s
    else
      let is := r.inputs
      let ps := WrWorldOps.place (s.wrWorld r)
      let v : WrVerdict := { nid := s.node.nid, digest := inputDigest r, fp := placeFp ps
                             moves := unitCount (fun p => p.was ≠ 0 && p.nid ≠ p.was) ps, unmet := unitCount (fun p => p.unmet ≠ 0) ps }
      let dd := domainDigest is
      let out := s.policyDigest ≠ dd
      let s1 := { s with wr := { s.wr with round := some { r with place := some ps, own := some v }, outlier := out } }
      let s2 := wrSend 2 r.kind r.round (be 4 v.digest ++ be 4 v.fp ++ be 2 v.moves ++ be 2 v.unmet) s1
      let s3 := if out then wrSay 0x0909 sevError (nidBytes s.node.nid ++ le 4 s.policyDigest ++ le 4 dd) none s2 else s2
      if is.any (fun i => i.digest ≠ dd) && s.wrActs then raise .wrangler 7 s3 else s3

/-- Apply (R376, R382). -/
def wrApply (s : State) : State :=
  match s.wr.homeDue, s.wr.lastInputs with
  | some ps, some r => applyPlacement r ps true s
  | _, _ =>
    match s.wr.round with
    | none => s
    | some r => if r.agreed s.node.nid then applyPlacement r (r.place.getD []) false s else s

/-- A round is disagreed (R381, R382). -/
def wrDisagree (s : State) : State :=
  match s.wr.round with
  | none => s
  | some r =>
    if !r.frozen || r.agreed s.node.nid then s
    else
      let ms := (membersOf r.inputs).filter (fun m => m.nid ≠ s.node.nid)
      let fp := (r.own.map WrVerdict.fp).getD 0
      let other := ((r.verdicts.find? (fun v => ms.any (fun m => m.nid = v.nid) && v.fp ≠ fp)).map WrVerdict.fp).getD 0
      let missing := (ms.filter (fun m => !r.verdicts.any (fun v => v.nid = m.nid))).map WrIn.nid
      let k := s.wr.disagreed + 1
      let enters := s.fallbackCount ≤ k && !s.wr.fallback
      let s1 := wrSay 0x0902 sevWarning ([byte r.kind] ++ le 4 r.round ++ le 4 fp ++ le 4 other ++ missing.flatMap nidBytes) (some 1)
        { s with wr := { s.wr with
          disagreed := k, round := none, fallback := s.wr.fallback || enters, lastInputs := some r
          homeDue := if s.wr.fallback || enters then some (WrWorldOps.homePlace (s.wrWorld r)) else s.wr.homeDue } }
      let s2 := if enters then wrSay 0x0903 sevError (le 4 k) (some 2) s1 else s1
      if r.kind = 0 then s2 else membershipRound s2

/-- The node switches to a new generation (R375, R388): its rounds start anew, and migrations whose other node has gone end. -/
def wrSwitch (s : State) : State :=
  let s1 := { s with wr := { s.wr with memberNo := 0, hitchDone := false, lastSched := none, round := none, seen := [], known := [], wasAbsent := [] } }
  startWrRound 1 0 [] (wrPeersGone (fun n => !(s.hitch.chain.any (fun x => x.nid = n && !x.absent))) s1)

/-- A step told by another chip of the node (R394, R395). -/
def wrTold (step : Nat) (nid : Nid) (m : List Byte) (s : State) : State :=
  if !s.wrOn then s else
  match step with
  | 1 => takeOwnReport m s
  | 2 => if s.wr.seen.contains (nid, fBe m 2 2) then s
         else wrMessage nid m { s with wr := { s.wr with seen := (s.wr.seen ++ [(nid, fBe m 2 2)]).drop (s.wr.seen.length - 4095) } }
  | 4 => wrFreeze s
  | 5 => wrCompute s
  | 6 => wrApply s
  | 7 => wrDisagree s
  | _ => s

end Sys2Proof.Machine
end

