-- ==== Sys2Proof/Machine/RedundOps.lean ====
section
/-! DEFINITION. Shared operations of Span and Troika (09_span_and_troika.md): claims, roles and membership, state streaming, synchronisation,
takeover. -/
namespace Sys2Proof.Machine

/-! ## Wiring and parameters (R403, R435) -/

def State.lagLimit (s : State) : Nat := s.param 3 4 0xFFFF 2
def State.voteLimit (s : State) : Nat := s.param 3 5 0xFFFF 3
def State.voteWindow (s : State) : Nat := s.param 3 6 0xFFFF 10
/-- SINGLE_ACTION RUN. -/
def State.singleRuns (s : State) : Bool := s.param 3 7 0xFFFF 0 = 1
def State.rejoinAuto (s : State) : Bool := s.param 3 8 0xFFFF 1 = 1
def State.tug1Spare (s : State) : Bool := s.param 2 3 0xFFFF 0 = 1

/-- Members of a Troika node. -/
def State.memberList (s : State) : List Nat := (List.range 3).filter (fun i => s.red.members.getLsbD i)

/-! ## Claim, roles, membership (R414 to R421, R429) -/

/-- What a change of the node's owner brings on this chip (R431, R434). -/
def ownerChanged (was : Bool) (s : State) : State :=
  if s.owner = was then s else importAll (bridgeOwnerChange (legSync (canModes 4 s)))

/-- Change the role. -/
def setRole (r : Role) (s : State) : State :=
  if s.red.role = r then s
  else
    let edge := s.red.role = .standby || r = .standby
    let s1 := { s with red := { s.red with role := r, changeTick := s.now } }
    if edge then raise .redund 1 s1 else s1

/-- The chip that each member bit stands for, by the claim signals: own, PEER_CLAIM_IN0, PEER_CLAIM_IN1. -/
def State.memberBits (s : State) : BitVec 3 :=
  let i := s.node.chipIndex
  let b (on : Bool) (c : Nat) : BitVec 3 := if on then 1#3 <<< c else 0
  if s.node.form = .troika then b s.red.claim i ||| b s.red.peerClaim0 ((i + 1) % 3) ||| b s.red.peerClaim1 ((i + 2) % 3)
  else b s.red.claim i ||| b s.red.peerClaim0 (1 - i)

/-- The member set follows the claim signals; in Troika the leader is the lowest member, and a member counts fewer than three as a lost chip
(R144, R145, R430). -/
def settleMembers (s : State) : State :=
  let m := s.memberBits
  if m = s.red.members then s
  else
    let was := s.owner
    let lead := ((List.range 3).find? (fun i => m.getLsbD i)).getD s.red.leader
    let s1 := { s with red := { s.red with members := m, leader := if s.node.form = .troika then lead else s.red.leader } }
    if s.node.form ≠ .troika then s1
    else
      let s2 := raise .redund 2 (if was && !s1.owner then drivePin .syncOut .hiz s1 else s1)
      let s3 := if s2.red.claim then setResource 4 (decide (m ≠ 7#3)) s2 else s2
      ownerChanged was s3

/-- The claim is asserted: cause 1 start, 2 takeover, 3 switch. -/
def assertClaim (cause : Nat) (r : Role) (s : State) : State :=
  let was := s.owner
  let s1 := setRole r { s with red := { s.red with claim := true }, node := { s.node with active := true } }
  let s2 := raise .redund 0 (logEvent 0x0A01 sevNotice [byte cause] (count (statRedund 8) (drivePin .claimOut .high s1)))
  ownerChanged was (settleMembers s2)

/-- The claim is released, for a check of R414 or a switch (10). -/
def releaseClaim (check : Nat) (r : Role) (s : State) : State :=
  if s.node.form = .simplex || !s.red.claim then (if s.node.form = .simplex then s else setRole r s)
  else
    let was := s.owner
    let s1 := setRole r { s with red := { s.red with claim := false }, node := { s.node with active := false } }
    let s2 := raise .redund 0 (logEvent 0x0A02 sevWarning [byte check] (count (statRedund 9) (drivePin .claimOut .low s1)))
    ownerChanged was (settleMembers s2)

/-- Cycles under way end without commit: this chip executes no task any more. -/
def haltAll (s : State) : State :=
  let s1 := { s with ctl := { s.ctl with
    tasks := s.ctl.tasks.map (fun (e : Nat × Task) => (e.1, { e.2 with ph := .idle, heldCause := 0 }))
    pairs := s.ctl.pairs.map (fun (p : CorePair) => { p with running := none }) } }
  s1.ctl.tasks.foldl (fun s e => resetGpio e.2 s) s1

/-- A Troika chip leaves the vote (R429): causes are the rows of its table; check is the row of R414, 0 for none. -/
def excludeSelf (cause check : Nat) (s : State) : State :=
  if s.node.form ≠ .troika || s.red.role = .excluded then s
  else
    let s1 := logEvent 0x0A0B sevError [byte s.node.chipIndex, byte cause] (count (statRedund 18)
      { s with red := { s.red with excludeCause := cause, needRejoin := !s.rejoinAuto || decide (cause = 6 ∨ cause = 1 ∨ cause = 3), dissents := []
                                   inputs := [], outputs := [], copies := [] } })
    haltAll (releaseClaim check .excluded s1)

/-- Link peers whose last HEARTBEAT showed a state in which control runs. -/
def State.peerRuns (s : State) : Bool :=
  s.red.tugs.any (fun t => t.peerState = NodeState.run.code || t.peerState = NodeState.degraded.code)

/-- R415 holds but for the wait on PEER_CLAIM_IN0: state, no SAFE event, the pin, the last HEARTBEAT. -/
def State.mayClaim (s : State) : Bool :=
  let ok : Bool := match s.node.state with | .ready | .run | .degraded => true | _ => false
  s.node.form = .span && ok && !s.red.nodeSafe && !s.red.peerClaim0 && !s.red.claim
    && s.red.tugs.all (fun t => !t.up || (!bit t.peerFlags 0 && !bit t.peerFlags 3))

/-! ## State streaming (R411, R417) -/

/-- The lines of a bank that differ, as a DELTA carries them. -/
def deltaRecords (ls : List (Nat × List Byte)) : List Byte := ls.flatMap (fun l => be 4 l.1 ++ l.2)

/-- META of a task: IMAGE_REF and next sequence number of each publisher, then ET_MAX. -/
def State.metaBytes (s : State) (t : Task) : List Byte :=
  (s.taskCtxs t true).flatMap (fun c => match s.ctx? c with
    | some x => be 4 x.imageRef ++ be 2 x.seqGen.toNat ++ zeros 2
    | none => []) ++ be 4 (min 0xFFFFFFFF t.etMaxNs)

/-- OUTPUT, META and END of a task's last commit; check is over the lines sent. -/
def sendTail (l n : Nat) (t : Task) (ls : List (Nat × List Byte)) (s : State) : State :=
  let k := t.lastCommit
  let s1 := sendParts l .state n 2 k t.output s
  let s2 := tugSend l .state 3 (subHeader n 3 1 0 k ++ s1.metaBytes t) s1
  tugSend l .state 4 (subHeader n 4 1 0 k ++ wordBytesBe (crc32 (deltaRecords ls))) s2
where
  wordBytesBe (w : Word) : List Byte := be 4 w.toNat

/-- After a commit: DELTA, OUTPUT, META, END to the chip that holds this task's state. -/
def streamState (l n : Nat) (old : List Byte) (s : State) : State :=
  match s.task? n with
  | none => s
  | some t =>
    let ls := changedLines old t.committed
    let cs := chunks 14 (t.committed.length + 1) ls
    let s1 := (cs.mapIdx (fun i c => (decide (i + 1 = cs.length), c))).foldl (fun s c =>
      tugSend l .state 1 (subHeader n 1 (b01 c.1) 0 t.lastCommit ++ deltaRecords c.2) s) s
    sendTail l n t ls s1

/-- Every line of a bank. -/
def allLines (b : List Byte) : List (Nat × List Byte) :=
  (List.range ((b.length + 63) / 64)).map (fun i => (64 * i, (slice b (64 * i) 64 ++ zeros 64).take 64))

/-- FULL of a task, with its OUTPUT, META and END. -/
def sendFull (l n : Nat) (s : State) : State :=
  match s.task? n with
  | none => s
  | some t => sendTail l n t (allLines t.committed) (sendParts l .state n 5 t.lastCommit t.committed s)

/-- Ask a chip for FULL of a task: an ACK with ABSENT set (DESIGN CHOICE, log entry 72). -/
def requestFull (l n : Nat) (s : State) : State := tugSend l .state 6 (subHeader n 6 2 0 0) s

/-- Send the force table and the time state to a chip that synchronises (R430). -/
def sendNodeItems (l : Nat) (s : State) : State :=
  let fs := s.ctl.forces.map (fun f => le 4 f.var ++ [byte f.typ, byte f.task, byte (b01 f.input), 0] ++ (f.value ++ zeros 8).take 8)
  let cs := chunks 60 (fs.length + 1) fs
  let s1 := (cs.mapIdx (fun i c => (decide (i = 0), c))).foldl (fun s c => tugSend l .sync 8 ([byte (b01 c.1)] ++ c.2.flatten) s) s
  let p := s1.time.planned
  [0, 1].foldl (fun s i =>
    let d := p.dom i
    let c : TimeChange := { tick := s.now, dom := i, anchor := d.anchor, offset := d.offset, rate := d.rate, slew := p.slewAt s.slewMax s.now
                            sel := p.sel, epoch := p.epoch, st := d.st }
    tugSend l .sync 1 c.bytes s) s1

/-- Tasks whose state a standby or synchronising chip holds. -/
def State.heldTasks (s : State) : List Nat := (s.ctl.tasks.filter (fun e => e.2.enabled)).map Prod.fst

/-- Synchronisation begins: FULL of every task is asked for (R419, R430). -/
def startSync (l : Nat) (s : State) : State :=
  let ns := s.heldTasks
  let total := sumOf ((s.ctl.tasks.filter (fun e => e.2.enabled)).map (fun e => e.2.stateLen))
  let s1 := setRole .syncing { s with red := { s.red with copies := [], syncDone := 0, syncTotal := total } }
  ns.foldl (fun s n => requestFull l n s) s1

/-- Every task's copy is whole. -/
def State.synced (s : State) : Bool :=
  s.heldTasks.all (fun n => match Store.find s.red.copies n with | some c => c.full && c.complete.isSome | none => false)

/-- Control runs on a chip that joins a node whose control runs (log entry 74). -/
def joinControl (s : State) : State :=
  if s.node.state = .ready && s.peerRuns then
    setState (if s.node.lost = 0 then .run else .degraded) 8 0 { s with ctl := { s.ctl with
      tasks := s.ctl.tasks.map (fun e => (e.1, if e.2.enabled && e.2.st = .idle && s.startsHere e.1 e.2 then
        { s.freshTask e.1 e.2 false with st := .running, runNid := s.node.nid } else e.2))
      started := if s.ctl.started = 0 then 2 else s.ctl.started, startArmed := false, startDue := false } }
  else s

/-- A synchronising Span chip whose copies are whole becomes the standby (R419). -/
def syncCheck (s : State) : State :=
  if s.node.form = .span && s.red.role = .syncing && s.synced then setRole .standby (joinControl s) else s

/-- A chip without claim that hears a claiming peer, or a member, over an up link starts to synchronise (R419, R429, R430). -/
def trySync (s : State) : State :=
  if !s.node.state.inLine || s.node.state = .safe || s.red.claim || (s.red.needRejoin && s.red.members ≠ 0) then s
  else match s.node.form with
    | .simplex => s
    | .span =>
      if s.red.role = .detached then
        (match s.carriers.find? (fun l => bit (s.tug l).peerFlags 0) with | some l => startSync l s | none => s)
      else s
    | .troika =>
      if s.red.role = .detached || s.red.role = .excluded then
        (match s.linkTo s.red.leader with
         | some l => if s.red.members = 0 then setRole .syncing { s with red := { s.red with copies := [], syncDone := 0, syncTotal := 0 } } else startSync l s
         | none => s)
      else s

/-! ## Takeover (R420) -/

/-- Sequence numbers of a META body, and its ET_MAX. -/
def metaOf (b : List Byte) : List (Nat × Nat) × Nat :=
  let k := (b.length - 4) / 8
  ((List.range k).map (fun i => (fBe b (8 * i) 4, fBe b (8 * i + 4) 2)), fBe b (8 * k) 4)

/-- One task on the new active: its newest complete cycle, else its retained copy, else initial values. from_ is the first tick of a cycle. -/
def takeTask (from_ : Nat) (n : Nat) (t : Task) (s : State) : State :=
  let c := (Store.find s.red.copies n).filter (fun c => c.full && c.complete.isSome)
  let grid := (s.trainNow + t.periodTt - 1) / t.periodTt
  let warm := t.retainLen ≠ 0 && s.retainCause n t = 0
  match c with
  | some c =>
    let k := c.complete.getD 0
    let cycle := k + max 1 (grid - c.grid)
    let m := metaOf c.info
    let s1 := setTask n (fun t => { t with
      st := .running, ph := .idle, committed := c.bank, output := c.output, outHeld := true, outs := max 1 t.outs, cycle := cycle
      lastCommit := k, prevHeld := true, lastHeld := true, first := false, warm := false, etMax := some m.2, fromTick := from_, heldCause := 0 }) s
    logEvent 0x0A03 sevWarning ([byte n, 1] ++ le 8 cycle) (handedPubs n m.1 none (assignPair n s1))
  | none =>
    let t1 := s.freshTask n t warm
    let s1 := assignPair n (setTask n (fun _ => { t1 with st := .running, prevHeld := true, fromTick := from_, runNid := s.node.nid }) s)
    logEvent 0x0A03 sevWarning ([byte n, byte (if warm then 2 else 3)] ++ le 8 t1.cycle) s1

/-- The new active takes over every running task. -/
def takeover (s : State) : State :=
  let s1 := joinControl s
  if !s1.node.state.running then s1
  else
    let from_ := s1.now + (if s1.node.chipIndex = 0 then 90 else 70) * ticksPerUs
    let s2 := s1.ctl.tasks.foldl (fun s e => if e.2.st = .running || e.2.st = .migOut then takeTask from_ e.1 e.2 s else s) s1
    { s2 with red := { s2.red with copies := [] } }

/-- A Span chip that may claims: at start, or to take over (R415, R419). -/
def claimSpan (s : State) : State :=
  if !s.mayClaim then s
  else
    let taking := s.red.role = .syncing || s.red.role = .standby
    let cause := if s.red.switchAt.isSome then 3 else if taking then 2 else 1
    let s1 := assertClaim cause .active { s with red := { s.red with switchAt := none } }
    if taking then takeover s1 else s1

/-! ## Tug links going up and down (R410, R419, R429) -/

/-- Frames not acknowledged on a link leave on another (R408, R410). -/
def moveUnacked (src dst : Nat) (s : State) : State :=
  let ms := (s.tug src).unacked ++ (s.tug src).waiting
  let s1 := setTug src (fun t => { t with unacked := [], waiting := [] }) s
  ms.foldl (fun s m => tugSend dst m.chan m.typ m.data s) s1

/-- TUG_LINK: link, 1 up or 2 down, peer CHIP_INDEX. -/
def tugSaid (l up : Nat) (s : State) : State :=
  raise .redund 5 (logEvent 0x0A06 sevNotice [byte l, byte up, byte (((s.tug l).peerIndex).getD 0xFF)] s)

/-- Consequences of a change in which peers are reached (R410, R419, R429). -/
def linksChanged (s : State) : State :=
  match s.node.form with
  | .simplex => s
  | .span =>
    if s.red.tugs.any TugLink.up then s
    else
      let s1 := { s with red := { s.red with copies := [] } }
      let s2 := if s.red.role = .syncing || s.red.role = .standby then setRole .detached s1 else s1
      if s2.red.role = .active then setResource 3 true s2 else s2
  | .troika =>
    if !s.red.claim then s
    else
      let down := ([0, 1] : List Nat).filter (fun l => !(s.tug l).up && s.red.members.getLsbD (s.linkChip l))
      if down.length = 2 then excludeSelf 4 0 s
      else match down with
        | [l] => if s.linkChip l < s.node.chipIndex then excludeSelf 5 0 s else s
        | _ => s

/-- A link goes down (R410): the counts and sequences of its next time up start anew. -/
def linkDown (l : Nat) (s : State) : State :=
  if !(s.tug l).up then setTug l (fun t => { t with beats := 0 }) s
  else
    let s1 := tugSaid l 2 (count (statRedund (4 + l)) (setTug l (fun t => { t with up := false, beats := 0 }) s))
    let s2 := if s1.node.form = .span && l = 0 && s1.tug1Spare && (s1.tug 1).up && !s1.red.onSpare
      then moveUnacked 0 1 { s1 with red := { s1.red with onSpare := true } } else s1
    let lost := s2.red.parts.filter (fun r => r.link = l && r.chan = .frame)
    let s3 := lost.foldl (fun s r => count (statPort (portOf (if fBe r.head 2 1 = 0 then .a else .b) (max 1 (fBe r.head 1 1))) 42) s)
      { s2 with red := { s2.red with parts := s2.red.parts.filter (fun r => r.link ≠ l) } }
    linksChanged (setTug l (fun t => { t with
      unacked := [], waiting := [], txSeq := 1, rxSeq := 1, sent := List.replicate 8 0, got := List.replicate 8 0
      granted := [0, 16, 256, 512, 64, 64, 1024, 128], helloOk := false, peerFlags := 0 }) s3)

end Sys2Proof.Machine
end

