-- ==== Sys2Proof/Machine/NodeOps.lean ====
section
/-! DEFINITION. Transitions of the node (01_train_model.md R40 to R46, and the chapters that each transition calls on): entry into READY, SAFE,
HELD, STABLED and BOOT, waking, task faults. -/
namespace Sys2Proof.Machine

/-! ## Bypass (R40 to R42, R87, R212) -/

/-- Both bypass outputs asserted: low (R664). -/
def assertBypass (s : State) : State := drivePin .bypassB .low (drivePin .bypassA .low s)

/-- Bypass released on the lines held: high; a lost line's stays asserted. -/
def releaseBypass (s : State) : State :=
  drivePin .bypassB (if s.node.lost.getLsbD 1 then .low else .high) (drivePin .bypassA (if s.node.lost.getLsbD 0 then .low else .high) s)

/-- The backbone chip forwards on its old paths for BYPASS_SETTLE after a bypass output asserts. -/
def startSettle (s : State) : State := { s with node := { s.node with settling := true } }

/-- BYPASS_SETTLE ends: queued frames are discarded as STATE_DROP (R212). -/
def endSettle (s : State) : State :=
  if !s.node.settling then s
  else (List.range 15).foldl (fun s p => dropPort p 44 s) { s with node := { s.node with settling := false } }

/-! ## Leaving the states in line -/

/-- What every way out of READY, RUN, DEGRADED and SAFE other than a loss of power does: control and its forces end, claim, time, hitch, streams, buses
and bridge stop, learned addresses go (R40, R75, R148, R211, R299, R346, R396). -/
def leaveLine (new : NodeState) (cause res : Nat) (s : State) : State :=
  let was := s.node.state.inLine
  let s1 := releaseForces (fun _ => true) 5 (haltAll (wrLeave s))
  let s2 := { s1 with ctl := { s1.ctl with
    tasks := s1.ctl.tasks.map (fun (e : Nat × Task) => (e.1, { e.2 with st := .idle, pair := none, runNid := 0 }))
    fwaits := [], swaps := [], startArmed := false, startDue := false } }
  let s3 := releaseClaim 9 .detached (if was then startSettle (assertBypass s2) else assertBypass s2)
  let s4 := stopStreams (hitchStop (stopGptp s3))
  let s5 := unlearn (fun e => !e.static) (setState new cause res s4)
  legSync (canModes 3 (bridgeStop s5))

/-- Entry into HELD (R44, R616): HELD_CAUSE 1 no valid tack image, 2 failed validation or peer mismatch. -/
def enterHeld (heldCause cause : Nat) (s : State) : State :=
  let s1 := leaveLine .held cause 0 { s with node := { s.node with heldCause := heldCause }, pwr := { s.pwr with entering := false } }
  { s1 with boot := { s1.boot with tryA := 0, tryB := 0 } }

/-- Entry into SAFE (R330 to R332, R421): tasks stop at once without commit, every force is released. event: the SAFE event goes to the node's other chips
first; check: the row of R414 for which the claim is released. -/
def enterSafe (event : Bool) (check : Nat) (s : State) : State :=
  if !s.node.state.running then s
  else
    let s0 := if event && s.node.form ≠ .simplex then tugAll .sync 5 [] { s with red := { s.red with nodeSafe := true } } else s
    let s1 := haltAll (wrLeave s0)
    let s2 := { s1 with ctl := { s1.ctl with
      tasks := s1.ctl.tasks.map (fun (e : Nat × Task) => (e.1, { e.2 with st := if e.2.st = .running ∨ e.2.st = .faulted then .stopped else e.2.st, pair := none }))
      fwaits := [], swaps := [] } }
    let s3 := setState .safe 11 0 (releaseForces (fun _ => true) 5 s2)
    wrCheck (importAll (legSync (canModes 3 (releaseClaim check .detached s3))))

/-- A SAFE event of the node's active reaches this chip (R421). -/
def safeEvent (s : State) : State := enterSafe false 9 { s with red := { s.red with nodeSafe := true } }

/-! ## Entering the states in line -/

/-- START_MODE as an automatic start takes it: none, or a kind (0 COLD, 1 WARM) (R340, R592). -/
def State.startKind (s : State) : Option Nat :=
  match s.node.startArg with
  | 1 => some 0
  | 2 => some 1
  | 3 => none
  | _ => match s.param 1 10 0xFFFF 2 with | 0 => none | 1 => some 0 | _ => some 1

/-- The static address-table entry of the bridge address (R496). -/
def bridgeEntry (s : State) : State :=
  let m := bridgeMac s.node.nid
  let e : FdbEntry := { mac := m, vid := s.bridgeVid, dest := 15, static := true, drop := false, locked := false, mask := 0, seen := s.now }
  { s with sw := { s.sw with fdb := s.sw.fdb.filter (fun x => !(x.mac = m && x.vid = s.bridgeVid)) ++ [e] } }

/-- The fields that entry into READY sets: failed attempts forgotten (R574), the idle time starts. -/
def readyFields (s : State) : State :=
  let n := { s.node with heldCause := 0, settling := false }
  let b := { s.boot with tryA := 0, tryB := 0 }
  let p := { s.pwr with idleFrom := s.now, entering := false, wakeKept := false }
  { s with node := n, boot := b, pwr := p }

/-- The control start that entry into READY arms (R340). -/
def armStart (s : State) : State :=
  { s with ctl := { s.ctl with startArmed := s.startKind.isSome, startDue := false } }

/-- Entry into READY: fromBoot says that domains start anew (R146), else they go on from HOLDOVER (R148). -/
def enterReady (fromBoot : Bool) (cause : Nat) (s : State) : State :=
  let s1 := setState .ready cause 0 (readyFields s)
  let s2 := hitchStart (if fromBoot then startDomains s1 else reactivateStreams s1)
  let s3 := armStart (legSync (canModes 3 (bridgeEntry (releaseBypass s2))))
  trySync (if s3.node.form = .simplex then s3 else setRole .detached s3)

/-- An automatic start falls due: the first completed hitch, or START_WAIT (R340). -/
def startNow (s : State) : State :=
  if s.ctl.startArmed then { s with ctl := { s.ctl with startArmed := false, startDue := true } } else s

/-- The lines a chip carries by its place (R23, R403). -/
def chipLine (form : Form) (i : Nat) (l : Line) : Bool :=
  match form, l with
  | .simplex, _ => true
  | _, .a => i = 0
  | _, .b => i = 1

/-- Identity and role as an image gives them (R29, R48, R403). -/
def takeIdentity (s : State) : State :=
  let form : Form := match s.param 3 1 0xFFFF 0 with | 1 => .span | 2 => .troika | _ => .simplex
  let i := s.param 2 2 0xFFFF 0
  let r := { s.red with needRejoin := decide (form = .troika) && s.param 3 8 0xFFFF 1 ≠ 1 }
  { s with red := r, node := { s.node with
    nid := BitVec.ofNat 64 (s.param 1 1 0xFFFF 0), form := form, chipIndex := i
    lineA := chipLine form i .a, lineB := chipLine form i .b, active := decide (form = .simplex) } }

/-- GPIO outputs take their reset levels once an image is active (R609, R650). -/
def gpioStart (s : State) : State :=
  (List.range 24).foldl (fun s g =>
    if s.param 1 8 g 0 ≠ 1 then s else
    let on := s.gpioReset g
    let o := if on then s.pwr.gpioOut ||| (1#24 <<< g) else s.pwr.gpioOut &&& ~~~ (1#24 <<< g)
    emit (.pin (.gpio g) (if on then .high else .low)) { s with pwr := { s.pwr with gpioOut := o } }) s

/-- LATE_ACTION of the host rings as the image gives it (R127). -/
def ringsStart (s : State) : State :=
  { s with tx := s.tx.mapIdx (fun i (r : Ring) => { r with late := decide (s.param 5 19 i 0 = 1) }) }

/-- An image takes effect: every unit loads its part of it (R306, R311, R494, R530, R616). -/
def activate (t : Tack) (s : State) : State :=
  let s1 := takeIdentity { s with tack := { s.tack with active := some t } }
  gpioStart (ringsStart (bridgeLoad (canLoad (loadStreams (controlLoad (loadSwitch (repartition s1)))))))

/-! ## STABLED (R617, R618) -/

/-- No task may latch: the STABLED entry sequence or TACK_COMMIT runs (R613, R617). -/
def State.noLatch (s : State) : Bool := s.pwr.entering || s.tack.commitOn

/-- No cycle is in progress. -/
def State.cyclesEnded (s : State) : Bool := s.ctl.tasks.all (fun e => e.2.ph = .idle)

/-- The entry sequence begins (R617): control stops with its cycles, removal is announced. -/
def startStabled (ref : Option AcsRef) (cause : Nat) (s : State) : State :=
  announceBypass { s with pwr := { s.pwr with entering := true, stableCmd := ref }, node := { s.node with removal := some .stable, stableCause := cause } }

/-- The node enters STABLED (R617). -/
def enterStabled (s : State) : State :=
  let ref := s.pwr.stableCmd
  let s1 := leaveLine .stabled s.node.stableCause 0 s
  let s2 := { s1 with pwr := { s1.pwr with entering := false, stableCmd := none, alarmArmed := s1.param 1 3 0xFFFF 0 ≠ 0 }
                      node := { s1.node with removal := none } }
  finish ref stOk [] s2

/-- A wake event (R618): WAKE_OUT for 100 ms, and from STABLED the node enters READY. During the entry sequence it is kept. -/
def wakeEvent (s : State) : State :=
  match s.node.state with
  | .stabled => enterReady false 15 (drivePin .wakeOut .high { s with pwr := { s.pwr with alarmArmed := false } })
  | _ => if s.pwr.entering then { s with pwr := { s.pwr with wakeKept := true } } else s

/-! ## BOOT (R16, R47) -/

/-- Entry into BOOT from a state of the chip: every register goes to its Reset value; what stands in the MRAM dies, in embedded MRAM, in the boot flash and in
the backup domain is kept, and so are the pins' inputs and the model's own fields. -/
def bootKeep (s : State) : State :=
  { pending := s.pending, out := s.out, freeIdx := s.freeIdx, retain := s.retain
    pwr := { vbak := s.pwr.vbak, main := s.pwr.main, railTrip := s.pwr.railTrip, thermal := s.pwr.thermal, thermalStep := s.pwr.thermalStep
             wakeIn := s.pwr.wakeIn, wakeOut := s.pwr.wakeOut, gpioIn := s.pwr.gpioIn }
    boot := { mode := s.boot.mode, slotA := s.boot.slotA, slotB := s.boot.slotB, tryA := s.boot.tryA, tryB := s.boot.tryB, preferB := s.boot.preferB }
    tack := { bank0 := s.tack.bank0, bank1 := s.tack.bank1, rec0 := s.tack.rec0, rec1 := s.tack.rec1, flash := s.tack.flash }
    sec := { secured := s.sec.secured, key0 := s.sec.key0, key1 := s.sec.key1, key2 := s.sec.key2, key3 := s.sec.key3
             fwFloor := s.sec.fwFloor, tackFloor := s.sec.tackFloor, revoked := s.sec.revoked, macKeys := s.sec.macKeys }
    log := { seqFloor := s.log.seqFloor, seqLimit := s.log.seqLimit, low := s.log.low, high := s.log.high, seald := s.log.seald
             sealedSlots := s.log.sealedSlots, highSlots := s.log.highSlots, lastWords := s.log.lastWords, lwNext := s.log.lwNext
             lwKept := s.log.lwKept, degraded0 := s.log.degraded0, degraded1 := s.log.degraded1, mediaFault := s.log.mediaFault }
    time := { backValid := s.time.backValid, backTime := s.time.backTime, backCount := s.time.backCount }
    red := { peerClaim0 := s.red.peerClaim0, peerClaim1 := s.red.peerClaim1 }
    node := { bypassA := s.node.bypassA, bypassB := s.node.bypassB } }

/-- The chip's outputs at their reset states (R650): the claim low, the bypass outputs, SYNC_OUT and the GPIOs at high impedance, WAKE_OUT low. -/
def resetPins (s : State) : State :=
  let s1 := if s.red.claim then drivePin .claimOut .low s else s
  let s2 := drivePin .wakeOut .low (drivePin .syncOut .hiz (drivePin .bypassB .hiz (drivePin .bypassA .hiz s1)))
  ((List.range 24).filter (fun g => s.param 1 8 g 0 = 1)).foldl (fun s g => emit (.pin (.gpio g) .hiz) s) s2

/-- The chip enters BOOT (R44): outputs to their reset states, START kept for the first control start. -/
def enterBoot (cause : Nat) (s : State) : State :=
  let old := s.node.state
  let k := bootKeep (resetPins s)
  { k with node := { k.node with
    state := .boot, prev := old, startArg := if cause = 12 ∨ cause = 16 then s.node.startNext else 0, bootFrom := some (old.code, cause)
    lost := if s.log.degraded0 || s.log.degraded1 then 4 else 0 } }

/-! ## Task faults and pairs (R330, R331) -/

/-- The task has a fault (R330): causes of R676. -/
def taskFault (n cause : Nat) (s : State) : State :=
  match s.task? n with
  | none => s
  | some t =>
    let stop := t.stopsOnFault
    let s1 := raise .control 5 (logEvent 0x0706 sevCritical [byte n, byte cause, byte (if stop then 1 else 2)] (count (statControl 12) s))
    if stop then stopTask n 2 (if t.st = .migOut then abortOut n 5 s1 else s1)
    else enterSafe true 9 s1

/-- A pair is retired (R331): its tasks move to the pairs left, or the node enters SAFE. -/
def retirePair (p : Nat) (s : State) : State :=
  let ns := (s.ctl.tasks.filter (fun e => e.2.pair = some p)).map Prod.fst
  let busy := (s.ctl.tasks.filter (fun e => e.2.pair = some p && (e.2.ph = .ready || e.2.ph = .executing || e.2.ph = .waiting))).map Prod.fst
  let s1 := busy.foldl (fun s n => holdTask n 1 s) (setPair p (fun x => { x with retired := true, stopped := none, running := none }) s)
  let s2 := setResource 5 true (raise .control 8 (logEvent 0x0707 sevError ([byte p] ++ le 4 ns.length) s1))
  let s3 := assignPairs ns s2
  if s3.activePairs.isEmpty then enterSafe false 6 s3 else wrCheck s3

end Sys2Proof.Machine
end

