-- ==== Sys2Proof/Machine/Hitch.lean ====
section
/-! DEFINITION. The Hitch unit's events and commands (02_hitch.md). -/
namespace Sys2Proof.Machine

/-! ## Frames and neighbours (R51 to R68) -/

/-- What follows every change of the vectors, the links or the inhibit sources: change frames, the Wrangler's look at the chain. -/
def hitchAfter (s : State) : State := wrCheck (sendChanges s)

/-- A vector received on a port, by this chip or by another chip of the node (R60). -/
def hitchVector (p : Nat) (f : HFrame) (s : State) : State :=
  match f.vec.recs.head? with
  | none => s
  | some r =>
    let d := dirOfPort p
    let new := decide ((s.hport p).neighbour ≠ some r.nid)
    let s1 := setVec d f.vec (if new then loseNeighbour p s else s)
    let s2 := if new then gainNeighbour p r s1 else s1
    let s3 := if r.bypassing && !(s2.hport p).nbBypass then logEvent 0x030C sevNotice ([2] ++ nidBytes r.nid) s2 else s2
    hitchAfter (review d p r.nid (setHPort p (fun h => { h with nbBypass := r.bypassing }) (mkaNeighbour p r.nid s3)))

/-- The exchange that a received frame completes: own frame sent and heard, the neighbour's answer sent and heard (R54, R55). -/
def hitchExchange (p : Nat) (f : HFrame) (s : State) : State :=
  let h := s.hport p
  let before := if f.seq = 0 then 0xFFFE else f.seq - 1
  match h.txHist.find? (fun e => e.1 = f.rxSeq), f.vec.recs.head? with
  | some t1, some r =>
    if f.rxSeq = 0xFFFF || h.rxSeq ≠ some before then s
    else
      let a := stampField t1.2
      let b := stampField h.lastRx
      let rtt : Int := ((b : Int) - a) - ((f.txPrev : Int) - f.rxTs)
      linkExchange p r.nid a f.rxTs f.txPrev b (setHPort p (fun h => { h with rtt := rtt.toNat }) s)
  | _, _ => s

/-- An invalid hitch frame is discarded and counted (R59, R106). -/
def hitchInvalid (p : Nat) (s : State) : State := setHPort p (fun h => { h with invalid := min 0xFFFFFFFF (h.invalid + 1) }) s

/-- A link-local address, 01-80-C2-00-00-00 to 0F (R53). -/
def linkLocal (m : Mac) : Bool := m.toNat / 16 = 0x0180C200000

/-- HITCH_BEAT: on each port, the ended beat period is counted where it brought no valid frame, and a beat frame leaves (R51, R63). -/
def execHitchBeat (s : State) : Out :=
  .next (if !s.alive || !s.hitchOn then s else
    [0, 1, 2, 3].foldl (fun s p =>
      if !(s.hport p).live || !s.portUp p then s
      else sendHitch 1 p (setHPort p (fun h => { h with
        heard := false, missedRun := if h.heard then 0 else h.missedRun + 1
        missed := if h.heard then h.missed else min 0xFFFFFFFF (h.missed + 1) }) s)) s)

/-- HITCH_FRAME_RECEIVE: discarded during debounce, invalid, or taken (R53, R59, R60, R66). -/
def execHitchFrameReceive (port : Nat) (frame : Frame) (stamp : Stamp) (s : State) : Out :=
  .next (if !s.alive || !s.hitchOn || 4 ≤ port || !s.portUp port || !(s.hport port).live || frame.etype ≠ s.hitchEtype || !linkLocal frame.da
    then s
    else if frame.da ≠ 0x0180C200000E#48 then hitchInvalid port s
    else match hframeOf (lineOfPort port) frame.payload with
      | none => hitchInvalid port s
      | some f =>
        let s1 := setHPort port (fun h => { h with
          rxSeq := some f.seq, lastRx := stamp, heard := true, missedRun := 0, helloWait := false, ttdpNb := false }) (hitchExchange port f s)
        hitchVector port f (tugAll .sync 3 ([byte port] ++ frame.payload) s1))

/-- A hitch frame that another chip of the node received (R60). -/
def hitchRelay (m : List Byte) (s : State) : State :=
  let p := fBe m 0 1
  if !s.hitchOn || 4 ≤ p then s
  else match hframeOf (lineOfPort p) (m.drop 1) with
    | some f => hitchVector p f s
    | none => s

/-- A neighbour is lost on a port of this chip: the node's other chips learn it (R63). -/
def neighbourLost (p : Nat) (s : State) : State :=
  if (s.hport p).neighbour.isNone then s
  else hitchAfter (evalInhibit (tryCommit (loseNeighbour p (tugAll .sync 4 [byte p] s))))

/-- A neighbour loss that another chip of the node declared. -/
def hitchLostTold (m : List Byte) (s : State) : State :=
  let p := fBe m 0 1
  if !s.hitchOn || 4 ≤ p then s else hitchAfter (evalInhibit (tryCommit (loseNeighbour p s)))

/-- LOSS_COUNT (R62). -/
def State.lossCount (s : State) : Nat := s.param 4 1 0xFFFF 4

/-- NEIGHBOUR_LOSS_TIMEOUT: LOSS_COUNT beat periods in a row brought no valid frame (R63). -/
def execNeighbourLossTimeout (port : Nat) (s : State) : Out :=
  .next (if s.alive && s.hitchOn && port < 4 && (s.hport port).live && s.lossCount ≤ (s.hport port).missedRun then neighbourLost port s else s)

/-! ## Rounds (R65, R68 to R71, R75) -/

/-- The direction's port on the other line. -/
def otherPort (p : Nat) : Nat := portOf (if lineOfPort p = .a then .b else .a) (dirOfPort p)

/-- LINE_SETTLE_EXPIRY: a coupling on one line only starts a round, and the absent line is faulted; under inhibit the link stays held
(R65, R68, R91). -/
def execLineSettleExpiry (dir : Nat) (s : State) : Out :=
  .next (if !s.alive || !s.hitchOn || (dir ≠ 1 && dir ≠ 2) || !s.hitch.settling dir then s else
    let c := if dir = 1 then s.hitch.couple1 else s.hitch.couple2
    match c with
    | none => setSettle dir false none s
    | some p =>
      match (s.hport p).neighbour with
      | none => setSettle dir false none s
      | some n =>
        let q := otherPort p
        let s1 := setSettle dir false (some p) s
        let s2 := if (s.hport q).neighbour.isNone then setFault q true n s1 else s1
        if s.hitch.proc = .ttdp then s2
        else if s.hitch.inhibited && s.hitch.proc = .steady then
          raise .hitch 8 (logEvent 0x030B sevNotice ([byte p] ++ nidBytes n)
            { setSettle dir false none s2 with hitch := { (setSettle dir false none s2).hitch with heldInh := true } })
        else hitchAfter (startRound 3 p n s2))

/-- HITCH_PENDING_EXPIRY: LINK_DEBOUNCE and LINE_SETTLE have passed since entry into READY (R75). -/
def execHitchPendingExpiry (s : State) : Out :=
  .next (if s.alive && s.hitch.proc = .pending then hitchAfter (startRound 6 0xFF 0 s) else s)

/-- BYPASS_WINDOW_EXPIRY: the successor did not appear (R75). -/
def execBypassWindowExpiry (s : State) : Out :=
  .next (if !s.alive || s.hitch.proc ≠ .bypassWait then s else
    let n := s.hitch.leaver.getD 0
    let d := if (s.hitch.beyond 1).any (fun x => decide (x.nid = n)) then 1 else 2
    hitchAfter (uncouple 8 d (portOf .a d) n
      { s with hitch := { s.hitch with proc := .steady, leaver := none, successor := none } }))

/-- HITCH_PROPOSE: a complete chain that was not yet computed on gives a proposal or is refused (R69, R77 to R79). -/
def execHitchPropose (s : State) : Out :=
  .next (if !s.alive || s.hitch.switching || (s.hitch.proc ≠ .gather && s.hitch.proc ≠ .agree) || !s.chainComplete
      || (s.hitch.lastChain = s.chainKey) then s
    else
      let xs := s.physChain
      match propose xs ((s.effVec 1).overflow || (s.effVec 2).overflow) with
      | .error cause => hitchAfter (refuse cause xs.length s)
      | .ok pr =>
        hitchAfter (tryCommit (sendChanges { s with hitch := { s.hitch with
          proc := .agree, prop := some pr, lastChain := s.chainKey, refuse := 0
          consErr := if xs.length = 1 then [] else consistErrors (ordered xs) } })))

/-- The node's place in a chain. -/
def placeIn (n : Nid) (c : List CNode) : Nat := c.findIdx (fun x => x.nid = n)

/-- The committed values that a proposal gives this node (R71). -/
def takeProposal (pr : Proposal) (s : State) : State :=
  let h := s.hitch
  let own := pr.chain[placeIn s.node.nid pr.chain]?
  let h1 := { h with
    gen := pr.gen, fp := pr.fp, chain := pr.chain, position := placeIn s.node.nid pr.chain + 1, nodes := pr.chain.length
    orient := (own.map CNode.orient).getD false, consist := (own.map CNode.consist).getD 0, vehicle := (own.map CNode.vehicle).getD 0
    consists := maxOf (pr.chain.map CNode.consist)
    vehicles := maxOf (pr.chain.map (fun (x : CNode) => x.firstVeh + x.vehCount - 1)) }
  { s with hitch := { h1 with
    mode := if h.ttdpMode then 2 else 1, proc := if h.ttdpMode then .ttdp else .steady, rehitch := false, switching := false
    committed := true, prop := none, refuse := 0, switchTick := s.now, roundUs := (s.now - h.roundStart) / ticksPerUs
    heldInh := false, lost1 := false, lost2 := false, successor := none, leaver := none, consErr := [] } }

/-- Held links whose neighbour the new chain holds next to this node are admitted (R67, R71). -/
def admitHeld (s : State) : State :=
  [0, 1, 2, 3].foldl (fun s p =>
    if (s.hport p).neighbour.isSome && (s.hport p).neighbour = s.hitch.nextNode (dirOfPort p)
    then setHPort p (fun h => { h with admitted := true }) s else s) s

/-- Couplings that came too late for the round that switched: a new round, or held under inhibit (R68, R91). -/
def lateCouples (s : State) : State :=
  [0, 1, 2, 3].foldl (fun s p =>
    match (s.hport p).neighbour with
    | none => s
    | some n =>
      if (s.hport p).admitted || s.hitch.settling (dirOfPort p) || (s.hport p).fault || s.hitch.proc ≠ .steady then s
      else if s.hitch.inhibited then
        raise .hitch 8 (logEvent 0x030B sevNotice ([byte p] ++ nidBytes n) { s with hitch := { s.hitch with heldInh := true } })
      else startRound 2 p n (setSettle (dirOfPort p) false (some p) s)) s

/-- The switch as one step (R71): numbers, the HITCHED record as the first of the new generation, links, addresses, bindings, sessions,
what waited for it; HITCHED is raised last. -/
def hitchSwitch (pr : Proposal) (s : State) : State :=
  let old := s.hitch
  let s1 := takeProposal pr s
  let h := s1.hitch
  let s2 := logRelease (logEvent 0x0302 sevNotice
    (wordBytes h.gen ++ wordBytes h.fp ++ [byte h.position, byte (b01 h.orient)] ++ le 4 h.nodes ++ le 4 h.roundUs) s1)
  let s3 := unlearn (fun e => !e.static && ((old.lost1 && e.dest = 16) || (old.lost2 && e.dest = 17))) (admitHeld s2)
  let s4 := rebindSessions (rebindStreams old s3)
  let s5 := old.consErr.foldl (fun s e => raise .hitch 9 (logEvent 0x0309 sevWarning (wordBytes e.1 ++ [byte e.2]) s)) s4
  let s6 := startNow (wrSwitch (wtbEnds (applyDueStep (uncalibrated s5))))
  let s7 := raise .hitch 0 s6
  finishHitchWaits (fun w => w.gen.isNone || w.gen ≠ some h.gen) stOk (wordBytes h.gen) s7

/-- HITCH_SWITCH: the switch step ends; what differs from the new view starts the next round (R71, R90, R91). -/
def execHitchSwitch (s : State) : Out :=
  .next (match s.hitch.prop with
    | none => s
    | some pr =>
      if !s.alive || !s.hitch.switching then s
      else hitchAfter (review 2 (portOf .a 2) 0 (review 1 (portOf .a 1) 0 (lateCouples (evalInhibit (hitchSwitch pr s))))))

/-! ## TTDP-compatible mode (R93 to R96) -/

/-- TTDP_COMPAT (R62). -/
def State.ttdpCompat (s : State) : Bool := s.param 4 5 0xFFFF 1 = 1

/-- TTDP_HELLO_RECEIVE: the 10 ms of R94 start with the first HELLO of a neighbour that sends no hitch frames. -/
def execTtdpHelloReceive (port : Nat) (s : State) : Out :=
  .next (if s.alive && s.hitchOn && port < 4 && s.portUp port && (s.hport port).neighbour.isNone && !(s.hport port).ttdpNb
    then setHPort port (fun h => { h with helloWait := true }) s else s)

/-- TTDP_HELLO_TIMEOUT: TTDP-compatible mode, or with TTDP_COMPAT off TTDP_REFUSED once per link-up (R93, R94). -/
def execTtdpHelloTimeout (port : Nat) (s : State) : Out :=
  .next (if !s.alive || !s.hitchOn || 4 ≤ port || !(s.hport port).helloWait then s else
    let s1 := setHPort port (fun h => { h with helloWait := false }) s
    if s.ttdpCompat then hitchAfter (enterTtdp port (setHPort port (fun h => { h with ttdpNb := true }) s1))
    else if (s.hport port).ttdpSaid then s1
    else modeSaid 3 port (setHPort port (fun h => { h with ttdpSaid := true }) s1))

/-- A TTDP HELLO frame, its body laid out by IEC 61375-2-5. -/
def State.helloFrame (s : State) (p : Nat) : Frame :=
  { da := Config.helloDa, sa := s.portMac p, vlan := none, rtag := none, etype := Config.helloEtype, payload := Config.frameBody s.freeIdx }

/-- TTDP_HELLO_SEND: with TTDP_COMPAT on, HELLO frames leave on every backbone port (R93). -/
def execTtdpHelloSend (s : State) : Out :=
  .next (if !s.alive || !s.hitchOn || !s.ttdpCompat then s
    else [0, 1, 2, 3].foldl (fun s p => if s.portUp p then sendFrame p 7 (s.helloFrame p) .hitch (useFree s) else s) s)

/-- The record that a node of a TTDP result amounts to, with its orientation. -/
def TtdpNode.rec_ (x : TtdpNode) : HRec × Bool :=
  ({ nid := x.nid, prevGen := x.prevGen, prevFp := 0, propGen := 0, propFp := 0, consistId := x.consistId, vehCount := x.vehCount
     vehIndex := x.vehIndex, facing := false, prevOri := x.orient, cstDir := x.cstDir, fast := false, inhibit := false, bypassing := false
     committed := false, ttdp := true, form := x.form, linkAFar := false, linkBFar := false }, x.orient)

/-- Numbering, generation and fingerprint of a chain that TTDP has ordered (R94): the cause of a refusal, or the result. -/
def proposeOrdered (ys : List (HRec × Bool)) : Except Nat Proposal :=
  let runs := runsBy (fun x : HRec × Bool => x.1.consistId) ys
  let r := numberRuns 1 0 runs
  if 63 < ys.length then .error 1
  else if (ys.map (fun x => x.1.nid)).eraseDups.length ≠ ys.length then .error 2
  else if 32 < runs.length || runs.any (fun x => 8 < x.length) || 255 < r.2 then .error 3
  else .ok { gen := nextGen (maxOf (ys.map (fun x => x.1.prevGen.toNat))), fp := fingerprint (ys.map (fun x => (x.1.nid, x.2))), chain := r.1 }

/-- TTDP_INAUGURATION_TIMER: the process moves on as the standard specifies; a completed inauguration gives the order of the train, and the
node switches to what it numbers (R94, R95). -/
def execTtdpInaugurationTimer (result : Option (List TtdpNode)) (s : State) : Out :=
  .next (if !s.alive || s.hitch.proc ≠ .ttdp || s.hitch.switching then s
    else match result with
      | none => useFree { s with hitch := { s.hitch with ttdpPhase := s.freeNat } }
      | some ns =>
        let ys := ns.map TtdpNode.rec_
        if s.hitch.inhibited || !ns.any (fun x => decide (x.nid = s.node.nid)) then s
        else match proposeOrdered ys with
          | .error cause => raise .hitch 3 (logEvent 0x0306 sevError ([byte cause] ++ le 4 ns.length) { s with hitch := { s.hitch with refuse := cause } })
          | .ok pr => hitchAfter { s with hitch := { s.hitch with
              prop := some pr, switching := true, committed := true, consErr := consistErrors ys, roundStart := s.now } })

/-! ## Inhibit (R90) -/

/-- INHIBIT_INPUT_CHANGE: the input's level, and the node's INHIBIT with it. -/
def execInhibitInputChange (gpio : Nat) (level : Bool) (s : State) : Out :=
  .next (if 24 ≤ gpio then s else
    let m := BitVec.ofNat 24 (2 ^ gpio)
    let s1 := { s with pwr := { s.pwr with gpioIn := if level then s.pwr.gpioIn ||| m else s.pwr.gpioIn &&& ~~~m } }
    if !s.alive || s.param? 4 6 0xFFFF ≠ some gpio || s1.gpioInhibit = s.hitch.gpioInh then s1
    else hitchAfter (evalInhibit { s1 with hitch := { s1.hitch with gpioInh := s1.gpioInhibit } }))

/-! ## Commands (R98 to R108) -/

/-- HITCH_INFO (R99). -/
def State.hitchInfo (s : State) : Nat :=
  let h := s.hitch
  let n (x : Nat) : Nat := if h.gen = 0 then 0 else x
  flag h.rehitch 31 + flag h.inhibited 30 + h.mode % 4 * 2 ^ 28 + n (flag h.orient 27) + n (h.position % 64) * 2 ^ 20
    + n (h.consist % 64) * 2 ^ 14 + n (h.nodes % 64) * 2 ^ 8 + n (h.vehicle % 256)

/-- HITCH_STATUS (R104). -/
def execHitchStatus (c : Acs) (s : State) : Out :=
  .next (acsLen 0x0300 inLineStates 0 c (fun s =>
    let h := s.hitch
    done c 0x0300 stOk (wordBytes h.gen ++ wordBytes h.fp ++ le 4 s.hitchInfo ++ le 4 h.roundUs ++ le 8 h.switchTick
      ++ [byte h.proc.code, byte h.refuse] ++ zeros 6) s) s)

/-- One entry of HITCH_TOPOLOGY (R105). -/
def topologyEntry (pos : Nat) (x : CNode) : List Byte :=
  nidBytes x.nid ++ [byte pos, byte (b01 x.orient + flag x.absent 1 + flag x.reversed 2 + x.form % 4 * 8), byte x.consist, byte x.vehicle]
    ++ wordBytes x.consistId ++ [byte x.firstVeh, byte x.vehCount] ++ zeros 6

/-- HITCH_TOPOLOGY (R105). -/
def execHitchTopology (c : Acs) (s : State) : Out :=
  .next (acsLen 0x0301 inLineStates 0 c (fun s =>
    let h := s.hitch
    done c 0x0301 stOk (wordBytes h.gen ++ wordBytes h.fp ++ [byte h.nodes, byte h.consists, byte h.vehicles, 0]
      ++ (h.chain.mapIdx (fun i x => topologyEntry (i + 1) x)).flatten) s) s)

/-- STATE of a HITCH_LINKS entry (R106). -/
def State.linkState (s : State) (p : Nat) : Nat :=
  let h := s.hport p
  if !s.portOn p then 0 else if h.fault then 5 else if !(s.mac p).link then 1 else if !h.live then 2 else if h.ttdpNb then 6
  else if h.admitted then 4 else 3

/-- One entry of HITCH_LINKS (R106). -/
def State.hitchLinkEntry (s : State) (p : Nat) : List Byte :=
  let h := s.hport p
  if s.linkState p = 0 then zeros 32
  else [byte (s.linkState p), 0, 0, 0] ++ nidBytes (h.neighbour.getD 0) ++ le 4 h.rtt ++ le 4 h.missed ++ le 4 h.invalid ++ le 4 h.losses ++ zeros 4

/-- HITCH_LINKS (R106). -/
def execHitchLinks (c : Acs) (s : State) : Out :=
  .next (acsLen 0x0302 inLineStates 0 c (fun s =>
    done c 0x0302 stOk (([0, 1, 2, 3].map s.hitchLinkEntry).flatten) s) s)

/-- The host inhibit source (R90, R103). -/
def effHitchInhibit (a : List Byte) (r : Option AcsRef) (s : State) : State :=
  let s1 := hitchAfter (evalInhibit { s with hitch := { s.hitch with hostInh := bit (fLe a 0 1) 0 } })
  finish r stOk (le 4 (b01 s1.hitch.inhibited + flag s1.hitch.asserting 1)) s1

/-- HITCH_INHIBIT (R103). -/
def execHitchInhibit (c : Acs) (s : State) : Out :=
  .next (acsLen 0x0303 inLineStates 4 c
    (badArgIf (decide (1 < c.arg 0 4)) 0x0303 c (nodeWide 0x0303 c (effHitchInhibit c.args))) s)

/-- A round on request (R107). -/
def effHitchRequest (_a : List Byte) (r : Option AcsRef) (s : State) : State :=
  if s.hitch.inhibited || s.hitch.proc = .ttdp || !s.hitchOn then finish r stWrongState [] s
  else
    let s1 := match r with
      | some x => { s with hitch := { s.hitch with waits := s.hitch.waits ++ [{ ref := x, gen := none }] } }
      | none => s
    hitchAfter (startRound 5 0xFF 0 s1)

/-- HITCH_REQUEST (R107). -/
def execHitchRequest (c : Acs) (s : State) : Out :=
  .next (acsLen 0x0304 inLineStates 0 c (nodeWide 0x0304 c (effHitchRequest c.args)) s)

/-- HITCH_REQUEST_TIMEOUT: 100 ms without a switch (R107). -/
def execHitchRequestTimeout (mbx idx : Nat) (s : State) : Out :=
  .next (finishHitchWaits (fun w => w.gen.isNone && w.ref.mbx = mbx && w.ref.idx = idx) stTimeout [] s)

/-- HITCH_WAIT (R108). -/
def execHitchWait (c : Acs) (s : State) : Out :=
  .next (acsLen 0x0305 inLineStates 8 c
    (badArgIf (c.arg 4 4 = 0 || decide (60000 < c.arg 4 4)) 0x0305 c (fun s =>
      if c.arg 0 4 ≠ s.hitch.gen.toNat then done c 0x0305 stOk (wordBytes s.hitch.gen) s
      else { s with hitch := { s.hitch with waits := s.hitch.waits ++ [{ ref := c.ref 0x0305, gen := some (BitVec.ofNat 32 (c.arg 0 4)) }] } })) s)

/-- HITCH_WAIT_TIMEOUT: the generation did not change in time (R108). -/
def execHitchWaitTimeout (mbx idx : Nat) (s : State) : Out :=
  .next (finishHitchWaits (fun w => w.gen.isSome && w.ref.mbx = mbx && w.ref.idx = idx) stTimeout [] s)

end Sys2Proof.Machine
end

