-- ==== Sys2Proof/Machine/RingOps.lean ====
section
/-! DEFINITION. Shared operations of the host rings (R241 to R268): control words, starting and stopping, completions, write-backs, the admission of a
TX frame. -/
namespace Sys2Proof.Machine

/-- A ring of either kind, by number. -/
def State.ring (s : State) (tx : Bool) (n : Nat) : Ring := if tx then s.txRing n else s.rxRing n

/-- Change a ring of either kind. -/
def setRing (tx : Bool) (n : Nat) (f : Ring → Ring) (s : State) : State := if tx then setTx n f s else setRx n f s

/-- A ring in a record: RX rings 0 to 7, TX rings as 8 to 15 (log entry 26). -/
def ringNo (tx : Bool) (n : Nat) : Nat := if tx then 8 + n else n

/-- The rings run in HELD and in the states in line (R267). -/
def State.ringsRun (s : State) : Bool := s.dmaOk && (s.node.state.inLine || s.node.state = .held)

/-- The fields of a RING_CTRL write but ENABLE (R247): a reserved encoding keeps the field (R14). -/
def Ring.control (tx : Bool) (v : Nat) (r : Ring) : Ring :=
  if tx then { r with late := bit v 29 }
  else { r with
    stream := bit v 30, keepFcs := bit v 28, roEn := bit v 27
    bufUnits := if 1 ≤ bits v 23 16 ∧ bits v 23 16 ≤ 64 then bits v 23 16 else r.bufUnits
    holdUs := if 10 ≤ bits v 15 0 ∧ bits v 15 0 ≤ 10000 then bits v 15 0 else r.holdUs }

/-- NO_DMA of every enabled ring follows the endpoint (R241). -/
def settleDma (s : State) : State :=
  let set (r : Ring) : Ring := { r with noDma := r.enable && !s.dmaOk }
  { s with rx := s.rx.map set, tx := s.tx.map set }

/-- The stopped ring: indices at 0, STOPPED set (R245). -/
def Ring.halt (r : Ring) : Ring := { r with enable := false, stopped := true, head := 0, tail := 0, noDma := false }

/-- Stop an RX ring: waiting frames are dropped and counted (R245). -/
def stopRx (n : Nat) (s : State) : State :=
  let ws := (s.rxRing n).waiting
  let s1 := settleUids (countN (statPort 15 (8 + n)) ws.length (setRx n (fun r => { r.halt with waiting := [] }) s))
  ws.foldl (fun s w => unread 15 w.frer s) s1

/-- Stop a TX ring (R245): a frame that a fence holds is in progress, and the ring stops after it. -/
def stopTx (n : Nat) (s : State) : State :=
  setTx n (fun r => if r.fenced.isSome then { r with enable := false } else r.halt) s

/-- Clear ENABLE of a ring. -/
def stopRing (tx : Bool) (n : Nat) (s : State) : State := if tx then stopTx n s else stopRx n s

/-- Stop every ring (R595, R596). -/
def stopRings (s : State) : State :=
  (List.range 8).foldl (fun s n => stopRing true n (stopRing false n s)) s

/-- A frame of a ring completes (R250): the vector is raised with the COUNTth, or at once where DELAY_US is 0. -/
def ringDone (tx : Bool) (n : Nat) (s : State) : State :=
  let r := s.ring tx n
  let k := r.unsaid + 1
  if r.irqCount ≤ k || r.irqDelay = 0 then sendVector ((if tx then 16 else 8) + n) (setRing tx n (fun r => { r with unsaid := 0 }) s)
  else setRing tx n (fun r => { r with unsaid := k }) s

/-- The host address of a descriptor. -/
def Ring.descAt (r : Ring) (i : Nat) : Nat := r.base.toNat + 32 * (if r.size = 0 then 0 else i % r.size)

/-- The CTRL words of a TX frame's descriptors are written in ring order, and HEAD passes them (R257, R258, R261, R265). -/
def txWriteBack (n result : Nat) (ds : List (List Byte)) (s : State) : State :=
  let r := s.txRing n
  let word (k : Nat) (d : List Byte) : List Byte :=
    le 4 (bits (fLe d 28 4) 30 24 * 2 ^ 24 + 2 ^ 31 + (if k + 1 = ds.length then result * 2 ^ 16 else 0))
  let s1 := (ds.mapIdx (fun k d => (k, d))).foldl (fun s e => emit (.hostWrite (r.descAt (r.head + e.1) + 28) (word e.1 e.2)) s) s
  let s2 := setTx n (fun r => { r with head := if r.size = 0 then 0 else (r.head + ds.length) % r.size }) s1
  let s3 := if result = 0 then count (statPort 15 (16 + n)) s2 else s2
  ringDone true n s3

/-! ## TX frames (R260 to R266) -/

/-- The descriptors of the frame at the head of a list: up to its EOP, or up to the next SOP (R263); none where neither is there yet. -/
def frameDescs (ds : List (List Byte)) : Option (List (List Byte)) :=
  match ds with
  | [] => none
  | d :: rest =>
    if bit (fLe d 28 4) 29 then some [d]
    else
      let i := rest.findIdx (fun x => bit (fLe x 28 4) 30 || bit (fLe x 28 4) 29)
      match rest[i]? with
      | none => none
      | some x => some (d :: (if bit (fLe x 28 4) 30 then rest.take i else rest.take (i + 1)))

/-- Fields of the SOP descriptor (R260, R261). -/
def dCtrl (d : List Byte) : Nat := fLe d 28 4
def dDest (d : List Byte) : Nat := fLe d 24 1
def dDirect (d : List Byte) : Bool := bit (dCtrl d) 26
def dLaunch (d : List Byte) : Bool := bit (dCtrl d) 27
def dStamp (d : List Byte) : Bool := bit (dCtrl d) 28
def dPrio (d : List Byte) : Nat := if bit (fLe d 25 1) 7 then fLe d 25 1 % 8 else 0
def dLt (d : List Byte) : Nat := fLe d 12 6 * ttSec + fLe d 18 4 * ttNs

/-- A TX frame is malformed (R263). -/
def State.txBad (s : State) (ds : List (List Byte)) (data : List Byte) : Bool :=
  let d := ds.headD []
  let direct := dDirect d
  let last := ds.getLastD []
  !bit (dCtrl d) 30 || !bit (dCtrl last) 29
    || ds.any (fun x => fLe x 8 2 = 0 || decide (16384 < fLe x 8 2) || decide (bits (dCtrl x) 23 0 ≠ 0) || bit (dCtrl x) 31)
    || decide (64 < ds.length)
    || decide ((if direct then s.maxFrame (dDest d % 16) else 9216) < data.length + 4)
    || ((dStamp d || dLaunch d) && !direct)
    || (direct && (decide (14 < dDest d % 16) || !s.portOn (dDest d % 16)))
    || decide (16 ≤ dDest d) || decide (bits (fLe d 25 1) 6 3 ≠ 0) || decide (fLe d 26 2 ≠ 0)
    || (ds.drop 1).any (fun x => decide (fLe x 10 18 ≠ 0) || decide (bits (dCtrl x) 28 24 ≠ 0))

/-- The FAIL entry of a frame that asked for a stamp and is not sent (R139, R263). -/
def txFail (d : List Byte) (s : State) : State :=
  if dStamp d && dDest d % 16 < 15 then
    pushTxTs (dDest d % 16) { id := fLe d 10 2, tick := 0, frac := 0, fail := true, late := false, ovf := false } s
  else s

/-- A frame that the host sends through the switch (R262): port 15, stage 4 on. True where an egress admitted it. -/
def txSwitch (n : Nat) (d : List Byte) (f : Frame) (s : State) : Bool × State :=
  match s.classify 15 (some (dPrio d)) f with
  | none => (false, count (statPort 15 29) s)
  | some (vid, pcp, _) =>
    let x : Fwd := { frame := f, len := frameLen f, inPort := 15, line := .a, vid := vid, pcp := pcp, dei := (f.vlan.map VlanTag.dei).getD false
                     cls := s.classOf pcp, handle := (s.identify 15 vid f).handle, stamp := { tick := 0, frac := 0 }, origin := .ring n none }
    let q := police x .green s
    match q.1 with
    | none => (false, q.2)
    | some dei => forwardPlain { x with dei := dei } none none (learn 15 vid f q.2)

/-- The queue entry of a DIRECT frame, and its class (R262). -/
def State.txDirect (s : State) (n : Nat) (d : List Byte) (f : Frame) : QFrame × Nat :=
  let p := dDest d % 16
  let vid := match f.vlan with | some t => if t.vid = 0 then s.pvid 15 else t.vid | none => s.pvid 15
  let pcp := (f.vlan.map VlanTag.pcp).getD (dPrio d)
  let g := s.tagFor p vid pcp ((f.vlan.map VlanTag.dei).getD false) true f
  (s.mkQ g (.ring n (if dStamp d then some (fLe d 10 2) else none)), s.classOf pcp)

/-- What becomes of a well-formed TX frame: its RESULT (R261, R264, R267). -/
def txAdmit (n : Nat) (d data : List Byte) (s : State) : Nat × State :=
  let f := frameOf data
  let p := dDest d % 16
  let uid := s.sw.nextUid
  let track (s : State) : State := settleUids (setTx n (fun r => { r with pending := r.pending ++ [uid] }) s)
  if dDirect d then
    let qc := s.txDirect n d f
    if s.node.state = .held && p ≠ 14 then (6, txFail d s)
    else if dLaunch d then
      if BitVec.ofNat 16 (fLe d 22 2) ≠ s.time.epoch then (2, txFail d (count (statPort 15 47) s))
      else if s.trainNow + 2 * ttSec < dLt d then (3, txFail d (count (statPort 15 48) s))
      else
        let t := if dLt d ≤ s.trainNow then s.now else (s.toTicks (dLt d)).1
        (0, track (bumpUid (setTx n (fun r => { r with launch := r.launch ++ [(p * 8 + qc.2, { qc.1 with launch := some t })] }) s)))
    else if !s.portUp p then (1, txFail d (count (statPort p 42) s))
    else if s.admits p qc.2 qc.1.cells then (0, track (bumpUid (letIn p qc.2 qc.1 s)))
    else (1, txFail d (count (statPort p (33 + qc.2)) s))
  else
    let r := txSwitch n d f s
    if r.1 then (0, track (bumpUid r.2))
    else (if s.node.state = .held then 6 else 1, r.2)

/-- No fence waits for a ring's frame any longer (R584). -/
def fenceRing (n : Nat) (s : State) : State :=
  if s.host.fences.isEmpty then s
  else releaseFences { s with host := { s.host with fences := s.host.fences.map (fun f => { f with rings := f.rings.erase n }) } }

/-- The frame is admitted, launched or dropped, and written back (R264); a ring whose ENABLE was cleared meanwhile stops. -/
def txFinish (n : Nat) (ds : List (List Byte)) (data : List Byte) (s : State) : State :=
  let r := txAdmit n (ds.headD []) data s
  let s1 := txWriteBack n r.1 ds r.2
  fenceRing n (if (s1.txRing n).enable then s1 else setTx n Ring.halt s1)

/-- A write of RING_CTRL (R245, R247): on a running ring only clearing ENABLE acts; on one at rest every field does. -/
def ringCtrl (tx : Bool) (n v : Nat) (s : State) : State :=
  let r := s.ring tx n
  if r.enable then (if bit v 31 then s else stopRing tx n s)
  else
    let s1 := setRing tx n (fun r => if r.stopped then r.control tx v else r) s
    if bit v 31 then settleDma (setRing tx n (fun r => { r with enable := true, stopped := false }) s1) else s1

/-- A write of RING_TAIL: a value not below SIZE is reserved (R248). -/
def ringTail (tx : Bool) (n index : Nat) (s : State) : State :=
  if (s.ring tx n).size ≤ index then s else setRing tx n (fun r => { r with tail := index }) s

/-- A ring's PCIe error or rejected frame in the Studbook (R274): 1 fetch, 2 write-back, 3 data, 4 descriptor. -/
def ringError (tx : Bool) (n kind : Nat) (s : State) : State := logEvent 0x0524 sevError [byte (ringNo tx n), byte kind] s

/-! ## RX frames (R253 to R257) -/

/-- One descriptor of a delivered frame: buffer, length. -/
structure RxPiece where
  addr : Nat
  data : List Byte

/-- A frame's bytes spread over buffers. -/
def rxPieces (size : Nat) : List Nat → List Byte → List RxPiece
  | [], _ => []
  | a :: as, b => if b.isEmpty then [] else { addr := a, data := b.take size } :: rxPieces size as (b.drop size)

/-- The first 28 bytes of a write-back descriptor (R253). -/
def State.rxDesc (s : State) (r : Ring) (w : RxWait) (total k last len : Nat) : List Byte :=
  (if k = 0 && w.port < 15 then le 8 (w.stamp.tick % 2 ^ 60 * 16 + w.stamp.frac % 16) else zeros 8) ++ le 2 len
    ++ le 2 (if !r.stream || k = last then total else 0) ++ le 2 w.tci ++ [byte (w.port % 16 + w.cls % 8 * 16), 0]
    ++ le 2 (w.handle.getD 0 % 4096) ++ le 2 (w.seq.getD 0).toNat ++ le 4 s.hitch.gen.toNat ++ zeros 4

/-- The STATUS word of a write-back (R254). err: 1 FCS, 2 MACsec, 3 parity, 4 no descriptors left. -/
def rxStatus (w : RxWait) (k last err : Nat) : List Byte :=
  le 4 (2 ^ 31 + flag (k = 0) 30 + flag (k = last) 29 + flag (k = 0 && w.port < 15) 28 + flag w.seq.isSome 27 + flag w.tagged 26
    + flag w.handle.isSome 25 + (if k = last then flag (err = 4) 23 + flag (err = 1) 22 + flag (err = 3) 21 + flag (err = 2) 20 else 0))

/-- Data, descriptors and STATUS words go to the host in that order (R257); HEAD passes the descriptors (R258). -/
def rxWrite (n : Nat) (w : RxWait) (bufs : List Nat) (b : List Byte) (err : Nat) (s : State) : State :=
  let r := s.rxRing n
  let ps := (rxPieces r.bufSize bufs b).mapIdx (fun k p => (k, p))
  let last := ps.length - 1
  let s1 := ps.foldl (fun s e => emit (.hostWrite e.2.addr e.2.data) s) s
  let s2 := ps.foldl (fun s' e => emit (.hostWrite (r.descAt (r.head + e.1)) (s.rxDesc r w b.length e.1 last e.2.data.length)) s') s1
  let s3 := ps.foldl (fun s e => emit (.hostWrite (r.descAt (r.head + e.1) + 28) (rxStatus w e.1 last err)) s) s2
  setRx n (fun r => { r with head := if r.size = 0 then 0 else (r.head + ps.length) % r.size }) s3

end Sys2Proof.Machine
end

