-- ==== Sys2Proof/Machine/HostOps.lean ====
section
/-! DEFINITION. Shared operations of the host interface (14_host_interface.md): batches, their reservations and ends, interrupt vectors, the host
watchdog, the loss of a host. -/
namespace Sys2Proof.Machine

/-! ## Batches (R570 to R576) -/

/-- The largest response payload of a command, by opcode (R574); none for an opcode that names no command. -/
def rspMax (op : Nat) : Option Nat :=
  match op with
  | 0x0100 => some 80 | 0x0101 => some 48 | 0x0102 => some 16 | 0x0103 => some 0 | 0x0104 => some 0
  | 0x0200 => some 4 | 0x0201 => some 48 | 0x0202 => some 48 | 0x0203 => some 4064 | 0x0204 => some 96
  | 0x0300 => some 32 | 0x0301 => some 1524 | 0x0302 => some 128 | 0x0303 => some 4 | 0x0304 => some 4 | 0x0305 => some 4
  | 0x0400 => some 112 | 0x0401 => some 4 | 0x0402 => some 0 | 0x0403 => some 32 | 0x0404 => some 128 | 0x0405 => some 0
  | 0x0500 => some 4008 | 0x0501 => some 0 | 0x0502 => some 4 | 0x0503 => some 0 | 0x0504 => some 12 | 0x0505 => some 96
  | 0x0506 => some 0 | 0x0507 => some 0 | 0x0508 => some 40 | 0x0509 => some 32 | 0x050A => some 0
  | 0x0510 => some 32 | 0x0511 => some 0 | 0x0512 => some 0 | 0x0513 => some 448
  | 0x0600 => some 56 | 0x0601 => some 64 | 0x0602 => some 0 | 0x0603 => some 1432 | 0x0604 => some 0 | 0x0605 => some 0
  | 0x0700 => some 3076 | 0x0701 => some 16 | 0x0702 => some 8 | 0x0703 => some 8 | 0x0704 => some 4080 | 0x0705 => some 4
  | 0x0800 => some 8 | 0x0801 => some 8 | 0x0802 => some 4008 | 0x0803 => some 4
  | 0x0900 => some 48 | 0x0901 => some 3848 | 0x0902 => some 4
  | 0x0A00 => some 32 | 0x0A01 => some 48 | 0x0A02 => some 8 | 0x0A03 => some 0 | 0x0A04 => some 0
  | 0x0B00 => some 0 | 0x0B01 => some 32
  | 0x0C00 => some 16 | 0x0C01 => some 144 | 0x0C02 => some 0 | 0x0C03 => some 252 | 0x0C04 => some 0 | 0x0C05 => some 260
  | 0x0D00 => some 16 | 0x0D01 => some 48 | 0x0D02 => some 1040 | 0x0D03 => some 4080
  | 0x0E00 => some 4000 | 0x0E01 => some 12 | 0x0E02 => some 88 | 0x0E03 => some 0 | 0x0E04 => some 4
  | 0x0F00 => some 32 | 0x0F01 => some 32 | 0x0F02 => some 0 | 0x0F03 => some 0 | 0x0F04 => some 0 | 0x0F05 => some 4
  | 0x0F06 => some 0 | 0x0F07 => some 0 | 0x0F08 => some 4 | 0x0F09 => some 0
  | _ => none

/-- A number rounded up to a multiple of 8. -/
def up8 (n : Nat) : Nat := (n + 7) / 8 * 8

/-- The commands of a batch as its request buffer holds them, none where it is malformed (R570). -/
def parseBatch (b : List Byte) : Nat → Nat → Option (List Slot)
  | 0, _ => some []
  | n + 1, off =>
    let len := fLe b (off + 6) 2
    if 4096 < off + 16 + len then none
    else
      (parseBatch b n (off + 16 + up8 len)).map (fun rest =>
        { opcode := fLe b off 2, flags := BitVec.ofNat 16 (fLe b (off + 2) 2), tag := BitVec.ofNat 16 (fLe b (off + 4) 2)
          gen := BitVec.ofNat 32 (fLe b (off + 8) 4), rsvd := BitVec.ofNat 32 (fLe b (off + 12) 4), args := slice b (off + 16) len
          fits := true, phase := .waiting } :: rest)

/-- Response space is reserved command by command (R574): one that does not fit takes nothing. -/
def reserve : Nat → List Slot → List Slot
  | _, [] => []
  | left, x :: xs =>
    let n := up8 ((rspMax x.opcode).getD 0)
    if n ≤ left then { x with fits := true } :: reserve (left - n) xs else { x with fits := false } :: reserve left xs

/-- A mailbox sets OVERRUN (1) or BAD_BATCH (2) (R571, R591, R597, R598). -/
def mbxError (m kind : Nat) (s : State) : State :=
  let h := s.host.setBox m (fun b => if kind = 1 then { b with overrun := true } else { b with badBatch := true })
  raise .sys 3 (logEvent 0x0104 sevInfo [byte m, byte kind] (count (statHost (if kind = 1 then 3 else 2)) { s with host := h }))

/-- The command of a slot. -/
def Slot.ref (x : Slot) (m i : Nat) : AcsRef := { mbx := m, idx := i, opcode := x.opcode, tag := x.tag, notify := x.flags.getLsbD 2 }

/-- The command of a slot as the chip starts it. -/
def Slot.acs (x : Slot) (m i : Nat) : Acs :=
  { mbx := m, idx := i, flags := x.flags, tag := x.tag, gen := x.gen, rsvd := x.rsvd, args := x.args }

/-- Waiting commands of a mailbox whose opcode names no command complete with BAD_OPCODE once they may start (R579). -/
def endUnknown (m : Nat) (s : State) : State :=
  ((s.host.box m).slots.mapIdx (fun i x => (i, x))).foldl (fun (s : State) (e : Nat × Slot) =>
    if s.alive && (rspMax e.2.opcode).isNone && (s.waitingSlot (e.2.acs m e.1) e.2.opcode).isSome && s.mayStart (e.2.acs m e.1) e.2.opcode then
      acsDone (e.2.ref m e.1) stBadOpcode [] s
    else s) s

/-- Every command of a mailbox's batch has completed. -/
def Mailbox.ended (b : Mailbox) : Bool := b.busy && b.slots.all (fun x => x.phase = .done)

/-- The batch completes (R575, R576, R596). -/
def endBatch (m : Nat) (s : State) : State :=
  let b := s.host.box m
  mbxVector b.doneEn { s with host := s.host.setBox m (fun b => { b with
    busy := false, done := true, doneSeq := b.accSeq, aborted := b.aborted || b.aborting
    completed := if b.discard then b.slots.length else b.completed
    rspLen := if b.discard then 0 else b.rspLen }) }

/-- A doorbell write with ABORT 0 (R572): count commands under the host's number seq. -/
def submit (m count_ : Nat) (seq : Half) (agent : Nat) (s : State) : State :=
  let b := s.host.box m
  if count_ = 0 ∨ 32 < count_ then mbxError m 2 s
  else if b.busy then mbxError m 1 s
  else
    let slots := parseBatch (Mem.readList s.mem (m * 0x2000) 4096) count_ 0
    let h := { s.host with accepted := s.host.accepted + 1 }
    let s1 := count (statHost 0) { s with
      pwr := { s.pwr with idleFrom := s.now }
      host := h.setBox m (fun b => { b with
        busy := true, done := false, notify := false, completed := 0, rspLen := 0, accSeq := seq, order := h.accepted, agent := agent
        aborting := false, discard := false, slots := reserve (4096 - 16 * count_) (slots.getD []) }) }
    match slots with
    | none => endBatch m (mbxError m 2 s1)
    | some _ => endUnknown m s1

/-- A command completes with TIMEOUT because its batch is aborted. -/
def abortOne (r : AcsRef) (s : State) : State := acsDone r stTimeout [] (count (statHost 4) s)

/-- The batch of a mailbox is aborted (R576); discard: its responses are not written (R596). -/
def abortBox (discard : Bool) (m : Nat) (s : State) : State :=
  let b := s.host.box m
  if !b.busy then s else
  let s1 := { s with host := s.host.setBox m (fun b => { b with aborting := true, discard := b.discard || discard }) }
  let s2 := (b.slots.mapIdx (fun i x => (i, x))).foldl (fun (s : State) (e : Nat × Slot) =>
    if e.2.phase = .waiting then abortOne (e.2.ref m e.1) s else s) s1
  let ws := s2.hitch.waits.filter (fun w => w.ref.mbx = m && w.gen.isSome)
  let s3 := ws.foldl (fun s w => abortOne w.ref s)
    { s2 with hitch := { s2.hitch with waits := s2.hitch.waits.filter (fun w => !(w.ref.mbx = m && w.gen.isSome)) } }
  let held (o : OpenRead) : Bool := match o.wait with | some r => r.mbx = m | none => false
  (s3.br.reads.filter held).foldl (fun s o => match o.wait with | some r => abortOne r s | none => s)
    { s3 with br := { s3.br with reads := s3.br.reads.map (fun o => if held o then { o with wait := none } else o) } }

/-- Every busy mailbox is aborted. -/
def abortAll (discard : Bool) (s : State) : State := (List.range 16).foldl (fun s m => abortBox discard m s) s

/-- A host write into a request buffer (R565, R573): bytes of the response buffer are discarded, and all of them while BUSY. -/
def requestWrite (m off : Nat) (data : List Byte) (s : State) : State :=
  let d := data.take (4096 - off)
  if 16 ≤ m || d.isEmpty then s
  else if (s.host.box m).busy then mbxError m 1 s
  else { s with mem := Mem.writeList s.mem (m * 0x2000 + off) d }

/-! ## Interrupt causes and vectors (R588 to R591) -/

/-- Every cause register. -/
def allBlks : List CauseBlk :=
  [.sys, .hitch, .time, .harness, .port, .stream, .control, .wrangler, .redund, .can 0, .can 1, .can 2, .can 3, .can 4, .can 5, .can 6, .can 7
   , .legacy, .bridge, .log]

/-- The bits a cause register defines. -/
def causeBits : CauseBlk → Word
  | .sys => 0xF | .hitch => 0x3FF | .time => 0x7FF | .harness => 0xFF | .port => 0x3F | .stream => 0x7F | .control => 0x3FF
  | .wrangler => 0xFF | .redund => 0x3FF | .can _ => 0x7FF | .legacy => 0x3F | .bridge => 0x7F | .log => 0xFF

/-- A vector has an unmasked cause bit in a word of causes of a block. -/
def vectorIn (b : CauseBlk) (w : Word) (v : Nat) : Bool := (List.range 11).any (fun i => w.getLsbD i && causeVector b i = v)

/-- A cause of a vector is set and unmasked; a ring's completion counts as still set (R588, R589). -/
def State.vectorSet (s : State) (v : Nat) : Bool :=
  if v = 0 then s.mbxDoneMap ≠ 0
  else if 8 ≤ v ∧ v < 24 then true
  else allBlks.any (fun b => vectorIn b ((s.cause b).cause &&& (s.cause b).mask) v)

/-- W1C of a cause register: the message of a vector whose bit it cleared goes again where another cause of it is still set (R589). -/
def clearCause (b : CauseBlk) (value : Word) (s : State) : State :=
  let r := s.cause b
  let gone := r.cause &&& value
  let s1 := { s with causes := Store.put {} s.causes b.key { r with cause := r.cause &&& ~~~ value } }
  ((List.range 25).filter (fun v => vectorIn b gone v && s1.vectorSet v)).foldl (fun s v => sendVector v s) s1

/-- A write of a cause mask. -/
def setMask (b : CauseBlk) (value : Word) (s : State) : State :=
  { s with causes := Store.put {} s.causes b.key { s.cause b with mask := value &&& causeBits b } }

/-- The cause block at an offset of the interrupt area (R590): cause registers at multiples of 8, masks 4 above. -/
def causeAt (off : Nat) : Option CauseBlk :=
  match off / 8 with
  | 0x21 => some .sys | 0x22 => some .hitch | 0x23 => some .time | 0x24 => some .harness | 0x25 => some .port | 0x26 => some .stream
  | 0x27 => some .control | 0x28 => some .wrangler | 0x29 => some .redund | 0x2B => some .legacy | 0x2C => some .bridge | 0x2D => some .log
  | _ => none

/-- W1C of MBX_STATUS (R571). -/
def clearMbx (m v : Nat) (s : State) : State :=
  let b := s.host.box m
  let gone := (bit v 30 && b.done && b.doneEn) || (bit v 29 && b.notify && b.notifyEn)
  let s1 := { s with host := s.host.setBox m (fun b => { b with
    done := b.done && !bit v 30, notify := b.notify && !bit v 29, overrun := b.overrun && !bit v 28, badBatch := b.badBatch && !bit v 27
    aborted := b.aborted && !bit v 26 }) }
  if gone && s1.vectorSet 0 then sendVector 0 s1 else s1

/-- A W1C write at an offset of Window C: the interrupt area, the CAN channel causes, MBX_STATUS (R571, R589, R590). -/
def causeWrite (off : Nat) (value : Word) (s : State) : State :=
  if 0x1000 ≤ off ∧ off < 0x2000 ∧ off % 0x100 = 4 then clearMbx ((off - 0x1000) / 0x100) value.toNat s
  else if 0xC800 ≤ off ∧ off < 0xD000 ∧ off % 0x100 = 0x10 then clearCause (.can ((off - 0xC800) / 0x100)) value s
  else if off % 8 = 0 then
    match causeAt off with
    | some b => clearCause b value s
    | none => s
  else s

/-- A vector's mask bit in Window X is cleared: a pending message is sent if a cause is still set (R589). -/
def unmask (v : Nat) (s : State) : State :=
  if 32 ≤ v then s else
  let s1 := { s with host := { s.host with vecMask := s.host.vecMask &&& ~~~ (bit32 v), vecPend := s.host.vecPend &&& ~~~ (bit32 v) } }
  if s.host.vecMask.getLsbD v && s.host.vecPend.getLsbD v && s1.vectorSet v then sendVector v s1 else s1

/-! ## The host watchdog and the loss of a host (R595, R596) -/

/-- A write of HOST_WATCH (R595): a TIMEOUT_MS outside its range keeps the field. -/
def hostWatch (v : Nat) (s : State) : State :=
  let ms := if 10 ≤ v % 65536 ∧ v % 65536 ≤ 60000 then v % 65536 else s.host.timeoutMs
  if bit v 31 then { s with host := { s.host with armed := true, expired := false, timeoutMs := ms, watchTick := s.now } }
  else { s with host := { s.host with armed := false, timeoutMs := ms } }

/-- HOST_LINK (R598): 1 up, 2 down, 3 hot reset, 4 FLR, 0 the release of the endpoint's reset input. -/
def hostLink (what : Nat) (s : State) : State := logEvent 0x0102 sevNotice [byte what, byte s.host.pcieSpeed, byte s.host.pcieWidth] s

/-- What every loss of the PCIe host does (R596): rings stop, mailboxes are aborted, masks and the MSI-X table reset. -/
def hostGone (s : State) : State :=
  let s1 := abortAll true (stopRings s)
  let boxes := s1.host.boxes.map (fun b => { b with notifyEn := false, doneEn := false })
  let causes := s1.causes.filterMap (fun e => if e.2.cause = 0 then none else some (e.1, { e.2 with mask := 0 }))
  { s1 with causes := causes, host := { s1.host with boxes := boxes, vecMask := 0xFFFFFFFF, vecPend := 0, vecTable := [] } }

end Sys2Proof.Machine
end

