-- ==== Sys2Proof/Machine/Switch.lean ====
section
/-! DEFINITION. The Harness switch's events and commands (04_harness_switch.md, R631 to R633): frames received and sent, parity errors, gates,
launches, table reloads, PORT commands 0x0500 to 0x050A. -/
namespace Sys2Proof.Machine

/-! ## Frames received: MAC, wake patterns, link-local frames (R166 to R169, R223 to R240) -/

/-- Counters 1 to 4 or 15 to 18 of a good frame: octets, unicast, multicast, broadcast (R269). base 0 receive, 14 transmit. -/
def countFrame (p base len : Nat) (da : Mac) (s : State) : State :=
  let kind := if da = BitVec.allOnes 48 then 4 else if isGroup da then 3 else 2
  count (statPort p (base + kind)) (countN (statPort p (base + 1)) len (count (statPort p base) s))

/-- Bytes that a mask selects, in rising order (R237). -/
def selected (mask : BitVec 128) (b : List Byte) : List Byte :=
  ((b.mapIdx (fun i x => (i, x))).filter (fun e => mask.getLsbD e.1)).map Prod.snd

/-- The number of bytes up to the highest selected one. -/
def maskReach (mask : BitVec 128) : Nat := maxOf ((List.range 128).map (fun i => if mask.getLsbD i then i + 1 else 0))

/-- A pattern matches a frame's bytes as received (R239). -/
def WakePat.hits (w : WakePat) (b : List Byte) : Bool :=
  w.enable && decide (w.minLen ≤ b.length) && decide (maskReach w.mask ≤ b.length) && crc16 (selected w.mask b) = w.check

/-- The bytes of a frame as the MAC receives it, padding and FCS included. -/
def rxBytes (r : RxFrame) : List Byte :=
  match r.raw with
  | some b => b
  | none =>
    let b := frameBytes r.frame
    let c := b ++ zeros (r.len - 4 - b.length)
    c ++ le 4 (crc32 c).toNat

/-- The wake filters of a port (R239, R240): matches are counted; in STABLED a match on a wake port wakes the node, elsewhere it is raised. -/
def wakeFilter (p : Nat) (r : RxFrame) (s : State) : State :=
  let b := rxBytes r
  let hits := ((s.mac p).wake.mapIdx (fun i w => (i, w.hits b))).filter (fun e => e.2)
  match hits with
  | [] => s
  | h :: _ =>
    let s1 := count (statPort p 52) (setMac p (fun m => { m with
      wakeHits := m.wakeHits.mapIdx (fun i n => if hits.any (fun e => e.1 = i) then min 0xFFFFFFFF (n + 1) else n) }) s)
    if s.node.state = .stabled then wakeEvent (logEvent 0x0523 sevNotice [byte p, byte h.1] s1)
    else
      let s2 := raise .port 5 s1
      if s.pwr.entering && bit s.wakePorts p then wakeEvent s2 else s2

/-- The link is held: admitted to no traffic but TC7 (R67). -/
def State.heldLink (s : State) (p : Nat) : Bool := decide (p < 4) && !(s.hport p).admitted

/-- The class of a frame as it arrives: its tag's priority, or the port's default (R173). -/
def State.arrivalClass (s : State) (p : Nat) (f : Frame) : Nat := s.classOf ((f.vlan.map VlanTag.pcp).getD (s.defaultPcp p))

/-- A link-local frame goes to its unit, whose own event follows; any other Ethertype to the internal port (R169). -/
def linkLocalFrame (p : Nat) (r : RxFrame) (s : State) : State :=
  let f := r.frame
  if f.etype = s.hitchEtype || f.etype = 0x88F7 || (f.etype = 0x888E && p < 4) || f.etype = 0x8808 || Config.ttdpEtype f.etype then s
  else
    let pcp := (f.vlan.map VlanTag.pcp).getD (s.defaultPcp p)
    let vid := match f.vlan with | some t => if t.vid = 0 then s.pvid p else t.vid | none => s.pvid p
    let dei := (f.vlan.map VlanTag.dei).getD false
    let w : RxWait := { frame := f, tagged := (s.tagFor 15 vid pcp dei true f).vlan.isSome, len := r.len, port := p, cls := s.classOf pcp
                        handle := none, seq := f.rtag, stamp := r.stamp, tci := pcp * 8192 + (if dei then 4096 else 0) + vid
                        cells := (r.len + 255) / 256, uid := s.sw.nextUid, since := s.now, frer := none }
    (toInternal w (bumpUid s)).2

/-! ## Table errors (R632, R633) -/

/-- A table entry meets a parity error: a learned address, or one the tack image does not hold, is removed; another entry is reloaded. -/
def tableError (port table index : Nat) (s : State) : State :=
  let e := s.sw.fdb.find? (fun e => s.fdbIndex e = index)
  let gone := table = 1 && (match e with
    | some x => !x.static || !((records (s.sectionOf 0x09 0) 16).any (fun b => decide ((fdbOf b 0).mac = x.mac) && (fdbOf b 0).vid = x.vid)
        || decide (x.mac = bridgeMac s.node.nid))
    | none => true)
  let s1 := logEvent 0x1008 sevError ([byte table, byte port] ++ le 4 index ++ [byte (if gone then 2 else 1)]) s
  if gone then { s1 with sw := { s1.sw with fdb := s1.sw.fdb.filter (fun x => s1.fdbIndex x ≠ index) } }
  else if s1.reloading table index then s1
  else { s1 with sw := { s1.sw with reloads := s1.sw.reloads ++ [(table, port, index)] } }

/-- The entry as the tack image gives it (R632). -/
def reloadEntry (table port index : Nat) (s : State) : State :=
  match table with
  | 1 =>
    let put (x : FdbEntry) : FdbEntry :=
      if s.fdbIndex x ≠ index then x
      else match (records (s.sectionOf 0x09 0) 16).find? (fun b => decide ((fdbOf b 0).mac = x.mac) && (fdbOf b 0).vid = x.vid) with
        | some b => { fdbOf b s.now with static := true }
        | none => x
    { s with sw := { s.sw with fdb := s.sw.fdb.map put } }
  | 2 =>
    { s with sw := { s.sw with vlan := match (records (s.sectionOf 0x08 0) 8).find? (fun b => (vlanOf b).1 = index) with
        | some b => Store.ins s.sw.vlan index (vlanOf b).2
        | none => Store.del s.sw.vlan index } }
  | 3 =>
    setGate port (fun g => { g with oper := ((gateLists 64 (s.sectionOf 0x0A 0)).find? (fun e => e.1 = port)).map (fun e =>
      { e.2 with changed := (g.oper.map GateList.changed).getD 0 }) }) s
  | 5 =>
    let r := (records (s.sectionOf 0x0C 0) 28).find? (fun b => fLe b 0 1 = 0 && fLe b 2 2 = index)
    { s with sw := { s.sw with filters := match r with
        | some b => Store.ins s.sw.filters index (filterOf (b.drop 4)) | none => Store.del s.sw.filters index } }
  | 6 =>
    let r := (records (s.sectionOf 0x0C 0) 28).find? (fun b => fLe b 0 1 = 1 && fLe b 2 2 = index)
    { s with sw := { s.sw with meters := match r with
        | some b => Store.ins s.sw.meters index (meterOf (b.drop 4)) | none => Store.del s.sw.meters index } }
  | _ => s

/-- TABLE_RELOAD_DONE: the entry holds what the tack image gives it (R632, R633). -/
def execTableReloadDone (table port index : Nat) (s : State) : Out :=
  .next (if !s.alive || !s.sw.reloads.contains (table, port, index) then s else
    let s1 := reloadEntry table port index s
    { s1 with sw := { s1.sw with reloads := s1.sw.reloads.erase (table, port, index) } })

/-! ## Stages 3 to 9 (R168) -/

/-- A received frame as its classification makes it. -/
def State.fwdOf (s : State) (p : Nat) (r : RxFrame) (vid pcp : Nat) : Fwd :=
  { frame := r.frame, len := r.len, inPort := p, line := lineOfPort p, vid := vid, pcp := pcp
    dei := (r.frame.vlan.map VlanTag.dei).getD false, cls := s.classOf pcp, handle := (s.identify p vid r.frame).handle, stamp := r.stamp }

/-- Where a classified, policed frame goes (R182, R199, R200). -/
def forward (x : Fwd) (id : StreamId) (err : Option Nat) (s : State) : State :=
  if x.inPort < 4 && id.repl then forwardReplicated x err s
  else match (if 4 ≤ x.inPort then id.split else none) with
    | some c => forwardSplit x c s
    | none =>
      let bb := x.inPort < 4
      let il := if bb then some x.line else none
      let idir := if bb then some (dirOfPort x.inPort) else none
      let s1 := (forwardPlain x il idir s).2
      if (s.egressSet x.inPort x.vid il idir x.frame.da).1.contains (.port 15) then unitParity x err s1 else s1

/-- Stages 4 to 9 of a frame received whole and good. -/
def stages (p : Nat) (r : RxFrame) (s : State) : State :=
  match s.classify p none r.frame with
  | none => count (statPort p 29) s
  | some (vid, pcp, _) =>
    let x := s.fwdOf p r vid pcp
    let q := police x r.colour s
    match q.1 with
    | none => q.2
    | some dei => forward { x with dei := dei } (s.identify p vid r.frame) r.cellErr (learn p vid r.frame q.2)

/-- A frame that the switch may forward: link-local capture, held links, disabled ports, then stages 4 to 9 (R169, R67, R222). -/
def switchFrame (p : Nat) (r : RxFrame) (s : State) : State :=
  if linkLocal r.frame.da then linkLocalFrame p r s
  else if s.heldLink p && s.arrivalClass p r.frame ≠ 7 then count (statPort p 28) s
  else if s.sw.noFwd.getLsbD p then s
  else pauseCheck p (stages p r s)

/-- An egress port may send a frame of a class cut-through (R185, R231). -/
def State.cutOk (s : State) (inPort cls p : Nat) : Bool :=
  decide (p < 15) && bit (s.param 6 23 p 0xE0) cls && (s.express cls || !s.preempts inPort)
    && decide (rateMbps (s.mac p).rate ≤ rateMbps (s.mac inPort).rate)

/-- A frame ends stomped on the ports where its transmission has begun (R186). -/
def stompOn (x : Fwd) (ps : List Nat) (s : State) : State :=
  (ps.filter (s.cutOk x.inPort x.cls)).foldl (fun s p =>
    emit (.frame p (s.tagFor p x.vid x.pcp x.dei true x.frame) true) (count (statPort p 22) s)) s

/-- The ports among egresses. -/
def portsIn (es : List Egress) : List Nat := es.filterMap (fun e => match e with | .port p => some p | .peer _ _ => none)

/-- A frame forwarded cut-through proves faulty at its end (R186): its copies are stomped; its recovery context has seen it (R201). -/
def stompFrame (p : Nat) (r : RxFrame) (s : State) : State :=
  if !s.switches p || linkLocal r.frame.da || (s.heldLink p && s.arrivalClass p r.frame ≠ 7) || s.sw.noFwd.getLsbD p then s else
  match s.classify p none r.frame with
  | none => s
  | some (vid, pcp, _) =>
    let x := s.fwdOf p r vid pcp
    let q := police x r.colour s
    if q.1.isNone then q.2 else
    let id := s.identify p vid r.frame
    if p < 4 && id.repl then
      let t := s.replicatedSet p vid r.frame.da
      let s1 := stompOn x (portsIn t.1) q.2
      match x.handle, r.frame.rtag with
      | some n, some w =>
        if 2048 ≤ n || t.2.1.isEmpty then s1
        else
          let v := (s1.frer n).recover (s1.historyOf n) w
          let s2 := lostArmed n v.2.2 (setFrer n (fun _ => v.1) s1)
          if v.2.1 = .pass then frerClean n w.toNat (stompOn x t.2.1 (setFrer n (Frer.passedOn x.line) s2)) else s2
      | _, _ => stompOn x t.2.1 s1
    else
      let il := if p < 4 then some x.line else none
      stompOn x (portsIn (s.egressSet p vid il (if p < 4 then some (dirOfPort p) else none) r.frame.da).1) q.2

/-- A faulty frame whose DMA to an RX ring under STREAM has begun ends there with its error (R256): 1 FCS, 2 MACsec. -/
def streamBad (p kind : Nat) (r : RxFrame) (s : State) : State :=
  if !r.dma || !s.switches p then s else
  match s.classify p none r.frame with
  | none => s
  | some (vid, pcp, _) =>
    let x := s.fwdOf p r vid pcp
    match (if s.unitTakes x.handle r.frame then none else s.ringFor x.cls p) with
    | none => s
    | some n =>
      if !(s.rxRing n).stream || !s.dmaOk then s
      else
        let w : RxWait := { frame := r.frame, tagged := (s.tagFor 15 vid pcp x.dei true r.frame).vlan.isSome, len := r.len, port := p
                            cls := x.cls, handle := x.handle, seq := r.frame.rtag, stamp := r.stamp
                            tci := pcp * 8192 + (if x.dei then 4096 else 0) + vid, cells := x.cells, uid := s.sw.nextUid, since := s.now
                            frer := none, bad := kind }
        bumpUid (setRx n (fun y => { y with waiting := y.waiting ++ [w] }) s)

/-- What becomes of a faulty frame that is past its stage 1 checks: stomped where it has left already, ended with an error where a ring has it. -/
def faulty (p kind : Nat) (r : RxFrame) (s : State) : State :=
  let s1 := if r.cut then stompFrame p r s else s
  if kind = 0 then s1 else streamBad p kind r s1

/-- Stages 2 to 9 of a frame with good FCS and length. -/
def goodFrame (p : Nat) (r : RxFrame) (s : State) : State :=
  let v := secStage p r.frame r.macsec s
  if !v.1 then faulty p 2 r v.2
  else if s.switches p then switchFrame p r v.2 else v.2

/-- FRAME_RECEIVE: stages 1 to 9 of R168. -/
def execFrameReceive (port : Nat) (rx : RxFrame) (s : State) : Out :=
  .next (if !s.alive || 15 ≤ port || !s.portUp port then s else
    if rx.fifoLost then count (statPort port 53) s else
    let s1 := countN (statPort port 13) rx.frags s
    if rx.smdError then count (statPort port 12) s1
    else if rx.asmError then count (statPort port 11) s1
    else
      let s2 := if rx.frags = 0 then s1 else count (statPort port 10) s1
      let s3 := if rx.codeErr then count (statPort port 6) s2 else s2
      let s4 := if rx.fcsOk then s3 else count (statPort port 5) s3
      if rx.len < 64 then count (statPort port 7) s4
      else if !rx.fcsOk || rx.codeErr then faulty port 1 rx s4
      else
        let s5 := wakeFilter port rx (countFrame port 0 rx.len rx.frame.da s4)
        let s6 := match rx.tableErr with | some (t, i) => tableError port t i s5 | none => s5
        let hitch := decide (port < 4) && rx.frame.etype = s.hitchEtype && linkLocal rx.frame.da && decide (rx.len ≤ 2070)
        if s.maxFrame port < rx.len && !hitch then (if rx.cut then faulty port 0 rx s6 else count (statPort port 8) s6)
        else if s.node.state = .stabled then s6
        else goodFrame port rx s6)

/-! ## Frames sent (R138, R191, R202, R266) -/

/-- The Hitch unit's own frame has left: its stamp goes into the next frame, with the last frame received before it (R54). -/
def hitchSent (p : Nat) (q : QFrame) (stamp : Stamp) (s : State) : State :=
  setHPort p (fun h => { h with
    lastTx := stamp, latSeq := h.rxSeq.getD 0xFFFF, latTs := h.lastRx
    txHist := ((fBe q.frame.payload 4 2, stamp) :: h.txHist).take 16 }) s

/-- What the departure of a frame brings beyond its counters. -/
def departed (p : Nat) (q : QFrame) (stamp : Stamp) (s : State) : State :=
  match q.origin with
  | .hitch => if q.frame.etype = s.hitchEtype then hitchSent p q stamp s else s
  | .ring _ (some id) => pushTxTs p { id := id, tick := stamp.tick, frac := stamp.frac, fail := false, late := q.late, ovf := false } s
  | _ => s

/-- FRAME_TRANSMIT_DONE: the frame at the head of a class queue has left its port, in frags continuation fragments beyond the first. -/
def execFrameTransmitDone (port cls : Nat) (stamp : Stamp) (frags : Nat) (s : State) : Out :=
  .next (if !s.alive || 15 ≤ port || 8 ≤ cls || !s.portUp port then s else
    match s.queue port cls with
    | [] => s
    | q :: rest =>
      if s.closed port q.frame then s else
      let s1 := countN (statPort port 20) frags (countFrame port 14 q.len q.frame.da (emit (.frame port q.frame false) (setQueue port cls rest s)))
      let s2 := countPn port q.frame (departed port q stamp s1)
      let s3 := match q.frer with | some (n, seq) => frerRead n seq port s2 | none => s2
      let s4 := settleHeads port (settleUids s3)
      if q.inPort < 15 then pauseCheck q.inPort s4 else s4)

/-! ## Parity errors in cells (R202, R209, R210) -/

/-- A cell shows a parity error: at the third within 1 s it is retired (R210). -/
def cellError (cell : Nat) (s : State) : State :=
  let e := Store.get {} s.sw.cellErrs cell
  let put (x : CellErr) (s : State) : State := { s with sw := { s.sw with cellErrs := Store.put {} s.sw.cellErrs cell x } }
  if s.sw.retired.contains cell then s
  else if e.count = 0 then put { first := s.now, second := 0, count := 1 } s
  else if e.count = 1 then put { e with second := s.now, count := 2 } s
  else if e.first + ticksPerSec < s.now then put { first := e.second, second := s.now, count := 2 } s
  else
    let s1 := put {} { s with sw := { s.sw with retired := s.sw.retired ++ [cell] } }
    let n := s1.sw.retired.length
    let s2 := raise .harness 7 (logEvent 0x0509 (if 64 < n then sevCritical else sevError) (le 4 cell ++ le 4 n) s1)
    if 64 < n then
      let lost := s2.node.lost.getLsbD 6
      let s3 := setResource 6 true s2
      if lost then s3 else releaseClaim 7 .detached s3
    else s2

/-- A frame in which an egress finds a parity error, its own entry gone: recovered from its twin where it is replicated, else lost (R202, R209). -/
def parityLoss (port cell : Nat) (handle : Option Nat) (frer : Option (Nat × Nat)) (s : State) : State :=
  let s1 := count (statPort port 43) (raise .harness 0 s)
  match frer with
  | some (n, seq) => frerParity n seq port cell s1
  | none => logParity port cell handle true s1

/-- CELL_PARITY_ERROR: an egress read finds a parity error in the frame at the head of its queue: the frame is dropped in its first cell, stomped in a
later one. At port 15 the frame that an RX ring reads next is dropped, or under STREAM, once its DMA has begun, ends with the error. -/
def execCellParityError (port cls cell : Nat) (later : Bool) (s : State) : Out :=
  .next (if !s.alive || 16 ≤ port || 8 ≤ cls then s else
    if port = 15 then
      match s.rx.findIdx? (fun r => match r.waiting with | w :: _ => w.cls = cls | [] => false) with
      | none => s
      | some n => match (s.rxRing n).waiting with
        | [] => s
        | w :: rest =>
          let s1 := parityLoss 15 cell w.handle w.frer (setRx n (fun r => { r with waiting := rest }) s)
          let begun := later && (s.rxRing n).stream
          cellError cell (settleUids (if begun then
            setRx n (fun r => { r with waiting := { w with frer := none, bad := 3 } :: r.waiting }) s1 else s1))
    else match s.queue port cls with
      | [] => s
      | q :: rest =>
        let s1 := failTxTs port q.origin (settleUids (setQueue port cls rest s))
        let s2 := if later then emit (.frame port q.frame true) (count (statPort port 22) s1) else s1
        settleHeads port (cellError cell (parityLoss port cell q.handle q.frer s2)))

/-! ## Address ageing (R178) -/

/-- ADDRESS_AGE_OUT: a learned entry reaches AGE_TIME. -/
def execAddressAgeOut (mac : Mac) (vid : Nat) (s : State) : Out :=
  .next (if !s.alive || s.ageTime = 0 then s else unlearn (fun e => decide (e.mac = mac) && e.vid = vid) s)

/-! ## Gates (R192 to R197, R229) -/

/-- Enter an entry of the list in force: its states, and hold or release where preemption is active. -/
def enterGate (p i : Nat) (s : State) : State :=
  match (s.gate p).oper with
  | none => s
  | some g =>
    let e := g.entries.getD i 0
    let s1 := setGate p (fun x => { x with cur := i, states := gateMask e, rephase := false }) s
    if !s.preempts p then s1
    else if gateOp e = 1 then count (statPort p 21) (setMac p (fun m => { m with hold := true }) s1)
    else if gateOp e = 2 then setMac p (fun m => { m with hold := false }) s1
    else s1

/-- GATE_EVENT: the next entry of the list in force begins; after a step of train time, the first. err: its read meets a parity error, and until the
reload the states stay (R193, R196, R632). -/
def execGateEvent (port : Nat) (err : Bool) (s : State) : Out :=
  .next (if !s.alive || 15 ≤ port then s else
    match (s.gate port).oper with
    | none => s
    | some g =>
      let i := if (s.gate port).rephase then 0 else ((s.gate port).cur + 1) % max 1 g.spans.length
      if err then tableError port 3 i s
      else if s.sw.reloads.any (fun r => r.1 = 3 && r.2.1 = port) then s
      else settleHeads port (enterGate port i s))

/-- GATE_CONFIG_CHANGE: the pending list, or none, is in force from its config change time (R194). -/
def execGateConfigChange (port : Nat) (s : State) : Out :=
  .next (if !s.alive || 15 ≤ port then s else
    match (s.gate port).pend with
    | none => s
    | some (l, t) =>
      let s1 := setGate port (fun _ => { oper := l, pend := none, cur := 0, states := 0xFF }) s
      let s2 := if l.isNone then setMac port (fun m => { m with hold := false }) s1 else enterGate port 0 s1
      settleHeads port (logEvent 0x0502 sevNotice ([byte port] ++ ttBytes t) s2))

/-! ## Launches (R136, R137, R266) -/

/-- The place of the frame with the earliest launch tick. -/
def firstLaunch (ls : List (Nat × QFrame)) : Option (Nat × QFrame) :=
  ls.foldl (fun a x => match a with
    | some y => if x.2.launch.getD 0 < y.2.launch.getD 0 then some x else a
    | none => some x) none

/-- A TX ring's next launched frame joins the head of its class queue, lateNs after its launch instant; a late one is dropped or sent late. -/
def launchRing (n lateNs : Nat) (s : State) : State :=
  match firstLaunch (s.txRing n).launch with
  | none => s
  | some x =>
    let p := x.1 / 8
    let c := x.1 % 8
    let s1 := setTx n (fun r => { r with launch := r.launch.erase x }) s
    let late := decide (s.lateTolUs * 1000 < lateNs)
    let send := (s.txRing n).late
    let s2 := if late then logEvent 0x040D sevNotice (le 2 p ++ leInt 8 lateNs ++ [byte (if send then 2 else 1)]) s1 else s1
    if late && !send then dropQueued p x.2 (count (statPort p 49) s2)
    else
      let s3 := if late then count (statPort p 50) s2 else s2
      if s3.portUp p && s3.admits p c x.2.cells then settleHeads p (setQueue p c ({ x.2 with late := late } :: s3.queue p c) s3)
      else if s3.portUp p then dropQueued p x.2 (count (statPort p (33 + c)) s3)
      else dropQueued p x.2 (count (statPort p 42) s3)

/-- LAUNCH_TIME_REACHED: a launched frame of a stream context or of a TX ring starts, lateNs after its launch instant. -/
def execLaunchTimeReached (ctx : Bool) (source lateNs : Nat) (s : State) : Out :=
  .next (if !s.alive || !(s.node.state.inLine || s.node.state = .held) then s
    else if ctx then launchStream source lateNs s else launchRing source lateNs s)

/-! ## Address table commands (R217, R218) -/

/-- The 16-byte entry (R218). -/
def FdbEntry.bytes (e : FdbEntry) (now : Nat) : List Byte :=
  macBytes e.mac ++ le 2 e.vid ++ [byte e.dest, byte (b01 e.static + flag e.drop 1 + flag e.locked 2)] ++ le 2 e.mask.toNat
    ++ le 2 (if e.static then 0 else min 0xFFFF ((now - e.seen) / ticksPerSec)) ++ [0, 0]

/-- PORT_FDB_READ: the cursor counts entries in the table's order. -/
def execPortFdbRead (c : Acs) (s : State) : Out :=
  .next (acsLen 0x0500 inServing 8 c
    (badArgIf (c.nonZero 6 2 || c.arg 4 2 = 0 || decide (250 < c.arg 4 2)) 0x0500 c (fun s =>
      let rest := s.sw.fdb.drop (c.arg 0 4)
      let es := rest.take (c.arg 4 2)
      let next := if rest.length ≤ c.arg 4 2 then 0xFFFFFFFF else c.arg 0 4 + es.length
      done c 0x0500 stOk (le 4 next ++ le 4 es.length ++ (es.map (fun e => e.bytes s.now)).flatten) s)) s)

/-- The arguments of PORT_FDB_WRITE are in range. -/
def fdbArgsOk (c : Acs) : Bool :=
  decide (c.arg 0 1 ≤ 1) && !c.nonZero 1 3 && decide (c.arg 10 2 < 4096) && !c.nonZero 18 2 && decide (c.arg 13 1 < 8)
    && (decide (c.arg 12 1 ≤ 0x11) || c.arg 12 1 = 0x20) && (c.arg 12 1 = 0x20 || !c.nonZero 14 2)
    && !(c.arg 12 1 = 0x20 && !bit (c.arg 13 1) 0)

/-- PORT_FDB_WRITE: an entry replaces the address's own; in a full bucket a learned entry makes room, which one is left open (log entry 1). -/
def execPortFdbWrite (c : Acs) (s : State) : Out :=
  .next (acsLen 0x0501 inLineStates 20 c (badArgIf (!fdbArgsOk c) 0x0501 c (fun s =>
    let e := fdbOf (slice c.args 4 16) s.now
    let same (x : FdbEntry) : Bool := decide (x.mac = e.mac) && x.vid = e.vid
    let set (f : List FdbEntry) (s : State) : State := { s with sw := { s.sw with fdb := f } }
    if c.arg 0 1 = 1 then done c 0x0501 stOk [] (set (s.sw.fdb.filter (fun x => !(same x && x.static))) s)
    else
      let others := (s.bucketOf e.mac e.vid).filter (fun x => !same x)
      let learned := others.filter (fun x => !x.static)
      let base := s.sw.fdb.filter (fun x => !same x)
      if others.length < 4 then done c 0x0501 stOk [] (set (base ++ [e]) s)
      else match learned[s.freeNat % max 1 learned.length]? with
        | some v => done c 0x0501 stOk [] (useFree (set (base.erase v ++ [e]) s))
        | none => done c 0x0501 stNoResource [] s)) s)

/-- The ports that a destination stands for, as a mask. -/
def destMask (d : Nat) : Nat := if d = 16 then 0b0101 else if d = 17 then 0b1010 else 2 ^ d

/-- PORT_FDB_FLUSH. -/
def execPortFdbFlush (c : Acs) (s : State) : Out :=
  .next (acsLen 0x0502 inLineStates 4 c (badArgIf (decide (4096 ≤ c.arg 2 2) && c.arg 2 2 ≠ 0xFFFF) 0x0502 c (fun s =>
    let hit (e : FdbEntry) : Bool := !e.static && (c.arg 0 2 &&& destMask e.dest) ≠ 0 && (c.arg 2 2 = 0xFFFF || e.vid = c.arg 2 2)
    done c 0x0502 stOk (le 4 (s.sw.fdb.countP hit)) (unlearn hit s))) s)

/-- PORT_VLAN_SET. -/
def execPortVlanSet (c : Acs) (s : State) : Out :=
  .next (acsLen 0x0503 inLineStates 8 c (badArgIf (decide (4096 ≤ c.arg 0 2) || c.nonZero 6 2) 0x0503 c (fun s =>
    done c 0x0503 stOk [] { s with sw := { s.sw with vlan := Store.ins s.sw.vlan (c.arg 0 2) (vlanOf c.args).2 } })) s)

/-! ## Gate commands (R194, R197, R219) -/

/-- The header of PORT_GATE_SET is in range. -/
def gateHeaderOk (h : List Byte) : Bool :=
  let clear := bit (fLe h 1 1) 0
  let n := fLe h 2 2
  fLe h 0 1 < 15 && fLe h 1 1 < 2 && fLe h 26 6 = 0
    && (if clear then n = 0
        else 1 ≤ n && n ≤ 256 && 1000 ≤ fLe h 16 4 && fLe h 16 4 ≤ 1000000000 && fLe h 20 4 ≤ fLe h 16 4)

/-- PORT_GATE_SET: the list waits for its config change time, its first cycle start at least 1 ms from now. -/
def execPortGateSet (c : Acs) (s : State) : Out :=
  .next (acs 0x0504 inLineStates c (fun s =>
    if c.args.length < 32 || c.args.length ≠ 32 + 4 * c.arg 2 2 then done c 0x0504 stBadLength [] s
    else if !gateHeaderOk c.args then done c 0x0504 stBadArg [] s
    else
      let clear := bit (c.arg 1 1) 0
      let g := gateListOf (c.args.take 32) (c.args.drop 32) 0
      let bad := if clear then 0 else g.fault
      if bad ≠ 0 then
        done c 0x0504 stBadArg [] (raise .harness 2 (logEvent 0x0503 sevError [byte (c.arg 0 1), byte bad] s))
      else if g.epoch ≠ s.time.epoch then done c 0x0504 stDenied [] s
      else
        let t := g.cycleFrom (s.trainNow + 1000000 * ttNs)
        done c 0x0504 stOk (ttBytes t) (setGate (c.arg 0 1) (fun x =>
          { x with pend := some (if clear then none else some { g with changed := t }, t) }) s)) s)

/-- A 48-byte block of PORT_GATE_STATUS. -/
def gateBlock (p : Nat) (l : Option GateList) (t : Nat) : List Byte :=
  match l with
  | some g => [byte p, 0] ++ le 2 g.entries.length ++ ttBytes g.base ++ le 4 g.cycle ++ le 4 g.ext ++ le 2 g.epoch.toNat ++ zeros 6
      ++ ttBytes t ++ zeros 4
  | none => [byte p, 1] ++ zeros 30 ++ ttBytes t ++ zeros 4

/-- PORT_GATE_STATUS. -/
def execPortGateStatus (c : Acs) (s : State) : Out :=
  .next (acsLen 0x0505 inServing 4 c (badArgIf (decide (14 < c.arg 0 1) || c.nonZero 1 3) 0x0505 c (fun s =>
    let p := c.arg 0 1
    let g := s.gate p
    done c 0x0505 stOk (gateBlock p g.oper ((g.oper.map GateList.changed).getD 0)
      ++ (match g.pend with | some (l, t) => gateBlock p l t | none => [])) s)) s)

/-! ## Quotas, filters, status, forwarding (R188, R190, R198, R217 to R222) -/

/-- Quotas within R190: reserves of 8 MiB in all, QUOTA not below RESERVE, at most 4 MiB and at least a frame of the port's size. -/
def State.quotaOk (s : State) (p c : Nat) (q : Quota) : Bool :=
  let rest := sumOf (((List.range 128).filter (fun k => k ≠ p * 8 + c)).map (fun k => (s.quotaOf (k / 8) (k % 8)).reserve))
  decide (rest + q.reserve ≤ 32768) && decide (q.reserve ≤ q.quota) && decide (q.quota ≤ 16384) && decide ((s.maxFrame p + 255) / 256 ≤ q.quota)

/-- PORT_QUOTA_SET. -/
def execPortQuotaSet (c : Acs) (s : State) : Out :=
  .next (acsLen 0x0506 inLineStates 12 c (fun s =>
    let q : Quota := { reserve := c.arg 4 4, quota := c.arg 8 4 }
    if 15 < c.arg 0 1 || 7 < c.arg 1 1 || c.nonZero 2 2 || !s.quotaOk (c.arg 0 1) (c.arg 1 1) q then done c 0x0506 stBadArg [] s
    else done c 0x0506 stOk [] { s with sw := { s.sw with quotas := Store.ins s.sw.quotas (c.arg 0 1 * 8 + c.arg 1 1) q } }) s)

/-- The 24 value bytes of a filter are in range (R198). -/
def filterOk (v : List Byte) : Bool :=
  (fLe v 0 2 < 4096 || fLe v 0 2 = 0xFFFF) && (fLe v 2 1 < 8 || fLe v 2 1 = 0xFF) && (fLe v 8 2 < 512 || fLe v 8 2 = 0xFFFF) && fLe v 10 1 < 2
    && fLe v 3 1 = 0 && fLe v 11 13 = 0

/-- The 24 value bytes of a meter are in range: rates to 10 Gb/s in 64 kbit/s, sizes to 1 MiB (R198). -/
def meterOk (v : List Byte) : Bool :=
  fLe v 0 4 ≤ 156250 && fLe v 4 4 ≤ 156250 && fLe v 8 4 ≤ 1048576 && fLe v 12 4 ≤ 1048576 && fLe v 16 1 < 8 && fLe v 17 7 = 0

/-- PORT_PSFP_SET arguments are in range. -/
def psfpOk (a : List Byte) : Bool :=
  fLe a 1 1 = 0 && (match fLe a 0 1 with
    | 0 => fLe a 2 2 < 1024 && filterOk (a.drop 4)
    | 1 => fLe a 2 2 < 512 && meterOk (a.drop 4)
    | 2 => fLe a 2 2 < 1024
    | _ => false)

/-- PORT_PSFP_SET: set a filter or a meter, or clear a filter's block. -/
def execPortPsfpSet (c : Acs) (s : State) : Out :=
  .next (acsLen 0x0507 inLineStates 28 c (badArgIf (!psfpOk c.args) 0x0507 c (fun s =>
    let v := c.args.drop 4
    let i := c.arg 2 2
    let w := s.sw
    done c 0x0507 stOk [] { s with sw := match c.arg 0 1 with
      | 0 => { w with filters := Store.ins w.filters i (filterOf v) }
      | 1 => { w with meters := Store.ins w.meters i (meterOf v) }
      | _ => { w with filters := Store.upd w.filters i (fun f => { f with blocked := false }) } })) s)

/-- PORT_FRER_STATUS (R220). -/
def execPortFrerStatus (c : Acs) (s : State) : Out :=
  .next (acsLen 0x0508 inServing 4 c (badArgIf (decide (2047 < c.arg 0 2) || c.nonZero 2 2) 0x0508 c (fun s =>
    let n := c.arg 0 2
    let f := if (s.ctx? n).elim false (fun x => x.role = 2 && x.replicates) then s.frer n else {}
    done c 0x0508 stOk (le 2 f.rseq ++ [byte (b01 f.fresh + flag f.silentA 1 + flag f.silentB 2), byte (s.historyOf n)] ++ le 4 f.passed
      ++ le 4 f.discard ++ le 4 f.ooo ++ le 4 f.lost ++ le 4 f.rogue ++ le 4 f.tagless ++ le 4 f.resets ++ le 4 f.recov
      ++ le 2 f.fromA ++ le 2 f.fromB) s)) s)

/-- PORT_MACSEC_STATUS (R221). -/
def execPortMacsecStatus (c : Acs) (s : State) : Out :=
  .next (acsLen 0x0509 inServing 4 c (badArgIf (decide (3 < c.arg 0 1) || c.nonZero 1 3) 0x0509 c (fun s =>
    let p := c.arg 0 1
    let m := s.sec_ p
    done c 0x0509 stOk ([byte (s.macsecMode p), byte m.st, byte m.an, byte (b01 (s.xpn p) + flag (s.param 6 28 p 0 = 1) 1 + flag m.server 2)]
      ++ le 4 m.kn ++ le 8 m.txPn ++ le 8 m.peerSci.toNat ++ le 4 m.icvFail ++ le 4 m.replay) s)) s)

/-- PORT_FORWARD: forwarding on ports 4 to 14 (R222). -/
def execPortForward (c : Acs) (s : State) : Out :=
  .next (acsLen 0x050A inLineStates 4 c
    (badArgIf ((c.arg 0 2 &&& 0x800F) ≠ 0 || decide (1 < c.arg 2 1) || c.nonZero 3 1) 0x050A c (fun s =>
      let m := BitVec.ofNat 16 (c.arg 0 2)
      let on := c.arg 2 1 = 1
      done c 0x050A stOk [] (logEvent 0x0508 sevNotice (le 2 (c.arg 0 2) ++ [byte (if on then 1 else 2)])
        { s with sw := { s.sw with noFwd := if on then s.sw.noFwd &&& ~~~m else s.sw.noFwd ||| m } }))) s)

end Sys2Proof.Machine
end

