-- ==== Sys2Proof/Machine/Protect.lean ====
section
/-! DEFINITION. Signatures and keys (R605, R620, R621). -/
namespace Sys2Proof.Machine

/-- An owner key slot. -/
def Sec.key (s : Sec) (i : Nat) : Option OwnerKey :=
  match i with | 0 => s.key0 | 1 => s.key1 | 2 => s.key2 | 3 => s.key3 | _ => none

/-- Permissions of a key (R620). -/
def permTack : Nat := 0
def permMaint : Nat := 1
def permDebug : Nat := 2
def permKeys : Nat := 3

/-- A key holds a permission. -/
def OwnerKey.has (k : OwnerKey) (p : Nat) : Bool := bit k.perm p

/-- Some installed key holds a permission. -/
def Sec.anyKey (s : Sec) (p : Nat) : Bool := ([0, 1, 2, 3] : List Nat).any (fun i => match s.key i with | some k => k.has p | none => false)

/-- A tack image or task object must be signed (R621). -/
def Sec.mustSign (s : Sec) : Bool := s.secured || s.anyKey permTack

/-- KEY_SLOT of the signature block that ends a byte string (R605). -/
def keySlotOf (b : List Byte) : Nat := fLe b (b.length - 104) 1

/-- The signature block that ends a byte string is acceptable (R605, R608, R621): its key holds TACK and the signature verifies, or it is unsigned
where no signature is required. -/
def Sec.signedOk (s : Sec) (b : List Byte) : Bool :=
  if b.length < 104 then false
  else if keySlotOf b = 0xFF then !s.mustSign
  else match s.key (keySlotOf b) with
    | some k => k.has permTack && Config.ecdsaOk k.key (slice b (b.length - 96) 96) (Config.sha384 (b.take (b.length - 104)))
    | none => false

end Sys2Proof.Machine
end

