-- ==== Sys2Proof/Machine/TackParse.lean ====
section
/-! DEFINITION. The tack image as bytes (15_boot_tack_protection.md R605 to R608): header, section table, parameter entries, fingerprints,
and the ranges of every parameter. -/
namespace Sys2Proof.Machine

/-! ## Header and sections (R605) -/

/-- Header fields. -/
def imgMagic (b : List Byte) : Nat := fLe b 0 4
def imgFormat (b : List Byte) : Nat := fLe b 4 2
def imgCount (b : List Byte) : Nat := fLe b 6 2
def imgLength (b : List Byte) : Nat := fLe b 8 4
def imgSvn (b : List Byte) : Nat := fLe b 12 2

/-- The n-th section of an image. -/
def sectionAt (b : List Byte) (n : Nat) : Section :=
  let e := slice b (64 + 16 * n) 16
  { typ := fLe e 0 2, flags := fLe e 2 2, off := fLe e 4 4, len := fLe e 8 4, crc := BitVec.ofNat 32 (fLe e 12 4)
    content := slice b (fLe e 4 4) (fLe e 8 4) }

/-- The sections of an image, in table order. -/
def sectionsOf (b : List Byte) : List Section := (List.range (imgCount b)).map (sectionAt b)

/-- FLAGS of a section. -/
def Section.chip (x : Section) : Bool := bit x.flags 0
def Section.inst (x : Section) : Nat := x.flags / 256

/-- The section types that hold parameters (R608). -/
def paramTypes : List Nat := [1, 2, 3, 4, 5, 6, 7, 0x0D, 0x12, 0x15, 0x18, 0x1A]

/-! ## Parameter entries (R607) -/

/-- An entry of a parameter section: its section's place in the table and type, its offset, its fields, its value; whether the value lies whole within the
content; whether reserved bytes and padding are 0. -/
structure Ent where
  si    : Nat
  typ   : Nat
  off   : Nat
  id    : Nat
  index : Nat
  val   : List Byte
  whole : Bool
  clean : Bool
  deriving DecidableEq, Repr

/-- The entries of a content from an offset. -/
def entriesFrom (si typ : Nat) : Nat → Nat → List Byte → List Ent
  | 0, _, _ => []
  | fuel + 1, off, b =>
    if b.isEmpty then [] else
    let n := fLe b 4 2
    let size := 8 + (n + 7) / 8 * 8
    { si := si, typ := typ, off := off, id := fLe b 0 2, index := fLe b 2 2, val := slice b 8 n, whole := decide (size ≤ b.length)
      clean := fLe b 6 2 = 0 && fLe b (8 + n) (size - 8 - n) = 0 } :: entriesFrom si typ fuel (off + size) (b.drop size)

/-- The entries of a section. -/
def sectionEntries (si : Nat) (x : Section) : List Ent :=
  if paramTypes.contains x.typ then entriesFrom si x.typ (x.content.length / 8 + 1) 0 x.content else []

/-- Sections with their places in the table. -/
def numbered {α : Type} (xs : List α) : List (Nat × α) := (List.range xs.length).zip xs

/-- Every parameter entry of an image, in first-pass order (R677). -/
def entsOf (secs : List Section) : List Ent := ((numbered secs).map (fun e => sectionEntries e.1 e.2)).flatten

/-- The entry that gives a parameter for an index: its own, else the one for every index (R607). -/
def lookupEnt (es : List Ent) (typ id index : Nat) : Option Ent :=
  match es.find? (fun e => e.typ = typ && e.id = id && e.index = index) with
  | some e => some e
  | none => es.find? (fun e => e.typ = typ && e.id = id && e.index = 0xFFFF)

/-- A parameter's value with its default. -/
def valEnt (es : List Ent) (typ id index dflt : Nat) : Nat := ((lookupEnt es typ id index).map (fun e => leNat e.val)).getD dflt

/-! ## Fingerprints (R606) and the image as read -/

/-- TACK_FP: SHA-256 of the bytes before the signature block. -/
def tackFp (b : List Byte) : BitVec 256 := Config.sha256 (b.take (b.length - 104))

/-- NODE_FP: SHA-256 of type, length and content of every section without CHIP. -/
def nodeFp (secs : List Section) : BitVec 256 :=
  Config.sha256 (((secs.filter (fun x => !x.chip)).map (fun x => le 2 x.typ ++ le 4 x.len ++ x.content)).flatten)

/-- An image as read. -/
def tackOf (b : List Byte) : Tack :=
  let secs := sectionsOf b
  { length := imgLength b, svn := imgSvn b, imageId := BitVec.ofNat 64 (fLe b 16 8), sections := secs
    params := (entsOf secs).map (fun e => { sec := e.typ, id := e.id, index := e.index, val := e.val })
    fp := tackFp b, nodeFp := nodeFp secs, keySlot := keySlotOf b }

/-- The first 8 bytes of a fingerprint, and all of it, as a byte string. -/
def fpBytes (f : BitVec 256) : List Byte := be 32 f.toNat
def fpHead (f : BitVec 256) : List Byte := (fpBytes f).take 8

/-! ## Parameters: index ranges, sizes and value ranges (R607 to R609 and the parameter tables they name) -/

/-- A range of values. -/
inductive Rng where
  | nat (lo hi : Nat)
  /-- 0 for Off, or a number. -/
  | zeroOr (lo hi : Nat)
  | among (xs : List Nat)
  /-- A signed number of the value's size. -/
  | int (lo hi : Int)
  | any
  /-- An individual address, a group address. -/
  | single
  | group
  /-- A NID that R30 does not reserve. -/
  | nid
  /-- An Ethertype the chip does not parse itself (R58). -/
  | etype
  /-- A priority map of R50. -/
  | prio
  /-- At most two of the ports 0 to 14. -/
  | wake
  /-- A RATE_OVERRIDE: code, rate, burst, reserved. -/
  | rate
  /-- 1 to 16 device addresses of 2 bytes. -/
  | devs
  deriving DecidableEq, Repr

/-- Ethertypes that the chip parses or dispatches itself (R58). -/
def ownEtypes : List Nat := [0x0800, 0x0806, 0x86DD, 0x8100, 0x88A8, 0x8808, 0x888E, 0x88E5, 0x88F7, 0xF1C1]

/-- NIDs that R30 reserves. -/
def nidReserved (n : Nat) : Bool := n = 0 || n = 2 ^ 64 - 1

/-- A value lies in its range. -/
def Rng.ok : Rng → List Byte → Bool
  | .nat lo hi, v => decide (lo ≤ leNat v) && decide (leNat v ≤ hi)
  | .zeroOr lo hi, v => leNat v = 0 || (decide (lo ≤ leNat v) && decide (leNat v ≤ hi))
  | .among xs, v => xs.contains (leNat v)
  | .int lo hi, v => decide (lo ≤ signed (8 * v.length) (leNat v)) && decide (signed (8 * v.length) (leNat v) ≤ hi)
  | .any, _ => true
  | .single, v => !bit (fLe v 0 1) 0
  | .group, v => bit (fLe v 0 1) 0
  | .nid, v => !nidReserved (leNat v)
  | .etype, v => decide (0x0600 ≤ leNat v) && !ownEtypes.contains (leNat v) && !Config.ttdpEtype (leNat v)
  | .prio, v => (List.range 8).all (fun n => decide (fLe v n 1 < 8) && (n = 7 || fLe v n 1 ≠ 7))
  | .wake, v => decide (leNat v < 2 ^ 15) && decide (((List.range 15).filter (bit (leNat v))).length ≤ 2)
  | .rate, v => inPart (fLe v 2 2) 1000 && inPart (fLe v 4 2) 1024 && fLe v 6 2 = 0
  | .devs, v => (List.range (v.length / 2)).all (fun i => inPart (fLe v (2 * i) 2) 4095)
where
  /-- 1 to a limit. -/
  inPart (v hi : Nat) : Bool := decide (1 ≤ v) && decide (v ≤ hi)

/-- A parameter: the indices from lo below hi it takes besides 0xFFFF, none where it is node-wide; the least and greatest LEN; its range. -/
structure PDef where
  lo   : Nat := 0
  hi   : Nat := 0
  len  : Nat
  lenMax : Nat := 0
  rng  : Rng
  deriving DecidableEq, Repr

/-- A node-wide parameter. -/
def pNode (len : Nat) (rng : Rng) : Option PDef := some { len := len, rng := rng }
/-- A per-index parameter. -/
def pIdx (n len : Nat) (rng : Rng) : Option PDef := some { hi := n, len := len, rng := rng }
/-- On or Off, or one of n words. -/
def words (n : Nat) : Rng := .nat 0 (n - 1)

/-- NODE (R340, R609), CHIP, REDUND (R435). -/
def nodeParam : Nat → Option PDef
  | 1 => pNode 8 .nid
  | 2 => pNode 4 (.zeroOr 10 86400)
  | 3 => pNode 4 (.zeroOr 60 604800)
  | 4 => pNode 1 (words 2)
  | 5 => pNode 1 (.nat 0 23)
  | 6 => pNode 2 (.nat 1 0xFFFE)
  | 7 => pNode 2 (.nat 1 0xFFFE)
  | 8 => pIdx 24 1 (words 2)
  | 9 => pIdx 24 1 (words 2)
  | 10 => pNode 1 (words 3)
  | 11 => pNode 1 (.nat 0 250)
  | _ => none

def chipParam : Nat → Option PDef
  | 2 => pNode 1 (.nat 0 2)
  | 3 => pNode 1 (words 2)
  | _ => none

def redundParam : Nat → Option PDef
  | 1 => pNode 1 (words 3)
  | 4 => pNode 1 (.nat 1 16)
  | 5 => pNode 1 (.nat 1 16)
  | 6 => pNode 2 (.nat 1 600)
  | 7 => pNode 1 (words 2)
  | 8 => pNode 1 (words 2)
  | _ => none

/-- HITCH (R56, R57, R62). -/
def hitchParam : Nat → Option PDef
  | 1 => pNode 1 (.nat 2 6)
  | 2 => pNode 1 (.nat 1 10)
  | 3 => pNode 1 (.nat 0 40)
  | 4 => pNode 1 (.nat 0 100)
  | 5 => pNode 1 (words 2)
  | 6 => pNode 1 (.nat 0 23)
  | 7 => pNode 2 (.nat 0 2047)
  | 8 => pNode 2 .etype
  | 9 => pNode 1 (words 2)
  | 10 => pNode 4 (.nat 1 0xFFFFFFFF)
  | 11 => pNode 1 (.nat 1 255)
  | 12 => pNode 1 (.nat 1 255)
  | 13 => pNode 1 (words 2)
  | _ => none

/-- TIME (R127). -/
def timeParam : Nat → Option PDef
  | 1 => pNode 1 (.nat 0 127)
  | 2 => pNode 1 (.nat 0 127)
  | 3 => pNode 1 (words 2)
  | 4 => pNode 1 (.int (-7) 0)
  | 5 => pNode 1 (.nat 2 16)
  | 6 => pNode 4 (.nat 100 1000000)
  | 7 => pNode 1 (.nat 4 64)
  | 8 => pNode 1 (.nat 1 200)
  | 9 => pNode 1 (words 2)
  | 10 => pNode 2 (.nat 8 1024)
  | 11 => pIdx 2 1 (words 2)
  | 12 => pIdx 2 1 (words 3)
  | 13 => pIdx 2 1 .any
  | 14 => pIdx 2 1 .any
  | 15 => pNode 2 (.nat 5 1000)
  | 16 => pIdx 15 2 .any
  | 17 => pIdx 15 2 .any
  | 18 => pNode 1 (.nat 0 100)
  | 19 => pIdx 9 1 (words 2)
  | 20 => pNode 2 (.among [1, 10, 100, 1000])
  | 21 => pNode 4 (.nat 1 500000)
  | 22 => pNode 1 (words 2)
  | 23 => pNode 1 (words 3)
  | 24 => pNode 2 (.int (-1600) 1600)
  | _ => none

/-- PORT (R166, R167, R171 to R184, R188, R205 to R207, R212, R223, R224, R608). -/
def portParam : Nat → Option PDef
  | 1 => pIdx 15 1 (words 2)
  | 2 => pIdx 15 1 (words 2)
  | 3 => pIdx 15 1 (.nat 1 128)
  | 4 => pIdx 15 1 (.nat 1 8)
  | 5 => pIdx 15 1 (.nat 0 3)
  | 6 => pIdx 15 1 (words 2)
  | 7 => pIdx 15 1 (words 2)
  | 8 => pIdx 15 1 (words 2)
  | 9 => pIdx 15 2 (.nat 16 4096)
  | 10 => pIdx 15 2 (.nat 16 4096)
  | 11 => pIdx 15 2 (.nat 1 1000)
  | 12 => pIdx 15 2 (.nat 1 600)
  | 13 => pNode 2 .wake
  | 14 => pIdx 15 1 (words 2)
  | 15 => pIdx 15 1 (words 2)
  | 16 => pIdx 15 2 (.nat 1522 9216)
  | 17 => pIdx 15 2 (.nat 1 4094)
  | 18 => pIdx 15 1 (words 2)
  | 19 => pIdx 15 1 (.nat 0 7)
  | 20 => pIdx 15 1 (words 2)
  | 21 => pIdx 15 1 (words 2)
  | 22 => pIdx 16 2 .any
  | 23 => pIdx 16 1 .any
  | 24 => pIdx 128 2 (.nat 0 16384)
  | 25 => pIdx 128 2 (.nat 0 16384)
  | 26 => pIdx 4 1 (words 3)
  | 27 => pIdx 4 1 (words 2)
  | 28 => pIdx 4 1 (words 2)
  | 29 => pIdx 4 1 (.among [0, 30])
  | 30 => pIdx 4 2 (.nat 0 1024)
  | 31 => pIdx 4 1 .any
  | 32 => pIdx 4 1 (.nat 1 168)
  | 33 => pNode 2 (.zeroOr 10 3600)
  | 34 => pNode 1 (.nat 2 50)
  | 35 => pNode 8 .prio
  | 36 => pNode 1 (.nat 128 255)
  | 37 => pIdx 15 6 .single
  | _ => none

/-- MACSEC (R205, R608). -/
def macsecParam : Nat → Option PDef
  | 1 => pIdx 4 32 .any
  | 2 => some { hi := 4, len := 1, lenMax := 32, rng := .any }
  | 3 => pIdx 4 32 .any
  | 4 => some { hi := 4, len := 1, lenMax := 32, rng := .any }
  | _ => none

/-- STREAM (R281). -/
def streamParam : Nat → Option PDef
  | 1 => pNode 2 .etype
  | 2 => pNode 1 (.nat 10 200)
  | 3 => pNode 1 (.nat 3 50)
  | _ => none

/-- WRANGLER (R392). -/
def wranglerParam : Nat → Option PDef
  | 1 => pNode 4 .any
  | 2 => pNode 2 (.among [20, 25, 40, 50, 100, 125, 200, 250, 500, 1000])
  | 3 => pNode 1 (.nat 1 60)
  | 4 => pNode 2 (.nat 1 600)
  | 5 => pNode 2 (.nat 100 950)
  | 6 => pNode 2 (.nat 100 1000)
  | 7 => pNode 2 (.nat 10 1000)
  | 8 => pNode 2 (.nat 0 4000)
  | 9 => pNode 1 (.nat 0 100)
  | 10 => pNode 1 (.nat 1 64)
  | 11 => pNode 2 (.nat 0 3600)
  | 12 => pNode 1 (.nat 1 16)
  | 13 => pNode 2 (.nat 100 5000)
  | 14 => pNode 1 (.nat 2 64)
  | 15 => pNode 1 (.nat 0 100)
  | 16 => pNode 6 .group
  | _ => none

/-- LEGACY (R475): parameters of the MVB units 0 and 1, of the WTB unit 2. -/
def legacyParam : Nat → Option PDef
  | 1 => pIdx 2 1 (words 3)
  | 2 => pIdx 2 2 (.nat 1 4095)
  | 3 => pIdx 2 1 (.nat 1 2)
  | 4 => some { hi := 2, len := 2, lenMax := 32, rng := .devs }
  | 5 => pIdx 2 1 (.nat 1 20)
  | 6 => pIdx 2 1 (.nat 4 255)
  | 7 => some { lo := 2, hi := 3, len := 1, rng := words 4 }
  | 8 => some { lo := 2, hi := 3, len := 2, rng := .among [25, 50, 100, 200, 400, 800, 1600] }
  | 9 => some { lo := 2, hi := 3, len := 1, rng := words 2 }
  | _ => none

/-- BRIDGE (R494). -/
def bridgeParam : Nat → Option PDef
  | 1 => pNode 2 .etype
  | 2 => pNode 2 (.nat 1 4094)
  | 3 => pNode 2 (.nat 1 1000)
  | 4 => pNode 2 (.nat 1 1000)
  | 5 => pIdx 8 1 (.nat 0 127)
  | _ => none

/-- LOG (R529). -/
def logParam : Nat → Option PDef
  | 1 => pNode 1 (.nat 0 16)
  | 2 => pNode 1 (.nat 16 176)
  | 3 => pNode 1 (.nat 0 3)
  | 4 => pNode 2 (.nat 1 1000)
  | 5 => pNode 2 (.nat 1 1024)
  | 6 => pIdx 256 8 .rate
  | 7 => pNode 2 (.nat 1 1000)
  | 8 => pNode 2 (.nat 1 1024)
  | 9 => pNode 1 (words 2)
  | 10 => pNode 1 (.nat 0 7)
  | 11 => pNode 6 .group
  | _ => none

/-- The parameter that an ID names in a section type. -/
def paramDef (typ id : Nat) : Option PDef :=
  match typ with
  | 1 => nodeParam id
  | 2 => chipParam id
  | 3 => redundParam id
  | 4 => hitchParam id
  | 5 => timeParam id
  | 6 => portParam id
  | 7 => macsecParam id
  | 0x0D => streamParam id
  | 0x12 => wranglerParam id
  | 0x15 => legacyParam id
  | 0x18 => bridgeParam id
  | 0x1A => logParam id
  | _ => none

/-- The INDEX is one the parameter takes (R610, check 5). -/
def PDef.indexOk (d : PDef) (i : Nat) : Bool := i = 0xFFFF || (decide (d.lo ≤ i) && decide (i < d.hi))

/-- The LEN is the one R607 gives. -/
def PDef.lenOk (d : PDef) (n : Nat) : Bool :=
  if d.lenMax = 0 then n = d.len else decide (d.len ≤ n) && decide (n ≤ d.lenMax) && n % d.len = 0

end Sys2Proof.Machine
end

