-- ==== Sys2Proof/Machine/TackRules.lean ====
section
/-! DEFINITION. Validation of a tack image (R610, R677): the checks in their order, each failure with its code, section, offset and parameter. -/
namespace Sys2Proof.Machine

/-- A failure: code, section index (0xFFFF none), offset, parameter ID (0 none). -/
structure Bad where
  code : Nat
  si   : Nat := 0xFFFF
  off  : Nat := 0
  pid  : Nat := 0
  deriving DecidableEq, Repr

/-- The 16-byte validation result (R626). -/
def resultBytes : Option Bad → List Byte
  | none => [0, 0] ++ le 2 0xFFFF ++ le 4 0 ++ le 2 0 ++ zeros 6
  | some x => [byte x.code, 0] ++ le 2 x.si ++ le 4 x.off ++ le 2 x.pid ++ zeros 6

/-! ## Checks 1, 2, 4, 5 -/

/-- Two contents overlap. -/
def Section.overlaps (x y : Section) : Bool := decide (x.off < y.off + y.len) && decide (y.off < x.off + x.len)

/-- A section's table entry is well formed within an image: no reserved FLAGS bit, aligned, after the table and before the signature block. -/
def Section.placed (x : Section) (b : List Byte) : Bool :=
  bits x.flags 7 1 = 0 && x.off % 8 = 0 && decide (64 + 16 * imgCount b ≤ x.off) && decide (x.off + x.len + 104 ≤ b.length)

/-- The first pair of sections that overlap: the later one's place. -/
def firstOverlap (secs : List Section) : Option Nat :=
  ((numbered secs).find? (fun e => (secs.take e.1).any (fun y => e.2.overlaps y))).map Prod.fst

/-- Check 1 FORMAT. staged: the length the image must have. -/
def checkFormat (staged : Nat) (b : List Byte) : Option Bad :=
  if b.length < 168 || imgMagic b ≠ 0x5441434B || imgFormat b ≠ 1 || imgCount b < 3 || 256 < imgCount b then some { code := 1 }
  else if imgLength b ≠ staged || b.length ≠ staged || b.length < 168 + 16 * imgCount b then some { code := 1 }
  else if fLe b 14 2 ≠ 0 || fLe b 24 40 ≠ 0 || fLe b (b.length - 103) 7 ≠ 0 then some { code := 1 }
  else match (numbered (sectionsOf b)).find? (fun e => !e.2.placed b) with
    | some e => some { code := 1, si := e.1 }
    | none => (firstOverlap (sectionsOf b)).map (fun i => { code := 1, si := i })

/-- Check 2 CRC. -/
def checkCrc (b : List Byte) : Option Bad :=
  ((numbered (sectionsOf b)).find? (fun e => crc32 e.2.content ≠ e.2.crc)).map (fun e => { code := 2, si := e.1 })

/-- A section type that no image may hold (R608, R610). -/
def badType (t : Nat) : Bool := t = 0 || (decide (0x001B ≤ t) && decide (t ≤ 0x7FFF))

/-- A parameter entry is one the type takes: known ID, INDEX, LEN, and no second for its ID and INDEX. -/
def entOk (es : List Ent) (e : Ent) : Bool :=
  e.whole && (match paramDef e.typ e.id with | some d => d.indexOk e.index && d.lenOk e.val.length | none => false)
    && !(es.any (fun x => x.si = e.si && decide (x.off < e.off) && x.id = e.id && x.index = e.index))

/-- What check 5 finds in one section. -/
def sectionBad (secs : List Section) (si : Nat) (x : Section) : Option Bad :=
  if badType x.typ then some { code := 5, si := si }
  else if x.typ = 2 && !x.chip then some { code := 5, si := si }
  else if x.typ ≠ 0x11 && (secs.take si).any (fun y => y.typ = x.typ && y.inst = x.inst) then some { code := 5, si := si }
  else
    let es := sectionEntries si x
    (es.find? (fun e => !entOk es e)).map (fun e => { code := 5, si := si, off := e.off, pid := e.id })

/-- Check 5 SECTION. -/
def checkSections (b : List Byte) : Option Bad :=
  let secs := sectionsOf b
  if [1, 2, 4].any (fun t => secs.all (fun x => x.typ ≠ t)) then some { code := 5 }
  else (numbered secs).findSome? (fun e => sectionBad secs e.1 e.2)

/-! ## Check 6: places and the image as its records (R677) -/

/-- A place: section, offset, parameter. -/
structure Place where
  si  : Nat
  off : Nat
  pid : Nat := 0
  deriving DecidableEq, Repr

/-- Order of the first pass. -/
def Place.le (a b : Place) : Bool := decide (a.si < b.si) || (a.si = b.si && decide (a.off ≤ b.off))

/-- The later of two places. -/
def Place.later (a b : Place) : Place := if a.le b then b else a

/-- The first of a list of places. -/
def firstPlace : List Place → Option Place
  | [] => none
  | p :: ps => some (ps.foldl (fun a x => if a.le x then a else x) p)

/-- The last of a list of places, none for none. -/
def lastPlace : List Place → Option Place
  | [] => none
  | p :: ps => some (ps.foldl Place.later p)

/-- The place of an entry. -/
def Ent.place (e : Ent) : Place := { si := e.si, off := e.off, pid := e.id }

/-- A fixed record with its place; a record cut short by the section's end is not whole. -/
structure RecAt where
  at'   : Place
  inst  : Nat
  n     : Nat
  bytes : List Byte
  whole : Bool
  deriving DecidableEq, Repr

/-- The fixed records of a content. -/
def recsAt (si inst size : Nat) (b : List Byte) : List RecAt :=
  (List.range ((b.length + size - 1) / size)).map (fun i =>
    { at' := { si := si, off := size * i }, inst := inst, n := i, bytes := recordAt b size i, whole := decide (size * i + size ≤ b.length) })

/-- The fixed records of every section of a type. -/
def recsOf (secs : List Section) (typ size : Nat) : List RecAt :=
  ((numbered secs).map (fun e => if e.2.typ = typ then recsAt e.1 e.2.inst size e.2.content else [])).flatten

/-- An OBJECT section as read. -/
structure ObjAt where
  si    : Nat
  bytes : List Byte
  obj   : Option TaskObj
  deriving DecidableEq, Repr

/-- An image as check 6 judges it. -/
structure Img where
  secs  : List Section
  es    : List Ent
  ctxs  : List RecAt
  tasks : List RecAt
  places : List RecAt
  objs  : List ObjAt
  lports : List RecAt
  sess  : List RecAt
  deriving DecidableEq, Repr

/-- The parts of an image. -/
def imgOf (b : List Byte) : Img :=
  let secs := sectionsOf b
  { secs := secs, es := entsOf secs, ctxs := recsOf secs 0x0E 64, tasks := recsOf secs 0x10 64, places := recsOf secs 0x13 32
    objs := ((numbered secs).filter (fun e => e.2.typ = 0x11)).map (fun e => { si := e.1, bytes := e.2.content, obj := Config.taskObj e.2.content })
    lports := recsOf secs 0x16 8, sess := recsOf secs 0x19 32 }

/-- A parameter of the image. -/
def Img.v (m : Img) (typ id index dflt : Nat) : Nat := valEnt m.es typ id index dflt
def Img.e? (m : Img) (typ id index : Nat) : Option Ent := lookupEnt m.es typ id index
def Img.has (m : Img) (typ id index : Nat) : Bool := (m.e? typ id index).isSome

/-- Places of the parameters that a condition rests on: the latest, where the condition fails (R677). -/
def Img.fails (m : Img) (p : Bool) (keys : List (Nat × Nat × Nat)) : List Place :=
  if p then ((lastPlace (keys.filterMap (fun k => (m.e? k.1 k.2.1 k.2.2).map Ent.place))).map (fun x => [x])).getD [] else []

/-! ## First pass: parameters -/

/-- Entries out of range, or with reserved bytes or padding set. -/
def badEntries (m : Img) : List Place :=
  (m.es.filter (fun e => !e.clean || (match paramDef e.typ e.id with | some d => !d.rng.ok e.val | none => true))).map Ent.place

/-- The Ethertypes in effect: hitch, bridge, stream (none without one). -/
def Img.hitchType (m : Img) : Nat := m.v 4 8 0xFFFF 0x88B6
def Img.bridgeType (m : Img) : Nat := m.v 0x18 1 0xFFFF 0x88B5
def Img.streamType (m : Img) : Option Nat := (m.e? 0x0D 1 0xFFFF).map (fun e => leNat e.val)

/-- Conditions that relate node-wide parameters (R57, R58, R62, R31, R127, R364, R403). -/
def badPairs (m : Img) : List Place :=
  let form := m.v 3 1 0xFFFF 0
  let idx := m.v 2 2 0xFFFF 0
  let gpio := m.e? 4 6 0xFFFF
  let g := (gpio.map (fun e => leNat e.val)).getD 0
  m.fails (decide (m.v 4 11 0xFFFF 1 < m.v 4 12 0xFFFF 1)) [(4, 11, 0xFFFF), (4, 12, 0xFFFF)]
    ++ m.fails (m.hitchType = m.bridgeType) [(4, 8, 0xFFFF), (0x18, 1, 0xFFFF)]
    ++ m.fails (m.streamType = some m.hitchType) [(4, 8, 0xFFFF), (0x0D, 1, 0xFFFF)]
    ++ m.fails (m.streamType = some m.bridgeType) [(0x18, 1, 0xFFFF), (0x0D, 1, 0xFFFF)]
    ++ m.fails (gpio.isSome && m.v 1 8 g 0 = 1) [(4, 6, 0xFFFF), (1, 8, g)]
    ++ m.fails (form ≠ 0 && !m.has 1 1 0xFFFF) [(3, 1, 0xFFFF)]
    ++ m.fails ((form = 0 && idx ≠ 0) || (form = 1 && decide (1 < idx))) [(3, 1, 0xFFFF), (2, 2, 0xFFFF)]
    ++ m.fails (m.v 5 1 0xFFFF 0 = m.v 5 2 0xFFFF 1) [(5, 1, 0xFFFF), (5, 2, 0xFFFF)]
    ++ m.fails (decide (m.v 5 20 0xFFFF 1000 * 500 < m.v 5 21 0xFFFF 100)) [(5, 20, 0xFFFF), (5, 21, 0xFFFF)]
    ++ m.fails (m.v 0x12 1 0xFFFF 0 ≠ 0 && m.streamType.isNone) [(0x12, 1, 0xFFFF)]

/-- Conditions of one port (R190, R206, R224). -/
def badPort (m : Img) (p : Nat) : List Place :=
  m.fails (p < 15 && decide (m.v 6 9 p 256 ≤ m.v 6 10 p 128)) [(6, 9, p), (6, 10, p)]
    ++ m.fails (p = 14 && m.v 6 1 p 0 = 1) [(6, 1, p)]
    ++ m.fails (p < 4 && m.v 6 26 p 0 = 2 && !m.has 7 1 p && !m.has 7 3 p) [(6, 26, p)]
    ++ ((List.range 8).map (fun c =>
      let q := m.v 6 25 (p * 8 + c) (defaultQuota c).quota
      m.fails (decide (q < m.v 6 24 (p * 8 + c) (defaultQuota c).reserve)) [(6, 24, p * 8 + c), (6, 25, p * 8 + c)]
        ++ m.fails (decide (q < (m.v 6 16 p 1522 + 255) / 256)) [(6, 25, p * 8 + c), (6, 16, p)])).flatten

/-- An MVB unit in use needs its address (R475). -/
def badUnit (m : Img) (u : Nat) : List Place := m.fails (m.v 0x15 1 u 0 ≠ 0 && !m.has 0x15 2 u) [(0x15, 1, u)]

/-! ## First pass: records -/

/-- Places of records that fail a test. -/
def badRecs (rs : List RecAt) (ok : RecAt → Bool) : List Place := (rs.filter (fun r => !r.whole || !ok r)).map RecAt.at'

/-- Places of records that share something with an earlier one. -/
def repeated (rs : List RecAt) (same : RecAt → RecAt → Bool) : List Place :=
  ((numbered rs).filter (fun e => (rs.take e.1).any (fun y => same y e.2))).map (fun e => e.2.at')

/-- A VLAN record (R170, R608). -/
def vlanRecOk (b : List Byte) : Bool := decide (fLe b 0 2 < 4096) && fLe b 6 2 = 0

/-- An address record (R218). -/
def fdbRecOk (b : List Byte) : Bool :=
  let d := fLe b 8 1
  decide (fLe b 6 2 < 4096) && (decide (d ≤ 0x11) || d = 0x20) && decide (fLe b 9 1 < 8) && bit (fLe b 9 1) 0 && (d = 0x20 || fLe b 10 2 = 0)
    && fLe b 14 2 = 0

/-- An identification record (R608). -/
def identRecOk (b : List Byte) : Bool :=
  decide (fLe b 6 2 < 4096) && decide (fLe b 8 1 < 2) && decide (fLe b 9 1 < 4) && decide (fLe b 12 2 < 4096) && decide (fLe b 14 2 < 2048)

/-- Lists of a GATE section: offset, header, whether whole. -/
def gatesAt : Nat → Nat → List Byte → List (Nat × List Byte × List Byte × Bool)
  | 0, _, _ => []
  | fuel + 1, off, b =>
    if b.isEmpty then [] else
    let n := fLe b 2 2
    (off, b.take 32, slice b 32 (4 * n), decide (32 + 4 * n ≤ b.length)) :: gatesAt fuel (off + 32 + 4 * n) (b.drop (32 + 4 * n))

/-- Gate lists that R197 or R219 reject. -/
def badGates (m : Img) : List Place :=
  ((numbered m.secs).map (fun e => if e.2.typ ≠ 0x0A then [] else
    ((gatesAt (e.2.content.length / 32 + 1) 0 e.2.content).filter (fun g =>
      !g.2.2.2 || !gateHeaderOk g.2.1 || (!bit (fLe g.2.1 1 1) 0 && (gateListOf g.2.1 g.2.2.1 0).fault ≠ 0))).map (fun g => { si := e.1, off := g.1 }))).flatten

/-- Safe values of a SAFE section: offset, value, whether well formed. -/
def safesAt : Nat → Nat → List Byte → List (Nat × List Byte × Bool)
  | 0, _, _ => []
  | fuel + 1, off, b =>
    if b.isEmpty then [] else
    let n := fLe b 0 4
    let size := (4 + n + 7) / 8 * 8
    (off, slice b 4 n, decide (1 ≤ n) && decide (n ≤ 1408) && decide (size ≤ b.length) && fLe b (4 + n) (size - 4 - n) = 0)
      :: safesAt fuel (off + size) (b.drop size)

/-- Every safe value with its section. -/
def Img.safes (m : Img) : List (Nat × Nat × List Byte × Bool) :=
  ((numbered m.secs).map (fun e => if e.2.typ ≠ 0x0F then [] else
    (safesAt (e.2.content.length / 8 + 1) 0 e.2.content).map (fun g => (e.1, g.1, g.2.1, g.2.2)))).flatten

/-- Periods in units of 250 µs that divide 1 s (R313). -/
def periodOk (p : Nat) : Bool := decide (1 ≤ p) && 4000 % p = 0

/-- Fields of a context record. -/
def ctxOf (b : List Byte) : StreamCtx := { record := b, enabled := false }

/-- A field applies and lies in its range, or does not apply and holds 0 (R282). -/
def applies (p : Bool) (v : Nat) (ok : Bool) : Bool := if p then ok else v = 0

/-- A field with a stated default: 0 or the default where it does not apply, 0 or its range where it does. -/
def appliesDflt (p : Bool) (v dflt : Nat) (ok : Bool) : Bool := if p then v = 0 || ok else v = 0 || v = dflt

/-- The fields of a context record (R282, R283). -/
def ctxFieldsOk (b : List Byte) : Bool :=
  let r := fLe b 0 1
  let pub := r = 1
  let sub := r = 2
  let ps := pub || sub
  let rep := ps && fLe b 4 1 = 0
  let pay := fLe b 28 2
  let per := fLe b 30 2
  let src := fLe b 25 1
  let pol := fLe b 38 1
  decide (r ≤ 3) && applies pub (fLe b 1 1) (decide (fLe b 1 1 ≤ 6)) && applies ps (fLe b 2 2) (inRange 1 4094 (fLe b 2 2))
    && applies ps (fLe b 4 1) (decide (fLe b 4 1 ≤ 3)) && applies ps (fLe b 5 1) (decide (fLe b 5 1 ≤ 1))
    && applies (pub && fLe b 5 1 = 1) (fLe b 6 1) (inRange 1 63 (fLe b 6 1)) && applies sub (fLe b 7 1) (decide (fLe b 7 1 ≤ 2))
    && applies ps (fLe b 8 6) (bit (fLe b 8 1) 0 && (fLe b 5 1 = 0 || fLe b 13 1 % 64 = 0))
    && applies (pub || (sub && fLe b 7 1 = 1)) (fLe b 14 2) true && applies (sub && fLe b 7 1 = 1) (fLe b 16 8) true
    && applies (sub && fLe b 7 1 = 2) (fLe b 24 1) (inRange 1 63 (fLe b 24 1))
    && applies ps src (if pub then decide (src ≤ 1) else inRange 1 3 src)
    && applies (sub && bit src 1) (fLe b 26 1) (decide (fLe b 26 1 ≤ 7)) && applies ps (fLe b 27 1) (decide (fLe b 27 1 ≤ 32))
    && applies ps pay (inRange 1 1408 pay) && applies ps per (periodOk per) && applies pub (fLe b 32 4) (decide (fLe b 32 4 < per * 250000))
    && applies sub (fLe b 36 2) (inRange per 16000 (fLe b 36 2)) && applies sub pol (decide (pol ≤ 3))
    && applies (sub && pol = 3) (fLe b 39 1) (inRange 1 255 (fLe b 39 1)) && appliesDflt sub (fLe b 40 1) 1 (inRange 1 16 (fLe b 40 1))
    && appliesDflt (sub && rep) (fLe b 41 1 % 64) 16 (inRange 2 32 (fLe b 41 1 % 64)) && (rep || !bit (fLe b 41 1) 6) && !bit (fLe b 41 1) 7
    && appliesDflt (sub && rep) (fLe b 42 2) 100 (inRange 1 10000 (fLe b 42 2)) && appliesDflt (sub && rep) (fLe b 44 2) 1000 (inRange 100 60000 (fLe b 44 2))
    && applies ((pub && src = 1) || (sub && pol ≠ 2)) (fLe b 46 2) true && applies ((pub && src = 0) || (sub && bit src 0)) (fLe b 48 4) true
    && decide (fLe b 52 4 ≤ 1) && fLe b 56 8 = 0 && (!ps || decide (fLe b 27 1 ≤ pay))

/-- An unused record is judged by its ROLE alone. -/
def ctxOk (r : RecAt) : Bool := decide (r.n < 2048) && (fLe r.bytes 0 1 = 0 || ctxFieldsOk r.bytes)

/-- A context to which SAFE_REF applies. -/
def usesSafe (b : List Byte) : Bool := (fLe b 0 1 = 1 && fLe b 25 1 = 1) || (fLe b 0 1 = 2 && fLe b 38 1 ≠ 2)

/-- Image blocks of every object. -/
def Img.blocks (m : Img) : List ObjBlock := (m.objs.map (fun o => ((o.obj.map TaskObj.blocks).getD []))).flatten

/-- Conditions that relate a context to others (R281, R283). -/
def badCtx (m : Img) (r : RecAt) : List Place :=
  let b := r.bytes
  let c := ctxOf b
  let safe := m.safes[fLe b 46 2]?
  let block := !c.toTask && !(c.role = 1 && !c.hostSource)
  (if bit (fLe b 52 4) 0 && c.role ≠ 0 && m.streamType.isNone then [r.at'] else [])
    ++ (if c.role = 0 || !usesSafe b then [] else match safe with
      | none => [r.at']
      | some v => if v.2.2.1.length = c.payLen then [] else [r.at'.later { si := v.1, off := v.2.1 }])
    ++ (if block || m.blocks.any (fun x => x.kind = .stream && x.sym = c.imageRef && c.imageRef ≠ 0) then [] else [r.at'])

/-- Two fixed contexts share group address and VID. -/
def sameGroup (x y : RecAt) : Bool :=
  let fixed (b : List Byte) : Bool := (fLe b 0 1 = 1 || fLe b 0 1 = 2) && fLe b 5 1 = 0
  fixed x.bytes && fixed y.bytes && fLe x.bytes 8 6 = fLe y.bytes 8 6 && fLe x.bytes 2 2 = fLe y.bytes 2 2

/-! ## First pass: tasks, objects, placements -/

/-- The fields of a task descriptor (R311, R313). -/
def descOk (r : RecAt) : Bool :=
  let b := r.bytes
  let d := fLe b 16 4
  decide (fLe b 0 1 < 64) && decide (fLe b 1 1 < 16) && periodOk (fLe b 2 2) && decide (1 ≤ fLe b 4 1) && (decide (fLe b 5 1 < 4) || fLe b 5 1 = 0xFF)
    && fLe b 7 1 = 0 && (d = 0 || inRange 50 (fLe b 2 2 * 250) d) && inRange 48 65536 (fLe b 28 4) && decide (fLe b 32 4 ≤ 65536)
    && inRange 64 1048576 (fLe b 36 4) && fLe b 36 4 % 64 = 0 && fLe b 42 22 = 0

/-- A descriptor as a task. -/
def taskOf (b : List Byte) : Task := { desc := b, obj := [] }

/-- The object a descriptor names. -/
def Img.objFor (m : Img) (b : List Byte) : Option ObjAt := m.objs.find? (fun o => o.si = fLe b 40 2)

/-- A descriptor and its object (R312). -/
def badDescObj (m : Img) (r : RecAt) : List Place :=
  match m.objFor r.bytes with
  | none => [r.at']
  | some o => if fLe o.bytes 0 8 = fLe r.bytes 8 8 then [] else [r.at'.later { si := o.si, off := 0 }]

/-- Pieces of an image or segment lie within it and apart from one another. -/
def apart (len : Nat) (ps : List (Nat × Nat)) : Bool :=
  ps.all (fun p => decide (p.1 + p.2 ≤ len))
    && (numbered ps).all (fun e => (ps.take e.1).all (fun q => decide (q.1 + q.2 ≤ e.2.1) || decide (e.2.1 + e.2.2 ≤ q.1)))

/-- An object's tables agree with one another: variables in the segment, blocks in the images, each variable once. -/
def objConsistent (o : TaskObj) : Bool :=
  apart o.segLen (o.vars.filterMap (fun v => v.seg.map (fun p => (p, v.size))))
    && apart o.inLen ((o.blocks.filter (fun b => !b.out)).map (fun b => (b.off, b.len)))
    && apart o.outLen ((o.blocks.filter (fun b => b.out)).map (fun b => (b.off, b.len)))
    && (numbered o.vars).all (fun e => (o.vars.take e.1).all (fun v => v.id ≠ e.2.id))
    && o.blocks.all (fun b => !(b.out && (b.kind = .taskvar || b.kind = .cycle)))

/-- An object agrees with a descriptor that names it. -/
def objAgrees (o : TaskObj) (d : List Byte) : Bool := o.inLen = fLe d 28 4 && o.outLen = fLe d 32 4 && o.segLen = fLe d 36 4

/-- An OBJECT section that fails: unreadable, inconsistent, unlike its descriptors, or its signature bad (R312, R610). -/
def badObj (sec : Sec) (m : Img) (o : ObjAt) : Bool :=
  !sec.signedOk o.bytes || (match o.obj with
    | none => true
    | some x => x.objId ≠ fLe o.bytes 0 8 || !objConsistent x
        || (m.tasks.filter (fun r => fLe r.bytes 40 2 = o.si)).any (fun r => !objAgrees x r.bytes))

/-- Sinks and single-reader sources that an object binds: output CAN buffers and source ports, the CAN FIFOs it reads (R448, R476). -/
def ObjAt.claims (o : ObjAt) : List (Nat × Nat) :=
  ((o.obj.map TaskObj.blocks).getD []).filterMap (fun b => match b.kind with
    | .can => if b.out then some (0, b.ref) else if b.ref % 256 = 128 then some (1, b.ref) else none
    | .legacy => if b.out then some (2, b.ref) else none
    | _ => none)

/-- Objects that bind what another task's object, earlier in the image, binds. -/
def badClaims (m : Img) : List Place :=
  ((numbered m.objs).filter (fun e => (m.objs.take e.1).any (fun x => x.claims.any (fun c => e.2.claims.contains c)))).map (fun e => { si := e.2.si, off := 0 })

/-- The fields of a placement record (R363, R364). -/
def placeOk (r : RecAt) : Bool :=
  let b := r.bytes
  decide (fLe b 0 1 < 64) && decide (fLe b 1 1 < 3) && decide (fLe b 2 1 ≤ 62) && fLe b 3 1 = 0 && fLe b 4 4 ≠ 0 && !nidReserved (fLe b 8 8)
    && fLe b 24 8 = 0

/-- The descriptor of a task index; the placement record of one. -/
def Img.descOf (m : Img) (t : Nat) : Option RecAt := m.tasks.find? (fun r => fLe r.bytes 0 1 = t)
def Img.placeOf (m : Img) (t : Nat) : Option RecAt := m.places.find? (fun r => fLe r.bytes 0 1 = t)

/-- PLACEABLE of a descriptor. -/
def placeableDesc (b : List Byte) : Bool := bit (fLe b 1 1) 1

/-- A placement record and its descriptor (R364). -/
def badPlace (m : Img) (r : RecAt) : List Place :=
  match m.descOf (fLe r.bytes 0 1) with
  | none => [r.at']
  | some d => if placeableDesc d.bytes then [] else [r.at'.later d.at']

/-- A placeable descriptor, its record and its object (R364). -/
def badPlaceable (m : Img) (r : RecAt) : List Place :=
  if !placeableDesc r.bytes then [] else
  let t := taskOf r.bytes
  let obj := m.objFor r.bytes
  let bl := ((obj.bind ObjAt.obj).map TaskObj.blocks).getD []
  let aff := ((m.placeOf (fLe r.bytes 0 1)).map (fun p => fLe p.bytes 16 4)).getD 0
  let there := r.at'.later { si := (obj.map ObjAt.si).getD 0, off := 0 }
  (if (m.placeOf (fLe r.bytes 0 1)).isNone then [r.at'] else [])
    ++ (if t.pairSel ≠ 0xFF || t.period < 4 || t.period * 250 - 250 < t.deadlineUs then [r.at'] else [])
    ++ (if bl.any (fun b => b.kind = .gpio || b.kind = .can || b.kind = .legacy) then [there] else [])
    ++ (bl.filter (fun b => b.kind = .taskvar)).filterMap (fun b =>
      let n := b.ref / 2 ^ 32
      let okDesc := match m.descOf n with | some d => placeableDesc d.bytes | none => false
      let okAff := aff ≠ 0 && (match m.placeOf n with | some p => decide (fLe p.bytes 16 4 = aff) | none => false)
      if okDesc && okAff then none
      else lastPlace ([there] ++ ((m.descOf n).map RecAt.at').toList ++ ((m.placeOf n).map RecAt.at').toList))

/-! ## First pass: CAN, line units, sessions -/

/-- A channel's record b of its CAN section. -/
def canRecOf (c : List Byte) (b : Nat) : List Byte := slice c (32 + 12 * b) 12

/-- A buffer record (R448, R452). -/
def canRecOk (c : List Byte) (b : Nat) : Bool :=
  let r := canRecOf c b
  let k := fLe r 8 1
  let n := fLe r 9 1
  k = 0 || (k ≤ 3 && (k = 3) = (b = 128) && n ≤ 2 && fLe r 10 2 = 0 && (if k = 2 then fLe r 4 4 = 0 else fLe r 0 4 / 2 ^ 30 = 0 && fLe r 4 4 / 2 ^ 30 = 0))

/-- A FIFO filter pair (R452). -/
def canFilterOk (c : List Byte) (i : Nat) : Bool := fLe c (1580 + 8 * i) 4 / 2 ^ 30 = 0 && !bit (fLe c (1584 + 8 * i) 4) 30

/-- What fails in a CAN section. -/
def badCan (si : Nat) (x : Section) : List Place :=
  let c := x.content
  let here (off : Nat) : Place := { si := si, off := off }
  (if 8 ≤ x.inst || c.length ≠ 1644 || !canBlockOk (c.take 32) then [here 0] else [])
    ++ ((List.range 129).filter (fun b => !canRecOk c b)).map (fun b => here (32 + 12 * b))
    ++ ((List.range 8).filter (fun i => !canFilterOk c i)).map (fun i => here (1580 + 8 * i))

/-- The record of a CAN buffer with its place. -/
def Img.canRec (m : Img) (ch b : Nat) : Option (Place × List Byte) :=
  ((numbered m.secs).find? (fun e => e.2.typ = 0x14 && e.2.inst = ch)).map (fun e => ({ si := e.1, off := 32 + 12 * b }, canRecOf e.2.content b))

/-- A port record (R476). -/
def lportOk (r : RecAt) : Bool :=
  let b := r.bytes
  let k := fLe b 2 1
  r.inst < 3 && (k = 0 || (k ≤ 2 && (if r.inst = 2 then fLe b 0 2 ≤ 62 && (fLe b 0 2 = 0) = (k = 1) && inRange 1 32 (fLe b 3 1)
      else fLe b 0 2 < 4096 && fLe b 3 1 ≤ 4)
    && fLe b 4 1 ≤ 2 && fLe b 5 1 = 0 && (k = 1 || 1 ≤ fLe b 6 2)))

/-- Two records of a unit share an address. -/
def samePort (x y : RecAt) : Bool := x.inst = y.inst && fLe x.bytes 2 1 ≠ 0 && fLe y.bytes 2 1 ≠ 0 && fLe x.bytes 0 2 = fLe y.bytes 0 2

/-- A poll-table entry (R477, R478). -/
def pollOk (r : RecAt) : Bool :=
  let w := fLe r.bytes 0 4
  r.inst < 2 && bits w 15 12 ≤ 4 && bits w 19 16 ≤ 10 && bits w 29 20 < 2 ^ bits w 19 16 && bits w 31 30 = 0

/-- The fields of a session record (R500). -/
def sessOk (r : RecAt) : Bool :=
  let b := r.bytes
  let md := fLe b 1 1
  let u := fLe b 2 1
  let wtb := md = 3 || md = 5
  inRange 1 5 md && (if md = 1 then u < 8 else if wtb then u = 2 else u < 2) && inRange 1 3 (fLe b 3 1) && inRange 1 0xFEFF (fLe b 4 2)
    && (fLe b 16 1 = 0 || (fLe b 16 1 = 1 && fLe b 8 8 = 0)) && (if fLe b 16 1 = 1 then inRange 1 63 (fLe b 17 1) else fLe b 17 1 = 0)
    && (if wtb then fLe b 18 1 ≠ 0 else fLe b 18 1 = 0) && fLe b 19 1 < 4 && fLe b 20 2 ≤ 10000 && inRange 1 64 (fLe b 22 1) && fLe b 23 1 = 0
    && ((md ≠ 4 && md ≠ 5) || fLe b 26 2 = 0) && fLe b 28 4 = 0

/-- The CAN buffers, or the ports, that a session names: kind (1 receives, 2 sends) and number. -/
def sessNames (b : List Byte) : List (Nat × Nat) :=
  if fLe b 1 1 = 1 then
    (if bit (fLe b 3 1) 0 then (List.range (fLe b 25 1)).map (fun i => (1, fLe b 24 1 + i)) else [])
      ++ (if bit (fLe b 3 1) 1 then (List.range (fLe b 27 1)).map (fun i => (2, fLe b 26 1 + i)) else [])
  else []

/-- Port addresses of a process-data session. -/
def sessPd (b : List Byte) : Option (Nat × Nat) := if fLe b 1 1 = 2 || fLe b 1 1 = 3 then some (fLe b 24 2, fLe b 26 2) else none

/-- Port records of a unit that a process-data session names. -/
def Img.portsOf (m : Img) (b : List Byte) : List RecAt :=
  match sessPd b with
  | none => []
  | some r => m.lports.filter (fun x => x.inst = fLe b 2 1 && fLe x.bytes 2 1 ≠ 0 && inRange r.1 r.2 (fLe x.bytes 0 2))

/-- Two sessions name one buffer or one port. -/
def Img.sessShare (m : Img) (x y : RecAt) : Bool :=
  (fLe x.bytes 1 1 = 1 && fLe y.bytes 1 1 = 1 && fLe x.bytes 2 1 = fLe y.bytes 2 1 && (sessNames x.bytes).any (fun n => (sessNames y.bytes).any (fun k => k.2 = n.2)))
    || (m.portsOf x.bytes).any (fun p => (m.portsOf y.bytes).contains p)

/-- A session and the records of what it names (R500). -/
def badSess (m : Img) (r : RecAt) : List Place :=
  let b := r.bytes
  let ch := fLe b 2 1
  let bufs := sessNames b
  let ports := m.portsOf b
  (if fLe b 1 1 = 1 then
      bufs.filterMap (fun n => match m.canRec ch n.2 with
        | none => some r.at'
        | some x =>
          let k := fLe x.2 8 1
          if fLe x.2 9 1 = 2 && (if n.1 = 1 then k = 1 || k = 3 else k = 2) then none else some (r.at'.later x.1))
        ++ (if (bit (fLe b 3 1) 0 && !bufs.any (fun n => n.1 = 1)) || (bit (fLe b 3 1) 1 && !bufs.any (fun n => n.1 = 2)) then [r.at'] else [])
    else if (sessPd b).isSome then
      (ports.filter (fun p => fLe p.bytes 4 1 ≠ 2)).map (fun p => r.at'.later p.at')
        ++ (if (bit (fLe b 3 1) 0 && !ports.any (fun p => fLe p.bytes 2 1 = 2)) || (bit (fLe b 3 1) 1 && !ports.any (fun p => fLe p.bytes 2 1 = 1)) then [r.at'] else [])
    else [])

/-- TXN_BUFFER of a channel: a BRIDGE TX buffer that no session names (R494). -/
def badTxn (m : Img) (ch : Nat) : List Place :=
  match m.e? 0x18 5 ch with
  | none => []
  | some e =>
    let n := leNat e.val
    (match m.canRec ch n with
      | none => [e.place]
      | some x => if fLe x.2 8 1 = 2 && fLe x.2 9 1 = 2 then [] else [e.place.later x.1])
      ++ ((m.sess.filter (fun r => fLe r.bytes 1 1 = 1 && fLe r.bytes 2 1 = ch && (sessNames r.bytes).contains (2, n))).map (fun r => e.place.later r.at'))

/-- SEALED_SIZE against the records held (R529). -/
def badSealed (held : Nat) (m : Img) : List Place := m.fails (decide (m.v 0x1A 1 0xFFFF 2 * 8192 < held)) [(0x1A, 1, 0xFFFF)]

/-- Everything the first pass finds. held: records in the SEALED region. -/
def firstPass (sec : Sec) (held : Nat) (m : Img) : List Place :=
  badEntries m ++ badPairs m ++ ((List.range 16).map (badPort m)).flatten ++ ((List.range 2).map (badUnit m)).flatten
    ++ badRecs (recsOf m.secs 0x08 8) (fun r => vlanRecOk r.bytes) ++ badRecs (recsOf m.secs 0x09 16) (fun r => fdbRecOk r.bytes)
    ++ badGates m ++ badRecs (recsOf m.secs 0x0B 16) (fun r => identRecOk r.bytes)
    ++ badRecs (recsOf m.secs 0x0C 28) (fun r => decide (fLe r.bytes 0 1 < 2) && psfpOk r.bytes)
    ++ badRecs m.ctxs ctxOk ++ (m.ctxs.map (badCtx m)).flatten ++ repeated m.ctxs sameGroup
    ++ (m.safes.filter (fun v => !v.2.2.2)).map (fun v => { si := v.1, off := v.2.1 })
    ++ badRecs m.tasks descOk ++ repeated m.tasks (fun x y => fLe x.bytes 0 1 = fLe y.bytes 0 1) ++ (m.tasks.map (badDescObj m)).flatten
    ++ (m.objs.filter (badObj sec m)).map (fun o => { si := o.si, off := 0 }) ++ badClaims m
    ++ badRecs m.places placeOk ++ repeated m.places (fun x y => fLe x.bytes 4 4 = fLe y.bytes 4 4) ++ (m.places.map (badPlace m)).flatten
    ++ (m.tasks.map (badPlaceable m)).flatten
    ++ ((numbered m.secs).map (fun e => if e.2.typ = 0x14 then badCan e.1 e.2 else [])).flatten
    ++ badRecs m.lports lportOk ++ repeated m.lports samePort ++ badRecs (recsOf m.secs 0x17 4) pollOk
    ++ badRecs m.sess sessOk ++ repeated m.sess (fun x y => fLe x.bytes 0 1 = fLe y.bytes 0 1 || fLe x.bytes 4 2 = fLe y.bytes 4 2)
    ++ repeated m.sess m.sessShare ++ (m.sess.map (badSess m)).flatten ++ ((List.range 8).map (badTxn m)).flatten ++ badSealed held m

/-! ## Second pass: sums, budgets, counts and schedules -/

/-- What a second-pass condition finds: nothing, a place, or a failure that rests on no single record. -/
inductive Over where
  | no
  | there (p : Place)
  | nowhere
  deriving DecidableEq, Repr

/-- The record at which a running total first exceeds its limit. -/
def overAt (limit : Nat) (xs : List (Place × Nat)) : Over :=
  match (numbered xs).find? (fun e => decide (limit < sumOf ((xs.take (e.1 + 1)).map Prod.snd))) with
  | some e => .there e.2.1
  | none => .no

/-- The place where a condition on parameters fails: the latest entry, or none. -/
def Img.over (m : Img) (p : Bool) (keys : List (Nat × Nat × Nat)) : Over :=
  if !p then .no else match m.fails true keys with | [] => .nowhere | x :: _ => .there x

/-- Parameters of R57 that the image leaves out. -/
def over57 (m : Img) : Over := if [10, 11, 12].any (fun i => !m.has 4 i 0xFFFF) then .nowhere else .no

/-- Static entries: more than 4,096, or more than 4 in a bucket (R179). -/
def over179 (m : Img) : Over :=
  let rs := recsOf m.secs 0x09 16
  let bucket (r : RecAt) : Nat := fdbBucket (BitVec.ofNat 48 (fBe r.bytes 0 6)) (fLe r.bytes 6 2 % 4096)
  match (numbered rs).find? (fun e => decide (4096 ≤ e.1) || decide (4 ≤ (rs.take e.1).countP (fun y => bucket y = bucket e.2))) with
  | some e => .there e.2.at'
  | none => .no

/-- Reserves in all (R190): at the latest entry that raises one. -/
def over190 (m : Img) : Over :=
  let val (es : List Ent) : Nat := sumOf ((List.range 128).map (fun k => valEnt es 6 24 k (defaultQuota (k % 8)).reserve))
  let rs := m.es.filter (fun e => e.typ = 6 && e.id = 24)
  match (numbered rs).find? (fun e => decide (32768 < val (rs.take (e.1 + 1)))) with
  | some e => if 32768 < val rs then .there e.2.place else .no
  | none => .no

/-- The payload pool (R283). -/
def over283 (m : Img) : Over := overAt (1920 * 1024) (m.ctxs.map (fun r => (r.at', 2 * ((fLe r.bytes 28 2 + 63) / 64) * 64)))

/-- Identification entries (R284). -/
def over284 (m : Img) : Over :=
  let own := (m.ctxs.filter (fun r => fLe r.bytes 0 1 = 2 && bit (fLe r.bytes 52 4) 0)).map RecAt.at'
  overAt 4096 ((sortBy Place.le (own ++ (recsOf m.secs 0x0B 16).map RecAt.at')).map (fun p => (p, 1)))

/-- Descriptors that count towards the budgets: enabled, or placeable (R312, R365). -/
def Img.counted (m : Img) : List RecAt := m.tasks.filter (fun r => bit (fLe r.bytes 1 1) 0 || placeableDesc r.bytes)

/-- The variable store (R312). -/
def over312 (m : Img) : Over :=
  overAt (4 * 1048576 - 16384) (m.counted.map (fun r => (r.at', 2 * fLe r.bytes 36 4 + fLe r.bytes 28 4 + fLe r.bytes 32 4)))

/-- Variables of all objects (R312). -/
def over312v (m : Img) : Over := overAt 65536 (m.objs.map (fun o => ({ si := o.si, off := 0 }, ((o.obj.map TaskObj.vars).getD []).length)))

/-- The retained total (R334): 256 KiB per ms of the shortest retaining period, never above 8 MiB. -/
def over334 (m : Img) : Over :=
  let rs := m.counted.filter (fun r => decide (0 < fLe r.bytes 24 4))
  let p := (minOf (rs.map (fun r => fLe r.bytes 2 2))).getD 4000
  overAt (min (8 * 1048576) (65536 * p)) (rs.map (fun r => (r.at', fLe r.bytes 24 4)))

/-- A Troika image's totals at one instant (R427): at the descriptor whose instant first exceeds a limit. Every task latches at the grid
instant 0 of a second. -/
def over427 (m : Img) : Over :=
  if m.v 3 1 0xFFFF 0 ≠ 2 then .no else
  let rs := m.tasks.filter (fun r => bit (fLe r.bytes 1 1) 0)
  let dl (r : RecAt) : Nat := (taskOf r.bytes).deadlineUs
  let instants (r : RecAt) : List Nat := (List.range (4000 / max 1 (fLe r.bytes 2 2))).map (fun k => k * fLe r.bytes 2 2 * 250 + dl r)
  let commitsAt (r : RecAt) (t : Nat) : Bool := (t + 1000000 - dl r % 1000000) % (max 1 (fLe r.bytes 2 2) * 250) = 0
  let bad (before : List RecAt) (r : RecAt) : Bool :=
    decide (32768 < sumOf (before.map (fun x => fLe x.bytes 28 4)))
      || (instants r).any (fun t => decide (16384 < sumOf ((before.filter (fun x => commitsAt x t)).map (fun x => fLe x.bytes 32 4))))
  match (numbered rs).find? (fun e => bad (rs.take (e.1 + 1)) e.2) with
  | some e => .there e.2.at'
  | none => .no

/-- CAN channels with WAKE (R467). -/
def over467 (m : Img) : Over :=
  overAt 2 (((numbered m.secs).filter (fun e => e.2.typ = 0x14)).map (fun e => ({ si := e.1, off := 0 }, if bit (fLe e.2.content 1 1) 5 then 1 else 0)))

/-- Port records of a unit, poll entries of a unit: 4,096 (R476, R478). -/
def overCount (rs : List RecAt) : Over := match rs.find? (fun r => decide (4096 ≤ r.n)) with | some r => .there r.at' | none => .no

/-- The poll time of each basic period (R478). -/
def over478 (m : Img) : Over :=
  let rs := recsOf m.secs 0x17 4
  let due (r : RecAt) (p : Nat) : Bool := p % 2 ^ bits (fLe r.bytes 0 4) 19 16 = bits (fLe r.bytes 0 4) 29 20
  let cost (r : RecAt) : Nat := Config.mvbPollNs (bits (fLe r.bytes 0 4) 15 12)
  let limit (u : Nat) : Nat := m.v 0x15 3 u 1 * 800000
  match overCount rs with
  | .no => match (numbered rs).find? (fun e => (List.range 1024).any (fun p => due e.2 p
      && decide (limit e.2.inst < sumOf (((rs.take (e.1 + 1)).filter (fun x => x.inst = e.2.inst && due x p)).map cost)))) with
    | some e => .there e.2.at'
    | none => .no
  | x => x

/-- The regions of the Studbook: LOW of at least 8 MiB; SEALED_SIZE of its default for what is held (R529). -/
def over529 (held : Nat) (m : Img) : Over :=
  if !m.has 0x1A 1 0xFFFF && decide (16384 < held) then .nowhere
  else m.over (decide (184 < m.v 0x1A 1 0xFFFF 2 + m.v 0x1A 2 0xFFFF 62)) [(0x1A, 1, 0xFFFF), (0x1A, 2, 0xFFFF)]

/-- The second pass, by the labels of the rules. -/
def secondPass (held : Nat) (m : Img) : Option Bad :=
  [over57 m, over179 m, over190 m, over283 m, over284 m, over312 m, over312v m, over334 m, over427 m, over467 m, overCount m.lports, over478 m, over529 held m].findSome?
    (fun o => match o with
      | .no => none
      | .there p => some { code := 6, si := p.si, off := p.off, pid := p.pid }
      | .nowhere => some { code := 6 })

/-- Check 6 RULE. -/
def checkRules (sec : Sec) (held : Nat) (b : List Byte) : Option Bad :=
  let m := imgOf b
  match firstPlace (firstPass sec held m) with
  | some p => some { code := 6, si := p.si, off := p.off, pid := p.pid }
  | none => secondPass held m

/-- Records the SEALED region holds. -/
def Studbook.sealedHeld (l : Studbook) : Nat := l.seald.slots.length

/-- Checks 1 to 6 of an image (R610). staged: the length it must have. -/
def validate (s : State) (staged : Nat) (b : List Byte) : Option Bad :=
  match checkFormat staged b with
  | some x => some x
  | none => match checkCrc b with
    | some x => some x
    | none =>
      if !s.sec.signedOk b then some { code := 3 }
      else if imgSvn b < s.sec.tackFloor then some { code := 4 }
      else match checkSections b with
        | some x => some x
        | none => checkRules s.sec s.log.sealedHeld b

end Sys2Proof.Machine
end

