-- ==== Sys2Proof/Machine/BootOps.lean ====
section
/-! DEFINITION. Shared operations of start-up (15_boot_tack_protection.md, 17_package_electrical.md): loss of rails, firmware images, tack banks and commit
records, selection of an image, staging. -/
namespace Sys2Proof.Machine

/-! ## Loss of main rails (R44, R46, R653, R672) -/

/-- The chip has lost its supply: what volatile memory held is gone; the backup domain goes on from VBAK where there is one. -/
def loseRails (s : State) : State :=
  match s.node.state with
  | .off | .backup => s
  | old =>
    let s1 := drivePin .wakeOut (if s.pwr.vbak then .low else .hiz) (emit (.pin .ppsOut .hiz) (emit (.pin .claimOut .hiz) (resetPins s)))
    let k := bootKeep s1
    let t := if s.pwr.vbak then k.time else {}
    let n := { k.node with state := if s.pwr.vbak then NodeState.backup else NodeState.off, prev := old, bootFrom := none }
    let p := { k.pwr with alarmArmed := s.pwr.alarmArmed && s.pwr.vbak }
    { k with node := n, pwr := p, time := t }

/-- The chip leaves reset into BOOT from a state without main rails (R44, R660). -/
def startUp (s : State) : State :=
  let old := s.node.state
  let k := bootKeep s
  { k with node := { k.node with
    state := .boot, prev := old, bootFrom := some (old.code, 1), lost := if s.log.degraded0 || s.log.degraded1 then 4 else 0 } }

/-! ## Firmware images (R600 to R602) -/

/-- Fields of a firmware header. -/
def FwImage.f (i : FwImage) (off n : Nat) : Nat := fLe i.bytes off n
def FwImage.bodyLen (i : FwImage) : Nat := i.f 12 4
def FwImage.svn (i : FwImage) : Nat := i.f 8 2
def FwImage.key (i : FwImage) : Nat := i.f 64 1
def FwImage.body (i : FwImage) : List Byte := slice i.bytes 256 i.bodyLen

/-- Why the Boot ROM does not accept an image, by the causes of R676: 1 MAGIC or BODY_LEN, 2 key, 3 signature, 4 body hash, 5 SVN. -/
def FwImage.refusal (i : FwImage) (s : Sec) (floor : Bool) : Option Nat :=
  if i.f 0 4 ≠ 0x47524F4D || i.bodyLen < 65536 || 8388608 < i.bodyLen || i.bodyLen % 4096 ≠ 0 || i.body.length ≠ i.bodyLen then some 1
  else if 3 < i.key || s.revoked.getLsbD i.key then some 2
  else if !Config.ecdsaOk (Config.romKey i.key) (slice i.bytes 128 96) (Config.sha384 (i.bytes.take 128)) then some 3
  else if Config.sha384 i.body ≠ BitVec.ofNat 384 (fBe i.bytes 16 48) then some 4
  else if floor && i.svn < s.fwFloor then some 5
  else none

/-- The firmware in a flash slot, and its boot-try count: 0 A, 1 B. -/
def Boot.slot (b : Boot) (k : Nat) : FwImage := if k = 0 then b.slotA else b.slotB
def Boot.tries (b : Boot) (k : Nat) : Nat := if k = 0 then b.tryA else b.tryB

/-- One more try of a slot. -/
def Boot.tried (b : Boot) (k : Nat) : Boot := if k = 0 then { b with tryA := b.tryA + 1 } else { b with tryB := b.tryB + 1 }

/-- Why a slot is passed over (R602). -/
def State.slotFault (s : State) (k : Nat) : Option Nat :=
  match (s.boot.slot k).refusal s.sec true with
  | some c => some c
  | none => if 3 ≤ s.boot.tries k then some 6 else none

/-- The Groom firmware starts (R602, R604): slot 0 A, 1 B, 2 download. It records the entry into BOOT and the slots passed over, and serves the
mailboxes. -/
def startFirmware (slot : Nat) (i : FwImage) (s : State) : State :=
  let b := { s.boot with fwRunning := true, runSlot := slot, fwSvn := i.svn, fwBuild := BitVec.ofNat 16 (i.f 6 2), fwKey := i.key }
  let s1 := { s with boot := b }
  let s2 := match s1.node.bootFrom with
    | some (old, cause) =>
      logEvent 0x0101 sevNotice [byte old, byte NodeState.boot.code, byte cause, 0] { s1 with node := { s1.node with bootFrom := none } }
    | none => s1
  let s3 := s2.boot.passed.foldl (fun s p => logEvent 0x0F02 sevError [byte p.1, byte p.2, byte (s.boot.tries p.1)] s) s2
  (List.range 16).foldl (fun s m => endUnknown m s) s3

/-! ## Tack banks and commit records (R611, R612, R616) -/

/-- The newer valid commit record, and the other. -/
def TackStore.newer (t : TackStore) : Option CommitRec :=
  match t.rec0, t.rec1 with
  | some a, some b => if a.seq < b.seq then some b else some a
  | some a, none => some a
  | none, r => r
def TackStore.older (t : TackStore) : Option CommitRec :=
  match t.rec0, t.rec1 with
  | some a, some b => if a.seq < b.seq then some a else some b
  | _, _ => none

/-- The staging bank: the one the newer commit record does not name (log entry 30: bank 0 where there is none). -/
def TackStore.stageBank (t : TackStore) : Nat := match t.newer with | some r => 1 - r.bank | none => 0

/-- A bank. -/
def TackStore.bank (t : TackStore) (k : Nat) : Bank := if k = 0 then t.bank0 else t.bank1

/-- Write a bank. -/
def TackStore.setBank (t : TackStore) (k : Nat) (b : Bank) : TackStore := if k = 0 then { t with bank0 := b } else { t with bank1 := b }

/-- The bytes of a bank on the dies in service: die 0's, else die 1's. -/
def State.bankBytes (s : State) (k : Nat) : List Byte := if s.dieBad 0 then (s.tack.bank k).die1 else (s.tack.bank k).die0

/-- Write a bank on the dies in service (R45, R611). -/
def putBank (k : Nat) (f : List Byte → List Byte) (s : State) : State :=
  let b := s.tack.bank k
  { s with tack := s.tack.setBank k { die0 := if s.dieBad 0 then b.die0 else f b.die0, die1 := if s.dieBad 1 then b.die1 else f b.die1 } }

/-- The bytes of a bank as a commit record's image, from the die whose SHA-256 is the record's; the failing copy is rewritten (R616). -/
def readCommitted (r : CommitRec) (s : State) : Option (List Byte) × State :=
  let b := s.tack.bank r.bank
  let a0 := b.die0.take r.length
  let a1 := b.die1.take r.length
  let good0 := !s.dieBad 0 && a0.length = r.length && tackFp a0 = r.fp
  let good1 := !s.dieBad 1 && a1.length = r.length && tackFp a1 = r.fp
  if good0 then (some a0, s)
  else if good1 then (some a1, if s.dieBad 0 then s else { s with tack := s.tack.setBank r.bank { b with die0 := b.die1 } })
  else (none, s)

/-- Write the commit record that names a bank: the two are written alternately (R612); the MACsec keys of the image go into embedded MRAM (R620). -/
def writeCommit (bank : Nat) (flash : Bool) (t : Tack) (s : State) : State :=
  let n := s.tack.newer
  let r : CommitRec := { seq := (n.map CommitRec.seq).getD 0 + 1, bank := bank, fromFlash := flash, length := t.length, fp := t.fp }
  let st := if n.isSome && n = s.tack.rec0 then { s.tack with rec1 := some r } else { s.tack with rec0 := some r }
  { s with tack := st, sec := { s.sec with macKeys := t.params.filter (fun p => p.sec = 7) } }

/-- The newest commit's COMMIT_SEQ. -/
def State.commitSeq (s : State) : Nat := (s.tack.newer.map CommitRec.seq).getD 0

/-- TACK_COMMITTED: source 1 host, 2 flash (R627). -/
def saidCommitted (t : Tack) (source : Nat) (s : State) : State :=
  logEvent 0x0201 sevNotice (le 8 s.commitSeq ++ fpHead t.fp ++ le 2 t.svn ++ [byte source]) s

/-- TACK_INVALID of a source (R627, R676). -/
def saidInvalid (source : Nat) (x : Bad) (s : State) : State :=
  logEvent 0x0202 sevError ([byte source, byte x.code] ++ le 2 x.si ++ le 4 x.off ++ le 2 x.pid) s

/-- An image has failed: said, and remembered by its fingerprint (R616). -/
def imageFailed (source : Nat) (fp : BitVec 256) (x : Bad) (s : State) : State :=
  saidInvalid source x { s with tack := { s.tack with failed := s.tack.failed ++ [fp] } }

/-- The image that a byte string of the flash tack area starts with: its LENGTH bytes; none where there is no MAGIC. -/
def flashImage (b : List Byte) : Option (List Byte) := if imgMagic b = 0x5441434B && b.length ≠ 0 then some (b.take (imgLength b)) else none

/-! ## Selection (R616) -/

/-- What trying a source gave: an image to activate, or the code of its failure. -/
inductive Tried where
  | absent
  | bad (code : Nat)
  | good (t : Tack)
  deriving DecidableEq, Repr

/-- Try the bank of a commit record: SHA-256 comparison (a mismatch is taken as code 2), then checks 1 to 6. -/
def tryBank (source : Nat) (r : Option CommitRec) (s : State) : Tried × State :=
  match r with
  | none => (.absent, s)
  | some c =>
    let x := readCommitted c s
    match x.1 with
    | none => (.bad 2, imageFailed source c.fp { code := 2 } x.2)
    | some b => match validate x.2 c.length b with
      | some e => (.bad e.code, imageFailed source c.fp e x.2)
      | none => (.good (tackOf b), x.2)

/-- An image from flash goes into the bank that the newer record does not name, with a commit record (R616). -/
def commitFlash (b : List Byte) (s : State) : State :=
  let k := s.tack.stageBank
  let t := tackOf b
  let s1 := writeCommit k true t (putBank k (fun _ => b) s)
  logEvent 0x0204 sevNotice (fpHead t.fp) (saidCommitted t 2 { s1 with tack := { s1.tack with stage := .empty, staged := 0, total := 0 } })

/-- Try the flash tack area. -/
def tryFlash (s : State) : Tried × State :=
  match flashImage s.tack.flash with
  | none => (.absent, s)
  | some b => match validate s (imgLength b) b with
    | some e => (.bad e.code, imageFailed 4 (tackFp b) e s)
    | none => (.good (tackOf b), commitFlash b s)

/-- BOOT: source, slot, firmware version, SVN, ms to READY or HELD (R627). -/
def saidBoot (ms : Nat) (s : State) : State :=
  logEvent 0x0F01 sevNotice ([byte (if s.boot.runSlot = 2 then 2 else 1), byte s.boot.runSlot] ++ le 4 s.fwVersion ++ le 2 s.boot.fwSvn ++ le 4 ms) s

/-- An image takes effect and the node enters READY (R44, R616). -/
def goReady (t : Tack) (s : State) : State := enterReady true 7 (activate t s)

/-- The node stays in, or enters, HELD for want of an image: HELD_CAUSE 1 where no source held one (R616). -/
def goHeld (held : Bool) (s : State) : State := enterHeld (if held then 2 else 1) (if held then 5 else 4) s

/-- The sources in their order (R616). -/
def selectTack (s : State) : State :=
  let a := tryBank 2 s.tack.newer s
  match a.1 with
  | .good t => goReady t a.2
  | _ =>
    let b := tryBank 3 a.2.tack.older a.2
    match b.1 with
    | .good t =>
      let code := match a.1 with | .bad c => c | _ => 0
      let s1 := { b.2 with tack := { b.2.tack with fallback := true } }
      goReady t (logEvent 0x0203 sevError (le 8 ((s1.tack.older.map CommitRec.seq).getD 0) ++ [byte code]) s1)
    | _ =>
      let f := tryFlash b.2
      match f.1 with
      | .good t => goReady t f.2
      | r => goHeld (decide (a.1 ≠ .absent ∨ b.1 ≠ .absent ∨ r ≠ .absent)) f.2

/-! ## Staging and commit (R611, R613) -/

/-- The staged bytes. -/
def State.stagedBytes (s : State) : List Byte := (s.bankBytes s.tack.stageBank).take s.tack.staged

/-- Validate the staged image (R610): STATE follows where it is complete. -/
def validateStaged (s : State) : Option Bad × State :=
  let v := validate s s.tack.total s.stagedBytes
  let st : StageState := if s.tack.stage = .empty || s.tack.stage = .part then s.tack.stage else if v.isNone then .valid else .invalid
  (v, { s with tack := { s.tack with stage := st } })

/-- Step 1 of R613: an image that has passed since its last chunk is judged by R529 alone. -/
def commitCheck (s : State) : Option Bad × State :=
  if s.tack.stage = .valid then
    let m := imgOf s.stagedBytes
    match firstPlace (badSealed s.log.sealedHeld m) with
    | some p => (some { code := 6, si := p.si, off := p.off, pid := p.pid }, s)
    | none => (match over529 s.log.sealedHeld m with
      | .no => none
      | .there p => some { code := 6, si := p.si, off := p.off, pid := p.pid }
      | .nowhere => some { code := 6 }, s)
  else validateStaged s

/-- NODE_FP of the staged image where it validates. -/
def State.stageFp (s : State) : Option (BitVec 256) := if (commitCheck s).1.isNone then some (nodeFp (sectionsOf s.stagedBytes)) else none

/-- Check 7 (R433): every other chip has said that its staged image validates with the same NODE_FP. -/
def State.peersAgree (s : State) : Bool :=
  s.carriers.all (fun l => s.red.stages.any (fun e => e.1 = s.linkChip l && e.2.isSome && e.2 = s.stageFp))

/-- TACK_COMMIT takes effect (R613, R615): validation, then it waits for the cycles to end. -/
def effTackCommit (a : List Byte) (r : Option AcsRef) (s : State) : State :=
  if s.tack.commitOn then finish r stBusy [] s else
  let v := commitCheck s
  match v.1 with
  | some x => finish r stDenied (resultBytes (some x)) (saidInvalid 1 x v.2)
  | none =>
    if !v.2.peersAgree then finish r stDenied (resultBytes (some { code := 7 })) (saidInvalid 1 { code := 7 } v.2)
    else
      let tk := { v.2.tack with commitOn := true, committing := r, commitArg := fLe a 0 1 }
      { v.2 with tack := tk, wr := { v.2.wr with hold := false } }

/-- The answer of a TACK_COMMIT that has taken effect: COMMIT_SEQ and TACK_FP (R625). -/
def State.commitAnswer (s : State) (t : Tack) : List Byte := le 8 s.commitSeq ++ zeros 8 ++ fpBytes t.fp

/-- Step 3 of R613: the commit record is written and verified; verified: a die's bank reads back as TACK_FP. -/
def commitNow (verified : Bool) (s : State) : State :=
  let b := s.stagedBytes
  let t := tackOf b
  let k := s.tack.stageBank
  let r := s.tack.committing
  let s1 := writeCommit k false t s
  let s2 := { s1 with tack := { s1.tack with stage := .empty, staged := 0, total := 0 } }
  if !verified then
    let s3 := finish r stMedia [] { s2 with tack := { s2.tack with commitOn := false, committing := none } }
    if s3.node.state = .held then { s3 with node := { s3.node with heldCause := 2 } } else enterHeld 2 5 s3
  else
    let s3 := saidCommitted t 1 s2
    let ans := s3.commitAnswer t
    if s3.node.state = .held then
      let s4 := { s3 with tack := { s3.tack with commitOn := false, committing := none }, node := { s3.node with startArg := s3.tack.commitArg } }
      finish r stOk ans (goReady t s4)
    else
      let s4 := finish r stOk ans (restamp t.fp s3)
      let s5 := { s4 with tack := { s4.tack with committing := none }, node := { s4.node with startNext := s4.tack.commitArg, removal := some .commit } }
      announceBypass s5

end Sys2Proof.Machine
end

