-- ==== Sys2Proof/Machine/Boot.lean ====
section
/-! DEFINITION. The meanings of the start-up rows and of the TACK commands (15_boot_tack_protection.md). -/
namespace Sys2Proof.Machine

/-! ## Firmware (R599 to R604) -/

/-- FIRMWARE_LOAD_DONE: the preferred slot first; a slot that fails is passed over (R602). Under BOOT_MODE 0b10 flash is not read. -/
def execFirmwareLoadDone (s : State) : Out :=
  .next (if !s.alive || s.node.state ≠ .boot || !s.pwr.pllLocked || s.boot.fwRunning || s.boot.mode = 2 then s else
    let first := if s.boot.preferB then 1 else 0
    let order := [first, 1 - first]
    match order.find? (fun k => (s.slotFault k).isNone) with
    | some k =>
      let passed := ((order.takeWhile (fun j => j ≠ k)).map (fun j => (j, (s.slotFault j).getD 0)))
      startFirmware k (s.boot.slot k) { s with boot := { s.boot.tried k with passed := passed } }
    | none => { s with boot := { s.boot with passed := order.map (fun j => (j, (s.slotFault j).getD 0)) } })

/-- DL_STATUS that a refusal of R602 gives (R603). -/
def dlCode (cause : Nat) : Nat := match cause with | 2 => 0x12 | 3 => 0x12 | 5 => 0x13 | _ => 0x11

/-- DL_LOAD: LOAD is written; the image is fetched by DMA, or the fetch fails; a valid one starts (R603). -/
def execDlLoad (image : List Byte) (dmaOk : Bool) (s : State) : Out :=
  .next (if !s.alive || !s.host.pcieUp then s else
    let set (n : Nat) : State := { s with boot := { s.boot with dlStatus := n } }
    if s.boot.fwRunning || s.boot.mode = 0 || s.boot.mode = 3 || s.node.state ≠ .boot then set 0x10
    else if !dmaOk || !s.host.master then set 0x14
    else
      let i : FwImage := { bytes := image.take s.boot.dlLen.toNat }
      match i.refusal s.sec true with
      | some c => set (dlCode c)
      | none => startFirmware 2 i (set 0x02))

/-! ## Selection (R616) -/

/-- TACK_SELECT: the sources are tried in order; ms is the time from reset release that the BOOT record gives (R627). -/
def execTackSelect (ms : Nat) (s : State) : Out :=
  .next (if !s.logs || s.node.state ≠ .boot then s else saidBoot ms (selectTack s))

/-- HELD_FLASH_POLL: what the flash tack area holds now; an image whose fingerprint has not failed since BOOT is tried (R616). -/
def execHeldFlashPoll (image : List Byte) (s : State) : Out :=
  .next (if !s.logs || s.node.state ≠ .held || s.tack.commitOn then s else
    let s1 := { s with tack := { s.tack with flash := image } }
    match flashImage image with
    | none => s1
    | some b =>
      if s1.tack.failed.contains (tackFp b) then s1
      else
        let f := tryFlash s1
        match f.1 with
        | .good t => goReady t f.2
        | _ => f.2)

/-! ## TACK commands (R611 to R615, R625, R626) -/

/-- TACK_STAGE: a chunk into the staging bank. -/
def execTackStage (c : Acs) (s : State) : Out :=
  .next (acs 0x0200 inServing c (fun s =>
    let off := c.arg 0 4
    let total := c.arg 4 4
    let n := c.args.length - 8
    let tk := s.tack
    if c.args.length < 9 || 4072 < c.args.length then done c 0x0200 stBadLength [] s
    else if total = 0 || 16777216 < total || total < off + n || (off ≠ 0 && (off ≠ tk.staged || total ≠ tk.total)) then done c 0x0200 stBadArg [] s
    else if tk.commitOn then done c 0x0200 stBusy [] s
    else
      let s1 := putBank tk.stageBank (fun b => b.take off ++ c.args.drop 8) s
      done c 0x0200 stOk (le 4 (off + n)) { s1 with tack := { s1.tack with
        staged := off + n, total := total, stage := if off + n = total then .complete else .part } }) s)

/-- TACK_VALIDATE. -/
def execTackValidate (c : Acs) (s : State) : Out :=
  .next (acsLen 0x0201 inServing 0 c (fun s =>
    if s.tack.commitOn then done c 0x0201 stBusy [] s else
    let v := validateStaged s
    done c 0x0201 (if v.1.isNone then stOk else stDenied) (resultBytes v.1 ++ fpBytes (tackFp s.stagedBytes)) v.2) s)

/-- This chip's staging, as the node's other chips are told it before a TACK_COMMIT (R433; log entry 31). -/
def stageReport (s : State) : List Byte :=
  match s.stageFp with
  | some fp => [2, byte s.node.chipIndex, 1] ++ fpBytes fp
  | none => [2, byte s.node.chipIndex, 0] ++ zeros 32

/-- TACK_COMMIT: node-wide (R432); JTAG open, it may not run (R623). -/
def execTackCommit (c : Acs) (s : State) : Out :=
  .next (acsLen 0x0202 inServing 4 c (badArgIf (decide (3 < c.arg 0 1) || c.nonZero 1 3) 0x0202 c (fun s =>
    if s.sec.jtagOpen then done c 0x0202 stWrongState [] s
    else if s.tack.commitOn then done c 0x0202 stBusy [] s
    else nodeWide 0x0202 c (effTackCommit c.args) (tugAll .mgmt 0x03 (stageReport s) s))) s)

/-- TACK_COMMIT_ACTIVATE: no cycle and no retain write runs any more; the image is committed (R613 to R615). -/
def execTackCommitActivate (verified : Bool) (s : State) : Out :=
  .next (if !s.alive || !s.tack.commitOn || s.node.removal.isSome || !s.cyclesEnded || s.ctl.tasks.any (fun e => e.2.writing.isSome) then s
    else commitNow verified s)

/-- A bank's bytes with the values of its MACSEC section zeroed (R620). -/
def hideKeys (b : List Byte) : List Byte :=
  let secs := numbered (sectionsOf b)
  ((secs.map (fun e => if e.2.typ = 7 then (sectionEntries e.1 e.2).map (fun x => (e.2.off + x.off + 8, x.val.length)) else [])).flatten.foldl
    (fun d p => putSlice d p.1 (zeros p.2)) b).take b.length

/-- TACK_READ: bytes past what the bank holds read 0 (log entry 32). -/
def execTackRead (c : Acs) (s : State) : Out :=
  .next (acsLen 0x0203 inServing 12 c (fun s =>
    let off := c.arg 4 4
    let n := c.arg 8 4
    badArgIf (decide (1 < c.arg 0 1) || c.nonZero 1 3 || n = 0 || decide (4064 < n) || decide (16777216 < off + n)) 0x0203 c (fun s =>
      let k := if c.arg 0 1 = 1 then s.tack.stageBank else 1 - s.tack.stageBank
      let held := if c.arg 0 1 = 1 then s.stagedBytes else (match s.tack.newer with | some r => (s.bankBytes k).take r.length | none => [])
      done c 0x0203 stOk ((slice (hideKeys held) off n ++ zeros n).take n) s) s) s)

/-- TACK_STATUS. -/
def execTackStatus (c : Acs) (s : State) : Out :=
  .next (acsLen 0x0204 inServing 0 c (fun s =>
    let head := match s.tack.newer with
      | some r =>
        let t := tackOf ((s.bankBytes r.bank).take r.length)
        le 8 r.seq ++ le 4 r.length ++ le 2 t.svn ++ le 2 (flag r.fromFlash 0 + flag s.tack.fallback 1) ++ fpBytes r.fp ++ fpBytes t.nodeFp
      | none => zeros 14 ++ le 2 (flag s.tack.fallback 1) ++ zeros 64
    done c 0x0204 stOk (head ++ [byte s.tack.stage.code, 0, 0, 0] ++ le 4 s.tack.staged ++ le 4 s.tack.total ++ zeros 4) s) s)

end Sys2Proof.Machine
end

