-- ==== Sys2Proof/Machine/Legacy.lean ====
section
/-! DEFINITION. Events and commands of the MVB and WTB line units (11_legacy_lines.md). -/
namespace Sys2Proof.Machine

/-! ## Bus administrator (R477 to R479) -/

/-- The poll table's entries. -/
def State.pollTable (s : State) (u : Nat) : List Nat := (records (s.sectionOf 0x17 u) 4).map leNat

/-- The number of the basic period that starts now, counted from train time 0 (R477, R314). -/
def State.basicPeriod (s : State) (u : Nat) : Nat := s.trainNow / (s.basicMs u * 1000000 * ttNs)

/-- A poll table entry is due in a basic period. -/
def pollDue (n e : Nat) : Bool := n % 2 ^ bits e 19 16 = bits e 29 20

/-- Answer a master frame that names a SOURCE port with its data (R480). -/
def answerPort (u addr : Nat) (s : State) : State :=
  match s.legRec u addr with
  | some r => if legKind r = 1 && !(s.legUnit u).reloading then legSlave u (fLe r 3 1) (le 2 addr ++ s.legData u addr r) s else s
  | none => s

/-- One poll: the master frame, and this node's own answer where it holds the SOURCE port. -/
def pollOne (u : Nat) (s : State) (e : Nat) : State :=
  let addr := bits e 11 0
  let own := (s.legRec u addr).elim false (fun r => legKind r = 1)
  let s1 := legMaster u (bits e 15 12) addr s
  if own then answerPort u addr s1 else setLeg u (fun x => { x with polls := x.polls ++ [addr] }) s1

/-- MVB_BASIC_PERIOD: the administrator polls every entry due in table order, runs event arbitration, and lets the devices found in it, itself
among them, send their messages (R477). err: the poll table has a parity error and the polls are skipped (R489). -/
def execMvbBasicPeriod (unit : Nat) (events : List Nat) (err : Bool) (s : State) : Out :=
  .next (
    if 2 ≤ unit || !(s.legUnit unit).master || s.legRole unit ≠ 2 then s
    else
      let s1 := if err then legReload unit s else s
      let due := if (s1.legUnit unit).reloading then [] else (s1.pollTable unit).filter (pollDue (s.basicPeriod unit))
      let s2 := due.foldl (pollOne unit) (setLeg unit (fun x => { x with polls := [] }) s1)
      let s3 := legMaster unit 9 0 s2
      let s4 := events.foldl (fun s d => legMaster unit 12 d s) s3
      if (s4.legUnit unit).sendq.isEmpty then s4 else sendMessage unit (legMaster unit 12 (s.devAddr unit) s4))

/-- MVB_MASTER_FRAME_RECEIVE: answered where it names this device or one of its ports; another administrator's frame ends own mastership
(R479, R480). a, b: what each line delivers. -/
def execMvbMasterFrameReceive (unit : Nat) (m : MvbMaster) (a b : LineRx) (s : State) : Out :=
  .next (
    if 2 ≤ unit || !s.legHears unit then s else
    let r := legLines unit a b s
    if r.1.isNone then r.2 else
    let s1 := if (r.2.legUnit unit).master then loseMaster unit 3 r.2 else r.2
    if s1.legRole unit = 0 then s1 else
    match m with
    | .process _ addr => answerPort unit addr s1
    | .event f => if (s1.legUnit unit).sendq.isEmpty then s1 else legSlave unit f (le 2 (s.devAddr unit)) s1
    | .message d => if d = s.devAddr unit then sendMessage unit s1 else s1
    | .status d => if d = s.devAddr unit then useFree (legSlave unit 15 (Config.frameBody s1.freeIdx) s1) else s1
    | .transfer d =>
      if d = s.devAddr unit && s1.legRole unit = 2 then takeMaster unit (useFree (legSlave unit 15 (Config.frameBody s1.freeIdx) s1))
      else s1)

/-- MVB_SLAVE_FRAME_RECEIVE: a SINK port's data, or a message data packet (R480, R493, R502). err: 1 a parity error in the named SINK port,
2 one in the records (R489). -/
def execMvbSlaveFrameReceive (unit : Nat) (f : MvbSlave) (a b : LineRx) (err : Nat) (s : State) : Out :=
  .next (
    if 2 ≤ unit || !s.legHears unit then s else
    let s0 := if err = 2 then legReload unit s
      else if err = 1 then (match f with
        | .process addr _ => legParity unit 1 1 (setPort unit addr (fun p => { p with data := [], bad := true }) s)
        | _ => s)
      else s
    let r := legLines unit a b s0
    match r.1, f with
    | some lb, .process addr data =>
      let s1 := setLeg unit (fun x => { x with polls := x.polls.erase addr }) r.2
      let c := legCapture unit addr lb data s1
      if c.1 then exportPort unit addr data c.2 else c.2
    | some _, .message src dst data => if dst = s.devAddr unit then takeMessage unit src dst data r.2 else r.2
    | _, _ => r.2)

/-- MVB_REPLY_TIMEOUT: a poll without reply (R486). -/
def execMvbReplyTimeout (unit addr : Nat) (s : State) : Out :=
  .next (if (s.legUnit unit).polls.contains addr then
    count (statLegacy unit 5) (setLeg unit (fun x => { x with polls := x.polls.erase addr }) s) else s)

/-- BA_SILENCE_EXPIRY: no master frame for BA_SILENCE (R479). -/
def execBaSilenceExpiry (unit : Nat) (s : State) : Out :=
  .next (if 2 ≤ unit || s.legRole unit ≠ 2 || (s.legUnit unit).master then s else takeMaster unit s)

/-- MASTERSHIP_TURN_END: mastership passes to the next device of BA_LIST (R479). -/
def execMastershipTurnEnd (unit : Nat) (s : State) : Out :=
  .next (
    if 2 ≤ unit || !(s.legUnit unit).master then s else
    let l := s.baList unit
    let i := l.findIdx (fun x => x = s.devAddr unit)
    let nxt := (l[(i + 1) % max 1 l.length]?).getD (s.devAddr unit)
    if nxt = s.devAddr unit then s else loseMaster unit 2 (legMaster unit 16 nxt s))

/-- LINE_DISTURB_RESTORE: 1 s without errors on a disturbed line (R481). -/
def execLineDisturbRestore (unit : Nat) (line : Line) (s : State) : Out :=
  .next (
    let x := s.legUnit unit
    if !(if line = .a then x.badA else x.badB) then s
    else lineSaid unit line 2 (setLeg unit (fun x =>
      if line = .a then { x with badA := false, errsA := [] } else { x with badB := false, errsB := [] }) s))

/-! ## WTB (R482, R483) -/

/-- The node's own source port on the WTB. -/
def wtbAnswer (s : State) : State :=
  match s.legRec 2 0 with
  | some r => if legKind r = 1 && !(s.legUnit 2).reloading then legSlave 2 0 (s.legData 2 0 r) s else s
  | none => s

/-- WTB_FRAME_RECEIVE: process data of a node, the master's poll, message data, inauguration (R482). -/
def execWtbFrameReceive (f : WtbFrame) (a b : LineRx) (s : State) : Out :=
  .next (
    if !s.legHears 2 then s else
    let r := legLines 2 a b s
    match r.1, f with
    | some lb, .process src data =>
      let c := legCapture 2 src lb data r.2
      if c.1 then exportPort 2 src data c.2 else c.2
    | some _, .poll =>
      if r.2.legRole 2 = 0 then r.2
      else sendMessage 2 (wtbAnswer r.2)
    | some _, .message src dst data => if dst = (s.legUnit 2).own then takeMessage 2 src dst data r.2 else r.2
    | some _, .inauguration =>
      if r.2.legRole 2 = 0 then r.2 else useFree (legSlave 2 16 (Config.frameBody r.2.freeIdx) r.2)
    | none, _ => r.2)

/-- WTB_INDIVIDUAL_PERIOD: as WTB master the unit sends its own process data and polls every other node (R482). -/
def execWtbIndividualPeriod (s : State) : Out :=
  .next (
    let x := s.legUnit 2
    if s.legRole 2 = 0 || x.comp.isEmpty || x.masterAddr ≠ x.own then s
    else (x.comp.filter (fun n => n.addr ≠ x.own)).foldl (fun s n => legSlave 2 1 [byte n.addr] s) (sendMessage 2 (wtbAnswer s)))

/-- WTB_INAUGURATED: the composition as the inauguration leaves it, own and master address, and on which lines there is no neighbour (R482,
R483). -/
def execWtbInaugurated (comp : List WtbNode) (own master : Nat) (endA endB : Bool) (s : State) : Out :=
  .next (
    if !s.legHears 2 then s else
    let s1 := setLeg 2 (fun x => { x with comp := comp, own := own, masterAddr := master, endA := endA, endB := endB, changeTick := s.now }) s
    wtbEnds (raise .legacy 2 (logEvent 0x0C03 sevNotice [byte comp.length, byte own, byte master] (count (statLegacy 2 8) s1))))

/-- LEGACY_RELOAD_DONE: records and poll table are back (R489). -/
def execLegacyReloadDone (unit : Nat) (s : State) : Out :=
  .next (setLeg unit (fun x => { x with reloading := false }) s)

/-! ## Commands (R493) -/

/-- LEGACY_STATUS. -/
def execLegacyStatus (c : Acs) (s : State) : Out :=
  .next (acsLen 0x0C00 inLineStates 4 c (fun s =>
    let u := c.arg 0 1
    badArgIf (u > 2 || c.nonZero 1 3) 0x0C00 c (fun s =>
      let x := s.legUnit u
      let own := s.owner
      done c 0x0C00 stOk ([byte (s.legRole u),
        byte (b01 own + flag x.master 1 + flag x.trustB 2 + flag x.badA 3 + flag x.badB 4 + flag x.inhibit 5),
        byte x.comp.length, 0] ++ le 8 x.changeTick ++ zeros 4) s) s) s)

/-- A LEGACY command on a port that the unit holds. -/
def onPort (c : Acs) (opcode : Nat) (body : List Byte → State → State) (s : State) : State :=
  match (if c.arg 0 1 > 2 || c.nonZero 1 1 then none else s.legRec (c.arg 0 1) (c.arg 2 2)) with
  | none => done c opcode stBadArg [] s
  | some r => body r s

/-- LEGACY_PORT_READ. -/
def execLegacyPortRead (c : Acs) (s : State) : Out :=
  .next (acsLen 0x0C01 inLineStates 4 c (onPort c 0x0C01 (fun r s =>
    done c 0x0C01 stOk (s.legHeader (c.arg 0 1) (c.arg 2 2) r ++ s.legData (c.arg 0 1) (c.arg 2 2) r) s)) s)

/-- LEGACY_PORT_WRITE's effect on every chip. -/
def effLegacyPortWrite (a : List Byte) (r : Option AcsRef) (s : State) : State :=
  finish r stOk [] (legCommit (fLe a 0 1) (fLe a 2 2) (a.drop 4) s)

/-- LEGACY_PORT_WRITE. -/
def execLegacyPortWrite (c : Acs) (s : State) : Out :=
  .next (acs 0x0C02 inLineStates c (fun s =>
    if c.args.length < 4 then done c 0x0C02 stBadLength [] s
    else onPort c 0x0C02 (fun r s =>
      if legKind r ≠ 1 || legOwner r ≠ 0 then done c 0x0C02 stWrongState [] s
      else if c.args.length ≠ 4 + legSize (c.arg 0 1) r then done c 0x0C02 stBadLength [] s
      else nodeWide 0x0C02 c (effLegacyPortWrite c.args) s) s) s)

/-- LEGACY_COMPOSITION. -/
def execLegacyComposition (c : Acs) (s : State) : Out :=
  .next (acsLen 0x0C03 inLineStates 0 c (fun s =>
    let x := s.legUnit 2
    if s.legRoleSet 2 = 0 then done c 0x0C03 stWrongState [] s
    else done c 0x0C03 stOk ([byte x.comp.length, byte x.own, 0, 0]
      ++ x.comp.flatMap (fun n => [byte n.addr, byte n.orient] ++ leInt 1 n.pos ++ [0])) s) s)

/-- LEGACY_MSG_SEND's effect on every chip: the owner queues the packet. -/
def effLegacyMsgSend (a : List Byte) (r : Option AcsRef) (s : State) : State :=
  finish r stOk [] (queueMessage (fLe a 0 1) (fLe a 2 2) (a.drop 4) s)

/-- LEGACY_MSG_SEND. -/
def execLegacyMsgSend (c : Acs) (s : State) : Out :=
  .next (acs 0x0C04 inLineStates c (fun s =>
    if c.args.length < 5 || decide (260 < c.args.length) then done c 0x0C04 stBadLength [] s
    else badArgIf (c.arg 0 1 > 2 || c.nonZero 1 1) 0x0C04 c (nodeWide 0x0C04 c (effLegacyMsgSend c.args)) s) s)

/-- LEGACY_MSG_RECV. -/
def execLegacyMsgRecv (c : Acs) (s : State) : Out :=
  .next (acsLen 0x0C05 inLineStates 4 c (fun s =>
    let u := c.arg 0 1
    badArgIf (u > 2 || c.nonZero 1 3) 0x0C05 c (fun s =>
      match (s.legUnit u).queue with
      | [] => done c 0x0C05 stOk (zeros 4) s
      | m :: rest => done c 0x0C05 stOk (le 2 m.peer ++ le 2 m.data.length ++ m.data)
          (setLeg u (fun x => { x with queue := rest }) s)) s) s)

end Sys2Proof.Machine
end

