-- ==== Sys2Proof/Machine/Stream.lean ====
section
/-! DEFINITION. The Stream unit's events and commands (06_streams.md); frames that come for a context. -/
namespace Sys2Proof.Machine

/-- STREAM_SNAPSHOT: SNAP_LEAD before a publication instant (R285, R288). err: 0 none, else a parity error in 1 the record, 2 the payload,
3 a copy of the generator, 4 the safe-value table (R301). -/
def execStreamSnapshot (ctx err : Nat) (s : State) : Out :=
  .next (match s.ctx? ctx with
    | none => s
    | some c =>
      if !s.publishes c then s else
      let s1 := if err = 0 then s else ctxParity ctx (if err = 2 then 2 else 1) s
      let s2 := if err = 3 then setCtx ctx (fun c => { c with seqTwin := c.seqGen }) s1
        else if err = 1 then setCtx ctx (fun c => { c with reloading := true }) s1 else s1
      bumpSeq ctx (if err = 1 || err = 2 || c.reloading then skipSnapshot ctx s2 else snapshot ctx c s2))

/-- FRESH_TIMEOUT_EXPIRY: no frame accepted for FRESH_TIMEOUT, the context is LOST (R295, R296). -/
def execFreshTimeoutExpiry (ctx : Nat) (s : State) : Out :=
  .next (match s.ctx? ctx with
    | none => s
    | some c =>
      if !s.node.state.inLine || c.role ≠ 2 || !c.enabled || c.suspended || c.fresh = .lost then s else
      let nid := (c.acc.map StreamHdr.nid).getD 0
      let s1 := count (statStream 9) (setCtx ctx (fun c =>
        { s.lostImage c with fresh := .lost, run := 0, lostTick := s.now, lostCount := min 0xFFFFFFFF (c.lostCount + 1) }) s)
      let s2 := logEvent 0x0601 sevWarning (le 2 ctx ++ le 2 c.func ++ nidBytes nid ++ [byte c.policy]) s1
      streamInhibit (if c.fresh = .fresh then raise .stream 0 s2 else s2))

/-- HOLD_PERIODS_EXPIRY: HOLD_THEN_SAFE presents the safe value (R296). -/
def execHoldPeriodsExpiry (ctx : Nat) (s : State) : Out :=
  .next (match s.ctx? ctx with
    | none => s
    | some c =>
      if c.fresh = .lost && c.holding then
        setCtx ctx (fun c => { c with holding := false, image := s.safeValue c, hdr := none }) s
      else s)

/-- SWITCH_GRACE_EXPIRY: sources of the previous generation are no longer accepted (R292). -/
def execSwitchGraceExpiry (s : State) : Out :=
  .next { s with stream := { s.stream with grace := false } }

/-- CTX_RELOAD: the record is back from the committed image; changes by command are lost (R301). -/
def execCtxReload (ctx : Nat) (s : State) : Out :=
  .next (match s.ctx? ctx with
    | none => s
    | some c =>
      if !c.reloading then s else
      let r := s.tackRecord ctx
      streamEnable ctx (if s.placedCtx { c with record := r } then c.enabled else bit (fLe r 52 4) 0)
        (setCtx ctx (fun c => { c with record := r, reloading := false, reloaded := true }) s))

/-! ## Frames for a subscriber (R294, R298, R301, R424) -/

/-- An accepted frame of a TO_HOST context goes to its HOST_RING (R298). -/
def streamToHost (n port : Nat) (c : StreamCtx) (f : Frame) (stamp : Stamp) (s : State) : State :=
  if !c.toHost then s
  else
    let v := f.vlan.getD { pcp := 0, dei := false, vid := c.vid }
    let g := s.tagFor 15 v.vid v.pcp v.dei true f
    let w : RxWait := { frame := g, tagged := g.vlan.isSome, len := frameLen f, port := port, cls := s.classOf v.pcp, handle := some n, seq := f.rtag
                        stamp := stamp, tci := v.pcp * 8192 + (if v.dei then 4096 else 0) + v.vid, cells := (frameLen f + 255) / 256
                        uid := s.sw.nextUid, since := s.now, frer := none }
    (rxOffer (c.f 26 1) w (bumpUid s)).2

/-- In Troika a line chip passes an accepted TO_TASK frame to the node's other chips (R424). -/
def passToTask (n port : Nat) (c : StreamCtx) (f : Frame) (s : State) : State :=
  if s.node.form = .troika && c.toTask then
    s.carriers.foldl (fun s l => sendSegments l port 0 (lineOfPort port).code (f.rtag.getD 0).toNat n (frameBytes f) s) s
  else s

/-- A frame meets its context: dropped under the counter of the check it fails, or accepted. err: 1 a parity error in the record; own: it came from
this chip's switch. -/
def streamReceive (n port : Nat) (f : Frame) (stamp : Stamp) (err : Nat) (own : Bool) (s : State) : State :=
  match s.ctx? n with
  | none => s
  | some c =>
    if c.role ≠ 2 || !s.node.state.inLine then s
    else if err = 1 || c.reloading then
      dropSub n 8 f (if err = 1 then ctxParity n 1 (setCtx n (fun c => { c with reloading := true }) s) else s)
    else match s.rejects c f with
      | some k => dropSub n k f s
      | none =>
        let s1 := streamToHost n port c f stamp (acceptSub n c (lineOfPort port) f s)
        streamInhibit (if own then passToTask n port c f s1 else s1)

/-- STREAM_FRAME_RECEIVE: a frame handed to a SUBSCRIBE context, with its ingress port and stamp (R294). err: 1 a parity error in the record. -/
def execStreamFrameReceive (ctx port : Nat) (frame : Frame) (stamp : Stamp) (err : Nat) (s : State) : Out :=
  .next (streamReceive ctx port frame stamp err true s)

/-- A task's latch finds a subscriber's payload in error (R301): it receives the safe-policy image with state LOST, HOLD counting as SAFE. -/
def payloadBad (n : Nat) (s : State) : State :=
  match s.ctx? n with
  | none => s
  | some _ => ctxParity n 2 (setCtx n (fun c => { c with
      image := s.safeValue c, hdr := none, fresh := .lost, lostTick := s.now, holding := false, payBad := true, run := 0 }) s)

/-! ## STREAM commands (R306 to R309) -/

/-- A STREAM command on a context: an index above 2,047 or an unused context is BAD_ARG (R306). -/
def onCtx (c : Acs) (opcode : Nat) (body : StreamCtx → State → State) (s : State) : State :=
  match (if c.arg 0 2 < 2048 then s.ctx? (c.arg 0 2) else none) with
  | none => done c opcode stBadArg [] s
  | some x => body x s

/-- STREAM_STATUS (R308). -/
def execStreamStatus (c : Acs) (s : State) : Out :=
  .next (acsLen 0x0600 inLineStates 4 c (fun s =>
    badArgIf (c.nonZero 2 2) 0x0600 c (onCtx c 0x0600 (fun x s =>
      let f := s.frer (c.arg 0 2)
      let seq := if x.role = 2 then ((x.acc.bind StreamHdr.seq).getD 0).toNat else x.seqGen.toNat
      let age := if x.countOk = 0 then 0xFFFFFFFF else min 0xFFFFFFFF ((s.now - x.lastTick) / ticksPerUs)
      done c 0x0600 stOk
        ([byte x.role, byte x.stateCode,
          byte (b01 x.enabled + flag f.silentA 1 + flag f.silentB 2 + flag x.reloaded 3), byte x.lastLine]
          ++ le 2 seq ++ le 2 (min 0xFFFF x.run) ++ wordBytes x.lastGen ++ le 4 age ++ le 8 x.lastTick ++ le 4 x.countOk
          ++ le 4 x.countDrop ++ le 4 x.lostCount ++ le 2 x.vid ++ macBytes x.da ++ zeros 4 ++ nidBytes x.src) s)) s) s)

/-- STREAM_READ (R306). -/
def execStreamRead (c : Acs) (s : State) : Out :=
  .next (acsLen 0x0601 inLineStates 4 c (fun s =>
    badArgIf (c.nonZero 2 2) 0x0601 c (onCtx c 0x0601 (fun x s => done c 0x0601 stOk x.record s)) s) s)

/-- The checks of STREAM_PUT on a context: the status it completes with (R307). -/
def putStatus (x : StreamCtx) (args : List Byte) : Nat :=
  if !x.hostSource then stWrongState
  else if fLe args 2 2 ≠ x.payLen ∨ args.length ≠ 4 + x.payLen then stBadLength
  else stOk

/-- The effects of the node-wide STREAM commands, on every chip of the node (R432). -/
def effStreamPut (a : List Byte) (r : Option AcsRef) (s : State) : State :=
  finish r stOk [] (streamPut (fLe a 0 2) (a.drop 4) s)
def effStreamLine (a : List Byte) (r : Option AcsRef) (s : State) : State :=
  finish r stOk [] (streamLine (fLe a 0 2) (fLe a 2 1) s)
def effStreamEnable (a : List Byte) (r : Option AcsRef) (s : State) : State :=
  finish r stOk [] (streamEnable (fLe a 0 2) (fLe a 2 1 = 1) s)

/-- STREAM_PUT (R307). -/
def execStreamPut (c : Acs) (s : State) : Out :=
  .next (acs 0x0602 inLineStates c (fun s =>
    if c.args.length < 4 then done c 0x0602 stBadLength [] s
    else onCtx c 0x0602 (fun x s =>
      let st := putStatus x c.args
      if st ≠ stOk then done c 0x0602 st [] s else nodeWide 0x0602 c (effStreamPut c.args) s) s) s)

/-- STREAM_GET (R309); a publisher presents no image. -/
def execStreamGet (c : Acs) (s : State) : Out :=
  .next (acsLen 0x0603 inLineStates 4 c (fun s =>
    badArgIf (c.nonZero 2 2) 0x0603 c (onCtx c 0x0603 (fun x s =>
      if x.role ≠ 2 then done c 0x0603 stWrongState [] s else
      let age := if x.acc.isNone then 0xFFFFFFFF else min 0xFFFFFFFF ((s.now - x.accTick) / ticksPerUs)
      let h := x.hdr.getD { flags := 0, seq := none, gen := 0, nid := 0, start := {} }
      done c 0x0603 stOk
        ([byte x.stateCode, byte h.flags] ++ le 2 (h.seq.getD 0).toNat ++ wordBytes h.gen ++ le 4 age
          ++ le 2 h.start.epoch.toNat ++ le 2 x.payLen ++ le 4 h.start.sec ++ le 4 h.start.ns ++ x.image) s)) s) s)

/-- STREAM_LINE (R307). -/
def execStreamLine (c : Acs) (s : State) : Out :=
  .next (acsLen 0x0604 inLineStates 4 c (fun s =>
    let m := c.arg 2 1
    badArgIf (m = 0 || m > 3 || c.nonZero 3 1) 0x0604 c (onCtx c 0x0604 (fun x s =>
      if x.role ≠ 1 then done c 0x0604 stWrongState [] s
      else if x.lineMode = 0 then done c 0x0604 stBadArg [] s
      else nodeWide 0x0604 c (effStreamLine c.args) s)) s) s)

/-- STREAM_ENABLE (R306). -/
def execStreamEnable (c : Acs) (s : State) : Out :=
  .next (acsLen 0x0605 inLineStates 4 c (fun s =>
    badArgIf (c.arg 2 1 > 1 || c.nonZero 3 1) 0x0605 c (onCtx c 0x0605 (fun x s =>
      if s.placedCtx x then done c 0x0605 stWrongState [] s else nodeWide 0x0605 c (effStreamEnable c.args) s)) s) s)

end Sys2Proof.Machine
end

