-- ==== Sys2Proof/Machine/Time.lean ====
section
/-! DEFINITION. The Time Unit's events and commands (03_time_unit.md); the Troika time base stands in Redund.lean. -/
namespace Sys2Proof.Machine

/-- gPTP runs: the node is in line (R128, R146, R148). -/
def State.gptp (s : State) : Bool := s.node.state.inLine

/-- The secondary's Sync that agrees counts towards nothing; the primary's counts towards the return (R132). -/
def countReturn (offset : Int) (s : State) : State :=
  let d := s.time.pri
  let gap := d.timeAt s.now 0 - s.selTime s.now 0
  let agrees := decide (-s.stepThreshold ≤ offset ∧ offset ≤ s.stepThreshold ∧ -s.stepThreshold ≤ gap ∧ gap ≤ s.stepThreshold)
  let n := if d.st = .locked && agrees then d.agree + 1 else 0
  let s1 := setDomain 0 (fun d => { d with agree := n }) s
  if s.time.sel = 1 && s.autoReturn && s.timeLeads && s.returnCount ≤ n then
    setDomain 0 (fun d => { d with suspect := false, agree := 0 }) (selectSlewed 0 3 s1)
  else s1

/-- What a Sync does to its domain (R128). -/
def syncDomain (i : Nat) (offset : Int) (s : State) : State :=
  let d := s.time.dom i
  let small := decide (-s.stepThreshold ≤ offset ∧ offset ≤ s.stepThreshold)
  let offNs := leInt 8 (offset / (ttNs : Int))
  match d.st with
  | .disabled => s
  | .free => if s.timeLeads then acceptStep i offset s else s
  | .locked =>
    if small then servo i s
    else
      let s1 := logEvent 0x0403 sevWarning ([byte i] ++ offNs ++ [byte (b01 (s.time.sel = i))])
        (setDomSt i .stepWait (setDomain i (fun d => { d with cand := offset, count := 1 }) s))
      if s.time.sel = i then trySwitch 1 s1 else s1
  | .holdover =>
    if small then
      logEvent 0x0401 sevInfo ([byte i] ++ nidBytes d.gmId ++ [byte d.line.code]) (servo i (setDomSt i .locked s))
    else
      let s1 := logEvent 0x0403 sevWarning ([byte i] ++ offNs ++ [byte (b01 (s.time.sel = i))])
        (setDomSt i .stepWait (setDomain i (fun d => { d with cand := offset, count := 1 }) s))
      if s.time.sel = i then trySwitch 1 s1 else s1
  | .stepWait =>
    if small then
      logEvent 0x0404 sevNotice ([byte i] ++ leInt 8 (d.cand / (ttNs : Int)) ++ le 4 d.count)
        (setDomSt i .locked (setDomain i (fun d => { d with cand := 0, count := 0 }) s))
    else if -s.stepThreshold ≤ offset - d.cand && offset - d.cand ≤ s.stepThreshold then
      let s1 := setDomain i (fun d => { d with count := d.count + 1 }) s
      if s.stepConfirm ≤ d.count + 1 && s.timeLeads then acceptStep i offset s1 else s1
    else setDomain i (fun d => { d with cand := offset, count := 1 }) s

/-- A Sync of a domain with its offset in 1/65,536 ns, received here or by another chip of the node (R128 to R132). Line B is not used while line
A carries a valid Sync (R125); a Troika chip that does not lead forwards the stamp (R145). -/
def takeSync (dom : Nat) (line : Line) (offset : Int) (s : State) : State :=
  (let i := if dom = 0 then 0 else 1
    let d := s.time.dom i
    let aValid := match d.lastA with
      | some t => decide (s.now ≤ t + s.syncTimeout * s.syncTicks)
      | none => false
    if !s.gptp || d.st = .disabled || (line = .b && aValid) then s
    else
      let s1 := setDomain i (fun d => { d with
        line := line, lastOff := offset, lastSync := s.now, lastA := if line = .a then some s.now else d.lastA }) s
      if s.node.form = .troika && !s.timeLeads then
        tugAll .sync 2 ([byte i, byte line.code] ++ leInt 8 offset) s1
      else
        let s2 := syncDomain i offset s1
        if i = 0 then countReturn offset s2 else s2)

/-- SYNC_RECEIVE: in Span the Sync is passed to the peer, whose line it is not (R143). -/
def execSyncReceive (dom : Nat) (line : Line) (offset : Int) (s : State) : Out :=
  .next (let s1 := if s.gptp && s.node.form = .span && s.usesLine line
      then tugAll .sync 2 ([byte (if dom = 0 then 0 else 1), byte line.code] ++ leInt 8 offset) s else s
    takeSync dom line offset s1)

/-- SYNC_TIMEOUT: SYNC_TIMEOUT intervals without Sync put the domain into HOLDOVER (R128, R129). -/
def execSyncTimeout (dom : Nat) (s : State) : Out :=
  .next (let i := if dom = 0 then 0 else 1
    let d := s.time.dom i
    if !s.gptp || (d.st ≠ .locked ∧ d.st ≠ .stepWait) then s
    else
      let s1 := logEvent 0x0402 sevWarning ([byte i] ++ nidBytes d.gmId)
        (setDomSt i .holdover (setDomain i (fun d => { d with count := 0, cand := 0, agree := 0, lastA := none }) s))
      if s.time.sel = i then trySwitch 2 s1 else s1)

/-- The grandmaster that the BMCA of IEEE 802.1AS-2020 elects from what a port now knows (R123). -/
def elected (dom : Nat) (gm : Nid) (own : Bool) (s : State) : State :=
  let i := if dom = 0 then 0 else 1
  if !s.gptp || (s.time.dom i).st = .disabled || (own && !s.gmCapable i) then s
  else gmChange i (if own then s.node.nid else gm) (setDomain i (fun d => { d with isGm := own }) s)

/-- ANNOUNCE_RECEIVE: an Announce feeds the BMCA; gm is the grandmaster elected then, own that this node is (R123, R128). -/
def execAnnounceReceive (dom : Nat) (gm : Nid) (own : Bool) (s : State) : Out := .next (elected dom gm own s)

/-- ANNOUNCE_TIMEOUT: without the Announces of a port the BMCA elects again (R123). -/
def execAnnounceTimeout (dom port : Nat) (gm : Nid) (own : Bool) (s : State) : Out :=
  .next (if s.portOn port then elected dom gm own s else s)

/-- A gPTP frame, its body laid out by IEEE 802.1AS-2020. -/
def State.gptpFrame (s : State) (p : Nat) : Frame :=
  { da := 0x0180C200000E#48, sa := s.portMac p, vlan := none, rtag := none, etype := 0x88F7
    payload := Config.frameBody s.freeIdx }

/-- Send a gPTP frame on a port in TC7 (R123). -/
def sendGptp (p : Nat) (s : State) : State := sendFrame p 7 (s.gptpFrame p) .groom (useFree s)

/-- ANNOUNCE_SEND: Announces leave on the master ports (R123). -/
def execAnnounceSend (dom : Nat) (ports : List Nat) (s : State) : Out :=
  .next (if !s.gptp || (s.time.dom dom).st = .disabled then s else ports.foldl (fun s p => sendGptp p s) s)

/-- SYNC_INTERVAL_TICK: Sync and Follow_Up leave on the master ports (R125); steps of TIME_SET come nearer, link corrections
move (R118, R162). -/
def execSyncIntervalTick (dom : Nat) (ports : List Nat) (s : State) : Out :=
  .next (let i := if dom = 0 then 0 else 1
    if !s.gptp || (s.time.dom i).st = .disabled then s else
    let s1 := ports.foldl (fun s p => sendGptp p (sendGptp p s)) s
    let s2 := if s.time.sel = i then moveCorrections s1 else s1
    let due := s2.time.setSteps.filter (fun x => x.dom = i && x.left ≤ 1)
    let rest := (s2.time.setSteps.filter (fun x => x.dom ≠ i || decide (1 < x.left))).map (fun x =>
      if x.dom = i then { x with left := x.left - 1 } else x)
    due.foldl (fun s x =>
      let st := (s.time.dom x.dom).st
      setDomain x.dom (fun d => { d with st := st }) (stepDomain x.dom x.step true s))
      { s2 with time := { s2.time with setSteps := rest } })

/-- PDELAY_MESSAGE_RECEIVE: on a consist port or MG0 a request (0) is answered by a response and its follow-up; a completed exchange (1, 2)
gives the link's delay (R122). -/
def execPdelayMessageReceive (port typ delay : Nat) (s : State) : Out :=
  .next (if !s.gptp || port < 4 || !s.portUp port then s
    else if typ = 0 then sendGptp port (sendGptp port s)
    else { s with time := { s.time with pdelay := s.time.pdelay.set port delay } })

/-- PDELAY_REQUEST_SEND: a peer delay request leaves on a consist port or MG0 (R122). -/
def execPdelayRequestSend (port : Nat) (s : State) : Out :=
  .next (if !s.gptp || port < 4 then s else
    sendGptp port { s with time := { s.time with gptpSeq := s.time.gptpSeq.modify port (fun n => (n + 1) % 65536) } })

/-- SLEW_TERM_RETURNS_TO_0: the slew term has been removed (R129). -/
def execSlewTermReturnsTo0 (s : State) : Out :=
  .next { s with time := { s.time with slew := 0, slewFrom := s.now } }

/-- BACKUP_COUNTER_WRITE: at a second boundary with a domain LOCKED, selected train time goes to the backup counter, whose time is then
valid (R147). -/
def execBackupCounterWrite (s : State) : Out :=
  .next (if s.alive && (s.time.pri.st = .locked || s.time.sec.st = .locked) then
      { s with time := { s.time with backValid := true, backTime := s.trainNow, backCount := 0 } }
    else s)

/-- The domain that PPS_OUT follows (R141, R159). -/
def State.ppsDomain (s : State) : Domain :=
  if s.time.ppsDom = 1 then s.time.pri else if s.time.ppsDom = 2 then s.time.sec else s.time.cur

/-- PPS_OUT at a level: its active level, or its inactive one. -/
def drivePps (active : Bool) (s : State) : State := drivePin .ppsOut (if active ≠ s.time.ppsLow then .high else .low) s

/-- PPS_OUT_PULSE (R141). -/
def execPpsOutPulse (s : State) : Out :=
  .next (let st := s.ppsDomain.st
    if s.gptp && s.time.ppsOn && (st = .locked || st = .stepWait || st = .holdover) then drivePps true s else s)

/-- PPS_OUT_PULSE_END: PPS_WIDTH after its start the pulse ends (R141). -/
def execPpsOutPulseEnd (s : State) : Out := .next (if s.alive then drivePps false s else s)

/-- TIME_SET in force for a domain: the servo, or a step sent in Sync at once and applied after STEP_CONFIRM intervals (R162). -/
def setTrainTime (i : Nat) (delta : Int) (s : State) : State :=
  if -s.stepThreshold ≤ delta && delta ≤ s.stepThreshold then servo i s
  else { s with time := { s.time with
    setSteps := s.time.setSteps.filter (fun x => x.dom ≠ i) ++ [{ dom := i, step := delta, left := s.stepConfirm }] } }

/-- PPS_IN_EDGE: a rising edge at least 100 ns long and 100 µs after the last is captured (R142, R152); it disciplines a domain of which this
node is grandmaster with GM_SOURCE PPS_IN, and applies a waiting TIME_SET (R162). -/
def execPpsInEdge (stamp : Stamp) (highNs : Nat) (s : State) : Out :=
  .next (let t := s.time
    if !s.alive || highNs < 100 || (t.ppsSeen && decide (stamp.tick < t.ppsTick + 100 * ticksPerUs)) then s
    else
      let s1 := raise .time 6 { s with time := { t with
        ppsTick := stamp.tick, ppsFrac := stamp.frac % 16, ppsOvr := t.ppsNew, ppsNew := true, ppsSeen := true
        ppsCount := (t.ppsCount + 1) % 4096 } }
      let s2 := [0, 1].foldl (fun s i =>
        if s.gptp && (s.time.dom i).isGm && s.gmSource i = 1 then servo i s else s) s1
      s2.time.setWaits.foldl (fun s w =>
        let s3 := setTrainTime w.dom ((w.value : Int) - (s.time.dom w.dom).timeAt stamp.tick stamp.frac) s
        match w.ref with
        | some r => finish (some r) stOk [] s3
        | none => s3)
        { s2 with time := { s2.time with setWaits := [] } })

/-- TIME_CHANGE_EFFECTIVE: the tick of the oldest change under way arrives and the chip applies it (R145). -/
def execTimeChangeEffective (s : State) : Out :=
  .next (match s.time.changes with
    | [] => s
    | c :: rest => applyChange c { s with time := { s.time with changes := rest } })

/-! ## TIME commands (R159 to R164) -/

/-- The node states of the TIME commands that act. -/
def State.slewing (s : State) : Bool := s.time.slewAt s.slewMax s.now ≠ 0

/-- One domain's block of TIME_STATUS (R160). -/
def State.domBlock (s : State) (i : Nat) : List Byte :=
  let d := s.time.dom i
  [byte (s.domNumber i), byte d.st.code, byte (b01 d.suspect + flag d.isGm 1 + flag (d.line = .b) 2), byte d.steps]
    ++ le 2 (if d.st = .stepWait then d.count else 0) ++ [0, 0]
    ++ (if d.st = .free then zeros 8 else nidBytes d.gmId) ++ leInt 8 d.lastOff ++ le 8 d.rate
    ++ ttBytes (d.timeAt s.now 0).toNat ++ le 4 (min 0xFFFFFFFF ((s.now - d.lastSync) / ticksPerUs))

/-- TIME_STATUS (R160). -/
def execTimeStatus (c : Acs) (s : State) : Out :=
  .next (acsLen 0x0400 inServing 0 c (fun s =>
    done c 0x0400 stOk (le 2 s.time.epoch.toNat
      ++ [byte s.time.sel, byte (b01 s.slewing + flag s.time.tbLock 1 + flag s.time.backInit 2)] ++ zeros 4 ++ le 8 s.now
      ++ s.domBlock 0 ++ s.domBlock 1) s) s)

/-- The effect of TIME_SELECT: status and new state (R161). -/
def timeSelect (i : Nat) (stepOk : Bool) (s : State) : Nat × State :=
  let d := s.time.dom i
  let diff := d.timeAt s.now 0 - (s.time.dom s.time.sel).timeAt s.now 0
  let far := decide (s.stepThreshold < diff ∨ diff < -s.stepThreshold)
  let clear (s : State) : State := if i = 0 then setDomain 0 (fun d => { d with suspect := false }) s else s
  if s.time.sel = i then (stOk, s)
  else if d.st ≠ .locked then (stWrongState, s)
  else if far && !stepOk then (stDenied, s)
  else if far then
    let old := s.time.planned.epoch
    (stOk, clear (raise .time 2 (switchSaid i 4 diff (changeTime i (fun c => { c with sel := i, slew := 0, epoch := old + 1 }) s))))
  else (stOk, clear (selectSlewed i 4 s))

/-- TIME_SELECT's effect, on every chip of the node (R432). -/
def effTimeSelect (a : List Byte) (r : Option AcsRef) (s : State) : State :=
  let x := timeSelect (fLe a 0 4 % 2) (bit (fLe a 0 4) 1) s
  finish r x.1 (if x.1 = stOk then le 2 x.2.time.planned.epoch.toNat ++ [0, 0] else []) x.2

/-- TIME_SELECT (R161). -/
def execTimeSelect (c : Acs) (s : State) : Out :=
  .next (acsLen 0x0401 inLineStates 4 c (fun s =>
    badArgIf (c.arg 0 4 > 3) 0x0401 c (fun s =>
      nodeWide 0x0401 c (effTimeSelect c.args) s) s) s)

/-- Arguments of TIME_SET that its layout allows (R162). -/
def timeSetArgs (a : List Byte) : Bool :=
  fLe a 0 1 ≤ 1 && fLe a 1 1 ≤ 1 && fLe a 2 2 = 0 && fLe a 10 4 < 1000000000

/-- The effect of TIME_SET, run on behalf of a command (R162): mode 0 waits for a PPS_IN edge. -/
def effTimeSet (a : List Byte) (ref : Option AcsRef) (s : State) : State :=
  let i := fLe a 0 1
  let v := ttOf (a.drop 4)
  if !(s.time.dom i).isGm || (s.gmSource i ≠ 1 ∧ s.gmSource i ≠ 2) then finish ref stWrongState [] s
  else if fLe a 1 1 = 0 then
    { s with time := { s.time with setWaits := s.time.setWaits ++ [{ ref := ref, dom := i, value := v }] } }
  else finish ref stOk [] (setTrainTime i ((v : Int) - (s.time.dom i).timeAt s.now 0) s)

/-- TIME_SET (R162). -/
def execTimeSet (c : Acs) (s : State) : Out :=
  .next (acsLen 0x0402 inLineStates 16 c (fun s =>
    badArgIf (!timeSetArgs c.args) 0x0402 c (nodeWide 0x0402 c (effTimeSet c.args)) s) s)

/-- TIME_SET_TIMEOUT: the oldest waiting TIME_SET completes with TIMEOUT (R162). -/
def execTimeSetTimeout (s : State) : Out :=
  .next (match s.time.setWaits with
    | [] => s
    | w :: rest =>
      let s1 := { s with time := { s.time with setWaits := rest } }
      match w.ref with
      | some r => finish (some r) stTimeout [] s1
      | none => s1)

/-- TIME_CONVERT (R163). -/
def execTimeConvert (c : Acs) (s : State) : Out :=
  .next (acsLen 0x0403 inServing 32 c (fun s =>
    let dir := c.arg 0 1
    badArgIf (dir > 1 || c.arg 1 1 > 15 || c.nonZero 4 4 || c.nonZero 28 4 || (dir = 1 && decide (c.arg 22 4 ≥ 1000000000)))
      0x0403 c (fun s =>
      if c.arg 2 2 ≠ s.time.epoch.toNat then
        done c 0x0403 stDenied (c.args.take 2 ++ le 2 s.time.epoch.toNat ++ c.args.drop 4) s
      else if dir = 0 then
        let t := (s.time.cur.timeAt (c.arg 8 8) (c.arg 1 1) + s.time.slewAt s.slewMax s.now).toNat
        done c 0x0403 stOk (c.args.take 16 ++ ttBytes t ++ zeros 4) s
      else
        let r := s.toTicks (ttOf (slice c.args 16 12))
        done c 0x0403 stOk ([byte dir, byte r.2] ++ slice c.args 2 2 ++ zeros 4 ++ le 8 r.1 ++ slice c.args 16 12 ++ zeros 4) s)
      s) s)

/-- One entry of TIME_LINKS (R164). -/
def State.linkEntry (s : State) (p : Nat) : List Byte :=
  if !s.usesLine (lineOfPort p) then zeros 32 else
  let l := s.time.link p
  [byte (b01 l.both + flag l.suspect 1 + flag l.uncal 2), byte l.thetas.length, 0, 0] ++ nidBytes l.nb ++ le 4 l.delay
    ++ leIntSat 4 l.d ++ leIntSat 4 l.corr ++ leIntSat 4 l.ratio ++ wordBytes l.gen

/-- TIME_LINKS (R164). -/
def execTimeLinks (c : Acs) (s : State) : Out :=
  .next (acsLen 0x0404 inLineStates 0 c (fun s =>
    done c 0x0404 stOk (s.linkEntry 0 ++ s.linkEntry 1 ++ s.linkEntry 2 ++ s.linkEntry 3) s) s)

/-- PPS periods in µs by their code (R159). -/
def ppsUs (k : Nat) : Nat := match k with | 0 => 1000 | 1 => 10000 | 2 => 100000 | _ => 1000000

/-- TIME_PPS (R159): the width lies within 1 µs and half the period (R127). -/
def execTimePps (c : Acs) (s : State) : Out :=
  .next (acsLen 0x0405 inLineStates 8 c (fun s =>
    let per := c.arg 0 1
    let w := c.arg 4 4
    badArgIf (per > 3 || c.arg 1 1 > 2 || c.arg 2 1 > 3 || c.nonZero 3 1 || w = 0 || decide (ppsUs per < 2 * w)) 0x0405 c (fun s =>
      done c 0x0405 stOk [] (drivePps false { s with time := { s.time with
        ppsPeriod := per, ppsDom := c.arg 1 1, ppsLow := bit (c.arg 2 1) 0, ppsOn := bit (c.arg 2 1) 1, ppsWidth := w } })) s) s)

end Sys2Proof.Machine
end

