-- ==== Sys2Proof/Machine/VoteOps.lean ====
section
/-! DEFINITION. Agreement and voting in Troika (R422 to R430), what a commit tells the node's other chips, and a member that rejoins. -/
namespace Sys2Proof.Machine

/-! ## Own stamps on the leader's counter (R145, R422) -/

/-- A tick of the own free counter on the time leader's. -/
def State.leaderTick (s : State) (t : Nat) : Nat :=
  if s.owner then t else ((t : Int) + s.time.tbDelta / 16).toNat

/-- One 8-byte stamp of an image on the leader's counter. -/
def shiftStamp (s : State) (img : List Byte) (off : Nat) : List Byte :=
  if off + 8 ≤ img.length then putSlice img off (le 8 (s.leaderTick (fLe img off 8))) else img

/-- Where the stamps of a block lie (R422). -/
def stampsOf (b : ObjBlock) : List Nat :=
  match b.kind with
  | .can => if b.ref % 256 = 128 then (List.range ((b.len - 8) / 80)).map (fun i => b.off + 16 + 80 * i) else [b.off + 8]
  | .legacy => [b.off + 8]
  | _ => []

/-- An input image as it is sent for agreement. -/
def State.sentImage (s : State) (t : Task) (img : List Byte) : List Byte :=
  (t.layout.blocks.filter (fun b => !b.out)).foldl (fun a b => (stampsOf b).foldl (shiftStamp s) a) img

/-! ## Agreement (R422, R423) -/

/-- A block without its time fields. -/
def keyOf (b : ObjBlock) (x : List Byte) : List Byte :=
  match b.kind with
  | .stream => putSlice x 4 (zeros 4)
  | .legacy => putSlice x 4 (zeros 12)
  | .can => (stampsOf { b with off := 0 }).foldl (fun a o => putSlice a o (zeros 8)) x
  | _ => x

/-- How one copy ranks where no two agree: the greater is taken, the lower chip at a tie. -/
def rankOf (b : ObjBlock) (x : List Byte) : Nat :=
  match b.kind with
  | .stream => (match fLe x 0 1 with | 1 => 2 | 2 => 1 | _ => 0) * 2 ^ 32 + (0xFFFFFFFF - fLe x 4 4)
  | .can => maxOf ((stampsOf { b with off := 0 }).map (fun o => fLe x o 8))
  | .legacy => fLe x 8 8
  | _ => 0

/-- The copy of the greatest rank, the first at a tie. -/
def bestCopy (b : ObjBlock) (xs : List (List Byte)) : List Byte :=
  match xs with
  | [] => []
  | x :: rest => rest.foldl (fun a y => if rankOf b a < rankOf b y then y else a) x

/-- GPIO levels that most copies hold, bit by bit; the first copy's between two. -/
def gpioMajority (xs : List (List Byte)) : List Byte :=
  match xs with
  | [x, y, z] => (List.range x.length).map (fun i =>
      let a := x.getD i 0
      let b := y.getD i 0
      let c := z.getD i 0
      (a &&& b) ||| (a &&& c) ||| (b &&& c))
  | x :: _ => x
  | [] => []

/-- The agreed block of the copies held, in ascending CHIP_INDEX, and whether they split (R422). -/
def agreeBlock (b : ObjBlock) (xs : List (List Byte)) : List Byte × Bool :=
  match xs.find? (fun x => 2 ≤ (xs.filter (fun y => keyOf b y = keyOf b x)).length) with
  | some x => (x, false)
  | none => (match b.kind with
    | .stream | .can | .legacy => bestCopy b xs
    | .gpio => gpioMajority xs
    | _ => xs.headD [], true)

/-- The blocks that are agreed one by one: the cycle block, and the image blocks of the object. -/
def Task.agreeBlocks (t : Task) : List ObjBlock :=
  { sym := 0, out := false, kind := .cycle, ref := 0, off := 0, len := 48, pos := none }
    :: t.layout.blocks.filter (fun b => !b.out && b.kind ≠ .cycle)

/-- The agreed image, and how many blocks split. -/
def agreeImage (t : Task) (imgs : List (List Byte)) : List Byte × Nat :=
  t.agreeBlocks.foldl (fun a b =>
    let r := agreeBlock b (imgs.map (fun i => slice i b.off b.len))
    (putSlice a.1 b.off r.1, a.2 + b01 r.2)) (zeros t.inLen, 0)

/-- Images held for a task's cycle, in ascending CHIP_INDEX. -/
def heldOf (xs : List HeldImage) (n cycle : Nat) : List HeldImage :=
  sortBy (fun a b => decide (a.chip ≤ b.chip)) (xs.filter (fun x => x.task = n && x.cycle = cycle))

/-- The task waits for agreement: its own image is held and it is not ready yet. -/
def State.agreeing (s : State) (n : Nat) (t : Task) : Bool :=
  t.ph = .waiting && s.red.inputs.any (fun x => x.task = n && x.cycle = t.cycle && x.chip = s.node.chipIndex)

/-- The agreed image is formed from the images held, and the task becomes ready. -/
def agree (n : Nat) (s : State) : State :=
  match s.task? n with
  | none => s
  | some t =>
    if !s.agreeing n t then s
    else
      let xs := (heldOf s.red.inputs n t.cycle).filter (fun x => s.red.members.getLsbD x.chip)
      let r := agreeImage t (xs.map HeldImage.data)
      makeReady n r.1 (countN (statRedund 16) r.2
        { s with red := { s.red with inputs := s.red.inputs.filter (fun x => x.task ≠ n || decide (t.cycle < x.cycle)) } })

/-- Agreement completes once every member's image is held. -/
def tryAgree (n : Nat) (s : State) : State :=
  match s.task? n with
  | none => s
  | some t =>
    if s.memberList.all (fun c => s.red.inputs.any (fun x => x.task = n && x.cycle = t.cycle && x.chip = c)) then agree n s else s

/-- The latched image of a votable task is sent to the other members, and waits for theirs. -/
def offerImage (n : Nat) (img : List Byte) (s : State) : State :=
  match s.task? n with
  | none => s
  | some t =>
    let x := s.sentImage t img
    let own : HeldImage := { chip := s.node.chipIndex, task := n, cycle := t.cycle, data := x, check := 0, absent := false }
    let s1 := setTask n (fun t => { t with ph := .waiting }) { s with red := { s.red with inputs := s.red.inputs ++ [own] } }
    tryAgree n (s1.carriers.foldl (fun s l => sendParts l .agree n 0x11 t.cycle x s) s1)

/-! ## What a commit tells the node's other chips (R417, R428, R430) -/

/-- The links whose chip holds this task's state: in Span the other chip, in Troika every other for a task that cannot be voted, and from the leader a
chip that synchronises (log entry 75). -/
def State.stateLinks (s : State) (t : Task) : List Nat :=
  match s.node.form with
  | .simplex => []
  | .span => s.carriers
  | .troika => if t.layout.nonvote then s.carriers else if s.owner then s.carriers.filter (fun l => (s.tug l).peerRole = 1) else []

/-- State of a committed cycle goes to the chips that hold it, and to the destination of a migration. -/
def passState (n : Nat) (old : List Byte) (s : State) : State :=
  match s.task? n with
  | none => s
  | some t => migCommitted n ((s.stateLinks t).foldl (fun s l => streamState l n old s) s)

/-- A cycle commits without a vote. -/
def commitAlone (n : Nat) (s : State) : State :=
  match s.task? n with
  | none => s
  | some t =>
    let s1 := commitTask n (wrMeasure n t.et s)
    let s2 := if s.node.form = .troika then count (statRedund 17) s1 else s1
    passState n t.committed s2

/-! ## The vote (R425, R426, R429) -/

/-- The bank check of a cycle's lines (R411). -/
def bankCheck (old new : List Byte) : Word := crc32 (deltaRecords (changedLines old new))

/-- This chip dissents: it copies the bank from a member of the majority, and leaves the vote after VOTE_LIMIT dissents within VOTE_WINDOW. -/
def dissentSelf (n : Nat) (source : Option Nat) (s : State) : State :=
  let w := s.voteWindow * ticksPerSec
  let ds := s.red.dissents.filter (fun t => decide (s.now ≤ t + w)) ++ [s.now]
  let s1 := count (statRedund 15) { s with red := { s.red with dissents := ds, copies := Store.ins s.red.copies n {} } }
  let s2 := match source.bind s.linkTo with
    | some l => requestFull l n s1
    | none => s1
  if s.voteLimit ≤ ds.length then excludeSelf 3 0 s2 else s2

/-- A dissenting member commits the voted output; its bank comes from the majority (log entry 76). -/
def commitDissent (n : Nat) (image : List Byte) (s : State) : State :=
  let s1 := commitOutput n image s
  setTask n (fun t => { t with
    ph := .idle, cycle := t.cycle + 1, lastCommit := t.cycle, prevHeld := false, lastHeld := false, first := false, warm := false
    heldCause := 0, voteHeld := 0 }) (count (statControl 0) s1)

/-- The vote on the outputs held (R425). -/
def vote (n : Nat) (s : State) : State :=
  match s.task? n with
  | none => s
  | some t =>
    if t.ph ≠ .ended && t.ph ≠ .held then s
    else if !s.red.outputs.any (fun x => x.task = n && x.cycle = t.cycle && x.chip = s.node.chipIndex) then s
    else
      let ms := s.memberList
      let xs := (heldOf s.red.outputs n t.cycle).filter (fun x => ms.contains x.chip)
      let imgs := xs.filter (fun x => !x.absent)
      let same (x y : HeldImage) : Bool := decide (x.data = y.data) && decide (x.check = y.check)
      let win := imgs.find? (fun x => ms.length < 2 * (imgs.filter (same x)).length)
      let s0 := count (statRedund 12) { s with red := { s.red with outputs := s.red.outputs.filter (fun x => x.task ≠ n || decide (t.cycle < x.cycle)) } }
      match win with
      | some w =>
        let yes := (imgs.filter (same w)).map HeldImage.chip
        let no := ms.filter (fun c => !yes.contains c)
        let old := t.committed
        let mine := yes.contains s.node.chipIndex
        let s1 := if mine then passState n old (commitEnd n (commitOutput n w.data (commitBank n (wrMeasure n t.et s0)))) else commitDissent n w.data s0
        let s2 := if no.isEmpty then s1 else count (statRedund 13) s1
        let s3 := no.foldl (fun s c => raise .redund 3 (logEvent 0x0A09 sevWarning ([byte n] ++ le 8 t.cycle ++ [byte c]) s)) s2
        if mine then s3 else dissentSelf n yes.head? s3
      | none =>
        let s1 := raise .redund 4 (logEvent 0x0A0A sevError ([byte n] ++ le 8 t.cycle ++ [byte s.red.members.toNat]) (count (statRedund 14) s0))
        let s2 := heldCommit n (if t.heldCause ≠ 0 then t.heldCause else 4) (setTask n (fun t => { t with voteHeld := t.voteHeld + 1 }) s1)
        let s3 := if t.ph = .ended then setTask n (fun t => { t with overRun := 0 }) s2 else s2
        if s.voteLimit ≤ t.voteHeld + 1 then taskFault n 4 (setTask n (fun t => { t with voteHeld := 0 }) s3) else s3

/-- The vote is taken once every member's CHECK is held. -/
def tryVote (n : Nat) (s : State) : State :=
  match s.task? n with
  | none => s
  | some t =>
    if s.memberList.all (fun c => s.red.outputs.any (fun x => x.task = n && x.cycle = t.cycle && x.chip = c)) then vote n s else s

/-- A member's own part in the vote: the image and its check, or a CHECK with ABSENT. -/
def offerOutput (n : Nat) (present : Bool) (s : State) : State :=
  match s.task? n with
  | none => s
  | some t =>
    let here := present && (Store.find s.red.copies n).isNone
    let fs := s.forcesOf n
    let img := forceOutputs fs t t.outWork
    let chk := bankCheck t.committed (forceBank fs t t.working)
    let own : HeldImage := { chip := s.node.chipIndex, task := n, cycle := t.cycle, data := if here then img else [], check := chk, absent := !here }
    let s1 := { s with red := { s.red with outputs := s.red.outputs ++ [own] } }
    let send (s : State) (l : Nat) : State :=
      let s2 := if here then sendParts l .agree n 0x12 t.cycle img s else s
      tugSend l .agree 0x13 (subHeader n 0x13 (1 + flag (!here) 1) 0 t.cycle ++ be 4 chk.toNat) s2
    tryVote n (s1.carriers.foldl send s1)

/-- A member alone in the node (R426). -/
def commitSingle (n : Nat) (s : State) : State := if s.singleRuns then commitAlone n s else taskFault n 5 s

/-! ## Joining (R430) -/

/-- A member that joins takes each task's bank from its copy. -/
def joinTask (n : Nat) (t : Task) (s : State) : State :=
  match (Store.find s.red.copies n).filter (fun c => c.full && c.complete.isSome) with
  | some c =>
    let k := c.complete.getD 0
    let grid := (s.trainNow + t.periodTt - 1) / t.periodTt
    assignPair n (setTask n (fun t => { t with
      st := .running, ph := .idle, committed := c.bank, output := c.output, outs := max 1 t.outs, cycle := k + max 1 (grid - c.grid)
      lastCommit := k, prevHeld := false, lastHeld := false, first := false, warm := false, fromTick := s.now, heldCause := 0
      runNid := s.node.nid }) s)
  | none => s

/-- The whole second at which a chip whose copies are whole becomes a member (R430). -/
def becomeMember (s : State) : State :=
  let s1 := joinControl s
  let s2 := s1.ctl.tasks.foldl (fun s e => if s1.red.copies.isEmpty || !e.2.enabled then s else joinTask e.1 e.2 s) s1
  let s3 := assertClaim 1 .member { s2 with red := { s2.red with copies := [], inputs := [], outputs := [], dissents := [] } }
  logEvent 0x0A0C sevNotice ([byte s.node.chipIndex] ++ le 4 (s.trainNow / ttSec)) s3

/-- The new time leader goes on with the tasks that cannot be voted (R428). -/
def leaderTakes (was : Bool) (s : State) : State :=
  if s.node.form ≠ .troika || was || !s.owner || !s.node.state.running then s
  else s.ctl.tasks.foldl (fun s e => if e.2.layout.nonvote && e.2.st = .running then takeTask s.now e.1 e.2 s else s) s

end Sys2Proof.Machine
end

