-- ==== Sys2Proof/Machine/Redund.lean ====
section
/-! DEFINITION. Events and commands of Span and Troika (09_span_and_troika.md), and the Troika time base (R144, R145). The commands that act on the
whole node stand in NodeWide.lean. -/
namespace Sys2Proof.Machine

/-! ## Links (R405 to R410) -/

/-- The tug links that a node of this form has. -/
def State.tugLinks (s : State) : List Nat :=
  match s.node.form with
  | .simplex => []
  | .span => if s.tug1Spare then [0, 1] else [0]
  | .troika => [0, 1]

/-- The tug links run: the chip is powered and has its identity. -/
def State.tugOn (s : State) (l : Nat) : Bool := s.alive && s.tugLinks.contains l

/-- HELLO (R409). -/
def State.helloBytes (s : State) : List Byte :=
  be 8 s.node.nid.toNat ++ [byte s.node.chipIndex, byte s.node.form.code, 3, 2]
    ++ be 32 ((s.tack.active.map Tack.nodeFp).getD 0).toNat ++ [byte s.node.state.code, 0, 0, 0]

/-- TUG_HELLO_SEND: a HELLO on each link whose peer's is not accepted, and after a change of its content (R409). -/
def execTugHelloSend (s : State) : Out :=
  .next ((s.tugLinks.filter s.tugOn).foldl (fun s l =>
    if (s.tug l).helloOk && (s.tug l).hello = s.helloBytes then s
    else tugSend l .link 1 s.helloBytes (setTug l (fun t => { t with hello := s.helloBytes }) s)) s)

/-- The peer on a link is the reference chip (R405): it holds the claim or is a member, or no chip does and it has the lowest index. -/
def State.peerIsReference (s : State) (l : Nat) : Bool :=
  let claims (t : TugLink) : Bool := t.peerFlags % 4 ≠ 0
  let t := s.tug l
  let i := t.peerIndex.getD 3
  if s.red.claim then false
  else if s.red.tugs.any claims then claims t
  else decide (i ≤ s.node.chipIndex) && s.red.tugs.all (fun u => decide (i ≤ u.peerIndex.getD 3))

/-- The first item in which the peer's HELLO differs: 1 NID, 2 FORM, 3 firmware, 4 NODE_FP; 5 an equal CHIP_INDEX; 0 none. -/
def State.helloDiffers (s : State) (l : Nat) : Nat :=
  let t := s.tug l
  if t.peerNid ≠ s.node.nid then 1
  else if t.peerForm ≠ s.node.form.code then 2
  else if t.peerFw ≠ 0x0302 then 3
  else if t.peerFp ≠ (s.tack.active.map Tack.nodeFp).getD 0 then 4
  else if t.peerIndex = some s.node.chipIndex then 5
  else 0

/-- TUG_HELLO_RECEIVE: the peer is what this node is made of, or this chip differs from the reference and enters HELD (R405). -/
def execTugHelloReceive (link : Nat) (data : List Byte) (s : State) : Out :=
  .next (if !s.tugOn link then s else
    let s1 := setTug link (fun t => { t with
      peerNid := BitVec.ofNat 64 (fBe data 0 8), peerIndex := some (fBe data 8 1), peerForm := fBe data 9 1, peerFw := fBe data 10 2
      peerFp := BitVec.ofNat 256 (fBe data 12 32), peerState := fBe data 44 1 }) s
    let item := s1.helloDiffers link
    if item = 0 then trySync (setTug link (fun t => { t with helloOk := true }) s1)
    else if !s1.peerIsReference link || !s1.node.state.inLine then setTug link (fun t => { t with helloOk := false }) s1
    else
      raise .redund 7 (logEvent 0x0A07 sevError [byte item, byte (fBe data 8 1)] (enterHeld 2 6 (setTug link (fun t => { t with helloOk := false }) s1))))

/-- HEARTBEAT (R409). -/
def State.heartbeatBytes (s : State) (l : Nat) : List Byte :=
  let t := s.tug l
  let base : List Nat := [0, 16, 256, 512, 64, 64, 1024, 128]
  [byte s.red.role.code,
   byte (b01 s.red.claim + flag (s.node.form = .troika && s.red.claim) 1 + flag s.time.tbLock 2 + flag s.red.nodeSafe 3),
   byte s.node.state.code, 0]
    ++ ((List.range 7).map (fun i => be 2 ((base.getD (i + 1) 0 + t.got.getD (i + 1) 0) % 65536))).flatten ++ [0, 0]

/-- HEARTBEAT_SEND: every 10 µs on every link (R409). -/
def execHeartbeatSend (s : State) : Out :=
  .next ((s.tugLinks.filter s.tugOn).foldl (fun s l => tugSend l .link 2 (s.heartbeatBytes l) s) s)

/-- A cumulative count modulo 2^16 taken up (R406). -/
def unwrap (old v : Nat) : Nat :=
  let d := (v + 65536 - old % 65536) % 65536
  if d < 32768 then old + d else old

/-- What the peer's role and flags mean for this chip: a standby counted or missed (R419), synchronisation, control on a standby. -/
def peerSeen (s : State) : State :=
  let s1 := if s.node.form = .span && s.red.role = .active then setResource 3 (!s.red.tugs.any (fun t => t.up && t.peerRole = 2)) s else s
  let s2 := if s1.node.form = .span && s1.red.role = .standby then joinControl s1 else s1
  syncCheck (trySync s2)

/-- HEARTBEAT_RECEIVE: the link is up with the third in a row; role, flags and credits are taken (R409, R410). -/
def execHeartbeatReceive (link : Nat) (data : List Byte) (s : State) : Out :=
  .next (if !s.tugOn link then s else
    let rises := !(s.tug link).up && decide (2 ≤ (s.tug link).beats)
    let s1 := setTug link (fun t => { t with
      beats := min 3 (t.beats + 1), peerRole := fBe data 0 1, peerFlags := fBe data 1 1, peerState := fBe data 2 1
      granted := t.granted.mapIdx (fun i g => if i = 0 then g else unwrap g (fBe data (2 + 2 * i) 2)) }) s
    let s2 := if rises then tugSaid link 1 (setTug link (fun t => { t with
      up := true, replays := 0, crcErrors := 0, spare := s.node.form = .span && link = 1 }) s1) else s1
    if (s2.tug link).up then peerSeen (tugDrain link s2) else s2)

/-- TUG_LINK_DOWN: block lock lost, or 4 HEARTBEAT periods without one (R410). -/
def execTugLinkDown (link : Nat) (lockLost : Bool) (s : State) : Out :=
  .next (if !s.tugOn link then s
    else peerSeen (linkDown link (if lockLost then s else countN (statRedund 6) 4 s)))

/-- TUG1_HANDBACK: TUG0 has been up for 1 s; what TUG1 has not had acknowledged leaves on TUG0 (R410). -/
def execTug1Handback (s : State) : Out :=
  .next (if s.alive && s.red.onSpare && (s.tug 0).up then moveUnacked 1 0 { s with red := { s.red with onSpare := false } } else s)

/-- TUG_TIMING_SEND: a TIMING message, its departure stamped (R409). -/
def execTugTimingSend (link : Nat) (stamp : Stamp) (s : State) : Out :=
  .next (if !s.tugOn link then s else
    let t := s.tug link
    let z : Stamp := { tick := 0, frac := 0 }
    let body := be 2 t.tSeq ++ be 2 ((t.tLat.map Prod.fst).getD 0xFFFF) ++ zeros 4 ++ be 8 (stampField ((t.tHist.head?.map Prod.snd).getD z))
      ++ be 8 (stampField ((t.tLat.map Prod.snd).getD z))
    tugSend link .link 3 body (setTug link (fun t => { t with
      tSeq := if t.tSeq = 0xFFFE then 0 else t.tSeq + 1, tLat := t.tRx, tHist := ((t.tSeq, stamp) :: t.tHist).take 4 }) s))

/-- TIMING_RECEIVE: an exchange measures the link's delay, its asymmetry taken as zero (R122, R409). -/
def execTimingReceive (link : Nat) (stamp : Stamp) (data : List Byte) (s : State) : Out :=
  .next (if !s.tugOn link then s else
    let t := s.tug link
    let seq := fBe data 0 2
    let before := if seq = 0 then 0xFFFE else seq - 1
    let t1 := t.tHist.find? (fun e => e.1 = fBe data 2 2)
    let x := match t1, t.tRx with
      | some a, some b => if b.1 = before && fBe data 2 2 ≠ 0xFFFF
        then t.timing.exchange (stampField a.2) (fBe data 16 8) (fBe data 8 8) (stampField b.2) else t.timing
      | _, _ => t.timing
    setTug link (fun t => { t with timing := { x with thetas := [] }, tRx := some (seq, stamp) }) s)

/-- Resend every frame kept in the replay buffer (R408). -/
def replay (l : Nat) (s : State) : State :=
  (s.tug l).unacked.foldl (fun s m =>
    emit (.tug l m.seq (s.tug l).ackNow true m.chan m.typ m.data)
      (setTug l (fun t => { t with replays := min 0xFFFFFFFF (t.replays + 1) }) (count (statRedund (2 + l)) s))) s

/-- Frames up to a SEQ are acknowledged. -/
def tugAck (l a : Nat) (s : State) : State :=
  setTug l (fun t => { t with unacked := t.unacked.filter (fun m => 32768 ≤ (a + 65536 - m.seq) % 65536) }) s

/-- NAK_RECEIVE: the peer expects a SEQ; what came before it is acknowledged, the rest is sent again (R408). -/
def execNakReceive (link : Nat) (data : List Byte) (s : State) : Out :=
  .next (if s.tugOn link && (s.tug link).up then replay link (tugAck link ((fBe data 0 2 + 65535) % 65536) s) else s)

/-- TUG_REPLAY_TIMEOUT: 4 µs without acknowledgement (R408). -/
def execTugReplayTimeout (link : Nat) (s : State) : Out :=
  .next (if s.tugOn link && (s.tug link).up then replay link s else s)

/-- Ask for the expected SEQ (R408, R409). -/
def nak (l : Nat) (s : State) : State := tugSend l .link 4 (be 2 (s.tug l).rxSeq ++ zeros 2) s

/-- TUG_FRAME_ERROR: a bad CRC, or a gap in SEQ (R408). -/
def execTugFrameError (link : Nat) (crc : Bool) (s : State) : Out :=
  .next (if !s.tugOn link then s else
    nak link (if crc then count (statRedund link) (setTug link (fun t => { t with crcErrors := min 0xFFFFFFFF (t.crcErrors + 1) }) s) else s))

/-- A frame of channels 1 to 7 arrives (R406 to R408): ACK and CREDITS count always; the frame itself only with the expected SEQ. -/
def tugAccept (c : TugChan) (m : TugRx) (s : State) : Bool × State :=
  let l := m.link
  if !s.tugOn l || !(s.tug l).up then (false, s)
  else
    let s1 := match m.ack with | some a => tugAck l a s | none => s
    let s2 := match m.credit with
      | some (v, k) => setTug l (fun t => { t with granted := t.granted.modify v (fun g => unwrap g k) }) s1
      | none => s1
    let s3 := tugDrain l s2
    let t := s3.tug l
    if m.seq % 65536 = t.rxSeq then
      (true, setTug l (fun t => { t with rxSeq := (t.rxSeq + 1) % 65536
                                         got := t.got.modify c.code (· + (20 + m.data.length + 255) / 256) }) s3)
    else if (t.rxSeq + 65536 - m.seq % 65536) % 65536 < 32768 then (false, s3)
    else (false, nak l s3)

/-- What a frame does where it is accepted. -/
def onTug (c : TugChan) (m : TugRx) (f : State → State) (s : State) : State :=
  let r := tugAccept c m s
  if r.1 then f r.2 else r.2

/-! ## SYNC channel (R60, R143 to R145, R421) -/

/-- The change that a SYNC message of type 1 spells. -/
def changeOf (b : List Byte) : TimeChange :=
  { tick := fLe b 0 8, dom := fLe b 8 1, sel := fLe b 9 1, epoch := BitVec.ofNat 16 (fLe b 10 2), anchor := fLe b 12 8
    offset := signed 64 (fLe b 20 8), rate := fLe b 28 8, slew := signed 64 (fLe b 36 8)
    st := match fLe b 44 1 with | 0 => .free | 1 => .locked | 2 => .stepWait | 3 => .holdover | _ => .disabled }

/-- A decision of the Span peer that holds the claim (R143): selection, slew term, epoch; an accepted step moves this chip's own domain. -/
def followSpan (c : TimeChange) (s : State) : State :=
  let d := s.time.dom c.dom
  let step := decide (c.st = .locked) && decide (d.st = .stepWait ∨ d.st = .free)
  applyChange { c with
    tick := s.now, anchor := d.anchor, rate := d.rate
    offset := if step then d.offset + d.lastOff else d.offset, st := if step then .locked else d.st } s

/-- A change that the Troika leader sends ahead, on this chip's counter (R145). -/
def followLeader (c : TimeChange) (s : State) : State :=
  if !s.time.tbLock then s
  else
    let d := s.time.tbDelta / 16
    let own : TimeChange := { c with tick := ((c.tick : Int) + d).toNat, anchor := ((c.anchor : Int) - d).toNat }
    { s with time := { s.time with changes := s.time.changes ++ [own] } }

/-- The force table as the leader or the active sends it (R430). -/
def takeForces (b : List Byte) (s : State) : State :=
  let fs : List Force := (records (b.drop 1) 16).map (fun r =>
    { var := fLe r 0 4, typ := fLe r 4 1, task := fLe r 5 1, input := fLe r 6 1 = 1, value := slice r 8 8 })
  if s.red.role ≠ .syncing then s
  else { s with ctl := { s.ctl with forces := if fBe b 0 1 = 1 then fs else s.ctl.forces ++ fs } }

/-- Pieces of a Wrangler step told by another chip join. -/
def joinTold (l : Nat) (b : List Byte) (s : State) : State :=
  let step := fBe b 0 1
  let mine (r : Reassembly) : Bool := r.link = l && r.chan = .sync && r.num = step
  let got := (((s.red.parts.find? mine).map Reassembly.data).getD []) ++ b.drop 10
  let s1 := { s with red := { s.red with parts := s.red.parts.filter (fun r => !mine r) } }
  if fBe b 1 1 = 1 then wrTold step (BitVec.ofNat 64 (fLe b 2 8)) got s1
  else { s1 with red := { s1.red with parts := s1.red.parts ++ [{ link := l, chan := .sync, num := step, head := [], data := got }] } }

/-- A message of the SYNC channel. -/
def takeSyncMessage (m : TugRx) (s : State) : State :=
  match m.typ with
  | 1 => (match s.node.form with | .span => if s.node.active then s else followSpan (changeOf m.data) s | _ => followLeader (changeOf m.data) s)
  | 2 => if s.node.form = .troika && !s.timeLeads then s
         else takeSync (fBe m.data 0 1) (if fBe m.data 1 1 = 0 then .a else .b) (signed 64 (fLe m.data 2 8)) s
  | 3 => hitchRelay m.data s
  | 4 => hitchLostTold m.data s
  | 5 => safeEvent s
  | 6 => { s with time := { s.time with leaderAt := fBe m.data 0 8 } }
  | 7 => joinTold m.link m.data s
  | 8 => takeForces m.data s
  | _ => s

/-- TUG_SYNC_MESSAGE: time changes, hitch and gPTP relay, what the node's chips tell each other (R407). -/
def execTugSyncMessage (m : TugRx) (s : State) : Out := .next (onTug .sync m (takeSyncMessage m) s)

/-- SAFE_NODE_EVENT: the node-wide SAFE of the active (R421). -/
def execSafeNodeEvent (m : TugRx) (s : State) : Out := .next (onTug .sync m safeEvent s)

/-! ## STATE channel (R417, R418, R425, R430) -/

/-- The task, FLAGS, OFFSET, CYCLE and DATA of a STATE or AGREE message (R411). -/
def partTask (b : List Byte) : Nat := fBe b 0 1
def partFlags (b : List Byte) : Nat := fBe b 2 2
def partOff (b : List Byte) : Nat := fBe b 4 4
def partCycle (b : List Byte) : Nat := fBe b 8 8
def partData (b : List Byte) : List Byte := b.drop 16

/-- This chip keeps copies of other chips' tasks: a Span chip without the claim, any Troika chip. -/
def State.keepsCopies (s : State) : Bool :=
  match s.node.form with
  | .simplex => false
  | .span => s.red.role = .syncing || s.red.role = .standby
  | .troika => s.node.state.inLine

/-- Change a task's copy. -/
def setCopy (n : Nat) (f : TaskCopy → TaskCopy) (s : State) : State :=
  { s with red := { s.red with copies := Store.ins s.red.copies n (f ((Store.find s.red.copies n).getD {})) } }

/-- Lines of a DELTA written into a bank. -/
def applyLines (b : List Byte) (bank : List Byte) : List Byte :=
  (records b 68).foldl (fun a r => (putSlice a (fBe r 0 4) (slice r 4 64)).take bank.length) bank

/-- A part arrives. -/
def takePart (m : TugRx) (s : State) : State :=
  let n := partTask m.data
  let x := partData m.data
  let off := partOff m.data
  match fBe m.data 1 1 with
  | 6 =>
    if bit (partFlags m.data) 1 then
      let s1 := if s.heldTasks.head? = some n then sendNodeItems m.link s else s
      sendFull m.link n s1
    else s
  | 1 => if s.keepsCopies && ((Store.find s.red.copies n).elim false TaskCopy.full)
         then setCopy n (fun c => { c with bank := applyLines x c.bank, lines := c.lines ++ x }) s else s
  | 2 => if s.keepsCopies then setCopy n (fun c => { c with output := c.output.take off ++ x }) s else s
  | 3 => if s.keepsCopies then setCopy n (fun c => { c with info := x }) s else s
  | 5 =>
    if !s.keepsCopies then s
    else
      let s1 := setCopy n (fun c =>
        let bank := c.bank.take off ++ x
        let last := bit (partFlags m.data) 0
        { c with bank := bank, full := last, lines := if last then deltaRecords (allLines bank) else [] }) s
      { s1 with red := { s1.red with syncDone := s1.red.syncDone + x.length } }
  | _ => s

/-- STATE_PART_RECEIVE: DELTA, OUTPUT, META, FULL or ACK (R417). -/
def execStatePartReceive (m : TugRx) (s : State) : Out := .next (onTug .state m (takePart m) s)

/-- What a complete cycle does: the Span standby holds it as its own and retains it (R417); a member that dissented has its bank back (R425). -/
def cycleComplete (n : Nat) (c : TaskCopy) (cycle : Nat) (s : State) : State :=
  if s.node.form = .span then
    startRetain n (setTask n (fun t => { t with
      committed := c.bank, output := c.output, lastCommit := cycle, etMax := some (metaOf c.info).2 }) s)
  else if s.red.claim && !((s.task? n).elim false (fun t => t.layout.nonvote)) then
    { setTask n (fun t => { t with committed := c.bank }) s with
      red := { s.red with copies := Store.del s.red.copies n } }
  else s

/-- STATE_LAG where the newest complete cycle lags too far (R418). -/
def lagCheck (n cycle : Nat) (s : State) : State :=
  match (Store.find s.red.copies n).bind TaskCopy.complete with
  | some k =>
    if s.node.form = .span && s.lagLimit ≤ cycle - k then
      raise .redund 6 (logEvent 0x0A04 sevWarning ([byte n] ++ le 4 (cycle - k)) (count (statRedund 11) s))
    else s
  | none => s

/-- END: the check over the cycle's lines agrees, or FULL is asked for. -/
def takeEnd (m : TugRx) (s : State) : State :=
  let n := partTask m.data
  let k := partCycle m.data
  match Store.find s.red.copies n with
  | none => s
  | some c =>
    if !s.keepsCopies || !c.full then s
    else if (crc32 c.lines).toNat = fBe (partData m.data) 0 4 then
      let p := (s.task? n).elim 1 (fun t => t.periodTt)
      let s1 := count (statRedund 10) (setCopy n (fun c => { c with lines := [], complete := some k, grid := s.trainNow / p }) s)
      let s2 := tugSend m.link .state 6 (subHeader n 6 0 0 k) (cycleComplete n c k s1)
      syncCheck (lagCheck n k s2)
    else
      let s1 := logEvent 0x0A05 sevNotice ([byte n] ++ le 8 k) (setCopy n (fun c => { c with lines := [], full := false }) s)
      lagCheck n k (requestFull m.link n s1)

/-- STATE_END_RECEIVE (R417). -/
def execStateEndReceive (m : TugRx) (s : State) : Out := .next (onTug .state m (takeEnd m) s)

/-! ## AGREE channel (R422 to R426) -/

/-- The reassembly of an image from a link. -/
def partKey (l task part : Nat) (r : Reassembly) : Bool := r.link = l && r.chan = .agree && r.num = task * 256 + part

/-- A piece of an image joins those before it; the whole where it is the last. -/
def joinPart (l task part : Nat) (b : List Byte) (s : State) : Option (List Byte) × State :=
  let mine := partKey l task part
  let got := ((s.red.parts.find? mine).map Reassembly.data).getD []
  let img := got.take (partOff b) ++ partData b
  let rest := s.red.parts.filter (fun r => !mine r)
  if bit (partFlags b) 0 then (some img, { s with red := { s.red with parts := rest } })
  else (none, { s with red := { s.red with parts := rest ++ [{ link := l, chan := .agree, num := task * 256 + part, head := [], data := img }] } })

/-- An INPUT image is whole (R422). -/
def takeInput (m : TugRx) (s : State) : State :=
  let n := partTask m.data
  let r := joinPart m.link n 0x11 m.data s
  match r.1 with
  | none => r.2
  | some img =>
    let x : HeldImage := { chip := s.linkChip m.link, task := n, cycle := partCycle m.data, data := img, check := 0, absent := false }
    if !s.red.claim then r.2
    else tryAgree n { r.2 with red := { r.2.red with inputs := r.2.red.inputs.filter (fun y => y.task ≠ n || y.chip ≠ x.chip || y.cycle ≠ x.cycle) ++ [x] } }

/-- AGREE_INPUT_RECEIVE (R422). -/
def execAgreeInputReceive (m : TugRx) (s : State) : Out := .next (onTug .agree m (takeInput m) s)

/-- AGREE_TIMEOUT: 20 µs after the latch the image is formed from those held (R423). -/
def execAgreeTimeout (task : Nat) (s : State) : Out :=
  .next (if s.alive && s.node.form = .troika && s.red.claim then agree task s else s)

/-- OUTPUT and CHECK (R425). The image is kept until its CHECK. -/
def takeOutput (m : TugRx) (s : State) : State :=
  let n := partTask m.data
  let l := m.link
  if fBe m.data 1 1 = 0x12 then
    let r := joinPart l n 0x12 m.data s
    (match r.1 with
     | none => r.2
     | some img => { r.2 with red := { r.2.red with parts := r.2.red.parts ++ [{ link := l, chan := .agree, num := n * 256 + 0x13, head := [], data := img }] } })
  else
    let mine := partKey l n 0x13
    let img := ((s.red.parts.find? mine).map Reassembly.data).getD []
    let x : HeldImage := { chip := s.linkChip l, task := n, cycle := partCycle m.data, data := img
                           check := BitVec.ofNat 32 (fBe (partData m.data) 0 4), absent := bit (partFlags m.data) 1 }
    let s1 := { s with red := { s.red with parts := s.red.parts.filter (fun r => !mine r) } }
    if !s.red.claim then s1
    else tryVote n { s1 with red := { s1.red with outputs := s1.red.outputs.filter (fun y => y.task ≠ n || y.chip ≠ x.chip || y.cycle ≠ x.cycle) ++ [x] } }

/-- AGREE_OUTPUT_RECEIVE (R425). -/
def execAgreeOutputReceive (m : TugRx) (s : State) : Out := .next (onTug .agree m (takeOutput m) s)

/-- VOTE_TIMEOUT: 20 µs after the commit instant the vote is taken on what is held (R425). -/
def execVoteTimeout (task : Nat) (s : State) : Out :=
  .next (if s.alive && s.node.form = .troika && s.red.claim then vote task s else s)

/-! ## FRAME channel (R213, R412, R424) -/

/-- A whole frame from another chip enters this chip's switch. -/
def enterSwitch (h : List Byte) (b : List Byte) (s : State) : State :=
  let f := frameOf b
  let d := fBe h 1 1
  let l : Line := if fBe h 2 1 = 0 then .a else .b
  let n := fBe h 8 2
  let z : Stamp := { tick := 0, frac := 0 }
  let pcp := (f.vlan.map VlanTag.pcp).getD 0
  let x : Fwd := { frame := f, len := frameLen f, inPort := portOf l (max 1 d), line := l, vid := (f.vlan.map VlanTag.vid).getD 0, pcp := pcp
                   dei := (f.vlan.map VlanTag.dei).getD false, cls := s.classOf pcp, handle := if n = 0xFFFF then none else some n, stamp := z }
  if d ≠ 0 then
    let p := portOf l d
    if s.portUp p then (sendAll { x with inPort := 15 } true [.port p] s).2 else count (statPort p 42) s
  else if s.node.form = .troika then streamReceive n x.inPort f z 0 false s
  else frerOffer n x none s

/-- A segment of a frame; a frame whose segments do not arrive complete is dropped. -/
def takeSegment (m : TugRx) (s : State) : State :=
  let h := m.data.take 16
  let num := fBe h 4 2
  let flags := fBe h 3 1
  let mine (r : Reassembly) : Bool := r.link = m.link && r.chan = .frame && r.num = num
  let old := s.red.parts.find? mine
  let s1 := { s with red := { s.red with parts := s.red.parts.filter (fun r => !mine r) } }
  let drop_ (s : State) : State := count (statPort (portOf (if fBe h 2 1 = 0 then .a else .b) (max 1 (fBe h 1 1))) 42) s
  let got : Option (List Byte) := if bit flags 0 then some (m.data.drop 16) else old.map (fun r => r.data ++ m.data.drop 16)
  match got with
  | none => if bit flags 1 then drop_ s1 else s1
  | some b =>
    if bit flags 1 then enterSwitch h b s1
    else { s1 with red := { s1.red with parts := s1.red.parts ++ [{ link := m.link, chan := .frame, num := num, head := h, data := b }] } }

/-- FRAME_SEGMENT_RECEIVE (R412). -/
def execFrameSegmentReceive (m : TugRx) (s : State) : Out := .next (onTug .frame m (takeSegment m) s)

/-! ## Claim and membership (R414 to R421, R429, R430) -/

/-- Agreements and votes that wait for a chip that is no longer a member (R434). -/
def memberLeft (s : State) : State :=
  if s.node.form ≠ .troika || !s.red.claim then s
  else s.ctl.tasks.foldl (fun s e => tryVote e.1 (tryAgree e.1 s)) s

/-- PEER_CLAIM_CHANGE: a claim input changes level (R403, R415, R422). -/
def execPeerClaimChange (pin : Nat) (level : Bool) (s : State) : Out :=
  .next (let old := if pin = 0 then s.red.peerClaim0 else s.red.peerClaim1
    if 1 < pin || old = level then s else
    let s1 := { s with red := if pin = 0 then { s.red with peerClaim0 := level } else { s.red with peerClaim1 := level } }
    if !s.alive || s.node.form = .simplex then s1
    else
      let was := s1.owner
      memberLeft (leaderTakes was (trySync (raise .redund 0 (settleMembers s1)))))

/-- CLAIM_WAIT_EXPIRY: PEER_CLAIM_IN0 has been low long enough (R415, R419, R420). -/
def execClaimWaitExpiry (s : State) : Out :=
  .next (if !s.alive then s else
    let s1 := claimSpan s
    if s1.red.claim && !s.red.claim then peerSeen s1 else s1)

/-- CLAIM_WIRE_TIMEOUT: the pin is low for 1 ms while HEARTBEATs carry CLAIM (R416). -/
def execClaimWireTimeout (s : State) : Out :=
  .next (if s.alive && s.node.form = .span && !s.red.peerClaim0 && s.red.tugs.any (fun t => t.up && bit t.peerFlags 0)
    then raise .redund 8 (logEvent 0x0A08 sevError [0, 1] s) else s)

/-- REJOIN_MEMBERSHIP: the whole second at which a synchronised chip becomes a member (R430). -/
def execRejoinMembership (s : State) : Out :=
  .next (if s.alive && s.node.form = .troika && s.red.role = .syncing && s.node.state.inLine && s.node.state ≠ .safe
      && (s.red.members = 0 || (s.synced && s.time.tbLock))
    then becomeMember s else s)

/-! ## The Troika time base (R144, R145, R404, R666) -/

/-- This chip is the Troika time leader. -/
def State.pulses (s : State) : Bool := s.alive && s.node.form = .troika && s.red.claim && s.node.chipIndex = s.red.leader

/-- SYNC_OUT_PULSE: the leader's pulse at each 1 ms multiple, and its counter value over both links (R144). -/
def execSyncOutPulse (s : State) : Out :=
  .next (if s.pulses then tugAll .sync 6 (be 8 s.now) (drivePin .syncOut .high { s with time := { s.time with leaderAt := s.now } }) else s)

/-- SYNC_OUT_PULSE_END: 600 ticks after the edge (R666). -/
def execSyncOutPulseEnd (s : State) : Out :=
  .next (if s.pulses && s.time.syncOut = .high then drivePin .syncOut .low s else s)

/-- Time-base lock is lost: logged, raised, and the chip leaves the vote (R144, R414, R429). -/
def loseTimeBase (s : State) : State :=
  if !s.time.tbLock then s
  else
    let s1 := { s with time := { s.time with tbLock := false, tbCount := 0, tbMissed := 0 } }
    let s2 := raise .time 10 (logEvent 0x040B sevError ([byte s.red.leader] ++ leInt 8 s.time.tbDelta) s1)
    if s2.red.claim then excludeSelf 2 8 s2 else s2

/-- TB_SKEW in 1/16 tick, from 1/16 ns. -/
def State.tbSkew (s : State) : Int := ((s.param 5 24 0xFFFF 0 * 3 / 5 : Nat) : Int)

/-- SYNC_IN_EDGE: the pulse is stamped; 16 agreeing values of TB_DELTA lock, one that differs by more than 2/16 tick loses lock. leader is the
leader's counter at this pulse (R144). -/
def execSyncInEdge (stamp : Stamp) (leader : Nat) (s : State) : Out :=
  .next (if !s.alive || s.node.form ≠ .troika then s else
    let t := s.time
    let v : Int := (16 * leader : Int) - ((stamp.tick * 16 + stamp.frac % 16 : Nat) - s.tbSkew)
    let near (a b k : Int) : Bool := decide (a - b ≤ k ∧ b - a ≤ k)
    let t1 := { t with leaderAt := leader, tbMissed := 0 }
    if t.tbLock then (if near v t.tbDelta 2 then { s with time := t1 } else loseTimeBase { s with time := t1 })
    else
      let n := if t.tbCount ≠ 0 && near v t.tbCand 1 then t.tbCount + 1 else 1
      { s with time := { t1 with
        tbCount := min 16 n, tbCand := if n = 1 then v else t.tbCand, tbLock := decide (16 ≤ n)
        tbDelta := if 16 ≤ n then (if n = 1 then v else t.tbCand) else t.tbDelta } })

/-- SYNC_PULSE_TIMEOUT: two pulses are missed (R144). -/
def execSyncPulseTimeout (s : State) : Out :=
  .next (if s.alive && s.node.form = .troika then loseTimeBase s else s)

/-! ## Commands (R439 to R441) -/

/-- REDUND commands complete with WRONG_STATE on a simplex node. -/
def redundOnly (opcode : Nat) (c : Acs) (body : State → State) (s : State) : State :=
  if s.node.form = .simplex then done c opcode stWrongState [] s else body s

/-- This chip's dissents within VOTE_WINDOW (R440). -/
def State.dissentCount (s : State) : Nat :=
  (s.red.dissents.filter (fun t => decide (s.now ≤ t + s.voteWindow * ticksPerSec))).length

/-- REDUND_STATUS (R440). -/
def execRedundStatus (c : Acs) (s : State) : Out :=
  .next (acsLen 0x0A00 inLineStates 0 c (redundOnly 0x0A00 c (fun s =>
    let r := s.red
    let flags := b01 r.claim + flag r.peerClaim0 1 + flag r.peerClaim1 2
      + flag (s.node.form = .troika && r.claim && s.node.chipIndex = r.leader) 3 + flag s.coordinator 4 + flag r.onSpare 5
    done c 0x0A00 stOk ([byte s.node.form.code, byte s.node.chipIndex, byte r.role.code, byte flags, byte r.members.toNat, byte r.excludeCause, 0, 0]
      ++ le 8 r.changeTick ++ le 4 r.syncDone ++ le 4 r.syncTotal ++ le 4 s.dissentCount ++ zeros 4) s)) s)

/-- One entry of REDUND_TUG (R441). -/
def State.tugEntry (s : State) (l : Nat) : List Byte :=
  let t := s.tug l
  let st := if !s.tugLinks.contains l then 0
    else if t.up then (if s.node.form = .span && l = 1 && !s.red.onSpare then 4 else 3)
    else if t.beats ≠ 0 then 2 else 1
  [byte st, byte (t.peerIndex.getD 0xFF), 0, 0] ++ le 4 t.timing.delay ++ nidBytes t.peerNid ++ le 4 t.replays ++ le 4 t.crcErrors

/-- REDUND_TUG (R441). -/
def execRedundTug (c : Acs) (s : State) : Out :=
  .next (acsLen 0x0A01 inLineStates 0 c (redundOnly 0x0A01 c (fun s => done c 0x0A01 stOk (s.tugEntry 0 ++ s.tugEntry 1) s)) s)

/-- The node has a standby (R439). -/
def State.hasStandby (s : State) : Bool :=
  s.node.form = .span && (s.red.role = .standby || s.red.tugs.any (fun t => t.up && t.peerRole = 2))

/-- Copies of the tasks as this chip leaves them to be the standby. -/
def State.ownCopies (s : State) : Store TaskCopy :=
  (s.ctl.tasks.filter (fun e => e.2.enabled)).foldl (fun m e => Store.ins m e.1
    { bank := e.2.committed, output := e.2.output, info := s.metaBytes e.2, lines := [], complete := some e.2.lastCommit, full := true
      grid := s.trainNow / e.2.periodTt }) []

/-- The active releases its claim and becomes the standby (R419, R439). -/
def switchNow (s : State) : State :=
  match s.red.switchAt with
  | none => s
  | some (r, _) =>
    if s.red.role ≠ .active then s
    else
      let cs := s.ownCopies
      let s1 := haltAll (releaseClaim 10 .standby { s with red := { s.red with switchAt := none } })
      finish r stOk (le 8 s.now) { s1 with red := { s1.red with copies := cs } }

/-- REDUND_SWITCH's effect: a train time of 0 is at once. -/
def effRedundSwitch (a : List Byte) (r : Option AcsRef) (s : State) : State :=
  if !s.hasStandby then finish r stWrongState [] s
  else if fLe a 12 2 ≠ s.time.epoch.toNat then finish r stDenied [] s
  else
    let at_ := ttOf (a.take 12)
    let s1 := { s with red := { s.red with switchAt := some (r, at_) } }
    if s.red.role = .active then (if at_ = 0 then switchNow s1 else s1)
    else finish r stOk [] { s with red := { s.red with switchAt := some (none, at_) } }

/-- REDUND_SWITCH (R439). -/
def execRedundSwitch (c : Acs) (s : State) : Out :=
  .next (acsLen 0x0A02 inLineStates 16 c (redundOnly 0x0A02 c
    (badArgIf (c.nonZero 14 2) 0x0A02 c (fun s =>
      if !s.hasStandby then done c 0x0A02 stWrongState [] s
      else if c.arg 12 2 ≠ s.time.epoch.toNat then done c 0x0A02 stDenied [] s
      else nodeWide 0x0A02 c (effRedundSwitch c.args) s))) s)

/-- REDUND_SWITCH_INSTANT (R419, R439). -/
def execRedundSwitchInstant (s : State) : Out := .next (if s.alive then switchNow s else s)

/-- REDUND_EXCLUDE: this chip leaves the vote, or the member named is told to (R429, R439). -/
def execRedundExclude (c : Acs) (s : State) : Out :=
  .next (acsLen 0x0A03 inLineStates 4 c (redundOnly 0x0A03 c
    (badArgIf (decide (2 < c.arg 0 1) || c.nonZero 1 3) 0x0A03 c (fun s =>
      let i := c.arg 0 1
      if (s.memberList.filter (fun j => decide (j ≠ i))).length < 2 then done c 0x0A03 stDenied [] s
      else
        let s1 := if i = s.node.chipIndex then excludeSelf 6 0 s
          else match s.linkTo i with
            | some l => tugSend l .mgmt 0x01 (mgmtBytes 0x0A03 0 0 0 c.args) s
            | none => s
        done c 0x0A03 stOk [] s1))) s)

/-- REDUND_REJOIN: synchronisation of an excluded chip starts (R429, R430); a cause that asks for a restart still asks for it. -/
def execRedundRejoin (c : Acs) (s : State) : Out :=
  .next (acsLen 0x0A04 inLineStates 0 c (redundOnly 0x0A04 c (fun s =>
    if s.red.excludeCause = 1 || s.red.excludeCause = 3 || !s.red.needRejoin then done c 0x0A04 stWrongState [] s
    else done c 0x0A04 stOk [] (trySync { s with red := { s.red with needRejoin := false } }))) s)

end Sys2Proof.Machine
end

