-- ==== Sys2Proof/Machine/Can.lean ====
section
/-! DEFINITION. Events and commands of the CAN channels (10_can_fd.md). -/
namespace Sys2Proof.Machine

/-- CAN_START_OF_FRAME: the bus is free; a channel in NORMAL or LOOPBACK chooses a pending buffer and drives start of frame (R456). err: the
chosen buffer has a parity error (R468). -/
def execCanStartOfFrame (ch : Nat) (err : Bool) (s : State) : Out :=
  .next (
    let c := s.canCh ch
    if !(c.mode = 1 || c.mode = 4) || !c.ready || c.busOff || c.active.isSome || !s.node.state.running then s
    else match c.choose with
      | none => s
      | some b =>
        if err then canBufParity ch b s
        else emit (.can ch b) (setCan ch (fun c => { c with active := some b })
          (setBuf ch b (fun x => { x with code := cTxActive, msg := { x.msg with sof := s.now, esi := c.passive } }) s)))

/-- The successful end of a buffer's frame (R457, R459, R464). -/
def canSent (ch b : Nat) (s : State) : State :=
  let x := (s.canCh ch).buf b
  let s1 := setCan ch (fun c => { c with active := none }) s
  match x.next with
  | some m => setBuf ch b (fun y => { y with code := cTxPending, msg := m, next := none, bitRun := 0 }) s1
  | none =>
    canTxEnd ch b (fun y => { y with code := cTxDone, late := x.cancel, bitRun := 0 })
      (if x.cancel then count (statCan ch 19) s1 else s1)

/-- CAN_TX_SUCCESS: TX_DONE, TEC down by one, counts; the bridge's next item or request follows (R457, R461, R505, R512). In LOOPBACK the
frame is delivered as well (R453). -/
def execCanTxSuccess (ch : Nat) (s : State) : Out :=
  .next (
    let c := s.canCh ch
    match c.active with
    | none => s
    | some b =>
      let m := (c.buf b).msg
      let s1 := count (statCan ch 2) (if m.fdf then count (statCan ch 3) s else s)
      let s2 := canErrState ch (setCan ch (fun c => { c with tec := c.tec - 1 }) (canSent ch b s1))
      let f : CanFrame := { id := m.id, ide := m.ide, rtr := m.rtr, fdf := m.fdf, brs := m.brs, esi := m.esi, dlc := m.dlc, data := m.data }
      let s3 := if c.mode = 4 then
          let r := canDeliver ch f m.sof s2
          match r.1 with | some t => exportCan ch t r.2 | none => r.2
        else s2
      let s4 := { s3 with br := { s3.br with sessions := s3.br.sessions.map (fun e =>
        (e.1, if e.2.medium = 1 && e.2.unit = ch && decide (e.2.order = some b) then { e.2 with order := none } else e.2)) } }
      canSettle ch (importAll (txnSent ch b s4)))

/-- CAN_ARBITRATION_LOST: the buffer returns to TX_PENDING, and its run of bit errors ends (R457, R458). -/
def execCanArbitrationLost (ch : Nat) (s : State) : Out :=
  .next (match (s.canCh ch).active with
    | none => s
    | some b => canSettle ch (canRequeue ch b (setBuf ch b (fun x => { x with bitRun := 0 }) (count (statCan ch 4) s))))

/-- The 16th consecutive bit error in a data field (R458): 1 LOG, 2 SUSPEND. -/
def duplicateId (ch b : Nat) (s : State) : State :=
  let c := s.canCh ch
  let s1 := logEvent 0x0B04 sevWarning ([byte ch, byte b] ++ le 4 (c.buf b).msg.id ++ [byte (if c.suspends then 2 else 1)])
    (count (statCan ch 17) (setBuf ch b (fun x => { x with bitRun := 0 }) s))
  if c.suspends && decide ((c.buf b).code = cTxPending) then
    raise (.can ch) 7 (canTxEnd ch b (fun x => { x with code := cTxSuspended }) s1)
  else s1

/-- The end of an attempt in an error: the run of bit errors in the data field, then TX_PENDING or what ends it. -/
def canFailed (ch b : Nat) (bitData : Bool) (s : State) : State :=
  let n := if bitData then ((s.canCh ch).buf b).bitRun + 1 else 0
  let s1 := canRequeue ch b (setBuf ch b (fun x => { x with bitRun := n }) s)
  if 16 ≤ n then duplicateId ch b s1 else s1

/-- The counter of an error kind: 1 stuff, 2 form, 3 acknowledgement, 4 and 5 bit, 6 CRC (R469, R471). -/
def errStat (kind : Nat) : Nat :=
  match kind with
  | 1 => 6 | 2 => 7 | 3 => 9 | 6 => 8 | _ => 5

/-- How an error moves TEC and REC (ISO 11898-1): 8 up for a transmitter unless the standard exempts it, 1 up for a receiver, and 8 up for each
further condition of the standard. RESTRICTED and LISTEN_ONLY leave them. -/
def errCounters (tx exempt : Bool) (extra : Nat) (c : CanChan) : CanChan :=
  if c.mode ≠ 1 && c.mode ≠ 4 then c
  else if tx then { c with tec := c.tec + (if exempt then 0 else 8) + 8 * extra }
  else { c with recv := min 255 (c.recv + 1 + 8 * extra) }

/-- CAN_ERROR_DETECTED: counters, LEC, error frame, the attempt's end, error state (R457, R458, R461, R462). kind: 1 to 6 as LEC, 7 a
protocol exception event, which with PEX 0 is a form error (R443). tdc: the loop delay lies beyond R444's range. -/
def execCanErrorDetected (ch : Nat) (tx : Bool) (kind : Nat) (inData exempt : Bool) (extra : Nat) (tdc : Bool) (s : State) : Out :=
  .next (
    let c := s.canCh ch
    let k := if kind = 7 then 2 else kind
    if c.mode = 0 || !c.ready || c.busOff || kind = 0 || decide (7 < kind) then s
    else if kind = 7 && c.pex then count (statCan ch 23) s
    else
      let s1 := count (statCan ch (errStat k)) (if tdc then count (statCan ch 26) s else s)
      let s2 := setCan ch (fun c => { errCounters tx exempt extra c with lec := k }) s1
      let s3 := if c.mode = 1 || c.mode = 4 then emit (.canError ch) s2 else s2
      let s4 := match (if tx then c.active else none) with
        | some b => canFailed ch b (inData && (k = 4 || k = 5)) s3
        | none => s3
      canSettle ch (canErrState ch s4))

/-- BUS_OFF_RECOVERED: back to error active (R462). -/
def execBusOffRecovered (ch : Nat) (s : State) : Out :=
  .next (
    let c := s.canCh ch
    if !c.busOff then s
    else raise (.can ch) 6 (logEvent 0x0B02 sevNotice (byte ch :: le 4 ((s.now - c.busOffAt) / ticksPerMs)) (count (statCan ch 12)
      (setCan ch (fun c => { c with busOff := false, tec := 0, recv := 0, passive := false }) s))))

/-- CAN_INTEGRATION_DONE: the channel takes part in bus traffic (R445). -/
def execCanIntegrationDone (ch : Nat) (s : State) : Out :=
  .next (if (s.canCh ch).mode = 0 then s else setCan ch (fun c => { c with ready := true }) s)

/-- A read of a window register returns a value. -/
def readOut (off : Nat) (r : Nat × State) : State := emit (.read off (BitVec.ofNat 32 r.1)) r.2

/-- CAN_BUFFER_WORD0_READ (R451, R454). -/
def execCanBufferWord0Read (buf : Nat) (err : Bool) (s : State) : Out :=
  .next (if 128 ≤ buf || !s.alive then s else readOut (0x8000 + buf * 0x80) (canRead0 buf err s))

/-- CAN_BUFFER_WORD17_READ (R454). -/
def execCanBufferWord17Read (buf : Nat) (s : State) : Out :=
  .next (if 128 ≤ buf || !s.alive then s else readOut (0x8044 + buf * 0x80) (canRead17 buf s))

/-- CAN_FIFO_HEAD_WORD0_READ (R455). -/
def execCanFifoHeadWord0Read (err : Bool) (s : State) : Out :=
  .next (if !s.alive then s else readOut 0xC400 (fifoRead0 err s))

/-- CAN_FIFO_HEAD_WORD17_READ (R455). -/
def execCanFifoHeadWord17Read (s : State) : Out :=
  .next (if !s.alive then s else readOut 0xC444 (fifoRead17 s))

/-- CAN_WRITE_RX_EMPTY (R450, R454). -/
def execCanWriteRxEmpty (buf : Nat) (s : State) : Out :=
  .next (if 128 ≤ buf || !s.alive then s else canWriteEmpty buf s)

/-- CAN_WRITE_TX_PENDING (R450, R465): w carries the frame fields. -/
def execCanWriteTxPending (buf : Nat) (w : Word) (s : State) : Out :=
  .next (if 128 ≤ buf || !s.alive then s else canWritePending buf w.toNat s)

/-- CAN_WRITE_TX_IDLE (R450). -/
def execCanWriteTxIdle (buf : Nat) (w : Word) (s : State) : Out :=
  .next (if 128 ≤ buf || !s.alive then s else canWriteIdle buf w.toNat s)

/-- CAN_CANCEL_BUFFER (R459). -/
def execCanCancelBuffer (ch buf : Nat) (s : State) : Out :=
  .next (if 128 ≤ buf || !s.alive then s else canCancel ch buf s)

/-- CAN_CANCEL_ALL (R459, R460). -/
def execCanCancelAll (ch : Nat) (s : State) : Out :=
  .next (if !s.alive then s else (List.range 128).foldl (fun s b => canCancel ch b s) s)

/-- CAN_CONFIG_RELOAD_DONE: filters and parameter block are the tack image's again (R468). -/
def execCanConfigReloadDone (ch : Nat) (s : State) : Out :=
  .next (if !(s.canCh ch).reloading then s else
    let fresh := (canLoad s).canCh ch
    canSetBlock 1 ch fresh.block (setCan ch (fun c => { c with
      filtId := fresh.filtId, filtMask := fresh.filtMask, fifoFilt := fresh.fifoFilt, reloading := false, badFilts := [] }) s))

/-- CAN_CONFIG's effect on every chip (R432, R473): at once, or at the end of the frame in progress; a
later one replaces one that still waits. -/
def effCanConfig (a : List Byte) (r : Option AcsRef) (s : State) : State :=
  let ch := fLe a 0 1
  let s1 := match (s.canCh ch).pendCfg with | some (_, r0) => finish r0 stOk [] s | none => s
  canSettle ch (setCan ch (fun c => { c with pendCfg := some (a.drop 4, r) }) s1)

/-- CAN_CONFIG (R473). -/
def execCanConfig (c : Acs) (s : State) : Out :=
  .next (acsLen 0x0B00 inLineStates 36 c (fun s =>
    badArgIf (c.arg 0 1 > 7 || c.nonZero 1 3 || !canBlockOk (c.args.drop 4)) 0x0B00 c (nodeWide 0x0B00 c (effCanConfig c.args)) s) s)

/-- CAN_CONFIG_READ (R473). -/
def execCanConfigRead (c : Acs) (s : State) : Out :=
  .next (acsLen 0x0B01 inServing 4 c (fun s =>
    badArgIf (c.arg 0 1 > 7 || c.nonZero 1 3) 0x0B01 c (fun s =>
      done c 0x0B01 stOk ((s.canCh (c.arg 0 1)).block) s) s) s)

/-! ## Receiving and waking (R453, R467) -/

/-- A frame matches WAKE_ID under an enabled WAKE_MASK of a WAKE channel. -/
def CanChan.wakeMatch (c : CanChan) (f : CanFrame) : Bool :=
  c.wakes && bit (c.blk 20 4) 31 && canMatch f.id f.ide (c.blk 16 4) (c.blk 20 4)

/-- WAKE_MATCH: 1 activity, 2 identifier; counted, logged, raised. -/
def wakeMatched (ch what : Nat) (s : State) : State :=
  raise (.can ch) 9 (logEvent 0x0B07 sevNotice [byte ch, byte what] (count (statCan ch 24) s))

/-- CAN_FRAME_RECEIVE: sof is the tick of its start of frame; bad names a buffer, or 128 the FIFO, whose filter the channel finds with a parity error
(R468). In STABLED a frame can only wake the node. -/
def execCanFrameReceive (ch : Nat) (f : CanFrame) (sof : Nat) (bad : Option Nat) (s : State) : Out :=
  .next (if !s.alive || 8 ≤ ch then s else
    let c := s.canCh ch
    if s.node.state = .stabled then (if c.wakeMatch f then wakeEvent (wakeMatched ch 2 s) else s)
    else if c.mode = 0 || !c.ready && (c.mode = 1 || c.mode = 3) || c.mode = 4 || c.busOff || (f.fdf && !c.fd) then s
    else
      let s1 := match bad with | some b => canConfigParity ch b s | none => s
      let s2 := if c.wakeMatch f then raise (.can ch) 9 (count (statCan ch 24) s1) else s1
      let r := canDeliver ch f sof s2
      let s3 := match r.1 with | some t => exportCan ch t r.2 | none => r.2
      canRxGood ch (txnMatch ch f sof s3))

/-- CAN_WAKE_ACTIVITY: a dominant level held for WAKE_FILTER on a WAKE channel in STABLED. -/
def execCanWakeActivity (ch : Nat) (s : State) : Out :=
  .next (if !s.alive || 8 ≤ ch || s.node.state ≠ .stabled then s else
    let c := s.canCh ch
    if c.wakes && c.blk 14 2 ≠ 0 then wakeEvent (wakeMatched ch 1 s) else s)

end Sys2Proof.Machine
end

