-- ==== Sys2Proof/Machine/WindowOps.lean ====
section
/-! DEFINITION. Windows C, M and X (R558 to R567): every register read and write, with its side effects. -/
namespace Sys2Proof.Machine

/-! ## Time registers (R149 to R154) -/

/-- The effective rate of selected train time: while the slew term falls, SLEW_MAX less or more (R129, R149). -/
def State.effRate (s : State) : Nat :=
  let t := s.time.slewAt s.slewMax s.now
  let k := 5 * s.slewMax * 2 ^ 60 / 3000000
  if t > 0 then s.time.cur.rate - k else if t < 0 then s.time.cur.rate + k else s.time.cur.rate

/-- The other domain's time minus selected train time in ns, saturating; 0 where it is FREE or DISABLED (R149). -/
def State.domDiff (s : State) : Int :=
  let d := if s.time.sel = 0 then s.time.sec else s.time.pri
  if d.st = .free ∨ d.st = .disabled then 0
  else max (-(2 ^ 31 - 1)) (min (2 ^ 31 - 1) (Int.tdiv (d.timeAt s.now 0 - s.selTime s.now 0) 65536))

/-- A read of SNAP_FC_LO latches the SNAP_ registers (R149). -/
def snapRead (s : State) : Nat × State :=
  let n : Snap := { fc := s.now, tt := s.trainNow, info := BitVec.ofNat 32 s.snapInfo, rate := BitVec.ofNat 64 s.effRate
                    domDiff := BitVec.ofInt 32 s.domDiff }
  (s.now % 2 ^ 32, { s with time := { s.time with snap := n } })

/-- A read of PPSIN_STAT (R149, R152). -/
def ppsinRead (s : State) : Nat × State :=
  let t := s.time
  (flag t.ppsNew 31 + flag t.ppsOvr 30 + t.ppsCount % 4096 * 16 + t.ppsFrac % 16
    , { s with time := { t with ppsLatch := t.ppsTick, ppsNew := false, ppsOvr := false } })

/-- A read of TXTS_POP (R154). -/
def txtsPop (s : State) : Nat × State :=
  let p := s.time.txtsSel
  let q := s.txq p
  match q.entries with
  | [] => (0, s)
  | e :: rest => (2 ^ 31 + flag e.ovf 30 + flag e.fail 29 + flag e.late 28 + e.frac % 16 * 2 ^ 20 + p % 16 * 2 ^ 16 + e.id % 65536
      , { s with time := { s.time with txts := s.time.txts.set p { q with entries := rest }, txtsTick := e.tick } })

/-! ## Statistics (R269 to R271) -/

/-- A statistics word lies in a block of Window C (R562). -/
def statWord (k : Nat) : Bool := decide (k < 1376) || inRange 1536 1599 k || inRange 2048 2367 k

/-- A block of 32 words: a CAN channel's or a legacy unit's. -/
def statSmall (k : Nat) : Bool := decide (1024 ≤ k) && decide (k < 1376)

/-- A word is a saturation map. -/
def isSat (k : Nat) : Bool := statWord k && (if statSmall k then k % 32 = 31 else decide (62 ≤ k % 64))

/-- A word is a counter. -/
def isCounter (k : Nat) : Bool := statWord k && !isSat k

/-- The counters that a saturation map covers, bit by bit (R271). -/
def satBits (k : Nat) : List Nat :=
  if statSmall k then (List.range 31).map (fun i => k - 31 + i)
  else if k % 64 = 62 then (List.range 32).map (fun i => k - 62 + i)
  else (List.range 30).map (fun i => k - 31 + i)

/-- What a statistics word reads. -/
def State.statValue (s : State) (k : Nat) : Nat :=
  if isSat k then sumOf ((satBits k).mapIdx (fun i j => flag (Store.get false s.stats.sat j) i))
  else if isCounter k then Store.get 0 s.stats.count k else 0

/-- Reading a counter clears it; reading a map clears the map (R271). -/
def statClear (k : Nat) (s : State) : State :=
  if isSat k then { s with stats := { s.stats with sat := (satBits k).foldl (fun m j => Store.put false m j false) s.stats.sat } }
  else if isCounter k then { s with stats := { s.stats with count := Store.put 0 s.stats.count k 0 } }
  else s

/-- A read of a statistics word. -/
def statRead (k : Nat) (s : State) : Nat × State := (s.statValue k, statClear k s)

/-! ## Register values -/

/-- A 128-bit map of a CAN channel, word by word. -/
def CanChan.fullMap (c : CanChan) (w : Nat) : Nat := sumOf ((List.range 32).map (fun i => flag ((c.buf (32 * w + i)).code = cRxFull) i))

/-- Registers of a ring (R244 to R252). -/
def Ring.reg (tx : Bool) (r : Ring) (off : Nat) : Nat :=
  match off with
  | 0x00 => r.base.toNat % 2 ^ 32
  | 0x04 => r.base.toNat / 2 ^ 32
  | 0x08 => r.size
  | 0x0C => flag r.enable 31 + (if tx then flag r.late 29 else
      flag r.stream 30 + flag r.keepFcs 28 + flag r.roEn 27 + r.bufUnits * 65536 + r.holdUs)
  | 0x10 => r.tail
  | 0x14 => r.head
  | 0x18 => r.irqCount * 65536 + r.irqDelay
  | 0x1C => if tx then 0 else r.selCls.toNat * 2 ^ 24 + r.selPort.toNat
  | 0x20 => flag r.stopped 7 + flag r.noDma 6 + flag r.fetchErr 3 + flag r.descErr 2 + flag r.nobuf 1 + b01 r.holdDrop
  | _ => 0

/-- Registers of a mailbox's control block (R571). -/
def Mailbox.reg (b : Mailbox) (off : Nat) : Nat :=
  match off with
  | 0x04 => b.statusReg
  | 0x08 => b.seqReg
  | 0x0C => flag b.notifyEn 1 + b01 b.doneEn
  | _ => 0

/-- The time registers without their reads' side effects (R149). -/
def State.timeReg (s : State) (off : Nat) : Nat :=
  let t := s.time
  let n := t.snap
  match off with
  | 0x2000 => n.fc % 2 ^ 32
  | 0x2004 => n.fc / 2 ^ 32
  | 0x2008 => n.tt / ttSec % 2 ^ 32
  | 0x200C => n.tt % ttNs * 65536 + n.tt / ttSec / 2 ^ 32 % 65536
  | 0x2010 => n.tt % ttSec / ttNs
  | 0x2014 => n.info.toNat
  | 0x2018 => n.rate.toNat % 2 ^ 32
  | 0x201C => n.rate.toNat / 2 ^ 32
  | 0x2020 => n.domDiff.toNat
  | 0x2044 => t.ppsLatch % 2 ^ 32
  | 0x2048 => t.ppsLatch / 2 ^ 32
  | 0x2080 => t.txtsSel
  | 0x2088 => t.txtsTick % 2 ^ 32
  | 0x208C => t.txtsTick / 2 ^ 32
  | _ => 0

/-- Registers of a CAN channel block (R446). -/
def State.canBlockReg (s : State) (ch off : Nat) : Nat :=
  let c := s.canCh ch
  if off = 0x00 then s.canStatusReg ch
  else if off = 0x08 then c.lockTick % 2 ^ 32
  else if off = 0x0C then c.lockTick / 2 ^ 32 % 2 ^ 32
  else if off = 0x10 then (s.cause (.can ch)).cause.toNat
  else if off = 0x14 then (s.cause (.can ch)).mask.toNat
  else if 0x20 ≤ off ∧ off < 0x30 then c.fullMap ((off - 0x20) / 4)
  else if 0x30 ≤ off ∧ off < 0x40 then c.txEvent.toNat / 2 ^ (32 * ((off - 0x30) / 4)) % 2 ^ 32
  else 0

/-- The CAN registers without their reads' side effects (R446 to R455). -/
def State.canReg (s : State) (off : Nat) : Nat :=
  let c := s.canCh s.can.winSel
  if off < 0xC000 then (c.buf ((off - 0x8000) / 0x80)).word (off % 0x80 / 4)
  else if off < 0xC200 then Store.get 0 c.filtMask ((off - 0xC000) / 4)
  else if off < 0xC400 then Store.get 0 c.filtId ((off - 0xC200) / 4)
  else if off < 0xC448 then (match c.fifo with | [] => 0 | m :: _ => (fifoBuf m c.fifoLock).word ((off - 0xC400) / 4))
  else if 0xC480 ≤ off ∧ off < 0xC4C0 then Store.get 0 c.fifoFilt ((off - 0xC480) / 4)
  else if off = 0xC700 then s.can.winSel
  else if 0xC800 ≤ off then s.canBlockReg ((off - 0xC800) / 0x100) (off % 0x100)
  else 0

/-- A register of the interrupt area (R590, R591). -/
def State.causeReg (s : State) (off : Nat) : Nat :=
  if off = 0x100 then s.irqSummary
  else if off = 0x104 then s.mbxDoneMap
  else if off = 0x150 then s.canCauseReg
  else match causeAt off with
    | some b => if off % 8 = 0 then (s.cause b).cause.toNat else (s.cause b).mask.toNat
    | none => 0

/-- A register of the identification area (R563). -/
def State.idReg (s : State) (off : Nat) : Nat :=
  match off with
  | 0x00 => 0x9460
  | 0x04 => 0xB1
  | 0x08 => s.fwVersion
  | 0x0C => s.acsVersion
  | 0x10 => s.nodeStateReg
  | 0x14 => s.hitch.gen.toNat
  | 0x18 => s.hitchInfoReg
  | 0x1C => s.nodeRoleReg
  | 0x20 => s.logStatusReg
  | 0x24 => s.hostWatchReg
  | 0x28 => Config.serial % 2 ^ 32
  | 0x2C => Config.serial / 2 ^ 32 % 65536
  | 0x30 => s.node.nid.toNat % 2 ^ 32
  | 0x34 => s.node.nid.toNat / 2 ^ 32
  | 0x38 => s.host.scratch.toNat
  | _ => 0

/-- What an aligned word of Window C holds, without the side effects of a read (R562). -/
def State.regC (s : State) (off : Nat) : Nat :=
  if off < 0x100 then s.idReg off
  else if off < 0x200 then s.causeReg off
  else if off < 0x400 then 0
  else if off < 0x600 then (s.rxRing ((off - 0x400) / 0x40)).reg false (off % 0x40)
  else if off < 0x800 then (s.txRing ((off - 0x600) / 0x40)).reg true (off % 0x40)
  else if off < 0x1000 then 0
  else if off < 0x2000 then (s.host.box ((off - 0x1000) / 0x100)).reg (off % 0x100)
  else if off < 0x2100 then s.timeReg off
  else if off < 0x4000 then 0
  else if off < 0x8000 then s.statValue ((off - 0x4000) / 4)
  else if off < 0xD000 then s.canReg off
  else 0

/-- A read of an aligned word of Window C, with its side effect (R567). -/
def readC (off : Nat) (s : State) : Nat × State :=
  if off = 0x2000 then snapRead s
  else if off = 0x2040 then ppsinRead s
  else if off = 0x2084 then txtsPop s
  else if 0x4000 ≤ off ∧ off < 0x8000 then statRead ((off - 0x4000) / 4) s
  else if 0x8000 ≤ off ∧ off < 0xC000 ∧ off % 0x80 = 0 then canRead0 ((off - 0x8000) / 0x80) false s
  else if 0x8000 ≤ off ∧ off < 0xC000 ∧ off % 0x80 = 0x44 then canRead17 ((off - 0x8000) / 0x80) s
  else if off = 0xC400 then fifoRead0 false s
  else if off = 0xC444 then fifoRead17 s
  else (s.regC off, s)

/-! ## Window M (R565) -/

/-- The counter whose mirror lies at an offset of Window M from 0x2_0000 (R272 and the chapters' own). -/
def mirrorAt (a : Nat) : Option Nat :=
  let small (base b0 : Nat) : Option Nat := some (b0 + (a - base) / 8)
  if a < 0x20000 then none
  else if a < 0x22000 then small 0x20000 0
  else if a < 0x24000 then none
  else if a < 0x24200 then small 0x24000 2048
  else if a < 0x24400 then small 0x24200 2112
  else if a < 0x24600 then small 0x24400 2176
  else if a < 0x24E00 then small 0x24600 1024
  else if a < 0x25100 then small 0x24E00 1280
  else if a < 0x25200 then none
  else if a < 0x25400 then small 0x25200 2240
  else if a < 0x25600 then small 0x25400 1536
  else if a < 0x25800 then small 0x25600 2304
  else none

/-- One byte of a little-endian number. -/
def byteOf (v i : Nat) : Byte := byte (v / 256 ^ i)

/-- The freshness map (R303). -/
def State.freshByte (s : State) (i : Nat) : Byte :=
  byte (sumOf ((List.range 8).map (fun k => flag (match Store.find s.stream.ctxs (8 * i + k) with
    | some c => decide (c.fresh = .fresh)
    | none => false) k)))

/-- A byte of Window M; offsets that R565 does not name read 0. -/
def State.byteM (s : State) (a : Nat) : Byte :=
  if a < 0x20000 then Mem.read s.mem a
  else match mirrorAt a with
    | some k => byteOf (Store.get 0 s.stats.mirror k) (a % 8)
    | none =>
      if 0x30000 ≤ a ∧ a < 0x30040 then byteOf (s.idReg (a % 0x40 / 4 * 4)) (a % 4)
      else if 0x30100 ≤ a ∧ a < 0x30170 then byteOf (s.causeReg ((a - 0x30000) / 4 * 4)) (a % 4)
      else if 0x31000 ≤ a ∧ a < 0x31100 then s.freshByte (a - 0x31000)
      else 0

/-- Bytes of Window M. -/
def State.bytesM (s : State) (a n : Nat) : List Byte := (List.range n).map (fun i => s.byteM (a + i))

/-! ## Writes -/

/-- A write of a ring register (R244 to R252). -/
def ringWrite (tx : Bool) (n off v : Nat) (s : State) : State :=
  let r := s.ring tx n
  match off with
  | 0x00 => if r.enable then s else setRing tx n (fun r => { r with base := BitVec.ofNat 64 (r.base.toNat / 2 ^ 32 * 2 ^ 32 + v / 64 * 64) }) s
  | 0x04 => if r.enable then s else setRing tx n (fun r => { r with base := BitVec.ofNat 64 (v * 2 ^ 32 + r.base.toNat % 2 ^ 32) }) s
  | 0x08 => if r.enable || !([64, 128, 256, 512, 1024, 2048, 4096] : List Nat).contains (v % 8192) then s
      else setRing tx n (fun r => { r with size := v % 8192 }) s
  | 0x0C => ringCtrl tx n v s
  | 0x10 => ringTail tx n (v % 4096) s
  | 0x18 =>
    let c := bits v 23 16
    setRing tx n (fun r => { r with irqCount := if c = 0 then r.irqCount else c, irqDelay := if v % 65536 ≤ 1000 then v % 65536 else r.irqDelay }) s
  | 0x1C => if tx then s else setRx n (fun r => { r with selCls := BitVec.ofNat 8 (v / 2 ^ 24), selPort := BitVec.ofNat 16 v }) s
  | 0x20 => setRing tx n (fun r => { r with
      fetchErr := r.fetchErr && !bit v 3, descErr := r.descErr && !bit v 2, nobuf := r.nobuf && !bit v 1, holdDrop := r.holdDrop && !bit v 0 }) s
  | _ => s

/-- A write of the doorbell (R571, R572, R576). -/
def doorbell (m v agent : Nat) (s : State) : State :=
  if bit v 31 then abortBox false m s else submit m (bits v 21 16) (BitVec.ofNat 16 v) agent s

/-- A write of a mailbox's control block (R571). -/
def mbxWrite (m off v agent : Nat) (s : State) : State :=
  match off with
  | 0x00 => doorbell m v agent s
  | 0x04 => clearMbx m v s
  | 0x0C => { s with host := s.host.setBox m (fun b => { b with notifyEn := bit v 1, doneEn := bit v 0 }) }
  | _ => s

/-- The host may write a buffer's filter: a HOST receive buffer's, or those of a HOST FIFO (R450, R452). -/
def State.filtHost (s : State) (b : Nat) : Bool :=
  let ch := s.can.winSel
  s.canOwnerOf ch b = 0 && (if b = 128 then s.canKind ch b = 3 else s.canKind ch b = 1)

/-- A write of a CAN channel block (R446, R459, R460, R470). -/
def canBlockWrite (ch off v : Nat) (s : State) : State :=
  if off = 0x04 then
    (if bit v 31 then (List.range 128).foldl (fun s b => canCancel ch b s) s else canCancel ch (v % 128) s)
  else if off = 0x10 then clearCause (.can ch) (BitVec.ofNat 32 v) s
  else if off = 0x14 then setMask (.can ch) (BitVec.ofNat 32 v) s
  else if 0x30 ≤ off ∧ off < 0x40 then
    setCan ch (fun c => { c with txEvent := c.txEvent &&& ~~~ (BitVec.ofNat 128 v <<< (32 * ((off - 0x30) / 4))) }) s
  else s

/-- A write of a CAN register (R446 to R452). -/
def canRegWrite (off v : Nat) (s : State) : State :=
  let ch := s.can.winSel
  if off < 0xC000 then
    let b := (off - 0x8000) / 0x80
    let n := off % 0x80 / 4
    if n = 0 then canWrite0 b v s else if n < 18 then canWriteWord b n v s else s
  else if off < 0xC200 then
    let b := (off - 0xC000) / 4
    if s.filtHost b then setCan ch (fun c => { c with filtMask := Store.put 0 c.filtMask b (v % 2 ^ 30) }) s else s
  else if off < 0xC400 then
    let b := (off - 0xC200) / 4
    if s.filtHost b then setCan ch (fun c => { c with filtId := Store.put 0 c.filtId b (v % 2 ^ 30) }) s else s
  else if 0xC480 ≤ off ∧ off < 0xC4C0 then
    let k := (off - 0xC480) / 4
    let w := if k % 2 = 1 then v % 2 ^ 30 + flag (bit v 31) 31 else v % 2 ^ 30
    if s.filtHost 128 then setCan ch (fun c => { c with fifoFilt := Store.put 0 c.fifoFilt k w }) s else s
  else if off = 0xC700 then { s with can := { s.can with winSel := v % 8 } }
  else if 0xC800 ≤ off then canBlockWrite ((off - 0xC800) / 0x100) (off % 0x100) v s
  else s

/-- A write of an aligned word of Window C (R13, R14, R562). -/
def writeC (agent off v : Nat) (s : State) : State :=
  if off = 0x24 then hostWatch v s
  else if off = 0x38 then { s with host := { s.host with scratch := BitVec.ofNat 32 v } }
  else if off < 0x100 then s
  else if off < 0x200 then
    if off % 8 = 0 then causeWrite off (BitVec.ofNat 32 v) s
    else match causeAt off with
      | some b => if off % 8 = 4 then setMask b (BitVec.ofNat 32 v) s else s
      | none => s
  else if off < 0x400 then s
  else if off < 0x600 then ringWrite false ((off - 0x400) / 0x40) (off % 0x40) v s
  else if off < 0x800 then ringWrite true ((off - 0x600) / 0x40) (off % 0x40) v s
  else if off < 0x1000 then s
  else if off < 0x2000 then mbxWrite ((off - 0x1000) / 0x100) (off % 0x100) v agent s
  else if off = 0x2080 then (if v % 16 = 15 then s else { s with time := { s.time with txtsSel := v % 16 } })
  else if off < 0x8000 then s
  else if off < 0xD000 then canRegWrite off v s
  else s

/-- A write into Window M (R559, R573): only request buffers take it. -/
def writeM (a : Nat) (data : List Byte) (s : State) : State :=
  if 0x20000 ≤ a then s else requestWrite (a / 0x2000) (a % 0x2000) data s

/-- A write of an aligned word of the MSI-X table (R566): vector control holds the mask bit, the rest the message's address and data. -/
def writeX (off v : Nat) (s : State) : State :=
  let n := off / 16
  let w := off / 4 % 4
  if 32 ≤ n then s
  else if w = 3 then
    (if bit v 0 then { s with host := { s.host with vecMask := s.host.vecMask ||| bit32 n } } else unmask n s)
  else { s with host := { s.host with vecTable := Store.put 0 s.host.vecTable (n * 4 + w) (BitVec.ofNat 32 v) } }

/-- A write of a register of the download capability (R603). -/
def writeDl (off v : Nat) (s : State) : State :=
  let b := s.boot
  let a := b.dlAddr.toNat
  match off with
  | 0x08 => { s with boot := { b with dlAddr := BitVec.ofNat 64 (a / 2 ^ 32 * 2 ^ 32 + v) } }
  | 0x0C => { s with boot := { b with dlAddr := BitVec.ofNat 64 (v * 2 ^ 32 + a % 2 ^ 32) } }
  | 0x10 => { s with boot := { b with dlLen := BitVec.ofNat 32 v } }
  | _ => s

/-! ## QSPI (R559, R560) -/

/-- The words from an address that lie in its window: Window C at 0, Window M at 0x0100_0000. -/
def qspiRoom (addr : Nat) : Nat :=
  if addr % 4 ≠ 0 then 0
  else if addr < 0x10000 then (0x10000 - addr) / 4
  else if 0x1000000 ≤ addr ∧ addr < 0x1040000 then (0x1040000 - addr) / 4
  else 0

/-- A transaction that was malformed sets ERR, which STATUS clears, and is counted (R560). -/
def qspiEnd (bad : Bool) (s : State) : State :=
  let s1 := { s with host := { s.host with qspiSeen := true, qspiErr := s.host.qspiErr || bad } }
  if bad then count (statHost 10) s1 else s1

/-- A QSPI write transaction, single or quad (R560): each whole word is an access of its own. -/
def qspiWrite (addr : Nat) (data : List Byte) (s : State) : State :=
  let n := min (data.length / 4) (qspiRoom addr)
  let s1 := (List.range n).foldl (fun s i =>
    let w := slice data (4 * i) 4
    let a := addr + 4 * i
    if a < 0x10000 then writeC 2 a (leNat w) s else writeM (a - 0x1000000) w s) s
  qspiEnd (decide (addr % 4 ≠ 0) || decide (data.length % 4 ≠ 0) || decide (n < data.length / 4)) s1

/-- A QSPI read transaction (R560): the marker, then the words; cut: it ended within the word after them. -/
def qspiRead (addr words : Nat) (cut : Bool) (s : State) : State :=
  let n := min words (qspiRoom addr)
  let r := (List.range n).foldl (fun (x : List Byte × State) i =>
    let a := addr + 4 * i
    if a < 0x10000 then
      let v := readC a x.2
      (x.1 ++ le 4 v.1, v.2)
    else (x.1 ++ x.2.bytesM (a - 0x1000000) 4, x.2)) ([], s)
  emit (.qspi (0xA5 :: r.1)) (qspiEnd (decide (addr % 4 ≠ 0) || cut || decide (n < words)) r.2)

/-! ## Pins -/

/-- The level of a GPIO output (R561, R650): the one named HOST_IRQ_GPIO follows IRQ_SUMMARY, low while it is not 0. -/
def State.gpioLevel (s : State) (n : Nat) : Level :=
  if s.param? 1 5 0xFFFF = some n then (if s.irqSummary = 0 then .high else .low)
  else if s.param 1 8 n 0 = 1 then (if s.pwr.gpioOut.getLsbD n then .high else .low)
  else .hiz

end Sys2Proof.Machine
end

