-- ==== Sys2Proof/Machine/Bridge.lean ====
section
/-! DEFINITION. Events and commands of the Saddlebag bridge (12_saddlebag_bridge.md). -/
namespace Sys2Proof.Machine

/-! ## Serving reads (R508, R511, R512) -/

/-- What a space holds (R508): status and data. The windows' words are little-endian. -/
def readSpace (body : List Byte) (vol : Bool) (s : State) : (Nat × List Byte) × State :=
  let unit := fBe body 1 1
  let index := fBe body 2 2
  let off := fBe body 4 4
  let len := fBe body 8 2
  let lenBad := decide (len < 4 ∨ 1024 < len ∨ len % 4 ≠ 0 ∨ off % 4 ≠ 0)
  match fBe body 0 1 with
  | 1 =>
    if lenBad then ((stBadArg, []), s)
    else if 0x40000 < off + len then ((stDenied, []), s) else ((stOk, s.bytesM off len), s)
  | 2 =>
    if lenBad then ((stBadArg, []), s)
    else if off + len ≤ 0x100 then ((stOk, (List.range (len / 4)).flatMap (fun i => le 4 (s.regC (off + 4 * i)))), s)
    else if 0x4000 ≤ off ∧ off + len ≤ 0x8000 ∧ vol then
      let r := (List.range (len / 4)).foldl (fun (x : List Byte × State) i =>
        let v := statRead ((off + 4 * i - 0x4000) / 4) x.2
        (x.1 ++ le 4 v.1, v.2)) ([], s)
      ((stOk, r.1), r.2)
    else ((stDenied, []), s)
  | 3 =>
    if 7 < unit ∨ 127 < index ∨ len ≠ 0 then ((stBadArg, []), s)
    else ((stOk, (List.range 18).flatMap (fun w => le 4 (((s.canCh unit).buf index).word w))), s)
  | 4 =>
    if 2 < unit ∨ len ≠ 0 then ((stBadArg, []), s)
    else match s.legRec unit index with
      | some r => ((stOk, s.legHeader unit index r ++ s.legData unit index r), s)
      | none => ((stBadArg, []), s)
  | _ => ((stDenied, []), s)

/-- A CAN transaction begins, or its refusal (R512). -/
def startTxn (who : Asker) (body : List Byte) (s : State) : State :=
  let ch := fBe body 1 1
  let item := (itemAt (body.drop 24)).getD []
  let m := itemCan item
  if 7 < ch ∨ fBe item 0 1 ≠ 1 ∨ !(s.canCh ch).sendable m then respond who stBadArg s.now [] s
  else if !s.node.state.running || (s.canCh ch).mode ≠ 1 || (s.txnBuffer ch).isNone then respond who stWrongState s.now [] s
  else if 256 ≤ s.br.txns.length then respond who stNoResource s.now [] s
  else
    let t : CanTxn := { who := who, chan := ch, item := item, rspId := fBe body 16 4, rspMask := fBe body 20 4 }
    txnPlace ch { s with br := { s.br with txns := s.br.txns ++ [t] } }

/-- The owner chip serves a request (R508, R511): a volatile one once only. -/
def serveRead (who : Asker) (body : List Byte) (s : State) : State :=
  let vol := bit who.flags 0
  let same (x : Served) : Bool := x.who.nid = who.nid && x.who.chip = who.chip && x.who.reqId = who.reqId
  let go (s : State) : State :=
    if fBe body 0 1 = 5 then startTxn who body s
    else
      let r := readSpace body vol s
      respond who r.1.1 s.now r.1.2 r.2
  if !vol then go s
  else match s.br.served.find? same with
    | none => go { s with br := { s.br with served := s.br.served ++ [{ who := who, body := none }] } }
    | some x =>
      let again (b : List Byte) (s : State) : State :=
        let h : SbHdr := { kind := 3, flags := 1, items := 1, src := s.node.nid, dst := who.nid, srcF := 0xFF20, dstF := 0xFF20
                           gen := s.hitch.gen, seq := who.reqId, chip := who.chip }
        sendEnvelope h b (count (statBridge 16) (count (statBridge 15) s))
      if x.bad then again (be 2 stMedia ++ zeros 14) s
      else match x.body with
        | some b => again b s
        | none => s

/-- The link to the chip that owns the node's outputs, if another chip does. -/
def State.ownerLink (s : State) : Option Nat := s.linkTo (if s.node.form = .troika then s.red.leader else 1 - s.node.chipIndex)

/-- A READ_REQ envelope reaches this chip: the owner serves it in the states in line, another chip passes it on REQ where it came from outside
(R514, R515). -/
def takeRequest (outside : Bool) (b : List Byte) (s : State) : State :=
  let h := sbHdrOf b
  if s.bridgeOwner then
    if !s.node.state.inLine then s
    else serveRead { nid := h.src, chip := h.chip, reqId := h.seq, flags := h.flags } (b.drop 32) s
  else if outside then (match s.ownerLink with | some l => sendEnvTug l .req b s | none => s)
  else s

/-! ## Frames from the switch (R496, R498, R514) -/

/-- A received Saddlebag frame of a kind, past the checks every one meets (R496, R498). -/
def onEnvelope (kind : Nat) (f : Frame) (go : List Byte → State → State) (s : State) : State :=
  let b := f.payload
  let h := sbHdrOf b
  if !s.alive || !s.boot.fwRunning then s
  else if !envelopeOk b then count (statBridge 18) s
  else
    let s1 := if f.sa = bridgeMac s.node.nid && decide (h.src ≠ s.node.nid) then
        raise .bridge 4 (logEvent 0x0D05 sevError (macBytes f.sa ++ nidBytes s.node.nid ++ nidBytes h.src) s)
      else s
    if h.dst ≠ s.node.nid then count (statBridge 17) s1
    else if h.kind ≠ kind then s1
    else go b s1

/-- TUNNEL_RECEIVE (R498, R504, R505): err 1 a parity error in the session's record, 2 in its import queue (R516). Every chip of the node gets it (R514). -/
def execTunnelReceive (f : Frame) (err : Nat) (s : State) : Out :=
  .next (onEnvelope 1 f (fun b s =>
    let h := sbHdrOf b
    let s1 := s.carriers.foldl (fun s l => sendEnvTug l .req b s) s
    match s.br.sessions.find? (fun e => e.2.enabled && e.2.imports && e.2.f 4 2 = h.dstF) with
    | none => takeTunnel b s1
    | some e =>
      if err = 1 then count (statBridge 4) (bridgeParity 1 1 (setSession e.1 (fun x => { x with reloading := true }) s1))
      else if err = 2 && !e.2.queue.isEmpty then takeTunnel b (bridgeParity 2 2 (tunDrop e.1 1 1 (popImport e.1 s1)))
      else if e.2.reloading then count (statBridge 4) s1
      else takeTunnel b s1) s)

/-- READ_REQ_RECEIVE (R508, R511, R512): err: the cached response to this request has a parity error (R516). -/
def execReadReqReceive (f : Frame) (err : Bool) (s : State) : Out :=
  .next (onEnvelope 2 f (fun b s =>
    let h := sbHdrOf b
    let same (x : Served) : Bool := x.who.nid = h.src && x.who.chip = h.chip && x.who.reqId = h.seq
    let s1 := if err && s.br.served.any (fun x => same x && x.body.isSome && !x.bad) then
        bridgeParity 4 4 { s with br := { s.br with served := s.br.served.map (fun x => if same x then { x with bad := true } else x) } }
      else s
    takeRequest true b s1) s)

/-- A response reaches the chip it is for, or goes there on RSP (R510, R514). -/
def routeResponse (b : List Byte) (s : State) : State :=
  let h := sbHdrOf b
  if h.chip = s.node.chipIndex then takeResponse b s
  else match s.linkTo h.chip with
    | some l => sendEnvTug l .rsp b s
    | none => s

/-- READ_RSP_RECEIVE (R509, R510): err: the tag entry has a parity error, and the read completes with MEDIA_FAULT (R516). -/
def execReadRspReceive (f : Frame) (err : Bool) (s : State) : Out :=
  .next (onEnvelope 3 f (fun b s =>
    let h := sbHdrOf b
    match (if err && h.chip = s.node.chipIndex then s.br.reads.find? (fun o => o.reqId = h.seq) else none) with
    | some o => endRead o stMedia { reqId := h.seq, status := stMedia, stamp := 0, data := [] } (bridgeParity 3 3 s)
    | none => routeResponse b s) s)

/-! ## Segments on the tug links (R514) -/

/-- A segment joins its envelope; the whole envelope, where this was its last. -/
def envSegment (c : TugChan) (m : TugRx) (s : State) : Option (List Byte) × State :=
  let first := bit (fBe m.data 0 1) 0
  let last := bit (fBe m.data 0 1) 1
  let num := fBe m.data 2 2
  let here (r : Reassembly) : Bool := r.link = m.link && decide (r.chan = c)
  let old := s.red.parts.find? here
  let s1 := { s with red := { s.red with parts := s.red.parts.filter (fun r => !here r) } }
  let s2 := if first && old.isSome then count (statBridge 19) s1 else s1
  let head := if first then some [] else (match old with | some r => if r.num = num then some r.data else none | none => none)
  match head with
  | none => (none, count (statBridge 19) s2)
  | some d =>
    let all := d ++ m.data.drop 4
    if last then (some all, s2)
    else (none, { s2 with red := { s2.red with parts := s2.red.parts ++ [{ link := m.link, chan := c, num := num, head := [], data := all }] } })

/-- TUG_REQ_SEGMENT_RECEIVE (R514). -/
def execTugReqSegmentReceive (m : TugRx) (s : State) : Out :=
  .next (onTug .req m (fun s =>
    match envSegment .req m s with
    | (none, s1) => s1
    | (some b, s1) => if (sbHdrOf b).kind = 1 then takeTunnel b s1 else takeRequest false b s1) s)

/-- TUG_RSP_SEGMENT_RECEIVE (R514). -/
def execTugRspSegmentReceive (m : TugRx) (s : State) : Out :=
  .next (onTug .rsp m (fun s =>
    match envSegment .rsp m s with
    | (none, s1) => s1
    | (some b, s1) => if (sbHdrOf b).chip = s1.node.chipIndex then takeResponse b s1 else s1) s)

/-! ## Timers -/

/-- EXPORT_HOLD_EXPIRY (R502). -/
def execExportHoldExpiry (session : Nat) (s : State) : Out :=
  .next (if !s.node.state.inLine || !s.bridgeOwner then s else sendExport session s)

/-- TUN_AGED: the oldest item of a session's import queue has waited ITEM_MAX_AGE (R505). -/
def execTunAged (session : Nat) (s : State) : Out :=
  .next (match s.session? session with
    | some x => if x.queue.isEmpty then s else importPlace session (tunDrop session 2 1 (popImport session s))
    | none => s)

/-- Send a read's request: a frame, or for this node's own NID the request inside the node (R521). -/
def issueRead (o : OpenRead) (resend : Bool) (s : State) : State :=
  if o.dst ≠ s.node.nid then sendRead o resend s
  else
    let h : SbHdr := { kind := 2, flags := o.flags + flag resend 2, items := 1, src := s.node.nid, dst := o.dst, srcF := 0xFF20
                       dstF := 0xFF20, gen := s.hitch.gen, seq := o.reqId, chip := s.node.chipIndex }
    takeRequest true (h.bytes ++ o.body) s

/-- READ_RESEND: half the timeout of a read that is not volatile has passed (R511). -/
def execReadResend (reqId : Nat) (s : State) : Out :=
  .next (match s.br.reads.find? (fun o => o.reqId = reqId) with
    | some o =>
      if o.vol || o.resent then s
      else issueRead o true (count (statBridge 14) { s with br := { s.br with
        reads := s.br.reads.map (fun x => if x.reqId = reqId then { x with resent := true } else x) } })
    | none => s)

/-- READ_TIMEOUT (R510). -/
def execReadTimeout (reqId : Nat) (s : State) : Out :=
  .next (match s.br.reads.find? (fun o => o.reqId = reqId) with
    | some o =>
      endRead o stTimeout { reqId := reqId, status := stTimeout, stamp := 0, data := [] }
        (raise .bridge 1 (logEvent 0x0D02 sevNotice (le 2 reqId ++ nidBytes o.dst ++ [byte o.space]) (count (statBridge 12) s)))
    | none => s)

/-- RESPONDER_REQUEST_EXPIRY: a request's TIMEOUT_MS has passed since its receipt: it is dropped, and the kept response with it (R511). -/
def execResponderRequestExpiry (nid : Nid) (chip reqId : Nat) (s : State) : Out :=
  .next (
    let mine (w : Asker) : Bool := w.nid = nid && w.chip = chip && w.reqId = reqId
    let txns := s.br.txns.eraseIdx (s.br.txns.findIdx (fun t => mine t.who))
    { s with br := { s.br with txns := txns, served := s.br.served.filter (fun x => !mine x.who) } })

/-- SESSION_RELOAD_DONE: the record is the tack image's again, and what a command had changed is lost (R516). -/
def execSessionReloadDone (session : Nat) (s : State) : Out :=
  .next (match s.session? session with
    | none => s
    | some x =>
      if !x.reloading then s else
      let rec' := ((records (s.sectionOf 0x19 0) 32).find? (fun r => fLe r 1 1 ≠ 0 && fLe r 0 1 = session)).getD x.record
      let on := bit (fLe rec' 19 1) 0
      let s1 := setSession session (fun x => { x with record := rec', reloading := false, enabled := on }) s
      if on = x.enabled then s1 else sessionSaid session (if on then 1 else 2) s1)

/-! ## Commands (R520, R521) -/

/-- BRIDGE_STATUS (R520). -/
def execBridgeStatus (c : Acs) (s : State) : Out :=
  .next (acsLen 0x0D00 inLineStates 0 c (fun s =>
    let b := s.br
    done c 0x0D00 stOk (le 2 (b.reads.length + b.results.length) ++ le 2 b.results.length ++ le 2 b.txns.length
      ++ le 2 ((b.sessions.filter (fun e => e.2.enabled)).length) ++ zeros 8) s) s)

/-- The 48 bytes that BRIDGE_SESSION returns. -/
def Session.report (x : Session) : List Byte :=
  (x.record ++ zeros 32).take 32 ++ nidBytes (x.remote.getD 0) ++ le 2 x.lastSeq.toNat ++ [byte x.queue.length, byte (b01 x.enabled)] ++ zeros 4

/-- BRIDGE_SESSION's operations 1 and 2 on every chip (R520). -/
def effBridgeSession (a : List Byte) (r : Option AcsRef) (s : State) : State :=
  let n := fLe a 0 1
  let on := fLe a 1 1 = 1
  match s.session? n with
  | none => finish r stBadArg [] s
  | some x =>
    let s1 := if x.enabled = on then s else sessionSaid n (if on then 1 else 2) (setSession n (fun x => s.sessionOn x on) s)
    finish r stOk (((s1.session? n).map Session.report).getD []) s1

/-- BRIDGE_SESSION (R520). -/
def execBridgeSession (c : Acs) (s : State) : Out :=
  .next (acsLen 0x0D01 inLineStates 4 c (fun s =>
    badArgIf (decide (2 < c.arg 1 1) || c.nonZero 2 2 || (s.session? (c.arg 0 1)).isNone) 0x0D01 c (fun s =>
      if c.arg 1 1 = 0 then done c 0x0D01 stOk (((s.session? (c.arg 0 1)).map Session.report).getD []) s
      else nodeWide 0x0D01 c (effBridgeSession c.args) s) s) s)

/-- Arguments of BRIDGE_READ that its layout admits (R507, R521). -/
def readArgsOk (a : List Byte) : Bool :=
  let sp := fLe a 0 1
  inRange 1 5 sp && fLe a 1 1 / 8 = 0 && fLe a 22 2 = 0 && decide (fLe a 20 2 ≤ 1000)
    && (if sp ≤ 2 then inRange 4 1024 (fLe a 14 2) && fLe a 14 2 % 4 = 0 && fLe a 16 4 % 4 = 0 else fLe a 14 2 = 0)
    && (if sp = 3 ∨ sp = 5 then fLe a 2 1 ≤ 7 else if sp = 4 then fLe a 2 1 ≤ 2 else true)
    && (sp ≠ 3 || fLe a 12 2 ≤ 127) && (sp ≠ 5 || (match itemAt (a.drop 32) with | some i => fBe i 0 1 = 1 | none => false))

/-- LENGTH of BRIDGE_READ's argument: for CAN_TXN an identifier, a mask and an item follow. -/
def readLenOk (a : List Byte) : Bool :=
  if fLe a 0 1 = 5 then decide (52 ≤ a.length) && a.length = 52 + fBe a 48 2 else a.length = 24

/-- The READ_REQ body of a BRIDGE_READ (R507). -/
def readBody (a : List Byte) (ms : Nat) : List Byte :=
  [byte (fLe a 0 1), byte (fLe a 2 1)] ++ be 2 (fLe a 12 2) ++ be 4 (fLe a 16 4) ++ be 2 (fLe a 14 2) ++ be 2 ms ++ zeros 4
    ++ (if fLe a 0 1 = 5 then be 4 (fLe a 24 4) ++ be 4 (fLe a 28 4) ++ a.drop 32 else zeros 8)

/-- BRIDGE_READ (R506, R521). -/
def execBridgeRead (c : Acs) (s : State) : Out :=
  .next (acs 0x0D02 inLineStates c (fun s =>
    let a := c.args
    if !readLenOk a then done c 0x0D02 stBadLength [] s
    else
      let fl := fLe a 1 1
      let dst : Nid := if bit fl 2 then s.hitch.nidAt (fLe a 3 1) else BitVec.ofNat 64 (fLe a 4 8)
      badArgIf (!readArgsOk a || (bit fl 2 && dst = 0)) 0x0D02 c (fun s =>
        match s.freeTag with
        | none => done c 0x0D02 stNoResource [] s
        | some tag =>
          let id := s.br.nextId tag
          let ms := if fLe a 20 2 = 0 then s.readTimeout else fLe a 20 2
          let o : OpenRead := { reqId := id, dst := dst, space := fLe a 0 1, vol := bit fl 0, wait := if bit fl 1 then some (c.ref 0x0D02) else none
                                flags := flag (bit fl 0) 0 + flag (bit fl 2) 1, body := readBody a ms, ms := ms }
          let s1 := takeTag tag { s with br := { s.br with reads := s.br.reads ++ [o] } }
          issueRead o false (if bit fl 1 then s1 else done c 0x0D02 stPending (le 2 id ++ zeros 2) s1)) s) s)

/-- Results that fit in a number of bytes, oldest first. -/
def takeResults : Nat → Nat → List ReadResult → List ReadResult
  | _, _, [] => []
  | 0, _, _ => []
  | n + 1, room, r :: rs =>
    let k := 16 + (pad4 r.data).length
    if k ≤ room then r :: takeResults n (room - k) rs else []

/-- BRIDGE_COLLECT (R521): the results returned free their tags. -/
def execBridgeCollect (c : Acs) (s : State) : Out :=
  .next (acsLen 0x0D03 inLineStates 4 c (fun s =>
    badArgIf (!inRange 1 256 (c.arg 0 2) || c.nonZero 2 2) 0x0D03 c (fun s =>
      let rs := takeResults (c.arg 0 2) 4076 s.br.results
      done c 0x0D03 stOk (le 4 rs.length ++ rs.flatMap (fun r => r.header ++ pad4 r.data))
        (rs.foldl (fun s r => freeTag r.reqId s) { s with br := { s.br with results := s.br.results.drop rs.length } })) s) s)

end Sys2Proof.Machine
end

