-- ==== Sys2Proof/Machine/Control.lean ====
section
/-! DEFINITION. The control engine's events and commands (07_cyclic_control.md). -/
namespace Sys2Proof.Machine

/-! ## Swap (R347 to R351) -/

/-- The bank of a new object: a variable of one ID and type in both keeps its committed value, every other takes its initial value (R349). -/
def swapBank (old : Task) (new : TaskObj) : List Byte :=
  new.vars.foldl (fun b v => match v.seg, old.var? v.id with
    | some p, some w => (match w.seg with
      | some q => if w.typ = v.typ then putSlice b p (slice old.committed q v.size) else b
      | none => b)
    | _, _ => b) (initialBank new new.segLen)

/-- Why a force does not survive a swap: 2 removed, 3 retyped, 0 it does (R350). -/
def swapReason (new : TaskObj) (x : Force) : Nat :=
  match new.vars.find? (fun v => v.id = x.var) with
  | none => 2
  | some v => if v.typ = x.typ then 0 else 3

/-- A swap at its cycle's latch (R349, R350, R358). -/
def doSwap (w : SwapWait) (s : State) : State :=
  match s.task? w.task, Config.taskObj w.obj with
  | some t, some new =>
    let gone := (s.forcesOf w.task).filter (fun x => swapReason new x ≠ 0)
    let s1 := setTask w.task (fun t => { t with obj := w.obj, committed := swapBank t new, swapped := true, first := true }) s
    let s2 := gone.foldl (fun s x => forceReleased x (swapReason new x) s) { s1 with ctl := { s1.ctl with
      forces := s1.ctl.forces.filter (fun x => !gone.contains x) } }
    let s3 := raise .control 3 (logEvent 0x0708 sevNotice ([byte w.task] ++ le 8 t.objId ++ le 8 (fLe w.obj 0 8) ++ le 8 t.cycle) s2)
    let es := (gone.take 508).flatMap (fun x => le 4 x.var ++ [byte (swapReason new x - 1), 0, 0, 0])
    finish w.ref stOk (le 8 t.cycle ++ le 2 gone.length ++ le 2 (min 508 gone.length) ++ le 4 (b01 (508 < gone.length)) ++ es) s3
  | _, _ => s

/-- Swaps that are due at a task's latch. -/
def dueSwaps (n : Nat) (s : State) : State :=
  let due := s.ctl.swaps.filter (fun w => w.task = n && decide (w.atTick ≤ s.now))
  due.foldl (fun s w => doSwap w s) { s with ctl := { s.ctl with swaps := s.ctl.swaps.filter (fun w => !(w.task = n && decide (w.atTick ≤ s.now))) } }

/-! ## Latch (R315 to R322) -/

/-- A memory error of a task is counted and logged (R328): where 1 a bank, 2 an image, 3 pair local memory; result 1 recovered, 2 held. -/
def varParity (n where_ result : Nat) (s : State) : State :=
  logEvent 0x1002 sevError [byte n, byte where_, byte result] (count (statControl 6) s)

/-- The latch proper: err says that the input image has a parity error. -/
def latchTask (n : Nat) (err : Bool) (s : State) : State :=
  match s.task? n with
  | none => s
  | some t0 =>
    let s1 := migHandOver n (dueSwaps n (dueForces n t0.cycle s))
    let at_ := s1.gridNow t0.periodTt
    let s2 := setTask n (fun t => { t with
      startTick := s1.now, startSec := at_ / ttSec
      start := { sec := at_ / ttSec % 2 ^ 32, ns := at_ % ttSec / ttNs, epoch := s1.time.epoch } }) s1
    match s2.task? n with
    | none => s2
    | some t =>
      let r := latchImage n t at_ s2
      let s3 := setTask n (fun t => { t with longer := false }) r.2
      if err then holdTask n 2 (varParity n 2 2 s3)
      else if s3.node.form = .troika && !t.layout.nonvote && t.st ≠ .migIn then offerImage n r.1 s3
      else makeReady n r.1 s3

/-- An owner that the placement does not name stops the task (R390). -/
def stopDuplicate (n : Nat) (kept : Nid) (s : State) : State :=
  let id := (s.placeRec n).elim 0 placeId
  let s1 := leaveTask n .remote kept { s with wr := { s.wr with dups := s.wr.dups.filter (fun d => d.1 ≠ n) } }
  let s2 := match s.task? n with | some t => resetGpio t s1 | none => s1
  wrSay 0x090A sevNotice (le 4 id ++ nidBytes kept) (some 5) (releaseForces (fun x => x.task = n) 4 s2)

/-- A task may latch now: its chip runs it, no entry sequence or commit holds it off, its first cycle has come, the last one is over. -/
def State.latches (s : State) (t : Task) : Bool :=
  s.runsTask t && !s.noLatch && decide (t.fromTick ≤ s.now) && t.ph = .idle && (t.st = .running || t.st = .migOut || t.st = .migIn)

/-- LATCH (R315): a grid instant of a task's period. err: 1 a parity error in the input image (R328); ctxErr: a context whose payload is in error
(R301). -/
def execLatch (task err : Nat) (ctxErr : Option Nat) (s : State) : Out :=
  .next (match s.wr.dups.find? (fun d => d.1 = task) with
    | some d => stopDuplicate task d.2 s
    | none =>
      let s1 := migAtGrid task s
      match s1.task? task with
      | none => s1
      | some t =>
        if !s1.latches t then s1
        else if t.st = .migIn && !((s1.mig? task).bind Migration.have_).isSome then s1
        else latchTask task (err = 1) (match ctxErr with | some c => payloadBad c s1 | none => s1))

/-! ## Execution and commit (R323 to R330) -/

/-- TASK_EXECUTION_END (R323): the task has ended with a working bank and an output image after ns of execution. -/
def execTaskExecutionEnd (task : Nat) (working outImage : List Byte) (ns : Nat) (s : State) : Out :=
  .next (match s.task? task with
    | none => s
    | some t =>
      match t.pair with
      | none => s
      | some p =>
        if t.ph ≠ .executing || (s.pairOf p).running ≠ some task || (s.pairOf p).stopped.isSome then s
        else
          let fit (b : List Byte) (k : Nat) : List Byte := (b ++ zeros k).take k
          schedule p (setTask task (fun t => { t with
            ph := .ended, working := fit working t.committed.length, outWork := fit outImage t.outLen, et := ns }) s))

/-- A shadow cycle commits on the destination of a migration (R385). -/
def shadowCommit (n : Nat) (s : State) : State :=
  match s.task? n with
  | none => s
  | some t =>
    setTask n (fun t => { t with
      ph := .idle, cycle := t.cycle + 1, prevHeld := false, lastHeld := false, first := false, warm := false, etLast := t.et, heldCause := 0
      overRun := 0, etMax := some (max t.et (t.etMax.getD 0)) }) (commitBank n (wrMeasure n t.et s))

/-- The commit of a cycle that ended in time. err: 1 committed bank, 2 output image in error (R328). -/
def commitEnded (n err : Nat) (t : Task) (s : State) : State :=
  if err = 1 then taskFault n 2 (varParity n 1 2 s)
  else if err = 2 then heldCommit n 2 (setTask n (fun t => { t with overRun := 0 }) (varParity n 2 2 s))
  else if t.st = .migIn then
    (if (s.mig? n).any (fun m => m.owns t.cycle) then migTaken n t.cycle (commitTask n (wrMeasure n t.et s)) else shadowCommit n s)
  else if s.node.form = .troika && !t.layout.nonvote then
    (if s.memberList.length ≤ 1 then commitSingle n s else offerOutput n true s)
  else commitAlone n s

/-- The commit instant of a cycle that is held: in a vote, the member is absent. -/
def commitHeld (n : Nat) (t : Task) (s : State) : State :=
  if s.node.form = .troika && !t.layout.nonvote && t.st ≠ .migIn && decide (2 ≤ s.memberList.length) then offerOutput n false s
  else heldCommit n t.heldCause s

/-- An overrun (R329): the cycle is aborted and held, and OVERRUN_LIMIT of them in a row are a task fault. -/
def overrun (n : Nat) (t : Task) (s : State) : State :=
  let k := t.overRun + 1
  let s1 := logEvent 0x0703 sevWarning ([byte n] ++ le 8 t.cycle ++ le 4 k) (count (statControl 2)
    (setTask n (fun t => { t with overRun := k, overruns := min 0xFFFFFFFF (t.overruns + 1) }) s))
  let s2 := { s1 with red := { s1.red with inputs := s1.red.inputs.filter (fun x => x.task ≠ n || decide (t.cycle < x.cycle)) } }
  let s3 := commitHeld n { t with heldCause := 3 } (holdTask n 3 s2)
  if t.limit ≠ 0 && t.limit ≤ k then taskFault n 1 (setTask n (fun t => { t with overRun := 0 }) s3) else s3

/-- COMMIT (R325): a task's deadline. err: 1 committed bank, 2 output image (R328); canBad: a transmit buffer met with a parity error (R468). -/
def execCommit (task err : Nat) (canBad : Option (Nat × Nat)) (s : State) : Out :=
  .next (match s.task? task with
    | none => s
    | some t =>
      let s1 := match t.ph with
        | .idle => s
        | .ended => commitEnded task err t s
        | .held => commitHeld task t (setTask task (fun t => { t with overRun := 0 }) s)
        | _ => overrun task t s
      match canBad with
      | some (c, b) => if t.ph = .idle then s1 else canBufParity c b s1
      | none => s1)

/-! ## Errors within a cycle (R326, R328, R331) -/

/-- CONTROL_LOCKSTEP_MISMATCH (R326, R331): the pair stops; its task runs again after the resynchronisation, or its cycle is held. -/
def execControlLockstepMismatch (pair : Nat) (s : State) : Out :=
  .next (
    let p := s.pairOf pair
    if 4 ≤ pair || p.retired || p.stopped.isSome || !s.node.state.inLine then s
    else
      let ms := p.misses.filter (fun t => decide (s.now ≤ t + 10 * ticksPerSec)) ++ [s.now]
      let n := p.running
      let redo := match n.bind s.task? with | some t => s.mayRedo t && decide (ms.length < 3) | none => false
      let res := if n.isNone then 0 else if redo then 1 else 2
      let s1 := setPair pair (fun p => { p with stopped := some n, running := none, misses := ms }) s
      let s2 := raise .control 7 (logEvent 0x0704 sevError [byte pair, byte (n.getD 0xFF), byte res] (count (statControl 3) s1))
      let s3 := match n with
        | some k => if redo then setTask k (fun t => { t with ph := .waiting }) s2 else holdTask k 1 s2
        | none => s2
      if 3 ≤ ms.length then retirePair pair s3 else s3)

/-- PAIR_RESYNC_DONE (R326): the faulting task runs again from its kept input image, preempted tasks resume. -/
def execPairResyncDone (pair : Nat) (s : State) : Out :=
  .next (match (s.pairOf pair).stopped with
    | none => s
    | some n =>
      let s1 := setPair pair (fun p => { p with stopped := none }) s
      match n with
      | some k => if ((s1.task? k).map Task.ph) = some .waiting then redoTask k s1 else schedule pair s1
      | none => schedule pair s1)

/-- The task runs again where it may, else its cycle is held. -/
def redoOrHold (n : Nat) (s : State) : State :=
  match s.task? n with
  | some t => if s.mayRedo t then redoTask n s else holdTask n 2 s
  | none => s

/-- MEMORY_PARITY_ERROR (R328) during a task's cycle. kind: 1 variable store, 2 DRAM code or constant page, 3 DRAM data page, 4 pair local memory,
5 the force entry at an index; addr is the DRAM address, or that index. -/
def execMemoryParityError (kind task addr : Nat) (s : State) : Out :=
  .next (
    if kind = 5 then
      (match s.ctl.forces[addr]? with
       | some x => releaseForces (fun y => y.var = x.var) 6 s
       | none => s)
    else match s.task? task with
      | none => s
      | some t =>
        if t.ph ≠ .ready && t.ph ≠ .executing && t.ph ≠ .ended then s
        else
          let res := if s.mayRedo t then 1 else 2
          match kind with
          | 1 => redoOrHold task (varParity task 1 res s)
          | 4 => redoOrHold task (varParity task 3 res s)
          | 2 =>
            let s1 := logEvent 0x1003 sevError (le 8 addr ++ [1, byte res]) (count (statControl 7) s)
            let s2 := setTask task (fun t => { t with ph := .waiting }) { s1 with ctl := { s1.ctl with pages := s1.ctl.pages.filter (· ≠ task) ++ [task] } }
            match t.pair with | some p => schedule p s2 | none => s2
          | 3 => redoOrHold task (logEvent 0x1003 sevError (le 8 addr ++ [2, byte res]) (count (statControl 7) s))
          | _ => s)

/-- PAGE_RELOAD_DONE (R328): a code page is back from the tack store, or both copies of it fail their check. -/
def execPageReloadDone (task : Nat) (ok : Bool) (s : State) : Out :=
  .next (
    if !s.ctl.pages.contains task then s
    else
      let s1 := { s with ctl := { s.ctl with pages := s.ctl.pages.filter (· ≠ task) } }
      if !ok then taskFault task 3 s1
      else
        let s2 := count (statControl 8) s1
        if ((s2.task? task).map Task.ph) = some .waiting then redoOrHold task s2 else s2)

/-- One die's part of a retain write: a verified copy, or the die is marked degraded (R336, R338). -/
def retainDie (n k : Nat) (b : List Byte) (die : Nat) (ok : Bool) (s : State) : State :=
  if s.dieBad die then s
  else if ok then setRetain die n k b s
  else retainFault n 2 (setResource 2 true (degradeDie die s))

/-- RETAIN_WRITE_DONE (R336 to R338): the write of a task's slot has ended, verified on each die or not. -/
def execRetainWriteDone (task : Nat) (ok0 ok1 : Bool) (s : State) : Out :=
  .next (match (s.task? task).bind Task.writing with
    | none => s
    | some (k, b) =>
      let s1 := retainDie task k b 1 ok1 (retainDie task k b 0 ok0 (setTask task (fun t => { t with writing := none }) s))
      let s2 := if s1.log.degraded0 && s1.log.degraded1 then s1 else count (statControl 9) s1
      retainDead task s2)

/-! ## Control start (R340) -/

/-- START_WAIT_EXPIRY (R340): an automatic start falls due. -/
def execStartWaitExpiry (s : State) : Out := .next (if s.node.state = .ready then startNow s else s)

/-- CONTROL_START (R340): the automatic start that is due, on a chip that runs tasks. -/
def execControlStart (s : State) : Out :=
  .next (match s.startKind with
    | some k =>
      if s.ctl.startDue && s.node.state = .ready && s.node.active then
        wrCheck (controlStart k { s with node := { s.node with startArg := 0 } })
      else s
    | none => s)

/-! ## TASK commands (R356 to R358) -/

/-- READY to SAFE; RUN and DEGRADED. -/
def runStates : States := [.run, .degraded]

/-- An enabled task. -/
def State.enabledTask (s : State) (n : Nat) : Option Task := (s.task? n).filter Task.enabled

/-- A TASK_LIST entry (R357). -/
def State.taskEntry (s : State) (n : Nat) (t : Task) : List Byte :=
  let fl := b01 t.placeable + flag (s.pinned n) 1 + flag (t.retainLen ≠ 0) 2 + flag (!(s.forcesOf n).isEmpty) 3 + flag t.lastHeld 4
    + flag t.cycleIrq 5 + flag t.swapped 6
  [byte n, byte t.st.code, byte (t.pair.getD 0xFF), byte fl] ++ le 2 t.period ++ [byte t.prio, 0] ++ le 8 t.objId ++ le 4 t.deadlineUs
    ++ le 4 t.etLast ++ le 4 (min 0xFFFFFFFF t.etMaxNs) ++ le 4 t.overruns ++ le 8 t.cycle ++ nidBytes t.runNid

/-- TASK_LIST (R357). -/
def execTaskList (c : Acs) (s : State) : Out :=
  .next (acsLen 0x0700 inLineStates 0 c (fun s =>
    done c 0x0700 stOk (le 4 (s.ctl.tasks.length + 256 * s.ctl.started) ++ s.ctl.tasks.flatMap (fun e => s.taskEntry e.1 e.2)) s) s)

/-- The train time of the first grid instant that a start uses. -/
def State.firstGrid (s : State) : Nat :=
  (minOf ((s.ctl.tasks.filter (fun e => e.2.st = .running)).map (fun e => s.gridAfter e.2.periodTt (1000000 * ttNs)))).getD 0

/-- TASK_START's effect (R340, R432). -/
def effTaskStart (a : List Byte) (r : Option AcsRef) (s : State) : State :=
  if s.node.state ≠ .ready then finish r stWrongState [] s
  else
    let k := fLe a 0 1
    let cause := if k = 1 then (s.demotion.map Prod.snd).getD 0 else 0
    let s1 := wrCheck (controlStart k { s with node := { s.node with startArg := 0 } })
    finish r stOk ([byte (s1.ctl.started - 1), byte cause, 0, 0] ++ ttBytes s1.firstGrid) s1

/-- TASK_START (R340). -/
def execTaskStart (c : Acs) (s : State) : Out :=
  .next (acsLen 0x0701 [.ready] 4 c (fun s =>
    badArgIf (c.arg 0 1 > 1 || c.nonZero 1 3) 0x0701 c (nodeWide 0x0701 c (effTaskStart c.args)) s) s)

/-- TASK_STOP's effect (R356, R388). -/
def effTaskStop (a : List Byte) (r : Option AcsRef) (s : State) : State :=
  let n := fLe a 0 1
  match s.enabledTask n with
  | none => finish r stBadArg [] s
  | some t =>
    let ok (s : State) : State := finish r stOk (le 8 (((s.task? n).map Task.lastCommit).getD 0)) s
    match t.st with
    | .running => ok (stopTask n 1 s)
    | .migOut => ok (stopTask n 1 (abortOut n 5 s))
    | .stopped | .faulted => ok s
    | _ => finish r stWrongState [] s

/-- TASK_STOP (R356). -/
def execTaskStop (c : Acs) (s : State) : Out :=
  .next (acsLen 0x0702 runStates 4 c (fun s =>
    badArgIf (c.nonZero 1 3 || (s.enabledTask (c.arg 0 1)).isNone) 0x0702 c (nodeWide 0x0702 c (effTaskStop c.args)) s) s)

/-- TASK_RESUME's effect (R356): the first grid instant at least 1 ms later, from the committed bank. -/
def effTaskResume (a : List Byte) (r : Option AcsRef) (s : State) : State :=
  let n := fLe a 0 1
  match s.enabledTask n with
  | none => finish r stBadArg [] s
  | some t =>
    match t.st with
    | .stopped | .faulted =>
      let s1 := setTask n (fun t => { t with st := .running, ph := .idle, fromTick := s.now + 600000, overRun := 0, voteHeld := 0 }) s
      finish r stOk (le 8 t.cycle) (enablePubs t true (if t.pair.isNone then assignPair n s1 else s1))
    | _ => finish r stWrongState [] s

/-- TASK_RESUME (R356). -/
def execTaskResume (c : Acs) (s : State) : Out :=
  .next (acsLen 0x0703 runStates 4 c (fun s =>
    badArgIf (c.nonZero 1 3 || (s.enabledTask (c.arg 0 1)).isNone) 0x0703 c (nodeWide 0x0703 c (effTaskResume c.args)) s) s)

/-- Image blocks that name one source or sink alike. -/
def sameBlocks (a b : TaskObj) : Bool :=
  a.blocks.all (b.blocks.contains ·) && b.blocks.all (a.blocks.contains ·) && a.inLen = b.inLen && a.outLen = b.outLen

/-- The variable store holds banks and images with one task's segment changed (R312). -/
def State.storeFits (s : State) (n seg : Nat) : Bool :=
  sumOf ((s.ctl.tasks.filter (fun e => e.2.enabled)).map (fun e =>
    2 * (if e.1 = n then seg else e.2.stateLen) + e.2.inLen + e.2.outLen)) ≤ 4 * 2 ^ 20 - 16 * 2 ^ 10

/-- The task is in a migration overlap (R345, R348, R388). -/
def Task.overlaps (t : Task) : Bool := t.st = .migOut || t.st = .migIn

/-- Whether a task runs on this node, a migration under way counted in. -/
def Task.here (t : Task) : Bool := t.st = .running || t.overlaps

/-- The checks of R348 in order, with the epoch of SWAP_AT: the status of the first that fails. -/
def State.swapStatus (s : State) (t : Task) (len at_ epoch : Nat) : Nat :=
  if !t.here then stWrongState
  else if !s.ctl.staged || s.ctl.stage.length ≠ len then stBadArg
  else if !s.sec.signedOk s.ctl.stage then stDenied
  else if fLe s.ctl.stage 0 8 = t.objId then stBadArg
  else match Config.taskObj s.ctl.stage with
    | none => stDenied
    | some o =>
      if !sameBlocks t.layout o then stDenied
      else if !s.storeFits t.index o.segLen then stNoResource
      else if t.overlaps then stBusy
      else if at_ = 0 then stOk
      else if epoch ≠ s.time.epoch.toNat then stDenied
      else if at_ < s.trainNow + 2000000 * ttNs then stTooLate
      else stOk

/-- TASK_SWAP's effect: the checks, then the swap waits for its cycle (R348, R349). -/
def effTaskSwap (a : List Byte) (r : Option AcsRef) (s : State) : State :=
  match s.enabledTask (fLe a 0 1) with
  | none => finish r stBadArg [] s
  | some t =>
    let at_ := ttOf (slice a 8 12)
    let st := s.swapStatus t (fLe a 4 4) at_ (fLe a 20 2)
    if st ≠ stOk then finish r st [] s
    else
      let tick := if at_ = 0 then s.now + 1200000 else (s.toTicks at_).1
      { s with ctl := { s.ctl with swaps := s.ctl.swaps ++ [{ ref := r, task := t.index, atTick := tick, obj := s.ctl.stage }] } }

/-- The staged object goes to the node's other chips ahead of the command (R433). -/
def sendStage (s : State) : State :=
  if s.carriers.isEmpty then s
  else (pieces 4064 (s.ctl.stage.length / 4064 + 1) 0 s.ctl.stage).foldl (fun s p =>
    tugAll .mgmt 0x01 (mgmtBytes 0x0705 0 0 0 (le 4 p.1 ++ le 4 s.ctl.stage.length ++ p.2)) s) s

/-- TASK_SWAP (R348, R358). -/
def execTaskSwap (c : Acs) (s : State) : Out :=
  .next (acsLen 0x0704 runStates 24 c (fun s =>
    badArgIf (c.nonZero 1 3 || c.nonZero 22 2 || (s.enabledTask (c.arg 0 1)).isNone) 0x0704 c
      (fun s => nodeWide 0x0704 c (effTaskSwap c.args) (sendStage s)) s) s)

/-- A chunk of a task object into the staging area (R347). -/
def stageChunk (off total : Nat) (chunk : List Byte) (s : State) : State :=
  let base := if off = 0 then [] else s.ctl.stage
  let b := base ++ chunk
  { s with ctl := { s.ctl with stage := b, stageLen := total, staged := decide (b.length = total) } }

/-- A chunk fits: in order, within the total, within 8 MiB. -/
def State.stageFits (s : State) (off total len : Nat) : Bool :=
  decide (1 ≤ len) && decide (len ≤ 4064) && decide (total ≤ 8 * 2 ^ 20) && decide (off + len ≤ total)
    && (off = 0 || (off = s.ctl.stage.length && total = s.ctl.stageLen))

/-- TASK_STAGE (R347). -/
def execTaskStage (c : Acs) (s : State) : Out :=
  .next (acs 0x0705 runStates c (fun s =>
    if c.args.length < 9 || 4072 < c.args.length then done c 0x0705 stBadLength [] s
    else
      let len := c.args.length - 8
      badArgIf (!s.stageFits (c.arg 0 4) (c.arg 4 4) len) 0x0705 c (fun s =>
        done c 0x0705 stOk (le 4 (c.arg 0 4 + len)) (stageChunk (c.arg 0 4) (c.arg 4 4) (c.args.drop 8) s)) s) s)

/-! ## FORCE commands (R344, R345, R359) -/

/-- The task that owns a variable, and the variable. -/
def State.owning (s : State) (id : Nat) : Option (Nat × Task × ObjVar) :=
  s.ctl.tasks.findSome? (fun e => if e.2.enabled then (e.2.var? id).map (fun v => (e.1, e.2, v)) else none)

/-- The cycle of the first latch of a task at least 50 µs from now (R344). -/
def State.effCycle (s : State) (t : Task) : Nat :=
  let p := t.periodTt
  let wait := (t.fromTick - s.now) * 5 * 65536 / 3
  let first := s.gridAfter p wait
  let g := s.gridAfter p (50000 * ttNs)
  (if t.ph = .idle then t.cycle else t.cycle + 1) + (g - first) / p

/-- Force entries in use, those that wait for their latch included. -/
def State.forceVars (s : State) : List Nat :=
  (s.ctl.forces.map Force.var ++ (s.ctl.fwaits.filter (fun w => w.entry.isSome)).map ForceWait.var).eraseDups

/-- What FORCE_SET completes with (R345, R359). -/
def State.forceStatus (s : State) (a : List Byte) : Nat :=
  match s.owning (fLe a 0 4) with
  | none => stBadArg
  | some (_, t, v) =>
    if v.typ ≠ fLe a 4 1 then stBadArg
    else if (slice a 8 8).drop v.size ≠ zeros (8 - v.size) then stBadArg
    else if !v.force then stDenied
    else if t.overlaps then stBusy
    else if t.st ≠ .running then stWrongState
    else if !s.forceVars.contains (fLe a 0 4) && decide (1024 ≤ s.forceVars.length) then stNoResource
    else stOk

/-- FORCE_SET's effect: the entry waits for its latch; on a chip that does not run the task it is taken at once. -/
def effForceSet (a : List Byte) (r : Option AcsRef) (s : State) : State :=
  let st := s.forceStatus a
  if st ≠ stOk then finish r st [] s
  else match s.owning (fLe a 0 4) with
    | none => s
    | some (n, t, v) =>
      let x : Force := { var := v.id, typ := v.typ, task := n, input := v.inp.isSome, value := slice a 8 8 }
      let k := s.effCycle t
      let s1 := { s with ctl := { s.ctl with fwaits := s.ctl.fwaits ++ [{ var := v.id, task := n, cycle := k, entry := some x }] } }
      finish r stOk (le 8 k) (if s.runsTask t then s1 else dueForces n k s1)

/-- FORCE_SET (R344, R359). -/
def execForceSet (c : Acs) (s : State) : Out :=
  .next (acsLen 0x0800 runStates 16 c (fun s =>
    if c.arg 4 1 = 0 || c.arg 4 1 > 0x11 || c.arg 6 1 > 1 || c.nonZero 7 1 then done c 0x0800 stBadArg [] s
    else
      let st := s.forceStatus c.args
      if st ≠ stOk then done c 0x0800 st [] s else nodeWide 0x0800 c (effForceSet c.args) s) s)

/-- FORCE_RELEASE's effect. -/
def effForceRelease (a : List Byte) (r : Option AcsRef) (s : State) : State :=
  let id := fLe a 0 4
  match (if s.forceVars.contains id then s.owning id else none) with
  | none => finish r stBadArg [] s
  | some (n, t, _) =>
    let k := s.effCycle t
    let s1 := { s with ctl := { s.ctl with fwaits := s.ctl.fwaits ++ [{ var := id, task := n, cycle := k, entry := none }] } }
    finish r stOk (le 8 k) (if s.runsTask t then s1 else dueForces n k s1)

/-- FORCE_RELEASE (R344). -/
def execForceRelease (c : Acs) (s : State) : Out :=
  .next (acsLen 0x0801 runStates 4 c (fun s =>
    badArgIf (!s.forceVars.contains (c.arg 0 4)) 0x0801 c (nodeWide 0x0801 c (effForceRelease c.args)) s) s)

/-- A force entry as FORCE_LIST returns it (R359). -/
def Force.entryBytes (x : Force) : List Byte :=
  le 4 x.var ++ [byte x.typ, byte x.task, byte (b01 x.input), 0] ++ (x.value ++ zeros 8).take 8

/-- FORCE_LIST (R356). -/
def execForceList (c : Acs) (s : State) : Out :=
  .next (acsLen 0x0802 inLineStates 4 c (fun s =>
    badArgIf (c.nonZero 2 2) 0x0802 c (fun s =>
      let es := (s.ctl.forces.drop (c.arg 0 2)).take 250
      done c 0x0802 stOk (le 4 es.length ++ le 4 s.ctl.forces.length ++ es.flatMap Force.entryBytes) s) s) s)

/-- FORCE_RELEASE_ALL's effect: every force and every change that waits. -/
def effForceReleaseAll (_ : List Byte) (r : Option AcsRef) (s : State) : State :=
  let k := s.ctl.forces.length
  let s1 := releaseForces (fun _ => true) 1 s
  finish r stOk (le 4 k) { s1 with ctl := { s1.ctl with fwaits := [] } }

/-- FORCE_RELEASE_ALL (R356). -/
def execForceReleaseAll (c : Acs) (s : State) : Out :=
  .next (acsLen 0x0803 runStates 0 c (nodeWide 0x0803 c (effForceReleaseAll c.args)) s)

end Sys2Proof.Machine
end

