-- ==== Sys2Proof/Machine/Host.lean ====
section
/-! DEFINITION. Mailboxes, interrupts, PCIe and the host watchdog: what a host and its link do (14_host_interface.md). -/
namespace Sys2Proof.Machine

/-- BATCH_SUBMIT: a doorbell write with ABORT 0 (R572). -/
def execBatchSubmit (m count : Nat) (seq : Half) (s : State) : Out :=
  .next (if !s.alive || 16 ≤ m then s else submit m count seq 1 s)

/-- BATCH_ABORT: a doorbell write with ABORT 1 (R576). -/
def execBatchAbort (m : Nat) (s : State) : Out :=
  .next (if !s.alive || 16 ≤ m then s else abortBox false m s)

/-- BATCH_COMPLETE: the last command of a batch has completed (R575). Commands without meaning that could not start before complete first. -/
def execBatchComplete (m : Nat) (s : State) : Out :=
  .next (if !s.alive then s else
    let s1 := endUnknown m s
    if (s1.host.box m).ended then endBatch m s1 else s1)

/-- MBX_REQUEST_WRITE (R573). -/
def execMbxRequestWrite (m off : Nat) (data : List Byte) (s : State) : Out :=
  .next (if !s.alive then s else requestWrite m off data s)

/-- CAUSE_CLEAR (R589): a W1C write of a cause register or of MBX_STATUS at an offset of Window C. -/
def execCauseClear (off : Nat) (value : Word) (s : State) : Out :=
  .next (if !s.alive then s else causeWrite off value s)

/-- MSIX_VECTOR_UNMASK (R589). -/
def execMsixVectorUnmask (v : Nat) (s : State) : Out :=
  .next (if !s.alive then s else unmask v s)

/-- UNSUPPORTED_ACCESS (R559). -/
def execUnsupportedAccess (s : State) : Out :=
  .next (if !s.alive then s else count (statHost 5) s)

/-- HOST_WATCH_WRITE (R595). -/
def execHostWatchWrite (value : Word) (s : State) : Out :=
  .next (if !s.alive then s else hostWatch value.toNat s)

/-- HOST_WATCH_EXPIRY (R595). -/
def execHostWatchExpiry (s : State) : Out :=
  .next (if !s.alive || !s.host.armed then s else
    let s1 := abortAll false (stopRings { s with host := { s.host with armed := false, expired := true } })
    raise .sys 1 (logEvent 0x0103 sevWarning (le 4 s.host.timeoutMs) (count (statHost 11) s1)))

/-- PCIE_RESET (R596): 0 link down, 1 hot reset, 2 release of the endpoint's reset input, 3 Function Level Reset. Without a link only the reset input
acts. -/
def execPcieReset (kind : Nat) (s : State) : Out :=
  .next (if !s.alive || 3 < kind || (!s.host.pcieUp && kind ≠ 2) then s else
    let s1 := hostGone s
    let s2 := hostLink (match kind with | 0 => 2 | 1 => 3 | 3 => 4 | _ => 0) (if kind = 0 then count (statHost 6) s1 else s1)
    let h := { s2.host with master := false }
    settleDma { s2 with host := if kind = 3 then h else { h with pcieUp := false, pcieSpeed := 0, pcieWidth := 0 } })

/-- PCIE_LINK_UP: speed 1 to 3, width in lanes (R593, R596). -/
def execPcieLinkUp (speed width : Nat) (s : State) : Out :=
  .next (if !s.alive || s.host.pcieUp || speed = 0 || 3 < speed || (width ≠ 1 && width ≠ 2) then s else
    settleDma (hostLink 1 { s with host := { s.host with pcieUp := true, pcieSpeed := speed, pcieWidth := width } }))

/-- BUS_MASTERING_CHANGE: the host sets or clears Bus Master Enable (R241). -/
def execBusMasteringChange (on : Bool) (s : State) : Out :=
  .next (if !s.alive || !s.host.pcieUp then s else settleDma { s with host := { s.host with master := on } })

/-! ## SYS commands (R592, R593) -/

/-- SYS_IDENTIFY (R593). -/
def execSysIdentify (c : Acs) (s : State) : Out :=
  .next (acsLen 0x0100 anyState 0 c (fun s =>
    let h := s.host
    done c 0x0100 stOk (le 4 0x9460 ++ le 4 0xB1 ++ le 4 s.fwVersion ++ le 4 s.acsVersion ++ le 8 (Config.serial % 2 ^ 48) ++ nidBytes s.node.nid
      ++ [byte (b01 Config.orderTb1), byte s.node.form.code, byte s.node.chipIndex, byte (b01 h.pcieUp + flag h.qspiSeen 1)
         , byte (h.pcieSpeed + h.pcieWidth * 16)] ++ zeros 11
      ++ (match s.tack.active with | some t => be 32 t.fp.toNat | none => zeros 32)) s) s)

/-- SYS_STATE (R593). -/
def execSysState (c : Acs) (s : State) : Out :=
  .next (acsLen 0x0101 anyState 0 c (fun s =>
    done c 0x0101 stOk (le 4 s.nodeStateReg ++ wordBytes s.hitch.gen ++ le 4 s.hitchInfoReg ++ le 4 s.nodeRoleReg ++ le 4 s.logStatusReg
      ++ wordBytes s.node.lost ++ le 8 s.now ++ le 8 s.node.stateTick ++ le 2 s.time.epoch.toNat ++ zeros 6) s) s)

/-- SYS_FENCE (R584): what the flags name is waited for; with BARRIER nothing later starts until it completes. -/
def execSysFence (c : Acs) (s : State) : Out :=
  .next (acsLen 0x0102 anyState 4 c (fun s =>
    let v := c.arg 0 4
    badArgIf (decide (8 ≤ v)) 0x0102 c (fun s =>
      let f : FenceCmd := { ref := c.ref 0x0102, rings := if bit v 0 then (List.range 8).filter (fun n => (s.txRing n).fenced.isSome) else []
                            logTo := if bit v 1 then some s.log.nextSeq else none, barrier := bit v 2, fc := s.now, seq := s.log.nextSeq }
      releaseFences { s with host := { s.host with
        fences := s.host.fences ++ [f]
        barriers := if bit v 2 then s.host.barriers ++ [{ mbx := c.mbx, idx := c.idx, order := s.host.accepted }] else s.host.barriers } }) s) s)

end Sys2Proof.Machine
end

