-- ==== Sys2Proof/Machine/Power.lean ====
section
/-! DEFINITION. The meanings of the rows of supplies, resets, temperature, standby and restart (chapters 1, 9, 14, 15, 17), and of firmware page errors
(R634). -/
namespace Sys2Proof.Machine

/-! ## Supplies and resets (R44, R414, R653 to R661) -/

/-- VBAK_APPLIED (R44): from OFF the node enters BACKUP. -/
def execVbakApplied (s : State) : Out :=
  .next (if s.pwr.vbak then s else
    let s1 := { s with pwr := { s.pwr with vbak := true } }
    if s.node.state = .off then drivePin .wakeOut .low { s1 with node := { s1.node with state := .backup, prev := .off } } else s1)

/-- VBAK_LOST (R655): without main rails BACKUP ends, and with it the backup counter's time and the alarm. -/
def execVbakLost (s : State) : Out :=
  .next (if !s.pwr.vbak then s else
    let s1 := { s with pwr := { s.pwr with vbak := false } }
    if s.node.state = .backup then
      let s2 := drivePin .wakeOut .hiz { s1 with node := { s1.node with state := .off, prev := .backup } }
      { s2 with time := {}, pwr := { s2.pwr with alarmArmed := false } }
    else s1)

/-- RESET_RELEASE (R599, R660): BOOT_MODE is sampled, 0b11 acting as 0b00, and from OFF or BACKUP the chip enters BOOT. Not while a rail
monitor or the temperature holds it. -/
def execResetRelease (mode : Nat) (s : State) : Out :=
  .next (if s.pwr.railTrip || s.pwr.thermal then s else
    let sampled (s : State) : State := { s with boot := { s.boot with mode := mode % 4 }, pwr := { s.pwr with main := true } }
    match s.node.state with
    | .off | .backup => sampled (startUp s)
    | .boot => if s.pwr.pllLocked then s else sampled s
    | _ => s)

/-- PGOOD_FALL (R653): loss of main rails. -/
def execPgoodFall (s : State) : Out := .next (let s1 := loseRails s; { s1 with pwr := { s1.pwr with main := false } })

/-- RESET_N_LOW (R661): handled as a watchdog reset, without announcement. -/
def execResetNLow (s : State) : Out := .next (if s.alive then enterBoot 18 s else s)

/-- RAIL_MONITOR_TRIP (R414, R653): as PGOOD falling, and the chip is held in reset until the rail recovers. -/
def execRailMonitorTrip (s : State) : Out :=
  .next (if !s.pwr.main then s else let s1 := loseRails s; { s1 with pwr := { s1.pwr with railTrip := true } })

/-- RAIL_RECOVERY (R414): the chip leaves reset. -/
def execRailRecovery (s : State) : Out :=
  .next (if !s.pwr.railTrip then s else
    let s1 := { s with pwr := { s.pwr with railTrip := false } }
    if !s1.pwr.main || s1.pwr.thermal then s1 else startUp s1)

/-- ROOT_PLL_UNLOCK (R414): the claim goes and the chip resets into BOOT. -/
def execRootPllUnlock (s : State) : Out := .next (if s.alive then enterBoot 17 s else s)

/-- ROOT_PLL_LOCK (R109, R604, R650): the free counter starts at 0, and the bypass outputs are driven low. -/
def execRootPllLock (s : State) : Out :=
  .next (if !s.alive || s.node.state ≠ .boot || s.pwr.pllLocked then s else
    assertBypass { s with pwr := { s.pwr with pllLocked := true }, time := { s.time with fc := 0 } })

/-- GROOM_LOCKSTEP_MISMATCH (R414). -/
def execGroomLockstepMismatch (s : State) : Out := .next (if s.alive then enterBoot 17 s else s)

/-- GROOM_PARITY_ERROR (R414). -/
def execGroomParityError (s : State) : Out := .next (if s.alive then enterBoot 17 s else s)

/-- GROOM_WATCHDOG_EXPIRY (R414): the firmware's watchdog, which runs with it. -/
def execGroomWatchdogExpiry (s : State) : Out := .next (if s.alive && s.boot.fwRunning then enterBoot 17 s else s)

/-! ## Temperature (R672) -/

/-- A THERMAL record at a threshold. -/
def thermalSaid (sensor : Nat) (temp : Int) (threshold sev : Nat) (s : State) : State :=
  logEvent 0x0107 sev ([byte sensor] ++ leInt 2 temp ++ leInt 2 threshold) { s with pwr := { s.pwr with thermalStep := threshold } }

/-- THERMAL_THRESHOLD: each threshold is logged once when it is crossed; at 125 °C the chip acts as at the loss of main rails. -/
def execThermalThreshold (sensor : Nat) (temp : Int) (s : State) : Out :=
  .next (if !s.alive then s
    else if 125 ≤ temp then let s1 := loseRails s; { s1 with pwr := { s1.pwr with thermal := true, thermalStep := 0 } }
    else
      let s1 := if 110 ≤ temp && s.pwr.thermalStep < 110 then thermalSaid sensor temp 110 sevWarning s else s
      let s2 := if 120 ≤ temp && s.pwr.thermalStep < 120 then thermalSaid sensor temp 120 sevCritical s1 else s1
      let low : Nat := if temp < 110 then 0 else if temp < 120 then 110 else 120
      { s2 with pwr := { s2.pwr with thermalStep := low } })

/-- THERMAL_RECOVERY: below 100 °C the shutdown ends, as PGOOD rising does; reset release follows. -/
def execThermalRecovery (s : State) : Out := .next { s with pwr := { s.pwr with thermal := false } }

/-! ## Standby and wake (R87, R212, R617 to R619) -/

/-- WAKE_IN is at its active level (R609). -/
def State.wakeActive (s : State) : Bool := s.pwr.wakeIn = decide (s.param 1 4 0xFFFF 0 = 0)

/-- STABLE_IDLE_EXPIRY (R617). -/
def execStableIdleExpiry (s : State) : Out :=
  .next (if !s.alive || s.param 1 2 0xFFFF 0 = 0 || !(s.node.state = .ready || s.node.state = .run) || s.wakeActive || s.noLatch || s.node.removal.isSome
    then s else startStabled none 14 s)

/-- STABLED_ENTRY_DONE (R617): the cycles have ended and the bypass is asserted. A node that has meanwhile left READY and RUN does not enter STABLED. -/
def execStabledEntryDone (s : State) : Out :=
  .next (if !s.alive || !s.pwr.entering || !s.cyclesEnded || s.node.bypassA = .high || s.node.bypassB = .high then s
    else if s.node.state = .ready || s.node.state = .run then
      let s1 := enterStabled s
      if s.pwr.wakeKept then wakeEvent { s1 with pwr := { s1.pwr with wakeKept := false } } else s1
    else
      finish s.pwr.stableCmd stWrongState [] { s with
        pwr := { s.pwr with entering := false, stableCmd := none, wakeKept := false }, node := { s.node with removal := none } })

/-- WAKE_IN_EDGE (R617, R618): to the active level, for 100 µs. -/
def execWakeInEdge (s : State) : Out :=
  .next (
    let s1 := { s with pwr := { s.pwr with wakeIn := decide (s.param 1 4 0xFFFF 0 = 0), idleFrom := s.now } }
    if s.alive then wakeEvent s1 else s1)

/-- WAKE_IN_INACTIVE_EDGE (R617): the idle timer runs again, from its start. -/
def execWakeInInactiveEdge (s : State) : Out :=
  .next { s with pwr := { s.pwr with wakeIn := decide (s.param 1 4 0xFFFF 0 ≠ 0), idleFrom := s.now } }

/-- WAKE_ALARM_EXPIRY (R618, R619): wakes the node, or drives WAKE_OUT from VBAK in BACKUP. -/
def execWakeAlarmExpiry (s : State) : Out :=
  .next (if !s.pwr.alarmArmed then s else
    let s1 := { s with pwr := { s.pwr with alarmArmed := false } }
    match s.node.state with
    | .stabled => wakeEvent s1
    | .backup => drivePin .wakeOut .high s1
    | _ => s1)

/-- WAKE_OUT_PULSE_END (R618): after 100 ms the output is low again. -/
def execWakeOutPulseEnd (s : State) : Out := .next (if s.pwr.wakeOut = .high then drivePin .wakeOut .low s else s)

/-- BYPASS_ANNOUNCE_EXPIRY (R87): the bypass outputs are asserted; a restart or a commit goes on into BOOT. -/
def execBypassAnnounceExpiry (s : State) : Out :=
  .next (if !s.alive then s else
    match s.node.removal with
    | none => s
    | some r =>
      let s1 := assertBypass s
      match r with
      | .restart => enterBoot 16 s1
      | .commit => enterBoot 12 s1
      | .stable => s1)

/-- BYPASS_SETTLE_EXPIRY (R212). -/
def execBypassSettleExpiry (s : State) : Out := .next (if s.alive then endSettle s else s)

/-! ## SYS_RESTART and SYS_STABLE (R592, R594) -/

/-- The chip is on its way out of the train: removal is announced first where it is in line. -/
def leaveFor (r : Removal) (cause : Nat) (s : State) : State :=
  if s.node.state.inLine then announceBypass { s with node := { s.node with removal := some r } } else enterBoot cause s

/-- SYS_RESTART: completes, is recorded, and the chip goes to BOOT; it overtakes any other removal (R46). -/
def execSysRestart (c : Acs) (s : State) : Out :=
  .next (acsLen 0x0103 anyState 4 c (badArgIf (decide (3 < c.arg 0 1) || c.nonZero 1 3) 0x0103 c (fun s =>
    let s1 := done c 0x0103 stOk [] s
    let s2 := logEvent 0x0105 sevNotice [byte (c.arg 0 1), byte (s1.host.box c.mbx).agent] s1
    leaveFor .restart 16 { s2 with node := { s2.node with startNext := c.arg 0 1 } })) s)

/-- SYS_STABLE takes effect (R594, R617). -/
def effSysStable (r : Option AcsRef) (s : State) : State :=
  if s.tack.commitOn then finish r stBusy [] s
  else if !(s.node.state = .ready || s.node.state = .run) || s.pwr.entering || s.node.removal.isSome then finish r stWrongState [] s
  else startStabled r 13 s

/-- SYS_STABLE: node-wide (R432). -/
def execSysStable (c : Acs) (s : State) : Out :=
  .next (acsLen 0x0104 [.ready, .run] 0 c (fun s =>
    if s.tack.commitOn then done c 0x0104 stBusy [] s else nodeWide 0x0104 c effSysStable s) s)

/-! ## Firmware pages (R634, R637) -/

/-- FW_PAGE: kind 0 a firmware code page, reloaded from source 1 the reference copy or 2 the flash slot; else firmware data, whose structure is rebuilt: 1
Wrangler round, 2 task staging, 3 migrations, 4 another. -/
def execFwPage (kind addr source : Nat) (s : State) : Out :=
  .next (if !s.alive || !s.boot.fwRunning then s else
    let s1 := logEvent 0x1009 sevError (le 8 addr ++ [byte (if kind = 0 then source else 0)]) s
    match kind with
    | 1 => { s1 with wr := { s1.wr with round := s1.wr.round.map (fun r => { r with reports := [], verdicts := [], frozen := true, place := none, own := none }) } }
    | 2 => { s1 with ctl := { s1.ctl with stage := [], stageLen := 0, staged := false } }
    | 3 =>
      let s2 := s1.wr.migs.foldl (fun s m => if m.out then abortOut m.task 0 s else dropIn m.task m.peer s) s1
      if s2.node.form = .span && s2.red.role = .standby then
        (s2.red.copies.map Prod.fst).foldl (fun s n => s.carriers.foldl (fun s l => requestFull l n s) s) s2
      else s2
    | _ => s1)

end Sys2Proof.Machine
end

