-- ==== Sys2Proof/Machine/Wrangler.lean ====
section
/-! DEFINITION. Wrangler's events and commands (08_wrangler.md). -/
namespace Sys2Proof.Machine

/-! ## Rounds (R375, R376, R381) -/

/-- This chip carries rounds through their steps: the Span chip that holds the claim, each Troika chip (R394, R395). -/
def State.wrRuns (s : State) : Bool := s.alive && s.wrOn && (s.node.form ≠ .span || s.node.active)

/-- A step of a round here; the Span peer is told of it (R394). -/
def wrStep (no : Nat) (f : State → State) (s : State) : State :=
  if !s.wrRuns then s else f (if s.node.form = .span then wrTell no s.node.nid [] s else s)

/-- SCHEDULED_ROUND: the instant of PLACE_PERIOD; resA and resB are the express residence measured over the period, in ns (R368, R375). -/
def execScheduledRound (resA resB : Nat) (s : State) : Out :=
  .next (if !s.alive || !s.wrSender then s else
    let n := s.trainNow / ttSec % 2 ^ 32
    let s1 := { s with wr := { s.wr with resA := min 0xFFFF resA, resB := min 0xFFFF resB } }
    if s.wr.unstarted 0 n then startWrRound 0 n [] s1 else s1)

/-- REPORT_RECEIVE (R372). -/
def execReportReceive (f : Frame) (s : State) : Out := .next (if s.alive then wrFrame 1 f s else s)

/-- VERDICT_RECEIVE (R374). -/
def execVerdictReceive (f : Frame) (s : State) : Out := .next (if s.alive then wrFrame 2 f s else s)

/-- WRANGLER_FREEZE (R376). -/
def execWranglerFreeze (s : State) : Out := .next (wrStep 4 wrFreeze s)

/-- PLACEMENT_COMPUTED (R377). -/
def execPlacementComputed (s : State) : Out := .next (wrStep 5 wrCompute s)

/-- PLACEMENT_APPLY (R376, R382). -/
def execPlacementApply (s : State) : Out := .next (wrStep 6 wrApply s)

/-- ROUND_DISAGREE_CHECK (R381, R382). -/
def execRoundDisagreeCheck (s : State) : Out := .next (wrStep 7 wrDisagree s)

/-- DWELL_EXPIRY: MIN_DWELL ends for a unit's task (R380). -/
def execDwellExpiry (placeId : Nat) (s : State) : Out :=
  .next { s with wr := { s.wr with dwell := s.wr.dwell.filter (· ≠ placeId) } }

/-! ## Migration (R384 to R387) -/

/-- STATE_RECEIVE (R384). -/
def execStateReceive (f : Frame) (s : State) : Out := .next (if s.alive then wrFrame 3 f s else s)

/-- ACK_RECEIVE (R384). -/
def execAckReceive (f : Frame) (s : State) : Out := .next (if s.alive then wrFrame 4 f s else s)

/-- RELEASE_RECEIVE (R386). -/
def execReleaseReceive (f : Frame) (s : State) : Out := .next (if s.alive then wrFrame 5 f s else s)

/-- TAKEN_RECEIVE (R386). -/
def execTakenReceive (f : Frame) (s : State) : Out := .next (if s.alive then wrFrame 6 f s else s)

/-- ABORT_RECEIVE (R387). -/
def execAbortReceive (f : Frame) (s : State) : Out := .next (if s.alive then wrFrame 7 f s else s)

/-- MIGRATE_ABORT: PLACE_PERIOD passed without an overlap cycle, or MIG_EXTEND_MAX cycles since the first without a release (R387). -/
def execMigrateAbort (task : Nat) (s : State) : Out :=
  .next (match s.mig? task with
    | none => s
    | some m =>
      if !s.alive || !m.out || m.released.isSome then s
      else if m.overlaps = 0 then abortOut task 1 s
      else if s.migExtend ≤ m.cycles then abortOut task 2 s
      else s)

/-! ## Commands (R399 to R402) -/

/-- WRANGLER commands complete with WRONG_STATE where PLACE_DOMAIN is 0. -/
def wrOnly (opcode : Nat) (c : Acs) (body : State → State) (s : State) : State :=
  if s.placeDomain = 0 then done c opcode stWrongState [] s else body s

/-- WRANGLER_STATUS (R400). -/
def State.wranglerStatus (s : State) : List Byte :=
  let w := s.wr
  let own := sumOf ((w.applied.filter (fun p => p.nid = s.node.nid)).map Placed.load)
  let flags := b01 w.isMember + flag s.eligible 1 + flag w.fallback 2 + flag w.appliedHold 3 + flag w.outlier 4 + flag w.round.isSome 5
  le 4 s.placeDomain ++ wordBytes w.appliedGen ++ [byte w.appliedKind, byte flags, byte w.appliedMembers.length, byte w.disagreed]
    ++ le 4 w.appliedRound ++ le 4 w.appliedFp ++ le 4 w.appliedDigest ++ le 2 w.applied.length
    ++ le 2 (w.applied.filter (fun p => p.unmet ≠ 0)).length ++ le 2 w.migs.length ++ le 2 w.lastCapacity ++ le 2 w.lastFixed
    ++ le 2 (w.lastFixed + own) ++ le 4 s.policyDigest ++ le 8 w.applyTick

/-- WRANGLER_STATUS (R400). -/
def execWranglerStatus (c : Acs) (s : State) : Out :=
  .next (acsLen 0x0900 inLineStates 0 c (wrOnly 0x0900 c (fun s => done c 0x0900 stOk s.wranglerStatus s)) s)

/-- One entry of WRANGLER_PLACEMENT (R401). -/
def State.placementEntry (s : State) (p : Placed) : List Byte :=
  let loc := (s.placeTasks.find? (fun e => placeId e.1 = p.id)).map (fun e => e.2.1)
  let cand := p.cands.contains s.node.nid
  let mig := loc.any (fun n => (s.mig? n).isSome)
  let flags := b01 (decide (p.unmet ≠ 0)) + flag p.pin 1 + flag (p.dwell || s.wr.dwell.contains p.id) 2 + flag mig 3
    + flag (s.wr.appliedMembers.contains p.home) 4
  le 4 p.id ++ [byte (if cand then loc.getD 0xFF else 0xFF), byte flags] ++ le 2 p.load ++ nidBytes p.nid ++ nidBytes p.home

/-- WRANGLER_PLACEMENT (R401). -/
def execWranglerPlacement (c : Acs) (s : State) : Out :=
  .next (acsLen 0x0901 inLineStates 4 c (wrOnly 0x0901 c (badArgIf (c.nonZero 2 2) 0x0901 c (fun s =>
    let es := (s.wr.applied.drop (c.arg 0 2)).take 160
    done c 0x0901 stOk (le 4 es.length ++ le 4 s.wr.applied.length ++ (es.map s.placementEntry).flatten) s))) s)

/-- HOLD on the node (R402). -/
def effWranglerHold (a : List Byte) (r : Option AcsRef) (s : State) : State :=
  let on := bit (fLe a 0 4) 0
  finish r stOk (le 4 (b01 s.wr.appliedHold + flag on 1)) { s with wr := { s.wr with hold := on } }

/-- WRANGLER_HOLD (R399, R402). -/
def execWranglerHold (c : Acs) (s : State) : Out :=
  .next (acsLen 0x0902 inLineStates 4 c (wrOnly 0x0902 c
    (badArgIf (decide (1 < c.arg 0 4)) 0x0902 c (nodeWide 0x0902 c (effWranglerHold c.args)))) s)

end Sys2Proof.Machine
end

