-- ==== Sys2Proof/Machine/NodeWide.lean ====
section
/-! DEFINITION. Node-wide commands on MGMT: forwarding, order, effect on every chip, completion (R413, R432, R433). -/
namespace Sys2Proof.Machine

/-- The effect of a node-wide command by its opcode. -/
def effOf (opcode : Nat) (a : List Byte) (r : Option AcsRef) (s : State) : State :=
  match opcode with
  | 0x0104 => effSysStable r s
  | 0x0202 => effTackCommit a r s
  | 0x0303 => effHitchInhibit a r s
  | 0x0304 => effHitchRequest a r s
  | 0x0401 => effTimeSelect a r s
  | 0x0402 => effTimeSet a r s
  | 0x0602 => effStreamPut a r s
  | 0x0604 => effStreamLine a r s
  | 0x0605 => effStreamEnable a r s
  | 0x0701 => effTaskStart a r s
  | 0x0702 => effTaskStop a r s
  | 0x0703 => effTaskResume a r s
  | 0x0704 => effTaskSwap a r s
  | 0x0800 => effForceSet a r s
  | 0x0801 => effForceRelease a r s
  | 0x0803 => effForceReleaseAll a r s
  | 0x0902 => effWranglerHold a r s
  | 0x0A02 => effRedundSwitch a r s
  | 0x0B00 => effCanConfig a r s
  | 0x0C02 => effLegacyPortWrite a r s
  | 0x0C04 => effLegacyMsgSend a r s
  | 0x0D01 => effBridgeSession a r s
  | _ => finish r stBadOpcode [] s

/-- The command that a MGMT message carries: the header's fields and the argument. -/
def mgmtCmd (s : State) (link : Nat) (b : List Byte) : NodeCmd :=
  { ref := none, chip := s.linkChip link, opcode := fLe b 0 2, tag := BitVec.ofNat 16 (fLe b 4 2), gen := BitVec.ofNat 32 (fLe b 8 4)
    args := slice b 16 (fLe b 6 2), left := [] }

/-- Send this chip's answer to a command another chip received (R413). -/
def answer (c : NodeCmd) (status : Nat) (payload : List Byte) (s : State) : State :=
  tugAll .mgmt 0x02 (rspBytes c.guest status s.hitch.gen payload) s

/-- The chip says how its staged image stands before a TACK_COMMIT that another chip received (R433; log entry 31). -/
def reportFor (c : NodeCmd) (s : State) : State :=
  if c.opcode = 0x0202 then tugAll .mgmt 0x03 (stageReport s) s else s

/-- The same command: opcode, TAG and argument. -/
def NodeCmd.same (c d : NodeCmd) : Bool := c.opcode = d.opcode && c.tag = d.tag && c.args = d.args

/-- A forwarded command reaches this chip: the coordinator judges its generation, gives it a place in the order and sends it on to every chip; a
chip takes the place the coordinator gave it. -/
def takeCommand (link : Nat) (b : List Byte) (s : State) : State :=
  let c := mgmtCmd s link b
  if c.opcode = 0x0705 then stageChunk (fLe c.args 0 4) (fLe c.args 4 4) (c.args.drop 8) s
  else if c.opcode = 0x0A03 then (if fLe c.args 0 1 = s.node.chipIndex then excludeSelf 6 0 s else s)
  else if s.coordinator then
    if c.gen ≠ 0 ∧ c.gen ≠ s.hitch.gen then answer c stStale [] s
    else tugAll .mgmt 0x01 b (reportFor c { s with red := { s.red with cmds := s.red.cmds ++ [c] } })
  else match s.red.cmds.find? (fun d => !d.ordered && d.same c) with
    | some d => { s with red := { s.red with cmds := s.red.cmds.erase d ++ [{ d with ordered := true }] } }
    | none => reportFor c { s with red := { s.red with cmds := s.red.cmds ++ [c] } }

/-- What another chip says of its staged image (R433). -/
def takeStaging (b : List Byte) (s : State) : State :=
  let fp := if fLe b 2 1 = 1 then some (BitVec.ofNat 256 (fBe b 3 32)) else none
  { s with red := { s.red with stages := s.red.stages.filter (fun e => e.1 ≠ fLe b 1 1) ++ [(fLe b 1 1, fp)] } }

/-- A firmware record (R413): a stage report (log entry 31), or the slot of a record that a chip of this node witnesses (R540). -/
def takeFirmware (b : List Byte) (s : State) : State :=
  if b.length = 35 && fLe b 0 1 = 2 then takeStaging b s
  else if s.logs then storeWitness s.node.nid s.hitch.gen b s else s

/-- MGMT_COMMAND_RECEIVE: TYPE 0x01 and 0x03 (R413). -/
def execMgmtCommandReceive (m : TugRx) (s : State) : Out :=
  .next (onTug .mgmt m (fun s => if m.typ = 1 then takeCommand m.link m.data s else if m.typ = 3 then takeFirmware m.data s else s) s)

/-- A command whose every chip has applied it completes with the answer this chip kept (R432). -/
def completeCmd (c : NodeCmd) (s : State) : State :=
  if !c.applied || !c.left.isEmpty then s
  else match c.ref, c.result with
    | some r, some (st, p) => acsDone r st p { s with red := { s.red with cmds := s.red.cmds.erase c } }
    | _, _ => { s with red := { s.red with cmds := s.red.cmds.erase c } }

/-- Another chip has applied a command: a status other than OK stands, and a payload serves where this chip's answer has none. -/
def NodeCmd.heard (c : NodeCmd) (chip status : Nat) (payload : List Byte) : NodeCmd :=
  let res := match c.result with
    | some (0, p) => some (status, if p.isEmpty then payload else p)
    | some x => some x
    | none => if status = stOk then none else some (status, payload)
  { c with left := c.left.filter (fun i => i ≠ chip), result := res }

/-- An answer reaches the chip that received the command (R413, R432): a refusal by the coordinator ends it. -/
def takeAnswer (link : Nat) (b : List Byte) (s : State) : State :=
  let chip := s.linkChip link
  let status := fLe b 2 2
  match s.red.cmds.find? (fun c => c.ref.isSome && c.opcode = fLe b 0 2 && c.tag.toNat = fLe b 4 2 && c.left.contains chip) with
  | none => s
  | some c =>
    let c1 := if !c.ordered && status ≠ stOk then { c with left := [], applied := true, result := some (status, []) }
      else c.heard chip status (slice b 16 (fLe b 6 2))
    completeCmd c1 { s with red := { s.red with cmds := s.red.cmds.map (fun d => if d = c then c1 else d) } }

/-- MGMT_RESPONSE_RECEIVE (R413). -/
def execMgmtResponseReceive (m : TugRx) (s : State) : Out :=
  .next (onTug .mgmt m (fun s => if m.typ = 2 then takeAnswer m.link m.data s else s) s)

/-- A TACK_COMMIT waits until every chip has said how its staged image stands (R433). -/
def NodeCmd.ready (c : NodeCmd) (s : State) : Bool :=
  c.ordered && !c.applied
    && (c.opcode ≠ 0x0202 || s.carriers.all (fun l => s.red.stages.any (fun e => e.1 = s.linkChip l)))

/-- A node-wide command takes effect on the chip that received it. -/
def applyOwn (c : NodeCmd) (s : State) : State :=
  let c1 := { c with applied := true }
  let s1 := effOf c.opcode c.args c.ref { s with red := { s.red with cmds := s.red.cmds.map (fun d => if d = c then c1 else d) } }
  match s1.red.cmds.find? (fun d => d.applied && d.ref = c.ref) with
  | some d => completeCmd d s1
  | none => s1

/-- A node-wide command takes effect on another chip, which tells the chip that received it. -/
def applyGuest (c : NodeCmd) (s : State) : State :=
  let c1 := { c with applied := true, ref := some c.guest, left := [s.node.chipIndex] }
  let s1 := effOf c.opcode c.args c1.ref { s with red := { s.red with cmds := s.red.cmds.map (fun d => if d = c then c1 else d) } }
  let res := ((s1.red.cmds.find? (fun d => d.applied && d.ref = c1.ref)).bind NodeCmd.result).getD (stOk, [])
  answer c res.1 res.2 { s1 with red := { s1.red with cmds := s1.red.cmds.filter (fun d => d.ref ≠ c1.ref) } }

/-- NODE_WIDE_APPLY: the first ordered command that this chip has not applied (R432). -/
def execNodeWideApply (s : State) : Out :=
  .next (if !s.alive then s else
    match s.red.cmds.find? (fun c => c.ordered && !c.applied) with
    | none => s
    | some c =>
      if !c.ready s then s
      else
        let s1 := if c.ref.isSome then applyOwn c s else applyGuest c s
        if c.opcode = 0x0202 then { s1 with red := { s1.red with stages := [] } } else s1)

/-- NODE_WIDE_TIMEOUT: chips that have not applied the oldest command this chip received are treated as having lost their tug links; it
completes on those that applied it (R433). A command whose coordinator is lost is applied at this chip's next instant (R434). -/
def execNodeWideTimeout (s : State) : Out :=
  .next (if !s.alive then s else
    match s.red.cmds.find? (fun c => c.ref.isSome && !c.left.isEmpty) with
    | none => s
    | some c =>
      let c1 := { c with left := [], ordered := true }
      let s1 := { s with red := { s.red with cmds := s.red.cmds.map (fun d => if d = c then c1 else d) } }
      let s2 := (s.carriers.filter (fun l => c.left.contains (s.linkChip l))).foldl (fun s l => linkDown l s) s1
      completeCmd c1 s2)

end Sys2Proof.Machine
end

