-- ==== Sys2Proof/Machine/Port.lean ====
section
/-! DEFINITION. The MACs' events and commands (05_frame_engine.md R223 to R240, R275 to R278; R63, R66, R207): links, MAC merge verification,
pause, MKA, wake patterns. -/
namespace Sys2Proof.Machine

/-! ## MAC merge verification (R225, R226) -/

/-- A verify or respond frame leaves, where the port transmits. -/
def sendMerge (p : Nat) (respond : Bool) (s : State) : State :=
  if s.switches p && s.portUp p then emit (.merge p respond) s else s

/-- Verification (re)starts on a port, with its first verify frame (R226, R277). -/
def startVerify (p : Nat) (s : State) : State :=
  let c := s.macCfg p
  if p = 14 || !c.mmEnable then setMac p (fun m => { m with mm := .disabled, attempts := 0 }) s
  else if !(s.mac p).link then setMac p (fun m => { m with mm := .initial, attempts := 0 }) s
  else if !c.mmVerify then setMac p (fun m => { m with mm := .unverified, attempts := 0 }) s
  else sendMerge p false (setMac p (fun m => { m with mm := .verifying, attempts := 1 }) s)

/-- Verification ends (R226): 1 SUCCEEDED, 2 FAILED. -/
def verified (p : Nat) (ok : Bool) (s : State) : State :=
  raise .port 2 (logEvent 0x0522 (if ok then sevNotice else sevWarning) [byte p, byte (if ok then 3 else 4)]
    (setMac p (fun m => { m with mm := if ok then .succeeded else .failed }) s))

/-- VERIFY_LIMIT (R224). -/
def State.verifyLimit (s : State) (p : Nat) : Nat := s.param 6 4 p 3

/-- VERIFY_FRAME_RECEIVE: answered whatever the port's own settings (R225). -/
def execVerifyFrameReceive (port : Nat) (s : State) : Out :=
  .next (if s.alive && port < 14 then sendMerge port true s else s)

/-- RESPOND_FRAME_RECEIVE: verification succeeds (R226). -/
def execRespondFrameReceive (port : Nat) (s : State) : Out :=
  .next (if s.alive && port < 14 && s.portUp port && (s.mac port).mm = .verifying then verified port true s else s)

/-- VERIFY_TIME_EXPIRY: another verify frame, or FAILED after VERIFY_LIMIT of them (R226). -/
def execVerifyTimeExpiry (port : Nat) (s : State) : Out :=
  .next (if !s.alive || 14 ≤ port || (s.mac port).mm ≠ .verifying then s
    else if s.verifyLimit port ≤ (s.mac port).attempts then verified port false (count (statPort port 26) s)
    else sendMerge port false (setMac port (fun m => { m with attempts := m.attempts + 1 }) s))

/-! ## Pause (R232 to R236) -/

/-- Whole milliseconds of the paused state that ends now are counted as PAUSED_MS (R269). -/
def endPause (p : Nat) (s : State) : State :=
  let m := s.mac p
  if !m.paused then s
  else
    let t := m.pausedRem + (s.now - m.pausedAt)
    countN (statPort p 23) (t / ticksPerMs)
      (setMac p (fun m => { m with paused := false, pauseEnd := s.now, pausedRem := t % ticksPerMs }) s)

/-- The measure of continuous pause runs (R235): the port is paused, or has been out of that state for less than 1 ms. -/
def State.pauseMeasured (s : State) (p : Nat) : Bool :=
  let m := s.mac p
  m.pauseFrom.isSome && (m.paused || decide (s.now < m.pauseEnd + ticksPerMs))

/-- Ticks of a pause time: quanta of 512 bit times at the port's rate (R232). -/
def State.quantaTicks (s : State) (p q : Nat) : Nat := q * 512 * ticksPerUs / rateMbps (s.mac p).rate

/-- PAUSE_FRAME_RECEIVE: the port pauses, restarts or ends its pause, or ignores the frame (R232, R235). -/
def execPauseFrameReceive (port quanta : Nat) (sa : Mac) (s : State) : Out :=
  .next (if !s.alive || 15 ≤ port || !s.portUp port then s else
    let s1 := count (statPort port 9) s
    if !(s.macCfg port).pauseRx then s1
    else if (s.mac port).holdTo.isSome then count (statPort port 25) s1
    else
      let s2 := setMac port (fun m => { m with pauseSa := sa }) s1
      if quanta = 0 then endPause port s2
      else
        let from_ := if s.pauseMeasured port then (s.mac port).pauseFrom else some s.now
        setMac port (fun m => { m with
          paused := true, pausedAt := if m.paused then m.pausedAt else s.now, pauseFrom := from_
          pauseTo := s.now + s.quantaTicks port quanta }) s2)

/-- PAUSE_EXPIRY: the pause time has run out (R232). -/
def execPauseExpiry (port : Nat) (s : State) : Out := .next (if s.alive && port < 15 then endPause port s else s)

/-- PAUSE_WATCHDOG: continuous pause has reached PAUSE_WD_LIMIT (R235). -/
def execPauseWatchdog (port : Nat) (s : State) : Out :=
  .next (if !s.alive || 15 ≤ port || !s.pauseMeasured port then s else
    let m := s.mac port
    let ms := (s.now - m.pauseFrom.getD s.now) / ticksPerMs
    let s1 := endPause port s
    let s2 := setMac port (fun m => { m with pauseFrom := none, holdTo := some (s.now + (s.macCfg port).wdHold * 100 * ticksPerMs) }) s1
    raise .port 1 (logEvent 0x0521 sevWarning ([byte port] ++ le 4 ms ++ macBytes m.pauseSa) (count (statPort port 24) s2)))

/-- PAUSE_HOLDOFF_EXPIRY: pause frames are honoured again (R235). -/
def execPauseHoldoffExpiry (port : Nat) (s : State) : Out :=
  .next (if s.alive && port < 15 then setMac port (fun m => { m with holdTo := none, pauseFrom := none }) s else s)

/-- PAUSE_REFRESH: the pause frame is repeated while the cells exceed XON, and ends when they do not (R236). -/
def execPauseRefresh (port : Nat) (s : State) : Out :=
  .next (if !s.alive || 15 ≤ port || !(s.mac port).xoffSent || !(s.mac port).link then s
    else if cellsOfKib (s.macCfg port).xonKiB < s.occupancy port then sendPause port 0xFFFF s
    else pauseCheck port s)

/-! ## Links (R63, R66, R223) -/

/-- A link changes: counted, logged and raised (R273, R274, R276). -/
def linkChanged (p : Nat) (up : Bool) (rate : Nat) (s : State) : State :=
  raise .port 0 (logEvent 0x0520 sevNotice [byte p, byte (if up then 1 else 2), byte rate]
    (setMac p (fun m => { m with link := up, rate := rate, changes := min 0xFFFFFFFF (m.changes + 1), linkTick := s.now }) s))

/-- RATE codes that a port has (R165). -/
def rateOk (p rate : Nat) : Bool :=
  if p < 4 then decide (2 ≤ rate) && decide (rate ≤ 5) else if p < 14 then rate = 2 || rate = 3 else decide (rate ≤ 2)

/-- WAKE_ON_LINK (R224). -/
def State.wakeOnLink (s : State) (p : Nat) : Bool := bit s.wakePorts p && s.param 6 14 p 0 = 1

/-- LINK_UP: LINK_DEBOUNCE starts on a backbone port, verification on every port; in STABLED it may wake the node (R66, R226, R240). -/
def execLinkUp (port rate : Nat) (s : State) : Out :=
  .next (if !s.alive || 15 ≤ port || !s.portOn port || (s.mac port).link || !rateOk port rate then s else
    let s1 := startVerify port (linkChanged port true rate s)
    let s2 := if port < 4 && s.hitchOn then setMac port (fun m => { m with debounce := true }) s1 else s1
    if !s.wakeOnLink port then s2
    else if s.node.state = .stabled then wakeEvent (logEvent 0x0523 sevNotice [byte port, 0xFF] s2)
    else if s.pwr.entering then wakeEvent s2 else s2)

/-- What a backbone port's hitch state keeps over a loss of link. -/
def HPort.unlinked (h : HPort) : HPort :=
  { fault := h.fault, missed := h.missed, invalid := h.invalid, losses := h.losses, rtt := h.rtt, txSeq := h.txSeq }

/-- LINK_DOWN: the neighbour on the line is lost, queued frames are dropped, learned addresses of a consist port go. cutOff: a
preemptable frame was left open (R63, R178, R230). -/
def execLinkDown (port : Nat) (cutOff : Bool) (s : State) : Out :=
  .next (if !s.alive || 15 ≤ port || !(s.mac port).link then s else
    let s1 := if cutOff then count (statPort port 11) s else s
    let s2 := endPause port s1
    let s3 := setMac port (fun m => { m with debounce := false, hold := false, xoffSent := false, pauseFrom := none, holdTo := none })
      (count (statPort port 54) (linkChanged port false 0xFF s2))
    let s4 := dropPort port 42 (startVerify port s3)
    if port < 4 then
      setHPort port HPort.unlinked (neighbourLost port (setSec port (fun m => { m with running := false }) (mkaLost port s4)))
    else unlearn (fun e => e.dest = port) s4)

/-- LINK_DEBOUNCE_EXPIRY: hitch frames and supervision begin, and MKA starts (R66, R207). -/
def execLinkDebounceExpiry (port : Nat) (s : State) : Out :=
  .next (if !s.alive || 4 ≤ port || !(s.mac port).debounce || !(s.mac port).link then s else
    let s1 := setMac port (fun m => { m with debounce := false }) s
    if !s.hitchOn then s1
    else
      let mka := decide (s.macsecMode port ≠ 0) && (s.param? 7 1 port).isSome
      hitchAfter (setSec port (fun m => { m with running := mka })
        (setHPort port (fun h => { h with live := true, heard := false, missedRun := 0 }) s1)))

/-! ## MKA (R207) -/

/-- MKA_FRAME_RECEIVE: what the exchange of IEEE 802.1X-2020 comes to: a live peer, or an SA in use. -/
def execMkaFrameReceive (port : Nat) (ev : MkaEvent) (s : State) : Out :=
  .next (if !s.alive || 4 ≤ port || !s.portUp port || !(s.sec_ port).running then s else
    match ev with
    | .peerLive sci server => setSec port (fun m => { m with st := max 1 m.st, peerSci := sci, server := server }) s
    | .saInUse an kn =>
      saSaid port (setSec port (fun m => { m with st := 2, an := an % 4, kn := kn, txPn := 1, icvFail := 0, replay := 0, fails := 0 }) s)
    | .other => s)

/-- MKA_HELLO_TIMER: an MKA hello is sent. -/
def execMkaHelloTimer (port : Nat) (s : State) : Out :=
  .next (if s.alive && port < 4 && (s.sec_ port).running then sendMka port s else s)

/-- MKA_LIFETIME_EXPIRY: the peer is gone. -/
def execMkaLifetimeExpiry (port : Nat) (s : State) : Out :=
  .next (if s.alive && port < 4 && (s.sec_ port).running then mkaLost port s else s)

/-- SAK_REKEY_TIMER: the key server distributes a new SAK. -/
def execSakRekeyTimer (port : Nat) (s : State) : Out := .next (if s.alive && port < 4 then newSak port s else s)

/-! ## Commands (R275 to R278) -/

/-- PORT_MAC_STATUS (R276). -/
def execPortMacStatus (c : Acs) (s : State) : Out :=
  .next (acsLen 0x0510 inServing 4 c (badArgIf (decide (14 < c.arg 0 1) || c.nonZero 1 3) 0x0510 c (fun s =>
    let p := c.arg 0 1
    let m := s.mac p
    let k := s.macCfg p
    let us := if s.pauseMeasured p then (s.now - m.pauseFrom.getD s.now) / ticksPerUs else 0
    let hold := match m.holdTo with | some t => (t - s.now) / ticksPerMs | none => 0
    done c 0x0510 stOk ([byte (b01 m.link), byte m.rate, byte m.mm.code,
        byte (b01 k.pauseRx + flag k.pauseTx 1 + flag k.exempt 2 + flag m.paused 3 + flag m.holdTo.isSome 4 + flag m.xoffSent 5)]
      ++ le 4 (min 0xFFFFFFFF us) ++ le 4 hold ++ le 4 m.changes ++ le 8 m.linkTick ++ [byte k.addFrag, byte k.verifyMs] ++ le 2 k.wdLimit
      ++ zeros 4) s)) s)

/-- The MAC parameters that PORT_MAC_SET's argument spells. -/
def macCfgOf (a : List Byte) : MacCfg :=
  let f := fLe a 1 1
  { pauseRx := bit f 0, pauseTx := bit f 1, exempt := bit f 2, mmEnable := bit f 3, mmVerify := bit f 4, addFrag := fLe a 2 1
    verifyMs := fLe a 3 1, wdLimit := fLe a 4 2, wdHold := fLe a 6 2, xoffKiB := fLe a 8 4, xonKiB := fLe a 12 4 }

/-- They are within R224. -/
def MacCfg.ok (c : MacCfg) (p : Nat) : Bool :=
  decide (c.addFrag ≤ 3) && decide (1 ≤ c.verifyMs) && decide (c.verifyMs ≤ 128) && decide (1 ≤ c.wdLimit) && decide (c.wdLimit ≤ 1000)
    && decide (1 ≤ c.wdHold) && decide (c.wdHold ≤ 600) && decide (16 ≤ c.xonKiB) && decide (c.xoffKiB ≤ 4096) && decide (c.xonKiB < c.xoffKiB)
    && !(p = 14 && c.mmEnable)

/-- PORT_MAC_SET: a merge change, or any setting on a port whose verification has failed, restarts verification (R226, R277). -/
def execPortMacSet (c : Acs) (s : State) : Out :=
  .next (acsLen 0x0511 inLineStates 24 c (fun s =>
    let p := c.arg 0 1
    let n := macCfgOf c.args
    if 14 < p || 32 ≤ c.arg 1 1 || c.nonZero 16 8 || !n.ok p then done c 0x0511 stBadArg [] s
    else
      let o := s.macCfg p
      let again := n.mmEnable ≠ o.mmEnable || n.mmVerify ≠ o.mmVerify || n.addFrag ≠ o.addFrag || n.verifyMs ≠ o.verifyMs
        || (s.mac p).mm = .failed
      let s1 := setMac p (fun m => { m with cfg := some n }) s
      done c 0x0511 stOk [] (pauseCheck p (if again then startVerify p s1 else s1))) s)

/-- The pattern that 24 bytes spell (R237). -/
def wakeOf (b : List Byte) : WakePat :=
  { mask := BitVec.ofNat 128 (fLe b 0 16), check := BitVec.ofNat 16 (fLe b 16 2), minLen := fLe b 18 2, enable := bit (fLe b 20 1) 0 }

/-- The bytes of a pattern. -/
def WakePat.bytes (w : WakePat) : List Byte := le 16 w.mask.toNat ++ le 2 w.check.toNat ++ le 2 w.minLen ++ [byte (b01 w.enable), 0, 0, 0]

/-- A pattern's bytes are in range (R237, R239). -/
def wakeOk (b : List Byte) : Bool :=
  fLe b 20 1 < 2 && fLe b 21 3 = 0 && 64 ≤ fLe b 18 2 && fLe b 18 2 ≤ 9216 && !(bit (fLe b 20 1) 0 && fLe b 0 16 = 0)

/-- PORT_WAKE_SET: patterns take effect now, and the port's match counts start from 0 (R278). -/
def execPortWakeSet (c : Acs) (s : State) : Out :=
  .next (acs 0x0512 inLineStates c (fun s =>
    let p := c.arg 0 1
    let i := c.arg 1 1
    let n := c.arg 2 1
    let ws := (List.range n).map (fun k => slice c.args (4 + 24 * k) 24)
    if c.args.length < 4 || c.args.length ≠ 4 + 24 * n then done c 0x0512 stBadLength [] s
    else if 14 < p || n = 0 || 16 < i + n || c.nonZero 3 1 || !ws.all wakeOk then done c 0x0512 stBadArg [] s
    else done c 0x0512 stOk [] (setMac p (fun m => { m with
      wake := m.wake.take i ++ ws.map wakeOf ++ m.wake.drop (i + n), wakeHits := List.replicate 16 0 }) s)) s)

/-- PORT_WAKE_READ. -/
def execPortWakeRead (c : Acs) (s : State) : Out :=
  .next (acsLen 0x0513 inServing 4 c (badArgIf (decide (14 < c.arg 0 1) || c.nonZero 1 3) 0x0513 c (fun s =>
    let m := s.mac (c.arg 0 1)
    done c 0x0513 stOk ((m.wake.map WakePat.bytes).flatten ++ (m.wakeHits.map (le 4)).flatten) s)) s)

end Sys2Proof.Machine
end

