-- ==== Sys2Proof/Machine/Ring.lean ====
section
/-! DEFINITION. The host rings' events (R241 to R268). -/
namespace Sys2Proof.Machine

/-- RING_ENABLE: a RING_CTRL write with ENABLE 1. On a running ring it changes nothing; a stopped one takes its fields and runs (R245, R247). -/
def execRingEnable (tx : Bool) (ring : Nat) (value : Word) (s : State) : Out :=
  .next (if !s.alive || 8 ≤ ring then s else ringCtrl tx ring (2 ^ 31 + value.toNat % 2 ^ 31) s)

/-- RING_DISABLE: a RING_CTRL write with ENABLE 0 (R245). -/
def execRingDisable (tx : Bool) (ring : Nat) (s : State) : Out :=
  .next (if !s.alive || 8 ≤ ring || !(s.ring tx ring).enable then s else stopRing tx ring s)

/-- RING_TAIL_WRITE: descriptors pass to the chip; a value not below SIZE is reserved (R248, R249). -/
def execRingTailWrite (tx : Bool) (ring index : Nat) (s : State) : Out :=
  .next (if !s.alive || 8 ≤ ring then s else ringTail tx ring index s)

/-- The frames that a fence of a descriptor waits for: its ring's, or every ring's (R266). -/
def State.fenceSet (s : State) (n : Nat) (d : List Byte) : List Nat :=
  if bit (dCtrl d) 24 then s.tx.flatMap (fun r => r.pending) else if bit (dCtrl d) 25 then (s.txRing n).pending else []

/-- TX_FRAME_FETCHED: the frame whose descriptors stand at HEAD has been read: rejected, held by its fence, or carried out (R262 to R266). -/
def execTxFrameFetched (ring : Nat) (descs : List (List Byte)) (data : List Byte) (s : State) : Out :=
  .next (if !s.alive || !s.ringsRun || 8 ≤ ring then s else
    let r := s.txRing ring
    match frameDescs descs with
    | none => s
    | some ds =>
      if !r.enable || r.fenced.isSome || decide (64 ≤ r.launch.length) || decide (r.posted < ds.length) then s
      else if s.txBad ds data then
        txWriteBack ring 4 ds (txFail (ds.headD []) (ringError true ring 4
          (count (statPort 15 26) (setTx ring (fun r => { r with descErr := true }) s))))
      else
        let s0 := settleUids s
        let wait := s0.fenceSet ring (ds.headD [])
        if wait.isEmpty then txFinish ring ds data s0
        else setTx ring (fun r => { r with fenced := some { descs := ds, data := data, waitFor := wait } }) s0)

/-- TX_FENCE_RELEASE: the frames that the fence waits for have left or been dropped (R266). -/
def execTxFenceRelease (ring : Nat) (s : State) : Out :=
  .next (if !s.alive || !s.ringsRun || 8 ≤ ring then s else
    match (s.txRing ring).fenced with
    | none => s
    | some f =>
      if f.waitFor.any s.uidLive then s
      else txFinish ring f.descs f.data (setTx ring (fun r => { r with fenced := none }) s))

/-- RX_RING_DELIVER: the frame at the head of the ring's queue is written to the posted buffers (R255 to R259). Under RESERVE only whole; under STREAM as
far as the buffers reach, or as far as it was read (cutAt bytes) where it proved faulty. -/
def execRxRingDeliver (ring : Nat) (bufs : List Nat) (cutAt : Nat) (s : State) : Out :=
  .next (if !s.alive || !s.ringsRun || 8 ≤ ring then s else
    let r := s.rxRing ring
    match r.waiting with
    | [] => s
    | w :: rest =>
      let whole := r.frameBytes w
      let b := if w.bad = 0 then whole else whole.take (max 1 cutAt)
      let have_ := min r.posted bufs.length
      let room := have_ * r.bufSize
      if !r.enable || have_ = 0 || (!r.stream && decide (have_ < r.needs w)) then s
      else
        let short := decide (room < b.length)
        let err := if short then 4 else w.bad
        let s1 := setRx ring (fun r => { r with waiting := rest }) s
        let s2 := if short then
            logEvent 0x0526 sevInfo ([byte ring] ++ le 4 room ++ le 4 (whole.length - room))
              (count (statPort 15 25) (setRx ring (fun r => { r with nobuf := true }) s1))
          else if w.bad = 0 then count (statPort 15 ring) s1 else s1
        let s3 := ringDone false ring (rxWrite ring w (bufs.take have_) (b.take room) err s2)
        let s4 := settleUids (unread 15 w.frer s3)
        if w.port < 15 then pauseCheck w.port s4 else s4)

/-- RX_HOLD_EXPIRY: the frame at the head of the ring's queue has waited HOLD_US and is dropped whole (R255). -/
def execRxHoldExpiry (ring : Nat) (s : State) : Out :=
  .next (if !s.alive || 8 ≤ ring then s else
    match (s.rxRing ring).waiting with
    | [] => s
    | w :: rest =>
      let s1 := rxHoldDrop ring ((s.rxRing ring).frameBytes w).length (setRx ring (fun r => { r with waiting := rest }) s)
      let s2 := settleUids (unread 15 w.frer s1)
      if w.port < 15 then pauseCheck w.port s2 else s2)

/-- RING_IRQ_DELAY_EXPIRY: DELAY_US has passed since the first completion not yet reported (R250). -/
def execRingIrqDelayExpiry (tx : Bool) (ring : Nat) (s : State) : Out :=
  .next (if !s.alive || 8 ≤ ring || (s.ring tx ring).unsaid = 0 then s
    else sendVector ((if tx then 16 else 8) + ring) (setRing tx ring (fun r => { r with unsaid := 0 }) s))

/-- The endpoint logs an uncorrectable error (R591, R597, R598). -/
def pcieError (status : Word) (s : State) : State :=
  raise .sys 2 (logEvent 0x0106 sevError (wordBytes status) (count (statHost 8) s))

/-- PCIE_DMA_ERROR: an access of a ring failed (R268): kind 1 descriptor fetch, 2 write-back, 3 data. descs are the descriptors of a TX frame
whose data read failed and whose write-back succeeds. -/
def execPcieDmaError (tx : Bool) (ring kind : Nat) (status : Word) (descs : List (List Byte)) (s : State) : Out :=
  .next (if !s.alive || 8 ≤ ring || !(s.ring tx ring).enable || kind = 0 || 3 < kind then s else
    let s1 := pcieError status s
    let s2 := if tx && kind = 3 && !descs.isEmpty then txWriteBack ring 5 descs (txFail (descs.headD []) s1) else s1
    raise .port 3 (ringError tx ring kind (setRing tx ring (fun r => { r with fetchErr := true }) (stopRing tx ring s2))))

end Sys2Proof.Machine
end

