-- ==== Sys2Proof/Machine/Security.lean ====
section
/-! DEFINITION. The meanings of the SEC commands (15_boot_tack_protection.md R620 to R627). -/
namespace Sys2Proof.Machine

/-- The permission an authorised command needs (R622). -/
def permOf (op : Nat) : Option Nat :=
  match op with
  | 0x0E03 => some permMaint | 0x0F05 => some permMaint | 0x0F09 => some permMaint
  | 0x0F03 => some permKeys | 0x0F04 => some permKeys | 0x0F06 => some permKeys
  | 0x0F07 => some permDebug
  | _ => none

/-- Write an owner key slot. -/
def Sec.setKey (s : Sec) (i : Nat) (k : Option OwnerKey) : Sec :=
  match i with
  | 0 => { s with key0 := k } | 1 => { s with key1 := k } | 2 => { s with key2 := k } | 3 => { s with key3 := k } | _ => s

/-- An authorised command: DENIED without its authorisation, which it uses (R622). -/
def authorised (op : Nat) (c : Acs) (f : State → State) (s : State) : State :=
  if s.authOk c.mbx op then f (useAuth c.mbx op s) else done c op stDenied [] s

/-- SEC_STATUS. -/
def execSecStatus (c : Acs) (s : State) : Out :=
  .next (acsLen 0x0F00 inServing 0 c (fun s =>
    let x := s.sec
    let svn := match s.tack.newer with | some r => imgSvn (s.bankBytes r.bank) | none => 0
    done c 0x0F00 stOk ([byte (b01 x.secured), byte (b01 x.jtagOpen), byte s.boot.runSlot, byte (b01 s.boot.preferB)] ++ le 2 x.fwFloor
      ++ le 2 x.tackFloor ++ le 2 s.boot.fwSvn ++ le 2 svn ++ ([0, 1, 2, 3] : List Nat).map (fun i => byte (((x.key i).map OwnerKey.perm).getD 0))
      ++ [byte x.revoked.toNat, byte s.boot.tryA, byte s.boot.tryB] ++ zeros 13) s) s)

/-- After 8 failures within 60 s no challenge is given for 60 s (R622). -/
def State.challengeBusy (s : State) : Bool :=
  match s.sec.lockFrom with | some t => decide (s.now < t + 60 * ticksPerSec) | none => false

/-- SEC_CHALLENGE: a fresh nonce, a value the spec leaves open (log entry 1). -/
def execSecChallenge (c : Acs) (s : State) : Out :=
  .next (acsLen 0x0F01 inServing 4 c (badArgIf (c.nonZero 2 2) 0x0F01 c (fun s =>
    if s.challengeBusy then done c 0x0F01 stBusy [] s
    else
      let n := BitVec.ofNat 256 s.freeNat
      done c 0x0F01 stOk (fpBytes n) (useFree { s with sec := { s.sec with nonce := some n, nonceTick := s.now } }))) s)

/-- What a SEC_AUTHORISE signature covers: nonce, NID, opcode (R622). -/
def authText (nonce : BitVec 256) (nid : Nid) (op : Nat) : List Byte := fpBytes nonce ++ be 8 nid.toNat ++ be 2 op

/-- A signature for an opcode by a key slot is good (R621, R622). -/
def State.authSigned (s : State) (op slot : Nat) (sig : List Byte) : Bool :=
  match s.sec.key slot, s.sec.nonce with
  | some k, some n =>
    (permOf op).any (fun p => k.has p) && decide (s.now ≤ s.sec.nonceTick + 60 * ticksPerSec)
      && Config.ecdsaOk k.key sig (Config.sha384 (authText n s.node.nid op))
  | _, _ => false

/-- A signature failed: logged, and counted towards the lock (R622). -/
def authFailed (op slot : Nat) (s : State) : State :=
  let fs := s.sec.fails.filter (fun t => decide (s.now < t + 60 * ticksPerSec)) ++ [s.now]
  logEvent 0x0F06 sevWarning (le 2 op ++ [byte slot])
    { s with sec := { s.sec with fails := if 8 ≤ fs.length then [] else fs, lockFrom := if 8 ≤ fs.length then some s.now else s.sec.lockFrom } }

/-- SEC_AUTHORISE: in OPEN no signature is needed (R621). -/
def execSecAuthorise (c : Acs) (s : State) : Out :=
  .next (acsLen 0x0F02 inServing 100 c (badArgIf ((permOf (c.arg 0 2)).isNone || c.nonZero 3 1) 0x0F02 c (fun s =>
    if !s.sec.secured || s.authSigned (c.arg 0 2) (c.arg 2 1) (slice c.args 4 96) then
      done c 0x0F02 stOk [] { s with sec := { s.sec with auths := s.sec.auths ++
        [{ mbx := c.mbx, opcode := c.arg 0 2, tick := s.now, key := c.arg 2 1 }] } }
    else done c 0x0F02 stDenied [] (authFailed (c.arg 0 2) (c.arg 2 1) s))) s)

/-- KEY_CHANGE: 1 installed, 2 revoked (R627). -/
def keyChange (slot what perm : Nat) (s : State) : State := logEvent 0x0F03 sevSealed [byte slot, byte what, byte perm] s

/-- SEC_KEY_INSTALL. -/
def execSecKeyInstall (c : Acs) (s : State) : Out :=
  .next (acsLen 0x0F03 inServing 104 c
    (badArgIf (decide (3 < c.arg 0 1) || decide (15 < c.arg 1 1) || c.nonZero 2 2 || c.nonZero 101 3) 0x0F03 c
    (authorised 0x0F03 c (fun s =>
      done c 0x0F03 stOk [] (keyChange (c.arg 0 1) 1 (c.arg 1 1)
        { s with sec := s.sec.setKey (c.arg 0 1) (some { key := slice c.args 4 97, perm := c.arg 1 1 }) })))) s)

/-- Revoking an owner slot would leave no key with KEYS in SECURED (R624). -/
def Sec.lastKeys (s : Sec) (i : Nat) : Bool := s.secured && !(s.setKey i none).anyKey permKeys

/-- Revoking a firmware key is denied: it runs, or it is the last (R624). -/
def State.fwKeyNeeded (s : State) (k : Nat) : Bool :=
  s.boot.fwKey = k || ([0, 1, 2, 3] : List Nat).all (fun j => j = k || s.sec.revoked.getLsbD j)

/-- SEC_KEY_REVOKE: an owner slot, or a firmware key's fuse. -/
def execSecKeyRevoke (c : Acs) (s : State) : Out :=
  .next (acsLen 0x0F04 inServing 4 c (badArgIf (!(decide (c.arg 0 1 ≤ 3) || inRange 16 19 (c.arg 0 1)) || c.nonZero 1 3) 0x0F04 c
    (authorised 0x0F04 c (fun s =>
      let i := c.arg 0 1
      if i ≤ 3 then
        if s.sec.lastKeys i then done c 0x0F04 stDenied [] s
        else done c 0x0F04 stOk [] (keyChange i 2 (((s.sec.key i).map OwnerKey.perm).getD 0) { s with sec := s.sec.setKey i none })
      else if s.fwKeyNeeded (i - 16) then done c 0x0F04 stDenied [] s
      else done c 0x0F04 stOk [] (keyChange i 2 0 { s with sec := { s.sec with revoked := s.sec.revoked ||| (1#4 <<< (i - 16)) } })))) s)

/-- SEC_ADVANCE: floors rise to the running firmware's and the committed image's SVN, and never fall (R624). -/
def execSecAdvance (c : Acs) (s : State) : Out :=
  .next (acsLen 0x0F05 inServing 4 c (badArgIf (decide (3 < c.arg 0 4)) 0x0F05 c (authorised 0x0F05 c (fun s =>
    let x := s.sec
    let svn := match s.tack.newer with | some r => imgSvn (s.bankBytes r.bank) | none => 0
    let fw := if bit (c.arg 0 4) 0 then max x.fwFloor s.boot.fwSvn else x.fwFloor
    let tk := if bit (c.arg 0 4) 1 then max x.tackFloor svn else x.tackFloor
    done c 0x0F05 stOk (le 2 fw ++ le 2 tk) (logEvent 0x0F07 sevSealed (le 2 x.fwFloor ++ le 2 x.tackFloor ++ le 2 fw ++ le 2 tk)
      { s with sec := { x with fwFloor := fw, tackFloor := tk } })))) s)

/-- SEC_LOCK: OPEN becomes SECURED once a key holds both TACK and KEYS; no command returns (R621). -/
def execSecLock (c : Acs) (s : State) : Out :=
  .next (acsLen 0x0F06 [.held, .ready] 0 c (fun s =>
    if s.sec.secured then done c 0x0F06 stWrongState [] s
    else authorised 0x0F06 c (fun s =>
      if !([0, 1, 2, 3] : List Nat).any (fun i => (s.sec.key i).any (fun k => k.has permTack && k.has permKeys)) then done c 0x0F06 stDenied [] s
      else done c 0x0F06 stOk [] (logEvent 0x0F04 sevSealed [1] { s with sec := { s.sec with secured := true } })) s) s)

/-- SEC_DEBUG_UNLOCK: JTAG opens until the next BOOT (R623). -/
def execSecDebugUnlock (c : Acs) (s : State) : Out :=
  .next (acsLen 0x0F07 [.held] 0 c (fun s =>
    let key := ((s.sec.auths.find? (fun a => a.mbx = c.mbx && a.opcode = 0x0F07)).map Auth.key).getD 255
    authorised 0x0F07 c (fun s =>
      done c 0x0F07 stOk [] (logEvent 0x0F05 sevSealed [byte key] { s with sec := { s.sec with jtagOpen := true } })) s) s)

/-- A chunk written into a flash slot; at offset 0 the slot is erased first (R626). -/
def writeSlot (k off : Nat) (chunk : List Byte) (b : Boot) : Boot :=
  let old := if off = 0 then [] else (b.slot k).bytes
  let i : FwImage := { bytes := old.take off ++ List.replicate (off - old.length) 0xFF#8 ++ chunk ++ old.drop (off + chunk.length) }
  if k = 0 then { b with slotA := i } else { b with slotB := i }

/-- SEC_FW_WRITE: the slot that is not running. -/
def execSecFwWrite (c : Acs) (s : State) : Out :=
  .next (acs 0x0F08 inServing c (fun s =>
    let n := c.args.length - 16
    let k := c.arg 0 1
    let off := c.arg 4 4
    let total := c.arg 8 4
    if c.args.length < 17 || 4080 < c.args.length then done c 0x0F08 stBadLength [] s
    else if 1 < k || c.nonZero 1 3 || c.nonZero 12 4 || 16777216 < total || total < off + n then done c 0x0F08 stBadArg [] s
    else if s.boot.runSlot = k then done c 0x0F08 stDenied [] s
    else
      let w := if off = 0 then n else s.boot.fwWritten + n
      let b := writeSlot k off (c.args.drop 16) s.boot
      done c 0x0F08 stOk (le 4 w) { s with boot := { b with fwWritten := w, fwTotal := total, fwSlot := k } }) s)

/-- SEC_FW_SELECT: the preferred slot from the next BOOT on. -/
def execSecFwSelect (c : Acs) (s : State) : Out :=
  .next (acsLen 0x0F09 inServing 4 c (badArgIf (decide (1 < c.arg 0 1) || c.nonZero 1 3) 0x0F09 c (authorised 0x0F09 c (fun s =>
    if ((s.boot.slot (c.arg 0 1)).refusal s.sec true).isSome then done c 0x0F09 stDenied [] s
    else done c 0x0F09 stOk [] { s with boot := { s.boot with preferB := decide (c.arg 0 1 = 1) } }))) s)

end Sys2Proof.Machine
end

