-- ==== Sys2Proof/Machine/Window.lean ====
section
/-! DEFINITION. Accesses to the register windows by a PCIe host and by a QSPI host (R559, R560, R567). -/
namespace Sys2Proof.Machine

/-- REGISTER_WRITE: an aligned write by the PCIe host at an offset of Window C. Offsets from 0x0200_0000 stand for Window X, from 0x0300_0000 for the
download capability. -/
def execRegisterWrite (off : Nat) (value : Word) (s : State) : Out :=
  .next (if !s.alive then s
    else if off % 4 ≠ 0 then s
    else if off < 0x10000 then writeC 1 off value.toNat s
    else if 0x2000000 ≤ off ∧ off < 0x2000200 then writeX (off - 0x2000000) value.toNat s
    else if 0x3000000 ≤ off ∧ off < 0x3000020 then writeDl (off - 0x3000000) value.toNat s
    else s)

/-- QSPI_WRITE (R560). -/
def execQspiWrite (addr : Nat) (data : List Byte) (s : State) : Out :=
  .next (if !s.alive then s else qspiWrite addr data s)

/-- QSPI_WRITE_QUAD (R560). -/
def execQspiWriteQuad (addr : Nat) (data : List Byte) (s : State) : Out :=
  .next (if !s.alive then s else qspiWrite addr data s)

/-- QSPI_READ (R560). -/
def execQspiRead (addr words : Nat) (cut : Bool) (s : State) : Out :=
  .next (if !s.alive then s else qspiRead addr words cut s)

/-- QSPI_READ_QUAD (R560). -/
def execQspiReadQuad (addr words : Nat) (cut : Bool) (s : State) : Out :=
  .next (if !s.alive then s else qspiRead addr words cut s)

/-- QSPI_STATUS (R560): READY, IRQ and ERR, which it clears. -/
def execQspiStatus (s : State) : Out :=
  .next (if !s.alive then s else
    emit (.qspi [byte (b01 (s.acsVersion ≠ 0) + flag (s.irqSummary ≠ 0) 1 + flag s.host.qspiErr 2)])
      { s with host := { s.host with qspiSeen := true, qspiErr := false } })

/-- STAT_COUNTER_READ (R271): at an offset of Window C that holds a counter. -/
def execStatCounterRead (off : Nat) (s : State) : Out :=
  .next (if !s.alive || off % 4 ≠ 0 || off < 0x4000 || !isCounter ((off - 0x4000) / 4) then s
    else readOut off (statRead ((off - 0x4000) / 4) s))

/-- SAT_MAP_READ (R271): at an offset of Window C that holds a saturation map. -/
def execSatMapRead (off : Nat) (s : State) : Out :=
  .next (if !s.alive || off % 4 ≠ 0 || off < 0x4000 || !isSat ((off - 0x4000) / 4) then s
    else readOut off (statRead ((off - 0x4000) / 4) s))

/-- SNAP_FC_LO_READ (R149). -/
def execSnapFcLoRead (s : State) : Out :=
  .next (if !s.alive then s else readOut 0x2000 (snapRead s))

/-- PPSIN_STAT_READ (R149, R152). -/
def execPpsinStatRead (s : State) : Out :=
  .next (if !s.alive then s else readOut 0x2040 (ppsinRead s))

/-- TXTS_POP (R154). -/
def execTxtsPop (s : State) : Out :=
  .next (if !s.alive then s else readOut 0x2084 (txtsPop s))

end Sys2Proof.Machine
end

