-- ==== Sys2Proof/Machine/Dispatch.lean ====
section
/-! DEFINITION. One arm per command: each calls its meaning. -/
namespace Sys2Proof.Machine

def exec (i : Instr) (s : State) : Host.Outcome State Fault Refusal :=
  match i with
  | .vbakApplied => Sys2Proof.Machine.execVbakApplied s
  | .vbakLost => Sys2Proof.Machine.execVbakLost s
  | .resetRelease mode => Sys2Proof.Machine.execResetRelease mode s
  | .pgoodFall => Sys2Proof.Machine.execPgoodFall s
  | .resetNLow => Sys2Proof.Machine.execResetNLow s
  | .railMonitorTrip => Sys2Proof.Machine.execRailMonitorTrip s
  | .rootPllUnlock => Sys2Proof.Machine.execRootPllUnlock s
  | .groomLockstepMismatch => Sys2Proof.Machine.execGroomLockstepMismatch s
  | .groomParityError => Sys2Proof.Machine.execGroomParityError s
  | .groomWatchdogExpiry => Sys2Proof.Machine.execGroomWatchdogExpiry s
  | .thermalThreshold sensor temp => Sys2Proof.Machine.execThermalThreshold sensor temp s
  | .thermalRecovery => Sys2Proof.Machine.execThermalRecovery s
  | .firmwareLoadDone => Sys2Proof.Machine.execFirmwareLoadDone s
  | .dlLoad image dmaOk => Sys2Proof.Machine.execDlLoad image dmaOk s
  | .recoveryScan durationMs => Sys2Proof.Machine.execRecoveryScan durationMs s
  | .wholeRegionScanDone durationMs => Sys2Proof.Machine.execWholeRegionScanDone durationMs s
  | .tackSelect ms => Sys2Proof.Machine.execTackSelect ms s
  | .heldFlashPoll image => Sys2Proof.Machine.execHeldFlashPoll image s
  | .tackStage c => Sys2Proof.Machine.execTackStage c s
  | .tackValidate c => Sys2Proof.Machine.execTackValidate c s
  | .tackCommit c => Sys2Proof.Machine.execTackCommit c s
  | .tackCommitActivate verified => Sys2Proof.Machine.execTackCommitActivate verified s
  | .tackRead c => Sys2Proof.Machine.execTackRead c s
  | .tackStatus c => Sys2Proof.Machine.execTackStatus c s
  | .secStatus c => Sys2Proof.Machine.execSecStatus c s
  | .secChallenge c => Sys2Proof.Machine.execSecChallenge c s
  | .secAuthorise c => Sys2Proof.Machine.execSecAuthorise c s
  | .secKeyInstall c => Sys2Proof.Machine.execSecKeyInstall c s
  | .secKeyRevoke c => Sys2Proof.Machine.execSecKeyRevoke c s
  | .secAdvance c => Sys2Proof.Machine.execSecAdvance c s
  | .secLock c => Sys2Proof.Machine.execSecLock c s
  | .secDebugUnlock c => Sys2Proof.Machine.execSecDebugUnlock c s
  | .secFwWrite c => Sys2Proof.Machine.execSecFwWrite c s
  | .secFwSelect c => Sys2Proof.Machine.execSecFwSelect c s
  | .stableIdleExpiry => Sys2Proof.Machine.execStableIdleExpiry s
  | .stabledEntryDone => Sys2Proof.Machine.execStabledEntryDone s
  | .wakeInEdge => Sys2Proof.Machine.execWakeInEdge s
  | .wakeAlarmExpiry => Sys2Proof.Machine.execWakeAlarmExpiry s
  | .wakeOutPulseEnd => Sys2Proof.Machine.execWakeOutPulseEnd s
  | .bypassAnnounceExpiry => Sys2Proof.Machine.execBypassAnnounceExpiry s
  | .bypassSettleExpiry => Sys2Proof.Machine.execBypassSettleExpiry s
  | .batchSubmit m count seq => Sys2Proof.Machine.execBatchSubmit m count seq s
  | .batchAbort m => Sys2Proof.Machine.execBatchAbort m s
  | .batchComplete m => Sys2Proof.Machine.execBatchComplete m s
  | .mbxRequestWrite m off data => Sys2Proof.Machine.execMbxRequestWrite m off data s
  | .causeClear off value => Sys2Proof.Machine.execCauseClear off value s
  | .msixVectorUnmask v => Sys2Proof.Machine.execMsixVectorUnmask v s
  | .registerWrite off value => Sys2Proof.Machine.execRegisterWrite off value s
  | .unsupportedAccess => Sys2Proof.Machine.execUnsupportedAccess s
  | .hostWatchWrite value => Sys2Proof.Machine.execHostWatchWrite value s
  | .hostWatchExpiry => Sys2Proof.Machine.execHostWatchExpiry s
  | .pcieReset kind => Sys2Proof.Machine.execPcieReset kind s
  | .pcieLinkUp speed width => Sys2Proof.Machine.execPcieLinkUp speed width s
  | .pcieDmaError tx ring kind status descs => Sys2Proof.Machine.execPcieDmaError tx ring kind status descs s
  | .qspiWrite addr data => Sys2Proof.Machine.execQspiWrite addr data s
  | .qspiWriteQuad addr data => Sys2Proof.Machine.execQspiWriteQuad addr data s
  | .qspiRead addr words cut => Sys2Proof.Machine.execQspiRead addr words cut s
  | .qspiReadQuad addr words cut => Sys2Proof.Machine.execQspiReadQuad addr words cut s
  | .qspiStatus => Sys2Proof.Machine.execQspiStatus s
  | .statCounterRead off => Sys2Proof.Machine.execStatCounterRead off s
  | .satMapRead off => Sys2Proof.Machine.execSatMapRead off s
  | .snapFcLoRead => Sys2Proof.Machine.execSnapFcLoRead s
  | .ppsinStatRead => Sys2Proof.Machine.execPpsinStatRead s
  | .txtsPop => Sys2Proof.Machine.execTxtsPop s
  | .sysIdentify c => Sys2Proof.Machine.execSysIdentify c s
  | .sysState c => Sys2Proof.Machine.execSysState c s
  | .sysFence c => Sys2Proof.Machine.execSysFence c s
  | .sysRestart c => Sys2Proof.Machine.execSysRestart c s
  | .sysStable c => Sys2Proof.Machine.execSysStable c s
  | .ringEnable tx ring value => Sys2Proof.Machine.execRingEnable tx ring value s
  | .ringDisable tx ring => Sys2Proof.Machine.execRingDisable tx ring s
  | .ringTailWrite tx ring index => Sys2Proof.Machine.execRingTailWrite tx ring index s
  | .txFrameFetched ring descs data => Sys2Proof.Machine.execTxFrameFetched ring descs data s
  | .txFenceRelease ring => Sys2Proof.Machine.execTxFenceRelease ring s
  | .rxRingDeliver ring bufs cutAt => Sys2Proof.Machine.execRxRingDeliver ring bufs cutAt s
  | .rxHoldExpiry ring => Sys2Proof.Machine.execRxHoldExpiry ring s
  | .ringIrqDelayExpiry tx ring => Sys2Proof.Machine.execRingIrqDelayExpiry tx ring s
  | .linkUp port rate => Sys2Proof.Machine.execLinkUp port rate s
  | .linkDown port cutOff => Sys2Proof.Machine.execLinkDown port cutOff s
  | .linkDebounceExpiry port => Sys2Proof.Machine.execLinkDebounceExpiry port s
  | .frameReceive port rx => Sys2Proof.Machine.execFrameReceive port rx s
  | .frameTransmitDone port cls stamp frags => Sys2Proof.Machine.execFrameTransmitDone port cls stamp frags s
  | .cellParityError port cls cell later => Sys2Proof.Machine.execCellParityError port cls cell later s
  | .frerHoldExpiry ctx seq => Sys2Proof.Machine.execFrerHoldExpiry ctx seq s
  | .frerResetTimerExpiry ctx => Sys2Proof.Machine.execFrerResetTimerExpiry ctx s
  | .frerLatentPeriodEnd ctx => Sys2Proof.Machine.execFrerLatentPeriodEnd ctx s
  | .addressAgeOut mac vid => Sys2Proof.Machine.execAddressAgeOut mac vid s
  | .gateEvent port err => Sys2Proof.Machine.execGateEvent port err s
  | .gateConfigChange port => Sys2Proof.Machine.execGateConfigChange port s
  | .launchTimeReached ctx source lateNs => Sys2Proof.Machine.execLaunchTimeReached ctx source lateNs s
  | .pauseFrameReceive port quanta sa => Sys2Proof.Machine.execPauseFrameReceive port quanta sa s
  | .pauseExpiry port => Sys2Proof.Machine.execPauseExpiry port s
  | .pauseWatchdog port => Sys2Proof.Machine.execPauseWatchdog port s
  | .pauseHoldoffExpiry port => Sys2Proof.Machine.execPauseHoldoffExpiry port s
  | .pauseRefresh port => Sys2Proof.Machine.execPauseRefresh port s
  | .verifyFrameReceive port => Sys2Proof.Machine.execVerifyFrameReceive port s
  | .respondFrameReceive port => Sys2Proof.Machine.execRespondFrameReceive port s
  | .verifyTimeExpiry port => Sys2Proof.Machine.execVerifyTimeExpiry port s
  | .mkaFrameReceive port ev => Sys2Proof.Machine.execMkaFrameReceive port ev s
  | .mkaHelloTimer port => Sys2Proof.Machine.execMkaHelloTimer port s
  | .mkaLifetimeExpiry port => Sys2Proof.Machine.execMkaLifetimeExpiry port s
  | .sakRekeyTimer port => Sys2Proof.Machine.execSakRekeyTimer port s
  | .tableReloadDone table port index => Sys2Proof.Machine.execTableReloadDone table port index s
  | .portFdbRead c => Sys2Proof.Machine.execPortFdbRead c s
  | .portFdbWrite c => Sys2Proof.Machine.execPortFdbWrite c s
  | .portFdbFlush c => Sys2Proof.Machine.execPortFdbFlush c s
  | .portVlanSet c => Sys2Proof.Machine.execPortVlanSet c s
  | .portGateSet c => Sys2Proof.Machine.execPortGateSet c s
  | .portGateStatus c => Sys2Proof.Machine.execPortGateStatus c s
  | .portQuotaSet c => Sys2Proof.Machine.execPortQuotaSet c s
  | .portPsfpSet c => Sys2Proof.Machine.execPortPsfpSet c s
  | .portFrerStatus c => Sys2Proof.Machine.execPortFrerStatus c s
  | .portMacsecStatus c => Sys2Proof.Machine.execPortMacsecStatus c s
  | .portForward c => Sys2Proof.Machine.execPortForward c s
  | .portMacStatus c => Sys2Proof.Machine.execPortMacStatus c s
  | .portMacSet c => Sys2Proof.Machine.execPortMacSet c s
  | .portWakeSet c => Sys2Proof.Machine.execPortWakeSet c s
  | .portWakeRead c => Sys2Proof.Machine.execPortWakeRead c s
  | .syncReceive dom line offset => Sys2Proof.Machine.execSyncReceive dom line offset s
  | .syncTimeout dom => Sys2Proof.Machine.execSyncTimeout dom s
  | .announceReceive dom gm own => Sys2Proof.Machine.execAnnounceReceive dom gm own s
  | .announceTimeout dom port gm own => Sys2Proof.Machine.execAnnounceTimeout dom port gm own s
  | .pdelayMessageReceive port typ delay => Sys2Proof.Machine.execPdelayMessageReceive port typ delay s
  | .syncIntervalTick dom ports => Sys2Proof.Machine.execSyncIntervalTick dom ports s
  | .backupCounterWrite => Sys2Proof.Machine.execBackupCounterWrite s
  | .ppsOutPulse => Sys2Proof.Machine.execPpsOutPulse s
  | .ppsInEdge stamp highNs => Sys2Proof.Machine.execPpsInEdge stamp highNs s
  | .syncOutPulse => Sys2Proof.Machine.execSyncOutPulse s
  | .syncInEdge stamp leader => Sys2Proof.Machine.execSyncInEdge stamp leader s
  | .syncPulseTimeout => Sys2Proof.Machine.execSyncPulseTimeout s
  | .timeChangeEffective => Sys2Proof.Machine.execTimeChangeEffective s
  | .timeStatus c => Sys2Proof.Machine.execTimeStatus c s
  | .timeSelect c => Sys2Proof.Machine.execTimeSelect c s
  | .timeSet c => Sys2Proof.Machine.execTimeSet c s
  | .timeSetTimeout => Sys2Proof.Machine.execTimeSetTimeout s
  | .timeConvert c => Sys2Proof.Machine.execTimeConvert c s
  | .timeLinks c => Sys2Proof.Machine.execTimeLinks c s
  | .timePps c => Sys2Proof.Machine.execTimePps c s
  | .hitchBeat => Sys2Proof.Machine.execHitchBeat s
  | .hitchFrameReceive port frame stamp => Sys2Proof.Machine.execHitchFrameReceive port frame stamp s
  | .hitchPropose => Sys2Proof.Machine.execHitchPropose s
  | .hitchSwitch => Sys2Proof.Machine.execHitchSwitch s
  | .neighbourLossTimeout port => Sys2Proof.Machine.execNeighbourLossTimeout port s
  | .lineSettleExpiry dir => Sys2Proof.Machine.execLineSettleExpiry dir s
  | .hitchPendingExpiry => Sys2Proof.Machine.execHitchPendingExpiry s
  | .bypassWindowExpiry => Sys2Proof.Machine.execBypassWindowExpiry s
  | .ttdpHelloReceive port => Sys2Proof.Machine.execTtdpHelloReceive port s
  | .ttdpHelloTimeout port => Sys2Proof.Machine.execTtdpHelloTimeout port s
  | .ttdpHelloSend => Sys2Proof.Machine.execTtdpHelloSend s
  | .inhibitInputChange gpio level => Sys2Proof.Machine.execInhibitInputChange gpio level s
  | .hitchStatus c => Sys2Proof.Machine.execHitchStatus c s
  | .hitchTopology c => Sys2Proof.Machine.execHitchTopology c s
  | .hitchLinks c => Sys2Proof.Machine.execHitchLinks c s
  | .hitchInhibit c => Sys2Proof.Machine.execHitchInhibit c s
  | .hitchRequest c => Sys2Proof.Machine.execHitchRequest c s
  | .hitchRequestTimeout mbx idx => Sys2Proof.Machine.execHitchRequestTimeout mbx idx s
  | .hitchWait c => Sys2Proof.Machine.execHitchWait c s
  | .hitchWaitTimeout mbx idx => Sys2Proof.Machine.execHitchWaitTimeout mbx idx s
  | .streamSnapshot ctx err => Sys2Proof.Machine.execStreamSnapshot ctx err s
  | .streamFrameReceive ctx port frame stamp err => Sys2Proof.Machine.execStreamFrameReceive ctx port frame stamp err s
  | .freshTimeoutExpiry ctx => Sys2Proof.Machine.execFreshTimeoutExpiry ctx s
  | .holdPeriodsExpiry ctx => Sys2Proof.Machine.execHoldPeriodsExpiry ctx s
  | .switchGraceExpiry => Sys2Proof.Machine.execSwitchGraceExpiry s
  | .ctxReload ctx => Sys2Proof.Machine.execCtxReload ctx s
  | .streamStatus c => Sys2Proof.Machine.execStreamStatus c s
  | .streamRead c => Sys2Proof.Machine.execStreamRead c s
  | .streamPut c => Sys2Proof.Machine.execStreamPut c s
  | .streamGet c => Sys2Proof.Machine.execStreamGet c s
  | .streamLine c => Sys2Proof.Machine.execStreamLine c s
  | .streamEnable c => Sys2Proof.Machine.execStreamEnable c s
  | .latch task err ctxErr => Sys2Proof.Machine.execLatch task err ctxErr s
  | .taskExecutionEnd task working outImage ns => Sys2Proof.Machine.execTaskExecutionEnd task working outImage ns s
  | .commit task err canBad => Sys2Proof.Machine.execCommit task err canBad s
  | .controlLockstepMismatch pair => Sys2Proof.Machine.execControlLockstepMismatch pair s
  | .pairResyncDone pair => Sys2Proof.Machine.execPairResyncDone pair s
  | .memoryParityError kind task addr => Sys2Proof.Machine.execMemoryParityError kind task addr s
  | .pageReloadDone task ok => Sys2Proof.Machine.execPageReloadDone task ok s
  | .fwPage kind addr source => Sys2Proof.Machine.execFwPage kind addr source s
  | .retainWriteDone task ok0 ok1 => Sys2Proof.Machine.execRetainWriteDone task ok0 ok1 s
  | .startWaitExpiry => Sys2Proof.Machine.execStartWaitExpiry s
  | .controlStart => Sys2Proof.Machine.execControlStart s
  | .taskList c => Sys2Proof.Machine.execTaskList c s
  | .taskStart c => Sys2Proof.Machine.execTaskStart c s
  | .taskStop c => Sys2Proof.Machine.execTaskStop c s
  | .taskResume c => Sys2Proof.Machine.execTaskResume c s
  | .taskSwap c => Sys2Proof.Machine.execTaskSwap c s
  | .taskStage c => Sys2Proof.Machine.execTaskStage c s
  | .forceSet c => Sys2Proof.Machine.execForceSet c s
  | .forceRelease c => Sys2Proof.Machine.execForceRelease c s
  | .forceList c => Sys2Proof.Machine.execForceList c s
  | .forceReleaseAll c => Sys2Proof.Machine.execForceReleaseAll c s
  | .scheduledRound resA resB => Sys2Proof.Machine.execScheduledRound resA resB s
  | .reportReceive f => Sys2Proof.Machine.execReportReceive f s
  | .verdictReceive f => Sys2Proof.Machine.execVerdictReceive f s
  | .wranglerFreeze => Sys2Proof.Machine.execWranglerFreeze s
  | .placementComputed => Sys2Proof.Machine.execPlacementComputed s
  | .placementApply => Sys2Proof.Machine.execPlacementApply s
  | .roundDisagreeCheck => Sys2Proof.Machine.execRoundDisagreeCheck s
  | .dwellExpiry placeId => Sys2Proof.Machine.execDwellExpiry placeId s
  | .stateReceive f => Sys2Proof.Machine.execStateReceive f s
  | .ackReceive f => Sys2Proof.Machine.execAckReceive f s
  | .releaseReceive f => Sys2Proof.Machine.execReleaseReceive f s
  | .takenReceive f => Sys2Proof.Machine.execTakenReceive f s
  | .abortReceive f => Sys2Proof.Machine.execAbortReceive f s
  | .migrateAbort task => Sys2Proof.Machine.execMigrateAbort task s
  | .wranglerStatus c => Sys2Proof.Machine.execWranglerStatus c s
  | .wranglerPlacement c => Sys2Proof.Machine.execWranglerPlacement c s
  | .wranglerHold c => Sys2Proof.Machine.execWranglerHold c s
  | .tugHelloReceive link data => Sys2Proof.Machine.execTugHelloReceive link data s
  | .tugHelloSend => Sys2Proof.Machine.execTugHelloSend s
  | .heartbeatSend => Sys2Proof.Machine.execHeartbeatSend s
  | .heartbeatReceive link data => Sys2Proof.Machine.execHeartbeatReceive link data s
  | .tugLinkDown link lockLost => Sys2Proof.Machine.execTugLinkDown link lockLost s
  | .tug1Handback => Sys2Proof.Machine.execTug1Handback s
  | .timingReceive link stamp data => Sys2Proof.Machine.execTimingReceive link stamp data s
  | .nakReceive link data => Sys2Proof.Machine.execNakReceive link data s
  | .tugReplayTimeout link => Sys2Proof.Machine.execTugReplayTimeout link s
  | .tugFrameError link crc => Sys2Proof.Machine.execTugFrameError link crc s
  | .tugSyncMessage m => Sys2Proof.Machine.execTugSyncMessage m s
  | .safeNodeEvent m => Sys2Proof.Machine.execSafeNodeEvent m s
  | .statePartReceive m => Sys2Proof.Machine.execStatePartReceive m s
  | .stateEndReceive m => Sys2Proof.Machine.execStateEndReceive m s
  | .agreeInputReceive m => Sys2Proof.Machine.execAgreeInputReceive m s
  | .agreeTimeout task => Sys2Proof.Machine.execAgreeTimeout task s
  | .agreeOutputReceive m => Sys2Proof.Machine.execAgreeOutputReceive m s
  | .voteTimeout task => Sys2Proof.Machine.execVoteTimeout task s
  | .frameSegmentReceive m => Sys2Proof.Machine.execFrameSegmentReceive m s
  | .mgmtCommandReceive m => Sys2Proof.Machine.execMgmtCommandReceive m s
  | .mgmtResponseReceive m => Sys2Proof.Machine.execMgmtResponseReceive m s
  | .nodeWideApply => Sys2Proof.Machine.execNodeWideApply s
  | .nodeWideTimeout => Sys2Proof.Machine.execNodeWideTimeout s
  | .peerClaimChange pin level => Sys2Proof.Machine.execPeerClaimChange pin level s
  | .claimWaitExpiry => Sys2Proof.Machine.execClaimWaitExpiry s
  | .claimWireTimeout => Sys2Proof.Machine.execClaimWireTimeout s
  | .rejoinMembership => Sys2Proof.Machine.execRejoinMembership s
  | .redundStatus c => Sys2Proof.Machine.execRedundStatus c s
  | .redundTug c => Sys2Proof.Machine.execRedundTug c s
  | .redundSwitch c => Sys2Proof.Machine.execRedundSwitch c s
  | .redundSwitchInstant => Sys2Proof.Machine.execRedundSwitchInstant s
  | .redundExclude c => Sys2Proof.Machine.execRedundExclude c s
  | .redundRejoin c => Sys2Proof.Machine.execRedundRejoin c s
  | .canFrameReceive ch f sof bad => Sys2Proof.Machine.execCanFrameReceive ch f sof bad s
  | .canTxSuccess ch => Sys2Proof.Machine.execCanTxSuccess ch s
  | .canArbitrationLost ch => Sys2Proof.Machine.execCanArbitrationLost ch s
  | .canErrorDetected ch tx kind inData exempt extra tdc => Sys2Proof.Machine.execCanErrorDetected ch tx kind inData exempt extra tdc s
  | .busOffRecovered ch => Sys2Proof.Machine.execBusOffRecovered ch s
  | .canIntegrationDone ch => Sys2Proof.Machine.execCanIntegrationDone ch s
  | .canWakeActivity ch => Sys2Proof.Machine.execCanWakeActivity ch s
  | .canBufferWord0Read buf err => Sys2Proof.Machine.execCanBufferWord0Read buf err s
  | .canBufferWord17Read buf => Sys2Proof.Machine.execCanBufferWord17Read buf s
  | .canFifoHeadWord0Read err => Sys2Proof.Machine.execCanFifoHeadWord0Read err s
  | .canFifoHeadWord17Read => Sys2Proof.Machine.execCanFifoHeadWord17Read s
  | .canWriteRxEmpty buf => Sys2Proof.Machine.execCanWriteRxEmpty buf s
  | .canWriteTxPending buf w => Sys2Proof.Machine.execCanWriteTxPending buf w s
  | .canWriteTxIdle buf w => Sys2Proof.Machine.execCanWriteTxIdle buf w s
  | .canCancelBuffer ch buf => Sys2Proof.Machine.execCanCancelBuffer ch buf s
  | .canCancelAll ch => Sys2Proof.Machine.execCanCancelAll ch s
  | .canConfigReloadDone ch => Sys2Proof.Machine.execCanConfigReloadDone ch s
  | .canConfig c => Sys2Proof.Machine.execCanConfig c s
  | .canConfigRead c => Sys2Proof.Machine.execCanConfigRead c s
  | .mvbBasicPeriod unit events err => Sys2Proof.Machine.execMvbBasicPeriod unit events err s
  | .mvbMasterFrameReceive unit m a b => Sys2Proof.Machine.execMvbMasterFrameReceive unit m a b s
  | .mvbSlaveFrameReceive unit f a b err => Sys2Proof.Machine.execMvbSlaveFrameReceive unit f a b err s
  | .mvbReplyTimeout unit addr => Sys2Proof.Machine.execMvbReplyTimeout unit addr s
  | .baSilenceExpiry unit => Sys2Proof.Machine.execBaSilenceExpiry unit s
  | .mastershipTurnEnd unit => Sys2Proof.Machine.execMastershipTurnEnd unit s
  | .lineDisturbRestore unit line => Sys2Proof.Machine.execLineDisturbRestore unit line s
  | .wtbFrameReceive f a b => Sys2Proof.Machine.execWtbFrameReceive f a b s
  | .wtbInaugurated comp own master endA endB => Sys2Proof.Machine.execWtbInaugurated comp own master endA endB s
  | .legacyReloadDone unit => Sys2Proof.Machine.execLegacyReloadDone unit s
  | .legacyStatus c => Sys2Proof.Machine.execLegacyStatus c s
  | .legacyPortRead c => Sys2Proof.Machine.execLegacyPortRead c s
  | .legacyPortWrite c => Sys2Proof.Machine.execLegacyPortWrite c s
  | .legacyComposition c => Sys2Proof.Machine.execLegacyComposition c s
  | .legacyMsgSend c => Sys2Proof.Machine.execLegacyMsgSend c s
  | .legacyMsgRecv c => Sys2Proof.Machine.execLegacyMsgRecv c s
  | .tunnelReceive f err => Sys2Proof.Machine.execTunnelReceive f err s
  | .readReqReceive f err => Sys2Proof.Machine.execReadReqReceive f err s
  | .readRspReceive f err => Sys2Proof.Machine.execReadRspReceive f err s
  | .tugReqSegmentReceive m => Sys2Proof.Machine.execTugReqSegmentReceive m s
  | .tugRspSegmentReceive m => Sys2Proof.Machine.execTugRspSegmentReceive m s
  | .exportHoldExpiry session => Sys2Proof.Machine.execExportHoldExpiry session s
  | .tunAged session => Sys2Proof.Machine.execTunAged session s
  | .readResend reqId => Sys2Proof.Machine.execReadResend reqId s
  | .readTimeout reqId => Sys2Proof.Machine.execReadTimeout reqId s
  | .responderRequestExpiry nid chip reqId => Sys2Proof.Machine.execResponderRequestExpiry nid chip reqId s
  | .sessionReloadDone session => Sys2Proof.Machine.execSessionReloadDone session s
  | .bridgeStatus c => Sys2Proof.Machine.execBridgeStatus c s
  | .bridgeSession c => Sys2Proof.Machine.execBridgeSession c s
  | .bridgeRead c => Sys2Proof.Machine.execBridgeRead c s
  | .bridgeCollect c => Sys2Proof.Machine.execBridgeCollect c s
  | .recordCommitDone ok0 ok1 => Sys2Proof.Machine.execRecordCommitDone ok0 ok1 s
  | .rateSummary limiter => Sys2Proof.Machine.execRateSummary limiter s
  | .witnessRepeat => Sys2Proof.Machine.execWitnessRepeat s
  | .witnessReceive src gen slot => Sys2Proof.Machine.execWitnessReceive src gen slot s
  | .scrubPass area slots bad => Sys2Proof.Machine.execScrubPass area slots bad s
  | .logRead c bad => Sys2Proof.Machine.execLogRead c bad s
  | .logWrite c => Sys2Proof.Machine.execLogWrite c s
  | .logStatus c => Sys2Proof.Machine.execLogStatus c s
  | .logClear c => Sys2Proof.Machine.execLogClear c s
  | .logMedia c verified => Sys2Proof.Machine.execLogMedia c verified s
  | .rootPllLock => Sys2Proof.Machine.execRootPllLock s
  | .railRecovery => Sys2Proof.Machine.execRailRecovery s
  | .ppsOutPulseEnd => Sys2Proof.Machine.execPpsOutPulseEnd s
  | .syncOutPulseEnd => Sys2Proof.Machine.execSyncOutPulseEnd s
  | .slewTermReturnsTo0 => Sys2Proof.Machine.execSlewTermReturnsTo0 s
  | .tugTimingSend link stamp => Sys2Proof.Machine.execTugTimingSend link stamp s
  | .announceSend dom ports => Sys2Proof.Machine.execAnnounceSend dom ports s
  | .pdelayRequestSend port => Sys2Proof.Machine.execPdelayRequestSend port s
  | .ttdpInaugurationTimer result => Sys2Proof.Machine.execTtdpInaugurationTimer result s
  | .canStartOfFrame ch err => Sys2Proof.Machine.execCanStartOfFrame ch err s
  | .wtbIndividualPeriod => Sys2Proof.Machine.execWtbIndividualPeriod s
  | .wakeInInactiveEdge => Sys2Proof.Machine.execWakeInInactiveEdge s
  | .busMasteringChange on => Sys2Proof.Machine.execBusMasteringChange on s

end Sys2Proof.Machine
end

