-- ==== Sys2Proof/Safety.lean ====
section
/-! DEFINITION. What counts as a safe run, in the terms the statements use: what a command answers, which parts of the state it may touch, when an ACS
command is accepted, the invariant of every step, protection that only grows. -/
namespace Sys2Proof.Machine

/-- A command answers a next state of which P holds. -/
def Answers (i : Instr) (s : State) (P : State → Prop) : Prop := ∃ t, exec i s = .next t ∧ P t

/-- The parts of the state. -/
inductive Part where
  | pending | out | freeIdx | node | pwr | boot | tack | sec | host | mem | causes | stats | log | hitch | time | sw | macs | rx | tx | stream
  | ctl | retain | red | wr | can | leg | br
  deriving DecidableEq, Repr

/-- A part is the same in two states. -/
def Part.same (s t : State) : Part → Prop
  | .pending => t.pending = s.pending
  | .out => t.out = s.out
  | .freeIdx => t.freeIdx = s.freeIdx
  | .node => t.node = s.node
  | .pwr => t.pwr = s.pwr
  | .boot => t.boot = s.boot
  | .tack => t.tack = s.tack
  | .sec => t.sec = s.sec
  | .host => t.host = s.host
  | .mem => t.mem = s.mem
  | .causes => t.causes = s.causes
  | .stats => t.stats = s.stats
  | .log => t.log = s.log
  | .hitch => t.hitch = s.hitch
  | .time => t.time = s.time
  | .sw => t.sw = s.sw
  | .macs => t.macs = s.macs
  | .rx => t.rx = s.rx
  | .tx => t.tx = s.tx
  | .stream => t.stream = s.stream
  | .ctl => t.ctl = s.ctl
  | .retain => t.retain = s.retain
  | .red => t.red = s.red
  | .wr => t.wr = s.wr
  | .can => t.can = s.can
  | .leg => t.leg = s.leg
  | .br => t.br = s.br

/-- Every part but those named is the same. -/
structure Only (ps : List Part) (s t : State) : Prop where
  same : ∀ p, p ∉ ps → p.same s t

/-- Every part but those named. -/
def allBut (ps : List Part) : List Part :=
  [.pending, .out, .freeIdx, .node, .pwr, .boot, .tack, .sec, .host, .mem, .causes, .stats, .log, .hitch, .time, .sw, .macs, .rx, .tx, .stream
  , .ctl, .retain, .red, .wr, .can, .leg, .br].filter (fun p => !ps.contains p)

/-- What an answer to an ACS command touches: the response buffer, the mailbox and the vectors, the counters and their saturation causes, the list of
outputs. -/
def answerParts : List Part := [.out, .host, .mem, .causes, .stats]

/-- What a record, a counter or a cause touches. -/
def recordParts : List Part := [.out, .host, .causes, .stats, .log]

/-- The state in which an ACS command that has started does its work: its slot of the batch, where it has one, is marked. -/
def started (c : Acs) (opcode : Nat) (s : State) : State := if (s.waitingSlot c opcode).isSome then acsMark c s else s

/-- An ACS command is accepted (R579): the chip runs, the batch's order lets it start, its response fits, FLAGS, the reserved field, the node state and
GEN pass. -/
abbrev Accepts (s : State) (c : Acs) (opcode : Nat) (states : States) : Prop :=
  s.alive = true ∧ s.mayStart c opcode = true ∧ (s.waitingSlot c opcode).map Slot.fits ≠ some false ∧ c.flags.toNat / 8 = 0 ∧ c.rsvd = 0
    ∧ s.node.state ∈ states ∧ (c.gen = 0 ∨ c.gen = s.hitch.gen)

/-- An ACS command: its opcode, the node states that accept it, the length of its arguments where that is fixed, its operands (R579, R580 and each command's
own section); none for what is no ACS command. -/
def acsRow : Instr → Option (Nat × States × Option Nat × Acs)
  | .sysIdentify c => some (0x0100, anyState, some 0, c)
  | .sysState c => some (0x0101, anyState, some 0, c)
  | .sysFence c => some (0x0102, anyState, some 4, c)
  | .sysRestart c => some (0x0103, anyState, some 4, c)
  | .sysStable c => some (0x0104, [.ready, .run], some 0, c)
  | .tackStage c => some (0x0200, inServing, none, c)
  | .tackValidate c => some (0x0201, inServing, some 0, c)
  | .tackCommit c => some (0x0202, inServing, some 4, c)
  | .tackRead c => some (0x0203, inServing, some 12, c)
  | .tackStatus c => some (0x0204, inServing, some 0, c)
  | .hitchStatus c => some (0x0300, inLineStates, some 0, c)
  | .hitchTopology c => some (0x0301, inLineStates, some 0, c)
  | .hitchLinks c => some (0x0302, inLineStates, some 0, c)
  | .hitchInhibit c => some (0x0303, inLineStates, some 4, c)
  | .hitchRequest c => some (0x0304, inLineStates, some 0, c)
  | .hitchWait c => some (0x0305, inLineStates, some 8, c)
  | .timeStatus c => some (0x0400, inServing, some 0, c)
  | .timeSelect c => some (0x0401, inLineStates, some 4, c)
  | .timeSet c => some (0x0402, inLineStates, some 16, c)
  | .timeConvert c => some (0x0403, inServing, some 32, c)
  | .timeLinks c => some (0x0404, inLineStates, some 0, c)
  | .timePps c => some (0x0405, inLineStates, some 8, c)
  | .portFdbRead c => some (0x0500, inServing, some 8, c)
  | .portFdbWrite c => some (0x0501, inLineStates, some 20, c)
  | .portFdbFlush c => some (0x0502, inLineStates, some 4, c)
  | .portVlanSet c => some (0x0503, inLineStates, some 8, c)
  | .portGateSet c => some (0x0504, inLineStates, none, c)
  | .portGateStatus c => some (0x0505, inServing, some 4, c)
  | .portQuotaSet c => some (0x0506, inLineStates, some 12, c)
  | .portPsfpSet c => some (0x0507, inLineStates, some 28, c)
  | .portFrerStatus c => some (0x0508, inServing, some 4, c)
  | .portMacsecStatus c => some (0x0509, inServing, some 4, c)
  | .portForward c => some (0x050A, inLineStates, some 4, c)
  | .portMacStatus c => some (0x0510, inServing, some 4, c)
  | .portMacSet c => some (0x0511, inLineStates, some 24, c)
  | .portWakeSet c => some (0x0512, inLineStates, none, c)
  | .portWakeRead c => some (0x0513, inServing, some 4, c)
  | .streamStatus c => some (0x0600, inLineStates, some 4, c)
  | .streamRead c => some (0x0601, inLineStates, some 4, c)
  | .streamPut c => some (0x0602, inLineStates, none, c)
  | .streamGet c => some (0x0603, inLineStates, some 4, c)
  | .streamLine c => some (0x0604, inLineStates, some 4, c)
  | .streamEnable c => some (0x0605, inLineStates, some 4, c)
  | .taskList c => some (0x0700, inLineStates, some 0, c)
  | .taskStart c => some (0x0701, [.ready], some 4, c)
  | .taskStop c => some (0x0702, runStates, some 4, c)
  | .taskResume c => some (0x0703, runStates, some 4, c)
  | .taskSwap c => some (0x0704, runStates, some 24, c)
  | .taskStage c => some (0x0705, runStates, none, c)
  | .forceSet c => some (0x0800, runStates, some 16, c)
  | .forceRelease c => some (0x0801, runStates, some 4, c)
  | .forceList c => some (0x0802, inLineStates, some 4, c)
  | .forceReleaseAll c => some (0x0803, runStates, some 0, c)
  | .wranglerStatus c => some (0x0900, inLineStates, some 0, c)
  | .wranglerPlacement c => some (0x0901, inLineStates, some 4, c)
  | .wranglerHold c => some (0x0902, inLineStates, some 4, c)
  | .redundStatus c => some (0x0A00, inLineStates, some 0, c)
  | .redundTug c => some (0x0A01, inLineStates, some 0, c)
  | .redundSwitch c => some (0x0A02, inLineStates, some 16, c)
  | .redundExclude c => some (0x0A03, inLineStates, some 4, c)
  | .redundRejoin c => some (0x0A04, inLineStates, some 0, c)
  | .canConfig c => some (0x0B00, inLineStates, some 36, c)
  | .canConfigRead c => some (0x0B01, inServing, some 4, c)
  | .legacyStatus c => some (0x0C00, inLineStates, some 4, c)
  | .legacyPortRead c => some (0x0C01, inLineStates, some 4, c)
  | .legacyPortWrite c => some (0x0C02, inLineStates, none, c)
  | .legacyComposition c => some (0x0C03, inLineStates, some 0, c)
  | .legacyMsgSend c => some (0x0C04, inLineStates, none, c)
  | .legacyMsgRecv c => some (0x0C05, inLineStates, some 4, c)
  | .bridgeStatus c => some (0x0D00, inLineStates, some 0, c)
  | .bridgeSession c => some (0x0D01, inLineStates, some 4, c)
  | .bridgeRead c => some (0x0D02, inLineStates, none, c)
  | .bridgeCollect c => some (0x0D03, inLineStates, some 4, c)
  | .logRead c _ => some (0x0E00, inServing, some 16, c)
  | .logWrite c => some (0x0E01, inServing, none, c)
  | .logStatus c => some (0x0E02, inServing, some 0, c)
  | .logClear c => some (0x0E03, inServing, some 4, c)
  | .logMedia c _ => some (0x0E04, [.ready], some 4, c)
  | .secStatus c => some (0x0F00, inServing, some 0, c)
  | .secChallenge c => some (0x0F01, inServing, some 4, c)
  | .secAuthorise c => some (0x0F02, inServing, some 100, c)
  | .secKeyInstall c => some (0x0F03, inServing, some 104, c)
  | .secKeyRevoke c => some (0x0F04, inServing, some 4, c)
  | .secAdvance c => some (0x0F05, inServing, some 4, c)
  | .secLock c => some (0x0F06, [.held, .ready], some 0, c)
  | .secDebugUnlock c => some (0x0F07, [.held], some 0, c)
  | .secFwWrite c => some (0x0F08, inServing, none, c)
  | .secFwSelect c => some (0x0F09, inServing, some 4, c)
  | _ => none

/-- What a command answers with OK: the status and payload, on the state in which it started. -/
def AnswersOk (i : Instr) (c : Acs) (opcode : Nat) (s : State) (payload : List Byte) : Prop :=
  exec i s = .next (done c opcode stOk payload (started c opcode s))

/-- Protection grows (R621, R624): a SECURED part stays SECURED, floors do not fall, a revoked firmware key stays revoked. -/
structure Sec.Le (a b : Sec) : Prop where
  secured : a.secured = true → b.secured = true
  fw : a.fwFloor ≤ b.fwFloor
  tack : a.tackFloor ≤ b.tackFloor
  revoked : ∀ i, a.revoked.getLsbD i = true → b.revoked.getLsbD i = true

/-- The canonical form of the statistics. -/
def Stats.wf (st : Stats) : Bool := Store.wf 0 st.count && Store.wf false st.sat && Store.wf 0 st.mirror

/-- The invariant of every step: the mailbox memory, the cause registers and the statistics are in their canonical form; the chip has 15 MACs, gates and transmit
timestamp queues, 8 rings each way, 8 CAN channels, 3 legacy units, 16 mailboxes, 4 backbone ports, 4 core pairs, 2 tug links. -/
structure Inv (s : State) : Prop where
  mem : s.mem.wf = true
  macs : s.macs.length = 15
  rx : s.rx.length = 8
  tx : s.tx.length = 8
  can : s.can.chans.length = 8
  leg : s.leg.units.length = 3
  boxes : s.host.boxes.length = 16
  ports : s.hitch.ports.length = 4
  pairs : s.ctl.pairs.length = 4
  tugs : s.red.tugs.length = 2
  gates : s.sw.gates.length = 15
  macsec : s.sw.macsec.length = 4
  txts : s.time.txts.length = 15
  causes : Store.wf {} s.causes = true
  stats : s.stats.wf = true

/-- What every command keeps of the state it runs on: the queue, the outputs made so far, the free values used, the invariant, protection. -/
structure Keeps (s t : State) : Prop where
  pending : t.pending = s.pending
  free : s.freeIdx ≤ t.freeIdx
  out : s.out <+: t.out
  inv : Inv s → Inv t
  sec : s.sec.Le t.sec

end Sys2Proof.Machine
end

