-- ==== Sys2Proof/Certificates/Slice0/Obligations.lean ====
section
/-! DEFINITION. The statements for the provers. -/
open Sys2Proof Sys2Proof.Machine

/-! ## The step, the queue, and what every command keeps -/

/-- The row's cut: for every command c, queue rest and state s, a step of s with c at the front of its queue is exec c on s with the rest of the
queue. -/
def Obligations.StepRunsFrontCommand : Prop :=
  ∀ (c : Instr) (rest : List Instr) (s : State), step { s with pending := c :: rest } = exec c { s with pending := rest }

/-- With an empty queue a step is one tick of the free counter while the root PLL is locked, and nothing else changes. That the tick stands in place
of idling is the model's choice (log entry 5). -/
def Obligations.EmptyQueueStepIsTick : Prop :=
  ∀ (s : State), s.pending = [] → ∃ t, step s = .next t ∧ Only [.time] s t
    ∧ t.time.fc = (if s.pwr.pllLocked = true then s.time.fc + 1 else s.time.fc) ∧ t.time = { s.time with fc := t.time.fc }

/-- The invariant of Safety.lean holds of State.reset. -/
def Obligations.InvAtReset : Prop :=
  Inv State.reset

/-- For every state with the invariant, every step that answers a next state answers one with the invariant: the canonical form of the mailbox memory
and of the cause registers, the numbers of MACs, gates and transmit timestamp queues (15), rings (8 each way), CAN channels (8), line units (3),
mailboxes (16), backbone ports (4), MACsec units (4), core pairs (4) and tug links (2). -/
def Obligations.StepKeepsInv : Prop :=
  ∀ (s : State) (t : State), Inv s → step s = .next t → Inv t

/-- For every state, no step makes a SECURED part OPEN, lowers the firmware or the tack floor, or takes back the revocation of a firmware key. -/
def Obligations.StepKeepsProtection : Prop :=
  ∀ (s : State) (t : State), step s = .next t → s.sec.Le t.sec

/-- For every command and state, exec answers a next state, whose queue is the same, whose outputs begin with those made before, and which never uses
a free value again. -/
def Obligations.EveryCommandAnswers : Prop :=
  ∀ (c : Instr) (s : State), Answers c s (fun t => t.pending = s.pending ∧ s.out <+: t.out ∧ s.freeIdx ≤ t.freeIdx)

/-- State.reset is in BOOT, PREV is OFF, the bypass outputs are undriven, the generation is 0, the queue is empty, no mailbox is busy, every cause
register and its mask are 0, every MSI-X vector is masked, every counter is 0, the part is OPEN and no firmware runs. -/
def Obligations.ResetState : Prop :=
  let r : State := State.reset
  r.node.state = .boot ∧ r.node.prev = .off ∧ r.node.bypassA = .hiz ∧ r.node.bypassB = .hiz ∧ r.hitch.gen = 0 ∧ r.pending = []
    ∧ (∀ m, (r.host.box m).busy = false) ∧ (∀ b, r.cause b = {}) ∧ r.host.vecMask = 0xFFFFFFFF ∧ (∀ k, Store.get 0 r.stats.count k = 0)
    ∧ r.sec.secured = false ∧ r.boot.fwRunning = false

/-! ## Supplies, resets and temperature -/

/-- Where the chip runs, PGOOD_FALL, RAIL_MONITOR_TRIP and THERMAL_THRESHOLD at 125 °C or more take it to BACKUP with VBAK, to OFF without, from any
state, PREV the old one; the bypass outputs are undriven, WAKE_OUT low from VBAK or undriven, mailbox memory and mailboxes as at reset; floors, tack
banks, the Studbook and the flash slots are kept; the queue, the free values and the retain area are untouched; each sets its own hold. -/
def Obligations.RailLossLeavesTheTrain : Prop :=
  let gone (s t : State) : Prop := t.node.state = (if s.pwr.vbak = true then .backup else .off) ∧ t.node.prev = s.node.state ∧ t.node.bypassA = .hiz
    ∧ t.node.bypassB = .hiz ∧ t.pwr.wakeOut = (if s.pwr.vbak = true then .low else .hiz) ∧ t.mem = [] ∧ t.host = {} ∧ t.sec.fwFloor = s.sec.fwFloor
    ∧ t.tack.bank0 = s.tack.bank0 ∧ t.log.low = s.log.low ∧ t.boot.slotA = s.boot.slotA ∧ Only (allBut [.pending, .freeIdx, .retain]) s t
  (∀ (s : State), s.node.state ≠ .off → s.node.state ≠ .backup → Answers .pgoodFall s (fun t => gone s t ∧ t.pwr.main = false))
  ∧ (∀ (s : State), s.node.state ≠ .off → s.node.state ≠ .backup → s.pwr.main = true → Answers .railMonitorTrip s (fun t => gone s t
    ∧ t.pwr.railTrip = true))
  ∧ (∀ (s : State) (sensor : Nat) (temp : Int), s.alive = true → 125 ≤ temp → Answers (.thermalThreshold sensor temp) s (fun t => gone s t
    ∧ t.pwr.thermal = true))

/-- Where the chip runs, RESET_N_LOW (cause 18), ROOT_PLL_UNLOCK, GROOM_LOCKSTEP_MISMATCH, GROOM_PARITY_ERROR and, while the firmware runs,
GROOM_WATCHDOG_EXPIRY (cause 17) take it into BOOT, PREV the old state and both kept for the BOOT record; bypass outputs undriven, the claim released,
hitch, host interface and mailbox memory as at reset; floors, tack banks, the Studbook and the flash slots kept; queue, free values and retain area
untouched. The cause numbers' source is the model's reading of R676. -/
def Obligations.FailedChecksEnterBoot : Prop :=
  let booted (cause : Nat) (s t : State) : Prop := t.node.state = .boot ∧ t.node.prev = s.node.state
    ∧ t.node.bootFrom = some (s.node.state.code, cause) ∧ t.node.bypassA = .hiz ∧ t.node.bypassB = .hiz ∧ t.red.claim = false ∧ t.hitch = {}
    ∧ t.host = {} ∧ t.mem = [] ∧ t.sec.fwFloor = s.sec.fwFloor ∧ t.tack.bank0 = s.tack.bank0 ∧ t.log.low = s.log.low ∧ t.boot.slotA = s.boot.slotA
    ∧ Only (allBut [.pending, .freeIdx, .retain]) s t
  (∀ (s : State), s.alive = true → Answers .resetNLow s (fun t => booted 18 s t))
  ∧ (∀ (s : State), s.alive = true → Answers .rootPllUnlock s (fun t => booted 17 s t))
  ∧ (∀ (s : State), s.alive = true → Answers .groomLockstepMismatch s (fun t => booted 17 s t))
  ∧ (∀ (s : State), s.alive = true → Answers .groomParityError s (fun t => booted 17 s t))
  ∧ (∀ (s : State), s.alive = true → s.boot.fwRunning = true → Answers .groomWatchdogExpiry s (fun t => booted 17 s t))

/-- VBAK_APPLIED takes OFF to BACKUP with WAKE_OUT low; VBAK_LOST takes BACKUP to OFF, the backup time and the alarm lost, WAKE_OUT undriven;
RESET_RELEASE without a rail or thermal hold takes OFF or BACKUP into BOOT with BOOT_MODE sampled; RAIL_RECOVERY with main rails and no thermal hold
enters BOOT. The Studbook and the tack banks are kept; each leaves every other part as the frame says. -/
def Obligations.SupplyTransitions : Prop :=
  (∀ (s : State), s.pwr.vbak = false → s.node.state = .off → Answers .vbakApplied s (fun t => t.node.state = .backup ∧ t.node.prev = .off
    ∧ t.pwr.vbak = true ∧ t.pwr.wakeOut = .low ∧ Only [.node, .pwr, .out] s t))
  ∧ (∀ (s : State), s.pwr.vbak = true → s.node.state = .backup → Answers .vbakLost s (fun t => t.node.state = .off ∧ t.node.prev = .backup
    ∧ t.pwr.vbak = false ∧ t.time = {} ∧ t.pwr.alarmArmed = false ∧ t.pwr.wakeOut = .hiz ∧ Only [.node, .pwr, .time, .out] s t))
  ∧ (∀ (s : State) (mode : Nat), s.pwr.railTrip = false → s.pwr.thermal = false → (s.node.state = .off ∨ s.node.state = .backup)
    → Answers (.resetRelease mode) s (fun t => t.node.state = .boot ∧ t.node.prev = s.node.state ∧ t.boot.mode = mode % 4 ∧ t.pwr.main = true
    ∧ t.host = {} ∧ t.log.low = s.log.low ∧ t.tack.bank0 = s.tack.bank0 ∧ Only (allBut [.pending, .freeIdx, .out, .retain]) s t))
  ∧ (∀ (s : State), s.pwr.railTrip = true → s.pwr.main = true → s.pwr.thermal = false → Answers .railRecovery s (fun t => t.node.state = .boot
    ∧ t.node.prev = s.node.state ∧ t.pwr.railTrip = false ∧ t.log.low = s.log.low ∧ Only (allBut [.pending, .freeIdx, .out, .retain]) s t))

/-- ROOT_PLL_LOCK in BOOT starts the free counter at 0 and drives both bypass outputs low. A temperature below 125 °C keeps the highest of 110 °C and
120 °C it reaches, the node state unchanged. THERMAL_RECOVERY ends a shutdown and changes nothing else. An error in firmware data that holds task
staging drops the staging; nothing but records, causes and counters besides. -/
def Obligations.ClockTemperatureFirmware : Prop :=
  (∀ (s : State), s.alive = true → s.node.state = .boot → s.pwr.pllLocked = false → Answers .rootPllLock s (fun t => t.pwr.pllLocked = true
    ∧ t.time.fc = 0 ∧ t.node.bypassA = .low ∧ t.node.bypassB = .low ∧ Only [.node, .pwr, .time, .out] s t))
  ∧ (∀ (s : State) (sensor : Nat) (temp : Int), s.alive = true → temp < 125
    → Answers (.thermalThreshold sensor temp) s (fun t => t.pwr.thermalStep = (if temp < 110 then 0 else if temp < 120 then 110 else 120)
    ∧ t.node = s.node ∧ Only (.pwr :: recordParts) s t))
  ∧ (∀ (s : State), Answers .thermalRecovery s (fun t => t = { s with pwr := { s.pwr with thermal := false } }))
  ∧ (∀ (addr : Nat) (source : Nat) (s : State), s.alive = true → s.boot.fwRunning = true
    → Answers (.fwPage 2 addr source) s (fun t => t.ctl = { s.ctl with stage := [], stageLen := 0, staged := false }
    ∧ Only (.ctl :: recordParts) s t))

/-! ## Standby, wake, removal -/

/-- WAKE_IN_EDGE in STABLED enters READY; WAKE_IN_INACTIVE_EDGE restarts the idle time and changes nothing else of the chip; WAKE_ALARM_EXPIRY in
BACKUP drives WAKE_OUT high and disarms; WAKE_OUT_PULSE_END drives it low. -/
def Obligations.WakeInputs : Prop :=
  (∀ (s : State), s.alive = true → s.node.state = .stabled → Answers .wakeInEdge s (fun t => t.node.state = .ready ∧ t.node.prev = .stabled
    ∧ t.pwr.wakeOut = .high))
  ∧ (∀ (s : State), Answers .wakeInInactiveEdge s (fun t => t.pwr.idleFrom = s.now ∧ Only [.pwr] s t))
  ∧ (∀ (s : State), s.pwr.alarmArmed = true → s.node.state = .backup → Answers .wakeAlarmExpiry s (fun t => t.pwr.wakeOut = .high
    ∧ t.pwr.alarmArmed = false ∧ Only [.pwr, .out] s t))
  ∧ (∀ (s : State), s.pwr.wakeOut = .high → Answers .wakeOutPulseEnd s (fun t => t.pwr.wakeOut = .low ∧ Only [.pwr, .out] s t))

/-- The idle time over with STABLE_AFTER set, WAKE_IN inactive, no latch running and no removal under way, a node in READY or RUN announces removal
and starts the entry sequence (cause 14). The sequence over, with every cycle ended and neither bypass output high, the node is STABLED. SYS_STABLE on
a node of one chip, no commit and no entry running, starts the same sequence (cause 13) and completes with it. -/
def Obligations.StabledEntry : Prop :=
  (∀ (s : State), s.alive = true → s.param 1 2 0xFFFF 0 ≠ 0 → (s.node.state = .ready ∨ s.node.state = .run) → s.wakeActive = false
    → s.noLatch = false → s.node.removal = none → Answers .stableIdleExpiry s (fun t => t.pwr.entering = true ∧ t.node.removal = some .stable
    ∧ t.node.stableCause = 14 ∧ t.node.state = s.node.state ∧ t.mem = s.mem ∧ t.ctl = s.ctl))
  ∧ (∀ (s : State), s.alive = true → s.pwr.entering = true → s.cyclesEnded = true → s.node.bypassA ≠ .high → s.node.bypassB ≠ .high
    → (s.node.state = .ready ∨ s.node.state = .run) → s.pwr.wakeKept = false → Answers .stabledEntryDone s (fun t => t.node.state = .stabled
    ∧ t.node.removal = none ∧ t.pwr.entering = false))
  ∧ (∀ (c : Acs) (s : State), Accepts s c 0x0104 [.ready, .run] → c.args.length = 0 → s.node.form = .simplex → s.tack.commitOn = false
    → s.pwr.entering = false → s.node.removal = none → Answers (.sysStable c) s (fun t => t.pwr.entering = true ∧ t.node.removal = some .stable
    ∧ t.node.stableCause = 13 ∧ t.pwr.stableCmd = some (c.ref 0x0104) ∧ t.node.state = s.node.state ∧ t.ctl = s.ctl))

/-- BYPASS_ANNOUNCE_EXPIRY drives both bypass outputs low on the way into STABLED, the node state unchanged, and goes on into BOOT with START for a
restart or a commit. BYPASS_SETTLE_EXPIRY ends the forwarding on old paths. SYS_RESTART in line announces removal and keeps START; outside the states
in line it enters BOOT at once. -/
def Obligations.RemovalEnds : Prop :=
  (∀ (s : State), s.alive = true → s.node.removal = some .stable → Answers .bypassAnnounceExpiry s (fun t => t.node.bypassA = .low
    ∧ t.node.bypassB = .low ∧ t.node.state = s.node.state ∧ Only [.node, .out] s t))
  ∧ (∀ (s : State), s.alive = true → (s.node.removal = some .restart ∨ s.node.removal = some .commit)
    → Answers .bypassAnnounceExpiry s (fun t => t.node.state = .boot ∧ t.node.prev = s.node.state ∧ t.node.startArg = s.node.startNext))
  ∧ (∀ (s : State), s.alive = true → s.node.settling = true → Answers .bypassSettleExpiry s (fun t => t.node.settling = false
    ∧ t.node.state = s.node.state ∧ t.hitch = s.hitch ∧ t.ctl = s.ctl ∧ t.mem = s.mem))
  ∧ (∀ (c : Acs) (s : State), Accepts s c 0x0103 anyState → c.args.length = 4 → c.arg 0 1 ≤ 3 → c.nonZero 1 3 = false → s.node.state.inLine = true
    → Answers (.sysRestart c) s (fun t => t.node.removal = some .restart ∧ t.node.startNext = c.arg 0 1 ∧ t.node.state = s.node.state))
  ∧ (∀ (c : Acs) (s : State), Accepts s c 0x0103 anyState → c.args.length = 4 → c.arg 0 1 ≤ 3 → c.nonZero 1 3 = false → s.node.state.inLine = false
    → Answers (.sysRestart c) s (fun t => t.node.state = .boot ∧ t.node.startArg = c.arg 0 1))

/-! ## ACS commands -/

/-- For every ACS command of the table: where the chip does not run or the batch does not let it start, nothing happens. Otherwise a command whose
response does not fit completes with NO_RESOURCE; then set bits of FLAGS 15 to 3 or of the reserved field give BAD_ARG; then a node state outside
those that accept it WRONG_STATE; then, where this chip judges it, a GEN that is neither 0 nor the generation in force STALE; then, for a command of
fixed length, other lengths BAD_LENGTH. Each of these completes with an empty payload and without any effect of the command's own. -/
def Obligations.AcsChecksInOrder : Prop :=
  let fails (i : Instr) (c : Acs) (op status : Nat) (s : State) : Prop := exec i s = .next (done c op status [] (started c op s))
  let fits (c : Acs) (op : Nat) (s : State) : Prop := (s.waitingSlot c op).map Slot.fits ≠ some false
  let plain (c : Acs) : Prop := c.flags.toNat / 8 = 0 ∧ c.rsvd = 0
  let fresh (c : Acs) (op : Nat) (s : State) : Prop := s.judgesGen op c = false ∨ c.gen = 0 ∨ c.gen = s.hitch.gen
  ∀ (i : Instr) (s : State) (op : Nat) (states : States) (len : Option Nat) (c : Acs), acsRow i = some (op, states, len, c)
    → (s.alive = false ∨ s.mayStart c op = false → exec i s = .next s) ∧ (s.alive = true → s.mayStart c op = true → (¬ fits c op s
    → fails i c op stNoResource s) ∧ (fits c op s → ¬ plain c → fails i c op stBadArg s) ∧ (fits c op s → plain c → s.node.state ∉ states
    → fails i c op stWrongState s) ∧ (fits c op s → plain c → s.node.state ∈ states → ¬ fresh c op s → fails i c op stStale s) ∧ (∀ n, len = some n
    → fits c op s → plain c → s.node.state ∈ states → fresh c op s → c.args.length ≠ n → fails i c op stBadLength s))

/-- For a command that waits or runs in a busy mailbox whose responses are written, completing it writes the response header and payload, padded to 8
bytes, at RSP_LEN of the response buffer and no other byte of mailbox memory, raises COMPLETED by 1 and RSP_LEN by the response's length, marks its
place in the batch done, leaves every other mailbox alone, and touches nothing but the outputs, the host interface, that memory, counters and their
causes. -/
def Obligations.AcsCompletionWritesResponse : Prop :=
  let t (c : Acs) (op st : Nat) (payload : List Byte) (s : State) : State := done c op st payload s
  let rsp (c : Acs) (op st : Nat) (payload : List Byte) (s : State) : List Byte := rspBytes (c.ref op) st s.hitch.gen payload
  let start (c : Acs) (s : State) : Nat := c.mbx * 0x2000 + 0x1000 + (s.host.box c.mbx).rspLen
  ∀ (c : Acs) (op : Nat) (st : Nat) (payload : List Byte) (x : Slot) (s : State), Inv s → c.mbx < 16 → (s.host.box c.mbx).busy = true
    → (s.host.box c.mbx).discard = false → s.slot? c.mbx c.idx = some x → x.phase ≠ .done → x.opcode = op
    → ((t c op st payload s).host.box c.mbx).completed = (s.host.box c.mbx).completed + 1
    ∧ ((t c op st payload s).host.box c.mbx).rspLen = (s.host.box c.mbx).rspLen + (rsp c op st payload s).length
    ∧ ((t c op st payload s).host.box c.mbx).busy = true ∧ (t c op st payload s).slot? c.mbx c.idx = some { x with phase := .done }
    ∧ (∀ m, m ≠ c.mbx → (t c op st payload s).host.box m = s.host.box m) ∧ (∀ k, k < (rsp c op st payload s).length
    → Mem.read (t c op st payload s).mem (start c s + k) = (rsp c op st payload s).getD k 0)
    ∧ (∀ a, (a < start c s ∨ start c s + (rsp c op st payload s).length ≤ a) → Mem.read (t c op st payload s).mem a = Mem.read s.mem a)
    ∧ Only answerParts s (t c op st payload s)

/-- Where it is accepted, SYS_IDENTIFY answers OK with 80 bytes that begin with DEVICE_ID 0x9460 and REVISION 0xB1 and give the node identifier at
byte 24; SYS_STATE answers OK with 48 bytes: the NODE_STATE register, GEN, HITCH_INFO, NODE_ROLE, LOG_STATUS, LOST, the free counter, the tick of
entry into the state, EPOCH, zeros. SYS_FENCE without flags and with no other fence running answers OK with the free counter and the next SEQ. None
changes anything but its answer. -/
def Obligations.SystemQueries : Prop :=
  (∀ (c : Acs) (s : State), Accepts s c 0x0100 anyState → c.args.length = 0 → ∃ p, AnswersOk (.sysIdentify c) c 0x0100 s p ∧ p.length = 80
    ∧ p.take 8 = le 4 0x9460 ++ le 4 0xB1 ∧ slice p 24 8 = nidBytes s.node.nid)
  ∧ (∀ (c : Acs) (s : State), Accepts s c 0x0101 anyState → c.args.length = 0 → ∃ p, AnswersOk (.sysState c) c 0x0101 s p ∧ p.length = 48
    ∧ p = le 4 s.nodeStateReg ++ wordBytes s.hitch.gen ++ le 4 s.hitchInfoReg ++ le 4 s.nodeRoleReg ++ le 4 s.logStatusReg ++ wordBytes s.node.lost
      ++ le 8 s.now ++ le 8 s.node.stateTick ++ le 2 s.time.epoch.toNat ++ zeros 6)
  ∧ (∀ (c : Acs) (s : State), Accepts s c 0x0102 anyState → c.args = [0, 0, 0, 0] → s.host.fences = []
    → AnswersOk (.sysFence c) c 0x0102 s (le 8 s.now ++ le 8 s.log.nextSeq))

/-! ## Start-up, tack store, protection -/

/-- FIRMWARE_LOAD_DONE in BOOT with the root PLL locked, no firmware running and BOOT_MODE not 0b10 tries the preferred slot, then the other: the
firmware runs exactly if one of them has no fault (R602), the preferred one where it has none; slot contents stay. DL_LOAD in a download mode with the
link up, Bus Master Enable set and a good DMA starts the image and gives DL_STATUS 0x02 where the Boot ROM accepts it, else gives the refusal's code
and starts nothing. -/
def Obligations.FirmwareStart : Prop :=
  (∀ (s : State), s.alive = true → s.node.state = .boot → s.pwr.pllLocked = true → s.boot.fwRunning = false → s.boot.mode ≠ 2
    → s.boot.preferB = false → Answers .firmwareLoadDone s (fun t => (t.boot.fwRunning = true ↔ (s.slotFault 0 = none ∨ s.slotFault 1 = none))
    ∧ (s.slotFault 0 = none → t.boot.runSlot = 0 ∧ t.boot.tryA = s.boot.tryA + 1) ∧ (s.slotFault 0 ≠ none → s.slotFault 1 = none
    → t.boot.runSlot = 1 ∧ t.boot.tryB = s.boot.tryB + 1) ∧ t.boot.slotA = s.boot.slotA ∧ t.boot.slotB = s.boot.slotB ∧ t.node.state = .boot
    ∧ t.tack = s.tack ∧ t.sec = s.sec))
  ∧ (∀ (s : State), s.alive = true → s.node.state = .boot → s.pwr.pllLocked = true → s.boot.fwRunning = false → s.boot.mode ≠ 2
    → s.boot.preferB = true → Answers .firmwareLoadDone s (fun t => (t.boot.fwRunning = true ↔ (s.slotFault 0 = none ∨ s.slotFault 1 = none))
    ∧ (s.slotFault 1 = none → t.boot.runSlot = 1 ∧ t.boot.tryB = s.boot.tryB + 1) ∧ (s.slotFault 1 ≠ none → s.slotFault 0 = none
    → t.boot.runSlot = 0 ∧ t.boot.tryA = s.boot.tryA + 1)))
  ∧ (∀ (image : List Byte) (s : State), s.alive = true → s.host.pcieUp = true → s.host.master = true → s.boot.fwRunning = false
    → (s.boot.mode = 1 ∨ s.boot.mode = 2) → s.node.state = .boot
    → Answers (.dlLoad image true) s (fun t => (∀ c, ({ bytes := image.take s.boot.dlLen.toNat } : FwImage).refusal s.sec true = some c
    → t = { s with boot := { s.boot with dlStatus := if c = 2 ∨ c = 3 then 0x12 else if c = 5 then 0x13 else 0x11 } })
    ∧ (({ bytes := image.take s.boot.dlLen.toNat } : FwImage).refusal s.sec true = none → t.boot.fwRunning = true ∧ t.boot.runSlot = 2
    ∧ t.boot.dlStatus = 2 ∧ t.boot.slotA = s.boot.slotA ∧ t.boot.slotB = s.boot.slotB ∧ t.tack = s.tack)))

/-- TACK_SELECT in BOOT with no commit record and no image in flash enters HELD with HELD_CAUSE 1; with no commit record and a valid image in flash it
commits that image, activates it and enters READY. HELD_FLASH_POLL keeps what flash holds; without an image it changes nothing else; a valid image
that has not failed since BOOT is activated and the node enters READY. -/
def Obligations.TackSelection : Prop :=
  (∀ (ms : Nat) (s : State), s.logs = true → s.node.state = .boot → s.tack.rec0 = none → s.tack.rec1 = none → flashImage s.tack.flash = none
    → Answers (.tackSelect ms) s (fun t => t.node.state = .held ∧ t.node.prev = .boot ∧ t.node.heldCause = 1 ∧ t.tack.active = s.tack.active
    ∧ t.tack.bank0 = s.tack.bank0 ∧ t.tack.bank1 = s.tack.bank1))
  ∧ (∀ (ms : Nat) (b : List Byte) (s : State), s.logs = true → s.node.state = .boot → s.tack.rec0 = none → s.tack.rec1 = none
    → flashImage s.tack.flash = some b → validate s (imgLength b) b = none → Answers (.tackSelect ms) s (fun t => t.node.state = .ready
    ∧ t.node.prev = .boot ∧ t.tack.active = some (tackOf b)
    ∧ t.tack.newer.map (fun r => (r.seq, r.bank, r.fromFlash, r.length)) = some (1, 0, true, imgLength b)))
  ∧ (∀ (image : List Byte) (s : State), s.logs = true → s.node.state = .held → s.tack.commitOn = false → flashImage image = none
    → Answers (.heldFlashPoll image) s (fun t => t = { s with tack := { s.tack with flash := image } }))
  ∧ (∀ (image : List Byte) (b : List Byte) (s : State), s.logs = true → s.node.state = .held → s.tack.commitOn = false → flashImage image = some b
    → s.tack.failed = [] → validate s (imgLength b) b = none → Answers (.heldFlashPoll image) s (fun t => t.node.state = .ready
    ∧ t.node.prev = .held ∧ t.tack.active = some (tackOf b) ∧ t.tack.flash = image))

/-- An accepted TACK_STAGE whose chunk begins anew or goes on at the end of what is staged, with the same total, writes the chunk into the staging
bank of every die in service, keeps the other bank and the active image, and makes STAGED the end of the chunk, the state COMPLETE at the total and
PARTIAL before it. TACK_VALIDATE keeps the banks and makes a complete image VALID exactly if the checks pass, else INVALID. TACK_READ answers OK with
the bytes asked for, TACK_STATUS OK with 96 bytes that end with the staging's state, STAGED and TOTAL; both change nothing but their answer. -/
def Obligations.TackStaging : Prop :=
  (∀ (c : Acs) (s : State), Accepts s c 0x0200 inServing → 9 ≤ c.args.length → c.args.length ≤ 4072 → 0 < c.arg 4 4 → c.arg 4 4 ≤ 16777216
    → c.arg 0 4 + (c.args.length - 8) ≤ c.arg 4 4 → (c.arg 0 4 = 0 ∨ (c.arg 0 4 = s.tack.staged ∧ c.arg 4 4 = s.tack.total))
    → s.tack.commitOn = false → Answers (.tackStage c) s (fun t => t.tack.staged = c.arg 0 4 + (c.args.length - 8) ∧ t.tack.total = c.arg 4 4
    ∧ t.tack.stage = (if c.arg 0 4 + (c.args.length - 8) = c.arg 4 4 then .complete else .part) ∧ (s.log.degraded0 = false
    → (t.tack.bank s.tack.stageBank).die0 = (s.tack.bank s.tack.stageBank).die0.take (c.arg 0 4) ++ c.args.drop 8) ∧ (s.log.degraded1 = false
    → (t.tack.bank s.tack.stageBank).die1 = (s.tack.bank s.tack.stageBank).die1.take (c.arg 0 4) ++ c.args.drop 8)
    ∧ t.tack.bank (1 - s.tack.stageBank) = s.tack.bank (1 - s.tack.stageBank) ∧ t.tack.active = s.tack.active ∧ t.tack.newer = s.tack.newer
    ∧ Only (.tack :: answerParts) s t))
  ∧ (∀ (c : Acs) (s : State), Accepts s c 0x0201 inServing → c.args.length = 0 → s.tack.commitOn = false
    → Answers (.tackValidate c) s (fun t => t.tack = { s.tack with stage := t.tack.stage } ∧ (s.tack.stage = .empty ∨ s.tack.stage = .part
    → t.tack.stage = s.tack.stage) ∧ (s.tack.stage ≠ .empty → s.tack.stage ≠ .part
    → (t.tack.stage = .valid ↔ validate s s.tack.total s.stagedBytes = none)) ∧ (s.tack.stage ≠ .empty → s.tack.stage ≠ .part
    → validate s s.tack.total s.stagedBytes ≠ none → t.tack.stage = .invalid) ∧ Only (.tack :: answerParts) s t))
  ∧ (∀ (c : Acs) (s : State), Accepts s c 0x0203 inServing → c.args.length = 12 → c.arg 0 1 ≤ 1 → c.nonZero 1 3 = false → 0 < c.arg 8 4
    → c.arg 8 4 ≤ 4064 → c.arg 4 4 + c.arg 8 4 ≤ 16777216 → ∃ p, AnswersOk (.tackRead c) c 0x0203 s p ∧ p.length = c.arg 8 4)
  ∧ (∀ (c : Acs) (s : State), Accepts s c 0x0204 inServing → c.args.length = 0 → ∃ p, AnswersOk (.tackStatus c) c 0x0204 s p ∧ p.length = 96
    ∧ slice p 80 1 = [byte s.tack.stage.code] ∧ slice p 84 4 = le 4 s.tack.staged ∧ slice p 88 4 = le 4 s.tack.total)

/-- An accepted TACK_COMMIT on a node of one chip, JTAG closed and no commit running, whose staged image passes, waits as the commit under way with
its START, and ends Wrangler's HOLD; the node state and the banks stay. One whose staged image fails changes no bank and starts no commit. When the
cycles and retain writes have ended, the commit record names the staging bank under the next COMMIT_SEQ and staging is empty; verified, a node in line
announces removal with START for the activation, its state unchanged; not verified, a node in HELD stays there with HELD_CAUSE 2. -/
def Obligations.TackCommit : Prop :=
  (∀ (c : Acs) (s : State), Accepts s c 0x0202 inServing → c.args.length = 4 → c.arg 0 1 ≤ 3 → c.nonZero 1 3 = false → s.sec.jtagOpen = false
    → s.tack.commitOn = false → s.node.form = .simplex → (commitCheck s).1 = none → Answers (.tackCommit c) s (fun t => t.tack.commitOn = true
    ∧ t.tack.committing = some (c.ref 0x0202) ∧ t.tack.commitArg = c.arg 0 1 ∧ t.wr.hold = false ∧ t.node = s.node ∧ t.tack.bank0 = s.tack.bank0
    ∧ t.tack.bank1 = s.tack.bank1 ∧ t.tack.newer = s.tack.newer))
  ∧ (∀ (c : Acs) (s : State), Accepts s c 0x0202 inServing → c.args.length = 4 → c.arg 0 1 ≤ 3 → c.nonZero 1 3 = false → s.sec.jtagOpen = false
    → s.tack.commitOn = false → s.node.form = .simplex → (commitCheck s).1 ≠ none → Answers (.tackCommit c) s (fun t => t.tack.commitOn = false
    ∧ t.node = s.node ∧ t.tack.bank0 = s.tack.bank0 ∧ t.tack.bank1 = s.tack.bank1 ∧ t.tack.newer = s.tack.newer ∧ t.tack.active = s.tack.active))
  ∧ (∀ (s : State), s.alive = true → s.tack.commitOn = true → s.node.removal = none → s.cyclesEnded = true
    → s.ctl.tasks.any (fun e => e.2.writing.isSome) = false → s.node.state.inLine = true
    → Answers (.tackCommitActivate true) s (fun t => t.tack.newer.map (fun r => (r.seq, r.bank, r.fromFlash)) = some (s.commitSeq + 1,
      s.tack.stageBank, false)
    ∧ t.tack.stage = .empty ∧ t.tack.staged = 0 ∧ t.node.removal = some .commit ∧ t.node.startNext = s.tack.commitArg ∧ t.node.state = s.node.state
    ∧ t.tack.committing = none))
  ∧ (∀ (s : State), s.alive = true → s.tack.commitOn = true → s.node.removal = none → s.cyclesEnded = true
    → s.ctl.tasks.any (fun e => e.2.writing.isSome) = false → s.node.state = .held
    → Answers (.tackCommitActivate false) s (fun t => t.node.state = .held ∧ t.node.heldCause = 2 ∧ t.tack.commitOn = false
    ∧ t.tack.newer.map (fun r => (r.seq, r.bank, r.fromFlash)) = some (s.commitSeq + 1, s.tack.stageBank, false)))

/-- SEC_STATUS answers OK with 32 bytes that begin with SECURED, JTAG, the running and the preferred slot, the firmware and the tack floor.
SEC_CHALLENGE, not locked out, answers OK and keeps a fresh nonce (a free value) with its tick. SEC_AUTHORISE of an opcode that takes an authorisation
on an OPEN part adds one on that mailbox; on a SECURED part whose signature does not verify it adds none. -/
def Obligations.ProtectionQueries : Prop :=
  (∀ (c : Acs) (s : State), Accepts s c 0x0F00 inServing → c.args.length = 0 → ∃ p, AnswersOk (.secStatus c) c 0x0F00 s p ∧ p.length = 32
    ∧ p.take 8 = [byte (b01 s.sec.secured), byte (b01 s.sec.jtagOpen), byte s.boot.runSlot , byte (b01 s.boot.preferB)] ++ le 2 s.sec.fwFloor ++ le
      2 s.sec.tackFloor)
  ∧ (∀ (c : Acs) (s : State), Accepts s c 0x0F01 inServing → c.args.length = 4 → c.nonZero 2 2 = false → s.challengeBusy = false
    → Answers (.secChallenge c) s (fun t => t.sec = { s.sec with nonce := some (BitVec.ofNat 256 s.freeNat), nonceTick := s.now }
    ∧ t.freeIdx = s.freeIdx + 1 ∧ Only (.sec :: .freeIdx :: answerParts) s t))
  ∧ (∀ (c : Acs) (s : State), Accepts s c 0x0F02 inServing → c.args.length = 100 → permOf (c.arg 0 2) ≠ none → c.nonZero 3 1 = false
    → s.sec.secured = false
    → Answers (.secAuthorise c) s (fun t => t.sec =
      { s.sec with auths := s.sec.auths ++ [{ mbx := c.mbx, opcode := c.arg 0 2, tick := s.now, key := c.arg 2 1 }] }
    ∧ Only (.sec :: answerParts) s t))
  ∧ (∀ (c : Acs) (s : State), Accepts s c 0x0F02 inServing → c.args.length = 100 → permOf (c.arg 0 2) ≠ none → c.nonZero 3 1 = false
    → s.sec.secured = true → s.authSigned (c.arg 0 2) (c.arg 2 1) (slice c.args 4 96) = false
    → Answers (.secAuthorise c) s (fun t => t.sec.auths = s.sec.auths ∧ t.sec.secured = true ∧ t.sec.nonce = s.sec.nonce))

/-- Without an authorisation on its mailbox SEC_KEY_INSTALL completes with DENIED and nothing else. Authorised, it writes the key slot it names and no
other; SEC_KEY_REVOKE empties an owner slot whose loss leaves a key with KEYS where that is asked, or revokes a firmware key that is not needed;
SEC_ADVANCE raises the floors its flags name to the running firmware's and the committed image's SVN; SEC_LOCK makes an OPEN part SECURED once a key
holds TACK and KEYS; SEC_DEBUG_UNLOCK opens JTAG. Each uses up an authorisation. -/
def Obligations.ProtectionChanges : Prop :=
  let key (s : State) (i : Nat) : Option OwnerKey := s.sec.key i
  (∀ (c : Acs) (s : State), Accepts s c 0x0F03 inServing → c.args.length = 104 → c.arg 0 1 ≤ 3 → c.arg 1 1 ≤ 15 → c.nonZero 2 2 = false
    → c.nonZero 101 3 = false → s.authOk c.mbx 0x0F03 = false → exec (.secKeyInstall c) s = .next (done c 0x0F03 stDenied [] (started c 0x0F03 s)))
  ∧ (∀ (c : Acs) (s : State), Accepts s c 0x0F03 inServing → c.args.length = 104 → c.arg 0 1 ≤ 3 → c.arg 1 1 ≤ 15 → c.nonZero 2 2 = false
    → c.nonZero 101 3 = false → s.authOk c.mbx 0x0F03 = true
    → Answers (.secKeyInstall c) s (fun t => key t (c.arg 0 1) = some { key := slice c.args 4 97, perm := c.arg 1 1 } ∧ (∀ i, i ≠ c.arg 0 1
    → key t i = key s i) ∧ t.sec.auths.length + 1 = s.sec.auths.length ∧ t.sec.secured = s.sec.secured ∧ t.sec.fwFloor = s.sec.fwFloor))
  ∧ (∀ (c : Acs) (s : State), Accepts s c 0x0F04 inServing → c.args.length = 4 → c.arg 0 1 ≤ 3 → c.nonZero 1 3 = false
    → s.authOk c.mbx 0x0F04 = true → s.sec.lastKeys (c.arg 0 1) = false → Answers (.secKeyRevoke c) s (fun t => key t (c.arg 0 1) = none
    ∧ (∀ i, i ≠ c.arg 0 1 → key t i = key s i) ∧ t.sec.revoked = s.sec.revoked ∧ t.sec.auths.length + 1 = s.sec.auths.length))
  ∧ (∀ (c : Acs) (s : State), Accepts s c 0x0F04 inServing → c.args.length = 4 → 16 ≤ c.arg 0 1 → c.arg 0 1 ≤ 19 → c.nonZero 1 3 = false
    → s.authOk c.mbx 0x0F04 = true → s.fwKeyNeeded (c.arg 0 1 - 16) = false
    → Answers (.secKeyRevoke c) s (fun t => t.sec.revoked = s.sec.revoked ||| (1#4 <<< (c.arg 0 1 - 16)) ∧ (∀ i, key t i = key s i)
    ∧ t.sec.auths.length + 1 = s.sec.auths.length))
  ∧ (∀ (c : Acs) (s : State), Accepts s c 0x0F05 inServing → c.args.length = 4 → c.arg 0 4 ≤ 3 → s.authOk c.mbx 0x0F05 = true
    → Answers (.secAdvance c) s (fun t => t.sec.fwFloor = (if bit (c.arg 0 4) 0 = true then max s.sec.fwFloor s.boot.fwSvn else s.sec.fwFloor)
    ∧ t.sec.tackFloor = (if bit (c.arg 0 4) 1 = true then max s.sec.tackFloor ((s.tack.newer.map (fun r => imgSvn (s.bankBytes r.bank))).getD 0)
      else s.sec.tackFloor)
    ∧ t.sec.secured = s.sec.secured ∧ t.sec.auths.length + 1 = s.sec.auths.length))
  ∧ (∀ (c : Acs) (s : State), Accepts s c 0x0F06 [.held, .ready] → c.args.length = 0 → s.sec.secured = false → s.authOk c.mbx 0x0F06 = true
    → (∃ i, i < 4 ∧ (key s i).any (fun k => k.has permTack && k.has permKeys) = true) → Answers (.secLock c) s (fun t => t.sec.secured = true
    ∧ t.sec.fwFloor = s.sec.fwFloor ∧ (∀ i, key t i = key s i) ∧ t.sec.auths.length + 1 = s.sec.auths.length))
  ∧ (∀ (c : Acs) (s : State), Accepts s c 0x0F07 [.held] → c.args.length = 0 → s.authOk c.mbx 0x0F07 = true
    → Answers (.secDebugUnlock c) s (fun t => t.sec.jtagOpen = true ∧ t.sec.secured = s.sec.secured ∧ t.sec.auths.length + 1 = s.sec.auths.length
    ∧ t.node = s.node))

/-- An accepted SEC_FW_WRITE to the slot that does not run writes its chunk at its offset, the bytes before it and after it kept or erased to 0xFF, a
write at offset 0 erasing the slot first; the other slot and everything but the flash and the answer stay. SEC_FW_SELECT, authorised, prefers the slot
it names from the next BOOT on exactly if the Boot ROM would accept that slot's image. -/
def Obligations.FirmwareSlots : Prop :=
  (∀ (c : Acs) (s : State), Accepts s c 0x0F08 inServing → 17 ≤ c.args.length → c.args.length ≤ 4080 → c.arg 0 1 ≤ 1 → c.nonZero 1 3 = false
    → c.nonZero 12 4 = false → c.arg 8 4 ≤ 16777216 → c.arg 4 4 + (c.args.length - 16) ≤ c.arg 8 4 → s.boot.runSlot ≠ c.arg 0 1
    → Answers (.secFwWrite c) s (fun t => slice (t.boot.slot (c.arg 0 1)).bytes (c.arg 4 4) (c.args.length - 16) = c.args.drop 16
    ∧ (t.boot.slot (c.arg 0 1)).bytes.take (c.arg 4 4) = (if c.arg 4 4 = 0 then [] else ((s.boot.slot (c.arg 0 1)).bytes ++ List.replicate (c.arg 4
      4) 0xFF#8).take (c.arg 4 4))
    ∧ t.boot.slot (1 - c.arg 0 1) = s.boot.slot (1 - c.arg 0 1) ∧ t.boot.runSlot = s.boot.runSlot
    ∧ t.boot.fwWritten = (if c.arg 4 4 = 0 then c.args.length - 16 else s.boot.fwWritten + (c.args.length - 16)) ∧ Only (.boot :: answerParts) s t))
  ∧ (∀ (c : Acs) (s : State), Accepts s c 0x0F09 inServing → c.args.length = 4 → c.arg 0 1 ≤ 1 → c.nonZero 1 3 = false
    → s.authOk c.mbx 0x0F09 = true
    → Answers (.secFwSelect c) s (fun t => t.boot.preferB = (if (s.boot.slot (c.arg 0 1)).refusal s.sec true = none then decide (c.arg 0 1 = 1) else
      s.boot.preferB)
    ∧ t.boot.slotA = s.boot.slotA ∧ t.boot.slotB = s.boot.slotB ∧ t.sec.auths.length + 1 = s.sec.auths.length))

/-! ## Mailboxes, interrupts, the host's link, register accesses -/

/-- A doorbell write with ABORT 0 on a mailbox that is not busy, with 1 to 32 well-formed commands of known opcodes, makes it BUSY with those commands
waiting under their reservations, COMPLETED and RSP_LEN 0, DONE and NOTIFY clear; another count sets BAD_BATCH, a busy mailbox OVERRUN and goes on.
ABORT 1 on a busy mailbox leaves it aborting with none of its commands waiting. When every command has completed the batch ends: BUSY clears, DONE
sets, DONE_SEQ is the batch's, ABORTED keeps an abort. A write into a request buffer that is not busy stores its bytes up to the buffer's end and no
other; into a busy one it stores nothing and sets OVERRUN. -/
def Obligations.HostBatches : Prop :=
  (∀ (m : Nat) (count : Nat) (seq : Half) (slots : List Slot) (s : State), Inv s → s.alive = true → m < 16 → 1 ≤ count → count ≤ 32
    → (s.host.box m).busy = false → parseBatch (Mem.readList s.mem (m * 0x2000) 4096) count 0 = some slots → (∀ x ∈ slots, rspMax x.opcode ≠ none)
    → Answers (.batchSubmit m count seq) s (fun t => (t.host.box m).busy = true ∧ (t.host.box m).done = false ∧ (t.host.box m).notify = false
    ∧ (t.host.box m).completed = 0 ∧ (t.host.box m).rspLen = 0 ∧ (t.host.box m).accSeq = seq
    ∧ (t.host.box m).slots = reserve (4096 - 16 * count) slots ∧ (∀ k, k ≠ m → t.host.box k = s.host.box k) ∧ Only [.host, .pwr, .stats] s t))
  ∧ (∀ (m : Nat) (count : Nat) (seq : Half) (s : State), Inv s → s.alive = true → m < 16 → (count = 0 ∨ 32 < count)
    → Answers (.batchSubmit m count seq) s (fun t => t.host.box m = { s.host.box m with badBatch := true } ∧ (t.cause .sys).cause.getLsbD 3 = true
    ∧ t.mem = s.mem ∧ t.node = s.node))
  ∧ (∀ (m : Nat) (count : Nat) (seq : Half) (s : State), Inv s → s.alive = true → m < 16 → 1 ≤ count → count ≤ 32 → (s.host.box m).busy = true
    → Answers (.batchSubmit m count seq) s (fun t => t.host.box m = { s.host.box m with overrun := true } ∧ (t.cause .sys).cause.getLsbD 3 = true
    ∧ t.mem = s.mem))
  ∧ (∀ (m : Nat) (s : State), Inv s → s.alive = true → m < 16 → (s.host.box m).busy = true
    → Answers (.batchAbort m) s (fun t => (t.host.box m).busy = true ∧ (t.host.box m).aborting = true
    ∧ (∀ x ∈ (t.host.box m).slots, x.phase ≠ .waiting) ∧ t.node = s.node ∧ t.ctl = s.ctl))
  ∧ (∀ (m : Nat) (s : State), Inv s → s.alive = true → m < 16 → (s.host.box m).ended = true
    → Answers (.batchComplete m) s (fun t => (t.host.box m).busy = false ∧ (t.host.box m).done = true
    ∧ (t.host.box m).doneSeq = (s.host.box m).accSeq ∧ (t.host.box m).aborted = ((s.host.box m).aborted || (s.host.box m).aborting) ∧ (∀ k, k ≠ m
    → t.host.box k = s.host.box k) ∧ Only [.host, .out, .stats] s t))
  ∧ (∀ (m : Nat) (off : Nat) (data : List Byte) (s : State), Inv s → s.alive = true → m < 16 → off < 4096 → (s.host.box m).busy = false
    → Answers (.mbxRequestWrite m off data) s (fun t => (∀ i, i < data.length → off + i < 4096
    → Mem.read t.mem (m * 0x2000 + off + i) = data.getD i 0)
    ∧ (∀ a, (a < m * 0x2000 + off ∨ m * 0x2000 + off + data.length ≤ a ∨ m * 0x2000 + 4096 ≤ a) → Mem.read t.mem a = Mem.read s.mem a)
    ∧ Only [.mem] s t))
  ∧ (∀ (m : Nat) (off : Nat) (data : List Byte) (s : State), Inv s → s.alive = true → m < 16 → off < 4096 → data ≠ [] → (s.host.box m).busy = true
    → Answers (.mbxRequestWrite m off data) s (fun t => t.mem = s.mem ∧ t.host.box m = { s.host.box m with overrun := true }))

/-- A write of ones to a cause register clears those bits of it and no others, and no other block's. Unmasking an MSI-X vector clears its mask bit and
its pending bit; its message is sent exactly if it was masked and pending and a cause of it is still set. An unsupported access is counted, sticking
at the end, and changes nothing else. -/
def Obligations.InterruptCauses : Prop :=
  (∀ (b : CauseBlk) (off : Nat) (value : Word) (s : State), Inv s → s.alive = true → off % 8 = 0 → causeAt off = some b
    → Answers (.causeClear off value) s (fun t => (t.cause b).cause = (s.cause b).cause &&& ~~~ value ∧ (t.cause b).mask = (s.cause b).mask
    ∧ (∀ k, k ≠ b → t.cause k = s.cause k) ∧ Only [.causes, .host, .out, .stats] s t))
  ∧ (∀ (v : Nat) (s : State), s.alive = true → v < 32 → Answers (.msixVectorUnmask v) s (fun t => t.host.vecMask = s.host.vecMask &&& ~~~ (bit32 v)
    ∧ t.host.vecPend.getLsbD v = false ∧ t.out = (if s.host.vecMask.getLsbD v = true ∧ s.host.vecPend.getLsbD v = true
    ∧ s.vectorSet v = true then s.out ++ [.msix v] else s.out) ∧ Only [.host, .out, .stats] s t))
  ∧ (∀ (s : State), s.alive = true
    → Answers .unsupportedAccess s (fun t => Store.get 0 t.stats.count (statHost 5) = min (Store.get 0 s.stats.count (statHost 5) + 1) statMax
    ∧ (∀ k, k ≠ statHost 5 → Store.get 0 t.stats.count k = Store.get 0 s.stats.count k) ∧ Only [.stats] s t))

/-- A write of HOST_WATCH with ARM arms it anew with its TIMEOUT_MS where that is 10 to 60,000 and restarts its time; without ARM it disarms it. Its
expiry disarms it, sets EXPIRED and the SYS cause, stops every ring and leaves no command of a busy mailbox waiting. A link loss, hot reset or
Function Level Reset stops every ring, masks every vector, clears every cause mask and completion enable and Bus Master Enable; the link stays up only
in a Function Level Reset. A link that comes up keeps its speed and width. The node state is untouched by all. -/
def Obligations.HostLinkAndWatchdog : Prop :=
  (∀ (value : Word) (s : State), s.alive = true → Answers (.hostWatchWrite value) s (fun t => t.host.armed = bit value.toNat 31
    ∧ t.host.timeoutMs = (if 10 ≤ value.toNat % 65536 ∧ value.toNat % 65536 ≤ 60000 then value.toNat % 65536 else s.host.timeoutMs)
    ∧ (bit value.toNat 31 = true → t.host.expired = false ∧ t.host.watchTick = s.now) ∧ t.host.boxes = s.host.boxes ∧ Only [.host] s t))
  ∧ (∀ (s : State), Inv s → s.alive = true → s.host.armed = true → Answers .hostWatchExpiry s (fun t => t.host.armed = false ∧ t.host.expired = true
    ∧ (t.cause .sys).cause.getLsbD 1 = true ∧ (∀ r ∈ t.rx, r.enable = false) ∧ (∀ r ∈ t.tx, r.enable = false) ∧ (∀ m, m < 16
    → (s.host.box m).busy = true → ∀ x ∈ (t.host.box m).slots, x.phase ≠ .waiting) ∧ t.node = s.node ∧ t.ctl = s.ctl))
  ∧ (∀ (kind : Nat) (s : State), s.alive = true → (kind = 0 ∨ kind = 1 ∨ kind = 3) → s.host.pcieUp = true
    → Answers (.pcieReset kind) s (fun t => t.host.pcieUp = decide (kind = 3) ∧ t.host.master = false ∧ t.host.vecMask = 0xFFFFFFFF
    ∧ t.host.vecPend = 0 ∧ (∀ b, (t.cause b).mask = 0) ∧ (∀ m, (t.host.box m).notifyEn = false ∧ (t.host.box m).doneEn = false)
    ∧ (∀ r ∈ t.rx, r.enable = false) ∧ (∀ r ∈ t.tx, r.enable = false) ∧ t.node = s.node ∧ t.ctl = s.ctl))
  ∧ (∀ (speed : Nat) (width : Nat) (s : State), s.alive = true → s.host.pcieUp = false → 1 ≤ speed → speed ≤ 3 → (width = 1 ∨ width = 2)
    → Answers (.pcieLinkUp speed width) s (fun t => t.host.pcieUp = true ∧ t.host.pcieSpeed = speed ∧ t.host.pcieWidth = width ∧ t.node = s.node))
  ∧ (∀ (on : Bool) (s : State), s.alive = true → s.host.pcieUp = true
    → Answers (.busMasteringChange on) s (fun t => t.host = { s.host with master := on } ∧ Only [.host, .rx, .tx] s t))

/-- A write of SCRATCH stores the word and changes nothing else; a write of another word of the identification area but HOST_WATCH changes nothing; a
write of a cause mask stores its defined bits. A QSPI write of one word to SCRATCH, single or quad, stores it; a QSPI read of one word of the
identification area answers 0xA5 and that word, little-endian, and STATUS answers READY, IRQ and ERR and clears ERR; each notes that a QSPI host has
spoken and changes nothing else. -/
def Obligations.RegisterAccess : Prop :=
  (∀ (value : Word) (s : State), s.alive = true
    → Answers (.registerWrite 0x38 value) s (fun t => t = { s with host := { s.host with scratch := value } }))
  ∧ (∀ (off : Nat) (value : Word) (s : State), s.alive = true → off < 0x100 → off ≠ 0x24 → off ≠ 0x38
    → Answers (.registerWrite off value) s (fun t => t = s))
  ∧ (∀ (b : CauseBlk) (off : Nat) (value : Word) (s : State), Inv s → s.alive = true → off < 0x200 → off % 8 = 4 → causeAt off = some b
    → Answers (.registerWrite off value) s (fun t => (t.cause b).mask = value &&& causeBits b ∧ (t.cause b).cause = (s.cause b).cause ∧ (∀ k, k ≠ b
    → t.cause k = s.cause k) ∧ Only [.causes] s t))
  ∧ (∀ (data : List Byte) (s : State), s.alive = true → data.length = 4
    → Answers (.qspiWrite 0x38 data) s (fun t => t = { s with host := { s.host with scratch := BitVec.ofNat 32 (leNat data), qspiSeen := true } }))
  ∧ (∀ (data : List Byte) (s : State), s.alive = true → data.length = 4
    → Answers (.qspiWriteQuad 0x38 data) s (fun t => t =
      { s with host := { s.host with scratch := BitVec.ofNat 32 (leNat data), qspiSeen := true } }))
  ∧ (∀ (addr : Nat) (s : State), s.alive = true → addr < 0x100 → addr % 4 = 0
    → Answers (.qspiRead addr 1 false) s (fun t => t.out = s.out ++ [.qspi (0xA5 :: le 4 (s.idReg addr))]
    ∧ t.host = { s.host with qspiSeen := true } ∧ Only [.host, .out] s t))
  ∧ (∀ (addr : Nat) (s : State), s.alive = true → addr < 0x100 → addr % 4 = 0
    → Answers (.qspiReadQuad addr 1 false) s (fun t => t.out = s.out ++ [.qspi (0xA5 :: le 4 (s.idReg addr))]
    ∧ t.host = { s.host with qspiSeen := true } ∧ Only [.host, .out] s t))
  ∧ (∀ (s : State), s.alive = true
    → Answers .qspiStatus s (fun t => t.out = s.out ++ [.qspi [byte (b01 (s.acsVersion ≠ 0) + flag (s.irqSummary ≠ 0) 1 + flag s.host.qspiErr 2)]]
    ∧ t.host = { s.host with qspiSeen := true, qspiErr := false } ∧ Only [.host, .out] s t))

/-- A read of a counter answers its value and clears it and no other counter; a read of a saturation map answers it and clears its marks. A read of
SNAP_FC_LO answers the low word of the free counter and latches counter and train time; of PPSIN_STAT answers NEW, OVR and the count, latches the tick
and clears NEW and OVR; of TXTS_POP takes the oldest entry of the selected port's queue and answers VALID with its ID. -/
def Obligations.ReadSideEffects : Prop :=
  (∀ (off : Nat) (s : State), Inv s → s.alive = true → off % 4 = 0 → 0x4000 ≤ off → isCounter ((off - 0x4000) / 4) = true
    → Answers (.statCounterRead off) s (fun t => t.out = s.out ++ [.read off (BitVec.ofNat 32 (Store.get 0 s.stats.count ((off - 0x4000) / 4)))]
    ∧ Store.get 0 t.stats.count ((off - 0x4000) / 4) = 0 ∧ (∀ k, k ≠ (off - 0x4000) / 4 → Store.get 0 t.stats.count k = Store.get 0 s.stats.count k)
    ∧ t.stats.sat = s.stats.sat ∧ t.stats.mirror = s.stats.mirror ∧ Only [.stats, .out] s t))
  ∧ (∀ (off : Nat) (s : State), Inv s → s.alive = true → off % 4 = 0 → 0x4000 ≤ off → isSat ((off - 0x4000) / 4) = true
    → Answers (.satMapRead off) s (fun t => t.out = s.out ++ [.read off (BitVec.ofNat 32 (s.statValue ((off - 0x4000) / 4)))]
    ∧ (∀ k ∈ satBits ((off - 0x4000) / 4), Store.get false t.stats.sat k = false) ∧ t.stats.count = s.stats.count ∧ Only [.stats, .out] s t))
  ∧ (∀ (s : State), s.alive = true → Answers .snapFcLoRead s (fun t => t.out = s.out ++ [.read 0x2000 (BitVec.ofNat 32 s.now)]
    ∧ t.time.snap.fc = s.now ∧ t.time.snap.tt = s.trainNow ∧ Only [.time, .out] s t))
  ∧ (∀ (s : State), s.alive = true
    → Answers .ppsinStatRead s (fun t => t.time = { s.time with ppsLatch := s.time.ppsTick, ppsNew := false, ppsOvr := false }
    ∧ t.out = s.out ++ [.read 0x2040 (BitVec.ofNat 32 (flag s.time.ppsNew 31 + flag s.time.ppsOvr 30 + s.time.ppsCount % 4096 * 16 + s.time.ppsFrac
      % 16))]
    ∧ Only [.time, .out] s t))
  ∧ (∀ (e : TxTs) (rest : List TxTs) (s : State), Inv s → s.alive = true → s.time.txtsSel < 15 → (s.txq s.time.txtsSel).entries = e :: rest
    → Answers .txtsPop s (fun t => (t.txq s.time.txtsSel).entries = rest ∧ t.time.txtsTick = e.tick ∧ (∀ d, t.out = s.out ++ [.read 0x2084 d]
    → d.getLsbD 31 = true ∧ d.toNat % 65536 = e.id % 65536) ∧ Only [.time, .out] s t))

/-! ## Host rings and the Studbook -/

/-- Setting ENABLE of a ring at rest makes it run, STOPPED clear, HEAD, TAIL and SIZE kept, NO_DMA as the endpoint has it; on a running ring it
changes nothing. Clearing ENABLE of a running RX ring drops its waiting frames and leaves it STOPPED with both indices 0; of a running TX ring that no
fence holds it leaves it so too. A TAIL below SIZE is taken, another changes nothing. The delay's end sends the ring's vector (or marks it pending
while masked) and clears what is unsaid. A PCIe error of a running ring stops it, sets FETCH_ERR and the PORT and SYS causes. No other ring changes in
the first three. -/
def Obligations.RingControl : Prop :=
  (∀ (tx : Bool) (ring : Nat) (value : Word) (s : State), Inv s → s.alive = true → ring < 8 → (s.ring tx ring).enable = false
    → Answers (.ringEnable tx ring value) s (fun t => (t.ring tx ring).enable = true ∧ (t.ring tx ring).stopped = false
    ∧ (t.ring tx ring).noDma = !s.dmaOk ∧ (t.ring tx ring).head = (s.ring tx ring).head ∧ (t.ring tx ring).tail = (s.ring tx ring).tail
    ∧ (t.ring tx ring).size = (s.ring tx ring).size ∧ (∀ k, k < 8 → k ≠ ring → (t.ring tx k).enable = (s.ring tx k).enable) ∧ Only [.rx, .tx] s t))
  ∧ (∀ (tx : Bool) (ring : Nat) (value : Word) (s : State), s.alive = true → ring < 8 → (s.ring tx ring).enable = true
    → Answers (.ringEnable tx ring value) s (fun t => t = s))
  ∧ (∀ (ring : Nat) (s : State), Inv s → s.alive = true → ring < 8 → (s.rxRing ring).enable = true
    → Answers (.ringDisable false ring) s (fun t => t.rxRing ring = { (s.rxRing ring).halt with waiting := [] } ∧ (∀ k, k < 8 → k ≠ ring
    → t.rxRing k = s.rxRing k) ∧ Only [.rx, .tx, .sw, .causes, .host, .out, .stats] s t))
  ∧ (∀ (ring : Nat) (s : State), Inv s → s.alive = true → ring < 8 → (s.txRing ring).enable = true → (s.txRing ring).fenced = none
    → Answers (.ringDisable true ring) s (fun t => t.txRing ring = (s.txRing ring).halt ∧ (∀ k, k < 8 → k ≠ ring → t.txRing k = s.txRing k)
    ∧ Only [.tx] s t))
  ∧ (∀ (tx : Bool) (ring : Nat) (index : Nat) (s : State), Inv s → s.alive = true → ring < 8 → index < (s.ring tx ring).size
    → Answers (.ringTailWrite tx ring index) s (fun t => t.ring tx ring = { s.ring tx ring with tail := index } ∧ (∀ k, k < 8 → k ≠ ring
    → t.ring tx k = s.ring tx k) ∧ (∀ k, t.ring (!tx) k = s.ring (!tx) k) ∧ Only [.rx, .tx] s t))
  ∧ (∀ (tx : Bool) (ring : Nat) (index : Nat) (s : State), s.alive = true → ring < 8 → (s.ring tx ring).size ≤ index
    → Answers (.ringTailWrite tx ring index) s (fun t => t = s))
  ∧ (∀ (tx : Bool) (ring : Nat) (s : State), Inv s → s.alive = true → ring < 8 → (s.ring tx ring).unsaid ≠ 0
    → Answers (.ringIrqDelayExpiry tx ring) s (fun t => t.ring tx ring = { s.ring tx ring with unsaid := 0 }
    ∧ t.out = (if s.host.vecMask.getLsbD ((if tx then 16 else 8) + ring) then s.out else s.out ++ [.msix ((if tx then 16 else 8) + ring)])
    ∧ (s.host.vecMask.getLsbD ((if tx then 16 else 8) + ring) = true → t.host.vecPend.getLsbD ((if tx then 16 else 8) + ring) = true)
    ∧ Only [.rx, .tx, .host, .out, .stats] s t))
  ∧ (∀ (tx : Bool) (ring : Nat) (kind : Nat) (status : Word) (descs : List (List Byte)) (s : State), Inv s → s.alive = true → ring < 8
    → (s.ring tx ring).enable = true → 1 ≤ kind → kind ≤ 3
    → Answers (.pcieDmaError tx ring kind status descs) s (fun t => (t.ring tx ring).enable = false ∧ (t.ring tx ring).fetchErr = true
    ∧ (t.cause .port).cause.getLsbD 3 = true ∧ (t.cause .sys).cause.getLsbD 2 = true ∧ t.node = s.node))

/-- A fetched TX frame that is malformed sets DESC_ERR, its descriptors are written back with RESULT 4 and HEAD passes them. One whose fence has
frames to wait for is held and nothing else changes. A DIRECT frame without a launch time to a port that is up, has no gate list and admits it joins
that port's queue of its class and is written back with RESULT 0. A held frame whose fence has nothing left to wait for goes on and HEAD passes it;
else nothing changes. A good RX frame at the head of a running ring whose buffers are posted is written to them piece by piece, leaves the queue, is
counted, and HEAD passes the descriptors. One that has waited too long is dropped whole, counted, and sets HOLD_DROP. -/
def Obligations.RingFrames : Prop :=
  (∀ (ring : Nat) (descs : List (List Byte)) (ds : List (List Byte)) (data : List Byte) (s : State), Inv s → s.alive = true → s.ringsRun = true
    → ring < 8 → frameDescs descs = some ds → (s.txRing ring).enable = true → (s.txRing ring).fenced = none → (s.txRing ring).launch.length < 64
    → ds.length ≤ (s.txRing ring).posted → s.txBad ds data = true
    → Answers (.txFrameFetched ring descs data) s (fun t => (t.txRing ring).descErr = true
    ∧ (t.txRing ring).head = (if (s.txRing ring).size = 0 then 0 else ((s.txRing ring).head + ds.length) % (s.txRing ring).size)
    ∧ (∀ k, k < ds.length
    → Output.hostWrite ((s.txRing ring).descAt ((s.txRing ring).head + k) + 28) (le 4 (bits (fLe (ds.getD k []) 28 4) 30 24 * 2 ^ 24 + 2 ^ 31 + (if
      k + 1 = ds.length then 4 * 2 ^ 16 else 0))) ∈ t.out)
    ∧ t.sw = s.sw))
  ∧ (∀ (ring : Nat) (descs : List (List Byte)) (ds : List (List Byte)) (data : List Byte) (s : State), Inv s → s.alive = true → s.ringsRun = true
    → ring < 8 → frameDescs descs = some ds → (s.txRing ring).enable = true → (s.txRing ring).fenced = none → (s.txRing ring).launch.length < 64
    → ds.length ≤ (s.txRing ring).posted → s.txBad ds data = false → (settleUids s).fenceSet ring (ds.headD []) ≠ []
    → Answers (.txFrameFetched ring descs data) s (fun t => (t.txRing ring).fenced = some
      { descs := ds, data := data, waitFor := (settleUids s).fenceSet ring (ds.headD []) }
    ∧ (t.txRing ring).head = (s.txRing ring).head ∧ Only [.tx] s t))
  ∧ (∀ (ring : Nat) (descs : List (List Byte)) (ds : List (List Byte)) (data : List Byte) (p : Nat) (q : QFrame) (c : Nat) (s : State), Inv s
    → s.alive = true → s.ringsRun = true → ring < 8 → frameDescs descs = some ds → (s.txRing ring).enable = true → (s.txRing ring).fenced = none
    → (s.txRing ring).launch.length < 64 → ds.length ≤ (s.txRing ring).posted → s.txBad ds data = false
    → (settleUids s).fenceSet ring (ds.headD []) = [] → dDirect (ds.headD []) = true → dLaunch (ds.headD []) = false → p = dDest (ds.headD []) % 16
    → (q, c) = s.txDirect ring (ds.headD []) (frameOf data) → s.node.state ≠ .held → s.portUp p = true → s.admits p c q.cells = true
    → (s.gate p).oper = none → Answers (.txFrameFetched ring descs data) s (fun t => t.queue p c = s.queue p c ++ [q] ∧ (∀ i j, j < 8
    → (i ≠ p ∨ j ≠ c) → c < 8 → t.queue i j = s.queue i j)
    ∧ (t.txRing ring).head = (if (s.txRing ring).size = 0 then 0 else ((s.txRing ring).head + ds.length) % (s.txRing ring).size)
    ∧ (∀ k, k < ds.length
    → Output.hostWrite ((s.txRing ring).descAt ((s.txRing ring).head + k) + 28) (le 4 (bits (fLe (ds.getD k []) 28 4) 30 24 * 2 ^ 24 + 2 ^ 31)) ∈
      t.out)))
  ∧ (∀ (ring : Nat) (f : Fenced) (s : State), Inv s → s.alive = true → s.ringsRun = true → ring < 8 → (s.txRing ring).fenced = some f
    → (s.txRing ring).enable = true → f.waitFor.any s.uidLive = false → Answers (.txFenceRelease ring) s (fun t => (t.txRing ring).fenced = none
    ∧ (t.txRing ring).enable = true
    ∧ (t.txRing ring).head = (if (s.txRing ring).size = 0 then 0 else ((s.txRing ring).head + f.descs.length) % (s.txRing ring).size)))
  ∧ (∀ (ring : Nat) (f : Fenced) (s : State), s.alive = true → (s.txRing ring).fenced = some f → f.waitFor.any s.uidLive = true
    → Answers (.txFenceRelease ring) s (fun t => t = s))
  ∧ (∀ (ring : Nat) (bufs : List Nat) (cutAt : Nat) (x : RxWait) (rest : List RxWait) (s : State), Inv s → s.alive = true → s.ringsRun = true
    → ring < 8 → (s.rxRing ring).enable = true → 1 ≤ (s.rxRing ring).bufUnits → (s.rxRing ring).waiting = x :: rest → x.bad = 0
    → 1 ≤ min (s.rxRing ring).posted bufs.length → (s.rxRing ring).needs x ≤ min (s.rxRing ring).posted bufs.length
    → Answers (.rxRingDeliver ring bufs cutAt) s (fun t => (t.rxRing ring).waiting = rest
    ∧ (t.rxRing ring).head = (if (s.rxRing ring).size = 0 then 0 else ((s.rxRing ring).head + (rxPieces (s.rxRing ring).bufSize (bufs.take (min
      (s.rxRing ring).posted bufs.length)) ((s.rxRing ring).frameBytes x)).length) % (s.rxRing ring).size)
    ∧ (∀ y ∈ rxPieces (s.rxRing ring).bufSize (bufs.take (min (s.rxRing ring).posted bufs.length)) ((s.rxRing ring).frameBytes x), Output.hostWrite
      y.addr y.data ∈ t.out)
    ∧ Store.get 0 t.stats.count (statPort 15 ring) = min (Store.get 0 s.stats.count (statPort 15 ring) + 1) statMax ∧ t.node = s.node))
  ∧ (∀ (ring : Nat) (x : RxWait) (rest : List RxWait) (s : State), Inv s → s.alive = true → ring < 8 → (s.rxRing ring).waiting = x :: rest
    → Answers (.rxHoldExpiry ring) s (fun t => (t.rxRing ring).waiting = rest ∧ (t.rxRing ring).holdDrop = true
    ∧ (t.rxRing ring).head = (s.rxRing ring).head
    ∧ Store.get 0 t.stats.count (statPort 15 (8 + ring)) = min (Store.get 0 s.stats.count (statPort 15 (8 + ring)) + 1) statMax))

/-- With the scan done, no media fault and both dies in service and verified, the front record of the commit queue is in the next slot of its
severity's region on both dies and leaves the queue. When neither die verifies, both are degraded, MEDIA_FAULT stands and is raised, and the record is
in the next free last-words slot. While it stands, records of WARNING and above go there and no region changes. A summary clears its limiter's count
and, the queue not full, joins the queue. A checkpoint scan that needs no whole region ends recovery; one that does leaves SCANNING set and SEQ beyond
its limit; its end clears SCANNING. A scrub pass mends the failing copy from its good twin and is recorded. -/
def Obligations.StudbookCommits : Prop :=
  (∀ (r : Rec) (rest : List Rec) (s : State), s.logs = true → s.log.scanned = true → s.log.queue = r :: rest → s.log.mediaFault = false
    → s.log.degraded0 = false → s.log.degraded1 = false → (r.sev = 7 → s.log.sealedFull = false)
    → Answers (.recordCommitDone true true) s (fun t => Store.find (t.log.region (regionOf r.sev)).slots (s.log.region (regionOf r.sev)).next = some
      { die0 := some r, die1 := some r }
    ∧ rest <+: t.log.queue ∧ t.log.mediaFault = false ∧ t.log.degraded0 = false ∧ t.log.degraded1 = false ∧ t.node = s.node))
  ∧ (∀ (r : Rec) (rest : List Rec) (s : State), s.logs = true → s.log.scanned = true → s.log.queue = r :: rest → s.log.mediaFault = false
    → s.log.degraded0 = false → s.log.degraded1 = false
    → Answers (.recordCommitDone false false) s (fun t => Store.find t.log.lastWords (if s.log.lwKept = some s.log.lwNext then (s.log.lwNext + 1) %
      512 else s.log.lwNext) = some r
    ∧ t.log.mediaFault = true ∧ t.log.degraded0 = true ∧ t.log.degraded1 = true ∧ (t.cause .log).cause.getLsbD 1 = true
    ∧ (t.cause .log).cause.getLsbD 2 = true ∧ t.log.low = s.log.low ∧ t.log.high = s.log.high ∧ t.log.seald = s.log.seald
    ∧ t.node.lost.getLsbD 2 = true))
  ∧ (∀ (r : Rec) (rest : List Rec) (ok0 : Bool) (ok1 : Bool) (s : State), s.logs = true → s.log.scanned = true → s.log.queue = r :: rest
    → s.log.mediaFault = true → 3 ≤ r.sev
    → Answers (.recordCommitDone ok0 ok1) s (fun t => Store.find t.log.lastWords (if s.log.lwKept = some s.log.lwNext then (s.log.lwNext + 1) % 512
      else s.log.lwNext) = some r
    ∧ t.log.low = s.log.low ∧ t.log.high = s.log.high ∧ t.log.seald = s.log.seald))
  ∧ (∀ (limiter : Nat) (s : State), s.logs = true → Store.wf {} s.log.limiters = true → (Store.get {} s.log.limiters limiter).supp ≠ 0
    → s.log.queue.length < 1024 → Answers (.rateSummary limiter) s (fun t => (Store.get {} t.log.limiters limiter).supp = 0
    ∧ t.log.queue = s.log.queue ++ [s.stampRec 0x0E06 sevInfo 0 false false (le 2 limiter ++ le 2 (Store.get {} s.log.limiters limiter).lastCode ++
      le 4 (Store.get {} s.log.limiters limiter).supp)]
    ∧ t.log.nextSeq = s.log.nextSeq + 1 ∧ Only [.log] s t))
  ∧ (∀ (ms : Nat) (s : State), s.logs = true → s.log.scanned = false → s.log.low.needsWhole = false → s.log.high.needsWhole = false
    → s.log.seald.needsWhole = false → Answers (.recoveryScan ms) s (fun t => t.log.scanned = true ∧ t.log.scanning = false
    ∧ t.log.low = s.log.low.scan s.log.lowSlots (!s.log.degraded0 && !s.log.degraded1)
    ∧ t.log.high = s.log.high.scan s.log.highSlots (!s.log.degraded0 && !s.log.degraded1)
    ∧ t.log.seald = s.log.seald.scan s.log.sealedSlots (!s.log.degraded0 && !s.log.degraded1) ∧ s.log.highest < t.log.nextSeq
    ∧ s.log.seqFloor ≤ t.log.nextSeq ∧ (t.cause .log).cause.getLsbD 6 = true))
  ∧ (∀ (ms : Nat) (s : State), s.logs = true → s.log.scanned = false
    → (s.log.low.needsWhole = true ∨ s.log.high.needsWhole = true ∨ s.log.seald.needsWhole = true)
    → Answers (.recoveryScan ms) s (fun t => t.log.scanned = false ∧ t.log.scanning = true ∧ s.log.seqLimit ≤ t.log.nextSeq
    ∧ s.log.highest < t.log.nextSeq ∧ Only [.log] s t))
  ∧ (∀ (ms : Nat) (s : State), s.logs = true → s.log.scanning = true → Answers (.wholeRegionScanDone ms) s (fun t => t.log.scanned = true
    ∧ t.log.scanning = false ∧ t.log.low = s.log.low ∧ t.log.high = s.log.high ∧ t.log.seald = s.log.seald ∧ (t.cause .log).cause.getLsbD 6 = true))
  ∧ (∀ (slots : Nat) (b : BadCopy) (s : State), s.logs = true → s.node.state.inLine = true → b.twinOk = true
    → Answers (.scrubPass 3 slots [b]) s (fun t => (t.log.region b.area).slots = Store.upd (s.log.region b.area).slots b.slot (fun p => if b.die = 0
      then { p with die0 := p.die1 } else { p with die1 := p.die0 })
    ∧ t.log.lastWords = s.log.lastWords ∧ t.log.degraded0 = s.log.degraded0 ∧ Only [.log, .causes, .host, .out, .stats, .freeIdx, .red, .sw] s t))
  ∧ (∀ (area : Nat) (slots : Nat) (s : State), s.logs = true → s.node.state.inLine = true
    → Answers (.scrubPass area slots []) s (fun t => t = logEvent 0x100B sevNotice ([byte area] ++ le 4 slots ++ le 4 0 ++ le 4 0) s))

/-- The witness sent longest ago is sent again and goes to the end, or leaves after its last time. A new intact witness of another node is remembered
and joins the queue, where there is room, as one ALERT record with the sender's GEN. LOG_READ without a scan or a media fault answers OK with at most
the number of records asked for, 128 bytes each behind 32. An accepted LOG_WRITE whose record the filter and its limiter let through queues it with
its code, severity and payload and waits for it; a filtered one answers OK with SEQ 0. LOG_STATUS answers OK with 88 bytes. LOG_CLEAR empties the
regions named, and SEQ_FLOOR is the next SEQ; the SEALED region and the last words only in READY with an authorisation, which is used up. LOG_MEDIA
copies the good die to the degraded one and ends its degradation. -/
def Obligations.WitnessesAndLogCommands : Prop :=
  (∀ (x : WitnessOut) (rest : List WitnessOut) (s : State), s.logs = true → s.log.witnesses = x :: rest
    → Answers .witnessRepeat s (fun t => t.log.witnesses = (if x.left ≤ 1 then rest else rest ++ [{ x with left := x.left - 1 }])
    ∧ t.log.queue = s.log.queue ∧ Only [.log, .sw, .red, .freeIdx, .out, .host, .causes, .stats] s t))
  ∧ (∀ (src : Nid) (gen : Word) (slot : List Byte) (s : State), s.logs = true → s.node.state.inLine = true → s.streamEtype ≠ none
    → slotOk slot = true → (src, fLe slot 0 8) ∉ s.log.seen → s.log.queue.length < 1024
    → Answers (.witnessReceive src gen slot) s (fun t => t.log.seen = (src, fLe slot 0 8) :: s.log.seen ∧ t.log.queue.dropLast = s.log.queue
    ∧ t.log.queue.getLast?.map (fun r => (r.code, r.sev, r.witness, r.gen, r.node)) = some (0x0E03, sevAlert, true, gen, fLe slot 29 1)
    ∧ (t.cause .log).cause.getLsbD 4 = true ∧ t.node = s.node))
  ∧ (∀ (c : Acs) (s : State), Accepts s c 0x0E00 inServing → c.args.length = 16 → c.arg 8 1 ≤ 1 → c.arg 9 1 ≤ 7 → c.arg 10 1 ≤ 7 → 1 ≤ c.arg 11 1
    → c.arg 11 1 ≤ 31 → s.log.scanning = false → s.log.mediaFault = false → ∃ p n, AnswersOk (.logRead c []) c 0x0E00 s p ∧ p.length = 32 + 128 * n
    ∧ n ≤ c.arg 11 1 ∧ slice p 8 1 = [byte n])
  ∧ (∀ (c : Acs) (n : Nat) (s : State), Accepts s c 0x0E01 inServing → 4 ≤ c.args.length → c.args.length = 4 + c.arg 3 1 → c.arg 3 1 ≤ 88
    → 0x8000 ≤ c.arg 0 2 → c.arg 2 1 ≤ 7 → (c.arg 2 1 = 7 → s.hostSeal = true) → s.hitch.switching = false
    → s.fate (c.arg 0 2) (c.arg 2 1) = .accepted n
    → Answers (.logWrite c) s (fun t => t.log.waits = s.log.waits ++ [{ seq := n, ref := c.ref 0x0E01 }] ∧ n = s.log.nextSeq
    ∧ t.log.queue.getLast?.map (fun r => (r.seq, r.code, r.sev, r.host, r.payload)) = some (n, c.arg 0 2, c.arg 2 1, true, c.args.drop 4)
    ∧ t.node = s.node))
  ∧ (∀ (c : Acs) (s : State), Accepts s c 0x0E01 inServing → 4 ≤ c.args.length → c.args.length = 4 + c.arg 3 1 → c.arg 3 1 ≤ 88 → 0x8000 ≤ c.arg 0 2
    → c.arg 2 1 ≤ 7 → (c.arg 2 1 = 7 → s.hostSeal = true) → s.hitch.switching = false → s.log.mediaFault = false
    → s.fate (c.arg 0 2) (c.arg 2 1) = .filtered → AnswersOk (.logWrite c) c 0x0E01 s (le 8 0 ++ le 4 2))
  ∧ (∀ (c : Acs) (s : State), Accepts s c 0x0E02 inServing → c.args.length = 0 → ∃ p, AnswersOk (.logStatus c) c 0x0E02 s p ∧ p.length = 88
    ∧ slice p 0 4 = le 4 s.logStatusReg ∧ slice p 8 8 = le 8 s.log.nextSeq)
  ∧ (∀ (c : Acs) (s : State), Accepts s c 0x0E03 inServing → c.args.length = 4 → c.arg 0 1 ≤ 3 → c.nonZero 1 3 = false
    → Answers (.logClear c) s (fun t => t.log.low = (if bit (c.arg 0 1) 0 then s.log.low.cleared else s.log.low)
    ∧ t.log.high = (if bit (c.arg 0 1) 1 then s.log.high.cleared else s.log.high) ∧ t.log.seald = s.log.seald ∧ t.log.lastWords = s.log.lastWords
    ∧ t.log.seqFloor = s.log.nextSeq ∧ t.sec = s.sec))
  ∧ (∀ (c : Acs) (s : State), Accepts s c 0x0E03 inServing → c.args.length = 4 → 4 ≤ c.arg 0 1 → c.arg 0 1 ≤ 15 → c.nonZero 1 3 = false
    → s.node.state = .ready → s.authOk c.mbx 0x0E03 = true → (bit (c.arg 0 1) 3 = true → s.log.mediaFault = false)
    → Answers (.logClear c) s (fun t => t.log.seald = (if bit (c.arg 0 1) 2 then s.log.seald.cleared else s.log.seald)
    ∧ t.log.lastWords = (if bit (c.arg 0 1) 3 then [] else s.log.lastWords) ∧ t.log.seqFloor = s.log.nextSeq
    ∧ t.sec.auths.length + 1 = s.sec.auths.length))
  ∧ (∀ (c : Acs) (s : State), Accepts s c 0x0E04 [.ready] → c.args.length = 4 → c.arg 0 1 = 1 → c.arg 1 1 ≤ 1 → c.nonZero 2 2 = false
    → (if c.arg 1 1 = 0 then s.log.degraded0 = true ∧ s.log.degraded1 = false else s.log.degraded0 = false ∧ s.log.degraded1 = true)
    → Answers (.logMedia c true) s (fun t => t.log.degraded0 = false ∧ t.log.degraded1 = false
    ∧ (∀ e ∈ t.log.low.slots ++ t.log.high.slots ++ t.log.seald.slots, e.2.die0 = e.2.die1)
    ∧ (if c.arg 1 1 = 0 then t.tack.bank0.die0 = s.tack.bank0.die1 else t.tack.bank0.die1 = s.tack.bank0.die0)
    ∧ (if c.arg 1 1 = 0 then t.tack.bank1.die0 = s.tack.bank1.die1 else t.tack.bank1.die1 = s.tack.bank1.die0) ∧ t.node.lost.getLsbD 2 = false))

/-! ## Ports -/

/-- A link that comes up on an enabled port at one of its rates is counted, recorded as up with its rate and raised; on a backbone port LINK_DEBOUNCE
starts while the Hitch process runs; MAC merge is disabled, unverified or being verified with its first verify frame as the port's parameters say; no
other port's MAC changes. A wake port's link in STABLED wakes the node. A lost link is recorded as down with rate 0xFF and ends pause and XOFF; a
backbone port has no neighbour, no admission and no supervision any more, a consist port no queued frame and no learned address. When LINK_DEBOUNCE
ends, hitch frames and their supervision begin. -/
def Obligations.PortLinks : Prop :=
  (∀ (port : Nat) (rate : Nat) (s : State), Inv s → s.alive = true → port < 15 → s.portOn port = true → (s.mac port).link = false
    → rateOk port rate = true → s.node.state ≠ .stabled → Answers (.linkUp port rate) s (fun t => (t.mac port).link = true
    ∧ (t.mac port).rate = rate ∧ (t.mac port).changes = min 0xFFFFFFFF ((s.mac port).changes + 1) ∧ (t.mac port).linkTick = s.now
    ∧ (t.mac port).debounce = (if port < 4 ∧ s.hitchOn = true then true else (s.mac port).debounce)
    ∧ (t.mac port).mm = (if port = 14 ∨ (s.macCfg port).mmEnable = false then .disabled else if (s.macCfg port).mmVerify = false then .unverified
      else .verifying)
    ∧ ((t.mac port).mm = .verifying → (t.mac port).attempts = 1) ∧ (∀ k, k ≠ port → t.mac k = s.mac k) ∧ (t.cause .port).cause.getLsbD 0 = true
    ∧ t.node = s.node))
  ∧ (∀ (port : Nat) (rate : Nat) (s : State), Inv s → s.alive = true → port < 15 → s.portOn port = true → (s.mac port).link = false
    → rateOk port rate = true → s.node.state = .stabled → s.wakeOnLink port = true → Answers (.linkUp port rate) s (fun t => t.node.state = .ready
    ∧ t.node.prev = .stabled ∧ (t.mac port).link = true))
  ∧ (∀ (port : Nat) (cutOff : Bool) (s : State), Inv s → s.alive = true → port < 4 → (s.mac port).link = true
    → Answers (.linkDown port cutOff) s (fun t => (t.mac port).link = false ∧ (t.mac port).rate = 0xFF ∧ (t.mac port).paused = false
    ∧ (t.mac port).debounce = false ∧ (t.mac port).xoffSent = false ∧ (∀ k, k ≠ port → t.mac k = s.mac k) ∧ (t.hport port).neighbour = none
    ∧ (t.hport port).admitted = false ∧ (t.hport port).live = false ∧ (t.sec_ port).running = false ∧ (t.cause .port).cause.getLsbD 0 = true))
  ∧ (∀ (port : Nat) (cutOff : Bool) (s : State), Inv s → Store.wf [] s.sw.queues = true → s.alive = true → 4 ≤ port → port < 15
    → (s.mac port).link = true → Answers (.linkDown port cutOff) s (fun t => (t.mac port).link = false ∧ (t.mac port).rate = 0xFF
    ∧ (t.mac port).paused = false ∧ (∀ c, c < 8 → t.queue port c = []) ∧ (∀ e ∈ t.sw.fdb, e.dest = port → e.static = true) ∧ (∀ k, k ≠ port
    → t.mac k = s.mac k) ∧ (t.cause .port).cause.getLsbD 0 = true ∧ t.hitch = s.hitch ∧ t.node = s.node))
  ∧ (∀ (port : Nat) (s : State), Inv s → s.alive = true → port < 4 → (s.mac port).debounce = true → (s.mac port).link = true → s.hitchOn = true
    → Answers (.linkDebounceExpiry port) s (fun t => (t.mac port).debounce = false ∧ (t.mac port).link = true ∧ (t.hport port).live = true
    ∧ (t.hport port).missedRun = 0 ∧ (t.sec_ port).running = (decide (s.macsecMode port ≠ 0) && (s.param? 7 1 port).isSome) ∧ t.node = s.node))

/-- A pause frame on a port that honours it and is in no hold-off pauses the port for its quanta, or with 0 ends the pause; on one that does not, or
in hold-off, no MAC changes. The pause time's end leaves the paused state. Pause that has lasted PAUSE_WD_LIMIT ends, is counted and raised, and the
hold-off begins; the hold-off's end clears it. While the cells exceed XON, XOFF is repeated; below, XON is sent. A verify frame is answered with a
respond frame where the port forwards. A respond frame while verifying ends it SUCCEEDED. When VERIFY_TIME expires another verify frame goes, or after
VERIFY_LIMIT verification has FAILED. -/
def Obligations.PauseAndMerge : Prop :=
  (∀ (port : Nat) (quanta : Nat) (sa : Mac) (s : State), Inv s → s.alive = true → port < 15 → s.portUp port = true → (s.macCfg port).pauseRx = true
    → (s.mac port).holdTo = none → quanta ≠ 0 → Answers (.pauseFrameReceive port quanta sa) s (fun t => (t.mac port).paused = true
    ∧ (t.mac port).pauseTo = s.now + s.quantaTicks port quanta ∧ (t.mac port).pauseSa = sa ∧ (t.mac port).link = true
    ∧ Store.get 0 t.stats.count (statPort port 9) = min (Store.get 0 s.stats.count (statPort port 9) + 1) statMax ∧ (∀ k, k ≠ port
    → t.mac k = s.mac k) ∧ Only [.macs, .causes, .host, .out, .stats] s t))
  ∧ (∀ (port : Nat) (sa : Mac) (s : State), Inv s → s.alive = true → port < 15 → s.portUp port = true → (s.macCfg port).pauseRx = true
    → (s.mac port).holdTo = none → Answers (.pauseFrameReceive port 0 sa) s (fun t => (t.mac port).paused = false ∧ (t.mac port).pauseSa = sa
    ∧ (∀ k, k ≠ port → t.mac k = s.mac k)))
  ∧ (∀ (port : Nat) (quanta : Nat) (sa : Mac) (s : State), s.alive = true → port < 15
    → ((s.macCfg port).pauseRx = false ∨ (s.mac port).holdTo ≠ none) → Answers (.pauseFrameReceive port quanta sa) s (fun t => t.macs = s.macs))
  ∧ (∀ (port : Nat) (s : State), Inv s → s.alive = true → port < 15 → (s.mac port).paused = true
    → Answers (.pauseExpiry port) s (fun t => (t.mac port).paused = false ∧ (t.mac port).pauseEnd = s.now ∧ (∀ k, k ≠ port → t.mac k = s.mac k)
    ∧ Only [.macs, .causes, .host, .out, .stats] s t))
  ∧ (∀ (port : Nat) (s : State), Inv s → s.alive = true → port < 15 → s.pauseMeasured port = true
    → Answers (.pauseWatchdog port) s (fun t => (t.mac port).paused = false ∧ (t.mac port).pauseFrom = none
    ∧ (t.mac port).holdTo = some (s.now + (s.macCfg port).wdHold * 100 * ticksPerMs)
    ∧ Store.get 0 t.stats.count (statPort port 24) = min (Store.get 0 s.stats.count (statPort port 24) + 1) statMax
    ∧ (t.cause .port).cause.getLsbD 1 = true ∧ (∀ k, k ≠ port → t.mac k = s.mac k)))
  ∧ (∀ (port : Nat) (s : State), Inv s → s.alive = true → port < 15
    → Answers (.pauseHoldoffExpiry port) s (fun t => t.mac port = { s.mac port with holdTo := none, pauseFrom := none } ∧ (∀ k, k ≠ port
    → t.mac k = s.mac k) ∧ Only [.macs] s t))
  ∧ (∀ (port : Nat) (s : State), Inv s → s.alive = true → port < 15 → (s.mac port).xoffSent = true → (s.mac port).link = true
    → cellsOfKib (s.macCfg port).xonKiB < s.occupancy port
    → Answers (.pauseRefresh port) s (fun t => t.out.getLast? = some (.frame port
      { da := 0x0180C2000001#48, sa := s.portMac port, vlan := none, rtag := none, etype := 0x8808 , payload := be 2 1 ++ be 2 0xFFFF ++ zeros 42 }
      false)
    ∧ t.macs = s.macs))
  ∧ (∀ (port : Nat) (s : State), Inv s → s.alive = true → port < 15 → (s.mac port).xoffSent = true → (s.mac port).link = true
    → (s.macCfg port).pauseTx = true → s.occupancy port ≤ cellsOfKib (s.macCfg port).xonKiB
    → Answers (.pauseRefresh port) s (fun t => t.out.getLast? = some (.frame port
      { da := 0x0180C2000001#48, sa := s.portMac port, vlan := none, rtag := none, etype := 0x8808 , payload := be 2 1 ++ be 2 0 ++ zeros 42 } false)
    ∧ t.mac port = { s.mac port with xoffSent := false }))
  ∧ (∀ (port : Nat) (s : State), s.alive = true → port < 14 → s.switches port = true → s.portUp port = true
    → Answers (.verifyFrameReceive port) s (fun t => t = { s with out := s.out ++ [.merge port true] }))
  ∧ (∀ (port : Nat) (s : State), Inv s → s.alive = true → port < 14 → s.portUp port = true → (s.mac port).mm = .verifying
    → Answers (.respondFrameReceive port) s (fun t => t.mac port = { s.mac port with mm := .succeeded } ∧ (t.cause .port).cause.getLsbD 2 = true
    ∧ (∀ k, k ≠ port → t.mac k = s.mac k)))
  ∧ (∀ (port : Nat) (s : State), Inv s → s.alive = true → port < 14 → (s.mac port).mm = .verifying → (s.mac port).attempts < s.verifyLimit port
    → Answers (.verifyTimeExpiry port) s (fun t => t.mac port = { s.mac port with attempts := (s.mac port).attempts + 1 } ∧ (s.switches port = true
    → s.portUp port = true → t.out = s.out ++ [.merge port false]) ∧ (∀ k, k ≠ port → t.mac k = s.mac k) ∧ Only [.macs, .out] s t))
  ∧ (∀ (port : Nat) (s : State), Inv s → s.alive = true → port < 14 → (s.mac port).mm = .verifying → s.verifyLimit port ≤ (s.mac port).attempts
    → Answers (.verifyTimeExpiry port) s (fun t => t.mac port = { s.mac port with mm := .failed }
    ∧ Store.get 0 t.stats.count (statPort port 26) = min (Store.get 0 s.stats.count (statPort port 26) + 1) statMax
    ∧ (t.cause .port).cause.getLsbD 2 = true))

/-- With MKA running on a backbone port, a live peer makes the state at least 1 with the peer's SCI and role; an SA in use makes it 2 with its AN and
key number, its packet number and its counts begun anew, and is raised. The hello timer, and the rekey timer of the key server, queue one MKA frame in
TC7 where it is admitted. The lifetime's end removes the SA. PORT_MAC_STATUS and PORT_WAKE_READ answer OK with what the MAC holds. PORT_MAC_SET within
the ranges makes its parameters those in force on its port and PORT_WAKE_SET its patterns, with the match counts at 0; no other port changes. -/
def Obligations.MkaAndPortCommands : Prop :=
  (∀ (port : Nat) (sci : Dword) (server : Bool) (s : State), Inv s → s.alive = true → port < 4 → s.portUp port = true → (s.sec_ port).running = true
    → Answers (.mkaFrameReceive port (.peerLive sci server)) s (fun t => t.sec_ port =
      { s.sec_ port with st := max 1 (s.sec_ port).st, peerSci := sci, server := server }
    ∧ (∀ k, k ≠ port → t.sec_ k = s.sec_ k) ∧ Only [.sw] s t))
  ∧ (∀ (port : Nat) (an : Nat) (kn : Nat) (s : State), Inv s → s.alive = true → port < 4 → s.portUp port = true → (s.sec_ port).running = true
    → Answers (.mkaFrameReceive port (.saInUse an kn)) s (fun t => t.sec_ port =
      { s.sec_ port with st := 2, an := an % 4, kn := kn, txPn := 1, icvFail := 0, replay := 0, fails := 0 }
    ∧ (t.cause .harness).cause.getLsbD 6 = true ∧ (∀ k, k ≠ port → t.sec_ k = s.sec_ k)))
  ∧ (∀ (port : Nat) (s : State), s.alive = true → port < 4 → s.portUp port = true → (s.sec_ port).running = true
    → Answers (.mkaHelloTimer port) s (fun t => t.queue port 7 = s.queue port 7 ++ (if s.admits port 7 (s.mkQ (s.mkaFrame port) .groom).cells then
      [s.mkQ (s.mkaFrame port) .groom] else [])
    ∧ t.freeIdx = s.freeIdx + 1 ∧ t.sw.macsec = s.sw.macsec))
  ∧ (∀ (port : Nat) (s : State), Inv s → s.alive = true → port < 4 → (s.sec_ port).running = true
    → Answers (.mkaLifetimeExpiry port) s (fun t => (t.sec_ port).st = 0 ∧ (t.sec_ port).txPn = 0 ∧ t.saInUse port = false ∧ (s.saInUse port = true
    → (t.cause .harness).cause.getLsbD 6 = true) ∧ (∀ k, k ≠ port → t.sec_ k = s.sec_ k)))
  ∧ (∀ (port : Nat) (s : State), s.alive = true → port < 4 → s.portUp port = true → s.saInUse port = true → (s.sec_ port).server = true
    → Answers (.sakRekeyTimer port) s (fun t => t.queue port 7 = s.queue port 7 ++ (if s.admits port 7 (s.mkQ (s.mkaFrame port) .groom).cells then
      [s.mkQ (s.mkaFrame port) .groom] else [])
    ∧ t.freeIdx = s.freeIdx + 1))
  ∧ (∀ (c : Acs) (s : State), Accepts s c 0x0510 inServing → c.args.length = 4 → c.arg 0 1 ≤ 14 → c.nonZero 1 3 = false
    → ∃ p, AnswersOk (.portMacStatus c) c 0x0510 s p ∧ p.length = 32
    ∧ p.take 3 = [byte (b01 (s.mac (c.arg 0 1)).link), byte (s.mac (c.arg 0 1)).rate , byte (s.mac (c.arg 0 1)).mm.code]
    ∧ slice p 12 4 = le 4 (s.mac (c.arg 0 1)).changes)
  ∧ (∀ (c : Acs) (s : State), Inv s → Accepts s c 0x0511 inLineStates → c.args.length = 24 → c.arg 0 1 ≤ 14 → c.arg 1 1 < 32
    → c.nonZero 16 8 = false → (macCfgOf c.args).ok (c.arg 0 1) = true
    → Answers (.portMacSet c) s (fun t => (t.mac (c.arg 0 1)).cfg = some (macCfgOf c.args) ∧ (t.mac (c.arg 0 1)).link = (s.mac (c.arg 0 1)).link
    ∧ (t.mac (c.arg 0 1)).wake = (s.mac (c.arg 0 1)).wake ∧ (∀ k, k ≠ c.arg 0 1 → t.mac k = s.mac k) ∧ t.node = s.node))
  ∧ (∀ (c : Acs) (s : State), Inv s → Accepts s c 0x0512 inLineStates → c.args.length = 4 + 24 * c.arg 2 1 → c.arg 0 1 ≤ 14 → 1 ≤ c.arg 2 1
    → c.arg 1 1 + c.arg 2 1 ≤ 16 → c.nonZero 3 1 = false → ((List.range (c.arg 2 1)).map (fun k => slice c.args (4 + 24 * k) 24)).all wakeOk = true
    → Answers (.portWakeSet c) s (fun t => (t.mac (c.arg 0 1)).wake = (s.mac (c.arg 0 1)).wake.take (c.arg 1 1) ++ (List.range (c.arg 2 1)).map (fun
      k => wakeOf (slice c.args (4 + 24 * k) 24)) ++ (s.mac (c.arg 0 1)).wake.drop (c.arg 1 1 + c.arg 2 1)
    ∧ (t.mac (c.arg 0 1)).wakeHits = List.replicate 16 0 ∧ (∀ k, k ≠ c.arg 0 1 → t.mac k = s.mac k) ∧ Only (.macs :: answerParts) s t))
  ∧ (∀ (c : Acs) (s : State), Accepts s c 0x0513 inServing → c.args.length = 4 → c.arg 0 1 ≤ 14 → c.nonZero 1 3 = false
    → AnswersOk (.portWakeRead c) c 0x0513 s (((s.mac (c.arg 0 1)).wake.map WakePat.bytes).flatten ++ ((s.mac (c.arg 0 1)).wakeHits.map (le
      4)).flatten))

/-! ## The Harness switch -/

/-- A faulty frame of 64 bytes or more that has not gone on is counted and changes nothing but counters. A good frame of a consist port whose
classification, address and filters leave one consist or service port as its egress, which admits it and has no gate list, joins that port's queue of
its class, retagged, and no other queue changes. The frame at the head of a queue that has been sent is put out and the queue goes on. A parity error
removes the frame at the head, counts and raises it, and stomps it where it had begun to leave; a third error of a cell within 1 s retires the cell,
and the 65th retired cell loses resource 6. Ageing removes exactly the learned entry. A launched ring frame in time goes to the head of its class
queue; a late one without LATE is dropped and counted. -/
def Obligations.SwitchFrames : Prop :=
  (∀ (port : Nat) (rx : RxFrame) (s : State), s.alive = true → port < 15 → s.portUp port = true → rx.fifoLost = false → rx.smdError = false
    → rx.asmError = false → 64 ≤ rx.len → (rx.fcsOk = false ∨ rx.codeErr = true) → rx.cut = false → rx.dma = false
    → Answers (.frameReceive port rx) s (fun t => (rx.fcsOk = false
    → Store.get 0 t.stats.count (statPort port 5) = min (Store.get 0 s.stats.count (statPort port 5) + 1) statMax) ∧ (rx.codeErr = true
    → Store.get 0 t.stats.count (statPort port 6) = min (Store.get 0 s.stats.count (statPort port 6) + 1) statMax)
    ∧ Only [.stats, .causes, .host, .out] s t))
  ∧ (∀ (port : Nat) (rx : RxFrame) (vid : Nat) (pcp : Nat) (tagged : Bool) (q : Nat) (s : State), Inv s → s.alive = true → 4 ≤ port → port < 15
    → s.portUp port = true → s.node.state.inLine = true → rx.fifoLost = false → rx.smdError = false → rx.asmError = false → rx.codeErr = false
    → rx.fcsOk = true → 64 ≤ rx.len → rx.len ≤ s.maxFrame port → rx.tableErr = none → linkLocal rx.frame.da = false
    → s.sw.noFwd.getLsbD port = false → s.classify port none rx.frame = some (vid, pcp, tagged) → s.identify port vid rx.frame = {}
    → s.filterFor none pcp = none → (learn port vid rx.frame s).egressSet port vid none none rx.frame.da = ([.port q], 0) → q < 15
    → s.admits q (s.classOf pcp) ((rx.len + 255) / 256) = true → (s.gate q).oper = none
    → Answers (.frameReceive port rx) s (fun t => (t.queue q (s.classOf pcp)).map QFrame.frame = (s.queue q (s.classOf pcp)).map QFrame.frame ++
      [s.tagFor q vid pcp ((rx.frame.vlan.map VlanTag.dei).getD false) true rx.frame]
    ∧ (∀ i j, i * 8 + j ≠ q * 8 + s.classOf pcp → t.queue i j = s.queue i j) ∧ t.node = s.node))
  ∧ (∀ (port : Nat) (cls : Nat) (stamp : Stamp) (frags : Nat) (q : QFrame) (rest : List QFrame) (s : State), Inv s → Store.wf [] s.sw.queues = true
    → s.alive = true → port < 15 → cls < 8 → s.portUp port = true → s.queue port cls = q :: rest → s.closed port q.frame = false
    → (s.gate port).oper = none → Answers (.frameTransmitDone port cls stamp frags) s (fun t => rest <+: t.queue port cls
    ∧ (t.queue port cls).length ≤ rest.length + 1 ∧ (s.saInUse port = false → t.queue port cls = rest) ∧ Output.frame port q.frame false ∈ t.out
    ∧ t.node = s.node))
  ∧ (∀ (port : Nat) (cls : Nat) (cell : Nat) (later : Bool) (q : QFrame) (rest : List QFrame) (s : State), Inv s → Store.wf [] s.sw.queues = true
    → s.alive = true → port < 15 → cls < 8 → s.queue port cls = q :: rest → q.frer = none → (s.gate port).oper = none → s.sw.retired.length < 64
    → Answers (.cellParityError port cls cell later) s (fun t => t.queue port cls = rest
    ∧ Store.get 0 t.stats.count (statPort port 43) = min (Store.get 0 s.stats.count (statPort port 43) + 1) statMax
    ∧ (t.cause .harness).cause.getLsbD 0 = true ∧ (later = true → Output.frame port q.frame true ∈ t.out)))
  ∧ (∀ (port : Nat) (cls : Nat) (cell : Nat) (later : Bool) (q : QFrame) (rest : List QFrame) (s : State), Inv s → s.alive = true → port < 15
    → cls < 8 → s.queue port cls = q :: rest → cell ∉ s.sw.retired → 2 ≤ (Store.get {} s.sw.cellErrs cell).count
    → s.now ≤ (Store.get {} s.sw.cellErrs cell).first + ticksPerSec → Answers (.cellParityError port cls cell later) s (fun t => cell ∈ t.sw.retired
    ∧ (t.cause .harness).cause.getLsbD 7 = true ∧ (64 ≤ s.sw.retired.length → t.node.lost.getLsbD 6 = true)))
  ∧ (∀ (mac : Mac) (vid : Nat) (s : State), s.alive = true → s.ageTime ≠ 0
    → Answers (.addressAgeOut mac vid) s (fun t => t.sw.fdb = s.sw.fdb.filter (fun e => e.static || !(decide (e.mac = mac) && e.vid = vid))
    ∧ t.sw.queues = s.sw.queues ∧ Only [.sw] s t))
  ∧ (∀ (n : Nat) (lateNs : Nat) (x : Nat × QFrame) (s : State), Inv s → s.alive = true → (s.node.state.inLine = true ∨ s.node.state = .held) → n < 8
    → firstLaunch (s.txRing n).launch = some x → lateNs ≤ s.lateTolUs * 1000 → s.portUp (x.1 / 8) = true
    → s.admits (x.1 / 8) (x.1 % 8) x.2.cells = true → (s.gate (x.1 / 8)).oper = none
    → Answers (.launchTimeReached false n lateNs) s (fun t => t.queue (x.1 / 8) (x.1 % 8) = { x.2 with late := false } :: s.queue (x.1 / 8) (x.1 % 8)
    ∧ (t.txRing n).launch = (s.txRing n).launch.erase x ∧ Only [.sw, .tx] s t))
  ∧ (∀ (n : Nat) (lateNs : Nat) (x : Nat × QFrame) (s : State), Inv s → s.alive = true → (s.node.state.inLine = true ∨ s.node.state = .held) → n < 8
    → firstLaunch (s.txRing n).launch = some x → s.lateTolUs * 1000 < lateNs → (s.txRing n).late = false
    → Answers (.launchTimeReached false n lateNs) s (fun t => (t.txRing n).launch = (s.txRing n).launch.erase x
    ∧ Store.get 0 t.stats.count (statPort (x.1 / 8) 49) = min (Store.get 0 s.stats.count (statPort (x.1 / 8) 49) + 1) statMax
    ∧ t.sw.queues = s.sw.queues))

/-- A held copy whose 2 ms have passed leaves its slot. RESET_TIME without a passed frame makes a context fresh, its history and armed slots empty.
The end of a latent period moves the counts of the period and marks a line silent after at least four frames from the other alone. A gate event begins
the next entry of the list in force, or its first after a step of train time. A config change puts the pending list, or none, in force at its first
entry. A reload gives a VLAN entry what the tack image holds and ends. -/
def Obligations.SwitchTimers : Prop :=
  (∀ (ctx : Nat) (seq : Nat) (s : State), Store.wf {} s.sw.frer = true
    → Answers (.frerHoldExpiry ctx seq) s (fun t => (t.frer ctx).live = (s.frer ctx).live.map (fun p => if p.seq = seq then
      { p with held := p.held.drop 1 } else p)
    ∧ (t.frer ctx).hist = (s.frer ctx).hist ∧ (t.frer ctx).passed = (s.frer ctx).passed ∧ (∀ k, k ≠ ctx → t.frer k = s.frer k) ∧ Only [.sw] s t))
  ∧ (∀ (ctx : Nat) (s : State), (s.frer ctx).fresh = false → Answers (.frerResetTimerExpiry ctx) s (fun t => (t.frer ctx).fresh = true
    ∧ (t.frer ctx).hist = [] ∧ (t.frer ctx).armed = [] ∧ (t.frer ctx).resets = satAdd (s.frer ctx).resets 1
    ∧ (t.frer ctx).passed = (s.frer ctx).passed ∧ (∀ k, k ≠ ctx → t.frer k = s.frer k) ∧ t.node = s.node))
  ∧ (∀ (ctx : Nat) (s : State), s.node.state.inLine = true → (s.ctx? ctx).elim false (fun c => c.role = 2 && c.replicates) = true
    → Store.wf {} s.sw.frer = true → Answers (.frerLatentPeriodEnd ctx) s (fun t => (t.frer ctx).fromA = (s.frer ctx).curA
    ∧ (t.frer ctx).fromB = (s.frer ctx).curB ∧ (t.frer ctx).curA = 0 ∧ (t.frer ctx).curB = 0
    ∧ (t.frer ctx).silentA = (if 0 < (s.frer ctx).curA then false else if 4 ≤ (s.frer ctx).curA + (s.frer ctx).curB then true else (s.frer
      ctx).silentA)
    ∧ (t.frer ctx).silentB = (if 0 < (s.frer ctx).curB then false else if 4 ≤ (s.frer ctx).curA + (s.frer ctx).curB then true else (s.frer
      ctx).silentB)
    ∧ ((t.frer ctx).silentA ≠ (s.frer ctx).silentA → (t.cause .harness).cause.getLsbD 4 = true) ∧ ((t.frer ctx).silentB ≠ (s.frer ctx).silentB
    → (t.cause .harness).cause.getLsbD 4 = true)))
  ∧ (∀ (port : Nat) (g : GateList) (s : State), Inv s → s.alive = true → port < 15 → (s.gate port).oper = some g
    → s.sw.reloads.any (fun r => r.1 = 3 && r.2.1 = port) = false
    → Answers (.gateEvent port false) s (fun t => (t.gate port).cur = (if (s.gate port).rephase then 0 else ((s.gate port).cur + 1) % max 1
      g.spans.length)
    ∧ (t.gate port).states = gateMask (g.entries.getD (if (s.gate port).rephase then 0 else ((s.gate port).cur + 1) % max 1 g.spans.length) 0)
    ∧ (t.gate port).rephase = false ∧ (t.gate port).oper = some g ∧ (∀ k, k ≠ port → t.gate k = s.gate k) ∧ t.node = s.node))
  ∧ (∀ (port : Nat) (l : Option GateList) (at_ : Nat) (s : State), Inv s → s.alive = true → port < 15 → (s.gate port).pend = some (l, at_)
    → Answers (.gateConfigChange port) s (fun t => (t.gate port).oper = l ∧ (t.gate port).pend = none ∧ (t.gate port).cur = 0
    ∧ (t.gate port).states = (match l with | some g => gateMask (g.entries.getD 0 0) | none => 0xFF) ∧ (∀ k, k ≠ port → t.gate k = s.gate k)
    ∧ t.node = s.node))
  ∧ (∀ (table : Nat) (port : Nat) (index : Nat) (s : State), s.alive = true → (table, port, index) ∈ s.sw.reloads
    → Answers (.tableReloadDone table port index) s (fun t => t.sw.reloads = s.sw.reloads.erase (table, port, index) ∧ (∀ b, table = 2
    → (records (s.sectionOf 0x08 0) 8).find? (fun b => (vlanOf b).1 = index) = some b → Store.find t.sw.vlan index = some (vlanOf b).2)
    ∧ t.sw.queues = s.sw.queues ∧ Only [.sw] s t))

/-- PORT_FDB_READ, GATE_STATUS, FRER_STATUS and MACSEC_STATUS answer OK with their blocks. PORT_FDB_WRITE adds its entry in place of the address's own
where its bucket has room, in place of a learned one (which, is left open) where a full bucket holds one, or removes the address's static entry.
PORT_FDB_FLUSH removes exactly the learned entries of the ports and VIDs named. PORT_VLAN_SET, QUOTA_SET, PSFP_SET and FORWARD set what they name and
nothing else of the switch. PORT_GATE_SET lets its list wait for its config change time, the list in force unchanged. -/
def Obligations.SwitchCommands : Prop :=
  (∀ (c : Acs) (s : State), Accepts s c 0x0500 inServing → c.args.length = 8 → c.nonZero 6 2 = false → 1 ≤ c.arg 4 2 → c.arg 4 2 ≤ 250
    → ∃ p, AnswersOk (.portFdbRead c) c 0x0500 s p ∧ p.length = 8 + 16 * min (c.arg 4 2) (s.sw.fdb.length - c.arg 0 4)
    ∧ slice p 4 4 = le 4 (min (c.arg 4 2) (s.sw.fdb.length - c.arg 0 4)))
  ∧ (∀ (c : Acs) (s : State), Accepts s c 0x0501 inLineStates → c.args.length = 20 → fdbArgsOk c = true → c.arg 0 1 = 0
    → ((s.bucketOf (fdbOf (slice c.args 4 16) s.now).mac (fdbOf (slice c.args 4 16) s.now).vid).filter (fun x => !(decide (x.mac = (fdbOf (slice
      c.args 4 16) s.now).mac) && x.vid = (fdbOf (slice c.args 4 16) s.now).vid))).length < 4
    → Answers (.portFdbWrite c) s (fun t => t.sw.fdb = s.sw.fdb.filter (fun x => !(decide (x.mac = (fdbOf (slice c.args 4 16) s.now).mac) && x.vid =
      (fdbOf (slice c.args 4 16) s.now).vid)) ++ [fdbOf (slice c.args 4 16) s.now]
    ∧ t.sw.queues = s.sw.queues ∧ Only (.sw :: answerParts) s t))
  ∧ (∀ (c : Acs) (s : State), Accepts s c 0x0501 inLineStates → c.args.length = 20 → fdbArgsOk c = true → c.arg 0 1 = 1
    → Answers (.portFdbWrite c) s (fun t => t.sw.fdb = s.sw.fdb.filter (fun x => !((decide (x.mac = (fdbOf (slice c.args 4 16) s.now).mac) && x.vid
      = (fdbOf (slice c.args 4 16) s.now).vid) && x.static))
    ∧ Only (.sw :: answerParts) s t))
  ∧ (∀ (c : Acs) (s : State), Accepts s c 0x0502 inLineStates → c.args.length = 4 → (c.arg 2 2 < 4096 ∨ c.arg 2 2 = 0xFFFF)
    → Answers (.portFdbFlush c) s (fun t => t.sw.fdb = s.sw.fdb.filter (fun e => e.static || !((c.arg 0 2 &&& destMask e.dest) ≠ 0 && (c.arg 2 2 =
      0xFFFF || e.vid = c.arg 2 2)))
    ∧ t.sw.queues = s.sw.queues ∧ Only (.sw :: answerParts) s t))
  ∧ (∀ (c : Acs) (s : State), Accepts s c 0x0503 inLineStates → c.args.length = 8 → c.arg 0 2 < 4096 → c.nonZero 6 2 = false
    → Answers (.portVlanSet c) s (fun t => t.vlanRow (c.arg 0 2) = { member := BitVec.ofNat 16 (c.arg 2 2), untag := BitVec.ofNat 16 (c.arg 4 2) }
    ∧ (∀ v, v ≠ c.arg 0 2 → t.vlanRow v = s.vlanRow v) ∧ t.sw.fdb = s.sw.fdb ∧ Only (.sw :: answerParts) s t))
  ∧ (∀ (c : Acs) (s : State), Inv s → Accepts s c 0x0504 inLineStates → c.args.length = 32 + 4 * c.arg 2 2 → gateHeaderOk c.args = true
    → (bit (c.arg 1 1) 0 = true ∨ (gateListOf (c.args.take 32) (c.args.drop 32) 0).fault = 0) → BitVec.ofNat 16 (c.arg 24 2) = s.time.epoch
    → Answers (.portGateSet c) s (fun t => (t.gate (c.arg 0 1)).pend.map (fun x => (x.1.isNone, x.2)) = some (bit (c.arg 1 1) 0, (gateListOf
      (c.args.take 32) (c.args.drop 32) 0).cycleFrom (s.trainNow + 1000000 * ttNs))
    ∧ (t.gate (c.arg 0 1)).oper = (s.gate (c.arg 0 1)).oper ∧ (∀ k, k ≠ c.arg 0 1 → t.gate k = s.gate k) ∧ Only (.sw :: answerParts) s t))
  ∧ (∀ (c : Acs) (s : State), Accepts s c 0x0505 inServing → c.args.length = 4 → c.arg 0 1 ≤ 14 → c.nonZero 1 3 = false
    → ∃ p, AnswersOk (.portGateStatus c) c 0x0505 s p ∧ p.length = (if (s.gate (c.arg 0 1)).pend = none then 48 else 96))
  ∧ (∀ (c : Acs) (s : State), Accepts s c 0x0506 inLineStates → c.args.length = 12 → c.arg 0 1 ≤ 15 → c.arg 1 1 ≤ 7 → c.nonZero 2 2 = false
    → s.quotaOk (c.arg 0 1) (c.arg 1 1) { reserve := c.arg 4 4, quota := c.arg 8 4 } = true
    → Answers (.portQuotaSet c) s (fun t => t.quotaOf (c.arg 0 1) (c.arg 1 1) = { reserve := c.arg 4 4, quota := c.arg 8 4 }
    ∧ (∀ i j, i * 8 + j ≠ c.arg 0 1 * 8 + c.arg 1 1 → t.quotaOf i j = s.quotaOf i j) ∧ t.sw.queues = s.sw.queues ∧ Only (.sw :: answerParts) s t))
  ∧ (∀ (c : Acs) (s : State), Accepts s c 0x0507 inLineStates → c.args.length = 28 → psfpOk c.args = true
    → Answers (.portPsfpSet c) s (fun t => (c.arg 0 1 = 0 → Store.find t.sw.filters (c.arg 2 2) = some (filterOf (c.args.drop 4))
    ∧ t.sw.meters = s.sw.meters) ∧ (c.arg 0 1 = 1 → Store.find t.sw.meters (c.arg 2 2) = some (meterOf (c.args.drop 4))
    ∧ t.sw.filters = s.sw.filters) ∧ (c.arg 0 1 = 2 → t.sw.filters = Store.upd s.sw.filters (c.arg 2 2) (fun f => { f with blocked := false })
    ∧ t.sw.meters = s.sw.meters) ∧ t.sw.fdb = s.sw.fdb ∧ Only (.sw :: answerParts) s t))
  ∧ (∀ (c : Acs) (s : State), Accepts s c 0x0508 inServing → c.args.length = 4 → c.arg 0 2 ≤ 2047 → c.nonZero 2 2 = false
    → ∃ p, AnswersOk (.portFrerStatus c) c 0x0508 s p ∧ p.length = 40)
  ∧ (∀ (c : Acs) (s : State), Accepts s c 0x0509 inServing → c.args.length = 4 → c.arg 0 1 ≤ 3 → c.nonZero 1 3 = false
    → ∃ p, AnswersOk (.portMacsecStatus c) c 0x0509 s p ∧ p.length = 32
    ∧ p.take 2 = [byte (s.macsecMode (c.arg 0 1)), byte (s.sec_ (c.arg 0 1)).st])
  ∧ (∀ (c : Acs) (s : State), Accepts s c 0x050A inLineStates → c.args.length = 4 → c.arg 0 2 &&& 0x800F = 0 → c.arg 2 1 ≤ 1 → c.nonZero 3 1 = false
    → Answers (.portForward c) s (fun t => t.sw.noFwd = (if c.arg 2 1 = 1 then s.sw.noFwd &&& ~~~ (BitVec.ofNat 16 (c.arg 0 2)) else s.sw.noFwd |||
      BitVec.ofNat 16 (c.arg 0 2))
    ∧ t.sw.fdb = s.sw.fdb ∧ t.sw.queues = s.sw.queues ∧ t.node = s.node))

/-! ## The Time Unit -/

/-- On a node of one chip with no change under way, the first Sync of a FREE domain locks it and moves its OFFSET by the offset measured; the selected
domain takes a new epoch. A small offset of a LOCKED domain leaves it LOCKED, its anchor now and its RATE within 500 ppm of nominal (which, is left
open); a large one puts it into STEP_WAIT with the offset as candidate. SYNC_TIMEOUT puts it into HOLDOVER. An announce makes the elected grandmaster
the domain's. A sync interval moves the corrections of the selected domain and applies a step that falls due. Announces and peer delay messages use
one free value for each frame. The slew's end, the backup counter's write and a change whose tick has come do what they say. -/
def Obligations.TimeDomains : Prop :=
  (∀ (dom : Nat) (line : Line) (offset : Int) (s : State), dom ≤ 1 → s.gptp = true → s.node.form = .simplex → s.time.changes = []
    → s.hitch.switching = false → (s.time.dom dom).st = .free → (line = .a ∨ (s.time.dom dom).lastA = none)
    → Answers (.syncReceive dom line offset) s (fun t => (t.time.dom dom).st = .locked ∧ (t.time.dom dom).offset = (s.time.dom dom).offset + offset
    ∧ (t.time.dom dom).lastOff = offset ∧ (t.time.dom dom).lastSync = s.now ∧ (t.time.dom dom).line = line
    ∧ t.time.epoch = (if s.time.sel = dom then s.time.epoch + 1 else s.time.epoch) ∧ t.time.fc = s.time.fc ∧ t.node = s.node))
  ∧ (∀ (dom : Nat) (line : Line) (offset : Int) (s : State), dom ≤ 1 → s.gptp = true → s.node.form = .simplex → s.time.changes = []
    → (s.time.dom dom).st = .locked → (line = .a ∨ (s.time.dom dom).lastA = none) → -s.stepThreshold ≤ offset → offset ≤ s.stepThreshold
    → Answers (.syncReceive dom line offset) s (fun t => (t.time.dom dom).st = .locked ∧ (t.time.dom dom).anchor = s.now
    ∧ minRate ≤ (t.time.dom dom).rate ∧ (t.time.dom dom).rate ≤ maxRate ∧ t.time.epoch = s.time.epoch ∧ t.freeIdx = s.freeIdx + 1))
  ∧ (∀ (dom : Nat) (line : Line) (offset : Int) (s : State), dom ≤ 1 → s.gptp = true → s.node.form = .simplex → s.time.changes = []
    → (s.time.dom dom).st = .locked → (line = .a ∨ (s.time.dom dom).lastA = none) → (offset < -s.stepThreshold ∨ s.stepThreshold < offset)
    → Answers (.syncReceive dom line offset) s (fun t => (t.time.dom dom).st = .stepWait ∧ (t.time.dom dom).cand = offset
    ∧ (t.time.dom dom).count = 1 ∧ (t.time.dom dom).offset = (s.time.dom dom).offset ∧ (t.cause .time).cause.getLsbD 1 = true))
  ∧ (∀ (dom : Nat) (s : State), dom ≤ 1 → s.gptp = true → ((s.time.dom dom).st = .locked ∨ (s.time.dom dom).st = .stepWait) → s.node.form = .simplex
    → Answers (.syncTimeout dom) s (fun t => (t.time.dom dom).st = .holdover ∧ (t.time.dom dom).count = 0 ∧ (t.cause .time).cause.getLsbD 0 = true
    ∧ t.node = s.node))
  ∧ (∀ (dom : Nat) (gm : Nid) (own : Bool) (s : State), dom ≤ 1 → s.gptp = true → (s.time.dom dom).st ≠ .disabled → (own = true
    → s.gmCapable dom = true) → Answers (.announceReceive dom gm own) s (fun t => (t.time.dom dom).gmId = (if own then s.node.nid else gm)
    ∧ (t.time.dom dom).isGm = own ∧ (t.time.dom dom).st = (s.time.dom dom).st ∧ t.node = s.node))
  ∧ (∀ (dom : Nat) (port : Nat) (gm : Nid) (own : Bool) (s : State), dom ≤ 1 → s.gptp = true → s.portOn port = true
    → (s.time.dom dom).st ≠ .disabled → (own = true → s.gmCapable dom = true)
    → Answers (.announceTimeout dom port gm own) s (fun t => (t.time.dom dom).gmId = (if own then s.node.nid else gm)
    ∧ (t.time.dom dom).isGm = own))
  ∧ (∀ (dom : Nat) (port : Nat) (s : State), s.gptp = true → (s.time.dom dom).st ≠ .disabled → s.portUp port = true
    → Answers (.announceSend dom [port]) s (fun t => t.queue port 7 = s.queue port 7 ++ (if s.admits port 7 (s.mkQ (s.gptpFrame port) .groom).cells
      then [s.mkQ (s.gptpFrame port) .groom] else [])
    ∧ t.freeIdx = s.freeIdx + 1 ∧ t.time = s.time))
  ∧ (∀ (dom : Nat) (ports : List Nat) (s : State), dom ≤ 1 → s.gptp = true → (s.time.dom dom).st ≠ .disabled → s.time.setSteps = []
    → Answers (.syncIntervalTick dom ports) s (fun t => t.freeIdx = s.freeIdx + 2 * ports.length
    ∧ t.time.links = (if s.time.sel = dom then (moveCorrections s).time.links else s.time.links) ∧ t.time.pri = s.time.pri ∧ t.time.sec = s.time.sec
    ∧ t.node = s.node))
  ∧ (∀ (dom : Nat) (step : Int) (s : State), dom ≤ 1 → s.gptp = true → s.node.form = .simplex → s.time.changes = []
    → (s.time.dom dom).st ≠ .disabled → s.time.setSteps = [{ dom := dom, step := step, left := 1 }]
    → Answers (.syncIntervalTick dom []) s (fun t => (t.time.dom dom).offset = (s.time.dom dom).offset + step
    ∧ (t.time.dom dom).st = (s.time.dom dom).st ∧ t.time.setSteps = []
    ∧ t.time.epoch = (if s.time.sel = dom then s.time.epoch + 1 else s.time.epoch)))
  ∧ (∀ (port : Nat) (typ : Nat) (delay : Nat) (s : State), s.gptp = true → 4 ≤ port → s.portUp port = true
    → Answers (.pdelayMessageReceive port typ delay) s (fun t => (typ ≠ 0
    → t = { s with time := { s.time with pdelay := s.time.pdelay.set port delay } }) ∧ (typ = 0 → t.freeIdx = s.freeIdx + 2 ∧ t.time = s.time)))
  ∧ (∀ (port : Nat) (s : State), s.gptp = true → 4 ≤ port
    → Answers (.pdelayRequestSend port) s (fun t => t.time = { s.time with gptpSeq := s.time.gptpSeq.modify port (fun n => (n + 1) % 65536) }
    ∧ t.freeIdx = s.freeIdx + 1))
  ∧ (∀ (s : State), Answers .slewTermReturnsTo0 s (fun t => t = { s with time := { s.time with slew := 0, slewFrom := s.now } }))
  ∧ (∀ (s : State), s.alive = true → (s.time.pri.st = .locked ∨ s.time.sec.st = .locked)
    → Answers .backupCounterWrite s (fun t => t = { s with time := { s.time with backValid := true, backTime := s.trainNow, backCount := 0 } }))
  ∧ (∀ (c : TimeChange) (rest : List TimeChange) (s : State), s.time.changes = c :: rest
    → Answers .timeChangeEffective s (fun t => t.time.changes = rest ∧ (t.time.dom c.dom).offset = c.offset ∧ (t.time.dom c.dom).anchor = c.anchor
    ∧ (t.time.dom c.dom).rate = c.rate ∧ (t.time.dom c.dom).st = c.st ∧ t.time.sel = c.sel ∧ t.time.epoch = c.epoch ∧ t.time.slew = c.slew
    ∧ Only [.time, .ctl, .sw] s t))

/-- PPS_OUT goes to its active level at a pulse of a domain that is not FREE or DISABLED and to its inactive one at the pulse's end. A PPS_IN edge of
at least 100 ns, 100 µs after the last, is captured with its tick, counted, marked overrun where the last was not read, and raised. TIME_STATUS,
CONVERT and LINKS answer OK with 112, 32 and 128 bytes. TIME_SELECT, on a node of one chip, selects a LOCKED domain within the threshold, beyond it
only with a new epoch where the command allows it, and else changes no time. TIME_SET by the grandmaster waits for an edge, or acts at once: small by
the servo, large as a step after STEP_CONFIRM intervals; its timeout drops it. TIME_PPS takes its fields. -/
def Obligations.TimePulsesAndCommands : Prop :=
  (∀ (s : State), s.gptp = true → s.time.ppsOn = true → (s.ppsDomain.st = .locked ∨ s.ppsDomain.st = .stepWait ∨ s.ppsDomain.st = .holdover)
    → Answers .ppsOutPulse s (fun t => t.out = s.out ++ [.pin .ppsOut (if s.time.ppsLow then .low else .high)] ∧ t.time.ppsLevel = !s.time.ppsLow
    ∧ Only [.out, .time] s t))
  ∧ (∀ (s : State), s.alive = true → Answers .ppsOutPulseEnd s (fun t => t.out = s.out ++ [.pin .ppsOut (if s.time.ppsLow then .high else .low)]
    ∧ t.time.ppsLevel = s.time.ppsLow ∧ Only [.out, .time] s t))
  ∧ (∀ (stamp : Stamp) (ns : Nat) (s : State), s.alive = true → 100 ≤ ns → (s.time.ppsSeen = false ∨ s.time.ppsTick + 100 * ticksPerUs ≤ stamp.tick)
    → Answers (.ppsInEdge stamp ns) s (fun t => t.time.ppsTick = stamp.tick ∧ t.time.ppsFrac = stamp.frac % 16 ∧ t.time.ppsNew = true
    ∧ t.time.ppsOvr = s.time.ppsNew ∧ t.time.ppsCount = (s.time.ppsCount + 1) % 4096 ∧ t.time.setWaits = [] ∧ (t.cause .time).cause.getLsbD 6 = true
    ∧ t.node = s.node))
  ∧ (∀ (stamp : Stamp) (ns : Nat) (s : State), (ns < 100 ∨ (s.time.ppsSeen = true ∧ stamp.tick < s.time.ppsTick + 100 * ticksPerUs))
    → Answers (.ppsInEdge stamp ns) s (fun t => t = s))
  ∧ (∀ (c : Acs) (s : State), Accepts s c 0x0400 inServing → c.args.length = 0 → ∃ p, AnswersOk (.timeStatus c) c 0x0400 s p ∧ p.length = 112
    ∧ p.take 3 = le 2 s.time.epoch.toNat ++ [byte s.time.sel] ∧ slice p 8 8 = le 8 s.now)
  ∧ (∀ (c : Acs) (i : Nat) (s : State), Accepts s c 0x0401 inLineStates → s.carriers = [] → s.node.form = .simplex → s.time.changes = []
    → c.args.length = 4 → c.arg 0 4 ≤ 3 → i = c.arg 0 4 % 2 → s.time.sel ≠ i → (s.time.dom i).st = .locked
    → ((s.time.dom i).timeAt s.now 0 - (s.time.dom s.time.sel).timeAt s.now 0 ≤ s.stepThreshold
    ∧ -s.stepThreshold ≤ (s.time.dom i).timeAt s.now 0 - (s.time.dom s.time.sel).timeAt s.now 0 ∨ 2 ≤ c.arg 0 4)
    → Answers (.timeSelect c) s (fun t => t.time.sel = i
    ∧ t.time.epoch = (if (s.time.dom i).timeAt s.now 0 - (s.time.dom s.time.sel).timeAt s.now 0 ≤ s.stepThreshold
    ∧ -s.stepThreshold ≤ (s.time.dom i).timeAt s.now 0 - (s.time.dom s.time.sel).timeAt s.now 0 then s.time.epoch else s.time.epoch + 1)
    ∧ (t.cause .time).cause.getLsbD 3 = true ∧ t.node = s.node))
  ∧ (∀ (c : Acs) (i : Nat) (s : State), Accepts s c 0x0401 inLineStates → s.carriers = [] → c.args.length = 4 → c.arg 0 4 ≤ 3 → i = c.arg 0 4 % 2
    → s.time.sel ≠ i → (s.time.dom i).st ≠ .locked → Answers (.timeSelect c) s (fun t => t.time = s.time))
  ∧ (∀ (c : Acs) (s : State), Accepts s c 0x0402 inLineStates → s.carriers = [] → c.args.length = 16 → timeSetArgs c.args = true
    → (s.time.dom (c.arg 0 1)).isGm = true → (s.gmSource (c.arg 0 1) = 1 ∨ s.gmSource (c.arg 0 1) = 2) → c.arg 1 1 = 0
    → Answers (.timeSet c) s (fun t => t.time =
      { s.time with setWaits := s.time.setWaits ++ [{ ref := some (c.ref 0x0402), dom := c.arg 0 1, value := ttOf (c.args.drop 4) }] }))
  ∧ (∀ (c : Acs) (s : State), Accepts s c 0x0402 inLineStates → s.carriers = [] → c.args.length = 16 → timeSetArgs c.args = true
    → (s.time.dom (c.arg 0 1)).isGm = true → (s.gmSource (c.arg 0 1) = 1 ∨ s.gmSource (c.arg 0 1) = 2) → c.arg 1 1 = 1
    → (((ttOf (c.args.drop 4) : Nat) : Int) - (s.time.dom (c.arg 0 1)).timeAt s.now 0 < -s.stepThreshold ∨ s.stepThreshold < ((ttOf (c.args.drop 4)
      : Nat) : Int) - (s.time.dom (c.arg 0 1)).timeAt s.now 0)
    → Answers (.timeSet c) s (fun t => t.time =
      { s.time with setSteps := s.time.setSteps.filter (fun x => x.dom ≠ c.arg 0 1) ++ [{ dom := c.arg 0 1, step := ((ttOf (c.args.drop 4) : Nat) : Int) - (s.time.dom (c.arg 0 1)).timeAt s.now 0, left := s.stepConfirm }] }))
  ∧ (∀ (x : TimeSetWait) (rest : List TimeSetWait) (s : State), s.time.setWaits = x :: rest
    → Answers .timeSetTimeout s (fun t => t.time = { s.time with setWaits := rest } ∧ t.node = s.node))
  ∧ (∀ (c : Acs) (s : State), Accepts s c 0x0403 inServing → c.args.length = 32 → c.arg 0 1 ≤ 1 → c.arg 1 1 ≤ 15 → c.nonZero 4 4 = false
    → c.nonZero 28 4 = false → (c.arg 0 1 = 1 → c.arg 22 4 < 1000000000) → c.arg 2 2 = s.time.epoch.toNat
    → ∃ p, AnswersOk (.timeConvert c) c 0x0403 s p ∧ p.length = 32 ∧ (c.arg 0 1 = 0
    → p = c.args.take 16 ++ ttBytes (s.time.cur.timeAt (c.arg 8 8) (c.arg 1 1) + s.time.slewAt s.slewMax s.now).toNat ++ zeros 4) ∧ (c.arg 0 1 = 1
    → slice p 8 8 = le 8 (s.toTicks (ttOf (slice c.args 16 12))).1))
  ∧ (∀ (c : Acs) (s : State), Accepts s c 0x0404 inLineStates → c.args.length = 0 → ∃ p, AnswersOk (.timeLinks c) c 0x0404 s p ∧ p.length = 128)
  ∧ (∀ (c : Acs) (s : State), Accepts s c 0x0405 inLineStates → c.args.length = 8 → c.arg 0 1 ≤ 3 → c.arg 1 1 ≤ 2 → c.arg 2 1 ≤ 3
    → c.nonZero 3 1 = false → 1 ≤ c.arg 4 4 → 2 * c.arg 4 4 ≤ ppsUs (c.arg 0 1)
    → Answers (.timePps c) s (fun t => t.time =
      { s.time with ppsPeriod := c.arg 0 1, ppsDom := c.arg 1 1, ppsLow := bit (c.arg 2 1) 0, ppsOn := bit (c.arg 2 1) 1, ppsWidth := c.arg 4 4 , ppsLevel := bit (c.arg 2 1) 0 }
    ∧ t.node = s.node))

/-! ## The Hitch unit -/

/-- A beat counts the ended period of each supervised port and sends the next frame. An invalid frame is counted and changes nothing else; a valid one
makes its sender the port's neighbour and its vector the side's. A neighbour lost by LOSS_COUNT silent periods is gone, with its admission. A coupling
on one line, or the end of PENDING, starts a round; the absent line is faulted. A successor that does not appear starts a round, under inhibit a
separation. A complete chain gives a proposal, or is refused with its cause. The switch makes the proposal's generation, fingerprint and places those
in force, ends switching and raises HITCHED. -/
def Obligations.HitchEvents : Prop :=
  (∀ (s : State), Inv s → s.alive = true → s.hitchOn = true → Answers .hitchBeat s (fun t => (∀ p, p < 4 → (s.hport p).live = true
    → s.portUp p = true → (t.hport p).heard = false ∧ (t.hport p).missedRun = (if (s.hport p).heard then 0 else (s.hport p).missedRun + 1)
    ∧ (t.hport p).txSeq = (if (s.hport p).txSeq = 0xFFFE then 0 else (s.hport p).txSeq + 1)) ∧ (∀ p, p < 4
    → ((s.hport p).live = false ∨ s.portUp p = false) → t.hport p = s.hport p) ∧ (∀ p, (t.hport p).neighbour = (s.hport p).neighbour)
    ∧ t.node = s.node))
  ∧ (∀ (port : Nat) (frame : Frame) (stamp : Stamp) (s : State), Inv s → s.alive = true → s.hitchOn = true → port < 4 → s.portUp port = true
    → (s.hport port).live = true → frame.etype = s.hitchEtype → linkLocal frame.da = true
    → (frame.da ≠ 0x0180C200000E#48 ∨ hframeOf (lineOfPort port) frame.payload = none)
    → Answers (.hitchFrameReceive port frame stamp) s (fun t => t.hport port =
      { s.hport port with invalid := min 0xFFFFFFFF ((s.hport port).invalid + 1) }
    ∧ (∀ k, k ≠ port → t.hport k = s.hport k) ∧ Only [.hitch] s t))
  ∧ (∀ (port : Nat) (frame : Frame) (stamp : Stamp) (f : HFrame) (r : HRec) (s : State), Inv s → s.alive = true → s.hitchOn = true → port < 4
    → s.portUp port = true → (s.hport port).live = true → frame.etype = s.hitchEtype → frame.da = 0x0180C200000E#48
    → hframeOf (lineOfPort port) frame.payload = some f → f.vec.recs.head? = some r
    → Answers (.hitchFrameReceive port frame stamp) s (fun t => (t.hport port).neighbour = some r.nid ∧ t.hitch.vec (dirOfPort port) = f.vec
    ∧ (t.hport port).live = true ∧ (t.hport port).missedRun = 0 ∧ ((s.hport port).neighbour = some r.nid → (t.hport port).rxSeq = some f.seq
    ∧ (t.hport port).heard = true) ∧ t.hitch.gen = s.hitch.gen))
  ∧ (∀ (port : Nat) (n : Nid) (s : State), Inv s → s.alive = true → s.hitchOn = true → port < 4 → (s.hport port).live = true
    → s.lossCount ≤ (s.hport port).missedRun → (s.hport port).neighbour = some n
    → Answers (.neighbourLossTimeout port) s (fun t => (t.hport port).neighbour = none ∧ (t.hport port).admitted = false
    ∧ (t.hport port).losses = min 0xFFFFFFFF ((s.hport port).losses + 1) ∧ t.hitch.gen = s.hitch.gen))
  ∧ (∀ (dir : Nat) (p : Nat) (n : Nid) (s : State), Inv s → s.alive = true → (dir = 1 ∨ dir = 2) → s.hitch.proc = .steady
    → s.hitch.inhibited = false → s.hitch.settling dir = true → (if dir = 1 then s.hitch.couple1 else s.hitch.couple2) = some p → p < 4
    → (s.hport p).neighbour = some n → Answers (.lineSettleExpiry dir) s (fun t => t.hitch.settling dir = false ∧ t.hitch.proc = .gather
    ∧ t.hitch.rehitch = true ∧ t.hitch.roundStart = s.now ∧ ((s.hport (otherPort p)).neighbour = none → (t.hport (otherPort p)).fault = true)
    ∧ (t.cause .hitch).cause.getLsbD 1 = true))
  ∧ (∀ (s : State), s.alive = true → s.hitch.proc = .pending → Answers .hitchPendingExpiry s (fun t => t.hitch.proc = .gather
    ∧ t.hitch.rehitch = true ∧ t.hitch.roundStart = s.now ∧ t.hitch.gen = s.hitch.gen ∧ (t.cause .hitch).cause.getLsbD 1 = true))
  ∧ (∀ (s : State), s.alive = true → s.hitch.proc = .bypassWait → Answers .bypassWindowExpiry s (fun t => t.hitch.leaver = none
    ∧ t.hitch.successor = none ∧ (s.hitch.inhibited = false → t.hitch.proc = .gather ∧ (t.cause .hitch).cause.getLsbD 2 = true)
    ∧ (s.hitch.inhibited = true → t.hitch.proc = .steady ∧ (t.cause .hitch).cause.getLsbD 6 = true)))
  ∧ (∀ (pr : Proposal) (s : State), s.alive = true → s.hitch.switching = false → (s.hitch.proc = .gather ∨ s.hitch.proc = .agree)
    → s.chainComplete = true → s.hitch.lastChain ≠ s.chainKey → propose s.physChain ((s.effVec 1).overflow || (s.effVec 2).overflow) = .ok pr
    → Answers .hitchPropose s (fun t => t.hitch.proc = .agree ∧ t.hitch.prop = some pr ∧ t.hitch.lastChain = s.chainKey ∧ t.hitch.refuse = 0
    ∧ t.hitch.gen = s.hitch.gen))
  ∧ (∀ (n : Nat) (s : State), s.alive = true → s.hitch.switching = false → (s.hitch.proc = .gather ∨ s.hitch.proc = .agree) → s.chainComplete = true
    → s.hitch.lastChain ≠ s.chainKey → propose s.physChain ((s.effVec 1).overflow || (s.effVec 2).overflow) = .error n
    → Answers .hitchPropose s (fun t => t.hitch.proc = .refused ∧ t.hitch.prop = none ∧ t.hitch.refuse = n
    ∧ t.hitch.waits = s.hitch.waits.filter (fun x => !x.gen.isNone) ∧ (t.cause .hitch).cause.getLsbD 3 = true ∧ t.hitch.gen = s.hitch.gen))
  ∧ (∀ (pr : Proposal) (s : State), s.alive = true → s.hitch.prop = some pr → s.hitch.switching = true
    → Answers .hitchSwitch s (fun t => t.hitch.gen = pr.gen ∧ t.hitch.fp = pr.fp ∧ t.hitch.chain.map CNode.nid = pr.chain.map CNode.nid
    ∧ t.hitch.position = placeIn s.node.nid pr.chain + 1 ∧ t.hitch.nodes = pr.chain.length ∧ t.hitch.switching = false ∧ t.hitch.prop = none
    ∧ t.hitch.switchTick = s.now ∧ (t.cause .hitch).cause.getLsbD 0 = true))

/-- A HELLO of a silent neighbour starts its 10 ms; their end enters TTDP-compatible mode where it is allowed, else says so once. HELLO frames use one
free value for each port that is up. The inauguration timer moves the process on (how, is left open), and a completed inauguration gives the proposal
the node switches to. The inhibit input follows its pin. HITCH_STATUS, TOPOLOGY and LINKS answer OK with 32, 12 and 24 for each node, and 128 bytes.
On a node of one chip HITCH_INHIBIT sets the host's source, HITCH_REQUEST starts a round or joins it and waits. HITCH_WAIT waits for a change of its
generation or answers at once; the timeouts take their commands out. -/
def Obligations.HitchModesAndCommands : Prop :=
  (∀ (port : Nat) (s : State), Inv s → s.alive = true → s.hitchOn = true → port < 4 → s.portUp port = true → (s.hport port).neighbour = none
    → (s.hport port).ttdpNb = false → Answers (.ttdpHelloReceive port) s (fun t => t.hport port = { s.hport port with helloWait := true }
    ∧ (∀ k, k ≠ port → t.hport k = s.hport k) ∧ Only [.hitch] s t))
  ∧ (∀ (port : Nat) (s : State), Inv s → s.alive = true → s.hitchOn = true → port < 4 → (s.hport port).helloWait = true → s.ttdpCompat = true
    → s.hitch.proc ≠ .ttdp → Answers (.ttdpHelloTimeout port) s (fun t => (t.hport port).helloWait = false ∧ (t.hport port).ttdpNb = true
    ∧ t.hitch.proc = .ttdp ∧ t.hitch.mode = 2 ∧ t.hitch.ttdpMode = true ∧ (t.cause .hitch).cause.getLsbD 7 = true))
  ∧ (∀ (port : Nat) (s : State), Inv s → s.alive = true → s.hitchOn = true → port < 4 → (s.hport port).helloWait = true → s.ttdpCompat = false
    → Answers (.ttdpHelloTimeout port) s (fun t => (t.hport port).helloWait = false ∧ (t.hport port).ttdpSaid = true ∧ t.hitch.proc = s.hitch.proc
    ∧ ((s.hport port).ttdpSaid = false → (t.cause .hitch).cause.getLsbD 7 = true)))
  ∧ (∀ (s : State), s.alive = true → s.hitchOn = true → s.ttdpCompat = true
    → Answers .ttdpHelloSend s (fun t => t.freeIdx = s.freeIdx + [0, 1, 2, 3].countP s.portUp ∧ t.hitch = s.hitch ∧ t.node = s.node))
  ∧ (∀ (s : State), s.alive = true → s.hitch.proc = .ttdp → s.hitch.switching = false
    → Answers (.ttdpInaugurationTimer none) s (fun t => t = { s with hitch := { s.hitch with ttdpPhase := s.freeNat }, freeIdx := s.freeIdx + 1 }))
  ∧ (∀ (ns : List TtdpNode) (pr : Proposal) (s : State), s.alive = true → s.hitch.proc = .ttdp → s.hitch.switching = false
    → s.hitch.inhibited = false → ns.any (fun x => decide (x.nid = s.node.nid)) = true → proposeOrdered (ns.map TtdpNode.rec_) = .ok pr
    → Answers (.ttdpInaugurationTimer (some ns)) s (fun t => t.hitch.prop = some pr ∧ t.hitch.switching = true ∧ t.hitch.proc = .ttdp
    ∧ t.hitch.gen = s.hitch.gen))
  ∧ (∀ (gpio : Nat) (level : Bool) (s : State), s.alive = true → gpio < 24
    → Answers (.inhibitInputChange gpio level) s (fun t => t.pwr.gpioIn.getLsbD gpio = level ∧ (∀ k, k ≠ gpio
    → t.pwr.gpioIn.getLsbD k = s.pwr.gpioIn.getLsbD k) ∧ (s.param? 4 6 0xFFFF = some gpio → t.hitch.gpioInh = t.gpioInhibit) ∧ t.node = s.node))
  ∧ (∀ (c : Acs) (s : State), Accepts s c 0x0300 inLineStates → c.args.length = 0 → ∃ p, AnswersOk (.hitchStatus c) c 0x0300 s p ∧ p.length = 32
    ∧ p.take 8 = wordBytes s.hitch.gen ++ wordBytes s.hitch.fp ∧ slice p 24 1 = [byte s.hitch.proc.code])
  ∧ (∀ (c : Acs) (s : State), Accepts s c 0x0301 inLineStates → c.args.length = 0 → ∃ p, AnswersOk (.hitchTopology c) c 0x0301 s p
    ∧ p.length = 12 + 24 * s.hitch.chain.length ∧ p.take 8 = wordBytes s.hitch.gen ++ wordBytes s.hitch.fp)
  ∧ (∀ (c : Acs) (s : State), Accepts s c 0x0302 inLineStates → c.args.length = 0 → ∃ p, AnswersOk (.hitchLinks c) c 0x0302 s p ∧ p.length = 128)
  ∧ (∀ (c : Acs) (s : State), Accepts s c 0x0303 inLineStates → s.carriers = [] → c.args.length = 4 → c.arg 0 4 ≤ 1
    → Answers (.hitchInhibit c) s (fun t => t.hitch.hostInh = bit (c.arg 0 1) 0 ∧ t.hitch.gen = s.hitch.gen ∧ (s.hitch.proc = .steady
    → s.hitch.switching = false → s.chainComplete = true → c.arg 0 1 = 1 → t.hitch.inhibited = true) ∧ t.node = s.node))
  ∧ (∀ (c : Acs) (s : State), Accepts s c 0x0304 inLineStates → s.carriers = [] → c.args.length = 0 → s.hitch.inhibited = false
    → s.hitch.proc ≠ .ttdp → s.hitchOn = true
    → Answers (.hitchRequest c) s (fun t => t.hitch.waits = s.hitch.waits ++ [{ ref := c.ref 0x0304, gen := none }]
    ∧ t.hitch.proc = (if s.hitch.proc = .agree then .agree else .gather) ∧ t.hitch.gen = s.hitch.gen))
  ∧ (∀ (mbx : Nat) (idx : Nat) (s : State), Answers (.hitchRequestTimeout mbx idx) s (fun t => t.hitch =
      { s.hitch with waits := s.hitch.waits.filter (fun x => !(x.gen.isNone && x.ref.mbx = mbx && x.ref.idx = idx)) }
    ∧ t.node = s.node))
  ∧ (∀ (c : Acs) (s : State), Accepts s c 0x0305 inLineStates → c.args.length = 8 → 1 ≤ c.arg 4 4 → c.arg 4 4 ≤ 60000
    → Answers (.hitchWait c) s (fun t => (c.arg 0 4 = s.hitch.gen.toNat
    → t.hitch = { s.hitch with waits := s.hitch.waits ++ [{ ref := c.ref 0x0305, gen := some s.hitch.gen }] }) ∧ (c.arg 0 4 ≠ s.hitch.gen.toNat
    → t = done c 0x0305 stOk (wordBytes s.hitch.gen) (started c 0x0305 s))))
  ∧ (∀ (mbx : Nat) (idx : Nat) (s : State), Answers (.hitchWaitTimeout mbx idx) s (fun t => t.hitch =
      { s.hitch with waits := s.hitch.waits.filter (fun x => !(x.gen.isSome && x.ref.mbx = mbx && x.ref.idx = idx)) }
    ∧ t.node = s.node))

/-! ## Streams -/

/-- A snapshot of a publishing context with an image and no bar of a switch queues exactly one frame of that image for the next publication and
advances the sequence number; one whose record or payload is in error, or under reload, queues nothing and advances it too. A launch in time takes the
oldest queued frame out and counts it; a late one that is not to be sent is counted as dropped. A frame that passes the checks is the context's last
accepted one, counted, and while FRESH its payload is the image; one that fails a check is counted under it and leaves the image. FRESH_TIMEOUT makes
a context LOST with the image of its policy; a held image then gives way to the safe value. The reload gives the record of the committed image. -/
def Obligations.StreamEvents : Prop :=
  (∀ (ctx : Nat) (c : StreamCtx) (et : Nat) (im : PubImage) (s : State), s.ctx? ctx = some c → s.publishes c = true → c.reloading = false
    → c.beyond = false → c.minCycle = none → s.streamEtype = some et → s.pubImage c = some im
    → Answers (.streamSnapshot ctx 0) s (fun t => (t.ctx? ctx).map (fun x => (x.seqGen, x.seqTwin, x.putNew, x.launches)) = some (c.seqGen + 1,
      c.seqGen + 1, false , c.launches ++ [{ tick := (s.toTicks (s.publication c)).1, frame := s.streamFrame c et im, pref := c.preferred }])
    ∧ (∀ k, k ≠ ctx → t.ctx? k = s.ctx? k) ∧ Only [.stream] s t))
  ∧ (∀ (ctx : Nat) (err : Nat) (c : StreamCtx) (s : State), s.ctx? ctx = some c → s.publishes c = true → (err = 1 ∨ err = 2 ∨ (err = 0
    ∧ c.reloading = true))
    → Answers (.streamSnapshot ctx err) s (fun t => (t.ctx? ctx).map (fun x => (x.seqGen, x.launches, x.countDrop, x.reloading)) = some (c.seqGen +
      1, c.launches, min 0xFFFFFFFF (c.countDrop + 1), decide (err = 1) || c.reloading)
    ∧ Store.get 0 t.stats.count (statStream 4) = min (Store.get 0 s.stats.count (statStream 4) + 1) statMax ∧ (err ≠ 0
    → (t.cause .stream).cause.getLsbD 5 = true)))
  ∧ (∀ (ctx : Nat) (lateNs : Nat) (c : StreamCtx) (l : StreamLaunch) (rest : List StreamLaunch) (s : State), s.alive = true
    → (s.node.state.inLine = true ∨ s.node.state = .held) → s.ctx? ctx = some c → c.launches = l :: rest → lateNs ≤ s.lateTolUs * 1000
    → Answers (.launchTimeReached true ctx lateNs) s (fun t => (t.ctx? ctx).map (fun x => (x.launches, x.countOk, x.lastTick, x.lastGen)) = some
      (rest, min 0xFFFFFFFF (c.countOk + 1), s.now, s.hitch.gen)
    ∧ (∀ k, k ≠ ctx → t.ctx? k = s.ctx? k) ∧ t.node = s.node))
  ∧ (∀ (ctx : Nat) (lateNs : Nat) (c : StreamCtx) (l : StreamLaunch) (rest : List StreamLaunch) (s : State), s.alive = true
    → (s.node.state.inLine = true ∨ s.node.state = .held) → s.ctx? ctx = some c → c.launches = l :: rest → s.lateTolUs * 1000 < lateNs
    → s.lateSends 8 = false
    → Answers (.launchTimeReached true ctx lateNs) s (fun t => (t.ctx? ctx).map (fun x => (x.launches, x.countOk, x.countDrop)) = some (rest,
      c.countOk, min 0xFFFFFFFF (c.countDrop + 1))
    ∧ Store.get 0 t.stats.count (statStream 1) = min (Store.get 0 s.stats.count (statStream 1) + 1) statMax ∧ t.sw = s.sw))
  ∧ (∀ (ctx : Nat) (port : Nat) (frame : Frame) (stamp : Stamp) (c : StreamCtx) (s : State), s.ctx? ctx = some c → s.node.state.inLine = true
    → c.role = 2 → c.reloading = false → s.rejects c frame = none
    → Answers (.streamFrameReceive ctx port frame stamp 0) s (fun t => (t.ctx? ctx).map (fun x => (x.acc, x.accTick, x.countOk, x.countDrop)) = some
      (some (hdrOf frame), s.now, min 0xFFFFFFFF (c.countOk + 1), c.countDrop)
    ∧ (c.fresh = .fresh
    → (t.ctx? ctx).map (fun x => (x.fresh, x.image, x.hdr)) = some (.fresh, slice frame.payload 32 c.payLen, some (hdrOf frame))) ∧ (∀ k, k ≠ ctx
    → t.ctx? k = s.ctx? k) ∧ Store.get 0 t.stats.count (statStream 5) = min (Store.get 0 s.stats.count (statStream 5) + 1) statMax))
  ∧ (∀ (ctx : Nat) (port : Nat) (frame : Frame) (stamp : Stamp) (k : Nat) (c : StreamCtx) (s : State), s.ctx? ctx = some c
    → s.node.state.inLine = true → c.role = 2 → c.reloading = false → s.rejects c frame = some k
    → Answers (.streamFrameReceive ctx port frame stamp 0) s (fun t => (t.ctx? ctx).map (fun x => (x.acc, x.image, x.fresh, x.countOk, x.countDrop))
      = some (c.acc, c.image, c.fresh, c.countOk, min 0xFFFFFFFF (c.countDrop + 1))
    ∧ Store.get 0 t.stats.count (statStream k) = min (Store.get 0 s.stats.count (statStream k) + 1) statMax ∧ t.rx = s.rx))
  ∧ (∀ (ctx : Nat) (c : StreamCtx) (s : State), s.ctx? ctx = some c → s.node.state.inLine = true → c.role = 2 → c.enabled = true
    → c.suspended = false → c.fresh ≠ .lost
    → Answers (.freshTimeoutExpiry ctx) s (fun t => (t.ctx? ctx).map (fun x => (x.fresh, x.run, x.lostCount, x.image)) = some (.lost, 0, min
      0xFFFFFFFF (c.lostCount + 1), (s.lostImage c).image)
    ∧ (c.fresh = .fresh → (t.cause .stream).cause.getLsbD 0 = true) ∧ (∀ k, k ≠ ctx → t.ctx? k = s.ctx? k)))
  ∧ (∀ (ctx : Nat) (c : StreamCtx) (s : State), s.ctx? ctx = some c → c.fresh = .lost → c.holding = true
    → Answers (.holdPeriodsExpiry ctx) s (fun t => t.ctx? ctx = some { c with holding := false, image := s.safeValue c, hdr := none }
    ∧ (∀ k, k ≠ ctx → t.ctx? k = s.ctx? k) ∧ Only [.stream] s t))
  ∧ (∀ (s : State), Answers .switchGraceExpiry s (fun t => t = { s with stream := { s.stream with grace := false } }))
  ∧ (∀ (ctx : Nat) (c : StreamCtx) (s : State), s.ctx? ctx = some c → c.reloading = true
    → Answers (.ctxReload ctx) s (fun t => (t.ctx? ctx).map (fun x => (x.record, x.reloading)) = some (s.tackRecord ctx, false) ∧ (∀ k, k ≠ ctx
    → t.ctx? k = s.ctx? k) ∧ t.node = s.node))

/-- On a context in use: STREAM_STATUS answers OK with 56 bytes, STREAM_READ with its record, STREAM_GET of a subscriber with 24 bytes and its image.
On a node of one chip, STREAM_PUT on a publisher of the host with its payload's length makes that payload new, STREAM_LINE on a publisher with a line
mode sets it, STREAM_ENABLE on a context that follows no placeable task sets whether it is enabled; no other context changes. -/
def Obligations.StreamCommands : Prop :=
  (∀ (c : Acs) (x : StreamCtx) (s : State), Accepts s c 0x0600 inLineStates → c.args.length = 4 → c.nonZero 2 2 = false → c.arg 0 2 < 2048
    → s.ctx? (c.arg 0 2) = some x → ∃ p, AnswersOk (.streamStatus c) c 0x0600 s p ∧ p.length = 56 ∧ p.take 2 = [byte x.role, byte x.stateCode]
    ∧ slice p 24 4 = le 4 x.countOk)
  ∧ (∀ (c : Acs) (x : StreamCtx) (s : State), Accepts s c 0x0601 inLineStates → c.args.length = 4 → c.nonZero 2 2 = false → c.arg 0 2 < 2048
    → s.ctx? (c.arg 0 2) = some x → AnswersOk (.streamRead c) c 0x0601 s x.record)
  ∧ (∀ (c : Acs) (x : StreamCtx) (s : State), Accepts s c 0x0602 inLineStates → s.carriers = [] → c.arg 0 2 < 2048 → s.ctx? (c.arg 0 2) = some x
    → x.hostSource = true → c.arg 2 2 = x.payLen → c.args.length = 4 + x.payLen
    → Answers (.streamPut c) s (fun t => t.ctx? (c.arg 0 2) = some { x with put := some (c.args.drop 4), putNew := true } ∧ (∀ k, k ≠ c.arg 0 2
    → t.ctx? k = s.ctx? k) ∧ Only (.stream :: .red :: answerParts) s t))
  ∧ (∀ (c : Acs) (x : StreamCtx) (s : State), Accepts s c 0x0603 inLineStates → c.args.length = 4 → c.nonZero 2 2 = false → c.arg 0 2 < 2048
    → s.ctx? (c.arg 0 2) = some x → x.role = 2 → ∃ p, AnswersOk (.streamGet c) c 0x0603 s p ∧ p.length = 24 + x.image.length
    ∧ p.take 1 = [byte x.stateCode] ∧ p.drop 24 = x.image)
  ∧ (∀ (c : Acs) (x : StreamCtx) (s : State), Accepts s c 0x0604 inLineStates → s.carriers = [] → c.args.length = 4 → 1 ≤ c.arg 2 1 → c.arg 2 1 ≤ 3
    → c.nonZero 3 1 = false → c.arg 0 2 < 2048 → s.ctx? (c.arg 0 2) = some x → x.role = 1 → x.lineMode ≠ 0
    → Answers (.streamLine c) s (fun t => t.ctx? (c.arg 0 2) = some { x with record := putSlice x.record 4 [byte (c.arg 2 1)] }
    ∧ (∀ k, k ≠ c.arg 0 2 → t.ctx? k = s.ctx? k) ∧ Only (.stream :: .red :: answerParts) s t))
  ∧ (∀ (c : Acs) (x : StreamCtx) (s : State), Accepts s c 0x0605 inLineStates → s.carriers = [] → c.args.length = 4 → c.arg 2 1 ≤ 1
    → c.nonZero 3 1 = false → c.arg 0 2 < 2048 → s.ctx? (c.arg 0 2) = some x → s.placedCtx x = false
    → Answers (.streamEnable c) s (fun t => (t.ctx? (c.arg 0 2)).map (fun y => (y.enabled, y.record)) = some (decide (c.arg 2 1 = 1), x.record)
    ∧ (x.enabled ≠ decide (c.arg 2 1 = 1) → (t.ctx? (c.arg 0 2)).map (fun y => (y.fresh, y.launches.length)) = some (.none, 0))
    ∧ (∀ k, k ≠ c.arg 0 2 → t.ctx? k = s.ctx? k) ∧ t.node = s.node))

/-! ## The control engine -/

/-- A latch of a task that may start takes the swaps and force changes that are due out of their queues and stamps the cycle; with none due, the
task's working bank is its committed bank with its forces, the cycle count and the committed bank stand; a parity error in its input image holds the
cycle. A task that may not start latches nothing. The end of execution puts down the working bank and the output image. On a node of one chip the
commit makes the working bank with its forces the committed one, puts the image out and goes on to the next cycle; a cycle held commits nothing and
counts HELD_OUTPUTS; a task still executing has overrun. -/
def Obligations.TaskCycle : Prop :=
  (∀ (task : Nat) (err : Nat) (ctxErr : Option Nat) (tk : Task) (s : State), s.task? task = some tk
    → s.wr.dups.find? (fun d => decide (d.1 = task)) = none → s.mig? task = none → s.latches tk = true → tk.st = .running
    → Answers (.latch task err ctxErr) s (fun t => (t.task? task).map Task.startTick = some s.now
    ∧ t.ctl.fwaits = s.ctl.fwaits.filter (fun w => !(decide (w.task = task) && decide (w.cycle ≤ tk.cycle)))
    ∧ t.ctl.swaps = s.ctl.swaps.filter (fun w => !(decide (w.task = task) && decide (w.atTick ≤ s.now))) ∧ t.node = s.node ∧ t.retain = s.retain))
  ∧ (∀ (task : Nat) (tk : Task) (s : State), s.task? task = some tk → s.wr.dups.find? (fun d => decide (d.1 = task)) = none → s.mig? task = none
    → s.latches tk = true → tk.st = .running → s.node.form = .simplex
    → s.ctl.swaps.any (fun w => decide (w.task = task) && decide (w.atTick ≤ s.now)) = false
    → s.ctl.fwaits.any (fun w => decide (w.task = task) && decide (w.cycle ≤ tk.cycle)) = false
    → Answers (.latch task 0 none) s (fun t => (t.task? task).map (fun x => (x.working, x.committed, x.cycle, x.again)) = some (forceBank
      (s.forcesOf task) tk tk.committed, tk.committed, tk.cycle, false)
    ∧ t.ctl.forces = s.ctl.forces))
  ∧ (∀ (task : Nat) (tk : Task) (s : State), s.task? task = some tk → s.wr.dups.find? (fun d => decide (d.1 = task)) = none → s.mig? task = none
    → s.latches tk = true → tk.st = .running → Answers (.latch task 1 none) s (fun t => (t.task? task).map Task.heldCause = some 2
    ∧ Store.get 0 t.stats.count (statControl 6) = min (Store.get 0 s.stats.count (statControl 6) + 1) statMax ∧ t.node = s.node))
  ∧ (∀ (task : Nat) (err : Nat) (ctxErr : Option Nat) (tk : Task) (s : State), s.task? task = some tk
    → s.wr.dups.find? (fun d => decide (d.1 = task)) = none → s.mig? task = none → s.latches tk = false
    → Answers (.latch task err ctxErr) s (fun t => t = s))
  ∧ (∀ (task : Nat) (p : Nat) (working : List Byte) (outImage : List Byte) (ns : Nat) (tk : Task) (s : State), s.task? task = some tk
    → tk.pair = some p → tk.ph = .executing → (s.pairOf p).running = some task → (s.pairOf p).stopped = none
    → s.ctl.tasks.all (fun e => decide (e.2.index = e.1)) = true
    → Answers (.taskExecutionEnd task working outImage ns) s (fun t => (t.task? task).map (fun x => (x.ph, x.working, x.outWork, x.et)) = some
      (.ended, (working ++ zeros tk.committed.length).take tk.committed.length , (outImage ++ zeros tk.outLen).take tk.outLen, ns)
    ∧ (t.task? task).map (fun x => (x.committed, x.output, x.cycle)) = some (tk.committed, tk.output, tk.cycle) ∧ Only [.ctl] s t))
  ∧ (∀ (task : Nat) (tk : Task) (s : State), s.task? task = some tk → s.mig? task = none → tk.ph = .ended → tk.st = .running
    → s.node.form = .simplex
    → Answers (.commit task 0 none) s (fun t => (t.task? task).map (fun x => (x.ph, x.cycle, x.lastCommit, x.prevHeld, x.overRun)) = some (.idle,
      tk.cycle + 1, tk.cycle, false, 0)
    ∧ (t.task? task).map (fun x => (x.committed, x.output, x.outHeld)) = some (forceBank (s.forcesOf task) tk tk.working, forceOutputs (s.forcesOf
      task) tk tk.outWork, false)
    ∧ (tk.cycleIrq = true → (t.cause .control).cause.getLsbD 0 = true) ∧ (tk.retainLen = 0 → t.retain = s.retain) ∧ t.node = s.node))
  ∧ (∀ (task : Nat) (err : Nat) (tk : Task) (s : State), s.task? task = some tk → tk.ph = .held → s.node.form = .simplex
    → Answers (.commit task err none) s (fun t => (t.task? task).map (fun x => (x.ph, x.cycle, x.prevHeld, x.outHeld, x.overRun)) = some (.idle,
      tk.cycle + 1, true, true, 0)
    ∧ (t.task? task).map (fun x => (x.committed, x.output, x.lastCommit)) = some (tk.committed, tk.output, tk.lastCommit)
    ∧ Store.get 0 t.stats.count (statControl 1) = min (Store.get 0 s.stats.count (statControl 1) + 1) statMax
    ∧ (t.cause .control).cause.getLsbD 2 = true ∧ t.node = s.node ∧ t.retain = s.retain ∧ t.pwr = s.pwr ∧ t.can = s.can))
  ∧ (∀ (task : Nat) (tk : Task) (s : State), s.task? task = some tk → tk.ph = .executing → s.node.form = .simplex
    → (tk.limit = 0 ∨ tk.overRun + 1 < tk.limit)
    → Answers (.commit task 0 none) s (fun t => (t.task? task).map (fun x => (x.ph, x.cycle, x.prevHeld, x.overRun, x.overruns)) = some (.idle,
      tk.cycle + 1, true, tk.overRun + 1, min 0xFFFFFFFF (tk.overruns + 1))
    ∧ (t.task? task).map (fun x => (x.committed, x.output, x.cycle)) = some (tk.committed, tk.output, tk.cycle + 1)
    ∧ Store.get 0 t.stats.count (statControl 2) = min (Store.get 0 s.stats.count (statControl 2) + 1) statMax ∧ t.node = s.node))
  ∧ (∀ (task : Nat) (tk : Task) (s : State), s.task? task = some tk → tk.ph = .executing → s.node.form = .simplex → tk.limit ≠ 0
    → tk.limit ≤ tk.overRun + 1 → Answers (.commit task 0 none) s (fun t => (t.cause .control).cause.getLsbD 5 = true ∧ (tk.stopsOnFault = true
    → (t.task? task).map Task.st = some .faulted) ∧ (tk.stopsOnFault = false → s.node.state.running = true → t.node.state = .safe)))

/-- A mismatch stops its pair with the task that ran and raises its cause; the resynchronised pair runs again. A memory error of a task's cycle is
counted, and the task runs again where time is left, else its cycle is held; a force entry in error is released. A reloaded page counts; one that
cannot be reloaded is a task fault. The write of a retain slot that is verified on both dies leaves its bytes on both. START_WAIT makes an armed start
due; the start enters RUN, or DEGRADED with a resource lost, without forces. -/
def Obligations.ControlErrorsAndStart : Prop :=
  (∀ (pair : Nat) (s : State), Inv s → pair < 4 → (s.pairOf pair).retired = false → (s.pairOf pair).stopped = none → s.node.state.inLine = true
    → ((s.pairOf pair).misses.filter (fun x => decide (s.now ≤ x + 10 * ticksPerSec))).length < 2
    → Answers (.controlLockstepMismatch pair) s (fun t => (t.pairOf pair).stopped = some (s.pairOf pair).running ∧ (t.pairOf pair).running = none
    ∧ (t.pairOf pair).retired = false ∧ Store.get 0 t.stats.count (statControl 3) = min (Store.get 0 s.stats.count (statControl 3) + 1) statMax
    ∧ (t.cause .control).cause.getLsbD 7 = true ∧ t.node = s.node))
  ∧ (∀ (pair : Nat) (n : Option Nat) (s : State), Inv s → pair < 4 → (s.pairOf pair).stopped = some n
    → Answers (.pairResyncDone pair) s (fun t => (t.pairOf pair).stopped = none ∧ t.ctl.forces = s.ctl.forces ∧ Only [.ctl] s t))
  ∧ (∀ (kind : Nat) (task : Nat) (addr : Nat) (tk : Task) (s : State), s.task? task = some tk
    → (tk.ph = .ready ∨ tk.ph = .executing ∨ tk.ph = .ended) → (kind = 1 ∨ kind = 3 ∨ kind = 4)
    → Answers (.memoryParityError kind task addr) s (fun t => (s.mayRedo tk = true
    → (t.task? task).map (fun x => (x.again, x.committed, x.input)) = some (true, tk.committed, tk.input)) ∧ (s.mayRedo tk = false
    → (t.task? task).map (fun x => (x.heldCause, x.committed)) = some (2, tk.committed)) ∧ (kind ≠ 3
    → Store.get 0 t.stats.count (statControl 6) = min (Store.get 0 s.stats.count (statControl 6) + 1) statMax) ∧ (kind = 3
    → Store.get 0 t.stats.count (statControl 7) = min (Store.get 0 s.stats.count (statControl 7) + 1) statMax) ∧ t.node = s.node))
  ∧ (∀ (task : Nat) (addr : Nat) (tk : Task) (s : State), s.task? task = some tk → (tk.ph = .ready ∨ tk.ph = .executing ∨ tk.ph = .ended)
    → Answers (.memoryParityError 2 task addr) s (fun t => t.ctl.pages = s.ctl.pages.filter (fun x => decide (x ≠ task)) ++ [task]
    ∧ Store.get 0 t.stats.count (statControl 7) = min (Store.get 0 s.stats.count (statControl 7) + 1) statMax ∧ t.node = s.node))
  ∧ (∀ (task : Nat) (addr : Nat) (x : Force) (s : State), s.ctl.forces[addr]? = some x
    → Answers (.memoryParityError 5 task addr) s (fun t => t.ctl.forces = s.ctl.forces.filter (fun y => !decide (y.var = x.var))
    ∧ (t.cause .control).cause.getLsbD 4 = true ∧ t.ctl.tasks = s.ctl.tasks))
  ∧ (∀ (task : Nat) (s : State), s.ctl.pages.contains task = true
    → Answers (.pageReloadDone task true) s (fun t => t.ctl.pages = s.ctl.pages.filter (fun x => decide (x ≠ task))
    ∧ Store.get 0 t.stats.count (statControl 8) = min (Store.get 0 s.stats.count (statControl 8) + 1) statMax ∧ t.node = s.node))
  ∧ (∀ (task : Nat) (tk : Task) (s : State), s.ctl.pages.contains task = true → s.task? task = some tk
    → Answers (.pageReloadDone task false) s (fun t => t.ctl.pages = s.ctl.pages.filter (fun x => decide (x ≠ task))
    ∧ (t.cause .control).cause.getLsbD 5 = true ∧ (tk.stopsOnFault = true → (t.task? task).map Task.st = some .faulted) ∧ (tk.stopsOnFault = false
    → s.node.state.running = true → t.node.state = .safe)))
  ∧ (∀ (task : Nat) (k : Nat) (b : List Byte) (tk : Task) (s : State), s.task? task = some tk → tk.writing = some (k, b) → s.log.degraded0 = false
    → s.log.degraded1 = false
    → Answers (.retainWriteDone task true true) s (fun t => t.retain =
      { die0 := placeCopy (s.retainOff task k) b s.retain.die0, die1 := placeCopy (s.retainOff task k) b s.retain.die1 }
    ∧ (t.task? task).map Task.writing = some none
    ∧ Store.get 0 t.stats.count (statControl 9) = min (Store.get 0 s.stats.count (statControl 9) + 1) statMax ∧ t.node = s.node))
  ∧ (∀ (task : Nat) (ok1 : Bool) (k : Nat) (b : List Byte) (tk : Task) (s : State), s.task? task = some tk → tk.writing = some (k, b)
    → s.log.degraded0 = false → Answers (.retainWriteDone task false ok1) s (fun t => t.log.degraded0 = true ∧ t.retain.die0 = s.retain.die0
    ∧ (t.task? task).map Task.writing = some none ∧ (t.cause .control).cause.getLsbD 6 = true ∧ t.node.lost.getLsbD 2 = true))
  ∧ (∀ (s : State), s.node.state = .ready → s.ctl.startArmed = true
    → Answers .startWaitExpiry s (fun t => t.ctl = { s.ctl with startArmed := false, startDue := true } ∧ Only [.ctl] s t))
  ∧ (∀ (k : Nat) (s : State), s.startKind = some k → s.ctl.startDue = true → s.node.state = .ready → s.node.active = true
    → Answers .controlStart s (fun t => t.node.state = (if s.node.lost = 0 then .run else .degraded) ∧ t.node.startArg = 0 ∧ t.ctl.startDue = false
    ∧ t.ctl.forces = [] ∧ t.ctl.started = (if k = 1 ∧ s.demotion = none then 2 else 1) ∧ (t.cause .control).cause.getLsbD 1 = true))

/-- TASK_LIST answers OK with 4 bytes and 48 for each task, FORCE_LIST with 8 bytes and 16 for each entry from its first index, at most 250. On a node
of one chip: TASK_START in READY starts control; TASK_STOP stops a running task and releases its forces, and answers at once for one that stands;
TASK_RESUME makes a stopped or faulted task run from 1 ms later; TASK_SWAP waits for its cycle with the staged object where the checks of R348 pass,
and completes with the status of the first that fails otherwise; TASK_STAGE appends its chunk; FORCE_SET and FORCE_RELEASE wait for their latch where
their checks pass; FORCE_RELEASE_ALL leaves no force and no change that waits. -/
def Obligations.TaskAndForceCommands : Prop :=
  (∀ (c : Acs) (s : State), Accepts s c 0x0700 inLineStates → c.args.length = 0 → ∃ p, AnswersOk (.taskList c) c 0x0700 s p
    ∧ p.length = 4 + 48 * s.ctl.tasks.length ∧ p.take 4 = le 4 (s.ctl.tasks.length + 256 * s.ctl.started))
  ∧ (∀ (c : Acs) (s : State), Accepts s c 0x0701 [.ready] → s.carriers = [] → c.args.length = 4 → c.arg 0 1 ≤ 1 → c.nonZero 1 3 = false
    → Answers (.taskStart c) s (fun t => t.node.state = (if s.node.lost = 0 then .run else .degraded) ∧ t.ctl.started = (if c.arg 0 1 = 1
    ∧ s.demotion = none then 2 else 1) ∧ t.ctl.forces = [] ∧ (t.cause .control).cause.getLsbD 1 = true))
  ∧ (∀ (c : Acs) (x : Task) (s : State), Accepts s c 0x0702 runStates → s.red.cmds = [] → s.carriers = [] → c.args.length = 4
    → c.nonZero 1 3 = false → s.enabledTask (c.arg 0 1) = some x → Answers (.taskStop c) s (fun t => (x.st = .running
    → (t.task? (c.arg 0 1)).map Task.st = some .stopped ∧ t.ctl.forces = s.ctl.forces.filter (fun f => !decide (f.task = c.arg 0 1)))
    ∧ (x.st = .stopped ∨ x.st = .faulted → t = done c 0x0702 stOk (le 8 x.lastCommit) (started c 0x0702 s))
    ∧ (x.st = .idle ∨ x.st = .remote ∨ x.st = .migIn → t = done c 0x0702 stWrongState [] (started c 0x0702 s)) ∧ t.node = s.node
    ∧ t.retain = s.retain))
  ∧ (∀ (c : Acs) (x : Task) (s : State), Accepts s c 0x0703 runStates → s.carriers = [] → c.args.length = 4 → c.nonZero 1 3 = false
    → s.enabledTask (c.arg 0 1) = some x → (x.st = .stopped ∨ x.st = .faulted)
    → Answers (.taskResume c) s (fun t => (t.task? (c.arg 0 1)).map (fun y => (y.st, y.ph, y.fromTick, y.cycle, y.committed)) = some (.running,
      .idle, s.now + 600000, x.cycle, x.committed)
    ∧ t.ctl.forces = s.ctl.forces ∧ t.node = s.node))
  ∧ (∀ (c : Acs) (x : Task) (s : State), Accepts s c 0x0704 runStates → s.red.cmds = [] → s.carriers = [] → c.args.length = 24
    → c.nonZero 1 3 = false → c.nonZero 22 2 = false → s.enabledTask (c.arg 0 1) = some x
    → Answers (.taskSwap c) s (fun t => (s.swapStatus x (c.arg 4 4) (ttOf (slice c.args 8 12)) (c.arg 20 2) = stOk
    → t.ctl.swaps = s.ctl.swaps ++
      [{ ref := some (c.ref 0x0704), task := x.index , atTick := if ttOf (slice c.args 8 12) = 0 then s.now + 1200000 else (s.toTicks (ttOf (slice c.args 8 12))).1, obj := s.ctl.stage }])
    ∧ (s.swapStatus x (c.arg 4 4) (ttOf (slice c.args 8 12)) (c.arg 20 2) ≠ stOk
    → t = done c 0x0704 (s.swapStatus x (c.arg 4 4) (ttOf (slice c.args 8 12)) (c.arg 20 2)) [] (started c 0x0704 s)) ∧ t.ctl.tasks = s.ctl.tasks
    ∧ t.node = s.node))
  ∧ (∀ (c : Acs) (s : State), Accepts s c 0x0705 runStates → 9 ≤ c.args.length → c.args.length ≤ 4072
    → s.stageFits (c.arg 0 4) (c.arg 4 4) (c.args.length - 8) = true
    → Answers (.taskStage c) s (fun t => t.ctl.stage = (if c.arg 0 4 = 0 then [] else s.ctl.stage) ++ c.args.drop 8 ∧ t.ctl.stageLen = c.arg 4 4
    ∧ t.ctl.staged = decide (t.ctl.stage.length = c.arg 4 4) ∧ t.ctl.tasks = s.ctl.tasks ∧ t.node = s.node))
  ∧ (∀ (c : Acs) (s : State), Accepts s c 0x0800 runStates → s.node.form = .simplex → c.args.length = 16 → 1 ≤ c.arg 4 1 → c.arg 4 1 ≤ 0x11
    → c.arg 6 1 ≤ 1 → c.nonZero 7 1 = false → Answers (.forceSet c) s (fun t => (s.forceStatus c.args ≠ stOk
    → t = done c 0x0800 (s.forceStatus c.args) [] (started c 0x0800 s)) ∧ (∀ n x v, s.owning (c.arg 0 4) = some (n, x, v)
    → s.forceStatus c.args = stOk
    → t.ctl.fwaits = s.ctl.fwaits ++
      [{ var := v.id, task := n, cycle := s.effCycle x, entry := some { var := v.id, typ := v.typ, task := n, input := v.inp.isSome, value := slice c.args 8 8 } }])
    ∧ t.ctl.forces = s.ctl.forces ∧ t.ctl.tasks = s.ctl.tasks))
  ∧ (∀ (c : Acs) (s : State), Accepts s c 0x0801 runStates → s.red.cmds = [] → s.node.form = .simplex → c.args.length = 4
    → s.forceVars.contains (c.arg 0 4) = true → Answers (.forceRelease c) s (fun t => (∀ n x v, s.owning (c.arg 0 4) = some (n, x, v)
    → t.ctl.fwaits = s.ctl.fwaits ++ [{ var := c.arg 0 4, task := n, cycle := s.effCycle x, entry := none }]) ∧ (s.owning (c.arg 0 4) = none
    → t = done c 0x0801 stBadArg [] (started c 0x0801 s)) ∧ t.ctl.forces = s.ctl.forces ∧ t.ctl.tasks = s.ctl.tasks))
  ∧ (∀ (c : Acs) (s : State), Accepts s c 0x0802 inLineStates → c.args.length = 4 → c.nonZero 2 2 = false
    → AnswersOk (.forceList c) c 0x0802 s (le 4 (min 250 (s.ctl.forces.length - c.arg 0 2)) ++ le 4 s.ctl.forces.length ++ ((s.ctl.forces.drop
      (c.arg 0 2)).take 250).flatMap Force.entryBytes))
  ∧ (∀ (c : Acs) (s : State), Accepts s c 0x0803 runStates → s.carriers = [] → c.args.length = 0
    → Answers (.forceReleaseAll c) s (fun t => t.ctl.forces = [] ∧ t.ctl.fwaits = [] ∧ t.ctl.tasks = s.ctl.tasks ∧ t.node = s.node))

/-! ## Wrangler -/

/-- The SCHEDULED instant of a second not yet started on the node's sending chip starts a round with its own REPORT; started, it only takes the
residences measured. A REPORT taken for the round under way joins its input set once, and none after the freeze; one of a round not yet started starts
it. A VERDICT replaces its sender's. The freeze closes the input set, the computation puts down the placement of R377 and the own VERDICT, an agreed
round is applied and ends, a home placement that is due is applied. A frozen round that is not agreed counts as disagreed and ends, and FALLBACK_COUNT
of them in a row bring fallback. MIN_DWELL ends for its task alone. -/
def Obligations.WranglerRounds : Prop :=
  (∀ (resA : Nat) (resB : Nat) (s : State), s.alive = true → s.wrSender = true → s.wr.lastSched ≠ some (s.trainNow / ttSec % 2 ^ 32)
    → Answers (.scheduledRound resA resB) s (fun t => t.wr.lastSched = some (s.trainNow / ttSec % 2 ^ 32)
    ∧ t.wr.round.map (fun r => (r.kind, r.round, r.frozen, r.reports.map Prod.fst)) = some (0, s.trainNow / ttSec % 2 ^ 32, false, [s.node.nid])
    ∧ t.wr.resA = min 0xFFFF resA ∧ t.wr.resB = min 0xFFFF resB ∧ t.wr.applied = s.wr.applied ∧ t.node = s.node ∧ t.ctl = s.ctl))
  ∧ (∀ (resA : Nat) (resB : Nat) (s : State), s.alive = true → s.wrSender = true → s.wr.lastSched = some (s.trainNow / ttSec % 2 ^ 32)
    → Answers (.scheduledRound resA resB) s (fun t => t = { s with wr := { s.wr with resA := min 0xFFFF resA, resB := min 0xFFFF resB } }))
  ∧ (∀ (f : Frame) (nid : Nid) (m : List Byte) (r : WrRound) (s : State), s.alive = true → s.wrTakes f = some (nid, m) → fBe m 0 1 = 1
    → s.wr.round = some r → r.kind = fBe m 12 1 → r.round = fBe m 16 4 → Answers (.reportReceive f) s (fun t => (r.frozen = false
    → r.reports.any (fun e => decide (e.1 = nid)) = false → t.wr.round = some { r with reports := r.reports ++ [(nid, m)] })
    ∧ (r.frozen = true ∨ r.reports.any (fun e => decide (e.1 = nid)) = true → t.wr.round = some r) ∧ t.wr.known.contains nid = true
    ∧ t.wr.seen.contains (nid, fBe m 2 2) = true ∧ t.ctl = s.ctl))
  ∧ (∀ (f : Frame) (nid : Nid) (m : List Byte) (s : State), s.alive = true → s.wrTakes f = some (nid, m) → fBe m 0 1 = 1 → s.wr.round = none
    → s.wr.unstarted (fBe m 12 1) (fBe m 16 4) = true
    → Answers (.reportReceive f) s (fun t => t.wr.round.map (fun r => (r.kind, r.round, r.frozen)) = some (fBe m 12 1, fBe m 16 4, false)
    ∧ t.wr.round.map (fun r => r.reports.head?) = some (some (nid, m)) ∧ t.ctl = s.ctl))
  ∧ (∀ (f : Frame) (s : State), s.wrTakes f = none → Answers (.reportReceive f) s (fun t => t = s))
  ∧ (∀ (f : Frame) (nid : Nid) (m : List Byte) (r : WrRound) (s : State), s.alive = true → s.wrTakes f = some (nid, m) → fBe m 0 1 = 2
    → s.wr.round = some r → r.kind = fBe m 12 1 → r.round = fBe m 16 4
    → Answers (.verdictReceive f) s (fun t => t.wr.round = some
      { r with verdicts := r.verdicts.filter (fun x => decide (x.nid ≠ nid)) ++ [{ nid := nid, digest := fBe m 24 4, fp := fBe m 28 4, moves := fBe m 32 2, unmet := fBe m 34 2 }] }
    ∧ t.ctl = s.ctl))
  ∧ (∀ (r : WrRound) (s : State), s.wrRuns = true → s.wr.round = some r
    → Answers .wranglerFreeze s (fun t => t.wr = { s.wr with round := some { r with frozen := true } } ∧ t.ctl = s.ctl))
  ∧ (∀ (r : WrRound) (s : State), s.wrRuns = true → s.wr.round = some r → r.frozen = true → r.own = none
    → Answers .placementComputed s (fun t => t.wr.round.map WrRound.place = some (some (WrWorldOps.place (s.wrWorld r)))
    ∧ t.wr.round.map (fun x => x.own.map (fun v => (v.nid, v.digest, v.fp))) = some (some (s.node.nid, inputDigest r, placeFp (WrWorldOps.place
      (s.wrWorld r))))
    ∧ t.wr.outlier = decide (s.policyDigest ≠ domainDigest r.inputs) ∧ t.wr.applied = s.wr.applied ∧ t.ctl = s.ctl))
  ∧ (∀ (r : WrRound) (s : State), s.wrRuns = true → s.wr.homeDue = none → s.wr.round = some r → r.agreed s.node.nid = true
    → Answers .placementApply s (fun t => t.wr.applied = r.place.getD [] ∧ t.wr.round = none ∧ t.wr.fallback = false ∧ t.wr.disagreed = 0
    ∧ (t.wr.appliedKind, t.wr.appliedRound, t.wr.appliedGen, t.wr.applyTick) = (r.kind, r.round, s.hitch.gen, s.now)
    ∧ (t.cause .wrangler).cause.getLsbD 0 = true ∧ t.node = s.node))
  ∧ (∀ (r : WrRound) (ps : List Placed) (s : State), s.wrRuns = true → s.wr.homeDue = some ps → s.wr.lastInputs = some r
    → Answers .placementApply s (fun t => t.wr.applied = ps ∧ t.wr.homeDue = none ∧ t.wr.round = s.wr.round ∧ t.wr.fallback = s.wr.fallback
    ∧ t.node = s.node))
  ∧ (∀ (r : WrRound) (s : State), s.wrRuns = true → s.wr.round = some r → r.frozen = true → r.agreed s.node.nid = false
    → Answers .roundDisagreeCheck s (fun t => t.wr.disagreed = s.wr.disagreed + 1 ∧ t.wr.lastInputs = some r
    ∧ t.wr.fallback = (s.wr.fallback || decide (s.fallbackCount ≤ s.wr.disagreed + 1)) ∧ (r.kind = 0 → t.wr.round = none)
    ∧ (t.cause .wrangler).cause.getLsbD 1 = true ∧ t.wr.applied = s.wr.applied ∧ t.ctl = s.ctl))
  ∧ (∀ (placeId : Nat) (s : State), Answers (.dwellExpiry placeId) s (fun t => t =
      { s with wr := { s.wr with dwell := s.wr.dwell.filter (fun x => decide (x ≠ placeId)) } }))

/-- At the destination a FULL taken whole is the bank held exactly and the task's committed bank, a piece of it is put in its place, OUTPUT and META
are put down, RELEASE names the first owned cycle, ABORT ends the migration and the task is the source's. At the source an ACK is the newest
acknowledged cycle, a latch counts an overlap cycle while the last commit is acknowledged and hands over once released, TAKEN ends the migration, and
one without an overlap cycle, or past MIG_EXTEND_MAX, is ended with the task still owned. WRANGLER_STATUS and PLACEMENT answer OK with 48 bytes, and
with 8 bytes and 24 for each task from the first index, at most 160; WRANGLER_HOLD sets HOLD. -/
def Obligations.MigrationsAndWranglerCommands : Prop :=
  (∀ (f : Frame) (nid : Nid) (m : List Byte) (g : Migration) (s : State), s.alive = true → s.wrTakes f = some (nid, m) → fBe m 0 1 = 3
    → s.wr.migs.find? (fun x => decide (x.id = fBe (m.drop 24) 0 4) && decide (x.peer = nid) && !x.out) = some g → s.mig? g.task = some g
    → Answers (.stateReceive f) s (fun t => (fBe (m.drop 24) 4 1 = 0 → bit (fBe (m.drop 24) 5 1) 0 = false
    → (t.mig? g.task).map (fun x => (x.bank, x.have_)) = some (putSlice g.bank (fBe (m.drop 48) 0 4) (m.drop 52), none)) ∧ (fBe (m.drop 24) 4 1 = 0
    → bit (fBe (m.drop 24) 5 1) 0 = true → g.deltas = []
    → (t.mig? g.task).map (fun x => (x.bank, x.have_)) = some (putSlice g.bank (fBe (m.drop 48) 0 4) (m.drop 52), some (fBe (m.drop 24) 8 8)))
    ∧ (fBe (m.drop 24) 4 1 = 0 → bit (fBe (m.drop 24) 5 1) 0 = true → g.deltas = [] → ∀ x, s.task? g.task = some x
    → (t.task? g.task).map (fun y => (y.committed, y.cycle)) = some (putSlice g.bank (fBe (m.drop 48) 0 4) (m.drop 52), fBe (m.drop 24) 8 8 + 1))
    ∧ (fBe (m.drop 24) 4 1 = 1 → g.have_ = none
    → (t.mig? g.task).map (fun x => (x.bank, x.deltas.length)) = some (g.bank , (g.deltas.filter (fun d => decide (d.cycle ≠ fBe (m.drop 24) 8
      8))).length + 1))
    ∧ (fBe (m.drop 24) 4 1 = 2 → (t.mig? g.task).map (fun x => (x.metaDone, x.bank)) = some (g.metaDone || bit (fBe (m.drop 24) 5 1) 0, g.bank))
    ∧ (fBe (m.drop 24) 4 1 = 3
    → (t.mig? g.task).map (fun x => (x.outImage, x.outDone)) = some (putSlice g.outImage (fBe (m.drop 48) 0 4) (m.drop 52) , g.outDone || bit (fBe
      (m.drop 24) 5 1) 0))
    ∧ t.node = s.node))
  ∧ (∀ (f : Frame) (nid : Nid) (m : List Byte) (g : Migration) (s : State), s.alive = true → s.wrTakes f = some (nid, m) → fBe m 0 1 = 4
    → s.wr.migs.find? (fun x => decide (x.id = fBe (m.drop 24) 0 4) && decide (x.peer = nid) && x.out) = some g → s.mig? g.task = some g
    → Answers (.ackReceive f) s (fun t => (t.mig? g.task).map Migration.acked = some (some (max (fBe (m.drop 24) 8 8) (g.acked.getD 0)))
    ∧ t.ctl = s.ctl ∧ t.node = s.node))
  ∧ (∀ (f : Frame) (nid : Nid) (m : List Byte) (g : Migration) (s : State), s.alive = true → s.wrTakes f = some (nid, m) → fBe m 0 1 = 5
    → s.wr.migs.find? (fun x => decide (x.id = fBe (m.drop 24) 0 4) && decide (x.peer = nid) && !x.out) = some g → s.mig? g.task = some g
    → Answers (.releaseReceive f) s (fun t => t.mig? g.task = some { g with release := some (fBe (m.drop 24) 8 8) } ∧ t.ctl = s.ctl
    ∧ t.node = s.node))
  ∧ (∀ (f : Frame) (nid : Nid) (m : List Byte) (g : Migration) (s : State), s.alive = true → s.wrTakes f = some (nid, m) → fBe m 0 1 = 6
    → s.wr.migs.find? (fun x => decide (x.id = fBe (m.drop 24) 0 4) && decide (x.peer = nid) && x.out) = some g
    → Answers (.takenReceive f) s (fun t => t.mig? g.task = none ∧ (s.wrActs = true → (t.cause .wrangler).cause.getLsbD 3 = true) ∧ t.ctl = s.ctl
    ∧ t.node = s.node))
  ∧ (∀ (f : Frame) (nid : Nid) (m : List Byte) (g : Migration) (s : State), s.alive = true → s.wrTakes f = some (nid, m) → fBe m 0 1 = 7
    → s.wr.migs.find? (fun x => decide (x.id = fBe (m.drop 24) 0 4) && decide (x.peer = nid) && !x.out) = some g
    → Answers (.abortReceive f) s (fun t => t.mig? g.task = none ∧ t.wr.dwell.contains g.id = true ∧ (∀ x, s.task? g.task = some x
    → (t.task? g.task).map (fun y => (y.st, y.pair, y.runNid)) = some (if nid = 0 then .idle else .remote, none, nid)) ∧ t.node = s.node))
  ∧ (∀ (task : Nat) (g : Migration) (tk : Task) (s : State), s.alive = true → s.mig? task = some g → s.task? task = some tk → g.out = true
    → g.released = none → (g.overlaps = 0 ∨ s.migExtend ≤ g.cycles) → Answers (.migrateAbort task) s (fun t => t.mig? task = none
    ∧ t.wr.dwell.contains g.id = true ∧ (t.task? task).map Task.st = some (if tk.st = .stopped ∨ tk.st = .faulted then tk.st else .running)
    ∧ (s.wrActs = true → (t.cause .wrangler).cause.getLsbD 3 = true) ∧ t.node = s.node))
  ∧ (∀ (task : Nat) (g : Migration) (tk : Task) (s : State), s.mig? task = some g → s.task? task = some tk
    → s.wr.dups.find? (fun d => decide (d.1 = task)) = none → g.out = true → g.released = none
    → Answers (.latch task 0 none) s (fun t => (t.mig? task).map (fun x => (x.overlaps, x.shadow)) = some (if g.acked = some tk.lastCommit
    ∧ g.fullSent = true then g.overlaps + 1 else g.overlaps , decide (g.acked = some tk.lastCommit ∧ g.fullSent = true)) ∧ t.node = s.node))
  ∧ (∀ (task : Nat) (g : Migration) (k : Nat) (tk : Task) (s : State), s.mig? task = some g → s.task? task = some tk
    → s.wr.dups.find? (fun d => decide (d.1 = task)) = none → g.out = true → g.released = some k → tk.st = .migOut
    → Answers (.latch task 0 none) s (fun t => (t.task? task).map (fun x => (x.st, x.pair, x.runNid, x.committed, x.cycle)) = some (.remote, none,
      g.peer, tk.committed, tk.cycle)
    ∧ t.node = s.node))
  ∧ (∀ (c : Acs) (s : State), Accepts s c 0x0900 inLineStates → c.args.length = 0 → s.placeDomain ≠ 0
    → ∃ p, AnswersOk (.wranglerStatus c) c 0x0900 s p ∧ p.length = 48 ∧ p.take 8 = le 4 s.placeDomain ++ wordBytes s.wr.appliedGen)
  ∧ (∀ (c : Acs) (s : State), Accepts s c 0x0901 inLineStates → c.args.length = 4 → s.placeDomain ≠ 0 → c.nonZero 2 2 = false
    → ∃ p, AnswersOk (.wranglerPlacement c) c 0x0901 s p ∧ p.length = 8 + 24 * min 160 (s.wr.applied.length - c.arg 0 2))
  ∧ (∀ (c : Acs) (s : State), Accepts s c 0x0902 inLineStates → s.carriers = [] → c.args.length = 4 → s.placeDomain ≠ 0 → c.arg 0 4 ≤ 1
    → Answers (.wranglerHold c) s (fun t => t.wr = { s.wr with hold := bit (c.arg 0 4) 0 } ∧ t.ctl = s.ctl ∧ t.node = s.node))

/-! ## Span and Troika -/

/-- HELLO_SEND sends each link's HELLO as it stands; HEARTBEAT_SEND sends on each link and changes none. A HELLO that agrees is accepted; one of
another NID is not, and where the peer is the reference the chip enters HELD. A HEARTBEAT gives role, flags and state; the third in a row brings the
link up. A link that goes down starts its counts and sequences anew, and in Span a spare takes its place until the hand-back. A NAK or 4 us without
acknowledgement sends again every frame not acknowledged, with its SEQ; an error asks for the expected SEQ. TIMING messages are stamped. A frame whose
link is down is taken by no channel. -/
def Obligations.TugLinks : Prop :=
  (∀ (l : Nat) (s : State), Inv s → s.alive = true → s.tugLinks.contains l = true → Answers .tugHelloSend s (fun t => (t.tug l).hello = s.helloBytes
    ∧ (t.tug l).txSeq = (s.tug l).txSeq ∧ Only [.out, .red] s t))
  ∧ (∀ (s : State), s.alive = true → Answers .heartbeatSend s (fun t => t.red = s.red ∧ t.out.length = s.out.length + s.tugLinks.length
    ∧ Only [.out] s t))
  ∧ (∀ (link : Nat) (data : List Byte) (s : State), Inv s → s.tugOn link = true → BitVec.ofNat 64 (fBe data 0 8) = s.node.nid
    → fBe data 9 1 = s.node.form.code → fBe data 10 2 = 0x0302 → BitVec.ofNat 256 (fBe data 12 32) = (s.tack.active.map Tack.nodeFp).getD 0
    → fBe data 8 1 ≠ s.node.chipIndex
    → Answers (.tugHelloReceive link data) s (fun t => ((t.tug link).helloOk, (t.tug link).peerIndex, (t.tug link).peerState) = (true, some (fBe
      data 8 1), fBe data 44 1)
    ∧ t.node = s.node))
  ∧ (∀ (link : Nat) (data : List Byte) (s : State), Inv s → s.tugOn link = true → BitVec.ofNat 64 (fBe data 0 8) ≠ s.node.nid → s.red.claim = true
    → Answers (.tugHelloReceive link data) s (fun t => (t.tug link).helloOk = false ∧ t.node = s.node ∧ Only [.red] s t))
  ∧ (∀ (link : Nat) (data : List Byte) (s : State), Inv s → s.tugOn link = true → BitVec.ofNat 64 (fBe data 0 8) ≠ s.node.nid → s.red.claim = false
    → (s.tug link).peerFlags % 4 ≠ 0 → s.node.state.inLine = true → Answers (.tugHelloReceive link data) s (fun t => t.node.state = .held
    ∧ t.node.heldCause = 2 ∧ (t.tug link).helloOk = false ∧ (t.cause .redund).cause.getLsbD 7 = true))
  ∧ (∀ (link : Nat) (data : List Byte) (s : State), Inv s → s.tugOn link = true
    → Answers (.heartbeatReceive link data) s (fun t => ((t.tug link).peerRole, (t.tug link).peerFlags, (t.tug link).peerState) = (fBe data 0 1, fBe
      data 1 1, fBe data 2 1)
    ∧ (t.tug link).beats = min 3 ((s.tug link).beats + 1) ∧ (t.tug link).up = ((s.tug link).up || decide (2 ≤ (s.tug link).beats))
    ∧ ((s.tug link).up = false → 2 ≤ (s.tug link).beats → (t.cause .redund).cause.getLsbD 5 = true)))
  ∧ (∀ (link : Nat) (lockLost : Bool) (s : State), Inv s → s.tugOn link = true → (s.tug link).up = true
    → Answers (.tugLinkDown link lockLost) s (fun t => ((t.tug link).up, (t.tug link).beats, (t.tug link).unacked, (t.tug link).rxSeq, (t.tug
      link).txSeq) = (false, 0, [], 1, 1)
    ∧ (s.node.form = .span → link = 0 → s.tug1Spare = true → (s.tug 1).up = true → t.red.onSpare = true)
    ∧ (t.cause .redund).cause.getLsbD 5 = true))
  ∧ (∀ (s : State), Inv s → s.alive = true → s.red.onSpare = true → (s.tug 0).up = true → Answers .tug1Handback s (fun t => t.red.onSpare = false
    ∧ ((t.tug 1).unacked, (t.tug 1).waiting) = ([], []) ∧ t.node = s.node))
  ∧ (∀ (link : Nat) (stamp : Stamp) (s : State), Inv s → s.tugOn link = true
    → Answers (.tugTimingSend link stamp) s (fun t => (t.tug link).tSeq = (if (s.tug link).tSeq = 0xFFFE then 0 else (s.tug link).tSeq + 1)
    ∧ (t.tug link).tHist = (((s.tug link).tSeq, stamp) :: (s.tug link).tHist).take 4 ∧ (t.tug link).tLat = (s.tug link).tRx
    ∧ Only [.out, .red] s t))
  ∧ (∀ (link : Nat) (stamp : Stamp) (data : List Byte) (s : State), Inv s → s.tugOn link = true
    → Answers (.timingReceive link stamp data) s (fun t => (t.tug link).tRx = some (fBe data 0 2, stamp) ∧ (t.tug link).tHist = (s.tug link).tHist
    ∧ Only [.red] s t))
  ∧ (∀ (link : Nat) (data : List Byte) (s : State), Inv s → s.tugOn link = true → (s.tug link).up = true
    → Answers (.nakReceive link data) s (fun t => (t.tug link).unacked = (s.tug link).unacked.filter (fun m => decide (32768 ≤ ((fBe data 0 2 +
      65535) % 65536 + 65536 - m.seq) % 65536))
    ∧ (∀ m, m ∈ (t.tug link).unacked → Output.tug link m.seq (s.tug link).ackNow true m.chan m.typ m.data ∈ t.out)
    ∧ ((t.tug link).txSeq, (t.tug link).rxSeq) = ((s.tug link).txSeq, (s.tug link).rxSeq)))
  ∧ (∀ (link : Nat) (s : State), Inv s → s.tugOn link = true → (s.tug link).up = true
    → Answers (.tugReplayTimeout link) s (fun t => (t.tug link).unacked = (s.tug link).unacked ∧ (∀ m, m ∈ (s.tug link).unacked
    → Output.tug link m.seq (s.tug link).ackNow true m.chan m.typ m.data ∈ t.out)
    ∧ ((t.tug link).txSeq, (t.tug link).rxSeq) = ((s.tug link).txSeq, (s.tug link).rxSeq)))
  ∧ (∀ (link : Nat) (crc : Bool) (s : State), Inv s → s.tugOn link = true
    → Answers (.tugFrameError link crc) s (fun t => t.out.getLast? = some (.tug link 0 (s.tug link).ackNow false .link 4 (be 2 (s.tug link).rxSeq ++
      zeros 2))
    ∧ (t.tug link).crcErrors = (if crc then min 0xFFFFFFFF ((s.tug link).crcErrors + 1) else (s.tug link).crcErrors)
    ∧ (t.tug link).rxSeq = (s.tug link).rxSeq))
  ∧ (∀ (m : TugRx) (s : State), s.tugOn m.link = false ∨ (s.tug m.link).up = false → Answers (.tugSyncMessage m) s (fun t => t = s))

/-- A frame with the expected SEQ on an up link is taken. SYNC: a counter value and the force table are put down, a SAFE event brings a chip that runs
to SAFE. STATE: FULL, OUTPUT and META build the copy of a task; an END whose check agrees makes its cycle complete, and a Span standby holds it as its
own, one that does not asks for FULL. AGREE: pieces join; an INPUT and a CHECK of a task not waiting for them are held; at the limit the image agreed
on those held makes the task ready; a vote with a majority puts its output out, one without is held. FRAME: segments join. MGMT: a command takes its
place; an answer strikes its chip off; a command applied by every chip goes; at the time-out the links of the chips left go down. -/
def Obligations.NodeSharing : Prop :=
  (∀ (m : TugRx) (s : State), Inv s → s.tugOn m.link = true → (s.tug m.link).up = true → m.seq % 65536 = (s.tug m.link).rxSeq
    → Answers (.tugSyncMessage m) s (fun t => (m.typ = 6 → t.time = { s.time with leaderAt := fBe m.data 0 8 }
    ∧ (t.tug m.link).rxSeq = ((s.tug m.link).rxSeq + 1) % 65536) ∧ (m.typ = 5 → s.node.state.running = true → t.node.state = .safe
    ∧ t.red.nodeSafe = true) ∧ (m.typ = 8 → s.red.role = .syncing → fBe m.data 0 1 = 1
    → t.ctl =
      { s.ctl with forces := (records (m.data.drop 1) 16).map (fun r => ({ var := fLe r 0 4, typ := fLe r 4 1, task := fLe r 5 1, input := decide (fLe r 6 1 = 1), value := slice r 8 8 } : Force)) })))
  ∧ (∀ (m : TugRx) (s : State), Inv s → s.tugOn m.link = true → (s.tug m.link).up = true → m.seq % 65536 = (s.tug m.link).rxSeq
    → s.node.state.running = true → Answers (.safeNodeEvent m) s (fun t => t.node.state = .safe ∧ t.red.nodeSafe = true ∧ t.ctl.forces = []))
  ∧ (∀ (m : TugRx) (s : State), Inv s → s.tugOn m.link = true → (s.tug m.link).up = true → m.seq % 65536 = (s.tug m.link).rxSeq
    → s.keepsCopies = true → Answers (.statePartReceive m) s (fun t => (fBe m.data 1 1 = 5
    → (Store.find t.red.copies (partTask m.data)).map (fun c => (c.bank, c.full)) = some (((Store.find s.red.copies (partTask m.data)).getD
      {}).bank.take (partOff m.data) ++ partData m.data, bit (partFlags m.data) 0))
    ∧ (fBe m.data 1 1 = 2
    → (Store.find t.red.copies (partTask m.data)).map TaskCopy.output = some (((Store.find s.red.copies (partTask m.data)).getD {}).output.take
      (partOff m.data) ++ partData m.data))
    ∧ (fBe m.data 1 1 = 3 → (Store.find t.red.copies (partTask m.data)).map TaskCopy.info = some (partData m.data)) ∧ (fBe m.data 1 1 = 6
    → t.red.copies = s.red.copies) ∧ t.ctl = s.ctl ∧ t.node = s.node))
  ∧ (∀ (m : TugRx) (c : TaskCopy) (s : State), Inv s → s.tugOn m.link = true → (s.tug m.link).up = true → m.seq % 65536 = (s.tug m.link).rxSeq
    → s.node.form = .span → s.red.role = .standby → Store.find s.red.copies (partTask m.data) = some c → c.full = true
    → (crc32 c.lines).toNat = fBe (partData m.data) 0 4
    → Answers (.stateEndReceive m) s (fun t => (Store.find t.red.copies (partTask m.data)).map (fun x => (x.complete, x.lines, x.bank)) = some (some
      (partCycle m.data), [], c.bank)
    ∧ (∀ tk, s.task? (partTask m.data) = some tk
    → (t.task? (partTask m.data)).map (fun x => (x.committed, x.output, x.lastCommit)) = some (c.bank, c.output, partCycle m.data))
    ∧ t.red.role = .standby))
  ∧ (∀ (m : TugRx) (c : TaskCopy) (s : State), Inv s → s.tugOn m.link = true → (s.tug m.link).up = true → m.seq % 65536 = (s.tug m.link).rxSeq
    → s.keepsCopies = true → Store.find s.red.copies (partTask m.data) = some c → c.full = true → (crc32 c.lines).toNat ≠ fBe (partData m.data) 0 4
    → Answers (.stateEndReceive m) s (fun t => Store.find t.red.copies (partTask m.data) = some { c with lines := [], full := false }
    ∧ t.ctl = s.ctl ∧ t.node = s.node))
  ∧ (∀ (m : TugRx) (tk : Task) (s : State), Inv s → s.tugOn m.link = true → (s.tug m.link).up = true → m.seq % 65536 = (s.tug m.link).rxSeq
    → s.red.claim = true → s.task? (partTask m.data) = some tk → tk.ph ≠ .waiting
    → Answers (.agreeInputReceive m) s (fun t => (bit (partFlags m.data) 0 = true
    → (t.red.inputs.getLast?).map (fun x => (x.chip, x.task, x.cycle)) = some (s.linkChip m.link, partTask m.data, partCycle m.data))
    ∧ (bit (partFlags m.data) 0 = false → t.red.inputs = s.red.inputs
    ∧ (t.red.parts.getLast?).map (fun r => (r.link, r.chan, r.num)) = some (m.link, .agree, partTask m.data * 256 + 0x11))
    ∧ t.red.outputs = s.red.outputs ∧ t.ctl = s.ctl))
  ∧ (∀ (task : Nat) (tk : Task) (s : State), s.alive = true → s.node.form = .troika → s.red.claim = true → s.task? task = some tk
    → s.agreeing task tk = true
    → Answers (.agreeTimeout task) s (fun t => (t.task? task).map (fun x => (x.input, x.again, x.cycle)) = some ((agreeImage tk (((heldOf
      s.red.inputs task tk.cycle).filter (fun x => s.red.members.getLsbD x.chip)).map HeldImage.data)).1 , false, tk.cycle)
    ∧ t.red.inputs = s.red.inputs.filter (fun x => decide (x.task ≠ task) || decide (tk.cycle < x.cycle)) ∧ t.node = s.node))
  ∧ (∀ (m : TugRx) (tk : Task) (s : State), Inv s → s.tugOn m.link = true → (s.tug m.link).up = true → m.seq % 65536 = (s.tug m.link).rxSeq
    → s.red.claim = true → s.task? (partTask m.data) = some tk → tk.ph ≠ .ended → tk.ph ≠ .held
    → Answers (.agreeOutputReceive m) s (fun t => (fBe m.data 1 1 ≠ 0x12
    → (t.red.outputs.getLast?).map (fun x => (x.chip, x.task, x.cycle, x.absent)) = some (s.linkChip m.link, partTask m.data, partCycle m.data, bit
      (partFlags m.data) 1))
    ∧ (fBe m.data 1 1 = 0x12 → t.red.outputs = s.red.outputs) ∧ t.red.inputs = s.red.inputs ∧ t.ctl = s.ctl))
  ∧ (∀ (task : Nat) (tk : Task) (w : HeldImage) (s : State), s.alive = true → s.node.form = .troika → s.red.claim = true → s.task? task = some tk
    → (tk.ph = .ended ∨ tk.ph = .held)
    → s.red.outputs.any (fun x => decide (x.task = task) && decide (x.cycle = tk.cycle) && decide (x.chip = s.node.chipIndex)) = true
    → (((heldOf s.red.outputs task tk.cycle).filter (fun x => s.memberList.contains x.chip)).filter (fun x => !x.absent)).find? (fun x => decide
      (s.memberList.length < 2 * ((((heldOf s.red.outputs task tk.cycle).filter (fun x => s.memberList.contains x.chip)).filter (fun x =>
      !x.absent)).filter (fun y => decide (x.data = y.data) && decide (x.check = y.check))).length)) = some w
    → Answers (.voteTimeout task) s (fun t => (t.task? task).map (fun x => (x.cycle, x.lastCommit, x.output, x.outHeld)) = some (tk.cycle + 1,
      tk.cycle, w.data, false)
    ∧ Store.get 0 t.stats.count (statRedund 12) = min (Store.get 0 s.stats.count (statRedund 12) + 1) statMax
    ∧ t.red.outputs = s.red.outputs.filter (fun x => decide (x.task ≠ task) || decide (tk.cycle < x.cycle)) ∨ t.red.outputs = []))
  ∧ (∀ (task : Nat) (tk : Task) (s : State), s.alive = true → s.node.form = .troika → s.red.claim = true → s.task? task = some tk
    → (tk.ph = .ended ∨ tk.ph = .held)
    → s.red.outputs.any (fun x => decide (x.task = task) && decide (x.cycle = tk.cycle) && decide (x.chip = s.node.chipIndex)) = true
    → (((heldOf s.red.outputs task tk.cycle).filter (fun x => s.memberList.contains x.chip)).filter (fun x => !x.absent)).find? (fun x => decide
      (s.memberList.length < 2 * ((((heldOf s.red.outputs task tk.cycle).filter (fun x => s.memberList.contains x.chip)).filter (fun x =>
      !x.absent)).filter (fun y => decide (x.data = y.data) && decide (x.check = y.check))).length)) = none
    → tk.voteHeld + 1 < s.voteLimit
    → Answers (.voteTimeout task) s (fun t => (t.task? task).map (fun x => (x.ph, x.cycle, x.prevHeld, x.voteHeld)) = some (.idle, tk.cycle + 1,
      true, tk.voteHeld + 1)
    ∧ (t.task? task).map (fun x => (x.committed, x.output)) = some (tk.committed, tk.output) ∧ (t.cause .redund).cause.getLsbD 4 = true
    ∧ (t.cause .control).cause.getLsbD 2 = true ∧ t.node = s.node ∧ t.retain = s.retain))
  ∧ (∀ (m : TugRx) (s : State), Inv s → s.tugOn m.link = true → (s.tug m.link).up = true → m.seq % 65536 = (s.tug m.link).rxSeq
    → bit (fBe m.data 3 1) 1 = false → (bit (fBe m.data 3 1) 0 = true ∨ ∃ r, r ∈ s.red.parts ∧ r.link = m.link ∧ r.chan = .frame
    ∧ r.num = fBe m.data 4 2)
    → Answers (.frameSegmentReceive m) s (fun t => (t.red.parts.getLast?).map (fun r => (r.link, r.chan, r.num, r.head)) = some (m.link, .frame, fBe
      m.data 4 2, m.data.take 16)
    ∧ (bit (fBe m.data 3 1) 0 = true → (t.red.parts.getLast?).map Reassembly.data = some (m.data.drop 16)) ∧ t.sw = s.sw ∧ t.ctl = s.ctl))
  ∧ (∀ (m : TugRx) (s : State), Inv s → s.tugOn m.link = true → (s.tug m.link).up = true → m.seq % 65536 = (s.tug m.link).rxSeq → m.typ = 1
    → (mgmtCmd s m.link m.data).opcode ≠ 0x0A03 → Answers (.mgmtCommandReceive m) s (fun t => ((mgmtCmd s m.link m.data).opcode = 0x0705
    → t.ctl.stage = (if fLe (mgmtCmd s m.link m.data).args 0 4 = 0 then [] else s.ctl.stage) ++ (mgmtCmd s m.link m.data).args.drop 8)
    ∧ ((mgmtCmd s m.link m.data).opcode ≠ 0x0705 → s.coordinator = true → (mgmtCmd s m.link m.data).gen = 0
    → t.red.cmds = s.red.cmds ++ [mgmtCmd s m.link m.data]) ∧ ((mgmtCmd s m.link m.data).opcode ≠ 0x0705 → s.coordinator = true
    → (mgmtCmd s m.link m.data).gen ≠ 0 → (mgmtCmd s m.link m.data).gen ≠ s.hitch.gen → t.red.cmds = s.red.cmds)
    ∧ ((mgmtCmd s m.link m.data).opcode ≠ 0x0705 → s.coordinator = false
    → s.red.cmds.any (fun d => !d.ordered && d.same (mgmtCmd s m.link m.data)) = false → t.red.cmds = s.red.cmds ++ [mgmtCmd s m.link m.data])
    ∧ t.node = s.node))
  ∧ (∀ (m : TugRx) (c : NodeCmd) (s : State), Inv s → s.tugOn m.link = true → (s.tug m.link).up = true → m.seq % 65536 = (s.tug m.link).rxSeq
    → m.typ = 2 → fLe m.data 2 2 = stOk → s.red.cmds = [c] → c.ref.isSome = true → c.opcode = fLe m.data 0 2 → c.tag.toNat = fLe m.data 4 2
    → c.left.contains (s.linkChip m.link) = true → c.applied = true → c.result.isSome = true
    → Answers (.mgmtResponseReceive m) s (fun t => (c.left = [s.linkChip m.link] → t.red.cmds = [])
    ∧ (c.left.filter (fun i => decide (i ≠ s.linkChip m.link)) ≠ []
    → t.red.cmds.map NodeCmd.left = [c.left.filter (fun i => decide (i ≠ s.linkChip m.link))]) ∧ t.node = s.node))
  ∧ (∀ (c : NodeCmd) (s : State), s.alive = true → s.red.cmds = [c] → c.ordered = true → c.applied = false → c.opcode = 0x0902
    → (c.ref = none ∨ c.left ≠ []) → Answers .nodeWideApply s (fun t => t.wr.hold = bit (fLe c.args 0 4) 0 ∧ (c.ref = none → t.red.cmds = [])
    ∧ (∀ r, c.ref = some r → t.red.cmds.map (fun d => (d.ref, d.applied, d.left)) = [(some r, true, c.left)]) ∧ t.ctl = s.ctl ∧ t.node = s.node))
  ∧ (∀ (c : NodeCmd) (s : State), Inv s → s.alive = true → s.red.cmds = [c] → c.ref.isSome = true → c.left ≠ []
    → Answers .nodeWideTimeout s (fun t => (∀ l, l ∈ s.carriers → c.left.contains (s.linkChip l) = true → (t.tug l).up = false) ∧ (c.applied = false
    → t.red.cmds = [{ c with left := [], ordered := true }]) ∧ (c.applied = true → t.red.cmds = [])))

/-- A claim input that changes is taken, its cause raised, and the members follow the signals. A Span chip that may claims and is the active; a claim
heard but not seen on the wire raises CLAIM_WIRE; a synchronised Troika chip becomes a member at the second. The time leader's pulse rises and falls
and its counter is told; an edge that agrees keeps lock, one that differs by more than 2/16 tick or two missed pulses lose it, and the chip with it
its claim. REDUND_STATUS and TUG answer OK with 32 and 48 bytes; a switch waits for its instant, at which the active gives up its claim;
REDUND_EXCLUDE of this chip, REDUND_REJOIN. A node-wide command on a node with links joins the commands under way with the chips that have to apply
it. -/
def Obligations.RolesAndMembership : Prop :=
  (∀ (pin : Nat) (level : Bool) (s : State), s.alive = true → pin ≤ 1 → (if pin = 0 then s.red.peerClaim0 else s.red.peerClaim1) ≠ level
    → (s.node.form = .span ∨ (s.node.form = .troika ∧ s.red.claim = false)) → s.node.active = s.red.claim
    → Answers (.peerClaimChange pin level) s (fun t => (t.red.peerClaim0, t.red.peerClaim1) = (if pin = 0 then level else s.red.peerClaim0, if pin =
      0 then s.red.peerClaim1 else level)
    ∧ t.red.members = t.memberBits ∧ t.red.claim = s.red.claim ∧ (t.cause .redund).cause.getLsbD 0 = true))
  ∧ (∀ (pin : Nat) (level : Bool) (s : State), s.node.form = .simplex → pin ≤ 1
    → Answers (.peerClaimChange pin level) s (fun t => t =
      { s with red := { s.red with peerClaim0 := if pin = 0 then level else s.red.peerClaim0, peerClaim1 := if pin = 0 then s.red.peerClaim1 else level } }))
  ∧ (∀ (s : State), s.alive = true → s.mayClaim = true → Answers .claimWaitExpiry s (fun t => t.red.claim = true ∧ t.red.role = .active
    ∧ t.node.active = true ∧ (t.cause .redund).cause.getLsbD 0 = true ∧ (s.red.role = .standby → t.red.copies = [] ∨ t.node.state.running = false)))
  ∧ (∀ (s : State), s.mayClaim = false → Answers .claimWaitExpiry s (fun t => t = s))
  ∧ (∀ (s : State), s.alive = true → s.node.form = .span → s.red.peerClaim0 = false → s.red.tugs.any (fun x => x.up && bit x.peerFlags 0) = true
    → Answers .claimWireTimeout s (fun t => (t.cause .redund).cause.getLsbD 8 = true ∧ t.red.claim = s.red.claim ∧ t.red.role = s.red.role
    ∧ t.node = s.node))
  ∧ (∀ (s : State), s.alive = true → s.node.form = .troika → s.red.role = .syncing → s.node.state.inLine = true → s.node.state ≠ .safe
    → (s.red.members = 0 ∨ (s.synced = true ∧ s.time.tbLock = true)) → Answers .rejoinMembership s (fun t => t.red.role = .member
    ∧ t.red.claim = true ∧ t.node.active = true ∧ (t.red.copies, t.red.inputs, t.red.outputs, t.red.dissents) = ([], [], [], [])
    ∧ (t.cause .redund).cause.getLsbD 0 = true))
  ∧ (∀ (s : State), s.pulses = true → Answers .syncOutPulse s (fun t => t.time.leaderAt = s.now ∧ t.time.syncOut = .high ∧ t.node = s.node
    ∧ t.ctl = s.ctl))
  ∧ (∀ (s : State), s.pulses = false → Answers .syncOutPulse s (fun t => t = s))
  ∧ (∀ (s : State), s.pulses = true → s.time.syncOut = .high → Answers .syncOutPulseEnd s (fun t => t.time = { s.time with syncOut := .low }
    ∧ Only [.out, .time] s t))
  ∧ (∀ (stamp : Stamp) (leader : Nat) (s : State), s.alive = true → s.node.form = .troika → s.time.tbLock = true
    → (16 * (leader : Int) - (((stamp.tick * 16 + stamp.frac % 16 : Nat) : Int) - s.tbSkew)) - s.time.tbDelta ≤ 2
    → s.time.tbDelta - (16 * (leader : Int) - (((stamp.tick * 16 + stamp.frac % 16 : Nat) : Int) - s.tbSkew)) ≤ 2
    → Answers (.syncInEdge stamp leader) s (fun t => t = { s with time := { s.time with leaderAt := leader, tbMissed := 0 } }))
  ∧ (∀ (stamp : Stamp) (leader : Nat) (s : State), s.alive = true → s.node.form = .troika → s.time.tbLock = true
    → (2 < (16 * (leader : Int) - (((stamp.tick * 16 + stamp.frac % 16 : Nat) : Int) - s.tbSkew)) - s.time.tbDelta ∨ 2 < s.time.tbDelta - (16 *
      (leader : Int) - (((stamp.tick * 16 + stamp.frac % 16 : Nat) : Int) - s.tbSkew)))
    → Answers (.syncInEdge stamp leader) s (fun t => t.time.tbLock = false ∧ (t.cause .time).cause.getLsbD 10 = true ∧ (s.red.claim = true
    → s.red.role ≠ .excluded → t.red.role = .excluded ∧ t.red.claim = false ∧ t.red.excludeCause = 2)))
  ∧ (∀ (stamp : Stamp) (leader : Nat) (s : State), s.alive = true → s.node.form = .troika → s.time.tbLock = false → s.time.tbCount = 15
    → s.time.tbCand = 16 * (leader : Int) - (((stamp.tick * 16 + stamp.frac % 16 : Nat) : Int) - s.tbSkew)
    → Answers (.syncInEdge stamp leader) s (fun t => t.time.tbLock = true ∧ t.time.tbDelta = s.time.tbCand ∧ t.time.tbCount = 16
    ∧ Only [.time] s t))
  ∧ (∀ (s : State), s.alive = true → s.node.form = .troika → s.time.tbLock = true → Answers .syncPulseTimeout s (fun t => t.time.tbLock = false
    ∧ (t.cause .time).cause.getLsbD 10 = true ∧ (s.red.claim = true → s.red.role ≠ .excluded → t.red.role = .excluded ∧ t.red.claim = false
    ∧ t.red.excludeCause = 2)))
  ∧ (∀ (c : Acs) (s : State), Accepts s c 0x0A00 inLineStates → c.args.length = 0 → s.node.form ≠ .simplex
    → ∃ p, AnswersOk (.redundStatus c) c 0x0A00 s p ∧ p.length = 32
    ∧ p.take 3 = [byte s.node.form.code, byte s.node.chipIndex, byte s.red.role.code])
  ∧ (∀ (c : Acs) (s : State), Accepts s c 0x0A01 inLineStates → c.args.length = 0 → s.node.form ≠ .simplex
    → AnswersOk (.redundTug c) c 0x0A01 s (s.tugEntry 0 ++ s.tugEntry 1) ∧ (s.tugEntry 0 ++ s.tugEntry 1).length = 48)
  ∧ (∀ (c : Acs) (s : State), Accepts s c 0x0A02 inLineStates → c.args.length = 16 → c.nonZero 14 2 = false → s.node.form = .span
    → s.hasStandby = true → c.arg 12 2 = s.time.epoch.toNat → Answers (.redundSwitch c) s (fun t => (s.carriers = [] → s.red.role = .active
    → ttOf (c.args.take 12) ≠ 0 → t.red.switchAt = some (some (c.ref 0x0A02), ttOf (c.args.take 12))) ∧ (s.carriers = [] → s.red.role = .active
    → ttOf (c.args.take 12) = 0 → t.red.role = .standby ∧ t.red.claim = false ∧ t.red.switchAt = none) ∧ (s.carriers ≠ []
    → t.red.cmds = s.red.cmds ++
      [{ ref := some (c.ref 0x0A02), chip := s.node.chipIndex, opcode := 0x0A02, tag := c.tag, gen := c.gen, args := c.args , left := s.carriers.map s.linkChip, ordered := s.coordinator }])
    ∧ t.ctl.forces = s.ctl.forces))
  ∧ (∀ (ref : Option AcsRef) (at_ : Nat) (s : State), s.alive = true → s.node.form = .span → s.red.role = .active → s.red.switchAt = some (ref, at_)
    → Answers .redundSwitchInstant s (fun t => t.red.role = .standby ∧ t.red.claim = false ∧ t.red.switchAt = none ∧ (s.red.claim = true
    → t.node.active = false) ∧ t.ctl.tasks.map (fun e => (e.1, e.2.ph)) = s.ctl.tasks.map (fun e => (e.1, CyclePh.idle))))
  ∧ (∀ (c : Acs) (s : State), Accepts s c 0x0A03 inLineStates → c.args.length = 4 → c.arg 0 1 ≤ 2 → c.nonZero 1 3 = false → s.node.form = .troika
    → 2 ≤ (s.memberList.filter (fun j => decide (j ≠ c.arg 0 1))).length → Answers (.redundExclude c) s (fun t => (c.arg 0 1 = s.node.chipIndex
    → s.red.role ≠ .excluded → t.red.role = .excluded ∧ t.red.claim = false ∧ t.red.excludeCause = 6) ∧ (c.arg 0 1 ≠ s.node.chipIndex
    → t.red.role = s.red.role ∧ t.red.claim = s.red.claim ∧ t.node = s.node)))
  ∧ (∀ (c : Acs) (s : State), Accepts s c 0x0A04 inLineStates → c.args.length = 0 → s.node.form ≠ .simplex → s.red.excludeCause ≠ 1
    → s.red.excludeCause ≠ 3 → s.red.needRejoin = true → Answers (.redundRejoin c) s (fun t => t.red.needRejoin = false ∧ t.red.claim = s.red.claim
    ∧ t.node = s.node ∧ t.ctl = s.ctl))

/-! ## CAN channels -/

/-- A start of frame on a channel that transmits makes the chosen buffer active; found in error, a host's buffer ends cancelled. A frame that loses
arbitration or fails returns its buffer to TX_PENDING, with a cancel that came late it ends cancelled; one that succeeds ends TX_DONE with its event
bit, or sends its next content. An error moves TEC or REC and LEC; the 16th bit error in a data field suspends its buffer; the return from bus-off
clears the counters. Integration makes the channel take part. TX_PENDING written to a host's buffer at rest requests its transmission, or ends it
cancelled where its fields or the state forbid it; TX_IDLE sets it idle. A cancel ends a pending buffer. -/
def Obligations.CanTransmission : Prop :=
  (∀ (ch : Nat) (b : Nat) (s : State), Inv s → ((s.canCh ch).mode = 1 ∨ (s.canCh ch).mode = 4) → (s.canCh ch).ready = true
    → (s.canCh ch).busOff = false → (s.canCh ch).active = none → s.node.state.running = true → (s.canCh ch).choose = some b
    → Answers (.canStartOfFrame ch false) s (fun t => (t.canCh ch).active = some b
    ∧ (((t.canCh ch).buf b).code, ((t.canCh ch).buf b).msg.sof, ((t.canCh ch).buf b).msg.data) = (cTxActive, s.now, ((s.canCh ch).buf b).msg.data)
    ∧ t.out = s.out ++ [.can ch b] ∧ Only [.can, .out] s t))
  ∧ (∀ (ch : Nat) (b : Nat) (s : State), Inv s → ((s.canCh ch).mode = 1 ∨ (s.canCh ch).mode = 4) → (s.canCh ch).ready = true
    → (s.canCh ch).busOff = false → (s.canCh ch).active = none → s.node.state.running = true → (s.canCh ch).choose = some b → s.canHost ch b = true
    → s.canKind ch b = 2
    → Answers (.canStartOfFrame ch true) s (fun t => (((t.canCh ch).buf b).code, ((t.canCh ch).buf b).parity) = (cTxCancelled, true)
    ∧ (t.cause (.can ch)).cause.getLsbD 10 = true ∧ t.node = s.node))
  ∧ (∀ (ch : Nat) (b : Nat) (s : State), Inv s → (s.canCh ch).active = some b → ((s.canCh ch).buf b).code = cTxActive → (s.canCh ch).pendCfg = none
    → ((s.canCh ch).buf b).next = none → (s.canHost ch b = false ∨ s.canMayAsk = true)
    → Answers (.canArbitrationLost ch) s (fun t => (((s.canCh ch).buf b).cancel = false → ((t.canCh ch).buf b).code = cTxPending
    ∧ ((t.canCh ch).buf b).msg = ((s.canCh ch).buf b).msg) ∧ (((s.canCh ch).buf b).cancel = true → ((t.canCh ch).buf b).code = cTxCancelled
    ∧ ((t.canCh ch).buf b).late = true) ∧ (t.canCh ch).active = none ∧ (t.canCh ch).tec = (s.canCh ch).tec
    ∧ Store.get 0 t.stats.count (statCan ch 4) = min (Store.get 0 s.stats.count (statCan ch 4) + 1) statMax ∧ t.node = s.node))
  ∧ (∀ (ch : Nat) (b : Nat) (s : State), Inv s → (s.canCh ch).active = some b → (s.canCh ch).mode = 1 → (s.canCh ch).pendCfg = none
    → ((s.canCh ch).buf b).next = none → s.canHost ch b = true → s.txnBuffer ch ≠ some b → s.br.sessions.all (fun e => e.2.queue.isEmpty) = true
    → Answers (.canTxSuccess ch) s (fun t => (((t.canCh ch).buf b).code, ((t.canCh ch).buf b).late, ((t.canCh ch).buf b).bitRun) = (cTxDone,
      ((s.canCh ch).buf b).cancel, 0)
    ∧ (t.canCh ch).active = none ∧ (t.canCh ch).tec = (s.canCh ch).tec - 1 ∧ (t.canCh ch).txEvent = (s.canCh ch).txEvent ||| (1#128 <<< b)
    ∧ Store.get 0 t.stats.count (statCan ch 2) = min (Store.get 0 s.stats.count (statCan ch 2) + 1) statMax
    ∧ (t.cause (.can ch)).cause.getLsbD 1 = true ∧ t.node = s.node))
  ∧ (∀ (ch : Nat) (b : Nat) (m : CanMsg) (s : State), Inv s → (s.canCh ch).active = some b → (s.canCh ch).mode = 1 → (s.canCh ch).pendCfg = none
    → ((s.canCh ch).buf b).next = some m → s.txnBuffer ch ≠ some b → s.br.sessions.all (fun e => e.2.queue.isEmpty) = true
    → Answers (.canTxSuccess ch) s (fun t => (((t.canCh ch).buf b).code, ((t.canCh ch).buf b).msg, ((t.canCh ch).buf b).next) = (cTxPending, m, none)
    ∧ (t.canCh ch).active = none ∧ (t.canCh ch).tec = (s.canCh ch).tec - 1))
  ∧ (∀ (ch : Nat) (kind : Nat) (inData : Bool) (exempt : Bool) (extra : Nat) (tdc : Bool) (b : Nat) (s : State), Inv s → (s.canCh ch).mode = 1
    → (s.canCh ch).ready = true → (s.canCh ch).busOff = false → 1 ≤ kind → kind ≤ 6 → (s.canCh ch).active = some b
    → ((s.canCh ch).buf b).code = cTxActive → ((s.canCh ch).buf b).cancel = false → ((s.canCh ch).buf b).next = none
    → ((s.canCh ch).buf b).bitRun < 15 → (s.canCh ch).pendCfg = none → (s.canHost ch b = false ∨ s.canMayAsk = true)
    → Answers (.canErrorDetected ch true kind inData exempt extra tdc) s (fun t => ((t.canCh ch).buf b).code = cTxPending
    ∧ ((t.canCh ch).buf b).bitRun = (if inData = true ∧ (kind = 4 ∨ kind = 5) then ((s.canCh ch).buf b).bitRun + 1 else 0)
    ∧ ((t.canCh ch).tec, (t.canCh ch).recv, (t.canCh ch).lec) = ((s.canCh ch).tec + (if exempt then 0 else 8) + 8 * extra, (s.canCh ch).recv, kind)
    ∧ (t.canCh ch).busOff = decide (256 ≤ (s.canCh ch).tec + (if exempt then 0 else 8) + 8 * extra) ∧ ((t.canCh ch).busOff = true
    → (t.cause (.can ch)).cause.getLsbD 6 = true)
    ∧ Store.get 0 t.stats.count (statCan ch (errStat kind)) = min (Store.get 0 s.stats.count (statCan ch (errStat kind)) + 1) statMax
    ∧ t.node = s.node))
  ∧ (∀ (ch : Nat) (kind : Nat) (inData : Bool) (exempt : Bool) (extra : Nat) (s : State), Inv s → (s.canCh ch).mode = 1 → (s.canCh ch).ready = true
    → (s.canCh ch).busOff = false → (s.canCh ch).tec < 256 → 1 ≤ kind → kind ≤ 6 → (s.canCh ch).pendCfg = none
    → Answers (.canErrorDetected ch false kind inData exempt extra false) s (fun t => ((t.canCh ch).tec, (t.canCh ch).recv, (t.canCh ch).lec) =
      ((s.canCh ch).tec, min 255 ((s.canCh ch).recv + 1 + 8 * extra), kind)
    ∧ (t.canCh ch).bufs = (s.canCh ch).bufs ∧ t.node = s.node))
  ∧ (∀ (ch : Nat) (exempt : Bool) (b : Nat) (s : State), Inv s → (s.canCh ch).mode = 1 → (s.canCh ch).ready = true → (s.canCh ch).busOff = false
    → (s.canCh ch).active = some b → ((s.canCh ch).buf b).code = cTxActive → ((s.canCh ch).buf b).cancel = false → ((s.canCh ch).buf b).next = none
    → ((s.canCh ch).buf b).bitRun = 15 → (s.canCh ch).pendCfg = none → (s.canHost ch b = false ∨ s.canMayAsk = true)
    → Answers (.canErrorDetected ch true 4 true exempt 0 false) s (fun t => (((t.canCh ch).buf b).code, ((t.canCh ch).buf b).bitRun) = (if (s.canCh
      ch).suspends then cTxSuspended else cTxPending, 0)
    ∧ ((s.canCh ch).suspends = true → (t.cause (.can ch)).cause.getLsbD 7 = true)
    ∧ Store.get 0 t.stats.count (statCan ch 17) = min (Store.get 0 s.stats.count (statCan ch 17) + 1) statMax))
  ∧ (∀ (ch : Nat) (s : State), Inv s → (s.canCh ch).busOff = true
    → Answers (.busOffRecovered ch) s (fun t => ((t.canCh ch).busOff, (t.canCh ch).tec, (t.canCh ch).recv, (t.canCh ch).passive) = (false, 0, 0,
      false)
    ∧ (t.canCh ch).bufs = (s.canCh ch).bufs ∧ (t.cause (.can ch)).cause.getLsbD 6 = true))
  ∧ (∀ (ch : Nat) (s : State), Inv s → (s.canCh ch).mode ≠ 0 → Answers (.canIntegrationDone ch) s (fun t => (t.canCh ch).ready = true
    ∧ Only [.can] s t))
  ∧ (∀ (buf : Nat) (w : Word) (s : State), Inv s → s.alive = true → s.can.winSel < 8 → buf < 128 → s.canHost s.can.winSel buf = true
    → s.canKind s.can.winSel buf = 2 → ((s.canCh s.can.winSel).buf buf).code ≠ cTxPending → ((s.canCh s.can.winSel).buf buf).code ≠ cTxActive
    → Answers (.canWriteTxPending buf w) s (fun t => ((t.canCh s.can.winSel).buf buf).msg = ((s.canCh s.can.winSel).buf buf).msg.fields w.toNat
    ∧ ((s.canCh s.can.winSel).rejects (((s.canCh s.can.winSel).buf buf).msg.fields w.toNat) = true
    → ((t.canCh s.can.winSel).buf buf).code = cTxCancelled)
    ∧ ((s.canCh s.can.winSel).rejects (((s.canCh s.can.winSel).buf buf).msg.fields w.toNat) = false → s.canMayAsk = true
    → ((t.canCh s.can.winSel).buf buf).code = cTxPending)
    ∧ ((s.canCh s.can.winSel).rejects (((s.canCh s.can.winSel).buf buf).msg.fields w.toNat) = false → s.canMayAsk = false
    → (((t.canCh s.can.winSel).buf buf).code, ((t.canCh s.can.winSel).buf buf).noTx) = (cTxCancelled, true)) ∧ t.node = s.node))
  ∧ (∀ (buf : Nat) (w : Word) (s : State), Inv s → s.alive = true → s.can.winSel < 8 → buf < 128 → s.canHost s.can.winSel buf = true
    → s.canKind s.can.winSel buf = 2 → ((s.canCh s.can.winSel).buf buf).code ≠ cTxPending → ((s.canCh s.can.winSel).buf buf).code ≠ cTxActive
    → Answers (.canWriteTxIdle buf w) s (fun t => (((t.canCh s.can.winSel).buf buf).code, ((t.canCh s.can.winSel).buf buf).msg, ((t.canCh
      s.can.winSel).buf buf).parity) = (cTxIdle, ((s.canCh s.can.winSel).buf buf).msg.fields w.toNat, false)
    ∧ Only [.can] s t))
  ∧ (∀ (ch : Nat) (buf : Nat) (s : State), Inv s → s.alive = true → ch < 8 → buf < 128 → s.canHost ch buf = true
    → Answers (.canCancelBuffer ch buf) s (fun t => (((s.canCh ch).buf buf).code = cTxPending → ((t.canCh ch).buf buf).code = cTxCancelled
    ∧ (t.canCh ch).txEvent = (s.canCh ch).txEvent ||| (1#128 <<< buf)
    ∧ Store.get 0 t.stats.count (statCan ch 18) = min (Store.get 0 s.stats.count (statCan ch 18) + 1) statMax)
    ∧ (((s.canCh ch).buf buf).code = cTxActive → ((t.canCh ch).buf buf).code = cTxActive ∧ ((t.canCh ch).buf buf).cancel = true)
    ∧ (((s.canCh ch).buf buf).code = cTxSuspended → ((t.canCh ch).buf buf).code = cTxCancelled) ∧ t.node = s.node))
  ∧ (∀ (ch : Nat) (buf : Nat) (s : State), s.canHost ch buf = false → Answers (.canCancelBuffer ch buf) s (fun t => t = s))
  ∧ (∀ (ch : Nat) (b : Nat) (s : State), Inv s → s.alive = true → ch < 8 → b < 128 → s.canHost ch b = true → ((s.canCh ch).buf b).code = cTxPending
    → Answers (.canCancelAll ch) s (fun t => ((t.canCh ch).buf b).code = cTxCancelled ∧ (∀ k, s.canHost ch k = false
    → (t.canCh ch).buf k = (s.canCh ch).buf k) ∧ t.node = s.node))

/-- A frame received goes to the first RX buffer that accepts it, to its shadow while that is locked, else to the FIFO, else it is counted as
RX_NO_MATCH. In STABLED a matching frame, or activity on a channel that wakes, brings the node to READY. A read of word 0 locks a host's RX buffer and
returns it, a read of word 17 releases it and the shadow moves in; the FIFO's head alike. RX_EMPTY empties it. CAN_CONFIG puts its block into force,
at once or once the frame on the bus has ended; CAN_CONFIG_READ answers OK with the block in force; the reload gives the tack image's. -/
def Obligations.CanReceptionAndCommands : Prop :=
  (∀ (ch : Nat) (f : CanFrame) (sof : Nat) (b : Nat) (s : State), Inv s → s.alive = true → ch < 8 → s.node.state ≠ .stabled → (s.canCh ch).mode = 1
    → (s.canCh ch).ready = true → (s.canCh ch).busOff = false → (f.fdf = false ∨ (s.canCh ch).fd = true)
    → (List.range 128).find? (fun k => decide (s.canKind ch k = 1) && (s.canCh ch).accepts k f) = some b → s.canOwnerOf ch b = 0
    → (s.canCh ch).tec < 256 → Answers (.canFrameReceive ch f sof none) s (fun t => (((s.canCh ch).buf b).locked = false
    → (((t.canCh ch).buf b).code, ((t.canCh ch).buf b).msg.id, ((t.canCh ch).buf b).msg.sof, ((t.canCh ch).buf b).msg.ovr) = (cRxFull, f.id, sof,
      decide (((s.canCh ch).buf b).code = cRxFull)))
    ∧ (((s.canCh ch).buf b).locked = true → ((t.canCh ch).buf b).msg = ((s.canCh ch).buf b).msg
    ∧ ((t.canCh ch).buf b).shadow = some { msgOf f sof with ovr := ((s.canCh ch).buf b).shadow.isSome })
    ∧ ((t.canCh ch).buf b).arrived = ((s.canCh ch).buf b).arrived + 1 ∧ (t.canCh ch).fifo = (s.canCh ch).fifo
    ∧ Store.get 0 t.stats.count (statCan ch 0) = min (Store.get 0 s.stats.count (statCan ch 0) + 1) statMax ∧ t.node = s.node))
  ∧ (∀ (ch : Nat) (f : CanFrame) (sof : Nat) (s : State), Inv s → s.alive = true → ch < 8 → s.node.state ≠ .stabled → (s.canCh ch).mode = 1
    → (s.canCh ch).ready = true → (s.canCh ch).busOff = false → (f.fdf = false ∨ (s.canCh ch).fd = true)
    → (List.range 128).find? (fun k => decide (s.canKind ch k = 1) && (s.canCh ch).accepts k f) = none → (s.canCh ch).tec < 256
    → Answers (.canFrameReceive ch f sof none) s (fun t => (s.canKind ch 128 = 3 → (s.canCh ch).fifoAccepts f = true → (s.canCh ch).fifo.length < 64
    → s.canOwnerOf ch 128 ≠ 2 → (t.canCh ch).fifo = (s.canCh ch).fifo ++ [{ msgOf f sof with ovr := (s.canCh ch).fifoOvr }]) ∧ (s.canKind ch 128 = 3
    → (s.canCh ch).fifoAccepts f = true → 64 ≤ (s.canCh ch).fifo.length → (t.canCh ch).fifo = (s.canCh ch).fifo
    ∧ (t.cause (.can ch)).cause.getLsbD 4 = true) ∧ (s.canKind ch 128 ≠ 3
    → Store.get 0 t.stats.count (statCan ch 16) = min (Store.get 0 s.stats.count (statCan ch 16) + 1) statMax)
    ∧ (t.canCh ch).bufs = (s.canCh ch).bufs ∧ t.node = s.node))
  ∧ (∀ (ch : Nat) (f : CanFrame) (sof : Nat) (bad : Option Nat) (s : State), Inv s → s.alive = true → ch < 8 → s.node.state = .stabled
    → (s.canCh ch).wakeMatch f = true → Answers (.canFrameReceive ch f sof bad) s (fun t => t.node.state = .ready
    ∧ (t.cause (.can ch)).cause.getLsbD 9 = true))
  ∧ (∀ (ch : Nat) (s : State), Inv s → s.alive = true → ch < 8 → s.node.state = .stabled → (s.canCh ch).wakes = true → (s.canCh ch).blk 14 2 ≠ 0
    → Answers (.canWakeActivity ch) s (fun t => t.node.state = .ready ∧ (t.cause (.can ch)).cause.getLsbD 9 = true))
  ∧ (∀ (buf : Nat) (s : State), Inv s → s.alive = true → s.can.winSel < 8 → buf < 128 → s.canHost s.can.winSel buf = true
    → s.canKind s.can.winSel buf = 1
    → Answers (.canBufferWord0Read buf false) s (fun t => ((t.canCh s.can.winSel).buf buf) = { (s.canCh s.can.winSel).buf buf with locked := true }
    ∧ (t.canCh s.can.winSel).lockTick = (if ((s.canCh s.can.winSel).buf buf).code = cRxFull ∨ ((s.canCh s.can.winSel).buf buf).code = cTxDone then
      ((s.canCh s.can.winSel).buf buf).msg.sof else 0)
    ∧ t.out = s.out ++ [.read (0x8000 + buf * 0x80) (BitVec.ofNat 32 ({ (s.canCh s.can.winSel).buf buf with locked := true } : CanBuf).word0)]
    ∧ Only [.can, .out] s t))
  ∧ (∀ (buf : Nat) (s : State), Inv s → s.alive = true → s.can.winSel < 8 → buf < 128 → ((s.canCh s.can.winSel).buf buf).locked = true
    → Answers (.canBufferWord17Read buf) s (fun t => (((s.canCh s.can.winSel).buf buf).shadow = none
    → (((t.canCh s.can.winSel).buf buf).code, ((t.canCh s.can.winSel).buf buf).locked) = (cRxEmpty, false))
    ∧ (∀ m, ((s.canCh s.can.winSel).buf buf).shadow = some m
    → (((t.canCh s.can.winSel).buf buf).code, ((t.canCh s.can.winSel).buf buf).msg , ((t.canCh s.can.winSel).buf buf).locked, ((t.canCh
      s.can.winSel).buf buf).shadow) = (cRxFull, m, false, none))
    ∧ t.out.getLast? = some (.read (0x8044 + buf * 0x80) (BitVec.ofNat 32 (((s.canCh s.can.winSel).buf buf).word 17))) ∧ t.node = s.node))
  ∧ (∀ (m : CanMsg) (rest : List CanMsg) (s : State), Inv s → s.alive = true → s.can.winSel < 8 → (s.canCh s.can.winSel).fifo = m :: rest
    → Answers (.canFifoHeadWord0Read false) s (fun t => ((t.canCh s.can.winSel).fifo, (t.canCh s.can.winSel).fifoLock) = (m :: rest, decide
      (s.canOwnerOf s.can.winSel 128 = 0))
    ∧ (t.canCh s.can.winSel).lockTick = m.sof
    ∧ t.out = s.out ++ [.read 0xC400 (BitVec.ofNat 32 ((fifoBuf m (decide (s.canOwnerOf s.can.winSel 128 = 0))).word 0))] ∧ Only [.can, .out] s t))
  ∧ (∀ (err : Bool) (s : State), Inv s → s.alive = true → s.can.winSel < 8 → (s.canCh s.can.winSel).fifo = []
    → Answers (.canFifoHeadWord0Read err) s (fun t => t.out = s.out ++ [.read 0xC400 0]
    ∧ (t.canCh s.can.winSel).fifoLock = (s.canCh s.can.winSel).fifoLock ∧ Only [.can, .out] s t))
  ∧ (∀ (m : CanMsg) (rest : List CanMsg) (s : State), Inv s → s.alive = true → s.can.winSel < 8 → (s.canCh s.can.winSel).fifo = m :: rest
    → Answers .canFifoHeadWord17Read s (fun t => (t.canCh s.can.winSel).fifo = (if (s.canCh s.can.winSel).fifoLock then rest else m :: rest)
    ∧ (t.canCh s.can.winSel).fifoLock = false ∧ t.out = s.out ++ [.read 0xC444 (BitVec.ofNat 32 ((fifoBuf m false).word 17))]
    ∧ Only [.can, .out] s t))
  ∧ (∀ (buf : Nat) (s : State), Inv s → s.alive = true → s.can.winSel < 8 → buf < 128 → s.canHost s.can.winSel buf = true
    → s.canKind s.can.winSel buf = 1 → Store.wf {} (s.canCh s.can.winSel).bufs = true
    → Answers (.canWriteRxEmpty buf) s (fun t => (((s.canCh s.can.winSel).buf buf).shadow = none
    → (((t.canCh s.can.winSel).buf buf).code, ((t.canCh s.can.winSel).buf buf).msg, ((t.canCh s.can.winSel).buf buf).locked) = (cRxEmpty, {}, false))
    ∧ (∀ m, ((s.canCh s.can.winSel).buf buf).shadow = some m
    → (((t.canCh s.can.winSel).buf buf).code, ((t.canCh s.can.winSel).buf buf).msg, ((t.canCh s.can.winSel).buf buf).locked) = (cRxFull, m, false))
    ∧ t.node = s.node))
  ∧ (∀ (ch : Nat) (s : State), Inv s → (s.canCh ch).reloading = true
    → Answers (.canConfigReloadDone ch) s (fun t => ((t.canCh ch).reloading, (t.canCh ch).badFilts) = (false, [])
    ∧ (t.canCh ch).block = ((canLoad s).canCh ch).block
    ∧ ((t.canCh ch).filtId, (t.canCh ch).filtMask, (t.canCh ch).fifoFilt) = (((canLoad s).canCh ch).filtId, ((canLoad s).canCh ch).filtMask,
      ((canLoad s).canCh ch).fifoFilt)
    ∧ t.node = s.node))
  ∧ (∀ (c : Acs) (s : State), Inv s → Accepts s c 0x0B00 inLineStates → s.carriers = [] → c.args.length = 36 → c.arg 0 1 ≤ 7 → c.nonZero 1 3 = false
    → canBlockOk (c.args.drop 4) = true → (s.canCh (c.arg 0 1)).pendCfg = none
    → Answers (.canConfig c) s (fun t => ((s.canCh (c.arg 0 1)).active = none
    → ((t.canCh (c.arg 0 1)).block, (t.canCh (c.arg 0 1)).pendCfg) = (c.args.drop 4, none)) ∧ (∀ b, (s.canCh (c.arg 0 1)).active = some b
    → ((t.canCh (c.arg 0 1)).block, (t.canCh (c.arg 0 1)).pendCfg) = ((s.canCh (c.arg 0 1)).block, some (c.args.drop 4, some (c.ref 0x0B00))))
    ∧ t.node = s.node))
  ∧ (∀ (c : Acs) (s : State), Accepts s c 0x0B01 inServing → c.args.length = 4 → c.arg 0 1 ≤ 7 → c.nonZero 1 3 = false
    → AnswersOk (.canConfigRead c) c 0x0B01 s (s.canCh (c.arg 0 1)).block)

/-! ## MVB and WTB line units -/

/-- A basic period of the administrator empties the list of unanswered polls, then polls what is due; with the poll table in error the polls are
skipped and the reload starts. A master frame of another administrator ends own mastership, a transfer to this device takes it. A slave frame of a
SINK port's size is the port's data; a message for this device is queued; a poll without reply is counted. BA_SILENCE takes mastership, the end of the
turn passes it on. A disturbed line is restored after 1 s without errors. WTB process data is captured, its polls are answered, its inauguration gives
the composition. The reload ends. -/
def Obligations.LegacyLines : Prop :=
  (∀ (unit : Nat) (events : List Nat) (s : State), Inv s → unit < 2 → (s.legUnit unit).master = true → s.legRole unit = 2
    → Answers (.mvbBasicPeriod unit events true) s (fun t => (t.legUnit unit).reloading = true ∧ (t.legUnit unit).polls = []
    ∧ (t.cause .legacy).cause.getLsbD 5 = true
    ∧ Store.get 0 t.stats.count (statLegacy unit 11) = min (Store.get 0 s.stats.count (statLegacy unit 11) + 1) statMax ∧ t.node = s.node))
  ∧ (∀ (unit : Nat) (events : List Nat) (s : State), Inv s → unit < 2 → (s.legUnit unit).master = true → s.legRole unit = 2
    → Answers (.mvbBasicPeriod unit events false) s (fun t => (t.legUnit unit).polls = (if (s.legUnit unit).reloading then [] else ((s.pollTable
      unit).filter (pollDue (s.basicPeriod unit))).map (fun e => bits e 11 0)).filter (fun a => !(s.legRec unit a).elim false (fun r => decide
      (legKind r = 1)))
    ∧ (t.legUnit unit).sendq = (s.legUnit unit).sendq.drop 1 ∧ (t.legUnit unit).ports = (s.legUnit unit).ports ∧ (t.legUnit unit).master = true
    ∧ Only [.leg, .out, .stats, .causes, .host] s t))
  ∧ (∀ (unit : Nat) (m : MvbMaster) (b : LineRx) (s : State), Inv s → unit < 2 → s.legHears unit = true → (s.legUnit unit).trustB = false → b ≠ .bad
    → Answers (.mvbMasterFrameReceive unit m .valid b) s (fun t => ((∀ d, m ≠ .transfer d) → (t.legUnit unit).master = false)
    ∧ (∀ addr fc, m = .process fc addr → (t.legUnit unit).sendq = (s.legUnit unit).sendq) ∧ (∀ d, m = .message d → d = s.devAddr unit
    → s.legRole unit ≠ 0 → (t.legUnit unit).sendq = (s.legUnit unit).sendq.drop 1) ∧ (∀ d, m = .transfer d → d = s.devAddr unit → s.legRole unit = 2
    → (t.legUnit unit).master = true ∧ (t.cause .legacy).cause.getLsbD 1 = true) ∧ (t.legUnit unit).ports = (s.legUnit unit).ports
    ∧ Store.get 0 t.stats.count (statLegacy unit 2) = min (Store.get 0 s.stats.count (statLegacy unit 2) + 1) statMax ∧ t.node = s.node))
  ∧ (∀ (unit : Nat) (addr : Nat) (data : List Byte) (b : LineRx) (r : List Byte) (s : State), Inv s → unit < 2 → s.legHears unit = true
    → (s.legUnit unit).trustB = false → b ≠ .bad → s.legRec unit addr = some r → (s.legUnit unit).reloading = false
    → Answers (.mvbSlaveFrameReceive unit (.process addr data) .valid b 0) s (fun t => (legKind r = 2 → data.length = legSize unit r
    → t.legPort unit addr = { data := data, got := true, bad := false, lineB := false, tick := s.now })
    ∧ ((legKind r ≠ 2 ∨ data.length ≠ legSize unit r) → (t.legUnit unit).ports = (s.legUnit unit).ports)
    ∧ (t.legUnit unit).polls = (s.legUnit unit).polls.erase addr ∧ t.node = s.node))
  ∧ (∀ (unit : Nat) (addr : Nat) (s : State), Inv s → (s.legUnit unit).polls.contains addr = true
    → Answers (.mvbReplyTimeout unit addr) s (fun t => (t.legUnit unit).polls = (s.legUnit unit).polls.erase addr
    ∧ Store.get 0 t.stats.count (statLegacy unit 5) = min (Store.get 0 s.stats.count (statLegacy unit 5) + 1) statMax
    ∧ (t.legUnit unit).ports = (s.legUnit unit).ports ∧ t.node = s.node))
  ∧ (∀ (unit : Nat) (s : State), Inv s → unit < 2 → s.legRole unit = 2 → Answers (.baSilenceExpiry unit) s (fun t => (t.legUnit unit).master = true
    ∧ ((s.legUnit unit).master = false → (t.cause .legacy).cause.getLsbD 1 = true ∧ (t.legUnit unit).changeTick = s.now)
    ∧ ((s.legUnit unit).master = true → t = s) ∧ t.node = s.node))
  ∧ (∀ (unit : Nat) (s : State), Inv s → unit < 2 → (s.legUnit unit).master = true
    → ((s.baList unit)[((s.baList unit).findIdx (fun x => decide (x = s.devAddr unit)) + 1) % max 1 (s.baList unit).length]?).getD (s.devAddr unit)
      ≠ s.devAddr unit
    → Answers (.mastershipTurnEnd unit) s (fun t => (t.legUnit unit).master = false ∧ (t.legUnit unit).polls = []
    ∧ (t.cause .legacy).cause.getLsbD 1 = true
    ∧ Output.legacy unit 16 (le 2 (((s.baList unit)[((s.baList unit).findIdx (fun x => decide (x = s.devAddr unit)) + 1) % max 1 (s.baList
      unit).length]?).getD (s.devAddr unit))) ∈ t.out
    ∧ t.node = s.node))
  ∧ (∀ (unit : Nat) (line : Line) (s : State), Inv s → (if line = .a then (s.legUnit unit).badA else (s.legUnit unit).badB) = true
    → Answers (.lineDisturbRestore unit line) s (fun t => (line = .a
    → ((t.legUnit unit).badA, (t.legUnit unit).errsA, (t.legUnit unit).badB) = (false, [], (s.legUnit unit).badB)) ∧ (line = .b
    → ((t.legUnit unit).badB, (t.legUnit unit).errsB, (t.legUnit unit).badA) = (false, [], (s.legUnit unit).badA))
    ∧ (t.cause .legacy).cause.getLsbD 0 = true ∧ t.node = s.node))
  ∧ (∀ (src : Nat) (data : List Byte) (b : LineRx) (r : List Byte) (s : State), Inv s → s.legHears 2 = true → (s.legUnit 2).trustB = false
    → b ≠ .bad → s.legRec 2 src = some r → (s.legUnit 2).reloading = false
    → Answers (.wtbFrameReceive (.process src data) .valid b) s (fun t => (legKind r = 2 → data.length = legSize 2 r
    → t.legPort 2 src = { data := data, got := true, bad := false, lineB := false, tick := s.now }) ∧ ((legKind r ≠ 2 ∨ data.length ≠ legSize 2 r)
    → (t.legUnit 2).ports = (s.legUnit 2).ports) ∧ t.node = s.node))
  ∧ (∀ (b : LineRx) (s : State), Inv s → s.legHears 2 = true → (s.legUnit 2).trustB = false → b ≠ .bad → s.legRole 2 ≠ 0
    → Answers (.wtbFrameReceive .poll .valid b) s (fun t => (t.legUnit 2).sendq = (s.legUnit 2).sendq.drop 1
    ∧ (t.legUnit 2).ports = (s.legUnit 2).ports ∧ (∀ x rest, (s.legUnit 2).sendq = x :: rest → Output.legacy 2 12 (le 2 x.peer ++ x.data) ∈ t.out)
    ∧ t.node = s.node))
  ∧ (∀ (comp : List WtbNode) (own : Nat) (master : Nat) (endA : Bool) (endB : Bool) (s : State), Inv s → s.legHears 2 = true
    → Answers (.wtbInaugurated comp own master endA endB) s (fun t => ((t.legUnit 2).comp, (t.legUnit 2).own, (t.legUnit 2).masterAddr) = (comp,
      own, master)
    ∧ ((t.legUnit 2).endA, (t.legUnit 2).endB, (t.legUnit 2).changeTick) = (endA, endB, s.now)
    ∧ ((t.legUnit 2).esA, (t.legUnit 2).esB) = (decide (s.legRole 2 ≠ 0) && endA, decide (s.legRole 2 ≠ 0) && endB)
    ∧ (t.cause .legacy).cause.getLsbD 2 = true
    ∧ Store.get 0 t.stats.count (statLegacy 2 8) = min (Store.get 0 s.stats.count (statLegacy 2 8) + 1) statMax ∧ t.node = s.node))
  ∧ (∀ (s : State), Inv s → s.legRole 2 ≠ 0 → (s.legUnit 2).comp ≠ [] → (s.legUnit 2).masterAddr = (s.legUnit 2).own
    → Answers .wtbIndividualPeriod s (fun t => (t.legUnit 2).sendq = (s.legUnit 2).sendq.drop 1 ∧ (∀ n, n ∈ (s.legUnit 2).comp
    → n.addr ≠ (s.legUnit 2).own → Output.legacy 2 1 [byte n.addr] ∈ t.out) ∧ (t.legUnit 2).ports = (s.legUnit 2).ports ∧ t.node = s.node))
  ∧ (∀ (unit : Nat) (s : State), Inv s → unit < 3
    → Answers (.legacyReloadDone unit) s (fun t => t.legUnit unit = { s.legUnit unit with reloading := false } ∧ Only [.leg] s t))

/-- LEGACY_STATUS answers OK with 16 bytes, LEGACY_PORT_READ of a port with its 16-byte header and its data, LEGACY_COMPOSITION with 4 bytes and 4 for
each node where the WTB has a role. On a node of one chip LEGACY_PORT_WRITE to a HOST SOURCE port with its size is that port's data; LEGACY_MSG_SEND
queues the packet on the owner; LEGACY_MSG_RECV takes the oldest received, and answers with zeros where there is none. -/
def Obligations.LegacyCommands : Prop :=
  (∀ (c : Acs) (s : State), Accepts s c 0x0C00 inLineStates → c.args.length = 4 → c.arg 0 1 ≤ 2 → c.nonZero 1 3 = false
    → ∃ p, AnswersOk (.legacyStatus c) c 0x0C00 s p ∧ p.length = 16 ∧ p.take 1 = [byte (s.legRole (c.arg 0 1))]
    ∧ slice p 4 8 = le 8 (s.legUnit (c.arg 0 1)).changeTick)
  ∧ (∀ (c : Acs) (r : List Byte) (s : State), Accepts s c 0x0C01 inLineStates → c.args.length = 4 → c.arg 0 1 ≤ 2 → c.nonZero 1 1 = false
    → s.legRec (c.arg 0 1) (c.arg 2 2) = some r
    → AnswersOk (.legacyPortRead c) c 0x0C01 s (s.legHeader (c.arg 0 1) (c.arg 2 2) r ++ s.legData (c.arg 0 1) (c.arg 2 2) r)
    ∧ (s.legHeader (c.arg 0 1) (c.arg 2 2) r ++ s.legData (c.arg 0 1) (c.arg 2 2) r).length = 16 + legSize (c.arg 0 1) r)
  ∧ (∀ (c : Acs) (r : List Byte) (s : State), Inv s → Accepts s c 0x0C02 inLineStates → s.carriers = [] → 4 ≤ c.args.length → c.arg 0 1 ≤ 2
    → c.nonZero 1 1 = false → s.legRec (c.arg 0 1) (c.arg 2 2) = some r → legKind r = 1 → legOwner r = 0 → c.args.length = 4 + legSize (c.arg 0 1) r
    → Store.wf {} (s.legUnit (c.arg 0 1)).ports = true
    → Answers (.legacyPortWrite c) s (fun t => t.legPort (c.arg 0 1) (c.arg 2 2) = { s.legPort (c.arg 0 1) (c.arg 2 2) with data := c.args.drop 4 }
    ∧ (∀ a, a ≠ c.arg 2 2 → t.legPort (c.arg 0 1) a = s.legPort (c.arg 0 1) a) ∧ t.node = s.node))
  ∧ (∀ (c : Acs) (s : State), Accepts s c 0x0C03 inLineStates → c.args.length = 0 → s.legRoleSet 2 ≠ 0
    → ∃ p, AnswersOk (.legacyComposition c) c 0x0C03 s p ∧ p.length = 4 + 4 * (s.legUnit 2).comp.length
    ∧ p.take 2 = [byte (s.legUnit 2).comp.length, byte (s.legUnit 2).own])
  ∧ (∀ (c : Acs) (s : State), Inv s → Accepts s c 0x0C04 inLineStates → s.carriers = [] → 5 ≤ c.args.length → c.args.length ≤ 260 → c.arg 0 1 ≤ 2
    → c.nonZero 1 1 = false
    → Answers (.legacyMsgSend c) s (fun t => (t.legUnit (c.arg 0 1)).sendq = (if s.owner then (s.legUnit (c.arg 0 1)).sendq ++
      [{ peer := c.arg 2 2, data := c.args.drop 4 }] else (s.legUnit (c.arg 0 1)).sendq)
    ∧ (t.legUnit (c.arg 0 1)).queue = (s.legUnit (c.arg 0 1)).queue ∧ t.node = s.node))
  ∧ (∀ (c : Acs) (s : State), Inv s → Accepts s c 0x0C05 inLineStates → c.args.length = 4 → c.arg 0 1 ≤ 2 → c.nonZero 1 3 = false
    → Answers (.legacyMsgRecv c) s (fun t => (t.legUnit (c.arg 0 1)).queue = (s.legUnit (c.arg 0 1)).queue.drop 1
    ∧ ((s.legUnit (c.arg 0 1)).queue = [] → t = done c 0x0C05 stOk (zeros 4) (started c 0x0C05 s))
    ∧ (∀ m rest, (s.legUnit (c.arg 0 1)).queue = m :: rest
    → t.host = (done c 0x0C05 stOk (le 2 m.peer ++ le 2 m.data.length ++ m.data) (started c 0x0C05 s)).host) ∧ t.node = s.node))

/-! ## Saddlebag bridge -/

/-- A TUNNEL envelope for an enabled importing session of its source and function is taken when its SEQ is newer than the last, and counted when not;
in READY and SAFE its items are not kept. A READ_REQ of the owner is answered, a volatile one is kept with its answer and answered from that when it
comes again, a CAN transaction waits for its channel. A READ_RSP ends its open read with a result or the waiting command's completion; one without an
open read is counted. Tug segments join to the envelope they carry. The open export envelope leaves at the hold time's end. An aged item leaves its
queue. A read that is not volatile is sent again once, and ends at its time-out with status TIMEOUT. A request's entry at the responder goes when its
time has passed. A reloaded record is the image's. BRIDGE_STATUS answers 16 bytes, BRIDGE_SESSION 48 bytes or enables or disables, BRIDGE_READ to
another node sends its request under the tag longest free, BRIDGE_COLLECT hands over results and frees their tags. -/
def Obligations.Bridge : Prop :=
  (∀ (f : Frame) (n : Nat) (x : Session) (h : SbHdr) (d : Int) (s : State), Inv s → s.alive = true → s.boot.fwRunning = true
    → envelopeOk f.payload = true → sbHdrOf f.payload = h → h.kind = 1 → h.dst = s.node.nid → s.node.state.inLine = true → s.carriers = []
    → s.session? n = some x → s.br.sessions.find? (fun e => e.2.enabled && e.2.imports && e.2.f 4 2 = h.dstF) = some (n, x) → x.remote = some h.src
    → x.f 6 2 = h.srcF → x.reloading = false → bit h.flags 1 = false ∨ h.gen = s.hitch.gen
    → x.rxSeq.elim (1 : Int) (fun q => signed 16 ((h.seq + 65536 - q.toNat) % 65536)) = d → Answers (.tunnelReceive f 0) s (fun t => (0 < d
    → (t.session? n).map (fun y => (y.rxSeq, y.lastSeq)) = some (some (BitVec.ofNat 16 h.seq), BitVec.ofNat 16 h.seq)) ∧ (0 < d
    → Store.get 0 t.stats.count (statBridge 1) = min (Store.get 0 s.stats.count (statBridge 1) + 1) statMax) ∧ (0 < d → s.node.state.running = false
    → (t.session? n).map Session.queue = some []) ∧ (d ≤ 0 → t.br = s.br
    ∧ Store.get 0 t.stats.count (statBridge 5) = min (Store.get 0 s.stats.count (statBridge 5) + 1) statMax) ∧ t.node = s.node))
  ∧ (∀ (f : Frame) (n : Nat) (x : Session) (s : State), Inv s → s.alive = true → s.boot.fwRunning = true → envelopeOk f.payload = true
    → (sbHdrOf f.payload).kind = 1 → (sbHdrOf f.payload).dst = s.node.nid → s.carriers = [] → s.session? n = some x
    → s.br.sessions.find? (fun e => e.2.enabled && e.2.imports && e.2.f 4 2 = (sbHdrOf f.payload).dstF) = some (n, x)
    → Answers (.tunnelReceive f 1) s (fun t => (t.session? n).map Session.reloading = some true
    ∧ Store.get 0 t.stats.count (statBridge 20) = min (Store.get 0 s.stats.count (statBridge 20) + 1) statMax
    ∧ (t.cause .bridge).cause.getLsbD 6 = true ∧ t.node = s.node))
  ∧ (∀ (f : Frame) (err : Bool) (s : State), Inv s → s.alive = true → s.boot.fwRunning = true → envelopeOk f.payload = true
    → (sbHdrOf f.payload).kind = 2 → (sbHdrOf f.payload).dst = s.node.nid → (sbHdrOf f.payload).src ≠ s.node.nid → s.bridgeOwner = true
    → s.node.state.inLine = true → fBe f.payload 32 1 ≠ 5 → (bit (sbHdrOf f.payload).flags 0 = false ∨ fBe f.payload 32 1 ≠ 2)
    → s.br.served.find? (fun x => x.who.nid = (sbHdrOf f.payload).src && x.who.chip = (sbHdrOf f.payload).chip && x.who.reqId = (sbHdrOf
      f.payload).seq) = none
    → Answers (.readReqReceive f err) s (fun t => Store.get 0 t.stats.count (statBridge 15) = min (Store.get 0 s.stats.count (statBridge 15) + 1)
      statMax
    ∧ (bit (sbHdrOf f.payload).flags 0 = true
    → (t.br.served.getLast?).map (fun x => (x.who.nid, x.who.chip, x.who.reqId, x.body.isSome)) = some ((sbHdrOf f.payload).src, (sbHdrOf
      f.payload).chip, (sbHdrOf f.payload).seq, true))
    ∧ t.br.txns = s.br.txns ∧ t.br.reads = s.br.reads ∧ t.node = s.node))
  ∧ (∀ (f : Frame) (b : List Byte) (x : Served) (s : State), Inv s → s.alive = true → s.boot.fwRunning = true → envelopeOk f.payload = true
    → (sbHdrOf f.payload).kind = 2 → (sbHdrOf f.payload).dst = s.node.nid → bit (sbHdrOf f.payload).flags 0 = true → s.bridgeOwner = true
    → s.node.state.inLine = true
    → s.br.served.find? (fun x => x.who.nid = (sbHdrOf f.payload).src && x.who.chip = (sbHdrOf f.payload).chip && x.who.reqId = (sbHdrOf
      f.payload).seq) = some x
    → x.bad = false → x.body = some b → Answers (.readReqReceive f false) s (fun t => t.br = s.br
    ∧ Store.get 0 t.stats.count (statBridge 15) = min (Store.get 0 s.stats.count (statBridge 15) + 1) statMax
    ∧ Store.get 0 t.stats.count (statBridge 16) = min (Store.get 0 s.stats.count (statBridge 16) + 1) statMax ∧ t.mem = s.mem ∧ t.node = s.node))
  ∧ (∀ (f : Frame) (ch : Nat) (item : List Byte) (s : State), Inv s → s.alive = true → s.boot.fwRunning = true → envelopeOk f.payload = true
    → (sbHdrOf f.payload).kind = 2 → (sbHdrOf f.payload).dst = s.node.nid → bit (sbHdrOf f.payload).flags 0 = false → s.bridgeOwner = true
    → s.node.state.running = true → fBe f.payload 32 1 = 5 → fBe f.payload 33 1 = ch → ch ≤ 7 → itemAt (f.payload.drop 56) = some item
    → fBe item 0 1 = 1 → (s.canCh ch).sendable (itemCan item) = true → (s.canCh ch).mode = 1 → (s.txnBuffer ch).isSome = true
    → s.br.txns.length < 256
    → Answers (.readReqReceive f false) s (fun t => t.br.txns.map (fun x => (x.who.reqId, x.chan, x.item, x.rspId, x.rspMask)) = s.br.txns.map (fun
      x => (x.who.reqId, x.chan, x.item, x.rspId, x.rspMask)) ++ [((sbHdrOf f.payload).seq, ch, item, fBe f.payload 48 4, fBe f.payload 52 4)]
    ∧ t.br.reads = s.br.reads ∧ t.node = s.node))
  ∧ (∀ (f : Frame) (h : SbHdr) (o : OpenRead) (s : State), Inv s → s.alive = true → s.boot.fwRunning = true → envelopeOk f.payload = true
    → sbHdrOf f.payload = h → h.kind = 3 → h.dst = s.node.nid → h.chip = s.node.chipIndex → s.br.reads.find? (fun o => o.reqId = h.seq) = some o
    → Answers (.readRspReceive f false) s (fun t => t.br.reads = s.br.reads.filter (fun x => x.reqId ≠ h.seq) ∧ (o.wait = none
    → t.br.results = s.br.results ++
      [{ reqId := h.seq, status := fBe f.payload 32 2, stamp := fBe f.payload 40 8 , data := slice f.payload 48 (fBe f.payload 34 2) }]
    ∧ t.br.freed = s.br.freed) ∧ (o.wait ≠ none → t.br.freed = s.br.freed ++ [h.seq % 4096] ∧ t.br.results = s.br.results)
    ∧ Store.get 0 t.stats.count (statBridge 11) = min (Store.get 0 s.stats.count (statBridge 11) + 1) statMax ∧ t.node = s.node))
  ∧ (∀ (f : Frame) (h : SbHdr) (s : State), Inv s → s.alive = true → s.boot.fwRunning = true → envelopeOk f.payload = true → sbHdrOf f.payload = h
    → h.kind = 3 → h.dst = s.node.nid → h.chip = s.node.chipIndex → s.br.reads.find? (fun o => o.reqId = h.seq) = none
    → Answers (.readRspReceive f false) s (fun t => t.br = s.br
    ∧ Store.get 0 t.stats.count (statBridge 13) = min (Store.get 0 s.stats.count (statBridge 13) + 1) statMax ∧ t.node = s.node))
  ∧ (∀ (m : TugRx) (s : State), Inv s → s.tugOn m.link = true → (s.tug m.link).up = true → m.seq % 65536 = (s.tug m.link).rxSeq
    → bit (fBe m.data 0 1) 0 = true → bit (fBe m.data 0 1) 1 = false
    → Answers (.tugReqSegmentReceive m) s (fun t => (t.red.parts.getLast?).map (fun r => (r.link, r.chan, r.num, r.data)) = some (m.link, .req, fBe
      m.data 2 2, m.data.drop 4)
    ∧ t.br = s.br ∧ t.node = s.node))
  ∧ (∀ (m : TugRx) (n : Nat) (x : Session) (h : SbHdr) (s : State), Inv s → s.tugOn m.link = true → (s.tug m.link).up = true
    → m.seq % 65536 = (s.tug m.link).rxSeq → bit (fBe m.data 0 1) 0 = true → bit (fBe m.data 0 1) 1 = true → sbHdrOf (m.data.drop 4) = h
    → h.kind = 1 → s.node.state.inLine = true → s.session? n = some x
    → s.br.sessions.find? (fun e => e.2.enabled && e.2.imports && e.2.f 4 2 = h.dstF && decide (e.2.remote = some h.src) && e.2.f 6 2 = h.srcF) =
      some (n, x)
    → bit h.flags 1 = false ∨ h.gen = s.hitch.gen → x.rxSeq = none
    → Answers (.tugReqSegmentReceive m) s (fun t => (t.session? n).map (fun y => (y.rxSeq, y.lastSeq)) = some (some (BitVec.ofNat 16 h.seq),
      BitVec.ofNat 16 h.seq)
    ∧ Store.get 0 t.stats.count (statBridge 1) = min (Store.get 0 s.stats.count (statBridge 1) + 1) statMax ∧ t.node = s.node))
  ∧ (∀ (m : TugRx) (h : SbHdr) (o : OpenRead) (s : State), Inv s → s.tugOn m.link = true → (s.tug m.link).up = true
    → m.seq % 65536 = (s.tug m.link).rxSeq → bit (fBe m.data 0 1) 0 = true → bit (fBe m.data 0 1) 1 = true → sbHdrOf (m.data.drop 4) = h
    → h.chip = s.node.chipIndex → s.br.reads.find? (fun o => o.reqId = h.seq) = some o
    → Answers (.tugRspSegmentReceive m) s (fun t => t.br.reads = s.br.reads.filter (fun x => x.reqId ≠ h.seq) ∧ (o.wait = none
    → t.br.results = s.br.results ++
      [{ reqId := h.seq, status := fBe m.data 36 2, stamp := fBe m.data 44 8 , data := slice m.data 52 (fBe m.data 38 2) }])
    ∧ (o.wait ≠ none → t.br.freed = s.br.freed ++ [h.seq % 4096]) ∧ t.node = s.node))
  ∧ (∀ (n : Nat) (x : Session) (r : Nid) (s : State), Inv s → s.node.state.inLine = true → s.bridgeOwner = true → s.session? n = some x
    → x.items ≠ [] → x.remote = some r → Answers (.exportHoldExpiry n) s (fun t => t.session? n = some { x with items := [], txSeq := x.txSeq + 1 }
    ∧ Store.get 0 t.stats.count (statBridge 0) = min (Store.get 0 s.stats.count (statBridge 0) + 1) statMax
    ∧ Store.get 0 t.stats.count (statBridge 2) = min (Store.get 0 s.stats.count (statBridge 2) + x.items.length) statMax ∧ t.br.reads = s.br.reads
    ∧ t.node = s.node))
  ∧ (∀ (n : Nat) (x : Session) (s : State), Inv s → s.session? n = some x → x.queue ≠ []
    → Answers (.tunAged n) s (fun t => (t.session? n).map (fun y => (y.rxSeq, y.enabled, y.items)) = some (x.rxSeq, x.enabled, x.items)
    ∧ (t.session? n).elim [] Session.queue <:+ x.queue.drop 1
    ∧ Store.get 0 t.stats.count (statBridge 9) = min (Store.get 0 s.stats.count (statBridge 9) + (if s.node.state.running then 1 else
      x.queue.length)) statMax
    ∧ t.node = s.node))
  ∧ (∀ (id : Nat) (o : OpenRead) (s : State), Inv s → s.br.reads.find? (fun o => o.reqId = id) = some o → o.vol = false → o.resent = false
    → o.dst ≠ s.node.nid
    → Answers (.readResend id) s (fun t => t.br.reads = s.br.reads.map (fun x => if x.reqId = id then { x with resent := true } else x)
    ∧ Store.find t.br.sentAt id = some (s.now, o.ms)
    ∧ Store.get 0 t.stats.count (statBridge 10) = min (Store.get 0 s.stats.count (statBridge 10) + 1) statMax
    ∧ Store.get 0 t.stats.count (statBridge 14) = min (Store.get 0 s.stats.count (statBridge 14) + 1) statMax ∧ t.node = s.node))
  ∧ (∀ (id : Nat) (o : OpenRead) (s : State), s.br.reads.find? (fun o => o.reqId = id) = some o → o.vol = true ∨ o.resent = true
    → Answers (.readResend id) s (fun t => t = s))
  ∧ (∀ (id : Nat) (o : OpenRead) (s : State), Inv s → s.br.reads.find? (fun o => o.reqId = id) = some o
    → Answers (.readTimeout id) s (fun t => t.br.reads = s.br.reads.filter (fun x => x.reqId ≠ id) ∧ (o.wait = none
    → t.br.results = s.br.results ++ [{ reqId := id, status := stTimeout, stamp := 0, data := [] }]) ∧ (∀ w, o.wait = some w → w.mbx < 16
    → Output.acs w.mbx w.idx w.opcode stTimeout [] ∈ t.out ∧ t.br.freed = s.br.freed ++ [id % 4096])
    ∧ Store.get 0 t.stats.count (statBridge 12) = min (Store.get 0 s.stats.count (statBridge 12) + 1) statMax
    ∧ (t.cause .bridge).cause.getLsbD 1 = true ∧ t.node = s.node))
  ∧ (∀ (nid : Nid) (chip : Nat) (reqId : Nat) (s : State), Answers (.responderRequestExpiry nid chip reqId) s (fun t => t.br.served =
      s.br.served.filter (fun x => !(x.who.nid = nid && x.who.chip = chip && x.who.reqId = reqId))
    ∧ t.br.txns = s.br.txns.eraseIdx (s.br.txns.findIdx (fun x => x.who.nid = nid && x.who.chip = chip && x.who.reqId = reqId)) ∧ Only [.br] s t))
  ∧ (∀ (n : Nat) (x : Session) (r : List Byte) (s : State), Inv s → s.session? n = some x → x.reloading = true
    → (records (s.sectionOf 0x19 0) 32).find? (fun r => fLe r 1 1 ≠ 0 && fLe r 0 1 = n) = some r
    → Answers (.sessionReloadDone n) s (fun t => t.session? n = some { x with record := r, reloading := false, enabled := bit (fLe r 19 1) 0 }
    ∧ (bit (fLe r 19 1) 0 = x.enabled → Only [.br] s t) ∧ (bit (fLe r 19 1) 0 ≠ x.enabled → (t.cause .bridge).cause.getLsbD 2 = true)
    ∧ Only [.br, .out, .host, .causes, .stats, .log] s t))
  ∧ (∀ (c : Acs) (s : State), Accepts s c 0x0D00 inLineStates → c.args.length = 0
    → AnswersOk (.bridgeStatus c) c 0x0D00 s (le 2 (s.br.reads.length + s.br.results.length) ++ le 2 s.br.results.length ++ le 2 s.br.txns.length ++
      le 2 ((s.br.sessions.filter (fun e => e.2.enabled)).length) ++ zeros 8))
  ∧ (∀ (c : Acs) (x : Session) (s : State), Accepts s c 0x0D01 inLineStates → c.args.length = 4 → c.arg 1 1 = 0 → c.nonZero 2 2 = false
    → s.session? (c.arg 0 1) = some x → AnswersOk (.bridgeSession c) c 0x0D01 s x.report ∧ x.report.length = 48)
  ∧ (∀ (c : Acs) (x : Session) (s : State), Inv s → Accepts s c 0x0D01 inLineStates → s.carriers = [] → c.args.length = 4
    → (c.arg 1 1 = 1 ∨ c.arg 1 1 = 2) → c.nonZero 2 2 = false → s.session? (c.arg 0 1) = some x
    → Answers (.bridgeSession c) s (fun t => (t.session? (c.arg 0 1)).map (fun y => (y.enabled, y.record)) = some (decide (c.arg 1 1 = 1), x.record)
    ∧ (x.enabled ≠ decide (c.arg 1 1 = 1) → (t.session? (c.arg 0 1)).map (fun y => (y.items, y.queue, y.rxSeq)) = some ([], [], none)
    ∧ (t.cause .bridge).cause.getLsbD 2 = true) ∧ (x.enabled = decide (c.arg 1 1 = 1) → t.br = s.br) ∧ t.node = s.node))
  ∧ (∀ (c : Acs) (tag : Nat) (dst : Nid) (s : State), Inv s → Accepts s c 0x0D02 inLineStates → readLenOk c.args = true → readArgsOk c.args = true
    → (if bit (fLe c.args 1 1) 2 then s.hitch.nidAt (fLe c.args 3 1) else BitVec.ofNat 64 (fLe c.args 4 8)) = dst
    → (bit (fLe c.args 1 1) 2 = false ∨ dst ≠ 0) → dst ≠ s.node.nid → s.freeTag = some tag
    → Answers (.bridgeRead c) s (fun t => t.br.reads = s.br.reads ++
      [{ reqId := s.br.nextId tag, dst := dst, space := fLe c.args 0 1, vol := bit (fLe c.args 1 1) 0 , wait := if bit (fLe c.args 1 1) 1 then some (c.ref 0x0D02) else none, flags := flag (bit (fLe c.args 1 1) 0) 0 + flag (bit (fLe c.args 1 1) 2) 1 , body := readBody c.args (if fLe c.args 20 2 = 0 then s.readTimeout else fLe c.args 20 2), ms := if fLe c.args 20 2 = 0 then s.readTimeout else fLe c.args 20 2 }]
    ∧ Store.find t.br.sentAt (s.br.nextId tag) = some (s.now, if fLe c.args 20 2 = 0 then s.readTimeout else fLe c.args 20 2)
    ∧ Store.get 0 t.stats.count (statBridge 10) = min (Store.get 0 s.stats.count (statBridge 10) + 1) statMax ∧ (bit (fLe c.args 1 1) 1 = false
    → c.mbx < 16 → Output.acs c.mbx c.idx 0x0D02 stPending (le 2 (s.br.nextId tag) ++ zeros 2) ∈ t.out) ∧ t.br.results = s.br.results
    ∧ t.node = s.node))
  ∧ (∀ (c : Acs) (s : State), Accepts s c 0x0D02 inLineStates → readLenOk c.args = true → readArgsOk c.args = true → bit (fLe c.args 1 1) 2 = false
    → s.freeTag = none → exec (.bridgeRead c) s = .next (done c 0x0D02 stNoResource [] (started c 0x0D02 s)))
  ∧ (∀ (c : Acs) (s : State), Accepts s c 0x0D03 inLineStates → c.args.length = 4 → inRange 1 256 (c.arg 0 2) = true → c.nonZero 2 2 = false
    → Answers (.bridgeCollect c) s (fun t => t.br =
      { s.br with results := s.br.results.drop (takeResults (c.arg 0 2) 4076 s.br.results).length , freed := s.br.freed ++ (takeResults (c.arg 0 2) 4076 s.br.results).map (fun r => r.reqId % 4096) }
    ∧ t.host = (done c 0x0D03 stOk (le 4 (takeResults (c.arg 0 2) 4076 s.br.results).length ++ (takeResults (c.arg 0 2) 4076 s.br.results).flatMap
      (fun r => r.header ++ pad4 r.data)) (started c 0x0D03 s)).host
    ∧ takeResults (c.arg 0 2) 4076 s.br.results <+: s.br.results ∧ Only (.br :: answerParts) s t))

/-! ## Rules in the spec's own words -/

/-- Once the firmware runs, a read of the first four words of Window C over QSPI, single or quad, gives CHIP_ID 0x0000_9460, CHIP_STEP 0x0000_00B1,
FW_VERSION with MAJOR 3, MINOR 2 and the build, ACS_VERSION with MAJOR 3 and MINOR 2; SYS_IDENTIFY answers with the same four words. Before, CHIP_ID
and CHIP_STEP read the same and the versions 0. -/
def Obligations.IdentificationRegisters : Prop :=
  (∀ (s : State), s.alive = true → s.boot.fwRunning = true
    → Answers (.qspiRead 0 4 false) s (fun t => t.out = s.out ++ [.qspi (0xA5 :: (le 4 0x9460 ++ le 4 0xB1 ++ (le 2 s.boot.fwBuild.toNat ++ [2, 3])
      ++ [2, 3, 0, 0]))]
    ∧ Only [.host, .out] s t))
  ∧ (∀ (s : State), s.alive = true → s.boot.fwRunning = true
    → Answers (.qspiReadQuad 0 4 false) s (fun t => t.out = s.out ++ [.qspi (0xA5 :: (le 4 0x9460 ++ le 4 0xB1 ++ (le 2 s.boot.fwBuild.toNat ++ [2,
      3]) ++ [2, 3, 0, 0]))]
    ∧ Only [.host, .out] s t))
  ∧ (∀ (s : State), s.alive = true → s.boot.fwRunning = false
    → Answers (.qspiRead 0 4 false) s (fun t => t.out = s.out ++ [.qspi (0xA5 :: (le 4 0x9460 ++ le 4 0xB1 ++ zeros 8))] ∧ Only [.host, .out] s t))
  ∧ (∀ (c : Acs) (s : State), Accepts s c 0x0100 anyState → s.boot.fwRunning = true → c.args.length = 0
    → ∃ p, AnswersOk (.sysIdentify c) c 0x0100 s p ∧ p.take 16 = le 4 0x9460 ++ le 4 0xB1 ++ (le 2 s.boot.fwBuild.toNat ++ [2, 3]) ++ [2, 3, 0, 0])

/-- PORT_WAKE_SET of a port completes with BAD_ARG, and changes no pattern and no count, if first index and count exceed 16 or a pattern has ENABLE
with an all-zero MASK. One that completes with OK has its patterns in effect at completion, every other pattern as it was, and all match counts of the
port 0. -/
def Obligations.WakePatterns : Prop :=
  (∀ (c : Acs) (s : State), Accepts s c 0x0512 inLineStates → c.args.length = 4 + 24 * c.arg 2 1 → 16 < c.arg 1 1 + c.arg 2 1
    → exec (.portWakeSet c) s = .next (done c 0x0512 stBadArg [] (started c 0x0512 s)))
  ∧ (∀ (c : Acs) (k : Nat) (s : State), Accepts s c 0x0512 inLineStates → c.args.length = 4 + 24 * c.arg 2 1 → k < c.arg 2 1
    → bit (fLe c.args (4 + 24 * k + 20) 1) 0 = true → fLe c.args (4 + 24 * k) 16 = 0
    → exec (.portWakeSet c) s = .next (done c 0x0512 stBadArg [] (started c 0x0512 s)))
  ∧ (∀ (c : Acs) (i : Nat) (s : State), Inv s → Accepts s c 0x0512 inLineStates → c.args.length = 4 + 24 * c.arg 2 1 → c.arg 0 1 ≤ 14
    → 1 ≤ c.arg 2 1 → c.arg 1 1 + c.arg 2 1 ≤ 16 → c.nonZero 3 1 = false
    → ((List.range (c.arg 2 1)).map (fun k => slice c.args (4 + 24 * k) 24)).all wakeOk = true → (s.mac (c.arg 0 1)).wake.length = 16 → i < 16
    → Answers (.portWakeSet c) s (fun t => (c.arg 1 1 ≤ i → i < c.arg 1 1 + c.arg 2 1
    → (t.mac (c.arg 0 1)).wake[i]? = some (wakeOf (slice c.args (4 + 24 * (i - c.arg 1 1)) 24))) ∧ ((i < c.arg 1 1 ∨ c.arg 1 1 + c.arg 2 1 ≤ i)
    → (t.mac (c.arg 0 1)).wake[i]? = (s.mac (c.arg 0 1)).wake[i]?) ∧ (t.mac (c.arg 0 1)).wakeHits[i]? = some 0))
end

