-- ==== Sys2Proof/Laws/Base.lean ====
section
/-! SUPPORT. The relation Keeps of Safety.lean: how it composes, what changes of single parts keep it; the canonical form of the stores; protection only grows. -/
set_option Elab.async false
namespace Sys2Proof.Machine

theorem Sec.Le.rfl {a : Sec} : a.Le a := ⟨id, Nat.le_refl _, Nat.le_refl _, fun _ h => h⟩
theorem Sec.Le.trans {a b c : Sec} (h : a.Le b) (k : b.Le c) : a.Le c :=
  ⟨fun x => k.1 (h.1 x), Nat.le_trans h.2 k.2, Nat.le_trans h.3 k.3, fun i x => k.4 i (h.4 i x)⟩
theorem Keeps.rfl {s : State} : Keeps s s := ⟨Eq.refl _, Nat.le_refl _, List.prefix_refl _, id, Sec.Le.rfl⟩
theorem Keeps.trans {s t u : State} (h : Keeps s t) (k : Keeps t u) : Keeps s u :=
  ⟨k.1.trans h.1, Nat.le_trans h.2 k.2, h.3.trans k.3, fun x => k.4 (h.4 x), h.5.trans k.5⟩
theorem keeps_ite {s a b : State} {c : Prop} [Decidable c] (ha : Keeps s a) (hb : Keeps s b) : Keeps s (if c then a else b) := by
  split <;> assumption
theorem keeps_foldl {α : Type} {s : State} (f : State → α → State) (l : List α) (t : State)
    (hf : ∀ x a, Keeps s x → Keeps s (f x a)) (h : Keeps s t) : Keeps s (l.foldl f t) := by
  induction l generalizing t with
  | nil => exact h
  | cons a l ih => exact ih _ (hf _ _ h)
/-- The parts that the invariant speaks of, and any others changed. -/
theorem inv_mk (t : State) {p o f a1 a2 a3 a4 x ho ca sx a8 hi ti sw b7 ct b9 re c2 c5} (h : Inv t)
    (h1 : t.host.boxes.length = 16 → ho.boxes.length = 16) (h2 : t.hitch.ports.length = 4 → hi.ports.length = 4)
    (h3 : t.ctl.pairs.length = 4 → ct.pairs.length = 4) (h4 : t.red.tugs.length = 2 → re.tugs.length = 2)
    (h5 : t.sw.gates.length = 15 → sw.gates.length = 15) (h6 : t.sw.macsec.length = 4 → sw.macsec.length = 4)
    (h7 : t.time.txts.length = 15 → ti.txts.length = 15) (h8 : Store.wf {} t.causes = true → Store.wf {} ca = true)
    (h9 : t.stats.wf = true → sx.wf = true) :
    Inv ⟨p, o, f, a1, a2, a3, a4, x, ho, t.mem, ca, sx, a8, hi, ti, sw, t.macs, t.rx, t.tx, b7, ct, b9, re, c2, t.can, t.leg, c5⟩ :=
  ⟨h.1, h.2, h.3, h.4, h.5, h.6, h1 h.7, h2 h.8, h3 h.9, h4 h.10, h5 h.11, h6 h.12, h7 h.13, h8 h.14, h9 h.15⟩
/-- A change of the parts that the invariant speaks of, which keeps it. -/
theorem keeps_inv {u : State} (t x : State) (h : Keeps u t) (hp : x.pending = t.pending) (ho : x.out = t.out) (hf : x.freeIdx = t.freeIdx)
    (hs : x.sec = t.sec) (hi : Inv t → Inv x) : Keeps u x :=
  ⟨hp.trans h.1, hf ▸ h.2, ho ▸ h.3, fun i => hi (h.4 i), hs ▸ h.5⟩
theorem keeps_mk {u : State} (t : State) {a1 a2 a3 a4 ho ca sx a8 hi ti sw b7 ct b9 re c2 c5} (h : Keeps u t)
    (h1 : t.host.boxes.length = 16 → ho.boxes.length = 16) (h2 : t.hitch.ports.length = 4 → hi.ports.length = 4)
    (h3 : t.ctl.pairs.length = 4 → ct.pairs.length = 4) (h4 : t.red.tugs.length = 2 → re.tugs.length = 2)
    (h5 : t.sw.gates.length = 15 → sw.gates.length = 15) (h6 : t.sw.macsec.length = 4 → sw.macsec.length = 4)
    (h7 : t.time.txts.length = 15 → ti.txts.length = 15) (h8 : Store.wf {} t.causes = true → Store.wf {} ca = true)
    (h9 : t.stats.wf = true → sx.wf = true) :
    Keeps u ⟨t.pending, t.out, t.freeIdx, a1, a2, a3, a4, t.sec, ho, t.mem, ca, sx, a8, hi, ti, sw, t.macs, t.rx, t.tx, b7, ct, b9, re, c2, t.can, t.leg, c5⟩ :=
  ⟨h.1, h.2, h.3, fun i => inv_mk _ (h.4 i) h1 h2 h3 h4 h5 h6 h7 h8 h9, h.5⟩

theorem keeps_mk_iff {u : State} (t : State) {a1 a2 a3 a4 ho ca sx a8 hi ti sw b7 ct b9 re c2 c5}
    (h1 : ho.boxes = t.host.boxes) (h2 : hi.ports = t.hitch.ports) (h3 : ct.pairs = t.ctl.pairs) (h4 : re.tugs = t.red.tugs)
    (h5 : sw.gates = t.sw.gates) (h6 : sw.macsec = t.sw.macsec) (h7 : ti.txts = t.time.txts) (h8 : ca = t.causes) (h9 : sx = t.stats) :
    Keeps u ⟨t.pending, t.out, t.freeIdx, a1, a2, a3, a4, t.sec, ho, t.mem, ca, sx, a8, hi, ti, sw, t.macs, t.rx, t.tx, b7, ct, b9, re, c2, t.can, t.leg, c5⟩ ↔ Keeps u t := by
  constructor
  · intro h
    refine ⟨h.1, h.2, h.3, fun i => ?_, h.5⟩
    have k := h.4 i
    exact ⟨k.1, k.2, k.3, k.4, k.5, k.6, h1 ▸ k.7, h2 ▸ k.8, h3 ▸ k.9, h4 ▸ k.10, h5 ▸ k.11, h6 ▸ k.12, h7 ▸ k.13, h8 ▸ k.14, h9 ▸ k.15⟩
  · intro h
    exact keeps_mk t h (fun k => h1 ▸ k) (fun k => h2 ▸ k) (fun k => h3 ▸ k) (fun k => h4 ▸ k) (fun k => h5 ▸ k) (fun k => h6 ▸ k) (fun k => h7 ▸ k) (fun k => h8 ▸ k) (fun k => h9 ▸ k)
theorem keeps_ite_app {s x : State} {f g : State → State} {c : Prop} [Decidable c] (ha : Keeps s (f x)) (hb : Keeps s (g x)) :
    Keeps s ((if c then f else g) x) := by
  split <;> assumption
theorem keeps_id {s x : State} (h : Keeps s x) : Keeps s (id x) := h
theorem keeps_foldl2 {α β : Type} {s : State} (f : β × State → α → β × State) (l : List α) (t : β × State)
    (hf : ∀ x a, Keeps s x.2 → Keeps s (f x a).2) (h : Keeps s t.2) : Keeps s (l.foldl f t).2 := by
  induction l generalizing t with
  | nil => exact h
  | cons a l ih => exact ih _ (hf _ _ h)
theorem keeps_can {u t : State} (w : Nat) (h : Keeps u t) : Keeps u { t with can := { t.can with winSel := w } } :=
  keeps_inv t _ h rfl rfl rfl rfl (fun i => ⟨i.1, i.2, i.3, i.4, i.5, i.6, i.7, i.8, i.9, i.10, i.11, i.12, i.13, i.14, i.15⟩)
theorem keeps_sec {u : State} (t : State) (x : Sec) {a1 a2 a3 a4 a8 hi ti sw b7 ct b9 re c2 c5} (h : Keeps u t) (hx : t.sec.Le x)
    (h2 : t.hitch.ports.length = 4 → hi.ports.length = 4)
    (h3 : t.ctl.pairs.length = 4 → ct.pairs.length = 4) (h4 : t.red.tugs.length = 2 → re.tugs.length = 2)
    (h5 : t.sw.gates.length = 15 → sw.gates.length = 15) (h6 : t.sw.macsec.length = 4 → sw.macsec.length = 4)
    (h7 : t.time.txts.length = 15 → ti.txts.length = 15) :
    Keeps u ⟨t.pending, t.out, t.freeIdx, a1, a2, a3, a4, x, t.host, t.mem, t.causes, t.stats, a8, hi, ti, sw, t.macs, t.rx, t.tx, b7, ct, b9, re, c2, t.can, t.leg, c5⟩ :=
  ⟨h.1, h.2, h.3, fun i => inv_mk _ (h.4 i) id h2 h3 h4 h5 h6 h7 id id, h.5.trans hx⟩
theorem find_del {α : Type} (m : Store α) (k : Nat) : ∀ e ∈ Store.del m k, e ∈ m := by
  induction m with
  | nil => intro e h; simpa [Store.del] using h
  | cons a l ih =>
    intro e h
    obtain ⟨k', w⟩ := a
    unfold Store.del at h
    split at h
    · exact List.mem_cons_of_mem _ h
    · rcases List.mem_cons.1 h with h | h
      · exact h ▸ List.mem_cons_self
      · exact List.mem_cons_of_mem _ (ih _ h)

theorem sorted_iff {α : Type} (m : Store α) : Store.sorted m = true ↔ m.Pairwise (fun a b => a.1 < b.1) := by
  induction m with
  | nil => simp [Store.sorted]
  | cons a l ih =>
    cases l with
    | nil => simp [Store.sorted]
    | cons b l =>
      obtain ⟨k, v⟩ := a
      obtain ⟨k', w⟩ := b
      simp only [Store.sorted, Bool.and_eq_true, decide_eq_true_eq, ih]
      constructor
      · rintro ⟨h1, h2⟩
        refine List.Pairwise.cons ?_ h2
        intro e he
        rcases List.mem_cons.1 he with h | h
        · subst h; exact h1
        · exact Nat.lt_trans h1 (List.rel_of_pairwise_cons h2 h)
      · intro h
        exact ⟨List.rel_of_pairwise_cons h List.mem_cons_self, h.of_cons⟩

theorem del_pairwise {α : Type} (m : Store α) (k : Nat) (h : m.Pairwise (fun a b => a.1 < b.1)) :
    (Store.del m k).Pairwise (fun a b => a.1 < b.1) := by
  induction m with
  | nil => simpa [Store.del] using h
  | cons a l ih =>
    obtain ⟨k', w⟩ := a
    unfold Store.del
    split
    · exact h.of_cons
    · refine List.Pairwise.cons ?_ (ih h.of_cons)
      intro e he
      exact List.rel_of_pairwise_cons h (find_del _ _ _ he)

theorem mem_ins {α : Type} (m : Store α) (k : Nat) (v : α) : ∀ e ∈ Store.ins m k v, e = (k, v) ∨ e ∈ m := by
  induction m with
  | nil => intro e h; simp [Store.ins] at h; exact .inl h
  | cons a l ih =>
    obtain ⟨k', w⟩ := a
    intro e h
    unfold Store.ins at h
    split at h
    · rcases List.mem_cons.1 h with h | h
      · exact .inl h
      · exact .inr h
    · split at h
      · rcases List.mem_cons.1 h with h | h
        · exact .inl h
        · exact .inr (List.mem_cons_of_mem _ h)
      · rcases List.mem_cons.1 h with h | h
        · exact .inr (h ▸ List.mem_cons_self)
        · rcases ih _ h with h | h
          · exact .inl h
          · exact .inr (List.mem_cons_of_mem _ h)

theorem ins_pairwise {α : Type} (m : Store α) (k : Nat) (v : α) (h : m.Pairwise (fun a b => a.1 < b.1)) :
    (Store.ins m k v).Pairwise (fun a b => a.1 < b.1) := by
  induction m with
  | nil => simp [Store.ins]
  | cons a l ih =>
    obtain ⟨k', w⟩ := a
    unfold Store.ins
    split
    · rename_i hk
      refine List.Pairwise.cons ?_ h
      intro e he
      rcases List.mem_cons.1 he with x | x
      · subst x; exact hk
      · exact Nat.lt_trans hk (List.rel_of_pairwise_cons h x)
    · split
      · rename_i hk
        subst hk
        exact List.Pairwise.cons (fun e he => List.rel_of_pairwise_cons h he) h.of_cons
      · rename_i h1 h2
        refine List.Pairwise.cons ?_ (ih h.of_cons)
        intro e he
        rcases mem_ins _ _ _ _ he with x | x
        · subst x; simp only; omega
        · exact List.rel_of_pairwise_cons h x

theorem put_wf {α : Type} [DecidableEq α] (d : α) (m : Store α) (k : Nat) (v : α) (h : Store.wf d m = true) :
    Store.wf d (Store.put d m k v) = true := by
  simp only [Store.wf, Bool.and_eq_true, sorted_iff, List.all_eq_true, decide_eq_true_eq] at h ⊢
  unfold Store.put
  split
  · exact ⟨del_pairwise _ _ h.1, fun e he => h.2 e (find_del _ _ _ he)⟩
  · refine ⟨ins_pairwise _ _ _ h.1, fun e he => ?_⟩
    rcases mem_ins _ _ _ _ he with x | x
    · subst x; assumption
    · exact h.2 e x

theorem writeList_wf (m : Mem) (a : Nat) (bs : List Byte) (h : Mem.wf m = true) : Mem.wf (Mem.writeList m a bs) = true := by
  induction bs generalizing m a with
  | nil => exact h
  | cons b bs ih => exact ih _ _ (put_wf _ _ _ _ h)
theorem stats_add_wf (k n : Nat) (st : Stats) (h : st.wf = true) : (st.add k n).wf = true := by
  unfold Stats.add
  split
  · exact h
  · simp only [Stats.wf, Bool.and_eq_true] at h ⊢
    refine ⟨⟨put_wf _ _ _ _ h.1.1, ?_⟩, put_wf _ _ _ _ h.2⟩
    split
    · exact put_wf _ _ _ _ h.1.2
    · exact h.1.2

theorem put_all_wf (ks : List Nat) (m : Store Bool) (h : Store.wf false m = true) : Store.wf false (ks.foldl (fun m j => Store.put false m j false) m) = true := by
  induction ks generalizing m with
  | nil => exact h
  | cons a l ih => exact ih _ (put_wf _ _ _ _ h)

theorem setBox_len (h : HostIf) (m : Nat) (f : Mailbox → Mailbox) : (h.setBox m f).boxes.length = h.boxes.length := by simp [HostIf.setBox]
end Sys2Proof.Machine
end

