-- ==== Sys2Proof/Laws/Bytes.lean ====
section
/-! SUPPORT. Fields of bytes, and the slot of a record. -/
set_option Elab.async false
namespace Sys2Proof.Machine

/-- The number of a byte. -/
theorem byte_toNat (n : Nat) : (byte n).toNat = n % 256 := by simp [byte]

/-- Bytes spell the number they were made of, up to their width. -/
theorem leNat_le (n v : Nat) : leNat (le n v) = v % 256 ^ n := by
  induction n generalizing v with
  | zero => simp [le, leNat, Nat.mod_one]
  | succ n ih =>
    have h : le (n + 1) v = byte v :: le n (v / 256) := by
      simp only [le, List.range_succ_eq_map, List.map_cons, List.map_map, Nat.pow_zero, Nat.div_one]
      congr 1
      apply List.map_congr_left
      intro i _
      simp [Nat.pow_succ, Nat.div_div_eq_div_mul, Nat.mul_comm]
    rw [h, leNat, ih, byte_toNat, Nat.pow_succ, Nat.mul_comm (256 ^ n) 256, Nat.mod_mul]

/-- The length of a field. -/
theorem le_length (n v : Nat) : (le n v).length = n := by simp [le]

/-- A record's header has 32 bytes (R523). -/
theorem header_length (r : Rec) : r.header.length = 32 := by simp [Rec.header, le_length, wordBytes]

/-- A record's slot is intact (R523, R541). -/
theorem slotOk_slot (r : Rec) : slotOk r.slot = true := by
  have hb : ∀ b : List Byte, b.length = 120 → ∀ v, fLe b 0 4 = v % 2 ^ 32 →
      slotOk (b ++ wordBytes (crc32 b) ++ wordBytes (BitVec.ofNat 32 v ^^^ 0xA5A55A5A#32)) = true := by
    intro b hl v hv
    have e0 : fLe (b ++ wordBytes (crc32 b) ++ wordBytes (BitVec.ofNat 32 v ^^^ 0xA5A55A5A#32)) 0 4 = v % 2 ^ 32 := by
      rw [← hv]; simp [fLe, slice, List.take_append, hl]
    have e1 : fLe (b ++ wordBytes (crc32 b) ++ wordBytes (BitVec.ofNat 32 v ^^^ 0xA5A55A5A#32)) 120 4 = (crc32 b).toNat := by
      have : slice (b ++ wordBytes (crc32 b) ++ wordBytes (BitVec.ofNat 32 v ^^^ 0xA5A55A5A#32)) 120 4 = wordBytes (crc32 b) := by
        simp [slice, hl, wordBytes, le_length]
      rw [fLe, this, wordBytes, leNat_le]; exact Nat.mod_eq_of_lt (crc32 b).isLt
    have e2 : fLe (b ++ wordBytes (crc32 b) ++ wordBytes (BitVec.ofNat 32 v ^^^ 0xA5A55A5A#32)) 124 4 = (BitVec.ofNat 32 v ^^^ 0xA5A55A5A#32).toNat := by
      have : slice (b ++ wordBytes (crc32 b) ++ wordBytes (BitVec.ofNat 32 v ^^^ 0xA5A55A5A#32)) 124 4 = wordBytes (BitVec.ofNat 32 v ^^^ 0xA5A55A5A#32) := by
        have h1 : List.drop 124 b = [] := List.drop_eq_nil_of_le (by omega)
        simp [slice, List.drop_append, hl, h1, wordBytes, le_length, List.take_of_length_le]
      rw [fLe, this, wordBytes, leNat_le]; exact Nat.mod_eq_of_lt (BitVec.isLt _)
    have e3 : (b ++ wordBytes (crc32 b) ++ wordBytes (BitVec.ofNat 32 v ^^^ 0xA5A55A5A#32)).take 120 = b := by
      simp [hl]
    unfold slotOk
    rw [e0, e1, e2, e3]
    have : BitVec.ofNat 32 (v % 2 ^ 32) = BitVec.ofNat 32 v := by apply BitVec.eq_of_toNat_eq; simp
    simp [this, hl, wordBytes, le_length]
  unfold Rec.slot
  refine hb _ ?_ r.seq ?_
  · simp [header_length, zeros]; omega
  · have : slice (r.header ++ (r.payload ++ zeros (88 - r.payload.length)).take 88) 0 4 = (le 8 r.seq).take 4 := by
      simp [slice, Rec.header, List.take_append, le_length]
    have h4 : (le 8 r.seq).take 4 = le 4 r.seq := by simp [le, ← List.map_take, List.take_range]
    rw [fLe, this, h4]
    exact (leNat_le _ _).trans (by simp)

end Sys2Proof.Machine
end

