-- ==== Sys2Proof/Laws/Frame.lean ====
section
/-! SUPPORT. The relation Only of Safety.lean: how it composes, what a change of named parts leaves alone. -/
set_option Elab.async false
namespace Sys2Proof.Machine

theorem Part.same_rfl (p : Part) (s : State) : p.same s s := by cases p <;> rfl
theorem Part.same_trans {p : Part} {s t u : State} (h : p.same s t) (k : p.same t u) : p.same s u := by
  cases p <;> exact Eq.trans k h
theorem Only.rfl {ps : List Part} {s : State} : Only ps s s := ⟨fun p _ => p.same_rfl s⟩
theorem Only.trans {ps : List Part} {s t u : State} (h : Only ps s t) (k : Only ps t u) : Only ps s u :=
  ⟨fun p hp => Part.same_trans (h.same p hp) (k.same p hp)⟩
theorem Only.mono {ps qs : List Part} {s t : State} (hq : ∀ p ∈ ps, p ∈ qs) (h : Only ps s t) : Only qs s t :=
  ⟨fun p hp => h.same p (fun k => hp (hq p k))⟩
theorem sub_trans {a b c : List Part} (h : ∀ p ∈ a, p ∈ b) (k : ∀ p ∈ b, p ∈ c) : ∀ p ∈ a, p ∈ c := fun p hp => k p (h p hp)
theorem only_ite {ps : List Part} {s a b : State} {c : Prop} [Decidable c] (ha : Only ps s a) (hb : Only ps s b) : Only ps s (if c then a else b) := by
  split <;> assumption
theorem only_ite_app {ps : List Part} {s x : State} {f g : State → State} {c : Prop} [Decidable c] (ha : Only ps s (f x)) (hb : Only ps s (g x)) :
    Only ps s ((if c then f else g) x) := by
  split <;> assumption
theorem only_id {ps : List Part} {s x : State} (h : Only ps s x) : Only ps s (id x) := h
theorem only_foldl {α : Type} {ps : List Part} {s : State} (f : State → α → State) (l : List α) (t : State)
    (hf : ∀ x a, Only ps s x → Only ps s (f x a)) (h : Only ps s t) : Only ps s (l.foldl f t) := by
  induction l generalizing t with
  | nil => exact h
  | cons a l ih => exact ih _ (hf _ _ h)
theorem only_foldl2 {α β : Type} {ps : List Part} {s : State} (f : β × State → α → β × State) (l : List α) (t : β × State)
    (hf : ∀ x a, Only ps s x.2 → Only ps s (f x a).2) (h : Only ps s t.2) : Only ps s (l.foldl f t).2 := by
  induction l generalizing t with
  | nil => exact h
  | cons a l ih => exact ih _ (hf _ _ h)
/-- A change of named parts of a state that differs from an older one in no others. -/
theorem only_mk {ps : List Part} {u : State} (t : State) {a1 a2 a3 a4 a5 a6 a7 a8 a9 b1 b2 b3 b4 b5 b6 b7 b8 b9 c1 c2 c3 c4 c5 c6 c7 c8}
    (h : Only ps u t)
    (hx : ∀ p, p ∉ ps → p.same t ⟨t.pending, a1, a2, a3, a4, a5, a6, a7, a8, a9, b1, b2, b3, b4, b5, b6, b7, b8, b9, c1, c2, c3, c4, c5, c6, c7, c8⟩) :
    Only ps u ⟨t.pending, a1, a2, a3, a4, a5, a6, a7, a8, a9, b1, b2, b3, b4, b5, b6, b7, b8, b9, c1, c2, c3, c4, c5, c6, c7, c8⟩ :=
  h.trans ⟨hx⟩
end Sys2Proof.Machine
end

