-- ==== Sys2Proof/Laws/KeepsOps.lean ====
section
/-! SUPPORT. What every operation of Machine/Ops.lean keeps, said once for each: the queue, the outputs made so far, the free values used, the
invariant, protection (Keeps of Safety.lean). -/
set_option Elab.async false
set_option linter.all false
namespace Sys2Proof.Machine
theorem useFree_keeps (u s : State) (h : Keeps u s) : Keeps u (useFree s) :=
  ⟨h.1, Nat.le_succ_of_le h.2, h.3, fun i => inv_mk _ (h.4 i) id id id id id id id id id, h.5⟩

theorem emit_keeps (u : State) (o : Output) (s : State) (h : Keeps u s) : Keeps u (emit o s) :=
  ⟨h.1, h.2, h.3.trans (List.prefix_append _ _), fun i => inv_mk _ (h.4 i) id id id id id id id id id, h.5⟩

theorem idleTick_keeps (u0 : State)  (s : State)  (hk : Keeps u0 s) : Keeps u0 (idleTick s) := by
  unfold idleTick
  repeat' first | with_reducible assumption | with_reducible exact id | (intro _) | with_reducible apply keeps_ite | extract_lets | split
                | with_reducible apply keeps_mk | exact fun _ => rfl | dsimp only

theorem sendVector_keeps (u : State) (v : Nat) (s : State) (h : Keeps u s) : Keeps u (sendVector v s) := by
  unfold sendVector
  split
  · exact keeps_mk _ h id id id id id id id id id
  · exact ⟨h.1, h.2, h.3.trans (List.prefix_append _ _), fun i => inv_mk _ (h.4 i) id id id id id id id id (stats_add_wf _ _ _), h.5⟩

theorem raise_keeps (u0 : State) (b : CauseBlk) (i : Nat) (s : State)  (hk : Keeps u0 s) : Keeps u0 (raise b i s) := by
  unfold raise
  repeat' first | with_reducible assumption | with_reducible exact Keeps.rfl | with_reducible exact id | (intro _) | with_reducible apply keeps_ite
                | with_reducible apply keeps_ite_app | with_reducible apply keeps_id | extract_lets | with_reducible apply sendVector_keeps
                | with_reducible apply keeps_foldl | with_reducible apply keeps_foldl2 | split | with_reducible apply keeps_mk | exact id
                | exact fun _ => rfl | exact fun i => put_wf _ _ _ _ i | exact put_wf _ _ _ _ (by assumption) | (rw [setBox_len]; assumption)
                | (simp [HostIf.setBox]; done) | (simp_all; done) | assumption | dsimp only

theorem countN_keeps (u0 : State) (k n : Nat) (s : State) (hk : Keeps u0 s) : Keeps u0 (countN k n s) := by
  unfold countN
  extract_lets st first s1
  have h1 : Keeps u0 s1 := keeps_mk s hk id id id id id id id id (stats_add_wf _ _ _)
  split
  · exact keeps_ite (raise_keeps _ _ _ _ h1) h1
  · exact h1

theorem count_keeps (u0 : State) (k : Nat) (s : State)  (hk : Keeps u0 s) : Keeps u0 (count k s) := by
  unfold count
  repeat' first | with_reducible assumption | (intro _) | extract_lets | with_reducible apply countN_keeps | dsimp only

theorem logQueue_keeps (u0 : State) (r : Rec) (s : State)  (hk : Keeps u0 s) : Keeps u0 (logQueue r s) := by
  unfold logQueue
  repeat' first | with_reducible assumption | with_reducible exact id | (intro _) | with_reducible apply keeps_ite | extract_lets
                | with_reducible apply raise_keeps | with_reducible apply count_keeps | split | with_reducible apply keeps_mk | exact fun _ => rfl
                | dsimp only

theorem setLimiter_keeps (u0 : State) (k : Nat) (l : Limiter) (s : State)  (hk : Keeps u0 s) : Keeps u0 (setLimiter k l s) := by
  unfold setLimiter
  repeat' first | with_reducible assumption | with_reducible exact id | (intro _) | extract_lets | with_reducible apply keeps_mk
                | exact fun _ => rfl | dsimp only

theorem logWith_keeps (u0 : State) (code : Nat) (sev : Nat) (witness : Bool) (host : Bool) (payload : List Byte) (s : State)  (hk : Keeps u0 s) : Keeps u0 (logWith code sev witness host payload s) := by
  unfold logWith
  repeat' first | with_reducible assumption | with_reducible exact id | (intro _) | with_reducible apply keeps_ite | extract_lets
                | with_reducible apply count_keeps | with_reducible apply setLimiter_keeps | with_reducible apply logQueue_keeps | split
                | with_reducible apply keeps_mk | exact fun _ => rfl | dsimp only

theorem logEvent_keeps (u0 : State) (code : Nat) (sev : Nat) (payload : List Byte) (s : State)  (hk : Keeps u0 s) : Keeps u0 (logEvent code sev payload s) := by
  unfold logEvent
  repeat' first | with_reducible assumption | (intro _) | extract_lets | with_reducible apply logWith_keeps | dsimp only

theorem setState_keeps (u0 : State) (new : NodeState) (cause : Nat) (res : Nat) (s : State)  (hk : Keeps u0 s) : Keeps u0 (setState new cause res s) := by
  unfold setState
  repeat' first | with_reducible assumption | with_reducible exact id | (intro _) | with_reducible apply keeps_ite | extract_lets | apply h_new
                | with_reducible apply logEvent_keeps | with_reducible apply raise_keeps | split | with_reducible apply keeps_mk
                | exact fun _ => rfl | dsimp only

theorem setResource_keeps (u0 : State) (i : Nat) (lost : Bool) (s : State)  (hk : Keeps u0 s) : Keeps u0 (setResource i lost s) := by
  unfold setResource
  repeat' first | with_reducible assumption | with_reducible exact id | (intro _) | with_reducible apply keeps_ite | extract_lets
                | with_reducible apply setState_keeps | with_reducible apply logEvent_keeps | split | with_reducible apply keeps_mk
                | exact fun _ => rfl | dsimp only

theorem drivePin_keeps (u0 : State) (p : PinName) (l : Level) (s : State)  (hk : Keeps u0 s) : Keeps u0 (drivePin p l s) := by
  unfold drivePin
  repeat' first | with_reducible assumption | with_reducible exact id | (intro _) | with_reducible apply keeps_ite | extract_lets
                | with_reducible apply emit_keeps | split | with_reducible apply keeps_mk | exact fun _ => rfl | dsimp only

theorem mbxVector_keeps (u0 : State) (en : Bool) (s : State)  (hk : Keeps u0 s) : Keeps u0 (mbxVector en s) := by
  unfold mbxVector
  repeat' first | with_reducible assumption | (intro _) | with_reducible apply keeps_ite | extract_lets | with_reducible apply sendVector_keeps
                | split | dsimp only

theorem acsDone_keeps (u : State) (r : AcsRef) (status : Nat) (payload : List Byte) (s : State) (h : Keeps u s) :
    Keeps u (acsDone r status payload s) := by
  unfold acsDone
  have h1 : Keeps u (emit (.acs r.mbx r.idx r.opcode status payload) (count (statHost 1) s)) := emit_keeps _ _ _ (count_keeps _ _ _ h)
  have h2 (b : Mailbox) (w : Bool) (rsp : List Byte) (x : HostIf) (hx : (emit (.acs r.mbx r.idx r.opcode status payload) (count (statHost 1) s)).host.boxes.length = 16 → x.boxes.length = 16) : Keeps u { (emit (.acs r.mbx r.idx r.opcode status payload) (count (statHost 1) s)) with
      mem := if w then Mem.writeList (emit (.acs r.mbx r.idx r.opcode status payload) (count (statHost 1) s)).mem (r.mbx * 0x2000 + 0x1000 + b.rspLen) rsp
        else (emit (.acs r.mbx r.idx r.opcode status payload) (count (statHost 1) s)).mem
      host := x } := ⟨h1.1, h1.2, h1.3, fun k => ⟨by
      dsimp only
      split
      · exact writeList_wf _ _ _ (h1.4 k).1
      · exact (h1.4 k).1, (h1.4 k).2, (h1.4 k).3, (h1.4 k).4, (h1.4 k).5, (h1.4 k).6, hx (h1.4 k).7, (h1.4 k).8, (h1.4 k).9, (h1.4 k).10, (h1.4 k).11, (h1.4 k).12, (h1.4 k).13, (h1.4 k).14, (h1.4 k).15⟩, h1.5⟩
  extract_lets b live rsp s1 write s2
  have hs2 : Keeps u s2 := h2 _ _ _ _ (fun i => (setBox_len _ _ _).trans i)
  split
  · exact h
  · split
    · exact h1
    · split
      · exact mbxVector_keeps _ _ _ hs2
      · exact hs2

end Sys2Proof.Machine
end

