-- ==== Sys2Proof/Laws/KeepsTugOps.lean ====
section
/-! SUPPORT. What every operation of Machine/TugOps.lean keeps, said once for each: the queue, the outputs made so far, the free values used, the
invariant, protection (Keeps of Safety.lean). -/
set_option Elab.async false
set_option linter.all false
namespace Sys2Proof.Machine
theorem setTug_keeps (u0 : State) (l : Nat) (f : TugLink → TugLink) (s : State) (hk : Keeps u0 s) : Keeps u0 (setTug l f s) :=
  keeps_inv s _ hk rfl rfl rfl rfl (fun i => ⟨i.1, i.2, i.3, i.4, i.5, i.6, i.7, i.8, i.9, by simpa [setTug] using i.10, i.11, i.12, i.13, i.14, i.15⟩)

theorem tugPut_keeps (u0 : State) (l : Nat) (m : TugMsg) (s : State)  (hk : Keeps u0 s) : Keeps u0 (tugPut l m s) := by
  unfold tugPut
  repeat' first | with_reducible assumption | with_reducible exact id | (intro _) | extract_lets | with_reducible apply emit_keeps
                | with_reducible apply setTug_keeps | with_reducible apply keeps_mk | exact fun _ => rfl | dsimp only

theorem tugSend_keeps (u0 : State) (l : Nat) (c : TugChan) (typ : Nat) (data : List Byte) (s : State)  (hk : Keeps u0 s) : Keeps u0 (tugSend l c typ data s) := by
  unfold tugSend
  repeat' first | with_reducible assumption | with_reducible exact Keeps.rfl | with_reducible exact id | (intro _) | with_reducible apply keeps_ite
                | with_reducible apply keeps_ite_app | with_reducible apply keeps_id | extract_lets | with_reducible apply emit_keeps
                | with_reducible apply count_keeps | with_reducible apply setTug_keeps | with_reducible apply tugPut_keeps
                | with_reducible apply keeps_foldl | with_reducible apply keeps_foldl2 | split | with_reducible apply keeps_mk | exact id
                | exact fun _ => rfl | exact fun i => put_wf _ _ _ _ i | exact put_wf _ _ _ _ (by assumption) | (rw [setBox_len]; assumption)
                | (simp [HostIf.setBox]; done) | (simp_all; done) | assumption | dsimp only

theorem tugDrain_keeps (u0 : State) (l : Nat) (s : State)  (hk : Keeps u0 s) : Keeps u0 (tugDrain l s) := by
  unfold tugDrain
  try dsimp only
  repeat' first | with_reducible assumption | with_reducible exact Keeps.rfl | with_reducible exact id | (intro _) | with_reducible apply keeps_ite
                | with_reducible apply keeps_ite_app | with_reducible apply keeps_id | with_reducible apply tugPut_keeps
                | with_reducible apply setTug_keeps | with_reducible apply keeps_foldl | with_reducible apply keeps_foldl2 | split
                | simp only [keeps_mk_iff] | exact id | exact fun _ => rfl | exact fun i => put_wf _ _ _ _ i | exact put_wf _ _ _ _ (by assumption)
                | (rw [setBox_len]; assumption) | (simp [HostIf.setBox]; done) | dsimp only

theorem tugAll_keeps (u0 : State) (c : TugChan) (typ : Nat) (data : List Byte) (s : State)  (hk : Keeps u0 s) : Keeps u0 (tugAll c typ data s) := by
  unfold tugAll
  repeat' first | with_reducible assumption | with_reducible exact Keeps.rfl | with_reducible exact id | (intro _) | with_reducible apply keeps_ite
                | with_reducible apply keeps_ite_app | with_reducible apply keeps_id | extract_lets | with_reducible apply tugSend_keeps
                | with_reducible apply keeps_foldl | with_reducible apply keeps_foldl2 | split | with_reducible apply keeps_mk | exact id
                | exact fun _ => rfl | exact fun i => put_wf _ _ _ _ i | exact put_wf _ _ _ _ (by assumption) | (rw [setBox_len]; assumption)
                | (simp [HostIf.setBox]; done) | (simp_all; done) | assumption | dsimp only

theorem sendParts_keeps (u0 : State) (l : Nat) (c : TugChan) (task : Nat) (part : Nat) (cycle : Nat) (b : List Byte) (s : State)  (hk : Keeps u0 s) : Keeps u0 (sendParts l c task part cycle b s) := by
  unfold sendParts
  repeat' first | with_reducible assumption | with_reducible exact Keeps.rfl | with_reducible exact id | (intro _) | with_reducible apply keeps_ite
                | with_reducible apply keeps_ite_app | with_reducible apply keeps_id | extract_lets | with_reducible apply tugSend_keeps
                | with_reducible apply keeps_foldl | with_reducible apply keeps_foldl2 | split | with_reducible apply keeps_mk | exact id
                | exact fun _ => rfl | exact fun i => put_wf _ _ _ _ i | exact put_wf _ _ _ _ (by assumption) | (rw [setBox_len]; assumption)
                | (simp [HostIf.setBox]; done) | (simp_all; done) | assumption | dsimp only

theorem sendSegments_keeps (u0 : State) (l : Nat) (port : Nat) (dir : Nat) (line : Nat) (rtag : Nat) (handle : Nat) (b : List Byte) (s : State)  (hk : Keeps u0 s) : Keeps u0 (sendSegments l port dir line rtag handle b s) := by
  unfold sendSegments
  repeat' first | with_reducible assumption | with_reducible exact Keeps.rfl | with_reducible exact id | (intro _) | with_reducible apply keeps_ite
                | with_reducible apply keeps_ite_app | with_reducible apply keeps_id | extract_lets | with_reducible apply tugSend_keeps
                | with_reducible apply keeps_foldl | with_reducible apply keeps_foldl2 | split | with_reducible apply keeps_mk | exact id
                | exact fun _ => rfl | exact fun i => put_wf _ _ _ _ i | exact put_wf _ _ _ _ (by assumption) | (rw [setBox_len]; assumption)
                | (simp [HostIf.setBox]; done) | (simp_all; done) | assumption | dsimp only

end Sys2Proof.Machine
end

