-- ==== Sys2Proof/Laws/KeepsOperands.lean ====
section
/-! SUPPORT. What every operation of Machine/Operands.lean keeps, said once for each: the queue, the outputs made so far, the free values used, the
invariant, protection (Keeps of Safety.lean). -/
set_option Elab.async false
set_option linter.all false
namespace Sys2Proof.Machine
theorem acsMark_keeps (u0 : State) (c : Acs) (s : State)  (hk : Keeps u0 s) : Keeps u0 (acsMark c s) := by
  unfold acsMark
  repeat' first | with_reducible assumption | with_reducible exact Keeps.rfl | with_reducible exact id | (intro _) | with_reducible apply keeps_ite
                | with_reducible apply keeps_ite_app | with_reducible apply keeps_id | extract_lets | with_reducible apply keeps_foldl
                | with_reducible apply keeps_foldl2 | split | with_reducible apply keeps_mk | exact id | exact fun _ => rfl
                | exact fun i => put_wf _ _ _ _ i | exact put_wf _ _ _ _ (by assumption) | (rw [setBox_len]; assumption)
                | (simp [HostIf.setBox]; done) | (simp_all; done) | assumption | dsimp only

theorem done_keeps (u0 : State) (c : Acs) (opcode : Nat) (status : Nat) (payload : List Byte) (s : State)  (hk : Keeps u0 s) : Keeps u0 (done c opcode status payload s) := by
  unfold done
  repeat' first | with_reducible assumption | (intro _) | extract_lets | with_reducible apply acsDone_keeps | dsimp only

theorem acs_keeps (u0 : State) (opcode : Nat) (states : States) (c : Acs) (body : State → State) (s : State) (h_body : ∀ (s9 : State), Keeps u0 s9 → Keeps u0 (body  s9)) (hk : Keeps u0 s) : Keeps u0 (acs opcode states c body s) := by
  unfold acs
  repeat' first | with_reducible assumption | (intro _) | with_reducible apply keeps_ite | extract_lets | apply h_states | apply h_body
                | with_reducible apply acsMark_keeps | with_reducible apply done_keeps | split | dsimp only

theorem acsLen_keeps (u0 : State) (opcode : Nat) (states : States) (n : Nat) (c : Acs) (body : State → State) (s : State) (h_body : ∀ (s9 : State), Keeps u0 s9 → Keeps u0 (body  s9)) (hk : Keeps u0 s) : Keeps u0 (acsLen opcode states n c body s) := by
  unfold acsLen
  repeat' first | with_reducible assumption | (intro _) | with_reducible apply keeps_ite | extract_lets | apply h_states | apply h_body
                | with_reducible apply acs_keeps | with_reducible apply done_keeps | split | dsimp only

theorem releaseFences_keeps (u0 : State)  (s : State)  (hk : Keeps u0 s) : Keeps u0 (releaseFences s) := by
  unfold releaseFences
  repeat' first | with_reducible assumption | with_reducible exact id | (intro _) | with_reducible apply keeps_ite | extract_lets
                | with_reducible apply acsDone_keeps | with_reducible apply keeps_foldl | split | with_reducible apply keeps_mk | exact fun _ => rfl
                | dsimp only

theorem badArgIf_keeps (u0 : State) (p : Bool) (opcode : Nat) (c : Acs) (body : State → State) (s : State) (h_body : ∀ (s9 : State), Keeps u0 s9 → Keeps u0 (body  s9)) (hk : Keeps u0 s) : Keeps u0 (badArgIf p opcode c body s) := by
  unfold badArgIf
  repeat' first | with_reducible assumption | (intro _) | with_reducible apply keeps_ite | extract_lets | apply h_body
                | with_reducible apply done_keeps | split | dsimp only

theorem finish_keeps (u0 : State) (r : Option AcsRef) (status : Nat) (payload : List Byte) (s : State)  (hk : Keeps u0 s) : Keeps u0 (finish r status payload s) := by
  unfold finish
  repeat' first | with_reducible assumption | with_reducible exact id | (intro _) | with_reducible apply keeps_ite | extract_lets
                | with_reducible apply acsDone_keeps | split | with_reducible apply keeps_mk | exact fun _ => rfl | dsimp only

theorem forwardCmd_keeps (u0 : State) (m : List Byte) (s : State)  (hk : Keeps u0 s) : Keeps u0 (forwardCmd m s) := by
  unfold forwardCmd
  repeat' first | with_reducible assumption | with_reducible exact id | (intro _) | with_reducible apply keeps_ite | extract_lets
                | with_reducible apply tugAll_keeps | with_reducible apply tugSend_keeps | split | with_reducible apply keeps_mk
                | exact fun _ => rfl | dsimp only

theorem nodeWide_keeps (u0 : State) (opcode : Nat) (c : Acs) (eff : Option AcsRef → State → State) (s : State) (h_eff : ∀ (x0 : Option AcsRef) (s9 : State), Keeps u0 s9 → Keeps u0 (eff x0 s9)) (hk : Keeps u0 s) : Keeps u0 (nodeWide opcode c eff s) := by
  unfold nodeWide
  repeat' first | with_reducible assumption | with_reducible exact id | (intro _) | with_reducible apply keeps_ite | extract_lets | apply h_eff
                | with_reducible apply count_keeps | with_reducible apply forwardCmd_keeps | split | with_reducible apply keeps_mk
                | exact fun _ => rfl | dsimp only

end Sys2Proof.Machine
end

