-- ==== Sys2Proof/Laws/KeepsCanOps.lean ====
section
/-! SUPPORT. What every operation of Machine/CanOps.lean keeps, said once for each: the queue, the outputs made so far, the free values used, the
invariant, protection (Keeps of Safety.lean). -/
set_option Elab.async false
set_option linter.all false
namespace Sys2Proof.Machine
theorem setCan_keeps (u0 : State) (ch : Nat) (f : CanChan → CanChan) (s : State) (hk : Keeps u0 s) : Keeps u0 (setCan ch f s) :=
  keeps_inv s _ hk rfl rfl rfl rfl (fun i => ⟨i.1, i.2, i.3, i.4, by simpa [setCan] using i.5, i.6, i.7, i.8, i.9, i.10, i.11, i.12, i.13, i.14, i.15⟩)

theorem setBuf_keeps (u0 : State) (ch : Nat) (b : Nat) (f : CanBuf → CanBuf) (s : State)  (hk : Keeps u0 s) : Keeps u0 (setBuf ch b f s) := by
  unfold setBuf
  repeat' first | with_reducible assumption | with_reducible exact id | (intro _) | extract_lets | with_reducible apply setCan_keeps
                | with_reducible apply keeps_mk | exact fun _ => rfl | dsimp only

theorem canTxEnd_keeps (u0 : State) (ch : Nat) (b : Nat) (f : CanBuf → CanBuf) (s : State)  (hk : Keeps u0 s) : Keeps u0 (canTxEnd ch b f s) := by
  unfold canTxEnd
  repeat' first | with_reducible assumption | with_reducible exact id | (intro _) | with_reducible apply keeps_ite | extract_lets
                | with_reducible apply setBuf_keeps | with_reducible apply raise_keeps | with_reducible apply setCan_keeps | split
                | with_reducible apply keeps_mk | exact fun _ => rfl | dsimp only

theorem canNoTx_keeps (u0 : State) (ch : Nat) (b : Nat) (s : State)  (hk : Keeps u0 s) : Keeps u0 (canNoTx ch b s) := by
  unfold canNoTx
  repeat' first | with_reducible assumption | with_reducible exact id | (intro _) | extract_lets | with_reducible apply count_keeps
                | with_reducible apply canTxEnd_keeps | with_reducible apply keeps_mk | exact fun _ => rfl | dsimp only

theorem canEndRequests_keeps (u0 : State) (ch : Nat) (s : State)  (hk : Keeps u0 s) : Keeps u0 (canEndRequests ch s) := by
  unfold canEndRequests
  repeat' first | with_reducible assumption | (intro _) | with_reducible apply keeps_ite | extract_lets | with_reducible apply canNoTx_keeps
                | with_reducible apply keeps_foldl | split | dsimp only

theorem canMode_keeps (u0 : State) (cause : Nat) (ch : Nat) (s : State)  (hk : Keeps u0 s) : Keeps u0 (canMode cause ch s) := by
  unfold canMode
  repeat' first | with_reducible assumption | with_reducible exact id | (intro _) | with_reducible apply keeps_ite | extract_lets
                | with_reducible apply canEndRequests_keeps | with_reducible apply logEvent_keeps | with_reducible apply setCan_keeps | split
                | with_reducible apply keeps_mk | exact fun _ => rfl | dsimp only

theorem canModes_keeps (u0 : State) (cause : Nat) (s : State)  (hk : Keeps u0 s) : Keeps u0 (canModes cause s) := by
  unfold canModes
  repeat' first | with_reducible assumption | (intro _) | extract_lets | with_reducible apply canMode_keeps | with_reducible apply keeps_foldl
                | dsimp only

theorem canLoad_keeps (u0 : State)  (s : State) (hk : Keeps u0 s) : Keeps u0 (canLoad s) :=
  keeps_inv s _ hk rfl rfl rfl rfl (fun i => ⟨i.1, i.2, i.3, i.4, by simpa [canLoad] using i.5, i.6, i.7, i.8, i.9, i.10, i.11, i.12, i.13, i.14, i.15⟩)

theorem canControlStart_keeps (u0 : State)  (s : State) (hk : Keeps u0 s) : Keeps u0 (canControlStart s) :=
  keeps_inv s _ hk rfl rfl rfl rfl (fun i => ⟨i.1, i.2, i.3, i.4, by simpa [canControlStart] using i.5, i.6, i.7, i.8, i.9, i.10, i.11, i.12, i.13, i.14, i.15⟩)

theorem canEmpty_keeps (u0 : State) (ch : Nat) (s : State)  (hk : Keeps u0 s) : Keeps u0 (canEmpty ch s) := by
  unfold canEmpty
  repeat' first | with_reducible assumption | with_reducible exact id | (intro _) | with_reducible apply keeps_ite | extract_lets
                | with_reducible apply setCan_keeps | split | with_reducible apply keeps_mk | exact fun _ => rfl | dsimp only

theorem canSetBlock_keeps (u0 : State) (cause : Nat) (ch : Nat) (block : List Byte) (s : State)  (hk : Keeps u0 s) : Keeps u0 (canSetBlock cause ch block s) := by
  unfold canSetBlock
  repeat' first | with_reducible assumption | with_reducible exact id | (intro _) | with_reducible apply keeps_ite | extract_lets
                | with_reducible apply canMode_keeps | with_reducible apply setCan_keeps | split | with_reducible apply keeps_mk
                | exact fun _ => rfl | dsimp only

theorem canSettle_keeps (u0 : State) (ch : Nat) (s : State)  (hk : Keeps u0 s) : Keeps u0 (canSettle ch s) := by
  unfold canSettle
  repeat' first | with_reducible assumption | with_reducible exact id | (intro _) | with_reducible apply keeps_ite | extract_lets
                | with_reducible apply finish_keeps | with_reducible apply canEmpty_keeps | with_reducible apply canSetBlock_keeps
                | with_reducible apply setCan_keeps | split | with_reducible apply keeps_mk | exact fun _ => rfl | dsimp only

theorem canParity_keeps (u0 : State) (ch : Nat) (what : Nat) (action : Nat) (s : State)  (hk : Keeps u0 s) : Keeps u0 (canParity ch what action s) := by
  unfold canParity
  repeat' first | with_reducible assumption | (intro _) | extract_lets | with_reducible apply raise_keeps | with_reducible apply logEvent_keeps
                | with_reducible apply count_keeps | dsimp only

theorem canBufParity_keeps (u0 : State) (ch : Nat) (b : Nat) (s : State)  (hk : Keeps u0 s) : Keeps u0 (canBufParity ch b s) := by
  unfold canBufParity
  repeat' first | with_reducible assumption | with_reducible exact id | (intro _) | with_reducible apply keeps_ite | extract_lets
                | with_reducible apply canParity_keeps | with_reducible apply setBuf_keeps | with_reducible apply canTxEnd_keeps | split
                | with_reducible apply keeps_mk | exact fun _ => rfl | dsimp only

theorem canFifoParity_keeps (u0 : State) (ch : Nat) (s : State)  (hk : Keeps u0 s) : Keeps u0 (canFifoParity ch s) := by
  unfold canFifoParity
  repeat' first | with_reducible assumption | with_reducible exact id | (intro _) | with_reducible apply keeps_ite | extract_lets
                | with_reducible apply canParity_keeps | with_reducible apply count_keeps | with_reducible apply setCan_keeps | split
                | with_reducible apply keeps_mk | exact fun _ => rfl | dsimp only

theorem canConfigParity_keeps (u0 : State) (ch : Nat) (b : Nat) (s : State)  (hk : Keeps u0 s) : Keeps u0 (canConfigParity ch b s) := by
  unfold canConfigParity
  repeat' first | with_reducible assumption | with_reducible exact id | (intro _) | extract_lets | with_reducible apply canParity_keeps
                | with_reducible apply setCan_keeps | with_reducible apply keeps_mk | exact fun _ => rfl | dsimp only

theorem canToBuf_keeps (u0 : State) (ch : Nat) (b : Nat) (m : CanMsg) (s : State)  (hk : Keeps u0 s) : Keeps u0 (canToBuf ch b m s) := by
  unfold canToBuf
  repeat' first | with_reducible assumption | with_reducible exact id | (intro _) | with_reducible apply keeps_ite | extract_lets
                | with_reducible apply raise_keeps | with_reducible apply count_keeps | with_reducible apply setBuf_keeps | split
                | with_reducible apply keeps_mk | exact fun _ => rfl | dsimp only

theorem canToFifo_keeps (u0 : State) (ch : Nat) (m : CanMsg) (s : State)  (hk : Keeps u0 s) : Keeps u0 (canToFifo ch m s).2 := by
  unfold canToFifo
  repeat' first | with_reducible assumption | with_reducible exact id | (intro _) | with_reducible apply keeps_ite | extract_lets
                | with_reducible apply raise_keeps | with_reducible apply logEvent_keeps | with_reducible apply count_keeps
                | with_reducible apply setCan_keeps | split | with_reducible apply keeps_mk | exact fun _ => rfl | dsimp only

theorem canDeliver_keeps (u0 : State) (ch : Nat) (f : CanFrame) (sof : Nat) (s : State)  (hk : Keeps u0 s) : Keeps u0 (canDeliver ch f sof s).2 := by
  unfold canDeliver
  repeat' first | with_reducible assumption | with_reducible exact id | (intro _) | with_reducible apply keeps_ite | extract_lets
                | with_reducible apply count_keeps | with_reducible apply canToBuf_keeps | with_reducible apply canToFifo_keeps | split
                | with_reducible apply keeps_mk | exact fun _ => rfl | dsimp only

theorem canRelease_keeps (u0 : State) (ch : Nat) (b : Nat) (s : State)  (hk : Keeps u0 s) : Keeps u0 (canRelease ch b s) := by
  unfold canRelease
  repeat' first | with_reducible assumption | with_reducible exact id | (intro _) | with_reducible apply keeps_ite | extract_lets
                | with_reducible apply setBuf_keeps | with_reducible apply raise_keeps | split | with_reducible apply keeps_mk | exact fun _ => rfl
                | dsimp only

theorem canRequest_keeps (u0 : State) (ch : Nat) (b : Nat) (m : CanMsg) (s : State)  (hk : Keeps u0 s) : Keeps u0 (canRequest ch b m s) := by
  unfold canRequest
  repeat' first | with_reducible assumption | with_reducible exact id | (intro _) | extract_lets | with_reducible apply setBuf_keeps
                | with_reducible apply keeps_mk | exact fun _ => rfl | dsimp only

theorem canRequeue_keeps (u0 : State) (ch : Nat) (b : Nat) (s : State)  (hk : Keeps u0 s) : Keeps u0 (canRequeue ch b s) := by
  unfold canRequeue
  repeat' first | with_reducible assumption | with_reducible exact id | (intro _) | with_reducible apply keeps_ite | extract_lets
                | with_reducible apply setCan_keeps | with_reducible apply count_keeps | with_reducible apply canTxEnd_keeps
                | with_reducible apply setBuf_keeps | with_reducible apply canNoTx_keeps | split | with_reducible apply keeps_mk
                | exact fun _ => rfl | dsimp only

theorem canCancel_keeps (u0 : State) (ch : Nat) (b : Nat) (s : State)  (hk : Keeps u0 s) : Keeps u0 (canCancel ch b s) := by
  unfold canCancel
  repeat' first | with_reducible assumption | with_reducible exact id | (intro _) | with_reducible apply keeps_ite | extract_lets
                | with_reducible apply count_keeps | with_reducible apply canTxEnd_keeps | with_reducible apply setBuf_keeps | split
                | with_reducible apply keeps_mk | exact fun _ => rfl | dsimp only

theorem canStamp_keeps (u0 : State) (ch : Nat) (tick : Nat) (s : State)  (hk : Keeps u0 s) : Keeps u0 (canStamp ch tick s) := by
  unfold canStamp
  repeat' first | with_reducible assumption | with_reducible exact id | (intro _) | extract_lets | with_reducible apply setCan_keeps
                | with_reducible apply keeps_mk | exact fun _ => rfl | dsimp only

theorem canRead0_keeps (u0 : State) (b : Nat) (err : Bool) (s : State)  (hk : Keeps u0 s) : Keeps u0 (canRead0 b err s).2 := by
  unfold canRead0
  repeat' first | with_reducible assumption | with_reducible exact id | (intro _) | with_reducible apply keeps_ite | extract_lets
                | with_reducible apply canBufParity_keeps | with_reducible apply setBuf_keeps | with_reducible apply canStamp_keeps | split
                | with_reducible apply keeps_mk | exact fun _ => rfl | dsimp only

theorem canRead17_keeps (u0 : State) (b : Nat) (s : State)  (hk : Keeps u0 s) : Keeps u0 (canRead17 b s).2 := by
  unfold canRead17
  repeat' first | with_reducible assumption | (intro _) | with_reducible apply keeps_ite | extract_lets | with_reducible apply canRelease_keeps
                | split | dsimp only

theorem fifoRead0_keeps (u0 : State) (err : Bool) (s : State)  (hk : Keeps u0 s) : Keeps u0 (fifoRead0 err s).2 := by
  unfold fifoRead0
  repeat' first | with_reducible assumption | with_reducible exact id | (intro _) | with_reducible apply keeps_ite | extract_lets
                | with_reducible apply canFifoParity_keeps | with_reducible apply canStamp_keeps | with_reducible apply setCan_keeps | split
                | with_reducible apply keeps_mk | exact fun _ => rfl | dsimp only

theorem fifoRead17_keeps (u0 : State)  (s : State)  (hk : Keeps u0 s) : Keeps u0 (fifoRead17 s).2 := by
  unfold fifoRead17
  repeat' first | with_reducible assumption | with_reducible exact id | (intro _) | with_reducible apply keeps_ite | extract_lets
                | with_reducible apply setCan_keeps | split | with_reducible apply keeps_mk | exact fun _ => rfl | dsimp only

theorem canWriteEmpty_keeps (u0 : State) (b : Nat) (s : State)  (hk : Keeps u0 s) : Keeps u0 (canWriteEmpty b s) := by
  unfold canWriteEmpty
  repeat' first | with_reducible assumption | with_reducible exact id | (intro _) | with_reducible apply keeps_ite | extract_lets
                | with_reducible apply canRelease_keeps | with_reducible apply setBuf_keeps | split | with_reducible apply keeps_mk
                | exact fun _ => rfl | dsimp only

theorem canWritePending_keeps (u0 : State) (b : Nat) (w : Nat) (s : State)  (hk : Keeps u0 s) : Keeps u0 (canWritePending b w s) := by
  unfold canWritePending
  repeat' first | with_reducible assumption | with_reducible exact id | (intro _) | with_reducible apply keeps_ite | extract_lets
                | with_reducible apply canRequest_keeps | with_reducible apply count_keeps | with_reducible apply canTxEnd_keeps
                | with_reducible apply canNoTx_keeps | split | with_reducible apply keeps_mk | exact fun _ => rfl | dsimp only

theorem canWriteIdle_keeps (u0 : State) (b : Nat) (w : Nat) (s : State)  (hk : Keeps u0 s) : Keeps u0 (canWriteIdle b w s) := by
  unfold canWriteIdle
  repeat' first | with_reducible assumption | with_reducible exact id | (intro _) | with_reducible apply keeps_ite | extract_lets
                | with_reducible apply setBuf_keeps | split | with_reducible apply keeps_mk | exact fun _ => rfl | dsimp only

theorem canWrite0_keeps (u0 : State) (b : Nat) (w : Nat) (s : State)  (hk : Keeps u0 s) : Keeps u0 (canWrite0 b w s) := by
  unfold canWrite0
  repeat' first | with_reducible assumption | with_reducible exact id | (intro _) | with_reducible apply keeps_ite | extract_lets
                | with_reducible apply canWriteEmpty_keeps | with_reducible apply canWritePending_keeps | with_reducible apply canWriteIdle_keeps
                | with_reducible apply setBuf_keeps | split | with_reducible apply keeps_mk | exact fun _ => rfl | dsimp only

theorem canWriteWord_keeps (u0 : State) (b : Nat) (n : Nat) (w : Nat) (s : State)  (hk : Keeps u0 s) : Keeps u0 (canWriteWord b n w s) := by
  unfold canWriteWord
  repeat' first | with_reducible assumption | with_reducible exact id | (intro _) | with_reducible apply keeps_ite | extract_lets
                | with_reducible apply setBuf_keeps | split | with_reducible apply keeps_mk | exact fun _ => rfl | dsimp only

theorem canPassive_keeps (u0 : State) (ch : Nat) (entered : Bool) (s : State)  (hk : Keeps u0 s) : Keeps u0 (canPassive ch entered s) := by
  unfold canPassive
  repeat' first | with_reducible assumption | with_reducible exact id | (intro _) | with_reducible apply keeps_ite | extract_lets
                | with_reducible apply setCan_keeps | with_reducible apply count_keeps | with_reducible apply raise_keeps
                | with_reducible apply logEvent_keeps | split | with_reducible apply keeps_mk | exact fun _ => rfl | dsimp only

theorem canErrState_keeps (u0 : State) (ch : Nat) (s : State)  (hk : Keeps u0 s) : Keeps u0 (canErrState ch s) := by
  unfold canErrState
  repeat' first | with_reducible assumption | with_reducible exact id | (intro _) | with_reducible apply keeps_ite | extract_lets
                | with_reducible apply canPassive_keeps | with_reducible apply canRequeue_keeps | with_reducible apply raise_keeps
                | with_reducible apply logEvent_keeps | with_reducible apply count_keeps | with_reducible apply setCan_keeps | split
                | with_reducible apply keeps_mk | exact fun _ => rfl | dsimp only

theorem canRxGood_keeps (u0 : State) (ch : Nat) (s : State)  (hk : Keeps u0 s) : Keeps u0 (canRxGood ch s) := by
  unfold canRxGood
  repeat' first | with_reducible assumption | with_reducible exact id | (intro _) | with_reducible apply keeps_ite | extract_lets
                | with_reducible apply canErrState_keeps | with_reducible apply setCan_keeps | with_reducible apply useFree_keeps | split
                | with_reducible apply keeps_mk | exact fun _ => rfl | dsimp only

theorem canLatchBuf_keeps (u0 : State) (ch : Nat) (b : Nat) (task : Nat) (old : List Byte) (s : State)  (hk : Keeps u0 s) : Keeps u0 (canLatchBuf ch b task old s).2 := by
  unfold canLatchBuf
  repeat' first | with_reducible assumption | with_reducible exact id | (intro _) | with_reducible apply keeps_ite | extract_lets
                | with_reducible apply setCan_keeps | split | with_reducible apply keeps_mk | exact fun _ => rfl | dsimp only

theorem canLatchFifo_keeps (u0 : State) (ch : Nat) (n : Nat) (s : State)  (hk : Keeps u0 s) : Keeps u0 (canLatchFifo ch n s).2 := by
  unfold canLatchFifo
  repeat' first | with_reducible assumption | with_reducible exact id | (intro _) | extract_lets | with_reducible apply setCan_keeps
                | with_reducible apply keeps_mk | exact fun _ => rfl | dsimp only

theorem canCommit_keeps (u0 : State) (ch : Nat) (b : Nat) (block : List Byte) (s : State)  (hk : Keeps u0 s) : Keeps u0 (canCommit ch b block s) := by
  unfold canCommit
  repeat' first | with_reducible assumption | with_reducible exact id | (intro _) | with_reducible apply keeps_ite | extract_lets
                | with_reducible apply setBuf_keeps | with_reducible apply canRequest_keeps | with_reducible apply count_keeps | split
                | with_reducible apply keeps_mk | exact fun _ => rfl | dsimp only

end Sys2Proof.Machine
end

