-- ==== Sys2Proof/Laws/KeepsLegacyOps.lean ====
section
/-! SUPPORT. What every operation of Machine/LegacyOps.lean keeps, said once for each: the queue, the outputs made so far, the free values used, the
invariant, protection (Keeps of Safety.lean). -/
set_option Elab.async false
set_option linter.all false
namespace Sys2Proof.Machine
theorem setLeg_keeps (u0 : State) (u : Nat) (f : LegUnit → LegUnit) (s : State) (hk : Keeps u0 s) : Keeps u0 (setLeg u f s) :=
  keeps_inv s _ hk rfl rfl rfl rfl (fun i => ⟨i.1, i.2, i.3, i.4, i.5, by simpa [setLeg] using i.6, i.7, i.8, i.9, i.10, i.11, i.12, i.13, i.14, i.15⟩)

theorem setPort_keeps (u0 : State) (u : Nat) (addr : Nat) (f : LegPort → LegPort) (s : State)  (hk : Keeps u0 s) : Keeps u0 (setPort u addr f s) := by
  unfold setPort
  repeat' first | with_reducible assumption | with_reducible exact id | (intro _) | extract_lets | with_reducible apply setLeg_keeps
                | with_reducible apply keeps_mk | exact fun _ => rfl | dsimp only

theorem legParity_keeps (u0 : State) (u : Nat) (what : Nat) (action : Nat) (s : State)  (hk : Keeps u0 s) : Keeps u0 (legParity u what action s) := by
  unfold legParity
  repeat' first | with_reducible assumption | (intro _) | extract_lets | with_reducible apply raise_keeps | with_reducible apply logEvent_keeps
                | with_reducible apply count_keeps | dsimp only

theorem legReload_keeps (u0 : State) (u : Nat) (s : State)  (hk : Keeps u0 s) : Keeps u0 (legReload u s) := by
  unfold legReload
  repeat' first | with_reducible assumption | with_reducible exact id | (intro _) | extract_lets | with_reducible apply legParity_keeps
                | with_reducible apply setLeg_keeps | with_reducible apply keeps_mk | exact fun _ => rfl | dsimp only

theorem lineSaid_keeps (u0 : State) (u : Nat) (l : Line) (what : Nat) (s : State)  (hk : Keeps u0 s) : Keeps u0 (lineSaid u l what s) := by
  unfold lineSaid
  repeat' first | with_reducible assumption | (intro _) | extract_lets | with_reducible apply raise_keeps | with_reducible apply logEvent_keeps
                | dsimp only

theorem lineError_keeps (u0 : State) (u : Nat) (l : Line) (s : State)  (hk : Keeps u0 s) : Keeps u0 (lineError u l s) := by
  unfold lineError
  repeat' first | with_reducible assumption | with_reducible exact id | (intro _) | with_reducible apply keeps_ite | extract_lets
                | with_reducible apply count_keeps | with_reducible apply setLeg_keeps | with_reducible apply lineSaid_keeps | split
                | with_reducible apply keeps_mk | exact fun _ => rfl | dsimp only

theorem legLines_keeps (u0 : State) (u : Nat) (a : LineRx) (b : LineRx) (s : State)  (hk : Keeps u0 s) : Keeps u0 (legLines u a b s).2 := by
  unfold legLines
  repeat' first | with_reducible assumption | with_reducible exact id | (intro _) | with_reducible apply keeps_ite | extract_lets
                | with_reducible apply lineError_keeps | with_reducible apply count_keeps | with_reducible apply setLeg_keeps | split
                | with_reducible apply keeps_mk | exact fun _ => rfl | dsimp only

theorem legSlave_keeps (u0 : State) (u : Nat) (kind : Nat) (data : List Byte) (s : State)  (hk : Keeps u0 s) : Keeps u0 (legSlave u kind data s) := by
  unfold legSlave
  repeat' first | with_reducible assumption | (intro _) | extract_lets | with_reducible apply emit_keeps | with_reducible apply count_keeps
                | dsimp only

theorem legMaster_keeps (u0 : State) (u : Nat) (fcode : Nat) (addr : Nat) (s : State)  (hk : Keeps u0 s) : Keeps u0 (legMaster u fcode addr s) := by
  unfold legMaster
  repeat' first | with_reducible assumption | (intro _) | extract_lets | with_reducible apply emit_keeps | with_reducible apply count_keeps
                | dsimp only

theorem sendMessage_keeps (u0 : State) (u : Nat) (s : State)  (hk : Keeps u0 s) : Keeps u0 (sendMessage u s) := by
  unfold sendMessage
  repeat' first | with_reducible assumption | with_reducible exact id | (intro _) | with_reducible apply keeps_ite | extract_lets
                | with_reducible apply legSlave_keeps | with_reducible apply setLeg_keeps | split | with_reducible apply keeps_mk
                | exact fun _ => rfl | dsimp only

theorem queueMessage_keeps (u0 : State) (u : Nat) (dst : Nat) (data : List Byte) (s : State)  (hk : Keeps u0 s) : Keeps u0 (queueMessage u dst data s) := by
  unfold queueMessage
  repeat' first | with_reducible assumption | with_reducible exact id | (intro _) | with_reducible apply keeps_ite | extract_lets
                | with_reducible apply setLeg_keeps | split | with_reducible apply keeps_mk | exact fun _ => rfl | dsimp only

theorem takeMaster_keeps (u0 : State) (u : Nat) (s : State)  (hk : Keeps u0 s) : Keeps u0 (takeMaster u s) := by
  unfold takeMaster
  repeat' first | with_reducible assumption | with_reducible exact id | (intro _) | extract_lets | with_reducible apply raise_keeps
                | with_reducible apply logEvent_keeps | with_reducible apply count_keeps | with_reducible apply setLeg_keeps
                | with_reducible apply keeps_mk | exact fun _ => rfl | dsimp only

theorem loseMaster_keeps (u0 : State) (u : Nat) (cause : Nat) (s : State)  (hk : Keeps u0 s) : Keeps u0 (loseMaster u cause s) := by
  unfold loseMaster
  repeat' first | with_reducible assumption | with_reducible exact id | (intro _) | extract_lets | with_reducible apply raise_keeps
                | with_reducible apply logEvent_keeps | with_reducible apply setLeg_keeps | with_reducible apply keeps_mk | exact fun _ => rfl
                | dsimp only

theorem wtbInhibit_keeps (u0 : State)  (s : State)  (hk : Keeps u0 s) : Keeps u0 (wtbInhibit s) := by
  unfold wtbInhibit
  repeat' first | with_reducible assumption | with_reducible exact id | (intro _) | with_reducible apply keeps_ite | extract_lets
                | with_reducible apply setLeg_keeps | with_reducible apply logEvent_keeps | with_reducible apply legSlave_keeps | split
                | with_reducible apply keeps_mk | exact fun _ => rfl | dsimp only

theorem wtbEnds_keeps (u0 : State)  (s : State)  (hk : Keeps u0 s) : Keeps u0 (wtbEnds s) := by
  unfold wtbEnds
  repeat' first | with_reducible assumption | with_reducible exact id | (intro _) | with_reducible apply keeps_ite | extract_lets
                | with_reducible apply emit_keeps | with_reducible apply setLeg_keeps | split | with_reducible apply keeps_mk | exact fun _ => rfl
                | dsimp only

theorem legSync_keeps (u0 : State)  (s : State)  (hk : Keeps u0 s) : Keeps u0 (legSync s) := by
  unfold legSync
  repeat' first | with_reducible assumption | (intro _) | with_reducible apply keeps_ite | extract_lets | with_reducible apply loseMaster_keeps
                | with_reducible apply wtbInhibit_keeps | with_reducible apply wtbEnds_keeps | with_reducible apply keeps_foldl | split | dsimp only

theorem legCapture_keeps (u0 : State) (u : Nat) (addr : Nat) (lineB : Bool) (data : List Byte) (s : State)  (hk : Keeps u0 s) : Keeps u0 (legCapture u addr lineB data s).2 := by
  unfold legCapture
  repeat' first | with_reducible assumption | with_reducible exact id | (intro _) | with_reducible apply keeps_ite | extract_lets
                | with_reducible apply setPort_keeps | split | with_reducible apply keeps_mk | exact fun _ => rfl | dsimp only

theorem legMessage_keeps (u0 : State) (u : Nat) (src : Nat) (data : List Byte) (s : State)  (hk : Keeps u0 s) : Keeps u0 (legMessage u src data s) := by
  unfold legMessage
  repeat' first | with_reducible assumption | with_reducible exact id | (intro _) | with_reducible apply keeps_ite | extract_lets
                | with_reducible apply count_keeps | with_reducible apply setLeg_keeps | with_reducible apply raise_keeps | split
                | with_reducible apply keeps_mk | exact fun _ => rfl | dsimp only

theorem legCommit_keeps (u0 : State) (u : Nat) (addr : Nat) (data : List Byte) (s : State)  (hk : Keeps u0 s) : Keeps u0 (legCommit u addr data s) := by
  unfold legCommit
  repeat' first | with_reducible assumption | with_reducible exact id | (intro _) | extract_lets | with_reducible apply setPort_keeps
                | with_reducible apply keeps_mk | exact fun _ => rfl | dsimp only

end Sys2Proof.Machine
end

