-- ==== Sys2Proof/Laws/KeepsEgress.lean ====
section
/-! SUPPORT. What every operation of Machine/Egress.lean keeps, said once for each: the queue, the outputs made so far, the free values used, the
invariant, protection (Keeps of Safety.lean). -/
set_option Elab.async false
set_option linter.all false
namespace Sys2Proof.Machine
theorem setMac_keeps (u0 : State) (p : Nat) (f : MacPort → MacPort) (s : State) (hk : Keeps u0 s) : Keeps u0 (setMac p f s) :=
  keeps_inv s _ hk rfl rfl rfl rfl (fun i => ⟨i.1, by simpa [setMac] using i.2, i.3, i.4, i.5, i.6, i.7, i.8, i.9, i.10, i.11, i.12, i.13, i.14, i.15⟩)

theorem setHPort_keeps (u0 : State) (p : Nat) (f : HPort → HPort) (s : State) (hk : Keeps u0 s) : Keeps u0 (setHPort p f s) :=
  keeps_inv s _ hk rfl rfl rfl rfl (fun i => ⟨i.1, i.2, i.3, i.4, i.5, i.6, i.7, by simpa [setHPort] using i.8, i.9, i.10, i.11, i.12, i.13, i.14, i.15⟩)

theorem setQueue_keeps (u0 : State) (p : Nat) (c : Nat) (q : List QFrame) (s : State)  (hk : Keeps u0 s) : Keeps u0 (setQueue p c q s) := by
  unfold setQueue
  repeat' first | with_reducible assumption | with_reducible exact id | (intro _) | extract_lets | with_reducible apply keeps_mk
                | exact fun _ => rfl | dsimp only

theorem enqueue_keeps (u0 : State) (p : Nat) (c : Nat) (q : QFrame) (s : State)  (hk : Keeps u0 s) : Keeps u0 (enqueue p c q s) := by
  unfold enqueue
  repeat' first | with_reducible assumption | (intro _) | with_reducible apply keeps_ite | extract_lets | with_reducible apply setQueue_keeps
                | with_reducible apply count_keeps | split | dsimp only

theorem bumpUid_keeps (u0 : State)  (s : State)  (hk : Keeps u0 s) : Keeps u0 (bumpUid s) := by
  unfold bumpUid
  repeat' first | with_reducible assumption | with_reducible exact id | (intro _) | extract_lets | with_reducible apply keeps_mk
                | exact fun _ => rfl | dsimp only

theorem sendFrame_keeps (u0 : State) (p : Nat) (c : Nat) (f : Frame) (o : TxOrigin) (s : State)  (hk : Keeps u0 s) : Keeps u0 (sendFrame p c f o s) := by
  unfold sendFrame
  repeat' first | with_reducible assumption | (intro _) | with_reducible apply keeps_ite | extract_lets | with_reducible apply bumpUid_keeps
                | with_reducible apply enqueue_keeps | split | dsimp only

theorem pushTxTs_keeps (u0 : State) (p : Nat) (e : TxTs) (s : State)  (hk : Keeps u0 s) : Keeps u0 (pushTxTs p e s) := by
  unfold pushTxTs
  repeat' first | with_reducible assumption | with_reducible exact Keeps.rfl | with_reducible exact id | (intro _) | with_reducible apply keeps_ite
                | with_reducible apply keeps_ite_app | with_reducible apply keeps_id | extract_lets | with_reducible apply raise_keeps
                | with_reducible apply logEvent_keeps | with_reducible apply count_keeps | with_reducible apply keeps_foldl
                | with_reducible apply keeps_foldl2 | split | with_reducible apply keeps_mk | exact id | exact fun _ => rfl
                | exact fun i => put_wf _ _ _ _ i | exact put_wf _ _ _ _ (by assumption) | (rw [setBox_len]; assumption)
                | (simp [HostIf.setBox]; done) | (simp_all; done) | assumption | dsimp only

theorem failTxTs_keeps (u0 : State) (p : Nat) (o : TxOrigin) (s : State)  (hk : Keeps u0 s) : Keeps u0 (failTxTs p o s) := by
  unfold failTxTs
  repeat' first | with_reducible assumption | with_reducible exact id | (intro _) | with_reducible apply keeps_ite | extract_lets
                | with_reducible apply pushTxTs_keeps | split | with_reducible apply keeps_mk | exact fun _ => rfl | dsimp only

theorem settleUids_keeps (u0 : State)  (s : State) (hk : Keeps u0 s) : Keeps u0 (settleUids s) :=
  keeps_inv s _ hk rfl rfl rfl rfl (fun i => ⟨i.1, i.2, i.3, by simpa [settleUids] using i.4, i.5, i.6, i.7, i.8, i.9, i.10, i.11, i.12, i.13, i.14, i.15⟩)

theorem setFrer_keeps (u0 : State) (n : Nat) (f : Frer → Frer) (s : State)  (hk : Keeps u0 s) : Keeps u0 (setFrer n f s) := by
  unfold setFrer
  repeat' first | with_reducible assumption | with_reducible exact id | (intro _) | extract_lets | with_reducible apply keeps_mk
                | exact fun _ => rfl | dsimp only

theorem frerClean_keeps (u0 : State) (n : Nat) (seq : Nat) (s : State)  (hk : Keeps u0 s) : Keeps u0 (frerClean n seq s) := by
  unfold frerClean
  repeat' first | with_reducible assumption | with_reducible exact id | (intro _) | with_reducible apply keeps_ite | extract_lets
                | with_reducible apply setFrer_keeps | split | with_reducible apply keeps_mk | exact fun _ => rfl | dsimp only

theorem frerRead_keeps (u0 : State) (n : Nat) (seq : Nat) (port : Nat) (s : State)  (hk : Keeps u0 s) : Keeps u0 (frerRead n seq port s) := by
  unfold frerRead
  repeat' first | with_reducible assumption | with_reducible exact id | (intro _) | with_reducible apply keeps_ite | extract_lets
                | with_reducible apply setFrer_keeps | with_reducible apply frerClean_keeps | split | with_reducible apply keeps_mk
                | exact fun _ => rfl | dsimp only

theorem unread_keeps (u0 : State) (p : Nat) (o : Option (Nat × Nat)) (s : State)  (hk : Keeps u0 s) : Keeps u0 (unread p o s) := by
  unfold unread
  repeat' first | with_reducible assumption | with_reducible exact id | (intro _) | with_reducible apply keeps_ite | extract_lets
                | with_reducible apply frerRead_keeps | split | with_reducible apply keeps_mk | exact fun _ => rfl | dsimp only

theorem dropQueued_keeps (u0 : State) (p : Nat) (q : QFrame) (s : State)  (hk : Keeps u0 s) : Keeps u0 (dropQueued p q s) := by
  unfold dropQueued
  repeat' first | with_reducible assumption | (intro _) | extract_lets | with_reducible apply unread_keeps | with_reducible apply failTxTs_keeps
                | with_reducible apply settleUids_keeps | dsimp only

theorem dropPort_keeps (u0 : State) (p : Nat) (stat : Nat) (s : State)  (hk : Keeps u0 s) : Keeps u0 (dropPort p stat s) := by
  unfold dropPort
  repeat' first | with_reducible assumption | (intro _) | extract_lets | with_reducible apply dropQueued_keeps | with_reducible apply count_keeps
                | with_reducible apply setQueue_keeps | with_reducible apply keeps_foldl | dsimp only

theorem sendBackbone_keeps (u0 : State) (c : Nat) (mk : Nat → Frame) (s : State)  (hk : Keeps u0 s) : Keeps u0 (sendBackbone c mk s) := by
  unfold sendBackbone
  repeat' first | with_reducible assumption | (intro _) | with_reducible apply keeps_ite | extract_lets | with_reducible apply sendFrame_keeps
                | with_reducible apply keeps_foldl | split | dsimp only

end Sys2Proof.Machine
end

