-- ==== Sys2Proof/Laws/KeepsTimeOps.lean ====
section
/-! SUPPORT. What every operation of Machine/TimeOps.lean keeps, said once for each: the queue, the outputs made so far, the free values used, the
invariant, protection (Keeps of Safety.lean). -/
set_option Elab.async false
set_option linter.all false
namespace Sys2Proof.Machine
theorem applied_txts (t : TimeUnit) (c : TimeChange) : (t.applied c).txts.length = t.txts.length := by
  unfold TimeUnit.applied TimeUnit.setDom
  dsimp only
  split <;> rfl

theorem setDomain_keeps (u0 : State) (i : Nat) (f : Domain → Domain) (s : State) (hk : Keeps u0 s) : Keeps u0 (setDomain i f s) :=
  keeps_inv s _ hk rfl rfl rfl rfl (fun i => ⟨i.1, i.2, i.3, i.4, i.5, i.6, i.7, i.8, i.9, i.10, i.11, i.12, (by unfold setDomain TimeUnit.setDom; dsimp only; split <;> exact i.13), i.14, i.15⟩)

theorem lengthen_keeps (u0 : State) (step : Int) (s : State)  (hk : Keeps u0 s) : Keeps u0 (lengthen step s) := by
  unfold lengthen
  repeat' first | with_reducible assumption | with_reducible exact id | (intro _) | with_reducible apply keeps_ite | extract_lets | split
                | with_reducible apply keeps_mk | exact fun _ => rfl | dsimp only

theorem applyChange_keeps (u0 : State) (c : TimeChange) (s : State)  (hk : Keeps u0 s) : Keeps u0 (applyChange c s) := by
  unfold applyChange
  repeat' first | with_reducible assumption | with_reducible exact Keeps.rfl | with_reducible exact id | (intro _) | with_reducible apply keeps_ite
                | with_reducible apply keeps_ite_app | with_reducible apply keeps_id | extract_lets | with_reducible apply lengthen_keeps
                | with_reducible apply keeps_foldl | with_reducible apply keeps_foldl2 | split | with_reducible apply keeps_mk | exact id
                | exact fun _ => rfl | exact fun i => put_wf _ _ _ _ i | exact put_wf _ _ _ _ (by assumption) | (rw [setBox_len]; assumption)
                | (simp [HostIf.setBox]; done) | (simp_all; done) | exact (applied_txts _ _).trans (by assumption) | assumption | dsimp only

theorem changeTime_keeps (u0 : State) (i : Nat) (g : TimeChange → TimeChange) (s : State)  (hk : Keeps u0 s) : Keeps u0 (changeTime i g s) := by
  unfold changeTime
  repeat' first | with_reducible assumption | with_reducible exact id | (intro _) | with_reducible apply keeps_ite | extract_lets
                | with_reducible apply applyChange_keeps | with_reducible apply tugAll_keeps | split | with_reducible apply keeps_mk
                | exact fun _ => rfl | dsimp only

theorem servo_keeps (u0 : State) (i : Nat) (s : State)  (hk : Keeps u0 s) : Keeps u0 (servo i s) := by
  unfold servo
  repeat' first | with_reducible assumption | with_reducible exact id | (intro _) | extract_lets | with_reducible apply useFree_keeps
                | with_reducible apply changeTime_keeps | with_reducible apply keeps_mk | exact fun _ => rfl | dsimp only

theorem setDomSt_keeps (u0 : State) (i : Nat) (n : DomState) (s : State)  (hk : Keeps u0 s) : Keeps u0 (setDomSt i n s) := by
  unfold setDomSt
  repeat' first | with_reducible assumption | with_reducible exact id | (intro _) | with_reducible apply keeps_ite | extract_lets | apply h_n
                | with_reducible apply setDomain_keeps | with_reducible apply raise_keeps | split | with_reducible apply keeps_mk
                | exact fun _ => rfl | dsimp only

theorem switchSaid_keeps (u0 : State) (i : Nat) (cause : Nat) (res : Int) (s : State)  (hk : Keeps u0 s) : Keeps u0 (switchSaid i cause res s) := by
  unfold switchSaid
  repeat' first | with_reducible assumption | (intro _) | extract_lets | with_reducible apply raise_keeps | with_reducible apply logEvent_keeps
                | dsimp only

theorem selectSlewed_keeps (u0 : State) (i : Nat) (cause : Nat) (s : State)  (hk : Keeps u0 s) : Keeps u0 (selectSlewed i cause s) := by
  unfold selectSlewed
  repeat' first | with_reducible assumption | with_reducible exact id | (intro _) | extract_lets | with_reducible apply switchSaid_keeps
                | with_reducible apply changeTime_keeps | with_reducible apply keeps_mk | exact fun _ => rfl | dsimp only

theorem trySwitch_keeps (u0 : State) (cause : Nat) (s : State)  (hk : Keeps u0 s) : Keeps u0 (trySwitch cause s) := by
  unfold trySwitch
  repeat' first | with_reducible assumption | with_reducible exact id | (intro _) | with_reducible apply keeps_ite | extract_lets
                | with_reducible apply raise_keeps | with_reducible apply logEvent_keeps | with_reducible apply setDomain_keeps
                | with_reducible apply selectSlewed_keeps | split | with_reducible apply keeps_mk | exact fun _ => rfl | dsimp only

theorem stepDomain_keeps (u0 : State) (i : Nat) (step : Int) (log : Bool) (s : State)  (hk : Keeps u0 s) : Keeps u0 (stepDomain i step log s) := by
  unfold stepDomain
  repeat' first | with_reducible assumption | with_reducible exact id | (intro _) | with_reducible apply keeps_ite | extract_lets
                | with_reducible apply changeTime_keeps | with_reducible apply setDomain_keeps | with_reducible apply count_keeps
                | with_reducible apply logEvent_keeps | with_reducible apply raise_keeps | split | with_reducible apply keeps_mk
                | exact fun _ => rfl | dsimp only

theorem acceptStep_keeps (u0 : State) (i : Nat) (step : Int) (s : State)  (hk : Keeps u0 s) : Keeps u0 (acceptStep i step s) := by
  unfold acceptStep
  repeat' first | with_reducible assumption | with_reducible exact id | (intro _) | with_reducible apply keeps_ite | extract_lets
                | with_reducible apply setDomSt_keeps | with_reducible apply logEvent_keeps | with_reducible apply stepDomain_keeps | split
                | with_reducible apply keeps_mk | exact fun _ => rfl | dsimp only

theorem applyDueStep_keeps (u0 : State)  (s : State)  (hk : Keeps u0 s) : Keeps u0 (applyDueStep s) := by
  unfold applyDueStep
  repeat' first | with_reducible assumption | with_reducible exact id | (intro _) | with_reducible apply keeps_ite | extract_lets
                | with_reducible apply acceptStep_keeps | split | with_reducible apply keeps_mk | exact fun _ => rfl | dsimp only

theorem gmChange_keeps (u0 : State) (i : Nat) (gm : Nid) (s : State)  (hk : Keeps u0 s) : Keeps u0 (gmChange i gm s) := by
  unfold gmChange
  repeat' first | with_reducible assumption | with_reducible exact id | (intro _) | with_reducible apply keeps_ite | extract_lets
                | with_reducible apply setDomain_keeps | with_reducible apply raise_keeps | with_reducible apply logEvent_keeps | split
                | with_reducible apply keeps_mk | exact fun _ => rfl | dsimp only

theorem startDomains_keeps (u0 : State)  (s0 : State)  (hk : Keeps u0 s0) : Keeps u0 (startDomains s0) := by
  unfold startDomains
  repeat' first | with_reducible assumption | with_reducible exact id | (intro _) | with_reducible apply keeps_ite | extract_lets
                | with_reducible apply useFree_keeps | split | with_reducible apply keeps_mk | exact fun _ => rfl | dsimp only

theorem stopGptp_keeps (u0 : State)  (s : State)  (hk : Keeps u0 s) : Keeps u0 (stopGptp s) := by
  unfold stopGptp
  repeat' first | with_reducible assumption | with_reducible exact id | (intro _) | with_reducible apply keeps_ite | extract_lets
                | with_reducible apply setDomSt_keeps | with_reducible apply setDomain_keeps | with_reducible apply count_keeps
                | with_reducible apply keeps_foldl | split | with_reducible apply keeps_mk | exact fun _ => rfl | dsimp only

theorem setTLink_keeps (u0 : State) (p : Nat) (f : TLink → TLink) (s : State)  (hk : Keeps u0 s) : Keeps u0 (setTLink p f s) := by
  unfold setTLink
  repeat' first | with_reducible assumption | with_reducible exact id | (intro _) | extract_lets | with_reducible apply keeps_mk
                | exact fun _ => rfl | dsimp only

theorem restartLinks_keeps (u0 : State)  (s : State)  (hk : Keeps u0 s) : Keeps u0 (restartLinks s) := by
  unfold restartLinks
  repeat' first | with_reducible assumption | with_reducible exact id | (intro _) | extract_lets | with_reducible apply keeps_mk
                | exact fun _ => rfl | dsimp only

theorem calibrate_keeps (u0 : State) (d : Nat) (s : State)  (hk : Keeps u0 s) : Keeps u0 (calibrate d s) := by
  unfold calibrate
  repeat' first | with_reducible assumption | with_reducible exact id | (intro _) | with_reducible apply keeps_ite | extract_lets
                | with_reducible apply setTLink_keeps | with_reducible apply raise_keeps | with_reducible apply logEvent_keeps | split
                | with_reducible apply keeps_mk | exact fun _ => rfl | dsimp only

theorem linkExchange_keeps (u0 : State) (p : Nat) (nb : Nid) (t1 : Nat) (t2 : Nat) (t3 : Nat) (t4 : Nat) (s : State)  (hk : Keeps u0 s) : Keeps u0 (linkExchange p nb t1 t2 t3 t4 s) := by
  unfold linkExchange
  repeat' first | with_reducible assumption | with_reducible exact id | (intro _) | with_reducible apply keeps_ite | extract_lets
                | with_reducible apply calibrate_keeps | with_reducible apply setTLink_keeps | split | with_reducible apply keeps_mk
                | exact fun _ => rfl | dsimp only

theorem uncalibrated_keeps (u0 : State)  (s : State)  (hk : Keeps u0 s) : Keeps u0 (uncalibrated s) := by
  unfold uncalibrated
  repeat' first | with_reducible assumption | with_reducible exact id | (intro _) | with_reducible apply keeps_ite | extract_lets
                | with_reducible apply logEvent_keeps | with_reducible apply setTLink_keeps | with_reducible apply keeps_foldl | split
                | with_reducible apply keeps_mk | exact fun _ => rfl | dsimp only

theorem moveCorrections_keeps (u0 : State)  (s : State)  (hk : Keeps u0 s) : Keeps u0 (moveCorrections s) := by
  unfold moveCorrections
  repeat' first | with_reducible assumption | with_reducible exact id | (intro _) | with_reducible apply keeps_ite | extract_lets | split
                | with_reducible apply keeps_mk | exact fun _ => rfl | dsimp only

end Sys2Proof.Machine
end

