-- ==== Sys2Proof/Laws/KeepsHitchOps.lean ====
section
/-! SUPPORT. What every operation of Machine/HitchOps.lean keeps, said once for each: the queue, the outputs made so far, the free values used, the
invariant, protection (Keeps of Safety.lean). -/
set_option Elab.async false
set_option linter.all false
namespace Sys2Proof.Machine
theorem setVec_keeps (u0 : State) (d : Nat) (v : HVec) (s : State)  (hk : Keeps u0 s) : Keeps u0 (setVec d v s) := by
  unfold setVec
  repeat' first | with_reducible assumption | with_reducible exact id | (intro _) | with_reducible apply keeps_ite | extract_lets | split
                | with_reducible apply keeps_mk | exact fun _ => rfl | dsimp only

theorem sendHitch_keeps (u0 : State) (typ : Nat) (p : Nat) (s : State)  (hk : Keeps u0 s) : Keeps u0 (sendHitch typ p s) := by
  unfold sendHitch
  repeat' first | with_reducible assumption | with_reducible exact id | (intro _) | with_reducible apply keeps_ite | extract_lets
                | with_reducible apply sendFrame_keeps | with_reducible apply setHPort_keeps | split | with_reducible apply keeps_mk
                | exact fun _ => rfl | dsimp only

theorem sendChanges_keeps (u0 : State)  (s : State)  (hk : Keeps u0 s) : Keeps u0 (sendChanges s) := by
  unfold sendChanges
  repeat' first | with_reducible assumption | (intro _) | with_reducible apply keeps_ite | extract_lets | with_reducible apply sendHitch_keeps
                | with_reducible apply keeps_foldl | split | dsimp only

theorem settleLines_keeps (u0 : State)  (s : State)  (hk : Keeps u0 s) : Keeps u0 (settleLines s) := by
  unfold settleLines
  repeat' first | with_reducible assumption | (intro _) | with_reducible apply keeps_ite | extract_lets | with_reducible apply setResource_keeps
                | with_reducible apply drivePin_keeps | with_reducible apply keeps_foldl | split | dsimp only

theorem setFault_keeps (u0 : State) (p : Nat) (on : Bool) (nid : Nid) (s : State)  (hk : Keeps u0 s) : Keeps u0 (setFault p on nid s) := by
  unfold setFault
  repeat' first | with_reducible assumption | with_reducible exact id | (intro _) | with_reducible apply keeps_ite | extract_lets
                | with_reducible apply settleLines_keeps | with_reducible apply raise_keeps | with_reducible apply logEvent_keeps
                | with_reducible apply setHPort_keeps | split | with_reducible apply keeps_mk | exact fun _ => rfl | dsimp only

theorem logCouples_keeps (u0 : State)  (s : State)  (hk : Keeps u0 s) : Keeps u0 (logCouples s) := by
  unfold logCouples
  repeat' first | with_reducible assumption | with_reducible exact id | (intro _) | with_reducible apply keeps_ite | extract_lets
                | with_reducible apply logEvent_keeps | split | with_reducible apply keeps_mk | exact fun _ => rfl | dsimp only

theorem startRound_keeps (u0 : State) (cause : Nat) (p : Nat) (nid : Nid) (s : State)  (hk : Keeps u0 s) : Keeps u0 (startRound cause p nid s) := by
  unfold startRound
  repeat' first | with_reducible assumption | with_reducible exact id | (intro _) | with_reducible apply keeps_ite | extract_lets
                | with_reducible apply logCouples_keeps | with_reducible apply raise_keeps | with_reducible apply logEvent_keeps
                | with_reducible apply restartLinks_keeps | split | with_reducible apply keeps_mk | exact fun _ => rfl | dsimp only

theorem markAbsent_keeps (u0 : State) (d : Nat) (s : State)  (hk : Keeps u0 s) : Keeps u0 (markAbsent d s) := by
  unfold markAbsent
  repeat' first | with_reducible assumption | with_reducible exact id | (intro _) | with_reducible apply keeps_ite | extract_lets | split
                | with_reducible apply keeps_mk | exact fun _ => rfl | dsimp only

theorem evalInhibit_keeps (u0 : State)  (s : State)  (hk : Keeps u0 s) : Keeps u0 (evalInhibit s) := by
  unfold evalInhibit
  repeat' first | with_reducible assumption | with_reducible exact id | (intro _) | with_reducible apply keeps_ite | extract_lets
                | with_reducible apply wtbInhibit_keeps | with_reducible apply raise_keeps | with_reducible apply logEvent_keeps
                | with_reducible apply startRound_keeps | split | with_reducible apply keeps_mk | exact fun _ => rfl | dsimp only

theorem uncouple_keeps (u0 : State) (cause : Nat) (d : Nat) (p : Nat) (nid : Nid) (s : State)  (hk : Keeps u0 s) : Keeps u0 (uncouple cause d p nid s) := by
  unfold uncouple
  repeat' first | with_reducible assumption | with_reducible exact id | (intro _) | with_reducible apply keeps_ite | extract_lets
                | with_reducible apply raise_keeps | with_reducible apply logEvent_keeps | with_reducible apply markAbsent_keeps
                | with_reducible apply startRound_keeps | split | with_reducible apply keeps_mk | exact fun _ => rfl | dsimp only

theorem setSettle_keeps (u0 : State) (d : Nat) (on : Bool) (c : Option Nat) (s : State)  (hk : Keeps u0 s) : Keeps u0 (setSettle d on c s) := by
  unfold setSettle
  repeat' first | with_reducible assumption | with_reducible exact id | (intro _) | with_reducible apply keeps_ite | extract_lets | split
                | with_reducible apply keeps_mk | exact fun _ => rfl | dsimp only

theorem loseNeighbour_keeps (u0 : State) (p : Nat) (s : State)  (hk : Keeps u0 s) : Keeps u0 (loseNeighbour p s) := by
  unfold loseNeighbour
  repeat' first | with_reducible assumption | with_reducible exact id | (intro _) | with_reducible apply keeps_ite | extract_lets
                | with_reducible apply setHPort_keeps | with_reducible apply setFault_keeps | with_reducible apply settleLines_keeps
                | with_reducible apply setSettle_keeps | with_reducible apply setVec_keeps | with_reducible apply raise_keeps
                | with_reducible apply logEvent_keeps | with_reducible apply uncouple_keeps | split | with_reducible apply keeps_mk
                | exact fun _ => rfl | dsimp only

theorem rejoin_keeps (u0 : State) (d : Nat) (s : State)  (hk : Keeps u0 s) : Keeps u0 (rejoin d s) := by
  unfold rejoin
  repeat' first | with_reducible assumption | (intro _) | extract_lets | with_reducible apply markAbsent_keeps | dsimp only

theorem gainNeighbour_keeps (u0 : State) (p : Nat) (r : HRec) (s : State)  (hk : Keeps u0 s) : Keeps u0 (gainNeighbour p r s) := by
  unfold gainNeighbour
  repeat' first | with_reducible assumption | with_reducible exact id | (intro _) | with_reducible apply keeps_ite | extract_lets
                | with_reducible apply setHPort_keeps | with_reducible apply setSettle_keeps | with_reducible apply setFault_keeps
                | with_reducible apply rejoin_keeps | with_reducible apply raise_keeps | with_reducible apply logEvent_keeps
                | with_reducible apply startRound_keeps | with_reducible apply logCouples_keeps | split | with_reducible apply keeps_mk
                | exact fun _ => rfl | dsimp only

theorem tryCommit_keeps (u0 : State)  (s : State)  (hk : Keeps u0 s) : Keeps u0 (tryCommit s) := by
  unfold tryCommit
  repeat' first | with_reducible assumption | with_reducible exact id | (intro _) | with_reducible apply keeps_ite | extract_lets | split
                | with_reducible apply keeps_mk | exact fun _ => rfl | dsimp only

theorem modeSaid_keeps (u0 : State) (mode : Nat) (p : Nat) (s : State)  (hk : Keeps u0 s) : Keeps u0 (modeSaid mode p s) := by
  unfold modeSaid
  repeat' first | with_reducible assumption | (intro _) | extract_lets | with_reducible apply raise_keeps | with_reducible apply logEvent_keeps
                | dsimp only

theorem enterTtdp_keeps (u0 : State) (p : Nat) (s : State)  (hk : Keeps u0 s) : Keeps u0 (enterTtdp p s) := by
  unfold enterTtdp
  repeat' first | with_reducible assumption | with_reducible exact id | (intro _) | with_reducible apply keeps_ite | extract_lets
                | with_reducible apply modeSaid_keeps | split | with_reducible apply keeps_mk | exact fun _ => rfl | dsimp only

theorem review_keeps (u0 : State) (d : Nat) (p : Nat) (nid : Nid) (s : State)  (hk : Keeps u0 s) : Keeps u0 (review d p nid s) := by
  unfold review
  repeat' first | with_reducible assumption | with_reducible exact id | (intro _) | with_reducible apply keeps_ite | extract_lets
                | with_reducible apply tryCommit_keeps | with_reducible apply startRound_keeps | with_reducible apply modeSaid_keeps
                | with_reducible apply markAbsent_keeps | with_reducible apply enterTtdp_keeps | with_reducible apply evalInhibit_keeps | split
                | with_reducible apply keeps_mk | exact fun _ => rfl | dsimp only

theorem finishHitchWaits_keeps (u0 : State) (p : HWait → Bool) (st : Nat) (pay : List Byte) (s : State)  (hk : Keeps u0 s) : Keeps u0 (finishHitchWaits p st pay s) := by
  unfold finishHitchWaits
  repeat' first | with_reducible assumption | with_reducible exact id | (intro _) | extract_lets | with_reducible apply finish_keeps
                | with_reducible apply keeps_foldl | with_reducible apply keeps_mk | exact fun _ => rfl | dsimp only

theorem refuse_keeps (u0 : State) (cause : Nat) (n : Nat) (s : State)  (hk : Keeps u0 s) : Keeps u0 (refuse cause n s) := by
  unfold refuse
  repeat' first | with_reducible assumption | with_reducible exact id | (intro _) | extract_lets | with_reducible apply finishHitchWaits_keeps
                | with_reducible apply raise_keeps | with_reducible apply logEvent_keeps | with_reducible apply keeps_mk | exact fun _ => rfl
                | dsimp only

theorem announceBypass_keeps (u0 : State)  (s : State)  (hk : Keeps u0 s) : Keeps u0 (announceBypass s) := by
  unfold announceBypass
  repeat' first | with_reducible assumption | with_reducible exact id | (intro _) | with_reducible apply keeps_ite | extract_lets
                | with_reducible apply sendChanges_keeps | with_reducible apply logEvent_keeps | split | with_reducible apply keeps_mk
                | exact fun _ => rfl | dsimp only

theorem hitchStop_keeps (u0 : State)  (s : State)  (hk : Keeps u0 s) : Keeps u0 (hitchStop s) := by
  unfold hitchStop
  repeat' first | with_reducible assumption | with_reducible exact Keeps.rfl | with_reducible exact id | (intro _) | with_reducible apply keeps_ite
                | with_reducible apply keeps_ite_app | with_reducible apply keeps_id | extract_lets | with_reducible apply finishHitchWaits_keeps
                | with_reducible apply keeps_foldl | with_reducible apply keeps_foldl2 | split | with_reducible apply keeps_mk | exact id
                | exact fun _ => rfl | exact fun i => put_wf _ _ _ _ i | exact put_wf _ _ _ _ (by assumption) | (rw [setBox_len]; assumption)
                | (simp [HostIf.setBox]; done) | (simp_all; done) | assumption | dsimp only

theorem hitchStart_keeps (u0 : State)  (s : State)  (hk : Keeps u0 s) : Keeps u0 (hitchStart s) := by
  unfold hitchStart
  repeat' first | with_reducible assumption | with_reducible exact id | (intro _) | with_reducible apply keeps_ite | extract_lets
                | with_reducible apply setMac_keeps | with_reducible apply keeps_foldl | split | with_reducible apply keeps_mk | exact fun _ => rfl
                | dsimp only

theorem streamInhibit_keeps (u0 : State)  (s : State)  (hk : Keeps u0 s) : Keeps u0 (streamInhibit s) := by
  unfold streamInhibit
  repeat' first | with_reducible assumption | with_reducible exact id | (intro _) | with_reducible apply keeps_ite | extract_lets
                | with_reducible apply sendChanges_keeps | with_reducible apply evalInhibit_keeps | split | with_reducible apply keeps_mk
                | exact fun _ => rfl | dsimp only

end Sys2Proof.Machine
end

