-- ==== Sys2Proof/Laws/KeepsForward.lean ====
section
/-! SUPPORT. What every operation of Machine/Forward.lean keeps, said once for each: the queue, the outputs made so far, the free values used, the
invariant, protection (Keeps of Safety.lean). -/
set_option Elab.async false
set_option linter.all false
namespace Sys2Proof.Machine
theorem sendPeer_keeps (u0 : State) (l : Line) (d : Nat) (handle : Nat) (f : Frame) (s : State)  (hk : Keeps u0 s) : Keeps u0 (sendPeer l d handle f s) := by
  unfold sendPeer
  repeat' first | with_reducible assumption | with_reducible exact id | (intro _) | with_reducible apply keeps_ite | extract_lets
                | with_reducible apply sendSegments_keeps | split | with_reducible apply keeps_mk | exact fun _ => rfl | dsimp only

end Sys2Proof.Machine
end

