-- ==== Sys2Proof/Laws/KeepsRxRing.lean ====
section
/-! SUPPORT. What every operation of Machine/RxRing.lean keeps, said once for each: the queue, the outputs made so far, the free values used, the
invariant, protection (Keeps of Safety.lean). -/
set_option Elab.async false
set_option linter.all false
namespace Sys2Proof.Machine
theorem setRx_keeps (u0 : State) (r : Nat) (f : Ring → Ring) (s : State) (hk : Keeps u0 s) : Keeps u0 (setRx r f s) :=
  keeps_inv s _ hk rfl rfl rfl rfl (fun i => ⟨i.1, i.2, by simpa [setRx] using i.3, i.4, i.5, i.6, i.7, i.8, i.9, i.10, i.11, i.12, i.13, i.14, i.15⟩)

theorem setTx_keeps (u0 : State) (r : Nat) (f : Ring → Ring) (s : State) (hk : Keeps u0 s) : Keeps u0 (setTx r f s) :=
  keeps_inv s _ hk rfl rfl rfl rfl (fun i => ⟨i.1, i.2, i.3, by simpa [setTx] using i.4, i.5, i.6, i.7, i.8, i.9, i.10, i.11, i.12, i.13, i.14, i.15⟩)

theorem rxHoldDrop_keeps (u0 : State) (n : Nat) (len : Nat) (s : State)  (hk : Keeps u0 s) : Keeps u0 (rxHoldDrop n len s) := by
  unfold rxHoldDrop
  repeat' first | with_reducible assumption | with_reducible exact id | (intro _) | extract_lets | with_reducible apply logEvent_keeps
                | with_reducible apply setRx_keeps | with_reducible apply count_keeps | with_reducible apply keeps_mk | exact fun _ => rfl
                | dsimp only

theorem rxOffer_keeps (u0 : State) (n : Nat) (w : RxWait) (s : State)  (hk : Keeps u0 s) : Keeps u0 (rxOffer n w s).2 := by
  unfold rxOffer
  repeat' first | with_reducible assumption | with_reducible exact id | (intro _) | with_reducible apply keeps_ite | extract_lets
                | with_reducible apply count_keeps | with_reducible apply rxHoldDrop_keeps | with_reducible apply setRx_keeps | split
                | with_reducible apply keeps_mk | exact fun _ => rfl | dsimp only

theorem toInternal_keeps (u0 : State) (w : RxWait) (s : State)  (hk : Keeps u0 s) : Keeps u0 (toInternal w s).2 := by
  unfold toInternal
  repeat' first | with_reducible assumption | with_reducible exact id | (intro _) | with_reducible apply keeps_ite | extract_lets
                | with_reducible apply rxOffer_keeps | with_reducible apply count_keeps | split | with_reducible apply keeps_mk | exact fun _ => rfl
                | dsimp only

end Sys2Proof.Machine
end

