-- ==== Sys2Proof/Laws/KeepsFrer.lean ====
section
/-! SUPPORT. What every operation of Machine/Frer.lean keeps, said once for each: the queue, the outputs made so far, the free values used, the
invariant, protection (Keeps of Safety.lean). -/
set_option Elab.async false
set_option linter.all false
namespace Sys2Proof.Machine
theorem logParity_keeps (u0 : State) (port : Nat) (cell : Nat) (handle : Option Nat) (lost : Bool) (s : State)  (hk : Keeps u0 s) : Keeps u0 (logParity port cell handle lost s) := by
  unfold logParity
  repeat' first | with_reducible assumption | (intro _) | with_reducible apply keeps_ite | extract_lets | with_reducible apply logEvent_keeps
                | split | dsimp only

theorem lostArmed_keeps (u0 : State) (n : Nat) (gone : List Armed) (s : State)  (hk : Keeps u0 s) : Keeps u0 (lostArmed n gone s) := by
  unfold lostArmed
  repeat' first | with_reducible assumption | (intro _) | extract_lets | with_reducible apply logParity_keeps | with_reducible apply keeps_foldl
                | dsimp only

theorem toLocal_keeps (u0 : State) (x : Fwd) (keepR : Bool) (tag : Option (Nat × Nat)) (p : Nat) (s : State)  (hk : Keeps u0 s) : Keeps u0 (toLocal x keepR tag p s).2 := by
  unfold toLocal
  repeat' first | with_reducible assumption | with_reducible exact id | (intro _) | with_reducible apply keeps_ite | extract_lets
                | with_reducible apply toInternal_keeps | with_reducible apply enqueue_keeps | split | with_reducible apply keeps_mk
                | exact fun _ => rfl | dsimp only

theorem toLocals_keeps (u0 : State) (x : Fwd) (keepR : Bool) (tag : Option (Nat × Nat)) (ps : List Nat) (s : State)  (hk : Keeps u0 s) : Keeps u0 (toLocals x keepR tag ps s).2 := by
  unfold toLocals
  repeat' first | with_reducible assumption | (intro _) | with_reducible apply keeps_ite | extract_lets | with_reducible apply toLocal_keeps
                | with_reducible apply bumpUid_keeps | with_reducible apply keeps_foldl | with_reducible apply keeps_foldl2 | split | dsimp only

theorem frerPassOpen_keeps (u0 : State) (n : Nat) (x : Fwd) (held : List HeldCopy) (s : State)  (hk : Keeps u0 s) : Keeps u0 (frerPassOpen n x held s) := by
  unfold frerPassOpen
  repeat' first | with_reducible assumption | with_reducible exact id | (intro _) | with_reducible apply keeps_ite | extract_lets
                | with_reducible apply toLocals_keeps | with_reducible apply setFrer_keeps | split | with_reducible apply keeps_mk
                | exact fun _ => rfl | dsimp only

theorem frerSettle_keeps (u0 : State) (n : Nat) (seq : Nat) (s : State)  (hk : Keeps u0 s) : Keeps u0 (frerSettle n seq s) := by
  unfold frerSettle
  repeat' first | with_reducible assumption | (intro _) | with_reducible apply keeps_ite | extract_lets | with_reducible apply frerClean_keeps
                | split | dsimp only

theorem frerPass_keeps (u0 : State) (n : Nat) (x : Fwd) (held : List HeldCopy) (s : State)  (hk : Keeps u0 s) : Keeps u0 (frerPass n x held s) := by
  unfold frerPass
  repeat' first | with_reducible assumption | (intro _) | extract_lets | with_reducible apply frerSettle_keeps
                | with_reducible apply frerPassOpen_keeps | dsimp only

theorem frerHold_keeps (u0 : State) (n : Nat) (x : Fwd) (s : State)  (hk : Keeps u0 s) : Keeps u0 (frerHold n x s) := by
  unfold frerHold
  repeat' first | with_reducible assumption | with_reducible exact id | (intro _) | with_reducible apply keeps_ite | extract_lets
                | with_reducible apply setFrer_keeps | split | with_reducible apply keeps_mk | exact fun _ => rfl | dsimp only

theorem dropCopies_keeps (u0 : State) (n seq : Nat) (s : State) (hk : Keeps u0 s) : Keeps u0 (dropCopies n seq s) :=
  keeps_inv s _ hk rfl rfl rfl rfl (fun i => ⟨i.1, i.2, by simpa [dropCopies] using i.3, i.4, i.5, i.6, i.7, i.8, i.9, i.10, i.11, i.12, i.13, i.14, i.15⟩)

theorem frerParity_keeps (u0 : State) (n : Nat) (seq : Nat) (port : Nat) (cell : Nat) (s : State)  (hk : Keeps u0 s) : Keeps u0 (frerParity n seq port cell s) := by
  unfold frerParity
  repeat' first | with_reducible assumption | with_reducible exact id | (intro _) | with_reducible apply keeps_ite | extract_lets
                | with_reducible apply setFrer_keeps | with_reducible apply dropCopies_keeps | with_reducible apply frerPass_keeps
                | with_reducible apply logParity_keeps | with_reducible apply toLocals_keeps | split | with_reducible apply keeps_mk
                | exact fun _ => rfl | dsimp only

theorem unitParity_keeps (u0 : State) (x : Fwd) (err : Option Nat) (s : State)  (hk : Keeps u0 s) : Keeps u0 (unitParity x err s) := by
  unfold unitParity
  repeat' first | with_reducible assumption | with_reducible exact id | (intro _) | with_reducible apply keeps_ite | extract_lets
                | with_reducible apply logParity_keeps | with_reducible apply count_keeps | with_reducible apply raise_keeps | split
                | with_reducible apply keeps_mk | exact fun _ => rfl | dsimp only

theorem frerOffer_keeps (u0 : State) (n : Nat) (x : Fwd) (err : Option Nat) (s : State)  (hk : Keeps u0 s) : Keeps u0 (frerOffer n x err s) := by
  unfold frerOffer
  try dsimp only
  repeat' first | with_reducible assumption | with_reducible exact Keeps.rfl | with_reducible exact id | (intro _) | with_reducible apply keeps_ite
                | with_reducible apply keeps_ite_app | with_reducible apply keeps_id | with_reducible apply setFrer_keeps
                | with_reducible apply toLocals_keeps | with_reducible apply unitParity_keeps | with_reducible apply lostArmed_keeps
                | with_reducible apply frerHold_keeps | with_reducible apply logParity_keeps | with_reducible apply frerPassOpen_keeps
                | with_reducible apply frerParity_keeps | with_reducible apply count_keeps | with_reducible apply raise_keeps
                | with_reducible apply frerSettle_keeps | with_reducible apply keeps_foldl | with_reducible apply keeps_foldl2 | split
                | simp only [keeps_mk_iff] | exact id | exact fun _ => rfl | exact fun i => put_wf _ _ _ _ i | exact put_wf _ _ _ _ (by assumption)
                | (rw [setBox_len]; assumption) | (simp [HostIf.setBox]; done) | dsimp only

theorem execFrerHoldExpiry_keeps (ctx : Nat) (seq : Nat) (s s9 : State) (hk : execFrerHoldExpiry ctx seq s = .next s9) : Keeps s s9 := by
  unfold execFrerHoldExpiry at hk
  cases hk
  repeat' first | with_reducible assumption | with_reducible exact Keeps.rfl | with_reducible exact id | (intro _) | with_reducible apply keeps_ite
                | extract_lets | with_reducible apply setFrer_keeps | split | with_reducible apply keeps_mk | exact fun _ => rfl | dsimp only

theorem execFrerResetTimerExpiry_keeps (ctx : Nat) (s s9 : State) (hk : execFrerResetTimerExpiry ctx s = .next s9) : Keeps s s9 := by
  unfold execFrerResetTimerExpiry at hk
  cases hk
  repeat' first | with_reducible assumption | with_reducible exact Keeps.rfl | with_reducible exact id | (intro _) | with_reducible apply keeps_ite
                | extract_lets | with_reducible apply lostArmed_keeps | with_reducible apply setFrer_keeps | split | with_reducible apply keeps_mk
                | exact fun _ => rfl | dsimp only

theorem latentLine_keeps (u0 : State) (ctx : Nat) (l : Line) (was : Bool) (now_ : Bool) (s : State)  (hk : Keeps u0 s) : Keeps u0 (latentLine ctx l was now_ s) := by
  unfold latentLine
  repeat' first | with_reducible assumption | (intro _) | with_reducible apply keeps_ite | extract_lets | with_reducible apply raise_keeps
                | with_reducible apply logEvent_keeps | split | dsimp only

theorem execFrerLatentPeriodEnd_keeps (ctx : Nat) (s s9 : State) (hk : execFrerLatentPeriodEnd ctx s = .next s9) : Keeps s s9 := by
  unfold execFrerLatentPeriodEnd at hk
  cases hk
  repeat' first | with_reducible assumption | with_reducible exact Keeps.rfl | with_reducible exact id | (intro _) | with_reducible apply keeps_ite
                | extract_lets | with_reducible apply latentLine_keeps | with_reducible apply setFrer_keeps | split | with_reducible apply keeps_mk
                | exact fun _ => rfl | dsimp only

end Sys2Proof.Machine
end

