-- ==== Sys2Proof/Laws/KeepsSwitchOps.lean ====
section
/-! SUPPORT. What every operation of Machine/SwitchOps.lean keeps, said once for each: the queue, the outputs made so far, the free values used, the
invariant, protection (Keeps of Safety.lean). -/
set_option Elab.async false
set_option linter.all false
namespace Sys2Proof.Machine
theorem setGate_keeps (u0 : State) (p : Nat) (f : Gate → Gate) (s : State) (hk : Keeps u0 s) : Keeps u0 (setGate p f s) :=
  keeps_inv s _ hk rfl rfl rfl rfl (fun i => ⟨i.1, i.2, i.3, i.4, i.5, i.6, i.7, i.8, i.9, i.10, by simpa [setGate] using i.11, i.12, i.13, i.14, i.15⟩)

theorem settleHeads_keeps (u0 : State) (p : Nat) (s : State)  (hk : Keeps u0 s) : Keeps u0 (settleHeads p s) := by
  unfold settleHeads
  repeat' first | with_reducible assumption | with_reducible exact id | (intro _) | with_reducible apply keeps_ite | extract_lets
                | with_reducible apply raise_keeps | with_reducible apply count_keeps | with_reducible apply dropQueued_keeps
                | with_reducible apply setQueue_keeps | with_reducible apply keeps_foldl | split | with_reducible apply keeps_mk
                | exact fun _ => rfl | dsimp only

theorem letIn_keeps (u0 : State) (p : Nat) (c : Nat) (q : QFrame) (s : State)  (hk : Keeps u0 s) : Keeps u0 (letIn p c q s) := by
  unfold letIn
  repeat' first | with_reducible assumption | (intro _) | extract_lets | with_reducible apply settleHeads_keeps | with_reducible apply enqueue_keeps
                | dsimp only

theorem sendPause_keeps (u0 : State) (p : Nat) (quanta : Nat) (s : State)  (hk : Keeps u0 s) : Keeps u0 (sendPause p quanta s) := by
  unfold sendPause
  repeat' first | with_reducible assumption | with_reducible exact id | (intro _) | extract_lets | with_reducible apply emit_keeps
                | with_reducible apply count_keeps | with_reducible apply countN_keeps | with_reducible apply keeps_mk | exact fun _ => rfl
                | dsimp only

theorem pauseCheck_keeps (u0 : State) (p : Nat) (s : State)  (hk : Keeps u0 s) : Keeps u0 (pauseCheck p s) := by
  unfold pauseCheck
  repeat' first | with_reducible assumption | with_reducible exact id | (intro _) | with_reducible apply keeps_ite | extract_lets
                | with_reducible apply sendPause_keeps | with_reducible apply setMac_keeps | split | with_reducible apply keeps_mk
                | exact fun _ => rfl | dsimp only

theorem sendEgress_keeps (u0 : State) (x : Fwd) (keepR : Bool) (e : Egress) (s : State)  (hk : Keeps u0 s) : Keeps u0 (sendEgress x keepR e s).2 := by
  unfold sendEgress
  repeat' first | with_reducible assumption | with_reducible exact id | (intro _) | with_reducible apply keeps_ite | extract_lets
                | with_reducible apply sendPeer_keeps | with_reducible apply toLocal_keeps | with_reducible apply letIn_keeps | split
                | with_reducible apply keeps_mk | exact fun _ => rfl | dsimp only

theorem sendAll_keeps (u0 : State) (x : Fwd) (keepR : Bool) (es : List Egress) (s : State)  (hk : Keeps u0 s) : Keeps u0 (sendAll x keepR es s).2 := by
  unfold sendAll
  repeat' first | with_reducible assumption | (intro _) | with_reducible apply keeps_ite | extract_lets | with_reducible apply sendEgress_keeps
                | with_reducible apply bumpUid_keeps | with_reducible apply keeps_foldl | with_reducible apply keeps_foldl2 | split | dsimp only

theorem countEgress_keeps (u0 : State) (p : Nat) (down : Nat) (any_ : Bool) (s : State)  (hk : Keeps u0 s) : Keeps u0 (countEgress p down any_ s) := by
  unfold countEgress
  repeat' first | with_reducible assumption | (intro _) | with_reducible apply keeps_ite | extract_lets | with_reducible apply count_keeps
                | with_reducible apply countN_keeps | split | dsimp only

theorem forwardPlain_keeps (u0 : State) (x : Fwd) (inLine : Option Line) (inDir : Option Nat) (s : State)  (hk : Keeps u0 s) : Keeps u0 (forwardPlain x inLine inDir s).2 := by
  unfold forwardPlain
  repeat' first | with_reducible assumption | (intro _) | extract_lets | with_reducible apply sendAll_keeps | with_reducible apply countEgress_keeps
                | dsimp only

theorem forwardReplicated_keeps (u0 : State) (x : Fwd) (err : Option Nat) (s : State)  (hk : Keeps u0 s) : Keeps u0 (forwardReplicated x err s) := by
  unfold forwardReplicated
  repeat' first | with_reducible assumption | with_reducible exact id | (intro _) | with_reducible apply keeps_ite | extract_lets
                | with_reducible apply sendAll_keeps | with_reducible apply countEgress_keeps | with_reducible apply sendPeer_keeps
                | with_reducible apply unitParity_keeps | with_reducible apply frerOffer_keeps | split | with_reducible apply keeps_mk
                | exact fun _ => rfl | dsimp only

theorem publishCopies_keeps (u0 : State) (x : Fwd) (stripLocal : Bool) (s : State)  (hk : Keeps u0 s) : Keeps u0 (publishCopies x stripLocal s).2 := by
  unfold publishCopies
  repeat' first | with_reducible assumption | with_reducible exact id | (intro _) | with_reducible apply keeps_ite | extract_lets
                | with_reducible apply sendAll_keeps | with_reducible apply count_keeps | with_reducible apply keeps_foldl
                | with_reducible apply keeps_foldl2 | split | with_reducible apply keeps_mk | exact fun _ => rfl | dsimp only

theorem setCtx_keeps (u0 : State) (n : Nat) (f : StreamCtx → StreamCtx) (s : State)  (hk : Keeps u0 s) : Keeps u0 (setCtx n f s) := by
  unfold setCtx
  repeat' first | with_reducible assumption | with_reducible exact id | (intro _) | extract_lets | with_reducible apply keeps_mk
                | exact fun _ => rfl | dsimp only

theorem bumpSeq_keeps (u0 : State) (n : Nat) (s : State)  (hk : Keeps u0 s) : Keeps u0 (bumpSeq n s) := by
  unfold bumpSeq
  repeat' first | with_reducible assumption | with_reducible exact id | (intro _) | extract_lets | with_reducible apply setCtx_keeps
                | with_reducible apply keeps_mk | exact fun _ => rfl | dsimp only

theorem forwardSplit_keeps (u0 : State) (x : Fwd) (ctx : Nat) (s : State)  (hk : Keeps u0 s) : Keeps u0 (forwardSplit x ctx s) := by
  unfold forwardSplit
  repeat' first | with_reducible assumption | with_reducible exact id | (intro _) | extract_lets | with_reducible apply publishCopies_keeps
                | with_reducible apply bumpSeq_keeps | with_reducible apply keeps_mk | exact fun _ => rfl | dsimp only

theorem learn_keeps (u0 : State) (p : Nat) (vid : Nat) (f : Frame) (s : State)  (hk : Keeps u0 s) : Keeps u0 (learn p vid f s) := by
  unfold learn
  repeat' first | with_reducible assumption | with_reducible exact id | (intro _) | with_reducible apply keeps_ite | extract_lets
                | with_reducible apply count_keeps | with_reducible apply raise_keeps | with_reducible apply logEvent_keeps | split
                | with_reducible apply keeps_mk | exact fun _ => rfl | dsimp only

theorem unlearn_keeps (u0 : State) (p : FdbEntry → Bool) (s : State)  (hk : Keeps u0 s) : Keeps u0 (unlearn p s) := by
  unfold unlearn
  repeat' first | with_reducible assumption | with_reducible exact id | (intro _) | with_reducible apply keeps_ite | extract_lets | split
                | with_reducible apply keeps_mk | exact fun _ => rfl | dsimp only

theorem police_keeps (u0 : State) (x : Fwd) (colour : Colour) (s : State)  (hk : Keeps u0 s) : Keeps u0 (police x colour s).2 := by
  unfold police
  repeat' first | with_reducible assumption | with_reducible exact id | (intro _) | with_reducible apply keeps_ite | extract_lets
                | with_reducible apply count_keeps | with_reducible apply raise_keeps | with_reducible apply logEvent_keeps | split
                | with_reducible apply keeps_mk | exact fun _ => rfl | dsimp only

theorem loadSwitch_keeps (u0 : State)  (s : State) (hk : Keeps u0 s) : Keeps u0 (loadSwitch s) :=
  keeps_inv s _ hk rfl rfl rfl rfl (fun i => ⟨i.1, by simpa [loadSwitch] using i.2, i.3, i.4, i.5, i.6, i.7, i.8, i.9, i.10, by simpa [loadSwitch] using i.11, i.12, i.13, i.14, i.15⟩)

end Sys2Proof.Machine
end

