-- ==== Sys2Proof/Laws/KeepsStreamOps.lean ====
section
/-! SUPPORT. What every operation of Machine/StreamOps.lean keeps, said once for each: the queue, the outputs made so far, the free values used, the
invariant, protection (Keeps of Safety.lean). -/
set_option Elab.async false
set_option linter.all false
namespace Sys2Proof.Machine
theorem loadStreams_keeps (u0 : State)  (s : State)  (hk : Keeps u0 s) : Keeps u0 (loadStreams s) := by
  unfold loadStreams
  repeat' first | with_reducible assumption | with_reducible exact id | (intro _) | extract_lets | with_reducible apply keeps_mk
                | exact fun _ => rfl | dsimp only

theorem reactivateStreams_keeps (u0 : State)  (s : State)  (hk : Keeps u0 s) : Keeps u0 (reactivateStreams s) := by
  unfold reactivateStreams
  repeat' first | with_reducible assumption | with_reducible exact id | (intro _) | extract_lets | with_reducible apply keeps_mk
                | exact fun _ => rfl | dsimp only

theorem stopStreams_keeps (u0 : State)  (s : State)  (hk : Keeps u0 s) : Keeps u0 (stopStreams s) := by
  unfold stopStreams
  repeat' first | with_reducible assumption | with_reducible exact id | (intro _) | extract_lets | with_reducible apply keeps_mk
                | exact fun _ => rfl | dsimp only

theorem staleGen_keeps (u0 : State) (n : Nat) (k : Nat) (s : State)  (hk : Keeps u0 s) : Keeps u0 (staleGen n k s) := by
  unfold staleGen
  repeat' first | with_reducible assumption | with_reducible exact id | (intro _) | with_reducible apply keeps_ite | extract_lets
                | with_reducible apply raise_keeps | with_reducible apply logEvent_keeps | with_reducible apply countN_keeps
                | with_reducible apply setCtx_keeps | split | with_reducible apply keeps_mk | exact fun _ => rfl | dsimp only

theorem withdraw_keeps (u0 : State) (n : Nat) (s : State)  (hk : Keeps u0 s) : Keeps u0 (withdraw n s) := by
  unfold withdraw
  repeat' first | with_reducible assumption | with_reducible exact id | (intro _) | with_reducible apply keeps_ite | extract_lets
                | with_reducible apply staleGen_keeps | with_reducible apply setCtx_keeps | split | with_reducible apply keeps_mk
                | exact fun _ => rfl | dsimp only

theorem rebindPublisher_keeps (u0 : State) (old : Hitch) (n : Nat) (c : StreamCtx) (s : State)  (hk : Keeps u0 s) : Keeps u0 (rebindPublisher old n c s) := by
  unfold rebindPublisher
  repeat' first | with_reducible assumption | with_reducible exact id | (intro _) | with_reducible apply keeps_ite | extract_lets
                | with_reducible apply setCtx_keeps | with_reducible apply withdraw_keeps | split | with_reducible apply keeps_mk
                | exact fun _ => rfl | dsimp only

theorem rebindSubscriber_keeps (u0 : State) (old : Hitch) (n : Nat) (c : StreamCtx) (s : State)  (hk : Keeps u0 s) : Keeps u0 (rebindSubscriber old n c s) := by
  unfold rebindSubscriber
  repeat' first | with_reducible assumption | with_reducible exact id | (intro _) | with_reducible apply keeps_ite | extract_lets
                | with_reducible apply setCtx_keeps | split | with_reducible apply keeps_mk | exact fun _ => rfl | dsimp only

theorem checkConflict_keeps (u0 : State) (n : Nat) (s : State)  (hk : Keeps u0 s) : Keeps u0 (checkConflict n s) := by
  unfold checkConflict
  repeat' first | with_reducible assumption | with_reducible exact id | (intro _) | with_reducible apply keeps_ite | extract_lets
                | with_reducible apply raise_keeps | with_reducible apply logEvent_keeps | with_reducible apply count_keeps
                | with_reducible apply setCtx_keeps | split | with_reducible apply keeps_mk | exact fun _ => rfl | dsimp only

theorem rebindStreams_keeps (u0 : State) (old : Hitch) (s : State)  (hk : Keeps u0 s) : Keeps u0 (rebindStreams old s) := by
  unfold rebindStreams
  repeat' first | with_reducible assumption | with_reducible exact id | (intro _) | with_reducible apply keeps_ite | extract_lets
                | with_reducible apply rebindPublisher_keeps | with_reducible apply rebindSubscriber_keeps
                | with_reducible apply checkConflict_keeps | with_reducible apply streamInhibit_keeps | with_reducible apply keeps_foldl | split
                | with_reducible apply keeps_mk | exact fun _ => rfl | dsimp only

theorem ctxParity_keeps (u0 : State) (n : Nat) (kind : Nat) (s : State)  (hk : Keeps u0 s) : Keeps u0 (ctxParity n kind s) := by
  unfold ctxParity
  repeat' first | with_reducible assumption | (intro _) | extract_lets | with_reducible apply raise_keeps | with_reducible apply logEvent_keeps
                | with_reducible apply count_keeps | dsimp only

theorem skipSnapshot_keeps (u0 : State) (n : Nat) (s : State)  (hk : Keeps u0 s) : Keeps u0 (skipSnapshot n s) := by
  unfold skipSnapshot
  repeat' first | with_reducible assumption | with_reducible exact id | (intro _) | extract_lets | with_reducible apply count_keeps
                | with_reducible apply setCtx_keeps | with_reducible apply keeps_mk | exact fun _ => rfl | dsimp only

theorem snapshot_keeps (u0 : State) (n : Nat) (c : StreamCtx) (s : State)  (hk : Keeps u0 s) : Keeps u0 (snapshot n c s) := by
  unfold snapshot
  repeat' first | with_reducible assumption | with_reducible exact id | (intro _) | with_reducible apply keeps_ite | extract_lets
                | with_reducible apply setCtx_keeps | with_reducible apply staleGen_keeps | split | with_reducible apply keeps_mk
                | exact fun _ => rfl | dsimp only

theorem sendPublication_keeps (u0 : State) (n : Nat) (c : StreamCtx) (l : StreamLaunch) (s : State)  (hk : Keeps u0 s) : Keeps u0 (sendPublication n c l s) := by
  unfold sendPublication
  repeat' first | with_reducible assumption | with_reducible exact id | (intro _) | with_reducible apply keeps_ite | extract_lets
                | with_reducible apply done_keeps | with_reducible apply count_keeps | with_reducible apply setCtx_keeps
                | with_reducible apply publishCopies_keeps | with_reducible apply sendAll_keeps | with_reducible apply keeps_foldl
                | with_reducible apply keeps_foldl2 | split | with_reducible apply keeps_mk | exact fun _ => rfl | dsimp only

theorem launchStream_keeps (u0 : State) (n : Nat) (lateNs : Nat) (s : State)  (hk : Keeps u0 s) : Keeps u0 (launchStream n lateNs s) := by
  unfold launchStream
  repeat' first | with_reducible assumption | with_reducible exact id | (intro _) | with_reducible apply keeps_ite | extract_lets
                | with_reducible apply setCtx_keeps | with_reducible apply sendPublication_keeps | with_reducible apply logEvent_keeps
                | with_reducible apply count_keeps | split | with_reducible apply keeps_mk | exact fun _ => rfl | dsimp only

theorem dropSub_keeps (u0 : State) (n : Nat) (k : Nat) (f : Frame) (s : State)  (hk : Keeps u0 s) : Keeps u0 (dropSub n k f s) := by
  unfold dropSub
  repeat' first | with_reducible assumption | with_reducible exact id | (intro _) | with_reducible apply keeps_ite | extract_lets
                | with_reducible apply count_keeps | with_reducible apply setCtx_keeps | with_reducible apply raise_keeps
                | with_reducible apply logEvent_keeps | split | with_reducible apply keeps_mk | exact fun _ => rfl | dsimp only

theorem acceptSub_keeps (u0 : State) (n : Nat) (c : StreamCtx) (line : Line) (f : Frame) (s : State)  (hk : Keeps u0 s) : Keeps u0 (acceptSub n c line f s) := by
  unfold acceptSub
  repeat' first | with_reducible assumption | with_reducible exact id | (intro _) | with_reducible apply keeps_ite | extract_lets
                | with_reducible apply count_keeps | with_reducible apply setCtx_keeps | with_reducible apply logEvent_keeps
                | with_reducible apply raise_keeps | split | with_reducible apply keeps_mk | exact fun _ => rfl | dsimp only

theorem streamPut_keeps (u0 : State) (n : Nat) (data : List Byte) (s : State)  (hk : Keeps u0 s) : Keeps u0 (streamPut n data s) := by
  unfold streamPut
  repeat' first | with_reducible assumption | with_reducible exact id | (intro _) | extract_lets | with_reducible apply setCtx_keeps
                | with_reducible apply keeps_mk | exact fun _ => rfl | dsimp only

theorem streamLine_keeps (u0 : State) (n : Nat) (mode : Nat) (s : State)  (hk : Keeps u0 s) : Keeps u0 (streamLine n mode s) := by
  unfold streamLine
  repeat' first | with_reducible assumption | with_reducible exact id | (intro _) | extract_lets | with_reducible apply setCtx_keeps
                | with_reducible apply keeps_mk | exact fun _ => rfl | dsimp only

theorem streamEnable_keeps (u0 : State) (n : Nat) (on : Bool) (s : State)  (hk : Keeps u0 s) : Keeps u0 (streamEnable n on s) := by
  unfold streamEnable
  repeat' first | with_reducible assumption | with_reducible exact id | (intro _) | with_reducible apply keeps_ite | extract_lets
                | with_reducible apply streamInhibit_keeps | with_reducible apply setCtx_keeps | split | with_reducible apply keeps_mk
                | exact fun _ => rfl | dsimp only

end Sys2Proof.Machine
end

