-- ==== Sys2Proof/Laws/KeepsControlOps.lean ====
section
/-! SUPPORT. What every operation of Machine/ControlOps.lean keeps, said once for each: the queue, the outputs made so far, the free values used, the
invariant, protection (Keeps of Safety.lean). -/
set_option Elab.async false
set_option linter.all false
namespace Sys2Proof.Machine
theorem setTask_keeps (u0 : State) (n : Nat) (f : Task → Task) (s : State)  (hk : Keeps u0 s) : Keeps u0 (setTask n f s) := by
  unfold setTask
  repeat' first | with_reducible assumption | with_reducible exact id | (intro _) | extract_lets | with_reducible apply keeps_mk
                | exact fun _ => rfl | dsimp only

theorem setPair_keeps (u0 : State) (p : Nat) (f : CorePair → CorePair) (s : State) (hk : Keeps u0 s) : Keeps u0 (setPair p f s) :=
  keeps_inv s _ hk rfl rfl rfl rfl (fun i => ⟨i.1, i.2, i.3, i.4, i.5, i.6, i.7, i.8, by simpa [setPair] using i.9, i.10, i.11, i.12, i.13, i.14, i.15⟩)

theorem controlLoad_keeps (u0 : State)  (s : State)  (hk : Keeps u0 s) : Keeps u0 (controlLoad s) := by
  unfold controlLoad
  repeat' first | with_reducible assumption | with_reducible exact id | (intro _) | extract_lets | with_reducible apply keeps_foldl
                | with_reducible apply keeps_mk | exact fun _ => rfl | dsimp only

theorem assignPair_keeps (u0 : State) (n : Nat) (s : State)  (hk : Keeps u0 s) : Keeps u0 (assignPair n s) := by
  unfold assignPair
  repeat' first | with_reducible assumption | with_reducible exact id | (intro _) | with_reducible apply keeps_ite | extract_lets
                | with_reducible apply setTask_keeps | split | with_reducible apply keeps_mk | exact fun _ => rfl | dsimp only

theorem assignPairs_keeps (u0 : State) (ns : List Nat) (s : State)  (hk : Keeps u0 s) : Keeps u0 (assignPairs ns s) := by
  unfold assignPairs
  repeat' first | with_reducible assumption | (intro _) | with_reducible apply keeps_ite | extract_lets | with_reducible apply assignPair_keeps
                | with_reducible apply keeps_foldl | split | dsimp only

theorem schedule_keeps (u0 : State) (p : Nat) (s : State)  (hk : Keeps u0 s) : Keeps u0 (schedule p s) := by
  unfold schedule
  try dsimp only
  repeat' first | with_reducible assumption | with_reducible exact Keeps.rfl | with_reducible exact id | (intro _) | with_reducible apply keeps_ite
                | with_reducible apply keeps_ite_app | with_reducible apply keeps_id | with_reducible apply setPair_keeps
                | with_reducible apply setTask_keeps | with_reducible apply keeps_foldl | with_reducible apply keeps_foldl2 | split
                | simp only [keeps_mk_iff] | exact id | exact fun _ => rfl | exact fun i => put_wf _ _ _ _ i | exact put_wf _ _ _ _ (by assumption)
                | (rw [setBox_len]; assumption) | (simp [HostIf.setBox]; done) | dsimp only

theorem forceReleased_keeps (u0 : State) (x : Force) (reason : Nat) (s : State)  (hk : Keeps u0 s) : Keeps u0 (forceReleased x reason s) := by
  unfold forceReleased
  repeat' first | with_reducible assumption | (intro _) | with_reducible apply keeps_ite | extract_lets | with_reducible apply logEvent_keeps
                | with_reducible apply raise_keeps | with_reducible apply count_keeps | split | dsimp only

theorem releaseForces_keeps (u0 : State) (p : Force → Bool) (reason : Nat) (s : State)  (hk : Keeps u0 s) : Keeps u0 (releaseForces p reason s) := by
  unfold releaseForces
  repeat' first | with_reducible assumption | with_reducible exact id | (intro _) | with_reducible apply keeps_ite | extract_lets
                | with_reducible apply forceReleased_keeps | with_reducible apply keeps_foldl | split | with_reducible apply keeps_mk
                | exact fun _ => rfl | dsimp only

theorem dueForces_keeps (u0 : State) (n : Nat) (cycle : Nat) (s : State)  (hk : Keeps u0 s) : Keeps u0 (dueForces n cycle s) := by
  unfold dueForces
  repeat' first | with_reducible assumption | with_reducible exact id | (intro _) | with_reducible apply keeps_ite | extract_lets
                | with_reducible apply logEvent_keeps | with_reducible apply forceReleased_keeps | with_reducible apply keeps_foldl | split
                | with_reducible apply keeps_mk | exact fun _ => rfl | dsimp only

theorem latchBlock_keeps (u0 : State) (n : Nat) (t : Task) (b : ObjBlock) (at_ : Nat) (s : State)  (hk : Keeps u0 s) : Keeps u0 (latchBlock n t b at_ s).2 := by
  unfold latchBlock
  repeat' first | with_reducible assumption | with_reducible exact id | (intro _) | with_reducible apply keeps_ite | extract_lets
                | with_reducible apply canLatchFifo_keeps | with_reducible apply canLatchBuf_keeps | split | with_reducible apply keeps_mk
                | exact fun _ => rfl | dsimp only

theorem latchImage_keeps (u0 : State) (n : Nat) (t : Task) (at_ : Nat) (s : State)  (hk : Keeps u0 s) : Keeps u0 (latchImage n t at_ s).2 := by
  unfold latchImage
  repeat' first | with_reducible assumption | (intro _) | extract_lets | with_reducible apply latchBlock_keeps | with_reducible apply keeps_foldl
                | with_reducible apply keeps_foldl2 | dsimp only

theorem makeReady_keeps (u0 : State) (n : Nat) (img : List Byte) (s : State)  (hk : Keeps u0 s) : Keeps u0 (makeReady n img s) := by
  unfold makeReady
  repeat' first | with_reducible assumption | with_reducible exact id | (intro _) | with_reducible apply keeps_ite | extract_lets
                | with_reducible apply setTask_keeps | with_reducible apply schedule_keeps | split | with_reducible apply keeps_mk
                | exact fun _ => rfl | dsimp only

theorem driveGpio_keeps (u0 : State) (g : Nat) (on : Bool) (s : State)  (hk : Keeps u0 s) : Keeps u0 (driveGpio g on s) := by
  unfold driveGpio
  repeat' first | with_reducible assumption | with_reducible exact id | (intro _) | with_reducible apply keeps_ite | extract_lets
                | with_reducible apply emit_keeps | split | with_reducible apply keeps_mk | exact fun _ => rfl | dsimp only

theorem resetGpio_keeps (u0 : State) (t : Task) (s : State)  (hk : Keeps u0 s) : Keeps u0 (resetGpio t s) := by
  unfold resetGpio
  repeat' first | with_reducible assumption | (intro _) | extract_lets | with_reducible apply driveGpio_keeps | with_reducible apply keeps_foldl
                | dsimp only

theorem holdTask_keeps (u0 : State) (n : Nat) (cause : Nat) (s : State)  (hk : Keeps u0 s) : Keeps u0 (holdTask n cause s) := by
  unfold holdTask
  repeat' first | with_reducible assumption | with_reducible exact id | (intro _) | with_reducible apply keeps_ite | extract_lets
                | with_reducible apply setTask_keeps | with_reducible apply schedule_keeps | split | with_reducible apply keeps_mk
                | exact fun _ => rfl | dsimp only

theorem heldCommit_keeps (u0 : State) (n : Nat) (cause : Nat) (s : State)  (hk : Keeps u0 s) : Keeps u0 (heldCommit n cause s) := by
  unfold heldCommit
  repeat' first | with_reducible assumption | with_reducible exact id | (intro _) | with_reducible apply keeps_ite | extract_lets
                | with_reducible apply raise_keeps | with_reducible apply logEvent_keeps | with_reducible apply count_keeps
                | with_reducible apply setTask_keeps | split | with_reducible apply keeps_mk | exact fun _ => rfl | dsimp only

theorem enablePubs_keeps (u0 : State) (t : Task) (on : Bool) (s : State)  (hk : Keeps u0 s) : Keeps u0 (enablePubs t on s) := by
  unfold enablePubs
  repeat' first | with_reducible assumption | (intro _) | extract_lets | with_reducible apply streamEnable_keeps | with_reducible apply keeps_foldl
                | dsimp only

theorem enableSubs_keeps (u0 : State) (t : Task) (on : Bool) (s : State)  (hk : Keeps u0 s) : Keeps u0 (enableSubs t on s) := by
  unfold enableSubs
  repeat' first | with_reducible assumption | (intro _) | extract_lets | with_reducible apply streamEnable_keeps | with_reducible apply keeps_foldl
                | dsimp only

theorem ceaseCan_keeps (u0 : State) (t : Task) (s : State)  (hk : Keeps u0 s) : Keeps u0 (ceaseCan t s) := by
  unfold ceaseCan
  repeat' first | with_reducible assumption | with_reducible exact id | (intro _) | with_reducible apply keeps_ite | extract_lets
                | with_reducible apply setBuf_keeps | with_reducible apply keeps_foldl | split | with_reducible apply keeps_mk | exact fun _ => rfl
                | dsimp only

theorem haltTask_keeps (u0 : State) (n : Nat) (st : TaskSt) (s : State)  (hk : Keeps u0 s) : Keeps u0 (haltTask n st s) := by
  unfold haltTask
  repeat' first | with_reducible assumption | with_reducible exact id | (intro _) | with_reducible apply keeps_ite | extract_lets
                | with_reducible apply setTask_keeps | with_reducible apply schedule_keeps | split | with_reducible apply keeps_mk
                | exact fun _ => rfl | dsimp only

theorem stopTask_keeps (u0 : State) (n : Nat) (how : Nat) (s : State)  (hk : Keeps u0 s) : Keeps u0 (stopTask n how s) := by
  unfold stopTask
  repeat' first | with_reducible assumption | with_reducible exact id | (intro _) | with_reducible apply keeps_ite | extract_lets
                | with_reducible apply haltTask_keeps | with_reducible apply releaseForces_keeps | with_reducible apply resetGpio_keeps
                | with_reducible apply ceaseCan_keeps | with_reducible apply enablePubs_keeps | with_reducible apply logEvent_keeps | split
                | with_reducible apply keeps_mk | exact fun _ => rfl | dsimp only

theorem setRetain_keeps (u0 : State) (die : Nat) (n : Nat) (k : Nat) (b : List Byte) (s : State)  (hk : Keeps u0 s) : Keeps u0 (setRetain die n k b s) := by
  unfold setRetain
  repeat' first | with_reducible assumption | with_reducible exact id | (intro _) | with_reducible apply keeps_ite | extract_lets | split
                | with_reducible apply keeps_mk | exact fun _ => rfl | dsimp only

theorem retainFault_keeps (u0 : State) (n : Nat) (kind : Nat) (s : State)  (hk : Keeps u0 s) : Keeps u0 (retainFault n kind s) := by
  unfold retainFault
  repeat' first | with_reducible assumption | (intro _) | with_reducible apply keeps_ite | extract_lets | with_reducible apply raise_keeps
                | with_reducible apply logEvent_keeps | split | dsimp only

theorem retainDead_keeps (u0 : State) (n : Nat) (s : State)  (hk : Keeps u0 s) : Keeps u0 (retainDead n s) := by
  unfold retainDead
  repeat' first | with_reducible assumption | with_reducible exact id | (intro _) | with_reducible apply keeps_ite | extract_lets
                | with_reducible apply retainFault_keeps | split | with_reducible apply keeps_mk | exact fun _ => rfl | dsimp only

theorem startRetain_keeps (u0 : State) (n : Nat) (s : State)  (hk : Keeps u0 s) : Keeps u0 (startRetain n s) := by
  unfold startRetain
  repeat' first | with_reducible assumption | with_reducible exact id | (intro _) | with_reducible apply keeps_ite | extract_lets
                | with_reducible apply retainDead_keeps | with_reducible apply count_keeps | with_reducible apply setTask_keeps
                | with_reducible apply retainFault_keeps | with_reducible apply setRetain_keeps | with_reducible apply keeps_foldl | split
                | with_reducible apply keeps_mk | exact fun _ => rfl | dsimp only

theorem sinkBlock_keeps (u0 : State) (t : Task) (b : ObjBlock) (s : State)  (hk : Keeps u0 s) : Keeps u0 (sinkBlock t b s) := by
  unfold sinkBlock
  repeat' first | with_reducible assumption | with_reducible exact id | (intro _) | with_reducible apply keeps_ite | extract_lets
                | with_reducible apply count_keeps | with_reducible apply canCommit_keeps | with_reducible apply legCommit_keeps
                | with_reducible apply driveGpio_keeps | split | with_reducible apply keeps_mk | exact fun _ => rfl | dsimp only

theorem commitBank_keeps (u0 : State) (n : Nat) (s : State)  (hk : Keeps u0 s) : Keeps u0 (commitBank n s) := by
  unfold commitBank
  repeat' first | with_reducible assumption | with_reducible exact id | (intro _) | extract_lets | with_reducible apply setTask_keeps
                | with_reducible apply keeps_mk | exact fun _ => rfl | dsimp only

theorem commitOutput_keeps (u0 : State) (n : Nat) (image : List Byte) (s : State)  (hk : Keeps u0 s) : Keeps u0 (commitOutput n image s) := by
  unfold commitOutput
  repeat' first | with_reducible assumption | with_reducible exact id | (intro _) | with_reducible apply keeps_ite | extract_lets
                | with_reducible apply setTask_keeps | with_reducible apply sinkBlock_keeps | with_reducible apply keeps_foldl | split
                | with_reducible apply keeps_mk | exact fun _ => rfl | dsimp only

theorem commitEnd_keeps (u0 : State) (n : Nat) (s : State)  (hk : Keeps u0 s) : Keeps u0 (commitEnd n s) := by
  unfold commitEnd
  repeat' first | with_reducible assumption | with_reducible exact id | (intro _) | with_reducible apply keeps_ite | extract_lets
                | with_reducible apply count_keeps | with_reducible apply startRetain_keeps | with_reducible apply raise_keeps
                | with_reducible apply setTask_keeps | split | with_reducible apply keeps_mk | exact fun _ => rfl | dsimp only

theorem commitTask_keeps (u0 : State) (n : Nat) (s : State)  (hk : Keeps u0 s) : Keeps u0 (commitTask n s) := by
  unfold commitTask
  repeat' first | with_reducible assumption | (intro _) | extract_lets | with_reducible apply commitBank_keeps
                | with_reducible apply commitEnd_keeps | with_reducible apply commitOutput_keeps | dsimp only

theorem redoTask_keeps (u0 : State) (n : Nat) (s : State)  (hk : Keeps u0 s) : Keeps u0 (redoTask n s) := by
  unfold redoTask
  repeat' first | with_reducible assumption | with_reducible exact id | (intro _) | with_reducible apply keeps_ite | extract_lets
                | with_reducible apply makeReady_keeps | with_reducible apply setTask_keeps | split | with_reducible apply keeps_mk
                | exact fun _ => rfl | dsimp only

theorem restamp_keeps (u0 : State) (fp : BitVec 256) (s : State)  (hk : Keeps u0 s) : Keeps u0 (restamp fp s) := by
  unfold restamp
  repeat' first | with_reducible assumption | with_reducible exact id | (intro _) | with_reducible apply keeps_ite | extract_lets
                | with_reducible apply setRetain_keeps | with_reducible apply keeps_foldl | split | with_reducible apply keeps_mk
                | exact fun _ => rfl | dsimp only

theorem controlStart_keeps (u0 : State) (kind : Nat) (s : State)  (hk : Keeps u0 s) : Keeps u0 (controlStart kind s) := by
  unfold controlStart
  try dsimp only
  repeat' first | with_reducible assumption | with_reducible exact Keeps.rfl | with_reducible exact id | (intro _) | with_reducible apply keeps_ite
                | with_reducible apply keeps_ite_app | with_reducible apply keeps_id | with_reducible apply logEvent_keeps
                | with_reducible apply releaseForces_keeps | with_reducible apply enableSubs_keeps | with_reducible apply enablePubs_keeps
                | with_reducible apply assignPairs_keeps | with_reducible apply setState_keeps | with_reducible apply canControlStart_keeps
                | with_reducible apply raise_keeps | with_reducible apply keeps_foldl | with_reducible apply keeps_foldl2 | split
                | simp only [keeps_mk_iff] | exact id | exact fun _ => rfl | exact fun i => put_wf _ _ _ _ i | exact put_wf _ _ _ _ (by assumption)
                | (rw [setBox_len]; assumption) | (simp [HostIf.setBox]; done) | dsimp only

end Sys2Proof.Machine
end

