-- ==== Sys2Proof/Laws/KeepsRingOps.lean ====
section
/-! SUPPORT. What every operation of Machine/RingOps.lean keeps, said once for each: the queue, the outputs made so far, the free values used, the
invariant, protection (Keeps of Safety.lean). -/
set_option Elab.async false
set_option linter.all false
namespace Sys2Proof.Machine
theorem setRing_keeps (u0 : State) (tx : Bool) (n : Nat) (f : Ring → Ring) (s : State)  (hk : Keeps u0 s) : Keeps u0 (setRing tx n f s) := by
  unfold setRing
  repeat' first | with_reducible assumption | (intro _) | with_reducible apply keeps_ite | extract_lets | with_reducible apply setTx_keeps
                | with_reducible apply setRx_keeps | split | dsimp only

theorem settleDma_keeps (u0 : State)  (s : State) (hk : Keeps u0 s) : Keeps u0 (settleDma s) :=
  keeps_inv s _ hk rfl rfl rfl rfl (fun i => ⟨i.1, i.2, by simpa [settleDma] using i.3, by simpa [settleDma] using i.4, i.5, i.6, i.7, i.8, i.9, i.10, i.11, i.12, i.13, i.14, i.15⟩)

theorem stopRx_keeps (u0 : State) (n : Nat) (s : State)  (hk : Keeps u0 s) : Keeps u0 (stopRx n s) := by
  unfold stopRx
  repeat' first | with_reducible assumption | with_reducible exact id | (intro _) | extract_lets | with_reducible apply settleUids_keeps
                | with_reducible apply countN_keeps | with_reducible apply setRx_keeps | with_reducible apply unread_keeps
                | with_reducible apply keeps_foldl | with_reducible apply keeps_mk | exact fun _ => rfl | dsimp only

theorem stopTx_keeps (u0 : State) (n : Nat) (s : State)  (hk : Keeps u0 s) : Keeps u0 (stopTx n s) := by
  unfold stopTx
  repeat' first | with_reducible assumption | with_reducible exact id | (intro _) | with_reducible apply keeps_ite | extract_lets
                | with_reducible apply setTx_keeps | split | with_reducible apply keeps_mk | exact fun _ => rfl | dsimp only

theorem stopRing_keeps (u0 : State) (tx : Bool) (n : Nat) (s : State)  (hk : Keeps u0 s) : Keeps u0 (stopRing tx n s) := by
  unfold stopRing
  repeat' first | with_reducible assumption | (intro _) | with_reducible apply keeps_ite | extract_lets | with_reducible apply stopTx_keeps
                | with_reducible apply stopRx_keeps | split | dsimp only

theorem stopRings_keeps (u0 : State)  (s : State)  (hk : Keeps u0 s) : Keeps u0 (stopRings s) := by
  unfold stopRings
  repeat' first | with_reducible assumption | (intro _) | extract_lets | with_reducible apply stopRing_keeps | with_reducible apply keeps_foldl
                | dsimp only

theorem ringDone_keeps (u0 : State) (tx : Bool) (n : Nat) (s : State)  (hk : Keeps u0 s) : Keeps u0 (ringDone tx n s) := by
  unfold ringDone
  repeat' first | with_reducible assumption | with_reducible exact id | (intro _) | with_reducible apply keeps_ite | extract_lets
                | with_reducible apply sendVector_keeps | with_reducible apply setRing_keeps | split | with_reducible apply keeps_mk
                | exact fun _ => rfl | dsimp only

theorem txWriteBack_keeps (u0 : State) (n : Nat) (result : Nat) (ds : List (List Byte)) (s : State)  (hk : Keeps u0 s) : Keeps u0 (txWriteBack n result ds s) := by
  unfold txWriteBack
  repeat' first | with_reducible assumption | with_reducible exact id | (intro _) | with_reducible apply keeps_ite | extract_lets
                | with_reducible apply emit_keeps | with_reducible apply setTx_keeps | with_reducible apply count_keeps
                | with_reducible apply ringDone_keeps | with_reducible apply keeps_foldl | split | with_reducible apply keeps_mk
                | exact fun _ => rfl | dsimp only

theorem txFail_keeps (u0 : State) (d : List Byte) (s : State)  (hk : Keeps u0 s) : Keeps u0 (txFail d s) := by
  unfold txFail
  repeat' first | with_reducible assumption | with_reducible exact id | (intro _) | with_reducible apply keeps_ite | extract_lets
                | with_reducible apply pushTxTs_keeps | split | with_reducible apply keeps_mk | exact fun _ => rfl | dsimp only

theorem txSwitch_keeps (u0 : State) (n : Nat) (d : List Byte) (f : Frame) (s : State)  (hk : Keeps u0 s) : Keeps u0 (txSwitch n d f s).2 := by
  unfold txSwitch
  repeat' first | with_reducible assumption | with_reducible exact id | (intro _) | with_reducible apply keeps_ite | extract_lets
                | with_reducible apply count_keeps | with_reducible apply police_keeps | with_reducible apply forwardPlain_keeps
                | with_reducible apply learn_keeps | split | with_reducible apply keeps_mk | exact fun _ => rfl | dsimp only

theorem txAdmit_keeps (u0 : State) (n : Nat) (d : List Byte) (data : List Byte) (s : State)  (hk : Keeps u0 s) : Keeps u0 (txAdmit n d data s).2 := by
  unfold txAdmit
  repeat' first | with_reducible assumption | with_reducible exact id | (intro _) | with_reducible apply keeps_ite | extract_lets
                | with_reducible apply settleUids_keeps | with_reducible apply setTx_keeps | with_reducible apply txFail_keeps
                | with_reducible apply count_keeps | with_reducible apply bumpUid_keeps | with_reducible apply letIn_keeps
                | with_reducible apply txSwitch_keeps | split | with_reducible apply keeps_mk | exact fun _ => rfl | dsimp only

theorem fenceRing_keeps (u0 : State) (n : Nat) (s : State)  (hk : Keeps u0 s) : Keeps u0 (fenceRing n s) := by
  unfold fenceRing
  repeat' first | with_reducible assumption | with_reducible exact id | (intro _) | with_reducible apply keeps_ite | extract_lets
                | with_reducible apply releaseFences_keeps | split | with_reducible apply keeps_mk | exact fun _ => rfl | dsimp only

theorem txFinish_keeps (u0 : State) (n : Nat) (ds : List (List Byte)) (data : List Byte) (s : State)  (hk : Keeps u0 s) : Keeps u0 (txFinish n ds data s) := by
  unfold txFinish
  repeat' first | with_reducible assumption | (intro _) | with_reducible apply keeps_ite | extract_lets | with_reducible apply txAdmit_keeps
                | with_reducible apply txWriteBack_keeps | with_reducible apply fenceRing_keeps | with_reducible apply setTx_keeps | split
                | dsimp only

theorem ringCtrl_keeps (u0 : State) (tx : Bool) (n : Nat) (v : Nat) (s : State)  (hk : Keeps u0 s) : Keeps u0 (ringCtrl tx n v s) := by
  unfold ringCtrl
  repeat' first | with_reducible assumption | with_reducible exact id | (intro _) | with_reducible apply keeps_ite | extract_lets
                | with_reducible apply stopRing_keeps | with_reducible apply setRing_keeps | with_reducible apply settleDma_keeps | split
                | with_reducible apply keeps_mk | exact fun _ => rfl | dsimp only

theorem ringTail_keeps (u0 : State) (tx : Bool) (n : Nat) (index : Nat) (s : State)  (hk : Keeps u0 s) : Keeps u0 (ringTail tx n index s) := by
  unfold ringTail
  repeat' first | with_reducible assumption | with_reducible exact id | (intro _) | with_reducible apply keeps_ite | extract_lets
                | with_reducible apply setRing_keeps | split | with_reducible apply keeps_mk | exact fun _ => rfl | dsimp only

theorem ringError_keeps (u0 : State) (tx : Bool) (n : Nat) (kind : Nat) (s : State)  (hk : Keeps u0 s) : Keeps u0 (ringError tx n kind s) := by
  unfold ringError
  repeat' first | with_reducible assumption | (intro _) | extract_lets | with_reducible apply logEvent_keeps | dsimp only

theorem rxWrite_keeps (u0 : State) (n : Nat) (w : RxWait) (bufs : List Nat) (b : List Byte) (err : Nat) (s : State)  (hk : Keeps u0 s) : Keeps u0 (rxWrite n w bufs b err s) := by
  unfold rxWrite
  repeat' first | with_reducible assumption | with_reducible exact id | (intro _) | with_reducible apply keeps_ite | extract_lets
                | with_reducible apply emit_keeps | with_reducible apply setRx_keeps | with_reducible apply keeps_foldl | split
                | with_reducible apply keeps_mk | exact fun _ => rfl | dsimp only

end Sys2Proof.Machine
end

