-- ==== Sys2Proof/Laws/KeepsHostOps.lean ====
section
/-! SUPPORT. What every operation of Machine/HostOps.lean keeps, said once for each: the queue, the outputs made so far, the free values used, the
invariant, protection (Keeps of Safety.lean). -/
set_option Elab.async false
set_option linter.all false
namespace Sys2Proof.Machine
theorem mbxError_keeps (u0 : State) (m : Nat) (kind : Nat) (s : State)  (hk : Keeps u0 s) : Keeps u0 (mbxError m kind s) := by
  unfold mbxError
  repeat' first | with_reducible assumption | with_reducible exact Keeps.rfl | with_reducible exact id | (intro _) | with_reducible apply keeps_ite
                | with_reducible apply keeps_ite_app | with_reducible apply keeps_id | extract_lets | with_reducible apply raise_keeps
                | with_reducible apply logEvent_keeps | with_reducible apply count_keeps | with_reducible apply keeps_foldl
                | with_reducible apply keeps_foldl2 | split | with_reducible apply keeps_mk | exact id | exact fun _ => rfl
                | exact fun i => put_wf _ _ _ _ i | exact put_wf _ _ _ _ (by assumption) | (rw [setBox_len]; assumption)
                | (simp [HostIf.setBox]; done) | (simp_all; done) | assumption | dsimp only

theorem endUnknown_keeps (u0 : State) (m : Nat) (s : State)  (hk : Keeps u0 s) : Keeps u0 (endUnknown m s) := by
  unfold endUnknown
  repeat' first | with_reducible assumption | (intro _) | with_reducible apply keeps_ite | extract_lets | with_reducible apply acs_keeps
                | with_reducible apply acsDone_keeps | with_reducible apply keeps_foldl | with_reducible apply keeps_foldl2 | split | dsimp only

theorem endBatch_keeps (u0 : State) (m : Nat) (s : State)  (hk : Keeps u0 s) : Keeps u0 (endBatch m s) := by
  unfold endBatch
  repeat' first | with_reducible assumption | with_reducible exact Keeps.rfl | with_reducible exact id | (intro _) | with_reducible apply keeps_ite
                | with_reducible apply keeps_ite_app | with_reducible apply keeps_id | extract_lets | with_reducible apply mbxVector_keeps
                | with_reducible apply done_keeps | with_reducible apply keeps_foldl | with_reducible apply keeps_foldl2 | split
                | with_reducible apply keeps_mk | exact id | exact fun _ => rfl | exact fun i => put_wf _ _ _ _ i
                | exact put_wf _ _ _ _ (by assumption) | (rw [setBox_len]; assumption) | (simp [HostIf.setBox]; done) | (simp_all; done)
                | assumption | dsimp only

theorem submit_keeps (u0 : State) (m count_ : Nat) (seq : Half) (agent : Nat) (s : State) (hk : Keeps u0 s) :
    Keeps u0 (submit m count_ seq agent s) := by
  unfold submit
  extract_lets b slots src h src2 s1
  have hs1 : Keeps u0 s1 := count_keeps _ _ _ (keeps_mk s hk (fun i => (setBox_len _ _ _).trans i) id id id id id id id id)
  split
  · exact mbxError_keeps _ _ _ _ hk
  · split
    · exact mbxError_keeps _ _ _ _ hk
    · clear_value s1 slots
      cases slots
      · exact endBatch_keeps _ _ _ (mbxError_keeps _ _ _ _ hs1)
      · exact endUnknown_keeps _ _ _ hs1

theorem abortOne_keeps (u0 : State) (r : AcsRef) (s : State)  (hk : Keeps u0 s) : Keeps u0 (abortOne r s) := by
  unfold abortOne
  repeat' first | with_reducible assumption | (intro _) | extract_lets | with_reducible apply acsDone_keeps | with_reducible apply count_keeps
                | dsimp only

theorem abortBox_keeps (u0 : State) (discard : Bool) (m : Nat) (s : State)  (hk : Keeps u0 s) : Keeps u0 (abortBox discard m s) := by
  unfold abortBox
  repeat' first | with_reducible assumption | with_reducible exact Keeps.rfl | with_reducible exact id | (intro _) | with_reducible apply keeps_ite
                | with_reducible apply keeps_ite_app | with_reducible apply keeps_id | extract_lets | with_reducible apply abortOne_keeps
                | with_reducible apply keeps_foldl | with_reducible apply keeps_foldl2 | split | with_reducible apply keeps_mk | exact id
                | exact fun _ => rfl | exact fun i => put_wf _ _ _ _ i | exact put_wf _ _ _ _ (by assumption) | (rw [setBox_len]; assumption)
                | (simp [HostIf.setBox]; done) | (simp_all; done) | assumption | dsimp only

theorem abortAll_keeps (u0 : State) (discard : Bool) (s : State)  (hk : Keeps u0 s) : Keeps u0 (abortAll discard s) := by
  unfold abortAll
  repeat' first | with_reducible assumption | (intro _) | extract_lets | with_reducible apply abortBox_keeps | with_reducible apply keeps_foldl
                | dsimp only

theorem requestWrite_keeps (u0 : State) (m off : Nat) (data : List Byte) (s : State) (hk : Keeps u0 s) : Keeps u0 (requestWrite m off data s) := by
  unfold requestWrite
  extract_lets d
  split
  · exact hk
  · split
    · exact mbxError_keeps _ _ _ _ hk
    · exact ⟨hk.1, hk.2, hk.3, fun k => ⟨writeList_wf _ _ _ (hk.4 k).1, (hk.4 k).2, (hk.4 k).3, (hk.4 k).4, (hk.4 k).5, (hk.4 k).6, (hk.4 k).7, (hk.4 k).8, (hk.4 k).9, (hk.4 k).10, (hk.4 k).11, (hk.4 k).12, (hk.4 k).13, (hk.4 k).14, (hk.4 k).15⟩, hk.5⟩

theorem clearCause_keeps (u0 : State) (b : CauseBlk) (value : Word) (s : State)  (hk : Keeps u0 s) : Keeps u0 (clearCause b value s) := by
  unfold clearCause
  repeat' first | with_reducible assumption | with_reducible exact Keeps.rfl | with_reducible exact id | (intro _) | with_reducible apply keeps_ite
                | with_reducible apply keeps_ite_app | with_reducible apply keeps_id | extract_lets | with_reducible apply sendVector_keeps
                | with_reducible apply keeps_foldl | with_reducible apply keeps_foldl2 | split | with_reducible apply keeps_mk | exact id
                | exact fun _ => rfl | exact fun i => put_wf _ _ _ _ i | exact put_wf _ _ _ _ (by assumption) | (rw [setBox_len]; assumption)
                | (simp [HostIf.setBox]; done) | (simp_all; done) | assumption | dsimp only

theorem setMask_keeps (u0 : State) (b : CauseBlk) (value : Word) (s : State)  (hk : Keeps u0 s) : Keeps u0 (setMask b value s) := by
  unfold setMask
  repeat' first | with_reducible assumption | with_reducible exact Keeps.rfl | with_reducible exact id | (intro _) | with_reducible apply keeps_ite
                | with_reducible apply keeps_ite_app | with_reducible apply keeps_id | extract_lets | with_reducible apply keeps_foldl
                | with_reducible apply keeps_foldl2 | split | with_reducible apply keeps_mk | exact id | exact fun _ => rfl
                | exact fun i => put_wf _ _ _ _ i | exact put_wf _ _ _ _ (by assumption) | (rw [setBox_len]; assumption)
                | (simp [HostIf.setBox]; done) | (simp_all; done) | assumption | dsimp only

theorem clearMbx_keeps (u0 : State) (m : Nat) (v : Nat) (s : State)  (hk : Keeps u0 s) : Keeps u0 (clearMbx m v s) := by
  unfold clearMbx
  repeat' first | with_reducible assumption | with_reducible exact Keeps.rfl | with_reducible exact id | (intro _) | with_reducible apply keeps_ite
                | with_reducible apply keeps_ite_app | with_reducible apply keeps_id | extract_lets | with_reducible apply done_keeps
                | with_reducible apply sendVector_keeps | with_reducible apply keeps_foldl | with_reducible apply keeps_foldl2 | split
                | with_reducible apply keeps_mk | exact id | exact fun _ => rfl | exact fun i => put_wf _ _ _ _ i
                | exact put_wf _ _ _ _ (by assumption) | (rw [setBox_len]; assumption) | (simp [HostIf.setBox]; done) | (simp_all; done)
                | assumption | dsimp only

theorem causeWrite_keeps (u0 : State) (off : Nat) (value : Word) (s : State)  (hk : Keeps u0 s) : Keeps u0 (causeWrite off value s) := by
  unfold causeWrite
  repeat' first | with_reducible assumption | with_reducible exact id | (intro _) | with_reducible apply keeps_ite | extract_lets
                | with_reducible apply clearMbx_keeps | with_reducible apply clearCause_keeps | split | with_reducible apply keeps_mk
                | exact fun _ => rfl | dsimp only

theorem unmask_keeps (u0 : State) (v : Nat) (s : State)  (hk : Keeps u0 s) : Keeps u0 (unmask v s) := by
  unfold unmask
  repeat' first | with_reducible assumption | with_reducible exact id | (intro _) | with_reducible apply keeps_ite | extract_lets
                | with_reducible apply sendVector_keeps | split | with_reducible apply keeps_mk | exact fun _ => rfl | dsimp only

theorem hostWatch_keeps (u0 : State) (v : Nat) (s : State)  (hk : Keeps u0 s) : Keeps u0 (hostWatch v s) := by
  unfold hostWatch
  repeat' first | with_reducible assumption | with_reducible exact id | (intro _) | with_reducible apply keeps_ite | extract_lets | split
                | with_reducible apply keeps_mk | exact fun _ => rfl | dsimp only

theorem hostLink_keeps (u0 : State) (what : Nat) (s : State)  (hk : Keeps u0 s) : Keeps u0 (hostLink what s) := by
  unfold hostLink
  repeat' first | with_reducible assumption | (intro _) | extract_lets | with_reducible apply logEvent_keeps | dsimp only

theorem hostGone_causes_wf (m : Store CauseReg) (h : Store.wf ({} : CauseReg) m = true) :
    Store.wf ({} : CauseReg) (m.filterMap (fun e => if e.2.cause = 0 then none else some (e.1, { e.2 with mask := 0 }))) = true := by
  simp only [Store.wf, Bool.and_eq_true, sorted_iff, List.all_eq_true, decide_eq_true_eq] at h ⊢
  refine ⟨List.Pairwise.filterMap _ ?_ h.1, ?_⟩
  · intro a b hab x hx y hy
    split at hx
    · cases hx
    · split at hy
      · cases hy
      · cases hx; cases hy; exact hab
  · intro e he
    obtain ⟨a, _, hx⟩ := List.mem_filterMap.1 he
    split at hx
    · cases hx
    · cases hx
      rename_i hc
      intro hd
      exact hc (congrArg CauseReg.cause hd)

theorem hostGone_keeps (u0 : State) (s : State) (hk : Keeps u0 s) : Keeps u0 (hostGone s) := by
  unfold hostGone
  extract_lets s1 boxes causes
  have h : Keeps u0 s1 := abortAll_keeps _ _ _ (stopRings_keeps _ _ hk)
  exact keeps_mk s1 h (fun i => by simpa [boxes] using i) id id id id id id (hostGone_causes_wf _) id

end Sys2Proof.Machine
end

