-- ==== Sys2Proof/Laws/KeepsBridgeOps.lean ====
section
/-! SUPPORT. What every operation of Machine/BridgeOps.lean keeps, said once for each: the queue, the outputs made so far, the free values used, the
invariant, protection (Keeps of Safety.lean). -/
set_option Elab.async false
set_option linter.all false
namespace Sys2Proof.Machine
theorem sendEnvelope_keeps (u0 : State) (h : SbHdr) (body : List Byte) (s : State)  (hk : Keeps u0 s) : Keeps u0 (sendEnvelope h body s) := by
  unfold sendEnvelope
  repeat' first | with_reducible assumption | with_reducible exact id | (intro _) | extract_lets | with_reducible apply forwardPlain_keeps
                | with_reducible apply keeps_mk | exact fun _ => rfl | dsimp only

theorem sendEnvTug_keeps (u0 : State) (l : Nat) (c : TugChan) (b : List Byte) (s : State)  (hk : Keeps u0 s) : Keeps u0 (sendEnvTug l c b s) := by
  unfold sendEnvTug
  repeat' first | with_reducible assumption | with_reducible exact id | (intro _) | extract_lets | with_reducible apply tugSend_keeps
                | with_reducible apply keeps_foldl | with_reducible apply keeps_mk | exact fun _ => rfl | dsimp only

theorem bridgeParity_keeps (u0 : State) (what : Nat) (action : Nat) (s : State)  (hk : Keeps u0 s) : Keeps u0 (bridgeParity what action s) := by
  unfold bridgeParity
  repeat' first | with_reducible assumption | (intro _) | extract_lets | with_reducible apply raise_keeps | with_reducible apply logEvent_keeps
                | with_reducible apply count_keeps | dsimp only

theorem setSession_keeps (u0 : State) (n : Nat) (f : Session → Session) (s : State)  (hk : Keeps u0 s) : Keeps u0 (setSession n f s) := by
  unfold setSession
  repeat' first | with_reducible assumption | with_reducible exact id | (intro _) | extract_lets | with_reducible apply keeps_mk
                | exact fun _ => rfl | dsimp only

theorem sessionSaid_keeps (u0 : State) (n : Nat) (what : Nat) (s : State)  (hk : Keeps u0 s) : Keeps u0 (sessionSaid n what s) := by
  unfold sessionSaid
  repeat' first | with_reducible assumption | (intro _) | extract_lets | with_reducible apply raise_keeps | with_reducible apply logEvent_keeps
                | dsimp only

theorem bridgeLoad_keeps (u0 : State)  (s : State)  (hk : Keeps u0 s) : Keeps u0 (bridgeLoad s) := by
  unfold bridgeLoad
  repeat' first | with_reducible assumption | with_reducible exact id | (intro _) | extract_lets | with_reducible apply keeps_foldl
                | with_reducible apply keeps_mk | exact fun _ => rfl | dsimp only

theorem rebindSessions_keeps (u0 : State)  (s : State)  (hk : Keeps u0 s) : Keeps u0 (rebindSessions s) := by
  unfold rebindSessions
  repeat' first | with_reducible assumption | with_reducible exact id | (intro _) | with_reducible apply keeps_ite | extract_lets
                | with_reducible apply setSession_keeps | with_reducible apply sessionSaid_keeps | with_reducible apply keeps_foldl | split
                | with_reducible apply keeps_mk | exact fun _ => rfl | dsimp only

theorem tunDrop_keeps (u0 : State) (n : Nat) (kind : Nat) (k : Nat) (s : State)  (hk : Keeps u0 s) : Keeps u0 (tunDrop n kind k s) := by
  unfold tunDrop
  repeat' first | with_reducible assumption | with_reducible exact id | (intro _) | with_reducible apply keeps_ite | extract_lets
                | with_reducible apply logEvent_keeps | with_reducible apply countN_keeps | with_reducible apply raise_keeps | split
                | with_reducible apply keeps_mk | exact fun _ => rfl | dsimp only

theorem sendExport_keeps (u0 : State) (n : Nat) (s : State)  (hk : Keeps u0 s) : Keeps u0 (sendExport n s) := by
  unfold sendExport
  repeat' first | with_reducible assumption | with_reducible exact id | (intro _) | with_reducible apply keeps_ite | extract_lets
                | with_reducible apply setSession_keeps | with_reducible apply sendEnvelope_keeps | with_reducible apply countN_keeps
                | with_reducible apply count_keeps | split | with_reducible apply keeps_mk | exact fun _ => rfl | dsimp only

theorem exportItem_keeps (u0 : State) (n : Nat) (item : List Byte) (s : State)  (hk : Keeps u0 s) : Keeps u0 (exportItem n item s) := by
  unfold exportItem
  repeat' first | with_reducible assumption | with_reducible exact id | (intro _) | with_reducible apply keeps_ite | extract_lets
                | with_reducible apply count_keeps | with_reducible apply sendExport_keeps | with_reducible apply setSession_keeps | split
                | with_reducible apply keeps_mk | exact fun _ => rfl | dsimp only

theorem exportCan_keeps (u0 : State) (ch : Nat) (b : Nat) (s : State)  (hk : Keeps u0 s) : Keeps u0 (exportCan ch b s) := by
  unfold exportCan
  try dsimp only
  repeat' first | with_reducible assumption | with_reducible exact Keeps.rfl | with_reducible exact id | (intro _) | with_reducible apply keeps_ite
                | with_reducible apply keeps_ite_app | with_reducible apply keeps_id | with_reducible apply setCan_keeps
                | with_reducible apply setBuf_keeps | with_reducible apply exportItem_keeps | with_reducible apply keeps_foldl
                | with_reducible apply keeps_foldl2 | split | simp only [keeps_mk_iff] | exact id | exact fun _ => rfl
                | exact fun i => put_wf _ _ _ _ i | exact put_wf _ _ _ _ (by assumption) | (rw [setBox_len]; assumption)
                | (simp [HostIf.setBox]; done) | dsimp only

theorem exportPort_keeps (u0 : State) (u : Nat) (addr : Nat) (data : List Byte) (s : State)  (hk : Keeps u0 s) : Keeps u0 (exportPort u addr data s) := by
  unfold exportPort
  repeat' first | with_reducible assumption | with_reducible exact id | (intro _) | with_reducible apply keeps_ite | extract_lets
                | with_reducible apply exportItem_keeps | split | with_reducible apply keeps_mk | exact fun _ => rfl | dsimp only

theorem takeMessage_keeps (u0 : State) (u : Nat) (src : Nat) (dst : Nat) (data : List Byte) (s : State)  (hk : Keeps u0 s) : Keeps u0 (takeMessage u src dst data s) := by
  unfold takeMessage
  repeat' first | with_reducible assumption | with_reducible exact id | (intro _) | with_reducible apply keeps_ite | extract_lets
                | with_reducible apply count_keeps | with_reducible apply exportItem_keeps | with_reducible apply legMessage_keeps | split
                | with_reducible apply keeps_mk | exact fun _ => rfl | dsimp only

theorem popImport_keeps (u0 : State) (n : Nat) (s : State)  (hk : Keeps u0 s) : Keeps u0 (popImport n s) := by
  unfold popImport
  repeat' first | with_reducible assumption | with_reducible exact id | (intro _) | extract_lets | with_reducible apply setSession_keeps
                | with_reducible apply keeps_mk | exact fun _ => rfl | dsimp only

theorem importOne_keeps (u0 : State) (n : Nat) (s : State)  (hk : Keeps u0 s) : Keeps u0 (importOne n s) := by
  unfold importOne
  repeat' first | with_reducible assumption | with_reducible exact id | (intro _) | with_reducible apply keeps_ite | extract_lets
                | with_reducible apply tunDrop_keeps | with_reducible apply popImport_keeps | with_reducible apply count_keeps
                | with_reducible apply setSession_keeps | with_reducible apply canRequest_keeps | with_reducible apply queueMessage_keeps
                | with_reducible apply legCommit_keeps | split | with_reducible apply keeps_mk | exact fun _ => rfl | dsimp only

theorem importPlace_keeps (u0 : State) (n : Nat) (s : State)  (hk : Keeps u0 s) : Keeps u0 (importPlace n s) := by
  unfold importPlace
  repeat' first | with_reducible assumption | with_reducible exact id | (intro _) | with_reducible apply keeps_ite | extract_lets
                | with_reducible apply tunDrop_keeps | with_reducible apply setSession_keeps | with_reducible apply importOne_keeps
                | with_reducible apply keeps_foldl | split | with_reducible apply keeps_mk | exact fun _ => rfl | dsimp only

theorem importAll_keeps (u0 : State)  (s : State)  (hk : Keeps u0 s) : Keeps u0 (importAll s) := by
  unfold importAll
  repeat' first | with_reducible assumption | (intro _) | extract_lets | with_reducible apply importPlace_keeps | with_reducible apply keeps_foldl
                | dsimp only

theorem takeTunnel_keeps (u0 : State) (b : List Byte) (s : State)  (hk : Keeps u0 s) : Keeps u0 (takeTunnel b s) := by
  unfold takeTunnel
  repeat' first | with_reducible assumption | with_reducible exact id | (intro _) | with_reducible apply keeps_ite | extract_lets
                | with_reducible apply count_keeps | with_reducible apply countN_keeps | with_reducible apply setSession_keeps
                | with_reducible apply importPlace_keeps | with_reducible apply tunDrop_keeps | split | with_reducible apply keeps_mk
                | exact fun _ => rfl | dsimp only

theorem takeTag_keeps (u0 : State) (tag : Nat) (s : State)  (hk : Keeps u0 s) : Keeps u0 (takeTag tag s) := by
  unfold takeTag
  repeat' first | with_reducible assumption | with_reducible exact id | (intro _) | with_reducible apply keeps_ite | extract_lets | split
                | with_reducible apply keeps_mk | exact fun _ => rfl | dsimp only

theorem freeTag_keeps (u0 : State) (reqId : Nat) (s : State)  (hk : Keeps u0 s) : Keeps u0 (freeTag reqId s) := by
  unfold freeTag
  repeat' first | with_reducible assumption | with_reducible exact id | (intro _) | extract_lets | with_reducible apply keeps_mk
                | exact fun _ => rfl | dsimp only

theorem sendRead_keeps (u0 : State) (o : OpenRead) (resend : Bool) (s : State)  (hk : Keeps u0 s) : Keeps u0 (sendRead o resend s) := by
  unfold sendRead
  repeat' first | with_reducible assumption | with_reducible exact id | (intro _) | extract_lets | with_reducible apply sendEnvelope_keeps
                | with_reducible apply count_keeps | with_reducible apply keeps_mk | exact fun _ => rfl | dsimp only

theorem endRead_keeps (u0 : State) (o : OpenRead) (acsStatus : Nat) (r : ReadResult) (s : State)  (hk : Keeps u0 s) : Keeps u0 (endRead o acsStatus r s) := by
  unfold endRead
  repeat' first | with_reducible assumption | with_reducible exact id | (intro _) | with_reducible apply keeps_ite | extract_lets
                | with_reducible apply freeTag_keeps | with_reducible apply acsDone_keeps | with_reducible apply raise_keeps | split
                | with_reducible apply keeps_mk | exact fun _ => rfl | dsimp only

theorem takeResponse_keeps (u0 : State) (b : List Byte) (s : State)  (hk : Keeps u0 s) : Keeps u0 (takeResponse b s) := by
  unfold takeResponse
  repeat' first | with_reducible assumption | with_reducible exact id | (intro _) | with_reducible apply keeps_ite | extract_lets
                | with_reducible apply endRead_keeps | with_reducible apply count_keeps | with_reducible apply logEvent_keeps | split
                | with_reducible apply keeps_mk | exact fun _ => rfl | dsimp only

theorem respond_keeps (u0 : State) (who : Asker) (status : Nat) (stamp : Nat) (data : List Byte) (s : State)  (hk : Keeps u0 s) : Keeps u0 (respond who status stamp data s) := by
  unfold respond
  repeat' first | with_reducible assumption | with_reducible exact id | (intro _) | with_reducible apply keeps_ite | extract_lets
                | with_reducible apply count_keeps | with_reducible apply takeResponse_keeps | with_reducible apply sendEnvTug_keeps
                | with_reducible apply sendEnvelope_keeps | with_reducible apply keeps_foldl | split | with_reducible apply keeps_mk
                | exact fun _ => rfl | dsimp only

theorem txnPlace_keeps (u0 : State) (ch : Nat) (s : State)  (hk : Keeps u0 s) : Keeps u0 (txnPlace ch s) := by
  unfold txnPlace
  repeat' first | with_reducible assumption | with_reducible exact id | (intro _) | with_reducible apply keeps_ite | extract_lets
                | with_reducible apply canRequest_keeps | split | with_reducible apply keeps_mk | exact fun _ => rfl | dsimp only

theorem txnSent_keeps (u0 : State) (ch : Nat) (b : Nat) (s : State)  (hk : Keeps u0 s) : Keeps u0 (txnSent ch b s) := by
  unfold txnSent
  repeat' first | with_reducible assumption | with_reducible exact id | (intro _) | with_reducible apply keeps_ite | extract_lets
                | with_reducible apply txnPlace_keeps | split | with_reducible apply keeps_mk | exact fun _ => rfl | dsimp only

theorem txnMatch_keeps (u0 : State) (ch : Nat) (f : CanFrame) (sof : Nat) (s : State)  (hk : Keeps u0 s) : Keeps u0 (txnMatch ch f sof s) := by
  unfold txnMatch
  repeat' first | with_reducible assumption | with_reducible exact id | (intro _) | with_reducible apply keeps_ite | extract_lets
                | with_reducible apply respond_keeps | split | with_reducible apply keeps_mk | exact fun _ => rfl | dsimp only

theorem bridgeStop_keeps (u0 : State)  (s : State)  (hk : Keeps u0 s) : Keeps u0 (bridgeStop s) := by
  unfold bridgeStop
  repeat' first | with_reducible assumption | with_reducible exact id | (intro _) | with_reducible apply keeps_ite | extract_lets
                | with_reducible apply freeTag_keeps | with_reducible apply acsDone_keeps | with_reducible apply keeps_foldl | split
                | with_reducible apply keeps_mk | exact fun _ => rfl | dsimp only

theorem bridgeOwnerChange_keeps (u0 : State)  (s : State)  (hk : Keeps u0 s) : Keeps u0 (bridgeOwnerChange s) := by
  unfold bridgeOwnerChange
  repeat' first | with_reducible assumption | with_reducible exact id | (intro _) | with_reducible apply keeps_ite | extract_lets | split
                | with_reducible apply keeps_mk | exact fun _ => rfl | dsimp only

end Sys2Proof.Machine
end

