-- ==== Sys2Proof/Laws/KeepsStudbook.lean ====
section
/-! SUPPORT. What every operation of Machine/Studbook.lean keeps, said once for each: the queue, the outputs made so far, the free values used, the
invariant, protection (Keeps of Safety.lean). -/
set_option Elab.async false
set_option linter.all false
namespace Sys2Proof.Machine
theorem sendWitness_keeps (u0 : State) (slot : List Byte) (s : State)  (hk : Keeps u0 s) : Keeps u0 (sendWitness slot s) := by
  unfold sendWitness
  repeat' first | with_reducible assumption | with_reducible exact id | (intro _) | with_reducible apply keeps_ite | extract_lets
                | with_reducible apply sendBackbone_keeps | with_reducible apply useFree_keeps | with_reducible apply tugAll_keeps | split
                | with_reducible apply keeps_mk | exact fun _ => rfl | dsimp only

theorem witness_keeps (u0 : State) (r : Rec) (s : State)  (hk : Keeps u0 s) : Keeps u0 (witness r s) := by
  unfold witness
  repeat' first | with_reducible assumption | with_reducible exact id | (intro _) | with_reducible apply keeps_ite | extract_lets
                | with_reducible apply sendWitness_keeps | with_reducible apply count_keeps | split | with_reducible apply keeps_mk
                | exact fun _ => rfl | dsimp only

theorem finishWaits_keeps (u0 : State) (seq : Nat) (status : Nat) (s : State)  (hk : Keeps u0 s) : Keeps u0 (finishWaits seq status s) := by
  unfold finishWaits
  repeat' first | with_reducible assumption | with_reducible exact id | (intro _) | extract_lets | with_reducible apply acsDone_keeps
                | with_reducible apply count_keeps | with_reducible apply keeps_foldl | with_reducible apply keeps_mk | exact fun _ => rfl
                | dsimp only

theorem committed_keeps (u0 : State) (r : Rec) (status : Nat) (s : State)  (hk : Keeps u0 s) : Keeps u0 (committed r status s) := by
  unfold committed
  repeat' first | with_reducible assumption | (intro _) | with_reducible apply keeps_ite | extract_lets | with_reducible apply count_keeps
                | with_reducible apply finishWaits_keeps | with_reducible apply raise_keeps | split | dsimp only

theorem lastWords_keeps (u0 : State) (r : Rec) (keep : Bool) (s : State)  (hk : Keeps u0 s) : Keeps u0 (lastWords r keep s) := by
  unfold lastWords
  repeat' first | with_reducible assumption | with_reducible exact id | (intro _) | with_reducible apply keeps_ite | extract_lets
                | with_reducible apply count_keeps | with_reducible apply committed_keeps | with_reducible apply witness_keeps | split
                | with_reducible apply keeps_mk | exact fun _ => rfl | dsimp only

theorem queueDropDue_keeps (u0 : State)  (s : State)  (hk : Keeps u0 s) : Keeps u0 (queueDropDue s) := by
  unfold queueDropDue
  repeat' first | with_reducible assumption | with_reducible exact id | (intro _) | with_reducible apply keeps_ite | extract_lets
                | with_reducible apply logQueue_keeps | split | with_reducible apply keeps_mk | exact fun _ => rfl | dsimp only

theorem degradeDie_keeps (u0 : State) (die : Nat) (s : State)  (hk : Keeps u0 s) : Keeps u0 (degradeDie die s) := by
  unfold degradeDie
  repeat' first | with_reducible assumption | with_reducible exact id | (intro _) | with_reducible apply keeps_ite | extract_lets
                | with_reducible apply raise_keeps | with_reducible apply count_keeps | split | with_reducible apply keeps_mk | exact fun _ => rfl
                | dsimp only

theorem mediaFault_keeps (u0 : State) (die : Nat) (r : Rec) (s : State)  (hk : Keeps u0 s) : Keeps u0 (mediaFault die r s) := by
  unfold mediaFault
  repeat' first | with_reducible assumption | with_reducible exact id | (intro _) | extract_lets | with_reducible apply raise_keeps
                | with_reducible apply lastWords_keeps | with_reducible apply keeps_mk | exact fun _ => rfl | dsimp only

theorem commitRecord_keeps (u0 : State) (r : Rec) (ok0 : Bool) (ok1 : Bool) (s : State)  (hk : Keeps u0 s) : Keeps u0 (commitRecord r ok0 ok1 s) := by
  unfold commitRecord
  try dsimp only
  repeat' first | with_reducible assumption | with_reducible exact Keeps.rfl | with_reducible exact id | (intro _) | with_reducible apply keeps_ite
                | with_reducible apply keeps_ite_app | with_reducible apply keeps_id | with_reducible apply mediaFault_keeps
                | with_reducible apply lastWords_keeps | with_reducible apply count_keeps | with_reducible apply degradeDie_keeps
                | with_reducible apply setResource_keeps | with_reducible apply committed_keeps | with_reducible apply raise_keeps
                | with_reducible apply logEvent_keeps | with_reducible apply keeps_foldl | with_reducible apply keeps_foldl2 | split
                | simp only [keeps_mk_iff] | exact id | exact fun _ => rfl | exact fun i => put_wf _ _ _ _ i | exact put_wf _ _ _ _ (by assumption)
                | (rw [setBox_len]; assumption) | (simp [HostIf.setBox]; done) | dsimp only

theorem execRecordCommitDone_keeps (ok0 : Bool) (ok1 : Bool) (s s9 : State) (hk : execRecordCommitDone ok0 ok1 s = .next s9) : Keeps s s9 := by
  unfold execRecordCommitDone at hk
  cases hk
  repeat' first | with_reducible assumption | with_reducible exact Keeps.rfl | with_reducible exact id | (intro _) | with_reducible apply keeps_ite
                | extract_lets | with_reducible apply releaseFences_keeps | with_reducible apply queueDropDue_keeps
                | with_reducible apply commitRecord_keeps | split | with_reducible apply keeps_mk | exact fun _ => rfl | dsimp only

theorem execRateSummary_keeps (limiter : Nat) (s s9 : State) (hk : execRateSummary limiter s = .next s9) : Keeps s s9 := by
  unfold execRateSummary at hk
  cases hk
  repeat' first | with_reducible assumption | with_reducible exact Keeps.rfl | with_reducible exact id | (intro _) | with_reducible apply keeps_ite
                | extract_lets | with_reducible apply logQueue_keeps | with_reducible apply setLimiter_keeps | split | with_reducible apply keeps_mk
                | exact fun _ => rfl | dsimp only

theorem execWitnessRepeat_keeps  (s s9 : State) (hk : execWitnessRepeat s = .next s9) : Keeps s s9 := by
  unfold execWitnessRepeat at hk
  cases hk
  repeat' first | with_reducible assumption | with_reducible exact Keeps.rfl | with_reducible exact id | (intro _) | with_reducible apply keeps_ite
                | extract_lets | with_reducible apply sendWitness_keeps | split | with_reducible apply keeps_mk | exact fun _ => rfl | dsimp only

theorem storeWitness_keeps (u0 : State) (src : Nid) (gen : Word) (slot : List Byte) (s : State)  (hk : Keeps u0 s) : Keeps u0 (storeWitness src gen slot s) := by
  unfold storeWitness
  repeat' first | with_reducible assumption | with_reducible exact id | (intro _) | with_reducible apply keeps_ite | extract_lets
                | with_reducible apply raise_keeps | with_reducible apply count_keeps | with_reducible apply logQueue_keeps
                | with_reducible apply setLimiter_keeps | split | with_reducible apply keeps_mk | exact fun _ => rfl | dsimp only

theorem execWitnessReceive_keeps (src : Nid) (gen : Word) (slot : List Byte) (s s9 : State) (hk : execWitnessReceive src gen slot s = .next s9) : Keeps s s9 := by
  unfold execWitnessReceive at hk
  cases hk
  repeat' first | with_reducible assumption | with_reducible exact Keeps.rfl | (intro _) | with_reducible apply keeps_ite | extract_lets
                | with_reducible apply storeWitness_keeps | split | dsimp only

theorem badCopy_keeps (u0 : State) (b : BadCopy) (s : State)  (hk : Keeps u0 s) : Keeps u0 (badCopy b s) := by
  unfold badCopy
  repeat' first | with_reducible assumption | with_reducible exact id | (intro _) | with_reducible apply keeps_ite | extract_lets
                | with_reducible apply count_keeps | with_reducible apply logEvent_keeps | split | with_reducible apply keeps_mk
                | exact fun _ => rfl | dsimp only

theorem execScrubPass_keeps (area : Nat) (slots : Nat) (bad : List BadCopy) (s s9 : State) (hk : execScrubPass area slots bad s = .next s9) : Keeps s s9 := by
  unfold execScrubPass at hk
  cases hk
  repeat' first | with_reducible assumption | with_reducible exact Keeps.rfl | (intro _) | with_reducible apply keeps_ite | extract_lets
                | with_reducible apply badCopy_keeps | with_reducible apply logEvent_keeps | with_reducible apply count_keeps
                | with_reducible apply keeps_foldl | split | dsimp only

theorem execRecoveryScan_keeps (durationMs : Nat) (s s9 : State) (hk : execRecoveryScan durationMs s = .next s9) : Keeps s s9 := by
  unfold execRecoveryScan at hk
  cases hk
  repeat' first | with_reducible assumption | with_reducible exact Keeps.rfl | with_reducible exact id | (intro _) | with_reducible apply keeps_ite
                | extract_lets | with_reducible apply raise_keeps | with_reducible apply logEvent_keeps | split | with_reducible apply keeps_mk
                | exact fun _ => rfl | dsimp only

theorem execWholeRegionScanDone_keeps (durationMs : Nat) (s s9 : State) (hk : execWholeRegionScanDone durationMs s = .next s9) : Keeps s s9 := by
  unfold execWholeRegionScanDone at hk
  cases hk
  repeat' first | with_reducible assumption | with_reducible exact Keeps.rfl | with_reducible exact id | (intro _) | with_reducible apply keeps_ite
                | extract_lets | with_reducible apply raise_keeps | with_reducible apply logEvent_keeps | split | with_reducible apply keeps_mk
                | exact fun _ => rfl | dsimp only

theorem execLogRead_keeps (c : Acs) (bad : List BadCopy) (s s9 : State) (hk : execLogRead c bad s = .next s9) : Keeps s s9 := by
  unfold execLogRead at hk
  cases hk
  repeat' first | with_reducible assumption | with_reducible exact Keeps.rfl | with_reducible exact id | (intro _) | with_reducible apply keeps_ite
                | extract_lets | with_reducible apply acsLen_keeps | with_reducible apply badArgIf_keeps | with_reducible apply done_keeps
                | with_reducible apply mediaFault_keeps | with_reducible apply badCopy_keeps | with_reducible apply lastWords_keeps
                | with_reducible apply keeps_foldl | split | with_reducible apply keeps_mk | exact fun _ => rfl | dsimp only

theorem hostRecord_keeps (u0 : State) (r : AcsRef) (code : Nat) (sev : Nat) (pay : List Byte) (s : State)  (hk : Keeps u0 s) : Keeps u0 (hostRecord r code sev pay s) := by
  unfold hostRecord
  repeat' first | with_reducible assumption | with_reducible exact id | (intro _) | with_reducible apply keeps_ite | extract_lets
                | with_reducible apply logWith_keeps | with_reducible apply mediaFault_keeps | with_reducible apply acsDone_keeps | split
                | with_reducible apply keeps_mk | exact fun _ => rfl | dsimp only

theorem logRelease_keeps (u0 : State)  (s : State)  (hk : Keeps u0 s) : Keeps u0 (logRelease s) := by
  unfold logRelease
  repeat' first | with_reducible assumption | with_reducible exact id | (intro _) | with_reducible apply keeps_ite | extract_lets
                | with_reducible apply hostRecord_keeps | with_reducible apply logWith_keeps | with_reducible apply witness_keeps
                | with_reducible apply keeps_foldl | split | with_reducible apply keeps_mk | exact fun _ => rfl | dsimp only

theorem execLogWrite_keeps (c : Acs) (s s9 : State) (hk : execLogWrite c s = .next s9) : Keeps s s9 := by
  unfold execLogWrite at hk
  cases hk
  repeat' first | with_reducible assumption | with_reducible exact Keeps.rfl | with_reducible exact id | (intro _) | with_reducible apply keeps_ite
                | extract_lets | with_reducible apply acs_keeps | with_reducible apply done_keeps | with_reducible apply badArgIf_keeps
                | with_reducible apply witness_keeps | with_reducible apply hostRecord_keeps | split | with_reducible apply keeps_mk
                | exact fun _ => rfl | dsimp only

theorem execLogStatus_keeps (c : Acs) (s s9 : State) (hk : execLogStatus c s = .next s9) : Keeps s s9 := by
  unfold execLogStatus at hk
  cases hk
  repeat' first | with_reducible assumption | with_reducible exact Keeps.rfl | (intro _) | extract_lets | with_reducible apply acsLen_keeps
                | with_reducible apply done_keeps | with_reducible apply lastWords_keeps | dsimp only

theorem useAuth_keeps (u0 : State) (m opcode : Nat) (s : State) (hk : Keeps u0 s) : Keeps u0 (useAuth m opcode s) :=
  keeps_sec s _ hk ⟨id, Nat.le_refl _, Nat.le_refl _, fun _ h => h⟩ id id id id id id

theorem repartition_keeps (u0 : State)  (s : State)  (hk : Keeps u0 s) : Keeps u0 (repartition s) := by
  unfold repartition
  repeat' first | with_reducible assumption | with_reducible exact id | (intro _) | with_reducible apply keeps_ite | extract_lets
                | with_reducible apply logEvent_keeps | split | with_reducible apply keeps_mk | exact fun _ => rfl | dsimp only

theorem execLogClear_keeps (c : Acs) (s s9 : State) (hk : execLogClear c s = .next s9) : Keeps s s9 := by
  unfold execLogClear at hk
  cases hk
  repeat' first | with_reducible assumption | with_reducible exact Keeps.rfl | with_reducible exact id | (intro _) | with_reducible apply keeps_ite
                | extract_lets | with_reducible apply acsLen_keeps | with_reducible apply badArgIf_keeps | with_reducible apply done_keeps
                | with_reducible apply mediaFault_keeps | with_reducible apply lastWords_keeps | with_reducible apply useAuth_keeps
                | with_reducible apply logEvent_keeps | split | with_reducible apply keeps_mk | exact fun _ => rfl | dsimp only

theorem execLogMedia_keeps (c : Acs) (verified : Bool) (s s9 : State) (hk : execLogMedia c verified s = .next s9) : Keeps s s9 := by
  unfold execLogMedia at hk
  cases hk
  repeat' first | with_reducible assumption | with_reducible exact Keeps.rfl | with_reducible exact id | (intro _) | with_reducible apply keeps_ite
                | extract_lets | with_reducible apply acsLen_keeps | with_reducible apply badArgIf_keeps | with_reducible apply done_keeps
                | with_reducible apply setResource_keeps | with_reducible apply logEvent_keeps | split | with_reducible apply keeps_mk
                | exact fun _ => rfl | dsimp only

end Sys2Proof.Machine
end

