-- ==== Sys2Proof/Laws/KeepsWranglerOps.lean ====
section
/-! SUPPORT. What every operation of Machine/WranglerOps.lean keeps, said once for each: the queue, the outputs made so far, the free values used, the
invariant, protection (Keeps of Safety.lean). -/
set_option Elab.async false
set_option linter.all false
namespace Sys2Proof.Machine
theorem wrSay_keeps (u0 : State) (code : Nat) (sev : Nat) (pay : List Byte) (bit_ : Option Nat) (s : State)  (hk : Keeps u0 s) : Keeps u0 (wrSay code sev pay bit_ s) := by
  unfold wrSay
  repeat' first | with_reducible assumption | with_reducible exact id | (intro _) | with_reducible apply keeps_ite | extract_lets
                | with_reducible apply logEvent_keeps | with_reducible apply raise_keeps | split | with_reducible apply keeps_mk
                | exact fun _ => rfl | dsimp only

theorem wrMeasure_keeps (u0 : State) (n : Nat) (ns : Nat) (s : State)  (hk : Keeps u0 s) : Keeps u0 (wrMeasure n ns s) := by
  unfold wrMeasure
  repeat' first | with_reducible assumption | with_reducible exact id | (intro _) | extract_lets | with_reducible apply keeps_mk
                | exact fun _ => rfl | dsimp only

theorem setMig_keeps (u0 : State) (n : Nat) (f : Migration → Migration) (s : State)  (hk : Keeps u0 s) : Keeps u0 (setMig n f s) := by
  unfold setMig
  repeat' first | with_reducible assumption | with_reducible exact id | (intro _) | with_reducible apply keeps_ite | extract_lets | split
                | with_reducible apply keeps_mk | exact fun _ => rfl | dsimp only

theorem dropMig_keeps (u0 : State) (n : Nat) (s : State)  (hk : Keeps u0 s) : Keeps u0 (dropMig n s) := by
  unfold dropMig
  repeat' first | with_reducible assumption | with_reducible exact id | (intro _) | extract_lets | with_reducible apply keeps_mk
                | exact fun _ => rfl | dsimp only

theorem wrTell_keeps (u0 : State) (step : Nat) (nid : Nid) (data : List Byte) (s : State)  (hk : Keeps u0 s) : Keeps u0 (wrTell step nid data s) := by
  unfold wrTell
  repeat' first | with_reducible assumption | (intro _) | extract_lets | with_reducible apply tugAll_keeps | with_reducible apply keeps_foldl
                | dsimp only

theorem wrSend_keeps (u0 : State) (msg : Nat) (kind : Nat) (round : Nat) (body : List Byte) (s : State)  (hk : Keeps u0 s) : Keeps u0 (wrSend msg kind round body s) := by
  unfold wrSend
  repeat' first | with_reducible assumption | with_reducible exact id | (intro _) | with_reducible apply keeps_ite | extract_lets
                | with_reducible apply sendBackbone_keeps | with_reducible apply useFree_keeps | split | with_reducible apply keeps_mk
                | exact fun _ => rfl | dsimp only

theorem openRound_keeps (u0 : State) (kind : Nat) (round : Nat) (reports : List (Nid × List Byte)) (s : State)  (hk : Keeps u0 s) : Keeps u0 (openRound kind round reports s) := by
  unfold openRound
  repeat' first | with_reducible assumption | with_reducible exact id | (intro _) | extract_lets | with_reducible apply keeps_mk
                | exact fun _ => rfl | dsimp only

theorem startWrRound_keeps (u0 : State) (kind : Nat) (round : Nat) (others : List (Nid × List Byte)) (s : State)  (hk : Keeps u0 s) : Keeps u0 (startWrRound kind round others s) := by
  unfold startWrRound
  repeat' first | with_reducible assumption | with_reducible exact id | (intro _) | with_reducible apply keeps_ite | extract_lets
                | with_reducible apply openRound_keeps | with_reducible apply wrTell_keeps | with_reducible apply wrSend_keeps | split
                | with_reducible apply keeps_mk | exact fun _ => rfl | dsimp only

theorem membershipRound_keeps (u0 : State)  (s : State)  (hk : Keeps u0 s) : Keeps u0 (membershipRound s) := by
  unfold membershipRound
  repeat' first | with_reducible assumption | (intro _) | extract_lets | with_reducible apply startWrRound_keeps | dsimp only

theorem wrCheck_keeps (u0 : State)  (s : State)  (hk : Keeps u0 s) : Keeps u0 (wrCheck s) := by
  unfold wrCheck
  repeat' first | with_reducible assumption | with_reducible exact id | (intro _) | with_reducible apply keeps_ite | extract_lets
                | with_reducible apply membershipRound_keeps | split | with_reducible apply keeps_mk | exact fun _ => rfl | dsimp only

theorem takeReport_keeps (u0 : State) (nid : Nid) (m : List Byte) (s0 : State)  (hk : Keeps u0 s0) : Keeps u0 (takeReport nid m s0) := by
  unfold takeReport
  repeat' first | with_reducible assumption | with_reducible exact id | (intro _) | with_reducible apply keeps_ite | extract_lets
                | with_reducible apply startWrRound_keeps | split | with_reducible apply keeps_mk | exact fun _ => rfl | dsimp only

theorem takeOwnReport_keeps (u0 : State) (m : List Byte) (s : State)  (hk : Keeps u0 s) : Keeps u0 (takeOwnReport m s) := by
  unfold takeOwnReport
  repeat' first | with_reducible assumption | with_reducible exact id | (intro _) | with_reducible apply keeps_ite | extract_lets
                | with_reducible apply openRound_keeps | split | with_reducible apply keeps_mk | exact fun _ => rfl | dsimp only

theorem takeVerdict_keeps (u0 : State) (nid : Nid) (m : List Byte) (s : State)  (hk : Keeps u0 s) : Keeps u0 (takeVerdict nid m s) := by
  unfold takeVerdict
  repeat' first | with_reducible assumption | with_reducible exact id | (intro _) | with_reducible apply keeps_ite | extract_lets | split
                | with_reducible apply keeps_mk | exact fun _ => rfl | dsimp only

theorem wrMig_keeps (u0 : State) (msg : Nat) (id : Nat) (part : Nat) (last : Nat) (cycle : Nat) (peer : Nid) (data : List Byte) (s : State)  (hk : Keeps u0 s) : Keeps u0 (wrMig msg id part last cycle peer data s) := by
  unfold wrMig
  repeat' first | with_reducible assumption | (intro _) | extract_lets | with_reducible apply wrSend_keeps | dsimp only

theorem sendBank_keeps (u0 : State) (part : Nat) (cycle : Nat) (m : Migration) (b : List Byte) (s : State)  (hk : Keeps u0 s) : Keeps u0 (sendBank part cycle m b s) := by
  unfold sendBank
  repeat' first | with_reducible assumption | (intro _) | extract_lets | with_reducible apply wrMig_keeps | with_reducible apply keeps_foldl
                | dsimp only

theorem sendDelta_keeps (u0 : State) (cycle : Nat) (m : Migration) (new : List Byte) (s : State)  (hk : Keeps u0 s) : Keeps u0 (sendDelta cycle m new s) := by
  unfold sendDelta
  repeat' first | with_reducible assumption | (intro _) | extract_lets | with_reducible apply wrMig_keeps | with_reducible apply keeps_foldl
                | dsimp only

theorem sendRelease_keeps (u0 : State) (n : Nat) (s : State)  (hk : Keeps u0 s) : Keeps u0 (sendRelease n s) := by
  unfold sendRelease
  repeat' first | with_reducible assumption | with_reducible exact id | (intro _) | with_reducible apply keeps_ite | extract_lets
                | with_reducible apply sendBank_keeps | with_reducible apply wrMig_keeps | split | with_reducible apply keeps_mk
                | exact fun _ => rfl | dsimp only

theorem migrateOut_keeps (u0 : State) (n : Nat) (id : Nat) (peer : Nid) (s : State)  (hk : Keeps u0 s) : Keeps u0 (migrateOut n id peer s) := by
  unfold migrateOut
  repeat' first | with_reducible assumption | with_reducible exact id | (intro _) | extract_lets | with_reducible apply wrSay_keeps
                | with_reducible apply setTask_keeps | with_reducible apply keeps_mk | exact fun _ => rfl | dsimp only

theorem migrateIn_keeps (u0 : State) (n : Nat) (id : Nat) (peer : Nid) (s : State)  (hk : Keeps u0 s) : Keeps u0 (migrateIn n id peer s) := by
  unfold migrateIn
  repeat' first | with_reducible assumption | with_reducible exact id | (intro _) | with_reducible apply keeps_ite | extract_lets
                | with_reducible apply wrSay_keeps | with_reducible apply enableSubs_keeps | with_reducible apply assignPair_keeps
                | with_reducible apply setTask_keeps | split | with_reducible apply keeps_mk | exact fun _ => rfl | dsimp only

theorem leaveTask_keeps (u0 : State) (n : Nat) (st : TaskSt) (owner : Nid) (s : State)  (hk : Keeps u0 s) : Keeps u0 (leaveTask n st owner s) := by
  unfold leaveTask
  repeat' first | with_reducible assumption | with_reducible exact id | (intro _) | with_reducible apply keeps_ite | extract_lets
                | with_reducible apply setTask_keeps | with_reducible apply haltTask_keeps | with_reducible apply enableSubs_keeps
                | with_reducible apply enablePubs_keeps | split | with_reducible apply keeps_mk | exact fun _ => rfl | dsimp only

theorem abortOut_keeps (u0 : State) (n : Nat) (cause : Nat) (s : State)  (hk : Keeps u0 s) : Keeps u0 (abortOut n cause s) := by
  unfold abortOut
  repeat' first | with_reducible assumption | with_reducible exact id | (intro _) | with_reducible apply keeps_ite | extract_lets
                | with_reducible apply enableSubs_keeps | with_reducible apply enablePubs_keeps | with_reducible apply assignPair_keeps
                | with_reducible apply setTask_keeps | with_reducible apply dropMig_keeps | with_reducible apply wrSay_keeps
                | with_reducible apply wrMig_keeps | split | with_reducible apply keeps_mk | exact fun _ => rfl | dsimp only

theorem dropIn_keeps (u0 : State) (n : Nat) (owner : Nid) (s : State)  (hk : Keeps u0 s) : Keeps u0 (dropIn n owner s) := by
  unfold dropIn
  repeat' first | with_reducible assumption | (intro _) | with_reducible apply keeps_ite | extract_lets | with_reducible apply dropMig_keeps
                | with_reducible apply leaveTask_keeps | split | dsimp only

theorem sourceLost_keeps (u0 : State) (n : Nat) (s : State)  (hk : Keeps u0 s) : Keeps u0 (sourceLost n s) := by
  unfold sourceLost
  repeat' first | with_reducible assumption | with_reducible exact id | (intro _) | with_reducible apply keeps_ite | extract_lets
                | with_reducible apply dropIn_keeps | split | with_reducible apply keeps_mk | exact fun _ => rfl | dsimp only

theorem wrPeersGone_keeps (u0 : State) (gone : Nid → Bool) (s : State)  (hk : Keeps u0 s) : Keeps u0 (wrPeersGone gone s) := by
  unfold wrPeersGone
  repeat' first | with_reducible assumption | (intro _) | with_reducible apply keeps_ite | extract_lets | with_reducible apply abortOut_keeps
                | with_reducible apply sourceLost_keeps | with_reducible apply keeps_foldl | split | dsimp only

theorem wrLeave_keeps (u0 : State)  (s : State)  (hk : Keeps u0 s) : Keeps u0 (wrLeave s) := by
  unfold wrLeave
  repeat' first | with_reducible assumption | with_reducible exact id | (intro _) | with_reducible apply keeps_ite | extract_lets
                | with_reducible apply dropMig_keeps | with_reducible apply dropIn_keeps | with_reducible apply keeps_foldl | split
                | with_reducible apply keeps_mk | exact fun _ => rfl | dsimp only

theorem takeExact_keeps (u0 : State) (n : Nat) (s : State)  (hk : Keeps u0 s) : Keeps u0 (takeExact n s) := by
  unfold takeExact
  repeat' first | with_reducible assumption | with_reducible exact id | (intro _) | with_reducible apply keeps_ite | extract_lets
                | with_reducible apply setTask_keeps | with_reducible apply committed_keeps | with_reducible apply setMig_keeps | split
                | with_reducible apply keeps_mk | exact fun _ => rfl | dsimp only

theorem ackCycles_keeps (u0 : State) (n : Nat) (before : Option Nat) (done_ : List Nat) (s : State)  (hk : Keeps u0 s) : Keeps u0 (ackCycles n before done_ s) := by
  unfold ackCycles
  repeat' first | with_reducible assumption | with_reducible exact id | (intro _) | with_reducible apply keeps_ite | extract_lets
                | with_reducible apply wrMig_keeps | with_reducible apply keeps_foldl | split | with_reducible apply keeps_mk | exact fun _ => rfl
                | dsimp only

theorem takeState_keeps (u0 : State) (nid : Nid) (b : List Byte) (s : State)  (hk : Keeps u0 s) : Keeps u0 (takeState nid b s) := by
  unfold takeState
  try dsimp only
  repeat' first | with_reducible assumption | with_reducible exact Keeps.rfl | with_reducible exact id | (intro _) | with_reducible apply keeps_ite
                | with_reducible apply keeps_ite_app | with_reducible apply keeps_id | with_reducible apply wrMig_keeps
                | with_reducible apply setMig_keeps | with_reducible apply ackCycles_keeps | with_reducible apply takeExact_keeps
                | with_reducible apply keeps_foldl | with_reducible apply keeps_foldl2 | split | simp only [keeps_mk_iff] | exact id
                | exact fun _ => rfl | exact fun i => put_wf _ _ _ _ i | exact put_wf _ _ _ _ (by assumption) | (rw [setBox_len]; assumption)
                | (simp [HostIf.setBox]; done) | dsimp only

theorem takeRelease_keeps (u0 : State) (nid : Nid) (b : List Byte) (s : State)  (hk : Keeps u0 s) : Keeps u0 (takeRelease nid b s) := by
  unfold takeRelease
  repeat' first | with_reducible assumption | with_reducible exact id | (intro _) | with_reducible apply keeps_ite | extract_lets
                | with_reducible apply setMig_keeps | split | with_reducible apply keeps_mk | exact fun _ => rfl | dsimp only

theorem tryRelease_keeps (u0 : State) (n : Nat) (s : State)  (hk : Keeps u0 s) : Keeps u0 (tryRelease n s) := by
  unfold tryRelease
  repeat' first | with_reducible assumption | with_reducible exact id | (intro _) | with_reducible apply keeps_ite | extract_lets
                | with_reducible apply sendRelease_keeps | with_reducible apply setMig_keeps | split | with_reducible apply keeps_mk
                | exact fun _ => rfl | dsimp only

theorem takeAck_keeps (u0 : State) (nid : Nid) (b : List Byte) (s : State)  (hk : Keeps u0 s) : Keeps u0 (takeAck nid b s) := by
  unfold takeAck
  repeat' first | with_reducible assumption | with_reducible exact id | (intro _) | with_reducible apply keeps_ite | extract_lets
                | with_reducible apply tryRelease_keeps | with_reducible apply setMig_keeps | split | with_reducible apply keeps_mk
                | exact fun _ => rfl | dsimp only

theorem takeTaken_keeps (u0 : State) (nid : Nid) (b : List Byte) (s : State)  (hk : Keeps u0 s) : Keeps u0 (takeTaken nid b s) := by
  unfold takeTaken
  repeat' first | with_reducible assumption | with_reducible exact id | (intro _) | with_reducible apply keeps_ite | extract_lets
                | with_reducible apply wrSay_keeps | with_reducible apply dropMig_keeps | split | with_reducible apply keeps_mk | exact fun _ => rfl
                | dsimp only

theorem takeAbort_keeps (u0 : State) (nid : Nid) (b : List Byte) (s : State)  (hk : Keeps u0 s) : Keeps u0 (takeAbort nid b s) := by
  unfold takeAbort
  repeat' first | with_reducible assumption | with_reducible exact id | (intro _) | with_reducible apply keeps_ite | extract_lets
                | with_reducible apply dropIn_keeps | with_reducible apply raise_keeps | split | with_reducible apply keeps_mk | exact fun _ => rfl
                | dsimp only

theorem wrMessage_keeps (u0 : State) (nid : Nid) (m : List Byte) (s : State)  (hk : Keeps u0 s) : Keeps u0 (wrMessage nid m s) := by
  unfold wrMessage
  repeat' first | with_reducible assumption | with_reducible exact id | (intro _) | with_reducible apply keeps_ite | extract_lets
                | with_reducible apply takeReport_keeps | with_reducible apply takeVerdict_keeps | with_reducible apply takeState_keeps
                | with_reducible apply takeAck_keeps | with_reducible apply takeRelease_keeps | with_reducible apply takeTaken_keeps
                | with_reducible apply takeAbort_keeps | split | with_reducible apply keeps_mk | exact fun _ => rfl | dsimp only

theorem wrFrame_keeps (u0 : State) (msg : Nat) (f : Frame) (s : State)  (hk : Keeps u0 s) : Keeps u0 (wrFrame msg f s) := by
  unfold wrFrame
  repeat' first | with_reducible assumption | with_reducible exact id | (intro _) | with_reducible apply keeps_ite | extract_lets
                | with_reducible apply wrMessage_keeps | with_reducible apply wrTell_keeps | split | with_reducible apply keeps_mk
                | exact fun _ => rfl | dsimp only

theorem migAtGrid_keeps (u0 : State) (n : Nat) (s : State)  (hk : Keeps u0 s) : Keeps u0 (migAtGrid n s) := by
  unfold migAtGrid
  repeat' first | with_reducible assumption | with_reducible exact id | (intro _) | with_reducible apply keeps_ite | extract_lets
                | with_reducible apply sendRelease_keeps | with_reducible apply leaveTask_keeps | with_reducible apply setMig_keeps | split
                | with_reducible apply keeps_mk | exact fun _ => rfl | dsimp only

theorem migCommitted_keeps (u0 : State) (n : Nat) (s : State)  (hk : Keeps u0 s) : Keeps u0 (migCommitted n s) := by
  unfold migCommitted
  repeat' first | with_reducible assumption | with_reducible exact id | (intro _) | with_reducible apply keeps_ite | extract_lets
                | with_reducible apply sendDelta_keeps | with_reducible apply committed_keeps | with_reducible apply sendBank_keeps
                | with_reducible apply setMig_keeps | split | with_reducible apply keeps_mk | exact fun _ => rfl | dsimp only

theorem handedPubs_keeps (u0 : State) (n : Nat) (metas : List (Nat × Nat)) (image : Option (List Byte)) (s : State)  (hk : Keeps u0 s) : Keeps u0 (handedPubs n metas image s) := by
  unfold handedPubs
  repeat' first | with_reducible assumption | with_reducible exact id | (intro _) | with_reducible apply keeps_ite | extract_lets
                | with_reducible apply setTask_keeps | with_reducible apply setCtx_keeps | with_reducible apply enablePubs_keeps
                | with_reducible apply keeps_foldl | split | with_reducible apply keeps_mk | exact fun _ => rfl | dsimp only

theorem migHandOver_keeps (u0 : State) (n : Nat) (s : State)  (hk : Keeps u0 s) : Keeps u0 (migHandOver n s) := by
  unfold migHandOver
  repeat' first | with_reducible assumption | with_reducible exact id | (intro _) | with_reducible apply keeps_ite | extract_lets
                | with_reducible apply handedPubs_keeps | split | with_reducible apply keeps_mk | exact fun _ => rfl | dsimp only

theorem migTaken_keeps (u0 : State) (n : Nat) (first : Nat) (s : State)  (hk : Keeps u0 s) : Keeps u0 (migTaken n first s) := by
  unfold migTaken
  repeat' first | with_reducible assumption | with_reducible exact id | (intro _) | with_reducible apply keeps_ite | extract_lets
                | with_reducible apply migHandOver_keeps | with_reducible apply raise_keeps | with_reducible apply wrMig_keeps
                | with_reducible apply dropMig_keeps | with_reducible apply setTask_keeps | split | with_reducible apply keeps_mk
                | exact fun _ => rfl | dsimp only

theorem adopt_keeps (u0 : State) (n : Nat) (id : Nat) (s : State)  (hk : Keeps u0 s) : Keeps u0 (adopt n id s) := by
  unfold adopt
  repeat' first | with_reducible assumption | with_reducible exact id | (intro _) | with_reducible apply keeps_ite | extract_lets
                | with_reducible apply committed_keeps | with_reducible apply assignPair_keeps | with_reducible apply setTask_keeps
                | with_reducible apply handedPubs_keeps | with_reducible apply enableSubs_keeps | with_reducible apply wrSay_keeps | split
                | with_reducible apply keeps_mk | exact fun _ => rfl | dsimp only

theorem chooseLines_keeps (u0 : State) (is : List WrIn) (s : State)  (hk : Keeps u0 s) : Keeps u0 (chooseLines is s) := by
  unfold chooseLines
  repeat' first | with_reducible assumption | with_reducible exact id | (intro _) | with_reducible apply keeps_ite | extract_lets
                | with_reducible apply setCtx_keeps | with_reducible apply keeps_foldl | split | with_reducible apply keeps_mk | exact fun _ => rfl
                | dsimp only

theorem applyOne_keeps (u0 : State) (p : Placed) (n : Nat) (t : Task) (s : State)  (hk : Keeps u0 s) : Keeps u0 (applyOne p n t s) := by
  unfold applyOne
  repeat' first | with_reducible assumption | with_reducible exact id | (intro _) | with_reducible apply keeps_ite | extract_lets
                | with_reducible apply abortOut_keeps | with_reducible apply adopt_keeps | with_reducible apply sourceLost_keeps
                | with_reducible apply migrateIn_keeps | with_reducible apply migrateOut_keeps | with_reducible apply setTask_keeps | split
                | with_reducible apply keeps_mk | exact fun _ => rfl | dsimp only

theorem applyPlaces_keeps (u0 : State) (ps : List Placed) (s : State)  (hk : Keeps u0 s) : Keeps u0 (applyPlaces ps s) := by
  unfold applyPlaces
  repeat' first | with_reducible assumption | with_reducible exact id | (intro _) | with_reducible apply keeps_ite | extract_lets
                | with_reducible apply applyOne_keeps | with_reducible apply keeps_foldl | split | with_reducible apply keeps_mk
                | exact fun _ => rfl | dsimp only

theorem applyPlacement_keeps (u0 : State) (r : WrRound) (ps0 : List Placed) (home : Bool) (s : State)  (hk : Keeps u0 s) : Keeps u0 (applyPlacement r ps0 home s) := by
  unfold applyPlacement
  repeat' first | with_reducible assumption | with_reducible exact id | (intro _) | with_reducible apply keeps_ite | extract_lets
                | with_reducible apply wrPeersGone_keeps | with_reducible apply chooseLines_keeps | with_reducible apply applyPlaces_keeps
                | with_reducible apply wrSay_keeps | with_reducible apply keeps_foldl | split | with_reducible apply keeps_mk | exact fun _ => rfl
                | dsimp only

theorem wrFreeze_keeps (u0 : State)  (s : State)  (hk : Keeps u0 s) : Keeps u0 (wrFreeze s) := by
  unfold wrFreeze
  repeat' first | with_reducible assumption | with_reducible exact id | (intro _) | with_reducible apply keeps_ite | extract_lets | split
                | with_reducible apply keeps_mk | exact fun _ => rfl | dsimp only

theorem wrCompute_keeps (u0 : State)  (s : State)  (hk : Keeps u0 s) : Keeps u0 (wrCompute s) := by
  unfold wrCompute
  repeat' first | with_reducible assumption | with_reducible exact id | (intro _) | with_reducible apply keeps_ite | extract_lets
                | with_reducible apply wrSend_keeps | with_reducible apply wrSay_keeps | with_reducible apply raise_keeps | split
                | with_reducible apply keeps_mk | exact fun _ => rfl | dsimp only

theorem wrApply_keeps (u0 : State)  (s : State)  (hk : Keeps u0 s) : Keeps u0 (wrApply s) := by
  unfold wrApply
  repeat' first | with_reducible assumption | with_reducible exact id | (intro _) | with_reducible apply keeps_ite | extract_lets
                | with_reducible apply applyPlacement_keeps | split | with_reducible apply keeps_mk | exact fun _ => rfl | dsimp only

theorem wrDisagree_keeps (u0 : State)  (s : State)  (hk : Keeps u0 s) : Keeps u0 (wrDisagree s) := by
  unfold wrDisagree
  repeat' first | with_reducible assumption | with_reducible exact id | (intro _) | with_reducible apply keeps_ite | extract_lets
                | with_reducible apply wrSay_keeps | with_reducible apply membershipRound_keeps | split | with_reducible apply keeps_mk
                | exact fun _ => rfl | dsimp only

theorem wrSwitch_keeps (u0 : State)  (s : State)  (hk : Keeps u0 s) : Keeps u0 (wrSwitch s) := by
  unfold wrSwitch
  repeat' first | with_reducible assumption | with_reducible exact id | (intro _) | extract_lets | with_reducible apply startWrRound_keeps
                | with_reducible apply wrPeersGone_keeps | with_reducible apply keeps_mk | exact fun _ => rfl | dsimp only

theorem wrTold_keeps (u0 : State) (step : Nat) (nid : Nid) (m : List Byte) (s : State)  (hk : Keeps u0 s) : Keeps u0 (wrTold step nid m s) := by
  unfold wrTold
  repeat' first | with_reducible assumption | with_reducible exact id | (intro _) | with_reducible apply keeps_ite | extract_lets
                | with_reducible apply takeOwnReport_keeps | with_reducible apply wrMessage_keeps | with_reducible apply wrFreeze_keeps
                | with_reducible apply wrCompute_keeps | with_reducible apply wrApply_keeps | with_reducible apply wrDisagree_keeps | split
                | with_reducible apply keeps_mk | exact fun _ => rfl | dsimp only

end Sys2Proof.Machine
end

