-- ==== Sys2Proof/Laws/KeepsRedundOps.lean ====
section
/-! SUPPORT. What every operation of Machine/RedundOps.lean keeps, said once for each: the queue, the outputs made so far, the free values used, the
invariant, protection (Keeps of Safety.lean). -/
set_option Elab.async false
set_option linter.all false
namespace Sys2Proof.Machine
theorem ownerChanged_keeps (u0 : State) (was : Bool) (s : State)  (hk : Keeps u0 s) : Keeps u0 (ownerChanged was s) := by
  unfold ownerChanged
  repeat' first | with_reducible assumption | (intro _) | with_reducible apply keeps_ite | extract_lets | with_reducible apply importAll_keeps
                | with_reducible apply bridgeOwnerChange_keeps | with_reducible apply legSync_keeps | with_reducible apply canModes_keeps | split
                | dsimp only

theorem setRole_keeps (u0 : State) (r : Role) (s : State)  (hk : Keeps u0 s) : Keeps u0 (setRole r s) := by
  unfold setRole
  repeat' first | with_reducible assumption | with_reducible exact id | (intro _) | with_reducible apply keeps_ite | extract_lets
                | with_reducible apply raise_keeps | split | with_reducible apply keeps_mk | exact fun _ => rfl | dsimp only

theorem settleMembers_keeps (u0 : State)  (s : State)  (hk : Keeps u0 s) : Keeps u0 (settleMembers s) := by
  unfold settleMembers
  repeat' first | with_reducible assumption | with_reducible exact id | (intro _) | with_reducible apply keeps_ite | extract_lets
                | with_reducible apply raise_keeps | with_reducible apply drivePin_keeps | with_reducible apply setResource_keeps
                | with_reducible apply ownerChanged_keeps | split | with_reducible apply keeps_mk | exact fun _ => rfl | dsimp only

theorem assertClaim_keeps (u0 : State) (cause : Nat) (r : Role) (s : State)  (hk : Keeps u0 s) : Keeps u0 (assertClaim cause r s) := by
  unfold assertClaim
  repeat' first | with_reducible assumption | with_reducible exact id | (intro _) | extract_lets | with_reducible apply setRole_keeps
                | with_reducible apply raise_keeps | with_reducible apply logEvent_keeps | with_reducible apply count_keeps
                | with_reducible apply drivePin_keeps | with_reducible apply ownerChanged_keeps | with_reducible apply settleMembers_keeps
                | with_reducible apply keeps_mk | exact fun _ => rfl | dsimp only

theorem releaseClaim_keeps (u0 : State) (check : Nat) (r : Role) (s : State)  (hk : Keeps u0 s) : Keeps u0 (releaseClaim check r s) := by
  unfold releaseClaim
  repeat' first | with_reducible assumption | with_reducible exact id | (intro _) | with_reducible apply keeps_ite | extract_lets
                | with_reducible apply setRole_keeps | with_reducible apply raise_keeps | with_reducible apply logEvent_keeps
                | with_reducible apply count_keeps | with_reducible apply drivePin_keeps | with_reducible apply ownerChanged_keeps
                | with_reducible apply settleMembers_keeps | split | with_reducible apply keeps_mk | exact fun _ => rfl | dsimp only

theorem haltAll_keeps (u0 : State)  (s : State)  (hk : Keeps u0 s) : Keeps u0 (haltAll s) := by
  unfold haltAll
  repeat' first | with_reducible assumption | with_reducible exact Keeps.rfl | with_reducible exact id | (intro _) | with_reducible apply keeps_ite
                | with_reducible apply keeps_ite_app | with_reducible apply keeps_id | extract_lets | with_reducible apply resetGpio_keeps
                | with_reducible apply keeps_foldl | with_reducible apply keeps_foldl2 | split | with_reducible apply keeps_mk | exact id
                | exact fun _ => rfl | exact fun i => put_wf _ _ _ _ i | exact put_wf _ _ _ _ (by assumption) | (rw [setBox_len]; assumption)
                | (simp [HostIf.setBox]; done) | (simp_all; done) | assumption | dsimp only

theorem excludeSelf_keeps (u0 : State) (cause : Nat) (check : Nat) (s : State)  (hk : Keeps u0 s) : Keeps u0 (excludeSelf cause check s) := by
  unfold excludeSelf
  repeat' first | with_reducible assumption | with_reducible exact id | (intro _) | with_reducible apply keeps_ite | extract_lets
                | with_reducible apply logEvent_keeps | with_reducible apply count_keeps | with_reducible apply haltAll_keeps
                | with_reducible apply releaseClaim_keeps | split | with_reducible apply keeps_mk | exact fun _ => rfl | dsimp only

theorem sendTail_keeps (u0 : State) (l : Nat) (n : Nat) (t : Task) (ls : List (Nat × List Byte)) (s : State)  (hk : Keeps u0 s) : Keeps u0 (sendTail l n t ls s) := by
  unfold sendTail
  repeat' first | with_reducible assumption | (intro _) | extract_lets | with_reducible apply sendParts_keeps | with_reducible apply tugSend_keeps
                | dsimp only

theorem streamState_keeps (u0 : State) (l : Nat) (n : Nat) (old : List Byte) (s : State)  (hk : Keeps u0 s) : Keeps u0 (streamState l n old s) := by
  unfold streamState
  repeat' first | with_reducible assumption | with_reducible exact id | (intro _) | with_reducible apply keeps_ite | extract_lets
                | with_reducible apply committed_keeps | with_reducible apply tugSend_keeps | with_reducible apply sendTail_keeps
                | with_reducible apply keeps_foldl | split | with_reducible apply keeps_mk | exact fun _ => rfl | dsimp only

theorem sendFull_keeps (u0 : State) (l : Nat) (n : Nat) (s : State)  (hk : Keeps u0 s) : Keeps u0 (sendFull l n s) := by
  unfold sendFull
  repeat' first | with_reducible assumption | with_reducible exact id | (intro _) | with_reducible apply keeps_ite | extract_lets
                | with_reducible apply sendTail_keeps | with_reducible apply committed_keeps | with_reducible apply sendParts_keeps | split
                | with_reducible apply keeps_mk | exact fun _ => rfl | dsimp only

theorem requestFull_keeps (u0 : State) (l : Nat) (n : Nat) (s : State)  (hk : Keeps u0 s) : Keeps u0 (requestFull l n s) := by
  unfold requestFull
  repeat' first | with_reducible assumption | (intro _) | extract_lets | with_reducible apply tugSend_keeps | dsimp only

theorem sendNodeItems_keeps (u0 : State) (l : Nat) (s : State)  (hk : Keeps u0 s) : Keeps u0 (sendNodeItems l s) := by
  unfold sendNodeItems
  repeat' first | with_reducible assumption | with_reducible exact id | (intro _) | extract_lets | with_reducible apply tugSend_keeps
                | with_reducible apply keeps_foldl | with_reducible apply keeps_mk | exact fun _ => rfl | dsimp only

theorem startSync_keeps (u0 : State) (l : Nat) (s : State)  (hk : Keeps u0 s) : Keeps u0 (startSync l s) := by
  unfold startSync
  repeat' first | with_reducible assumption | with_reducible exact id | (intro _) | extract_lets | with_reducible apply setRole_keeps
                | with_reducible apply requestFull_keeps | with_reducible apply keeps_foldl | with_reducible apply keeps_mk | exact fun _ => rfl
                | dsimp only

theorem joinControl_keeps (u0 : State)  (s : State)  (hk : Keeps u0 s) : Keeps u0 (joinControl s) := by
  unfold joinControl
  repeat' first | with_reducible assumption | with_reducible exact id | (intro _) | with_reducible apply keeps_ite | extract_lets
                | with_reducible apply setState_keeps | split | with_reducible apply keeps_mk | exact fun _ => rfl | dsimp only

theorem syncCheck_keeps (u0 : State)  (s : State)  (hk : Keeps u0 s) : Keeps u0 (syncCheck s) := by
  unfold syncCheck
  repeat' first | with_reducible assumption | (intro _) | with_reducible apply keeps_ite | extract_lets | with_reducible apply setRole_keeps
                | with_reducible apply joinControl_keeps | split | dsimp only

theorem trySync_keeps (u0 : State)  (s : State)  (hk : Keeps u0 s) : Keeps u0 (trySync s) := by
  unfold trySync
  repeat' first | with_reducible assumption | with_reducible exact id | (intro _) | with_reducible apply keeps_ite | extract_lets
                | with_reducible apply startSync_keeps | with_reducible apply setRole_keeps | split | with_reducible apply keeps_mk
                | exact fun _ => rfl | dsimp only

theorem takeTask_keeps (u0 : State) (from_ : Nat) (n : Nat) (t : Task) (s : State)  (hk : Keeps u0 s) : Keeps u0 (takeTask from_ n t s) := by
  unfold takeTask
  try dsimp only
  repeat' first | with_reducible assumption | with_reducible exact Keeps.rfl | with_reducible exact id | (intro _) | with_reducible apply keeps_ite
                | with_reducible apply keeps_ite_app | with_reducible apply keeps_id | with_reducible apply setTask_keeps
                | with_reducible apply committed_keeps | with_reducible apply logEvent_keeps | with_reducible apply handedPubs_keeps
                | with_reducible apply assignPair_keeps | with_reducible apply keeps_foldl | with_reducible apply keeps_foldl2 | split
                | simp only [keeps_mk_iff] | exact id | exact fun _ => rfl | exact fun i => put_wf _ _ _ _ i | exact put_wf _ _ _ _ (by assumption)
                | (rw [setBox_len]; assumption) | (simp [HostIf.setBox]; done) | dsimp only

theorem takeover_keeps (u0 : State)  (s : State)  (hk : Keeps u0 s) : Keeps u0 (takeover s) := by
  unfold takeover
  repeat' first | with_reducible assumption | with_reducible exact id | (intro _) | with_reducible apply keeps_ite | extract_lets
                | with_reducible apply joinControl_keeps | with_reducible apply takeTask_keeps | with_reducible apply keeps_foldl | split
                | with_reducible apply keeps_mk | exact fun _ => rfl | dsimp only

theorem claimSpan_keeps (u0 : State)  (s : State)  (hk : Keeps u0 s) : Keeps u0 (claimSpan s) := by
  unfold claimSpan
  repeat' first | with_reducible assumption | with_reducible exact id | (intro _) | with_reducible apply keeps_ite | extract_lets
                | with_reducible apply assertClaim_keeps | with_reducible apply takeover_keeps | split | with_reducible apply keeps_mk
                | exact fun _ => rfl | dsimp only

theorem moveUnacked_keeps (u0 : State) (src : Nat) (dst : Nat) (s : State)  (hk : Keeps u0 s) : Keeps u0 (moveUnacked src dst s) := by
  unfold moveUnacked
  repeat' first | with_reducible assumption | with_reducible exact id | (intro _) | extract_lets | with_reducible apply setTug_keeps
                | with_reducible apply tugSend_keeps | with_reducible apply keeps_foldl | with_reducible apply keeps_mk | exact fun _ => rfl
                | dsimp only

theorem tugSaid_keeps (u0 : State) (l : Nat) (up : Nat) (s : State)  (hk : Keeps u0 s) : Keeps u0 (tugSaid l up s) := by
  unfold tugSaid
  repeat' first | with_reducible assumption | (intro _) | extract_lets | with_reducible apply raise_keeps | with_reducible apply logEvent_keeps
                | dsimp only

theorem linksChanged_keeps (u0 : State)  (s : State)  (hk : Keeps u0 s) : Keeps u0 (linksChanged s) := by
  unfold linksChanged
  try dsimp only
  repeat' first | with_reducible assumption | with_reducible exact Keeps.rfl | with_reducible exact id | (intro _) | with_reducible apply keeps_ite
                | with_reducible apply keeps_ite_app | with_reducible apply keeps_id | with_reducible apply setRole_keeps
                | with_reducible apply setResource_keeps | with_reducible apply excludeSelf_keeps | with_reducible apply keeps_foldl
                | with_reducible apply keeps_foldl2 | split | simp only [keeps_mk_iff] | exact id | exact fun _ => rfl
                | exact fun i => put_wf _ _ _ _ i | exact put_wf _ _ _ _ (by assumption) | (rw [setBox_len]; assumption)
                | (simp [HostIf.setBox]; done) | dsimp only

theorem linkDown_keeps (u0 : State) (l : Nat) (s : State)  (hk : Keeps u0 s) : Keeps u0 (linkDown l s) := by
  unfold linkDown
  repeat' first | with_reducible assumption | with_reducible exact id | (intro _) | with_reducible apply keeps_ite | extract_lets
                | with_reducible apply setTug_keeps | with_reducible apply tugSaid_keeps | with_reducible apply count_keeps
                | with_reducible apply moveUnacked_keeps | with_reducible apply linksChanged_keeps | with_reducible apply keeps_foldl | split
                | with_reducible apply keeps_mk | exact fun _ => rfl | dsimp only

end Sys2Proof.Machine
end

