-- ==== Sys2Proof/Laws/KeepsNodeOps.lean ====
section
/-! SUPPORT. What every operation of Machine/NodeOps.lean keeps, said once for each: the queue, the outputs made so far, the free values used, the
invariant, protection (Keeps of Safety.lean). -/
set_option Elab.async false
set_option linter.all false
namespace Sys2Proof.Machine
theorem assertBypass_keeps (u0 : State)  (s : State)  (hk : Keeps u0 s) : Keeps u0 (assertBypass s) := by
  unfold assertBypass
  repeat' first | with_reducible assumption | (intro _) | extract_lets | with_reducible apply drivePin_keeps | dsimp only

theorem releaseBypass_keeps (u0 : State)  (s : State)  (hk : Keeps u0 s) : Keeps u0 (releaseBypass s) := by
  unfold releaseBypass
  repeat' first | with_reducible assumption | (intro _) | with_reducible apply keeps_ite | extract_lets | with_reducible apply drivePin_keeps
                | split | dsimp only

theorem startSettle_keeps (u0 : State)  (s : State)  (hk : Keeps u0 s) : Keeps u0 (startSettle s) := by
  unfold startSettle
  repeat' first | with_reducible assumption | with_reducible exact id | (intro _) | extract_lets | with_reducible apply keeps_mk
                | exact fun _ => rfl | dsimp only

theorem endSettle_keeps (u0 : State)  (s : State)  (hk : Keeps u0 s) : Keeps u0 (endSettle s) := by
  unfold endSettle
  repeat' first | with_reducible assumption | with_reducible exact id | (intro _) | with_reducible apply keeps_ite | extract_lets
                | with_reducible apply dropPort_keeps | with_reducible apply keeps_foldl | split | with_reducible apply keeps_mk
                | exact fun _ => rfl | dsimp only

theorem leaveLine_keeps (u0 : State) (new : NodeState) (cause : Nat) (res : Nat) (s : State)  (hk : Keeps u0 s) : Keeps u0 (leaveLine new cause res s) := by
  unfold leaveLine
  repeat' first | with_reducible assumption | with_reducible exact id | (intro _) | with_reducible apply keeps_ite | extract_lets | apply h_new
                | with_reducible apply releaseForces_keeps | with_reducible apply haltAll_keeps | with_reducible apply wrLeave_keeps
                | with_reducible apply releaseClaim_keeps | with_reducible apply startSettle_keeps | with_reducible apply assertBypass_keeps
                | with_reducible apply stopStreams_keeps | with_reducible apply hitchStop_keeps | with_reducible apply stopGptp_keeps
                | with_reducible apply unlearn_keeps | with_reducible apply setState_keeps | with_reducible apply legSync_keeps
                | with_reducible apply canModes_keeps | with_reducible apply bridgeStop_keeps | split | with_reducible apply keeps_mk
                | exact fun _ => rfl | dsimp only

theorem enterHeld_keeps (u0 : State) (heldCause : Nat) (cause : Nat) (s : State)  (hk : Keeps u0 s) : Keeps u0 (enterHeld heldCause cause s) := by
  unfold enterHeld
  repeat' first | with_reducible assumption | with_reducible exact id | (intro _) | extract_lets | with_reducible apply leaveLine_keeps
                | with_reducible apply keeps_mk | exact fun _ => rfl | dsimp only

theorem enterSafe_keeps (u0 : State) (event : Bool) (check : Nat) (s : State)  (hk : Keeps u0 s) : Keeps u0 (enterSafe event check s) := by
  unfold enterSafe
  repeat' first | with_reducible assumption | with_reducible exact id | (intro _) | with_reducible apply keeps_ite | extract_lets
                | with_reducible apply tugAll_keeps | with_reducible apply haltAll_keeps | with_reducible apply wrLeave_keeps
                | with_reducible apply setState_keeps | with_reducible apply releaseForces_keeps | with_reducible apply wrCheck_keeps
                | with_reducible apply importAll_keeps | with_reducible apply legSync_keeps | with_reducible apply canModes_keeps
                | with_reducible apply releaseClaim_keeps | split | with_reducible apply keeps_mk | exact fun _ => rfl | dsimp only

theorem safeEvent_keeps (u0 : State)  (s : State)  (hk : Keeps u0 s) : Keeps u0 (safeEvent s) := by
  unfold safeEvent
  repeat' first | with_reducible assumption | with_reducible exact id | (intro _) | extract_lets | with_reducible apply enterSafe_keeps
                | with_reducible apply keeps_mk | exact fun _ => rfl | dsimp only

theorem bridgeEntry_keeps (u0 : State)  (s : State)  (hk : Keeps u0 s) : Keeps u0 (bridgeEntry s) := by
  unfold bridgeEntry
  repeat' first | with_reducible assumption | with_reducible exact id | (intro _) | extract_lets | with_reducible apply keeps_mk
                | exact fun _ => rfl | dsimp only

theorem readyFields_keeps (u0 : State)  (s : State)  (hk : Keeps u0 s) : Keeps u0 (readyFields s) := by
  unfold readyFields
  repeat' first | with_reducible assumption | with_reducible exact id | (intro _) | extract_lets | with_reducible apply keeps_mk
                | exact fun _ => rfl | dsimp only

theorem armStart_keeps (u0 : State)  (s : State)  (hk : Keeps u0 s) : Keeps u0 (armStart s) := by
  unfold armStart
  repeat' first | with_reducible assumption | with_reducible exact id | (intro _) | extract_lets | with_reducible apply keeps_mk
                | exact fun _ => rfl | dsimp only

theorem enterReady_keeps (u0 : State) (fromBoot : Bool) (cause : Nat) (s : State)  (hk : Keeps u0 s) : Keeps u0 (enterReady fromBoot cause s) := by
  unfold enterReady
  repeat' first | with_reducible assumption | (intro _) | with_reducible apply keeps_ite | extract_lets | with_reducible apply setState_keeps
                | with_reducible apply readyFields_keeps | with_reducible apply hitchStart_keeps | with_reducible apply startDomains_keeps
                | with_reducible apply reactivateStreams_keeps | with_reducible apply armStart_keeps | with_reducible apply legSync_keeps
                | with_reducible apply canModes_keeps | with_reducible apply bridgeEntry_keeps | with_reducible apply releaseBypass_keeps
                | with_reducible apply trySync_keeps | with_reducible apply setRole_keeps | split | dsimp only

theorem startNow_keeps (u0 : State)  (s : State)  (hk : Keeps u0 s) : Keeps u0 (startNow s) := by
  unfold startNow
  repeat' first | with_reducible assumption | with_reducible exact id | (intro _) | with_reducible apply keeps_ite | extract_lets | split
                | with_reducible apply keeps_mk | exact fun _ => rfl | dsimp only

theorem takeIdentity_keeps (u0 : State)  (s : State)  (hk : Keeps u0 s) : Keeps u0 (takeIdentity s) := by
  unfold takeIdentity
  repeat' first | with_reducible assumption | with_reducible exact id | (intro _) | with_reducible apply keeps_ite | extract_lets | split
                | with_reducible apply keeps_mk | exact fun _ => rfl | dsimp only

theorem gpioStart_keeps (u0 : State)  (s : State)  (hk : Keeps u0 s) : Keeps u0 (gpioStart s) := by
  unfold gpioStart
  repeat' first | with_reducible assumption | with_reducible exact id | (intro _) | with_reducible apply keeps_ite | extract_lets
                | with_reducible apply emit_keeps | with_reducible apply keeps_foldl | split | with_reducible apply keeps_mk | exact fun _ => rfl
                | dsimp only

theorem ringsStart_keeps (u0 : State)  (s : State) (hk : Keeps u0 s) : Keeps u0 (ringsStart s) :=
  keeps_inv s _ hk rfl rfl rfl rfl (fun i => ⟨i.1, i.2, i.3, by simpa [ringsStart] using i.4, i.5, i.6, i.7, i.8, i.9, i.10, i.11, i.12, i.13, i.14, i.15⟩)

theorem activate_keeps (u0 : State) (t : Tack) (s : State)  (hk : Keeps u0 s) : Keeps u0 (activate t s) := by
  unfold activate
  repeat' first | with_reducible assumption | with_reducible exact id | (intro _) | extract_lets | with_reducible apply takeIdentity_keeps
                | with_reducible apply gpioStart_keeps | with_reducible apply ringsStart_keeps | with_reducible apply bridgeLoad_keeps
                | with_reducible apply canLoad_keeps | with_reducible apply loadStreams_keeps | with_reducible apply controlLoad_keeps
                | with_reducible apply loadSwitch_keeps | with_reducible apply repartition_keeps | with_reducible apply keeps_mk
                | exact fun _ => rfl | dsimp only

theorem startStabled_keeps (u0 : State) (ref : Option AcsRef) (cause : Nat) (s : State)  (hk : Keeps u0 s) : Keeps u0 (startStabled ref cause s) := by
  unfold startStabled
  repeat' first | with_reducible assumption | with_reducible exact id | (intro _) | extract_lets | with_reducible apply announceBypass_keeps
                | with_reducible apply keeps_mk | exact fun _ => rfl | dsimp only

theorem enterStabled_keeps (u0 : State)  (s : State)  (hk : Keeps u0 s) : Keeps u0 (enterStabled s) := by
  unfold enterStabled
  repeat' first | with_reducible assumption | with_reducible exact id | (intro _) | extract_lets | with_reducible apply leaveLine_keeps
                | with_reducible apply finish_keeps | with_reducible apply keeps_mk | exact fun _ => rfl | dsimp only

theorem wakeEvent_keeps (u0 : State)  (s : State)  (hk : Keeps u0 s) : Keeps u0 (wakeEvent s) := by
  unfold wakeEvent
  repeat' first | with_reducible assumption | with_reducible exact id | (intro _) | with_reducible apply keeps_ite | extract_lets
                | with_reducible apply enterReady_keeps | with_reducible apply drivePin_keeps | split | with_reducible apply keeps_mk
                | exact fun _ => rfl | dsimp only

theorem bootKeep_keeps (u0 : State) (s : State) (hk : Keeps u0 s) : Keeps u0 (bootKeep s) :=
  ⟨hk.1, hk.2, hk.3, fun k => ⟨rfl, rfl, rfl, rfl, rfl, rfl, rfl, rfl, rfl, rfl, rfl, rfl, rfl, rfl, rfl⟩, hk.5.trans ⟨id, Nat.le_refl _, Nat.le_refl _, fun _ h => h⟩⟩

theorem resetPins_keeps (u0 : State)  (s : State)  (hk : Keeps u0 s) : Keeps u0 (resetPins s) := by
  unfold resetPins
  repeat' first | with_reducible assumption | (intro _) | with_reducible apply keeps_ite | extract_lets | with_reducible apply drivePin_keeps
                | with_reducible apply emit_keeps | with_reducible apply keeps_foldl | split | dsimp only

theorem enterBoot_keeps (u0 : State) (cause : Nat) (s : State)  (hk : Keeps u0 s) : Keeps u0 (enterBoot cause s) := by
  unfold enterBoot
  repeat' first | with_reducible assumption | with_reducible exact id | (intro _) | with_reducible apply keeps_ite | extract_lets
                | with_reducible apply bootKeep_keeps | with_reducible apply resetPins_keeps | split | with_reducible apply keeps_mk
                | exact fun _ => rfl | dsimp only

theorem taskFault_keeps (u0 : State) (n : Nat) (cause : Nat) (s : State)  (hk : Keeps u0 s) : Keeps u0 (taskFault n cause s) := by
  unfold taskFault
  repeat' first | with_reducible assumption | with_reducible exact id | (intro _) | with_reducible apply keeps_ite | extract_lets
                | with_reducible apply raise_keeps | with_reducible apply logEvent_keeps | with_reducible apply count_keeps
                | with_reducible apply stopTask_keeps | with_reducible apply abortOut_keeps | with_reducible apply enterSafe_keeps | split
                | with_reducible apply keeps_mk | exact fun _ => rfl | dsimp only

theorem retirePair_keeps (u0 : State) (p : Nat) (s : State)  (hk : Keeps u0 s) : Keeps u0 (retirePair p s) := by
  unfold retirePair
  repeat' first | with_reducible assumption | with_reducible exact id | (intro _) | with_reducible apply keeps_ite | extract_lets
                | with_reducible apply holdTask_keeps | with_reducible apply setPair_keeps | with_reducible apply setResource_keeps
                | with_reducible apply raise_keeps | with_reducible apply logEvent_keeps | with_reducible apply assignPairs_keeps
                | with_reducible apply enterSafe_keeps | with_reducible apply wrCheck_keeps | with_reducible apply keeps_foldl | split
                | with_reducible apply keeps_mk | exact fun _ => rfl | dsimp only

end Sys2Proof.Machine
end

