-- ==== Sys2Proof/Laws/KeepsBootOps.lean ====
section
/-! SUPPORT. What every operation of Machine/BootOps.lean keeps, said once for each: the queue, the outputs made so far, the free values used, the
invariant, protection (Keeps of Safety.lean). -/
set_option Elab.async false
set_option linter.all false
namespace Sys2Proof.Machine
theorem loseRails_keeps (u0 : State) (s : State) (hk : Keeps u0 s) : Keeps u0 (loseRails s) := by
  unfold loseRails
  split
  · exact hk
  · exact hk
  · extract_lets s1 k t n p
    have h : Keeps u0 k := bootKeep_keeps _ _ (drivePin_keeps _ _ _ _ (emit_keeps _ _ _ (emit_keeps _ _ _ (resetPins_keeps _ _ hk))))
    refine keeps_mk k h id id id id id id (fun i => ?_) id id
    simp only [t]
    split
    · exact i
    · rfl

theorem startUp_keeps (u0 : State)  (s : State)  (hk : Keeps u0 s) : Keeps u0 (startUp s) := by
  unfold startUp
  repeat' first | with_reducible assumption | with_reducible exact id | (intro _) | with_reducible apply keeps_ite | extract_lets
                | with_reducible apply bootKeep_keeps | split | with_reducible apply keeps_mk | exact fun _ => rfl | dsimp only

theorem startFirmware_keeps (u0 : State) (slot : Nat) (i : FwImage) (s : State)  (hk : Keeps u0 s) : Keeps u0 (startFirmware slot i s) := by
  unfold startFirmware
  repeat' first | with_reducible assumption | with_reducible exact id | (intro _) | with_reducible apply keeps_ite | extract_lets
                | with_reducible apply logEvent_keeps | with_reducible apply endUnknown_keeps | with_reducible apply keeps_foldl | split
                | with_reducible apply keeps_mk | exact fun _ => rfl | dsimp only

theorem putBank_keeps (u0 : State) (k : Nat) (f : List Byte → List Byte) (s : State)  (hk : Keeps u0 s) : Keeps u0 (putBank k f s) := by
  unfold putBank
  repeat' first | with_reducible assumption | with_reducible exact id | (intro _) | with_reducible apply keeps_ite | extract_lets | split
                | with_reducible apply keeps_mk | exact fun _ => rfl | dsimp only

theorem readCommitted_keeps (u0 : State) (r : CommitRec) (s : State)  (hk : Keeps u0 s) : Keeps u0 (readCommitted r s).2 := by
  unfold readCommitted
  repeat' first | with_reducible assumption | with_reducible exact id | (intro _) | with_reducible apply keeps_ite | extract_lets | split
                | with_reducible apply keeps_mk | exact fun _ => rfl | dsimp only

theorem writeCommit_keeps (u0 : State) (bank : Nat) (flash : Bool) (t : Tack) (s : State) (hk : Keeps u0 s) : Keeps u0 (writeCommit bank flash t s) :=
  keeps_sec s _ hk ⟨id, Nat.le_refl _, Nat.le_refl _, fun _ h => h⟩ id id id id id id

theorem saidCommitted_keeps (u0 : State) (t : Tack) (source : Nat) (s : State)  (hk : Keeps u0 s) : Keeps u0 (saidCommitted t source s) := by
  unfold saidCommitted
  repeat' first | with_reducible assumption | (intro _) | extract_lets | with_reducible apply logEvent_keeps | dsimp only

theorem saidInvalid_keeps (u0 : State) (source : Nat) (x : Bad) (s : State)  (hk : Keeps u0 s) : Keeps u0 (saidInvalid source x s) := by
  unfold saidInvalid
  repeat' first | with_reducible assumption | (intro _) | extract_lets | with_reducible apply logEvent_keeps | dsimp only

theorem imageFailed_keeps (u0 : State) (source : Nat) (fp : BitVec 256) (x : Bad) (s : State)  (hk : Keeps u0 s) : Keeps u0 (imageFailed source fp x s) := by
  unfold imageFailed
  repeat' first | with_reducible assumption | with_reducible exact id | (intro _) | extract_lets | with_reducible apply saidInvalid_keeps
                | with_reducible apply keeps_mk | exact fun _ => rfl | dsimp only

theorem tryBank_keeps (u0 : State) (source : Nat) (r : Option CommitRec) (s : State)  (hk : Keeps u0 s) : Keeps u0 (tryBank source r s).2 := by
  unfold tryBank
  repeat' first | with_reducible assumption | with_reducible exact id | (intro _) | with_reducible apply keeps_ite | extract_lets
                | with_reducible apply readCommitted_keeps | with_reducible apply imageFailed_keeps | split | with_reducible apply keeps_mk
                | exact fun _ => rfl | dsimp only

theorem commitFlash_keeps (u0 : State) (b : List Byte) (s : State)  (hk : Keeps u0 s) : Keeps u0 (commitFlash b s) := by
  unfold commitFlash
  repeat' first | with_reducible assumption | with_reducible exact id | (intro _) | extract_lets | with_reducible apply writeCommit_keeps
                | with_reducible apply putBank_keeps | with_reducible apply logEvent_keeps | with_reducible apply saidCommitted_keeps
                | with_reducible apply keeps_mk | exact fun _ => rfl | dsimp only

theorem tryFlash_keeps (u0 : State)  (s : State)  (hk : Keeps u0 s) : Keeps u0 (tryFlash s).2 := by
  unfold tryFlash
  repeat' first | with_reducible assumption | with_reducible exact id | (intro _) | with_reducible apply keeps_ite | extract_lets
                | with_reducible apply imageFailed_keeps | with_reducible apply commitFlash_keeps | split | with_reducible apply keeps_mk
                | exact fun _ => rfl | dsimp only

theorem saidBoot_keeps (u0 : State) (ms : Nat) (s : State)  (hk : Keeps u0 s) : Keeps u0 (saidBoot ms s) := by
  unfold saidBoot
  repeat' first | with_reducible assumption | (intro _) | with_reducible apply keeps_ite | extract_lets | with_reducible apply logEvent_keeps
                | split | dsimp only

theorem goReady_keeps (u0 : State) (t : Tack) (s : State)  (hk : Keeps u0 s) : Keeps u0 (goReady t s) := by
  unfold goReady
  repeat' first | with_reducible assumption | (intro _) | extract_lets | with_reducible apply enterReady_keeps | with_reducible apply activate_keeps
                | dsimp only

theorem goHeld_keeps (u0 : State) (held : Bool) (s : State)  (hk : Keeps u0 s) : Keeps u0 (goHeld held s) := by
  unfold goHeld
  repeat' first | with_reducible assumption | (intro _) | with_reducible apply keeps_ite | extract_lets | with_reducible apply enterHeld_keeps
                | split | dsimp only

theorem selectTack_keeps (u0 : State)  (s : State)  (hk : Keeps u0 s) : Keeps u0 (selectTack s) := by
  unfold selectTack
  repeat' first | with_reducible assumption | with_reducible exact id | (intro _) | with_reducible apply keeps_ite | extract_lets
                | with_reducible apply tryBank_keeps | with_reducible apply goReady_keeps | with_reducible apply logEvent_keeps
                | with_reducible apply tryFlash_keeps | with_reducible apply goHeld_keeps | split | with_reducible apply keeps_mk
                | exact fun _ => rfl | dsimp only

theorem validateStaged_keeps (u0 : State)  (s : State)  (hk : Keeps u0 s) : Keeps u0 (validateStaged s).2 := by
  unfold validateStaged
  repeat' first | with_reducible assumption | with_reducible exact id | (intro _) | with_reducible apply keeps_ite | extract_lets | split
                | with_reducible apply keeps_mk | exact fun _ => rfl | dsimp only

theorem commitCheck_keeps (u0 : State)  (s : State)  (hk : Keeps u0 s) : Keeps u0 (commitCheck s).2 := by
  unfold commitCheck
  repeat' first | with_reducible assumption | with_reducible exact id | (intro _) | with_reducible apply keeps_ite | extract_lets
                | with_reducible apply validateStaged_keeps | split | with_reducible apply keeps_mk | exact fun _ => rfl | dsimp only

theorem effTackCommit_keeps (u0 : State) (a : List Byte) (r : Option AcsRef) (s : State)  (hk : Keeps u0 s) : Keeps u0 (effTackCommit a r s) := by
  unfold effTackCommit
  repeat' first | with_reducible assumption | with_reducible exact id | (intro _) | with_reducible apply keeps_ite | extract_lets
                | with_reducible apply finish_keeps | with_reducible apply commitCheck_keeps | with_reducible apply saidInvalid_keeps | split
                | with_reducible apply keeps_mk | exact fun _ => rfl | dsimp only

theorem commitNow_keeps (u0 : State) (verified : Bool) (s : State)  (hk : Keeps u0 s) : Keeps u0 (commitNow verified s) := by
  unfold commitNow
  repeat' first | with_reducible assumption | with_reducible exact id | (intro _) | with_reducible apply keeps_ite | extract_lets
                | with_reducible apply writeCommit_keeps | with_reducible apply finish_keeps | with_reducible apply enterHeld_keeps
                | with_reducible apply saidCommitted_keeps | with_reducible apply goReady_keeps | with_reducible apply restamp_keeps
                | with_reducible apply announceBypass_keeps | split | with_reducible apply keeps_mk | exact fun _ => rfl | dsimp only

end Sys2Proof.Machine
end

