-- ==== Sys2Proof/Laws/KeepsBoot.lean ====
section
/-! SUPPORT. What every operation of Machine/Boot.lean keeps, said once for each: the queue, the outputs made so far, the free values used, the
invariant, protection (Keeps of Safety.lean). -/
set_option Elab.async false
set_option linter.all false
namespace Sys2Proof.Machine
theorem execFirmwareLoadDone_keeps  (s s9 : State) (hk : execFirmwareLoadDone s = .next s9) : Keeps s s9 := by
  unfold execFirmwareLoadDone at hk
  cases hk
  repeat' first | with_reducible assumption | with_reducible exact Keeps.rfl | with_reducible exact id | (intro _) | with_reducible apply keeps_ite
                | extract_lets | with_reducible apply startFirmware_keeps | split | with_reducible apply keeps_mk | exact fun _ => rfl | dsimp only

theorem execDlLoad_keeps (image : List Byte) (dmaOk : Bool) (s s9 : State) (hk : execDlLoad image dmaOk s = .next s9) : Keeps s s9 := by
  unfold execDlLoad at hk
  cases hk
  repeat' first | with_reducible assumption | with_reducible exact Keeps.rfl | with_reducible exact id | (intro _) | with_reducible apply keeps_ite
                | extract_lets | with_reducible apply startFirmware_keeps | split | with_reducible apply keeps_mk | exact fun _ => rfl | dsimp only

theorem execTackSelect_keeps (ms : Nat) (s s9 : State) (hk : execTackSelect ms s = .next s9) : Keeps s s9 := by
  unfold execTackSelect at hk
  cases hk
  repeat' first | with_reducible assumption | with_reducible exact Keeps.rfl | (intro _) | with_reducible apply keeps_ite | extract_lets
                | with_reducible apply saidBoot_keeps | with_reducible apply selectTack_keeps | split | dsimp only

theorem execHeldFlashPoll_keeps (image : List Byte) (s s9 : State) (hk : execHeldFlashPoll image s = .next s9) : Keeps s s9 := by
  unfold execHeldFlashPoll at hk
  cases hk
  repeat' first | with_reducible assumption | with_reducible exact Keeps.rfl | with_reducible exact id | (intro _) | with_reducible apply keeps_ite
                | extract_lets | with_reducible apply tryFlash_keeps | with_reducible apply goReady_keeps | split | with_reducible apply keeps_mk
                | exact fun _ => rfl | dsimp only

theorem execTackStage_keeps (c : Acs) (s s9 : State) (hk : execTackStage c s = .next s9) : Keeps s s9 := by
  unfold execTackStage at hk
  cases hk
  repeat' first | with_reducible assumption | with_reducible exact Keeps.rfl | with_reducible exact id | (intro _) | with_reducible apply keeps_ite
                | extract_lets | with_reducible apply acs_keeps | with_reducible apply done_keeps | with_reducible apply putBank_keeps | split
                | with_reducible apply keeps_mk | exact fun _ => rfl | dsimp only

theorem execTackValidate_keeps (c : Acs) (s s9 : State) (hk : execTackValidate c s = .next s9) : Keeps s s9 := by
  unfold execTackValidate at hk
  cases hk
  repeat' first | with_reducible assumption | with_reducible exact Keeps.rfl | (intro _) | with_reducible apply keeps_ite | extract_lets
                | with_reducible apply acsLen_keeps | with_reducible apply done_keeps | with_reducible apply validateStaged_keeps | split
                | dsimp only

theorem execTackCommit_keeps (c : Acs) (s s9 : State) (hk : execTackCommit c s = .next s9) : Keeps s s9 := by
  unfold execTackCommit at hk
  cases hk
  repeat' first | with_reducible assumption | with_reducible exact Keeps.rfl | (intro _) | with_reducible apply keeps_ite | extract_lets
                | with_reducible apply acsLen_keeps | with_reducible apply badArgIf_keeps | with_reducible apply done_keeps
                | with_reducible apply nodeWide_keeps | with_reducible apply effTackCommit_keeps | with_reducible apply tugAll_keeps | split
                | dsimp only

theorem execTackCommitActivate_keeps (verified : Bool) (s s9 : State) (hk : execTackCommitActivate verified s = .next s9) : Keeps s s9 := by
  unfold execTackCommitActivate at hk
  cases hk
  repeat' first | with_reducible assumption | with_reducible exact Keeps.rfl | (intro _) | with_reducible apply keeps_ite | extract_lets
                | with_reducible apply commitNow_keeps | split | dsimp only

theorem execTackRead_keeps (c : Acs) (s s9 : State) (hk : execTackRead c s = .next s9) : Keeps s s9 := by
  unfold execTackRead at hk
  cases hk
  repeat' first | with_reducible assumption | with_reducible exact Keeps.rfl | with_reducible exact id | (intro _) | with_reducible apply keeps_ite
                | extract_lets | with_reducible apply acsLen_keeps | with_reducible apply badArgIf_keeps | with_reducible apply done_keeps | split
                | with_reducible apply keeps_mk | exact fun _ => rfl | dsimp only

theorem execTackStatus_keeps (c : Acs) (s s9 : State) (hk : execTackStatus c s = .next s9) : Keeps s s9 := by
  unfold execTackStatus at hk
  cases hk
  repeat' first | with_reducible assumption | with_reducible exact Keeps.rfl | with_reducible exact id | (intro _) | with_reducible apply keeps_ite
                | extract_lets | with_reducible apply acsLen_keeps | with_reducible apply done_keeps | split | with_reducible apply keeps_mk
                | exact fun _ => rfl | dsimp only

end Sys2Proof.Machine
end

