-- ==== Sys2Proof/Laws/KeepsMacsecOps.lean ====
section
/-! SUPPORT. What every operation of Machine/MacsecOps.lean keeps, said once for each: the queue, the outputs made so far, the free values used, the
invariant, protection (Keeps of Safety.lean). -/
set_option Elab.async false
set_option linter.all false
namespace Sys2Proof.Machine
theorem setSec_keeps (u0 : State) (p : Nat) (f : MacSec → MacSec) (s : State) (hk : Keeps u0 s) : Keeps u0 (setSec p f s) :=
  keeps_inv s _ hk rfl rfl rfl rfl (fun i => ⟨i.1, i.2, i.3, i.4, i.5, i.6, i.7, i.8, i.9, i.10, i.11, by simpa [setSec] using i.12, i.13, i.14, i.15⟩)

theorem sendMka_keeps (u0 : State) (p : Nat) (s : State)  (hk : Keeps u0 s) : Keeps u0 (sendMka p s) := by
  unfold sendMka
  repeat' first | with_reducible assumption | (intro _) | extract_lets | with_reducible apply sendFrame_keeps | with_reducible apply useFree_keeps
                | dsimp only

theorem newSak_keeps (u0 : State) (p : Nat) (s : State)  (hk : Keeps u0 s) : Keeps u0 (newSak p s) := by
  unfold newSak
  repeat' first | with_reducible assumption | (intro _) | with_reducible apply keeps_ite | extract_lets | with_reducible apply sendMka_keeps | split
                | dsimp only

theorem mkaNeighbour_keeps (u0 : State) (p : Nat) (n : Nid) (s : State)  (hk : Keeps u0 s) : Keeps u0 (mkaNeighbour p n s) := by
  unfold mkaNeighbour
  repeat' first | with_reducible assumption | with_reducible exact id | (intro _) | with_reducible apply keeps_ite | extract_lets
                | with_reducible apply setSec_keeps | with_reducible apply newSak_keeps | split | with_reducible apply keeps_mk | exact fun _ => rfl
                | dsimp only

theorem countPn_keeps (u0 : State) (p : Nat) (f : Frame) (s : State)  (hk : Keeps u0 s) : Keeps u0 (countPn p f s) := by
  unfold countPn
  repeat' first | with_reducible assumption | with_reducible exact id | (intro _) | with_reducible apply keeps_ite | extract_lets
                | with_reducible apply setSec_keeps | with_reducible apply newSak_keeps | split | with_reducible apply keeps_mk | exact fun _ => rfl
                | dsimp only

theorem secFail_keeps (u0 : State) (p : Nat) (kind : Nat) (s : State)  (hk : Keeps u0 s) : Keeps u0 (secFail p kind s) := by
  unfold secFail
  repeat' first | with_reducible assumption | with_reducible exact id | (intro _) | with_reducible apply keeps_ite | extract_lets
                | with_reducible apply count_keeps | with_reducible apply setSec_keeps | with_reducible apply raise_keeps
                | with_reducible apply logEvent_keeps | split | with_reducible apply keeps_mk | exact fun _ => rfl | dsimp only

theorem secStage_keeps (u0 : State) (p : Nat) (f : Frame) (v : MacsecVerdict) (s : State)  (hk : Keeps u0 s) : Keeps u0 (secStage p f v s).2 := by
  unfold secStage
  repeat' first | with_reducible assumption | with_reducible exact id | (intro _) | with_reducible apply keeps_ite | extract_lets
                | with_reducible apply secFail_keeps | with_reducible apply count_keeps | split | with_reducible apply keeps_mk | exact fun _ => rfl
                | dsimp only

theorem saSaid_keeps (u0 : State) (p : Nat) (s : State)  (hk : Keeps u0 s) : Keeps u0 (saSaid p s) := by
  unfold saSaid
  repeat' first | with_reducible assumption | (intro _) | extract_lets | with_reducible apply raise_keeps | with_reducible apply logEvent_keeps
                | dsimp only

theorem mkaLost_keeps (u0 : State) (p : Nat) (s : State)  (hk : Keeps u0 s) : Keeps u0 (mkaLost p s) := by
  unfold mkaLost
  repeat' first | with_reducible assumption | with_reducible exact id | (intro _) | with_reducible apply keeps_ite | extract_lets
                | with_reducible apply setSec_keeps | with_reducible apply saSaid_keeps | split | with_reducible apply keeps_mk | exact fun _ => rfl
                | dsimp only

end Sys2Proof.Machine
end

