-- ==== Sys2Proof/Laws/KeepsHitch.lean ====
section
/-! SUPPORT. What every operation of Machine/Hitch.lean keeps, said once for each: the queue, the outputs made so far, the free values used, the
invariant, protection (Keeps of Safety.lean). -/
set_option Elab.async false
set_option linter.all false
namespace Sys2Proof.Machine
theorem hitchAfter_keeps (u0 : State)  (s : State)  (hk : Keeps u0 s) : Keeps u0 (hitchAfter s) := by
  unfold hitchAfter
  repeat' first | with_reducible assumption | (intro _) | extract_lets | with_reducible apply wrCheck_keeps | with_reducible apply sendChanges_keeps
                | dsimp only

theorem hitchVector_keeps (u0 : State) (p : Nat) (f : HFrame) (s : State)  (hk : Keeps u0 s) : Keeps u0 (hitchVector p f s) := by
  unfold hitchVector
  repeat' first | with_reducible assumption | with_reducible exact id | (intro _) | with_reducible apply keeps_ite | extract_lets
                | with_reducible apply setVec_keeps | with_reducible apply loseNeighbour_keeps | with_reducible apply gainNeighbour_keeps
                | with_reducible apply logEvent_keeps | with_reducible apply hitchAfter_keeps | with_reducible apply review_keeps
                | with_reducible apply setHPort_keeps | with_reducible apply mkaNeighbour_keeps | split | with_reducible apply keeps_mk
                | exact fun _ => rfl | dsimp only

theorem hitchExchange_keeps (u0 : State) (p : Nat) (f : HFrame) (s : State)  (hk : Keeps u0 s) : Keeps u0 (hitchExchange p f s) := by
  unfold hitchExchange
  repeat' first | with_reducible assumption | with_reducible exact id | (intro _) | with_reducible apply keeps_ite | extract_lets
                | with_reducible apply linkExchange_keeps | with_reducible apply setHPort_keeps | split | with_reducible apply keeps_mk
                | exact fun _ => rfl | dsimp only

theorem hitchInvalid_keeps (u0 : State) (p : Nat) (s : State)  (hk : Keeps u0 s) : Keeps u0 (hitchInvalid p s) := by
  unfold hitchInvalid
  repeat' first | with_reducible assumption | with_reducible exact id | (intro _) | extract_lets | with_reducible apply setHPort_keeps
                | with_reducible apply keeps_mk | exact fun _ => rfl | dsimp only

theorem execHitchBeat_keeps  (s s9 : State) (hk : execHitchBeat s = .next s9) : Keeps s s9 := by
  unfold execHitchBeat at hk
  cases hk
  repeat' first | with_reducible assumption | with_reducible exact Keeps.rfl | with_reducible exact id | (intro _) | with_reducible apply keeps_ite
                | extract_lets | with_reducible apply sendHitch_keeps | with_reducible apply setHPort_keeps | with_reducible apply keeps_foldl
                | split | with_reducible apply keeps_mk | exact fun _ => rfl | dsimp only

theorem execHitchFrameReceive_keeps (port : Nat) (frame : Frame) (stamp : Stamp) (s s9 : State) (hk : execHitchFrameReceive port frame stamp s = .next s9) : Keeps s s9 := by
  unfold execHitchFrameReceive at hk
  cases hk
  repeat' first | with_reducible assumption | with_reducible exact Keeps.rfl | with_reducible exact id | (intro _) | with_reducible apply keeps_ite
                | extract_lets | with_reducible apply hitchInvalid_keeps | with_reducible apply setHPort_keeps
                | with_reducible apply hitchExchange_keeps | with_reducible apply hitchVector_keeps | with_reducible apply tugAll_keeps | split
                | with_reducible apply keeps_mk | exact fun _ => rfl | dsimp only

theorem hitchRelay_keeps (u0 : State) (m : List Byte) (s : State)  (hk : Keeps u0 s) : Keeps u0 (hitchRelay m s) := by
  unfold hitchRelay
  repeat' first | with_reducible assumption | with_reducible exact id | (intro _) | with_reducible apply keeps_ite | extract_lets
                | with_reducible apply hitchVector_keeps | split | with_reducible apply keeps_mk | exact fun _ => rfl | dsimp only

theorem neighbourLost_keeps (u0 : State) (p : Nat) (s : State)  (hk : Keeps u0 s) : Keeps u0 (neighbourLost p s) := by
  unfold neighbourLost
  repeat' first | with_reducible assumption | (intro _) | with_reducible apply keeps_ite | extract_lets | with_reducible apply hitchAfter_keeps
                | with_reducible apply evalInhibit_keeps | with_reducible apply tryCommit_keeps | with_reducible apply loseNeighbour_keeps
                | with_reducible apply tugAll_keeps | split | dsimp only

theorem hitchLostTold_keeps (u0 : State) (m : List Byte) (s : State)  (hk : Keeps u0 s) : Keeps u0 (hitchLostTold m s) := by
  unfold hitchLostTold
  repeat' first | with_reducible assumption | (intro _) | with_reducible apply keeps_ite | extract_lets | with_reducible apply hitchAfter_keeps
                | with_reducible apply evalInhibit_keeps | with_reducible apply tryCommit_keeps | with_reducible apply loseNeighbour_keeps | split
                | dsimp only

theorem execNeighbourLossTimeout_keeps (port : Nat) (s s9 : State) (hk : execNeighbourLossTimeout port s = .next s9) : Keeps s s9 := by
  unfold execNeighbourLossTimeout at hk
  cases hk
  repeat' first | with_reducible assumption | with_reducible exact Keeps.rfl | (intro _) | with_reducible apply keeps_ite | extract_lets
                | with_reducible apply neighbourLost_keeps | split | dsimp only

theorem execLineSettleExpiry_keeps (dir : Nat) (s s9 : State) (hk : execLineSettleExpiry dir s = .next s9) : Keeps s s9 := by
  unfold execLineSettleExpiry at hk
  cases hk
  try dsimp only
  repeat' first | with_reducible assumption | with_reducible exact Keeps.rfl | with_reducible exact id | (intro _) | with_reducible apply keeps_ite
                | with_reducible apply keeps_ite_app | with_reducible apply keeps_id | with_reducible apply setSettle_keeps
                | with_reducible apply setFault_keeps | with_reducible apply raise_keeps | with_reducible apply logEvent_keeps
                | with_reducible apply hitchAfter_keeps | with_reducible apply startRound_keeps | with_reducible apply keeps_foldl
                | with_reducible apply keeps_foldl2 | split | simp only [keeps_mk_iff] | exact id | exact fun _ => rfl
                | exact fun i => put_wf _ _ _ _ i | exact put_wf _ _ _ _ (by assumption) | (rw [setBox_len]; assumption)
                | (simp [HostIf.setBox]; done) | dsimp only

theorem execHitchPendingExpiry_keeps  (s s9 : State) (hk : execHitchPendingExpiry s = .next s9) : Keeps s s9 := by
  unfold execHitchPendingExpiry at hk
  cases hk
  repeat' first | with_reducible assumption | with_reducible exact Keeps.rfl | (intro _) | with_reducible apply keeps_ite | extract_lets
                | with_reducible apply hitchAfter_keeps | with_reducible apply startRound_keeps | split | dsimp only

theorem execBypassWindowExpiry_keeps  (s s9 : State) (hk : execBypassWindowExpiry s = .next s9) : Keeps s s9 := by
  unfold execBypassWindowExpiry at hk
  cases hk
  repeat' first | with_reducible assumption | with_reducible exact Keeps.rfl | with_reducible exact id | (intro _) | with_reducible apply keeps_ite
                | extract_lets | with_reducible apply hitchAfter_keeps | with_reducible apply uncouple_keeps | split | with_reducible apply keeps_mk
                | exact fun _ => rfl | dsimp only

theorem execHitchPropose_keeps  (s s9 : State) (hk : execHitchPropose s = .next s9) : Keeps s s9 := by
  unfold execHitchPropose at hk
  cases hk
  repeat' first | with_reducible assumption | with_reducible exact Keeps.rfl | with_reducible exact id | (intro _) | with_reducible apply keeps_ite
                | extract_lets | with_reducible apply hitchAfter_keeps | with_reducible apply refuse_keeps | with_reducible apply tryCommit_keeps
                | with_reducible apply sendChanges_keeps | split | with_reducible apply keeps_mk | exact fun _ => rfl | dsimp only

theorem takeProposal_keeps (u0 : State) (pr : Proposal) (s : State)  (hk : Keeps u0 s) : Keeps u0 (takeProposal pr s) := by
  unfold takeProposal
  repeat' first | with_reducible assumption | with_reducible exact id | (intro _) | with_reducible apply keeps_ite | extract_lets
                | with_reducible apply committed_keeps | with_reducible apply refuse_keeps | split | with_reducible apply keeps_mk
                | exact fun _ => rfl | dsimp only

theorem admitHeld_keeps (u0 : State)  (s : State)  (hk : Keeps u0 s) : Keeps u0 (admitHeld s) := by
  unfold admitHeld
  repeat' first | with_reducible assumption | with_reducible exact id | (intro _) | with_reducible apply keeps_ite | extract_lets
                | with_reducible apply setHPort_keeps | with_reducible apply keeps_foldl | split | with_reducible apply keeps_mk
                | exact fun _ => rfl | dsimp only

theorem lateCouples_keeps (u0 : State)  (s : State)  (hk : Keeps u0 s) : Keeps u0 (lateCouples s) := by
  unfold lateCouples
  repeat' first | with_reducible assumption | with_reducible exact id | (intro _) | with_reducible apply keeps_ite | extract_lets
                | with_reducible apply raise_keeps | with_reducible apply logEvent_keeps | with_reducible apply startRound_keeps
                | with_reducible apply setSettle_keeps | with_reducible apply keeps_foldl | split | with_reducible apply keeps_mk
                | exact fun _ => rfl | dsimp only

theorem hitchSwitch_keeps (u0 : State) (pr : Proposal) (s : State)  (hk : Keeps u0 s) : Keeps u0 (hitchSwitch pr s) := by
  unfold hitchSwitch
  repeat' first | with_reducible assumption | (intro _) | with_reducible apply keeps_ite | extract_lets | with_reducible apply takeProposal_keeps
                | with_reducible apply logRelease_keeps | with_reducible apply logEvent_keeps | with_reducible apply unlearn_keeps
                | with_reducible apply admitHeld_keeps | with_reducible apply rebindSessions_keeps | with_reducible apply rebindStreams_keeps
                | with_reducible apply raise_keeps | with_reducible apply startNow_keeps | with_reducible apply wrSwitch_keeps
                | with_reducible apply wtbEnds_keeps | with_reducible apply applyDueStep_keeps | with_reducible apply uncalibrated_keeps
                | with_reducible apply finishHitchWaits_keeps | with_reducible apply keeps_foldl | split | dsimp only

theorem execHitchSwitch_keeps  (s s9 : State) (hk : execHitchSwitch s = .next s9) : Keeps s s9 := by
  unfold execHitchSwitch at hk
  cases hk
  repeat' first | with_reducible assumption | with_reducible exact Keeps.rfl | with_reducible exact id | (intro _) | with_reducible apply keeps_ite
                | extract_lets | with_reducible apply hitchAfter_keeps | with_reducible apply review_keeps | with_reducible apply lateCouples_keeps
                | with_reducible apply evalInhibit_keeps | with_reducible apply hitchSwitch_keeps | split | with_reducible apply keeps_mk
                | exact fun _ => rfl | dsimp only

theorem execTtdpHelloReceive_keeps (port : Nat) (s s9 : State) (hk : execTtdpHelloReceive port s = .next s9) : Keeps s s9 := by
  unfold execTtdpHelloReceive at hk
  cases hk
  repeat' first | with_reducible assumption | with_reducible exact Keeps.rfl | with_reducible exact id | (intro _) | with_reducible apply keeps_ite
                | extract_lets | with_reducible apply setHPort_keeps | split | with_reducible apply keeps_mk | exact fun _ => rfl | dsimp only

theorem execTtdpHelloTimeout_keeps (port : Nat) (s s9 : State) (hk : execTtdpHelloTimeout port s = .next s9) : Keeps s s9 := by
  unfold execTtdpHelloTimeout at hk
  cases hk
  repeat' first | with_reducible assumption | with_reducible exact Keeps.rfl | with_reducible exact id | (intro _) | with_reducible apply keeps_ite
                | extract_lets | with_reducible apply setHPort_keeps | with_reducible apply hitchAfter_keeps | with_reducible apply enterTtdp_keeps
                | with_reducible apply modeSaid_keeps | split | with_reducible apply keeps_mk | exact fun _ => rfl | dsimp only

theorem execTtdpHelloSend_keeps  (s s9 : State) (hk : execTtdpHelloSend s = .next s9) : Keeps s s9 := by
  unfold execTtdpHelloSend at hk
  cases hk
  repeat' first | with_reducible assumption | with_reducible exact Keeps.rfl | (intro _) | with_reducible apply keeps_ite | extract_lets
                | with_reducible apply sendFrame_keeps | with_reducible apply useFree_keeps | with_reducible apply keeps_foldl | split | dsimp only

theorem execTtdpInaugurationTimer_keeps (result : Option (List TtdpNode)) (s s9 : State) (hk : execTtdpInaugurationTimer result s = .next s9) : Keeps s s9 := by
  unfold execTtdpInaugurationTimer at hk
  cases hk
  repeat' first | with_reducible assumption | with_reducible exact Keeps.rfl | with_reducible exact id | (intro _) | with_reducible apply keeps_ite
                | extract_lets | with_reducible apply useFree_keeps | with_reducible apply raise_keeps | with_reducible apply logEvent_keeps
                | with_reducible apply refuse_keeps | with_reducible apply hitchAfter_keeps | with_reducible apply committed_keeps | split
                | with_reducible apply keeps_mk | exact fun _ => rfl | dsimp only

theorem execInhibitInputChange_keeps (gpio : Nat) (level : Bool) (s s9 : State) (hk : execInhibitInputChange gpio level s = .next s9) : Keeps s s9 := by
  unfold execInhibitInputChange at hk
  cases hk
  repeat' first | with_reducible assumption | with_reducible exact Keeps.rfl | with_reducible exact id | (intro _) | with_reducible apply keeps_ite
                | extract_lets | with_reducible apply hitchAfter_keeps | with_reducible apply evalInhibit_keeps | split
                | with_reducible apply keeps_mk | exact fun _ => rfl | dsimp only

theorem execHitchStatus_keeps (c : Acs) (s s9 : State) (hk : execHitchStatus c s = .next s9) : Keeps s s9 := by
  unfold execHitchStatus at hk
  cases hk
  repeat' first | with_reducible assumption | with_reducible exact Keeps.rfl | (intro _) | extract_lets | with_reducible apply acsLen_keeps
                | with_reducible apply done_keeps | with_reducible apply refuse_keeps | dsimp only

theorem execHitchTopology_keeps (c : Acs) (s s9 : State) (hk : execHitchTopology c s = .next s9) : Keeps s s9 := by
  unfold execHitchTopology at hk
  cases hk
  repeat' first | with_reducible assumption | with_reducible exact Keeps.rfl | (intro _) | extract_lets | with_reducible apply acsLen_keeps
                | with_reducible apply done_keeps | dsimp only

theorem execHitchLinks_keeps (c : Acs) (s s9 : State) (hk : execHitchLinks c s = .next s9) : Keeps s s9 := by
  unfold execHitchLinks at hk
  cases hk
  repeat' first | with_reducible assumption | with_reducible exact Keeps.rfl | (intro _) | extract_lets | with_reducible apply acsLen_keeps
                | with_reducible apply done_keeps | dsimp only

theorem effHitchInhibit_keeps (u0 : State) (a : List Byte) (r : Option AcsRef) (s : State)  (hk : Keeps u0 s) : Keeps u0 (effHitchInhibit a r s) := by
  unfold effHitchInhibit
  repeat' first | with_reducible assumption | with_reducible exact id | (intro _) | extract_lets | with_reducible apply hitchAfter_keeps
                | with_reducible apply evalInhibit_keeps | with_reducible apply finish_keeps | with_reducible apply keeps_mk | exact fun _ => rfl
                | dsimp only

theorem execHitchInhibit_keeps (c : Acs) (s s9 : State) (hk : execHitchInhibit c s = .next s9) : Keeps s s9 := by
  unfold execHitchInhibit at hk
  cases hk
  repeat' first | with_reducible assumption | with_reducible exact Keeps.rfl | (intro _) | extract_lets | with_reducible apply acsLen_keeps
                | with_reducible apply badArgIf_keeps | with_reducible apply nodeWide_keeps | with_reducible apply effHitchInhibit_keeps
                | dsimp only

theorem effHitchRequest_keeps (u0 : State) (_a : List Byte) (r : Option AcsRef) (s : State)  (hk : Keeps u0 s) : Keeps u0 (effHitchRequest _a r s) := by
  unfold effHitchRequest
  repeat' first | with_reducible assumption | with_reducible exact id | (intro _) | with_reducible apply keeps_ite | extract_lets
                | with_reducible apply finish_keeps | with_reducible apply hitchAfter_keeps | with_reducible apply startRound_keeps | split
                | with_reducible apply keeps_mk | exact fun _ => rfl | dsimp only

theorem execHitchRequest_keeps (c : Acs) (s s9 : State) (hk : execHitchRequest c s = .next s9) : Keeps s s9 := by
  unfold execHitchRequest at hk
  cases hk
  repeat' first | with_reducible assumption | with_reducible exact Keeps.rfl | (intro _) | extract_lets | with_reducible apply acsLen_keeps
                | with_reducible apply nodeWide_keeps | with_reducible apply effHitchRequest_keeps | dsimp only

theorem execHitchRequestTimeout_keeps (mbx : Nat) (idx : Nat) (s s9 : State) (hk : execHitchRequestTimeout mbx idx s = .next s9) : Keeps s s9 := by
  unfold execHitchRequestTimeout at hk
  cases hk
  repeat' first | with_reducible assumption | with_reducible exact Keeps.rfl | (intro _) | extract_lets
                | with_reducible apply finishHitchWaits_keeps | dsimp only

theorem execHitchWait_keeps (c : Acs) (s s9 : State) (hk : execHitchWait c s = .next s9) : Keeps s s9 := by
  unfold execHitchWait at hk
  cases hk
  repeat' first | with_reducible assumption | with_reducible exact Keeps.rfl | with_reducible exact id | (intro _) | with_reducible apply keeps_ite
                | extract_lets | with_reducible apply acsLen_keeps | with_reducible apply badArgIf_keeps | with_reducible apply done_keeps | split
                | with_reducible apply keeps_mk | exact fun _ => rfl | dsimp only

theorem execHitchWaitTimeout_keeps (mbx : Nat) (idx : Nat) (s s9 : State) (hk : execHitchWaitTimeout mbx idx s = .next s9) : Keeps s s9 := by
  unfold execHitchWaitTimeout at hk
  cases hk
  repeat' first | with_reducible assumption | with_reducible exact Keeps.rfl | (intro _) | extract_lets
                | with_reducible apply finishHitchWaits_keeps | dsimp only

end Sys2Proof.Machine
end

