-- ==== Sys2Proof/Laws/KeepsStream.lean ====
section
/-! SUPPORT. What every operation of Machine/Stream.lean keeps, said once for each: the queue, the outputs made so far, the free values used, the
invariant, protection (Keeps of Safety.lean). -/
set_option Elab.async false
set_option linter.all false
namespace Sys2Proof.Machine
theorem execStreamSnapshot_keeps (ctx : Nat) (err : Nat) (s s9 : State) (hk : execStreamSnapshot ctx err s = .next s9) : Keeps s s9 := by
  unfold execStreamSnapshot at hk
  cases hk
  repeat' first | with_reducible assumption | with_reducible exact Keeps.rfl | with_reducible exact id | (intro _) | with_reducible apply keeps_ite
                | extract_lets | with_reducible apply ctxParity_keeps | with_reducible apply setCtx_keeps | with_reducible apply bumpSeq_keeps
                | with_reducible apply skipSnapshot_keeps | with_reducible apply snapshot_keeps | split | with_reducible apply keeps_mk
                | exact fun _ => rfl | dsimp only

theorem execFreshTimeoutExpiry_keeps (ctx : Nat) (s s9 : State) (hk : execFreshTimeoutExpiry ctx s = .next s9) : Keeps s s9 := by
  unfold execFreshTimeoutExpiry at hk
  cases hk
  repeat' first | with_reducible assumption | with_reducible exact Keeps.rfl | with_reducible exact id | (intro _) | with_reducible apply keeps_ite
                | extract_lets | with_reducible apply count_keeps | with_reducible apply setCtx_keeps | with_reducible apply logEvent_keeps
                | with_reducible apply streamInhibit_keeps | with_reducible apply raise_keeps | split | with_reducible apply keeps_mk
                | exact fun _ => rfl | dsimp only

theorem execHoldPeriodsExpiry_keeps (ctx : Nat) (s s9 : State) (hk : execHoldPeriodsExpiry ctx s = .next s9) : Keeps s s9 := by
  unfold execHoldPeriodsExpiry at hk
  cases hk
  repeat' first | with_reducible assumption | with_reducible exact Keeps.rfl | with_reducible exact id | (intro _) | with_reducible apply keeps_ite
                | extract_lets | with_reducible apply setCtx_keeps | split | with_reducible apply keeps_mk | exact fun _ => rfl | dsimp only

theorem execSwitchGraceExpiry_keeps  (s s9 : State) (hk : execSwitchGraceExpiry s = .next s9) : Keeps s s9 := by
  unfold execSwitchGraceExpiry at hk
  cases hk
  repeat' first | with_reducible assumption | with_reducible exact Keeps.rfl | with_reducible exact id | (intro _) | extract_lets
                | with_reducible apply keeps_mk | exact fun _ => rfl | dsimp only

theorem execCtxReload_keeps (ctx : Nat) (s s9 : State) (hk : execCtxReload ctx s = .next s9) : Keeps s s9 := by
  unfold execCtxReload at hk
  cases hk
  repeat' first | with_reducible assumption | with_reducible exact Keeps.rfl | with_reducible exact id | (intro _) | with_reducible apply keeps_ite
                | extract_lets | with_reducible apply streamEnable_keeps | with_reducible apply setCtx_keeps | split | with_reducible apply keeps_mk
                | exact fun _ => rfl | dsimp only

theorem streamToHost_keeps (u0 : State) (n : Nat) (port : Nat) (c : StreamCtx) (f : Frame) (stamp : Stamp) (s : State)  (hk : Keeps u0 s) : Keeps u0 (streamToHost n port c f stamp s) := by
  unfold streamToHost
  repeat' first | with_reducible assumption | with_reducible exact id | (intro _) | with_reducible apply keeps_ite | extract_lets
                | with_reducible apply rxOffer_keeps | with_reducible apply bumpUid_keeps | split | with_reducible apply keeps_mk
                | exact fun _ => rfl | dsimp only

theorem passToTask_keeps (u0 : State) (n : Nat) (port : Nat) (c : StreamCtx) (f : Frame) (s : State)  (hk : Keeps u0 s) : Keeps u0 (passToTask n port c f s) := by
  unfold passToTask
  repeat' first | with_reducible assumption | (intro _) | with_reducible apply keeps_ite | extract_lets | with_reducible apply sendSegments_keeps
                | with_reducible apply keeps_foldl | split | dsimp only

theorem streamReceive_keeps (u0 : State) (n : Nat) (port : Nat) (f : Frame) (stamp : Stamp) (err : Nat) (own : Bool) (s : State)  (hk : Keeps u0 s) : Keeps u0 (streamReceive n port f stamp err own s) := by
  unfold streamReceive
  repeat' first | with_reducible assumption | with_reducible exact id | (intro _) | with_reducible apply keeps_ite | extract_lets
                | with_reducible apply dropSub_keeps | with_reducible apply ctxParity_keeps | with_reducible apply setCtx_keeps
                | with_reducible apply streamToHost_keeps | with_reducible apply acceptSub_keeps | with_reducible apply streamInhibit_keeps
                | with_reducible apply passToTask_keeps | split | with_reducible apply keeps_mk | exact fun _ => rfl | dsimp only

theorem execStreamFrameReceive_keeps (ctx : Nat) (port : Nat) (frame : Frame) (stamp : Stamp) (err : Nat) (s s9 : State) (hk : execStreamFrameReceive ctx port frame stamp err s = .next s9) : Keeps s s9 := by
  unfold execStreamFrameReceive at hk
  cases hk
  repeat' first | with_reducible assumption | with_reducible exact Keeps.rfl | (intro _) | extract_lets | with_reducible apply streamReceive_keeps
                | dsimp only

theorem payloadBad_keeps (u0 : State) (n : Nat) (s : State)  (hk : Keeps u0 s) : Keeps u0 (payloadBad n s) := by
  unfold payloadBad
  repeat' first | with_reducible assumption | with_reducible exact id | (intro _) | with_reducible apply keeps_ite | extract_lets
                | with_reducible apply ctxParity_keeps | with_reducible apply setCtx_keeps | split | with_reducible apply keeps_mk
                | exact fun _ => rfl | dsimp only

theorem onCtx_keeps (u0 : State) (c : Acs) (opcode : Nat) (body : StreamCtx → State → State) (s : State) (h_body : ∀ (x0 : StreamCtx) (s9 : State), Keeps u0 s9 → Keeps u0 (body x0 s9)) (hk : Keeps u0 s) : Keeps u0 (onCtx c opcode body s) := by
  unfold onCtx
  repeat' first | with_reducible assumption | with_reducible exact id | (intro _) | with_reducible apply keeps_ite | extract_lets | apply h_body
                | with_reducible apply done_keeps | split | with_reducible apply keeps_mk | exact fun _ => rfl | dsimp only

theorem execStreamStatus_keeps (c : Acs) (s s9 : State) (hk : execStreamStatus c s = .next s9) : Keeps s s9 := by
  unfold execStreamStatus at hk
  cases hk
  repeat' first | with_reducible assumption | with_reducible exact Keeps.rfl | (intro _) | with_reducible apply keeps_ite | extract_lets
                | with_reducible apply acsLen_keeps | with_reducible apply badArgIf_keeps | with_reducible apply onCtx_keeps
                | with_reducible apply done_keeps | split | dsimp only

theorem execStreamRead_keeps (c : Acs) (s s9 : State) (hk : execStreamRead c s = .next s9) : Keeps s s9 := by
  unfold execStreamRead at hk
  cases hk
  repeat' first | with_reducible assumption | with_reducible exact Keeps.rfl | (intro _) | extract_lets | with_reducible apply acsLen_keeps
                | with_reducible apply badArgIf_keeps | with_reducible apply onCtx_keeps | with_reducible apply done_keeps | dsimp only

theorem effStreamPut_keeps (u0 : State) (a : List Byte) (r : Option AcsRef) (s : State)  (hk : Keeps u0 s) : Keeps u0 (effStreamPut a r s) := by
  unfold effStreamPut
  repeat' first | with_reducible assumption | (intro _) | extract_lets | with_reducible apply finish_keeps | with_reducible apply streamPut_keeps
                | dsimp only

theorem effStreamLine_keeps (u0 : State) (a : List Byte) (r : Option AcsRef) (s : State)  (hk : Keeps u0 s) : Keeps u0 (effStreamLine a r s) := by
  unfold effStreamLine
  repeat' first | with_reducible assumption | (intro _) | extract_lets | with_reducible apply finish_keeps | with_reducible apply streamLine_keeps
                | dsimp only

theorem effStreamEnable_keeps (u0 : State) (a : List Byte) (r : Option AcsRef) (s : State)  (hk : Keeps u0 s) : Keeps u0 (effStreamEnable a r s) := by
  unfold effStreamEnable
  repeat' first | with_reducible assumption | (intro _) | extract_lets | with_reducible apply finish_keeps | with_reducible apply streamEnable_keeps
                | dsimp only

theorem execStreamPut_keeps (c : Acs) (s s9 : State) (hk : execStreamPut c s = .next s9) : Keeps s s9 := by
  unfold execStreamPut at hk
  cases hk
  repeat' first | with_reducible assumption | with_reducible exact Keeps.rfl | (intro _) | with_reducible apply keeps_ite | extract_lets
                | with_reducible apply acs_keeps | with_reducible apply done_keeps | with_reducible apply onCtx_keeps
                | with_reducible apply nodeWide_keeps | with_reducible apply effStreamPut_keeps | split | dsimp only

theorem execStreamGet_keeps (c : Acs) (s s9 : State) (hk : execStreamGet c s = .next s9) : Keeps s s9 := by
  unfold execStreamGet at hk
  cases hk
  repeat' first | with_reducible assumption | with_reducible exact Keeps.rfl | with_reducible exact id | (intro _) | with_reducible apply keeps_ite
                | extract_lets | with_reducible apply acsLen_keeps | with_reducible apply badArgIf_keeps | with_reducible apply onCtx_keeps
                | with_reducible apply done_keeps | split | with_reducible apply keeps_mk | exact fun _ => rfl | dsimp only

theorem execStreamLine_keeps (c : Acs) (s s9 : State) (hk : execStreamLine c s = .next s9) : Keeps s s9 := by
  unfold execStreamLine at hk
  cases hk
  repeat' first | with_reducible assumption | with_reducible exact Keeps.rfl | (intro _) | with_reducible apply keeps_ite | extract_lets
                | with_reducible apply acsLen_keeps | with_reducible apply badArgIf_keeps | with_reducible apply onCtx_keeps
                | with_reducible apply done_keeps | with_reducible apply nodeWide_keeps | with_reducible apply effStreamLine_keeps | split
                | dsimp only

theorem execStreamEnable_keeps (c : Acs) (s s9 : State) (hk : execStreamEnable c s = .next s9) : Keeps s s9 := by
  unfold execStreamEnable at hk
  cases hk
  repeat' first | with_reducible assumption | with_reducible exact Keeps.rfl | (intro _) | with_reducible apply keeps_ite | extract_lets
                | with_reducible apply acsLen_keeps | with_reducible apply badArgIf_keeps | with_reducible apply onCtx_keeps
                | with_reducible apply done_keeps | with_reducible apply nodeWide_keeps | with_reducible apply effStreamEnable_keeps | split
                | dsimp only

end Sys2Proof.Machine
end

