-- ==== Sys2Proof/Laws/KeepsTime.lean ====
section
/-! SUPPORT. What every operation of Machine/Time.lean keeps, said once for each: the queue, the outputs made so far, the free values used, the
invariant, protection (Keeps of Safety.lean). -/
set_option Elab.async false
set_option linter.all false
namespace Sys2Proof.Machine
theorem countReturn_keeps (u0 : State) (offset : Int) (s : State)  (hk : Keeps u0 s) : Keeps u0 (countReturn offset s) := by
  unfold countReturn
  repeat' first | with_reducible assumption | with_reducible exact id | (intro _) | with_reducible apply keeps_ite | extract_lets
                | with_reducible apply setDomain_keeps | with_reducible apply selectSlewed_keeps | split | with_reducible apply keeps_mk
                | exact fun _ => rfl | dsimp only

theorem syncDomain_keeps (u0 : State) (i : Nat) (offset : Int) (s : State)  (hk : Keeps u0 s) : Keeps u0 (syncDomain i offset s) := by
  unfold syncDomain
  repeat' first | with_reducible assumption | with_reducible exact id | (intro _) | with_reducible apply keeps_ite | extract_lets
                | with_reducible apply acceptStep_keeps | with_reducible apply servo_keeps | with_reducible apply logEvent_keeps
                | with_reducible apply setDomSt_keeps | with_reducible apply setDomain_keeps | with_reducible apply count_keeps
                | with_reducible apply trySwitch_keeps | split | with_reducible apply keeps_mk | exact fun _ => rfl | dsimp only

theorem takeSync_keeps (u0 : State) (dom : Nat) (line : Line) (offset : Int) (s : State)  (hk : Keeps u0 s) : Keeps u0 (takeSync dom line offset s) := by
  unfold takeSync
  repeat' first | with_reducible assumption | with_reducible exact id | (intro _) | with_reducible apply keeps_ite | extract_lets
                | with_reducible apply setDomain_keeps | with_reducible apply tugAll_keeps | with_reducible apply syncDomain_keeps
                | with_reducible apply countReturn_keeps | split | with_reducible apply keeps_mk | exact fun _ => rfl | dsimp only

theorem execSyncReceive_keeps (dom : Nat) (line : Line) (offset : Int) (s s9 : State) (hk : execSyncReceive dom line offset s = .next s9) : Keeps s s9 := by
  unfold execSyncReceive at hk
  cases hk
  repeat' first | with_reducible assumption | with_reducible exact Keeps.rfl | (intro _) | with_reducible apply keeps_ite | extract_lets
                | with_reducible apply tugAll_keeps | with_reducible apply takeSync_keeps | split | dsimp only

theorem execSyncTimeout_keeps (dom : Nat) (s s9 : State) (hk : execSyncTimeout dom s = .next s9) : Keeps s s9 := by
  unfold execSyncTimeout at hk
  cases hk
  repeat' first | with_reducible assumption | with_reducible exact Keeps.rfl | with_reducible exact id | (intro _) | with_reducible apply keeps_ite
                | extract_lets | with_reducible apply logEvent_keeps | with_reducible apply setDomSt_keeps | with_reducible apply setDomain_keeps
                | with_reducible apply count_keeps | with_reducible apply trySwitch_keeps | split | with_reducible apply keeps_mk
                | exact fun _ => rfl | dsimp only

theorem elected_keeps (u0 : State) (dom : Nat) (gm : Nid) (own : Bool) (s : State)  (hk : Keeps u0 s) : Keeps u0 (elected dom gm own s) := by
  unfold elected
  repeat' first | with_reducible assumption | with_reducible exact id | (intro _) | with_reducible apply keeps_ite | extract_lets
                | with_reducible apply gmChange_keeps | with_reducible apply setDomain_keeps | split | with_reducible apply keeps_mk
                | exact fun _ => rfl | dsimp only

theorem execAnnounceReceive_keeps (dom : Nat) (gm : Nid) (own : Bool) (s s9 : State) (hk : execAnnounceReceive dom gm own s = .next s9) : Keeps s s9 := by
  unfold execAnnounceReceive at hk
  cases hk
  repeat' first | with_reducible assumption | with_reducible exact Keeps.rfl | (intro _) | extract_lets | with_reducible apply elected_keeps
                | dsimp only

theorem execAnnounceTimeout_keeps (dom : Nat) (port : Nat) (gm : Nid) (own : Bool) (s s9 : State) (hk : execAnnounceTimeout dom port gm own s = .next s9) : Keeps s s9 := by
  unfold execAnnounceTimeout at hk
  cases hk
  repeat' first | with_reducible assumption | with_reducible exact Keeps.rfl | (intro _) | with_reducible apply keeps_ite | extract_lets
                | with_reducible apply elected_keeps | split | dsimp only

theorem sendGptp_keeps (u0 : State) (p : Nat) (s : State)  (hk : Keeps u0 s) : Keeps u0 (sendGptp p s) := by
  unfold sendGptp
  repeat' first | with_reducible assumption | (intro _) | extract_lets | with_reducible apply sendFrame_keeps | with_reducible apply useFree_keeps
                | dsimp only

theorem execAnnounceSend_keeps (dom : Nat) (ports : List Nat) (s s9 : State) (hk : execAnnounceSend dom ports s = .next s9) : Keeps s s9 := by
  unfold execAnnounceSend at hk
  cases hk
  repeat' first | with_reducible assumption | with_reducible exact Keeps.rfl | (intro _) | with_reducible apply keeps_ite | extract_lets
                | with_reducible apply sendGptp_keeps | with_reducible apply keeps_foldl | split | dsimp only

theorem execSyncIntervalTick_keeps (dom : Nat) (ports : List Nat) (s s9 : State) (hk : execSyncIntervalTick dom ports s = .next s9) : Keeps s s9 := by
  unfold execSyncIntervalTick at hk
  cases hk
  repeat' first | with_reducible assumption | with_reducible exact Keeps.rfl | with_reducible exact id | (intro _) | with_reducible apply keeps_ite
                | extract_lets | with_reducible apply sendGptp_keeps | with_reducible apply moveCorrections_keeps
                | with_reducible apply setDomain_keeps | with_reducible apply stepDomain_keeps | with_reducible apply keeps_foldl | split
                | with_reducible apply keeps_mk | exact fun _ => rfl | dsimp only

theorem execPdelayMessageReceive_keeps (port : Nat) (typ : Nat) (delay : Nat) (s s9 : State) (hk : execPdelayMessageReceive port typ delay s = .next s9) : Keeps s s9 := by
  unfold execPdelayMessageReceive at hk
  cases hk
  repeat' first | with_reducible assumption | with_reducible exact Keeps.rfl | with_reducible exact id | (intro _) | with_reducible apply keeps_ite
                | extract_lets | with_reducible apply sendGptp_keeps | split | with_reducible apply keeps_mk | exact fun _ => rfl | dsimp only

theorem execPdelayRequestSend_keeps (port : Nat) (s s9 : State) (hk : execPdelayRequestSend port s = .next s9) : Keeps s s9 := by
  unfold execPdelayRequestSend at hk
  cases hk
  repeat' first | with_reducible assumption | with_reducible exact Keeps.rfl | with_reducible exact id | (intro _) | with_reducible apply keeps_ite
                | extract_lets | with_reducible apply sendGptp_keeps | split | with_reducible apply keeps_mk | exact fun _ => rfl | dsimp only

theorem execSlewTermReturnsTo0_keeps  (s s9 : State) (hk : execSlewTermReturnsTo0 s = .next s9) : Keeps s s9 := by
  unfold execSlewTermReturnsTo0 at hk
  cases hk
  repeat' first | with_reducible assumption | with_reducible exact Keeps.rfl | with_reducible exact id | (intro _) | extract_lets
                | with_reducible apply keeps_mk | exact fun _ => rfl | dsimp only

theorem execBackupCounterWrite_keeps  (s s9 : State) (hk : execBackupCounterWrite s = .next s9) : Keeps s s9 := by
  unfold execBackupCounterWrite at hk
  cases hk
  repeat' first | with_reducible assumption | with_reducible exact Keeps.rfl | with_reducible exact id | (intro _) | with_reducible apply keeps_ite
                | extract_lets | split | with_reducible apply keeps_mk | exact fun _ => rfl | dsimp only

theorem drivePps_keeps (u0 : State) (active : Bool) (s : State)  (hk : Keeps u0 s) : Keeps u0 (drivePps active s) := by
  unfold drivePps
  repeat' first | with_reducible assumption | (intro _) | with_reducible apply keeps_ite | extract_lets | with_reducible apply drivePin_keeps
                | split | dsimp only

theorem execPpsOutPulse_keeps  (s s9 : State) (hk : execPpsOutPulse s = .next s9) : Keeps s s9 := by
  unfold execPpsOutPulse at hk
  cases hk
  repeat' first | with_reducible assumption | with_reducible exact Keeps.rfl | (intro _) | with_reducible apply keeps_ite | extract_lets
                | with_reducible apply drivePps_keeps | split | dsimp only

theorem execPpsOutPulseEnd_keeps  (s s9 : State) (hk : execPpsOutPulseEnd s = .next s9) : Keeps s s9 := by
  unfold execPpsOutPulseEnd at hk
  cases hk
  repeat' first | with_reducible assumption | with_reducible exact Keeps.rfl | (intro _) | with_reducible apply keeps_ite | extract_lets
                | with_reducible apply drivePps_keeps | split | dsimp only

theorem setTrainTime_keeps (u0 : State) (i : Nat) (delta : Int) (s : State)  (hk : Keeps u0 s) : Keeps u0 (setTrainTime i delta s) := by
  unfold setTrainTime
  repeat' first | with_reducible assumption | with_reducible exact id | (intro _) | with_reducible apply keeps_ite | extract_lets
                | with_reducible apply servo_keeps | split | with_reducible apply keeps_mk | exact fun _ => rfl | dsimp only

theorem execPpsInEdge_keeps (stamp : Stamp) (highNs : Nat) (s s9 : State) (hk : execPpsInEdge stamp highNs s = .next s9) : Keeps s s9 := by
  unfold execPpsInEdge at hk
  cases hk
  repeat' first | with_reducible assumption | with_reducible exact Keeps.rfl | with_reducible exact id | (intro _) | with_reducible apply keeps_ite
                | extract_lets | with_reducible apply raise_keeps | with_reducible apply servo_keeps | with_reducible apply setTrainTime_keeps
                | with_reducible apply finish_keeps | with_reducible apply keeps_foldl | split | with_reducible apply keeps_mk | exact fun _ => rfl
                | dsimp only

theorem execTimeChangeEffective_keeps  (s s9 : State) (hk : execTimeChangeEffective s = .next s9) : Keeps s s9 := by
  unfold execTimeChangeEffective at hk
  cases hk
  repeat' first | with_reducible assumption | with_reducible exact Keeps.rfl | with_reducible exact id | (intro _) | with_reducible apply keeps_ite
                | extract_lets | with_reducible apply applyChange_keeps | split | with_reducible apply keeps_mk | exact fun _ => rfl | dsimp only

theorem execTimeStatus_keeps (c : Acs) (s s9 : State) (hk : execTimeStatus c s = .next s9) : Keeps s s9 := by
  unfold execTimeStatus at hk
  cases hk
  repeat' first | with_reducible assumption | with_reducible exact Keeps.rfl | (intro _) | extract_lets | with_reducible apply acsLen_keeps
                | with_reducible apply done_keeps | dsimp only

theorem timeSelect_keeps (u0 : State) (i : Nat) (stepOk : Bool) (s : State)  (hk : Keeps u0 s) : Keeps u0 (timeSelect i stepOk s).2 := by
  unfold timeSelect
  repeat' first | with_reducible assumption | with_reducible exact id | (intro _) | with_reducible apply keeps_ite | extract_lets
                | with_reducible apply setDomain_keeps | with_reducible apply raise_keeps | with_reducible apply switchSaid_keeps
                | with_reducible apply changeTime_keeps | with_reducible apply selectSlewed_keeps | split | with_reducible apply keeps_mk
                | exact fun _ => rfl | dsimp only

theorem effTimeSelect_keeps (u0 : State) (a : List Byte) (r : Option AcsRef) (s : State)  (hk : Keeps u0 s) : Keeps u0 (effTimeSelect a r s) := by
  unfold effTimeSelect
  repeat' first | with_reducible assumption | (intro _) | with_reducible apply keeps_ite | extract_lets | with_reducible apply timeSelect_keeps
                | with_reducible apply finish_keeps | split | dsimp only

theorem execTimeSelect_keeps (c : Acs) (s s9 : State) (hk : execTimeSelect c s = .next s9) : Keeps s s9 := by
  unfold execTimeSelect at hk
  cases hk
  repeat' first | with_reducible assumption | with_reducible exact Keeps.rfl | (intro _) | extract_lets | with_reducible apply acsLen_keeps
                | with_reducible apply badArgIf_keeps | with_reducible apply nodeWide_keeps | with_reducible apply effTimeSelect_keeps | dsimp only

theorem effTimeSet_keeps (u0 : State) (a : List Byte) (ref : Option AcsRef) (s : State)  (hk : Keeps u0 s) : Keeps u0 (effTimeSet a ref s) := by
  unfold effTimeSet
  repeat' first | with_reducible assumption | with_reducible exact id | (intro _) | with_reducible apply keeps_ite | extract_lets
                | with_reducible apply finish_keeps | with_reducible apply setTrainTime_keeps | split | with_reducible apply keeps_mk
                | exact fun _ => rfl | dsimp only

theorem execTimeSet_keeps (c : Acs) (s s9 : State) (hk : execTimeSet c s = .next s9) : Keeps s s9 := by
  unfold execTimeSet at hk
  cases hk
  repeat' first | with_reducible assumption | with_reducible exact Keeps.rfl | (intro _) | extract_lets | with_reducible apply acsLen_keeps
                | with_reducible apply badArgIf_keeps | with_reducible apply nodeWide_keeps | with_reducible apply effTimeSet_keeps | dsimp only

theorem execTimeSetTimeout_keeps  (s s9 : State) (hk : execTimeSetTimeout s = .next s9) : Keeps s s9 := by
  unfold execTimeSetTimeout at hk
  cases hk
  repeat' first | with_reducible assumption | with_reducible exact Keeps.rfl | with_reducible exact id | (intro _) | with_reducible apply keeps_ite
                | extract_lets | with_reducible apply finish_keeps | split | with_reducible apply keeps_mk | exact fun _ => rfl | dsimp only

theorem execTimeConvert_keeps (c : Acs) (s s9 : State) (hk : execTimeConvert c s = .next s9) : Keeps s s9 := by
  unfold execTimeConvert at hk
  cases hk
  repeat' first | with_reducible assumption | with_reducible exact Keeps.rfl | (intro _) | with_reducible apply keeps_ite | extract_lets
                | with_reducible apply acsLen_keeps | with_reducible apply badArgIf_keeps | with_reducible apply done_keeps | split | dsimp only

theorem execTimeLinks_keeps (c : Acs) (s s9 : State) (hk : execTimeLinks c s = .next s9) : Keeps s s9 := by
  unfold execTimeLinks at hk
  cases hk
  repeat' first | with_reducible assumption | with_reducible exact Keeps.rfl | (intro _) | extract_lets | with_reducible apply acsLen_keeps
                | with_reducible apply done_keeps | dsimp only

theorem execTimePps_keeps (c : Acs) (s s9 : State) (hk : execTimePps c s = .next s9) : Keeps s s9 := by
  unfold execTimePps at hk
  cases hk
  repeat' first | with_reducible assumption | with_reducible exact Keeps.rfl | with_reducible exact id | (intro _) | with_reducible apply keeps_ite
                | extract_lets | with_reducible apply acsLen_keeps | with_reducible apply badArgIf_keeps | with_reducible apply done_keeps
                | with_reducible apply drivePps_keeps | split | with_reducible apply keeps_mk | exact fun _ => rfl | dsimp only

end Sys2Proof.Machine
end

