-- ==== Sys2Proof/Laws/KeepsVoteOps.lean ====
section
/-! SUPPORT. What every operation of Machine/VoteOps.lean keeps, said once for each: the queue, the outputs made so far, the free values used, the
invariant, protection (Keeps of Safety.lean). -/
set_option Elab.async false
set_option linter.all false
namespace Sys2Proof.Machine
theorem agree_keeps (u0 : State) (n : Nat) (s : State)  (hk : Keeps u0 s) : Keeps u0 (agree n s) := by
  unfold agree
  repeat' first | with_reducible assumption | with_reducible exact id | (intro _) | with_reducible apply keeps_ite | extract_lets
                | with_reducible apply makeReady_keeps | with_reducible apply countN_keeps | split | with_reducible apply keeps_mk
                | exact fun _ => rfl | dsimp only

theorem tryAgree_keeps (u0 : State) (n : Nat) (s : State)  (hk : Keeps u0 s) : Keeps u0 (tryAgree n s) := by
  unfold tryAgree
  repeat' first | with_reducible assumption | with_reducible exact id | (intro _) | with_reducible apply keeps_ite | extract_lets
                | with_reducible apply agree_keeps | split | with_reducible apply keeps_mk | exact fun _ => rfl | dsimp only

theorem offerImage_keeps (u0 : State) (n : Nat) (img : List Byte) (s : State)  (hk : Keeps u0 s) : Keeps u0 (offerImage n img s) := by
  unfold offerImage
  repeat' first | with_reducible assumption | with_reducible exact id | (intro _) | with_reducible apply keeps_ite | extract_lets
                | with_reducible apply setTask_keeps | with_reducible apply tryAgree_keeps | with_reducible apply sendParts_keeps
                | with_reducible apply agree_keeps | with_reducible apply keeps_foldl | split | with_reducible apply keeps_mk | exact fun _ => rfl
                | dsimp only

theorem passState_keeps (u0 : State) (n : Nat) (old : List Byte) (s : State)  (hk : Keeps u0 s) : Keeps u0 (passState n old s) := by
  unfold passState
  repeat' first | with_reducible assumption | with_reducible exact id | (intro _) | with_reducible apply keeps_ite | extract_lets
                | with_reducible apply migCommitted_keeps | with_reducible apply streamState_keeps | with_reducible apply keeps_foldl | split
                | with_reducible apply keeps_mk | exact fun _ => rfl | dsimp only

theorem commitAlone_keeps (u0 : State) (n : Nat) (s : State)  (hk : Keeps u0 s) : Keeps u0 (commitAlone n s) := by
  unfold commitAlone
  repeat' first | with_reducible assumption | with_reducible exact id | (intro _) | with_reducible apply keeps_ite | extract_lets
                | with_reducible apply commitTask_keeps | with_reducible apply wrMeasure_keeps | with_reducible apply count_keeps
                | with_reducible apply passState_keeps | with_reducible apply committed_keeps | split | with_reducible apply keeps_mk
                | exact fun _ => rfl | dsimp only

theorem dissentSelf_keeps (u0 : State) (n : Nat) (source : Option Nat) (s : State)  (hk : Keeps u0 s) : Keeps u0 (dissentSelf n source s) := by
  unfold dissentSelf
  repeat' first | with_reducible assumption | with_reducible exact id | (intro _) | with_reducible apply keeps_ite | extract_lets
                | with_reducible apply count_keeps | with_reducible apply requestFull_keeps | with_reducible apply excludeSelf_keeps | split
                | with_reducible apply keeps_mk | exact fun _ => rfl | dsimp only

theorem commitDissent_keeps (u0 : State) (n : Nat) (image : List Byte) (s : State)  (hk : Keeps u0 s) : Keeps u0 (commitDissent n image s) := by
  unfold commitDissent
  repeat' first | with_reducible assumption | with_reducible exact id | (intro _) | extract_lets | with_reducible apply commitOutput_keeps
                | with_reducible apply setTask_keeps | with_reducible apply count_keeps | with_reducible apply keeps_mk | exact fun _ => rfl
                | dsimp only

theorem vote_keeps (u0 : State) (n : Nat) (s : State)  (hk : Keeps u0 s) : Keeps u0 (vote n s) := by
  unfold vote
  try dsimp only
  repeat' first | with_reducible assumption | with_reducible exact Keeps.rfl | with_reducible exact id | (intro _) | with_reducible apply keeps_ite
                | with_reducible apply keeps_ite_app | with_reducible apply keeps_id | with_reducible apply count_keeps
                | with_reducible apply committed_keeps | with_reducible apply passState_keeps | with_reducible apply commitEnd_keeps
                | with_reducible apply commitOutput_keeps | with_reducible apply commitBank_keeps | with_reducible apply wrMeasure_keeps
                | with_reducible apply commitDissent_keeps | with_reducible apply raise_keeps | with_reducible apply logEvent_keeps
                | with_reducible apply dissentSelf_keeps | with_reducible apply heldCommit_keeps | with_reducible apply setTask_keeps
                | with_reducible apply taskFault_keeps | with_reducible apply keeps_foldl | with_reducible apply keeps_foldl2 | split
                | simp only [keeps_mk_iff] | exact id | exact fun _ => rfl | exact fun i => put_wf _ _ _ _ i | exact put_wf _ _ _ _ (by assumption)
                | (rw [setBox_len]; assumption) | (simp [HostIf.setBox]; done) | dsimp only

theorem tryVote_keeps (u0 : State) (n : Nat) (s : State)  (hk : Keeps u0 s) : Keeps u0 (tryVote n s) := by
  unfold tryVote
  repeat' first | with_reducible assumption | with_reducible exact id | (intro _) | with_reducible apply keeps_ite | extract_lets
                | with_reducible apply vote_keeps | split | with_reducible apply keeps_mk | exact fun _ => rfl | dsimp only

theorem offerOutput_keeps (u0 : State) (n : Nat) (present : Bool) (s : State)  (hk : Keeps u0 s) : Keeps u0 (offerOutput n present s) := by
  unfold offerOutput
  repeat' first | with_reducible assumption | with_reducible exact id | (intro _) | with_reducible apply keeps_ite | extract_lets
                | with_reducible apply committed_keeps | with_reducible apply sendParts_keeps | with_reducible apply agree_keeps
                | with_reducible apply tugSend_keeps | with_reducible apply tryVote_keeps | with_reducible apply keeps_foldl | split
                | with_reducible apply keeps_mk | exact fun _ => rfl | dsimp only

theorem commitSingle_keeps (u0 : State) (n : Nat) (s : State)  (hk : Keeps u0 s) : Keeps u0 (commitSingle n s) := by
  unfold commitSingle
  repeat' first | with_reducible assumption | (intro _) | with_reducible apply keeps_ite | extract_lets | with_reducible apply commitAlone_keeps
                | with_reducible apply taskFault_keeps | split | dsimp only

theorem joinTask_keeps (u0 : State) (n : Nat) (t : Task) (s : State)  (hk : Keeps u0 s) : Keeps u0 (joinTask n t s) := by
  unfold joinTask
  repeat' first | with_reducible assumption | with_reducible exact id | (intro _) | with_reducible apply keeps_ite | extract_lets
                | with_reducible apply assignPair_keeps | with_reducible apply setTask_keeps | with_reducible apply committed_keeps | split
                | with_reducible apply keeps_mk | exact fun _ => rfl | dsimp only

theorem becomeMember_keeps (u0 : State)  (s : State)  (hk : Keeps u0 s) : Keeps u0 (becomeMember s) := by
  unfold becomeMember
  repeat' first | with_reducible assumption | with_reducible exact id | (intro _) | with_reducible apply keeps_ite | extract_lets
                | with_reducible apply joinControl_keeps | with_reducible apply joinTask_keeps | with_reducible apply assertClaim_keeps
                | with_reducible apply logEvent_keeps | with_reducible apply keeps_foldl | split | with_reducible apply keeps_mk
                | exact fun _ => rfl | dsimp only

theorem leaderTakes_keeps (u0 : State) (was : Bool) (s : State)  (hk : Keeps u0 s) : Keeps u0 (leaderTakes was s) := by
  unfold leaderTakes
  repeat' first | with_reducible assumption | (intro _) | with_reducible apply keeps_ite | extract_lets | with_reducible apply takeTask_keeps
                | with_reducible apply keeps_foldl | split | dsimp only

end Sys2Proof.Machine
end

