-- ==== Sys2Proof/Laws/KeepsRedund.lean ====
section
/-! SUPPORT. What every operation of Machine/Redund.lean keeps, said once for each: the queue, the outputs made so far, the free values used, the
invariant, protection (Keeps of Safety.lean). -/
set_option Elab.async false
set_option linter.all false
namespace Sys2Proof.Machine
theorem execTugHelloSend_keeps  (s s9 : State) (hk : execTugHelloSend s = .next s9) : Keeps s s9 := by
  unfold execTugHelloSend at hk
  cases hk
  repeat' first | with_reducible assumption | with_reducible exact Keeps.rfl | with_reducible exact id | (intro _) | with_reducible apply keeps_ite
                | extract_lets | with_reducible apply tugSend_keeps | with_reducible apply setTug_keeps | with_reducible apply keeps_foldl | split
                | with_reducible apply keeps_mk | exact fun _ => rfl | dsimp only

theorem execTugHelloReceive_keeps (link : Nat) (data : List Byte) (s s9 : State) (hk : execTugHelloReceive link data s = .next s9) : Keeps s s9 := by
  unfold execTugHelloReceive at hk
  cases hk
  repeat' first | with_reducible assumption | with_reducible exact Keeps.rfl | with_reducible exact id | (intro _) | with_reducible apply keeps_ite
                | extract_lets | with_reducible apply setTug_keeps | with_reducible apply trySync_keeps | with_reducible apply raise_keeps
                | with_reducible apply logEvent_keeps | with_reducible apply enterHeld_keeps | split | with_reducible apply keeps_mk
                | exact fun _ => rfl | dsimp only

theorem execHeartbeatSend_keeps  (s s9 : State) (hk : execHeartbeatSend s = .next s9) : Keeps s s9 := by
  unfold execHeartbeatSend at hk
  cases hk
  repeat' first | with_reducible assumption | with_reducible exact Keeps.rfl | (intro _) | extract_lets | with_reducible apply tugSend_keeps
                | with_reducible apply keeps_foldl | dsimp only

theorem peerSeen_keeps (u0 : State)  (s : State)  (hk : Keeps u0 s) : Keeps u0 (peerSeen s) := by
  unfold peerSeen
  repeat' first | with_reducible assumption | (intro _) | with_reducible apply keeps_ite | extract_lets | with_reducible apply setResource_keeps
                | with_reducible apply joinControl_keeps | with_reducible apply syncCheck_keeps | with_reducible apply trySync_keeps | split
                | dsimp only

theorem execHeartbeatReceive_keeps (link : Nat) (data : List Byte) (s s9 : State) (hk : execHeartbeatReceive link data s = .next s9) : Keeps s s9 := by
  unfold execHeartbeatReceive at hk
  cases hk
  repeat' first | with_reducible assumption | with_reducible exact Keeps.rfl | with_reducible exact id | (intro _) | with_reducible apply keeps_ite
                | extract_lets | with_reducible apply setTug_keeps | with_reducible apply tugSaid_keeps | with_reducible apply peerSeen_keeps
                | with_reducible apply tugDrain_keeps | split | with_reducible apply keeps_mk | exact fun _ => rfl | dsimp only

theorem execTugLinkDown_keeps (link : Nat) (lockLost : Bool) (s s9 : State) (hk : execTugLinkDown link lockLost s = .next s9) : Keeps s s9 := by
  unfold execTugLinkDown at hk
  cases hk
  repeat' first | with_reducible assumption | with_reducible exact Keeps.rfl | (intro _) | with_reducible apply keeps_ite | extract_lets
                | with_reducible apply peerSeen_keeps | with_reducible apply linkDown_keeps | with_reducible apply countN_keeps | split | dsimp only

theorem execTug1Handback_keeps  (s s9 : State) (hk : execTug1Handback s = .next s9) : Keeps s s9 := by
  unfold execTug1Handback at hk
  cases hk
  repeat' first | with_reducible assumption | with_reducible exact Keeps.rfl | with_reducible exact id | (intro _) | with_reducible apply keeps_ite
                | extract_lets | with_reducible apply moveUnacked_keeps | split | with_reducible apply keeps_mk | exact fun _ => rfl | dsimp only

theorem execTugTimingSend_keeps (link : Nat) (stamp : Stamp) (s s9 : State) (hk : execTugTimingSend link stamp s = .next s9) : Keeps s s9 := by
  unfold execTugTimingSend at hk
  cases hk
  repeat' first | with_reducible assumption | with_reducible exact Keeps.rfl | with_reducible exact id | (intro _) | with_reducible apply keeps_ite
                | extract_lets | with_reducible apply tugSend_keeps | with_reducible apply setTug_keeps | split | with_reducible apply keeps_mk
                | exact fun _ => rfl | dsimp only

theorem execTimingReceive_keeps (link : Nat) (stamp : Stamp) (data : List Byte) (s s9 : State) (hk : execTimingReceive link stamp data s = .next s9) : Keeps s s9 := by
  unfold execTimingReceive at hk
  cases hk
  repeat' first | with_reducible assumption | with_reducible exact Keeps.rfl | with_reducible exact id | (intro _) | with_reducible apply keeps_ite
                | extract_lets | with_reducible apply setTug_keeps | split | with_reducible apply keeps_mk | exact fun _ => rfl | dsimp only

theorem replay_keeps (u0 : State) (l : Nat) (s : State)  (hk : Keeps u0 s) : Keeps u0 (replay l s) := by
  unfold replay
  repeat' first | with_reducible assumption | with_reducible exact id | (intro _) | extract_lets | with_reducible apply emit_keeps
                | with_reducible apply setTug_keeps | with_reducible apply count_keeps | with_reducible apply keeps_foldl
                | with_reducible apply keeps_mk | exact fun _ => rfl | dsimp only

theorem tugAck_keeps (u0 : State) (l : Nat) (a : Nat) (s : State)  (hk : Keeps u0 s) : Keeps u0 (tugAck l a s) := by
  unfold tugAck
  repeat' first | with_reducible assumption | with_reducible exact id | (intro _) | extract_lets | with_reducible apply setTug_keeps
                | with_reducible apply keeps_mk | exact fun _ => rfl | dsimp only

theorem execNakReceive_keeps (link : Nat) (data : List Byte) (s s9 : State) (hk : execNakReceive link data s = .next s9) : Keeps s s9 := by
  unfold execNakReceive at hk
  cases hk
  repeat' first | with_reducible assumption | with_reducible exact Keeps.rfl | (intro _) | with_reducible apply keeps_ite | extract_lets
                | with_reducible apply replay_keeps | with_reducible apply tugAck_keeps | split | dsimp only

theorem execTugReplayTimeout_keeps (link : Nat) (s s9 : State) (hk : execTugReplayTimeout link s = .next s9) : Keeps s s9 := by
  unfold execTugReplayTimeout at hk
  cases hk
  repeat' first | with_reducible assumption | with_reducible exact Keeps.rfl | (intro _) | with_reducible apply keeps_ite | extract_lets
                | with_reducible apply replay_keeps | split | dsimp only

theorem nak_keeps (u0 : State) (l : Nat) (s : State)  (hk : Keeps u0 s) : Keeps u0 (nak l s) := by
  unfold nak
  repeat' first | with_reducible assumption | (intro _) | extract_lets | with_reducible apply tugSend_keeps | dsimp only

theorem execTugFrameError_keeps (link : Nat) (crc : Bool) (s s9 : State) (hk : execTugFrameError link crc s = .next s9) : Keeps s s9 := by
  unfold execTugFrameError at hk
  cases hk
  repeat' first | with_reducible assumption | with_reducible exact Keeps.rfl | with_reducible exact id | (intro _) | with_reducible apply keeps_ite
                | extract_lets | with_reducible apply nak_keeps | with_reducible apply count_keeps | with_reducible apply setTug_keeps | split
                | with_reducible apply keeps_mk | exact fun _ => rfl | dsimp only

theorem tugAccept_keeps (u0 : State) (c : TugChan) (m : TugRx) (s : State)  (hk : Keeps u0 s) : Keeps u0 (tugAccept c m s).2 := by
  unfold tugAccept
  repeat' first | with_reducible assumption | with_reducible exact id | (intro _) | with_reducible apply keeps_ite | extract_lets
                | with_reducible apply tugAck_keeps | with_reducible apply setTug_keeps | with_reducible apply tugDrain_keeps
                | with_reducible apply nak_keeps | split | with_reducible apply keeps_mk | exact fun _ => rfl | dsimp only

theorem onTug_keeps (u0 : State) (c : TugChan) (m : TugRx) (f : State → State) (s : State) (h_f : ∀ (s9 : State), Keeps u0 s9 → Keeps u0 (f  s9)) (hk : Keeps u0 s) : Keeps u0 (onTug c m f s) := by
  unfold onTug
  repeat' first | with_reducible assumption | (intro _) | with_reducible apply keeps_ite | extract_lets | apply h_f
                | with_reducible apply tugAccept_keeps | split | dsimp only

theorem followSpan_keeps (u0 : State) (c : TimeChange) (s : State)  (hk : Keeps u0 s) : Keeps u0 (followSpan c s) := by
  unfold followSpan
  repeat' first | with_reducible assumption | with_reducible exact id | (intro _) | with_reducible apply keeps_ite | extract_lets
                | with_reducible apply applyChange_keeps | split | with_reducible apply keeps_mk | exact fun _ => rfl | dsimp only

theorem followLeader_keeps (u0 : State) (c : TimeChange) (s : State)  (hk : Keeps u0 s) : Keeps u0 (followLeader c s) := by
  unfold followLeader
  repeat' first | with_reducible assumption | with_reducible exact id | (intro _) | with_reducible apply keeps_ite | extract_lets | split
                | with_reducible apply keeps_mk | exact fun _ => rfl | dsimp only

theorem takeForces_keeps (u0 : State) (b : List Byte) (s : State)  (hk : Keeps u0 s) : Keeps u0 (takeForces b s) := by
  unfold takeForces
  repeat' first | with_reducible assumption | with_reducible exact id | (intro _) | with_reducible apply keeps_ite | extract_lets | split
                | with_reducible apply keeps_mk | exact fun _ => rfl | dsimp only

theorem joinTold_keeps (u0 : State) (l : Nat) (b : List Byte) (s : State)  (hk : Keeps u0 s) : Keeps u0 (joinTold l b s) := by
  unfold joinTold
  repeat' first | with_reducible assumption | with_reducible exact id | (intro _) | with_reducible apply keeps_ite | extract_lets
                | with_reducible apply wrTold_keeps | split | with_reducible apply keeps_mk | exact fun _ => rfl | dsimp only

theorem takeSyncMessage_keeps (u0 : State) (m : TugRx) (s : State)  (hk : Keeps u0 s) : Keeps u0 (takeSyncMessage m s) := by
  unfold takeSyncMessage
  repeat' first | with_reducible assumption | with_reducible exact id | (intro _) | with_reducible apply keeps_ite | extract_lets
                | with_reducible apply followSpan_keeps | with_reducible apply followLeader_keeps | with_reducible apply takeSync_keeps
                | with_reducible apply hitchRelay_keeps | with_reducible apply hitchLostTold_keeps | with_reducible apply safeEvent_keeps
                | with_reducible apply joinTold_keeps | with_reducible apply takeForces_keeps | split | with_reducible apply keeps_mk
                | exact fun _ => rfl | dsimp only

theorem execTugSyncMessage_keeps (m : TugRx) (s s9 : State) (hk : execTugSyncMessage m s = .next s9) : Keeps s s9 := by
  unfold execTugSyncMessage at hk
  cases hk
  repeat' first | with_reducible assumption | with_reducible exact Keeps.rfl | (intro _) | extract_lets | with_reducible apply onTug_keeps
                | with_reducible apply takeSyncMessage_keeps | dsimp only

theorem execSafeNodeEvent_keeps (m : TugRx) (s s9 : State) (hk : execSafeNodeEvent m s = .next s9) : Keeps s s9 := by
  unfold execSafeNodeEvent at hk
  cases hk
  repeat' first | with_reducible assumption | with_reducible exact Keeps.rfl | (intro _) | extract_lets | with_reducible apply onTug_keeps
                | with_reducible apply safeEvent_keeps | dsimp only

theorem setCopy_keeps (u0 : State) (n : Nat) (f : TaskCopy → TaskCopy) (s : State)  (hk : Keeps u0 s) : Keeps u0 (setCopy n f s) := by
  unfold setCopy
  repeat' first | with_reducible assumption | with_reducible exact id | (intro _) | extract_lets | with_reducible apply keeps_mk
                | exact fun _ => rfl | dsimp only

theorem takePart_keeps (u0 : State) (m : TugRx) (s : State)  (hk : Keeps u0 s) : Keeps u0 (takePart m s) := by
  unfold takePart
  repeat' first | with_reducible assumption | with_reducible exact id | (intro _) | with_reducible apply keeps_ite | extract_lets
                | with_reducible apply sendNodeItems_keeps | with_reducible apply sendFull_keeps | with_reducible apply setCopy_keeps | split
                | with_reducible apply keeps_mk | exact fun _ => rfl | dsimp only

theorem execStatePartReceive_keeps (m : TugRx) (s s9 : State) (hk : execStatePartReceive m s = .next s9) : Keeps s s9 := by
  unfold execStatePartReceive at hk
  cases hk
  repeat' first | with_reducible assumption | with_reducible exact Keeps.rfl | (intro _) | extract_lets | with_reducible apply onTug_keeps
                | with_reducible apply takePart_keeps | dsimp only

theorem cycleComplete_keeps (u0 : State) (n : Nat) (c : TaskCopy) (cycle : Nat) (s : State)  (hk : Keeps u0 s) : Keeps u0 (cycleComplete n c cycle s) := by
  unfold cycleComplete
  repeat' first | with_reducible assumption | with_reducible exact Keeps.rfl | with_reducible exact id | (intro _) | with_reducible apply keeps_ite
                | with_reducible apply keeps_ite_app | with_reducible apply keeps_id | extract_lets | with_reducible apply startRetain_keeps
                | with_reducible apply setTask_keeps | with_reducible apply committed_keeps | with_reducible apply keeps_foldl
                | with_reducible apply keeps_foldl2 | split | with_reducible apply keeps_mk | exact id | exact fun _ => rfl
                | exact fun i => put_wf _ _ _ _ i | exact put_wf _ _ _ _ (by assumption) | (rw [setBox_len]; assumption)
                | (simp [HostIf.setBox]; done) | (simp_all; done) | assumption | dsimp only

theorem lagCheck_keeps (u0 : State) (n : Nat) (cycle : Nat) (s : State)  (hk : Keeps u0 s) : Keeps u0 (lagCheck n cycle s) := by
  unfold lagCheck
  repeat' first | with_reducible assumption | with_reducible exact id | (intro _) | with_reducible apply keeps_ite | extract_lets
                | with_reducible apply raise_keeps | with_reducible apply logEvent_keeps | with_reducible apply count_keeps | split
                | with_reducible apply keeps_mk | exact fun _ => rfl | dsimp only

theorem takeEnd_keeps (u0 : State) (m : TugRx) (s : State)  (hk : Keeps u0 s) : Keeps u0 (takeEnd m s) := by
  unfold takeEnd
  repeat' first | with_reducible assumption | with_reducible exact id | (intro _) | with_reducible apply keeps_ite | extract_lets
                | with_reducible apply count_keeps | with_reducible apply setCopy_keeps | with_reducible apply tugSend_keeps
                | with_reducible apply cycleComplete_keeps | with_reducible apply syncCheck_keeps | with_reducible apply lagCheck_keeps
                | with_reducible apply logEvent_keeps | with_reducible apply requestFull_keeps | split | with_reducible apply keeps_mk
                | exact fun _ => rfl | dsimp only

theorem execStateEndReceive_keeps (m : TugRx) (s s9 : State) (hk : execStateEndReceive m s = .next s9) : Keeps s s9 := by
  unfold execStateEndReceive at hk
  cases hk
  repeat' first | with_reducible assumption | with_reducible exact Keeps.rfl | (intro _) | extract_lets | with_reducible apply onTug_keeps
                | with_reducible apply takeEnd_keeps | dsimp only

theorem joinPart_keeps (u0 : State) (l : Nat) (task : Nat) (part : Nat) (b : List Byte) (s : State)  (hk : Keeps u0 s) : Keeps u0 (joinPart l task part b s).2 := by
  unfold joinPart
  repeat' first | with_reducible assumption | with_reducible exact id | (intro _) | with_reducible apply keeps_ite | extract_lets
                | with_reducible apply agree_keeps | split | with_reducible apply keeps_mk | exact fun _ => rfl | dsimp only

theorem takeInput_keeps (u0 : State) (m : TugRx) (s : State)  (hk : Keeps u0 s) : Keeps u0 (takeInput m s) := by
  unfold takeInput
  repeat' first | with_reducible assumption | with_reducible exact id | (intro _) | with_reducible apply keeps_ite | extract_lets
                | with_reducible apply joinPart_keeps | with_reducible apply tryAgree_keeps | split | with_reducible apply keeps_mk
                | exact fun _ => rfl | dsimp only

theorem execAgreeInputReceive_keeps (m : TugRx) (s s9 : State) (hk : execAgreeInputReceive m s = .next s9) : Keeps s s9 := by
  unfold execAgreeInputReceive at hk
  cases hk
  repeat' first | with_reducible assumption | with_reducible exact Keeps.rfl | (intro _) | extract_lets | with_reducible apply onTug_keeps
                | with_reducible apply agree_keeps | with_reducible apply takeInput_keeps | dsimp only

theorem execAgreeTimeout_keeps (task : Nat) (s s9 : State) (hk : execAgreeTimeout task s = .next s9) : Keeps s s9 := by
  unfold execAgreeTimeout at hk
  cases hk
  repeat' first | with_reducible assumption | with_reducible exact Keeps.rfl | (intro _) | with_reducible apply keeps_ite | extract_lets
                | with_reducible apply agree_keeps | split | dsimp only

theorem takeOutput_keeps (u0 : State) (m : TugRx) (s : State)  (hk : Keeps u0 s) : Keeps u0 (takeOutput m s) := by
  unfold takeOutput
  repeat' first | with_reducible assumption | with_reducible exact id | (intro _) | with_reducible apply keeps_ite | extract_lets
                | with_reducible apply joinPart_keeps | with_reducible apply agree_keeps | with_reducible apply tryVote_keeps | split
                | with_reducible apply keeps_mk | exact fun _ => rfl | dsimp only

theorem execAgreeOutputReceive_keeps (m : TugRx) (s s9 : State) (hk : execAgreeOutputReceive m s = .next s9) : Keeps s s9 := by
  unfold execAgreeOutputReceive at hk
  cases hk
  repeat' first | with_reducible assumption | with_reducible exact Keeps.rfl | (intro _) | extract_lets | with_reducible apply onTug_keeps
                | with_reducible apply agree_keeps | with_reducible apply takeOutput_keeps | dsimp only

theorem execVoteTimeout_keeps (task : Nat) (s s9 : State) (hk : execVoteTimeout task s = .next s9) : Keeps s s9 := by
  unfold execVoteTimeout at hk
  cases hk
  repeat' first | with_reducible assumption | with_reducible exact Keeps.rfl | (intro _) | with_reducible apply keeps_ite | extract_lets
                | with_reducible apply vote_keeps | split | dsimp only

theorem enterSwitch_keeps (u0 : State) (h : List Byte) (b : List Byte) (s : State)  (hk : Keeps u0 s) : Keeps u0 (enterSwitch h b s) := by
  unfold enterSwitch
  repeat' first | with_reducible assumption | with_reducible exact id | (intro _) | with_reducible apply keeps_ite | extract_lets
                | with_reducible apply sendAll_keeps | with_reducible apply count_keeps | with_reducible apply streamReceive_keeps
                | with_reducible apply frerOffer_keeps | split | with_reducible apply keeps_mk | exact fun _ => rfl | dsimp only

theorem takeSegment_keeps (u0 : State) (m : TugRx) (s : State)  (hk : Keeps u0 s) : Keeps u0 (takeSegment m s) := by
  unfold takeSegment
  try dsimp only
  repeat' first | with_reducible assumption | with_reducible exact Keeps.rfl | with_reducible exact id | (intro _) | with_reducible apply keeps_ite
                | with_reducible apply keeps_ite_app | with_reducible apply keeps_id | with_reducible apply count_keeps
                | with_reducible apply enterSwitch_keeps | with_reducible apply keeps_foldl | with_reducible apply keeps_foldl2 | split
                | simp only [keeps_mk_iff] | exact id | exact fun _ => rfl | exact fun i => put_wf _ _ _ _ i | exact put_wf _ _ _ _ (by assumption)
                | (rw [setBox_len]; assumption) | (simp [HostIf.setBox]; done) | dsimp only

theorem execFrameSegmentReceive_keeps (m : TugRx) (s s9 : State) (hk : execFrameSegmentReceive m s = .next s9) : Keeps s s9 := by
  unfold execFrameSegmentReceive at hk
  cases hk
  repeat' first | with_reducible assumption | with_reducible exact Keeps.rfl | (intro _) | extract_lets | with_reducible apply onTug_keeps
                | with_reducible apply takeSegment_keeps | dsimp only

theorem memberLeft_keeps (u0 : State)  (s : State)  (hk : Keeps u0 s) : Keeps u0 (memberLeft s) := by
  unfold memberLeft
  repeat' first | with_reducible assumption | (intro _) | with_reducible apply keeps_ite | extract_lets | with_reducible apply tryVote_keeps
                | with_reducible apply tryAgree_keeps | with_reducible apply keeps_foldl | split | dsimp only

theorem execPeerClaimChange_keeps (pin : Nat) (level : Bool) (s s9 : State) (hk : execPeerClaimChange pin level s = .next s9) : Keeps s s9 := by
  unfold execPeerClaimChange at hk
  cases hk
  repeat' first | with_reducible assumption | with_reducible exact Keeps.rfl | with_reducible exact id | (intro _) | with_reducible apply keeps_ite
                | extract_lets | with_reducible apply memberLeft_keeps | with_reducible apply leaderTakes_keeps | with_reducible apply trySync_keeps
                | with_reducible apply raise_keeps | with_reducible apply settleMembers_keeps | split | with_reducible apply keeps_mk
                | exact fun _ => rfl | dsimp only

theorem execClaimWaitExpiry_keeps  (s s9 : State) (hk : execClaimWaitExpiry s = .next s9) : Keeps s s9 := by
  unfold execClaimWaitExpiry at hk
  cases hk
  repeat' first | with_reducible assumption | with_reducible exact Keeps.rfl | (intro _) | with_reducible apply keeps_ite | extract_lets
                | with_reducible apply claimSpan_keeps | with_reducible apply peerSeen_keeps | split | dsimp only

theorem execClaimWireTimeout_keeps  (s s9 : State) (hk : execClaimWireTimeout s = .next s9) : Keeps s s9 := by
  unfold execClaimWireTimeout at hk
  cases hk
  repeat' first | with_reducible assumption | with_reducible exact Keeps.rfl | (intro _) | with_reducible apply keeps_ite | extract_lets
                | with_reducible apply raise_keeps | with_reducible apply logEvent_keeps | split | dsimp only

theorem execRejoinMembership_keeps  (s s9 : State) (hk : execRejoinMembership s = .next s9) : Keeps s s9 := by
  unfold execRejoinMembership at hk
  cases hk
  repeat' first | with_reducible assumption | with_reducible exact Keeps.rfl | (intro _) | with_reducible apply keeps_ite | extract_lets
                | with_reducible apply becomeMember_keeps | split | dsimp only

theorem execSyncOutPulse_keeps  (s s9 : State) (hk : execSyncOutPulse s = .next s9) : Keeps s s9 := by
  unfold execSyncOutPulse at hk
  cases hk
  repeat' first | with_reducible assumption | with_reducible exact Keeps.rfl | with_reducible exact id | (intro _) | with_reducible apply keeps_ite
                | extract_lets | with_reducible apply tugAll_keeps | with_reducible apply drivePin_keeps | split | with_reducible apply keeps_mk
                | exact fun _ => rfl | dsimp only

theorem execSyncOutPulseEnd_keeps  (s s9 : State) (hk : execSyncOutPulseEnd s = .next s9) : Keeps s s9 := by
  unfold execSyncOutPulseEnd at hk
  cases hk
  repeat' first | with_reducible assumption | with_reducible exact Keeps.rfl | (intro _) | with_reducible apply keeps_ite | extract_lets
                | with_reducible apply drivePin_keeps | split | dsimp only

theorem loseTimeBase_keeps (u0 : State)  (s : State)  (hk : Keeps u0 s) : Keeps u0 (loseTimeBase s) := by
  unfold loseTimeBase
  repeat' first | with_reducible assumption | with_reducible exact id | (intro _) | with_reducible apply keeps_ite | extract_lets
                | with_reducible apply raise_keeps | with_reducible apply logEvent_keeps | with_reducible apply excludeSelf_keeps | split
                | with_reducible apply keeps_mk | exact fun _ => rfl | dsimp only

theorem execSyncInEdge_keeps (stamp : Stamp) (leader : Nat) (s s9 : State) (hk : execSyncInEdge stamp leader s = .next s9) : Keeps s s9 := by
  unfold execSyncInEdge at hk
  cases hk
  repeat' first | with_reducible assumption | with_reducible exact Keeps.rfl | with_reducible exact id | (intro _) | with_reducible apply keeps_ite
                | extract_lets | with_reducible apply loseTimeBase_keeps | split | with_reducible apply keeps_mk | exact fun _ => rfl | dsimp only

theorem execSyncPulseTimeout_keeps  (s s9 : State) (hk : execSyncPulseTimeout s = .next s9) : Keeps s s9 := by
  unfold execSyncPulseTimeout at hk
  cases hk
  repeat' first | with_reducible assumption | with_reducible exact Keeps.rfl | (intro _) | with_reducible apply keeps_ite | extract_lets
                | with_reducible apply loseTimeBase_keeps | split | dsimp only

theorem redundOnly_keeps (u0 : State) (opcode : Nat) (c : Acs) (body : State → State) (s : State) (h_body : ∀ (s9 : State), Keeps u0 s9 → Keeps u0 (body  s9)) (hk : Keeps u0 s) : Keeps u0 (redundOnly opcode c body s) := by
  unfold redundOnly
  repeat' first | with_reducible assumption | (intro _) | with_reducible apply keeps_ite | extract_lets | apply h_body
                | with_reducible apply done_keeps | split | dsimp only

theorem execRedundStatus_keeps (c : Acs) (s s9 : State) (hk : execRedundStatus c s = .next s9) : Keeps s s9 := by
  unfold execRedundStatus at hk
  cases hk
  repeat' first | with_reducible assumption | with_reducible exact Keeps.rfl | (intro _) | extract_lets | with_reducible apply acsLen_keeps
                | with_reducible apply redundOnly_keeps | with_reducible apply done_keeps | dsimp only

theorem execRedundTug_keeps (c : Acs) (s s9 : State) (hk : execRedundTug c s = .next s9) : Keeps s s9 := by
  unfold execRedundTug at hk
  cases hk
  repeat' first | with_reducible assumption | with_reducible exact Keeps.rfl | (intro _) | extract_lets | with_reducible apply acsLen_keeps
                | with_reducible apply redundOnly_keeps | with_reducible apply done_keeps | dsimp only

theorem switchNow_keeps (u0 : State)  (s : State)  (hk : Keeps u0 s) : Keeps u0 (switchNow s) := by
  unfold switchNow
  repeat' first | with_reducible assumption | with_reducible exact id | (intro _) | with_reducible apply keeps_ite | extract_lets
                | with_reducible apply haltAll_keeps | with_reducible apply releaseClaim_keeps | with_reducible apply finish_keeps | split
                | with_reducible apply keeps_mk | exact fun _ => rfl | dsimp only

theorem effRedundSwitch_keeps (u0 : State) (a : List Byte) (r : Option AcsRef) (s : State)  (hk : Keeps u0 s) : Keeps u0 (effRedundSwitch a r s) := by
  unfold effRedundSwitch
  repeat' first | with_reducible assumption | with_reducible exact id | (intro _) | with_reducible apply keeps_ite | extract_lets
                | with_reducible apply finish_keeps | with_reducible apply switchNow_keeps | split | with_reducible apply keeps_mk
                | exact fun _ => rfl | dsimp only

theorem execRedundSwitch_keeps (c : Acs) (s s9 : State) (hk : execRedundSwitch c s = .next s9) : Keeps s s9 := by
  unfold execRedundSwitch at hk
  cases hk
  repeat' first | with_reducible assumption | with_reducible exact Keeps.rfl | (intro _) | with_reducible apply keeps_ite | extract_lets
                | with_reducible apply acsLen_keeps | with_reducible apply redundOnly_keeps | with_reducible apply badArgIf_keeps
                | with_reducible apply done_keeps | with_reducible apply nodeWide_keeps | with_reducible apply effRedundSwitch_keeps | split
                | dsimp only

theorem execRedundSwitchInstant_keeps  (s s9 : State) (hk : execRedundSwitchInstant s = .next s9) : Keeps s s9 := by
  unfold execRedundSwitchInstant at hk
  cases hk
  repeat' first | with_reducible assumption | with_reducible exact Keeps.rfl | (intro _) | with_reducible apply keeps_ite | extract_lets
                | with_reducible apply switchNow_keeps | split | dsimp only

theorem execRedundExclude_keeps (c : Acs) (s s9 : State) (hk : execRedundExclude c s = .next s9) : Keeps s s9 := by
  unfold execRedundExclude at hk
  cases hk
  repeat' first | with_reducible assumption | with_reducible exact Keeps.rfl | with_reducible exact id | (intro _) | with_reducible apply keeps_ite
                | extract_lets | with_reducible apply acsLen_keeps | with_reducible apply redundOnly_keeps | with_reducible apply badArgIf_keeps
                | with_reducible apply done_keeps | with_reducible apply excludeSelf_keeps | with_reducible apply tugSend_keeps | split
                | with_reducible apply keeps_mk | exact fun _ => rfl | dsimp only

theorem execRedundRejoin_keeps (c : Acs) (s s9 : State) (hk : execRedundRejoin c s = .next s9) : Keeps s s9 := by
  unfold execRedundRejoin at hk
  cases hk
  repeat' first | with_reducible assumption | with_reducible exact Keeps.rfl | with_reducible exact id | (intro _) | with_reducible apply keeps_ite
                | extract_lets | with_reducible apply acsLen_keeps | with_reducible apply redundOnly_keeps | with_reducible apply done_keeps
                | with_reducible apply trySync_keeps | split | with_reducible apply keeps_mk | exact fun _ => rfl | dsimp only

end Sys2Proof.Machine
end

