-- ==== Sys2Proof/Laws/KeepsWindowOps.lean ====
section
/-! SUPPORT. What every operation of Machine/WindowOps.lean keeps, said once for each: the queue, the outputs made so far, the free values used, the
invariant, protection (Keeps of Safety.lean). -/
set_option Elab.async false
set_option linter.all false
namespace Sys2Proof.Machine
theorem snapRead_keeps (u0 : State)  (s : State)  (hk : Keeps u0 s) : Keeps u0 (snapRead s).2 := by
  unfold snapRead
  repeat' first | with_reducible assumption | with_reducible exact id | (intro _) | extract_lets | with_reducible apply keeps_mk
                | exact fun _ => rfl | dsimp only

theorem ppsinRead_keeps (u0 : State)  (s : State)  (hk : Keeps u0 s) : Keeps u0 (ppsinRead s).2 := by
  unfold ppsinRead
  repeat' first | with_reducible assumption | with_reducible exact id | (intro _) | extract_lets | with_reducible apply keeps_mk
                | exact fun _ => rfl | dsimp only

theorem txtsPop_keeps (u0 : State)  (s : State)  (hk : Keeps u0 s) : Keeps u0 (txtsPop s).2 := by
  unfold txtsPop
  repeat' first | with_reducible assumption | with_reducible exact Keeps.rfl | with_reducible exact id | (intro _) | with_reducible apply keeps_ite
                | with_reducible apply keeps_ite_app | with_reducible apply keeps_id | extract_lets | with_reducible apply keeps_foldl
                | with_reducible apply keeps_foldl2 | split | with_reducible apply keeps_mk | exact id | exact fun _ => rfl
                | exact fun i => put_wf _ _ _ _ i | exact put_wf _ _ _ _ (by assumption) | (rw [setBox_len]; assumption)
                | (simp [HostIf.setBox]; done) | (simp_all; done) | assumption | dsimp only

theorem statClear_keeps (u0 : State) (k : Nat) (s : State) (hk : Keeps u0 s) : Keeps u0 (statClear k s) := by
  unfold statClear
  split
  · refine keeps_mk s hk id id id id id id id id (fun i => ?_)
    simp only [Stats.wf, Bool.and_eq_true] at i ⊢
    exact ⟨⟨i.1.1, put_all_wf _ _ i.1.2⟩, i.2⟩
  · split
    · refine keeps_mk s hk id id id id id id id id (fun i => ?_)
      simp only [Stats.wf, Bool.and_eq_true] at i ⊢
      exact ⟨⟨put_wf _ _ _ _ i.1.1, i.1.2⟩, i.2⟩
    · exact hk

theorem statRead_keeps (u0 : State) (k : Nat) (s : State)  (hk : Keeps u0 s) : Keeps u0 (statRead k s).2 := by
  unfold statRead
  repeat' first | with_reducible assumption | (intro _) | extract_lets | with_reducible apply statClear_keeps | dsimp only

theorem readC_keeps (u0 : State) (off : Nat) (s : State)  (hk : Keeps u0 s) : Keeps u0 (readC off s).2 := by
  unfold readC
  repeat' first | with_reducible assumption | (intro _) | with_reducible apply keeps_ite | extract_lets | with_reducible apply snapRead_keeps
                | with_reducible apply ppsinRead_keeps | with_reducible apply txtsPop_keeps | with_reducible apply statRead_keeps
                | with_reducible apply canRead0_keeps | with_reducible apply canRead17_keeps | with_reducible apply fifoRead0_keeps
                | with_reducible apply fifoRead17_keeps | split | dsimp only

theorem ringWrite_keeps (u0 : State) (tx : Bool) (n : Nat) (off : Nat) (v : Nat) (s : State)  (hk : Keeps u0 s) : Keeps u0 (ringWrite tx n off v s) := by
  unfold ringWrite
  repeat' first | with_reducible assumption | with_reducible exact id | (intro _) | with_reducible apply keeps_ite | extract_lets
                | with_reducible apply setRing_keeps | with_reducible apply ringCtrl_keeps | with_reducible apply ringTail_keeps
                | with_reducible apply setRx_keeps | split | with_reducible apply keeps_mk | exact fun _ => rfl | dsimp only

theorem doorbell_keeps (u0 : State) (m : Nat) (v : Nat) (agent : Nat) (s : State)  (hk : Keeps u0 s) : Keeps u0 (doorbell m v agent s) := by
  unfold doorbell
  repeat' first | with_reducible assumption | (intro _) | with_reducible apply keeps_ite | extract_lets | with_reducible apply abortBox_keeps
                | with_reducible apply submit_keeps | split | dsimp only

theorem mbxWrite_keeps (u0 : State) (m : Nat) (off : Nat) (v : Nat) (agent : Nat) (s : State)  (hk : Keeps u0 s) : Keeps u0 (mbxWrite m off v agent s) := by
  unfold mbxWrite
  repeat' first | with_reducible assumption | with_reducible exact Keeps.rfl | with_reducible exact id | (intro _) | with_reducible apply keeps_ite
                | with_reducible apply keeps_ite_app | with_reducible apply keeps_id | extract_lets | with_reducible apply doorbell_keeps
                | with_reducible apply clearMbx_keeps | with_reducible apply keeps_foldl | with_reducible apply keeps_foldl2 | split
                | with_reducible apply keeps_mk | exact id | exact fun _ => rfl | exact fun i => put_wf _ _ _ _ i
                | exact put_wf _ _ _ _ (by assumption) | (rw [setBox_len]; assumption) | (simp [HostIf.setBox]; done) | (simp_all; done)
                | assumption | dsimp only

theorem canBlockWrite_keeps (u0 : State) (ch : Nat) (off : Nat) (v : Nat) (s : State)  (hk : Keeps u0 s) : Keeps u0 (canBlockWrite ch off v s) := by
  unfold canBlockWrite
  repeat' first | with_reducible assumption | with_reducible exact id | (intro _) | with_reducible apply keeps_ite | extract_lets
                | with_reducible apply canCancel_keeps | with_reducible apply clearCause_keeps | with_reducible apply setMask_keeps
                | with_reducible apply setCan_keeps | with_reducible apply keeps_foldl | split | with_reducible apply keeps_mk | exact fun _ => rfl
                | dsimp only

theorem canRegWrite_keeps (u0 : State) (off : Nat) (v : Nat) (s : State)  (hk : Keeps u0 s) : Keeps u0 (canRegWrite off v s) := by
  unfold canRegWrite
  repeat' first | with_reducible assumption | with_reducible exact Keeps.rfl | with_reducible exact id | (intro _) | with_reducible apply keeps_ite
                | with_reducible apply keeps_ite_app | with_reducible apply keeps_id | extract_lets | with_reducible apply canWrite0_keeps
                | with_reducible apply canWriteWord_keeps | with_reducible apply setCan_keeps | with_reducible apply canBlockWrite_keeps
                | with_reducible apply keeps_foldl | with_reducible apply keeps_foldl2 | split | with_reducible apply keeps_can
                | with_reducible apply keeps_mk | exact id | exact fun _ => rfl | exact fun i => put_wf _ _ _ _ i
                | exact put_wf _ _ _ _ (by assumption) | (rw [setBox_len]; assumption) | (simp [HostIf.setBox]; done) | (simp_all; done)
                | assumption | dsimp only

theorem writeC_keeps (u0 : State) (agent : Nat) (off : Nat) (v : Nat) (s : State)  (hk : Keeps u0 s) : Keeps u0 (writeC agent off v s) := by
  unfold writeC
  repeat' first | with_reducible assumption | with_reducible exact id | (intro _) | with_reducible apply keeps_ite | extract_lets
                | with_reducible apply hostWatch_keeps | with_reducible apply causeWrite_keeps | with_reducible apply setMask_keeps
                | with_reducible apply ringWrite_keeps | with_reducible apply mbxWrite_keeps | with_reducible apply canRegWrite_keeps | split
                | with_reducible apply keeps_mk | exact fun _ => rfl | dsimp only

theorem writeM_keeps (u0 : State) (a : Nat) (data : List Byte) (s : State)  (hk : Keeps u0 s) : Keeps u0 (writeM a data s) := by
  unfold writeM
  repeat' first | with_reducible assumption | (intro _) | with_reducible apply keeps_ite | extract_lets | with_reducible apply requestWrite_keeps
                | split | dsimp only

theorem writeX_keeps (u0 : State) (off : Nat) (v : Nat) (s : State)  (hk : Keeps u0 s) : Keeps u0 (writeX off v s) := by
  unfold writeX
  repeat' first | with_reducible assumption | with_reducible exact id | (intro _) | with_reducible apply keeps_ite | extract_lets
                | with_reducible apply unmask_keeps | split | with_reducible apply keeps_mk | exact fun _ => rfl | dsimp only

theorem writeDl_keeps (u0 : State) (off : Nat) (v : Nat) (s : State)  (hk : Keeps u0 s) : Keeps u0 (writeDl off v s) := by
  unfold writeDl
  repeat' first | with_reducible assumption | with_reducible exact id | (intro _) | with_reducible apply keeps_ite | extract_lets | split
                | with_reducible apply keeps_mk | exact fun _ => rfl | dsimp only

theorem qspiEnd_keeps (u0 : State) (bad : Bool) (s : State)  (hk : Keeps u0 s) : Keeps u0 (qspiEnd bad s) := by
  unfold qspiEnd
  repeat' first | with_reducible assumption | with_reducible exact id | (intro _) | with_reducible apply keeps_ite | extract_lets
                | with_reducible apply count_keeps | split | with_reducible apply keeps_mk | exact fun _ => rfl | dsimp only

theorem qspiWrite_keeps (u0 : State) (addr : Nat) (data : List Byte) (s : State)  (hk : Keeps u0 s) : Keeps u0 (qspiWrite addr data s) := by
  unfold qspiWrite
  repeat' first | with_reducible assumption | (intro _) | with_reducible apply keeps_ite | extract_lets | with_reducible apply writeC_keeps
                | with_reducible apply writeM_keeps | with_reducible apply qspiEnd_keeps | with_reducible apply keeps_foldl | split | dsimp only

theorem qspiRead_keeps (u0 : State) (addr : Nat) (words : Nat) (cut : Bool) (s : State)  (hk : Keeps u0 s) : Keeps u0 (qspiRead addr words cut s) := by
  unfold qspiRead
  repeat' first | with_reducible assumption | (intro _) | with_reducible apply keeps_ite | extract_lets | with_reducible apply readC_keeps
                | with_reducible apply emit_keeps | with_reducible apply qspiEnd_keeps | with_reducible apply keeps_foldl
                | with_reducible apply keeps_foldl2 | split | dsimp only

end Sys2Proof.Machine
end

