-- ==== Sys2Proof/Laws/KeepsBridge.lean ====
section
/-! SUPPORT. What every operation of Machine/Bridge.lean keeps, said once for each: the queue, the outputs made so far, the free values used, the
invariant, protection (Keeps of Safety.lean). -/
set_option Elab.async false
set_option linter.all false
namespace Sys2Proof.Machine
theorem readSpace_keeps (u0 : State) (body : List Byte) (vol : Bool) (s : State)  (hk : Keeps u0 s) : Keeps u0 (readSpace body vol s).2 := by
  unfold readSpace
  repeat' first | with_reducible assumption | with_reducible exact id | (intro _) | with_reducible apply keeps_ite | extract_lets
                | with_reducible apply statRead_keeps | with_reducible apply keeps_foldl | with_reducible apply keeps_foldl2 | split
                | with_reducible apply keeps_mk | exact fun _ => rfl | dsimp only

theorem startTxn_keeps (u0 : State) (who : Asker) (body : List Byte) (s : State)  (hk : Keeps u0 s) : Keeps u0 (startTxn who body s) := by
  unfold startTxn
  repeat' first | with_reducible assumption | with_reducible exact id | (intro _) | with_reducible apply keeps_ite | extract_lets
                | with_reducible apply respond_keeps | with_reducible apply txnPlace_keeps | split | with_reducible apply keeps_mk
                | exact fun _ => rfl | dsimp only

theorem serveRead_keeps (u0 : State) (who : Asker) (body : List Byte) (s : State)  (hk : Keeps u0 s) : Keeps u0 (serveRead who body s) := by
  unfold serveRead
  repeat' first | with_reducible assumption | with_reducible exact id | (intro _) | with_reducible apply keeps_ite | extract_lets
                | with_reducible apply startTxn_keeps | with_reducible apply readSpace_keeps | with_reducible apply respond_keeps
                | with_reducible apply sendEnvelope_keeps | with_reducible apply count_keeps | split | with_reducible apply keeps_mk
                | exact fun _ => rfl | dsimp only

theorem takeRequest_keeps (u0 : State) (outside : Bool) (b : List Byte) (s : State)  (hk : Keeps u0 s) : Keeps u0 (takeRequest outside b s) := by
  unfold takeRequest
  repeat' first | with_reducible assumption | with_reducible exact id | (intro _) | with_reducible apply keeps_ite | extract_lets
                | with_reducible apply serveRead_keeps | with_reducible apply sendEnvTug_keeps | split | with_reducible apply keeps_mk
                | exact fun _ => rfl | dsimp only

theorem onEnvelope_keeps (u0 : State) (kind : Nat) (f : Frame) (go : List Byte → State → State) (s : State) (h_go : ∀ (x0 : List Byte) (s9 : State), Keeps u0 s9 → Keeps u0 (go x0 s9)) (hk : Keeps u0 s) : Keeps u0 (onEnvelope kind f go s) := by
  unfold onEnvelope
  repeat' first | with_reducible assumption | (intro _) | with_reducible apply keeps_ite | extract_lets | apply h_go
                | with_reducible apply count_keeps | with_reducible apply raise_keeps | with_reducible apply logEvent_keeps | split | dsimp only

theorem execTunnelReceive_keeps (f : Frame) (err : Nat) (s s9 : State) (hk : execTunnelReceive f err s = .next s9) : Keeps s s9 := by
  unfold execTunnelReceive at hk
  cases hk
  repeat' first | with_reducible assumption | with_reducible exact Keeps.rfl | with_reducible exact id | (intro _) | with_reducible apply keeps_ite
                | extract_lets | with_reducible apply onEnvelope_keeps | with_reducible apply sendEnvTug_keeps
                | with_reducible apply takeTunnel_keeps | with_reducible apply count_keeps | with_reducible apply bridgeParity_keeps
                | with_reducible apply setSession_keeps | with_reducible apply tunDrop_keeps | with_reducible apply popImport_keeps
                | with_reducible apply keeps_foldl | split | with_reducible apply keeps_mk | exact fun _ => rfl | dsimp only

theorem execReadReqReceive_keeps (f : Frame) (err : Bool) (s s9 : State) (hk : execReadReqReceive f err s = .next s9) : Keeps s s9 := by
  unfold execReadReqReceive at hk
  cases hk
  repeat' first | with_reducible assumption | with_reducible exact Keeps.rfl | with_reducible exact id | (intro _) | with_reducible apply keeps_ite
                | extract_lets | with_reducible apply onEnvelope_keeps | with_reducible apply bridgeParity_keeps
                | with_reducible apply takeRequest_keeps | split | with_reducible apply keeps_mk | exact fun _ => rfl | dsimp only

theorem routeResponse_keeps (u0 : State) (b : List Byte) (s : State)  (hk : Keeps u0 s) : Keeps u0 (routeResponse b s) := by
  unfold routeResponse
  repeat' first | with_reducible assumption | with_reducible exact id | (intro _) | with_reducible apply keeps_ite | extract_lets
                | with_reducible apply takeResponse_keeps | with_reducible apply sendEnvTug_keeps | split | with_reducible apply keeps_mk
                | exact fun _ => rfl | dsimp only

theorem execReadRspReceive_keeps (f : Frame) (err : Bool) (s s9 : State) (hk : execReadRspReceive f err s = .next s9) : Keeps s s9 := by
  unfold execReadRspReceive at hk
  cases hk
  repeat' first | with_reducible assumption | with_reducible exact Keeps.rfl | with_reducible exact id | (intro _) | with_reducible apply keeps_ite
                | extract_lets | with_reducible apply onEnvelope_keeps | with_reducible apply endRead_keeps
                | with_reducible apply bridgeParity_keeps | with_reducible apply routeResponse_keeps | split | with_reducible apply keeps_mk
                | exact fun _ => rfl | dsimp only

theorem envSegment_keeps (u0 : State) (c : TugChan) (m : TugRx) (s : State)  (hk : Keeps u0 s) : Keeps u0 (envSegment c m s).2 := by
  unfold envSegment
  try dsimp only
  repeat' first | with_reducible assumption | with_reducible exact Keeps.rfl | with_reducible exact id | (intro _) | with_reducible apply keeps_ite
                | with_reducible apply keeps_ite_app | with_reducible apply keeps_id | with_reducible apply count_keeps
                | with_reducible apply keeps_foldl | with_reducible apply keeps_foldl2 | split | simp only [keeps_mk_iff] | exact id
                | exact fun _ => rfl | exact fun i => put_wf _ _ _ _ i | exact put_wf _ _ _ _ (by assumption) | (rw [setBox_len]; assumption)
                | (simp [HostIf.setBox]; done) | dsimp only

theorem execTugReqSegmentReceive_keeps (m : TugRx) (s s9 : State) (hk : execTugReqSegmentReceive m s = .next s9) : Keeps s s9 := by
  unfold execTugReqSegmentReceive at hk
  cases hk
  refine onTug_keeps _ _ _ _ _ (fun x hx => ?_) Keeps.rfl
  have he := envSegment_keeps s .req m x hx
  split
  · rename_i heq
    rw [heq] at he
    exact he
  · rename_i heq
    rw [heq] at he
    split
    · exact takeTunnel_keeps _ _ _ he
    · exact takeRequest_keeps _ _ _ _ he

theorem execTugRspSegmentReceive_keeps (m : TugRx) (s s9 : State) (hk : execTugRspSegmentReceive m s = .next s9) : Keeps s s9 := by
  unfold execTugRspSegmentReceive at hk
  cases hk
  refine onTug_keeps _ _ _ _ _ (fun x hx => ?_) Keeps.rfl
  have he := envSegment_keeps s .rsp m x hx
  split
  · rename_i heq
    rw [heq] at he
    exact he
  · rename_i heq
    rw [heq] at he
    split
    · exact takeResponse_keeps _ _ _ he
    · exact he

theorem execExportHoldExpiry_keeps (session : Nat) (s s9 : State) (hk : execExportHoldExpiry session s = .next s9) : Keeps s s9 := by
  unfold execExportHoldExpiry at hk
  cases hk
  repeat' first | with_reducible assumption | with_reducible exact Keeps.rfl | (intro _) | with_reducible apply keeps_ite | extract_lets
                | with_reducible apply sendExport_keeps | split | dsimp only

theorem execTunAged_keeps (session : Nat) (s s9 : State) (hk : execTunAged session s = .next s9) : Keeps s s9 := by
  unfold execTunAged at hk
  cases hk
  repeat' first | with_reducible assumption | with_reducible exact Keeps.rfl | with_reducible exact id | (intro _) | with_reducible apply keeps_ite
                | extract_lets | with_reducible apply importPlace_keeps | with_reducible apply tunDrop_keeps | with_reducible apply popImport_keeps
                | split | with_reducible apply keeps_mk | exact fun _ => rfl | dsimp only

theorem issueRead_keeps (u0 : State) (o : OpenRead) (resend : Bool) (s : State)  (hk : Keeps u0 s) : Keeps u0 (issueRead o resend s) := by
  unfold issueRead
  repeat' first | with_reducible assumption | with_reducible exact id | (intro _) | with_reducible apply keeps_ite | extract_lets
                | with_reducible apply sendRead_keeps | with_reducible apply takeRequest_keeps | split | with_reducible apply keeps_mk
                | exact fun _ => rfl | dsimp only

theorem execReadResend_keeps (reqId : Nat) (s s9 : State) (hk : execReadResend reqId s = .next s9) : Keeps s s9 := by
  unfold execReadResend at hk
  cases hk
  repeat' first | with_reducible assumption | with_reducible exact Keeps.rfl | with_reducible exact id | (intro _) | with_reducible apply keeps_ite
                | extract_lets | with_reducible apply issueRead_keeps | with_reducible apply count_keeps | split | with_reducible apply keeps_mk
                | exact fun _ => rfl | dsimp only

theorem execReadTimeout_keeps (reqId : Nat) (s s9 : State) (hk : execReadTimeout reqId s = .next s9) : Keeps s s9 := by
  unfold execReadTimeout at hk
  cases hk
  repeat' first | with_reducible assumption | with_reducible exact Keeps.rfl | with_reducible exact id | (intro _) | with_reducible apply keeps_ite
                | extract_lets | with_reducible apply endRead_keeps | with_reducible apply raise_keeps | with_reducible apply logEvent_keeps
                | with_reducible apply count_keeps | split | with_reducible apply keeps_mk | exact fun _ => rfl | dsimp only

theorem execResponderRequestExpiry_keeps (nid : Nid) (chip : Nat) (reqId : Nat) (s s9 : State) (hk : execResponderRequestExpiry nid chip reqId s = .next s9) : Keeps s s9 := by
  unfold execResponderRequestExpiry at hk
  cases hk
  repeat' first | with_reducible assumption | with_reducible exact Keeps.rfl | with_reducible exact id | (intro _) | extract_lets
                | with_reducible apply keeps_mk | exact fun _ => rfl | dsimp only

theorem execSessionReloadDone_keeps (session : Nat) (s s9 : State) (hk : execSessionReloadDone session s = .next s9) : Keeps s s9 := by
  unfold execSessionReloadDone at hk
  cases hk
  repeat' first | with_reducible assumption | with_reducible exact Keeps.rfl | with_reducible exact id | (intro _) | with_reducible apply keeps_ite
                | extract_lets | with_reducible apply setSession_keeps | with_reducible apply sessionSaid_keeps | split
                | with_reducible apply keeps_mk | exact fun _ => rfl | dsimp only

theorem execBridgeStatus_keeps (c : Acs) (s s9 : State) (hk : execBridgeStatus c s = .next s9) : Keeps s s9 := by
  unfold execBridgeStatus at hk
  cases hk
  repeat' first | with_reducible assumption | with_reducible exact Keeps.rfl | (intro _) | extract_lets | with_reducible apply acsLen_keeps
                | with_reducible apply done_keeps | dsimp only

theorem effBridgeSession_keeps (u0 : State) (a : List Byte) (r : Option AcsRef) (s : State)  (hk : Keeps u0 s) : Keeps u0 (effBridgeSession a r s) := by
  unfold effBridgeSession
  repeat' first | with_reducible assumption | with_reducible exact id | (intro _) | with_reducible apply keeps_ite | extract_lets
                | with_reducible apply finish_keeps | with_reducible apply sessionSaid_keeps | with_reducible apply setSession_keeps | split
                | with_reducible apply keeps_mk | exact fun _ => rfl | dsimp only

theorem execBridgeSession_keeps (c : Acs) (s s9 : State) (hk : execBridgeSession c s = .next s9) : Keeps s s9 := by
  unfold execBridgeSession at hk
  cases hk
  repeat' first | with_reducible assumption | with_reducible exact Keeps.rfl | (intro _) | with_reducible apply keeps_ite | extract_lets
                | with_reducible apply acsLen_keeps | with_reducible apply badArgIf_keeps | with_reducible apply done_keeps
                | with_reducible apply nodeWide_keeps | with_reducible apply effBridgeSession_keeps | split | dsimp only

theorem execBridgeRead_keeps (c : Acs) (s s9 : State) (hk : execBridgeRead c s = .next s9) : Keeps s s9 := by
  unfold execBridgeRead at hk
  cases hk
  repeat' first | with_reducible assumption | with_reducible exact Keeps.rfl | with_reducible exact id | (intro _) | with_reducible apply keeps_ite
                | extract_lets | with_reducible apply acs_keeps | with_reducible apply done_keeps | with_reducible apply badArgIf_keeps
                | with_reducible apply freeTag_keeps | with_reducible apply takeTag_keeps | with_reducible apply issueRead_keeps | split
                | with_reducible apply keeps_mk | exact fun _ => rfl | dsimp only

theorem execBridgeCollect_keeps (c : Acs) (s s9 : State) (hk : execBridgeCollect c s = .next s9) : Keeps s s9 := by
  unfold execBridgeCollect at hk
  cases hk
  repeat' first | with_reducible assumption | with_reducible exact Keeps.rfl | with_reducible exact id | (intro _) | with_reducible apply keeps_ite
                | extract_lets | with_reducible apply acsLen_keeps | with_reducible apply badArgIf_keeps | with_reducible apply done_keeps
                | with_reducible apply freeTag_keeps | with_reducible apply keeps_foldl | split | with_reducible apply keeps_mk | exact fun _ => rfl
                | dsimp only

end Sys2Proof.Machine
end

