-- ==== Sys2Proof/Laws/KeepsCan.lean ====
section
/-! SUPPORT. What every operation of Machine/Can.lean keeps, said once for each: the queue, the outputs made so far, the free values used, the
invariant, protection (Keeps of Safety.lean). -/
set_option Elab.async false
set_option linter.all false
namespace Sys2Proof.Machine
theorem execCanStartOfFrame_keeps (ch : Nat) (err : Bool) (s s9 : State) (hk : execCanStartOfFrame ch err s = .next s9) : Keeps s s9 := by
  unfold execCanStartOfFrame at hk
  cases hk
  repeat' first | with_reducible assumption | with_reducible exact Keeps.rfl | with_reducible exact id | (intro _) | with_reducible apply keeps_ite
                | extract_lets | with_reducible apply canBufParity_keeps | with_reducible apply emit_keeps | with_reducible apply setCan_keeps
                | with_reducible apply setBuf_keeps | split | with_reducible apply keeps_mk | exact fun _ => rfl | dsimp only

theorem canSent_keeps (u0 : State) (ch : Nat) (b : Nat) (s : State)  (hk : Keeps u0 s) : Keeps u0 (canSent ch b s) := by
  unfold canSent
  repeat' first | with_reducible assumption | with_reducible exact id | (intro _) | with_reducible apply keeps_ite | extract_lets
                | with_reducible apply setCan_keeps | with_reducible apply setBuf_keeps | with_reducible apply canTxEnd_keeps
                | with_reducible apply count_keeps | split | with_reducible apply keeps_mk | exact fun _ => rfl | dsimp only

theorem execCanTxSuccess_keeps (ch : Nat) (s s9 : State) (hk : execCanTxSuccess ch s = .next s9) : Keeps s s9 := by
  unfold execCanTxSuccess at hk
  cases hk
  repeat' first | with_reducible assumption | with_reducible exact Keeps.rfl | with_reducible exact id | (intro _) | with_reducible apply keeps_ite
                | extract_lets | with_reducible apply count_keeps | with_reducible apply canErrState_keeps | with_reducible apply setCan_keeps
                | with_reducible apply canSent_keeps | with_reducible apply canDeliver_keeps | with_reducible apply exportCan_keeps
                | with_reducible apply canSettle_keeps | with_reducible apply importAll_keeps | with_reducible apply txnSent_keeps | split
                | with_reducible apply keeps_mk | exact fun _ => rfl | dsimp only

theorem execCanArbitrationLost_keeps (ch : Nat) (s s9 : State) (hk : execCanArbitrationLost ch s = .next s9) : Keeps s s9 := by
  unfold execCanArbitrationLost at hk
  cases hk
  repeat' first | with_reducible assumption | with_reducible exact Keeps.rfl | with_reducible exact id | (intro _) | with_reducible apply keeps_ite
                | extract_lets | with_reducible apply canSettle_keeps | with_reducible apply canRequeue_keeps | with_reducible apply setBuf_keeps
                | with_reducible apply count_keeps | split | with_reducible apply keeps_mk | exact fun _ => rfl | dsimp only

theorem duplicateId_keeps (u0 : State) (ch : Nat) (b : Nat) (s : State)  (hk : Keeps u0 s) : Keeps u0 (duplicateId ch b s) := by
  unfold duplicateId
  repeat' first | with_reducible assumption | with_reducible exact id | (intro _) | with_reducible apply keeps_ite | extract_lets
                | with_reducible apply logEvent_keeps | with_reducible apply count_keeps | with_reducible apply setBuf_keeps
                | with_reducible apply raise_keeps | with_reducible apply canTxEnd_keeps | split | with_reducible apply keeps_mk
                | exact fun _ => rfl | dsimp only

theorem canFailed_keeps (u0 : State) (ch : Nat) (b : Nat) (bitData : Bool) (s : State)  (hk : Keeps u0 s) : Keeps u0 (canFailed ch b bitData s) := by
  unfold canFailed
  repeat' first | with_reducible assumption | with_reducible exact id | (intro _) | with_reducible apply keeps_ite | extract_lets
                | with_reducible apply canRequeue_keeps | with_reducible apply setBuf_keeps | with_reducible apply duplicateId_keeps | split
                | with_reducible apply keeps_mk | exact fun _ => rfl | dsimp only

theorem execCanErrorDetected_keeps (ch : Nat) (tx : Bool) (kind : Nat) (inData : Bool) (exempt : Bool) (extra : Nat) (tdc : Bool) (s s9 : State) (hk : execCanErrorDetected ch tx kind inData exempt extra tdc s = .next s9) : Keeps s s9 := by
  unfold execCanErrorDetected at hk
  cases hk
  repeat' first | with_reducible assumption | with_reducible exact Keeps.rfl | with_reducible exact id | (intro _) | with_reducible apply keeps_ite
                | extract_lets | with_reducible apply count_keeps | with_reducible apply setCan_keeps | with_reducible apply emit_keeps
                | with_reducible apply canFailed_keeps | with_reducible apply canSettle_keeps | with_reducible apply canErrState_keeps | split
                | with_reducible apply keeps_mk | exact fun _ => rfl | dsimp only

theorem execBusOffRecovered_keeps (ch : Nat) (s s9 : State) (hk : execBusOffRecovered ch s = .next s9) : Keeps s s9 := by
  unfold execBusOffRecovered at hk
  cases hk
  repeat' first | with_reducible assumption | with_reducible exact Keeps.rfl | with_reducible exact id | (intro _) | with_reducible apply keeps_ite
                | extract_lets | with_reducible apply raise_keeps | with_reducible apply logEvent_keeps | with_reducible apply count_keeps
                | with_reducible apply setCan_keeps | split | with_reducible apply keeps_mk | exact fun _ => rfl | dsimp only

theorem execCanIntegrationDone_keeps (ch : Nat) (s s9 : State) (hk : execCanIntegrationDone ch s = .next s9) : Keeps s s9 := by
  unfold execCanIntegrationDone at hk
  cases hk
  repeat' first | with_reducible assumption | with_reducible exact Keeps.rfl | with_reducible exact id | (intro _) | with_reducible apply keeps_ite
                | extract_lets | with_reducible apply setCan_keeps | split | with_reducible apply keeps_mk | exact fun _ => rfl | dsimp only

theorem readOut_keeps (u0 : State) (off : Nat) (r : Nat × State) (hk : Keeps u0 r.2) : Keeps u0 (readOut off r) :=
  emit_keeps _ _ _ hk

theorem execCanBufferWord0Read_keeps (buf : Nat) (err : Bool) (s s9 : State) (hk : execCanBufferWord0Read buf err s = .next s9) : Keeps s s9 := by
  unfold execCanBufferWord0Read at hk
  cases hk
  repeat' first | with_reducible assumption | with_reducible exact Keeps.rfl | (intro _) | with_reducible apply keeps_ite | extract_lets
                | with_reducible apply readOut_keeps | with_reducible apply canRead0_keeps | split | dsimp only

theorem execCanBufferWord17Read_keeps (buf : Nat) (s s9 : State) (hk : execCanBufferWord17Read buf s = .next s9) : Keeps s s9 := by
  unfold execCanBufferWord17Read at hk
  cases hk
  repeat' first | with_reducible assumption | with_reducible exact Keeps.rfl | (intro _) | with_reducible apply keeps_ite | extract_lets
                | with_reducible apply readOut_keeps | with_reducible apply canRead17_keeps | split | dsimp only

theorem execCanFifoHeadWord0Read_keeps (err : Bool) (s s9 : State) (hk : execCanFifoHeadWord0Read err s = .next s9) : Keeps s s9 := by
  unfold execCanFifoHeadWord0Read at hk
  cases hk
  repeat' first | with_reducible assumption | with_reducible exact Keeps.rfl | (intro _) | with_reducible apply keeps_ite | extract_lets
                | with_reducible apply readOut_keeps | with_reducible apply fifoRead0_keeps | split | dsimp only

theorem execCanFifoHeadWord17Read_keeps  (s s9 : State) (hk : execCanFifoHeadWord17Read s = .next s9) : Keeps s s9 := by
  unfold execCanFifoHeadWord17Read at hk
  cases hk
  repeat' first | with_reducible assumption | with_reducible exact Keeps.rfl | (intro _) | with_reducible apply keeps_ite | extract_lets
                | with_reducible apply readOut_keeps | with_reducible apply fifoRead17_keeps | split | dsimp only

theorem execCanWriteRxEmpty_keeps (buf : Nat) (s s9 : State) (hk : execCanWriteRxEmpty buf s = .next s9) : Keeps s s9 := by
  unfold execCanWriteRxEmpty at hk
  cases hk
  repeat' first | with_reducible assumption | with_reducible exact Keeps.rfl | (intro _) | with_reducible apply keeps_ite | extract_lets
                | with_reducible apply canWriteEmpty_keeps | split | dsimp only

theorem execCanWriteTxPending_keeps (buf : Nat) (w : Word) (s s9 : State) (hk : execCanWriteTxPending buf w s = .next s9) : Keeps s s9 := by
  unfold execCanWriteTxPending at hk
  cases hk
  repeat' first | with_reducible assumption | with_reducible exact Keeps.rfl | (intro _) | with_reducible apply keeps_ite | extract_lets
                | with_reducible apply canWritePending_keeps | split | dsimp only

theorem execCanWriteTxIdle_keeps (buf : Nat) (w : Word) (s s9 : State) (hk : execCanWriteTxIdle buf w s = .next s9) : Keeps s s9 := by
  unfold execCanWriteTxIdle at hk
  cases hk
  repeat' first | with_reducible assumption | with_reducible exact Keeps.rfl | (intro _) | with_reducible apply keeps_ite | extract_lets
                | with_reducible apply canWriteIdle_keeps | split | dsimp only

theorem execCanCancelBuffer_keeps (ch : Nat) (buf : Nat) (s s9 : State) (hk : execCanCancelBuffer ch buf s = .next s9) : Keeps s s9 := by
  unfold execCanCancelBuffer at hk
  cases hk
  repeat' first | with_reducible assumption | with_reducible exact Keeps.rfl | (intro _) | with_reducible apply keeps_ite | extract_lets
                | with_reducible apply canCancel_keeps | split | dsimp only

theorem execCanCancelAll_keeps (ch : Nat) (s s9 : State) (hk : execCanCancelAll ch s = .next s9) : Keeps s s9 := by
  unfold execCanCancelAll at hk
  cases hk
  repeat' first | with_reducible assumption | with_reducible exact Keeps.rfl | (intro _) | with_reducible apply keeps_ite | extract_lets
                | with_reducible apply canCancel_keeps | with_reducible apply keeps_foldl | split | dsimp only

theorem execCanConfigReloadDone_keeps (ch : Nat) (s s9 : State) (hk : execCanConfigReloadDone ch s = .next s9) : Keeps s s9 := by
  unfold execCanConfigReloadDone at hk
  cases hk
  repeat' first | with_reducible assumption | with_reducible exact Keeps.rfl | with_reducible exact id | (intro _) | with_reducible apply keeps_ite
                | extract_lets | with_reducible apply canLoad_keeps | with_reducible apply canSetBlock_keeps | with_reducible apply setCan_keeps
                | split | with_reducible apply keeps_mk | exact fun _ => rfl | dsimp only

theorem effCanConfig_keeps (u0 : State) (a : List Byte) (r : Option AcsRef) (s : State)  (hk : Keeps u0 s) : Keeps u0 (effCanConfig a r s) := by
  unfold effCanConfig
  repeat' first | with_reducible assumption | with_reducible exact id | (intro _) | with_reducible apply keeps_ite | extract_lets
                | with_reducible apply finish_keeps | with_reducible apply canSettle_keeps | with_reducible apply setCan_keeps | split
                | with_reducible apply keeps_mk | exact fun _ => rfl | dsimp only

theorem execCanConfig_keeps (c : Acs) (s s9 : State) (hk : execCanConfig c s = .next s9) : Keeps s s9 := by
  unfold execCanConfig at hk
  cases hk
  repeat' first | with_reducible assumption | with_reducible exact Keeps.rfl | (intro _) | with_reducible apply keeps_ite | extract_lets
                | with_reducible apply acsLen_keeps | with_reducible apply badArgIf_keeps | with_reducible apply nodeWide_keeps
                | with_reducible apply effCanConfig_keeps | split | dsimp only

theorem execCanConfigRead_keeps (c : Acs) (s s9 : State) (hk : execCanConfigRead c s = .next s9) : Keeps s s9 := by
  unfold execCanConfigRead at hk
  cases hk
  repeat' first | with_reducible assumption | with_reducible exact Keeps.rfl | (intro _) | with_reducible apply keeps_ite | extract_lets
                | with_reducible apply acsLen_keeps | with_reducible apply badArgIf_keeps | with_reducible apply done_keeps | split | dsimp only

theorem wakeMatched_keeps (u0 : State) (ch : Nat) (what : Nat) (s : State)  (hk : Keeps u0 s) : Keeps u0 (wakeMatched ch what s) := by
  unfold wakeMatched
  repeat' first | with_reducible assumption | (intro _) | extract_lets | with_reducible apply raise_keeps | with_reducible apply logEvent_keeps
                | with_reducible apply count_keeps | dsimp only

theorem execCanFrameReceive_keeps (ch : Nat) (f : CanFrame) (sof : Nat) (bad : Option Nat) (s s9 : State) (hk : execCanFrameReceive ch f sof bad s = .next s9) : Keeps s s9 := by
  unfold execCanFrameReceive at hk
  cases hk
  repeat' first | with_reducible assumption | with_reducible exact Keeps.rfl | with_reducible exact id | (intro _) | with_reducible apply keeps_ite
                | extract_lets | with_reducible apply wakeEvent_keeps | with_reducible apply wakeMatched_keeps
                | with_reducible apply canConfigParity_keeps | with_reducible apply raise_keeps | with_reducible apply count_keeps
                | with_reducible apply canDeliver_keeps | with_reducible apply exportCan_keeps | with_reducible apply canRxGood_keeps
                | with_reducible apply txnMatch_keeps | split | with_reducible apply keeps_mk | exact fun _ => rfl | dsimp only

theorem execCanWakeActivity_keeps (ch : Nat) (s s9 : State) (hk : execCanWakeActivity ch s = .next s9) : Keeps s s9 := by
  unfold execCanWakeActivity at hk
  cases hk
  repeat' first | with_reducible assumption | with_reducible exact Keeps.rfl | (intro _) | with_reducible apply keeps_ite | extract_lets
                | with_reducible apply wakeEvent_keeps | with_reducible apply wakeMatched_keeps | split | dsimp only

end Sys2Proof.Machine
end

