-- ==== Sys2Proof/Laws/KeepsControl.lean ====
section
/-! SUPPORT. What every operation of Machine/Control.lean keeps, said once for each: the queue, the outputs made so far, the free values used, the
invariant, protection (Keeps of Safety.lean). -/
set_option Elab.async false
set_option linter.all false
namespace Sys2Proof.Machine
theorem doSwap_keeps (u0 : State) (w : SwapWait) (s : State)  (hk : Keeps u0 s) : Keeps u0 (doSwap w s) := by
  unfold doSwap
  repeat' first | with_reducible assumption | with_reducible exact id | (intro _) | with_reducible apply keeps_ite | extract_lets
                | with_reducible apply setTask_keeps | with_reducible apply committed_keeps | with_reducible apply forceReleased_keeps
                | with_reducible apply raise_keeps | with_reducible apply logEvent_keeps | with_reducible apply finish_keeps
                | with_reducible apply keeps_foldl | split | with_reducible apply keeps_mk | exact fun _ => rfl | dsimp only

theorem dueSwaps_keeps (u0 : State) (n : Nat) (s : State)  (hk : Keeps u0 s) : Keeps u0 (dueSwaps n s) := by
  unfold dueSwaps
  repeat' first | with_reducible assumption | with_reducible exact id | (intro _) | extract_lets | with_reducible apply doSwap_keeps
                | with_reducible apply keeps_foldl | with_reducible apply keeps_mk | exact fun _ => rfl | dsimp only

theorem varParity_keeps (u0 : State) (n : Nat) (where_ : Nat) (result : Nat) (s : State)  (hk : Keeps u0 s) : Keeps u0 (varParity n where_ result s) := by
  unfold varParity
  repeat' first | with_reducible assumption | (intro _) | extract_lets | with_reducible apply logEvent_keeps | with_reducible apply count_keeps
                | dsimp only

theorem latchTask_keeps (u0 : State) (n : Nat) (err : Bool) (s : State)  (hk : Keeps u0 s) : Keeps u0 (latchTask n err s) := by
  unfold latchTask
  repeat' first | with_reducible assumption | with_reducible exact id | (intro _) | with_reducible apply keeps_ite | extract_lets
                | with_reducible apply migHandOver_keeps | with_reducible apply dueSwaps_keeps | with_reducible apply dueForces_keeps
                | with_reducible apply setTask_keeps | with_reducible apply latchImage_keeps | with_reducible apply holdTask_keeps
                | with_reducible apply varParity_keeps | with_reducible apply offerImage_keeps | with_reducible apply makeReady_keeps | split
                | with_reducible apply keeps_mk | exact fun _ => rfl | dsimp only

theorem stopDuplicate_keeps (u0 : State) (n : Nat) (kept : Nid) (s : State)  (hk : Keeps u0 s) : Keeps u0 (stopDuplicate n kept s) := by
  unfold stopDuplicate
  repeat' first | with_reducible assumption | with_reducible exact id | (intro _) | with_reducible apply keeps_ite | extract_lets
                | with_reducible apply leaveTask_keeps | with_reducible apply resetGpio_keeps | with_reducible apply wrSay_keeps
                | with_reducible apply releaseForces_keeps | split | with_reducible apply keeps_mk | exact fun _ => rfl | dsimp only

theorem execLatch_keeps (task : Nat) (err : Nat) (ctxErr : Option Nat) (s s9 : State) (hk : execLatch task err ctxErr s = .next s9) : Keeps s s9 := by
  unfold execLatch at hk
  cases hk
  repeat' first | with_reducible assumption | with_reducible exact Keeps.rfl | with_reducible exact id | (intro _) | with_reducible apply keeps_ite
                | extract_lets | with_reducible apply stopDuplicate_keeps | with_reducible apply migAtGrid_keeps
                | with_reducible apply latchTask_keeps | with_reducible apply payloadBad_keeps | split | with_reducible apply keeps_mk
                | exact fun _ => rfl | dsimp only

theorem execTaskExecutionEnd_keeps (task : Nat) (working : List Byte) (outImage : List Byte) (ns : Nat) (s s9 : State) (hk : execTaskExecutionEnd task working outImage ns s = .next s9) : Keeps s s9 := by
  unfold execTaskExecutionEnd at hk
  cases hk
  repeat' first | with_reducible assumption | with_reducible exact Keeps.rfl | with_reducible exact id | (intro _) | with_reducible apply keeps_ite
                | extract_lets | with_reducible apply schedule_keeps | with_reducible apply setTask_keeps | with_reducible apply committed_keeps
                | split | with_reducible apply keeps_mk | exact fun _ => rfl | dsimp only

theorem shadowCommit_keeps (u0 : State) (n : Nat) (s : State)  (hk : Keeps u0 s) : Keeps u0 (shadowCommit n s) := by
  unfold shadowCommit
  repeat' first | with_reducible assumption | with_reducible exact id | (intro _) | with_reducible apply keeps_ite | extract_lets
                | with_reducible apply setTask_keeps | with_reducible apply commitBank_keeps | with_reducible apply wrMeasure_keeps | split
                | with_reducible apply keeps_mk | exact fun _ => rfl | dsimp only

theorem commitEnded_keeps (u0 : State) (n : Nat) (err : Nat) (t : Task) (s : State)  (hk : Keeps u0 s) : Keeps u0 (commitEnded n err t s) := by
  unfold commitEnded
  repeat' first | with_reducible assumption | with_reducible exact id | (intro _) | with_reducible apply keeps_ite | extract_lets
                | with_reducible apply taskFault_keeps | with_reducible apply varParity_keeps | with_reducible apply heldCommit_keeps
                | with_reducible apply setTask_keeps | with_reducible apply migTaken_keeps | with_reducible apply commitTask_keeps
                | with_reducible apply wrMeasure_keeps | with_reducible apply shadowCommit_keeps | with_reducible apply commitSingle_keeps
                | with_reducible apply offerOutput_keeps | with_reducible apply commitAlone_keeps | split | with_reducible apply keeps_mk
                | exact fun _ => rfl | dsimp only

theorem commitHeld_keeps (u0 : State) (n : Nat) (t : Task) (s : State)  (hk : Keeps u0 s) : Keeps u0 (commitHeld n t s) := by
  unfold commitHeld
  repeat' first | with_reducible assumption | (intro _) | with_reducible apply keeps_ite | extract_lets | with_reducible apply offerOutput_keeps
                | with_reducible apply heldCommit_keeps | split | dsimp only

theorem overrun_keeps (u0 : State) (n : Nat) (t : Task) (s : State)  (hk : Keeps u0 s) : Keeps u0 (overrun n t s) := by
  unfold overrun
  repeat' first | with_reducible assumption | with_reducible exact id | (intro _) | with_reducible apply keeps_ite | extract_lets
                | with_reducible apply logEvent_keeps | with_reducible apply count_keeps | with_reducible apply setTask_keeps
                | with_reducible apply commitHeld_keeps | with_reducible apply holdTask_keeps | with_reducible apply taskFault_keeps | split
                | with_reducible apply keeps_mk | exact fun _ => rfl | dsimp only

theorem execCommit_keeps (task : Nat) (err : Nat) (canBad : Option (Nat × Nat)) (s s9 : State) (hk : execCommit task err canBad s = .next s9) : Keeps s s9 := by
  unfold execCommit at hk
  cases hk
  repeat' first | with_reducible assumption | with_reducible exact Keeps.rfl | with_reducible exact id | (intro _) | with_reducible apply keeps_ite
                | extract_lets | with_reducible apply commitEnded_keeps | with_reducible apply commitHeld_keeps | with_reducible apply setTask_keeps
                | with_reducible apply overrun_keeps | with_reducible apply canBufParity_keeps | split | with_reducible apply keeps_mk
                | exact fun _ => rfl | dsimp only

theorem execControlLockstepMismatch_keeps (pair : Nat) (s s9 : State) (hk : execControlLockstepMismatch pair s = .next s9) : Keeps s s9 := by
  unfold execControlLockstepMismatch at hk
  cases hk
  repeat' first | with_reducible assumption | with_reducible exact Keeps.rfl | with_reducible exact id | (intro _) | with_reducible apply keeps_ite
                | extract_lets | with_reducible apply setPair_keeps | with_reducible apply raise_keeps | with_reducible apply logEvent_keeps
                | with_reducible apply count_keeps | with_reducible apply setTask_keeps | with_reducible apply holdTask_keeps
                | with_reducible apply retirePair_keeps | split | with_reducible apply keeps_mk | exact fun _ => rfl | dsimp only

theorem execPairResyncDone_keeps (pair : Nat) (s s9 : State) (hk : execPairResyncDone pair s = .next s9) : Keeps s s9 := by
  unfold execPairResyncDone at hk
  cases hk
  repeat' first | with_reducible assumption | with_reducible exact Keeps.rfl | with_reducible exact id | (intro _) | with_reducible apply keeps_ite
                | extract_lets | with_reducible apply setPair_keeps | with_reducible apply redoTask_keeps | with_reducible apply schedule_keeps
                | split | with_reducible apply keeps_mk | exact fun _ => rfl | dsimp only

theorem redoOrHold_keeps (u0 : State) (n : Nat) (s : State)  (hk : Keeps u0 s) : Keeps u0 (redoOrHold n s) := by
  unfold redoOrHold
  repeat' first | with_reducible assumption | with_reducible exact id | (intro _) | with_reducible apply keeps_ite | extract_lets
                | with_reducible apply redoTask_keeps | with_reducible apply holdTask_keeps | split | with_reducible apply keeps_mk
                | exact fun _ => rfl | dsimp only

theorem execMemoryParityError_keeps (kind : Nat) (task : Nat) (addr : Nat) (s s9 : State) (hk : execMemoryParityError kind task addr s = .next s9) : Keeps s s9 := by
  unfold execMemoryParityError at hk
  cases hk
  repeat' first | with_reducible assumption | with_reducible exact Keeps.rfl | with_reducible exact id | (intro _) | with_reducible apply keeps_ite
                | extract_lets | with_reducible apply releaseForces_keeps | with_reducible apply redoOrHold_keeps
                | with_reducible apply varParity_keeps | with_reducible apply logEvent_keeps | with_reducible apply count_keeps
                | with_reducible apply setTask_keeps | with_reducible apply schedule_keeps | split | with_reducible apply keeps_mk
                | exact fun _ => rfl | dsimp only

theorem execPageReloadDone_keeps (task : Nat) (ok : Bool) (s s9 : State) (hk : execPageReloadDone task ok s = .next s9) : Keeps s s9 := by
  unfold execPageReloadDone at hk
  cases hk
  repeat' first | with_reducible assumption | with_reducible exact Keeps.rfl | with_reducible exact id | (intro _) | with_reducible apply keeps_ite
                | extract_lets | with_reducible apply taskFault_keeps | with_reducible apply count_keeps | with_reducible apply redoOrHold_keeps
                | split | with_reducible apply keeps_mk | exact fun _ => rfl | dsimp only

theorem retainDie_keeps (u0 : State) (n : Nat) (k : Nat) (b : List Byte) (die : Nat) (ok : Bool) (s : State)  (hk : Keeps u0 s) : Keeps u0 (retainDie n k b die ok s) := by
  unfold retainDie
  repeat' first | with_reducible assumption | (intro _) | with_reducible apply keeps_ite | extract_lets | with_reducible apply setRetain_keeps
                | with_reducible apply retainFault_keeps | with_reducible apply setResource_keeps | with_reducible apply degradeDie_keeps | split
                | dsimp only

theorem execRetainWriteDone_keeps (task : Nat) (ok0 : Bool) (ok1 : Bool) (s s9 : State) (hk : execRetainWriteDone task ok0 ok1 s = .next s9) : Keeps s s9 := by
  unfold execRetainWriteDone at hk
  cases hk
  repeat' first | with_reducible assumption | with_reducible exact Keeps.rfl | with_reducible exact id | (intro _) | with_reducible apply keeps_ite
                | extract_lets | with_reducible apply retainDie_keeps | with_reducible apply setTask_keeps | with_reducible apply count_keeps
                | with_reducible apply retainDead_keeps | split | with_reducible apply keeps_mk | exact fun _ => rfl | dsimp only

theorem execStartWaitExpiry_keeps  (s s9 : State) (hk : execStartWaitExpiry s = .next s9) : Keeps s s9 := by
  unfold execStartWaitExpiry at hk
  cases hk
  repeat' first | with_reducible assumption | with_reducible exact Keeps.rfl | (intro _) | with_reducible apply keeps_ite | extract_lets
                | with_reducible apply startNow_keeps | split | dsimp only

theorem execControlStart_keeps  (s s9 : State) (hk : execControlStart s = .next s9) : Keeps s s9 := by
  unfold execControlStart at hk
  cases hk
  repeat' first | with_reducible assumption | with_reducible exact Keeps.rfl | with_reducible exact id | (intro _) | with_reducible apply keeps_ite
                | extract_lets | with_reducible apply wrCheck_keeps | with_reducible apply controlStart_keeps | split
                | with_reducible apply keeps_mk | exact fun _ => rfl | dsimp only

theorem execTaskList_keeps (c : Acs) (s s9 : State) (hk : execTaskList c s = .next s9) : Keeps s s9 := by
  unfold execTaskList at hk
  cases hk
  repeat' first | with_reducible assumption | with_reducible exact Keeps.rfl | (intro _) | extract_lets | with_reducible apply acsLen_keeps
                | with_reducible apply done_keeps | dsimp only

theorem effTaskStart_keeps (u0 : State) (a : List Byte) (r : Option AcsRef) (s : State)  (hk : Keeps u0 s) : Keeps u0 (effTaskStart a r s) := by
  unfold effTaskStart
  repeat' first | with_reducible assumption | with_reducible exact id | (intro _) | with_reducible apply keeps_ite | extract_lets
                | with_reducible apply finish_keeps | with_reducible apply wrCheck_keeps | with_reducible apply controlStart_keeps | split
                | with_reducible apply keeps_mk | exact fun _ => rfl | dsimp only

theorem execTaskStart_keeps (c : Acs) (s s9 : State) (hk : execTaskStart c s = .next s9) : Keeps s s9 := by
  unfold execTaskStart at hk
  cases hk
  repeat' first | with_reducible assumption | with_reducible exact Keeps.rfl | (intro _) | with_reducible apply keeps_ite | extract_lets
                | with_reducible apply acsLen_keeps | with_reducible apply badArgIf_keeps | with_reducible apply nodeWide_keeps
                | with_reducible apply effTaskStart_keeps | split | dsimp only

theorem effTaskStop_keeps (u0 : State) (a : List Byte) (r : Option AcsRef) (s : State)  (hk : Keeps u0 s) : Keeps u0 (effTaskStop a r s) := by
  unfold effTaskStop
  repeat' first | with_reducible assumption | with_reducible exact id | (intro _) | with_reducible apply keeps_ite | extract_lets
                | with_reducible apply finish_keeps | with_reducible apply stopTask_keeps | with_reducible apply abortOut_keeps | split
                | with_reducible apply keeps_mk | exact fun _ => rfl | dsimp only

theorem execTaskStop_keeps (c : Acs) (s s9 : State) (hk : execTaskStop c s = .next s9) : Keeps s s9 := by
  unfold execTaskStop at hk
  cases hk
  repeat' first | with_reducible assumption | with_reducible exact Keeps.rfl | (intro _) | with_reducible apply keeps_ite | extract_lets
                | with_reducible apply acsLen_keeps | with_reducible apply badArgIf_keeps | with_reducible apply nodeWide_keeps
                | with_reducible apply effTaskStop_keeps | split | dsimp only

theorem effTaskResume_keeps (u0 : State) (a : List Byte) (r : Option AcsRef) (s : State)  (hk : Keeps u0 s) : Keeps u0 (effTaskResume a r s) := by
  unfold effTaskResume
  repeat' first | with_reducible assumption | with_reducible exact id | (intro _) | with_reducible apply keeps_ite | extract_lets
                | with_reducible apply finish_keeps | with_reducible apply setTask_keeps | with_reducible apply enablePubs_keeps
                | with_reducible apply assignPair_keeps | split | with_reducible apply keeps_mk | exact fun _ => rfl | dsimp only

theorem execTaskResume_keeps (c : Acs) (s s9 : State) (hk : execTaskResume c s = .next s9) : Keeps s s9 := by
  unfold execTaskResume at hk
  cases hk
  repeat' first | with_reducible assumption | with_reducible exact Keeps.rfl | (intro _) | with_reducible apply keeps_ite | extract_lets
                | with_reducible apply acsLen_keeps | with_reducible apply badArgIf_keeps | with_reducible apply nodeWide_keeps
                | with_reducible apply effTaskResume_keeps | split | dsimp only

theorem effTaskSwap_keeps (u0 : State) (a : List Byte) (r : Option AcsRef) (s : State)  (hk : Keeps u0 s) : Keeps u0 (effTaskSwap a r s) := by
  unfold effTaskSwap
  repeat' first | with_reducible assumption | with_reducible exact id | (intro _) | with_reducible apply keeps_ite | extract_lets
                | with_reducible apply finish_keeps | split | with_reducible apply keeps_mk | exact fun _ => rfl | dsimp only

theorem sendStage_keeps (u0 : State)  (s : State)  (hk : Keeps u0 s) : Keeps u0 (sendStage s) := by
  unfold sendStage
  repeat' first | with_reducible assumption | (intro _) | with_reducible apply keeps_ite | extract_lets | with_reducible apply tugAll_keeps
                | with_reducible apply keeps_foldl | split | dsimp only

theorem execTaskSwap_keeps (c : Acs) (s s9 : State) (hk : execTaskSwap c s = .next s9) : Keeps s s9 := by
  unfold execTaskSwap at hk
  cases hk
  repeat' first | with_reducible assumption | with_reducible exact Keeps.rfl | (intro _) | with_reducible apply keeps_ite | extract_lets
                | with_reducible apply acsLen_keeps | with_reducible apply badArgIf_keeps | with_reducible apply nodeWide_keeps
                | with_reducible apply effTaskSwap_keeps | with_reducible apply sendStage_keeps | split | dsimp only

theorem stageChunk_keeps (u0 : State) (off : Nat) (total : Nat) (chunk : List Byte) (s : State)  (hk : Keeps u0 s) : Keeps u0 (stageChunk off total chunk s) := by
  unfold stageChunk
  repeat' first | with_reducible assumption | with_reducible exact id | (intro _) | with_reducible apply keeps_ite | extract_lets | split
                | with_reducible apply keeps_mk | exact fun _ => rfl | dsimp only

theorem execTaskStage_keeps (c : Acs) (s s9 : State) (hk : execTaskStage c s = .next s9) : Keeps s s9 := by
  unfold execTaskStage at hk
  cases hk
  repeat' first | with_reducible assumption | with_reducible exact Keeps.rfl | (intro _) | with_reducible apply keeps_ite | extract_lets
                | with_reducible apply acs_keeps | with_reducible apply done_keeps | with_reducible apply badArgIf_keeps
                | with_reducible apply stageChunk_keeps | split | dsimp only

theorem effForceSet_keeps (u0 : State) (a : List Byte) (r : Option AcsRef) (s : State)  (hk : Keeps u0 s) : Keeps u0 (effForceSet a r s) := by
  unfold effForceSet
  repeat' first | with_reducible assumption | with_reducible exact id | (intro _) | with_reducible apply keeps_ite | extract_lets
                | with_reducible apply finish_keeps | with_reducible apply dueForces_keeps | split | with_reducible apply keeps_mk
                | exact fun _ => rfl | dsimp only

theorem execForceSet_keeps (c : Acs) (s s9 : State) (hk : execForceSet c s = .next s9) : Keeps s s9 := by
  unfold execForceSet at hk
  cases hk
  repeat' first | with_reducible assumption | with_reducible exact Keeps.rfl | (intro _) | with_reducible apply keeps_ite | extract_lets
                | with_reducible apply acsLen_keeps | with_reducible apply done_keeps | with_reducible apply nodeWide_keeps
                | with_reducible apply effForceSet_keeps | split | dsimp only

theorem effForceRelease_keeps (u0 : State) (a : List Byte) (r : Option AcsRef) (s : State)  (hk : Keeps u0 s) : Keeps u0 (effForceRelease a r s) := by
  unfold effForceRelease
  repeat' first | with_reducible assumption | with_reducible exact id | (intro _) | with_reducible apply keeps_ite | extract_lets
                | with_reducible apply finish_keeps | with_reducible apply dueForces_keeps | split | with_reducible apply keeps_mk
                | exact fun _ => rfl | dsimp only

theorem execForceRelease_keeps (c : Acs) (s s9 : State) (hk : execForceRelease c s = .next s9) : Keeps s s9 := by
  unfold execForceRelease at hk
  cases hk
  repeat' first | with_reducible assumption | with_reducible exact Keeps.rfl | (intro _) | extract_lets | with_reducible apply acsLen_keeps
                | with_reducible apply badArgIf_keeps | with_reducible apply nodeWide_keeps | with_reducible apply effForceRelease_keeps
                | dsimp only

theorem execForceList_keeps (c : Acs) (s s9 : State) (hk : execForceList c s = .next s9) : Keeps s s9 := by
  unfold execForceList at hk
  cases hk
  repeat' first | with_reducible assumption | with_reducible exact Keeps.rfl | (intro _) | extract_lets | with_reducible apply acsLen_keeps
                | with_reducible apply badArgIf_keeps | with_reducible apply done_keeps | dsimp only

theorem effForceReleaseAll_keeps (u0 : State) (a0 : List Byte) (r : Option AcsRef) (s : State)  (hk : Keeps u0 s) : Keeps u0 (effForceReleaseAll a0 r s) := by
  unfold effForceReleaseAll
  repeat' first | with_reducible assumption | with_reducible exact id | (intro _) | extract_lets | with_reducible apply releaseForces_keeps
                | with_reducible apply finish_keeps | with_reducible apply keeps_mk | exact fun _ => rfl | dsimp only

theorem execForceReleaseAll_keeps (c : Acs) (s s9 : State) (hk : execForceReleaseAll c s = .next s9) : Keeps s s9 := by
  unfold execForceReleaseAll at hk
  cases hk
  repeat' first | with_reducible assumption | with_reducible exact Keeps.rfl | (intro _) | extract_lets | with_reducible apply acsLen_keeps
                | with_reducible apply nodeWide_keeps | with_reducible apply effForceReleaseAll_keeps | dsimp only

end Sys2Proof.Machine
end

