-- ==== Sys2Proof/Laws/KeepsHost.lean ====
section
/-! SUPPORT. What every operation of Machine/Host.lean keeps, said once for each: the queue, the outputs made so far, the free values used, the
invariant, protection (Keeps of Safety.lean). -/
set_option Elab.async false
set_option linter.all false
namespace Sys2Proof.Machine
theorem execBatchSubmit_keeps (m : Nat) (count : Nat) (seq : Half) (s s9 : State) (hk : execBatchSubmit m count seq s = .next s9) : Keeps s s9 := by
  unfold execBatchSubmit at hk
  cases hk
  repeat' first | with_reducible assumption | with_reducible exact Keeps.rfl | (intro _) | with_reducible apply keeps_ite | extract_lets
                | with_reducible apply submit_keeps | with_reducible apply count_keeps | split | dsimp only

theorem execBatchAbort_keeps (m : Nat) (s s9 : State) (hk : execBatchAbort m s = .next s9) : Keeps s s9 := by
  unfold execBatchAbort at hk
  cases hk
  repeat' first | with_reducible assumption | with_reducible exact Keeps.rfl | (intro _) | with_reducible apply keeps_ite | extract_lets
                | with_reducible apply abortBox_keeps | split | dsimp only

theorem execBatchComplete_keeps (m : Nat) (s s9 : State) (hk : execBatchComplete m s = .next s9) : Keeps s s9 := by
  unfold execBatchComplete at hk
  cases hk
  repeat' first | with_reducible assumption | with_reducible exact Keeps.rfl | (intro _) | with_reducible apply keeps_ite | extract_lets
                | with_reducible apply endUnknown_keeps | with_reducible apply endBatch_keeps | split | dsimp only

theorem execMbxRequestWrite_keeps (m : Nat) (off : Nat) (data : List Byte) (s s9 : State) (hk : execMbxRequestWrite m off data s = .next s9) : Keeps s s9 := by
  unfold execMbxRequestWrite at hk
  cases hk
  repeat' first | with_reducible assumption | with_reducible exact Keeps.rfl | (intro _) | with_reducible apply keeps_ite | extract_lets
                | with_reducible apply requestWrite_keeps | split | dsimp only

theorem execCauseClear_keeps (off : Nat) (value : Word) (s s9 : State) (hk : execCauseClear off value s = .next s9) : Keeps s s9 := by
  unfold execCauseClear at hk
  cases hk
  repeat' first | with_reducible assumption | with_reducible exact Keeps.rfl | (intro _) | with_reducible apply keeps_ite | extract_lets
                | with_reducible apply causeWrite_keeps | split | dsimp only

theorem execMsixVectorUnmask_keeps (v : Nat) (s s9 : State) (hk : execMsixVectorUnmask v s = .next s9) : Keeps s s9 := by
  unfold execMsixVectorUnmask at hk
  cases hk
  repeat' first | with_reducible assumption | with_reducible exact Keeps.rfl | (intro _) | with_reducible apply keeps_ite | extract_lets
                | with_reducible apply unmask_keeps | split | dsimp only

theorem execUnsupportedAccess_keeps  (s s9 : State) (hk : execUnsupportedAccess s = .next s9) : Keeps s s9 := by
  unfold execUnsupportedAccess at hk
  cases hk
  repeat' first | with_reducible assumption | with_reducible exact Keeps.rfl | (intro _) | with_reducible apply keeps_ite | extract_lets
                | with_reducible apply count_keeps | split | dsimp only

theorem execHostWatchWrite_keeps (value : Word) (s s9 : State) (hk : execHostWatchWrite value s = .next s9) : Keeps s s9 := by
  unfold execHostWatchWrite at hk
  cases hk
  repeat' first | with_reducible assumption | with_reducible exact Keeps.rfl | (intro _) | with_reducible apply keeps_ite | extract_lets
                | with_reducible apply hostWatch_keeps | split | dsimp only

theorem execHostWatchExpiry_keeps  (s s9 : State) (hk : execHostWatchExpiry s = .next s9) : Keeps s s9 := by
  unfold execHostWatchExpiry at hk
  cases hk
  repeat' first | with_reducible assumption | with_reducible exact Keeps.rfl | with_reducible exact id | (intro _) | with_reducible apply keeps_ite
                | extract_lets | with_reducible apply abortAll_keeps | with_reducible apply stopRings_keeps | with_reducible apply raise_keeps
                | with_reducible apply logEvent_keeps | with_reducible apply count_keeps | split | with_reducible apply keeps_mk
                | exact fun _ => rfl | dsimp only

theorem execPcieReset_keeps (kind : Nat) (s s9 : State) (hk : execPcieReset kind s = .next s9) : Keeps s s9 := by
  unfold execPcieReset at hk
  cases hk
  repeat' first | with_reducible assumption | with_reducible exact Keeps.rfl | with_reducible exact id | (intro _) | with_reducible apply keeps_ite
                | extract_lets | with_reducible apply hostGone_keeps | with_reducible apply hostLink_keeps | with_reducible apply count_keeps
                | with_reducible apply settleDma_keeps | split | with_reducible apply keeps_mk | exact fun _ => rfl | dsimp only

theorem execPcieLinkUp_keeps (speed : Nat) (width : Nat) (s s9 : State) (hk : execPcieLinkUp speed width s = .next s9) : Keeps s s9 := by
  unfold execPcieLinkUp at hk
  cases hk
  repeat' first | with_reducible assumption | with_reducible exact Keeps.rfl | with_reducible exact id | (intro _) | with_reducible apply keeps_ite
                | extract_lets | with_reducible apply settleDma_keeps | with_reducible apply hostLink_keeps | split | with_reducible apply keeps_mk
                | exact fun _ => rfl | dsimp only

theorem execBusMasteringChange_keeps (on : Bool) (s s9 : State) (hk : execBusMasteringChange on s = .next s9) : Keeps s s9 := by
  unfold execBusMasteringChange at hk
  cases hk
  repeat' first | with_reducible assumption | with_reducible exact Keeps.rfl | with_reducible exact id | (intro _) | with_reducible apply keeps_ite
                | extract_lets | with_reducible apply settleDma_keeps | split | with_reducible apply keeps_mk | exact fun _ => rfl | dsimp only

theorem execSysIdentify_keeps (c : Acs) (s s9 : State) (hk : execSysIdentify c s = .next s9) : Keeps s s9 := by
  unfold execSysIdentify at hk
  cases hk
  repeat' first | with_reducible assumption | with_reducible exact Keeps.rfl | with_reducible exact id | (intro _) | with_reducible apply keeps_ite
                | extract_lets | with_reducible apply acsLen_keeps | with_reducible apply done_keeps | split | with_reducible apply keeps_mk
                | exact fun _ => rfl | dsimp only

theorem execSysState_keeps (c : Acs) (s s9 : State) (hk : execSysState c s = .next s9) : Keeps s s9 := by
  unfold execSysState at hk
  cases hk
  repeat' first | with_reducible assumption | with_reducible exact Keeps.rfl | (intro _) | extract_lets | with_reducible apply acsLen_keeps
                | with_reducible apply done_keeps | dsimp only

theorem execSysFence_keeps (c : Acs) (s s9 : State) (hk : execSysFence c s = .next s9) : Keeps s s9 := by
  unfold execSysFence at hk
  cases hk
  repeat' first | with_reducible assumption | with_reducible exact Keeps.rfl | with_reducible exact id | (intro _) | with_reducible apply keeps_ite
                | extract_lets | with_reducible apply acsLen_keeps | with_reducible apply badArgIf_keeps | with_reducible apply releaseFences_keeps
                | split | with_reducible apply keeps_mk | exact fun _ => rfl | dsimp only

end Sys2Proof.Machine
end

