-- ==== Sys2Proof/Laws/KeepsLegacy.lean ====
section
/-! SUPPORT. What every operation of Machine/Legacy.lean keeps, said once for each: the queue, the outputs made so far, the free values used, the
invariant, protection (Keeps of Safety.lean). -/
set_option Elab.async false
set_option linter.all false
namespace Sys2Proof.Machine
theorem answerPort_keeps (u0 : State) (u : Nat) (addr : Nat) (s : State)  (hk : Keeps u0 s) : Keeps u0 (answerPort u addr s) := by
  unfold answerPort
  repeat' first | with_reducible assumption | with_reducible exact id | (intro _) | with_reducible apply keeps_ite | extract_lets
                | with_reducible apply legSlave_keeps | split | with_reducible apply keeps_mk | exact fun _ => rfl | dsimp only

theorem pollOne_keeps (u0 : State) (u : Nat) (e : Nat) (s : State)  (hk : Keeps u0 s) : Keeps u0 (pollOne u s e) := by
  unfold pollOne
  repeat' first | with_reducible assumption | with_reducible exact id | (intro _) | with_reducible apply keeps_ite | extract_lets
                | with_reducible apply legMaster_keeps | with_reducible apply answerPort_keeps | with_reducible apply setLeg_keeps | split
                | with_reducible apply keeps_mk | exact fun _ => rfl | dsimp only

theorem execMvbBasicPeriod_keeps (unit : Nat) (events : List Nat) (err : Bool) (s s9 : State) (hk : execMvbBasicPeriod unit events err s = .next s9) : Keeps s s9 := by
  unfold execMvbBasicPeriod at hk
  cases hk
  repeat' first | with_reducible assumption | with_reducible exact Keeps.rfl | with_reducible exact id | (intro _) | with_reducible apply keeps_ite
                | extract_lets | with_reducible apply legReload_keeps | with_reducible apply pollOne_keeps | with_reducible apply setLeg_keeps
                | with_reducible apply legMaster_keeps | with_reducible apply sendMessage_keeps | with_reducible apply keeps_foldl | split
                | with_reducible apply keeps_mk | exact fun _ => rfl | dsimp only

theorem execMvbMasterFrameReceive_keeps (unit : Nat) (m : MvbMaster) (a : LineRx) (b : LineRx) (s s9 : State) (hk : execMvbMasterFrameReceive unit m a b s = .next s9) : Keeps s s9 := by
  unfold execMvbMasterFrameReceive at hk
  cases hk
  repeat' first | with_reducible assumption | with_reducible exact Keeps.rfl | with_reducible exact id | (intro _) | with_reducible apply keeps_ite
                | extract_lets | with_reducible apply legLines_keeps | with_reducible apply loseMaster_keeps | with_reducible apply answerPort_keeps
                | with_reducible apply legSlave_keeps | with_reducible apply sendMessage_keeps | with_reducible apply useFree_keeps
                | with_reducible apply takeMaster_keeps | split | with_reducible apply keeps_mk | exact fun _ => rfl | dsimp only

theorem execMvbSlaveFrameReceive_keeps (unit : Nat) (f : MvbSlave) (a : LineRx) (b : LineRx) (err : Nat) (s s9 : State) (hk : execMvbSlaveFrameReceive unit f a b err s = .next s9) : Keeps s s9 := by
  unfold execMvbSlaveFrameReceive at hk
  cases hk
  repeat' first | with_reducible assumption | with_reducible exact Keeps.rfl | with_reducible exact id | (intro _) | with_reducible apply keeps_ite
                | extract_lets | with_reducible apply legReload_keeps | with_reducible apply legParity_keeps | with_reducible apply setPort_keeps
                | with_reducible apply legLines_keeps | with_reducible apply setLeg_keeps | with_reducible apply legCapture_keeps
                | with_reducible apply exportPort_keeps | with_reducible apply takeMessage_keeps | split | with_reducible apply keeps_mk
                | exact fun _ => rfl | dsimp only

theorem execMvbReplyTimeout_keeps (unit : Nat) (addr : Nat) (s s9 : State) (hk : execMvbReplyTimeout unit addr s = .next s9) : Keeps s s9 := by
  unfold execMvbReplyTimeout at hk
  cases hk
  repeat' first | with_reducible assumption | with_reducible exact Keeps.rfl | with_reducible exact id | (intro _) | with_reducible apply keeps_ite
                | extract_lets | with_reducible apply count_keeps | with_reducible apply setLeg_keeps | split | with_reducible apply keeps_mk
                | exact fun _ => rfl | dsimp only

theorem execBaSilenceExpiry_keeps (unit : Nat) (s s9 : State) (hk : execBaSilenceExpiry unit s = .next s9) : Keeps s s9 := by
  unfold execBaSilenceExpiry at hk
  cases hk
  repeat' first | with_reducible assumption | with_reducible exact Keeps.rfl | (intro _) | with_reducible apply keeps_ite | extract_lets
                | with_reducible apply takeMaster_keeps | split | dsimp only

theorem execMastershipTurnEnd_keeps (unit : Nat) (s s9 : State) (hk : execMastershipTurnEnd unit s = .next s9) : Keeps s s9 := by
  unfold execMastershipTurnEnd at hk
  cases hk
  repeat' first | with_reducible assumption | with_reducible exact Keeps.rfl | (intro _) | with_reducible apply keeps_ite | extract_lets
                | with_reducible apply loseMaster_keeps | with_reducible apply legMaster_keeps | split | dsimp only

theorem execLineDisturbRestore_keeps (unit : Nat) (line : Line) (s s9 : State) (hk : execLineDisturbRestore unit line s = .next s9) : Keeps s s9 := by
  unfold execLineDisturbRestore at hk
  cases hk
  repeat' first | with_reducible assumption | with_reducible exact Keeps.rfl | with_reducible exact id | (intro _) | with_reducible apply keeps_ite
                | extract_lets | with_reducible apply lineSaid_keeps | with_reducible apply setLeg_keeps | split | with_reducible apply keeps_mk
                | exact fun _ => rfl | dsimp only

theorem wtbAnswer_keeps (u0 : State)  (s : State)  (hk : Keeps u0 s) : Keeps u0 (wtbAnswer s) := by
  unfold wtbAnswer
  repeat' first | with_reducible assumption | with_reducible exact id | (intro _) | with_reducible apply keeps_ite | extract_lets
                | with_reducible apply legSlave_keeps | split | with_reducible apply keeps_mk | exact fun _ => rfl | dsimp only

theorem execWtbFrameReceive_keeps (f : WtbFrame) (a : LineRx) (b : LineRx) (s s9 : State) (hk : execWtbFrameReceive f a b s = .next s9) : Keeps s s9 := by
  unfold execWtbFrameReceive at hk
  cases hk
  repeat' first | with_reducible assumption | with_reducible exact Keeps.rfl | with_reducible exact id | (intro _) | with_reducible apply keeps_ite
                | extract_lets | with_reducible apply legLines_keeps | with_reducible apply legCapture_keeps | with_reducible apply exportPort_keeps
                | with_reducible apply sendMessage_keeps | with_reducible apply wtbAnswer_keeps | with_reducible apply takeMessage_keeps
                | with_reducible apply useFree_keeps | with_reducible apply legSlave_keeps | split | with_reducible apply keeps_mk
                | exact fun _ => rfl | dsimp only

theorem execWtbIndividualPeriod_keeps  (s s9 : State) (hk : execWtbIndividualPeriod s = .next s9) : Keeps s s9 := by
  unfold execWtbIndividualPeriod at hk
  cases hk
  repeat' first | with_reducible assumption | with_reducible exact Keeps.rfl | (intro _) | with_reducible apply keeps_ite | extract_lets
                | with_reducible apply legSlave_keeps | with_reducible apply sendMessage_keeps | with_reducible apply wtbAnswer_keeps
                | with_reducible apply keeps_foldl | split | dsimp only

theorem execWtbInaugurated_keeps (comp : List WtbNode) (own : Nat) (master : Nat) (endA : Bool) (endB : Bool) (s s9 : State) (hk : execWtbInaugurated comp own master endA endB s = .next s9) : Keeps s s9 := by
  unfold execWtbInaugurated at hk
  cases hk
  repeat' first | with_reducible assumption | with_reducible exact Keeps.rfl | with_reducible exact id | (intro _) | with_reducible apply keeps_ite
                | extract_lets | with_reducible apply setLeg_keeps | with_reducible apply wtbEnds_keeps | with_reducible apply raise_keeps
                | with_reducible apply logEvent_keeps | with_reducible apply count_keeps | split | with_reducible apply keeps_mk
                | exact fun _ => rfl | dsimp only

theorem execLegacyReloadDone_keeps (unit : Nat) (s s9 : State) (hk : execLegacyReloadDone unit s = .next s9) : Keeps s s9 := by
  unfold execLegacyReloadDone at hk
  cases hk
  repeat' first | with_reducible assumption | with_reducible exact Keeps.rfl | with_reducible exact id | (intro _) | extract_lets
                | with_reducible apply setLeg_keeps | with_reducible apply keeps_mk | exact fun _ => rfl | dsimp only

theorem execLegacyStatus_keeps (c : Acs) (s s9 : State) (hk : execLegacyStatus c s = .next s9) : Keeps s s9 := by
  unfold execLegacyStatus at hk
  cases hk
  repeat' first | with_reducible assumption | with_reducible exact Keeps.rfl | (intro _) | with_reducible apply keeps_ite | extract_lets
                | with_reducible apply acsLen_keeps | with_reducible apply badArgIf_keeps | with_reducible apply done_keeps | split | dsimp only

theorem onPort_keeps (u0 : State) (c : Acs) (opcode : Nat) (body : List Byte → State → State) (s : State) (h_body : ∀ (x0 : List Byte) (s9 : State), Keeps u0 s9 → Keeps u0 (body x0 s9)) (hk : Keeps u0 s) : Keeps u0 (onPort c opcode body s) := by
  unfold onPort
  repeat' first | with_reducible assumption | with_reducible exact id | (intro _) | with_reducible apply keeps_ite | extract_lets | apply h_body
                | with_reducible apply done_keeps | split | with_reducible apply keeps_mk | exact fun _ => rfl | dsimp only

theorem execLegacyPortRead_keeps (c : Acs) (s s9 : State) (hk : execLegacyPortRead c s = .next s9) : Keeps s s9 := by
  unfold execLegacyPortRead at hk
  cases hk
  repeat' first | with_reducible assumption | with_reducible exact Keeps.rfl | (intro _) | extract_lets | with_reducible apply acsLen_keeps
                | with_reducible apply onPort_keeps | with_reducible apply done_keeps | dsimp only

theorem effLegacyPortWrite_keeps (u0 : State) (a : List Byte) (r : Option AcsRef) (s : State)  (hk : Keeps u0 s) : Keeps u0 (effLegacyPortWrite a r s) := by
  unfold effLegacyPortWrite
  repeat' first | with_reducible assumption | (intro _) | extract_lets | with_reducible apply finish_keeps | with_reducible apply legCommit_keeps
                | dsimp only

theorem execLegacyPortWrite_keeps (c : Acs) (s s9 : State) (hk : execLegacyPortWrite c s = .next s9) : Keeps s s9 := by
  unfold execLegacyPortWrite at hk
  cases hk
  repeat' first | with_reducible assumption | with_reducible exact Keeps.rfl | (intro _) | with_reducible apply keeps_ite | extract_lets
                | with_reducible apply acs_keeps | with_reducible apply done_keeps | with_reducible apply onPort_keeps
                | with_reducible apply nodeWide_keeps | with_reducible apply effLegacyPortWrite_keeps | split | dsimp only

theorem execLegacyComposition_keeps (c : Acs) (s s9 : State) (hk : execLegacyComposition c s = .next s9) : Keeps s s9 := by
  unfold execLegacyComposition at hk
  cases hk
  repeat' first | with_reducible assumption | with_reducible exact Keeps.rfl | (intro _) | with_reducible apply keeps_ite | extract_lets
                | with_reducible apply acsLen_keeps | with_reducible apply done_keeps | split | dsimp only

theorem effLegacyMsgSend_keeps (u0 : State) (a : List Byte) (r : Option AcsRef) (s : State)  (hk : Keeps u0 s) : Keeps u0 (effLegacyMsgSend a r s) := by
  unfold effLegacyMsgSend
  repeat' first | with_reducible assumption | (intro _) | extract_lets | with_reducible apply finish_keeps | with_reducible apply queueMessage_keeps
                | dsimp only

theorem execLegacyMsgSend_keeps (c : Acs) (s s9 : State) (hk : execLegacyMsgSend c s = .next s9) : Keeps s s9 := by
  unfold execLegacyMsgSend at hk
  cases hk
  repeat' first | with_reducible assumption | with_reducible exact Keeps.rfl | (intro _) | with_reducible apply keeps_ite | extract_lets
                | with_reducible apply acs_keeps | with_reducible apply done_keeps | with_reducible apply badArgIf_keeps
                | with_reducible apply nodeWide_keeps | with_reducible apply effLegacyMsgSend_keeps | split | dsimp only

theorem execLegacyMsgRecv_keeps (c : Acs) (s s9 : State) (hk : execLegacyMsgRecv c s = .next s9) : Keeps s s9 := by
  unfold execLegacyMsgRecv at hk
  cases hk
  repeat' first | with_reducible assumption | with_reducible exact Keeps.rfl | with_reducible exact id | (intro _) | with_reducible apply keeps_ite
                | extract_lets | with_reducible apply acsLen_keeps | with_reducible apply badArgIf_keeps | with_reducible apply done_keeps
                | with_reducible apply setLeg_keeps | split | with_reducible apply keeps_mk | exact fun _ => rfl | dsimp only

end Sys2Proof.Machine
end

