-- ==== Sys2Proof/Laws/KeepsPower.lean ====
section
/-! SUPPORT. What every operation of Machine/Power.lean keeps, said once for each: the queue, the outputs made so far, the free values used, the
invariant, protection (Keeps of Safety.lean). -/
set_option Elab.async false
set_option linter.all false
namespace Sys2Proof.Machine
theorem execVbakApplied_keeps  (s s9 : State) (hk : execVbakApplied s = .next s9) : Keeps s s9 := by
  unfold execVbakApplied at hk
  cases hk
  repeat' first | with_reducible assumption | with_reducible exact Keeps.rfl | with_reducible exact id | (intro _) | with_reducible apply keeps_ite
                | extract_lets | with_reducible apply drivePin_keeps | split | with_reducible apply keeps_mk | exact fun _ => rfl | dsimp only

theorem execVbakLost_keeps  (s s9 : State) (hk : execVbakLost s = .next s9) : Keeps s s9 := by
  unfold execVbakLost at hk
  cases hk
  repeat' first | with_reducible assumption | with_reducible exact Keeps.rfl | with_reducible exact id | (intro _) | with_reducible apply keeps_ite
                | with_reducible apply keeps_ite_app | with_reducible apply keeps_id | extract_lets | with_reducible apply drivePin_keeps
                | with_reducible apply keeps_foldl | with_reducible apply keeps_foldl2 | split | with_reducible apply keeps_mk | exact id
                | exact fun _ => rfl | exact fun i => put_wf _ _ _ _ i | exact put_wf _ _ _ _ (by assumption) | (rw [setBox_len]; assumption)
                | (simp [HostIf.setBox]; done) | (simp_all; done) | assumption | dsimp only

theorem execResetRelease_keeps (mode : Nat) (s s9 : State) (hk : execResetRelease mode s = .next s9) : Keeps s s9 := by
  unfold execResetRelease at hk
  cases hk
  repeat' first | with_reducible assumption | with_reducible exact Keeps.rfl | with_reducible exact id | (intro _) | with_reducible apply keeps_ite
                | extract_lets | with_reducible apply startUp_keeps | split | with_reducible apply keeps_mk | exact fun _ => rfl | dsimp only

theorem execPgoodFall_keeps  (s s9 : State) (hk : execPgoodFall s = .next s9) : Keeps s s9 := by
  unfold execPgoodFall at hk
  cases hk
  repeat' first | with_reducible assumption | with_reducible exact Keeps.rfl | with_reducible exact id | (intro _) | extract_lets
                | with_reducible apply loseRails_keeps | with_reducible apply keeps_mk | exact fun _ => rfl | dsimp only

theorem execResetNLow_keeps  (s s9 : State) (hk : execResetNLow s = .next s9) : Keeps s s9 := by
  unfold execResetNLow at hk
  cases hk
  repeat' first | with_reducible assumption | with_reducible exact Keeps.rfl | (intro _) | with_reducible apply keeps_ite | extract_lets
                | with_reducible apply enterBoot_keeps | split | dsimp only

theorem execRailMonitorTrip_keeps  (s s9 : State) (hk : execRailMonitorTrip s = .next s9) : Keeps s s9 := by
  unfold execRailMonitorTrip at hk
  cases hk
  repeat' first | with_reducible assumption | with_reducible exact Keeps.rfl | with_reducible exact id | (intro _) | with_reducible apply keeps_ite
                | extract_lets | with_reducible apply loseRails_keeps | split | with_reducible apply keeps_mk | exact fun _ => rfl | dsimp only

theorem execRailRecovery_keeps  (s s9 : State) (hk : execRailRecovery s = .next s9) : Keeps s s9 := by
  unfold execRailRecovery at hk
  cases hk
  repeat' first | with_reducible assumption | with_reducible exact Keeps.rfl | with_reducible exact id | (intro _) | with_reducible apply keeps_ite
                | extract_lets | with_reducible apply startUp_keeps | split | with_reducible apply keeps_mk | exact fun _ => rfl | dsimp only

theorem execRootPllUnlock_keeps  (s s9 : State) (hk : execRootPllUnlock s = .next s9) : Keeps s s9 := by
  unfold execRootPllUnlock at hk
  cases hk
  repeat' first | with_reducible assumption | with_reducible exact Keeps.rfl | (intro _) | with_reducible apply keeps_ite | extract_lets
                | with_reducible apply enterBoot_keeps | split | dsimp only

theorem execRootPllLock_keeps  (s s9 : State) (hk : execRootPllLock s = .next s9) : Keeps s s9 := by
  unfold execRootPllLock at hk
  cases hk
  repeat' first | with_reducible assumption | with_reducible exact Keeps.rfl | with_reducible exact id | (intro _) | with_reducible apply keeps_ite
                | extract_lets | with_reducible apply assertBypass_keeps | split | with_reducible apply keeps_mk | exact fun _ => rfl | dsimp only

theorem execGroomLockstepMismatch_keeps  (s s9 : State) (hk : execGroomLockstepMismatch s = .next s9) : Keeps s s9 := by
  unfold execGroomLockstepMismatch at hk
  cases hk
  repeat' first | with_reducible assumption | with_reducible exact Keeps.rfl | (intro _) | with_reducible apply keeps_ite | extract_lets
                | with_reducible apply enterBoot_keeps | split | dsimp only

theorem execGroomParityError_keeps  (s s9 : State) (hk : execGroomParityError s = .next s9) : Keeps s s9 := by
  unfold execGroomParityError at hk
  cases hk
  repeat' first | with_reducible assumption | with_reducible exact Keeps.rfl | (intro _) | with_reducible apply keeps_ite | extract_lets
                | with_reducible apply enterBoot_keeps | split | dsimp only

theorem execGroomWatchdogExpiry_keeps  (s s9 : State) (hk : execGroomWatchdogExpiry s = .next s9) : Keeps s s9 := by
  unfold execGroomWatchdogExpiry at hk
  cases hk
  repeat' first | with_reducible assumption | with_reducible exact Keeps.rfl | (intro _) | with_reducible apply keeps_ite | extract_lets
                | with_reducible apply enterBoot_keeps | split | dsimp only

theorem thermalSaid_keeps (u0 : State) (sensor : Nat) (temp : Int) (threshold : Nat) (sev : Nat) (s : State)  (hk : Keeps u0 s) : Keeps u0 (thermalSaid sensor temp threshold sev s) := by
  unfold thermalSaid
  repeat' first | with_reducible assumption | with_reducible exact id | (intro _) | extract_lets | with_reducible apply logEvent_keeps
                | with_reducible apply keeps_mk | exact fun _ => rfl | dsimp only

theorem execThermalThreshold_keeps (sensor : Nat) (temp : Int) (s s9 : State) (hk : execThermalThreshold sensor temp s = .next s9) : Keeps s s9 := by
  unfold execThermalThreshold at hk
  cases hk
  repeat' first | with_reducible assumption | with_reducible exact Keeps.rfl | with_reducible exact id | (intro _) | with_reducible apply keeps_ite
                | extract_lets | with_reducible apply loseRails_keeps | with_reducible apply thermalSaid_keeps | split
                | with_reducible apply keeps_mk | exact fun _ => rfl | dsimp only

theorem execThermalRecovery_keeps  (s s9 : State) (hk : execThermalRecovery s = .next s9) : Keeps s s9 := by
  unfold execThermalRecovery at hk
  cases hk
  repeat' first | with_reducible assumption | with_reducible exact Keeps.rfl | with_reducible exact id | (intro _) | extract_lets
                | with_reducible apply keeps_mk | exact fun _ => rfl | dsimp only

theorem execStableIdleExpiry_keeps  (s s9 : State) (hk : execStableIdleExpiry s = .next s9) : Keeps s s9 := by
  unfold execStableIdleExpiry at hk
  cases hk
  repeat' first | with_reducible assumption | with_reducible exact Keeps.rfl | (intro _) | with_reducible apply keeps_ite | extract_lets
                | with_reducible apply startStabled_keeps | split | dsimp only

theorem execStabledEntryDone_keeps  (s s9 : State) (hk : execStabledEntryDone s = .next s9) : Keeps s s9 := by
  unfold execStabledEntryDone at hk
  cases hk
  repeat' first | with_reducible assumption | with_reducible exact Keeps.rfl | with_reducible exact id | (intro _) | with_reducible apply keeps_ite
                | extract_lets | with_reducible apply enterStabled_keeps | with_reducible apply wakeEvent_keeps | with_reducible apply finish_keeps
                | split | with_reducible apply keeps_mk | exact fun _ => rfl | dsimp only

theorem execWakeInEdge_keeps  (s s9 : State) (hk : execWakeInEdge s = .next s9) : Keeps s s9 := by
  unfold execWakeInEdge at hk
  cases hk
  repeat' first | with_reducible assumption | with_reducible exact Keeps.rfl | with_reducible exact id | (intro _) | with_reducible apply keeps_ite
                | extract_lets | with_reducible apply wakeEvent_keeps | split | with_reducible apply keeps_mk | exact fun _ => rfl | dsimp only

theorem execWakeInInactiveEdge_keeps  (s s9 : State) (hk : execWakeInInactiveEdge s = .next s9) : Keeps s s9 := by
  unfold execWakeInInactiveEdge at hk
  cases hk
  repeat' first | with_reducible assumption | with_reducible exact Keeps.rfl | with_reducible exact id | (intro _) | extract_lets
                | with_reducible apply keeps_mk | exact fun _ => rfl | dsimp only

theorem execWakeAlarmExpiry_keeps  (s s9 : State) (hk : execWakeAlarmExpiry s = .next s9) : Keeps s s9 := by
  unfold execWakeAlarmExpiry at hk
  cases hk
  repeat' first | with_reducible assumption | with_reducible exact Keeps.rfl | with_reducible exact id | (intro _) | with_reducible apply keeps_ite
                | extract_lets | with_reducible apply wakeEvent_keeps | with_reducible apply drivePin_keeps | split | with_reducible apply keeps_mk
                | exact fun _ => rfl | dsimp only

theorem execWakeOutPulseEnd_keeps  (s s9 : State) (hk : execWakeOutPulseEnd s = .next s9) : Keeps s s9 := by
  unfold execWakeOutPulseEnd at hk
  cases hk
  repeat' first | with_reducible assumption | with_reducible exact Keeps.rfl | (intro _) | with_reducible apply keeps_ite | extract_lets
                | with_reducible apply drivePin_keeps | split | dsimp only

theorem execBypassAnnounceExpiry_keeps  (s s9 : State) (hk : execBypassAnnounceExpiry s = .next s9) : Keeps s s9 := by
  unfold execBypassAnnounceExpiry at hk
  cases hk
  repeat' first | with_reducible assumption | with_reducible exact Keeps.rfl | with_reducible exact id | (intro _) | with_reducible apply keeps_ite
                | extract_lets | with_reducible apply assertBypass_keeps | with_reducible apply enterBoot_keeps | split
                | with_reducible apply keeps_mk | exact fun _ => rfl | dsimp only

theorem execBypassSettleExpiry_keeps  (s s9 : State) (hk : execBypassSettleExpiry s = .next s9) : Keeps s s9 := by
  unfold execBypassSettleExpiry at hk
  cases hk
  repeat' first | with_reducible assumption | with_reducible exact Keeps.rfl | (intro _) | with_reducible apply keeps_ite | extract_lets
                | with_reducible apply endSettle_keeps | split | dsimp only

theorem leaveFor_keeps (u0 : State) (r : Removal) (cause : Nat) (s : State)  (hk : Keeps u0 s) : Keeps u0 (leaveFor r cause s) := by
  unfold leaveFor
  repeat' first | with_reducible assumption | with_reducible exact id | (intro _) | with_reducible apply keeps_ite | extract_lets
                | with_reducible apply announceBypass_keeps | with_reducible apply enterBoot_keeps | split | with_reducible apply keeps_mk
                | exact fun _ => rfl | dsimp only

theorem execSysRestart_keeps (c : Acs) (s s9 : State) (hk : execSysRestart c s = .next s9) : Keeps s s9 := by
  unfold execSysRestart at hk
  cases hk
  repeat' first | with_reducible assumption | with_reducible exact Keeps.rfl | with_reducible exact id | (intro _) | with_reducible apply keeps_ite
                | extract_lets | with_reducible apply acsLen_keeps | with_reducible apply badArgIf_keeps | with_reducible apply done_keeps
                | with_reducible apply logEvent_keeps | with_reducible apply leaveFor_keeps | split | with_reducible apply keeps_mk
                | exact fun _ => rfl | dsimp only

theorem effSysStable_keeps (u0 : State) (r : Option AcsRef) (s : State)  (hk : Keeps u0 s) : Keeps u0 (effSysStable r s) := by
  unfold effSysStable
  repeat' first | with_reducible assumption | (intro _) | with_reducible apply keeps_ite | extract_lets | with_reducible apply finish_keeps
                | with_reducible apply startStabled_keeps | split | dsimp only

theorem execSysStable_keeps (c : Acs) (s s9 : State) (hk : execSysStable c s = .next s9) : Keeps s s9 := by
  unfold execSysStable at hk
  cases hk
  repeat' first | with_reducible assumption | with_reducible exact Keeps.rfl | (intro _) | with_reducible apply keeps_ite | extract_lets
                | with_reducible apply acsLen_keeps | with_reducible apply done_keeps | with_reducible apply nodeWide_keeps
                | with_reducible apply effSysStable_keeps | split | dsimp only

theorem execFwPage_keeps (kind : Nat) (addr : Nat) (source : Nat) (s s9 : State) (hk : execFwPage kind addr source s = .next s9) : Keeps s s9 := by
  unfold execFwPage at hk
  cases hk
  repeat' first | with_reducible assumption | with_reducible exact Keeps.rfl | with_reducible exact id | (intro _) | with_reducible apply keeps_ite
                | extract_lets | with_reducible apply logEvent_keeps | with_reducible apply abortOut_keeps | with_reducible apply dropIn_keeps
                | with_reducible apply requestFull_keeps | with_reducible apply keeps_foldl | split | with_reducible apply keeps_mk
                | exact fun _ => rfl | dsimp only

end Sys2Proof.Machine
end

