-- ==== Sys2Proof/Laws/KeepsSwitch.lean ====
section
/-! SUPPORT. What every operation of Machine/Switch.lean keeps, said once for each: the queue, the outputs made so far, the free values used, the
invariant, protection (Keeps of Safety.lean). -/
set_option Elab.async false
set_option linter.all false
namespace Sys2Proof.Machine
theorem countFrame_keeps (u0 : State) (p : Nat) (base : Nat) (len : Nat) (da : Mac) (s : State)  (hk : Keeps u0 s) : Keeps u0 (countFrame p base len da s) := by
  unfold countFrame
  repeat' first | with_reducible assumption | (intro _) | with_reducible apply keeps_ite | extract_lets | with_reducible apply count_keeps
                | with_reducible apply countN_keeps | split | dsimp only

theorem wakeFilter_keeps (u0 : State) (p : Nat) (r : RxFrame) (s : State)  (hk : Keeps u0 s) : Keeps u0 (wakeFilter p r s) := by
  unfold wakeFilter
  try dsimp only
  repeat' first | with_reducible assumption | with_reducible exact Keeps.rfl | with_reducible exact id | (intro _) | with_reducible apply keeps_ite
                | with_reducible apply keeps_ite_app | with_reducible apply keeps_id | with_reducible apply count_keeps
                | with_reducible apply setMac_keeps | with_reducible apply wakeEvent_keeps | with_reducible apply logEvent_keeps
                | with_reducible apply raise_keeps | with_reducible apply keeps_foldl | with_reducible apply keeps_foldl2 | split
                | simp only [keeps_mk_iff] | exact id | exact fun _ => rfl | exact fun i => put_wf _ _ _ _ i | exact put_wf _ _ _ _ (by assumption)
                | (rw [setBox_len]; assumption) | (simp [HostIf.setBox]; done) | dsimp only

theorem linkLocalFrame_keeps (u0 : State) (p : Nat) (r : RxFrame) (s : State)  (hk : Keeps u0 s) : Keeps u0 (linkLocalFrame p r s) := by
  unfold linkLocalFrame
  repeat' first | with_reducible assumption | with_reducible exact id | (intro _) | with_reducible apply keeps_ite | extract_lets
                | with_reducible apply toInternal_keeps | with_reducible apply bumpUid_keeps | split | with_reducible apply keeps_mk
                | exact fun _ => rfl | dsimp only

theorem tableError_keeps (u0 : State) (port : Nat) (table : Nat) (index : Nat) (s : State)  (hk : Keeps u0 s) : Keeps u0 (tableError port table index s) := by
  unfold tableError
  try dsimp only
  repeat' first | with_reducible assumption | with_reducible exact Keeps.rfl | with_reducible exact id | (intro _) | with_reducible apply keeps_ite
                | with_reducible apply keeps_ite_app | with_reducible apply keeps_id | with_reducible apply logEvent_keeps
                | with_reducible apply keeps_foldl | with_reducible apply keeps_foldl2 | split | simp only [keeps_mk_iff] | exact id
                | exact fun _ => rfl | exact fun i => put_wf _ _ _ _ i | exact put_wf _ _ _ _ (by assumption) | (rw [setBox_len]; assumption)
                | (simp [HostIf.setBox]; done) | dsimp only

theorem reloadEntry_keeps (u0 : State) (table : Nat) (port : Nat) (index : Nat) (s : State)  (hk : Keeps u0 s) : Keeps u0 (reloadEntry table port index s) := by
  unfold reloadEntry
  repeat' first | with_reducible assumption | with_reducible exact id | (intro _) | with_reducible apply keeps_ite | extract_lets
                | with_reducible apply setGate_keeps | split | with_reducible apply keeps_mk | exact fun _ => rfl | dsimp only

theorem execTableReloadDone_keeps (table : Nat) (port : Nat) (index : Nat) (s s9 : State) (hk : execTableReloadDone table port index s = .next s9) : Keeps s s9 := by
  unfold execTableReloadDone at hk
  cases hk
  repeat' first | with_reducible assumption | with_reducible exact Keeps.rfl | with_reducible exact id | (intro _) | with_reducible apply keeps_ite
                | extract_lets | with_reducible apply reloadEntry_keeps | split | with_reducible apply keeps_mk | exact fun _ => rfl | dsimp only

theorem forward_keeps (u0 : State) (x : Fwd) (id : StreamId) (err : Option Nat) (s : State)  (hk : Keeps u0 s) : Keeps u0 (forward x id err s) := by
  unfold forward
  repeat' first | with_reducible assumption | with_reducible exact id | (intro _) | with_reducible apply keeps_ite | extract_lets
                | with_reducible apply forwardReplicated_keeps | with_reducible apply forwardSplit_keeps | with_reducible apply forwardPlain_keeps
                | with_reducible apply unitParity_keeps | split | with_reducible apply keeps_mk | exact fun _ => rfl | dsimp only

theorem stages_keeps (u0 : State) (p : Nat) (r : RxFrame) (s : State)  (hk : Keeps u0 s) : Keeps u0 (stages p r s) := by
  unfold stages
  repeat' first | with_reducible assumption | with_reducible exact id | (intro _) | with_reducible apply keeps_ite | extract_lets
                | with_reducible apply count_keeps | with_reducible apply police_keeps | with_reducible apply forward_keeps
                | with_reducible apply learn_keeps | split | with_reducible apply keeps_mk | exact fun _ => rfl | dsimp only

theorem switchFrame_keeps (u0 : State) (p : Nat) (r : RxFrame) (s : State)  (hk : Keeps u0 s) : Keeps u0 (switchFrame p r s) := by
  unfold switchFrame
  repeat' first | with_reducible assumption | (intro _) | with_reducible apply keeps_ite | extract_lets | with_reducible apply linkLocalFrame_keeps
                | with_reducible apply count_keeps | with_reducible apply pauseCheck_keeps | with_reducible apply stages_keeps | split | dsimp only

theorem stompOn_keeps (u0 : State) (x : Fwd) (ps : List Nat) (s : State)  (hk : Keeps u0 s) : Keeps u0 (stompOn x ps s) := by
  unfold stompOn
  repeat' first | with_reducible assumption | (intro _) | extract_lets | with_reducible apply emit_keeps | with_reducible apply count_keeps
                | with_reducible apply keeps_foldl | dsimp only

theorem stompFrame_keeps (u0 : State) (p : Nat) (r : RxFrame) (s : State)  (hk : Keeps u0 s) : Keeps u0 (stompFrame p r s) := by
  unfold stompFrame
  repeat' first | with_reducible assumption | with_reducible exact id | (intro _) | with_reducible apply keeps_ite | extract_lets
                | with_reducible apply police_keeps | with_reducible apply stompOn_keeps | with_reducible apply lostArmed_keeps
                | with_reducible apply setFrer_keeps | with_reducible apply frerClean_keeps | split | with_reducible apply keeps_mk
                | exact fun _ => rfl | dsimp only

theorem streamBad_keeps (u0 : State) (p : Nat) (kind : Nat) (r : RxFrame) (s : State)  (hk : Keeps u0 s) : Keeps u0 (streamBad p kind r s) := by
  unfold streamBad
  repeat' first | with_reducible assumption | with_reducible exact id | (intro _) | with_reducible apply keeps_ite | extract_lets
                | with_reducible apply bumpUid_keeps | with_reducible apply setRx_keeps | split | with_reducible apply keeps_mk | exact fun _ => rfl
                | dsimp only

theorem faulty_keeps (u0 : State) (p : Nat) (kind : Nat) (r : RxFrame) (s : State)  (hk : Keeps u0 s) : Keeps u0 (faulty p kind r s) := by
  unfold faulty
  repeat' first | with_reducible assumption | (intro _) | with_reducible apply keeps_ite | extract_lets | with_reducible apply stompFrame_keeps
                | with_reducible apply streamBad_keeps | split | dsimp only

theorem goodFrame_keeps (u0 : State) (p : Nat) (r : RxFrame) (s : State)  (hk : Keeps u0 s) : Keeps u0 (goodFrame p r s) := by
  unfold goodFrame
  repeat' first | with_reducible assumption | (intro _) | with_reducible apply keeps_ite | extract_lets | with_reducible apply secStage_keeps
                | with_reducible apply faulty_keeps | with_reducible apply switchFrame_keeps | split | dsimp only

theorem execFrameReceive_keeps (port : Nat) (rx : RxFrame) (s s9 : State) (hk : execFrameReceive port rx s = .next s9) : Keeps s s9 := by
  unfold execFrameReceive at hk
  cases hk
  repeat' first | with_reducible assumption | with_reducible exact Keeps.rfl | with_reducible exact id | (intro _) | with_reducible apply keeps_ite
                | with_reducible apply keeps_ite_app | with_reducible apply keeps_id | extract_lets | with_reducible apply count_keeps
                | with_reducible apply countN_keeps | with_reducible apply faulty_keeps | with_reducible apply wakeFilter_keeps
                | with_reducible apply countFrame_keeps | with_reducible apply tableError_keeps | with_reducible apply goodFrame_keeps
                | with_reducible apply keeps_foldl | with_reducible apply keeps_foldl2 | split | with_reducible apply keeps_mk | exact id
                | exact fun _ => rfl | exact fun i => put_wf _ _ _ _ i | exact put_wf _ _ _ _ (by assumption) | (rw [setBox_len]; assumption)
                | (simp [HostIf.setBox]; done) | (simp_all; done) | assumption | dsimp only

theorem hitchSent_keeps (u0 : State) (p : Nat) (q : QFrame) (stamp : Stamp) (s : State)  (hk : Keeps u0 s) : Keeps u0 (hitchSent p q stamp s) := by
  unfold hitchSent
  repeat' first | with_reducible assumption | with_reducible exact id | (intro _) | extract_lets | with_reducible apply setHPort_keeps
                | with_reducible apply keeps_mk | exact fun _ => rfl | dsimp only

theorem departed_keeps (u0 : State) (p : Nat) (q : QFrame) (stamp : Stamp) (s : State)  (hk : Keeps u0 s) : Keeps u0 (departed p q stamp s) := by
  unfold departed
  repeat' first | with_reducible assumption | with_reducible exact id | (intro _) | with_reducible apply keeps_ite | extract_lets
                | with_reducible apply hitchSent_keeps | with_reducible apply pushTxTs_keeps | split | with_reducible apply keeps_mk
                | exact fun _ => rfl | dsimp only

theorem execFrameTransmitDone_keeps (port : Nat) (cls : Nat) (stamp : Stamp) (frags : Nat) (s s9 : State) (hk : execFrameTransmitDone port cls stamp frags s = .next s9) : Keeps s s9 := by
  unfold execFrameTransmitDone at hk
  cases hk
  repeat' first | with_reducible assumption | with_reducible exact Keeps.rfl | with_reducible exact id | (intro _) | with_reducible apply keeps_ite
                | extract_lets | with_reducible apply countN_keeps | with_reducible apply countFrame_keeps | with_reducible apply emit_keeps
                | with_reducible apply setQueue_keeps | with_reducible apply countPn_keeps | with_reducible apply departed_keeps
                | with_reducible apply frerRead_keeps | with_reducible apply settleHeads_keeps | with_reducible apply settleUids_keeps
                | with_reducible apply pauseCheck_keeps | split | with_reducible apply keeps_mk | exact fun _ => rfl | dsimp only

theorem cellError_keeps (u0 : State) (cell : Nat) (s : State)  (hk : Keeps u0 s) : Keeps u0 (cellError cell s) := by
  unfold cellError
  repeat' first | with_reducible assumption | with_reducible exact id | (intro _) | with_reducible apply keeps_ite | extract_lets
                | with_reducible apply count_keeps | with_reducible apply raise_keeps | with_reducible apply logEvent_keeps
                | with_reducible apply setResource_keeps | with_reducible apply releaseClaim_keeps | split | with_reducible apply keeps_mk
                | exact fun _ => rfl | dsimp only

theorem parityLoss_keeps (u0 : State) (port : Nat) (cell : Nat) (handle : Option Nat) (frer : Option (Nat × Nat)) (s : State)  (hk : Keeps u0 s) : Keeps u0 (parityLoss port cell handle frer s) := by
  unfold parityLoss
  repeat' first | with_reducible assumption | with_reducible exact id | (intro _) | with_reducible apply keeps_ite | extract_lets
                | with_reducible apply count_keeps | with_reducible apply raise_keeps | with_reducible apply frerParity_keeps
                | with_reducible apply logParity_keeps | split | with_reducible apply keeps_mk | exact fun _ => rfl | dsimp only

theorem execCellParityError_keeps (port : Nat) (cls : Nat) (cell : Nat) (later : Bool) (s s9 : State) (hk : execCellParityError port cls cell later s = .next s9) : Keeps s s9 := by
  unfold execCellParityError at hk
  cases hk
  repeat' first | with_reducible assumption | with_reducible exact Keeps.rfl | with_reducible exact id | (intro _) | with_reducible apply keeps_ite
                | extract_lets | with_reducible apply parityLoss_keeps | with_reducible apply setRx_keeps | with_reducible apply cellError_keeps
                | with_reducible apply settleUids_keeps | with_reducible apply failTxTs_keeps | with_reducible apply setQueue_keeps
                | with_reducible apply emit_keeps | with_reducible apply count_keeps | with_reducible apply settleHeads_keeps | split
                | with_reducible apply keeps_mk | exact fun _ => rfl | dsimp only

theorem execAddressAgeOut_keeps (mac : Mac) (vid : Nat) (s s9 : State) (hk : execAddressAgeOut mac vid s = .next s9) : Keeps s s9 := by
  unfold execAddressAgeOut at hk
  cases hk
  repeat' first | with_reducible assumption | with_reducible exact Keeps.rfl | (intro _) | with_reducible apply keeps_ite | extract_lets
                | with_reducible apply unlearn_keeps | split | dsimp only

theorem enterGate_keeps (u0 : State) (p : Nat) (i : Nat) (s : State)  (hk : Keeps u0 s) : Keeps u0 (enterGate p i s) := by
  unfold enterGate
  repeat' first | with_reducible assumption | with_reducible exact id | (intro _) | with_reducible apply keeps_ite | extract_lets
                | with_reducible apply setGate_keeps | with_reducible apply count_keeps | with_reducible apply setMac_keeps | split
                | with_reducible apply keeps_mk | exact fun _ => rfl | dsimp only

theorem execGateEvent_keeps (port : Nat) (err : Bool) (s s9 : State) (hk : execGateEvent port err s = .next s9) : Keeps s s9 := by
  unfold execGateEvent at hk
  cases hk
  repeat' first | with_reducible assumption | with_reducible exact Keeps.rfl | with_reducible exact id | (intro _) | with_reducible apply keeps_ite
                | with_reducible apply keeps_ite_app | with_reducible apply keeps_id | extract_lets | with_reducible apply tableError_keeps
                | with_reducible apply settleHeads_keeps | with_reducible apply enterGate_keeps | with_reducible apply keeps_foldl
                | with_reducible apply keeps_foldl2 | split | with_reducible apply keeps_mk | exact id | exact fun _ => rfl
                | exact fun i => put_wf _ _ _ _ i | exact put_wf _ _ _ _ (by assumption) | (rw [setBox_len]; assumption)
                | (simp [HostIf.setBox]; done) | (simp_all; done) | assumption | dsimp only

theorem execGateConfigChange_keeps (port : Nat) (s s9 : State) (hk : execGateConfigChange port s = .next s9) : Keeps s s9 := by
  unfold execGateConfigChange at hk
  cases hk
  repeat' first | with_reducible assumption | with_reducible exact Keeps.rfl | with_reducible exact id | (intro _) | with_reducible apply keeps_ite
                | extract_lets | with_reducible apply setGate_keeps | with_reducible apply setMac_keeps | with_reducible apply enterGate_keeps
                | with_reducible apply settleHeads_keeps | with_reducible apply logEvent_keeps | split | with_reducible apply keeps_mk
                | exact fun _ => rfl | dsimp only

theorem launchRing_keeps (u0 : State) (n : Nat) (lateNs : Nat) (s : State)  (hk : Keeps u0 s) : Keeps u0 (launchRing n lateNs s) := by
  unfold launchRing
  repeat' first | with_reducible assumption | with_reducible exact id | (intro _) | with_reducible apply keeps_ite | extract_lets
                | with_reducible apply setTx_keeps | with_reducible apply logEvent_keeps | with_reducible apply dropQueued_keeps
                | with_reducible apply count_keeps | with_reducible apply settleHeads_keeps | with_reducible apply setQueue_keeps | split
                | with_reducible apply keeps_mk | exact fun _ => rfl | dsimp only

theorem execLaunchTimeReached_keeps (ctx : Bool) (source : Nat) (lateNs : Nat) (s s9 : State) (hk : execLaunchTimeReached ctx source lateNs s = .next s9) : Keeps s s9 := by
  unfold execLaunchTimeReached at hk
  cases hk
  repeat' first | with_reducible assumption | with_reducible exact Keeps.rfl | (intro _) | with_reducible apply keeps_ite | extract_lets
                | with_reducible apply launchStream_keeps | with_reducible apply launchRing_keeps | split | dsimp only

theorem execPortFdbRead_keeps (c : Acs) (s s9 : State) (hk : execPortFdbRead c s = .next s9) : Keeps s s9 := by
  unfold execPortFdbRead at hk
  cases hk
  repeat' first | with_reducible assumption | with_reducible exact Keeps.rfl | (intro _) | with_reducible apply keeps_ite | extract_lets
                | with_reducible apply acsLen_keeps | with_reducible apply badArgIf_keeps | with_reducible apply done_keeps | split | dsimp only

theorem execPortFdbWrite_keeps (c : Acs) (s s9 : State) (hk : execPortFdbWrite c s = .next s9) : Keeps s s9 := by
  unfold execPortFdbWrite at hk
  cases hk
  repeat' first | with_reducible assumption | with_reducible exact Keeps.rfl | with_reducible exact id | (intro _) | with_reducible apply keeps_ite
                | extract_lets | with_reducible apply acsLen_keeps | with_reducible apply badArgIf_keeps | with_reducible apply done_keeps
                | with_reducible apply useFree_keeps | split | with_reducible apply keeps_mk | exact fun _ => rfl | dsimp only

theorem execPortFdbFlush_keeps (c : Acs) (s s9 : State) (hk : execPortFdbFlush c s = .next s9) : Keeps s s9 := by
  unfold execPortFdbFlush at hk
  cases hk
  repeat' first | with_reducible assumption | with_reducible exact Keeps.rfl | (intro _) | with_reducible apply keeps_ite | extract_lets
                | with_reducible apply acsLen_keeps | with_reducible apply badArgIf_keeps | with_reducible apply done_keeps
                | with_reducible apply unlearn_keeps | split | dsimp only

theorem execPortVlanSet_keeps (c : Acs) (s s9 : State) (hk : execPortVlanSet c s = .next s9) : Keeps s s9 := by
  unfold execPortVlanSet at hk
  cases hk
  repeat' first | with_reducible assumption | with_reducible exact Keeps.rfl | with_reducible exact id | (intro _) | with_reducible apply keeps_ite
                | extract_lets | with_reducible apply acsLen_keeps | with_reducible apply badArgIf_keeps | with_reducible apply done_keeps | split
                | with_reducible apply keeps_mk | exact fun _ => rfl | dsimp only

theorem execPortGateSet_keeps (c : Acs) (s s9 : State) (hk : execPortGateSet c s = .next s9) : Keeps s s9 := by
  unfold execPortGateSet at hk
  cases hk
  repeat' first | with_reducible assumption | with_reducible exact Keeps.rfl | with_reducible exact id | (intro _) | with_reducible apply keeps_ite
                | extract_lets | with_reducible apply acs_keeps | with_reducible apply done_keeps | with_reducible apply raise_keeps
                | with_reducible apply logEvent_keeps | with_reducible apply setGate_keeps | split | with_reducible apply keeps_mk
                | exact fun _ => rfl | dsimp only

theorem execPortGateStatus_keeps (c : Acs) (s s9 : State) (hk : execPortGateStatus c s = .next s9) : Keeps s s9 := by
  unfold execPortGateStatus at hk
  cases hk
  repeat' first | with_reducible assumption | with_reducible exact Keeps.rfl | with_reducible exact id | (intro _) | with_reducible apply keeps_ite
                | extract_lets | with_reducible apply acsLen_keeps | with_reducible apply badArgIf_keeps | with_reducible apply done_keeps | split
                | with_reducible apply keeps_mk | exact fun _ => rfl | dsimp only

theorem execPortQuotaSet_keeps (c : Acs) (s s9 : State) (hk : execPortQuotaSet c s = .next s9) : Keeps s s9 := by
  unfold execPortQuotaSet at hk
  cases hk
  repeat' first | with_reducible assumption | with_reducible exact Keeps.rfl | with_reducible exact id | (intro _) | with_reducible apply keeps_ite
                | extract_lets | with_reducible apply acsLen_keeps | with_reducible apply done_keeps | split | with_reducible apply keeps_mk
                | exact fun _ => rfl | dsimp only

theorem execPortPsfpSet_keeps (c : Acs) (s s9 : State) (hk : execPortPsfpSet c s = .next s9) : Keeps s s9 := by
  unfold execPortPsfpSet at hk
  cases hk
  repeat' first | with_reducible assumption | with_reducible exact Keeps.rfl | with_reducible exact id | (intro _) | with_reducible apply keeps_ite
                | extract_lets | with_reducible apply acsLen_keeps | with_reducible apply badArgIf_keeps | with_reducible apply done_keeps | split
                | with_reducible apply keeps_mk | exact fun _ => rfl | dsimp only

theorem execPortFrerStatus_keeps (c : Acs) (s s9 : State) (hk : execPortFrerStatus c s = .next s9) : Keeps s s9 := by
  unfold execPortFrerStatus at hk
  cases hk
  repeat' first | with_reducible assumption | with_reducible exact Keeps.rfl | with_reducible exact id | (intro _) | with_reducible apply keeps_ite
                | extract_lets | with_reducible apply acsLen_keeps | with_reducible apply badArgIf_keeps | with_reducible apply done_keeps | split
                | with_reducible apply keeps_mk | exact fun _ => rfl | dsimp only

theorem execPortMacsecStatus_keeps (c : Acs) (s s9 : State) (hk : execPortMacsecStatus c s = .next s9) : Keeps s s9 := by
  unfold execPortMacsecStatus at hk
  cases hk
  repeat' first | with_reducible assumption | with_reducible exact Keeps.rfl | (intro _) | with_reducible apply keeps_ite | extract_lets
                | with_reducible apply acsLen_keeps | with_reducible apply badArgIf_keeps | with_reducible apply done_keeps | split | dsimp only

theorem execPortForward_keeps (c : Acs) (s s9 : State) (hk : execPortForward c s = .next s9) : Keeps s s9 := by
  unfold execPortForward at hk
  cases hk
  repeat' first | with_reducible assumption | with_reducible exact Keeps.rfl | with_reducible exact id | (intro _) | with_reducible apply keeps_ite
                | extract_lets | with_reducible apply acsLen_keeps | with_reducible apply badArgIf_keeps | with_reducible apply done_keeps
                | with_reducible apply logEvent_keeps | split | with_reducible apply keeps_mk | exact fun _ => rfl | dsimp only

end Sys2Proof.Machine
end

