-- ==== Sys2Proof/Laws/KeepsWrangler.lean ====
section
/-! SUPPORT. What every operation of Machine/Wrangler.lean keeps, said once for each: the queue, the outputs made so far, the free values used, the
invariant, protection (Keeps of Safety.lean). -/
set_option Elab.async false
set_option linter.all false
namespace Sys2Proof.Machine
theorem wrStep_keeps (u0 : State) (no : Nat) (f : State → State) (s : State) (h_f : ∀ (s9 : State), Keeps u0 s9 → Keeps u0 (f  s9)) (hk : Keeps u0 s) : Keeps u0 (wrStep no f s) := by
  unfold wrStep
  repeat' first | with_reducible assumption | (intro _) | with_reducible apply keeps_ite | extract_lets | apply h_f
                | with_reducible apply wrTell_keeps | split | dsimp only

theorem execScheduledRound_keeps (resA : Nat) (resB : Nat) (s s9 : State) (hk : execScheduledRound resA resB s = .next s9) : Keeps s s9 := by
  unfold execScheduledRound at hk
  cases hk
  repeat' first | with_reducible assumption | with_reducible exact Keeps.rfl | with_reducible exact id | (intro _) | with_reducible apply keeps_ite
                | extract_lets | with_reducible apply startWrRound_keeps | split | with_reducible apply keeps_mk | exact fun _ => rfl | dsimp only

theorem execReportReceive_keeps (f : Frame) (s s9 : State) (hk : execReportReceive f s = .next s9) : Keeps s s9 := by
  unfold execReportReceive at hk
  cases hk
  repeat' first | with_reducible assumption | with_reducible exact Keeps.rfl | (intro _) | with_reducible apply keeps_ite | extract_lets
                | with_reducible apply wrFrame_keeps | split | dsimp only

theorem execVerdictReceive_keeps (f : Frame) (s s9 : State) (hk : execVerdictReceive f s = .next s9) : Keeps s s9 := by
  unfold execVerdictReceive at hk
  cases hk
  repeat' first | with_reducible assumption | with_reducible exact Keeps.rfl | (intro _) | with_reducible apply keeps_ite | extract_lets
                | with_reducible apply wrFrame_keeps | split | dsimp only

theorem execWranglerFreeze_keeps  (s s9 : State) (hk : execWranglerFreeze s = .next s9) : Keeps s s9 := by
  unfold execWranglerFreeze at hk
  cases hk
  repeat' first | with_reducible assumption | with_reducible exact Keeps.rfl | (intro _) | extract_lets | with_reducible apply wrStep_keeps
                | with_reducible apply wrFreeze_keeps | dsimp only

theorem execPlacementComputed_keeps  (s s9 : State) (hk : execPlacementComputed s = .next s9) : Keeps s s9 := by
  unfold execPlacementComputed at hk
  cases hk
  repeat' first | with_reducible assumption | with_reducible exact Keeps.rfl | (intro _) | extract_lets | with_reducible apply wrStep_keeps
                | with_reducible apply wrCompute_keeps | dsimp only

theorem execPlacementApply_keeps  (s s9 : State) (hk : execPlacementApply s = .next s9) : Keeps s s9 := by
  unfold execPlacementApply at hk
  cases hk
  repeat' first | with_reducible assumption | with_reducible exact Keeps.rfl | (intro _) | extract_lets | with_reducible apply wrStep_keeps
                | with_reducible apply wrApply_keeps | dsimp only

theorem execRoundDisagreeCheck_keeps  (s s9 : State) (hk : execRoundDisagreeCheck s = .next s9) : Keeps s s9 := by
  unfold execRoundDisagreeCheck at hk
  cases hk
  repeat' first | with_reducible assumption | with_reducible exact Keeps.rfl | (intro _) | extract_lets | with_reducible apply wrStep_keeps
                | with_reducible apply wrDisagree_keeps | dsimp only

theorem execDwellExpiry_keeps (placeId : Nat) (s s9 : State) (hk : execDwellExpiry placeId s = .next s9) : Keeps s s9 := by
  unfold execDwellExpiry at hk
  cases hk
  repeat' first | with_reducible assumption | with_reducible exact Keeps.rfl | with_reducible exact id | (intro _) | extract_lets
                | with_reducible apply keeps_mk | exact fun _ => rfl | dsimp only

theorem execStateReceive_keeps (f : Frame) (s s9 : State) (hk : execStateReceive f s = .next s9) : Keeps s s9 := by
  unfold execStateReceive at hk
  cases hk
  repeat' first | with_reducible assumption | with_reducible exact Keeps.rfl | (intro _) | with_reducible apply keeps_ite | extract_lets
                | with_reducible apply wrFrame_keeps | split | dsimp only

theorem execAckReceive_keeps (f : Frame) (s s9 : State) (hk : execAckReceive f s = .next s9) : Keeps s s9 := by
  unfold execAckReceive at hk
  cases hk
  repeat' first | with_reducible assumption | with_reducible exact Keeps.rfl | (intro _) | with_reducible apply keeps_ite | extract_lets
                | with_reducible apply wrFrame_keeps | split | dsimp only

theorem execReleaseReceive_keeps (f : Frame) (s s9 : State) (hk : execReleaseReceive f s = .next s9) : Keeps s s9 := by
  unfold execReleaseReceive at hk
  cases hk
  repeat' first | with_reducible assumption | with_reducible exact Keeps.rfl | (intro _) | with_reducible apply keeps_ite | extract_lets
                | with_reducible apply wrFrame_keeps | split | dsimp only

theorem execTakenReceive_keeps (f : Frame) (s s9 : State) (hk : execTakenReceive f s = .next s9) : Keeps s s9 := by
  unfold execTakenReceive at hk
  cases hk
  repeat' first | with_reducible assumption | with_reducible exact Keeps.rfl | (intro _) | with_reducible apply keeps_ite | extract_lets
                | with_reducible apply wrFrame_keeps | split | dsimp only

theorem execAbortReceive_keeps (f : Frame) (s s9 : State) (hk : execAbortReceive f s = .next s9) : Keeps s s9 := by
  unfold execAbortReceive at hk
  cases hk
  repeat' first | with_reducible assumption | with_reducible exact Keeps.rfl | (intro _) | with_reducible apply keeps_ite | extract_lets
                | with_reducible apply wrFrame_keeps | split | dsimp only

theorem execMigrateAbort_keeps (task : Nat) (s s9 : State) (hk : execMigrateAbort task s = .next s9) : Keeps s s9 := by
  unfold execMigrateAbort at hk
  cases hk
  repeat' first | with_reducible assumption | with_reducible exact Keeps.rfl | with_reducible exact id | (intro _) | with_reducible apply keeps_ite
                | extract_lets | with_reducible apply abortOut_keeps | split | with_reducible apply keeps_mk | exact fun _ => rfl | dsimp only

theorem wrOnly_keeps (u0 : State) (opcode : Nat) (c : Acs) (body : State → State) (s : State) (h_body : ∀ (s9 : State), Keeps u0 s9 → Keeps u0 (body  s9)) (hk : Keeps u0 s) : Keeps u0 (wrOnly opcode c body s) := by
  unfold wrOnly
  repeat' first | with_reducible assumption | (intro _) | with_reducible apply keeps_ite | extract_lets | apply h_body
                | with_reducible apply done_keeps | split | dsimp only

theorem execWranglerStatus_keeps (c : Acs) (s s9 : State) (hk : execWranglerStatus c s = .next s9) : Keeps s s9 := by
  unfold execWranglerStatus at hk
  cases hk
  repeat' first | with_reducible assumption | with_reducible exact Keeps.rfl | (intro _) | extract_lets | with_reducible apply acsLen_keeps
                | with_reducible apply wrOnly_keeps | with_reducible apply done_keeps | dsimp only

theorem execWranglerPlacement_keeps (c : Acs) (s s9 : State) (hk : execWranglerPlacement c s = .next s9) : Keeps s s9 := by
  unfold execWranglerPlacement at hk
  cases hk
  repeat' first | with_reducible assumption | with_reducible exact Keeps.rfl | (intro _) | extract_lets | with_reducible apply acsLen_keeps
                | with_reducible apply wrOnly_keeps | with_reducible apply badArgIf_keeps | with_reducible apply done_keeps | dsimp only

theorem effWranglerHold_keeps (u0 : State) (a : List Byte) (r : Option AcsRef) (s : State)  (hk : Keeps u0 s) : Keeps u0 (effWranglerHold a r s) := by
  unfold effWranglerHold
  repeat' first | with_reducible assumption | with_reducible exact id | (intro _) | extract_lets | with_reducible apply finish_keeps
                | with_reducible apply keeps_mk | exact fun _ => rfl | dsimp only

theorem execWranglerHold_keeps (c : Acs) (s s9 : State) (hk : execWranglerHold c s = .next s9) : Keeps s s9 := by
  unfold execWranglerHold at hk
  cases hk
  repeat' first | with_reducible assumption | with_reducible exact Keeps.rfl | (intro _) | extract_lets | with_reducible apply acsLen_keeps
                | with_reducible apply wrOnly_keeps | with_reducible apply badArgIf_keeps | with_reducible apply nodeWide_keeps
                | with_reducible apply effWranglerHold_keeps | dsimp only

end Sys2Proof.Machine
end

