-- ==== Sys2Proof/Laws/KeepsNodeWide.lean ====
section
/-! SUPPORT. What every operation of Machine/NodeWide.lean keeps, said once for each: the queue, the outputs made so far, the free values used, the
invariant, protection (Keeps of Safety.lean). -/
set_option Elab.async false
set_option linter.all false
namespace Sys2Proof.Machine
theorem effOf_keeps (u0 : State) (opcode : Nat) (a : List Byte) (r : Option AcsRef) (s : State)  (hk : Keeps u0 s) : Keeps u0 (effOf opcode a r s) := by
  unfold effOf
  repeat' first | with_reducible assumption | with_reducible exact id | (intro _) | with_reducible apply keeps_ite | extract_lets
                | with_reducible apply effSysStable_keeps | with_reducible apply effTackCommit_keeps | with_reducible apply effHitchInhibit_keeps
                | with_reducible apply effHitchRequest_keeps | with_reducible apply effTimeSelect_keeps | with_reducible apply effTimeSet_keeps
                | with_reducible apply effStreamPut_keeps | with_reducible apply effStreamLine_keeps | with_reducible apply effStreamEnable_keeps
                | with_reducible apply effTaskStart_keeps | with_reducible apply effTaskStop_keeps | with_reducible apply effTaskResume_keeps
                | with_reducible apply effTaskSwap_keeps | with_reducible apply effForceSet_keeps | with_reducible apply effForceRelease_keeps
                | with_reducible apply effForceReleaseAll_keeps | with_reducible apply effWranglerHold_keeps
                | with_reducible apply effRedundSwitch_keeps | with_reducible apply effCanConfig_keeps
                | with_reducible apply effLegacyPortWrite_keeps | with_reducible apply effLegacyMsgSend_keeps
                | with_reducible apply effBridgeSession_keeps | with_reducible apply finish_keeps | split | with_reducible apply keeps_mk
                | exact fun _ => rfl | dsimp only

theorem answer_keeps (u0 : State) (c : NodeCmd) (status : Nat) (payload : List Byte) (s : State)  (hk : Keeps u0 s) : Keeps u0 (answer c status payload s) := by
  unfold answer
  repeat' first | with_reducible assumption | (intro _) | extract_lets | with_reducible apply tugAll_keeps | dsimp only

theorem reportFor_keeps (u0 : State) (c : NodeCmd) (s : State)  (hk : Keeps u0 s) : Keeps u0 (reportFor c s) := by
  unfold reportFor
  repeat' first | with_reducible assumption | (intro _) | with_reducible apply keeps_ite | extract_lets | with_reducible apply tugAll_keeps | split
                | dsimp only

theorem takeCommand_keeps (u0 : State) (link : Nat) (b : List Byte) (s : State)  (hk : Keeps u0 s) : Keeps u0 (takeCommand link b s) := by
  unfold takeCommand
  repeat' first | with_reducible assumption | with_reducible exact id | (intro _) | with_reducible apply keeps_ite | extract_lets
                | with_reducible apply stageChunk_keeps | with_reducible apply excludeSelf_keeps | with_reducible apply answer_keeps
                | with_reducible apply tugAll_keeps | with_reducible apply reportFor_keeps | split | with_reducible apply keeps_mk
                | exact fun _ => rfl | dsimp only

theorem takeStaging_keeps (u0 : State) (b : List Byte) (s : State)  (hk : Keeps u0 s) : Keeps u0 (takeStaging b s) := by
  unfold takeStaging
  repeat' first | with_reducible assumption | with_reducible exact id | (intro _) | with_reducible apply keeps_ite | extract_lets
                | with_reducible apply stages_keeps | split | with_reducible apply keeps_mk | exact fun _ => rfl | dsimp only

theorem takeFirmware_keeps (u0 : State) (b : List Byte) (s : State)  (hk : Keeps u0 s) : Keeps u0 (takeFirmware b s) := by
  unfold takeFirmware
  repeat' first | with_reducible assumption | (intro _) | with_reducible apply keeps_ite | extract_lets | with_reducible apply takeStaging_keeps
                | with_reducible apply storeWitness_keeps | split | dsimp only

theorem execMgmtCommandReceive_keeps (m : TugRx) (s s9 : State) (hk : execMgmtCommandReceive m s = .next s9) : Keeps s s9 := by
  unfold execMgmtCommandReceive at hk
  cases hk
  repeat' first | with_reducible assumption | with_reducible exact Keeps.rfl | (intro _) | with_reducible apply keeps_ite | extract_lets
                | with_reducible apply onTug_keeps | with_reducible apply takeCommand_keeps | with_reducible apply takeFirmware_keeps | split
                | dsimp only

theorem completeCmd_keeps (u0 : State) (c : NodeCmd) (s : State)  (hk : Keeps u0 s) : Keeps u0 (completeCmd c s) := by
  unfold completeCmd
  repeat' first | with_reducible assumption | with_reducible exact id | (intro _) | with_reducible apply keeps_ite | extract_lets
                | with_reducible apply acsDone_keeps | split | with_reducible apply keeps_mk | exact fun _ => rfl | dsimp only

theorem takeAnswer_keeps (u0 : State) (link : Nat) (b : List Byte) (s : State)  (hk : Keeps u0 s) : Keeps u0 (takeAnswer link b s) := by
  unfold takeAnswer
  repeat' first | with_reducible assumption | with_reducible exact id | (intro _) | with_reducible apply keeps_ite | extract_lets
                | with_reducible apply completeCmd_keeps | split | with_reducible apply keeps_mk | exact fun _ => rfl | dsimp only

theorem execMgmtResponseReceive_keeps (m : TugRx) (s s9 : State) (hk : execMgmtResponseReceive m s = .next s9) : Keeps s s9 := by
  unfold execMgmtResponseReceive at hk
  cases hk
  repeat' first | with_reducible assumption | with_reducible exact Keeps.rfl | (intro _) | with_reducible apply keeps_ite | extract_lets
                | with_reducible apply onTug_keeps | with_reducible apply takeAnswer_keeps | split | dsimp only

theorem applyOwn_keeps (u0 : State) (c : NodeCmd) (s : State)  (hk : Keeps u0 s) : Keeps u0 (applyOwn c s) := by
  unfold applyOwn
  repeat' first | with_reducible assumption | with_reducible exact id | (intro _) | with_reducible apply keeps_ite | extract_lets
                | with_reducible apply effOf_keeps | with_reducible apply completeCmd_keeps | split | with_reducible apply keeps_mk
                | exact fun _ => rfl | dsimp only

theorem applyGuest_keeps (u0 : State) (c : NodeCmd) (s : State)  (hk : Keeps u0 s) : Keeps u0 (applyGuest c s) := by
  unfold applyGuest
  repeat' first | with_reducible assumption | with_reducible exact id | (intro _) | with_reducible apply keeps_ite | extract_lets
                | with_reducible apply effOf_keeps | with_reducible apply answer_keeps | split | with_reducible apply keeps_mk | exact fun _ => rfl
                | dsimp only

theorem execNodeWideApply_keeps  (s s9 : State) (hk : execNodeWideApply s = .next s9) : Keeps s s9 := by
  unfold execNodeWideApply at hk
  cases hk
  try dsimp only
  repeat' first | with_reducible assumption | with_reducible exact Keeps.rfl | with_reducible exact id | (intro _) | with_reducible apply keeps_ite
                | with_reducible apply keeps_ite_app | with_reducible apply keeps_id | with_reducible apply applyOwn_keeps
                | with_reducible apply applyGuest_keeps | with_reducible apply stages_keeps | with_reducible apply keeps_foldl
                | with_reducible apply keeps_foldl2 | split | simp only [keeps_mk_iff] | exact id | exact fun _ => rfl
                | exact fun i => put_wf _ _ _ _ i | exact put_wf _ _ _ _ (by assumption) | (rw [setBox_len]; assumption)
                | (simp [HostIf.setBox]; done) | dsimp only

theorem execNodeWideTimeout_keeps  (s s9 : State) (hk : execNodeWideTimeout s = .next s9) : Keeps s s9 := by
  unfold execNodeWideTimeout at hk
  cases hk
  repeat' first | with_reducible assumption | with_reducible exact Keeps.rfl | with_reducible exact id | (intro _) | with_reducible apply keeps_ite
                | extract_lets | with_reducible apply linkDown_keeps | with_reducible apply completeCmd_keeps | with_reducible apply keeps_foldl
                | split | with_reducible apply keeps_mk | exact fun _ => rfl | dsimp only

end Sys2Proof.Machine
end

