-- ==== Sys2Proof/Laws/KeepsPort.lean ====
section
/-! SUPPORT. What every operation of Machine/Port.lean keeps, said once for each: the queue, the outputs made so far, the free values used, the
invariant, protection (Keeps of Safety.lean). -/
set_option Elab.async false
set_option linter.all false
namespace Sys2Proof.Machine
theorem sendMerge_keeps (u0 : State) (p : Nat) (respond : Bool) (s : State)  (hk : Keeps u0 s) : Keeps u0 (sendMerge p respond s) := by
  unfold sendMerge
  repeat' first | with_reducible assumption | (intro _) | with_reducible apply keeps_ite | extract_lets | with_reducible apply emit_keeps
                | with_reducible apply respond_keeps | split | dsimp only

theorem startVerify_keeps (u0 : State) (p : Nat) (s : State)  (hk : Keeps u0 s) : Keeps u0 (startVerify p s) := by
  unfold startVerify
  repeat' first | with_reducible assumption | with_reducible exact id | (intro _) | with_reducible apply keeps_ite | extract_lets
                | with_reducible apply setMac_keeps | with_reducible apply sendMerge_keeps | split | with_reducible apply keeps_mk
                | exact fun _ => rfl | dsimp only

theorem verified_keeps (u0 : State) (p : Nat) (ok : Bool) (s : State)  (hk : Keeps u0 s) : Keeps u0 (verified p ok s) := by
  unfold verified
  repeat' first | with_reducible assumption | with_reducible exact id | (intro _) | with_reducible apply keeps_ite | extract_lets
                | with_reducible apply raise_keeps | with_reducible apply logEvent_keeps | with_reducible apply setMac_keeps | split
                | with_reducible apply keeps_mk | exact fun _ => rfl | dsimp only

theorem execVerifyFrameReceive_keeps (port : Nat) (s s9 : State) (hk : execVerifyFrameReceive port s = .next s9) : Keeps s s9 := by
  unfold execVerifyFrameReceive at hk
  cases hk
  repeat' first | with_reducible assumption | with_reducible exact Keeps.rfl | (intro _) | with_reducible apply keeps_ite | extract_lets
                | with_reducible apply sendMerge_keeps | split | dsimp only

theorem execRespondFrameReceive_keeps (port : Nat) (s s9 : State) (hk : execRespondFrameReceive port s = .next s9) : Keeps s s9 := by
  unfold execRespondFrameReceive at hk
  cases hk
  repeat' first | with_reducible assumption | with_reducible exact Keeps.rfl | (intro _) | with_reducible apply keeps_ite | extract_lets
                | with_reducible apply verified_keeps | split | dsimp only

theorem execVerifyTimeExpiry_keeps (port : Nat) (s s9 : State) (hk : execVerifyTimeExpiry port s = .next s9) : Keeps s s9 := by
  unfold execVerifyTimeExpiry at hk
  cases hk
  repeat' first | with_reducible assumption | with_reducible exact Keeps.rfl | with_reducible exact id | (intro _) | with_reducible apply keeps_ite
                | extract_lets | with_reducible apply verified_keeps | with_reducible apply count_keeps | with_reducible apply sendMerge_keeps
                | with_reducible apply setMac_keeps | split | with_reducible apply keeps_mk | exact fun _ => rfl | dsimp only

theorem endPause_keeps (u0 : State) (p : Nat) (s : State)  (hk : Keeps u0 s) : Keeps u0 (endPause p s) := by
  unfold endPause
  repeat' first | with_reducible assumption | with_reducible exact id | (intro _) | with_reducible apply keeps_ite | extract_lets
                | with_reducible apply countN_keeps | with_reducible apply setMac_keeps | split | with_reducible apply keeps_mk | exact fun _ => rfl
                | dsimp only

theorem execPauseFrameReceive_keeps (port : Nat) (quanta : Nat) (sa : Mac) (s s9 : State) (hk : execPauseFrameReceive port quanta sa s = .next s9) : Keeps s s9 := by
  unfold execPauseFrameReceive at hk
  cases hk
  repeat' first | with_reducible assumption | with_reducible exact Keeps.rfl | with_reducible exact id | (intro _) | with_reducible apply keeps_ite
                | extract_lets | with_reducible apply count_keeps | with_reducible apply setMac_keeps | with_reducible apply endPause_keeps | split
                | with_reducible apply keeps_mk | exact fun _ => rfl | dsimp only

theorem execPauseExpiry_keeps (port : Nat) (s s9 : State) (hk : execPauseExpiry port s = .next s9) : Keeps s s9 := by
  unfold execPauseExpiry at hk
  cases hk
  repeat' first | with_reducible assumption | with_reducible exact Keeps.rfl | (intro _) | with_reducible apply keeps_ite | extract_lets
                | with_reducible apply endPause_keeps | split | dsimp only

theorem execPauseWatchdog_keeps (port : Nat) (s s9 : State) (hk : execPauseWatchdog port s = .next s9) : Keeps s s9 := by
  unfold execPauseWatchdog at hk
  cases hk
  repeat' first | with_reducible assumption | with_reducible exact Keeps.rfl | with_reducible exact id | (intro _) | with_reducible apply keeps_ite
                | extract_lets | with_reducible apply endPause_keeps | with_reducible apply setMac_keeps | with_reducible apply raise_keeps
                | with_reducible apply logEvent_keeps | with_reducible apply count_keeps | split | with_reducible apply keeps_mk
                | exact fun _ => rfl | dsimp only

theorem execPauseHoldoffExpiry_keeps (port : Nat) (s s9 : State) (hk : execPauseHoldoffExpiry port s = .next s9) : Keeps s s9 := by
  unfold execPauseHoldoffExpiry at hk
  cases hk
  repeat' first | with_reducible assumption | with_reducible exact Keeps.rfl | with_reducible exact id | (intro _) | with_reducible apply keeps_ite
                | extract_lets | with_reducible apply setMac_keeps | split | with_reducible apply keeps_mk | exact fun _ => rfl | dsimp only

theorem execPauseRefresh_keeps (port : Nat) (s s9 : State) (hk : execPauseRefresh port s = .next s9) : Keeps s s9 := by
  unfold execPauseRefresh at hk
  cases hk
  repeat' first | with_reducible assumption | with_reducible exact Keeps.rfl | (intro _) | with_reducible apply keeps_ite | extract_lets
                | with_reducible apply sendPause_keeps | with_reducible apply pauseCheck_keeps | split | dsimp only

theorem linkChanged_keeps (u0 : State) (p : Nat) (up : Bool) (rate : Nat) (s : State)  (hk : Keeps u0 s) : Keeps u0 (linkChanged p up rate s) := by
  unfold linkChanged
  repeat' first | with_reducible assumption | with_reducible exact id | (intro _) | with_reducible apply keeps_ite | extract_lets
                | with_reducible apply raise_keeps | with_reducible apply logEvent_keeps | with_reducible apply setMac_keeps | split
                | with_reducible apply keeps_mk | exact fun _ => rfl | dsimp only

theorem execLinkUp_keeps (port : Nat) (rate : Nat) (s s9 : State) (hk : execLinkUp port rate s = .next s9) : Keeps s s9 := by
  unfold execLinkUp at hk
  cases hk
  repeat' first | with_reducible assumption | with_reducible exact Keeps.rfl | with_reducible exact id | (intro _) | with_reducible apply keeps_ite
                | extract_lets | with_reducible apply startVerify_keeps | with_reducible apply linkChanged_keeps | with_reducible apply setMac_keeps
                | with_reducible apply wakeEvent_keeps | with_reducible apply logEvent_keeps | split | with_reducible apply keeps_mk
                | exact fun _ => rfl | dsimp only

theorem execLinkDown_keeps (port : Nat) (cutOff : Bool) (s s9 : State) (hk : execLinkDown port cutOff s = .next s9) : Keeps s s9 := by
  unfold execLinkDown at hk
  cases hk
  repeat' first | with_reducible assumption | with_reducible exact Keeps.rfl | with_reducible exact id | (intro _) | with_reducible apply keeps_ite
                | extract_lets | with_reducible apply count_keeps | with_reducible apply endPause_keeps | with_reducible apply setMac_keeps
                | with_reducible apply linkChanged_keeps | with_reducible apply dropPort_keeps | with_reducible apply startVerify_keeps
                | with_reducible apply setHPort_keeps | with_reducible apply neighbourLost_keeps | with_reducible apply setSec_keeps
                | with_reducible apply mkaLost_keeps | with_reducible apply unlearn_keeps | split | with_reducible apply keeps_mk
                | exact fun _ => rfl | dsimp only

theorem execLinkDebounceExpiry_keeps (port : Nat) (s s9 : State) (hk : execLinkDebounceExpiry port s = .next s9) : Keeps s s9 := by
  unfold execLinkDebounceExpiry at hk
  cases hk
  repeat' first | with_reducible assumption | with_reducible exact Keeps.rfl | with_reducible exact id | (intro _) | with_reducible apply keeps_ite
                | extract_lets | with_reducible apply setMac_keeps | with_reducible apply hitchAfter_keeps | with_reducible apply setSec_keeps
                | with_reducible apply setHPort_keeps | split | with_reducible apply keeps_mk | exact fun _ => rfl | dsimp only

theorem execMkaFrameReceive_keeps (port : Nat) (ev : MkaEvent) (s s9 : State) (hk : execMkaFrameReceive port ev s = .next s9) : Keeps s s9 := by
  unfold execMkaFrameReceive at hk
  cases hk
  repeat' first | with_reducible assumption | with_reducible exact Keeps.rfl | with_reducible exact id | (intro _) | with_reducible apply keeps_ite
                | extract_lets | with_reducible apply setSec_keeps | with_reducible apply saSaid_keeps | with_reducible apply replay_keeps | split
                | with_reducible apply keeps_mk | exact fun _ => rfl | dsimp only

theorem execMkaHelloTimer_keeps (port : Nat) (s s9 : State) (hk : execMkaHelloTimer port s = .next s9) : Keeps s s9 := by
  unfold execMkaHelloTimer at hk
  cases hk
  repeat' first | with_reducible assumption | with_reducible exact Keeps.rfl | (intro _) | with_reducible apply keeps_ite | extract_lets
                | with_reducible apply sendMka_keeps | split | dsimp only

theorem execMkaLifetimeExpiry_keeps (port : Nat) (s s9 : State) (hk : execMkaLifetimeExpiry port s = .next s9) : Keeps s s9 := by
  unfold execMkaLifetimeExpiry at hk
  cases hk
  repeat' first | with_reducible assumption | with_reducible exact Keeps.rfl | (intro _) | with_reducible apply keeps_ite | extract_lets
                | with_reducible apply mkaLost_keeps | split | dsimp only

theorem execSakRekeyTimer_keeps (port : Nat) (s s9 : State) (hk : execSakRekeyTimer port s = .next s9) : Keeps s s9 := by
  unfold execSakRekeyTimer at hk
  cases hk
  repeat' first | with_reducible assumption | with_reducible exact Keeps.rfl | (intro _) | with_reducible apply keeps_ite | extract_lets
                | with_reducible apply newSak_keeps | split | dsimp only

theorem execPortMacStatus_keeps (c : Acs) (s s9 : State) (hk : execPortMacStatus c s = .next s9) : Keeps s s9 := by
  unfold execPortMacStatus at hk
  cases hk
  repeat' first | with_reducible assumption | with_reducible exact Keeps.rfl | with_reducible exact id | (intro _) | with_reducible apply keeps_ite
                | extract_lets | with_reducible apply acsLen_keeps | with_reducible apply badArgIf_keeps | with_reducible apply done_keeps | split
                | with_reducible apply keeps_mk | exact fun _ => rfl | dsimp only

theorem execPortMacSet_keeps (c : Acs) (s s9 : State) (hk : execPortMacSet c s = .next s9) : Keeps s s9 := by
  unfold execPortMacSet at hk
  cases hk
  repeat' first | with_reducible assumption | with_reducible exact Keeps.rfl | with_reducible exact id | (intro _) | with_reducible apply keeps_ite
                | extract_lets | with_reducible apply acsLen_keeps | with_reducible apply done_keeps | with_reducible apply setMac_keeps
                | with_reducible apply pauseCheck_keeps | with_reducible apply startVerify_keeps | split | with_reducible apply keeps_mk
                | exact fun _ => rfl | dsimp only

theorem execPortWakeSet_keeps (c : Acs) (s s9 : State) (hk : execPortWakeSet c s = .next s9) : Keeps s s9 := by
  unfold execPortWakeSet at hk
  cases hk
  repeat' first | with_reducible assumption | with_reducible exact Keeps.rfl | with_reducible exact id | (intro _) | with_reducible apply keeps_ite
                | extract_lets | with_reducible apply acs_keeps | with_reducible apply done_keeps | with_reducible apply setMac_keeps | split
                | with_reducible apply keeps_mk | exact fun _ => rfl | dsimp only

theorem execPortWakeRead_keeps (c : Acs) (s s9 : State) (hk : execPortWakeRead c s = .next s9) : Keeps s s9 := by
  unfold execPortWakeRead at hk
  cases hk
  repeat' first | with_reducible assumption | with_reducible exact Keeps.rfl | (intro _) | with_reducible apply keeps_ite | extract_lets
                | with_reducible apply acsLen_keeps | with_reducible apply badArgIf_keeps | with_reducible apply done_keeps | split | dsimp only

end Sys2Proof.Machine
end

