-- ==== Sys2Proof/Laws/KeepsRing.lean ====
section
/-! SUPPORT. What every operation of Machine/Ring.lean keeps, said once for each: the queue, the outputs made so far, the free values used, the
invariant, protection (Keeps of Safety.lean). -/
set_option Elab.async false
set_option linter.all false
namespace Sys2Proof.Machine
theorem execRingEnable_keeps (tx : Bool) (ring : Nat) (value : Word) (s s9 : State) (hk : execRingEnable tx ring value s = .next s9) : Keeps s s9 := by
  unfold execRingEnable at hk
  cases hk
  repeat' first | with_reducible assumption | with_reducible exact Keeps.rfl | (intro _) | with_reducible apply keeps_ite | extract_lets
                | with_reducible apply ringCtrl_keeps | split | dsimp only

theorem execRingDisable_keeps (tx : Bool) (ring : Nat) (s s9 : State) (hk : execRingDisable tx ring s = .next s9) : Keeps s s9 := by
  unfold execRingDisable at hk
  cases hk
  repeat' first | with_reducible assumption | with_reducible exact Keeps.rfl | (intro _) | with_reducible apply keeps_ite | extract_lets
                | with_reducible apply stopRing_keeps | split | dsimp only

theorem execRingTailWrite_keeps (tx : Bool) (ring : Nat) (index : Nat) (s s9 : State) (hk : execRingTailWrite tx ring index s = .next s9) : Keeps s s9 := by
  unfold execRingTailWrite at hk
  cases hk
  repeat' first | with_reducible assumption | with_reducible exact Keeps.rfl | (intro _) | with_reducible apply keeps_ite | extract_lets
                | with_reducible apply ringTail_keeps | split | dsimp only

theorem execTxFrameFetched_keeps (ring : Nat) (descs : List (List Byte)) (data : List Byte) (s s9 : State) (hk : execTxFrameFetched ring descs data s = .next s9) : Keeps s s9 := by
  unfold execTxFrameFetched at hk
  cases hk
  repeat' first | with_reducible assumption | with_reducible exact Keeps.rfl | with_reducible exact id | (intro _) | with_reducible apply keeps_ite
                | extract_lets | with_reducible apply txWriteBack_keeps | with_reducible apply txFail_keeps | with_reducible apply ringError_keeps
                | with_reducible apply count_keeps | with_reducible apply setTx_keeps | with_reducible apply settleUids_keeps
                | with_reducible apply txFinish_keeps | split | with_reducible apply keeps_mk | exact fun _ => rfl | dsimp only

theorem execTxFenceRelease_keeps (ring : Nat) (s s9 : State) (hk : execTxFenceRelease ring s = .next s9) : Keeps s s9 := by
  unfold execTxFenceRelease at hk
  cases hk
  repeat' first | with_reducible assumption | with_reducible exact Keeps.rfl | with_reducible exact id | (intro _) | with_reducible apply keeps_ite
                | extract_lets | with_reducible apply txFinish_keeps | with_reducible apply setTx_keeps | split | with_reducible apply keeps_mk
                | exact fun _ => rfl | dsimp only

theorem execRxRingDeliver_keeps (ring : Nat) (bufs : List Nat) (cutAt : Nat) (s s9 : State) (hk : execRxRingDeliver ring bufs cutAt s = .next s9) : Keeps s s9 := by
  unfold execRxRingDeliver at hk
  cases hk
  repeat' first | with_reducible assumption | with_reducible exact Keeps.rfl | with_reducible exact id | (intro _) | with_reducible apply keeps_ite
                | extract_lets | with_reducible apply setRx_keeps | with_reducible apply logEvent_keeps | with_reducible apply count_keeps
                | with_reducible apply ringDone_keeps | with_reducible apply rxWrite_keeps | with_reducible apply settleUids_keeps
                | with_reducible apply unread_keeps | with_reducible apply pauseCheck_keeps | split | with_reducible apply keeps_mk
                | exact fun _ => rfl | dsimp only

theorem execRxHoldExpiry_keeps (ring : Nat) (s s9 : State) (hk : execRxHoldExpiry ring s = .next s9) : Keeps s s9 := by
  unfold execRxHoldExpiry at hk
  cases hk
  repeat' first | with_reducible assumption | with_reducible exact Keeps.rfl | with_reducible exact id | (intro _) | with_reducible apply keeps_ite
                | extract_lets | with_reducible apply rxHoldDrop_keeps | with_reducible apply setRx_keeps | with_reducible apply settleUids_keeps
                | with_reducible apply unread_keeps | with_reducible apply pauseCheck_keeps | split | with_reducible apply keeps_mk
                | exact fun _ => rfl | dsimp only

theorem execRingIrqDelayExpiry_keeps (tx : Bool) (ring : Nat) (s s9 : State) (hk : execRingIrqDelayExpiry tx ring s = .next s9) : Keeps s s9 := by
  unfold execRingIrqDelayExpiry at hk
  cases hk
  repeat' first | with_reducible assumption | with_reducible exact Keeps.rfl | with_reducible exact id | (intro _) | with_reducible apply keeps_ite
                | extract_lets | with_reducible apply sendVector_keeps | with_reducible apply setRing_keeps | split | with_reducible apply keeps_mk
                | exact fun _ => rfl | dsimp only

theorem pcieError_keeps (u0 : State) (status : Word) (s : State)  (hk : Keeps u0 s) : Keeps u0 (pcieError status s) := by
  unfold pcieError
  repeat' first | with_reducible assumption | (intro _) | extract_lets | with_reducible apply raise_keeps | with_reducible apply logEvent_keeps
                | with_reducible apply count_keeps | dsimp only

theorem execPcieDmaError_keeps (tx : Bool) (ring : Nat) (kind : Nat) (status : Word) (descs : List (List Byte)) (s s9 : State) (hk : execPcieDmaError tx ring kind status descs s = .next s9) : Keeps s s9 := by
  unfold execPcieDmaError at hk
  cases hk
  repeat' first | with_reducible assumption | with_reducible exact Keeps.rfl | with_reducible exact id | (intro _) | with_reducible apply keeps_ite
                | extract_lets | with_reducible apply pcieError_keeps | with_reducible apply txWriteBack_keeps | with_reducible apply txFail_keeps
                | with_reducible apply raise_keeps | with_reducible apply ringError_keeps | with_reducible apply setRing_keeps
                | with_reducible apply stopRing_keeps | split | with_reducible apply keeps_mk | exact fun _ => rfl | dsimp only

end Sys2Proof.Machine
end

