-- ==== Sys2Proof/Laws/KeepsSecurity.lean ====
section
/-! SUPPORT. What every operation of Machine/Security.lean keeps, said once for each: the queue, the outputs made so far, the free values used, the
invariant, protection (Keeps of Safety.lean). -/
set_option Elab.async false
set_option linter.all false
namespace Sys2Proof.Machine
theorem authorised_keeps (u0 : State) (op : Nat) (c : Acs) (f : State → State) (s : State) (h_f : ∀ (s9 : State), Keeps u0 s9 → Keeps u0 (f  s9)) (hk : Keeps u0 s) : Keeps u0 (authorised op c f s) := by
  unfold authorised
  repeat' first | with_reducible assumption | (intro _) | with_reducible apply keeps_ite | extract_lets | apply h_f
                | with_reducible apply useAuth_keeps | with_reducible apply done_keeps | split | dsimp only

theorem execSecStatus_keeps (c : Acs) (s s9 : State) (hk : execSecStatus c s = .next s9) : Keeps s s9 := by
  unfold execSecStatus at hk
  cases hk
  repeat' first | with_reducible assumption | with_reducible exact Keeps.rfl | with_reducible exact id | (intro _) | with_reducible apply keeps_ite
                | extract_lets | with_reducible apply acsLen_keeps | with_reducible apply done_keeps | split | with_reducible apply keeps_mk
                | exact fun _ => rfl | dsimp only

theorem execSecChallenge_keeps (c : Acs) (s s9 : State) (hk : execSecChallenge c s = .next s9) : Keeps s s9 := by
  unfold execSecChallenge at hk
  cases hk
  repeat' first | with_reducible assumption | with_reducible exact Keeps.rfl | (intro _) | with_reducible apply acsLen_keeps
                | with_reducible apply badArgIf_keeps | with_reducible apply authorised_keeps | with_reducible apply keeps_ite | extract_lets
                | with_reducible apply done_keeps | with_reducible apply useFree_keeps | with_reducible apply keyChange_keeps
                | with_reducible apply authFailed_keeps | with_reducible apply logEvent_keeps
                | refine keeps_sec _ _ ?_ ⟨id, Nat.le_refl _, Nat.le_refl _, fun _ h => h⟩ id id id id id id

theorem authFailed_keeps (u0 : State) (op slot : Nat) (s : State) (hk : Keeps u0 s) : Keeps u0 (authFailed op slot s) :=
  logEvent_keeps _ _ _ _ _ (keeps_sec s _ hk ⟨id, Nat.le_refl _, Nat.le_refl _, fun _ h => h⟩ id id id id id id)

theorem execSecAuthorise_keeps (c : Acs) (s s9 : State) (hk : execSecAuthorise c s = .next s9) : Keeps s s9 := by
  unfold execSecAuthorise at hk
  cases hk
  repeat' first | with_reducible assumption | with_reducible exact Keeps.rfl | (intro _) | with_reducible apply acsLen_keeps
                | with_reducible apply badArgIf_keeps | with_reducible apply authorised_keeps | with_reducible apply keeps_ite | extract_lets
                | with_reducible apply done_keeps | with_reducible apply useFree_keeps | with_reducible apply keyChange_keeps
                | with_reducible apply authFailed_keeps | with_reducible apply logEvent_keeps
                | refine keeps_sec _ _ ?_ ⟨id, Nat.le_refl _, Nat.le_refl _, fun _ h => h⟩ id id id id id id

theorem keyChange_keeps (u0 : State) (slot : Nat) (what : Nat) (perm : Nat) (s : State)  (hk : Keeps u0 s) : Keeps u0 (keyChange slot what perm s) := by
  unfold keyChange
  repeat' first | with_reducible assumption | (intro _) | extract_lets | with_reducible apply logEvent_keeps | dsimp only

theorem setKey_le (s : Sec) (i : Nat) (k : Option OwnerKey) : s.Le (s.setKey i k) := by
  unfold Sec.setKey
  split <;> exact ⟨id, Nat.le_refl _, Nat.le_refl _, fun _ h => h⟩

theorem execSecKeyInstall_keeps (c : Acs) (s s9 : State) (hk : execSecKeyInstall c s = .next s9) : Keeps s s9 := by
  unfold execSecKeyInstall at hk
  cases hk
  repeat' first | with_reducible assumption | with_reducible exact Keeps.rfl | (intro _) | with_reducible apply acsLen_keeps
                | with_reducible apply badArgIf_keeps | with_reducible apply authorised_keeps | with_reducible apply keeps_ite | extract_lets
                | with_reducible apply done_keeps | with_reducible apply useFree_keeps | with_reducible apply keyChange_keeps
                | with_reducible apply authFailed_keeps | with_reducible apply logEvent_keeps
                | refine keeps_sec _ _ ?_ (setKey_le _ _ _) id id id id id id

theorem revoke_le (s : Sec) (m : BitVec 4) : s.Le { s with revoked := s.revoked ||| m } :=
  ⟨id, Nat.le_refl _, Nat.le_refl _, fun i h => by simp [BitVec.getLsbD_or, h]⟩

theorem execSecKeyRevoke_keeps (c : Acs) (s s9 : State) (hk : execSecKeyRevoke c s = .next s9) : Keeps s s9 := by
  unfold execSecKeyRevoke at hk
  cases hk
  repeat' first | with_reducible assumption | with_reducible exact Keeps.rfl | (intro _) | with_reducible apply acsLen_keeps
                | with_reducible apply badArgIf_keeps | with_reducible apply authorised_keeps | with_reducible apply keeps_ite | extract_lets
                | with_reducible apply done_keeps | with_reducible apply useFree_keeps | with_reducible apply keyChange_keeps
                | with_reducible apply authFailed_keeps | with_reducible apply logEvent_keeps
                | refine keeps_sec _ _ ?_ (setKey_le _ _ _) id id id id id id | refine keeps_sec _ _ ?_ (revoke_le _ _) id id id id id id

theorem floor_le (s : Sec) (b1 b2 : Bool) {x y : Nat} : s.Le { s with
    fwFloor := if b1 = true then max s.fwFloor x else s.fwFloor, tackFloor := if b2 = true then max s.tackFloor y else s.tackFloor } := by
  refine ⟨id, ?_, ?_, fun _ h => h⟩ <;> dsimp only <;> split <;> omega

theorem execSecAdvance_keeps (c : Acs) (s s9 : State) (hk : execSecAdvance c s = .next s9) : Keeps s s9 := by
  unfold execSecAdvance at hk
  cases hk
  repeat' first | with_reducible assumption | with_reducible exact Keeps.rfl | (intro _) | with_reducible apply acsLen_keeps
                | with_reducible apply badArgIf_keeps | with_reducible apply authorised_keeps | with_reducible apply keeps_ite | extract_lets
                | with_reducible apply done_keeps | with_reducible apply useFree_keeps | with_reducible apply keyChange_keeps
                | with_reducible apply authFailed_keeps | with_reducible apply logEvent_keeps
                | refine keeps_sec _ _ ?_ (floor_le _ _ _) id id id id id id

theorem execSecLock_keeps (c : Acs) (s s9 : State) (hk : execSecLock c s = .next s9) : Keeps s s9 := by
  unfold execSecLock at hk
  cases hk
  repeat' first | with_reducible assumption | with_reducible exact Keeps.rfl | (intro _) | with_reducible apply acsLen_keeps
                | with_reducible apply badArgIf_keeps | with_reducible apply authorised_keeps | with_reducible apply keeps_ite | extract_lets
                | with_reducible apply done_keeps | with_reducible apply useFree_keeps | with_reducible apply keyChange_keeps
                | with_reducible apply authFailed_keeps | with_reducible apply logEvent_keeps
                | refine keeps_sec _ _ ?_ ⟨fun _ => rfl, Nat.le_refl _, Nat.le_refl _, fun _ h => h⟩ id id id id id id

theorem execSecDebugUnlock_keeps (c : Acs) (s s9 : State) (hk : execSecDebugUnlock c s = .next s9) : Keeps s s9 := by
  unfold execSecDebugUnlock at hk
  cases hk
  repeat' first | with_reducible assumption | with_reducible exact Keeps.rfl | (intro _) | with_reducible apply acsLen_keeps
                | with_reducible apply badArgIf_keeps | with_reducible apply authorised_keeps | with_reducible apply keeps_ite | extract_lets
                | with_reducible apply done_keeps | with_reducible apply useFree_keeps | with_reducible apply keyChange_keeps
                | with_reducible apply authFailed_keeps | with_reducible apply logEvent_keeps
                | refine keeps_sec _ _ ?_ ⟨id, Nat.le_refl _, Nat.le_refl _, fun _ h => h⟩ id id id id id id

theorem execSecFwWrite_keeps (c : Acs) (s s9 : State) (hk : execSecFwWrite c s = .next s9) : Keeps s s9 := by
  unfold execSecFwWrite at hk
  cases hk
  repeat' first | with_reducible assumption | with_reducible exact Keeps.rfl | with_reducible exact id | (intro _) | with_reducible apply keeps_ite
                | extract_lets | with_reducible apply acs_keeps | with_reducible apply done_keeps | split | with_reducible apply keeps_mk
                | exact fun _ => rfl | dsimp only

theorem execSecFwSelect_keeps (c : Acs) (s s9 : State) (hk : execSecFwSelect c s = .next s9) : Keeps s s9 := by
  unfold execSecFwSelect at hk
  cases hk
  repeat' first | with_reducible assumption | with_reducible exact Keeps.rfl | with_reducible exact id | (intro _) | with_reducible apply keeps_ite
                | extract_lets | with_reducible apply acsLen_keeps | with_reducible apply badArgIf_keeps | with_reducible apply authorised_keeps
                | with_reducible apply done_keeps | split | with_reducible apply keeps_mk | exact fun _ => rfl | dsimp only

end Sys2Proof.Machine
end

