-- ==== Sys2Proof/Laws/KeepsWindow.lean ====
section
/-! SUPPORT. What every operation of Machine/Window.lean keeps, said once for each: the queue, the outputs made so far, the free values used, the
invariant, protection (Keeps of Safety.lean). -/
set_option Elab.async false
set_option linter.all false
namespace Sys2Proof.Machine
theorem execRegisterWrite_keeps (off : Nat) (value : Word) (s s9 : State) (hk : execRegisterWrite off value s = .next s9) : Keeps s s9 := by
  unfold execRegisterWrite at hk
  cases hk
  repeat' first | with_reducible assumption | with_reducible exact Keeps.rfl | (intro _) | with_reducible apply keeps_ite | extract_lets
                | with_reducible apply writeC_keeps | with_reducible apply writeX_keeps | with_reducible apply writeDl_keeps | split | dsimp only

theorem execQspiWrite_keeps (addr : Nat) (data : List Byte) (s s9 : State) (hk : execQspiWrite addr data s = .next s9) : Keeps s s9 := by
  unfold execQspiWrite at hk
  cases hk
  repeat' first | with_reducible assumption | with_reducible exact Keeps.rfl | (intro _) | with_reducible apply keeps_ite | extract_lets
                | with_reducible apply qspiWrite_keeps | split | dsimp only

theorem execQspiWriteQuad_keeps (addr : Nat) (data : List Byte) (s s9 : State) (hk : execQspiWriteQuad addr data s = .next s9) : Keeps s s9 := by
  unfold execQspiWriteQuad at hk
  cases hk
  repeat' first | with_reducible assumption | with_reducible exact Keeps.rfl | (intro _) | with_reducible apply keeps_ite | extract_lets
                | with_reducible apply qspiWrite_keeps | split | dsimp only

theorem execQspiRead_keeps (addr : Nat) (words : Nat) (cut : Bool) (s s9 : State) (hk : execQspiRead addr words cut s = .next s9) : Keeps s s9 := by
  unfold execQspiRead at hk
  cases hk
  repeat' first | with_reducible assumption | with_reducible exact Keeps.rfl | (intro _) | with_reducible apply keeps_ite | extract_lets
                | with_reducible apply qspiRead_keeps | split | dsimp only

theorem execQspiReadQuad_keeps (addr : Nat) (words : Nat) (cut : Bool) (s s9 : State) (hk : execQspiReadQuad addr words cut s = .next s9) : Keeps s s9 := by
  unfold execQspiReadQuad at hk
  cases hk
  repeat' first | with_reducible assumption | with_reducible exact Keeps.rfl | (intro _) | with_reducible apply keeps_ite | extract_lets
                | with_reducible apply qspiRead_keeps | split | dsimp only

theorem execQspiStatus_keeps  (s s9 : State) (hk : execQspiStatus s = .next s9) : Keeps s s9 := by
  unfold execQspiStatus at hk
  cases hk
  repeat' first | with_reducible assumption | with_reducible exact Keeps.rfl | with_reducible exact id | (intro _) | with_reducible apply keeps_ite
                | extract_lets | with_reducible apply emit_keeps | split | with_reducible apply keeps_mk | exact fun _ => rfl | dsimp only

theorem execStatCounterRead_keeps (off : Nat) (s s9 : State) (hk : execStatCounterRead off s = .next s9) : Keeps s s9 := by
  unfold execStatCounterRead at hk
  cases hk
  repeat' first | with_reducible assumption | with_reducible exact Keeps.rfl | (intro _) | with_reducible apply keeps_ite | extract_lets
                | with_reducible apply readOut_keeps | with_reducible apply statRead_keeps | split | dsimp only

theorem execSatMapRead_keeps (off : Nat) (s s9 : State) (hk : execSatMapRead off s = .next s9) : Keeps s s9 := by
  unfold execSatMapRead at hk
  cases hk
  repeat' first | with_reducible assumption | with_reducible exact Keeps.rfl | (intro _) | with_reducible apply keeps_ite | extract_lets
                | with_reducible apply readOut_keeps | with_reducible apply statRead_keeps | split | dsimp only

theorem execSnapFcLoRead_keeps  (s s9 : State) (hk : execSnapFcLoRead s = .next s9) : Keeps s s9 := by
  unfold execSnapFcLoRead at hk
  cases hk
  repeat' first | with_reducible assumption | with_reducible exact Keeps.rfl | (intro _) | with_reducible apply keeps_ite | extract_lets
                | with_reducible apply readOut_keeps | with_reducible apply snapRead_keeps | split | dsimp only

theorem execPpsinStatRead_keeps  (s s9 : State) (hk : execPpsinStatRead s = .next s9) : Keeps s s9 := by
  unfold execPpsinStatRead at hk
  cases hk
  repeat' first | with_reducible assumption | with_reducible exact Keeps.rfl | (intro _) | with_reducible apply keeps_ite | extract_lets
                | with_reducible apply readOut_keeps | with_reducible apply ppsinRead_keeps | split | dsimp only

theorem execTxtsPop_keeps  (s s9 : State) (hk : execTxtsPop s = .next s9) : Keeps s s9 := by
  unfold execTxtsPop at hk
  cases hk
  repeat' first | with_reducible assumption | with_reducible exact Keeps.rfl | (intro _) | with_reducible apply keeps_ite | extract_lets
                | with_reducible apply readOut_keeps | with_reducible apply txtsPop_keeps | split | dsimp only

end Sys2Proof.Machine
end

