-- ==== Sys2Proof/Laws/OnlyOps.lean ====
section
/-! SUPPORT. The parts of the state that every operation of Machine/Ops.lean may change, said once for each: all others are left alone (Only of
Safety.lean). -/
set_option Elab.async false
set_option linter.all false
namespace Sys2Proof.Machine
theorem useFree_only {ps : List Part} {u0 : State} (hp : ∀ p ∈ ([.freeIdx] : List Part), p ∈ ps) (s : State)  (hk : Only ps u0 s) :
    Only ps u0 (useFree s) := by
  unfold useFree
  repeat' first | with_reducible assumption | (intro _) | extract_lets
                | (refine only_mk _ ?_ (by intro p hq; cases p <;> first | exact absurd (hp _ (by decide)) hq | exact rfl)) | dsimp only

theorem emit_only {ps : List Part} {u0 : State} (hp : ∀ p ∈ ([.out] : List Part), p ∈ ps) (o : Output) (s : State)  (hk : Only ps u0 s) :
    Only ps u0 (emit o s) := by
  unfold emit
  repeat' first | with_reducible assumption | (intro _) | extract_lets
                | (refine only_mk _ ?_ (by intro p hq; cases p <;> first | exact absurd (hp _ (by decide)) hq | exact rfl)) | dsimp only

theorem idleTick_only {ps : List Part} {u0 : State} (hp : ∀ p ∈ ([.time] : List Part), p ∈ ps) (s : State)  (hk : Only ps u0 s) :
    Only ps u0 (idleTick s) := by
  unfold idleTick
  repeat' first | with_reducible assumption | (intro _) | with_reducible apply only_ite | extract_lets | split
                | (refine only_mk _ ?_ (by intro p hq; cases p <;> first | exact absurd (hp _ (by decide)) hq | exact rfl)) | dsimp only

theorem sendVector_only {ps : List Part} {u0 : State} (hp : ∀ p ∈ ([.out, .host, .stats] : List Part), p ∈ ps) (v : Nat) (s : State) 
    (hk : Only ps u0 s) :
    Only ps u0 (sendVector v s) := by
  unfold sendVector
  repeat' first | with_reducible assumption | (intro _) | with_reducible apply only_ite | extract_lets | split
                | (refine only_mk _ ?_ (by intro p hq; cases p <;> first | exact absurd (hp _ (by decide)) hq | exact rfl)) | dsimp only

theorem raise_only {ps : List Part} {u0 : State} (hp : ∀ p ∈ ([.out, .host, .causes, .stats] : List Part), p ∈ ps) (b : CauseBlk) (i : Nat)
    (s : State)  (hk : Only ps u0 s) :
    Only ps u0 (raise b i s) := by
  unfold raise
  repeat' first | with_reducible assumption | with_reducible exact sub_trans (by decide) hp | (intro _) | with_reducible apply only_ite
                | extract_lets | with_reducible apply sendVector_only | split
                | (refine only_mk _ ?_ (by intro p hq; cases p <;> first | exact absurd (hp _ (by decide)) hq | exact rfl)) | dsimp only

theorem countN_only {ps : List Part} {u0 : State} (hp : ∀ p ∈ ([.out, .host, .causes, .stats] : List Part), p ∈ ps) (k : Nat) (n : Nat) (s : State) 
    (hk : Only ps u0 s) :
    Only ps u0 (countN k n s) := by
  unfold countN
  repeat' first | with_reducible assumption | with_reducible exact sub_trans (by decide) hp | (intro _) | with_reducible apply only_ite
                | extract_lets | with_reducible apply raise_only | split
                | (refine only_mk _ ?_ (by intro p hq; cases p <;> first | exact absurd (hp _ (by decide)) hq | exact rfl)) | dsimp only

theorem count_only {ps : List Part} {u0 : State} (hp : ∀ p ∈ ([.out, .host, .causes, .stats] : List Part), p ∈ ps) (k : Nat) (s : State) 
    (hk : Only ps u0 s) :
    Only ps u0 (count k s) := by
  unfold count
  repeat' first | with_reducible assumption | with_reducible exact sub_trans (by decide) hp | (intro _) | extract_lets
                | with_reducible apply countN_only | dsimp only

theorem logQueue_only {ps : List Part} {u0 : State} (hp : ∀ p ∈ ([.out, .host, .causes, .stats, .log] : List Part), p ∈ ps) (r : Rec) (s : State) 
    (hk : Only ps u0 s) :
    Only ps u0 (logQueue r s) := by
  unfold logQueue
  repeat' first | with_reducible assumption | with_reducible exact sub_trans (by decide) hp | (intro _) | with_reducible apply only_ite
                | extract_lets | with_reducible apply raise_only | with_reducible apply count_only | split
                | (refine only_mk _ ?_ (by intro p hq; cases p <;> first | exact absurd (hp _ (by decide)) hq | exact rfl)) | dsimp only

theorem setLimiter_only {ps : List Part} {u0 : State} (hp : ∀ p ∈ ([.log] : List Part), p ∈ ps) (k : Nat) (l : Limiter) (s : State) 
    (hk : Only ps u0 s) :
    Only ps u0 (setLimiter k l s) := by
  unfold setLimiter
  repeat' first | with_reducible assumption | (intro _) | extract_lets
                | (refine only_mk _ ?_ (by intro p hq; cases p <;> first | exact absurd (hp _ (by decide)) hq | exact rfl)) | dsimp only

theorem logWith_only {ps : List Part} {u0 : State} (hp : ∀ p ∈ ([.out, .freeIdx, .host, .causes, .stats, .log, .sw, .red] : List Part), p ∈ ps)
    (code : Nat) (sev : Nat) (witness : Bool) (host : Bool) (payload : List Byte) (s : State)  (hk : Only ps u0 s) :
    Only ps u0 (logWith code sev witness host payload s) := by
  unfold logWith
  repeat' first | with_reducible assumption | with_reducible exact sub_trans (by decide) hp | (intro _) | with_reducible apply only_ite
                | extract_lets | with_reducible apply count_only | with_reducible apply setLimiter_only | with_reducible apply logQueue_only | split
                | (refine only_mk _ ?_ (by intro p hq; cases p <;> first | exact absurd (hp _ (by decide)) hq | exact rfl)) | dsimp only

theorem logEvent_only {ps : List Part} {u0 : State} (hp : ∀ p ∈ ([.out, .freeIdx, .host, .causes, .stats, .log, .sw, .red] : List Part), p ∈ ps)
    (code : Nat) (sev : Nat) (payload : List Byte) (s : State)  (hk : Only ps u0 s) :
    Only ps u0 (logEvent code sev payload s) := by
  unfold logEvent
  repeat' first | with_reducible assumption | with_reducible exact sub_trans (by decide) hp | (intro _) | extract_lets
                | with_reducible apply logWith_only | dsimp only

theorem setState_only {ps : List Part} {u0 : State}
    (hp : ∀ p ∈ ([.out, .freeIdx, .node, .host, .causes, .stats, .log, .sw, .red] : List Part), p ∈ ps) (new : NodeState) (cause : Nat) (res : Nat)
    (s : State)  (hk : Only ps u0 s) :
    Only ps u0 (setState new cause res s) := by
  unfold setState
  repeat' first | with_reducible assumption | with_reducible exact sub_trans (by decide) hp | (intro _) | with_reducible apply only_ite
                | extract_lets | apply h_new | with_reducible apply logEvent_only | with_reducible apply raise_only | split
                | (refine only_mk _ ?_ (by intro p hq; cases p <;> first | exact absurd (hp _ (by decide)) hq | exact rfl)) | dsimp only

theorem setResource_only {ps : List Part} {u0 : State}
    (hp : ∀ p ∈ ([.out, .freeIdx, .node, .host, .causes, .stats, .log, .sw, .red] : List Part), p ∈ ps) (i : Nat) (lost : Bool) (s : State) 
    (hk : Only ps u0 s) :
    Only ps u0 (setResource i lost s) := by
  unfold setResource
  repeat' first | with_reducible assumption | with_reducible exact sub_trans (by decide) hp | (intro _) | with_reducible apply only_ite
                | extract_lets | with_reducible apply setState_only | with_reducible apply logEvent_only | split
                | (refine only_mk _ ?_ (by intro p hq; cases p <;> first | exact absurd (hp _ (by decide)) hq | exact rfl)) | dsimp only

theorem drivePin_only {ps : List Part} {u0 : State} (hp : ∀ p ∈ ([.out, .node, .pwr, .time] : List Part), p ∈ ps) (p : PinName) (l : Level)
    (s : State)  (hk : Only ps u0 s) :
    Only ps u0 (drivePin p l s) := by
  unfold drivePin
  repeat' first | with_reducible assumption | with_reducible exact sub_trans (by decide) hp | (intro _) | with_reducible apply only_ite
                | extract_lets | with_reducible apply emit_only | split
                | (refine only_mk _ ?_ (by intro p hq; cases p <;> first | exact absurd (hp _ (by decide)) hq | exact rfl)) | dsimp only

theorem mbxVector_only {ps : List Part} {u0 : State} (hp : ∀ p ∈ ([.out, .host, .stats] : List Part), p ∈ ps) (en : Bool) (s : State) 
    (hk : Only ps u0 s) :
    Only ps u0 (mbxVector en s) := by
  unfold mbxVector
  repeat' first | with_reducible assumption | with_reducible exact sub_trans (by decide) hp | (intro _) | with_reducible apply only_ite
                | extract_lets | with_reducible apply sendVector_only | split | dsimp only

theorem acsDone_only {ps : List Part} {u0 : State} (hp : ∀ p ∈ ([.out, .host, .mem, .causes, .stats] : List Part), p ∈ ps) (r : AcsRef)
    (status : Nat) (payload : List Byte) (s : State)  (hk : Only ps u0 s) :
    Only ps u0 (acsDone r status payload s) := by
  unfold acsDone
  repeat' first | with_reducible assumption | with_reducible exact sub_trans (by decide) hp | (intro _) | with_reducible apply only_ite
                | extract_lets | with_reducible apply emit_only | with_reducible apply count_only | with_reducible apply mbxVector_only | split
                | (refine only_mk _ ?_ (by intro p hq; cases p <;> first | exact absurd (hp _ (by decide)) hq | exact rfl)) | dsimp only

end Sys2Proof.Machine
end

