-- ==== Sys2Proof/Laws/OnlyTugOps.lean ====
section
/-! SUPPORT. The parts of the state that every operation of Machine/TugOps.lean may change, said once for each: all others are left alone (Only of
Safety.lean). -/
set_option Elab.async false
set_option linter.all false
namespace Sys2Proof.Machine
theorem setTug_only {ps : List Part} {u0 : State} (hp : ∀ p ∈ ([.red] : List Part), p ∈ ps) (l : Nat) (f : TugLink → TugLink) (s : State) 
    (hk : Only ps u0 s) :
    Only ps u0 (setTug l f s) := by
  unfold setTug
  repeat' first | with_reducible assumption | (intro _) | extract_lets
                | (refine only_mk _ ?_ (by intro p hq; cases p <;> first | exact absurd (hp _ (by decide)) hq | exact rfl)) | dsimp only

theorem tugPut_only {ps : List Part} {u0 : State} (hp : ∀ p ∈ ([.out, .red] : List Part), p ∈ ps) (l : Nat) (m : TugMsg) (s : State) 
    (hk : Only ps u0 s) :
    Only ps u0 (tugPut l m s) := by
  unfold tugPut
  repeat' first | with_reducible assumption | with_reducible exact sub_trans (by decide) hp | (intro _) | extract_lets
                | with_reducible apply emit_only | with_reducible apply setTug_only
                | (refine only_mk _ ?_ (by intro p hq; cases p <;> first | exact absurd (hp _ (by decide)) hq | exact rfl)) | dsimp only

theorem tugSend_only {ps : List Part} {u0 : State} (hp : ∀ p ∈ ([.out, .host, .causes, .stats, .red] : List Part), p ∈ ps) (l : Nat) (c : TugChan)
    (typ : Nat) (data : List Byte) (s : State)  (hk : Only ps u0 s) :
    Only ps u0 (tugSend l c typ data s) := by
  unfold tugSend
  repeat' first | with_reducible assumption | with_reducible exact sub_trans (by decide) hp | (intro _) | with_reducible apply only_ite
                | extract_lets | with_reducible apply emit_only | with_reducible apply count_only | with_reducible apply setTug_only
                | with_reducible apply tugPut_only | split
                | (refine only_mk _ ?_ (by intro p hq; cases p <;> first | exact absurd (hp _ (by decide)) hq | exact rfl)) | dsimp only

theorem tugDrain_only {ps : List Part} {u0 : State} (hp : ∀ p ∈ ([.out, .red] : List Part), p ∈ ps) (l : Nat) (s : State)  (hk : Only ps u0 s) :
    Only ps u0 (tugDrain l s) := by
  unfold tugDrain
  try dsimp only
  repeat' first | with_reducible assumption | with_reducible exact sub_trans (by decide) hp | (intro _) | with_reducible exact Only.rfl
                | with_reducible apply only_ite | with_reducible apply only_ite_app | with_reducible apply only_id
                | with_reducible apply tugPut_only | with_reducible apply setTug_only | with_reducible apply only_foldl
                | with_reducible apply only_foldl2 | split
                | (refine only_mk _ ?_ (by intro p hq; cases p <;> first | exact absurd (hp _ (by decide)) hq | exact rfl)) | dsimp only

theorem tugAll_only {ps : List Part} {u0 : State} (hp : ∀ p ∈ ([.out, .host, .causes, .stats, .red] : List Part), p ∈ ps) (c : TugChan) (typ : Nat)
    (data : List Byte) (s : State)  (hk : Only ps u0 s) :
    Only ps u0 (tugAll c typ data s) := by
  unfold tugAll
  repeat' first | with_reducible assumption | with_reducible exact sub_trans (by decide) hp | (intro _) | extract_lets
                | with_reducible apply tugSend_only | with_reducible apply only_foldl | dsimp only

theorem sendParts_only {ps : List Part} {u0 : State} (hp : ∀ p ∈ ([.out, .host, .causes, .stats, .red] : List Part), p ∈ ps) (l : Nat) (c : TugChan)
    (task : Nat) (part : Nat) (cycle : Nat) (b : List Byte) (s : State)  (hk : Only ps u0 s) :
    Only ps u0 (sendParts l c task part cycle b s) := by
  unfold sendParts
  repeat' first | with_reducible assumption | with_reducible exact sub_trans (by decide) hp | (intro _) | extract_lets
                | with_reducible apply tugSend_only | with_reducible apply only_foldl | dsimp only

theorem sendSegments_only {ps : List Part} {u0 : State} (hp : ∀ p ∈ ([.out, .host, .causes, .stats, .red] : List Part), p ∈ ps) (l : Nat)
    (port : Nat) (dir : Nat) (line : Nat) (rtag : Nat) (handle : Nat) (b : List Byte) (s : State)  (hk : Only ps u0 s) :
    Only ps u0 (sendSegments l port dir line rtag handle b s) := by
  unfold sendSegments
  repeat' first | with_reducible assumption | with_reducible exact sub_trans (by decide) hp | (intro _) | extract_lets
                | with_reducible apply tugSend_only | with_reducible apply only_foldl
                | (refine only_mk _ ?_ (by intro p hq; cases p <;> first | exact absurd (hp _ (by decide)) hq | exact rfl)) | dsimp only

end Sys2Proof.Machine
end

