-- ==== Sys2Proof/Laws/OnlyOperands.lean ====
section
/-! SUPPORT. The parts of the state that every operation of Machine/Operands.lean may change, said once for each: all others are left alone (Only of
Safety.lean). -/
set_option Elab.async false
set_option linter.all false
namespace Sys2Proof.Machine
theorem acsMark_only {ps : List Part} {u0 : State} (hp : ∀ p ∈ ([.host] : List Part), p ∈ ps) (c : Acs) (s : State)  (hk : Only ps u0 s) :
    Only ps u0 (acsMark c s) := by
  unfold acsMark
  repeat' first | with_reducible assumption | (intro _) | extract_lets
                | (refine only_mk _ ?_ (by intro p hq; cases p <;> first | exact absurd (hp _ (by decide)) hq | exact rfl)) | dsimp only

theorem done_only {ps : List Part} {u0 : State} (hp : ∀ p ∈ ([.out, .host, .mem, .causes, .stats] : List Part), p ∈ ps) (c : Acs) (opcode : Nat)
    (status : Nat) (payload : List Byte) (s : State)  (hk : Only ps u0 s) :
    Only ps u0 (done c opcode status payload s) := by
  unfold done
  repeat' first | with_reducible assumption | with_reducible exact sub_trans (by decide) hp | (intro _) | extract_lets
                | with_reducible apply acsDone_only | dsimp only

theorem acs_only {ps : List Part} {u0 : State} (hp : ∀ p ∈ ([.out, .host, .mem, .causes, .stats] : List Part), p ∈ ps) (opcode : Nat)
    (states : States) (c : Acs) (body : State → State) (s : State) (h_body : ∀ (s9 : State), Only ps u0 s9 → Only ps u0 (body  s9))
    (hk : Only ps u0 s) :
    Only ps u0 (acs opcode states c body s) := by
  unfold acs
  repeat' first | with_reducible assumption | with_reducible exact sub_trans (by decide) hp | (intro _) | with_reducible apply only_ite
                | extract_lets | apply h_states | apply h_body | with_reducible apply acsMark_only | with_reducible apply done_only | split
                | dsimp only

theorem acsLen_only {ps : List Part} {u0 : State} (hp : ∀ p ∈ ([.out, .host, .mem, .causes, .stats] : List Part), p ∈ ps) (opcode : Nat)
    (states : States) (n : Nat) (c : Acs) (body : State → State) (s : State) (h_body : ∀ (s9 : State), Only ps u0 s9 → Only ps u0 (body  s9))
    (hk : Only ps u0 s) :
    Only ps u0 (acsLen opcode states n c body s) := by
  unfold acsLen
  repeat' first | with_reducible assumption | with_reducible exact sub_trans (by decide) hp | (intro _) | with_reducible apply only_ite
                | extract_lets | apply h_states | apply h_body | with_reducible apply acs_only | with_reducible apply done_only | split | dsimp only

theorem releaseFences_only {ps : List Part} {u0 : State} (hp : ∀ p ∈ ([.out, .host, .mem, .causes, .stats] : List Part), p ∈ ps) (s : State) 
    (hk : Only ps u0 s) :
    Only ps u0 (releaseFences s) := by
  unfold releaseFences
  repeat' first | with_reducible assumption | with_reducible exact sub_trans (by decide) hp | (intro _) | with_reducible apply only_ite
                | extract_lets | with_reducible apply acsDone_only | with_reducible apply only_foldl | split
                | (refine only_mk _ ?_ (by intro p hq; cases p <;> first | exact absurd (hp _ (by decide)) hq | exact rfl)) | dsimp only

theorem badArgIf_only {ps : List Part} {u0 : State} (hp : ∀ p ∈ ([.out, .host, .mem, .causes, .stats] : List Part), p ∈ ps) (p : Bool) (opcode : Nat)
    (c : Acs) (body : State → State) (s : State) (h_body : ∀ (s9 : State), Only ps u0 s9 → Only ps u0 (body  s9)) (hk : Only ps u0 s) :
    Only ps u0 (badArgIf p opcode c body s) := by
  unfold badArgIf
  repeat' first | with_reducible assumption | with_reducible exact sub_trans (by decide) hp | (intro _) | with_reducible apply only_ite
                | extract_lets | apply h_body | with_reducible apply done_only | split | dsimp only

theorem finish_only {ps : List Part} {u0 : State} (hp : ∀ p ∈ ([.out, .host, .mem, .causes, .stats, .red] : List Part), p ∈ ps) (r : Option AcsRef)
    (status : Nat) (payload : List Byte) (s : State)  (hk : Only ps u0 s) :
    Only ps u0 (finish r status payload s) := by
  unfold finish
  repeat' first | with_reducible assumption | with_reducible exact sub_trans (by decide) hp | (intro _) | with_reducible apply only_ite
                | extract_lets | with_reducible apply acsDone_only | split
                | (refine only_mk _ ?_ (by intro p hq; cases p <;> first | exact absurd (hp _ (by decide)) hq | exact rfl)) | dsimp only

theorem forwardCmd_only {ps : List Part} {u0 : State} (hp : ∀ p ∈ ([.out, .host, .causes, .stats, .red] : List Part), p ∈ ps) (m : List Byte)
    (s : State)  (hk : Only ps u0 s) :
    Only ps u0 (forwardCmd m s) := by
  unfold forwardCmd
  repeat' first | with_reducible assumption | with_reducible exact sub_trans (by decide) hp | (intro _) | with_reducible apply only_ite
                | extract_lets | with_reducible apply tugAll_only | with_reducible apply tugSend_only | split
                | (refine only_mk _ ?_ (by intro p hq; cases p <;> first | exact absurd (hp _ (by decide)) hq | exact rfl)) | dsimp only

theorem nodeWide_only {ps : List Part} {u0 : State} (hp : ∀ p ∈ ([.out, .host, .causes, .stats, .red] : List Part), p ∈ ps) (opcode : Nat) (c : Acs)
    (eff : Option AcsRef → State → State) (s : State) (h_eff : ∀ (x0 : Option AcsRef) (s9 : State), Only ps u0 s9 → Only ps u0 (eff x0 s9))
    (hk : Only ps u0 s) :
    Only ps u0 (nodeWide opcode c eff s) := by
  unfold nodeWide
  repeat' first | with_reducible assumption | with_reducible exact sub_trans (by decide) hp | (intro _) | with_reducible apply only_ite
                | extract_lets | apply h_eff | with_reducible apply count_only | with_reducible apply forwardCmd_only | split
                | (refine only_mk _ ?_ (by intro p hq; cases p <;> first | exact absurd (hp _ (by decide)) hq | exact rfl)) | dsimp only

end Sys2Proof.Machine
end

