-- ==== Sys2Proof/Laws/OnlyCanOps.lean ====
section
/-! SUPPORT. The parts of the state that every operation of Machine/CanOps.lean may change, said once for each: all others are left alone (Only of
Safety.lean). -/
set_option Elab.async false
set_option linter.all false
namespace Sys2Proof.Machine
theorem setCan_only {ps : List Part} {u0 : State} (hp : ∀ p ∈ ([.can] : List Part), p ∈ ps) (ch : Nat) (f : CanChan → CanChan) (s : State) 
    (hk : Only ps u0 s) :
    Only ps u0 (setCan ch f s) := by
  unfold setCan
  repeat' first | with_reducible assumption | (intro _) | extract_lets
                | (refine only_mk _ ?_ (by intro p hq; cases p <;> first | exact absurd (hp _ (by decide)) hq | exact rfl)) | dsimp only

theorem setBuf_only {ps : List Part} {u0 : State} (hp : ∀ p ∈ ([.can] : List Part), p ∈ ps) (ch : Nat) (b : Nat) (f : CanBuf → CanBuf) (s : State) 
    (hk : Only ps u0 s) :
    Only ps u0 (setBuf ch b f s) := by
  unfold setBuf
  repeat' first | with_reducible assumption | with_reducible exact sub_trans (by decide) hp | (intro _) | extract_lets
                | with_reducible apply setCan_only
                | (refine only_mk _ ?_ (by intro p hq; cases p <;> first | exact absurd (hp _ (by decide)) hq | exact rfl)) | dsimp only

theorem canTxEnd_only {ps : List Part} {u0 : State} (hp : ∀ p ∈ ([.out, .host, .causes, .stats, .can] : List Part), p ∈ ps) (ch : Nat) (b : Nat)
    (f : CanBuf → CanBuf) (s : State)  (hk : Only ps u0 s) :
    Only ps u0 (canTxEnd ch b f s) := by
  unfold canTxEnd
  repeat' first | with_reducible assumption | with_reducible exact sub_trans (by decide) hp | (intro _) | with_reducible apply only_ite
                | extract_lets | with_reducible apply setBuf_only | with_reducible apply raise_only | with_reducible apply setCan_only | split
                | (refine only_mk _ ?_ (by intro p hq; cases p <;> first | exact absurd (hp _ (by decide)) hq | exact rfl)) | dsimp only

theorem canNoTx_only {ps : List Part} {u0 : State} (hp : ∀ p ∈ ([.out, .host, .causes, .stats, .can] : List Part), p ∈ ps) (ch : Nat) (b : Nat)
    (s : State)  (hk : Only ps u0 s) :
    Only ps u0 (canNoTx ch b s) := by
  unfold canNoTx
  repeat' first | with_reducible assumption | with_reducible exact sub_trans (by decide) hp | (intro _) | extract_lets
                | with_reducible apply count_only | with_reducible apply canTxEnd_only
                | (refine only_mk _ ?_ (by intro p hq; cases p <;> first | exact absurd (hp _ (by decide)) hq | exact rfl)) | dsimp only

theorem canEndRequests_only {ps : List Part} {u0 : State} (hp : ∀ p ∈ ([.out, .host, .causes, .stats, .can] : List Part), p ∈ ps) (ch : Nat)
    (s : State)  (hk : Only ps u0 s) :
    Only ps u0 (canEndRequests ch s) := by
  unfold canEndRequests
  repeat' first | with_reducible assumption | with_reducible exact sub_trans (by decide) hp | (intro _) | with_reducible apply only_ite
                | extract_lets | with_reducible apply canNoTx_only | with_reducible apply only_foldl | split | dsimp only

theorem canMode_only {ps : List Part} {u0 : State} (hp : ∀ p ∈ ([.out, .freeIdx, .host, .causes, .stats, .log, .sw, .red, .can] : List Part), p ∈ ps)
    (cause : Nat) (ch : Nat) (s : State)  (hk : Only ps u0 s) :
    Only ps u0 (canMode cause ch s) := by
  unfold canMode
  repeat' first | with_reducible assumption | with_reducible exact sub_trans (by decide) hp | (intro _) | with_reducible apply only_ite
                | extract_lets | with_reducible apply canEndRequests_only | with_reducible apply logEvent_only | with_reducible apply setCan_only
                | split | (refine only_mk _ ?_ (by intro p hq; cases p <;> first | exact absurd (hp _ (by decide)) hq | exact rfl)) | dsimp only

theorem canModes_only {ps : List Part} {u0 : State}
    (hp : ∀ p ∈ ([.out, .freeIdx, .host, .causes, .stats, .log, .sw, .red, .can] : List Part), p ∈ ps) (cause : Nat) (s : State) 
    (hk : Only ps u0 s) :
    Only ps u0 (canModes cause s) := by
  unfold canModes
  repeat' first | with_reducible assumption | with_reducible exact sub_trans (by decide) hp | (intro _) | extract_lets
                | with_reducible apply canMode_only | with_reducible apply only_foldl | dsimp only

theorem canLoad_only {ps : List Part} {u0 : State} (hp : ∀ p ∈ ([.can] : List Part), p ∈ ps) (s : State)  (hk : Only ps u0 s) :
    Only ps u0 (canLoad s) := by
  unfold canLoad
  repeat' first | with_reducible assumption | (intro _) | with_reducible apply only_ite | extract_lets | with_reducible apply only_foldl | split
                | (refine only_mk _ ?_ (by intro p hq; cases p <;> first | exact absurd (hp _ (by decide)) hq | exact rfl)) | dsimp only

theorem canControlStart_only {ps : List Part} {u0 : State} (hp : ∀ p ∈ ([.can] : List Part), p ∈ ps) (s : State)  (hk : Only ps u0 s) :
    Only ps u0 (canControlStart s) := by
  unfold canControlStart
  repeat' first | with_reducible assumption | (intro _) | extract_lets
                | (refine only_mk _ ?_ (by intro p hq; cases p <;> first | exact absurd (hp _ (by decide)) hq | exact rfl)) | dsimp only

theorem canEmpty_only {ps : List Part} {u0 : State} (hp : ∀ p ∈ ([.can] : List Part), p ∈ ps) (ch : Nat) (s : State)  (hk : Only ps u0 s) :
    Only ps u0 (canEmpty ch s) := by
  unfold canEmpty
  repeat' first | with_reducible assumption | with_reducible exact sub_trans (by decide) hp | (intro _) | with_reducible apply only_ite
                | extract_lets | with_reducible apply setCan_only | split
                | (refine only_mk _ ?_ (by intro p hq; cases p <;> first | exact absurd (hp _ (by decide)) hq | exact rfl)) | dsimp only

theorem canSetBlock_only {ps : List Part} {u0 : State}
    (hp : ∀ p ∈ ([.out, .freeIdx, .host, .causes, .stats, .log, .sw, .red, .can] : List Part), p ∈ ps) (cause : Nat) (ch : Nat) (block : List Byte)
    (s : State)  (hk : Only ps u0 s) :
    Only ps u0 (canSetBlock cause ch block s) := by
  unfold canSetBlock
  repeat' first | with_reducible assumption | with_reducible exact sub_trans (by decide) hp | (intro _) | with_reducible apply only_ite
                | extract_lets | with_reducible apply canMode_only | with_reducible apply setCan_only | split
                | (refine only_mk _ ?_ (by intro p hq; cases p <;> first | exact absurd (hp _ (by decide)) hq | exact rfl)) | dsimp only

theorem canSettle_only {ps : List Part} {u0 : State}
    (hp : ∀ p ∈ ([.out, .freeIdx, .host, .mem, .causes, .stats, .log, .sw, .red, .can] : List Part), p ∈ ps) (ch : Nat) (s : State) 
    (hk : Only ps u0 s) :
    Only ps u0 (canSettle ch s) := by
  unfold canSettle
  repeat' first | with_reducible assumption | with_reducible exact sub_trans (by decide) hp | (intro _) | with_reducible apply only_ite
                | extract_lets | with_reducible apply finish_only | with_reducible apply canEmpty_only | with_reducible apply canSetBlock_only
                | with_reducible apply setCan_only | split
                | (refine only_mk _ ?_ (by intro p hq; cases p <;> first | exact absurd (hp _ (by decide)) hq | exact rfl)) | dsimp only

theorem canParity_only {ps : List Part} {u0 : State} (hp : ∀ p ∈ ([.out, .freeIdx, .host, .causes, .stats, .log, .sw, .red] : List Part), p ∈ ps)
    (ch : Nat) (what : Nat) (action : Nat) (s : State)  (hk : Only ps u0 s) :
    Only ps u0 (canParity ch what action s) := by
  unfold canParity
  repeat' first | with_reducible assumption | with_reducible exact sub_trans (by decide) hp | (intro _) | extract_lets
                | with_reducible apply raise_only | with_reducible apply logEvent_only | with_reducible apply count_only | dsimp only

theorem canBufParity_only {ps : List Part} {u0 : State}
    (hp : ∀ p ∈ ([.out, .freeIdx, .host, .causes, .stats, .log, .sw, .red, .can] : List Part), p ∈ ps) (ch : Nat) (b : Nat) (s : State) 
    (hk : Only ps u0 s) :
    Only ps u0 (canBufParity ch b s) := by
  unfold canBufParity
  repeat' first | with_reducible assumption | with_reducible exact sub_trans (by decide) hp | (intro _) | with_reducible apply only_ite
                | extract_lets | with_reducible apply canParity_only | with_reducible apply setBuf_only | with_reducible apply canTxEnd_only | split
                | (refine only_mk _ ?_ (by intro p hq; cases p <;> first | exact absurd (hp _ (by decide)) hq | exact rfl)) | dsimp only

theorem canFifoParity_only {ps : List Part} {u0 : State}
    (hp : ∀ p ∈ ([.out, .freeIdx, .host, .causes, .stats, .log, .sw, .red, .can] : List Part), p ∈ ps) (ch : Nat) (s : State)  (hk : Only ps u0 s) :
    Only ps u0 (canFifoParity ch s) := by
  unfold canFifoParity
  repeat' first | with_reducible assumption | with_reducible exact sub_trans (by decide) hp | (intro _) | with_reducible apply only_ite
                | extract_lets | with_reducible apply canParity_only | with_reducible apply count_only | with_reducible apply setCan_only | split
                | (refine only_mk _ ?_ (by intro p hq; cases p <;> first | exact absurd (hp _ (by decide)) hq | exact rfl)) | dsimp only

theorem canConfigParity_only {ps : List Part} {u0 : State}
    (hp : ∀ p ∈ ([.out, .freeIdx, .host, .causes, .stats, .log, .sw, .red, .can] : List Part), p ∈ ps) (ch : Nat) (b : Nat) (s : State) 
    (hk : Only ps u0 s) :
    Only ps u0 (canConfigParity ch b s) := by
  unfold canConfigParity
  repeat' first | with_reducible assumption | with_reducible exact sub_trans (by decide) hp | (intro _) | extract_lets
                | with_reducible apply canParity_only | with_reducible apply setCan_only
                | (refine only_mk _ ?_ (by intro p hq; cases p <;> first | exact absurd (hp _ (by decide)) hq | exact rfl)) | dsimp only

theorem canToBuf_only {ps : List Part} {u0 : State} (hp : ∀ p ∈ ([.out, .host, .causes, .stats, .can] : List Part), p ∈ ps) (ch : Nat) (b : Nat)
    (m : CanMsg) (s : State)  (hk : Only ps u0 s) :
    Only ps u0 (canToBuf ch b m s) := by
  unfold canToBuf
  repeat' first | with_reducible assumption | with_reducible exact sub_trans (by decide) hp | (intro _) | with_reducible apply only_ite
                | extract_lets | with_reducible apply raise_only | with_reducible apply count_only | with_reducible apply setBuf_only | split
                | (refine only_mk _ ?_ (by intro p hq; cases p <;> first | exact absurd (hp _ (by decide)) hq | exact rfl)) | dsimp only

theorem canToFifo_only {ps : List Part} {u0 : State}
    (hp : ∀ p ∈ ([.out, .freeIdx, .host, .causes, .stats, .log, .sw, .red, .can] : List Part), p ∈ ps) (ch : Nat) (m : CanMsg) (s : State) 
    (hk : Only ps u0 s) :
    Only ps u0 (canToFifo ch m s).2 := by
  unfold canToFifo
  repeat' first | with_reducible assumption | with_reducible exact sub_trans (by decide) hp | (intro _) | with_reducible apply only_ite
                | extract_lets | with_reducible apply raise_only | with_reducible apply logEvent_only | with_reducible apply count_only
                | with_reducible apply setCan_only | split
                | (refine only_mk _ ?_ (by intro p hq; cases p <;> first | exact absurd (hp _ (by decide)) hq | exact rfl)) | dsimp only

theorem canDeliver_only {ps : List Part} {u0 : State}
    (hp : ∀ p ∈ ([.out, .freeIdx, .host, .causes, .stats, .log, .sw, .red, .can] : List Part), p ∈ ps) (ch : Nat) (f : CanFrame) (sof : Nat)
    (s : State)  (hk : Only ps u0 s) :
    Only ps u0 (canDeliver ch f sof s).2 := by
  unfold canDeliver
  repeat' first | with_reducible assumption | with_reducible exact sub_trans (by decide) hp | (intro _) | with_reducible apply only_ite
                | extract_lets | with_reducible apply count_only | with_reducible apply canToBuf_only | with_reducible apply canToFifo_only | split
                | (refine only_mk _ ?_ (by intro p hq; cases p <;> first | exact absurd (hp _ (by decide)) hq | exact rfl)) | dsimp only

theorem canRelease_only {ps : List Part} {u0 : State} (hp : ∀ p ∈ ([.out, .host, .causes, .stats, .can] : List Part), p ∈ ps) (ch : Nat) (b : Nat)
    (s : State)  (hk : Only ps u0 s) :
    Only ps u0 (canRelease ch b s) := by
  unfold canRelease
  repeat' first | with_reducible assumption | with_reducible exact sub_trans (by decide) hp | (intro _) | with_reducible apply only_ite
                | extract_lets | with_reducible apply setBuf_only | with_reducible apply raise_only | split
                | (refine only_mk _ ?_ (by intro p hq; cases p <;> first | exact absurd (hp _ (by decide)) hq | exact rfl)) | dsimp only

theorem canRequest_only {ps : List Part} {u0 : State} (hp : ∀ p ∈ ([.can] : List Part), p ∈ ps) (ch : Nat) (b : Nat) (m : CanMsg) (s : State) 
    (hk : Only ps u0 s) :
    Only ps u0 (canRequest ch b m s) := by
  unfold canRequest
  repeat' first | with_reducible assumption | with_reducible exact sub_trans (by decide) hp | (intro _) | extract_lets
                | with_reducible apply setBuf_only
                | (refine only_mk _ ?_ (by intro p hq; cases p <;> first | exact absurd (hp _ (by decide)) hq | exact rfl)) | dsimp only

theorem canRequeue_only {ps : List Part} {u0 : State} (hp : ∀ p ∈ ([.out, .host, .causes, .stats, .can] : List Part), p ∈ ps) (ch : Nat) (b : Nat)
    (s : State)  (hk : Only ps u0 s) :
    Only ps u0 (canRequeue ch b s) := by
  unfold canRequeue
  repeat' first | with_reducible assumption | with_reducible exact sub_trans (by decide) hp | (intro _) | with_reducible apply only_ite
                | extract_lets | with_reducible apply setCan_only | with_reducible apply count_only | with_reducible apply canTxEnd_only
                | with_reducible apply setBuf_only | with_reducible apply canNoTx_only | split
                | (refine only_mk _ ?_ (by intro p hq; cases p <;> first | exact absurd (hp _ (by decide)) hq | exact rfl)) | dsimp only

theorem canCancel_only {ps : List Part} {u0 : State} (hp : ∀ p ∈ ([.out, .host, .causes, .stats, .can] : List Part), p ∈ ps) (ch : Nat) (b : Nat)
    (s : State)  (hk : Only ps u0 s) :
    Only ps u0 (canCancel ch b s) := by
  unfold canCancel
  repeat' first | with_reducible assumption | with_reducible exact sub_trans (by decide) hp | (intro _) | with_reducible apply only_ite
                | extract_lets | with_reducible apply count_only | with_reducible apply canTxEnd_only | with_reducible apply setBuf_only | split
                | (refine only_mk _ ?_ (by intro p hq; cases p <;> first | exact absurd (hp _ (by decide)) hq | exact rfl)) | dsimp only

theorem canStamp_only {ps : List Part} {u0 : State} (hp : ∀ p ∈ ([.can] : List Part), p ∈ ps) (ch : Nat) (tick : Nat) (s : State) 
    (hk : Only ps u0 s) :
    Only ps u0 (canStamp ch tick s) := by
  unfold canStamp
  repeat' first | with_reducible assumption | with_reducible exact sub_trans (by decide) hp | (intro _) | extract_lets
                | with_reducible apply setCan_only
                | (refine only_mk _ ?_ (by intro p hq; cases p <;> first | exact absurd (hp _ (by decide)) hq | exact rfl)) | dsimp only

theorem canRead0_only {ps : List Part} {u0 : State}
    (hp : ∀ p ∈ ([.out, .freeIdx, .host, .causes, .stats, .log, .sw, .red, .can] : List Part), p ∈ ps) (b : Nat) (err : Bool) (s : State) 
    (hk : Only ps u0 s) :
    Only ps u0 (canRead0 b err s).2 := by
  unfold canRead0
  repeat' first | with_reducible assumption | with_reducible exact sub_trans (by decide) hp | (intro _) | with_reducible apply only_ite
                | extract_lets | with_reducible apply canBufParity_only | with_reducible apply setBuf_only | with_reducible apply canStamp_only
                | split | (refine only_mk _ ?_ (by intro p hq; cases p <;> first | exact absurd (hp _ (by decide)) hq | exact rfl)) | dsimp only

theorem canRead17_only {ps : List Part} {u0 : State} (hp : ∀ p ∈ ([.out, .host, .causes, .stats, .can] : List Part), p ∈ ps) (b : Nat) (s : State) 
    (hk : Only ps u0 s) :
    Only ps u0 (canRead17 b s).2 := by
  unfold canRead17
  repeat' first | with_reducible assumption | with_reducible exact sub_trans (by decide) hp | (intro _) | with_reducible apply only_ite
                | extract_lets | with_reducible apply canRelease_only | split | dsimp only

theorem fifoRead0_only {ps : List Part} {u0 : State}
    (hp : ∀ p ∈ ([.out, .freeIdx, .host, .causes, .stats, .log, .sw, .red, .can] : List Part), p ∈ ps) (err : Bool) (s : State) 
    (hk : Only ps u0 s) :
    Only ps u0 (fifoRead0 err s).2 := by
  unfold fifoRead0
  repeat' first | with_reducible assumption | with_reducible exact sub_trans (by decide) hp | (intro _) | with_reducible apply only_ite
                | extract_lets | with_reducible apply canFifoParity_only | with_reducible apply canStamp_only | with_reducible apply setCan_only
                | split | (refine only_mk _ ?_ (by intro p hq; cases p <;> first | exact absurd (hp _ (by decide)) hq | exact rfl)) | dsimp only

theorem fifoRead17_only {ps : List Part} {u0 : State} (hp : ∀ p ∈ ([.can] : List Part), p ∈ ps) (s : State)  (hk : Only ps u0 s) :
    Only ps u0 (fifoRead17 s).2 := by
  unfold fifoRead17
  repeat' first | with_reducible assumption | with_reducible exact sub_trans (by decide) hp | (intro _) | with_reducible apply only_ite
                | extract_lets | with_reducible apply setCan_only | split
                | (refine only_mk _ ?_ (by intro p hq; cases p <;> first | exact absurd (hp _ (by decide)) hq | exact rfl)) | dsimp only

theorem canWriteEmpty_only {ps : List Part} {u0 : State} (hp : ∀ p ∈ ([.out, .host, .causes, .stats, .can] : List Part), p ∈ ps) (b : Nat)
    (s : State)  (hk : Only ps u0 s) :
    Only ps u0 (canWriteEmpty b s) := by
  unfold canWriteEmpty
  repeat' first | with_reducible assumption | with_reducible exact sub_trans (by decide) hp | (intro _) | with_reducible apply only_ite
                | extract_lets | with_reducible apply canRelease_only | with_reducible apply setBuf_only | split
                | (refine only_mk _ ?_ (by intro p hq; cases p <;> first | exact absurd (hp _ (by decide)) hq | exact rfl)) | dsimp only

theorem canWritePending_only {ps : List Part} {u0 : State} (hp : ∀ p ∈ ([.out, .host, .causes, .stats, .can] : List Part), p ∈ ps) (b : Nat)
    (w : Nat) (s : State)  (hk : Only ps u0 s) :
    Only ps u0 (canWritePending b w s) := by
  unfold canWritePending
  repeat' first | with_reducible assumption | with_reducible exact sub_trans (by decide) hp | (intro _) | with_reducible apply only_ite
                | extract_lets | with_reducible apply canRequest_only | with_reducible apply count_only | with_reducible apply canTxEnd_only
                | with_reducible apply canNoTx_only | split
                | (refine only_mk _ ?_ (by intro p hq; cases p <;> first | exact absurd (hp _ (by decide)) hq | exact rfl)) | dsimp only

theorem canWriteIdle_only {ps : List Part} {u0 : State} (hp : ∀ p ∈ ([.can] : List Part), p ∈ ps) (b : Nat) (w : Nat) (s : State) 
    (hk : Only ps u0 s) :
    Only ps u0 (canWriteIdle b w s) := by
  unfold canWriteIdle
  repeat' first | with_reducible assumption | with_reducible exact sub_trans (by decide) hp | (intro _) | with_reducible apply only_ite
                | extract_lets | with_reducible apply setBuf_only | split
                | (refine only_mk _ ?_ (by intro p hq; cases p <;> first | exact absurd (hp _ (by decide)) hq | exact rfl)) | dsimp only

theorem canWrite0_only {ps : List Part} {u0 : State} (hp : ∀ p ∈ ([.out, .host, .causes, .stats, .can] : List Part), p ∈ ps) (b : Nat) (w : Nat)
    (s : State)  (hk : Only ps u0 s) :
    Only ps u0 (canWrite0 b w s) := by
  unfold canWrite0
  repeat' first | with_reducible assumption | with_reducible exact sub_trans (by decide) hp | (intro _) | with_reducible apply only_ite
                | extract_lets | with_reducible apply canWriteEmpty_only | with_reducible apply canWritePending_only
                | with_reducible apply canWriteIdle_only | with_reducible apply setBuf_only | split
                | (refine only_mk _ ?_ (by intro p hq; cases p <;> first | exact absurd (hp _ (by decide)) hq | exact rfl)) | dsimp only

theorem canWriteWord_only {ps : List Part} {u0 : State} (hp : ∀ p ∈ ([.can] : List Part), p ∈ ps) (b : Nat) (n : Nat) (w : Nat) (s : State) 
    (hk : Only ps u0 s) :
    Only ps u0 (canWriteWord b n w s) := by
  unfold canWriteWord
  repeat' first | with_reducible assumption | with_reducible exact sub_trans (by decide) hp | (intro _) | with_reducible apply only_ite
                | extract_lets | with_reducible apply setBuf_only | split
                | (refine only_mk _ ?_ (by intro p hq; cases p <;> first | exact absurd (hp _ (by decide)) hq | exact rfl)) | dsimp only

theorem canPassive_only {ps : List Part} {u0 : State}
    (hp : ∀ p ∈ ([.out, .freeIdx, .host, .causes, .stats, .log, .sw, .red, .can] : List Part), p ∈ ps) (ch : Nat) (entered : Bool) (s : State) 
    (hk : Only ps u0 s) :
    Only ps u0 (canPassive ch entered s) := by
  unfold canPassive
  repeat' first | with_reducible assumption | with_reducible exact sub_trans (by decide) hp | (intro _) | with_reducible apply only_ite
                | extract_lets | with_reducible apply setCan_only | with_reducible apply count_only | with_reducible apply raise_only
                | with_reducible apply logEvent_only | split
                | (refine only_mk _ ?_ (by intro p hq; cases p <;> first | exact absurd (hp _ (by decide)) hq | exact rfl)) | dsimp only

theorem canErrState_only {ps : List Part} {u0 : State}
    (hp : ∀ p ∈ ([.out, .freeIdx, .host, .causes, .stats, .log, .sw, .red, .can] : List Part), p ∈ ps) (ch : Nat) (s : State)  (hk : Only ps u0 s) :
    Only ps u0 (canErrState ch s) := by
  unfold canErrState
  repeat' first | with_reducible assumption | with_reducible exact sub_trans (by decide) hp | (intro _) | with_reducible apply only_ite
                | extract_lets | with_reducible apply canPassive_only | with_reducible apply canRequeue_only | with_reducible apply raise_only
                | with_reducible apply logEvent_only | with_reducible apply count_only | with_reducible apply setCan_only | split
                | (refine only_mk _ ?_ (by intro p hq; cases p <;> first | exact absurd (hp _ (by decide)) hq | exact rfl)) | dsimp only

theorem canRxGood_only {ps : List Part} {u0 : State}
    (hp : ∀ p ∈ ([.out, .freeIdx, .host, .causes, .stats, .log, .sw, .red, .can] : List Part), p ∈ ps) (ch : Nat) (s : State)  (hk : Only ps u0 s) :
    Only ps u0 (canRxGood ch s) := by
  unfold canRxGood
  repeat' first | with_reducible assumption | with_reducible exact sub_trans (by decide) hp | (intro _) | with_reducible apply only_ite
                | extract_lets | with_reducible apply canErrState_only | with_reducible apply setCan_only | with_reducible apply useFree_only
                | split | (refine only_mk _ ?_ (by intro p hq; cases p <;> first | exact absurd (hp _ (by decide)) hq | exact rfl)) | dsimp only

theorem canLatchBuf_only {ps : List Part} {u0 : State} (hp : ∀ p ∈ ([.can] : List Part), p ∈ ps) (ch : Nat) (b : Nat) (task : Nat) (old : List Byte)
    (s : State)  (hk : Only ps u0 s) :
    Only ps u0 (canLatchBuf ch b task old s).2 := by
  unfold canLatchBuf
  repeat' first | with_reducible assumption | with_reducible exact sub_trans (by decide) hp | (intro _) | with_reducible apply only_ite
                | extract_lets | with_reducible apply setCan_only | split
                | (refine only_mk _ ?_ (by intro p hq; cases p <;> first | exact absurd (hp _ (by decide)) hq | exact rfl)) | dsimp only

theorem canLatchFifo_only {ps : List Part} {u0 : State} (hp : ∀ p ∈ ([.can] : List Part), p ∈ ps) (ch : Nat) (n : Nat) (s : State) 
    (hk : Only ps u0 s) :
    Only ps u0 (canLatchFifo ch n s).2 := by
  unfold canLatchFifo
  repeat' first | with_reducible assumption | with_reducible exact sub_trans (by decide) hp | (intro _) | extract_lets
                | with_reducible apply setCan_only
                | (refine only_mk _ ?_ (by intro p hq; cases p <;> first | exact absurd (hp _ (by decide)) hq | exact rfl)) | dsimp only

theorem canCommit_only {ps : List Part} {u0 : State} (hp : ∀ p ∈ ([.out, .host, .causes, .stats, .can] : List Part), p ∈ ps) (ch : Nat) (b : Nat)
    (block : List Byte) (s : State)  (hk : Only ps u0 s) :
    Only ps u0 (canCommit ch b block s) := by
  unfold canCommit
  repeat' first | with_reducible assumption | with_reducible exact sub_trans (by decide) hp | (intro _) | with_reducible apply only_ite
                | extract_lets | with_reducible apply setBuf_only | with_reducible apply canRequest_only | with_reducible apply count_only | split
                | (refine only_mk _ ?_ (by intro p hq; cases p <;> first | exact absurd (hp _ (by decide)) hq | exact rfl)) | dsimp only

end Sys2Proof.Machine
end

