-- ==== Sys2Proof/Laws/OnlyLegacyOps.lean ====
section
/-! SUPPORT. The parts of the state that every operation of Machine/LegacyOps.lean may change, said once for each: all others are left alone (Only of
Safety.lean). -/
set_option Elab.async false
set_option linter.all false
namespace Sys2Proof.Machine
theorem setLeg_only {ps : List Part} {u0 : State} (hp : ∀ p ∈ ([.leg] : List Part), p ∈ ps) (u : Nat) (f : LegUnit → LegUnit) (s : State) 
    (hk : Only ps u0 s) :
    Only ps u0 (setLeg u f s) := by
  unfold setLeg
  repeat' first | with_reducible assumption | (intro _) | extract_lets
                | (refine only_mk _ ?_ (by intro p hq; cases p <;> first | exact absurd (hp _ (by decide)) hq | exact rfl)) | dsimp only

theorem setPort_only {ps : List Part} {u0 : State} (hp : ∀ p ∈ ([.leg] : List Part), p ∈ ps) (u : Nat) (addr : Nat) (f : LegPort → LegPort)
    (s : State)  (hk : Only ps u0 s) :
    Only ps u0 (setPort u addr f s) := by
  unfold setPort
  repeat' first | with_reducible assumption | with_reducible exact sub_trans (by decide) hp | (intro _) | extract_lets
                | with_reducible apply setLeg_only
                | (refine only_mk _ ?_ (by intro p hq; cases p <;> first | exact absurd (hp _ (by decide)) hq | exact rfl)) | dsimp only

theorem legParity_only {ps : List Part} {u0 : State} (hp : ∀ p ∈ ([.out, .freeIdx, .host, .causes, .stats, .log, .sw, .red] : List Part), p ∈ ps)
    (u : Nat) (what : Nat) (action : Nat) (s : State)  (hk : Only ps u0 s) :
    Only ps u0 (legParity u what action s) := by
  unfold legParity
  repeat' first | with_reducible assumption | with_reducible exact sub_trans (by decide) hp | (intro _) | extract_lets
                | with_reducible apply raise_only | with_reducible apply logEvent_only | with_reducible apply count_only | dsimp only

theorem legReload_only {ps : List Part} {u0 : State}
    (hp : ∀ p ∈ ([.out, .freeIdx, .host, .causes, .stats, .log, .sw, .red, .leg] : List Part), p ∈ ps) (u : Nat) (s : State)  (hk : Only ps u0 s) :
    Only ps u0 (legReload u s) := by
  unfold legReload
  repeat' first | with_reducible assumption | with_reducible exact sub_trans (by decide) hp | (intro _) | extract_lets
                | with_reducible apply legParity_only | with_reducible apply setLeg_only
                | (refine only_mk _ ?_ (by intro p hq; cases p <;> first | exact absurd (hp _ (by decide)) hq | exact rfl)) | dsimp only

theorem lineSaid_only {ps : List Part} {u0 : State} (hp : ∀ p ∈ ([.out, .freeIdx, .host, .causes, .stats, .log, .sw, .red] : List Part), p ∈ ps)
    (u : Nat) (l : Line) (what : Nat) (s : State)  (hk : Only ps u0 s) :
    Only ps u0 (lineSaid u l what s) := by
  unfold lineSaid
  repeat' first | with_reducible assumption | with_reducible exact sub_trans (by decide) hp | (intro _) | extract_lets
                | with_reducible apply raise_only | with_reducible apply logEvent_only | dsimp only

theorem lineError_only {ps : List Part} {u0 : State}
    (hp : ∀ p ∈ ([.out, .freeIdx, .host, .causes, .stats, .log, .sw, .red, .leg] : List Part), p ∈ ps) (u : Nat) (l : Line) (s : State) 
    (hk : Only ps u0 s) :
    Only ps u0 (lineError u l s) := by
  unfold lineError
  repeat' first | with_reducible assumption | with_reducible exact sub_trans (by decide) hp | (intro _) | with_reducible apply only_ite
                | extract_lets | with_reducible apply count_only | with_reducible apply setLeg_only | with_reducible apply lineSaid_only | split
                | (refine only_mk _ ?_ (by intro p hq; cases p <;> first | exact absurd (hp _ (by decide)) hq | exact rfl)) | dsimp only

theorem legLines_only {ps : List Part} {u0 : State}
    (hp : ∀ p ∈ ([.out, .freeIdx, .host, .causes, .stats, .log, .sw, .red, .leg] : List Part), p ∈ ps) (u : Nat) (a : LineRx) (b : LineRx)
    (s : State)  (hk : Only ps u0 s) :
    Only ps u0 (legLines u a b s).2 := by
  unfold legLines
  repeat' first | with_reducible assumption | with_reducible exact sub_trans (by decide) hp | (intro _) | with_reducible apply only_ite
                | extract_lets | with_reducible apply lineError_only | with_reducible apply count_only | with_reducible apply setLeg_only | split
                | (refine only_mk _ ?_ (by intro p hq; cases p <;> first | exact absurd (hp _ (by decide)) hq | exact rfl)) | dsimp only

theorem legSlave_only {ps : List Part} {u0 : State} (hp : ∀ p ∈ ([.out, .host, .causes, .stats] : List Part), p ∈ ps) (u : Nat) (kind : Nat)
    (data : List Byte) (s : State)  (hk : Only ps u0 s) :
    Only ps u0 (legSlave u kind data s) := by
  unfold legSlave
  repeat' first | with_reducible assumption | with_reducible exact sub_trans (by decide) hp | (intro _) | extract_lets
                | with_reducible apply emit_only | with_reducible apply count_only | dsimp only

theorem legMaster_only {ps : List Part} {u0 : State} (hp : ∀ p ∈ ([.out, .host, .causes, .stats] : List Part), p ∈ ps) (u : Nat) (fcode : Nat)
    (addr : Nat) (s : State)  (hk : Only ps u0 s) :
    Only ps u0 (legMaster u fcode addr s) := by
  unfold legMaster
  repeat' first | with_reducible assumption | with_reducible exact sub_trans (by decide) hp | (intro _) | extract_lets
                | with_reducible apply emit_only | with_reducible apply count_only | dsimp only

theorem sendMessage_only {ps : List Part} {u0 : State} (hp : ∀ p ∈ ([.out, .host, .causes, .stats, .leg] : List Part), p ∈ ps) (u : Nat) (s : State) 
    (hk : Only ps u0 s) :
    Only ps u0 (sendMessage u s) := by
  unfold sendMessage
  repeat' first | with_reducible assumption | with_reducible exact sub_trans (by decide) hp | (intro _) | with_reducible apply only_ite
                | extract_lets | with_reducible apply legSlave_only | with_reducible apply setLeg_only | split
                | (refine only_mk _ ?_ (by intro p hq; cases p <;> first | exact absurd (hp _ (by decide)) hq | exact rfl)) | dsimp only

theorem queueMessage_only {ps : List Part} {u0 : State} (hp : ∀ p ∈ ([.leg] : List Part), p ∈ ps) (u : Nat) (dst : Nat) (data : List Byte)
    (s : State)  (hk : Only ps u0 s) :
    Only ps u0 (queueMessage u dst data s) := by
  unfold queueMessage
  repeat' first | with_reducible assumption | with_reducible exact sub_trans (by decide) hp | (intro _) | with_reducible apply only_ite
                | extract_lets | with_reducible apply setLeg_only | split
                | (refine only_mk _ ?_ (by intro p hq; cases p <;> first | exact absurd (hp _ (by decide)) hq | exact rfl)) | dsimp only

theorem takeMaster_only {ps : List Part} {u0 : State}
    (hp : ∀ p ∈ ([.out, .freeIdx, .host, .causes, .stats, .log, .sw, .red, .leg] : List Part), p ∈ ps) (u : Nat) (s : State)  (hk : Only ps u0 s) :
    Only ps u0 (takeMaster u s) := by
  unfold takeMaster
  repeat' first | with_reducible assumption | with_reducible exact sub_trans (by decide) hp | (intro _) | extract_lets
                | with_reducible apply raise_only | with_reducible apply logEvent_only | with_reducible apply count_only
                | with_reducible apply setLeg_only
                | (refine only_mk _ ?_ (by intro p hq; cases p <;> first | exact absurd (hp _ (by decide)) hq | exact rfl)) | dsimp only

theorem loseMaster_only {ps : List Part} {u0 : State}
    (hp : ∀ p ∈ ([.out, .freeIdx, .host, .causes, .stats, .log, .sw, .red, .leg] : List Part), p ∈ ps) (u : Nat) (cause : Nat) (s : State) 
    (hk : Only ps u0 s) :
    Only ps u0 (loseMaster u cause s) := by
  unfold loseMaster
  repeat' first | with_reducible assumption | with_reducible exact sub_trans (by decide) hp | (intro _) | extract_lets
                | with_reducible apply raise_only | with_reducible apply logEvent_only | with_reducible apply setLeg_only
                | (refine only_mk _ ?_ (by intro p hq; cases p <;> first | exact absurd (hp _ (by decide)) hq | exact rfl)) | dsimp only

theorem wtbInhibit_only {ps : List Part} {u0 : State}
    (hp : ∀ p ∈ ([.out, .freeIdx, .host, .causes, .stats, .log, .sw, .red, .leg] : List Part), p ∈ ps) (s : State)  (hk : Only ps u0 s) :
    Only ps u0 (wtbInhibit s) := by
  unfold wtbInhibit
  repeat' first | with_reducible assumption | with_reducible exact sub_trans (by decide) hp | (intro _) | with_reducible apply only_ite
                | extract_lets | with_reducible apply setLeg_only | with_reducible apply logEvent_only | with_reducible apply legSlave_only | split
                | (refine only_mk _ ?_ (by intro p hq; cases p <;> first | exact absurd (hp _ (by decide)) hq | exact rfl)) | dsimp only

theorem wtbEnds_only {ps : List Part} {u0 : State} (hp : ∀ p ∈ ([.out, .leg] : List Part), p ∈ ps) (s : State)  (hk : Only ps u0 s) :
    Only ps u0 (wtbEnds s) := by
  unfold wtbEnds
  repeat' first | with_reducible assumption | with_reducible exact sub_trans (by decide) hp | (intro _) | with_reducible apply only_ite
                | extract_lets | with_reducible apply emit_only | with_reducible apply setLeg_only | split
                | (refine only_mk _ ?_ (by intro p hq; cases p <;> first | exact absurd (hp _ (by decide)) hq | exact rfl)) | dsimp only

theorem legSync_only {ps : List Part} {u0 : State} (hp : ∀ p ∈ ([.out, .freeIdx, .host, .causes, .stats, .log, .sw, .red, .leg] : List Part), p ∈ ps)
    (s : State)  (hk : Only ps u0 s) :
    Only ps u0 (legSync s) := by
  unfold legSync
  repeat' first | with_reducible assumption | with_reducible exact sub_trans (by decide) hp | (intro _) | with_reducible apply only_ite
                | extract_lets | with_reducible apply loseMaster_only | with_reducible apply wtbInhibit_only | with_reducible apply wtbEnds_only
                | with_reducible apply only_foldl | split | dsimp only

theorem legCapture_only {ps : List Part} {u0 : State} (hp : ∀ p ∈ ([.leg] : List Part), p ∈ ps) (u : Nat) (addr : Nat) (lineB : Bool)
    (data : List Byte) (s : State)  (hk : Only ps u0 s) :
    Only ps u0 (legCapture u addr lineB data s).2 := by
  unfold legCapture
  repeat' first | with_reducible assumption | with_reducible exact sub_trans (by decide) hp | (intro _) | with_reducible apply only_ite
                | extract_lets | with_reducible apply setPort_only | split
                | (refine only_mk _ ?_ (by intro p hq; cases p <;> first | exact absurd (hp _ (by decide)) hq | exact rfl)) | dsimp only

theorem legMessage_only {ps : List Part} {u0 : State} (hp : ∀ p ∈ ([.out, .host, .causes, .stats, .leg] : List Part), p ∈ ps) (u : Nat) (src : Nat)
    (data : List Byte) (s : State)  (hk : Only ps u0 s) :
    Only ps u0 (legMessage u src data s) := by
  unfold legMessage
  repeat' first | with_reducible assumption | with_reducible exact sub_trans (by decide) hp | (intro _) | with_reducible apply only_ite
                | extract_lets | with_reducible apply count_only | with_reducible apply setLeg_only | with_reducible apply raise_only | split
                | (refine only_mk _ ?_ (by intro p hq; cases p <;> first | exact absurd (hp _ (by decide)) hq | exact rfl)) | dsimp only

theorem legCommit_only {ps : List Part} {u0 : State} (hp : ∀ p ∈ ([.leg] : List Part), p ∈ ps) (u : Nat) (addr : Nat) (data : List Byte) (s : State) 
    (hk : Only ps u0 s) :
    Only ps u0 (legCommit u addr data s) := by
  unfold legCommit
  repeat' first | with_reducible assumption | with_reducible exact sub_trans (by decide) hp | (intro _) | extract_lets
                | with_reducible apply setPort_only
                | (refine only_mk _ ?_ (by intro p hq; cases p <;> first | exact absurd (hp _ (by decide)) hq | exact rfl)) | dsimp only

end Sys2Proof.Machine
end

