-- ==== Sys2Proof/Laws/OnlyEgress.lean ====
section
/-! SUPPORT. The parts of the state that every operation of Machine/Egress.lean may change, said once for each: all others are left alone (Only of
Safety.lean). -/
set_option Elab.async false
set_option linter.all false
namespace Sys2Proof.Machine
theorem setMac_only {ps : List Part} {u0 : State} (hp : ∀ p ∈ ([.macs] : List Part), p ∈ ps) (p : Nat) (f : MacPort → MacPort) (s : State) 
    (hk : Only ps u0 s) :
    Only ps u0 (setMac p f s) := by
  unfold setMac
  repeat' first | with_reducible assumption | (intro _) | extract_lets
                | (refine only_mk _ ?_ (by intro p hq; cases p <;> first | exact absurd (hp _ (by decide)) hq | exact rfl)) | dsimp only

theorem setHPort_only {ps : List Part} {u0 : State} (hp : ∀ p ∈ ([.hitch] : List Part), p ∈ ps) (p : Nat) (f : HPort → HPort) (s : State) 
    (hk : Only ps u0 s) :
    Only ps u0 (setHPort p f s) := by
  unfold setHPort
  repeat' first | with_reducible assumption | (intro _) | extract_lets
                | (refine only_mk _ ?_ (by intro p hq; cases p <;> first | exact absurd (hp _ (by decide)) hq | exact rfl)) | dsimp only

theorem setQueue_only {ps : List Part} {u0 : State} (hp : ∀ p ∈ ([.sw] : List Part), p ∈ ps) (p : Nat) (c : Nat) (q : List QFrame) (s : State) 
    (hk : Only ps u0 s) :
    Only ps u0 (setQueue p c q s) := by
  unfold setQueue
  repeat' first | with_reducible assumption | (intro _) | extract_lets
                | (refine only_mk _ ?_ (by intro p hq; cases p <;> first | exact absurd (hp _ (by decide)) hq | exact rfl)) | dsimp only

theorem enqueue_only {ps : List Part} {u0 : State} (hp : ∀ p ∈ ([.out, .host, .causes, .stats, .sw] : List Part), p ∈ ps) (p : Nat) (c : Nat)
    (q : QFrame) (s : State)  (hk : Only ps u0 s) :
    Only ps u0 (enqueue p c q s) := by
  unfold enqueue
  repeat' first | with_reducible assumption | with_reducible exact sub_trans (by decide) hp | (intro _) | with_reducible apply only_ite
                | extract_lets | with_reducible apply setQueue_only | with_reducible apply count_only | split | dsimp only

theorem bumpUid_only {ps : List Part} {u0 : State} (hp : ∀ p ∈ ([.sw] : List Part), p ∈ ps) (s : State)  (hk : Only ps u0 s) :
    Only ps u0 (bumpUid s) := by
  unfold bumpUid
  repeat' first | with_reducible assumption | (intro _) | extract_lets
                | (refine only_mk _ ?_ (by intro p hq; cases p <;> first | exact absurd (hp _ (by decide)) hq | exact rfl)) | dsimp only

theorem sendFrame_only {ps : List Part} {u0 : State} (hp : ∀ p ∈ ([.out, .host, .causes, .stats, .sw] : List Part), p ∈ ps) (p : Nat) (c : Nat)
    (f : Frame) (o : TxOrigin) (s : State)  (hk : Only ps u0 s) :
    Only ps u0 (sendFrame p c f o s) := by
  unfold sendFrame
  repeat' first | with_reducible assumption | with_reducible exact sub_trans (by decide) hp | (intro _) | with_reducible apply only_ite
                | extract_lets | with_reducible apply bumpUid_only | with_reducible apply enqueue_only | split | dsimp only

theorem pushTxTs_only {ps : List Part} {u0 : State}
    (hp : ∀ p ∈ ([.out, .freeIdx, .host, .causes, .stats, .log, .time, .sw, .red] : List Part), p ∈ ps) (p : Nat) (e : TxTs) (s : State) 
    (hk : Only ps u0 s) :
    Only ps u0 (pushTxTs p e s) := by
  unfold pushTxTs
  repeat' first | with_reducible assumption | with_reducible exact sub_trans (by decide) hp | (intro _) | with_reducible apply only_ite
                | extract_lets | with_reducible apply raise_only | with_reducible apply logEvent_only | with_reducible apply count_only | split
                | (refine only_mk _ ?_ (by intro p hq; cases p <;> first | exact absurd (hp _ (by decide)) hq | exact rfl)) | dsimp only

theorem failTxTs_only {ps : List Part} {u0 : State}
    (hp : ∀ p ∈ ([.out, .freeIdx, .host, .causes, .stats, .log, .time, .sw, .red] : List Part), p ∈ ps) (p : Nat) (o : TxOrigin) (s : State) 
    (hk : Only ps u0 s) :
    Only ps u0 (failTxTs p o s) := by
  unfold failTxTs
  repeat' first | with_reducible assumption | with_reducible exact sub_trans (by decide) hp | (intro _) | with_reducible apply only_ite
                | extract_lets | with_reducible apply pushTxTs_only | split
                | (refine only_mk _ ?_ (by intro p hq; cases p <;> first | exact absurd (hp _ (by decide)) hq | exact rfl)) | dsimp only

theorem settleUids_only {ps : List Part} {u0 : State} (hp : ∀ p ∈ ([.tx] : List Part), p ∈ ps) (s : State)  (hk : Only ps u0 s) :
    Only ps u0 (settleUids s) := by
  unfold settleUids
  repeat' first | with_reducible assumption | (intro _) | extract_lets
                | (refine only_mk _ ?_ (by intro p hq; cases p <;> first | exact absurd (hp _ (by decide)) hq | exact rfl)) | dsimp only

theorem setFrer_only {ps : List Part} {u0 : State} (hp : ∀ p ∈ ([.sw] : List Part), p ∈ ps) (n : Nat) (f : Frer → Frer) (s : State) 
    (hk : Only ps u0 s) :
    Only ps u0 (setFrer n f s) := by
  unfold setFrer
  repeat' first | with_reducible assumption | (intro _) | extract_lets
                | (refine only_mk _ ?_ (by intro p hq; cases p <;> first | exact absurd (hp _ (by decide)) hq | exact rfl)) | dsimp only

theorem frerClean_only {ps : List Part} {u0 : State} (hp : ∀ p ∈ ([.sw] : List Part), p ∈ ps) (n : Nat) (seq : Nat) (s : State)  (hk : Only ps u0 s) :
    Only ps u0 (frerClean n seq s) := by
  unfold frerClean
  repeat' first | with_reducible assumption | with_reducible exact sub_trans (by decide) hp | (intro _) | with_reducible apply only_ite
                | extract_lets | with_reducible apply setFrer_only | split
                | (refine only_mk _ ?_ (by intro p hq; cases p <;> first | exact absurd (hp _ (by decide)) hq | exact rfl)) | dsimp only

theorem frerRead_only {ps : List Part} {u0 : State} (hp : ∀ p ∈ ([.sw] : List Part), p ∈ ps) (n : Nat) (seq : Nat) (port : Nat) (s : State) 
    (hk : Only ps u0 s) :
    Only ps u0 (frerRead n seq port s) := by
  unfold frerRead
  repeat' first | with_reducible assumption | with_reducible exact sub_trans (by decide) hp | (intro _) | with_reducible apply only_ite
                | extract_lets | with_reducible apply setFrer_only | with_reducible apply frerClean_only | split
                | (refine only_mk _ ?_ (by intro p hq; cases p <;> first | exact absurd (hp _ (by decide)) hq | exact rfl)) | dsimp only

theorem unread_only {ps : List Part} {u0 : State} (hp : ∀ p ∈ ([.sw] : List Part), p ∈ ps) (p : Nat) (o : Option (Nat × Nat)) (s : State) 
    (hk : Only ps u0 s) :
    Only ps u0 (unread p o s) := by
  unfold unread
  repeat' first | with_reducible assumption | with_reducible exact sub_trans (by decide) hp | (intro _) | with_reducible apply only_ite
                | extract_lets | with_reducible apply frerRead_only | split
                | (refine only_mk _ ?_ (by intro p hq; cases p <;> first | exact absurd (hp _ (by decide)) hq | exact rfl)) | dsimp only

theorem dropQueued_only {ps : List Part} {u0 : State}
    (hp : ∀ p ∈ ([.out, .freeIdx, .host, .causes, .stats, .log, .time, .sw, .tx, .red] : List Part), p ∈ ps) (p : Nat) (q : QFrame) (s : State) 
    (hk : Only ps u0 s) :
    Only ps u0 (dropQueued p q s) := by
  unfold dropQueued
  repeat' first | with_reducible assumption | with_reducible exact sub_trans (by decide) hp | (intro _) | extract_lets
                | with_reducible apply unread_only | with_reducible apply failTxTs_only | with_reducible apply settleUids_only | dsimp only

theorem dropPort_only {ps : List Part} {u0 : State}
    (hp : ∀ p ∈ ([.out, .freeIdx, .host, .causes, .stats, .log, .time, .sw, .tx, .red] : List Part), p ∈ ps) (p : Nat) (stat : Nat) (s : State) 
    (hk : Only ps u0 s) :
    Only ps u0 (dropPort p stat s) := by
  unfold dropPort
  repeat' first | with_reducible assumption | with_reducible exact sub_trans (by decide) hp | (intro _) | extract_lets
                | with_reducible apply dropQueued_only | with_reducible apply count_only | with_reducible apply setQueue_only
                | with_reducible apply only_foldl | dsimp only

theorem sendBackbone_only {ps : List Part} {u0 : State} (hp : ∀ p ∈ ([.out, .host, .causes, .stats, .sw] : List Part), p ∈ ps) (c : Nat)
    (mk : Nat → Frame) (s : State)  (hk : Only ps u0 s) :
    Only ps u0 (sendBackbone c mk s) := by
  unfold sendBackbone
  repeat' first | with_reducible assumption | with_reducible exact sub_trans (by decide) hp | (intro _) | with_reducible apply only_ite
                | extract_lets | with_reducible apply sendFrame_only | with_reducible apply only_foldl | split | dsimp only

end Sys2Proof.Machine
end

