-- ==== Sys2Proof/Laws/OnlyTimeOps.lean ====
section
/-! SUPPORT. The parts of the state that every operation of Machine/TimeOps.lean may change, said once for each: all others are left alone (Only of
Safety.lean). -/
set_option Elab.async false
set_option linter.all false
namespace Sys2Proof.Machine
theorem setDomain_only {ps : List Part} {u0 : State} (hp : ∀ p ∈ ([.time] : List Part), p ∈ ps) (i : Nat) (f : Domain → Domain) (s : State) 
    (hk : Only ps u0 s) :
    Only ps u0 (setDomain i f s) := by
  unfold setDomain
  repeat' first | with_reducible assumption | (intro _) | extract_lets
                | (refine only_mk _ ?_ (by intro p hq; cases p <;> first | exact absurd (hp _ (by decide)) hq | exact rfl)) | dsimp only

theorem lengthen_only {ps : List Part} {u0 : State} (hp : ∀ p ∈ ([.ctl] : List Part), p ∈ ps) (step : Int) (s : State)  (hk : Only ps u0 s) :
    Only ps u0 (lengthen step s) := by
  unfold lengthen
  repeat' first | with_reducible assumption | (intro _) | with_reducible apply only_ite | extract_lets | split
                | (refine only_mk _ ?_ (by intro p hq; cases p <;> first | exact absurd (hp _ (by decide)) hq | exact rfl)) | dsimp only

theorem applyChange_only {ps : List Part} {u0 : State} (hp : ∀ p ∈ ([.time, .sw, .ctl] : List Part), p ∈ ps) (c : TimeChange) (s : State) 
    (hk : Only ps u0 s) :
    Only ps u0 (applyChange c s) := by
  unfold applyChange
  repeat' first | with_reducible assumption | with_reducible exact sub_trans (by decide) hp | (intro _) | with_reducible apply only_ite
                | extract_lets | with_reducible apply lengthen_only | split
                | (refine only_mk _ ?_ (by intro p hq; cases p <;> first | exact absurd (hp _ (by decide)) hq | exact rfl)) | dsimp only

theorem changeTime_only {ps : List Part} {u0 : State} (hp : ∀ p ∈ ([.out, .host, .causes, .stats, .time, .sw, .ctl, .red] : List Part), p ∈ ps)
    (i : Nat) (g : TimeChange → TimeChange) (s : State)  (hk : Only ps u0 s) :
    Only ps u0 (changeTime i g s) := by
  unfold changeTime
  repeat' first | with_reducible assumption | with_reducible exact sub_trans (by decide) hp | (intro _) | with_reducible apply only_ite
                | extract_lets | with_reducible apply applyChange_only | with_reducible apply tugAll_only | split
                | (refine only_mk _ ?_ (by intro p hq; cases p <;> first | exact absurd (hp _ (by decide)) hq | exact rfl)) | dsimp only

theorem servo_only {ps : List Part} {u0 : State} (hp : ∀ p ∈ ([.out, .freeIdx, .host, .causes, .stats, .time, .sw, .ctl, .red] : List Part), p ∈ ps)
    (i : Nat) (s : State)  (hk : Only ps u0 s) :
    Only ps u0 (servo i s) := by
  unfold servo
  repeat' first | with_reducible assumption | with_reducible exact sub_trans (by decide) hp | (intro _) | extract_lets
                | with_reducible apply useFree_only | with_reducible apply changeTime_only
                | (refine only_mk _ ?_ (by intro p hq; cases p <;> first | exact absurd (hp _ (by decide)) hq | exact rfl)) | dsimp only

theorem setDomSt_only {ps : List Part} {u0 : State} (hp : ∀ p ∈ ([.out, .host, .causes, .stats, .time] : List Part), p ∈ ps) (i : Nat) (n : DomState)
    (s : State)  (hk : Only ps u0 s) :
    Only ps u0 (setDomSt i n s) := by
  unfold setDomSt
  repeat' first | with_reducible assumption | with_reducible exact sub_trans (by decide) hp | (intro _) | with_reducible apply only_ite
                | extract_lets | apply h_n | with_reducible apply setDomain_only | with_reducible apply raise_only | split
                | (refine only_mk _ ?_ (by intro p hq; cases p <;> first | exact absurd (hp _ (by decide)) hq | exact rfl)) | dsimp only

theorem switchSaid_only {ps : List Part} {u0 : State} (hp : ∀ p ∈ ([.out, .freeIdx, .host, .causes, .stats, .log, .sw, .red] : List Part), p ∈ ps)
    (i : Nat) (cause : Nat) (res : Int) (s : State)  (hk : Only ps u0 s) :
    Only ps u0 (switchSaid i cause res s) := by
  unfold switchSaid
  repeat' first | with_reducible assumption | with_reducible exact sub_trans (by decide) hp | (intro _) | extract_lets
                | with_reducible apply raise_only | with_reducible apply logEvent_only | dsimp only

theorem selectSlewed_only {ps : List Part} {u0 : State}
    (hp : ∀ p ∈ ([.out, .freeIdx, .host, .causes, .stats, .log, .time, .sw, .ctl, .red] : List Part), p ∈ ps) (i : Nat) (cause : Nat) (s : State) 
    (hk : Only ps u0 s) :
    Only ps u0 (selectSlewed i cause s) := by
  unfold selectSlewed
  repeat' first | with_reducible assumption | with_reducible exact sub_trans (by decide) hp | (intro _) | extract_lets
                | with_reducible apply switchSaid_only | with_reducible apply changeTime_only
                | (refine only_mk _ ?_ (by intro p hq; cases p <;> first | exact absurd (hp _ (by decide)) hq | exact rfl)) | dsimp only

theorem trySwitch_only {ps : List Part} {u0 : State}
    (hp : ∀ p ∈ ([.out, .freeIdx, .host, .causes, .stats, .log, .time, .sw, .ctl, .red] : List Part), p ∈ ps) (cause : Nat) (s : State) 
    (hk : Only ps u0 s) :
    Only ps u0 (trySwitch cause s) := by
  unfold trySwitch
  repeat' first | with_reducible assumption | with_reducible exact sub_trans (by decide) hp | (intro _) | with_reducible apply only_ite
                | extract_lets | with_reducible apply raise_only | with_reducible apply logEvent_only | with_reducible apply setDomain_only
                | with_reducible apply selectSlewed_only | split
                | (refine only_mk _ ?_ (by intro p hq; cases p <;> first | exact absurd (hp _ (by decide)) hq | exact rfl)) | dsimp only

theorem stepDomain_only {ps : List Part} {u0 : State}
    (hp : ∀ p ∈ ([.out, .freeIdx, .host, .causes, .stats, .log, .time, .sw, .ctl, .red] : List Part), p ∈ ps) (i : Nat) (step : Int) (log : Bool)
    (s : State)  (hk : Only ps u0 s) :
    Only ps u0 (stepDomain i step log s) := by
  unfold stepDomain
  repeat' first | with_reducible assumption | with_reducible exact sub_trans (by decide) hp | (intro _) | with_reducible apply only_ite
                | extract_lets | with_reducible apply changeTime_only | with_reducible apply setDomain_only | with_reducible apply count_only
                | with_reducible apply logEvent_only | with_reducible apply raise_only | split
                | (refine only_mk _ ?_ (by intro p hq; cases p <;> first | exact absurd (hp _ (by decide)) hq | exact rfl)) | dsimp only

theorem acceptStep_only {ps : List Part} {u0 : State}
    (hp : ∀ p ∈ ([.out, .freeIdx, .host, .causes, .stats, .log, .time, .sw, .ctl, .red] : List Part), p ∈ ps) (i : Nat) (step : Int) (s : State) 
    (hk : Only ps u0 s) :
    Only ps u0 (acceptStep i step s) := by
  unfold acceptStep
  repeat' first | with_reducible assumption | with_reducible exact sub_trans (by decide) hp | (intro _) | with_reducible apply only_ite
                | extract_lets | with_reducible apply setDomSt_only | with_reducible apply logEvent_only | with_reducible apply stepDomain_only
                | split | (refine only_mk _ ?_ (by intro p hq; cases p <;> first | exact absurd (hp _ (by decide)) hq | exact rfl)) | dsimp only

theorem applyDueStep_only {ps : List Part} {u0 : State}
    (hp : ∀ p ∈ ([.out, .freeIdx, .host, .causes, .stats, .log, .time, .sw, .ctl, .red] : List Part), p ∈ ps) (s : State)  (hk : Only ps u0 s) :
    Only ps u0 (applyDueStep s) := by
  unfold applyDueStep
  repeat' first | with_reducible assumption | with_reducible exact sub_trans (by decide) hp | (intro _) | with_reducible apply only_ite
                | extract_lets | with_reducible apply acceptStep_only | split
                | (refine only_mk _ ?_ (by intro p hq; cases p <;> first | exact absurd (hp _ (by decide)) hq | exact rfl)) | dsimp only

theorem gmChange_only {ps : List Part} {u0 : State}
    (hp : ∀ p ∈ ([.out, .freeIdx, .host, .causes, .stats, .log, .time, .sw, .red] : List Part), p ∈ ps) (i : Nat) (gm : Nid) (s : State) 
    (hk : Only ps u0 s) :
    Only ps u0 (gmChange i gm s) := by
  unfold gmChange
  repeat' first | with_reducible assumption | with_reducible exact sub_trans (by decide) hp | (intro _) | with_reducible apply only_ite
                | extract_lets | with_reducible apply setDomain_only | with_reducible apply raise_only | with_reducible apply logEvent_only | split
                | (refine only_mk _ ?_ (by intro p hq; cases p <;> first | exact absurd (hp _ (by decide)) hq | exact rfl)) | dsimp only

theorem startDomains_only {ps : List Part} {u0 : State} (hp : ∀ p ∈ ([.freeIdx, .sec, .time] : List Part), p ∈ ps) (s0 : State) 
    (hk : Only ps u0 s0) :
    Only ps u0 (startDomains s0) := by
  unfold startDomains
  repeat' first | with_reducible assumption | with_reducible exact sub_trans (by decide) hp | (intro _) | with_reducible apply only_ite
                | extract_lets | with_reducible apply useFree_only | split
                | (refine only_mk _ ?_ (by intro p hq; cases p <;> first | exact absurd (hp _ (by decide)) hq | exact rfl)) | dsimp only

theorem stopGptp_only {ps : List Part} {u0 : State} (hp : ∀ p ∈ ([.out, .host, .causes, .stats, .time] : List Part), p ∈ ps) (s : State) 
    (hk : Only ps u0 s) :
    Only ps u0 (stopGptp s) := by
  unfold stopGptp
  repeat' first | with_reducible assumption | with_reducible exact sub_trans (by decide) hp | (intro _) | with_reducible apply only_ite
                | extract_lets | with_reducible apply setDomSt_only | with_reducible apply setDomain_only | with_reducible apply count_only
                | with_reducible apply only_foldl | split
                | (refine only_mk _ ?_ (by intro p hq; cases p <;> first | exact absurd (hp _ (by decide)) hq | exact rfl)) | dsimp only

theorem setTLink_only {ps : List Part} {u0 : State} (hp : ∀ p ∈ ([.time] : List Part), p ∈ ps) (p : Nat) (f : TLink → TLink) (s : State) 
    (hk : Only ps u0 s) :
    Only ps u0 (setTLink p f s) := by
  unfold setTLink
  repeat' first | with_reducible assumption | (intro _) | extract_lets
                | (refine only_mk _ ?_ (by intro p hq; cases p <;> first | exact absurd (hp _ (by decide)) hq | exact rfl)) | dsimp only

theorem restartLinks_only {ps : List Part} {u0 : State} (hp : ∀ p ∈ ([.time] : List Part), p ∈ ps) (s : State)  (hk : Only ps u0 s) :
    Only ps u0 (restartLinks s) := by
  unfold restartLinks
  repeat' first | with_reducible assumption | (intro _) | extract_lets
                | (refine only_mk _ ?_ (by intro p hq; cases p <;> first | exact absurd (hp _ (by decide)) hq | exact rfl)) | dsimp only

theorem calibrate_only {ps : List Part} {u0 : State}
    (hp : ∀ p ∈ ([.out, .freeIdx, .host, .causes, .stats, .log, .time, .sw, .red] : List Part), p ∈ ps) (d : Nat) (s : State)  (hk : Only ps u0 s) :
    Only ps u0 (calibrate d s) := by
  unfold calibrate
  repeat' first | with_reducible assumption | with_reducible exact sub_trans (by decide) hp | (intro _) | with_reducible apply only_ite
                | extract_lets | with_reducible apply setTLink_only | with_reducible apply raise_only | with_reducible apply logEvent_only | split
                | (refine only_mk _ ?_ (by intro p hq; cases p <;> first | exact absurd (hp _ (by decide)) hq | exact rfl)) | dsimp only

theorem linkExchange_only {ps : List Part} {u0 : State}
    (hp : ∀ p ∈ ([.out, .freeIdx, .host, .causes, .stats, .log, .time, .sw, .red] : List Part), p ∈ ps) (p : Nat) (nb : Nid) (t1 : Nat) (t2 : Nat)
    (t3 : Nat) (t4 : Nat) (s : State)  (hk : Only ps u0 s) :
    Only ps u0 (linkExchange p nb t1 t2 t3 t4 s) := by
  unfold linkExchange
  repeat' first | with_reducible assumption | with_reducible exact sub_trans (by decide) hp | (intro _) | with_reducible apply only_ite
                | extract_lets | with_reducible apply calibrate_only | with_reducible apply setTLink_only | split
                | (refine only_mk _ ?_ (by intro p hq; cases p <;> first | exact absurd (hp _ (by decide)) hq | exact rfl)) | dsimp only

theorem uncalibrated_only {ps : List Part} {u0 : State}
    (hp : ∀ p ∈ ([.out, .freeIdx, .host, .causes, .stats, .log, .time, .sw, .red] : List Part), p ∈ ps) (s : State)  (hk : Only ps u0 s) :
    Only ps u0 (uncalibrated s) := by
  unfold uncalibrated
  repeat' first | with_reducible assumption | with_reducible exact sub_trans (by decide) hp | (intro _) | with_reducible apply only_ite
                | extract_lets | with_reducible apply logEvent_only | with_reducible apply setTLink_only | with_reducible apply only_foldl | split
                | (refine only_mk _ ?_ (by intro p hq; cases p <;> first | exact absurd (hp _ (by decide)) hq | exact rfl)) | dsimp only

theorem moveCorrections_only {ps : List Part} {u0 : State} (hp : ∀ p ∈ ([.time] : List Part), p ∈ ps) (s : State)  (hk : Only ps u0 s) :
    Only ps u0 (moveCorrections s) := by
  unfold moveCorrections
  repeat' first | with_reducible assumption | (intro _) | with_reducible apply only_ite | extract_lets | split
                | (refine only_mk _ ?_ (by intro p hq; cases p <;> first | exact absurd (hp _ (by decide)) hq | exact rfl)) | dsimp only

end Sys2Proof.Machine
end

