-- ==== Sys2Proof/Laws/OnlyHitchOps.lean ====
section
/-! SUPPORT. The parts of the state that every operation of Machine/HitchOps.lean may change, said once for each: all others are left alone (Only of
Safety.lean). -/
set_option Elab.async false
set_option linter.all false
namespace Sys2Proof.Machine
theorem setVec_only {ps : List Part} {u0 : State} (hp : ∀ p ∈ ([.hitch] : List Part), p ∈ ps) (d : Nat) (v : HVec) (s : State)  (hk : Only ps u0 s) :
    Only ps u0 (setVec d v s) := by
  unfold setVec
  repeat' first | with_reducible assumption | (intro _) | with_reducible apply only_ite | extract_lets | split
                | (refine only_mk _ ?_ (by intro p hq; cases p <;> first | exact absurd (hp _ (by decide)) hq | exact rfl)) | dsimp only

theorem sendHitch_only {ps : List Part} {u0 : State} (hp : ∀ p ∈ ([.out, .host, .causes, .stats, .hitch, .sw] : List Part), p ∈ ps) (typ : Nat)
    (p : Nat) (s : State)  (hk : Only ps u0 s) :
    Only ps u0 (sendHitch typ p s) := by
  unfold sendHitch
  repeat' first | with_reducible assumption | with_reducible exact sub_trans (by decide) hp | (intro _) | with_reducible apply only_ite
                | extract_lets | with_reducible apply sendFrame_only | with_reducible apply setHPort_only | split
                | (refine only_mk _ ?_ (by intro p hq; cases p <;> first | exact absurd (hp _ (by decide)) hq | exact rfl)) | dsimp only

theorem sendChanges_only {ps : List Part} {u0 : State} (hp : ∀ p ∈ ([.out, .host, .causes, .stats, .hitch, .sw] : List Part), p ∈ ps) (s : State) 
    (hk : Only ps u0 s) :
    Only ps u0 (sendChanges s) := by
  unfold sendChanges
  repeat' first | with_reducible assumption | with_reducible exact sub_trans (by decide) hp | (intro _) | with_reducible apply only_ite
                | extract_lets | with_reducible apply sendHitch_only | with_reducible apply only_foldl | split | dsimp only

theorem settleLines_only {ps : List Part} {u0 : State}
    (hp : ∀ p ∈ ([.out, .freeIdx, .node, .pwr, .host, .causes, .stats, .log, .time, .sw, .red] : List Part), p ∈ ps) (s : State) 
    (hk : Only ps u0 s) :
    Only ps u0 (settleLines s) := by
  unfold settleLines
  repeat' first | with_reducible assumption | with_reducible exact sub_trans (by decide) hp | (intro _) | with_reducible apply only_ite
                | extract_lets | with_reducible apply setResource_only | with_reducible apply drivePin_only | with_reducible apply only_foldl
                | split | dsimp only

theorem setFault_only {ps : List Part} {u0 : State}
    (hp : ∀ p ∈ ([.out, .freeIdx, .node, .pwr, .host, .causes, .stats, .log, .hitch, .time, .sw, .red] : List Part), p ∈ ps) (p : Nat) (on : Bool)
    (nid : Nid) (s : State)  (hk : Only ps u0 s) :
    Only ps u0 (setFault p on nid s) := by
  unfold setFault
  repeat' first | with_reducible assumption | with_reducible exact sub_trans (by decide) hp | (intro _) | with_reducible apply only_ite
                | extract_lets | with_reducible apply settleLines_only | with_reducible apply raise_only | with_reducible apply logEvent_only
                | with_reducible apply setHPort_only | split
                | (refine only_mk _ ?_ (by intro p hq; cases p <;> first | exact absurd (hp _ (by decide)) hq | exact rfl)) | dsimp only

theorem logCouples_only {ps : List Part} {u0 : State}
    (hp : ∀ p ∈ ([.out, .freeIdx, .host, .causes, .stats, .log, .hitch, .sw, .red] : List Part), p ∈ ps) (s : State)  (hk : Only ps u0 s) :
    Only ps u0 (logCouples s) := by
  unfold logCouples
  repeat' first | with_reducible assumption | with_reducible exact sub_trans (by decide) hp | (intro _) | with_reducible apply only_ite
                | extract_lets | with_reducible apply logEvent_only | split
                | (refine only_mk _ ?_ (by intro p hq; cases p <;> first | exact absurd (hp _ (by decide)) hq | exact rfl)) | dsimp only

theorem startRound_only {ps : List Part} {u0 : State}
    (hp : ∀ p ∈ ([.out, .freeIdx, .host, .mem, .causes, .stats, .log, .hitch, .time, .sw, .ctl, .red] : List Part), p ∈ ps) (cause : Nat) (p : Nat)
    (nid : Nid) (s : State)  (hk : Only ps u0 s) :
    Only ps u0 (startRound cause p nid s) := by
  unfold startRound
  repeat' first | with_reducible assumption | with_reducible exact sub_trans (by decide) hp | (intro _) | with_reducible apply only_ite
                | extract_lets | with_reducible apply logCouples_only | with_reducible apply raise_only | with_reducible apply logEvent_only
                | with_reducible apply restartLinks_only | split
                | (refine only_mk _ ?_ (by intro p hq; cases p <;> first | exact absurd (hp _ (by decide)) hq | exact rfl)) | dsimp only

theorem markAbsent_only {ps : List Part} {u0 : State} (hp : ∀ p ∈ ([.hitch] : List Part), p ∈ ps) (d : Nat) (s : State)  (hk : Only ps u0 s) :
    Only ps u0 (markAbsent d s) := by
  unfold markAbsent
  repeat' first | with_reducible assumption | (intro _) | with_reducible apply only_ite | extract_lets | split
                | (refine only_mk _ ?_ (by intro p hq; cases p <;> first | exact absurd (hp _ (by decide)) hq | exact rfl)) | dsimp only

theorem evalInhibit_only {ps : List Part} {u0 : State}
    (hp : ∀ p ∈ ([.out, .freeIdx, .host, .mem, .causes, .stats, .log, .hitch, .time, .sw, .ctl, .red, .leg] : List Part), p ∈ ps) (s : State) 
    (hk : Only ps u0 s) :
    Only ps u0 (evalInhibit s) := by
  unfold evalInhibit
  repeat' first | with_reducible assumption | with_reducible exact sub_trans (by decide) hp | (intro _) | with_reducible apply only_ite
                | extract_lets | with_reducible apply wtbInhibit_only | with_reducible apply raise_only | with_reducible apply logEvent_only
                | with_reducible apply startRound_only | split
                | (refine only_mk _ ?_ (by intro p hq; cases p <;> first | exact absurd (hp _ (by decide)) hq | exact rfl)) | dsimp only

theorem uncouple_only {ps : List Part} {u0 : State}
    (hp : ∀ p ∈ ([.out, .freeIdx, .host, .mem, .causes, .stats, .log, .hitch, .time, .sw, .ctl, .red] : List Part), p ∈ ps) (cause : Nat) (d : Nat)
    (p : Nat) (nid : Nid) (s : State)  (hk : Only ps u0 s) :
    Only ps u0 (uncouple cause d p nid s) := by
  unfold uncouple
  repeat' first | with_reducible assumption | with_reducible exact sub_trans (by decide) hp | (intro _) | with_reducible apply only_ite
                | extract_lets | with_reducible apply raise_only | with_reducible apply logEvent_only | with_reducible apply markAbsent_only
                | with_reducible apply startRound_only | split
                | (refine only_mk _ ?_ (by intro p hq; cases p <;> first | exact absurd (hp _ (by decide)) hq | exact rfl)) | dsimp only

theorem setSettle_only {ps : List Part} {u0 : State} (hp : ∀ p ∈ ([.hitch] : List Part), p ∈ ps) (d : Nat) (on : Bool) (c : Option Nat) (s : State) 
    (hk : Only ps u0 s) :
    Only ps u0 (setSettle d on c s) := by
  unfold setSettle
  repeat' first | with_reducible assumption | (intro _) | with_reducible apply only_ite | extract_lets | split
                | (refine only_mk _ ?_ (by intro p hq; cases p <;> first | exact absurd (hp _ (by decide)) hq | exact rfl)) | dsimp only

theorem loseNeighbour_only {ps : List Part} {u0 : State}
    (hp : ∀ p ∈ ([.out, .freeIdx, .node, .pwr, .host, .mem, .causes, .stats, .log, .hitch, .time, .sw, .ctl, .red] : List Part), p ∈ ps) (p : Nat)
    (s : State)  (hk : Only ps u0 s) :
    Only ps u0 (loseNeighbour p s) := by
  unfold loseNeighbour
  repeat' first | with_reducible assumption | with_reducible exact sub_trans (by decide) hp | (intro _) | with_reducible apply only_ite
                | extract_lets | with_reducible apply setHPort_only | with_reducible apply setFault_only | with_reducible apply settleLines_only
                | with_reducible apply setSettle_only | with_reducible apply setVec_only | with_reducible apply raise_only
                | with_reducible apply logEvent_only | with_reducible apply uncouple_only | split
                | (refine only_mk _ ?_ (by intro p hq; cases p <;> first | exact absurd (hp _ (by decide)) hq | exact rfl)) | dsimp only

theorem rejoin_only {ps : List Part} {u0 : State} (hp : ∀ p ∈ ([.hitch] : List Part), p ∈ ps) (d : Nat) (s : State)  (hk : Only ps u0 s) :
    Only ps u0 (rejoin d s) := by
  unfold rejoin
  repeat' first | with_reducible assumption | with_reducible exact sub_trans (by decide) hp | (intro _) | extract_lets
                | with_reducible apply markAbsent_only | dsimp only

theorem gainNeighbour_only {ps : List Part} {u0 : State}
    (hp : ∀ p ∈ ([.out, .freeIdx, .node, .pwr, .host, .mem, .causes, .stats, .log, .hitch, .time, .sw, .tx, .ctl, .red] : List Part), p ∈ ps)
    (p : Nat) (r : HRec) (s : State)  (hk : Only ps u0 s) :
    Only ps u0 (gainNeighbour p r s) := by
  unfold gainNeighbour
  repeat' first | with_reducible assumption | with_reducible exact sub_trans (by decide) hp | (intro _) | with_reducible apply only_ite
                | extract_lets | with_reducible apply setHPort_only | with_reducible apply setSettle_only | with_reducible apply setFault_only
                | with_reducible apply rejoin_only | with_reducible apply raise_only | with_reducible apply logEvent_only
                | with_reducible apply startRound_only | with_reducible apply logCouples_only | split
                | (refine only_mk _ ?_ (by intro p hq; cases p <;> first | exact absurd (hp _ (by decide)) hq | exact rfl)) | dsimp only

theorem tryCommit_only {ps : List Part} {u0 : State}
    (hp : ∀ p ∈ ([.out, .host, .mem, .causes, .stats, .log, .hitch, .ctl, .red] : List Part), p ∈ ps) (s : State)  (hk : Only ps u0 s) :
    Only ps u0 (tryCommit s) := by
  unfold tryCommit
  repeat' first | with_reducible assumption | (intro _) | with_reducible apply only_ite | extract_lets | split
                | (refine only_mk _ ?_ (by intro p hq; cases p <;> first | exact absurd (hp _ (by decide)) hq | exact rfl)) | dsimp only

theorem modeSaid_only {ps : List Part} {u0 : State} (hp : ∀ p ∈ ([.out, .freeIdx, .host, .causes, .stats, .log, .sw, .red] : List Part), p ∈ ps)
    (mode : Nat) (p : Nat) (s : State)  (hk : Only ps u0 s) :
    Only ps u0 (modeSaid mode p s) := by
  unfold modeSaid
  repeat' first | with_reducible assumption | with_reducible exact sub_trans (by decide) hp | (intro _) | extract_lets
                | with_reducible apply raise_only | with_reducible apply logEvent_only | dsimp only

theorem enterTtdp_only {ps : List Part} {u0 : State}
    (hp : ∀ p ∈ ([.out, .freeIdx, .host, .causes, .stats, .log, .hitch, .sw, .red] : List Part), p ∈ ps) (p : Nat) (s : State)  (hk : Only ps u0 s) :
    Only ps u0 (enterTtdp p s) := by
  unfold enterTtdp
  repeat' first | with_reducible assumption | with_reducible exact sub_trans (by decide) hp | (intro _) | with_reducible apply only_ite
                | extract_lets | with_reducible apply modeSaid_only | split
                | (refine only_mk _ ?_ (by intro p hq; cases p <;> first | exact absurd (hp _ (by decide)) hq | exact rfl)) | dsimp only

theorem review_only {ps : List Part} {u0 : State}
    (hp : ∀ p ∈ ([.out, .freeIdx, .host, .mem, .causes, .stats, .log, .hitch, .time, .sw, .ctl, .red, .leg] : List Part), p ∈ ps) (d : Nat) (p : Nat)
    (nid : Nid) (s : State)  (hk : Only ps u0 s) :
    Only ps u0 (review d p nid s) := by
  unfold review
  repeat' first | with_reducible assumption | with_reducible exact sub_trans (by decide) hp | (intro _) | with_reducible apply only_ite
                | extract_lets | with_reducible apply tryCommit_only | with_reducible apply startRound_only | with_reducible apply modeSaid_only
                | with_reducible apply markAbsent_only | with_reducible apply enterTtdp_only | with_reducible apply evalInhibit_only | split
                | (refine only_mk _ ?_ (by intro p hq; cases p <;> first | exact absurd (hp _ (by decide)) hq | exact rfl)) | dsimp only

theorem finishHitchWaits_only {ps : List Part} {u0 : State} (hp : ∀ p ∈ ([.out, .host, .mem, .causes, .stats, .hitch, .red] : List Part), p ∈ ps)
    (p : HWait → Bool) (st : Nat) (pay : List Byte) (s : State)  (hk : Only ps u0 s) :
    Only ps u0 (finishHitchWaits p st pay s) := by
  unfold finishHitchWaits
  repeat' first | with_reducible assumption | with_reducible exact sub_trans (by decide) hp | (intro _) | extract_lets
                | with_reducible apply finish_only | with_reducible apply only_foldl
                | (refine only_mk _ ?_ (by intro p hq; cases p <;> first | exact absurd (hp _ (by decide)) hq | exact rfl)) | dsimp only

theorem refuse_only {ps : List Part} {u0 : State}
    (hp : ∀ p ∈ ([.out, .freeIdx, .host, .mem, .causes, .stats, .log, .hitch, .sw, .red] : List Part), p ∈ ps) (cause : Nat) (n : Nat) (s : State) 
    (hk : Only ps u0 s) :
    Only ps u0 (refuse cause n s) := by
  unfold refuse
  repeat' first | with_reducible assumption | with_reducible exact sub_trans (by decide) hp | (intro _) | extract_lets
                | with_reducible apply finishHitchWaits_only | with_reducible apply raise_only | with_reducible apply logEvent_only
                | (refine only_mk _ ?_ (by intro p hq; cases p <;> first | exact absurd (hp _ (by decide)) hq | exact rfl)) | dsimp only

theorem announceBypass_only {ps : List Part} {u0 : State}
    (hp : ∀ p ∈ ([.out, .freeIdx, .host, .causes, .stats, .log, .hitch, .sw, .red] : List Part), p ∈ ps) (s : State)  (hk : Only ps u0 s) :
    Only ps u0 (announceBypass s) := by
  unfold announceBypass
  repeat' first | with_reducible assumption | with_reducible exact sub_trans (by decide) hp | (intro _) | with_reducible apply only_ite
                | extract_lets | with_reducible apply sendChanges_only | with_reducible apply logEvent_only | split
                | (refine only_mk _ ?_ (by intro p hq; cases p <;> first | exact absurd (hp _ (by decide)) hq | exact rfl)) | dsimp only

theorem hitchStop_only {ps : List Part} {u0 : State} (hp : ∀ p ∈ ([.out, .host, .mem, .causes, .stats, .log, .hitch, .red] : List Part), p ∈ ps)
    (s : State)  (hk : Only ps u0 s) :
    Only ps u0 (hitchStop s) := by
  unfold hitchStop
  repeat' first | with_reducible assumption | with_reducible exact sub_trans (by decide) hp | (intro _) | extract_lets
                | with_reducible apply finishHitchWaits_only
                | (refine only_mk _ ?_ (by intro p hq; cases p <;> first | exact absurd (hp _ (by decide)) hq | exact rfl)) | dsimp only

theorem hitchStart_only {ps : List Part} {u0 : State} (hp : ∀ p ∈ ([.hitch, .macs] : List Part), p ∈ ps) (s : State)  (hk : Only ps u0 s) :
    Only ps u0 (hitchStart s) := by
  unfold hitchStart
  repeat' first | with_reducible assumption | with_reducible exact sub_trans (by decide) hp | (intro _) | with_reducible apply only_ite
                | extract_lets | with_reducible apply setMac_only | with_reducible apply only_foldl | split
                | (refine only_mk _ ?_ (by intro p hq; cases p <;> first | exact absurd (hp _ (by decide)) hq | exact rfl)) | dsimp only

theorem streamInhibit_only {ps : List Part} {u0 : State}
    (hp : ∀ p ∈ ([.out, .freeIdx, .host, .mem, .causes, .stats, .log, .hitch, .time, .sw, .ctl, .red, .leg] : List Part), p ∈ ps) (s : State) 
    (hk : Only ps u0 s) :
    Only ps u0 (streamInhibit s) := by
  unfold streamInhibit
  repeat' first | with_reducible assumption | with_reducible exact sub_trans (by decide) hp | (intro _) | with_reducible apply only_ite
                | extract_lets | with_reducible apply sendChanges_only | with_reducible apply evalInhibit_only | split
                | (refine only_mk _ ?_ (by intro p hq; cases p <;> first | exact absurd (hp _ (by decide)) hq | exact rfl)) | dsimp only

end Sys2Proof.Machine
end

