-- ==== Sys2Proof/Laws/OnlyForward.lean ====
section
/-! SUPPORT. The parts of the state that every operation of Machine/Forward.lean may change, said once for each: all others are left alone (Only of
Safety.lean). -/
set_option Elab.async false
set_option linter.all false
namespace Sys2Proof.Machine
theorem sendPeer_only {ps : List Part} {u0 : State} (hp : ∀ p ∈ ([.out, .host, .causes, .stats, .red] : List Part), p ∈ ps) (l : Line) (d : Nat)
    (handle : Nat) (f : Frame) (s : State)  (hk : Only ps u0 s) :
    Only ps u0 (sendPeer l d handle f s) := by
  unfold sendPeer
  repeat' first | with_reducible assumption | with_reducible exact sub_trans (by decide) hp | (intro _) | with_reducible apply only_ite
                | extract_lets | with_reducible apply sendSegments_only | split
                | (refine only_mk _ ?_ (by intro p hq; cases p <;> first | exact absurd (hp _ (by decide)) hq | exact rfl)) | dsimp only

end Sys2Proof.Machine
end

