-- ==== Sys2Proof/Laws/OnlyRxRing.lean ====
section
/-! SUPPORT. The parts of the state that every operation of Machine/RxRing.lean may change, said once for each: all others are left alone (Only of
Safety.lean). -/
set_option Elab.async false
set_option linter.all false
namespace Sys2Proof.Machine
theorem setRx_only {ps : List Part} {u0 : State} (hp : ∀ p ∈ ([.rx] : List Part), p ∈ ps) (n : Nat) (f : Ring → Ring) (s : State) 
    (hk : Only ps u0 s) :
    Only ps u0 (setRx n f s) := by
  unfold setRx
  repeat' first | with_reducible assumption | (intro _) | extract_lets
                | (refine only_mk _ ?_ (by intro p hq; cases p <;> first | exact absurd (hp _ (by decide)) hq | exact rfl)) | dsimp only

theorem setTx_only {ps : List Part} {u0 : State} (hp : ∀ p ∈ ([.tx] : List Part), p ∈ ps) (n : Nat) (f : Ring → Ring) (s : State) 
    (hk : Only ps u0 s) :
    Only ps u0 (setTx n f s) := by
  unfold setTx
  repeat' first | with_reducible assumption | (intro _) | extract_lets
                | (refine only_mk _ ?_ (by intro p hq; cases p <;> first | exact absurd (hp _ (by decide)) hq | exact rfl)) | dsimp only

theorem rxHoldDrop_only {ps : List Part} {u0 : State}
    (hp : ∀ p ∈ ([.out, .freeIdx, .host, .causes, .stats, .log, .sw, .rx, .red] : List Part), p ∈ ps) (n : Nat) (len : Nat) (s : State) 
    (hk : Only ps u0 s) :
    Only ps u0 (rxHoldDrop n len s) := by
  unfold rxHoldDrop
  repeat' first | with_reducible assumption | with_reducible exact sub_trans (by decide) hp | (intro _) | extract_lets
                | with_reducible apply logEvent_only | with_reducible apply setRx_only | with_reducible apply count_only
                | (refine only_mk _ ?_ (by intro p hq; cases p <;> first | exact absurd (hp _ (by decide)) hq | exact rfl)) | dsimp only

theorem rxOffer_only {ps : List Part} {u0 : State} (hp : ∀ p ∈ ([.out, .freeIdx, .host, .causes, .stats, .log, .sw, .rx, .red] : List Part), p ∈ ps)
    (n : Nat) (w : RxWait) (s : State)  (hk : Only ps u0 s) :
    Only ps u0 (rxOffer n w s).2 := by
  unfold rxOffer
  repeat' first | with_reducible assumption | with_reducible exact sub_trans (by decide) hp | (intro _) | with_reducible apply only_ite
                | extract_lets | with_reducible apply count_only | with_reducible apply rxHoldDrop_only | with_reducible apply setRx_only | split
                | (refine only_mk _ ?_ (by intro p hq; cases p <;> first | exact absurd (hp _ (by decide)) hq | exact rfl)) | dsimp only

theorem toInternal_only {ps : List Part} {u0 : State}
    (hp : ∀ p ∈ ([.out, .freeIdx, .host, .causes, .stats, .log, .sw, .rx, .red] : List Part), p ∈ ps) (w : RxWait) (s : State)  (hk : Only ps u0 s) :
    Only ps u0 (toInternal w s).2 := by
  unfold toInternal
  repeat' first | with_reducible assumption | with_reducible exact sub_trans (by decide) hp | (intro _) | with_reducible apply only_ite
                | extract_lets | with_reducible apply rxOffer_only | with_reducible apply count_only | split
                | (refine only_mk _ ?_ (by intro p hq; cases p <;> first | exact absurd (hp _ (by decide)) hq | exact rfl)) | dsimp only

end Sys2Proof.Machine
end

