-- ==== Sys2Proof/Laws/OnlyFrer.lean ====
section
/-! SUPPORT. The parts of the state that every operation of Machine/Frer.lean may change, said once for each: all others are left alone (Only of
Safety.lean). -/
set_option Elab.async false
set_option linter.all false
namespace Sys2Proof.Machine
theorem logParity_only {ps : List Part} {u0 : State} (hp : ∀ p ∈ ([.out, .freeIdx, .host, .causes, .stats, .log, .sw, .red] : List Part), p ∈ ps)
    (port : Nat) (cell : Nat) (handle : Option Nat) (lost : Bool) (s : State)  (hk : Only ps u0 s) :
    Only ps u0 (logParity port cell handle lost s) := by
  unfold logParity
  repeat' first | with_reducible assumption | with_reducible exact sub_trans (by decide) hp | (intro _) | with_reducible apply only_ite
                | extract_lets | with_reducible apply logEvent_only | split | dsimp only

theorem lostArmed_only {ps : List Part} {u0 : State} (hp : ∀ p ∈ ([.out, .freeIdx, .host, .causes, .stats, .log, .sw, .red] : List Part), p ∈ ps)
    (n : Nat) (gone : List Armed) (s : State)  (hk : Only ps u0 s) :
    Only ps u0 (lostArmed n gone s) := by
  unfold lostArmed
  repeat' first | with_reducible assumption | with_reducible exact sub_trans (by decide) hp | (intro _) | extract_lets
                | with_reducible apply logParity_only | with_reducible apply only_foldl | dsimp only

theorem toLocal_only {ps : List Part} {u0 : State} (hp : ∀ p ∈ ([.out, .freeIdx, .host, .causes, .stats, .log, .sw, .rx, .red] : List Part), p ∈ ps)
    (x : Fwd) (keepR : Bool) (tag : Option (Nat × Nat)) (p : Nat) (s : State)  (hk : Only ps u0 s) :
    Only ps u0 (toLocal x keepR tag p s).2 := by
  unfold toLocal
  repeat' first | with_reducible assumption | with_reducible exact sub_trans (by decide) hp | (intro _) | with_reducible apply only_ite
                | extract_lets | with_reducible apply toInternal_only | with_reducible apply enqueue_only | split
                | (refine only_mk _ ?_ (by intro p hq; cases p <;> first | exact absurd (hp _ (by decide)) hq | exact rfl)) | dsimp only

theorem toLocals_only {ps : List Part} {u0 : State} (hp : ∀ p ∈ ([.out, .freeIdx, .host, .causes, .stats, .log, .sw, .rx, .red] : List Part), p ∈ ps)
    (x : Fwd) (keepR : Bool) (tag : Option (Nat × Nat)) (ps9 : List Nat) (s : State)  (hk : Only ps u0 s) :
    Only ps u0 (toLocals x keepR tag ps9 s).2 := by
  unfold toLocals
  repeat' first | with_reducible assumption | with_reducible exact sub_trans (by decide) hp | (intro _) | with_reducible apply only_ite
                | extract_lets | with_reducible apply toLocal_only | with_reducible apply bumpUid_only | with_reducible apply only_foldl
                | with_reducible apply only_foldl2 | split | dsimp only

theorem frerPassOpen_only {ps : List Part} {u0 : State}
    (hp : ∀ p ∈ ([.out, .freeIdx, .host, .causes, .stats, .log, .sw, .rx, .red] : List Part), p ∈ ps) (n : Nat) (x : Fwd) (held : List HeldCopy)
    (s : State)  (hk : Only ps u0 s) :
    Only ps u0 (frerPassOpen n x held s) := by
  unfold frerPassOpen
  repeat' first | with_reducible assumption | with_reducible exact sub_trans (by decide) hp | (intro _) | with_reducible apply only_ite
                | extract_lets | with_reducible apply toLocals_only | with_reducible apply setFrer_only | split
                | (refine only_mk _ ?_ (by intro p hq; cases p <;> first | exact absurd (hp _ (by decide)) hq | exact rfl)) | dsimp only

theorem frerSettle_only {ps : List Part} {u0 : State} (hp : ∀ p ∈ ([.sw] : List Part), p ∈ ps) (n : Nat) (seq : Nat) (s : State) 
    (hk : Only ps u0 s) :
    Only ps u0 (frerSettle n seq s) := by
  unfold frerSettle
  repeat' first | with_reducible assumption | with_reducible exact sub_trans (by decide) hp | (intro _) | with_reducible apply only_ite
                | extract_lets | with_reducible apply frerClean_only | split | dsimp only

theorem frerPass_only {ps : List Part} {u0 : State} (hp : ∀ p ∈ ([.out, .freeIdx, .host, .causes, .stats, .log, .sw, .rx, .red] : List Part), p ∈ ps)
    (n : Nat) (x : Fwd) (held : List HeldCopy) (s : State)  (hk : Only ps u0 s) :
    Only ps u0 (frerPass n x held s) := by
  unfold frerPass
  repeat' first | with_reducible assumption | with_reducible exact sub_trans (by decide) hp | (intro _) | extract_lets
                | with_reducible apply frerSettle_only | with_reducible apply frerPassOpen_only | dsimp only

theorem frerHold_only {ps : List Part} {u0 : State} (hp : ∀ p ∈ ([.sw] : List Part), p ∈ ps) (n : Nat) (x : Fwd) (s : State)  (hk : Only ps u0 s) :
    Only ps u0 (frerHold n x s) := by
  unfold frerHold
  repeat' first | with_reducible assumption | with_reducible exact sub_trans (by decide) hp | (intro _) | with_reducible apply only_ite
                | extract_lets | with_reducible apply setFrer_only | split
                | (refine only_mk _ ?_ (by intro p hq; cases p <;> first | exact absurd (hp _ (by decide)) hq | exact rfl)) | dsimp only

theorem dropCopies_only {ps : List Part} {u0 : State} (hp : ∀ p ∈ ([.sw, .rx] : List Part), p ∈ ps) (n : Nat) (seq : Nat) (s : State) 
    (hk : Only ps u0 s) :
    Only ps u0 (dropCopies n seq s) := by
  unfold dropCopies
  repeat' first | with_reducible assumption | (intro _) | extract_lets
                | (refine only_mk _ ?_ (by intro p hq; cases p <;> first | exact absurd (hp _ (by decide)) hq | exact rfl)) | dsimp only

theorem frerParity_only {ps : List Part} {u0 : State}
    (hp : ∀ p ∈ ([.out, .freeIdx, .host, .causes, .stats, .log, .sw, .rx, .red] : List Part), p ∈ ps) (n : Nat) (seq : Nat) (port : Nat) (cell : Nat)
    (s : State)  (hk : Only ps u0 s) :
    Only ps u0 (frerParity n seq port cell s) := by
  unfold frerParity
  repeat' first | with_reducible assumption | with_reducible exact sub_trans (by decide) hp | (intro _) | with_reducible apply only_ite
                | extract_lets | with_reducible apply setFrer_only | with_reducible apply dropCopies_only | with_reducible apply frerPass_only
                | with_reducible apply logParity_only | with_reducible apply toLocals_only | split
                | (refine only_mk _ ?_ (by intro p hq; cases p <;> first | exact absurd (hp _ (by decide)) hq | exact rfl)) | dsimp only

theorem unitParity_only {ps : List Part} {u0 : State} (hp : ∀ p ∈ ([.out, .freeIdx, .host, .causes, .stats, .log, .sw, .red] : List Part), p ∈ ps)
    (x : Fwd) (err : Option Nat) (s : State)  (hk : Only ps u0 s) :
    Only ps u0 (unitParity x err s) := by
  unfold unitParity
  repeat' first | with_reducible assumption | with_reducible exact sub_trans (by decide) hp | (intro _) | with_reducible apply only_ite
                | extract_lets | with_reducible apply logParity_only | with_reducible apply count_only | with_reducible apply raise_only | split
                | (refine only_mk _ ?_ (by intro p hq; cases p <;> first | exact absurd (hp _ (by decide)) hq | exact rfl)) | dsimp only

theorem frerOffer_only {ps : List Part} {u0 : State}
    (hp : ∀ p ∈ ([.out, .freeIdx, .host, .causes, .stats, .log, .sw, .rx, .red] : List Part), p ∈ ps) (n : Nat) (x : Fwd) (err : Option Nat)
    (s : State)  (hk : Only ps u0 s) :
    Only ps u0 (frerOffer n x err s) := by
  unfold frerOffer
  try dsimp only
  repeat' first | with_reducible assumption | with_reducible exact sub_trans (by decide) hp | (intro _) | with_reducible exact Only.rfl
                | with_reducible apply only_ite | with_reducible apply only_ite_app | with_reducible apply only_id
                | with_reducible apply setFrer_only | with_reducible apply toLocals_only | with_reducible apply unitParity_only
                | with_reducible apply lostArmed_only | with_reducible apply frerHold_only | with_reducible apply logParity_only
                | with_reducible apply frerPassOpen_only | with_reducible apply frerParity_only | with_reducible apply count_only
                | with_reducible apply raise_only | with_reducible apply frerSettle_only | with_reducible apply only_foldl
                | with_reducible apply only_foldl2 | split
                | (refine only_mk _ ?_ (by intro p hq; cases p <;> first | exact absurd (hp _ (by decide)) hq | exact rfl)) | dsimp only

theorem execFrerHoldExpiry_only (ctx : Nat) (seq : Nat) (s : State) {s9 : State}
    (hk : execFrerHoldExpiry ctx seq s = .next s9) : Only [.sw] s s9 := by
  unfold execFrerHoldExpiry at hk
  cases hk
  repeat' first | with_reducible assumption | decide | (intro _) | with_reducible exact Only.rfl | with_reducible apply only_ite | extract_lets
                | with_reducible apply setFrer_only | split
                | (refine only_mk _ ?_ (by intro p hp; cases p <;> first | exact absurd (by decide) hp | exact rfl)) | dsimp only

theorem execFrerResetTimerExpiry_only (ctx : Nat) (s : State) {s9 : State}
    (hk : execFrerResetTimerExpiry ctx s = .next s9) : Only [.out, .freeIdx, .host, .causes, .stats, .log, .sw, .red] s s9 := by
  unfold execFrerResetTimerExpiry at hk
  cases hk
  repeat' first | with_reducible assumption | decide | (intro _) | with_reducible exact Only.rfl | with_reducible apply only_ite | extract_lets
                | with_reducible apply lostArmed_only | with_reducible apply setFrer_only | split
                | (refine only_mk _ ?_ (by intro p hp; cases p <;> first | exact absurd (by decide) hp | exact rfl)) | dsimp only

theorem latentLine_only {ps : List Part} {u0 : State} (hp : ∀ p ∈ ([.out, .freeIdx, .host, .causes, .stats, .log, .sw, .red] : List Part), p ∈ ps)
    (ctx : Nat) (l : Line) (was : Bool) (now_ : Bool) (s : State)  (hk : Only ps u0 s) :
    Only ps u0 (latentLine ctx l was now_ s) := by
  unfold latentLine
  repeat' first | with_reducible assumption | with_reducible exact sub_trans (by decide) hp | (intro _) | with_reducible apply only_ite
                | extract_lets | with_reducible apply raise_only | with_reducible apply logEvent_only | split | dsimp only

theorem execFrerLatentPeriodEnd_only (ctx : Nat) (s : State) {s9 : State}
    (hk : execFrerLatentPeriodEnd ctx s = .next s9) : Only [.out, .freeIdx, .host, .causes, .stats, .log, .sw, .red] s s9 := by
  unfold execFrerLatentPeriodEnd at hk
  cases hk
  repeat' first | with_reducible assumption | decide | (intro _) | with_reducible exact Only.rfl | with_reducible apply only_ite | extract_lets
                | with_reducible apply latentLine_only | with_reducible apply setFrer_only | split
                | (refine only_mk _ ?_ (by intro p hp; cases p <;> first | exact absurd (by decide) hp | exact rfl)) | dsimp only

end Sys2Proof.Machine
end

