-- ==== Sys2Proof/Laws/OnlySwitchOps.lean ====
section
/-! SUPPORT. The parts of the state that every operation of Machine/SwitchOps.lean may change, said once for each: all others are left alone (Only of
Safety.lean). -/
set_option Elab.async false
set_option linter.all false
namespace Sys2Proof.Machine
theorem setGate_only {ps : List Part} {u0 : State} (hp : ∀ p ∈ ([.sw] : List Part), p ∈ ps) (p : Nat) (f : Gate → Gate) (s : State) 
    (hk : Only ps u0 s) :
    Only ps u0 (setGate p f s) := by
  unfold setGate
  repeat' first | with_reducible assumption | (intro _) | extract_lets
                | (refine only_mk _ ?_ (by intro p hq; cases p <;> first | exact absurd (hp _ (by decide)) hq | exact rfl)) | dsimp only

theorem settleHeads_only {ps : List Part} {u0 : State}
    (hp : ∀ p ∈ ([.out, .freeIdx, .host, .causes, .stats, .log, .time, .sw, .tx, .red] : List Part), p ∈ ps) (p : Nat) (s : State) 
    (hk : Only ps u0 s) :
    Only ps u0 (settleHeads p s) := by
  unfold settleHeads
  repeat' first | with_reducible assumption | with_reducible exact sub_trans (by decide) hp | (intro _) | with_reducible apply only_ite
                | extract_lets | with_reducible apply raise_only | with_reducible apply count_only | with_reducible apply dropQueued_only
                | with_reducible apply setQueue_only | with_reducible apply only_foldl | split
                | (refine only_mk _ ?_ (by intro p hq; cases p <;> first | exact absurd (hp _ (by decide)) hq | exact rfl)) | dsimp only

theorem letIn_only {ps : List Part} {u0 : State}
    (hp : ∀ p ∈ ([.out, .freeIdx, .host, .causes, .stats, .log, .time, .sw, .tx, .red] : List Part), p ∈ ps) (p : Nat) (c : Nat) (q : QFrame)
    (s : State)  (hk : Only ps u0 s) :
    Only ps u0 (letIn p c q s) := by
  unfold letIn
  repeat' first | with_reducible assumption | with_reducible exact sub_trans (by decide) hp | (intro _) | extract_lets
                | with_reducible apply settleHeads_only | with_reducible apply enqueue_only | dsimp only

theorem sendPause_only {ps : List Part} {u0 : State} (hp : ∀ p ∈ ([.out, .host, .causes, .stats] : List Part), p ∈ ps) (p : Nat) (quanta : Nat)
    (s : State)  (hk : Only ps u0 s) :
    Only ps u0 (sendPause p quanta s) := by
  unfold sendPause
  repeat' first | with_reducible assumption | with_reducible exact sub_trans (by decide) hp | (intro _) | extract_lets
                | with_reducible apply emit_only | with_reducible apply count_only | with_reducible apply countN_only
                | (refine only_mk _ ?_ (by intro p hq; cases p <;> first | exact absurd (hp _ (by decide)) hq | exact rfl)) | dsimp only

theorem pauseCheck_only {ps : List Part} {u0 : State} (hp : ∀ p ∈ ([.out, .host, .causes, .stats, .macs] : List Part), p ∈ ps) (p : Nat) (s : State) 
    (hk : Only ps u0 s) :
    Only ps u0 (pauseCheck p s) := by
  unfold pauseCheck
  repeat' first | with_reducible assumption | with_reducible exact sub_trans (by decide) hp | (intro _) | with_reducible apply only_ite
                | extract_lets | with_reducible apply sendPause_only | with_reducible apply setMac_only | split
                | (refine only_mk _ ?_ (by intro p hq; cases p <;> first | exact absurd (hp _ (by decide)) hq | exact rfl)) | dsimp only

theorem sendEgress_only {ps : List Part} {u0 : State}
    (hp : ∀ p ∈ ([.out, .freeIdx, .host, .causes, .stats, .log, .time, .sw, .rx, .tx, .red] : List Part), p ∈ ps) (x : Fwd) (keepR : Bool)
    (e : Egress) (s : State)  (hk : Only ps u0 s) :
    Only ps u0 (sendEgress x keepR e s).2 := by
  unfold sendEgress
  repeat' first | with_reducible assumption | with_reducible exact sub_trans (by decide) hp | (intro _) | with_reducible apply only_ite
                | extract_lets | with_reducible apply sendPeer_only | with_reducible apply toLocal_only | with_reducible apply letIn_only | split
                | (refine only_mk _ ?_ (by intro p hq; cases p <;> first | exact absurd (hp _ (by decide)) hq | exact rfl)) | dsimp only

theorem sendAll_only {ps : List Part} {u0 : State}
    (hp : ∀ p ∈ ([.out, .freeIdx, .host, .causes, .stats, .log, .time, .sw, .rx, .tx, .red] : List Part), p ∈ ps) (x : Fwd) (keepR : Bool)
    (es : List Egress) (s : State)  (hk : Only ps u0 s) :
    Only ps u0 (sendAll x keepR es s).2 := by
  unfold sendAll
  repeat' first | with_reducible assumption | with_reducible exact sub_trans (by decide) hp | (intro _) | with_reducible apply only_ite
                | extract_lets | with_reducible apply sendEgress_only | with_reducible apply bumpUid_only | with_reducible apply only_foldl
                | with_reducible apply only_foldl2 | split | dsimp only

theorem countEgress_only {ps : List Part} {u0 : State} (hp : ∀ p ∈ ([.out, .host, .causes, .stats] : List Part), p ∈ ps) (p : Nat) (down : Nat)
    (any_ : Bool) (s : State)  (hk : Only ps u0 s) :
    Only ps u0 (countEgress p down any_ s) := by
  unfold countEgress
  repeat' first | with_reducible assumption | with_reducible exact sub_trans (by decide) hp | (intro _) | with_reducible apply only_ite
                | extract_lets | with_reducible apply count_only | with_reducible apply countN_only | split | dsimp only

theorem forwardPlain_only {ps : List Part} {u0 : State}
    (hp : ∀ p ∈ ([.out, .freeIdx, .host, .causes, .stats, .log, .time, .sw, .rx, .tx, .red] : List Part), p ∈ ps) (x : Fwd) (inLine : Option Line)
    (inDir : Option Nat) (s : State)  (hk : Only ps u0 s) :
    Only ps u0 (forwardPlain x inLine inDir s).2 := by
  unfold forwardPlain
  repeat' first | with_reducible assumption | with_reducible exact sub_trans (by decide) hp | (intro _) | extract_lets
                | with_reducible apply sendAll_only | with_reducible apply countEgress_only | dsimp only

theorem forwardReplicated_only {ps : List Part} {u0 : State}
    (hp : ∀ p ∈ ([.out, .freeIdx, .host, .causes, .stats, .log, .time, .sw, .rx, .tx, .red] : List Part), p ∈ ps) (x : Fwd) (err : Option Nat)
    (s : State)  (hk : Only ps u0 s) :
    Only ps u0 (forwardReplicated x err s) := by
  unfold forwardReplicated
  repeat' first | with_reducible assumption | with_reducible exact sub_trans (by decide) hp | (intro _) | with_reducible apply only_ite
                | extract_lets | with_reducible apply sendAll_only | with_reducible apply countEgress_only | with_reducible apply sendPeer_only
                | with_reducible apply unitParity_only | with_reducible apply frerOffer_only | split
                | (refine only_mk _ ?_ (by intro p hq; cases p <;> first | exact absurd (hp _ (by decide)) hq | exact rfl)) | dsimp only

theorem publishCopies_only {ps : List Part} {u0 : State}
    (hp : ∀ p ∈ ([.out, .freeIdx, .host, .causes, .stats, .log, .time, .sw, .rx, .tx, .red] : List Part), p ∈ ps) (x : Fwd) (stripLocal : Bool)
    (s : State)  (hk : Only ps u0 s) :
    Only ps u0 (publishCopies x stripLocal s).2 := by
  unfold publishCopies
  repeat' first | with_reducible assumption | with_reducible exact sub_trans (by decide) hp | (intro _) | with_reducible apply only_ite
                | extract_lets | with_reducible apply sendAll_only | with_reducible apply count_only | with_reducible apply only_foldl
                | with_reducible apply only_foldl2 | split
                | (refine only_mk _ ?_ (by intro p hq; cases p <;> first | exact absurd (hp _ (by decide)) hq | exact rfl)) | dsimp only

theorem setCtx_only {ps : List Part} {u0 : State} (hp : ∀ p ∈ ([.stream] : List Part), p ∈ ps) (n : Nat) (f : StreamCtx → StreamCtx) (s : State) 
    (hk : Only ps u0 s) :
    Only ps u0 (setCtx n f s) := by
  unfold setCtx
  repeat' first | with_reducible assumption | (intro _) | extract_lets
                | (refine only_mk _ ?_ (by intro p hq; cases p <;> first | exact absurd (hp _ (by decide)) hq | exact rfl)) | dsimp only

theorem bumpSeq_only {ps : List Part} {u0 : State} (hp : ∀ p ∈ ([.stream] : List Part), p ∈ ps) (n : Nat) (s : State)  (hk : Only ps u0 s) :
    Only ps u0 (bumpSeq n s) := by
  unfold bumpSeq
  repeat' first | with_reducible assumption | with_reducible exact sub_trans (by decide) hp | (intro _) | extract_lets
                | with_reducible apply setCtx_only
                | (refine only_mk _ ?_ (by intro p hq; cases p <;> first | exact absurd (hp _ (by decide)) hq | exact rfl)) | dsimp only

theorem forwardSplit_only {ps : List Part} {u0 : State}
    (hp : ∀ p ∈ ([.out, .freeIdx, .host, .causes, .stats, .log, .time, .sw, .rx, .tx, .stream, .red] : List Part), p ∈ ps) (x : Fwd) (ctx : Nat)
    (s : State)  (hk : Only ps u0 s) :
    Only ps u0 (forwardSplit x ctx s) := by
  unfold forwardSplit
  repeat' first | with_reducible assumption | with_reducible exact sub_trans (by decide) hp | (intro _) | extract_lets
                | with_reducible apply publishCopies_only | with_reducible apply bumpSeq_only
                | (refine only_mk _ ?_ (by intro p hq; cases p <;> first | exact absurd (hp _ (by decide)) hq | exact rfl)) | dsimp only

theorem learn_only {ps : List Part} {u0 : State} (hp : ∀ p ∈ ([.out, .freeIdx, .host, .causes, .stats, .log, .sw, .red] : List Part), p ∈ ps)
    (p : Nat) (vid : Nat) (f : Frame) (s : State)  (hk : Only ps u0 s) :
    Only ps u0 (learn p vid f s) := by
  unfold learn
  repeat' first | with_reducible assumption | with_reducible exact sub_trans (by decide) hp | (intro _) | with_reducible apply only_ite
                | extract_lets | with_reducible apply count_only | with_reducible apply raise_only | with_reducible apply logEvent_only | split
                | (refine only_mk _ ?_ (by intro p hq; cases p <;> first | exact absurd (hp _ (by decide)) hq | exact rfl)) | dsimp only

theorem unlearn_only {ps : List Part} {u0 : State} (hp : ∀ p ∈ ([.sw] : List Part), p ∈ ps) (p : FdbEntry → Bool) (s : State)  (hk : Only ps u0 s) :
    Only ps u0 (unlearn p s) := by
  unfold unlearn
  repeat' first | with_reducible assumption | (intro _) | with_reducible apply only_ite | extract_lets | split
                | (refine only_mk _ ?_ (by intro p hq; cases p <;> first | exact absurd (hp _ (by decide)) hq | exact rfl)) | dsimp only

theorem police_only {ps : List Part} {u0 : State} (hp : ∀ p ∈ ([.out, .freeIdx, .host, .causes, .stats, .log, .sw, .red] : List Part), p ∈ ps)
    (x : Fwd) (colour : Colour) (s : State)  (hk : Only ps u0 s) :
    Only ps u0 (police x colour s).2 := by
  unfold police
  repeat' first | with_reducible assumption | with_reducible exact sub_trans (by decide) hp | (intro _) | with_reducible apply only_ite
                | extract_lets | with_reducible apply count_only | with_reducible apply raise_only | with_reducible apply logEvent_only | split
                | (refine only_mk _ ?_ (by intro p hq; cases p <;> first | exact absurd (hp _ (by decide)) hq | exact rfl)) | dsimp only

theorem loadSwitch_only {ps : List Part} {u0 : State} (hp : ∀ p ∈ ([.sw, .macs] : List Part), p ∈ ps) (s : State)  (hk : Only ps u0 s) :
    Only ps u0 (loadSwitch s) := by
  unfold loadSwitch
  repeat' first | with_reducible assumption | (intro _) | with_reducible apply only_ite | extract_lets | with_reducible apply only_foldl
                | with_reducible apply only_foldl2 | split
                | (refine only_mk _ ?_ (by intro p hq; cases p <;> first | exact absurd (hp _ (by decide)) hq | exact rfl)) | dsimp only

end Sys2Proof.Machine
end

