-- ==== Sys2Proof/Laws/OnlyStreamOps.lean ====
section
/-! SUPPORT. The parts of the state that every operation of Machine/StreamOps.lean may change, said once for each: all others are left alone (Only of
Safety.lean). -/
set_option Elab.async false
set_option linter.all false
namespace Sys2Proof.Machine
theorem loadStreams_only {ps : List Part} {u0 : State} (hp : ∀ p ∈ ([.stream, .ctl] : List Part), p ∈ ps) (s : State)  (hk : Only ps u0 s) :
    Only ps u0 (loadStreams s) := by
  unfold loadStreams
  repeat' first | with_reducible assumption | (intro _) | extract_lets
                | (refine only_mk _ ?_ (by intro p hq; cases p <;> first | exact absurd (hp _ (by decide)) hq | exact rfl)) | dsimp only

theorem reactivateStreams_only {ps : List Part} {u0 : State} (hp : ∀ p ∈ ([.stream, .ctl] : List Part), p ∈ ps) (s : State)  (hk : Only ps u0 s) :
    Only ps u0 (reactivateStreams s) := by
  unfold reactivateStreams
  repeat' first | with_reducible assumption | (intro _) | extract_lets
                | (refine only_mk _ ?_ (by intro p hq; cases p <;> first | exact absurd (hp _ (by decide)) hq | exact rfl)) | dsimp only

theorem stopStreams_only {ps : List Part} {u0 : State} (hp : ∀ p ∈ ([.stream] : List Part), p ∈ ps) (s : State)  (hk : Only ps u0 s) :
    Only ps u0 (stopStreams s) := by
  unfold stopStreams
  repeat' first | with_reducible assumption | (intro _) | extract_lets
                | (refine only_mk _ ?_ (by intro p hq; cases p <;> first | exact absurd (hp _ (by decide)) hq | exact rfl)) | dsimp only

theorem staleGen_only {ps : List Part} {u0 : State}
    (hp : ∀ p ∈ ([.out, .freeIdx, .host, .causes, .stats, .log, .sw, .stream, .red] : List Part), p ∈ ps) (n : Nat) (k : Nat) (s : State) 
    (hk : Only ps u0 s) :
    Only ps u0 (staleGen n k s) := by
  unfold staleGen
  repeat' first | with_reducible assumption | with_reducible exact sub_trans (by decide) hp | (intro _) | with_reducible apply only_ite
                | extract_lets | with_reducible apply raise_only | with_reducible apply logEvent_only | with_reducible apply countN_only
                | with_reducible apply setCtx_only | split
                | (refine only_mk _ ?_ (by intro p hq; cases p <;> first | exact absurd (hp _ (by decide)) hq | exact rfl)) | dsimp only

theorem withdraw_only {ps : List Part} {u0 : State}
    (hp : ∀ p ∈ ([.out, .freeIdx, .host, .causes, .stats, .log, .sw, .stream, .red] : List Part), p ∈ ps) (n : Nat) (s : State) 
    (hk : Only ps u0 s) :
    Only ps u0 (withdraw n s) := by
  unfold withdraw
  repeat' first | with_reducible assumption | with_reducible exact sub_trans (by decide) hp | (intro _) | with_reducible apply only_ite
                | extract_lets | with_reducible apply staleGen_only | with_reducible apply setCtx_only | split
                | (refine only_mk _ ?_ (by intro p hq; cases p <;> first | exact absurd (hp _ (by decide)) hq | exact rfl)) | dsimp only

theorem rebindPublisher_only {ps : List Part} {u0 : State}
    (hp : ∀ p ∈ ([.out, .freeIdx, .host, .causes, .stats, .log, .sw, .stream, .ctl, .red] : List Part), p ∈ ps) (old : Hitch) (n : Nat)
    (c : StreamCtx) (s : State)  (hk : Only ps u0 s) :
    Only ps u0 (rebindPublisher old n c s) := by
  unfold rebindPublisher
  repeat' first | with_reducible assumption | with_reducible exact sub_trans (by decide) hp | (intro _) | with_reducible apply only_ite
                | extract_lets | with_reducible apply setCtx_only | with_reducible apply withdraw_only | split
                | (refine only_mk _ ?_ (by intro p hq; cases p <;> first | exact absurd (hp _ (by decide)) hq | exact rfl)) | dsimp only

theorem rebindSubscriber_only {ps : List Part} {u0 : State} (hp : ∀ p ∈ ([.stream, .ctl] : List Part), p ∈ ps) (old : Hitch) (n : Nat)
    (c : StreamCtx) (s : State)  (hk : Only ps u0 s) :
    Only ps u0 (rebindSubscriber old n c s) := by
  unfold rebindSubscriber
  repeat' first | with_reducible assumption | with_reducible exact sub_trans (by decide) hp | (intro _) | with_reducible apply only_ite
                | extract_lets | with_reducible apply setCtx_only | split
                | (refine only_mk _ ?_ (by intro p hq; cases p <;> first | exact absurd (hp _ (by decide)) hq | exact rfl)) | dsimp only

theorem checkConflict_only {ps : List Part} {u0 : State}
    (hp : ∀ p ∈ ([.out, .freeIdx, .host, .causes, .stats, .log, .sw, .stream, .ctl, .red] : List Part), p ∈ ps) (n : Nat) (s : State) 
    (hk : Only ps u0 s) :
    Only ps u0 (checkConflict n s) := by
  unfold checkConflict
  repeat' first | with_reducible assumption | with_reducible exact sub_trans (by decide) hp | (intro _) | with_reducible apply only_ite
                | extract_lets | with_reducible apply raise_only | with_reducible apply logEvent_only | with_reducible apply count_only
                | with_reducible apply setCtx_only | split
                | (refine only_mk _ ?_ (by intro p hq; cases p <;> first | exact absurd (hp _ (by decide)) hq | exact rfl)) | dsimp only

theorem rebindStreams_only {ps : List Part} {u0 : State}
    (hp : ∀ p ∈ ([.out, .freeIdx, .host, .mem, .causes, .stats, .log, .hitch, .time, .sw, .stream, .ctl, .red, .leg] : List Part), p ∈ ps)
    (old : Hitch) (s : State)  (hk : Only ps u0 s) :
    Only ps u0 (rebindStreams old s) := by
  unfold rebindStreams
  repeat' first | with_reducible assumption | with_reducible exact sub_trans (by decide) hp | (intro _) | with_reducible apply only_ite
                | extract_lets | with_reducible apply rebindPublisher_only | with_reducible apply rebindSubscriber_only
                | with_reducible apply checkConflict_only | with_reducible apply streamInhibit_only | with_reducible apply only_foldl | split
                | (refine only_mk _ ?_ (by intro p hq; cases p <;> first | exact absurd (hp _ (by decide)) hq | exact rfl)) | dsimp only

theorem ctxParity_only {ps : List Part} {u0 : State} (hp : ∀ p ∈ ([.out, .freeIdx, .host, .causes, .stats, .log, .sw, .red] : List Part), p ∈ ps)
    (n : Nat) (kind : Nat) (s : State)  (hk : Only ps u0 s) :
    Only ps u0 (ctxParity n kind s) := by
  unfold ctxParity
  repeat' first | with_reducible assumption | with_reducible exact sub_trans (by decide) hp | (intro _) | extract_lets
                | with_reducible apply raise_only | with_reducible apply logEvent_only | with_reducible apply count_only | dsimp only

theorem skipSnapshot_only {ps : List Part} {u0 : State} (hp : ∀ p ∈ ([.out, .host, .causes, .stats, .stream] : List Part), p ∈ ps) (n : Nat)
    (s : State)  (hk : Only ps u0 s) :
    Only ps u0 (skipSnapshot n s) := by
  unfold skipSnapshot
  repeat' first | with_reducible assumption | with_reducible exact sub_trans (by decide) hp | (intro _) | extract_lets
                | with_reducible apply count_only | with_reducible apply setCtx_only
                | (refine only_mk _ ?_ (by intro p hq; cases p <;> first | exact absurd (hp _ (by decide)) hq | exact rfl)) | dsimp only

theorem snapshot_only {ps : List Part} {u0 : State}
    (hp : ∀ p ∈ ([.out, .freeIdx, .host, .causes, .stats, .log, .sw, .stream, .red] : List Part), p ∈ ps) (n : Nat) (c : StreamCtx) (s : State) 
    (hk : Only ps u0 s) :
    Only ps u0 (snapshot n c s) := by
  unfold snapshot
  repeat' first | with_reducible assumption | with_reducible exact sub_trans (by decide) hp | (intro _) | with_reducible apply only_ite
                | extract_lets | with_reducible apply setCtx_only | with_reducible apply staleGen_only | split
                | (refine only_mk _ ?_ (by intro p hq; cases p <;> first | exact absurd (hp _ (by decide)) hq | exact rfl)) | dsimp only

theorem sendPublication_only {ps : List Part} {u0 : State}
    (hp : ∀ p ∈ ([.out, .freeIdx, .host, .mem, .causes, .stats, .log, .time, .sw, .rx, .tx, .stream, .red] : List Part), p ∈ ps) (n : Nat)
    (c : StreamCtx) (l : StreamLaunch) (s : State)  (hk : Only ps u0 s) :
    Only ps u0 (sendPublication n c l s) := by
  unfold sendPublication
  repeat' first | with_reducible assumption | with_reducible exact sub_trans (by decide) hp | (intro _) | with_reducible apply only_ite
                | extract_lets | with_reducible apply done_only | with_reducible apply count_only | with_reducible apply setCtx_only
                | with_reducible apply publishCopies_only | with_reducible apply sendAll_only | with_reducible apply only_foldl
                | with_reducible apply only_foldl2 | split
                | (refine only_mk _ ?_ (by intro p hq; cases p <;> first | exact absurd (hp _ (by decide)) hq | exact rfl)) | dsimp only

theorem launchStream_only {ps : List Part} {u0 : State}
    (hp : ∀ p ∈ ([.out, .freeIdx, .host, .mem, .causes, .stats, .log, .time, .sw, .rx, .tx, .stream, .red] : List Part), p ∈ ps) (n : Nat)
    (lateNs : Nat) (s : State)  (hk : Only ps u0 s) :
    Only ps u0 (launchStream n lateNs s) := by
  unfold launchStream
  repeat' first | with_reducible assumption | with_reducible exact sub_trans (by decide) hp | (intro _) | with_reducible apply only_ite
                | extract_lets | with_reducible apply setCtx_only | with_reducible apply sendPublication_only | with_reducible apply logEvent_only
                | with_reducible apply count_only | split
                | (refine only_mk _ ?_ (by intro p hq; cases p <;> first | exact absurd (hp _ (by decide)) hq | exact rfl)) | dsimp only

theorem dropSub_only {ps : List Part} {u0 : State}
    (hp : ∀ p ∈ ([.out, .freeIdx, .host, .causes, .stats, .log, .sw, .stream, .red] : List Part), p ∈ ps) (n : Nat) (k : Nat) (f : Frame)
    (s : State)  (hk : Only ps u0 s) :
    Only ps u0 (dropSub n k f s) := by
  unfold dropSub
  repeat' first | with_reducible assumption | with_reducible exact sub_trans (by decide) hp | (intro _) | with_reducible apply only_ite
                | extract_lets | with_reducible apply count_only | with_reducible apply setCtx_only | with_reducible apply raise_only
                | with_reducible apply logEvent_only | split
                | (refine only_mk _ ?_ (by intro p hq; cases p <;> first | exact absurd (hp _ (by decide)) hq | exact rfl)) | dsimp only

theorem acceptSub_only {ps : List Part} {u0 : State}
    (hp : ∀ p ∈ ([.out, .freeIdx, .host, .causes, .stats, .log, .sw, .stream, .red] : List Part), p ∈ ps) (n : Nat) (c : StreamCtx) (line : Line)
    (f : Frame) (s : State)  (hk : Only ps u0 s) :
    Only ps u0 (acceptSub n c line f s) := by
  unfold acceptSub
  repeat' first | with_reducible assumption | with_reducible exact sub_trans (by decide) hp | (intro _) | with_reducible apply only_ite
                | extract_lets | with_reducible apply count_only | with_reducible apply setCtx_only | with_reducible apply logEvent_only
                | with_reducible apply raise_only | split
                | (refine only_mk _ ?_ (by intro p hq; cases p <;> first | exact absurd (hp _ (by decide)) hq | exact rfl)) | dsimp only

theorem streamPut_only {ps : List Part} {u0 : State} (hp : ∀ p ∈ ([.stream] : List Part), p ∈ ps) (n : Nat) (data : List Byte) (s : State) 
    (hk : Only ps u0 s) :
    Only ps u0 (streamPut n data s) := by
  unfold streamPut
  repeat' first | with_reducible assumption | with_reducible exact sub_trans (by decide) hp | (intro _) | extract_lets
                | with_reducible apply setCtx_only
                | (refine only_mk _ ?_ (by intro p hq; cases p <;> first | exact absurd (hp _ (by decide)) hq | exact rfl)) | dsimp only

theorem streamLine_only {ps : List Part} {u0 : State} (hp : ∀ p ∈ ([.stream] : List Part), p ∈ ps) (n : Nat) (mode : Nat) (s : State) 
    (hk : Only ps u0 s) :
    Only ps u0 (streamLine n mode s) := by
  unfold streamLine
  repeat' first | with_reducible assumption | with_reducible exact sub_trans (by decide) hp | (intro _) | extract_lets
                | with_reducible apply setCtx_only
                | (refine only_mk _ ?_ (by intro p hq; cases p <;> first | exact absurd (hp _ (by decide)) hq | exact rfl)) | dsimp only

theorem streamEnable_only {ps : List Part} {u0 : State}
    (hp : ∀ p ∈ ([.out, .freeIdx, .host, .mem, .causes, .stats, .log, .hitch, .time, .sw, .stream, .ctl, .red, .leg] : List Part), p ∈ ps) (n : Nat)
    (on : Bool) (s : State)  (hk : Only ps u0 s) :
    Only ps u0 (streamEnable n on s) := by
  unfold streamEnable
  repeat' first | with_reducible assumption | with_reducible exact sub_trans (by decide) hp | (intro _) | with_reducible apply only_ite
                | extract_lets | with_reducible apply streamInhibit_only | with_reducible apply setCtx_only | split
                | (refine only_mk _ ?_ (by intro p hq; cases p <;> first | exact absurd (hp _ (by decide)) hq | exact rfl)) | dsimp only

end Sys2Proof.Machine
end

