-- ==== Sys2Proof/Laws/OnlyControlOps.lean ====
section
/-! SUPPORT. The parts of the state that every operation of Machine/ControlOps.lean may change, said once for each: all others are left alone (Only of
Safety.lean). -/
set_option Elab.async false
set_option linter.all false
namespace Sys2Proof.Machine
theorem setTask_only {ps : List Part} {u0 : State} (hp : ∀ p ∈ ([.ctl] : List Part), p ∈ ps) (n : Nat) (f : Task → Task) (s : State) 
    (hk : Only ps u0 s) :
    Only ps u0 (setTask n f s) := by
  unfold setTask
  repeat' first | with_reducible assumption | (intro _) | extract_lets
                | (refine only_mk _ ?_ (by intro p hq; cases p <;> first | exact absurd (hp _ (by decide)) hq | exact rfl)) | dsimp only

theorem setPair_only {ps : List Part} {u0 : State} (hp : ∀ p ∈ ([.ctl] : List Part), p ∈ ps) (p : Nat) (f : CorePair → CorePair) (s : State) 
    (hk : Only ps u0 s) :
    Only ps u0 (setPair p f s) := by
  unfold setPair
  repeat' first | with_reducible assumption | (intro _) | extract_lets
                | (refine only_mk _ ?_ (by intro p hq; cases p <;> first | exact absurd (hp _ (by decide)) hq | exact rfl)) | dsimp only

theorem controlLoad_only {ps : List Part} {u0 : State} (hp : ∀ p ∈ ([.ctl] : List Part), p ∈ ps) (s : State)  (hk : Only ps u0 s) :
    Only ps u0 (controlLoad s) := by
  unfold controlLoad
  repeat' first | with_reducible assumption | (intro _) | extract_lets | with_reducible apply only_foldl
                | (refine only_mk _ ?_ (by intro p hq; cases p <;> first | exact absurd (hp _ (by decide)) hq | exact rfl)) | dsimp only

theorem assignPair_only {ps : List Part} {u0 : State} (hp : ∀ p ∈ ([.ctl] : List Part), p ∈ ps) (n : Nat) (s : State)  (hk : Only ps u0 s) :
    Only ps u0 (assignPair n s) := by
  unfold assignPair
  repeat' first | with_reducible assumption | with_reducible exact sub_trans (by decide) hp | (intro _) | with_reducible apply only_ite
                | extract_lets | with_reducible apply setTask_only | split
                | (refine only_mk _ ?_ (by intro p hq; cases p <;> first | exact absurd (hp _ (by decide)) hq | exact rfl)) | dsimp only

theorem assignPairs_only {ps : List Part} {u0 : State} (hp : ∀ p ∈ ([.ctl] : List Part), p ∈ ps) (ns : List Nat) (s : State)  (hk : Only ps u0 s) :
    Only ps u0 (assignPairs ns s) := by
  unfold assignPairs
  repeat' first | with_reducible assumption | with_reducible exact sub_trans (by decide) hp | (intro _) | with_reducible apply only_ite
                | extract_lets | with_reducible apply assignPair_only | with_reducible apply only_foldl | split | dsimp only

theorem schedule_only {ps : List Part} {u0 : State} (hp : ∀ p ∈ ([.ctl] : List Part), p ∈ ps) (p : Nat) (s : State)  (hk : Only ps u0 s) :
    Only ps u0 (schedule p s) := by
  unfold schedule
  try dsimp only
  repeat' first | with_reducible assumption | with_reducible exact sub_trans (by decide) hp | (intro _) | with_reducible exact Only.rfl
                | with_reducible apply only_ite | with_reducible apply only_ite_app | with_reducible apply only_id
                | with_reducible apply setPair_only | with_reducible apply setTask_only | with_reducible apply only_foldl
                | with_reducible apply only_foldl2 | split
                | (refine only_mk _ ?_ (by intro p hq; cases p <;> first | exact absurd (hp _ (by decide)) hq | exact rfl)) | dsimp only

theorem forceReleased_only {ps : List Part} {u0 : State} (hp : ∀ p ∈ ([.out, .freeIdx, .host, .causes, .stats, .log, .sw, .red] : List Part), p ∈ ps)
    (x : Force) (reason : Nat) (s : State)  (hk : Only ps u0 s) :
    Only ps u0 (forceReleased x reason s) := by
  unfold forceReleased
  repeat' first | with_reducible assumption | with_reducible exact sub_trans (by decide) hp | (intro _) | with_reducible apply only_ite
                | extract_lets | with_reducible apply logEvent_only | with_reducible apply raise_only | with_reducible apply count_only | split
                | dsimp only

theorem releaseForces_only {ps : List Part} {u0 : State}
    (hp : ∀ p ∈ ([.out, .freeIdx, .host, .causes, .stats, .log, .sw, .ctl, .red] : List Part), p ∈ ps) (p : Force → Bool) (reason : Nat) (s : State) 
    (hk : Only ps u0 s) :
    Only ps u0 (releaseForces p reason s) := by
  unfold releaseForces
  repeat' first | with_reducible assumption | with_reducible exact sub_trans (by decide) hp | (intro _) | with_reducible apply only_ite
                | extract_lets | with_reducible apply forceReleased_only | with_reducible apply only_foldl | split
                | (refine only_mk _ ?_ (by intro p hq; cases p <;> first | exact absurd (hp _ (by decide)) hq | exact rfl)) | dsimp only

theorem dueForces_only {ps : List Part} {u0 : State}
    (hp : ∀ p ∈ ([.out, .freeIdx, .host, .causes, .stats, .log, .sw, .ctl, .red] : List Part), p ∈ ps) (n : Nat) (cycle : Nat) (s : State) 
    (hk : Only ps u0 s) :
    Only ps u0 (dueForces n cycle s) := by
  unfold dueForces
  repeat' first | with_reducible assumption | with_reducible exact sub_trans (by decide) hp | (intro _) | with_reducible apply only_ite
                | extract_lets | with_reducible apply logEvent_only | with_reducible apply forceReleased_only | with_reducible apply only_foldl
                | split | (refine only_mk _ ?_ (by intro p hq; cases p <;> first | exact absurd (hp _ (by decide)) hq | exact rfl)) | dsimp only

theorem latchBlock_only {ps : List Part} {u0 : State} (hp : ∀ p ∈ ([.can] : List Part), p ∈ ps) (n : Nat) (t : Task) (b : ObjBlock) (at_ : Nat)
    (s : State)  (hk : Only ps u0 s) :
    Only ps u0 (latchBlock n t b at_ s).2 := by
  unfold latchBlock
  repeat' first | with_reducible assumption | with_reducible exact sub_trans (by decide) hp | (intro _) | with_reducible apply only_ite
                | extract_lets | with_reducible apply canLatchFifo_only | with_reducible apply canLatchBuf_only | split
                | (refine only_mk _ ?_ (by intro p hq; cases p <;> first | exact absurd (hp _ (by decide)) hq | exact rfl)) | dsimp only

theorem latchImage_only {ps : List Part} {u0 : State} (hp : ∀ p ∈ ([.can] : List Part), p ∈ ps) (n : Nat) (t : Task) (at_ : Nat) (s : State) 
    (hk : Only ps u0 s) :
    Only ps u0 (latchImage n t at_ s).2 := by
  unfold latchImage
  repeat' first | with_reducible assumption | with_reducible exact sub_trans (by decide) hp | (intro _) | extract_lets
                | with_reducible apply latchBlock_only | with_reducible apply only_foldl | with_reducible apply only_foldl2 | dsimp only

theorem makeReady_only {ps : List Part} {u0 : State} (hp : ∀ p ∈ ([.out, .host, .mem, .causes, .stats, .log, .ctl] : List Part), p ∈ ps) (n : Nat)
    (img : List Byte) (s : State)  (hk : Only ps u0 s) :
    Only ps u0 (makeReady n img s) := by
  unfold makeReady
  repeat' first | with_reducible assumption | with_reducible exact sub_trans (by decide) hp | (intro _) | with_reducible apply only_ite
                | extract_lets | with_reducible apply setTask_only | with_reducible apply schedule_only | split
                | (refine only_mk _ ?_ (by intro p hq; cases p <;> first | exact absurd (hp _ (by decide)) hq | exact rfl)) | dsimp only

theorem driveGpio_only {ps : List Part} {u0 : State} (hp : ∀ p ∈ ([.out, .pwr] : List Part), p ∈ ps) (g : Nat) (on : Bool) (s : State) 
    (hk : Only ps u0 s) :
    Only ps u0 (driveGpio g on s) := by
  unfold driveGpio
  repeat' first | with_reducible assumption | with_reducible exact sub_trans (by decide) hp | (intro _) | with_reducible apply only_ite
                | extract_lets | with_reducible apply emit_only | split
                | (refine only_mk _ ?_ (by intro p hq; cases p <;> first | exact absurd (hp _ (by decide)) hq | exact rfl)) | dsimp only

theorem resetGpio_only {ps : List Part} {u0 : State} (hp : ∀ p ∈ ([.out, .pwr] : List Part), p ∈ ps) (t : Task) (s : State)  (hk : Only ps u0 s) :
    Only ps u0 (resetGpio t s) := by
  unfold resetGpio
  repeat' first | with_reducible assumption | with_reducible exact sub_trans (by decide) hp | (intro _) | extract_lets
                | with_reducible apply driveGpio_only | with_reducible apply only_foldl | dsimp only

theorem holdTask_only {ps : List Part} {u0 : State} (hp : ∀ p ∈ ([.ctl] : List Part), p ∈ ps) (n : Nat) (cause : Nat) (s : State) 
    (hk : Only ps u0 s) :
    Only ps u0 (holdTask n cause s) := by
  unfold holdTask
  repeat' first | with_reducible assumption | with_reducible exact sub_trans (by decide) hp | (intro _) | with_reducible apply only_ite
                | extract_lets | with_reducible apply setTask_only | with_reducible apply schedule_only | split
                | (refine only_mk _ ?_ (by intro p hq; cases p <;> first | exact absurd (hp _ (by decide)) hq | exact rfl)) | dsimp only

theorem heldCommit_only {ps : List Part} {u0 : State}
    (hp : ∀ p ∈ ([.out, .freeIdx, .host, .causes, .stats, .log, .sw, .ctl, .red] : List Part), p ∈ ps) (n : Nat) (cause : Nat) (s : State) 
    (hk : Only ps u0 s) :
    Only ps u0 (heldCommit n cause s) := by
  unfold heldCommit
  repeat' first | with_reducible assumption | with_reducible exact sub_trans (by decide) hp | (intro _) | with_reducible apply only_ite
                | extract_lets | with_reducible apply raise_only | with_reducible apply logEvent_only | with_reducible apply count_only
                | with_reducible apply setTask_only | split
                | (refine only_mk _ ?_ (by intro p hq; cases p <;> first | exact absurd (hp _ (by decide)) hq | exact rfl)) | dsimp only

theorem enablePubs_only {ps : List Part} {u0 : State}
    (hp : ∀ p ∈ ([.out, .freeIdx, .host, .mem, .causes, .stats, .log, .hitch, .time, .sw, .stream, .ctl, .red, .leg] : List Part), p ∈ ps) (t : Task)
    (on : Bool) (s : State)  (hk : Only ps u0 s) :
    Only ps u0 (enablePubs t on s) := by
  unfold enablePubs
  repeat' first | with_reducible assumption | with_reducible exact sub_trans (by decide) hp | (intro _) | extract_lets
                | with_reducible apply streamEnable_only | with_reducible apply only_foldl | dsimp only

theorem enableSubs_only {ps : List Part} {u0 : State}
    (hp : ∀ p ∈ ([.out, .freeIdx, .host, .mem, .causes, .stats, .log, .hitch, .time, .sw, .stream, .ctl, .red, .leg] : List Part), p ∈ ps) (t : Task)
    (on : Bool) (s : State)  (hk : Only ps u0 s) :
    Only ps u0 (enableSubs t on s) := by
  unfold enableSubs
  repeat' first | with_reducible assumption | with_reducible exact sub_trans (by decide) hp | (intro _) | extract_lets
                | with_reducible apply streamEnable_only | with_reducible apply only_foldl | dsimp only

theorem ceaseCan_only {ps : List Part} {u0 : State} (hp : ∀ p ∈ ([.can] : List Part), p ∈ ps) (t : Task) (s : State)  (hk : Only ps u0 s) :
    Only ps u0 (ceaseCan t s) := by
  unfold ceaseCan
  repeat' first | with_reducible assumption | with_reducible exact sub_trans (by decide) hp | (intro _) | with_reducible apply only_ite
                | extract_lets | with_reducible apply setBuf_only | with_reducible apply only_foldl | split
                | (refine only_mk _ ?_ (by intro p hq; cases p <;> first | exact absurd (hp _ (by decide)) hq | exact rfl)) | dsimp only

theorem haltTask_only {ps : List Part} {u0 : State} (hp : ∀ p ∈ ([.ctl] : List Part), p ∈ ps) (n : Nat) (st : TaskSt) (s : State) 
    (hk : Only ps u0 s) :
    Only ps u0 (haltTask n st s) := by
  unfold haltTask
  repeat' first | with_reducible assumption | with_reducible exact sub_trans (by decide) hp | (intro _) | with_reducible apply only_ite
                | extract_lets | with_reducible apply setTask_only | with_reducible apply schedule_only | split
                | (refine only_mk _ ?_ (by intro p hq; cases p <;> first | exact absurd (hp _ (by decide)) hq | exact rfl)) | dsimp only

theorem stopTask_only {ps : List Part} {u0 : State}
    (hp : ∀ p ∈ ([.out, .freeIdx, .pwr, .host, .mem, .causes, .stats, .log, .hitch, .time, .sw, .stream, .ctl, .red, .can, .leg] : List Part), p ∈ ps)
    (n : Nat) (how : Nat) (s : State)  (hk : Only ps u0 s) :
    Only ps u0 (stopTask n how s) := by
  unfold stopTask
  repeat' first | with_reducible assumption | with_reducible exact sub_trans (by decide) hp | (intro _) | with_reducible apply only_ite
                | extract_lets | with_reducible apply haltTask_only | with_reducible apply releaseForces_only | with_reducible apply resetGpio_only
                | with_reducible apply ceaseCan_only | with_reducible apply enablePubs_only | with_reducible apply logEvent_only | split
                | (refine only_mk _ ?_ (by intro p hq; cases p <;> first | exact absurd (hp _ (by decide)) hq | exact rfl)) | dsimp only

theorem setRetain_only {ps : List Part} {u0 : State} (hp : ∀ p ∈ ([.retain] : List Part), p ∈ ps) (die : Nat) (n : Nat) (k : Nat) (b : List Byte)
    (s : State)  (hk : Only ps u0 s) :
    Only ps u0 (setRetain die n k b s) := by
  unfold setRetain
  repeat' first | with_reducible assumption | (intro _) | with_reducible apply only_ite | extract_lets | split
                | (refine only_mk _ ?_ (by intro p hq; cases p <;> first | exact absurd (hp _ (by decide)) hq | exact rfl)) | dsimp only

theorem retainFault_only {ps : List Part} {u0 : State} (hp : ∀ p ∈ ([.out, .freeIdx, .host, .causes, .stats, .log, .sw, .red] : List Part), p ∈ ps)
    (n : Nat) (kind : Nat) (s : State)  (hk : Only ps u0 s) :
    Only ps u0 (retainFault n kind s) := by
  unfold retainFault
  repeat' first | with_reducible assumption | with_reducible exact sub_trans (by decide) hp | (intro _) | with_reducible apply only_ite
                | extract_lets | with_reducible apply raise_only | with_reducible apply logEvent_only | split | dsimp only

theorem retainDead_only {ps : List Part} {u0 : State}
    (hp : ∀ p ∈ ([.out, .freeIdx, .host, .causes, .stats, .log, .sw, .ctl, .red] : List Part), p ∈ ps) (n : Nat) (s : State)  (hk : Only ps u0 s) :
    Only ps u0 (retainDead n s) := by
  unfold retainDead
  repeat' first | with_reducible assumption | with_reducible exact sub_trans (by decide) hp | (intro _) | with_reducible apply only_ite
                | extract_lets | with_reducible apply retainFault_only | split
                | (refine only_mk _ ?_ (by intro p hq; cases p <;> first | exact absurd (hp _ (by decide)) hq | exact rfl)) | dsimp only

theorem startRetain_only {ps : List Part} {u0 : State}
    (hp : ∀ p ∈ ([.out, .freeIdx, .host, .mem, .causes, .stats, .log, .sw, .ctl, .retain, .red] : List Part), p ∈ ps) (n : Nat) (s : State) 
    (hk : Only ps u0 s) :
    Only ps u0 (startRetain n s) := by
  unfold startRetain
  repeat' first | with_reducible assumption | with_reducible exact sub_trans (by decide) hp | (intro _) | with_reducible apply only_ite
                | extract_lets | with_reducible apply retainDead_only | with_reducible apply count_only | with_reducible apply setTask_only
                | with_reducible apply retainFault_only | with_reducible apply setRetain_only | with_reducible apply only_foldl | split
                | (refine only_mk _ ?_ (by intro p hq; cases p <;> first | exact absurd (hp _ (by decide)) hq | exact rfl)) | dsimp only

theorem sinkBlock_only {ps : List Part} {u0 : State} (hp : ∀ p ∈ ([.out, .pwr, .host, .causes, .stats, .can, .leg] : List Part), p ∈ ps) (t : Task)
    (b : ObjBlock) (s : State)  (hk : Only ps u0 s) :
    Only ps u0 (sinkBlock t b s) := by
  unfold sinkBlock
  repeat' first | with_reducible assumption | with_reducible exact sub_trans (by decide) hp | (intro _) | with_reducible apply only_ite
                | extract_lets | with_reducible apply count_only | with_reducible apply canCommit_only | with_reducible apply legCommit_only
                | with_reducible apply driveGpio_only | split
                | (refine only_mk _ ?_ (by intro p hq; cases p <;> first | exact absurd (hp _ (by decide)) hq | exact rfl)) | dsimp only

theorem commitBank_only {ps : List Part} {u0 : State} (hp : ∀ p ∈ ([.out, .host, .mem, .causes, .stats, .log, .ctl] : List Part), p ∈ ps) (n : Nat)
    (s : State)  (hk : Only ps u0 s) :
    Only ps u0 (commitBank n s) := by
  unfold commitBank
  repeat' first | with_reducible assumption | with_reducible exact sub_trans (by decide) hp | (intro _) | extract_lets
                | with_reducible apply setTask_only
                | (refine only_mk _ ?_ (by intro p hq; cases p <;> first | exact absurd (hp _ (by decide)) hq | exact rfl)) | dsimp only

theorem commitOutput_only {ps : List Part} {u0 : State} (hp : ∀ p ∈ ([.out, .pwr, .host, .causes, .stats, .ctl, .can, .leg] : List Part), p ∈ ps)
    (n : Nat) (image : List Byte) (s : State)  (hk : Only ps u0 s) :
    Only ps u0 (commitOutput n image s) := by
  unfold commitOutput
  repeat' first | with_reducible assumption | with_reducible exact sub_trans (by decide) hp | (intro _) | with_reducible apply only_ite
                | extract_lets | with_reducible apply setTask_only | with_reducible apply sinkBlock_only | with_reducible apply only_foldl | split
                | (refine only_mk _ ?_ (by intro p hq; cases p <;> first | exact absurd (hp _ (by decide)) hq | exact rfl)) | dsimp only

theorem commitEnd_only {ps : List Part} {u0 : State}
    (hp : ∀ p ∈ ([.out, .freeIdx, .host, .mem, .causes, .stats, .log, .sw, .ctl, .retain, .red] : List Part), p ∈ ps) (n : Nat) (s : State) 
    (hk : Only ps u0 s) :
    Only ps u0 (commitEnd n s) := by
  unfold commitEnd
  repeat' first | with_reducible assumption | with_reducible exact sub_trans (by decide) hp | (intro _) | with_reducible apply only_ite
                | extract_lets | with_reducible apply count_only | with_reducible apply startRetain_only | with_reducible apply raise_only
                | with_reducible apply setTask_only | split
                | (refine only_mk _ ?_ (by intro p hq; cases p <;> first | exact absurd (hp _ (by decide)) hq | exact rfl)) | dsimp only

theorem commitTask_only {ps : List Part} {u0 : State}
    (hp : ∀ p ∈ ([.out, .freeIdx, .pwr, .host, .mem, .causes, .stats, .log, .sw, .ctl, .retain, .red, .can, .leg] : List Part), p ∈ ps) (n : Nat)
    (s : State)  (hk : Only ps u0 s) :
    Only ps u0 (commitTask n s) := by
  unfold commitTask
  repeat' first | with_reducible assumption | with_reducible exact sub_trans (by decide) hp | (intro _) | extract_lets
                | with_reducible apply commitBank_only | with_reducible apply commitEnd_only | with_reducible apply commitOutput_only | dsimp only

theorem redoTask_only {ps : List Part} {u0 : State} (hp : ∀ p ∈ ([.out, .host, .mem, .causes, .stats, .log, .ctl] : List Part), p ∈ ps) (n : Nat)
    (s : State)  (hk : Only ps u0 s) :
    Only ps u0 (redoTask n s) := by
  unfold redoTask
  repeat' first | with_reducible assumption | with_reducible exact sub_trans (by decide) hp | (intro _) | with_reducible apply only_ite
                | extract_lets | with_reducible apply makeReady_only | with_reducible apply setTask_only | split
                | (refine only_mk _ ?_ (by intro p hq; cases p <;> first | exact absurd (hp _ (by decide)) hq | exact rfl)) | dsimp only

theorem restamp_only {ps : List Part} {u0 : State} (hp : ∀ p ∈ ([.retain] : List Part), p ∈ ps) (fp : BitVec 256) (s : State)  (hk : Only ps u0 s) :
    Only ps u0 (restamp fp s) := by
  unfold restamp
  repeat' first | with_reducible assumption | with_reducible exact sub_trans (by decide) hp | (intro _) | with_reducible apply only_ite
                | extract_lets | with_reducible apply setRetain_only | with_reducible apply only_foldl | split
                | (refine only_mk _ ?_ (by intro p hq; cases p <;> first | exact absurd (hp _ (by decide)) hq | exact rfl)) | dsimp only

theorem controlStart_only {ps : List Part} {u0 : State}
    (hp : ∀ p ∈ ([.out, .freeIdx, .node, .host, .mem, .causes, .stats, .log, .hitch, .time, .sw, .stream, .ctl, .retain, .red, .wr, .can, .leg] : List Part), p ∈ ps)
    (kind : Nat) (s : State)  (hk : Only ps u0 s) :
    Only ps u0 (controlStart kind s) := by
  unfold controlStart
  try dsimp only
  repeat' first | with_reducible assumption | with_reducible exact sub_trans (by decide) hp | (intro _) | with_reducible exact Only.rfl
                | with_reducible apply only_ite | with_reducible apply only_ite_app | with_reducible apply only_id
                | with_reducible apply logEvent_only | with_reducible apply releaseForces_only | with_reducible apply enableSubs_only
                | with_reducible apply enablePubs_only | with_reducible apply assignPairs_only | with_reducible apply setState_only
                | with_reducible apply canControlStart_only | with_reducible apply raise_only | with_reducible apply only_foldl
                | with_reducible apply only_foldl2 | split
                | (refine only_mk _ ?_ (by intro p hq; cases p <;> first | exact absurd (hp _ (by decide)) hq | exact rfl)) | dsimp only

end Sys2Proof.Machine
end

