-- ==== Sys2Proof/Laws/OnlyRingOps.lean ====
section
/-! SUPPORT. The parts of the state that every operation of Machine/RingOps.lean may change, said once for each: all others are left alone (Only of
Safety.lean). -/
set_option Elab.async false
set_option linter.all false
namespace Sys2Proof.Machine
theorem setRing_only {ps : List Part} {u0 : State} (hp : ∀ p ∈ ([.rx, .tx] : List Part), p ∈ ps) (tx : Bool) (n : Nat) (f : Ring → Ring) (s : State) 
    (hk : Only ps u0 s) :
    Only ps u0 (setRing tx n f s) := by
  unfold setRing
  repeat' first | with_reducible assumption | with_reducible exact sub_trans (by decide) hp | (intro _) | with_reducible apply only_ite
                | extract_lets | with_reducible apply setTx_only | with_reducible apply setRx_only | split | dsimp only

theorem settleDma_only {ps : List Part} {u0 : State} (hp : ∀ p ∈ ([.rx, .tx] : List Part), p ∈ ps) (s : State)  (hk : Only ps u0 s) :
    Only ps u0 (settleDma s) := by
  unfold settleDma
  repeat' first | with_reducible assumption | (intro _) | extract_lets
                | (refine only_mk _ ?_ (by intro p hq; cases p <;> first | exact absurd (hp _ (by decide)) hq | exact rfl)) | dsimp only

theorem stopRx_only {ps : List Part} {u0 : State} (hp : ∀ p ∈ ([.out, .host, .causes, .stats, .sw, .rx, .tx] : List Part), p ∈ ps) (n : Nat)
    (s : State)  (hk : Only ps u0 s) :
    Only ps u0 (stopRx n s) := by
  unfold stopRx
  repeat' first | with_reducible assumption | with_reducible exact sub_trans (by decide) hp | (intro _) | extract_lets
                | with_reducible apply settleUids_only | with_reducible apply countN_only | with_reducible apply setRx_only
                | with_reducible apply unread_only | with_reducible apply only_foldl
                | (refine only_mk _ ?_ (by intro p hq; cases p <;> first | exact absurd (hp _ (by decide)) hq | exact rfl)) | dsimp only

theorem stopTx_only {ps : List Part} {u0 : State} (hp : ∀ p ∈ ([.tx] : List Part), p ∈ ps) (n : Nat) (s : State)  (hk : Only ps u0 s) :
    Only ps u0 (stopTx n s) := by
  unfold stopTx
  repeat' first | with_reducible assumption | with_reducible exact sub_trans (by decide) hp | (intro _) | with_reducible apply only_ite
                | extract_lets | with_reducible apply setTx_only | split
                | (refine only_mk _ ?_ (by intro p hq; cases p <;> first | exact absurd (hp _ (by decide)) hq | exact rfl)) | dsimp only

theorem stopRing_only {ps : List Part} {u0 : State} (hp : ∀ p ∈ ([.out, .host, .causes, .stats, .sw, .rx, .tx] : List Part), p ∈ ps) (tx : Bool)
    (n : Nat) (s : State)  (hk : Only ps u0 s) :
    Only ps u0 (stopRing tx n s) := by
  unfold stopRing
  repeat' first | with_reducible assumption | with_reducible exact sub_trans (by decide) hp | (intro _) | with_reducible apply only_ite
                | extract_lets | with_reducible apply stopTx_only | with_reducible apply stopRx_only | split | dsimp only

theorem stopRings_only {ps : List Part} {u0 : State} (hp : ∀ p ∈ ([.out, .host, .causes, .stats, .sw, .rx, .tx] : List Part), p ∈ ps) (s : State) 
    (hk : Only ps u0 s) :
    Only ps u0 (stopRings s) := by
  unfold stopRings
  repeat' first | with_reducible assumption | with_reducible exact sub_trans (by decide) hp | (intro _) | extract_lets
                | with_reducible apply stopRing_only | with_reducible apply only_foldl | dsimp only

theorem ringDone_only {ps : List Part} {u0 : State} (hp : ∀ p ∈ ([.out, .host, .stats, .rx, .tx] : List Part), p ∈ ps) (tx : Bool) (n : Nat)
    (s : State)  (hk : Only ps u0 s) :
    Only ps u0 (ringDone tx n s) := by
  unfold ringDone
  repeat' first | with_reducible assumption | with_reducible exact sub_trans (by decide) hp | (intro _) | with_reducible apply only_ite
                | extract_lets | with_reducible apply sendVector_only | with_reducible apply setRing_only | split
                | (refine only_mk _ ?_ (by intro p hq; cases p <;> first | exact absurd (hp _ (by decide)) hq | exact rfl)) | dsimp only

theorem txWriteBack_only {ps : List Part} {u0 : State} (hp : ∀ p ∈ ([.out, .host, .causes, .stats, .rx, .tx] : List Part), p ∈ ps) (n : Nat)
    (result : Nat) (ds : List (List Byte)) (s : State)  (hk : Only ps u0 s) :
    Only ps u0 (txWriteBack n result ds s) := by
  unfold txWriteBack
  repeat' first | with_reducible assumption | with_reducible exact sub_trans (by decide) hp | (intro _) | with_reducible apply only_ite
                | extract_lets | with_reducible apply emit_only | with_reducible apply setTx_only | with_reducible apply count_only
                | with_reducible apply ringDone_only | with_reducible apply only_foldl | split
                | (refine only_mk _ ?_ (by intro p hq; cases p <;> first | exact absurd (hp _ (by decide)) hq | exact rfl)) | dsimp only

theorem txFail_only {ps : List Part} {u0 : State} (hp : ∀ p ∈ ([.out, .freeIdx, .host, .causes, .stats, .log, .time, .sw, .red] : List Part), p ∈ ps)
    (d : List Byte) (s : State)  (hk : Only ps u0 s) :
    Only ps u0 (txFail d s) := by
  unfold txFail
  repeat' first | with_reducible assumption | with_reducible exact sub_trans (by decide) hp | (intro _) | with_reducible apply only_ite
                | extract_lets | with_reducible apply pushTxTs_only | split
                | (refine only_mk _ ?_ (by intro p hq; cases p <;> first | exact absurd (hp _ (by decide)) hq | exact rfl)) | dsimp only

theorem txSwitch_only {ps : List Part} {u0 : State}
    (hp : ∀ p ∈ ([.out, .freeIdx, .host, .causes, .stats, .log, .time, .sw, .rx, .tx, .red] : List Part), p ∈ ps) (n : Nat) (d : List Byte)
    (f : Frame) (s : State)  (hk : Only ps u0 s) :
    Only ps u0 (txSwitch n d f s).2 := by
  unfold txSwitch
  repeat' first | with_reducible assumption | with_reducible exact sub_trans (by decide) hp | (intro _) | with_reducible apply only_ite
                | extract_lets | with_reducible apply count_only | with_reducible apply police_only | with_reducible apply forwardPlain_only
                | with_reducible apply learn_only | split
                | (refine only_mk _ ?_ (by intro p hq; cases p <;> first | exact absurd (hp _ (by decide)) hq | exact rfl)) | dsimp only

theorem txAdmit_only {ps : List Part} {u0 : State}
    (hp : ∀ p ∈ ([.out, .freeIdx, .host, .causes, .stats, .log, .time, .sw, .rx, .tx, .red] : List Part), p ∈ ps) (n : Nat) (d : List Byte)
    (data : List Byte) (s : State)  (hk : Only ps u0 s) :
    Only ps u0 (txAdmit n d data s).2 := by
  unfold txAdmit
  repeat' first | with_reducible assumption | with_reducible exact sub_trans (by decide) hp | (intro _) | with_reducible apply only_ite
                | extract_lets | with_reducible apply settleUids_only | with_reducible apply setTx_only | with_reducible apply txFail_only
                | with_reducible apply count_only | with_reducible apply bumpUid_only | with_reducible apply letIn_only
                | with_reducible apply txSwitch_only | split
                | (refine only_mk _ ?_ (by intro p hq; cases p <;> first | exact absurd (hp _ (by decide)) hq | exact rfl)) | dsimp only

theorem fenceRing_only {ps : List Part} {u0 : State} (hp : ∀ p ∈ ([.out, .host, .mem, .causes, .stats] : List Part), p ∈ ps) (n : Nat) (s : State) 
    (hk : Only ps u0 s) :
    Only ps u0 (fenceRing n s) := by
  unfold fenceRing
  repeat' first | with_reducible assumption | with_reducible exact sub_trans (by decide) hp | (intro _) | with_reducible apply only_ite
                | extract_lets | with_reducible apply releaseFences_only | split
                | (refine only_mk _ ?_ (by intro p hq; cases p <;> first | exact absurd (hp _ (by decide)) hq | exact rfl)) | dsimp only

theorem txFinish_only {ps : List Part} {u0 : State}
    (hp : ∀ p ∈ ([.out, .freeIdx, .host, .mem, .causes, .stats, .log, .time, .sw, .rx, .tx, .red] : List Part), p ∈ ps) (n : Nat) (ds : List
    (List Byte)) (data : List Byte) (s : State)  (hk : Only ps u0 s) :
    Only ps u0 (txFinish n ds data s) := by
  unfold txFinish
  repeat' first | with_reducible assumption | with_reducible exact sub_trans (by decide) hp | (intro _) | with_reducible apply only_ite
                | extract_lets | with_reducible apply txAdmit_only | with_reducible apply txWriteBack_only | with_reducible apply fenceRing_only
                | with_reducible apply setTx_only | split | dsimp only

theorem ringCtrl_only {ps : List Part} {u0 : State} (hp : ∀ p ∈ ([.out, .host, .causes, .stats, .sw, .rx, .tx] : List Part), p ∈ ps) (tx : Bool)
    (n : Nat) (v : Nat) (s : State)  (hk : Only ps u0 s) :
    Only ps u0 (ringCtrl tx n v s) := by
  unfold ringCtrl
  repeat' first | with_reducible assumption | with_reducible exact sub_trans (by decide) hp | (intro _) | with_reducible apply only_ite
                | extract_lets | with_reducible apply stopRing_only | with_reducible apply setRing_only | with_reducible apply settleDma_only
                | split | (refine only_mk _ ?_ (by intro p hq; cases p <;> first | exact absurd (hp _ (by decide)) hq | exact rfl)) | dsimp only

theorem ringTail_only {ps : List Part} {u0 : State} (hp : ∀ p ∈ ([.rx, .tx] : List Part), p ∈ ps) (tx : Bool) (n : Nat) (index : Nat) (s : State) 
    (hk : Only ps u0 s) :
    Only ps u0 (ringTail tx n index s) := by
  unfold ringTail
  repeat' first | with_reducible assumption | with_reducible exact sub_trans (by decide) hp | (intro _) | with_reducible apply only_ite
                | extract_lets | with_reducible apply setRing_only | split
                | (refine only_mk _ ?_ (by intro p hq; cases p <;> first | exact absurd (hp _ (by decide)) hq | exact rfl)) | dsimp only

theorem ringError_only {ps : List Part} {u0 : State} (hp : ∀ p ∈ ([.out, .freeIdx, .host, .causes, .stats, .log, .sw, .red] : List Part), p ∈ ps)
    (tx : Bool) (n : Nat) (kind : Nat) (s : State)  (hk : Only ps u0 s) :
    Only ps u0 (ringError tx n kind s) := by
  unfold ringError
  repeat' first | with_reducible assumption | with_reducible exact sub_trans (by decide) hp | (intro _) | extract_lets
                | with_reducible apply logEvent_only | dsimp only

theorem rxWrite_only {ps : List Part} {u0 : State} (hp : ∀ p ∈ ([.out, .rx] : List Part), p ∈ ps) (n : Nat) (w : RxWait) (bufs : List Nat)
    (b : List Byte) (err : Nat) (s : State)  (hk : Only ps u0 s) :
    Only ps u0 (rxWrite n w bufs b err s) := by
  unfold rxWrite
  repeat' first | with_reducible assumption | with_reducible exact sub_trans (by decide) hp | (intro _) | with_reducible apply only_ite
                | extract_lets | with_reducible apply emit_only | with_reducible apply setRx_only | with_reducible apply only_foldl | split
                | (refine only_mk _ ?_ (by intro p hq; cases p <;> first | exact absurd (hp _ (by decide)) hq | exact rfl)) | dsimp only

end Sys2Proof.Machine
end

