-- ==== Sys2Proof/Laws/OnlyHostOps.lean ====
section
/-! SUPPORT. The parts of the state that every operation of Machine/HostOps.lean may change, said once for each: all others are left alone (Only of
Safety.lean). -/
set_option Elab.async false
set_option linter.all false
namespace Sys2Proof.Machine
theorem mbxError_only {ps : List Part} {u0 : State}
    (hp : ∀ p ∈ ([.out, .freeIdx, .node, .pwr, .host, .mem, .causes, .stats, .log, .hitch, .time, .sw, .stream, .ctl, .retain, .red, .wr, .can, .leg, .br] : List Part), p ∈ ps)
    (m : Nat) (kind : Nat) (s : State)  (hk : Only ps u0 s) :
    Only ps u0 (mbxError m kind s) := by
  unfold mbxError
  repeat' first | with_reducible assumption | with_reducible exact sub_trans (by decide) hp | (intro _) | with_reducible apply only_ite
                | extract_lets | with_reducible apply raise_only | with_reducible apply logEvent_only | with_reducible apply count_only | split
                | (refine only_mk _ ?_ (by intro p hq; cases p <;> first | exact absurd (hp _ (by decide)) hq | exact rfl)) | dsimp only

theorem endUnknown_only {ps : List Part} {u0 : State} (hp : ∀ p ∈ ([.out, .host, .mem, .causes, .stats] : List Part), p ∈ ps) (m : Nat) (s : State) 
    (hk : Only ps u0 s) :
    Only ps u0 (endUnknown m s) := by
  unfold endUnknown
  repeat' first | with_reducible assumption | with_reducible exact sub_trans (by decide) hp | (intro _) | with_reducible apply only_ite
                | extract_lets | with_reducible apply acs_only | with_reducible apply acsDone_only | with_reducible apply only_foldl
                | with_reducible apply only_foldl2 | split | dsimp only

theorem endBatch_only {ps : List Part} {u0 : State} (hp : ∀ p ∈ ([.out, .host, .mem, .causes, .stats] : List Part), p ∈ ps) (m : Nat) (s : State) 
    (hk : Only ps u0 s) :
    Only ps u0 (endBatch m s) := by
  unfold endBatch
  repeat' first | with_reducible assumption | with_reducible exact sub_trans (by decide) hp | (intro _) | with_reducible apply only_ite
                | extract_lets | with_reducible apply mbxVector_only | with_reducible apply done_only | split
                | (refine only_mk _ ?_ (by intro p hq; cases p <;> first | exact absurd (hp _ (by decide)) hq | exact rfl)) | dsimp only

theorem submit_only {ps : List Part} {u0 : State}
    (hp : ∀ p ∈ ([.out, .freeIdx, .node, .pwr, .host, .mem, .causes, .stats, .log, .hitch, .time, .sw, .stream, .ctl, .retain, .red, .wr, .can, .leg, .br] : List Part), p ∈ ps)
    (m : Nat) (count_ : Nat) (seq : Half) (agent : Nat) (s : State)  (hk : Only ps u0 s) :
    Only ps u0 (submit m count_ seq agent s) := by
  unfold submit
  try dsimp only
  repeat' first | with_reducible assumption | with_reducible exact sub_trans (by decide) hp | (intro _) | with_reducible exact Only.rfl
                | with_reducible apply only_ite | with_reducible apply only_ite_app | with_reducible apply only_id
                | with_reducible apply mbxError_only | with_reducible apply count_only | with_reducible apply done_only
                | with_reducible apply endBatch_only | with_reducible apply endUnknown_only | with_reducible apply only_foldl
                | with_reducible apply only_foldl2 | split
                | (refine only_mk _ ?_ (by intro p hq; cases p <;> first | exact absurd (hp _ (by decide)) hq | exact rfl)) | dsimp only

theorem abortOne_only {ps : List Part} {u0 : State} (hp : ∀ p ∈ ([.out, .host, .mem, .causes, .stats] : List Part), p ∈ ps) (r : AcsRef) (s : State) 
    (hk : Only ps u0 s) :
    Only ps u0 (abortOne r s) := by
  unfold abortOne
  repeat' first | with_reducible assumption | with_reducible exact sub_trans (by decide) hp | (intro _) | extract_lets
                | with_reducible apply acsDone_only | with_reducible apply count_only | dsimp only

theorem abortBox_only {ps : List Part} {u0 : State} (hp : ∀ p ∈ ([.out, .host, .mem, .causes, .stats, .hitch, .br] : List Part), p ∈ ps)
    (discard : Bool) (m : Nat) (s : State)  (hk : Only ps u0 s) :
    Only ps u0 (abortBox discard m s) := by
  unfold abortBox
  repeat' first | with_reducible assumption | with_reducible exact sub_trans (by decide) hp | (intro _) | with_reducible apply only_ite
                | extract_lets | with_reducible apply abortOne_only | with_reducible apply only_foldl | with_reducible apply only_foldl2 | split
                | (refine only_mk _ ?_ (by intro p hq; cases p <;> first | exact absurd (hp _ (by decide)) hq | exact rfl)) | dsimp only

theorem abortAll_only {ps : List Part} {u0 : State} (hp : ∀ p ∈ ([.out, .host, .mem, .causes, .stats, .hitch, .br] : List Part), p ∈ ps)
    (discard : Bool) (s : State)  (hk : Only ps u0 s) :
    Only ps u0 (abortAll discard s) := by
  unfold abortAll
  repeat' first | with_reducible assumption | with_reducible exact sub_trans (by decide) hp | (intro _) | extract_lets
                | with_reducible apply abortBox_only | with_reducible apply only_foldl | dsimp only

theorem requestWrite_only {ps : List Part} {u0 : State}
    (hp : ∀ p ∈ ([.out, .freeIdx, .node, .pwr, .host, .mem, .causes, .stats, .log, .hitch, .time, .sw, .stream, .ctl, .retain, .red, .wr, .can, .leg, .br] : List Part), p ∈ ps)
    (m : Nat) (off : Nat) (data : List Byte) (s : State)  (hk : Only ps u0 s) :
    Only ps u0 (requestWrite m off data s) := by
  unfold requestWrite
  repeat' first | with_reducible assumption | with_reducible exact sub_trans (by decide) hp | (intro _) | with_reducible apply only_ite
                | extract_lets | with_reducible apply mbxError_only | split
                | (refine only_mk _ ?_ (by intro p hq; cases p <;> first | exact absurd (hp _ (by decide)) hq | exact rfl)) | dsimp only

theorem clearCause_only {ps : List Part} {u0 : State} (hp : ∀ p ∈ ([.out, .host, .causes, .stats] : List Part), p ∈ ps) (b : CauseBlk) (value : Word)
    (s : State)  (hk : Only ps u0 s) :
    Only ps u0 (clearCause b value s) := by
  unfold clearCause
  repeat' first | with_reducible assumption | with_reducible exact sub_trans (by decide) hp | (intro _) | extract_lets
                | with_reducible apply sendVector_only | with_reducible apply only_foldl
                | (refine only_mk _ ?_ (by intro p hq; cases p <;> first | exact absurd (hp _ (by decide)) hq | exact rfl)) | dsimp only

theorem setMask_only {ps : List Part} {u0 : State} (hp : ∀ p ∈ ([.causes] : List Part), p ∈ ps) (b : CauseBlk) (value : Word) (s : State) 
    (hk : Only ps u0 s) :
    Only ps u0 (setMask b value s) := by
  unfold setMask
  repeat' first | with_reducible assumption | (intro _) | extract_lets
                | (refine only_mk _ ?_ (by intro p hq; cases p <;> first | exact absurd (hp _ (by decide)) hq | exact rfl)) | dsimp only

theorem clearMbx_only {ps : List Part} {u0 : State}
    (hp : ∀ p ∈ ([.out, .freeIdx, .node, .pwr, .host, .mem, .causes, .stats, .log, .hitch, .time, .sw, .stream, .ctl, .retain, .red, .wr, .can, .leg, .br] : List Part), p ∈ ps)
    (m : Nat) (v : Nat) (s : State)  (hk : Only ps u0 s) :
    Only ps u0 (clearMbx m v s) := by
  unfold clearMbx
  repeat' first | with_reducible assumption | with_reducible exact sub_trans (by decide) hp | (intro _) | with_reducible apply only_ite
                | extract_lets | with_reducible apply done_only | with_reducible apply sendVector_only | split
                | (refine only_mk _ ?_ (by intro p hq; cases p <;> first | exact absurd (hp _ (by decide)) hq | exact rfl)) | dsimp only

theorem causeWrite_only {ps : List Part} {u0 : State}
    (hp : ∀ p ∈ ([.out, .freeIdx, .node, .pwr, .host, .mem, .causes, .stats, .log, .hitch, .time, .sw, .stream, .ctl, .retain, .red, .wr, .can, .leg, .br] : List Part), p ∈ ps)
    (off : Nat) (value : Word) (s : State)  (hk : Only ps u0 s) :
    Only ps u0 (causeWrite off value s) := by
  unfold causeWrite
  repeat' first | with_reducible assumption | with_reducible exact sub_trans (by decide) hp | (intro _) | with_reducible apply only_ite
                | extract_lets | with_reducible apply clearMbx_only | with_reducible apply clearCause_only | split
                | (refine only_mk _ ?_ (by intro p hq; cases p <;> first | exact absurd (hp _ (by decide)) hq | exact rfl)) | dsimp only

theorem unmask_only {ps : List Part} {u0 : State} (hp : ∀ p ∈ ([.out, .host, .stats] : List Part), p ∈ ps) (v : Nat) (s : State) 
    (hk : Only ps u0 s) :
    Only ps u0 (unmask v s) := by
  unfold unmask
  repeat' first | with_reducible assumption | with_reducible exact sub_trans (by decide) hp | (intro _) | with_reducible apply only_ite
                | extract_lets | with_reducible apply sendVector_only | split
                | (refine only_mk _ ?_ (by intro p hq; cases p <;> first | exact absurd (hp _ (by decide)) hq | exact rfl)) | dsimp only

theorem hostWatch_only {ps : List Part} {u0 : State} (hp : ∀ p ∈ ([.host] : List Part), p ∈ ps) (v : Nat) (s : State)  (hk : Only ps u0 s) :
    Only ps u0 (hostWatch v s) := by
  unfold hostWatch
  repeat' first | with_reducible assumption | (intro _) | with_reducible apply only_ite | extract_lets | split
                | (refine only_mk _ ?_ (by intro p hq; cases p <;> first | exact absurd (hp _ (by decide)) hq | exact rfl)) | dsimp only

theorem hostLink_only {ps : List Part} {u0 : State} (hp : ∀ p ∈ ([.out, .freeIdx, .host, .causes, .stats, .log, .sw, .red] : List Part), p ∈ ps)
    (what : Nat) (s : State)  (hk : Only ps u0 s) :
    Only ps u0 (hostLink what s) := by
  unfold hostLink
  repeat' first | with_reducible assumption | with_reducible exact sub_trans (by decide) hp | (intro _) | extract_lets
                | with_reducible apply logEvent_only | dsimp only

theorem hostGone_only {ps : List Part} {u0 : State}
    (hp : ∀ p ∈ ([.out, .host, .mem, .causes, .stats, .hitch, .sw, .rx, .tx, .br] : List Part), p ∈ ps) (s : State)
    (hk : Only ps u0 s) : Only ps u0 (hostGone s) := by
  have h1 := abortAll_only (sub_trans (by decide) hp) true _ (stopRings_only (sub_trans (by decide) hp) s hk)
  have key (x : State) (c : Store CauseReg) (h : HostIf) (hx : Only ps u0 x) : Only ps u0 { x with causes := c, host := h } := only_mk x hx (by intro p hq; cases p <;> first | exact absurd (hp _ (by decide)) hq | exact rfl)
  exact key _ _ _ h1

end Sys2Proof.Machine
end

