-- ==== Sys2Proof/Laws/OnlyBridgeOps.lean ====
section
/-! SUPPORT. The parts of the state that every operation of Machine/BridgeOps.lean may change, said once for each: all others are left alone (Only of
Safety.lean). -/
set_option Elab.async false
set_option linter.all false
namespace Sys2Proof.Machine
theorem sendEnvelope_only {ps : List Part} {u0 : State}
    (hp : ∀ p ∈ ([.out, .freeIdx, .host, .causes, .stats, .log, .time, .sw, .rx, .tx, .red] : List Part), p ∈ ps) (h : SbHdr) (body : List Byte)
    (s : State)  (hk : Only ps u0 s) :
    Only ps u0 (sendEnvelope h body s) := by
  unfold sendEnvelope
  repeat' first | with_reducible assumption | with_reducible exact sub_trans (by decide) hp | (intro _) | extract_lets
                | with_reducible apply forwardPlain_only
                | (refine only_mk _ ?_ (by intro p hq; cases p <;> first | exact absurd (hp _ (by decide)) hq | exact rfl)) | dsimp only

theorem sendEnvTug_only {ps : List Part} {u0 : State} (hp : ∀ p ∈ ([.out, .host, .causes, .stats, .red, .br] : List Part), p ∈ ps) (l : Nat)
    (c : TugChan) (b : List Byte) (s : State)  (hk : Only ps u0 s) :
    Only ps u0 (sendEnvTug l c b s) := by
  unfold sendEnvTug
  repeat' first | with_reducible assumption | with_reducible exact sub_trans (by decide) hp | (intro _) | extract_lets
                | with_reducible apply tugSend_only | with_reducible apply only_foldl
                | (refine only_mk _ ?_ (by intro p hq; cases p <;> first | exact absurd (hp _ (by decide)) hq | exact rfl)) | dsimp only

theorem bridgeParity_only {ps : List Part} {u0 : State} (hp : ∀ p ∈ ([.out, .freeIdx, .host, .causes, .stats, .log, .sw, .red] : List Part), p ∈ ps)
    (what : Nat) (action : Nat) (s : State)  (hk : Only ps u0 s) :
    Only ps u0 (bridgeParity what action s) := by
  unfold bridgeParity
  repeat' first | with_reducible assumption | with_reducible exact sub_trans (by decide) hp | (intro _) | extract_lets
                | with_reducible apply raise_only | with_reducible apply logEvent_only | with_reducible apply count_only | dsimp only

theorem setSession_only {ps : List Part} {u0 : State} (hp : ∀ p ∈ ([.br] : List Part), p ∈ ps) (n : Nat) (f : Session → Session) (s : State) 
    (hk : Only ps u0 s) :
    Only ps u0 (setSession n f s) := by
  unfold setSession
  repeat' first | with_reducible assumption | (intro _) | extract_lets
                | (refine only_mk _ ?_ (by intro p hq; cases p <;> first | exact absurd (hp _ (by decide)) hq | exact rfl)) | dsimp only

theorem sessionSaid_only {ps : List Part} {u0 : State} (hp : ∀ p ∈ ([.out, .freeIdx, .host, .causes, .stats, .log, .sw, .red] : List Part), p ∈ ps)
    (n : Nat) (what : Nat) (s : State)  (hk : Only ps u0 s) :
    Only ps u0 (sessionSaid n what s) := by
  unfold sessionSaid
  repeat' first | with_reducible assumption | with_reducible exact sub_trans (by decide) hp | (intro _) | extract_lets
                | with_reducible apply raise_only | with_reducible apply logEvent_only | dsimp only

theorem bridgeLoad_only {ps : List Part} {u0 : State} (hp : ∀ p ∈ ([.br] : List Part), p ∈ ps) (s : State)  (hk : Only ps u0 s) :
    Only ps u0 (bridgeLoad s) := by
  unfold bridgeLoad
  repeat' first | with_reducible assumption | (intro _) | extract_lets | with_reducible apply only_foldl
                | (refine only_mk _ ?_ (by intro p hq; cases p <;> first | exact absurd (hp _ (by decide)) hq | exact rfl)) | dsimp only

theorem rebindSessions_only {ps : List Part} {u0 : State}
    (hp : ∀ p ∈ ([.out, .freeIdx, .host, .causes, .stats, .log, .sw, .red, .br] : List Part), p ∈ ps) (s : State)  (hk : Only ps u0 s) :
    Only ps u0 (rebindSessions s) := by
  unfold rebindSessions
  repeat' first | with_reducible assumption | with_reducible exact sub_trans (by decide) hp | (intro _) | with_reducible apply only_ite
                | extract_lets | with_reducible apply setSession_only | with_reducible apply sessionSaid_only | with_reducible apply only_foldl
                | split | (refine only_mk _ ?_ (by intro p hq; cases p <;> first | exact absurd (hp _ (by decide)) hq | exact rfl)) | dsimp only

theorem tunDrop_only {ps : List Part} {u0 : State} (hp : ∀ p ∈ ([.out, .freeIdx, .host, .causes, .stats, .log, .sw, .red, .br] : List Part), p ∈ ps)
    (n : Nat) (kind : Nat) (k : Nat) (s : State)  (hk : Only ps u0 s) :
    Only ps u0 (tunDrop n kind k s) := by
  unfold tunDrop
  repeat' first | with_reducible assumption | with_reducible exact sub_trans (by decide) hp | (intro _) | with_reducible apply only_ite
                | extract_lets | with_reducible apply logEvent_only | with_reducible apply countN_only | with_reducible apply raise_only | split
                | (refine only_mk _ ?_ (by intro p hq; cases p <;> first | exact absurd (hp _ (by decide)) hq | exact rfl)) | dsimp only

theorem sendExport_only {ps : List Part} {u0 : State}
    (hp : ∀ p ∈ ([.out, .freeIdx, .host, .causes, .stats, .log, .time, .sw, .rx, .tx, .red, .br] : List Part), p ∈ ps) (n : Nat) (s : State) 
    (hk : Only ps u0 s) :
    Only ps u0 (sendExport n s) := by
  unfold sendExport
  repeat' first | with_reducible assumption | with_reducible exact sub_trans (by decide) hp | (intro _) | with_reducible apply only_ite
                | extract_lets | with_reducible apply setSession_only | with_reducible apply sendEnvelope_only | with_reducible apply countN_only
                | with_reducible apply count_only | split
                | (refine only_mk _ ?_ (by intro p hq; cases p <;> first | exact absurd (hp _ (by decide)) hq | exact rfl)) | dsimp only

theorem exportItem_only {ps : List Part} {u0 : State}
    (hp : ∀ p ∈ ([.out, .freeIdx, .host, .causes, .stats, .log, .time, .sw, .rx, .tx, .red, .br] : List Part), p ∈ ps) (n : Nat) (item : List Byte)
    (s : State)  (hk : Only ps u0 s) :
    Only ps u0 (exportItem n item s) := by
  unfold exportItem
  repeat' first | with_reducible assumption | with_reducible exact sub_trans (by decide) hp | (intro _) | with_reducible apply only_ite
                | extract_lets | with_reducible apply count_only | with_reducible apply sendExport_only | with_reducible apply setSession_only
                | split | (refine only_mk _ ?_ (by intro p hq; cases p <;> first | exact absurd (hp _ (by decide)) hq | exact rfl)) | dsimp only

theorem exportCan_only {ps : List Part} {u0 : State}
    (hp : ∀ p ∈ ([.out, .freeIdx, .host, .causes, .stats, .log, .time, .sw, .rx, .tx, .red, .can, .br] : List Part), p ∈ ps) (ch : Nat) (b : Nat)
    (s : State)  (hk : Only ps u0 s) :
    Only ps u0 (exportCan ch b s) := by
  unfold exportCan
  try dsimp only
  repeat' first | with_reducible assumption | with_reducible exact sub_trans (by decide) hp | (intro _) | with_reducible exact Only.rfl
                | with_reducible apply only_ite | with_reducible apply only_ite_app | with_reducible apply only_id
                | with_reducible apply setCan_only | with_reducible apply setBuf_only | with_reducible apply exportItem_only
                | with_reducible apply only_foldl | with_reducible apply only_foldl2 | split
                | (refine only_mk _ ?_ (by intro p hq; cases p <;> first | exact absurd (hp _ (by decide)) hq | exact rfl)) | dsimp only

theorem exportPort_only {ps : List Part} {u0 : State}
    (hp : ∀ p ∈ ([.out, .freeIdx, .host, .causes, .stats, .log, .time, .sw, .rx, .tx, .red, .br] : List Part), p ∈ ps) (u : Nat) (addr : Nat)
    (data : List Byte) (s : State)  (hk : Only ps u0 s) :
    Only ps u0 (exportPort u addr data s) := by
  unfold exportPort
  repeat' first | with_reducible assumption | with_reducible exact sub_trans (by decide) hp | (intro _) | with_reducible apply only_ite
                | extract_lets | with_reducible apply exportItem_only | split
                | (refine only_mk _ ?_ (by intro p hq; cases p <;> first | exact absurd (hp _ (by decide)) hq | exact rfl)) | dsimp only

theorem takeMessage_only {ps : List Part} {u0 : State}
    (hp : ∀ p ∈ ([.out, .freeIdx, .host, .causes, .stats, .log, .time, .sw, .rx, .tx, .red, .leg, .br] : List Part), p ∈ ps) (u : Nat) (src : Nat)
    (dst : Nat) (data : List Byte) (s : State)  (hk : Only ps u0 s) :
    Only ps u0 (takeMessage u src dst data s) := by
  unfold takeMessage
  repeat' first | with_reducible assumption | with_reducible exact sub_trans (by decide) hp | (intro _) | with_reducible apply only_ite
                | extract_lets | with_reducible apply count_only | with_reducible apply exportItem_only | with_reducible apply legMessage_only
                | split | (refine only_mk _ ?_ (by intro p hq; cases p <;> first | exact absurd (hp _ (by decide)) hq | exact rfl)) | dsimp only

theorem popImport_only {ps : List Part} {u0 : State} (hp : ∀ p ∈ ([.br] : List Part), p ∈ ps) (n : Nat) (s : State)  (hk : Only ps u0 s) :
    Only ps u0 (popImport n s) := by
  unfold popImport
  repeat' first | with_reducible assumption | with_reducible exact sub_trans (by decide) hp | (intro _) | extract_lets
                | with_reducible apply setSession_only
                | (refine only_mk _ ?_ (by intro p hq; cases p <;> first | exact absurd (hp _ (by decide)) hq | exact rfl)) | dsimp only

theorem importOne_only {ps : List Part} {u0 : State}
    (hp : ∀ p ∈ ([.out, .freeIdx, .host, .causes, .stats, .log, .sw, .red, .can, .leg, .br] : List Part), p ∈ ps) (n : Nat) (s : State) 
    (hk : Only ps u0 s) :
    Only ps u0 (importOne n s) := by
  unfold importOne
  repeat' first | with_reducible assumption | with_reducible exact sub_trans (by decide) hp | (intro _) | with_reducible apply only_ite
                | extract_lets | with_reducible apply tunDrop_only | with_reducible apply popImport_only | with_reducible apply count_only
                | with_reducible apply setSession_only | with_reducible apply canRequest_only | with_reducible apply queueMessage_only
                | with_reducible apply legCommit_only | split
                | (refine only_mk _ ?_ (by intro p hq; cases p <;> first | exact absurd (hp _ (by decide)) hq | exact rfl)) | dsimp only

theorem importPlace_only {ps : List Part} {u0 : State}
    (hp : ∀ p ∈ ([.out, .freeIdx, .host, .causes, .stats, .log, .sw, .red, .can, .leg, .br] : List Part), p ∈ ps) (n : Nat) (s : State) 
    (hk : Only ps u0 s) :
    Only ps u0 (importPlace n s) := by
  unfold importPlace
  repeat' first | with_reducible assumption | with_reducible exact sub_trans (by decide) hp | (intro _) | with_reducible apply only_ite
                | extract_lets | with_reducible apply tunDrop_only | with_reducible apply setSession_only | with_reducible apply importOne_only
                | with_reducible apply only_foldl | split
                | (refine only_mk _ ?_ (by intro p hq; cases p <;> first | exact absurd (hp _ (by decide)) hq | exact rfl)) | dsimp only

theorem importAll_only {ps : List Part} {u0 : State}
    (hp : ∀ p ∈ ([.out, .freeIdx, .host, .causes, .stats, .log, .sw, .red, .can, .leg, .br] : List Part), p ∈ ps) (s : State)  (hk : Only ps u0 s) :
    Only ps u0 (importAll s) := by
  unfold importAll
  repeat' first | with_reducible assumption | with_reducible exact sub_trans (by decide) hp | (intro _) | extract_lets
                | with_reducible apply importPlace_only | with_reducible apply only_foldl | dsimp only

theorem takeTunnel_only {ps : List Part} {u0 : State}
    (hp : ∀ p ∈ ([.out, .freeIdx, .host, .causes, .stats, .log, .sw, .red, .can, .leg, .br] : List Part), p ∈ ps) (b : List Byte) (s : State) 
    (hk : Only ps u0 s) :
    Only ps u0 (takeTunnel b s) := by
  unfold takeTunnel
  repeat' first | with_reducible assumption | with_reducible exact sub_trans (by decide) hp | (intro _) | with_reducible apply only_ite
                | extract_lets | with_reducible apply count_only | with_reducible apply countN_only | with_reducible apply setSession_only
                | with_reducible apply importPlace_only | with_reducible apply tunDrop_only | split
                | (refine only_mk _ ?_ (by intro p hq; cases p <;> first | exact absurd (hp _ (by decide)) hq | exact rfl)) | dsimp only

theorem takeTag_only {ps : List Part} {u0 : State} (hp : ∀ p ∈ ([.br] : List Part), p ∈ ps) (tag : Nat) (s : State)  (hk : Only ps u0 s) :
    Only ps u0 (takeTag tag s) := by
  unfold takeTag
  repeat' first | with_reducible assumption | (intro _) | with_reducible apply only_ite | extract_lets | split
                | (refine only_mk _ ?_ (by intro p hq; cases p <;> first | exact absurd (hp _ (by decide)) hq | exact rfl)) | dsimp only

theorem freeTag_only {ps : List Part} {u0 : State} (hp : ∀ p ∈ ([.br] : List Part), p ∈ ps) (reqId : Nat) (s : State)  (hk : Only ps u0 s) :
    Only ps u0 (freeTag reqId s) := by
  unfold freeTag
  repeat' first | with_reducible assumption | (intro _) | extract_lets
                | (refine only_mk _ ?_ (by intro p hq; cases p <;> first | exact absurd (hp _ (by decide)) hq | exact rfl)) | dsimp only

theorem sendRead_only {ps : List Part} {u0 : State}
    (hp : ∀ p ∈ ([.out, .freeIdx, .host, .causes, .stats, .log, .time, .sw, .rx, .tx, .red, .br] : List Part), p ∈ ps) (o : OpenRead) (resend : Bool)
    (s : State)  (hk : Only ps u0 s) :
    Only ps u0 (sendRead o resend s) := by
  unfold sendRead
  repeat' first | with_reducible assumption | with_reducible exact sub_trans (by decide) hp | (intro _) | extract_lets
                | with_reducible apply sendEnvelope_only | with_reducible apply count_only
                | (refine only_mk _ ?_ (by intro p hq; cases p <;> first | exact absurd (hp _ (by decide)) hq | exact rfl)) | dsimp only

theorem endRead_only {ps : List Part} {u0 : State} (hp : ∀ p ∈ ([.out, .host, .mem, .causes, .stats, .br] : List Part), p ∈ ps) (o : OpenRead)
    (acsStatus : Nat) (r : ReadResult) (s : State)  (hk : Only ps u0 s) :
    Only ps u0 (endRead o acsStatus r s) := by
  unfold endRead
  repeat' first | with_reducible assumption | with_reducible exact sub_trans (by decide) hp | (intro _) | with_reducible apply only_ite
                | extract_lets | with_reducible apply freeTag_only | with_reducible apply acsDone_only | with_reducible apply raise_only | split
                | (refine only_mk _ ?_ (by intro p hq; cases p <;> first | exact absurd (hp _ (by decide)) hq | exact rfl)) | dsimp only

theorem takeResponse_only {ps : List Part} {u0 : State}
    (hp : ∀ p ∈ ([.out, .freeIdx, .host, .mem, .causes, .stats, .log, .sw, .red, .br] : List Part), p ∈ ps) (b : List Byte) (s : State) 
    (hk : Only ps u0 s) :
    Only ps u0 (takeResponse b s) := by
  unfold takeResponse
  repeat' first | with_reducible assumption | with_reducible exact sub_trans (by decide) hp | (intro _) | with_reducible apply only_ite
                | extract_lets | with_reducible apply endRead_only | with_reducible apply count_only | with_reducible apply logEvent_only | split
                | (refine only_mk _ ?_ (by intro p hq; cases p <;> first | exact absurd (hp _ (by decide)) hq | exact rfl)) | dsimp only

theorem respond_only {ps : List Part} {u0 : State}
    (hp : ∀ p ∈ ([.out, .freeIdx, .host, .mem, .causes, .stats, .log, .time, .sw, .rx, .tx, .red, .br] : List Part), p ∈ ps) (who : Asker)
    (status : Nat) (stamp : Nat) (data : List Byte) (s : State)  (hk : Only ps u0 s) :
    Only ps u0 (respond who status stamp data s) := by
  unfold respond
  repeat' first | with_reducible assumption | with_reducible exact sub_trans (by decide) hp | (intro _) | with_reducible apply only_ite
                | extract_lets | with_reducible apply count_only | with_reducible apply takeResponse_only | with_reducible apply sendEnvTug_only
                | with_reducible apply sendEnvelope_only | with_reducible apply only_foldl | split
                | (refine only_mk _ ?_ (by intro p hq; cases p <;> first | exact absurd (hp _ (by decide)) hq | exact rfl)) | dsimp only

theorem txnPlace_only {ps : List Part} {u0 : State} (hp : ∀ p ∈ ([.can, .br] : List Part), p ∈ ps) (ch : Nat) (s : State)  (hk : Only ps u0 s) :
    Only ps u0 (txnPlace ch s) := by
  unfold txnPlace
  repeat' first | with_reducible assumption | with_reducible exact sub_trans (by decide) hp | (intro _) | with_reducible apply only_ite
                | extract_lets | with_reducible apply canRequest_only | split
                | (refine only_mk _ ?_ (by intro p hq; cases p <;> first | exact absurd (hp _ (by decide)) hq | exact rfl)) | dsimp only

theorem txnSent_only {ps : List Part} {u0 : State} (hp : ∀ p ∈ ([.can, .br] : List Part), p ∈ ps) (ch : Nat) (b : Nat) (s : State) 
    (hk : Only ps u0 s) :
    Only ps u0 (txnSent ch b s) := by
  unfold txnSent
  repeat' first | with_reducible assumption | with_reducible exact sub_trans (by decide) hp | (intro _) | with_reducible apply only_ite
                | extract_lets | with_reducible apply txnPlace_only | split
                | (refine only_mk _ ?_ (by intro p hq; cases p <;> first | exact absurd (hp _ (by decide)) hq | exact rfl)) | dsimp only

theorem txnMatch_only {ps : List Part} {u0 : State}
    (hp : ∀ p ∈ ([.out, .freeIdx, .host, .mem, .causes, .stats, .log, .time, .sw, .rx, .tx, .red, .br] : List Part), p ∈ ps) (ch : Nat)
    (f : CanFrame) (sof : Nat) (s : State)  (hk : Only ps u0 s) :
    Only ps u0 (txnMatch ch f sof s) := by
  unfold txnMatch
  repeat' first | with_reducible assumption | with_reducible exact sub_trans (by decide) hp | (intro _) | with_reducible apply only_ite
                | extract_lets | with_reducible apply respond_only | split
                | (refine only_mk _ ?_ (by intro p hq; cases p <;> first | exact absurd (hp _ (by decide)) hq | exact rfl)) | dsimp only

theorem bridgeStop_only {ps : List Part} {u0 : State} (hp : ∀ p ∈ ([.out, .host, .mem, .causes, .stats, .br] : List Part), p ∈ ps) (s : State) 
    (hk : Only ps u0 s) :
    Only ps u0 (bridgeStop s) := by
  unfold bridgeStop
  repeat' first | with_reducible assumption | with_reducible exact sub_trans (by decide) hp | (intro _) | with_reducible apply only_ite
                | extract_lets | with_reducible apply freeTag_only | with_reducible apply acsDone_only | with_reducible apply only_foldl | split
                | (refine only_mk _ ?_ (by intro p hq; cases p <;> first | exact absurd (hp _ (by decide)) hq | exact rfl)) | dsimp only

theorem bridgeOwnerChange_only {ps : List Part} {u0 : State} (hp : ∀ p ∈ ([.br] : List Part), p ∈ ps) (s : State)  (hk : Only ps u0 s) :
    Only ps u0 (bridgeOwnerChange s) := by
  unfold bridgeOwnerChange
  repeat' first | with_reducible assumption | (intro _) | with_reducible apply only_ite | extract_lets | split
                | (refine only_mk _ ?_ (by intro p hq; cases p <;> first | exact absurd (hp _ (by decide)) hq | exact rfl)) | dsimp only

end Sys2Proof.Machine
end

