-- ==== Sys2Proof/Laws/OnlyStudbook.lean ====
section
/-! SUPPORT. The parts of the state that every operation of Machine/Studbook.lean may change, said once for each: all others are left alone (Only of
Safety.lean). -/
set_option Elab.async false
set_option linter.all false
namespace Sys2Proof.Machine
theorem sendWitness_only {ps : List Part} {u0 : State} (hp : ∀ p ∈ ([.out, .freeIdx, .host, .causes, .stats, .log, .sw, .red] : List Part), p ∈ ps)
    (slot : List Byte) (s : State)  (hk : Only ps u0 s) :
    Only ps u0 (sendWitness slot s) := by
  unfold sendWitness
  repeat' first | with_reducible assumption | with_reducible exact sub_trans (by decide) hp | (intro _) | with_reducible apply only_ite
                | extract_lets | with_reducible apply sendBackbone_only | with_reducible apply useFree_only | with_reducible apply tugAll_only
                | split | (refine only_mk _ ?_ (by intro p hq; cases p <;> first | exact absurd (hp _ (by decide)) hq | exact rfl)) | dsimp only

theorem witness_only {ps : List Part} {u0 : State} (hp : ∀ p ∈ ([.out, .freeIdx, .host, .causes, .stats, .log, .sw, .red] : List Part), p ∈ ps)
    (r : Rec) (s : State)  (hk : Only ps u0 s) :
    Only ps u0 (witness r s) := by
  unfold witness
  repeat' first | with_reducible assumption | with_reducible exact sub_trans (by decide) hp | (intro _) | with_reducible apply only_ite
                | extract_lets | with_reducible apply sendWitness_only | with_reducible apply count_only | split
                | (refine only_mk _ ?_ (by intro p hq; cases p <;> first | exact absurd (hp _ (by decide)) hq | exact rfl)) | dsimp only

theorem finishWaits_only {ps : List Part} {u0 : State} (hp : ∀ p ∈ ([.out, .host, .mem, .causes, .stats, .log] : List Part), p ∈ ps) (seq : Nat)
    (status : Nat) (s : State)  (hk : Only ps u0 s) :
    Only ps u0 (finishWaits seq status s) := by
  unfold finishWaits
  repeat' first | with_reducible assumption | with_reducible exact sub_trans (by decide) hp | (intro _) | extract_lets
                | with_reducible apply acsDone_only | with_reducible apply count_only | with_reducible apply only_foldl
                | (refine only_mk _ ?_ (by intro p hq; cases p <;> first | exact absurd (hp _ (by decide)) hq | exact rfl)) | dsimp only

theorem committed_only {ps : List Part} {u0 : State} (hp : ∀ p ∈ ([.out, .host, .mem, .causes, .stats, .log] : List Part), p ∈ ps) (r : Rec)
    (status : Nat) (s : State)  (hk : Only ps u0 s) :
    Only ps u0 (committed r status s) := by
  unfold committed
  repeat' first | with_reducible assumption | with_reducible exact sub_trans (by decide) hp | (intro _) | with_reducible apply only_ite
                | extract_lets | with_reducible apply count_only | with_reducible apply finishWaits_only | with_reducible apply raise_only | split
                | dsimp only

theorem lastWords_only {ps : List Part} {u0 : State}
    (hp : ∀ p ∈ ([.out, .freeIdx, .host, .mem, .causes, .stats, .log, .sw, .red] : List Part), p ∈ ps) (r : Rec) (keep : Bool) (s : State) 
    (hk : Only ps u0 s) :
    Only ps u0 (lastWords r keep s) := by
  unfold lastWords
  repeat' first | with_reducible assumption | with_reducible exact sub_trans (by decide) hp | (intro _) | with_reducible apply only_ite
                | extract_lets | with_reducible apply count_only | with_reducible apply committed_only | with_reducible apply witness_only | split
                | (refine only_mk _ ?_ (by intro p hq; cases p <;> first | exact absurd (hp _ (by decide)) hq | exact rfl)) | dsimp only

theorem queueDropDue_only {ps : List Part} {u0 : State} (hp : ∀ p ∈ ([.out, .host, .causes, .stats, .log] : List Part), p ∈ ps) (s : State) 
    (hk : Only ps u0 s) :
    Only ps u0 (queueDropDue s) := by
  unfold queueDropDue
  repeat' first | with_reducible assumption | with_reducible exact sub_trans (by decide) hp | (intro _) | with_reducible apply only_ite
                | extract_lets | with_reducible apply logQueue_only | split
                | (refine only_mk _ ?_ (by intro p hq; cases p <;> first | exact absurd (hp _ (by decide)) hq | exact rfl)) | dsimp only

theorem degradeDie_only {ps : List Part} {u0 : State} (hp : ∀ p ∈ ([.out, .host, .causes, .stats, .log] : List Part), p ∈ ps) (die : Nat)
    (s : State)  (hk : Only ps u0 s) :
    Only ps u0 (degradeDie die s) := by
  unfold degradeDie
  repeat' first | with_reducible assumption | with_reducible exact sub_trans (by decide) hp | (intro _) | with_reducible apply only_ite
                | extract_lets | with_reducible apply raise_only | with_reducible apply count_only | split
                | (refine only_mk _ ?_ (by intro p hq; cases p <;> first | exact absurd (hp _ (by decide)) hq | exact rfl)) | dsimp only

theorem mediaFault_only {ps : List Part} {u0 : State}
    (hp : ∀ p ∈ ([.out, .freeIdx, .host, .mem, .causes, .stats, .log, .sw, .red] : List Part), p ∈ ps) (die : Nat) (r : Rec) (s : State) 
    (hk : Only ps u0 s) :
    Only ps u0 (mediaFault die r s) := by
  unfold mediaFault
  repeat' first | with_reducible assumption | with_reducible exact sub_trans (by decide) hp | (intro _) | extract_lets
                | with_reducible apply raise_only | with_reducible apply lastWords_only
                | (refine only_mk _ ?_ (by intro p hq; cases p <;> first | exact absurd (hp _ (by decide)) hq | exact rfl)) | dsimp only

theorem commitRecord_only {ps : List Part} {u0 : State}
    (hp : ∀ p ∈ ([.out, .freeIdx, .node, .host, .mem, .causes, .stats, .log, .sw, .red] : List Part), p ∈ ps) (r : Rec) (ok0 ok1 : Bool) (s : State)
    (hk : Only ps u0 s) : Only ps u0 (commitRecord r ok0 ok1 s) := by
  have cnt (k : Nat) (x : State) (hx : Only ps u0 x) : Only ps u0 (count k x) := count_only (sub_trans (by decide) hp) k x hx
  have deg (k : Nat) (x : State) (hx : Only ps u0 x) : Only ps u0 (degradeDie k x) := degradeDie_only (sub_trans (by decide) hp) k x hx
  have lg (c v : Nat) (p : List Byte) (x : State) (hx : Only ps u0 x) : Only ps u0 (logEvent c v p x) := logEvent_only (sub_trans (by decide) hp) c v p x hx
  have mk (l : Studbook) (x : State) (hx : Only ps u0 x) : Only ps u0 { x with log := l } := only_mk x hx (by intro p hq; cases p <;> first | exact absurd (hp _ (by decide)) hq | exact rfl)
  unfold commitRecord
  refine only_ite ?_ (only_ite ?_ ?_)
  · exact only_ite (lastWords_only (sub_trans (by decide) hp) _ _ _ hk) (cnt _ _ hk)
  · refine setResource_only (sub_trans (by decide) hp) _ _ _ (mediaFault_only (sub_trans (by decide) hp) _ _ _ ?_)
    exact only_ite (deg _ _ (only_ite (deg _ _ hk) hk)) (only_ite (deg _ _ hk) hk)
  · extract_lets full k g s1 s2 s3 t src s4 bad
    have h1 : Only ps u0 s1 := mk _ _ hk
    have h2 : Only ps u0 s2 := only_ite (cnt _ _ h1) (only_ite (cnt _ _ h1) h1)
    have h3 : Only ps u0 s3 := committed_only (sub_trans (by decide) hp) _ _ _ h2
    have hc : Only ps u0 t := cnt _ _ h3
    have h4 : Only ps u0 s4 := only_ite (only_ite hc (raise_only (sub_trans (by decide) hp) _ _ _ (lg _ _ _ _ (mk _ _ hc)))) h3
    clear_value s4 bad
    split
    · exact h4
    · exact setResource_only (sub_trans (by decide) hp) _ _ _ (lg _ _ _ _ (deg _ _ h4))

theorem execRecordCommitDone_only (ok0 : Bool) (ok1 : Bool) (s : State) {s9 : State}
    (hk : execRecordCommitDone ok0 ok1 s = .next s9) : Only [.out, .freeIdx, .node, .host, .mem, .causes, .stats, .log, .sw, .red] s s9 := by
  unfold execRecordCommitDone at hk
  cases hk
  repeat' first | with_reducible assumption | decide | (intro _) | with_reducible exact Only.rfl | with_reducible apply only_ite | extract_lets
                | with_reducible apply releaseFences_only | with_reducible apply queueDropDue_only | with_reducible apply commitRecord_only | split
                | (refine only_mk _ ?_ (by intro p hp; cases p <;> first | exact absurd (by decide) hp | exact rfl)) | dsimp only

theorem execRateSummary_only (limiter : Nat) (s : State) {s9 : State}
    (hk : execRateSummary limiter s = .next s9) : Only [.out, .host, .causes, .stats, .log] s s9 := by
  unfold execRateSummary at hk
  cases hk
  repeat' first | with_reducible assumption | decide | (intro _) | with_reducible exact Only.rfl | with_reducible apply only_ite | extract_lets
                | with_reducible apply logQueue_only | with_reducible apply setLimiter_only | split
                | (refine only_mk _ ?_ (by intro p hp; cases p <;> first | exact absurd (by decide) hp | exact rfl)) | dsimp only

theorem execWitnessRepeat_only (s : State) {s9 : State}
    (hk : execWitnessRepeat s = .next s9) : Only [.out, .freeIdx, .host, .causes, .stats, .log, .sw, .red] s s9 := by
  unfold execWitnessRepeat at hk
  cases hk
  repeat' first | with_reducible assumption | decide | (intro _) | with_reducible exact Only.rfl | with_reducible apply only_ite | extract_lets
                | with_reducible apply sendWitness_only | split
                | (refine only_mk _ ?_ (by intro p hp; cases p <;> first | exact absurd (by decide) hp | exact rfl)) | dsimp only

theorem storeWitness_only {ps : List Part} {u0 : State} (hp : ∀ p ∈ ([.out, .node, .host, .causes, .stats, .log] : List Part), p ∈ ps) (src : Nid)
    (gen : Word) (slot : List Byte) (s : State)  (hk : Only ps u0 s) :
    Only ps u0 (storeWitness src gen slot s) := by
  unfold storeWitness
  repeat' first | with_reducible assumption | with_reducible exact sub_trans (by decide) hp | (intro _) | with_reducible apply only_ite
                | extract_lets | with_reducible apply raise_only | with_reducible apply count_only | with_reducible apply logQueue_only
                | with_reducible apply setLimiter_only | split
                | (refine only_mk _ ?_ (by intro p hq; cases p <;> first | exact absurd (hp _ (by decide)) hq | exact rfl)) | dsimp only

theorem execWitnessReceive_only (src : Nid) (gen : Word) (slot : List Byte) (s : State) {s9 : State}
    (hk : execWitnessReceive src gen slot s = .next s9) : Only [.out, .node, .host, .causes, .stats, .log] s s9 := by
  unfold execWitnessReceive at hk
  cases hk
  repeat' first | with_reducible assumption | decide | (intro _) | with_reducible exact Only.rfl | with_reducible apply only_ite | extract_lets
                | with_reducible apply storeWitness_only | split | dsimp only

theorem badCopy_only {ps : List Part} {u0 : State} (hp : ∀ p ∈ ([.out, .freeIdx, .host, .causes, .stats, .log, .sw, .red] : List Part), p ∈ ps)
    (b : BadCopy) (s : State)  (hk : Only ps u0 s) :
    Only ps u0 (badCopy b s) := by
  unfold badCopy
  repeat' first | with_reducible assumption | with_reducible exact sub_trans (by decide) hp | (intro _) | with_reducible apply only_ite
                | extract_lets | with_reducible apply count_only | with_reducible apply logEvent_only | split
                | (refine only_mk _ ?_ (by intro p hq; cases p <;> first | exact absurd (hp _ (by decide)) hq | exact rfl)) | dsimp only

theorem execScrubPass_only (area : Nat) (slots : Nat) (bad : List BadCopy) (s : State) {s9 : State}
    (hk : execScrubPass area slots bad s = .next s9) : Only [.out, .freeIdx, .host, .causes, .stats, .log, .sw, .red] s s9 := by
  unfold execScrubPass at hk
  cases hk
  repeat' first | with_reducible assumption | decide | (intro _) | with_reducible exact Only.rfl | with_reducible apply only_ite | extract_lets
                | with_reducible apply badCopy_only | with_reducible apply logEvent_only | with_reducible apply count_only
                | with_reducible apply only_foldl | split | dsimp only

theorem execRecoveryScan_only (durationMs : Nat) (s : State) {s9 : State}
    (hk : execRecoveryScan durationMs s = .next s9) : Only [.out, .freeIdx, .host, .causes, .stats, .log, .sw, .red] s s9 := by
  unfold execRecoveryScan at hk
  cases hk
  repeat' first | with_reducible assumption | decide | (intro _) | with_reducible exact Only.rfl | with_reducible apply only_ite | extract_lets
                | with_reducible apply raise_only | with_reducible apply logEvent_only | split
                | (refine only_mk _ ?_ (by intro p hp; cases p <;> first | exact absurd (by decide) hp | exact rfl)) | dsimp only

theorem execWholeRegionScanDone_only (durationMs : Nat) (s : State) {s9 : State}
    (hk : execWholeRegionScanDone durationMs s = .next s9) : Only [.out, .freeIdx, .host, .causes, .stats, .log, .sw, .red] s s9 := by
  unfold execWholeRegionScanDone at hk
  cases hk
  repeat' first | with_reducible assumption | decide | (intro _) | with_reducible exact Only.rfl | with_reducible apply only_ite | extract_lets
                | with_reducible apply raise_only | with_reducible apply logEvent_only | split
                | (refine only_mk _ ?_ (by intro p hp; cases p <;> first | exact absurd (by decide) hp | exact rfl)) | dsimp only

theorem execLogRead_only (c : Acs) (bad : List BadCopy) (s : State) {s9 : State}
    (hk : execLogRead c bad s = .next s9) : Only [.out, .freeIdx, .host, .mem, .causes, .stats, .log, .sw, .red] s s9 := by
  unfold execLogRead at hk
  cases hk
  repeat' first | with_reducible assumption | decide | (intro _) | with_reducible exact Only.rfl | with_reducible apply only_ite | extract_lets
                | with_reducible apply acsLen_only | with_reducible apply badArgIf_only | with_reducible apply done_only
                | with_reducible apply mediaFault_only | with_reducible apply badCopy_only | with_reducible apply lastWords_only
                | with_reducible apply only_foldl | split
                | (refine only_mk _ ?_ (by intro p hp; cases p <;> first | exact absurd (by decide) hp | exact rfl)) | dsimp only

theorem hostRecord_only {ps : List Part} {u0 : State}
    (hp : ∀ p ∈ ([.out, .freeIdx, .host, .mem, .causes, .stats, .log, .sw, .red] : List Part), p ∈ ps) (r : AcsRef) (code : Nat) (sev : Nat)
    (pay : List Byte) (s : State)  (hk : Only ps u0 s) :
    Only ps u0 (hostRecord r code sev pay s) := by
  unfold hostRecord
  repeat' first | with_reducible assumption | with_reducible exact sub_trans (by decide) hp | (intro _) | with_reducible apply only_ite
                | extract_lets | with_reducible apply logWith_only | with_reducible apply mediaFault_only | with_reducible apply acsDone_only
                | split | (refine only_mk _ ?_ (by intro p hq; cases p <;> first | exact absurd (hp _ (by decide)) hq | exact rfl)) | dsimp only

theorem logRelease_only {ps : List Part} {u0 : State}
    (hp : ∀ p ∈ ([.out, .freeIdx, .host, .mem, .causes, .stats, .log, .sw, .red] : List Part), p ∈ ps) (s : State)  (hk : Only ps u0 s) :
    Only ps u0 (logRelease s) := by
  unfold logRelease
  repeat' first | with_reducible assumption | with_reducible exact sub_trans (by decide) hp | (intro _) | with_reducible apply only_ite
                | extract_lets | with_reducible apply hostRecord_only | with_reducible apply logWith_only | with_reducible apply witness_only
                | with_reducible apply only_foldl | split
                | (refine only_mk _ ?_ (by intro p hq; cases p <;> first | exact absurd (hp _ (by decide)) hq | exact rfl)) | dsimp only

theorem execLogWrite_only (c : Acs) (s : State) {s9 : State}
    (hk : execLogWrite c s = .next s9) : Only [.out, .freeIdx, .host, .mem, .causes, .stats, .log, .sw, .red] s s9 := by
  unfold execLogWrite at hk
  cases hk
  repeat' first | with_reducible assumption | decide | (intro _) | with_reducible exact Only.rfl | with_reducible apply only_ite | extract_lets
                | with_reducible apply acs_only | with_reducible apply done_only | with_reducible apply badArgIf_only
                | with_reducible apply witness_only | with_reducible apply hostRecord_only | split
                | (refine only_mk _ ?_ (by intro p hp; cases p <;> first | exact absurd (by decide) hp | exact rfl)) | dsimp only

theorem execLogStatus_only (c : Acs) (s : State) {s9 : State}
    (hk : execLogStatus c s = .next s9) : Only [.out, .freeIdx, .host, .mem, .causes, .stats, .log, .sw, .red] s s9 := by
  unfold execLogStatus at hk
  cases hk
  repeat' first | with_reducible assumption | decide | (intro _) | with_reducible exact Only.rfl | extract_lets | with_reducible apply acsLen_only
                | with_reducible apply done_only | with_reducible apply lastWords_only | dsimp only

theorem useAuth_only {ps : List Part} {u0 : State} (hp : ∀ p ∈ ([.sec] : List Part), p ∈ ps) (m : Nat) (opcode : Nat) (s : State) 
    (hk : Only ps u0 s) :
    Only ps u0 (useAuth m opcode s) := by
  unfold useAuth
  repeat' first | with_reducible assumption | (intro _) | extract_lets
                | (refine only_mk _ ?_ (by intro p hq; cases p <;> first | exact absurd (hp _ (by decide)) hq | exact rfl)) | dsimp only

theorem repartition_only {ps : List Part} {u0 : State} (hp : ∀ p ∈ ([.out, .freeIdx, .host, .causes, .stats, .log, .sw, .red] : List Part), p ∈ ps)
    (s : State)  (hk : Only ps u0 s) :
    Only ps u0 (repartition s) := by
  unfold repartition
  repeat' first | with_reducible assumption | with_reducible exact sub_trans (by decide) hp | (intro _) | with_reducible apply only_ite
                | extract_lets | with_reducible apply logEvent_only | split
                | (refine only_mk _ ?_ (by intro p hq; cases p <;> first | exact absurd (hp _ (by decide)) hq | exact rfl)) | dsimp only

theorem execLogClear_only (c : Acs) (s : State) {s9 : State}
    (hk : execLogClear c s = .next s9) : Only [.out, .freeIdx, .sec, .host, .mem, .causes, .stats, .log, .sw, .red] s s9 := by
  unfold execLogClear at hk
  cases hk
  repeat' first | with_reducible assumption | decide | (intro _) | with_reducible exact Only.rfl | with_reducible apply only_ite | extract_lets
                | with_reducible apply acsLen_only | with_reducible apply badArgIf_only | with_reducible apply done_only
                | with_reducible apply mediaFault_only | with_reducible apply lastWords_only | with_reducible apply useAuth_only
                | with_reducible apply logEvent_only | split
                | (refine only_mk _ ?_ (by intro p hp; cases p <;> first | exact absurd (by decide) hp | exact rfl)) | dsimp only

theorem execLogMedia_only (c : Acs) (verified : Bool) (s : State) {s9 : State}
    (hk : execLogMedia c verified s = .next s9) : Only [.out, .freeIdx, .node, .tack, .host, .mem, .causes, .stats, .log, .sw, .macs, .red] s s9 := by
  unfold execLogMedia at hk
  cases hk
  repeat' first | with_reducible assumption | decide | (intro _) | with_reducible exact Only.rfl | with_reducible apply only_ite | extract_lets
                | with_reducible apply acsLen_only | with_reducible apply badArgIf_only | with_reducible apply done_only
                | with_reducible apply setResource_only | with_reducible apply logEvent_only | split
                | (refine only_mk _ ?_ (by intro p hp; cases p <;> first | exact absurd (by decide) hp | exact rfl)) | dsimp only

end Sys2Proof.Machine
end

