-- ==== Sys2Proof/Laws/OnlyWranglerOps.lean ====
section
/-! SUPPORT. The parts of the state that every operation of Machine/WranglerOps.lean may change, said once for each: all others are left alone (Only of
Safety.lean). -/
set_option Elab.async false
set_option linter.all false
namespace Sys2Proof.Machine
theorem wrSay_only {ps : List Part} {u0 : State} (hp : ∀ p ∈ ([.out, .freeIdx, .host, .causes, .stats, .log, .sw, .red] : List Part), p ∈ ps)
    (code : Nat) (sev : Nat) (pay : List Byte) (bit_ : Option Nat) (s : State)  (hk : Only ps u0 s) :
    Only ps u0 (wrSay code sev pay bit_ s) := by
  unfold wrSay
  repeat' first | with_reducible assumption | with_reducible exact sub_trans (by decide) hp | (intro _) | with_reducible apply only_ite
                | extract_lets | with_reducible apply logEvent_only | with_reducible apply raise_only | split
                | (refine only_mk _ ?_ (by intro p hq; cases p <;> first | exact absurd (hp _ (by decide)) hq | exact rfl)) | dsimp only

theorem wrMeasure_only {ps : List Part} {u0 : State} (hp : ∀ p ∈ ([.wr] : List Part), p ∈ ps) (n : Nat) (ns : Nat) (s : State)  (hk : Only ps u0 s) :
    Only ps u0 (wrMeasure n ns s) := by
  unfold wrMeasure
  repeat' first | with_reducible assumption | (intro _) | extract_lets
                | (refine only_mk _ ?_ (by intro p hq; cases p <;> first | exact absurd (hp _ (by decide)) hq | exact rfl)) | dsimp only

theorem setMig_only {ps : List Part} {u0 : State} (hp : ∀ p ∈ ([.wr] : List Part), p ∈ ps) (n : Nat) (f : Migration → Migration) (s : State) 
    (hk : Only ps u0 s) :
    Only ps u0 (setMig n f s) := by
  unfold setMig
  repeat' first | with_reducible assumption | (intro _) | with_reducible apply only_ite | extract_lets | split
                | (refine only_mk _ ?_ (by intro p hq; cases p <;> first | exact absurd (hp _ (by decide)) hq | exact rfl)) | dsimp only

theorem dropMig_only {ps : List Part} {u0 : State} (hp : ∀ p ∈ ([.wr] : List Part), p ∈ ps) (n : Nat) (s : State)  (hk : Only ps u0 s) :
    Only ps u0 (dropMig n s) := by
  unfold dropMig
  repeat' first | with_reducible assumption | (intro _) | extract_lets
                | (refine only_mk _ ?_ (by intro p hq; cases p <;> first | exact absurd (hp _ (by decide)) hq | exact rfl)) | dsimp only

theorem wrTell_only {ps : List Part} {u0 : State} (hp : ∀ p ∈ ([.out, .host, .causes, .stats, .red] : List Part), p ∈ ps) (step : Nat) (nid : Nid)
    (data : List Byte) (s : State)  (hk : Only ps u0 s) :
    Only ps u0 (wrTell step nid data s) := by
  unfold wrTell
  repeat' first | with_reducible assumption | with_reducible exact sub_trans (by decide) hp | (intro _) | extract_lets
                | with_reducible apply tugAll_only | with_reducible apply only_foldl | dsimp only

theorem wrSend_only {ps : List Part} {u0 : State} (hp : ∀ p ∈ ([.out, .freeIdx, .host, .causes, .stats, .sw, .wr] : List Part), p ∈ ps) (msg : Nat)
    (kind : Nat) (round : Nat) (body : List Byte) (s : State)  (hk : Only ps u0 s) :
    Only ps u0 (wrSend msg kind round body s) := by
  unfold wrSend
  repeat' first | with_reducible assumption | with_reducible exact sub_trans (by decide) hp | (intro _) | with_reducible apply only_ite
                | extract_lets | with_reducible apply sendBackbone_only | with_reducible apply useFree_only | split
                | (refine only_mk _ ?_ (by intro p hq; cases p <;> first | exact absurd (hp _ (by decide)) hq | exact rfl)) | dsimp only

theorem openRound_only {ps : List Part} {u0 : State} (hp : ∀ p ∈ ([.wr] : List Part), p ∈ ps) (kind : Nat) (round : Nat) (reports : List
    (Nid × List Byte)) (s : State)  (hk : Only ps u0 s) :
    Only ps u0 (openRound kind round reports s) := by
  unfold openRound
  repeat' first | with_reducible assumption | (intro _) | extract_lets
                | (refine only_mk _ ?_ (by intro p hq; cases p <;> first | exact absurd (hp _ (by decide)) hq | exact rfl)) | dsimp only

theorem startWrRound_only {ps : List Part} {u0 : State} (hp : ∀ p ∈ ([.out, .freeIdx, .host, .causes, .stats, .sw, .red, .wr] : List Part), p ∈ ps)
    (kind : Nat) (round : Nat) (others : List (Nid × List Byte)) (s : State)  (hk : Only ps u0 s) :
    Only ps u0 (startWrRound kind round others s) := by
  unfold startWrRound
  repeat' first | with_reducible assumption | with_reducible exact sub_trans (by decide) hp | (intro _) | with_reducible apply only_ite
                | extract_lets | with_reducible apply openRound_only | with_reducible apply wrTell_only | with_reducible apply wrSend_only | split
                | (refine only_mk _ ?_ (by intro p hq; cases p <;> first | exact absurd (hp _ (by decide)) hq | exact rfl)) | dsimp only

theorem membershipRound_only {ps : List Part} {u0 : State}
    (hp : ∀ p ∈ ([.out, .freeIdx, .host, .causes, .stats, .sw, .red, .wr] : List Part), p ∈ ps) (s : State)  (hk : Only ps u0 s) :
    Only ps u0 (membershipRound s) := by
  unfold membershipRound
  repeat' first | with_reducible assumption | with_reducible exact sub_trans (by decide) hp | (intro _) | extract_lets
                | with_reducible apply startWrRound_only | dsimp only

theorem wrCheck_only {ps : List Part} {u0 : State} (hp : ∀ p ∈ ([.out, .freeIdx, .host, .causes, .stats, .sw, .red, .wr] : List Part), p ∈ ps)
    (s : State)  (hk : Only ps u0 s) :
    Only ps u0 (wrCheck s) := by
  unfold wrCheck
  repeat' first | with_reducible assumption | with_reducible exact sub_trans (by decide) hp | (intro _) | with_reducible apply only_ite
                | extract_lets | with_reducible apply membershipRound_only | split
                | (refine only_mk _ ?_ (by intro p hq; cases p <;> first | exact absurd (hp _ (by decide)) hq | exact rfl)) | dsimp only

theorem takeReport_only {ps : List Part} {u0 : State} (hp : ∀ p ∈ ([.out, .freeIdx, .host, .causes, .stats, .sw, .red, .wr] : List Part), p ∈ ps)
    (nid : Nid) (m : List Byte) (s0 : State)  (hk : Only ps u0 s0) :
    Only ps u0 (takeReport nid m s0) := by
  unfold takeReport
  repeat' first | with_reducible assumption | with_reducible exact sub_trans (by decide) hp | (intro _) | with_reducible apply only_ite
                | extract_lets | with_reducible apply startWrRound_only | split
                | (refine only_mk _ ?_ (by intro p hq; cases p <;> first | exact absurd (hp _ (by decide)) hq | exact rfl)) | dsimp only

theorem takeOwnReport_only {ps : List Part} {u0 : State} (hp : ∀ p ∈ ([.wr] : List Part), p ∈ ps) (m : List Byte) (s : State)  (hk : Only ps u0 s) :
    Only ps u0 (takeOwnReport m s) := by
  unfold takeOwnReport
  repeat' first | with_reducible assumption | with_reducible exact sub_trans (by decide) hp | (intro _) | with_reducible apply only_ite
                | extract_lets | with_reducible apply openRound_only | split
                | (refine only_mk _ ?_ (by intro p hq; cases p <;> first | exact absurd (hp _ (by decide)) hq | exact rfl)) | dsimp only

theorem takeVerdict_only {ps : List Part} {u0 : State} (hp : ∀ p ∈ ([.wr] : List Part), p ∈ ps) (nid : Nid) (m : List Byte) (s : State) 
    (hk : Only ps u0 s) :
    Only ps u0 (takeVerdict nid m s) := by
  unfold takeVerdict
  repeat' first | with_reducible assumption | (intro _) | with_reducible apply only_ite | extract_lets | split
                | (refine only_mk _ ?_ (by intro p hq; cases p <;> first | exact absurd (hp _ (by decide)) hq | exact rfl)) | dsimp only

theorem wrMig_only {ps : List Part} {u0 : State} (hp : ∀ p ∈ ([.out, .freeIdx, .host, .causes, .stats, .sw, .wr] : List Part), p ∈ ps) (msg : Nat)
    (id : Nat) (part : Nat) (last : Nat) (cycle : Nat) (peer : Nid) (data : List Byte) (s : State)  (hk : Only ps u0 s) :
    Only ps u0 (wrMig msg id part last cycle peer data s) := by
  unfold wrMig
  repeat' first | with_reducible assumption | with_reducible exact sub_trans (by decide) hp | (intro _) | extract_lets
                | with_reducible apply wrSend_only | dsimp only

theorem sendBank_only {ps : List Part} {u0 : State} (hp : ∀ p ∈ ([.out, .freeIdx, .host, .causes, .stats, .sw, .wr] : List Part), p ∈ ps)
    (part : Nat) (cycle : Nat) (m : Migration) (b : List Byte) (s : State)  (hk : Only ps u0 s) :
    Only ps u0 (sendBank part cycle m b s) := by
  unfold sendBank
  repeat' first | with_reducible assumption | with_reducible exact sub_trans (by decide) hp | (intro _) | extract_lets
                | with_reducible apply wrMig_only | with_reducible apply only_foldl | dsimp only

theorem sendDelta_only {ps : List Part} {u0 : State} (hp : ∀ p ∈ ([.out, .freeIdx, .host, .causes, .stats, .sw, .wr] : List Part), p ∈ ps)
    (cycle : Nat) (m : Migration) (new : List Byte) (s : State)  (hk : Only ps u0 s) :
    Only ps u0 (sendDelta cycle m new s) := by
  unfold sendDelta
  repeat' first | with_reducible assumption | with_reducible exact sub_trans (by decide) hp | (intro _) | extract_lets
                | with_reducible apply wrMig_only | with_reducible apply only_foldl | dsimp only

theorem sendRelease_only {ps : List Part} {u0 : State} (hp : ∀ p ∈ ([.out, .freeIdx, .host, .causes, .stats, .sw, .wr] : List Part), p ∈ ps)
    (n : Nat) (s : State)  (hk : Only ps u0 s) :
    Only ps u0 (sendRelease n s) := by
  unfold sendRelease
  repeat' first | with_reducible assumption | with_reducible exact sub_trans (by decide) hp | (intro _) | with_reducible apply only_ite
                | extract_lets | with_reducible apply sendBank_only | with_reducible apply wrMig_only | split
                | (refine only_mk _ ?_ (by intro p hq; cases p <;> first | exact absurd (hp _ (by decide)) hq | exact rfl)) | dsimp only

theorem migrateOut_only {ps : List Part} {u0 : State}
    (hp : ∀ p ∈ ([.out, .freeIdx, .host, .causes, .stats, .log, .sw, .ctl, .red, .wr] : List Part), p ∈ ps) (n : Nat) (id : Nat) (peer : Nid)
    (s : State)  (hk : Only ps u0 s) :
    Only ps u0 (migrateOut n id peer s) := by
  unfold migrateOut
  repeat' first | with_reducible assumption | with_reducible exact sub_trans (by decide) hp | (intro _) | extract_lets
                | with_reducible apply wrSay_only | with_reducible apply setTask_only
                | (refine only_mk _ ?_ (by intro p hq; cases p <;> first | exact absurd (hp _ (by decide)) hq | exact rfl)) | dsimp only

theorem migrateIn_only {ps : List Part} {u0 : State}
    (hp : ∀ p ∈ ([.out, .freeIdx, .host, .mem, .causes, .stats, .log, .hitch, .time, .sw, .stream, .ctl, .red, .wr, .leg] : List Part), p ∈ ps)
    (n : Nat) (id : Nat) (peer : Nid) (s : State)  (hk : Only ps u0 s) :
    Only ps u0 (migrateIn n id peer s) := by
  unfold migrateIn
  repeat' first | with_reducible assumption | with_reducible exact sub_trans (by decide) hp | (intro _) | with_reducible apply only_ite
                | extract_lets | with_reducible apply wrSay_only | with_reducible apply enableSubs_only | with_reducible apply assignPair_only
                | with_reducible apply setTask_only | split
                | (refine only_mk _ ?_ (by intro p hq; cases p <;> first | exact absurd (hp _ (by decide)) hq | exact rfl)) | dsimp only

theorem leaveTask_only {ps : List Part} {u0 : State}
    (hp : ∀ p ∈ ([.out, .freeIdx, .host, .mem, .causes, .stats, .log, .hitch, .time, .sw, .stream, .ctl, .red, .leg] : List Part), p ∈ ps) (n : Nat)
    (st : TaskSt) (owner : Nid) (s : State)  (hk : Only ps u0 s) :
    Only ps u0 (leaveTask n st owner s) := by
  unfold leaveTask
  repeat' first | with_reducible assumption | with_reducible exact sub_trans (by decide) hp | (intro _) | with_reducible apply only_ite
                | extract_lets | with_reducible apply setTask_only | with_reducible apply haltTask_only | with_reducible apply enableSubs_only
                | with_reducible apply enablePubs_only | split
                | (refine only_mk _ ?_ (by intro p hq; cases p <;> first | exact absurd (hp _ (by decide)) hq | exact rfl)) | dsimp only

theorem abortOut_only {ps : List Part} {u0 : State}
    (hp : ∀ p ∈ ([.out, .freeIdx, .host, .mem, .causes, .stats, .log, .hitch, .time, .sw, .stream, .ctl, .red, .wr, .leg] : List Part), p ∈ ps)
    (n : Nat) (cause : Nat) (s : State)  (hk : Only ps u0 s) :
    Only ps u0 (abortOut n cause s) := by
  unfold abortOut
  repeat' first | with_reducible assumption | with_reducible exact sub_trans (by decide) hp | (intro _) | with_reducible apply only_ite
                | extract_lets | with_reducible apply enableSubs_only | with_reducible apply enablePubs_only | with_reducible apply assignPair_only
                | with_reducible apply setTask_only | with_reducible apply dropMig_only | with_reducible apply wrSay_only
                | with_reducible apply wrMig_only | split
                | (refine only_mk _ ?_ (by intro p hq; cases p <;> first | exact absurd (hp _ (by decide)) hq | exact rfl)) | dsimp only

theorem dropIn_only {ps : List Part} {u0 : State}
    (hp : ∀ p ∈ ([.out, .freeIdx, .host, .mem, .causes, .stats, .log, .hitch, .time, .sw, .stream, .ctl, .red, .wr, .leg] : List Part), p ∈ ps)
    (n : Nat) (owner : Nid) (s : State)  (hk : Only ps u0 s) :
    Only ps u0 (dropIn n owner s) := by
  unfold dropIn
  repeat' first | with_reducible assumption | with_reducible exact sub_trans (by decide) hp | (intro _) | with_reducible apply only_ite
                | extract_lets | with_reducible apply dropMig_only | with_reducible apply leaveTask_only | split | dsimp only

theorem sourceLost_only {ps : List Part} {u0 : State}
    (hp : ∀ p ∈ ([.out, .freeIdx, .host, .mem, .causes, .stats, .log, .hitch, .time, .sw, .stream, .ctl, .red, .wr, .leg] : List Part), p ∈ ps)
    (n : Nat) (s : State)  (hk : Only ps u0 s) :
    Only ps u0 (sourceLost n s) := by
  unfold sourceLost
  repeat' first | with_reducible assumption | with_reducible exact sub_trans (by decide) hp | (intro _) | with_reducible apply only_ite
                | extract_lets | with_reducible apply dropIn_only | split
                | (refine only_mk _ ?_ (by intro p hq; cases p <;> first | exact absurd (hp _ (by decide)) hq | exact rfl)) | dsimp only

theorem wrPeersGone_only {ps : List Part} {u0 : State}
    (hp : ∀ p ∈ ([.out, .freeIdx, .host, .mem, .causes, .stats, .log, .hitch, .time, .sw, .stream, .ctl, .red, .wr, .leg] : List Part), p ∈ ps)
    (gone : Nid → Bool) (s : State)  (hk : Only ps u0 s) :
    Only ps u0 (wrPeersGone gone s) := by
  unfold wrPeersGone
  repeat' first | with_reducible assumption | with_reducible exact sub_trans (by decide) hp | (intro _) | with_reducible apply only_ite
                | extract_lets | with_reducible apply abortOut_only | with_reducible apply sourceLost_only | with_reducible apply only_foldl | split
                | dsimp only

theorem wrLeave_only {ps : List Part} {u0 : State}
    (hp : ∀ p ∈ ([.out, .freeIdx, .host, .mem, .causes, .stats, .log, .hitch, .time, .sw, .stream, .ctl, .red, .wr, .leg] : List Part), p ∈ ps)
    (s : State)  (hk : Only ps u0 s) :
    Only ps u0 (wrLeave s) := by
  unfold wrLeave
  repeat' first | with_reducible assumption | with_reducible exact sub_trans (by decide) hp | (intro _) | with_reducible apply only_ite
                | extract_lets | with_reducible apply dropMig_only | with_reducible apply dropIn_only | with_reducible apply only_foldl | split
                | (refine only_mk _ ?_ (by intro p hq; cases p <;> first | exact absurd (hp _ (by decide)) hq | exact rfl)) | dsimp only

theorem takeExact_only {ps : List Part} {u0 : State} (hp : ∀ p ∈ ([.out, .host, .mem, .causes, .stats, .log, .ctl, .wr] : List Part), p ∈ ps)
    (n : Nat) (s : State)  (hk : Only ps u0 s) :
    Only ps u0 (takeExact n s) := by
  unfold takeExact
  repeat' first | with_reducible assumption | with_reducible exact sub_trans (by decide) hp | (intro _) | with_reducible apply only_ite
                | extract_lets | with_reducible apply setTask_only | with_reducible apply committed_only | with_reducible apply setMig_only | split
                | (refine only_mk _ ?_ (by intro p hq; cases p <;> first | exact absurd (hp _ (by decide)) hq | exact rfl)) | dsimp only

theorem ackCycles_only {ps : List Part} {u0 : State} (hp : ∀ p ∈ ([.out, .freeIdx, .host, .causes, .stats, .sw, .wr] : List Part), p ∈ ps) (n : Nat)
    (before : Option Nat) (done_ : List Nat) (s : State)  (hk : Only ps u0 s) :
    Only ps u0 (ackCycles n before done_ s) := by
  unfold ackCycles
  repeat' first | with_reducible assumption | with_reducible exact sub_trans (by decide) hp | (intro _) | with_reducible apply only_ite
                | extract_lets | with_reducible apply wrMig_only | with_reducible apply only_foldl | split
                | (refine only_mk _ ?_ (by intro p hq; cases p <;> first | exact absurd (hp _ (by decide)) hq | exact rfl)) | dsimp only

theorem takeState_only {ps : List Part} {u0 : State}
    (hp : ∀ p ∈ ([.out, .freeIdx, .host, .mem, .causes, .stats, .log, .sw, .ctl, .wr] : List Part), p ∈ ps) (nid : Nid) (b : List Byte) (s : State) 
    (hk : Only ps u0 s) :
    Only ps u0 (takeState nid b s) := by
  unfold takeState
  try dsimp only
  repeat' first | with_reducible assumption | with_reducible exact sub_trans (by decide) hp | (intro _) | with_reducible exact Only.rfl
                | with_reducible apply only_ite | with_reducible apply only_ite_app | with_reducible apply only_id | with_reducible apply wrMig_only
                | with_reducible apply setMig_only | with_reducible apply ackCycles_only | with_reducible apply takeExact_only
                | with_reducible apply only_foldl | with_reducible apply only_foldl2 | split
                | (refine only_mk _ ?_ (by intro p hq; cases p <;> first | exact absurd (hp _ (by decide)) hq | exact rfl)) | dsimp only

theorem takeRelease_only {ps : List Part} {u0 : State} (hp : ∀ p ∈ ([.wr] : List Part), p ∈ ps) (nid : Nid) (b : List Byte) (s : State) 
    (hk : Only ps u0 s) :
    Only ps u0 (takeRelease nid b s) := by
  unfold takeRelease
  repeat' first | with_reducible assumption | with_reducible exact sub_trans (by decide) hp | (intro _) | with_reducible apply only_ite
                | extract_lets | with_reducible apply setMig_only | split
                | (refine only_mk _ ?_ (by intro p hq; cases p <;> first | exact absurd (hp _ (by decide)) hq | exact rfl)) | dsimp only

theorem tryRelease_only {ps : List Part} {u0 : State} (hp : ∀ p ∈ ([.out, .freeIdx, .host, .causes, .stats, .sw, .wr] : List Part), p ∈ ps) (n : Nat)
    (s : State)  (hk : Only ps u0 s) :
    Only ps u0 (tryRelease n s) := by
  unfold tryRelease
  repeat' first | with_reducible assumption | with_reducible exact sub_trans (by decide) hp | (intro _) | with_reducible apply only_ite
                | extract_lets | with_reducible apply sendRelease_only | with_reducible apply setMig_only | split
                | (refine only_mk _ ?_ (by intro p hq; cases p <;> first | exact absurd (hp _ (by decide)) hq | exact rfl)) | dsimp only

theorem takeAck_only {ps : List Part} {u0 : State} (hp : ∀ p ∈ ([.out, .freeIdx, .host, .causes, .stats, .sw, .wr] : List Part), p ∈ ps) (nid : Nid)
    (b : List Byte) (s : State)  (hk : Only ps u0 s) :
    Only ps u0 (takeAck nid b s) := by
  unfold takeAck
  repeat' first | with_reducible assumption | with_reducible exact sub_trans (by decide) hp | (intro _) | with_reducible apply only_ite
                | extract_lets | with_reducible apply tryRelease_only | with_reducible apply setMig_only | split
                | (refine only_mk _ ?_ (by intro p hq; cases p <;> first | exact absurd (hp _ (by decide)) hq | exact rfl)) | dsimp only

theorem takeTaken_only {ps : List Part} {u0 : State}
    (hp : ∀ p ∈ ([.out, .freeIdx, .host, .causes, .stats, .log, .sw, .red, .wr] : List Part), p ∈ ps) (nid : Nid) (b : List Byte) (s : State) 
    (hk : Only ps u0 s) :
    Only ps u0 (takeTaken nid b s) := by
  unfold takeTaken
  repeat' first | with_reducible assumption | with_reducible exact sub_trans (by decide) hp | (intro _) | with_reducible apply only_ite
                | extract_lets | with_reducible apply wrSay_only | with_reducible apply dropMig_only | split
                | (refine only_mk _ ?_ (by intro p hq; cases p <;> first | exact absurd (hp _ (by decide)) hq | exact rfl)) | dsimp only

theorem takeAbort_only {ps : List Part} {u0 : State}
    (hp : ∀ p ∈ ([.out, .freeIdx, .host, .mem, .causes, .stats, .log, .hitch, .time, .sw, .stream, .ctl, .red, .wr, .leg] : List Part), p ∈ ps)
    (nid : Nid) (b : List Byte) (s : State)  (hk : Only ps u0 s) :
    Only ps u0 (takeAbort nid b s) := by
  unfold takeAbort
  repeat' first | with_reducible assumption | with_reducible exact sub_trans (by decide) hp | (intro _) | with_reducible apply only_ite
                | extract_lets | with_reducible apply dropIn_only | with_reducible apply raise_only | split
                | (refine only_mk _ ?_ (by intro p hq; cases p <;> first | exact absurd (hp _ (by decide)) hq | exact rfl)) | dsimp only

theorem wrMessage_only {ps : List Part} {u0 : State}
    (hp : ∀ p ∈ ([.out, .freeIdx, .host, .mem, .causes, .stats, .log, .hitch, .time, .sw, .stream, .ctl, .red, .wr, .leg] : List Part), p ∈ ps)
    (nid : Nid) (m : List Byte) (s : State)  (hk : Only ps u0 s) :
    Only ps u0 (wrMessage nid m s) := by
  unfold wrMessage
  repeat' first | with_reducible assumption | with_reducible exact sub_trans (by decide) hp | (intro _) | with_reducible apply only_ite
                | extract_lets | with_reducible apply takeReport_only | with_reducible apply takeVerdict_only | with_reducible apply takeState_only
                | with_reducible apply takeAck_only | with_reducible apply takeRelease_only | with_reducible apply takeTaken_only
                | with_reducible apply takeAbort_only | split
                | (refine only_mk _ ?_ (by intro p hq; cases p <;> first | exact absurd (hp _ (by decide)) hq | exact rfl)) | dsimp only

theorem wrFrame_only {ps : List Part} {u0 : State}
    (hp : ∀ p ∈ ([.out, .freeIdx, .host, .mem, .causes, .stats, .log, .hitch, .time, .sw, .stream, .ctl, .red, .wr, .leg] : List Part), p ∈ ps)
    (msg : Nat) (f : Frame) (s : State)  (hk : Only ps u0 s) :
    Only ps u0 (wrFrame msg f s) := by
  unfold wrFrame
  repeat' first | with_reducible assumption | with_reducible exact sub_trans (by decide) hp | (intro _) | with_reducible apply only_ite
                | extract_lets | with_reducible apply wrMessage_only | with_reducible apply wrTell_only | split
                | (refine only_mk _ ?_ (by intro p hq; cases p <;> first | exact absurd (hp _ (by decide)) hq | exact rfl)) | dsimp only

theorem migAtGrid_only {ps : List Part} {u0 : State}
    (hp : ∀ p ∈ ([.out, .freeIdx, .host, .mem, .causes, .stats, .log, .hitch, .time, .sw, .stream, .ctl, .red, .wr, .leg] : List Part), p ∈ ps)
    (n : Nat) (s : State)  (hk : Only ps u0 s) :
    Only ps u0 (migAtGrid n s) := by
  unfold migAtGrid
  repeat' first | with_reducible assumption | with_reducible exact sub_trans (by decide) hp | (intro _) | with_reducible apply only_ite
                | extract_lets | with_reducible apply sendRelease_only | with_reducible apply leaveTask_only | with_reducible apply setMig_only
                | split | (refine only_mk _ ?_ (by intro p hq; cases p <;> first | exact absurd (hp _ (by decide)) hq | exact rfl)) | dsimp only

theorem migCommitted_only {ps : List Part} {u0 : State}
    (hp : ∀ p ∈ ([.out, .freeIdx, .host, .mem, .causes, .stats, .log, .sw, .wr] : List Part), p ∈ ps) (n : Nat) (s : State)  (hk : Only ps u0 s) :
    Only ps u0 (migCommitted n s) := by
  unfold migCommitted
  repeat' first | with_reducible assumption | with_reducible exact sub_trans (by decide) hp | (intro _) | with_reducible apply only_ite
                | extract_lets | with_reducible apply sendDelta_only | with_reducible apply committed_only | with_reducible apply sendBank_only
                | with_reducible apply setMig_only | split
                | (refine only_mk _ ?_ (by intro p hq; cases p <;> first | exact absurd (hp _ (by decide)) hq | exact rfl)) | dsimp only

theorem handedPubs_only {ps : List Part} {u0 : State}
    (hp : ∀ p ∈ ([.out, .freeIdx, .host, .mem, .causes, .stats, .log, .hitch, .time, .sw, .stream, .ctl, .red, .leg] : List Part), p ∈ ps) (n : Nat)
    (metas : List (Nat × Nat)) (image : Option (List Byte)) (s : State)  (hk : Only ps u0 s) :
    Only ps u0 (handedPubs n metas image s) := by
  unfold handedPubs
  repeat' first | with_reducible assumption | with_reducible exact sub_trans (by decide) hp | (intro _) | with_reducible apply only_ite
                | extract_lets | with_reducible apply setTask_only | with_reducible apply setCtx_only | with_reducible apply enablePubs_only
                | with_reducible apply only_foldl | split
                | (refine only_mk _ ?_ (by intro p hq; cases p <;> first | exact absurd (hp _ (by decide)) hq | exact rfl)) | dsimp only

theorem migHandOver_only {ps : List Part} {u0 : State}
    (hp : ∀ p ∈ ([.out, .freeIdx, .host, .mem, .causes, .stats, .log, .hitch, .time, .sw, .stream, .ctl, .red, .leg] : List Part), p ∈ ps) (n : Nat)
    (s : State)  (hk : Only ps u0 s) :
    Only ps u0 (migHandOver n s) := by
  unfold migHandOver
  repeat' first | with_reducible assumption | with_reducible exact sub_trans (by decide) hp | (intro _) | with_reducible apply only_ite
                | extract_lets | with_reducible apply handedPubs_only | split
                | (refine only_mk _ ?_ (by intro p hq; cases p <;> first | exact absurd (hp _ (by decide)) hq | exact rfl)) | dsimp only

theorem migTaken_only {ps : List Part} {u0 : State}
    (hp : ∀ p ∈ ([.out, .freeIdx, .host, .mem, .causes, .stats, .log, .hitch, .time, .sw, .stream, .ctl, .red, .wr, .leg] : List Part), p ∈ ps)
    (n : Nat) (first : Nat) (s : State)  (hk : Only ps u0 s) :
    Only ps u0 (migTaken n first s) := by
  unfold migTaken
  repeat' first | with_reducible assumption | with_reducible exact sub_trans (by decide) hp | (intro _) | with_reducible apply only_ite
                | extract_lets | with_reducible apply migHandOver_only | with_reducible apply raise_only | with_reducible apply wrMig_only
                | with_reducible apply dropMig_only | with_reducible apply setTask_only | split
                | (refine only_mk _ ?_ (by intro p hq; cases p <;> first | exact absurd (hp _ (by decide)) hq | exact rfl)) | dsimp only

theorem adopt_only {ps : List Part} {u0 : State}
    (hp : ∀ p ∈ ([.out, .freeIdx, .host, .mem, .causes, .stats, .log, .hitch, .time, .sw, .stream, .ctl, .red, .wr, .leg] : List Part), p ∈ ps)
    (n : Nat) (id : Nat) (s : State)  (hk : Only ps u0 s) :
    Only ps u0 (adopt n id s) := by
  unfold adopt
  repeat' first | with_reducible assumption | with_reducible exact sub_trans (by decide) hp | (intro _) | with_reducible apply only_ite
                | extract_lets | with_reducible apply committed_only | with_reducible apply assignPair_only | with_reducible apply setTask_only
                | with_reducible apply handedPubs_only | with_reducible apply enableSubs_only | with_reducible apply wrSay_only | split
                | (refine only_mk _ ?_ (by intro p hq; cases p <;> first | exact absurd (hp _ (by decide)) hq | exact rfl)) | dsimp only

theorem chooseLines_only {ps : List Part} {u0 : State} (hp : ∀ p ∈ ([.stream] : List Part), p ∈ ps) (is : List WrIn) (s : State) 
    (hk : Only ps u0 s) :
    Only ps u0 (chooseLines is s) := by
  unfold chooseLines
  repeat' first | with_reducible assumption | with_reducible exact sub_trans (by decide) hp | (intro _) | with_reducible apply only_ite
                | extract_lets | with_reducible apply setCtx_only | with_reducible apply only_foldl | split
                | (refine only_mk _ ?_ (by intro p hq; cases p <;> first | exact absurd (hp _ (by decide)) hq | exact rfl)) | dsimp only

theorem applyOne_only {ps : List Part} {u0 : State}
    (hp : ∀ p ∈ ([.out, .freeIdx, .host, .mem, .causes, .stats, .log, .hitch, .time, .sw, .stream, .ctl, .red, .wr, .leg] : List Part), p ∈ ps)
    (p : Placed) (n : Nat) (t : Task) (s : State)  (hk : Only ps u0 s) :
    Only ps u0 (applyOne p n t s) := by
  unfold applyOne
  repeat' first | with_reducible assumption | with_reducible exact sub_trans (by decide) hp | (intro _) | with_reducible apply only_ite
                | extract_lets | with_reducible apply abortOut_only | with_reducible apply adopt_only | with_reducible apply sourceLost_only
                | with_reducible apply migrateIn_only | with_reducible apply migrateOut_only | with_reducible apply setTask_only | split
                | (refine only_mk _ ?_ (by intro p hq; cases p <;> first | exact absurd (hp _ (by decide)) hq | exact rfl)) | dsimp only

theorem applyPlaces_only {ps : List Part} {u0 : State}
    (hp : ∀ p ∈ ([.out, .freeIdx, .host, .mem, .causes, .stats, .log, .hitch, .time, .sw, .stream, .ctl, .red, .wr, .leg] : List Part), p ∈ ps)
    (ps9 : List Placed) (s : State)  (hk : Only ps u0 s) :
    Only ps u0 (applyPlaces ps9 s) := by
  unfold applyPlaces
  repeat' first | with_reducible assumption | with_reducible exact sub_trans (by decide) hp | (intro _) | with_reducible apply only_ite
                | extract_lets | with_reducible apply applyOne_only | with_reducible apply only_foldl | split
                | (refine only_mk _ ?_ (by intro p hq; cases p <;> first | exact absurd (hp _ (by decide)) hq | exact rfl)) | dsimp only

theorem applyPlacement_only {ps : List Part} {u0 : State}
    (hp : ∀ p ∈ ([.out, .freeIdx, .host, .mem, .causes, .stats, .log, .hitch, .time, .sw, .stream, .ctl, .red, .wr, .leg] : List Part), p ∈ ps)
    (r : WrRound) (ps0 : List Placed) (home : Bool) (s : State)  (hk : Only ps u0 s) :
    Only ps u0 (applyPlacement r ps0 home s) := by
  unfold applyPlacement
  repeat' first | with_reducible assumption | with_reducible exact sub_trans (by decide) hp | (intro _) | with_reducible apply only_ite
                | extract_lets | with_reducible apply wrPeersGone_only | with_reducible apply chooseLines_only
                | with_reducible apply applyPlaces_only | with_reducible apply wrSay_only | with_reducible apply only_foldl | split
                | (refine only_mk _ ?_ (by intro p hq; cases p <;> first | exact absurd (hp _ (by decide)) hq | exact rfl)) | dsimp only

theorem wrFreeze_only {ps : List Part} {u0 : State} (hp : ∀ p ∈ ([.wr] : List Part), p ∈ ps) (s : State)  (hk : Only ps u0 s) :
    Only ps u0 (wrFreeze s) := by
  unfold wrFreeze
  repeat' first | with_reducible assumption | (intro _) | with_reducible apply only_ite | extract_lets | split
                | (refine only_mk _ ?_ (by intro p hq; cases p <;> first | exact absurd (hp _ (by decide)) hq | exact rfl)) | dsimp only

theorem wrCompute_only {ps : List Part} {u0 : State}
    (hp : ∀ p ∈ ([.out, .freeIdx, .host, .causes, .stats, .log, .sw, .red, .wr] : List Part), p ∈ ps) (s : State)  (hk : Only ps u0 s) :
    Only ps u0 (wrCompute s) := by
  unfold wrCompute
  repeat' first | with_reducible assumption | with_reducible exact sub_trans (by decide) hp | (intro _) | with_reducible apply only_ite
                | extract_lets | with_reducible apply wrSend_only | with_reducible apply wrSay_only | with_reducible apply raise_only | split
                | (refine only_mk _ ?_ (by intro p hq; cases p <;> first | exact absurd (hp _ (by decide)) hq | exact rfl)) | dsimp only

theorem wrApply_only {ps : List Part} {u0 : State}
    (hp : ∀ p ∈ ([.out, .freeIdx, .host, .mem, .causes, .stats, .log, .hitch, .time, .sw, .stream, .ctl, .red, .wr, .leg] : List Part), p ∈ ps)
    (s : State)  (hk : Only ps u0 s) :
    Only ps u0 (wrApply s) := by
  unfold wrApply
  repeat' first | with_reducible assumption | with_reducible exact sub_trans (by decide) hp | (intro _) | with_reducible apply only_ite
                | extract_lets | with_reducible apply applyPlacement_only | split
                | (refine only_mk _ ?_ (by intro p hq; cases p <;> first | exact absurd (hp _ (by decide)) hq | exact rfl)) | dsimp only

theorem wrDisagree_only {ps : List Part} {u0 : State}
    (hp : ∀ p ∈ ([.out, .freeIdx, .host, .causes, .stats, .log, .sw, .red, .wr] : List Part), p ∈ ps) (s : State)  (hk : Only ps u0 s) :
    Only ps u0 (wrDisagree s) := by
  unfold wrDisagree
  repeat' first | with_reducible assumption | with_reducible exact sub_trans (by decide) hp | (intro _) | with_reducible apply only_ite
                | extract_lets | with_reducible apply wrSay_only | with_reducible apply membershipRound_only | split
                | (refine only_mk _ ?_ (by intro p hq; cases p <;> first | exact absurd (hp _ (by decide)) hq | exact rfl)) | dsimp only

theorem wrSwitch_only {ps : List Part} {u0 : State}
    (hp : ∀ p ∈ ([.out, .freeIdx, .host, .mem, .causes, .stats, .log, .hitch, .time, .sw, .stream, .ctl, .red, .wr, .leg] : List Part), p ∈ ps)
    (s : State)  (hk : Only ps u0 s) :
    Only ps u0 (wrSwitch s) := by
  unfold wrSwitch
  repeat' first | with_reducible assumption | with_reducible exact sub_trans (by decide) hp | (intro _) | extract_lets
                | with_reducible apply startWrRound_only | with_reducible apply wrPeersGone_only
                | (refine only_mk _ ?_ (by intro p hq; cases p <;> first | exact absurd (hp _ (by decide)) hq | exact rfl)) | dsimp only

theorem wrTold_only {ps : List Part} {u0 : State}
    (hp : ∀ p ∈ ([.out, .freeIdx, .host, .mem, .causes, .stats, .log, .hitch, .time, .sw, .stream, .ctl, .red, .wr, .leg] : List Part), p ∈ ps)
    (step : Nat) (nid : Nid) (m : List Byte) (s : State)  (hk : Only ps u0 s) :
    Only ps u0 (wrTold step nid m s) := by
  unfold wrTold
  repeat' first | with_reducible assumption | with_reducible exact sub_trans (by decide) hp | (intro _) | with_reducible apply only_ite
                | extract_lets | with_reducible apply takeOwnReport_only | with_reducible apply wrMessage_only | with_reducible apply wrFreeze_only
                | with_reducible apply wrCompute_only | with_reducible apply wrApply_only | with_reducible apply wrDisagree_only | split
                | (refine only_mk _ ?_ (by intro p hq; cases p <;> first | exact absurd (hp _ (by decide)) hq | exact rfl)) | dsimp only

end Sys2Proof.Machine
end

