-- ==== Sys2Proof/Laws/OnlyRedundOps.lean ====
section
/-! SUPPORT. The parts of the state that every operation of Machine/RedundOps.lean may change, said once for each: all others are left alone (Only of
Safety.lean). -/
set_option Elab.async false
set_option linter.all false
namespace Sys2Proof.Machine
theorem ownerChanged_only {ps : List Part} {u0 : State}
    (hp : ∀ p ∈ ([.out, .freeIdx, .host, .causes, .stats, .log, .sw, .red, .can, .leg, .br] : List Part), p ∈ ps) (was : Bool) (s : State) 
    (hk : Only ps u0 s) :
    Only ps u0 (ownerChanged was s) := by
  unfold ownerChanged
  repeat' first | with_reducible assumption | with_reducible exact sub_trans (by decide) hp | (intro _) | with_reducible apply only_ite
                | extract_lets | with_reducible apply importAll_only | with_reducible apply bridgeOwnerChange_only
                | with_reducible apply legSync_only | with_reducible apply canModes_only | split | dsimp only

theorem setRole_only {ps : List Part} {u0 : State} (hp : ∀ p ∈ ([.out, .host, .causes, .stats, .red] : List Part), p ∈ ps) (r : Role) (s : State) 
    (hk : Only ps u0 s) :
    Only ps u0 (setRole r s) := by
  unfold setRole
  repeat' first | with_reducible assumption | with_reducible exact sub_trans (by decide) hp | (intro _) | with_reducible apply only_ite
                | extract_lets | with_reducible apply raise_only | split
                | (refine only_mk _ ?_ (by intro p hq; cases p <;> first | exact absurd (hp _ (by decide)) hq | exact rfl)) | dsimp only

theorem settleMembers_only {ps : List Part} {u0 : State}
    (hp : ∀ p ∈ ([.out, .freeIdx, .node, .pwr, .host, .causes, .stats, .log, .time, .sw, .red, .can, .leg, .br] : List Part), p ∈ ps) (s : State) 
    (hk : Only ps u0 s) :
    Only ps u0 (settleMembers s) := by
  unfold settleMembers
  repeat' first | with_reducible assumption | with_reducible exact sub_trans (by decide) hp | (intro _) | with_reducible apply only_ite
                | extract_lets | with_reducible apply raise_only | with_reducible apply drivePin_only | with_reducible apply setResource_only
                | with_reducible apply ownerChanged_only | split
                | (refine only_mk _ ?_ (by intro p hq; cases p <;> first | exact absurd (hp _ (by decide)) hq | exact rfl)) | dsimp only

theorem assertClaim_only {ps : List Part} {u0 : State}
    (hp : ∀ p ∈ ([.out, .freeIdx, .node, .pwr, .host, .causes, .stats, .log, .time, .sw, .red, .can, .leg, .br] : List Part), p ∈ ps) (cause : Nat)
    (r : Role) (s : State)  (hk : Only ps u0 s) :
    Only ps u0 (assertClaim cause r s) := by
  unfold assertClaim
  repeat' first | with_reducible assumption | with_reducible exact sub_trans (by decide) hp | (intro _) | extract_lets
                | with_reducible apply setRole_only | with_reducible apply raise_only | with_reducible apply logEvent_only
                | with_reducible apply count_only | with_reducible apply drivePin_only | with_reducible apply ownerChanged_only
                | with_reducible apply settleMembers_only
                | (refine only_mk _ ?_ (by intro p hq; cases p <;> first | exact absurd (hp _ (by decide)) hq | exact rfl)) | dsimp only

theorem releaseClaim_only {ps : List Part} {u0 : State}
    (hp : ∀ p ∈ ([.out, .freeIdx, .node, .pwr, .host, .causes, .stats, .log, .time, .sw, .red, .can, .leg, .br] : List Part), p ∈ ps) (check : Nat)
    (r : Role) (s : State)  (hk : Only ps u0 s) :
    Only ps u0 (releaseClaim check r s) := by
  unfold releaseClaim
  repeat' first | with_reducible assumption | with_reducible exact sub_trans (by decide) hp | (intro _) | with_reducible apply only_ite
                | extract_lets | with_reducible apply setRole_only | with_reducible apply raise_only | with_reducible apply logEvent_only
                | with_reducible apply count_only | with_reducible apply drivePin_only | with_reducible apply ownerChanged_only
                | with_reducible apply settleMembers_only | split
                | (refine only_mk _ ?_ (by intro p hq; cases p <;> first | exact absurd (hp _ (by decide)) hq | exact rfl)) | dsimp only

theorem haltAll_only {ps : List Part} {u0 : State} (hp : ∀ p ∈ ([.out, .pwr, .ctl] : List Part), p ∈ ps) (s : State)  (hk : Only ps u0 s) :
    Only ps u0 (haltAll s) := by
  unfold haltAll
  repeat' first | with_reducible assumption | with_reducible exact sub_trans (by decide) hp | (intro _) | extract_lets
                | with_reducible apply resetGpio_only | with_reducible apply only_foldl | with_reducible apply only_foldl2
                | (refine only_mk _ ?_ (by intro p hq; cases p <;> first | exact absurd (hp _ (by decide)) hq | exact rfl)) | dsimp only

theorem excludeSelf_only {ps : List Part} {u0 : State}
    (hp : ∀ p ∈ ([.out, .freeIdx, .node, .pwr, .host, .causes, .stats, .log, .time, .sw, .ctl, .red, .can, .leg, .br] : List Part), p ∈ ps)
    (cause : Nat) (check : Nat) (s : State)  (hk : Only ps u0 s) :
    Only ps u0 (excludeSelf cause check s) := by
  unfold excludeSelf
  repeat' first | with_reducible assumption | with_reducible exact sub_trans (by decide) hp | (intro _) | with_reducible apply only_ite
                | extract_lets | with_reducible apply logEvent_only | with_reducible apply count_only | with_reducible apply haltAll_only
                | with_reducible apply releaseClaim_only | split
                | (refine only_mk _ ?_ (by intro p hq; cases p <;> first | exact absurd (hp _ (by decide)) hq | exact rfl)) | dsimp only

theorem sendTail_only {ps : List Part} {u0 : State} (hp : ∀ p ∈ ([.out, .host, .causes, .stats, .red] : List Part), p ∈ ps) (l : Nat) (n : Nat)
    (t : Task) (ls : List (Nat × List Byte)) (s : State)  (hk : Only ps u0 s) :
    Only ps u0 (sendTail l n t ls s) := by
  unfold sendTail
  repeat' first | with_reducible assumption | with_reducible exact sub_trans (by decide) hp | (intro _) | extract_lets
                | with_reducible apply sendParts_only | with_reducible apply tugSend_only | dsimp only

theorem streamState_only {ps : List Part} {u0 : State} (hp : ∀ p ∈ ([.out, .host, .mem, .causes, .stats, .log, .red] : List Part), p ∈ ps) (l : Nat)
    (n : Nat) (old : List Byte) (s : State)  (hk : Only ps u0 s) :
    Only ps u0 (streamState l n old s) := by
  unfold streamState
  repeat' first | with_reducible assumption | with_reducible exact sub_trans (by decide) hp | (intro _) | with_reducible apply only_ite
                | extract_lets | with_reducible apply committed_only | with_reducible apply tugSend_only | with_reducible apply sendTail_only
                | with_reducible apply only_foldl | split
                | (refine only_mk _ ?_ (by intro p hq; cases p <;> first | exact absurd (hp _ (by decide)) hq | exact rfl)) | dsimp only

theorem sendFull_only {ps : List Part} {u0 : State} (hp : ∀ p ∈ ([.out, .host, .mem, .causes, .stats, .log, .red] : List Part), p ∈ ps) (l : Nat)
    (n : Nat) (s : State)  (hk : Only ps u0 s) :
    Only ps u0 (sendFull l n s) := by
  unfold sendFull
  repeat' first | with_reducible assumption | with_reducible exact sub_trans (by decide) hp | (intro _) | with_reducible apply only_ite
                | extract_lets | with_reducible apply sendTail_only | with_reducible apply committed_only | with_reducible apply sendParts_only
                | split | (refine only_mk _ ?_ (by intro p hq; cases p <;> first | exact absurd (hp _ (by decide)) hq | exact rfl)) | dsimp only

theorem requestFull_only {ps : List Part} {u0 : State} (hp : ∀ p ∈ ([.out, .host, .causes, .stats, .red] : List Part), p ∈ ps) (l : Nat) (n : Nat)
    (s : State)  (hk : Only ps u0 s) :
    Only ps u0 (requestFull l n s) := by
  unfold requestFull
  repeat' first | with_reducible assumption | with_reducible exact sub_trans (by decide) hp | (intro _) | extract_lets
                | with_reducible apply tugSend_only | dsimp only

theorem sendNodeItems_only {ps : List Part} {u0 : State} (hp : ∀ p ∈ ([.out, .host, .causes, .stats, .red] : List Part), p ∈ ps) (l : Nat)
    (s : State)  (hk : Only ps u0 s) :
    Only ps u0 (sendNodeItems l s) := by
  unfold sendNodeItems
  repeat' first | with_reducible assumption | with_reducible exact sub_trans (by decide) hp | (intro _) | extract_lets
                | with_reducible apply tugSend_only | with_reducible apply only_foldl
                | (refine only_mk _ ?_ (by intro p hq; cases p <;> first | exact absurd (hp _ (by decide)) hq | exact rfl)) | dsimp only

theorem startSync_only {ps : List Part} {u0 : State} (hp : ∀ p ∈ ([.out, .host, .causes, .stats, .red] : List Part), p ∈ ps) (l : Nat) (s : State) 
    (hk : Only ps u0 s) :
    Only ps u0 (startSync l s) := by
  unfold startSync
  repeat' first | with_reducible assumption | with_reducible exact sub_trans (by decide) hp | (intro _) | extract_lets
                | with_reducible apply setRole_only | with_reducible apply requestFull_only | with_reducible apply only_foldl
                | (refine only_mk _ ?_ (by intro p hq; cases p <;> first | exact absurd (hp _ (by decide)) hq | exact rfl)) | dsimp only

theorem joinControl_only {ps : List Part} {u0 : State}
    (hp : ∀ p ∈ ([.out, .freeIdx, .node, .host, .causes, .stats, .log, .sw, .ctl, .red] : List Part), p ∈ ps) (s : State)  (hk : Only ps u0 s) :
    Only ps u0 (joinControl s) := by
  unfold joinControl
  repeat' first | with_reducible assumption | with_reducible exact sub_trans (by decide) hp | (intro _) | with_reducible apply only_ite
                | extract_lets | with_reducible apply setState_only | split
                | (refine only_mk _ ?_ (by intro p hq; cases p <;> first | exact absurd (hp _ (by decide)) hq | exact rfl)) | dsimp only

theorem syncCheck_only {ps : List Part} {u0 : State}
    (hp : ∀ p ∈ ([.out, .freeIdx, .node, .host, .causes, .stats, .log, .sw, .ctl, .red] : List Part), p ∈ ps) (s : State)  (hk : Only ps u0 s) :
    Only ps u0 (syncCheck s) := by
  unfold syncCheck
  repeat' first | with_reducible assumption | with_reducible exact sub_trans (by decide) hp | (intro _) | with_reducible apply only_ite
                | extract_lets | with_reducible apply setRole_only | with_reducible apply joinControl_only | split | dsimp only

theorem trySync_only {ps : List Part} {u0 : State} (hp : ∀ p ∈ ([.out, .host, .causes, .stats, .red] : List Part), p ∈ ps) (s : State) 
    (hk : Only ps u0 s) :
    Only ps u0 (trySync s) := by
  unfold trySync
  repeat' first | with_reducible assumption | with_reducible exact sub_trans (by decide) hp | (intro _) | with_reducible apply only_ite
                | extract_lets | with_reducible apply startSync_only | with_reducible apply setRole_only | split
                | (refine only_mk _ ?_ (by intro p hq; cases p <;> first | exact absurd (hp _ (by decide)) hq | exact rfl)) | dsimp only

theorem takeTask_only {ps : List Part} {u0 : State}
    (hp : ∀ p ∈ ([.out, .freeIdx, .host, .mem, .causes, .stats, .log, .hitch, .time, .sw, .stream, .ctl, .red, .leg] : List Part), p ∈ ps)
    (from_ : Nat) (n : Nat) (t : Task) (s : State)  (hk : Only ps u0 s) :
    Only ps u0 (takeTask from_ n t s) := by
  unfold takeTask
  try dsimp only
  repeat' first | with_reducible assumption | with_reducible exact sub_trans (by decide) hp | (intro _) | with_reducible exact Only.rfl
                | with_reducible apply only_ite | with_reducible apply only_ite_app | with_reducible apply only_id
                | with_reducible apply setTask_only | with_reducible apply committed_only | with_reducible apply logEvent_only
                | with_reducible apply handedPubs_only | with_reducible apply assignPair_only | with_reducible apply only_foldl
                | with_reducible apply only_foldl2 | split
                | (refine only_mk _ ?_ (by intro p hq; cases p <;> first | exact absurd (hp _ (by decide)) hq | exact rfl)) | dsimp only

theorem takeover_only {ps : List Part} {u0 : State}
    (hp : ∀ p ∈ ([.out, .freeIdx, .node, .host, .mem, .causes, .stats, .log, .hitch, .time, .sw, .stream, .ctl, .red, .leg] : List Part), p ∈ ps)
    (s : State)  (hk : Only ps u0 s) :
    Only ps u0 (takeover s) := by
  unfold takeover
  repeat' first | with_reducible assumption | with_reducible exact sub_trans (by decide) hp | (intro _) | with_reducible apply only_ite
                | extract_lets | with_reducible apply joinControl_only | with_reducible apply takeTask_only | with_reducible apply only_foldl
                | split | (refine only_mk _ ?_ (by intro p hq; cases p <;> first | exact absurd (hp _ (by decide)) hq | exact rfl)) | dsimp only

theorem claimSpan_only {ps : List Part} {u0 : State}
    (hp : ∀ p ∈ ([.out, .freeIdx, .node, .pwr, .host, .mem, .causes, .stats, .log, .hitch, .time, .sw, .stream, .ctl, .red, .can, .leg, .br] : List Part), p ∈ ps)
    (s : State)  (hk : Only ps u0 s) :
    Only ps u0 (claimSpan s) := by
  unfold claimSpan
  repeat' first | with_reducible assumption | with_reducible exact sub_trans (by decide) hp | (intro _) | with_reducible apply only_ite
                | extract_lets | with_reducible apply assertClaim_only | with_reducible apply takeover_only | split
                | (refine only_mk _ ?_ (by intro p hq; cases p <;> first | exact absurd (hp _ (by decide)) hq | exact rfl)) | dsimp only

theorem moveUnacked_only {ps : List Part} {u0 : State} (hp : ∀ p ∈ ([.out, .host, .causes, .stats, .red] : List Part), p ∈ ps) (src : Nat)
    (dst : Nat) (s : State)  (hk : Only ps u0 s) :
    Only ps u0 (moveUnacked src dst s) := by
  unfold moveUnacked
  repeat' first | with_reducible assumption | with_reducible exact sub_trans (by decide) hp | (intro _) | extract_lets
                | with_reducible apply setTug_only | with_reducible apply tugSend_only | with_reducible apply only_foldl
                | (refine only_mk _ ?_ (by intro p hq; cases p <;> first | exact absurd (hp _ (by decide)) hq | exact rfl)) | dsimp only

theorem tugSaid_only {ps : List Part} {u0 : State} (hp : ∀ p ∈ ([.out, .freeIdx, .host, .causes, .stats, .log, .sw, .red] : List Part), p ∈ ps)
    (l : Nat) (up : Nat) (s : State)  (hk : Only ps u0 s) :
    Only ps u0 (tugSaid l up s) := by
  unfold tugSaid
  repeat' first | with_reducible assumption | with_reducible exact sub_trans (by decide) hp | (intro _) | extract_lets
                | with_reducible apply raise_only | with_reducible apply logEvent_only | dsimp only

theorem linksChanged_only {ps : List Part} {u0 : State}
    (hp : ∀ p ∈ ([.out, .freeIdx, .node, .pwr, .host, .causes, .stats, .log, .time, .sw, .ctl, .red, .can, .leg, .br] : List Part), p ∈ ps)
    (s : State)  (hk : Only ps u0 s) :
    Only ps u0 (linksChanged s) := by
  unfold linksChanged
  try dsimp only
  repeat' first | with_reducible assumption | with_reducible exact sub_trans (by decide) hp | (intro _) | with_reducible exact Only.rfl
                | with_reducible apply only_ite | with_reducible apply only_ite_app | with_reducible apply only_id
                | with_reducible apply setRole_only | with_reducible apply setResource_only | with_reducible apply excludeSelf_only
                | with_reducible apply only_foldl | with_reducible apply only_foldl2 | split
                | (refine only_mk _ ?_ (by intro p hq; cases p <;> first | exact absurd (hp _ (by decide)) hq | exact rfl)) | dsimp only

theorem linkDown_only {ps : List Part} {u0 : State}
    (hp : ∀ p ∈ ([.out, .freeIdx, .node, .pwr, .host, .causes, .stats, .log, .time, .sw, .ctl, .red, .can, .leg, .br] : List Part), p ∈ ps) (l : Nat)
    (s : State)  (hk : Only ps u0 s) :
    Only ps u0 (linkDown l s) := by
  unfold linkDown
  repeat' first | with_reducible assumption | with_reducible exact sub_trans (by decide) hp | (intro _) | with_reducible apply only_ite
                | extract_lets | with_reducible apply setTug_only | with_reducible apply tugSaid_only | with_reducible apply count_only
                | with_reducible apply moveUnacked_only | with_reducible apply linksChanged_only | with_reducible apply only_foldl | split
                | (refine only_mk _ ?_ (by intro p hq; cases p <;> first | exact absurd (hp _ (by decide)) hq | exact rfl)) | dsimp only

end Sys2Proof.Machine
end

