-- ==== Sys2Proof/Laws/OnlyNodeOps.lean ====
section
/-! SUPPORT. The parts of the state that every operation of Machine/NodeOps.lean may change, said once for each: all others are left alone (Only of
Safety.lean). -/
set_option Elab.async false
set_option linter.all false
namespace Sys2Proof.Machine
theorem assertBypass_only {ps : List Part} {u0 : State} (hp : ∀ p ∈ ([.out, .node, .pwr, .time] : List Part), p ∈ ps) (s : State) 
    (hk : Only ps u0 s) :
    Only ps u0 (assertBypass s) := by
  unfold assertBypass
  repeat' first | with_reducible assumption | with_reducible exact sub_trans (by decide) hp | (intro _) | extract_lets
                | with_reducible apply drivePin_only | dsimp only

theorem releaseBypass_only {ps : List Part} {u0 : State} (hp : ∀ p ∈ ([.out, .node, .pwr, .time] : List Part), p ∈ ps) (s : State) 
    (hk : Only ps u0 s) :
    Only ps u0 (releaseBypass s) := by
  unfold releaseBypass
  repeat' first | with_reducible assumption | with_reducible exact sub_trans (by decide) hp | (intro _) | with_reducible apply only_ite
                | extract_lets | with_reducible apply drivePin_only | split | dsimp only

theorem startSettle_only {ps : List Part} {u0 : State} (hp : ∀ p ∈ ([.node] : List Part), p ∈ ps) (s : State)  (hk : Only ps u0 s) :
    Only ps u0 (startSettle s) := by
  unfold startSettle
  repeat' first | with_reducible assumption | (intro _) | extract_lets
                | (refine only_mk _ ?_ (by intro p hq; cases p <;> first | exact absurd (hp _ (by decide)) hq | exact rfl)) | dsimp only

theorem endSettle_only {ps : List Part} {u0 : State}
    (hp : ∀ p ∈ ([.out, .freeIdx, .node, .host, .causes, .stats, .log, .time, .sw, .tx, .red] : List Part), p ∈ ps) (s : State) 
    (hk : Only ps u0 s) :
    Only ps u0 (endSettle s) := by
  unfold endSettle
  repeat' first | with_reducible assumption | with_reducible exact sub_trans (by decide) hp | (intro _) | with_reducible apply only_ite
                | extract_lets | with_reducible apply dropPort_only | with_reducible apply only_foldl | split
                | (refine only_mk _ ?_ (by intro p hq; cases p <;> first | exact absurd (hp _ (by decide)) hq | exact rfl)) | dsimp only

theorem leaveLine_only {ps : List Part} {u0 : State}
    (hp : ∀ p ∈ ([.out, .freeIdx, .node, .pwr, .host, .mem, .causes, .stats, .log, .hitch, .time, .sw, .stream, .ctl, .red, .wr, .can, .leg, .br] : List Part), p ∈ ps)
    (new : NodeState) (cause : Nat) (res : Nat) (s : State)  (hk : Only ps u0 s) :
    Only ps u0 (leaveLine new cause res s) := by
  unfold leaveLine
  repeat' first | with_reducible assumption | with_reducible exact sub_trans (by decide) hp | (intro _) | with_reducible apply only_ite
                | extract_lets | apply h_new | with_reducible apply releaseForces_only | with_reducible apply haltAll_only
                | with_reducible apply wrLeave_only | with_reducible apply releaseClaim_only | with_reducible apply startSettle_only
                | with_reducible apply assertBypass_only | with_reducible apply stopStreams_only | with_reducible apply hitchStop_only
                | with_reducible apply stopGptp_only | with_reducible apply unlearn_only | with_reducible apply setState_only
                | with_reducible apply legSync_only | with_reducible apply canModes_only | with_reducible apply bridgeStop_only | split
                | (refine only_mk _ ?_ (by intro p hq; cases p <;> first | exact absurd (hp _ (by decide)) hq | exact rfl)) | dsimp only

theorem enterHeld_only {ps : List Part} {u0 : State}
    (hp : ∀ p ∈ ([.out, .freeIdx, .node, .pwr, .boot, .host, .mem, .causes, .stats, .log, .hitch, .time, .sw, .stream, .ctl, .red, .wr, .can, .leg, .br] : List Part), p ∈ ps)
    (heldCause cause : Nat) (s : State)
    (hk : Only ps u0 s) : Only ps u0 (enterHeld heldCause cause s) := by
  have h0 : Only ps u0 { s with node := { s.node with heldCause := heldCause }, pwr := { s.pwr with entering := false } } :=
    only_mk s hk (by intro p hq; cases p <;> first | exact absurd (hp _ (by decide)) hq | exact rfl)
  have h1 := leaveLine_only (sub_trans (by decide) hp) .held cause 0 _ h0
  have key (x : State) (hx : Only ps u0 x) : Only ps u0 { x with boot := { x.boot with tryA := 0, tryB := 0 } } := only_mk x hx (by intro p hq; cases p <;> first | exact absurd (hp _ (by decide)) hq | exact rfl)
  exact key _ h1

theorem enterSafe_only {ps : List Part} {u0 : State}
    (hp : ∀ p ∈ ([.out, .freeIdx, .node, .pwr, .host, .mem, .causes, .stats, .log, .hitch, .time, .sw, .stream, .ctl, .red, .wr, .can, .leg, .br] : List Part), p ∈ ps)
    (event : Bool) (check : Nat) (s : State)  (hk : Only ps u0 s) :
    Only ps u0 (enterSafe event check s) := by
  unfold enterSafe
  repeat' first | with_reducible assumption | with_reducible exact sub_trans (by decide) hp | (intro _) | with_reducible apply only_ite
                | extract_lets | with_reducible apply tugAll_only | with_reducible apply haltAll_only | with_reducible apply wrLeave_only
                | with_reducible apply setState_only | with_reducible apply releaseForces_only | with_reducible apply wrCheck_only
                | with_reducible apply importAll_only | with_reducible apply legSync_only | with_reducible apply canModes_only
                | with_reducible apply releaseClaim_only | split
                | (refine only_mk _ ?_ (by intro p hq; cases p <;> first | exact absurd (hp _ (by decide)) hq | exact rfl)) | dsimp only

theorem safeEvent_only {ps : List Part} {u0 : State}
    (hp : ∀ p ∈ ([.out, .freeIdx, .node, .pwr, .host, .mem, .causes, .stats, .log, .hitch, .time, .sw, .stream, .ctl, .red, .wr, .can, .leg, .br] : List Part), p ∈ ps)
    (s : State)  (hk : Only ps u0 s) :
    Only ps u0 (safeEvent s) := by
  unfold safeEvent
  repeat' first | with_reducible assumption | with_reducible exact sub_trans (by decide) hp | (intro _) | extract_lets
                | with_reducible apply enterSafe_only
                | (refine only_mk _ ?_ (by intro p hq; cases p <;> first | exact absurd (hp _ (by decide)) hq | exact rfl)) | dsimp only

theorem bridgeEntry_only {ps : List Part} {u0 : State} (hp : ∀ p ∈ ([.sw] : List Part), p ∈ ps) (s : State)  (hk : Only ps u0 s) :
    Only ps u0 (bridgeEntry s) := by
  unfold bridgeEntry
  repeat' first | with_reducible assumption | (intro _) | extract_lets
                | (refine only_mk _ ?_ (by intro p hq; cases p <;> first | exact absurd (hp _ (by decide)) hq | exact rfl)) | dsimp only

theorem readyFields_only {ps : List Part} {u0 : State} (hp : ∀ p ∈ ([.node, .pwr, .boot] : List Part), p ∈ ps) (s : State)  (hk : Only ps u0 s) :
    Only ps u0 (readyFields s) := by
  unfold readyFields
  repeat' first | with_reducible assumption | (intro _) | extract_lets
                | (refine only_mk _ ?_ (by intro p hq; cases p <;> first | exact absurd (hp _ (by decide)) hq | exact rfl)) | dsimp only

theorem armStart_only {ps : List Part} {u0 : State} (hp : ∀ p ∈ ([.ctl] : List Part), p ∈ ps) (s : State)  (hk : Only ps u0 s) :
    Only ps u0 (armStart s) := by
  unfold armStart
  repeat' first | with_reducible assumption | (intro _) | extract_lets
                | (refine only_mk _ ?_ (by intro p hq; cases p <;> first | exact absurd (hp _ (by decide)) hq | exact rfl)) | dsimp only

theorem enterReady_only {ps : List Part} {u0 : State}
    (hp : ∀ p ∈ ([.out, .freeIdx, .node, .pwr, .boot, .sec, .host, .causes, .stats, .log, .hitch, .time, .sw, .macs, .stream, .ctl, .red, .can, .leg] : List Part), p ∈ ps)
    (fromBoot : Bool) (cause : Nat) (s : State)  (hk : Only ps u0 s) :
    Only ps u0 (enterReady fromBoot cause s) := by
  unfold enterReady
  repeat' first | with_reducible assumption | with_reducible exact sub_trans (by decide) hp | (intro _) | with_reducible apply only_ite
                | extract_lets | with_reducible apply setState_only | with_reducible apply readyFields_only | with_reducible apply hitchStart_only
                | with_reducible apply startDomains_only | with_reducible apply reactivateStreams_only | with_reducible apply armStart_only
                | with_reducible apply legSync_only | with_reducible apply canModes_only | with_reducible apply bridgeEntry_only
                | with_reducible apply releaseBypass_only | with_reducible apply trySync_only | with_reducible apply setRole_only | split
                | dsimp only

theorem startNow_only {ps : List Part} {u0 : State} (hp : ∀ p ∈ ([.ctl] : List Part), p ∈ ps) (s : State)  (hk : Only ps u0 s) :
    Only ps u0 (startNow s) := by
  unfold startNow
  repeat' first | with_reducible assumption | (intro _) | with_reducible apply only_ite | extract_lets | split
                | (refine only_mk _ ?_ (by intro p hq; cases p <;> first | exact absurd (hp _ (by decide)) hq | exact rfl)) | dsimp only

theorem takeIdentity_only {ps : List Part} {u0 : State} (hp : ∀ p ∈ ([.node, .red] : List Part), p ∈ ps) (s : State)  (hk : Only ps u0 s) :
    Only ps u0 (takeIdentity s) := by
  unfold takeIdentity
  repeat' first | with_reducible assumption | (intro _) | with_reducible apply only_ite | extract_lets | split
                | (refine only_mk _ ?_ (by intro p hq; cases p <;> first | exact absurd (hp _ (by decide)) hq | exact rfl)) | dsimp only

theorem gpioStart_only {ps : List Part} {u0 : State} (hp : ∀ p ∈ ([.out, .pwr] : List Part), p ∈ ps) (s : State)  (hk : Only ps u0 s) :
    Only ps u0 (gpioStart s) := by
  unfold gpioStart
  repeat' first | with_reducible assumption | with_reducible exact sub_trans (by decide) hp | (intro _) | with_reducible apply only_ite
                | extract_lets | with_reducible apply emit_only | with_reducible apply only_foldl | split
                | (refine only_mk _ ?_ (by intro p hq; cases p <;> first | exact absurd (hp _ (by decide)) hq | exact rfl)) | dsimp only

theorem ringsStart_only {ps : List Part} {u0 : State} (hp : ∀ p ∈ ([.tx] : List Part), p ∈ ps) (s : State)  (hk : Only ps u0 s) :
    Only ps u0 (ringsStart s) := by
  unfold ringsStart
  repeat' first | with_reducible assumption | (intro _) | extract_lets
                | (refine only_mk _ ?_ (by intro p hq; cases p <;> first | exact absurd (hp _ (by decide)) hq | exact rfl)) | dsimp only

theorem activate_only {ps : List Part} {u0 : State}
    (hp : ∀ p ∈ ([.out, .freeIdx, .node, .pwr, .tack, .host, .causes, .stats, .log, .sw, .macs, .tx, .stream, .ctl, .red, .can, .br] : List Part), p ∈ ps)
    (t : Tack) (s : State)  (hk : Only ps u0 s) :
    Only ps u0 (activate t s) := by
  unfold activate
  repeat' first | with_reducible assumption | with_reducible exact sub_trans (by decide) hp | (intro _) | extract_lets
                | with_reducible apply takeIdentity_only | with_reducible apply gpioStart_only | with_reducible apply ringsStart_only
                | with_reducible apply bridgeLoad_only | with_reducible apply canLoad_only | with_reducible apply loadStreams_only
                | with_reducible apply controlLoad_only | with_reducible apply loadSwitch_only | with_reducible apply repartition_only
                | (refine only_mk _ ?_ (by intro p hq; cases p <;> first | exact absurd (hp _ (by decide)) hq | exact rfl)) | dsimp only

theorem startStabled_only {ps : List Part} {u0 : State}
    (hp : ∀ p ∈ ([.out, .freeIdx, .node, .pwr, .host, .causes, .stats, .log, .hitch, .sw, .red] : List Part), p ∈ ps) (ref : Option AcsRef)
    (cause : Nat) (s : State)  (hk : Only ps u0 s) :
    Only ps u0 (startStabled ref cause s) := by
  unfold startStabled
  repeat' first | with_reducible assumption | with_reducible exact sub_trans (by decide) hp | (intro _) | extract_lets
                | with_reducible apply announceBypass_only
                | (refine only_mk _ ?_ (by intro p hq; cases p <;> first | exact absurd (hp _ (by decide)) hq | exact rfl)) | dsimp only

theorem enterStabled_only {ps : List Part} {u0 : State}
    (hp : ∀ p ∈ ([.out, .freeIdx, .node, .pwr, .host, .mem, .causes, .stats, .log, .hitch, .time, .sw, .stream, .ctl, .red, .wr, .can, .leg, .br] : List Part), p ∈ ps)
    (s : State)
    (hk : Only ps u0 s) : Only ps u0 (enterStabled s) := by
  have h1 := leaveLine_only (sub_trans (by decide) hp) .stabled s.node.stableCause 0 s hk
  have key (x : State) (hx : Only ps u0 x) : Only ps u0 { x with
      pwr := { x.pwr with entering := false, stableCmd := none, alarmArmed := x.param 1 3 0xFFFF 0 ≠ 0 }
      node := { x.node with removal := none } } := only_mk x hx (by intro p hq; cases p <;> first | exact absurd (hp _ (by decide)) hq | exact rfl)
  exact finish_only (sub_trans (by decide) hp) _ _ _ _ (key _ h1)

theorem wakeEvent_only {ps : List Part} {u0 : State}
    (hp : ∀ p ∈ ([.out, .freeIdx, .node, .pwr, .boot, .sec, .host, .causes, .stats, .log, .hitch, .time, .sw, .macs, .stream, .ctl, .red, .can, .leg] : List Part), p ∈ ps)
    (s : State)  (hk : Only ps u0 s) :
    Only ps u0 (wakeEvent s) := by
  unfold wakeEvent
  repeat' first | with_reducible assumption | with_reducible exact sub_trans (by decide) hp | (intro _) | with_reducible apply only_ite
                | extract_lets | with_reducible apply enterReady_only | with_reducible apply drivePin_only | split
                | (refine only_mk _ ?_ (by intro p hq; cases p <;> first | exact absurd (hp _ (by decide)) hq | exact rfl)) | dsimp only

theorem bootKeep_only {ps : List Part} {u0 : State}
    (hp : ∀ p ∈ ([.out, .freeIdx, .node, .pwr, .boot, .tack, .sec, .host, .mem, .causes, .stats, .log, .hitch, .time, .sw, .macs, .rx, .tx, .stream, .ctl, .retain, .red, .wr, .can, .leg, .br] : List Part), p ∈ ps)
    (s : State)  (hk : Only ps u0 s) :
    Only ps u0 (bootKeep s) := by
  unfold bootKeep
  repeat' first | with_reducible assumption | with_reducible exact sub_trans (by decide) hp | (intro _) | extract_lets
                | with_reducible apply lastWords_only | with_reducible apply mediaFault_only
                | (refine only_mk _ ?_ (by intro p hq; cases p <;> first | exact absurd (hp _ (by decide)) hq | exact rfl)) | dsimp only

theorem resetPins_only {ps : List Part} {u0 : State} (hp : ∀ p ∈ ([.out, .node, .pwr, .time] : List Part), p ∈ ps) (s : State)  (hk : Only ps u0 s) :
    Only ps u0 (resetPins s) := by
  unfold resetPins
  repeat' first | with_reducible assumption | with_reducible exact sub_trans (by decide) hp | (intro _) | with_reducible apply only_ite
                | extract_lets | with_reducible apply drivePin_only | with_reducible apply emit_only | with_reducible apply only_foldl | split
                | dsimp only

theorem enterBoot_only {ps : List Part} {u0 : State}
    (hp : ∀ p ∈ ([.out, .freeIdx, .node, .pwr, .boot, .tack, .sec, .host, .mem, .causes, .stats, .log, .hitch, .time, .sw, .macs, .rx, .tx, .stream, .ctl, .retain, .red, .wr, .can, .leg, .br] : List Part), p ∈ ps)
    (cause : Nat) (s : State)  (hk : Only ps u0 s) :
    Only ps u0 (enterBoot cause s) := by
  unfold enterBoot
  repeat' first | with_reducible assumption | with_reducible exact sub_trans (by decide) hp | (intro _) | with_reducible apply only_ite
                | extract_lets | with_reducible apply bootKeep_only | with_reducible apply resetPins_only | split
                | (refine only_mk _ ?_ (by intro p hq; cases p <;> first | exact absurd (hp _ (by decide)) hq | exact rfl)) | dsimp only

theorem taskFault_only {ps : List Part} {u0 : State}
    (hp : ∀ p ∈ ([.out, .freeIdx, .node, .pwr, .host, .mem, .causes, .stats, .log, .hitch, .time, .sw, .stream, .ctl, .red, .wr, .can, .leg, .br] : List Part), p ∈ ps)
    (n : Nat) (cause : Nat) (s : State)  (hk : Only ps u0 s) :
    Only ps u0 (taskFault n cause s) := by
  unfold taskFault
  repeat' first | with_reducible assumption | with_reducible exact sub_trans (by decide) hp | (intro _) | with_reducible apply only_ite
                | extract_lets | with_reducible apply raise_only | with_reducible apply logEvent_only | with_reducible apply count_only
                | with_reducible apply stopTask_only | with_reducible apply abortOut_only | with_reducible apply enterSafe_only | split
                | (refine only_mk _ ?_ (by intro p hq; cases p <;> first | exact absurd (hp _ (by decide)) hq | exact rfl)) | dsimp only

theorem retirePair_only {ps : List Part} {u0 : State}
    (hp : ∀ p ∈ ([.out, .freeIdx, .node, .pwr, .host, .mem, .causes, .stats, .log, .hitch, .time, .sw, .stream, .ctl, .red, .wr, .can, .leg, .br] : List Part), p ∈ ps)
    (p : Nat) (s : State)  (hk : Only ps u0 s) :
    Only ps u0 (retirePair p s) := by
  unfold retirePair
  repeat' first | with_reducible assumption | with_reducible exact sub_trans (by decide) hp | (intro _) | with_reducible apply only_ite
                | extract_lets | with_reducible apply holdTask_only | with_reducible apply setPair_only | with_reducible apply setResource_only
                | with_reducible apply raise_only | with_reducible apply logEvent_only | with_reducible apply assignPairs_only
                | with_reducible apply enterSafe_only | with_reducible apply wrCheck_only | with_reducible apply only_foldl | split
                | (refine only_mk _ ?_ (by intro p hq; cases p <;> first | exact absurd (hp _ (by decide)) hq | exact rfl)) | dsimp only

end Sys2Proof.Machine
end

