-- ==== Sys2Proof/Laws/OnlyBootOps.lean ====
section
/-! SUPPORT. The parts of the state that every operation of Machine/BootOps.lean may change, said once for each: all others are left alone (Only of
Safety.lean). -/
set_option Elab.async false
set_option linter.all false
namespace Sys2Proof.Machine
theorem loseRails_only {ps : List Part} {u0 : State}
    (hp : ∀ p ∈ ([.out, .freeIdx, .node, .pwr, .boot, .tack, .sec, .host, .mem, .causes, .stats, .log, .hitch, .time, .sw, .macs, .rx, .tx, .stream, .ctl, .retain, .red, .wr, .can, .leg, .br] : List Part), p ∈ ps)
    (s : State)  (hk : Only ps u0 s) :
    Only ps u0 (loseRails s) := by
  unfold loseRails
  repeat' first | with_reducible assumption | with_reducible exact sub_trans (by decide) hp | (intro _) | with_reducible apply only_ite
                | extract_lets | with_reducible apply drivePin_only | with_reducible apply emit_only | with_reducible apply resetPins_only
                | with_reducible apply bootKeep_only | split
                | (refine only_mk _ ?_ (by intro p hq; cases p <;> first | exact absurd (hp _ (by decide)) hq | exact rfl)) | dsimp only

theorem startUp_only {ps : List Part} {u0 : State}
    (hp : ∀ p ∈ ([.out, .freeIdx, .node, .pwr, .boot, .tack, .sec, .host, .mem, .causes, .stats, .log, .hitch, .time, .sw, .macs, .rx, .tx, .stream, .ctl, .retain, .red, .wr, .can, .leg, .br] : List Part), p ∈ ps)
    (s : State)  (hk : Only ps u0 s) :
    Only ps u0 (startUp s) := by
  unfold startUp
  repeat' first | with_reducible assumption | with_reducible exact sub_trans (by decide) hp | (intro _) | with_reducible apply only_ite
                | extract_lets | with_reducible apply bootKeep_only | split
                | (refine only_mk _ ?_ (by intro p hq; cases p <;> first | exact absurd (hp _ (by decide)) hq | exact rfl)) | dsimp only

theorem startFirmware_only {ps : List Part} {u0 : State}
    (hp : ∀ p ∈ ([.out, .freeIdx, .node, .boot, .host, .mem, .causes, .stats, .log, .sw, .red] : List Part), p ∈ ps) (slot : Nat) (i : FwImage)
    (s : State)  (hk : Only ps u0 s) :
    Only ps u0 (startFirmware slot i s) := by
  unfold startFirmware
  repeat' first | with_reducible assumption | with_reducible exact sub_trans (by decide) hp | (intro _) | with_reducible apply only_ite
                | extract_lets | with_reducible apply logEvent_only | with_reducible apply endUnknown_only | with_reducible apply only_foldl | split
                | (refine only_mk _ ?_ (by intro p hq; cases p <;> first | exact absurd (hp _ (by decide)) hq | exact rfl)) | dsimp only

theorem putBank_only {ps : List Part} {u0 : State} (hp : ∀ p ∈ ([.tack] : List Part), p ∈ ps) (k : Nat) (f : List Byte → List Byte) (s : State) 
    (hk : Only ps u0 s) :
    Only ps u0 (putBank k f s) := by
  unfold putBank
  repeat' first | with_reducible assumption | (intro _) | with_reducible apply only_ite | extract_lets | split
                | (refine only_mk _ ?_ (by intro p hq; cases p <;> first | exact absurd (hp _ (by decide)) hq | exact rfl)) | dsimp only

theorem readCommitted_only {ps : List Part} {u0 : State} (hp : ∀ p ∈ ([.tack] : List Part), p ∈ ps) (r : CommitRec) (s : State)  (hk : Only ps u0 s) :
    Only ps u0 (readCommitted r s).2 := by
  unfold readCommitted
  repeat' first | with_reducible assumption | (intro _) | with_reducible apply only_ite | extract_lets | split
                | (refine only_mk _ ?_ (by intro p hq; cases p <;> first | exact absurd (hp _ (by decide)) hq | exact rfl)) | dsimp only

theorem writeCommit_only {ps : List Part} {u0 : State} (hp : ∀ p ∈ ([.tack, .sec] : List Part), p ∈ ps) (bank : Nat) (flash : Bool) (t : Tack)
    (s : State)  (hk : Only ps u0 s) :
    Only ps u0 (writeCommit bank flash t s) := by
  unfold writeCommit
  repeat' first | with_reducible assumption | (intro _) | with_reducible apply only_ite | extract_lets | split
                | (refine only_mk _ ?_ (by intro p hq; cases p <;> first | exact absurd (hp _ (by decide)) hq | exact rfl)) | dsimp only

theorem saidCommitted_only {ps : List Part} {u0 : State} (hp : ∀ p ∈ ([.out, .freeIdx, .host, .causes, .stats, .log, .sw, .red] : List Part), p ∈ ps)
    (t : Tack) (source : Nat) (s : State)  (hk : Only ps u0 s) :
    Only ps u0 (saidCommitted t source s) := by
  unfold saidCommitted
  repeat' first | with_reducible assumption | with_reducible exact sub_trans (by decide) hp | (intro _) | extract_lets
                | with_reducible apply logEvent_only | dsimp only

theorem saidInvalid_only {ps : List Part} {u0 : State} (hp : ∀ p ∈ ([.out, .freeIdx, .host, .causes, .stats, .log, .sw, .red] : List Part), p ∈ ps)
    (source : Nat) (x : Bad) (s : State)  (hk : Only ps u0 s) :
    Only ps u0 (saidInvalid source x s) := by
  unfold saidInvalid
  repeat' first | with_reducible assumption | with_reducible exact sub_trans (by decide) hp | (intro _) | extract_lets
                | with_reducible apply logEvent_only | dsimp only

theorem imageFailed_only {ps : List Part} {u0 : State}
    (hp : ∀ p ∈ ([.out, .freeIdx, .tack, .host, .causes, .stats, .log, .sw, .red] : List Part), p ∈ ps) (source : Nat) (fp : BitVec 256) (x : Bad)
    (s : State)  (hk : Only ps u0 s) :
    Only ps u0 (imageFailed source fp x s) := by
  unfold imageFailed
  repeat' first | with_reducible assumption | with_reducible exact sub_trans (by decide) hp | (intro _) | extract_lets
                | with_reducible apply saidInvalid_only
                | (refine only_mk _ ?_ (by intro p hq; cases p <;> first | exact absurd (hp _ (by decide)) hq | exact rfl)) | dsimp only

theorem tryBank_only {ps : List Part} {u0 : State}
    (hp : ∀ p ∈ ([.out, .freeIdx, .tack, .host, .causes, .stats, .log, .sw, .red] : List Part), p ∈ ps) (source : Nat) (r : Option CommitRec)
    (s : State)  (hk : Only ps u0 s) :
    Only ps u0 (tryBank source r s).2 := by
  unfold tryBank
  repeat' first | with_reducible assumption | with_reducible exact sub_trans (by decide) hp | (intro _) | with_reducible apply only_ite
                | extract_lets | with_reducible apply readCommitted_only | with_reducible apply imageFailed_only | split
                | (refine only_mk _ ?_ (by intro p hq; cases p <;> first | exact absurd (hp _ (by decide)) hq | exact rfl)) | dsimp only

theorem commitFlash_only {ps : List Part} {u0 : State}
    (hp : ∀ p ∈ ([.out, .freeIdx, .tack, .sec, .host, .causes, .stats, .log, .sw, .red] : List Part), p ∈ ps) (b : List Byte) (s : State) 
    (hk : Only ps u0 s) :
    Only ps u0 (commitFlash b s) := by
  unfold commitFlash
  repeat' first | with_reducible assumption | with_reducible exact sub_trans (by decide) hp | (intro _) | extract_lets
                | with_reducible apply writeCommit_only | with_reducible apply putBank_only | with_reducible apply logEvent_only
                | with_reducible apply saidCommitted_only
                | (refine only_mk _ ?_ (by intro p hq; cases p <;> first | exact absurd (hp _ (by decide)) hq | exact rfl)) | dsimp only

theorem tryFlash_only {ps : List Part} {u0 : State}
    (hp : ∀ p ∈ ([.out, .freeIdx, .tack, .sec, .host, .causes, .stats, .log, .sw, .red] : List Part), p ∈ ps) (s : State)  (hk : Only ps u0 s) :
    Only ps u0 (tryFlash s).2 := by
  unfold tryFlash
  repeat' first | with_reducible assumption | with_reducible exact sub_trans (by decide) hp | (intro _) | with_reducible apply only_ite
                | extract_lets | with_reducible apply imageFailed_only | with_reducible apply commitFlash_only | split
                | (refine only_mk _ ?_ (by intro p hq; cases p <;> first | exact absurd (hp _ (by decide)) hq | exact rfl)) | dsimp only

theorem saidBoot_only {ps : List Part} {u0 : State} (hp : ∀ p ∈ ([.out, .freeIdx, .host, .causes, .stats, .log, .sw, .red] : List Part), p ∈ ps)
    (ms : Nat) (s : State)  (hk : Only ps u0 s) :
    Only ps u0 (saidBoot ms s) := by
  unfold saidBoot
  repeat' first | with_reducible assumption | with_reducible exact sub_trans (by decide) hp | (intro _) | with_reducible apply only_ite
                | extract_lets | with_reducible apply logEvent_only | split | dsimp only

theorem goReady_only {ps : List Part} {u0 : State}
    (hp : ∀ p ∈ ([.out, .freeIdx, .node, .pwr, .boot, .tack, .sec, .host, .causes, .stats, .log, .hitch, .time, .sw, .macs, .tx, .stream, .ctl, .red, .can, .leg, .br] : List Part), p ∈ ps)
    (t : Tack) (s : State)  (hk : Only ps u0 s) :
    Only ps u0 (goReady t s) := by
  unfold goReady
  repeat' first | with_reducible assumption | with_reducible exact sub_trans (by decide) hp | (intro _) | extract_lets
                | with_reducible apply enterReady_only | with_reducible apply activate_only | dsimp only

theorem goHeld_only {ps : List Part} {u0 : State}
    (hp : ∀ p ∈ ([.out, .freeIdx, .node, .pwr, .boot, .host, .mem, .causes, .stats, .log, .hitch, .time, .sw, .stream, .ctl, .red, .wr, .can, .leg, .br] : List Part), p ∈ ps)
    (held : Bool) (s : State)  (hk : Only ps u0 s) :
    Only ps u0 (goHeld held s) := by
  unfold goHeld
  repeat' first | with_reducible assumption | with_reducible exact sub_trans (by decide) hp | (intro _) | with_reducible apply only_ite
                | extract_lets | with_reducible apply enterHeld_only | split | dsimp only

theorem selectTack_only {ps : List Part} {u0 : State}
    (hp : ∀ p ∈ ([.out, .freeIdx, .node, .pwr, .boot, .tack, .sec, .host, .mem, .causes, .stats, .log, .hitch, .time, .sw, .macs, .tx, .stream, .ctl, .red, .wr, .can, .leg, .br] : List Part), p ∈ ps)
    (s : State)  (hk : Only ps u0 s) :
    Only ps u0 (selectTack s) := by
  unfold selectTack
  repeat' first | with_reducible assumption | with_reducible exact sub_trans (by decide) hp | (intro _) | with_reducible apply only_ite
                | extract_lets | with_reducible apply tryBank_only | with_reducible apply goReady_only | with_reducible apply logEvent_only
                | with_reducible apply tryFlash_only | with_reducible apply goHeld_only | split
                | (refine only_mk _ ?_ (by intro p hq; cases p <;> first | exact absurd (hp _ (by decide)) hq | exact rfl)) | dsimp only

theorem validateStaged_only {ps : List Part} {u0 : State} (hp : ∀ p ∈ ([.tack] : List Part), p ∈ ps) (s : State)  (hk : Only ps u0 s) :
    Only ps u0 (validateStaged s).2 := by
  unfold validateStaged
  repeat' first | with_reducible assumption | (intro _) | with_reducible apply only_ite | extract_lets | split
                | (refine only_mk _ ?_ (by intro p hq; cases p <;> first | exact absurd (hp _ (by decide)) hq | exact rfl)) | dsimp only

theorem commitCheck_only {ps : List Part} {u0 : State} (hp : ∀ p ∈ ([.tack] : List Part), p ∈ ps) (s : State)  (hk : Only ps u0 s) :
    Only ps u0 (commitCheck s).2 := by
  unfold commitCheck
  repeat' first | with_reducible assumption | with_reducible exact sub_trans (by decide) hp | (intro _) | with_reducible apply only_ite
                | extract_lets | with_reducible apply validateStaged_only | split
                | (refine only_mk _ ?_ (by intro p hq; cases p <;> first | exact absurd (hp _ (by decide)) hq | exact rfl)) | dsimp only

theorem effTackCommit_only {ps : List Part} {u0 : State}
    (hp : ∀ p ∈ ([.out, .freeIdx, .tack, .host, .mem, .causes, .stats, .log, .sw, .red, .wr] : List Part), p ∈ ps) (a : List Byte)
    (r : Option AcsRef) (s : State)  (hk : Only ps u0 s) :
    Only ps u0 (effTackCommit a r s) := by
  unfold effTackCommit
  repeat' first | with_reducible assumption | with_reducible exact sub_trans (by decide) hp | (intro _) | with_reducible apply only_ite
                | extract_lets | with_reducible apply finish_only | with_reducible apply commitCheck_only | with_reducible apply saidInvalid_only
                | split | (refine only_mk _ ?_ (by intro p hq; cases p <;> first | exact absurd (hp _ (by decide)) hq | exact rfl)) | dsimp only

theorem commitNow_only {ps : List Part} {u0 : State}
    (hp : ∀ p ∈ ([.out, .freeIdx, .node, .pwr, .boot, .tack, .sec, .host, .mem, .causes, .stats, .log, .hitch, .time, .sw, .macs, .tx, .stream, .ctl, .retain, .red, .wr, .can, .leg, .br] : List Part), p ∈ ps)
    (verified : Bool) (s : State)  (hk : Only ps u0 s) :
    Only ps u0 (commitNow verified s) := by
  unfold commitNow
  repeat' first | with_reducible assumption | with_reducible exact sub_trans (by decide) hp | (intro _) | with_reducible apply only_ite
                | extract_lets | with_reducible apply writeCommit_only | with_reducible apply finish_only | with_reducible apply enterHeld_only
                | with_reducible apply saidCommitted_only | with_reducible apply goReady_only | with_reducible apply restamp_only
                | with_reducible apply announceBypass_only | split
                | (refine only_mk _ ?_ (by intro p hq; cases p <;> first | exact absurd (hp _ (by decide)) hq | exact rfl)) | dsimp only

end Sys2Proof.Machine
end

