-- ==== Sys2Proof/Laws/OnlyBoot.lean ====
section
/-! SUPPORT. The parts of the state that every operation of Machine/Boot.lean may change, said once for each: all others are left alone (Only of
Safety.lean). -/
set_option Elab.async false
set_option linter.all false
namespace Sys2Proof.Machine
theorem execFirmwareLoadDone_only (s : State) {s9 : State}
    (hk : execFirmwareLoadDone s = .next s9) : Only [.out, .freeIdx, .node, .boot, .host, .mem, .causes, .stats, .log, .sw, .red] s s9 := by
  unfold execFirmwareLoadDone at hk
  cases hk
  repeat' first | with_reducible assumption | decide | (intro _) | with_reducible exact Only.rfl | with_reducible apply only_ite | extract_lets
                | with_reducible apply startFirmware_only | split
                | (refine only_mk _ ?_ (by intro p hp; cases p <;> first | exact absurd (by decide) hp | exact rfl)) | dsimp only

theorem execDlLoad_only (image : List Byte) (dmaOk : Bool) (s : State) {s9 : State}
    (hk : execDlLoad image dmaOk s = .next s9) : Only [.out, .freeIdx, .node, .boot, .host, .mem, .causes, .stats, .log, .sw, .red] s s9 := by
  unfold execDlLoad at hk
  cases hk
  repeat' first | with_reducible assumption | decide | (intro _) | with_reducible exact Only.rfl | with_reducible apply only_ite | extract_lets
                | with_reducible apply startFirmware_only | split
                | (refine only_mk _ ?_ (by intro p hp; cases p <;> first | exact absurd (by decide) hp | exact rfl)) | dsimp only

theorem execTackSelect_only (ms : Nat) (s : State) {s9 : State}
    (hk : execTackSelect ms s = .next s9) : Only [.out, .freeIdx, .node, .pwr, .boot, .tack, .sec, .host, .mem, .causes, .stats, .log, .hitch, .time, .sw, .macs, .tx, .stream, .ctl, .red, .wr, .can, .leg, .br] s s9 := by
  unfold execTackSelect at hk
  cases hk
  repeat' first | with_reducible assumption | decide | (intro _) | with_reducible exact Only.rfl | with_reducible apply only_ite | extract_lets
                | with_reducible apply saidBoot_only | with_reducible apply selectTack_only | split | dsimp only

theorem execHeldFlashPoll_only (image : List Byte) (s : State) {s9 : State}
    (hk : execHeldFlashPoll image s = .next s9) : Only [.out, .freeIdx, .node, .pwr, .boot, .tack, .sec, .host, .causes, .stats, .log, .hitch, .time, .sw, .macs, .tx, .stream, .ctl, .red, .can, .leg, .br] s s9 := by
  unfold execHeldFlashPoll at hk
  cases hk
  repeat' first | with_reducible assumption | decide | (intro _) | with_reducible exact Only.rfl | with_reducible apply only_ite | extract_lets
                | with_reducible apply tryFlash_only | with_reducible apply goReady_only | split
                | (refine only_mk _ ?_ (by intro p hp; cases p <;> first | exact absurd (by decide) hp | exact rfl)) | dsimp only

theorem execTackStage_only (c : Acs) (s : State) {s9 : State}
    (hk : execTackStage c s = .next s9) : Only [.out, .tack, .host, .mem, .causes, .stats] s s9 := by
  unfold execTackStage at hk
  cases hk
  repeat' first | with_reducible assumption | decide | (intro _) | with_reducible exact Only.rfl | with_reducible apply only_ite | extract_lets
                | with_reducible apply acs_only | with_reducible apply done_only | with_reducible apply putBank_only | split
                | (refine only_mk _ ?_ (by intro p hp; cases p <;> first | exact absurd (by decide) hp | exact rfl)) | dsimp only

theorem execTackValidate_only (c : Acs) (s : State) {s9 : State}
    (hk : execTackValidate c s = .next s9) : Only [.out, .tack, .host, .mem, .causes, .stats] s s9 := by
  unfold execTackValidate at hk
  cases hk
  repeat' first | with_reducible assumption | decide | (intro _) | with_reducible exact Only.rfl | with_reducible apply only_ite | extract_lets
                | with_reducible apply acsLen_only | with_reducible apply done_only | with_reducible apply validateStaged_only | split | dsimp only

theorem execTackCommit_only (c : Acs) (s : State) {s9 : State}
    (hk : execTackCommit c s = .next s9) : Only [.out, .freeIdx, .tack, .host, .mem, .causes, .stats, .log, .sw, .red, .wr] s s9 := by
  unfold execTackCommit at hk
  cases hk
  repeat' first | with_reducible assumption | decide | (intro _) | with_reducible exact Only.rfl | with_reducible apply only_ite | extract_lets
                | with_reducible apply acsLen_only | with_reducible apply badArgIf_only | with_reducible apply done_only
                | with_reducible apply nodeWide_only | with_reducible apply effTackCommit_only | with_reducible apply tugAll_only | split
                | dsimp only

theorem execTackCommitActivate_only (verified : Bool) (s : State) {s9 : State}
    (hk : execTackCommitActivate verified s = .next s9) : Only [.out, .freeIdx, .node, .pwr, .boot, .tack, .sec, .host, .mem, .causes, .stats, .log, .hitch, .time, .sw, .macs, .tx, .stream, .ctl, .retain, .red, .wr, .can, .leg, .br] s s9 := by
  unfold execTackCommitActivate at hk
  cases hk
  repeat' first | with_reducible assumption | decide | (intro _) | with_reducible exact Only.rfl | with_reducible apply only_ite | extract_lets
                | with_reducible apply commitNow_only | split | dsimp only

theorem execTackRead_only (c : Acs) (s : State) {s9 : State} (hk : execTackRead c s = .next s9) : Only [.out, .host, .mem, .causes, .stats] s s9 := by
  unfold execTackRead at hk
  cases hk
  repeat' first | with_reducible assumption | decide | (intro _) | with_reducible exact Only.rfl | with_reducible apply only_ite | extract_lets
                | with_reducible apply acsLen_only | with_reducible apply badArgIf_only | with_reducible apply done_only | split
                | (refine only_mk _ ?_ (by intro p hp; cases p <;> first | exact absurd (by decide) hp | exact rfl)) | dsimp only

theorem execTackStatus_only (c : Acs) (s : State) {s9 : State}
    (hk : execTackStatus c s = .next s9) : Only [.out, .host, .mem, .causes, .stats] s s9 := by
  unfold execTackStatus at hk
  cases hk
  repeat' first | with_reducible assumption | decide | (intro _) | with_reducible exact Only.rfl | with_reducible apply only_ite | extract_lets
                | with_reducible apply acsLen_only | with_reducible apply done_only | split
                | (refine only_mk _ ?_ (by intro p hp; cases p <;> first | exact absurd (by decide) hp | exact rfl)) | dsimp only

end Sys2Proof.Machine
end

