-- ==== Sys2Proof/Laws/OnlyMacsecOps.lean ====
section
/-! SUPPORT. The parts of the state that every operation of Machine/MacsecOps.lean may change, said once for each: all others are left alone (Only of
Safety.lean). -/
set_option Elab.async false
set_option linter.all false
namespace Sys2Proof.Machine
theorem setSec_only {ps : List Part} {u0 : State} (hp : ∀ p ∈ ([.sw] : List Part), p ∈ ps) (p : Nat) (f : MacSec → MacSec) (s : State) 
    (hk : Only ps u0 s) :
    Only ps u0 (setSec p f s) := by
  unfold setSec
  repeat' first | with_reducible assumption | (intro _) | extract_lets
                | (refine only_mk _ ?_ (by intro p hq; cases p <;> first | exact absurd (hp _ (by decide)) hq | exact rfl)) | dsimp only

theorem sendMka_only {ps : List Part} {u0 : State} (hp : ∀ p ∈ ([.out, .freeIdx, .host, .causes, .stats, .sw] : List Part), p ∈ ps) (p : Nat)
    (s : State)  (hk : Only ps u0 s) :
    Only ps u0 (sendMka p s) := by
  unfold sendMka
  repeat' first | with_reducible assumption | with_reducible exact sub_trans (by decide) hp | (intro _) | extract_lets
                | with_reducible apply sendFrame_only | with_reducible apply useFree_only | dsimp only

theorem newSak_only {ps : List Part} {u0 : State} (hp : ∀ p ∈ ([.out, .freeIdx, .host, .causes, .stats, .sw] : List Part), p ∈ ps) (p : Nat)
    (s : State)  (hk : Only ps u0 s) :
    Only ps u0 (newSak p s) := by
  unfold newSak
  repeat' first | with_reducible assumption | with_reducible exact sub_trans (by decide) hp | (intro _) | with_reducible apply only_ite
                | extract_lets | with_reducible apply sendMka_only | split | dsimp only

theorem mkaNeighbour_only {ps : List Part} {u0 : State} (hp : ∀ p ∈ ([.out, .freeIdx, .host, .causes, .stats, .sw] : List Part), p ∈ ps) (p : Nat)
    (n : Nid) (s : State)  (hk : Only ps u0 s) :
    Only ps u0 (mkaNeighbour p n s) := by
  unfold mkaNeighbour
  repeat' first | with_reducible assumption | with_reducible exact sub_trans (by decide) hp | (intro _) | with_reducible apply only_ite
                | extract_lets | with_reducible apply setSec_only | with_reducible apply newSak_only | split
                | (refine only_mk _ ?_ (by intro p hq; cases p <;> first | exact absurd (hp _ (by decide)) hq | exact rfl)) | dsimp only

theorem countPn_only {ps : List Part} {u0 : State} (hp : ∀ p ∈ ([.out, .freeIdx, .host, .causes, .stats, .sw] : List Part), p ∈ ps) (p : Nat)
    (f : Frame) (s : State)  (hk : Only ps u0 s) :
    Only ps u0 (countPn p f s) := by
  unfold countPn
  repeat' first | with_reducible assumption | with_reducible exact sub_trans (by decide) hp | (intro _) | with_reducible apply only_ite
                | extract_lets | with_reducible apply setSec_only | with_reducible apply newSak_only | split
                | (refine only_mk _ ?_ (by intro p hq; cases p <;> first | exact absurd (hp _ (by decide)) hq | exact rfl)) | dsimp only

theorem secFail_only {ps : List Part} {u0 : State} (hp : ∀ p ∈ ([.out, .freeIdx, .host, .causes, .stats, .log, .sw, .red] : List Part), p ∈ ps)
    (p : Nat) (kind : Nat) (s : State)  (hk : Only ps u0 s) :
    Only ps u0 (secFail p kind s) := by
  unfold secFail
  repeat' first | with_reducible assumption | with_reducible exact sub_trans (by decide) hp | (intro _) | with_reducible apply only_ite
                | extract_lets | with_reducible apply count_only | with_reducible apply setSec_only | with_reducible apply raise_only
                | with_reducible apply logEvent_only | split
                | (refine only_mk _ ?_ (by intro p hq; cases p <;> first | exact absurd (hp _ (by decide)) hq | exact rfl)) | dsimp only

theorem secStage_only {ps : List Part} {u0 : State} (hp : ∀ p ∈ ([.out, .freeIdx, .host, .causes, .stats, .log, .sw, .red] : List Part), p ∈ ps)
    (p : Nat) (f : Frame) (v : MacsecVerdict) (s : State)  (hk : Only ps u0 s) :
    Only ps u0 (secStage p f v s).2 := by
  unfold secStage
  repeat' first | with_reducible assumption | with_reducible exact sub_trans (by decide) hp | (intro _) | with_reducible apply only_ite
                | extract_lets | with_reducible apply secFail_only | with_reducible apply count_only | split
                | (refine only_mk _ ?_ (by intro p hq; cases p <;> first | exact absurd (hp _ (by decide)) hq | exact rfl)) | dsimp only

theorem saSaid_only {ps : List Part} {u0 : State} (hp : ∀ p ∈ ([.out, .freeIdx, .host, .causes, .stats, .log, .sw, .red] : List Part), p ∈ ps)
    (p : Nat) (s : State)  (hk : Only ps u0 s) :
    Only ps u0 (saSaid p s) := by
  unfold saSaid
  repeat' first | with_reducible assumption | with_reducible exact sub_trans (by decide) hp | (intro _) | extract_lets
                | with_reducible apply raise_only | with_reducible apply logEvent_only | dsimp only

theorem mkaLost_only {ps : List Part} {u0 : State} (hp : ∀ p ∈ ([.out, .freeIdx, .host, .causes, .stats, .log, .sw, .red] : List Part), p ∈ ps)
    (p : Nat) (s : State)  (hk : Only ps u0 s) :
    Only ps u0 (mkaLost p s) := by
  unfold mkaLost
  repeat' first | with_reducible assumption | with_reducible exact sub_trans (by decide) hp | (intro _) | with_reducible apply only_ite
                | extract_lets | with_reducible apply setSec_only | with_reducible apply saSaid_only | split
                | (refine only_mk _ ?_ (by intro p hq; cases p <;> first | exact absurd (hp _ (by decide)) hq | exact rfl)) | dsimp only

end Sys2Proof.Machine
end

