-- ==== Sys2Proof/Laws/OnlyHitch.lean ====
section
/-! SUPPORT. The parts of the state that every operation of Machine/Hitch.lean may change, said once for each: all others are left alone (Only of
Safety.lean). -/
set_option Elab.async false
set_option linter.all false
namespace Sys2Proof.Machine
theorem hitchAfter_only {ps : List Part} {u0 : State}
    (hp : ∀ p ∈ ([.out, .freeIdx, .host, .causes, .stats, .hitch, .sw, .red, .wr] : List Part), p ∈ ps) (s : State)  (hk : Only ps u0 s) :
    Only ps u0 (hitchAfter s) := by
  unfold hitchAfter
  repeat' first | with_reducible assumption | with_reducible exact sub_trans (by decide) hp | (intro _) | extract_lets
                | with_reducible apply wrCheck_only | with_reducible apply sendChanges_only | dsimp only

theorem hitchVector_only {ps : List Part} {u0 : State}
    (hp : ∀ p ∈ ([.out, .freeIdx, .node, .pwr, .host, .mem, .causes, .stats, .log, .hitch, .time, .sw, .tx, .ctl, .red, .wr, .leg] : List Part), p ∈ ps)
    (p : Nat) (f : HFrame) (s : State)  (hk : Only ps u0 s) :
    Only ps u0 (hitchVector p f s) := by
  unfold hitchVector
  repeat' first | with_reducible assumption | with_reducible exact sub_trans (by decide) hp | (intro _) | with_reducible apply only_ite
                | extract_lets | with_reducible apply setVec_only | with_reducible apply loseNeighbour_only
                | with_reducible apply gainNeighbour_only | with_reducible apply logEvent_only | with_reducible apply hitchAfter_only
                | with_reducible apply review_only | with_reducible apply setHPort_only | with_reducible apply mkaNeighbour_only | split
                | (refine only_mk _ ?_ (by intro p hq; cases p <;> first | exact absurd (hp _ (by decide)) hq | exact rfl)) | dsimp only

theorem hitchExchange_only {ps : List Part} {u0 : State}
    (hp : ∀ p ∈ ([.out, .freeIdx, .host, .causes, .stats, .log, .hitch, .time, .sw, .red] : List Part), p ∈ ps) (p : Nat) (f : HFrame) (s : State) 
    (hk : Only ps u0 s) :
    Only ps u0 (hitchExchange p f s) := by
  unfold hitchExchange
  repeat' first | with_reducible assumption | with_reducible exact sub_trans (by decide) hp | (intro _) | with_reducible apply only_ite
                | extract_lets | with_reducible apply linkExchange_only | with_reducible apply setHPort_only | split
                | (refine only_mk _ ?_ (by intro p hq; cases p <;> first | exact absurd (hp _ (by decide)) hq | exact rfl)) | dsimp only

theorem hitchInvalid_only {ps : List Part} {u0 : State} (hp : ∀ p ∈ ([.hitch] : List Part), p ∈ ps) (p : Nat) (s : State)  (hk : Only ps u0 s) :
    Only ps u0 (hitchInvalid p s) := by
  unfold hitchInvalid
  repeat' first | with_reducible assumption | with_reducible exact sub_trans (by decide) hp | (intro _) | extract_lets
                | with_reducible apply setHPort_only
                | (refine only_mk _ ?_ (by intro p hq; cases p <;> first | exact absurd (hp _ (by decide)) hq | exact rfl)) | dsimp only

theorem execHitchBeat_only (s : State) {s9 : State} (hk : execHitchBeat s = .next s9) : Only [.out, .host, .causes, .stats, .hitch, .sw] s s9 := by
  unfold execHitchBeat at hk
  cases hk
  repeat' first | with_reducible assumption | decide | (intro _) | with_reducible exact Only.rfl | with_reducible apply only_ite | extract_lets
                | with_reducible apply sendHitch_only | with_reducible apply setHPort_only | with_reducible apply only_foldl | split
                | (refine only_mk _ ?_ (by intro p hp; cases p <;> first | exact absurd (by decide) hp | exact rfl)) | dsimp only

theorem execHitchFrameReceive_only (port : Nat) (frame : Frame) (stamp : Stamp) (s : State) {s9 : State}
    (hk : execHitchFrameReceive port frame stamp s = .next s9) : Only [.out, .freeIdx, .node, .pwr, .host, .mem, .causes, .stats, .log, .hitch, .time, .sw, .tx, .ctl, .red, .wr, .leg] s s9 := by
  unfold execHitchFrameReceive at hk
  cases hk
  repeat' first | with_reducible assumption | decide | (intro _) | with_reducible exact Only.rfl | with_reducible apply only_ite | extract_lets
                | with_reducible apply hitchInvalid_only | with_reducible apply setHPort_only | with_reducible apply hitchExchange_only
                | with_reducible apply hitchVector_only | with_reducible apply tugAll_only | split
                | (refine only_mk _ ?_ (by intro p hp; cases p <;> first | exact absurd (by decide) hp | exact rfl)) | dsimp only

theorem hitchRelay_only {ps : List Part} {u0 : State}
    (hp : ∀ p ∈ ([.out, .freeIdx, .node, .pwr, .host, .mem, .causes, .stats, .log, .hitch, .time, .sw, .tx, .ctl, .red, .wr, .leg] : List Part), p ∈ ps)
    (m : List Byte) (s : State)  (hk : Only ps u0 s) :
    Only ps u0 (hitchRelay m s) := by
  unfold hitchRelay
  repeat' first | with_reducible assumption | with_reducible exact sub_trans (by decide) hp | (intro _) | with_reducible apply only_ite
                | extract_lets | with_reducible apply hitchVector_only | split
                | (refine only_mk _ ?_ (by intro p hq; cases p <;> first | exact absurd (hp _ (by decide)) hq | exact rfl)) | dsimp only

theorem neighbourLost_only {ps : List Part} {u0 : State}
    (hp : ∀ p ∈ ([.out, .freeIdx, .node, .pwr, .host, .mem, .causes, .stats, .log, .hitch, .time, .sw, .ctl, .red, .wr, .leg] : List Part), p ∈ ps)
    (p : Nat) (s : State)  (hk : Only ps u0 s) :
    Only ps u0 (neighbourLost p s) := by
  unfold neighbourLost
  repeat' first | with_reducible assumption | with_reducible exact sub_trans (by decide) hp | (intro _) | with_reducible apply only_ite
                | extract_lets | with_reducible apply hitchAfter_only | with_reducible apply evalInhibit_only | with_reducible apply tryCommit_only
                | with_reducible apply loseNeighbour_only | with_reducible apply tugAll_only | split | dsimp only

theorem hitchLostTold_only {ps : List Part} {u0 : State}
    (hp : ∀ p ∈ ([.out, .freeIdx, .node, .pwr, .host, .mem, .causes, .stats, .log, .hitch, .time, .sw, .ctl, .red, .wr, .leg] : List Part), p ∈ ps)
    (m : List Byte) (s : State)  (hk : Only ps u0 s) :
    Only ps u0 (hitchLostTold m s) := by
  unfold hitchLostTold
  repeat' first | with_reducible assumption | with_reducible exact sub_trans (by decide) hp | (intro _) | with_reducible apply only_ite
                | extract_lets | with_reducible apply hitchAfter_only | with_reducible apply evalInhibit_only | with_reducible apply tryCommit_only
                | with_reducible apply loseNeighbour_only | split | dsimp only

theorem execNeighbourLossTimeout_only (port : Nat) (s : State) {s9 : State}
    (hk : execNeighbourLossTimeout port s = .next s9) : Only [.out, .freeIdx, .node, .pwr, .host, .mem, .causes, .stats, .log, .hitch, .time, .sw, .ctl, .red, .wr, .leg] s s9 := by
  unfold execNeighbourLossTimeout at hk
  cases hk
  repeat' first | with_reducible assumption | decide | (intro _) | with_reducible exact Only.rfl | with_reducible apply only_ite | extract_lets
                | with_reducible apply neighbourLost_only | split | dsimp only

theorem execLineSettleExpiry_only (dir : Nat) (s : State) {s9 : State}
    (hk : execLineSettleExpiry dir s = .next s9) : Only [.out, .freeIdx, .node, .pwr, .host, .mem, .causes, .stats, .log, .hitch, .time, .sw, .ctl, .red, .wr] s s9 := by
  unfold execLineSettleExpiry at hk
  cases hk
  try dsimp only
  repeat' first | with_reducible assumption | decide | (intro _) | with_reducible exact Only.rfl | with_reducible exact Only.rfl
                | with_reducible apply only_ite | with_reducible apply only_ite_app | with_reducible apply only_id
                | with_reducible apply setSettle_only | with_reducible apply setFault_only | with_reducible apply raise_only
                | with_reducible apply logEvent_only | with_reducible apply hitchAfter_only | with_reducible apply startRound_only
                | with_reducible apply only_foldl | with_reducible apply only_foldl2 | split
                | (refine only_mk _ ?_ (by intro p hp; cases p <;> first | exact absurd (by decide) hp | exact rfl)) | dsimp only

theorem execHitchPendingExpiry_only (s : State) {s9 : State}
    (hk : execHitchPendingExpiry s = .next s9) : Only [.out, .freeIdx, .host, .mem, .causes, .stats, .log, .hitch, .time, .sw, .ctl, .red, .wr] s s9 := by
  unfold execHitchPendingExpiry at hk
  cases hk
  repeat' first | with_reducible assumption | decide | (intro _) | with_reducible exact Only.rfl | with_reducible apply only_ite | extract_lets
                | with_reducible apply hitchAfter_only | with_reducible apply startRound_only | split | dsimp only

theorem execBypassWindowExpiry_only (s : State) {s9 : State}
    (hk : execBypassWindowExpiry s = .next s9) : Only [.out, .freeIdx, .host, .mem, .causes, .stats, .log, .hitch, .time, .sw, .ctl, .red, .wr] s s9 := by
  unfold execBypassWindowExpiry at hk
  cases hk
  repeat' first | with_reducible assumption | decide | (intro _) | with_reducible exact Only.rfl | with_reducible apply only_ite | extract_lets
                | with_reducible apply hitchAfter_only | with_reducible apply uncouple_only | split
                | (refine only_mk _ ?_ (by intro p hp; cases p <;> first | exact absurd (by decide) hp | exact rfl)) | dsimp only

theorem execHitchPropose_only (s : State) {s9 : State}
    (hk : execHitchPropose s = .next s9) : Only [.out, .freeIdx, .host, .mem, .causes, .stats, .log, .hitch, .sw, .ctl, .red, .wr] s s9 := by
  unfold execHitchPropose at hk
  cases hk
  repeat' first | with_reducible assumption | decide | (intro _) | with_reducible exact Only.rfl | with_reducible apply only_ite | extract_lets
                | with_reducible apply hitchAfter_only | with_reducible apply refuse_only | with_reducible apply tryCommit_only
                | with_reducible apply sendChanges_only | split
                | (refine only_mk _ ?_ (by intro p hp; cases p <;> first | exact absurd (by decide) hp | exact rfl)) | dsimp only

theorem takeProposal_only {ps : List Part} {u0 : State}
    (hp : ∀ p ∈ ([.out, .freeIdx, .host, .mem, .causes, .stats, .log, .hitch, .sw, .red] : List Part), p ∈ ps) (pr : Proposal) (s : State) 
    (hk : Only ps u0 s) :
    Only ps u0 (takeProposal pr s) := by
  unfold takeProposal
  repeat' first | with_reducible assumption | with_reducible exact sub_trans (by decide) hp | (intro _) | with_reducible apply only_ite
                | extract_lets | with_reducible apply committed_only | with_reducible apply refuse_only | split
                | (refine only_mk _ ?_ (by intro p hq; cases p <;> first | exact absurd (hp _ (by decide)) hq | exact rfl)) | dsimp only

theorem admitHeld_only {ps : List Part} {u0 : State} (hp : ∀ p ∈ ([.hitch] : List Part), p ∈ ps) (s : State)  (hk : Only ps u0 s) :
    Only ps u0 (admitHeld s) := by
  unfold admitHeld
  repeat' first | with_reducible assumption | with_reducible exact sub_trans (by decide) hp | (intro _) | with_reducible apply only_ite
                | extract_lets | with_reducible apply setHPort_only | with_reducible apply only_foldl | split
                | (refine only_mk _ ?_ (by intro p hq; cases p <;> first | exact absurd (hp _ (by decide)) hq | exact rfl)) | dsimp only

theorem lateCouples_only {ps : List Part} {u0 : State}
    (hp : ∀ p ∈ ([.out, .freeIdx, .host, .mem, .causes, .stats, .log, .hitch, .time, .sw, .ctl, .red] : List Part), p ∈ ps) (s : State) 
    (hk : Only ps u0 s) :
    Only ps u0 (lateCouples s) := by
  unfold lateCouples
  repeat' first | with_reducible assumption | with_reducible exact sub_trans (by decide) hp | (intro _) | with_reducible apply only_ite
                | extract_lets | with_reducible apply raise_only | with_reducible apply logEvent_only | with_reducible apply startRound_only
                | with_reducible apply setSettle_only | with_reducible apply only_foldl | split
                | (refine only_mk _ ?_ (by intro p hq; cases p <;> first | exact absurd (hp _ (by decide)) hq | exact rfl)) | dsimp only

theorem hitchSwitch_only {ps : List Part} {u0 : State}
    (hp : ∀ p ∈ ([.out, .freeIdx, .host, .mem, .causes, .stats, .log, .hitch, .time, .sw, .stream, .ctl, .red, .wr, .leg, .br] : List Part), p ∈ ps)
    (pr : Proposal) (s : State)  (hk : Only ps u0 s) :
    Only ps u0 (hitchSwitch pr s) := by
  unfold hitchSwitch
  repeat' first | with_reducible assumption | with_reducible exact sub_trans (by decide) hp | (intro _) | with_reducible apply only_ite
                | extract_lets | with_reducible apply takeProposal_only | with_reducible apply logRelease_only | with_reducible apply logEvent_only
                | with_reducible apply unlearn_only | with_reducible apply admitHeld_only | with_reducible apply rebindSessions_only
                | with_reducible apply rebindStreams_only | with_reducible apply raise_only | with_reducible apply startNow_only
                | with_reducible apply wrSwitch_only | with_reducible apply wtbEnds_only | with_reducible apply applyDueStep_only
                | with_reducible apply uncalibrated_only | with_reducible apply finishHitchWaits_only | with_reducible apply only_foldl | split
                | dsimp only

theorem execHitchSwitch_only (s : State) {s9 : State}
    (hk : execHitchSwitch s = .next s9) : Only [.out, .freeIdx, .host, .mem, .causes, .stats, .log, .hitch, .time, .sw, .stream, .ctl, .red, .wr, .leg, .br] s s9 := by
  unfold execHitchSwitch at hk
  cases hk
  repeat' first | with_reducible assumption | decide | (intro _) | with_reducible exact Only.rfl | with_reducible apply only_ite | extract_lets
                | with_reducible apply hitchAfter_only | with_reducible apply review_only | with_reducible apply lateCouples_only
                | with_reducible apply evalInhibit_only | with_reducible apply hitchSwitch_only | split
                | (refine only_mk _ ?_ (by intro p hp; cases p <;> first | exact absurd (by decide) hp | exact rfl)) | dsimp only

theorem execTtdpHelloReceive_only (port : Nat) (s : State) {s9 : State} (hk : execTtdpHelloReceive port s = .next s9) : Only [.hitch] s s9 := by
  unfold execTtdpHelloReceive at hk
  cases hk
  repeat' first | with_reducible assumption | decide | (intro _) | with_reducible exact Only.rfl | with_reducible apply only_ite | extract_lets
                | with_reducible apply setHPort_only | split
                | (refine only_mk _ ?_ (by intro p hp; cases p <;> first | exact absurd (by decide) hp | exact rfl)) | dsimp only

theorem execTtdpHelloTimeout_only (port : Nat) (s : State) {s9 : State}
    (hk : execTtdpHelloTimeout port s = .next s9) : Only [.out, .freeIdx, .host, .causes, .stats, .log, .hitch, .sw, .red, .wr] s s9 := by
  unfold execTtdpHelloTimeout at hk
  cases hk
  repeat' first | with_reducible assumption | decide | (intro _) | with_reducible exact Only.rfl | with_reducible apply only_ite | extract_lets
                | with_reducible apply setHPort_only | with_reducible apply hitchAfter_only | with_reducible apply enterTtdp_only
                | with_reducible apply modeSaid_only | split
                | (refine only_mk _ ?_ (by intro p hp; cases p <;> first | exact absurd (by decide) hp | exact rfl)) | dsimp only

theorem execTtdpHelloSend_only (s : State) {s9 : State}
    (hk : execTtdpHelloSend s = .next s9) : Only [.out, .freeIdx, .host, .causes, .stats, .sw] s s9 := by
  unfold execTtdpHelloSend at hk
  cases hk
  repeat' first | with_reducible assumption | decide | (intro _) | with_reducible exact Only.rfl | with_reducible apply only_ite | extract_lets
                | with_reducible apply sendFrame_only | with_reducible apply useFree_only | with_reducible apply only_foldl | split | dsimp only

theorem execTtdpInaugurationTimer_only (result : Option (List TtdpNode)) (s : State) {s9 : State}
    (hk : execTtdpInaugurationTimer result s = .next s9) : Only [.out, .freeIdx, .host, .mem, .causes, .stats, .log, .hitch, .sw, .red, .wr] s s9 := by
  unfold execTtdpInaugurationTimer at hk
  cases hk
  repeat' first | with_reducible assumption | decide | (intro _) | with_reducible exact Only.rfl | with_reducible apply only_ite | extract_lets
                | with_reducible apply useFree_only | with_reducible apply raise_only | with_reducible apply logEvent_only
                | with_reducible apply refuse_only | with_reducible apply hitchAfter_only | with_reducible apply committed_only | split
                | (refine only_mk _ ?_ (by intro p hp; cases p <;> first | exact absurd (by decide) hp | exact rfl)) | dsimp only

theorem execInhibitInputChange_only (gpio : Nat) (level : Bool) (s : State) {s9 : State}
    (hk : execInhibitInputChange gpio level s = .next s9) : Only [.out, .freeIdx, .pwr, .host, .mem, .causes, .stats, .log, .hitch, .time, .sw, .ctl, .red, .wr, .leg] s s9 := by
  unfold execInhibitInputChange at hk
  cases hk
  repeat' first | with_reducible assumption | decide | (intro _) | with_reducible exact Only.rfl | with_reducible apply only_ite | extract_lets
                | with_reducible apply hitchAfter_only | with_reducible apply evalInhibit_only | split
                | (refine only_mk _ ?_ (by intro p hp; cases p <;> first | exact absurd (by decide) hp | exact rfl)) | dsimp only

theorem execHitchStatus_only (c : Acs) (s : State) {s9 : State}
    (hk : execHitchStatus c s = .next s9) : Only [.out, .freeIdx, .host, .mem, .causes, .stats, .log, .hitch, .sw, .red] s s9 := by
  unfold execHitchStatus at hk
  cases hk
  repeat' first | with_reducible assumption | decide | (intro _) | with_reducible exact Only.rfl | extract_lets | with_reducible apply acsLen_only
                | with_reducible apply done_only | with_reducible apply refuse_only | dsimp only

theorem execHitchTopology_only (c : Acs) (s : State) {s9 : State}
    (hk : execHitchTopology c s = .next s9) : Only [.out, .host, .mem, .causes, .stats] s s9 := by
  unfold execHitchTopology at hk
  cases hk
  repeat' first | with_reducible assumption | decide | (intro _) | with_reducible exact Only.rfl | extract_lets | with_reducible apply acsLen_only
                | with_reducible apply done_only | dsimp only

theorem execHitchLinks_only (c : Acs) (s : State) {s9 : State}
    (hk : execHitchLinks c s = .next s9) : Only [.out, .host, .mem, .causes, .stats] s s9 := by
  unfold execHitchLinks at hk
  cases hk
  repeat' first | with_reducible assumption | decide | (intro _) | with_reducible exact Only.rfl | extract_lets | with_reducible apply acsLen_only
                | with_reducible apply done_only | dsimp only

theorem effHitchInhibit_only {ps : List Part} {u0 : State}
    (hp : ∀ p ∈ ([.out, .freeIdx, .host, .mem, .causes, .stats, .log, .hitch, .time, .sw, .ctl, .red, .wr, .leg] : List Part), p ∈ ps)
    (a : List Byte) (r : Option AcsRef) (s : State)  (hk : Only ps u0 s) :
    Only ps u0 (effHitchInhibit a r s) := by
  unfold effHitchInhibit
  repeat' first | with_reducible assumption | with_reducible exact sub_trans (by decide) hp | (intro _) | extract_lets
                | with_reducible apply hitchAfter_only | with_reducible apply evalInhibit_only | with_reducible apply finish_only
                | (refine only_mk _ ?_ (by intro p hq; cases p <;> first | exact absurd (hp _ (by decide)) hq | exact rfl)) | dsimp only

theorem execHitchInhibit_only (c : Acs) (s : State) {s9 : State}
    (hk : execHitchInhibit c s = .next s9) : Only [.out, .freeIdx, .host, .mem, .causes, .stats, .log, .hitch, .time, .sw, .ctl, .red, .wr, .leg] s s9 := by
  unfold execHitchInhibit at hk
  cases hk
  repeat' first | with_reducible assumption | decide | (intro _) | with_reducible exact Only.rfl | extract_lets | with_reducible apply acsLen_only
                | with_reducible apply badArgIf_only | with_reducible apply nodeWide_only | with_reducible apply effHitchInhibit_only | dsimp only

theorem effHitchRequest_only {ps : List Part} {u0 : State}
    (hp : ∀ p ∈ ([.out, .freeIdx, .host, .mem, .causes, .stats, .log, .hitch, .time, .sw, .ctl, .red, .wr] : List Part), p ∈ ps) (_a : List Byte)
    (r : Option AcsRef) (s : State)  (hk : Only ps u0 s) :
    Only ps u0 (effHitchRequest _a r s) := by
  unfold effHitchRequest
  repeat' first | with_reducible assumption | with_reducible exact sub_trans (by decide) hp | (intro _) | with_reducible apply only_ite
                | extract_lets | with_reducible apply finish_only | with_reducible apply hitchAfter_only | with_reducible apply startRound_only
                | split | (refine only_mk _ ?_ (by intro p hq; cases p <;> first | exact absurd (hp _ (by decide)) hq | exact rfl)) | dsimp only

theorem execHitchRequest_only (c : Acs) (s : State) {s9 : State}
    (hk : execHitchRequest c s = .next s9) : Only [.out, .freeIdx, .host, .mem, .causes, .stats, .log, .hitch, .time, .sw, .ctl, .red, .wr] s s9 := by
  unfold execHitchRequest at hk
  cases hk
  repeat' first | with_reducible assumption | decide | (intro _) | with_reducible exact Only.rfl | extract_lets | with_reducible apply acsLen_only
                | with_reducible apply nodeWide_only | with_reducible apply effHitchRequest_only | dsimp only

theorem execHitchRequestTimeout_only (mbx : Nat) (idx : Nat) (s : State) {s9 : State}
    (hk : execHitchRequestTimeout mbx idx s = .next s9) : Only [.out, .host, .mem, .causes, .stats, .hitch, .red] s s9 := by
  unfold execHitchRequestTimeout at hk
  cases hk
  repeat' first | with_reducible assumption | decide | (intro _) | with_reducible exact Only.rfl | extract_lets
                | with_reducible apply finishHitchWaits_only | dsimp only

theorem execHitchWait_only (c : Acs) (s : State) {s9 : State}
    (hk : execHitchWait c s = .next s9) : Only [.out, .host, .mem, .causes, .stats, .hitch] s s9 := by
  unfold execHitchWait at hk
  cases hk
  repeat' first | with_reducible assumption | decide | (intro _) | with_reducible exact Only.rfl | with_reducible apply only_ite | extract_lets
                | with_reducible apply acsLen_only | with_reducible apply badArgIf_only | with_reducible apply done_only | split
                | (refine only_mk _ ?_ (by intro p hp; cases p <;> first | exact absurd (by decide) hp | exact rfl)) | dsimp only

theorem execHitchWaitTimeout_only (mbx : Nat) (idx : Nat) (s : State) {s9 : State}
    (hk : execHitchWaitTimeout mbx idx s = .next s9) : Only [.out, .host, .mem, .causes, .stats, .hitch, .red] s s9 := by
  unfold execHitchWaitTimeout at hk
  cases hk
  repeat' first | with_reducible assumption | decide | (intro _) | with_reducible exact Only.rfl | extract_lets
                | with_reducible apply finishHitchWaits_only | dsimp only

end Sys2Proof.Machine
end

