-- ==== Sys2Proof/Laws/OnlyStream.lean ====
section
/-! SUPPORT. The parts of the state that every operation of Machine/Stream.lean may change, said once for each: all others are left alone (Only of
Safety.lean). -/
set_option Elab.async false
set_option linter.all false
namespace Sys2Proof.Machine
theorem execStreamSnapshot_only (ctx : Nat) (err : Nat) (s : State) {s9 : State}
    (hk : execStreamSnapshot ctx err s = .next s9) : Only [.out, .freeIdx, .host, .causes, .stats, .log, .sw, .stream, .red] s s9 := by
  unfold execStreamSnapshot at hk
  cases hk
  repeat' first | with_reducible assumption | decide | (intro _) | with_reducible exact Only.rfl | with_reducible apply only_ite | extract_lets
                | with_reducible apply ctxParity_only | with_reducible apply setCtx_only | with_reducible apply bumpSeq_only
                | with_reducible apply skipSnapshot_only | with_reducible apply snapshot_only | split
                | (refine only_mk _ ?_ (by intro p hp; cases p <;> first | exact absurd (by decide) hp | exact rfl)) | dsimp only

theorem execFreshTimeoutExpiry_only (ctx : Nat) (s : State) {s9 : State}
    (hk : execFreshTimeoutExpiry ctx s = .next s9) : Only [.out, .freeIdx, .host, .mem, .causes, .stats, .log, .hitch, .time, .sw, .stream, .ctl, .red, .leg] s s9 := by
  unfold execFreshTimeoutExpiry at hk
  cases hk
  repeat' first | with_reducible assumption | decide | (intro _) | with_reducible exact Only.rfl | with_reducible apply only_ite | extract_lets
                | with_reducible apply count_only | with_reducible apply setCtx_only | with_reducible apply logEvent_only
                | with_reducible apply streamInhibit_only | with_reducible apply raise_only | split
                | (refine only_mk _ ?_ (by intro p hp; cases p <;> first | exact absurd (by decide) hp | exact rfl)) | dsimp only

theorem execHoldPeriodsExpiry_only (ctx : Nat) (s : State) {s9 : State} (hk : execHoldPeriodsExpiry ctx s = .next s9) : Only [.stream] s s9 := by
  unfold execHoldPeriodsExpiry at hk
  cases hk
  repeat' first | with_reducible assumption | decide | (intro _) | with_reducible exact Only.rfl | with_reducible apply only_ite | extract_lets
                | with_reducible apply setCtx_only | split
                | (refine only_mk _ ?_ (by intro p hp; cases p <;> first | exact absurd (by decide) hp | exact rfl)) | dsimp only

theorem execSwitchGraceExpiry_only (s : State) {s9 : State} (hk : execSwitchGraceExpiry s = .next s9) : Only [.stream] s s9 := by
  unfold execSwitchGraceExpiry at hk
  cases hk
  repeat' first | with_reducible assumption | (intro _) | with_reducible exact Only.rfl | extract_lets
                | (refine only_mk _ ?_ (by intro p hp; cases p <;> first | exact absurd (by decide) hp | exact rfl)) | dsimp only

theorem execCtxReload_only (ctx : Nat) (s : State) {s9 : State}
    (hk : execCtxReload ctx s = .next s9) : Only [.out, .freeIdx, .host, .mem, .causes, .stats, .log, .hitch, .time, .sw, .stream, .ctl, .red, .leg] s s9 := by
  unfold execCtxReload at hk
  cases hk
  repeat' first | with_reducible assumption | decide | (intro _) | with_reducible exact Only.rfl | with_reducible apply only_ite | extract_lets
                | with_reducible apply streamEnable_only | with_reducible apply setCtx_only | split
                | (refine only_mk _ ?_ (by intro p hp; cases p <;> first | exact absurd (by decide) hp | exact rfl)) | dsimp only

theorem streamToHost_only {ps : List Part} {u0 : State}
    (hp : ∀ p ∈ ([.out, .freeIdx, .host, .causes, .stats, .log, .sw, .rx, .red] : List Part), p ∈ ps) (n : Nat) (port : Nat) (c : StreamCtx)
    (f : Frame) (stamp : Stamp) (s : State)  (hk : Only ps u0 s) :
    Only ps u0 (streamToHost n port c f stamp s) := by
  unfold streamToHost
  repeat' first | with_reducible assumption | with_reducible exact sub_trans (by decide) hp | (intro _) | with_reducible apply only_ite
                | extract_lets | with_reducible apply rxOffer_only | with_reducible apply bumpUid_only | split
                | (refine only_mk _ ?_ (by intro p hq; cases p <;> first | exact absurd (hp _ (by decide)) hq | exact rfl)) | dsimp only

theorem passToTask_only {ps : List Part} {u0 : State} (hp : ∀ p ∈ ([.out, .host, .causes, .stats, .red] : List Part), p ∈ ps) (n : Nat) (port : Nat)
    (c : StreamCtx) (f : Frame) (s : State)  (hk : Only ps u0 s) :
    Only ps u0 (passToTask n port c f s) := by
  unfold passToTask
  repeat' first | with_reducible assumption | with_reducible exact sub_trans (by decide) hp | (intro _) | with_reducible apply only_ite
                | extract_lets | with_reducible apply sendSegments_only | with_reducible apply only_foldl | split | dsimp only

theorem streamReceive_only {ps : List Part} {u0 : State}
    (hp : ∀ p ∈ ([.out, .freeIdx, .host, .mem, .causes, .stats, .log, .hitch, .time, .sw, .rx, .stream, .ctl, .red, .leg] : List Part), p ∈ ps)
    (n : Nat) (port : Nat) (f : Frame) (stamp : Stamp) (err : Nat) (own : Bool) (s : State)  (hk : Only ps u0 s) :
    Only ps u0 (streamReceive n port f stamp err own s) := by
  unfold streamReceive
  repeat' first | with_reducible assumption | with_reducible exact sub_trans (by decide) hp | (intro _) | with_reducible apply only_ite
                | extract_lets | with_reducible apply dropSub_only | with_reducible apply ctxParity_only | with_reducible apply setCtx_only
                | with_reducible apply streamToHost_only | with_reducible apply acceptSub_only | with_reducible apply streamInhibit_only
                | with_reducible apply passToTask_only | split
                | (refine only_mk _ ?_ (by intro p hq; cases p <;> first | exact absurd (hp _ (by decide)) hq | exact rfl)) | dsimp only

theorem execStreamFrameReceive_only (ctx : Nat) (port : Nat) (frame : Frame) (stamp : Stamp) (err : Nat) (s : State) {s9 : State}
    (hk : execStreamFrameReceive ctx port frame stamp err s = .next s9) : Only [.out, .freeIdx, .host, .mem, .causes, .stats, .log, .hitch, .time, .sw, .rx, .stream, .ctl, .red, .leg] s s9 := by
  unfold execStreamFrameReceive at hk
  cases hk
  repeat' first | with_reducible assumption | decide | (intro _) | with_reducible exact Only.rfl | extract_lets
                | with_reducible apply streamReceive_only | dsimp only

theorem payloadBad_only {ps : List Part} {u0 : State}
    (hp : ∀ p ∈ ([.out, .freeIdx, .host, .causes, .stats, .log, .sw, .stream, .red] : List Part), p ∈ ps) (n : Nat) (s : State) 
    (hk : Only ps u0 s) :
    Only ps u0 (payloadBad n s) := by
  unfold payloadBad
  repeat' first | with_reducible assumption | with_reducible exact sub_trans (by decide) hp | (intro _) | with_reducible apply only_ite
                | extract_lets | with_reducible apply ctxParity_only | with_reducible apply setCtx_only | split
                | (refine only_mk _ ?_ (by intro p hq; cases p <;> first | exact absurd (hp _ (by decide)) hq | exact rfl)) | dsimp only

theorem onCtx_only {ps : List Part} {u0 : State} (hp : ∀ p ∈ ([.out, .host, .mem, .causes, .stats] : List Part), p ∈ ps) (c : Acs) (opcode : Nat)
    (body : StreamCtx → State → State) (s : State) (h_body : ∀ (x0 : StreamCtx) (s9 : State), Only ps u0 s9 → Only ps u0 (body x0 s9))
    (hk : Only ps u0 s) :
    Only ps u0 (onCtx c opcode body s) := by
  unfold onCtx
  repeat' first | with_reducible assumption | with_reducible exact sub_trans (by decide) hp | (intro _) | with_reducible apply only_ite
                | extract_lets | apply h_body | with_reducible apply done_only | split
                | (refine only_mk _ ?_ (by intro p hq; cases p <;> first | exact absurd (hp _ (by decide)) hq | exact rfl)) | dsimp only

theorem execStreamStatus_only (c : Acs) (s : State) {s9 : State}
    (hk : execStreamStatus c s = .next s9) : Only [.out, .host, .mem, .causes, .stats] s s9 := by
  unfold execStreamStatus at hk
  cases hk
  repeat' first | with_reducible assumption | decide | (intro _) | with_reducible exact Only.rfl | with_reducible apply only_ite | extract_lets
                | with_reducible apply acsLen_only | with_reducible apply badArgIf_only | with_reducible apply onCtx_only
                | with_reducible apply done_only | split | dsimp only

theorem execStreamRead_only (c : Acs) (s : State) {s9 : State}
    (hk : execStreamRead c s = .next s9) : Only [.out, .host, .mem, .causes, .stats] s s9 := by
  unfold execStreamRead at hk
  cases hk
  repeat' first | with_reducible assumption | decide | (intro _) | with_reducible exact Only.rfl | extract_lets | with_reducible apply acsLen_only
                | with_reducible apply badArgIf_only | with_reducible apply onCtx_only | with_reducible apply done_only | dsimp only

theorem effStreamPut_only {ps : List Part} {u0 : State} (hp : ∀ p ∈ ([.out, .host, .mem, .causes, .stats, .stream, .red] : List Part), p ∈ ps)
    (a : List Byte) (r : Option AcsRef) (s : State)  (hk : Only ps u0 s) :
    Only ps u0 (effStreamPut a r s) := by
  unfold effStreamPut
  repeat' first | with_reducible assumption | with_reducible exact sub_trans (by decide) hp | (intro _) | extract_lets
                | with_reducible apply finish_only | with_reducible apply streamPut_only | dsimp only

theorem effStreamLine_only {ps : List Part} {u0 : State} (hp : ∀ p ∈ ([.out, .host, .mem, .causes, .stats, .stream, .red] : List Part), p ∈ ps)
    (a : List Byte) (r : Option AcsRef) (s : State)  (hk : Only ps u0 s) :
    Only ps u0 (effStreamLine a r s) := by
  unfold effStreamLine
  repeat' first | with_reducible assumption | with_reducible exact sub_trans (by decide) hp | (intro _) | extract_lets
                | with_reducible apply finish_only | with_reducible apply streamLine_only | dsimp only

theorem effStreamEnable_only {ps : List Part} {u0 : State}
    (hp : ∀ p ∈ ([.out, .freeIdx, .host, .mem, .causes, .stats, .log, .hitch, .time, .sw, .stream, .ctl, .red, .leg] : List Part), p ∈ ps)
    (a : List Byte) (r : Option AcsRef) (s : State)  (hk : Only ps u0 s) :
    Only ps u0 (effStreamEnable a r s) := by
  unfold effStreamEnable
  repeat' first | with_reducible assumption | with_reducible exact sub_trans (by decide) hp | (intro _) | extract_lets
                | with_reducible apply finish_only | with_reducible apply streamEnable_only | dsimp only

theorem execStreamPut_only (c : Acs) (s : State) {s9 : State}
    (hk : execStreamPut c s = .next s9) : Only [.out, .host, .mem, .causes, .stats, .stream, .red] s s9 := by
  unfold execStreamPut at hk
  cases hk
  repeat' first | with_reducible assumption | decide | (intro _) | with_reducible exact Only.rfl | with_reducible apply only_ite | extract_lets
                | with_reducible apply acs_only | with_reducible apply done_only | with_reducible apply onCtx_only
                | with_reducible apply nodeWide_only | with_reducible apply effStreamPut_only | split | dsimp only

theorem execStreamGet_only (c : Acs) (s : State) {s9 : State}
    (hk : execStreamGet c s = .next s9) : Only [.out, .host, .mem, .causes, .stats] s s9 := by
  unfold execStreamGet at hk
  cases hk
  repeat' first | with_reducible assumption | decide | (intro _) | with_reducible exact Only.rfl | with_reducible apply only_ite | extract_lets
                | with_reducible apply acsLen_only | with_reducible apply badArgIf_only | with_reducible apply onCtx_only
                | with_reducible apply done_only | split
                | (refine only_mk _ ?_ (by intro p hp; cases p <;> first | exact absurd (by decide) hp | exact rfl)) | dsimp only

theorem execStreamLine_only (c : Acs) (s : State) {s9 : State}
    (hk : execStreamLine c s = .next s9) : Only [.out, .host, .mem, .causes, .stats, .stream, .red] s s9 := by
  unfold execStreamLine at hk
  cases hk
  repeat' first | with_reducible assumption | decide | (intro _) | with_reducible exact Only.rfl | with_reducible apply only_ite | extract_lets
                | with_reducible apply acsLen_only | with_reducible apply badArgIf_only | with_reducible apply onCtx_only
                | with_reducible apply done_only | with_reducible apply nodeWide_only | with_reducible apply effStreamLine_only | split | dsimp only

theorem execStreamEnable_only (c : Acs) (s : State) {s9 : State}
    (hk : execStreamEnable c s = .next s9) : Only [.out, .freeIdx, .host, .mem, .causes, .stats, .log, .hitch, .time, .sw, .stream, .ctl, .red, .leg] s s9 := by
  unfold execStreamEnable at hk
  cases hk
  repeat' first | with_reducible assumption | decide | (intro _) | with_reducible exact Only.rfl | with_reducible apply only_ite | extract_lets
                | with_reducible apply acsLen_only | with_reducible apply badArgIf_only | with_reducible apply onCtx_only
                | with_reducible apply done_only | with_reducible apply nodeWide_only | with_reducible apply effStreamEnable_only | split
                | dsimp only

end Sys2Proof.Machine
end

