-- ==== Sys2Proof/Laws/OnlyTime.lean ====
section
/-! SUPPORT. The parts of the state that every operation of Machine/Time.lean may change, said once for each: all others are left alone (Only of
Safety.lean). -/
set_option Elab.async false
set_option linter.all false
namespace Sys2Proof.Machine
theorem countReturn_only {ps : List Part} {u0 : State}
    (hp : ∀ p ∈ ([.out, .freeIdx, .host, .mem, .causes, .stats, .log, .time, .sw, .ctl, .red] : List Part), p ∈ ps) (offset : Int) (s : State) 
    (hk : Only ps u0 s) :
    Only ps u0 (countReturn offset s) := by
  unfold countReturn
  repeat' first | with_reducible assumption | with_reducible exact sub_trans (by decide) hp | (intro _) | with_reducible apply only_ite
                | extract_lets | with_reducible apply setDomain_only | with_reducible apply selectSlewed_only | split
                | (refine only_mk _ ?_ (by intro p hq; cases p <;> first | exact absurd (hp _ (by decide)) hq | exact rfl)) | dsimp only

theorem syncDomain_only {ps : List Part} {u0 : State}
    (hp : ∀ p ∈ ([.out, .freeIdx, .host, .causes, .stats, .log, .time, .sw, .ctl, .red] : List Part), p ∈ ps) (i : Nat) (offset : Int) (s : State) 
    (hk : Only ps u0 s) :
    Only ps u0 (syncDomain i offset s) := by
  unfold syncDomain
  repeat' first | with_reducible assumption | with_reducible exact sub_trans (by decide) hp | (intro _) | with_reducible apply only_ite
                | extract_lets | with_reducible apply acceptStep_only | with_reducible apply servo_only | with_reducible apply logEvent_only
                | with_reducible apply setDomSt_only | with_reducible apply setDomain_only | with_reducible apply count_only
                | with_reducible apply trySwitch_only | split
                | (refine only_mk _ ?_ (by intro p hq; cases p <;> first | exact absurd (hp _ (by decide)) hq | exact rfl)) | dsimp only

theorem takeSync_only {ps : List Part} {u0 : State}
    (hp : ∀ p ∈ ([.out, .freeIdx, .host, .mem, .causes, .stats, .log, .time, .sw, .ctl, .red] : List Part), p ∈ ps) (dom : Nat) (line : Line)
    (offset : Int) (s : State)  (hk : Only ps u0 s) :
    Only ps u0 (takeSync dom line offset s) := by
  unfold takeSync
  repeat' first | with_reducible assumption | with_reducible exact sub_trans (by decide) hp | (intro _) | with_reducible apply only_ite
                | extract_lets | with_reducible apply setDomain_only | with_reducible apply tugAll_only | with_reducible apply syncDomain_only
                | with_reducible apply countReturn_only | split
                | (refine only_mk _ ?_ (by intro p hq; cases p <;> first | exact absurd (hp _ (by decide)) hq | exact rfl)) | dsimp only

theorem execSyncReceive_only (dom : Nat) (line : Line) (offset : Int) (s : State) {s9 : State}
    (hk : execSyncReceive dom line offset s = .next s9) : Only [.out, .freeIdx, .host, .mem, .causes, .stats, .log, .time, .sw, .ctl, .red] s s9 := by
  unfold execSyncReceive at hk
  cases hk
  repeat' first | with_reducible assumption | decide | (intro _) | with_reducible exact Only.rfl | with_reducible apply only_ite | extract_lets
                | with_reducible apply tugAll_only | with_reducible apply takeSync_only | split | dsimp only

theorem execSyncTimeout_only (dom : Nat) (s : State) {s9 : State}
    (hk : execSyncTimeout dom s = .next s9) : Only [.out, .freeIdx, .host, .mem, .causes, .stats, .log, .time, .sw, .ctl, .red] s s9 := by
  unfold execSyncTimeout at hk
  cases hk
  repeat' first | with_reducible assumption | decide | (intro _) | with_reducible exact Only.rfl | with_reducible apply only_ite | extract_lets
                | with_reducible apply logEvent_only | with_reducible apply setDomSt_only | with_reducible apply setDomain_only
                | with_reducible apply count_only | with_reducible apply trySwitch_only | split
                | (refine only_mk _ ?_ (by intro p hp; cases p <;> first | exact absurd (by decide) hp | exact rfl)) | dsimp only

theorem elected_only {ps : List Part} {u0 : State}
    (hp : ∀ p ∈ ([.out, .freeIdx, .host, .causes, .stats, .log, .time, .sw, .red] : List Part), p ∈ ps) (dom : Nat) (gm : Nid) (own : Bool)
    (s : State)  (hk : Only ps u0 s) :
    Only ps u0 (elected dom gm own s) := by
  unfold elected
  repeat' first | with_reducible assumption | with_reducible exact sub_trans (by decide) hp | (intro _) | with_reducible apply only_ite
                | extract_lets | with_reducible apply gmChange_only | with_reducible apply setDomain_only | split
                | (refine only_mk _ ?_ (by intro p hq; cases p <;> first | exact absurd (hp _ (by decide)) hq | exact rfl)) | dsimp only

theorem execAnnounceReceive_only (dom : Nat) (gm : Nid) (own : Bool) (s : State) {s9 : State}
    (hk : execAnnounceReceive dom gm own s = .next s9) : Only [.out, .freeIdx, .host, .causes, .stats, .log, .time, .sw, .red] s s9 := by
  unfold execAnnounceReceive at hk
  cases hk
  repeat' first | with_reducible assumption | decide | (intro _) | with_reducible exact Only.rfl | extract_lets | with_reducible apply elected_only
                | dsimp only

theorem execAnnounceTimeout_only (dom : Nat) (port : Nat) (gm : Nid) (own : Bool) (s : State) {s9 : State}
    (hk : execAnnounceTimeout dom port gm own s = .next s9) : Only [.out, .freeIdx, .host, .causes, .stats, .log, .time, .sw, .red] s s9 := by
  unfold execAnnounceTimeout at hk
  cases hk
  repeat' first | with_reducible assumption | decide | (intro _) | with_reducible exact Only.rfl | with_reducible apply only_ite | extract_lets
                | with_reducible apply elected_only | split | dsimp only

theorem sendGptp_only {ps : List Part} {u0 : State} (hp : ∀ p ∈ ([.out, .freeIdx, .host, .causes, .stats, .sw] : List Part), p ∈ ps) (p : Nat)
    (s : State)  (hk : Only ps u0 s) :
    Only ps u0 (sendGptp p s) := by
  unfold sendGptp
  repeat' first | with_reducible assumption | with_reducible exact sub_trans (by decide) hp | (intro _) | extract_lets
                | with_reducible apply sendFrame_only | with_reducible apply useFree_only | dsimp only

theorem execAnnounceSend_only (dom : Nat) (ports : List Nat) (s : State) {s9 : State}
    (hk : execAnnounceSend dom ports s = .next s9) : Only [.out, .freeIdx, .host, .causes, .stats, .sw] s s9 := by
  unfold execAnnounceSend at hk
  cases hk
  repeat' first | with_reducible assumption | decide | (intro _) | with_reducible exact Only.rfl | with_reducible apply only_ite | extract_lets
                | with_reducible apply sendGptp_only | with_reducible apply only_foldl | split | dsimp only

theorem execSyncIntervalTick_only (dom : Nat) (ports : List Nat) (s : State) {s9 : State}
    (hk : execSyncIntervalTick dom ports s = .next s9) : Only [.out, .freeIdx, .host, .causes, .stats, .log, .time, .sw, .ctl, .red] s s9 := by
  unfold execSyncIntervalTick at hk
  cases hk
  repeat' first | with_reducible assumption | decide | (intro _) | with_reducible exact Only.rfl | with_reducible apply only_ite | extract_lets
                | with_reducible apply sendGptp_only | with_reducible apply moveCorrections_only | with_reducible apply setDomain_only
                | with_reducible apply stepDomain_only | with_reducible apply only_foldl | split
                | (refine only_mk _ ?_ (by intro p hp; cases p <;> first | exact absurd (by decide) hp | exact rfl)) | dsimp only

theorem execPdelayMessageReceive_only (port : Nat) (typ : Nat) (delay : Nat) (s : State) {s9 : State}
    (hk : execPdelayMessageReceive port typ delay s = .next s9) : Only [.out, .freeIdx, .host, .causes, .stats, .time, .sw] s s9 := by
  unfold execPdelayMessageReceive at hk
  cases hk
  repeat' first | with_reducible assumption | decide | (intro _) | with_reducible exact Only.rfl | with_reducible apply only_ite | extract_lets
                | with_reducible apply sendGptp_only | split
                | (refine only_mk _ ?_ (by intro p hp; cases p <;> first | exact absurd (by decide) hp | exact rfl)) | dsimp only

theorem execPdelayRequestSend_only (port : Nat) (s : State) {s9 : State}
    (hk : execPdelayRequestSend port s = .next s9) : Only [.out, .freeIdx, .host, .causes, .stats, .time, .sw] s s9 := by
  unfold execPdelayRequestSend at hk
  cases hk
  repeat' first | with_reducible assumption | decide | (intro _) | with_reducible exact Only.rfl | with_reducible apply only_ite | extract_lets
                | with_reducible apply sendGptp_only | split
                | (refine only_mk _ ?_ (by intro p hp; cases p <;> first | exact absurd (by decide) hp | exact rfl)) | dsimp only

theorem execSlewTermReturnsTo0_only (s : State) {s9 : State} (hk : execSlewTermReturnsTo0 s = .next s9) : Only [.time] s s9 := by
  unfold execSlewTermReturnsTo0 at hk
  cases hk
  repeat' first | with_reducible assumption | (intro _) | with_reducible exact Only.rfl | extract_lets
                | (refine only_mk _ ?_ (by intro p hp; cases p <;> first | exact absurd (by decide) hp | exact rfl)) | dsimp only

theorem execBackupCounterWrite_only (s : State) {s9 : State} (hk : execBackupCounterWrite s = .next s9) : Only [.time] s s9 := by
  unfold execBackupCounterWrite at hk
  cases hk
  repeat' first | with_reducible assumption | (intro _) | with_reducible exact Only.rfl | with_reducible apply only_ite | extract_lets | split
                | (refine only_mk _ ?_ (by intro p hp; cases p <;> first | exact absurd (by decide) hp | exact rfl)) | dsimp only

theorem drivePps_only {ps : List Part} {u0 : State} (hp : ∀ p ∈ ([.out, .node, .pwr, .time] : List Part), p ∈ ps) (active : Bool) (s : State) 
    (hk : Only ps u0 s) :
    Only ps u0 (drivePps active s) := by
  unfold drivePps
  repeat' first | with_reducible assumption | with_reducible exact sub_trans (by decide) hp | (intro _) | with_reducible apply only_ite
                | extract_lets | with_reducible apply drivePin_only | split | dsimp only

theorem execPpsOutPulse_only (s : State) {s9 : State} (hk : execPpsOutPulse s = .next s9) : Only [.out, .node, .pwr, .time] s s9 := by
  unfold execPpsOutPulse at hk
  cases hk
  repeat' first | with_reducible assumption | decide | (intro _) | with_reducible exact Only.rfl | with_reducible apply only_ite | extract_lets
                | with_reducible apply drivePps_only | split | dsimp only

theorem execPpsOutPulseEnd_only (s : State) {s9 : State} (hk : execPpsOutPulseEnd s = .next s9) : Only [.out, .node, .pwr, .time] s s9 := by
  unfold execPpsOutPulseEnd at hk
  cases hk
  repeat' first | with_reducible assumption | decide | (intro _) | with_reducible exact Only.rfl | with_reducible apply only_ite | extract_lets
                | with_reducible apply drivePps_only | split | dsimp only

theorem setTrainTime_only {ps : List Part} {u0 : State}
    (hp : ∀ p ∈ ([.out, .freeIdx, .host, .causes, .stats, .time, .sw, .ctl, .red] : List Part), p ∈ ps) (i : Nat) (delta : Int) (s : State) 
    (hk : Only ps u0 s) :
    Only ps u0 (setTrainTime i delta s) := by
  unfold setTrainTime
  repeat' first | with_reducible assumption | with_reducible exact sub_trans (by decide) hp | (intro _) | with_reducible apply only_ite
                | extract_lets | with_reducible apply servo_only | split
                | (refine only_mk _ ?_ (by intro p hq; cases p <;> first | exact absurd (hp _ (by decide)) hq | exact rfl)) | dsimp only

theorem execPpsInEdge_only (stamp : Stamp) (highNs : Nat) (s : State) {s9 : State}
    (hk : execPpsInEdge stamp highNs s = .next s9) : Only [.out, .freeIdx, .host, .mem, .causes, .stats, .time, .sw, .ctl, .red] s s9 := by
  unfold execPpsInEdge at hk
  cases hk
  repeat' first | with_reducible assumption | decide | (intro _) | with_reducible exact Only.rfl | with_reducible apply only_ite | extract_lets
                | with_reducible apply raise_only | with_reducible apply servo_only | with_reducible apply setTrainTime_only
                | with_reducible apply finish_only | with_reducible apply only_foldl | split
                | (refine only_mk _ ?_ (by intro p hp; cases p <;> first | exact absurd (by decide) hp | exact rfl)) | dsimp only

theorem execTimeChangeEffective_only (s : State) {s9 : State} (hk : execTimeChangeEffective s = .next s9) : Only [.time, .sw, .ctl] s s9 := by
  unfold execTimeChangeEffective at hk
  cases hk
  repeat' first | with_reducible assumption | decide | (intro _) | with_reducible exact Only.rfl | with_reducible apply only_ite | extract_lets
                | with_reducible apply applyChange_only | split
                | (refine only_mk _ ?_ (by intro p hp; cases p <;> first | exact absurd (by decide) hp | exact rfl)) | dsimp only

theorem execTimeStatus_only (c : Acs) (s : State) {s9 : State}
    (hk : execTimeStatus c s = .next s9) : Only [.out, .host, .mem, .causes, .stats] s s9 := by
  unfold execTimeStatus at hk
  cases hk
  repeat' first | with_reducible assumption | decide | (intro _) | with_reducible exact Only.rfl | extract_lets | with_reducible apply acsLen_only
                | with_reducible apply done_only | dsimp only

theorem timeSelect_only {ps : List Part} {u0 : State}
    (hp : ∀ p ∈ ([.out, .freeIdx, .host, .causes, .stats, .log, .time, .sw, .ctl, .red] : List Part), p ∈ ps) (i : Nat) (stepOk : Bool) (s : State) 
    (hk : Only ps u0 s) :
    Only ps u0 (timeSelect i stepOk s).2 := by
  unfold timeSelect
  repeat' first | with_reducible assumption | with_reducible exact sub_trans (by decide) hp | (intro _) | with_reducible apply only_ite
                | extract_lets | with_reducible apply setDomain_only | with_reducible apply raise_only | with_reducible apply switchSaid_only
                | with_reducible apply changeTime_only | with_reducible apply selectSlewed_only | split
                | (refine only_mk _ ?_ (by intro p hq; cases p <;> first | exact absurd (hp _ (by decide)) hq | exact rfl)) | dsimp only

theorem effTimeSelect_only {ps : List Part} {u0 : State}
    (hp : ∀ p ∈ ([.out, .freeIdx, .host, .mem, .causes, .stats, .log, .time, .sw, .ctl, .red] : List Part), p ∈ ps) (a : List Byte)
    (r : Option AcsRef) (s : State)  (hk : Only ps u0 s) :
    Only ps u0 (effTimeSelect a r s) := by
  unfold effTimeSelect
  repeat' first | with_reducible assumption | with_reducible exact sub_trans (by decide) hp | (intro _) | with_reducible apply only_ite
                | extract_lets | with_reducible apply timeSelect_only | with_reducible apply finish_only | split | dsimp only

theorem execTimeSelect_only (c : Acs) (s : State) {s9 : State}
    (hk : execTimeSelect c s = .next s9) : Only [.out, .freeIdx, .host, .mem, .causes, .stats, .log, .time, .sw, .ctl, .red] s s9 := by
  unfold execTimeSelect at hk
  cases hk
  repeat' first | with_reducible assumption | decide | (intro _) | with_reducible exact Only.rfl | extract_lets | with_reducible apply acsLen_only
                | with_reducible apply badArgIf_only | with_reducible apply nodeWide_only | with_reducible apply effTimeSelect_only | dsimp only

theorem effTimeSet_only {ps : List Part} {u0 : State}
    (hp : ∀ p ∈ ([.out, .freeIdx, .host, .mem, .causes, .stats, .time, .sw, .ctl, .red] : List Part), p ∈ ps) (a : List Byte) (ref : Option AcsRef)
    (s : State)  (hk : Only ps u0 s) :
    Only ps u0 (effTimeSet a ref s) := by
  unfold effTimeSet
  repeat' first | with_reducible assumption | with_reducible exact sub_trans (by decide) hp | (intro _) | with_reducible apply only_ite
                | extract_lets | with_reducible apply finish_only | with_reducible apply setTrainTime_only | split
                | (refine only_mk _ ?_ (by intro p hq; cases p <;> first | exact absurd (hp _ (by decide)) hq | exact rfl)) | dsimp only

theorem execTimeSet_only (c : Acs) (s : State) {s9 : State}
    (hk : execTimeSet c s = .next s9) : Only [.out, .freeIdx, .host, .mem, .causes, .stats, .time, .sw, .ctl, .red] s s9 := by
  unfold execTimeSet at hk
  cases hk
  repeat' first | with_reducible assumption | decide | (intro _) | with_reducible exact Only.rfl | extract_lets | with_reducible apply acsLen_only
                | with_reducible apply badArgIf_only | with_reducible apply nodeWide_only | with_reducible apply effTimeSet_only | dsimp only

theorem execTimeSetTimeout_only (s : State) {s9 : State}
    (hk : execTimeSetTimeout s = .next s9) : Only [.out, .host, .mem, .causes, .stats, .time, .red] s s9 := by
  unfold execTimeSetTimeout at hk
  cases hk
  repeat' first | with_reducible assumption | decide | (intro _) | with_reducible exact Only.rfl | with_reducible apply only_ite | extract_lets
                | with_reducible apply finish_only | split
                | (refine only_mk _ ?_ (by intro p hp; cases p <;> first | exact absurd (by decide) hp | exact rfl)) | dsimp only

theorem execTimeConvert_only (c : Acs) (s : State) {s9 : State}
    (hk : execTimeConvert c s = .next s9) : Only [.out, .host, .mem, .causes, .stats] s s9 := by
  unfold execTimeConvert at hk
  cases hk
  repeat' first | with_reducible assumption | decide | (intro _) | with_reducible exact Only.rfl | with_reducible apply only_ite | extract_lets
                | with_reducible apply acsLen_only | with_reducible apply badArgIf_only | with_reducible apply done_only | split | dsimp only

theorem execTimeLinks_only (c : Acs) (s : State) {s9 : State}
    (hk : execTimeLinks c s = .next s9) : Only [.out, .host, .mem, .causes, .stats] s s9 := by
  unfold execTimeLinks at hk
  cases hk
  repeat' first | with_reducible assumption | decide | (intro _) | with_reducible exact Only.rfl | extract_lets | with_reducible apply acsLen_only
                | with_reducible apply done_only | dsimp only

theorem execTimePps_only (c : Acs) (s : State) {s9 : State}
    (hk : execTimePps c s = .next s9) : Only [.out, .node, .pwr, .host, .mem, .causes, .stats, .time] s s9 := by
  unfold execTimePps at hk
  cases hk
  repeat' first | with_reducible assumption | decide | (intro _) | with_reducible exact Only.rfl | with_reducible apply only_ite | extract_lets
                | with_reducible apply acsLen_only | with_reducible apply badArgIf_only | with_reducible apply done_only
                | with_reducible apply drivePps_only | split
                | (refine only_mk _ ?_ (by intro p hp; cases p <;> first | exact absurd (by decide) hp | exact rfl)) | dsimp only

end Sys2Proof.Machine
end

