-- ==== Sys2Proof/Laws/OnlyVoteOps.lean ====
section
/-! SUPPORT. The parts of the state that every operation of Machine/VoteOps.lean may change, said once for each: all others are left alone (Only of
Safety.lean). -/
set_option Elab.async false
set_option linter.all false
namespace Sys2Proof.Machine
theorem agree_only {ps : List Part} {u0 : State} (hp : ∀ p ∈ ([.out, .host, .mem, .causes, .stats, .log, .ctl, .red] : List Part), p ∈ ps) (n : Nat)
    (s : State)  (hk : Only ps u0 s) :
    Only ps u0 (agree n s) := by
  unfold agree
  repeat' first | with_reducible assumption | with_reducible exact sub_trans (by decide) hp | (intro _) | with_reducible apply only_ite
                | extract_lets | with_reducible apply makeReady_only | with_reducible apply countN_only | split
                | (refine only_mk _ ?_ (by intro p hq; cases p <;> first | exact absurd (hp _ (by decide)) hq | exact rfl)) | dsimp only

theorem tryAgree_only {ps : List Part} {u0 : State} (hp : ∀ p ∈ ([.out, .host, .mem, .causes, .stats, .log, .ctl, .red] : List Part), p ∈ ps)
    (n : Nat) (s : State)  (hk : Only ps u0 s) :
    Only ps u0 (tryAgree n s) := by
  unfold tryAgree
  repeat' first | with_reducible assumption | with_reducible exact sub_trans (by decide) hp | (intro _) | with_reducible apply only_ite
                | extract_lets | with_reducible apply agree_only | split
                | (refine only_mk _ ?_ (by intro p hq; cases p <;> first | exact absurd (hp _ (by decide)) hq | exact rfl)) | dsimp only

theorem offerImage_only {ps : List Part} {u0 : State} (hp : ∀ p ∈ ([.out, .host, .mem, .causes, .stats, .log, .ctl, .red] : List Part), p ∈ ps)
    (n : Nat) (img : List Byte) (s : State)  (hk : Only ps u0 s) :
    Only ps u0 (offerImage n img s) := by
  unfold offerImage
  repeat' first | with_reducible assumption | with_reducible exact sub_trans (by decide) hp | (intro _) | with_reducible apply only_ite
                | extract_lets | with_reducible apply setTask_only | with_reducible apply tryAgree_only | with_reducible apply sendParts_only
                | with_reducible apply agree_only | with_reducible apply only_foldl | split
                | (refine only_mk _ ?_ (by intro p hq; cases p <;> first | exact absurd (hp _ (by decide)) hq | exact rfl)) | dsimp only

theorem passState_only {ps : List Part} {u0 : State}
    (hp : ∀ p ∈ ([.out, .freeIdx, .host, .mem, .causes, .stats, .log, .sw, .red, .wr] : List Part), p ∈ ps) (n : Nat) (old : List Byte) (s : State) 
    (hk : Only ps u0 s) :
    Only ps u0 (passState n old s) := by
  unfold passState
  repeat' first | with_reducible assumption | with_reducible exact sub_trans (by decide) hp | (intro _) | with_reducible apply only_ite
                | extract_lets | with_reducible apply migCommitted_only | with_reducible apply streamState_only | with_reducible apply only_foldl
                | split | (refine only_mk _ ?_ (by intro p hq; cases p <;> first | exact absurd (hp _ (by decide)) hq | exact rfl)) | dsimp only

theorem commitAlone_only {ps : List Part} {u0 : State}
    (hp : ∀ p ∈ ([.out, .freeIdx, .pwr, .host, .mem, .causes, .stats, .log, .sw, .ctl, .retain, .red, .wr, .can, .leg] : List Part), p ∈ ps)
    (n : Nat) (s : State)  (hk : Only ps u0 s) :
    Only ps u0 (commitAlone n s) := by
  unfold commitAlone
  repeat' first | with_reducible assumption | with_reducible exact sub_trans (by decide) hp | (intro _) | with_reducible apply only_ite
                | extract_lets | with_reducible apply commitTask_only | with_reducible apply wrMeasure_only | with_reducible apply count_only
                | with_reducible apply passState_only | with_reducible apply committed_only | split
                | (refine only_mk _ ?_ (by intro p hq; cases p <;> first | exact absurd (hp _ (by decide)) hq | exact rfl)) | dsimp only

theorem dissentSelf_only {ps : List Part} {u0 : State}
    (hp : ∀ p ∈ ([.out, .freeIdx, .node, .pwr, .host, .causes, .stats, .log, .time, .sw, .ctl, .red, .can, .leg, .br] : List Part), p ∈ ps) (n : Nat)
    (source : Option Nat) (s : State)  (hk : Only ps u0 s) :
    Only ps u0 (dissentSelf n source s) := by
  unfold dissentSelf
  repeat' first | with_reducible assumption | with_reducible exact sub_trans (by decide) hp | (intro _) | with_reducible apply only_ite
                | extract_lets | with_reducible apply count_only | with_reducible apply requestFull_only | with_reducible apply excludeSelf_only
                | split | (refine only_mk _ ?_ (by intro p hq; cases p <;> first | exact absurd (hp _ (by decide)) hq | exact rfl)) | dsimp only

theorem commitDissent_only {ps : List Part} {u0 : State} (hp : ∀ p ∈ ([.out, .pwr, .host, .causes, .stats, .ctl, .can, .leg] : List Part), p ∈ ps)
    (n : Nat) (image : List Byte) (s : State)  (hk : Only ps u0 s) :
    Only ps u0 (commitDissent n image s) := by
  unfold commitDissent
  repeat' first | with_reducible assumption | with_reducible exact sub_trans (by decide) hp | (intro _) | extract_lets
                | with_reducible apply commitOutput_only | with_reducible apply setTask_only | with_reducible apply count_only
                | (refine only_mk _ ?_ (by intro p hq; cases p <;> first | exact absurd (hp _ (by decide)) hq | exact rfl)) | dsimp only

theorem vote_only {ps : List Part} {u0 : State}
    (hp : ∀ p ∈ ([.out, .freeIdx, .node, .pwr, .host, .mem, .causes, .stats, .log, .hitch, .time, .sw, .stream, .ctl, .retain, .red, .wr, .can, .leg, .br] : List Part), p ∈ ps)
    (n : Nat) (s : State)  (hk : Only ps u0 s) :
    Only ps u0 (vote n s) := by
  unfold vote
  try dsimp only
  repeat' first | with_reducible assumption | with_reducible exact sub_trans (by decide) hp | (intro _) | with_reducible exact Only.rfl
                | with_reducible apply only_ite | with_reducible apply only_ite_app | with_reducible apply only_id | with_reducible apply count_only
                | with_reducible apply committed_only | with_reducible apply passState_only | with_reducible apply commitEnd_only
                | with_reducible apply commitOutput_only | with_reducible apply commitBank_only | with_reducible apply wrMeasure_only
                | with_reducible apply commitDissent_only | with_reducible apply raise_only | with_reducible apply logEvent_only
                | with_reducible apply dissentSelf_only | with_reducible apply heldCommit_only | with_reducible apply setTask_only
                | with_reducible apply taskFault_only | with_reducible apply only_foldl | with_reducible apply only_foldl2 | split
                | (refine only_mk _ ?_ (by intro p hq; cases p <;> first | exact absurd (hp _ (by decide)) hq | exact rfl)) | dsimp only

theorem tryVote_only {ps : List Part} {u0 : State}
    (hp : ∀ p ∈ ([.out, .freeIdx, .node, .pwr, .host, .mem, .causes, .stats, .log, .hitch, .time, .sw, .stream, .ctl, .retain, .red, .wr, .can, .leg, .br] : List Part), p ∈ ps)
    (n : Nat) (s : State)  (hk : Only ps u0 s) :
    Only ps u0 (tryVote n s) := by
  unfold tryVote
  repeat' first | with_reducible assumption | with_reducible exact sub_trans (by decide) hp | (intro _) | with_reducible apply only_ite
                | extract_lets | with_reducible apply vote_only | split
                | (refine only_mk _ ?_ (by intro p hq; cases p <;> first | exact absurd (hp _ (by decide)) hq | exact rfl)) | dsimp only

theorem offerOutput_only {ps : List Part} {u0 : State}
    (hp : ∀ p ∈ ([.out, .freeIdx, .node, .pwr, .host, .mem, .causes, .stats, .log, .hitch, .time, .sw, .stream, .ctl, .retain, .red, .wr, .can, .leg, .br] : List Part), p ∈ ps)
    (n : Nat) (present : Bool) (s : State)  (hk : Only ps u0 s) :
    Only ps u0 (offerOutput n present s) := by
  unfold offerOutput
  repeat' first | with_reducible assumption | with_reducible exact sub_trans (by decide) hp | (intro _) | with_reducible apply only_ite
                | extract_lets | with_reducible apply committed_only | with_reducible apply sendParts_only | with_reducible apply agree_only
                | with_reducible apply tugSend_only | with_reducible apply tryVote_only | with_reducible apply only_foldl | split
                | (refine only_mk _ ?_ (by intro p hq; cases p <;> first | exact absurd (hp _ (by decide)) hq | exact rfl)) | dsimp only

theorem commitSingle_only {ps : List Part} {u0 : State}
    (hp : ∀ p ∈ ([.out, .freeIdx, .node, .pwr, .host, .mem, .causes, .stats, .log, .hitch, .time, .sw, .stream, .ctl, .retain, .red, .wr, .can, .leg, .br] : List Part), p ∈ ps)
    (n : Nat) (s : State)  (hk : Only ps u0 s) :
    Only ps u0 (commitSingle n s) := by
  unfold commitSingle
  repeat' first | with_reducible assumption | with_reducible exact sub_trans (by decide) hp | (intro _) | with_reducible apply only_ite
                | extract_lets | with_reducible apply commitAlone_only | with_reducible apply taskFault_only | split | dsimp only

theorem joinTask_only {ps : List Part} {u0 : State} (hp : ∀ p ∈ ([.out, .host, .mem, .causes, .stats, .log, .ctl] : List Part), p ∈ ps) (n : Nat)
    (t : Task) (s : State)  (hk : Only ps u0 s) :
    Only ps u0 (joinTask n t s) := by
  unfold joinTask
  repeat' first | with_reducible assumption | with_reducible exact sub_trans (by decide) hp | (intro _) | with_reducible apply only_ite
                | extract_lets | with_reducible apply assignPair_only | with_reducible apply setTask_only | with_reducible apply committed_only
                | split | (refine only_mk _ ?_ (by intro p hq; cases p <;> first | exact absurd (hp _ (by decide)) hq | exact rfl)) | dsimp only

theorem becomeMember_only {ps : List Part} {u0 : State}
    (hp : ∀ p ∈ ([.out, .freeIdx, .node, .pwr, .host, .mem, .causes, .stats, .log, .time, .sw, .ctl, .red, .can, .leg, .br] : List Part), p ∈ ps)
    (s : State)  (hk : Only ps u0 s) :
    Only ps u0 (becomeMember s) := by
  unfold becomeMember
  repeat' first | with_reducible assumption | with_reducible exact sub_trans (by decide) hp | (intro _) | with_reducible apply only_ite
                | extract_lets | with_reducible apply joinControl_only | with_reducible apply joinTask_only | with_reducible apply assertClaim_only
                | with_reducible apply logEvent_only | with_reducible apply only_foldl | split
                | (refine only_mk _ ?_ (by intro p hq; cases p <;> first | exact absurd (hp _ (by decide)) hq | exact rfl)) | dsimp only

theorem leaderTakes_only {ps : List Part} {u0 : State}
    (hp : ∀ p ∈ ([.out, .freeIdx, .host, .mem, .causes, .stats, .log, .hitch, .time, .sw, .stream, .ctl, .red, .leg] : List Part), p ∈ ps)
    (was : Bool) (s : State)  (hk : Only ps u0 s) :
    Only ps u0 (leaderTakes was s) := by
  unfold leaderTakes
  repeat' first | with_reducible assumption | with_reducible exact sub_trans (by decide) hp | (intro _) | with_reducible apply only_ite
                | extract_lets | with_reducible apply takeTask_only | with_reducible apply only_foldl | split | dsimp only

end Sys2Proof.Machine
end

