-- ==== Sys2Proof/Laws/OnlyRedund.lean ====
section
/-! SUPPORT. The parts of the state that every operation of Machine/Redund.lean may change, said once for each: all others are left alone (Only of
Safety.lean). -/
set_option Elab.async false
set_option linter.all false
namespace Sys2Proof.Machine
theorem execTugHelloSend_only (s : State) {s9 : State} (hk : execTugHelloSend s = .next s9) : Only [.out, .host, .causes, .stats, .red] s s9 := by
  unfold execTugHelloSend at hk
  cases hk
  repeat' first | with_reducible assumption | decide | (intro _) | with_reducible exact Only.rfl | with_reducible apply only_ite | extract_lets
                | with_reducible apply tugSend_only | with_reducible apply setTug_only | with_reducible apply only_foldl | split
                | (refine only_mk _ ?_ (by intro p hp; cases p <;> first | exact absurd (by decide) hp | exact rfl)) | dsimp only

theorem execTugHelloReceive_only (link : Nat) (data : List Byte) (s : State) {s9 : State}
    (hk : execTugHelloReceive link data s = .next s9) : Only [.out, .freeIdx, .node, .pwr, .boot, .host, .mem, .causes, .stats, .log, .hitch, .time, .sw, .stream, .ctl, .red, .wr, .can, .leg, .br] s s9 := by
  unfold execTugHelloReceive at hk
  cases hk
  repeat' first | with_reducible assumption | decide | (intro _) | with_reducible exact Only.rfl | with_reducible apply only_ite | extract_lets
                | with_reducible apply setTug_only | with_reducible apply trySync_only | with_reducible apply raise_only
                | with_reducible apply logEvent_only | with_reducible apply enterHeld_only | split
                | (refine only_mk _ ?_ (by intro p hp; cases p <;> first | exact absurd (by decide) hp | exact rfl)) | dsimp only

theorem execHeartbeatSend_only (s : State) {s9 : State} (hk : execHeartbeatSend s = .next s9) : Only [.out, .host, .causes, .stats, .red] s s9 := by
  unfold execHeartbeatSend at hk
  cases hk
  repeat' first | with_reducible assumption | decide | (intro _) | with_reducible exact Only.rfl | extract_lets | with_reducible apply tugSend_only
                | with_reducible apply only_foldl | dsimp only

theorem peerSeen_only {ps : List Part} {u0 : State}
    (hp : ∀ p ∈ ([.out, .freeIdx, .node, .host, .causes, .stats, .log, .sw, .ctl, .red] : List Part), p ∈ ps) (s : State)  (hk : Only ps u0 s) :
    Only ps u0 (peerSeen s) := by
  unfold peerSeen
  repeat' first | with_reducible assumption | with_reducible exact sub_trans (by decide) hp | (intro _) | with_reducible apply only_ite
                | extract_lets | with_reducible apply setResource_only | with_reducible apply joinControl_only | with_reducible apply syncCheck_only
                | with_reducible apply trySync_only | split | dsimp only

theorem execHeartbeatReceive_only (link : Nat) (data : List Byte) (s : State) {s9 : State}
    (hk : execHeartbeatReceive link data s = .next s9) : Only [.out, .freeIdx, .node, .host, .causes, .stats, .log, .sw, .ctl, .red] s s9 := by
  unfold execHeartbeatReceive at hk
  cases hk
  repeat' first | with_reducible assumption | decide | (intro _) | with_reducible exact Only.rfl | with_reducible apply only_ite | extract_lets
                | with_reducible apply setTug_only | with_reducible apply tugSaid_only | with_reducible apply peerSeen_only
                | with_reducible apply tugDrain_only | split
                | (refine only_mk _ ?_ (by intro p hp; cases p <;> first | exact absurd (by decide) hp | exact rfl)) | dsimp only

theorem execTugLinkDown_only (link : Nat) (lockLost : Bool) (s : State) {s9 : State}
    (hk : execTugLinkDown link lockLost s = .next s9) : Only [.out, .freeIdx, .node, .pwr, .host, .causes, .stats, .log, .time, .sw, .ctl, .red, .can, .leg, .br] s s9 := by
  unfold execTugLinkDown at hk
  cases hk
  repeat' first | with_reducible assumption | decide | (intro _) | with_reducible exact Only.rfl | with_reducible apply only_ite | extract_lets
                | with_reducible apply peerSeen_only | with_reducible apply linkDown_only | with_reducible apply countN_only | split | dsimp only

theorem execTug1Handback_only (s : State) {s9 : State} (hk : execTug1Handback s = .next s9) : Only [.out, .host, .causes, .stats, .red] s s9 := by
  unfold execTug1Handback at hk
  cases hk
  repeat' first | with_reducible assumption | decide | (intro _) | with_reducible exact Only.rfl | with_reducible apply only_ite | extract_lets
                | with_reducible apply moveUnacked_only | split
                | (refine only_mk _ ?_ (by intro p hp; cases p <;> first | exact absurd (by decide) hp | exact rfl)) | dsimp only

theorem execTugTimingSend_only (link : Nat) (stamp : Stamp) (s : State) {s9 : State}
    (hk : execTugTimingSend link stamp s = .next s9) : Only [.out, .host, .causes, .stats, .red] s s9 := by
  unfold execTugTimingSend at hk
  cases hk
  repeat' first | with_reducible assumption | decide | (intro _) | with_reducible exact Only.rfl | with_reducible apply only_ite | extract_lets
                | with_reducible apply tugSend_only | with_reducible apply setTug_only | split
                | (refine only_mk _ ?_ (by intro p hp; cases p <;> first | exact absurd (by decide) hp | exact rfl)) | dsimp only

theorem execTimingReceive_only (link : Nat) (stamp : Stamp) (data : List Byte) (s : State) {s9 : State}
    (hk : execTimingReceive link stamp data s = .next s9) : Only [.red] s s9 := by
  unfold execTimingReceive at hk
  cases hk
  repeat' first | with_reducible assumption | decide | (intro _) | with_reducible exact Only.rfl | with_reducible apply only_ite | extract_lets
                | with_reducible apply setTug_only | split
                | (refine only_mk _ ?_ (by intro p hp; cases p <;> first | exact absurd (by decide) hp | exact rfl)) | dsimp only

theorem replay_only {ps : List Part} {u0 : State} (hp : ∀ p ∈ ([.out, .host, .causes, .stats, .red] : List Part), p ∈ ps) (l : Nat) (s : State) 
    (hk : Only ps u0 s) :
    Only ps u0 (replay l s) := by
  unfold replay
  repeat' first | with_reducible assumption | with_reducible exact sub_trans (by decide) hp | (intro _) | extract_lets
                | with_reducible apply emit_only | with_reducible apply setTug_only | with_reducible apply count_only
                | with_reducible apply only_foldl
                | (refine only_mk _ ?_ (by intro p hq; cases p <;> first | exact absurd (hp _ (by decide)) hq | exact rfl)) | dsimp only

theorem tugAck_only {ps : List Part} {u0 : State} (hp : ∀ p ∈ ([.red] : List Part), p ∈ ps) (l : Nat) (a : Nat) (s : State)  (hk : Only ps u0 s) :
    Only ps u0 (tugAck l a s) := by
  unfold tugAck
  repeat' first | with_reducible assumption | with_reducible exact sub_trans (by decide) hp | (intro _) | extract_lets
                | with_reducible apply setTug_only
                | (refine only_mk _ ?_ (by intro p hq; cases p <;> first | exact absurd (hp _ (by decide)) hq | exact rfl)) | dsimp only

theorem execNakReceive_only (link : Nat) (data : List Byte) (s : State) {s9 : State}
    (hk : execNakReceive link data s = .next s9) : Only [.out, .host, .causes, .stats, .red] s s9 := by
  unfold execNakReceive at hk
  cases hk
  repeat' first | with_reducible assumption | decide | (intro _) | with_reducible exact Only.rfl | with_reducible apply only_ite | extract_lets
                | with_reducible apply replay_only | with_reducible apply tugAck_only | split | dsimp only

theorem execTugReplayTimeout_only (link : Nat) (s : State) {s9 : State}
    (hk : execTugReplayTimeout link s = .next s9) : Only [.out, .host, .causes, .stats, .red] s s9 := by
  unfold execTugReplayTimeout at hk
  cases hk
  repeat' first | with_reducible assumption | decide | (intro _) | with_reducible exact Only.rfl | with_reducible apply only_ite | extract_lets
                | with_reducible apply replay_only | split | dsimp only

theorem nak_only {ps : List Part} {u0 : State} (hp : ∀ p ∈ ([.out, .host, .causes, .stats, .red] : List Part), p ∈ ps) (l : Nat) (s : State) 
    (hk : Only ps u0 s) :
    Only ps u0 (nak l s) := by
  unfold nak
  repeat' first | with_reducible assumption | with_reducible exact sub_trans (by decide) hp | (intro _) | extract_lets
                | with_reducible apply tugSend_only | dsimp only

theorem execTugFrameError_only (link : Nat) (crc : Bool) (s : State) {s9 : State}
    (hk : execTugFrameError link crc s = .next s9) : Only [.out, .host, .causes, .stats, .red] s s9 := by
  unfold execTugFrameError at hk
  cases hk
  repeat' first | with_reducible assumption | decide | (intro _) | with_reducible exact Only.rfl | with_reducible apply only_ite | extract_lets
                | with_reducible apply nak_only | with_reducible apply count_only | with_reducible apply setTug_only | split
                | (refine only_mk _ ?_ (by intro p hp; cases p <;> first | exact absurd (by decide) hp | exact rfl)) | dsimp only

theorem tugAccept_only {ps : List Part} {u0 : State} (hp : ∀ p ∈ ([.out, .host, .causes, .stats, .red] : List Part), p ∈ ps) (c : TugChan)
    (m : TugRx) (s : State)  (hk : Only ps u0 s) :
    Only ps u0 (tugAccept c m s).2 := by
  unfold tugAccept
  repeat' first | with_reducible assumption | with_reducible exact sub_trans (by decide) hp | (intro _) | with_reducible apply only_ite
                | extract_lets | with_reducible apply tugAck_only | with_reducible apply setTug_only | with_reducible apply tugDrain_only
                | with_reducible apply nak_only | split
                | (refine only_mk _ ?_ (by intro p hq; cases p <;> first | exact absurd (hp _ (by decide)) hq | exact rfl)) | dsimp only

theorem onTug_only {ps : List Part} {u0 : State} (hp : ∀ p ∈ ([.out, .host, .causes, .stats, .red] : List Part), p ∈ ps) (c : TugChan) (m : TugRx)
    (f : State → State) (s : State) (h_f : ∀ (s9 : State), Only ps u0 s9 → Only ps u0 (f  s9)) (hk : Only ps u0 s) :
    Only ps u0 (onTug c m f s) := by
  unfold onTug
  repeat' first | with_reducible assumption | with_reducible exact sub_trans (by decide) hp | (intro _) | with_reducible apply only_ite
                | extract_lets | apply h_f | with_reducible apply tugAccept_only | split | dsimp only

theorem followSpan_only {ps : List Part} {u0 : State} (hp : ∀ p ∈ ([.time, .sw, .ctl] : List Part), p ∈ ps) (c : TimeChange) (s : State) 
    (hk : Only ps u0 s) :
    Only ps u0 (followSpan c s) := by
  unfold followSpan
  repeat' first | with_reducible assumption | with_reducible exact sub_trans (by decide) hp | (intro _) | with_reducible apply only_ite
                | extract_lets | with_reducible apply applyChange_only | split
                | (refine only_mk _ ?_ (by intro p hq; cases p <;> first | exact absurd (hp _ (by decide)) hq | exact rfl)) | dsimp only

theorem followLeader_only {ps : List Part} {u0 : State} (hp : ∀ p ∈ ([.time] : List Part), p ∈ ps) (c : TimeChange) (s : State)  (hk : Only ps u0 s) :
    Only ps u0 (followLeader c s) := by
  unfold followLeader
  repeat' first | with_reducible assumption | (intro _) | with_reducible apply only_ite | extract_lets | split
                | (refine only_mk _ ?_ (by intro p hq; cases p <;> first | exact absurd (hp _ (by decide)) hq | exact rfl)) | dsimp only

theorem takeForces_only {ps : List Part} {u0 : State} (hp : ∀ p ∈ ([.ctl] : List Part), p ∈ ps) (b : List Byte) (s : State)  (hk : Only ps u0 s) :
    Only ps u0 (takeForces b s) := by
  unfold takeForces
  repeat' first | with_reducible assumption | (intro _) | with_reducible apply only_ite | extract_lets | split
                | (refine only_mk _ ?_ (by intro p hq; cases p <;> first | exact absurd (hp _ (by decide)) hq | exact rfl)) | dsimp only

theorem joinTold_only {ps : List Part} {u0 : State}
    (hp : ∀ p ∈ ([.out, .freeIdx, .host, .mem, .causes, .stats, .log, .hitch, .time, .sw, .stream, .ctl, .red, .wr, .leg] : List Part), p ∈ ps)
    (l : Nat) (b : List Byte) (s : State)  (hk : Only ps u0 s) :
    Only ps u0 (joinTold l b s) := by
  unfold joinTold
  repeat' first | with_reducible assumption | with_reducible exact sub_trans (by decide) hp | (intro _) | with_reducible apply only_ite
                | extract_lets | with_reducible apply wrTold_only | split
                | (refine only_mk _ ?_ (by intro p hq; cases p <;> first | exact absurd (hp _ (by decide)) hq | exact rfl)) | dsimp only

theorem takeSyncMessage_only {ps : List Part} {u0 : State}
    (hp : ∀ p ∈ ([.out, .freeIdx, .node, .pwr, .host, .mem, .causes, .stats, .log, .hitch, .time, .sw, .tx, .stream, .ctl, .red, .wr, .can, .leg, .br] : List Part), p ∈ ps)
    (m : TugRx) (s : State)  (hk : Only ps u0 s) :
    Only ps u0 (takeSyncMessage m s) := by
  unfold takeSyncMessage
  repeat' first | with_reducible assumption | with_reducible exact sub_trans (by decide) hp | (intro _) | with_reducible apply only_ite
                | extract_lets | with_reducible apply followSpan_only | with_reducible apply followLeader_only | with_reducible apply takeSync_only
                | with_reducible apply hitchRelay_only | with_reducible apply hitchLostTold_only | with_reducible apply safeEvent_only
                | with_reducible apply joinTold_only | with_reducible apply takeForces_only | split
                | (refine only_mk _ ?_ (by intro p hq; cases p <;> first | exact absurd (hp _ (by decide)) hq | exact rfl)) | dsimp only

theorem execTugSyncMessage_only (m : TugRx) (s : State) {s9 : State}
    (hk : execTugSyncMessage m s = .next s9) : Only [.out, .freeIdx, .node, .pwr, .host, .mem, .causes, .stats, .log, .hitch, .time, .sw, .tx, .stream, .ctl, .red, .wr, .can, .leg, .br] s s9 := by
  unfold execTugSyncMessage at hk
  cases hk
  repeat' first | with_reducible assumption | decide | (intro _) | with_reducible exact Only.rfl | extract_lets | with_reducible apply onTug_only
                | with_reducible apply takeSyncMessage_only | dsimp only

theorem execSafeNodeEvent_only (m : TugRx) (s : State) {s9 : State}
    (hk : execSafeNodeEvent m s = .next s9) : Only [.out, .freeIdx, .node, .pwr, .host, .mem, .causes, .stats, .log, .hitch, .time, .sw, .stream, .ctl, .red, .wr, .can, .leg, .br] s s9 := by
  unfold execSafeNodeEvent at hk
  cases hk
  repeat' first | with_reducible assumption | decide | (intro _) | with_reducible exact Only.rfl | extract_lets | with_reducible apply onTug_only
                | with_reducible apply safeEvent_only | dsimp only

theorem setCopy_only {ps : List Part} {u0 : State} (hp : ∀ p ∈ ([.red] : List Part), p ∈ ps) (n : Nat) (f : TaskCopy → TaskCopy) (s : State) 
    (hk : Only ps u0 s) :
    Only ps u0 (setCopy n f s) := by
  unfold setCopy
  repeat' first | with_reducible assumption | (intro _) | extract_lets
                | (refine only_mk _ ?_ (by intro p hq; cases p <;> first | exact absurd (hp _ (by decide)) hq | exact rfl)) | dsimp only

theorem takePart_only {ps : List Part} {u0 : State} (hp : ∀ p ∈ ([.out, .host, .mem, .causes, .stats, .log, .red] : List Part), p ∈ ps) (m : TugRx)
    (s : State)  (hk : Only ps u0 s) :
    Only ps u0 (takePart m s) := by
  unfold takePart
  repeat' first | with_reducible assumption | with_reducible exact sub_trans (by decide) hp | (intro _) | with_reducible apply only_ite
                | extract_lets | with_reducible apply sendNodeItems_only | with_reducible apply sendFull_only | with_reducible apply setCopy_only
                | split | (refine only_mk _ ?_ (by intro p hq; cases p <;> first | exact absurd (hp _ (by decide)) hq | exact rfl)) | dsimp only

theorem execStatePartReceive_only (m : TugRx) (s : State) {s9 : State}
    (hk : execStatePartReceive m s = .next s9) : Only [.out, .host, .mem, .causes, .stats, .log, .red] s s9 := by
  unfold execStatePartReceive at hk
  cases hk
  repeat' first | with_reducible assumption | decide | (intro _) | with_reducible exact Only.rfl | extract_lets | with_reducible apply onTug_only
                | with_reducible apply takePart_only | dsimp only

theorem cycleComplete_only {ps : List Part} {u0 : State}
    (hp : ∀ p ∈ ([.out, .freeIdx, .host, .mem, .causes, .stats, .log, .sw, .ctl, .retain, .red] : List Part), p ∈ ps) (n : Nat) (c : TaskCopy)
    (cycle : Nat) (s : State)  (hk : Only ps u0 s) :
    Only ps u0 (cycleComplete n c cycle s) := by
  unfold cycleComplete
  repeat' first | with_reducible assumption | with_reducible exact sub_trans (by decide) hp | (intro _) | with_reducible apply only_ite
                | extract_lets | with_reducible apply startRetain_only | with_reducible apply setTask_only | with_reducible apply committed_only
                | split | (refine only_mk _ ?_ (by intro p hq; cases p <;> first | exact absurd (hp _ (by decide)) hq | exact rfl)) | dsimp only

theorem lagCheck_only {ps : List Part} {u0 : State} (hp : ∀ p ∈ ([.out, .freeIdx, .host, .causes, .stats, .log, .sw, .red] : List Part), p ∈ ps)
    (n : Nat) (cycle : Nat) (s : State)  (hk : Only ps u0 s) :
    Only ps u0 (lagCheck n cycle s) := by
  unfold lagCheck
  repeat' first | with_reducible assumption | with_reducible exact sub_trans (by decide) hp | (intro _) | with_reducible apply only_ite
                | extract_lets | with_reducible apply raise_only | with_reducible apply logEvent_only | with_reducible apply count_only | split
                | (refine only_mk _ ?_ (by intro p hq; cases p <;> first | exact absurd (hp _ (by decide)) hq | exact rfl)) | dsimp only

theorem takeEnd_only {ps : List Part} {u0 : State}
    (hp : ∀ p ∈ ([.out, .freeIdx, .node, .host, .mem, .causes, .stats, .log, .sw, .ctl, .retain, .red] : List Part), p ∈ ps) (m : TugRx) (s : State) 
    (hk : Only ps u0 s) :
    Only ps u0 (takeEnd m s) := by
  unfold takeEnd
  repeat' first | with_reducible assumption | with_reducible exact sub_trans (by decide) hp | (intro _) | with_reducible apply only_ite
                | extract_lets | with_reducible apply count_only | with_reducible apply setCopy_only | with_reducible apply tugSend_only
                | with_reducible apply cycleComplete_only | with_reducible apply syncCheck_only | with_reducible apply lagCheck_only
                | with_reducible apply logEvent_only | with_reducible apply requestFull_only | split
                | (refine only_mk _ ?_ (by intro p hq; cases p <;> first | exact absurd (hp _ (by decide)) hq | exact rfl)) | dsimp only

theorem execStateEndReceive_only (m : TugRx) (s : State) {s9 : State}
    (hk : execStateEndReceive m s = .next s9) : Only [.out, .freeIdx, .node, .host, .mem, .causes, .stats, .log, .sw, .ctl, .retain, .red] s s9 := by
  unfold execStateEndReceive at hk
  cases hk
  repeat' first | with_reducible assumption | decide | (intro _) | with_reducible exact Only.rfl | extract_lets | with_reducible apply onTug_only
                | with_reducible apply takeEnd_only | dsimp only

theorem joinPart_only {ps : List Part} {u0 : State} (hp : ∀ p ∈ ([.out, .host, .mem, .causes, .stats, .log, .ctl, .red] : List Part), p ∈ ps)
    (l : Nat) (task : Nat) (part : Nat) (b : List Byte) (s : State)  (hk : Only ps u0 s) :
    Only ps u0 (joinPart l task part b s).2 := by
  unfold joinPart
  repeat' first | with_reducible assumption | with_reducible exact sub_trans (by decide) hp | (intro _) | with_reducible apply only_ite
                | extract_lets | with_reducible apply agree_only | split
                | (refine only_mk _ ?_ (by intro p hq; cases p <;> first | exact absurd (hp _ (by decide)) hq | exact rfl)) | dsimp only

theorem takeInput_only {ps : List Part} {u0 : State} (hp : ∀ p ∈ ([.out, .host, .mem, .causes, .stats, .log, .ctl, .red] : List Part), p ∈ ps)
    (m : TugRx) (s : State)  (hk : Only ps u0 s) :
    Only ps u0 (takeInput m s) := by
  unfold takeInput
  repeat' first | with_reducible assumption | with_reducible exact sub_trans (by decide) hp | (intro _) | with_reducible apply only_ite
                | extract_lets | with_reducible apply joinPart_only | with_reducible apply tryAgree_only | split
                | (refine only_mk _ ?_ (by intro p hq; cases p <;> first | exact absurd (hp _ (by decide)) hq | exact rfl)) | dsimp only

theorem execAgreeInputReceive_only (m : TugRx) (s : State) {s9 : State}
    (hk : execAgreeInputReceive m s = .next s9) : Only [.out, .host, .mem, .causes, .stats, .log, .ctl, .red] s s9 := by
  unfold execAgreeInputReceive at hk
  cases hk
  repeat' first | with_reducible assumption | decide | (intro _) | with_reducible exact Only.rfl | extract_lets | with_reducible apply onTug_only
                | with_reducible apply agree_only | with_reducible apply takeInput_only | dsimp only

theorem execAgreeTimeout_only (task : Nat) (s : State) {s9 : State}
    (hk : execAgreeTimeout task s = .next s9) : Only [.out, .host, .mem, .causes, .stats, .log, .ctl, .red] s s9 := by
  unfold execAgreeTimeout at hk
  cases hk
  repeat' first | with_reducible assumption | decide | (intro _) | with_reducible exact Only.rfl | with_reducible apply only_ite | extract_lets
                | with_reducible apply agree_only | split | dsimp only

theorem takeOutput_only {ps : List Part} {u0 : State}
    (hp : ∀ p ∈ ([.out, .freeIdx, .node, .pwr, .host, .mem, .causes, .stats, .log, .hitch, .time, .sw, .stream, .ctl, .retain, .red, .wr, .can, .leg, .br] : List Part), p ∈ ps)
    (m : TugRx) (s : State)  (hk : Only ps u0 s) :
    Only ps u0 (takeOutput m s) := by
  unfold takeOutput
  repeat' first | with_reducible assumption | with_reducible exact sub_trans (by decide) hp | (intro _) | with_reducible apply only_ite
                | extract_lets | with_reducible apply joinPart_only | with_reducible apply agree_only | with_reducible apply tryVote_only | split
                | (refine only_mk _ ?_ (by intro p hq; cases p <;> first | exact absurd (hp _ (by decide)) hq | exact rfl)) | dsimp only

theorem execAgreeOutputReceive_only (m : TugRx) (s : State) {s9 : State}
    (hk : execAgreeOutputReceive m s = .next s9) : Only [.out, .freeIdx, .node, .pwr, .host, .mem, .causes, .stats, .log, .hitch, .time, .sw, .stream, .ctl, .retain, .red, .wr, .can, .leg, .br] s s9 := by
  unfold execAgreeOutputReceive at hk
  cases hk
  repeat' first | with_reducible assumption | decide | (intro _) | with_reducible exact Only.rfl | extract_lets | with_reducible apply onTug_only
                | with_reducible apply agree_only | with_reducible apply takeOutput_only | dsimp only

theorem execVoteTimeout_only (task : Nat) (s : State) {s9 : State}
    (hk : execVoteTimeout task s = .next s9) : Only [.out, .freeIdx, .node, .pwr, .host, .mem, .causes, .stats, .log, .hitch, .time, .sw, .stream, .ctl, .retain, .red, .wr, .can, .leg, .br] s s9 := by
  unfold execVoteTimeout at hk
  cases hk
  repeat' first | with_reducible assumption | decide | (intro _) | with_reducible exact Only.rfl | with_reducible apply only_ite | extract_lets
                | with_reducible apply vote_only | split | dsimp only

theorem enterSwitch_only {ps : List Part} {u0 : State}
    (hp : ∀ p ∈ ([.out, .freeIdx, .host, .mem, .causes, .stats, .log, .hitch, .time, .sw, .rx, .tx, .stream, .ctl, .red, .leg] : List Part), p ∈ ps)
    (h : List Byte) (b : List Byte) (s : State)  (hk : Only ps u0 s) :
    Only ps u0 (enterSwitch h b s) := by
  unfold enterSwitch
  repeat' first | with_reducible assumption | with_reducible exact sub_trans (by decide) hp | (intro _) | with_reducible apply only_ite
                | extract_lets | with_reducible apply sendAll_only | with_reducible apply count_only | with_reducible apply streamReceive_only
                | with_reducible apply frerOffer_only | split
                | (refine only_mk _ ?_ (by intro p hq; cases p <;> first | exact absurd (hp _ (by decide)) hq | exact rfl)) | dsimp only

theorem takeSegment_only {ps : List Part} {u0 : State}
    (hp : ∀ p ∈ ([.out, .freeIdx, .host, .mem, .causes, .stats, .log, .hitch, .time, .sw, .rx, .tx, .stream, .ctl, .red, .leg] : List Part), p ∈ ps)
    (m : TugRx) (s : State)  (hk : Only ps u0 s) :
    Only ps u0 (takeSegment m s) := by
  unfold takeSegment
  try dsimp only
  repeat' first | with_reducible assumption | with_reducible exact sub_trans (by decide) hp | (intro _) | with_reducible exact Only.rfl
                | with_reducible apply only_ite | with_reducible apply only_ite_app | with_reducible apply only_id | with_reducible apply count_only
                | with_reducible apply enterSwitch_only | with_reducible apply only_foldl | with_reducible apply only_foldl2 | split
                | (refine only_mk _ ?_ (by intro p hq; cases p <;> first | exact absurd (hp _ (by decide)) hq | exact rfl)) | dsimp only

theorem execFrameSegmentReceive_only (m : TugRx) (s : State) {s9 : State}
    (hk : execFrameSegmentReceive m s = .next s9) : Only [.out, .freeIdx, .host, .mem, .causes, .stats, .log, .hitch, .time, .sw, .rx, .tx, .stream, .ctl, .red, .leg] s s9 := by
  unfold execFrameSegmentReceive at hk
  cases hk
  repeat' first | with_reducible assumption | decide | (intro _) | with_reducible exact Only.rfl | extract_lets | with_reducible apply onTug_only
                | with_reducible apply takeSegment_only | dsimp only

theorem memberLeft_only {ps : List Part} {u0 : State}
    (hp : ∀ p ∈ ([.out, .freeIdx, .node, .pwr, .host, .mem, .causes, .stats, .log, .hitch, .time, .sw, .stream, .ctl, .retain, .red, .wr, .can, .leg, .br] : List Part), p ∈ ps)
    (s : State)  (hk : Only ps u0 s) :
    Only ps u0 (memberLeft s) := by
  unfold memberLeft
  repeat' first | with_reducible assumption | with_reducible exact sub_trans (by decide) hp | (intro _) | with_reducible apply only_ite
                | extract_lets | with_reducible apply tryVote_only | with_reducible apply tryAgree_only | with_reducible apply only_foldl | split
                | dsimp only

theorem execPeerClaimChange_only (pin : Nat) (level : Bool) (s : State) {s9 : State}
    (hk : execPeerClaimChange pin level s = .next s9) : Only [.out, .freeIdx, .node, .pwr, .host, .mem, .causes, .stats, .log, .hitch, .time, .sw, .stream, .ctl, .retain, .red, .wr, .can, .leg, .br] s s9 := by
  unfold execPeerClaimChange at hk
  cases hk
  repeat' first | with_reducible assumption | decide | (intro _) | with_reducible exact Only.rfl | with_reducible apply only_ite | extract_lets
                | with_reducible apply memberLeft_only | with_reducible apply leaderTakes_only | with_reducible apply trySync_only
                | with_reducible apply raise_only | with_reducible apply settleMembers_only | split
                | (refine only_mk _ ?_ (by intro p hp; cases p <;> first | exact absurd (by decide) hp | exact rfl)) | dsimp only

theorem execClaimWaitExpiry_only (s : State) {s9 : State}
    (hk : execClaimWaitExpiry s = .next s9) : Only [.out, .freeIdx, .node, .pwr, .host, .mem, .causes, .stats, .log, .hitch, .time, .sw, .stream, .ctl, .red, .can, .leg, .br] s s9 := by
  unfold execClaimWaitExpiry at hk
  cases hk
  repeat' first | with_reducible assumption | decide | (intro _) | with_reducible exact Only.rfl | with_reducible apply only_ite | extract_lets
                | with_reducible apply claimSpan_only | with_reducible apply peerSeen_only | split | dsimp only

theorem execClaimWireTimeout_only (s : State) {s9 : State}
    (hk : execClaimWireTimeout s = .next s9) : Only [.out, .freeIdx, .host, .causes, .stats, .log, .sw, .red] s s9 := by
  unfold execClaimWireTimeout at hk
  cases hk
  repeat' first | with_reducible assumption | decide | (intro _) | with_reducible exact Only.rfl | with_reducible apply only_ite | extract_lets
                | with_reducible apply raise_only | with_reducible apply logEvent_only | split | dsimp only

theorem execRejoinMembership_only (s : State) {s9 : State}
    (hk : execRejoinMembership s = .next s9) : Only [.out, .freeIdx, .node, .pwr, .host, .mem, .causes, .stats, .log, .time, .sw, .ctl, .red, .can, .leg, .br] s s9 := by
  unfold execRejoinMembership at hk
  cases hk
  repeat' first | with_reducible assumption | decide | (intro _) | with_reducible exact Only.rfl | with_reducible apply only_ite | extract_lets
                | with_reducible apply becomeMember_only | split | dsimp only

theorem execSyncOutPulse_only (s : State) {s9 : State}
    (hk : execSyncOutPulse s = .next s9) : Only [.out, .node, .pwr, .host, .causes, .stats, .time, .red] s s9 := by
  unfold execSyncOutPulse at hk
  cases hk
  repeat' first | with_reducible assumption | decide | (intro _) | with_reducible exact Only.rfl | with_reducible apply only_ite | extract_lets
                | with_reducible apply tugAll_only | with_reducible apply drivePin_only | split
                | (refine only_mk _ ?_ (by intro p hp; cases p <;> first | exact absurd (by decide) hp | exact rfl)) | dsimp only

theorem execSyncOutPulseEnd_only (s : State) {s9 : State} (hk : execSyncOutPulseEnd s = .next s9) : Only [.out, .node, .pwr, .time] s s9 := by
  unfold execSyncOutPulseEnd at hk
  cases hk
  repeat' first | with_reducible assumption | decide | (intro _) | with_reducible exact Only.rfl | with_reducible apply only_ite | extract_lets
                | with_reducible apply drivePin_only | split | dsimp only

theorem loseTimeBase_only {ps : List Part} {u0 : State}
    (hp : ∀ p ∈ ([.out, .freeIdx, .node, .pwr, .host, .causes, .stats, .log, .time, .sw, .ctl, .red, .can, .leg, .br] : List Part), p ∈ ps)
    (s : State)  (hk : Only ps u0 s) :
    Only ps u0 (loseTimeBase s) := by
  unfold loseTimeBase
  repeat' first | with_reducible assumption | with_reducible exact sub_trans (by decide) hp | (intro _) | with_reducible apply only_ite
                | extract_lets | with_reducible apply raise_only | with_reducible apply logEvent_only | with_reducible apply excludeSelf_only
                | split | (refine only_mk _ ?_ (by intro p hq; cases p <;> first | exact absurd (hp _ (by decide)) hq | exact rfl)) | dsimp only

theorem execSyncInEdge_only (stamp : Stamp) (leader : Nat) (s : State) {s9 : State}
    (hk : execSyncInEdge stamp leader s = .next s9) : Only [.out, .freeIdx, .node, .pwr, .host, .causes, .stats, .log, .time, .sw, .ctl, .red, .can, .leg, .br] s s9 := by
  unfold execSyncInEdge at hk
  cases hk
  repeat' first | with_reducible assumption | decide | (intro _) | with_reducible exact Only.rfl | with_reducible apply only_ite | extract_lets
                | with_reducible apply loseTimeBase_only | split
                | (refine only_mk _ ?_ (by intro p hp; cases p <;> first | exact absurd (by decide) hp | exact rfl)) | dsimp only

theorem execSyncPulseTimeout_only (s : State) {s9 : State}
    (hk : execSyncPulseTimeout s = .next s9) : Only [.out, .freeIdx, .node, .pwr, .host, .causes, .stats, .log, .time, .sw, .ctl, .red, .can, .leg, .br] s s9 := by
  unfold execSyncPulseTimeout at hk
  cases hk
  repeat' first | with_reducible assumption | decide | (intro _) | with_reducible exact Only.rfl | with_reducible apply only_ite | extract_lets
                | with_reducible apply loseTimeBase_only | split | dsimp only

theorem redundOnly_only {ps : List Part} {u0 : State} (hp : ∀ p ∈ ([.out, .host, .mem, .causes, .stats] : List Part), p ∈ ps) (opcode : Nat)
    (c : Acs) (body : State → State) (s : State) (h_body : ∀ (s9 : State), Only ps u0 s9 → Only ps u0 (body  s9)) (hk : Only ps u0 s) :
    Only ps u0 (redundOnly opcode c body s) := by
  unfold redundOnly
  repeat' first | with_reducible assumption | with_reducible exact sub_trans (by decide) hp | (intro _) | with_reducible apply only_ite
                | extract_lets | apply h_body | with_reducible apply done_only | split | dsimp only

theorem execRedundStatus_only (c : Acs) (s : State) {s9 : State}
    (hk : execRedundStatus c s = .next s9) : Only [.out, .host, .mem, .causes, .stats] s s9 := by
  unfold execRedundStatus at hk
  cases hk
  repeat' first | with_reducible assumption | decide | (intro _) | with_reducible exact Only.rfl | extract_lets | with_reducible apply acsLen_only
                | with_reducible apply redundOnly_only | with_reducible apply done_only | dsimp only

theorem execRedundTug_only (c : Acs) (s : State) {s9 : State}
    (hk : execRedundTug c s = .next s9) : Only [.out, .host, .mem, .causes, .stats] s s9 := by
  unfold execRedundTug at hk
  cases hk
  repeat' first | with_reducible assumption | decide | (intro _) | with_reducible exact Only.rfl | extract_lets | with_reducible apply acsLen_only
                | with_reducible apply redundOnly_only | with_reducible apply done_only | dsimp only

theorem switchNow_only {ps : List Part} {u0 : State}
    (hp : ∀ p ∈ ([.out, .freeIdx, .node, .pwr, .host, .mem, .causes, .stats, .log, .time, .sw, .ctl, .red, .can, .leg, .br] : List Part), p ∈ ps)
    (s : State)  (hk : Only ps u0 s) :
    Only ps u0 (switchNow s) := by
  unfold switchNow
  repeat' first | with_reducible assumption | with_reducible exact sub_trans (by decide) hp | (intro _) | with_reducible apply only_ite
                | extract_lets | with_reducible apply haltAll_only | with_reducible apply releaseClaim_only | with_reducible apply finish_only
                | split | (refine only_mk _ ?_ (by intro p hq; cases p <;> first | exact absurd (hp _ (by decide)) hq | exact rfl)) | dsimp only

theorem effRedundSwitch_only {ps : List Part} {u0 : State}
    (hp : ∀ p ∈ ([.out, .freeIdx, .node, .pwr, .host, .mem, .causes, .stats, .log, .time, .sw, .ctl, .red, .can, .leg, .br] : List Part), p ∈ ps)
    (a : List Byte) (r : Option AcsRef) (s : State)  (hk : Only ps u0 s) :
    Only ps u0 (effRedundSwitch a r s) := by
  unfold effRedundSwitch
  repeat' first | with_reducible assumption | with_reducible exact sub_trans (by decide) hp | (intro _) | with_reducible apply only_ite
                | extract_lets | with_reducible apply finish_only | with_reducible apply switchNow_only | split
                | (refine only_mk _ ?_ (by intro p hq; cases p <;> first | exact absurd (hp _ (by decide)) hq | exact rfl)) | dsimp only

theorem execRedundSwitch_only (c : Acs) (s : State) {s9 : State}
    (hk : execRedundSwitch c s = .next s9) : Only [.out, .freeIdx, .node, .pwr, .host, .mem, .causes, .stats, .log, .time, .sw, .ctl, .red, .can, .leg, .br] s s9 := by
  unfold execRedundSwitch at hk
  cases hk
  repeat' first | with_reducible assumption | decide | (intro _) | with_reducible exact Only.rfl | with_reducible apply only_ite | extract_lets
                | with_reducible apply acsLen_only | with_reducible apply redundOnly_only | with_reducible apply badArgIf_only
                | with_reducible apply done_only | with_reducible apply nodeWide_only | with_reducible apply effRedundSwitch_only | split
                | dsimp only

theorem execRedundSwitchInstant_only (s : State) {s9 : State}
    (hk : execRedundSwitchInstant s = .next s9) : Only [.out, .freeIdx, .node, .pwr, .host, .mem, .causes, .stats, .log, .time, .sw, .ctl, .red, .can, .leg, .br] s s9 := by
  unfold execRedundSwitchInstant at hk
  cases hk
  repeat' first | with_reducible assumption | decide | (intro _) | with_reducible exact Only.rfl | with_reducible apply only_ite | extract_lets
                | with_reducible apply switchNow_only | split | dsimp only

theorem execRedundExclude_only (c : Acs) (s : State) {s9 : State}
    (hk : execRedundExclude c s = .next s9) : Only [.out, .freeIdx, .node, .pwr, .host, .mem, .causes, .stats, .log, .time, .sw, .ctl, .red, .can, .leg, .br] s s9 := by
  unfold execRedundExclude at hk
  cases hk
  repeat' first | with_reducible assumption | decide | (intro _) | with_reducible exact Only.rfl | with_reducible apply only_ite | extract_lets
                | with_reducible apply acsLen_only | with_reducible apply redundOnly_only | with_reducible apply badArgIf_only
                | with_reducible apply done_only | with_reducible apply excludeSelf_only | with_reducible apply tugSend_only | split
                | (refine only_mk _ ?_ (by intro p hp; cases p <;> first | exact absurd (by decide) hp | exact rfl)) | dsimp only

theorem execRedundRejoin_only (c : Acs) (s : State) {s9 : State}
    (hk : execRedundRejoin c s = .next s9) : Only [.out, .host, .mem, .causes, .stats, .red] s s9 := by
  unfold execRedundRejoin at hk
  cases hk
  repeat' first | with_reducible assumption | decide | (intro _) | with_reducible exact Only.rfl | with_reducible apply only_ite | extract_lets
                | with_reducible apply acsLen_only | with_reducible apply redundOnly_only | with_reducible apply done_only
                | with_reducible apply trySync_only | split
                | (refine only_mk _ ?_ (by intro p hp; cases p <;> first | exact absurd (by decide) hp | exact rfl)) | dsimp only

end Sys2Proof.Machine
end

