-- ==== Sys2Proof/Laws/OnlyWindowOps.lean ====
section
/-! SUPPORT. The parts of the state that every operation of Machine/WindowOps.lean may change, said once for each: all others are left alone (Only of
Safety.lean). -/
set_option Elab.async false
set_option linter.all false
namespace Sys2Proof.Machine
theorem snapRead_only {ps : List Part} {u0 : State} (hp : ∀ p ∈ ([.time] : List Part), p ∈ ps) (s : State)  (hk : Only ps u0 s) :
    Only ps u0 (snapRead s).2 := by
  unfold snapRead
  repeat' first | with_reducible assumption | (intro _) | extract_lets
                | (refine only_mk _ ?_ (by intro p hq; cases p <;> first | exact absurd (hp _ (by decide)) hq | exact rfl)) | dsimp only

theorem ppsinRead_only {ps : List Part} {u0 : State} (hp : ∀ p ∈ ([.time] : List Part), p ∈ ps) (s : State)  (hk : Only ps u0 s) :
    Only ps u0 (ppsinRead s).2 := by
  unfold ppsinRead
  repeat' first | with_reducible assumption | (intro _) | extract_lets
                | (refine only_mk _ ?_ (by intro p hq; cases p <;> first | exact absurd (hp _ (by decide)) hq | exact rfl)) | dsimp only

theorem txtsPop_only {ps : List Part} {u0 : State} (hp : ∀ p ∈ ([.time] : List Part), p ∈ ps) (s : State)  (hk : Only ps u0 s) :
    Only ps u0 (txtsPop s).2 := by
  unfold txtsPop
  repeat' first | with_reducible assumption | (intro _) | with_reducible apply only_ite | extract_lets | split
                | (refine only_mk _ ?_ (by intro p hq; cases p <;> first | exact absurd (hp _ (by decide)) hq | exact rfl)) | dsimp only

theorem statClear_only {ps : List Part} {u0 : State} (hp : ∀ p ∈ ([.out, .host, .causes, .stats] : List Part), p ∈ ps) (k : Nat) (s : State) 
    (hk : Only ps u0 s) :
    Only ps u0 (statClear k s) := by
  unfold statClear
  repeat' first | with_reducible assumption | with_reducible exact sub_trans (by decide) hp | (intro _) | with_reducible apply only_ite
                | extract_lets | with_reducible apply count_only | with_reducible apply only_foldl | split
                | (refine only_mk _ ?_ (by intro p hq; cases p <;> first | exact absurd (hp _ (by decide)) hq | exact rfl)) | dsimp only

theorem statRead_only {ps : List Part} {u0 : State} (hp : ∀ p ∈ ([.out, .host, .causes, .stats] : List Part), p ∈ ps) (k : Nat) (s : State) 
    (hk : Only ps u0 s) :
    Only ps u0 (statRead k s).2 := by
  unfold statRead
  repeat' first | with_reducible assumption | with_reducible exact sub_trans (by decide) hp | (intro _) | extract_lets
                | with_reducible apply statClear_only | dsimp only

theorem readC_only {ps : List Part} {u0 : State}
    (hp : ∀ p ∈ ([.out, .freeIdx, .host, .causes, .stats, .log, .time, .sw, .red, .can] : List Part), p ∈ ps) (off : Nat) (s : State) 
    (hk : Only ps u0 s) :
    Only ps u0 (readC off s).2 := by
  unfold readC
  repeat' first | with_reducible assumption | with_reducible exact sub_trans (by decide) hp | (intro _) | with_reducible apply only_ite
                | extract_lets | with_reducible apply snapRead_only | with_reducible apply ppsinRead_only | with_reducible apply txtsPop_only
                | with_reducible apply statRead_only | with_reducible apply canRead0_only | with_reducible apply canRead17_only
                | with_reducible apply fifoRead0_only | with_reducible apply fifoRead17_only | split | dsimp only

theorem ringWrite_only {ps : List Part} {u0 : State} (hp : ∀ p ∈ ([.out, .host, .causes, .stats, .sw, .rx, .tx] : List Part), p ∈ ps) (tx : Bool)
    (n : Nat) (off : Nat) (v : Nat) (s : State)  (hk : Only ps u0 s) :
    Only ps u0 (ringWrite tx n off v s) := by
  unfold ringWrite
  repeat' first | with_reducible assumption | with_reducible exact sub_trans (by decide) hp | (intro _) | with_reducible apply only_ite
                | extract_lets | with_reducible apply setRing_only | with_reducible apply ringCtrl_only | with_reducible apply ringTail_only
                | with_reducible apply setRx_only | split
                | (refine only_mk _ ?_ (by intro p hq; cases p <;> first | exact absurd (hp _ (by decide)) hq | exact rfl)) | dsimp only

theorem doorbell_only {ps : List Part} {u0 : State}
    (hp : ∀ p ∈ ([.out, .freeIdx, .node, .pwr, .host, .mem, .causes, .stats, .log, .hitch, .time, .sw, .stream, .ctl, .retain, .red, .wr, .can, .leg, .br] : List Part), p ∈ ps)
    (m : Nat) (v : Nat) (agent : Nat) (s : State)  (hk : Only ps u0 s) :
    Only ps u0 (doorbell m v agent s) := by
  unfold doorbell
  repeat' first | with_reducible assumption | with_reducible exact sub_trans (by decide) hp | (intro _) | with_reducible apply only_ite
                | extract_lets | with_reducible apply abortBox_only | with_reducible apply submit_only | split | dsimp only

theorem mbxWrite_only {ps : List Part} {u0 : State}
    (hp : ∀ p ∈ ([.out, .freeIdx, .node, .pwr, .host, .mem, .causes, .stats, .log, .hitch, .time, .sw, .stream, .ctl, .retain, .red, .wr, .can, .leg, .br] : List Part), p ∈ ps)
    (m : Nat) (off : Nat) (v : Nat) (agent : Nat) (s : State)  (hk : Only ps u0 s) :
    Only ps u0 (mbxWrite m off v agent s) := by
  unfold mbxWrite
  repeat' first | with_reducible assumption | with_reducible exact sub_trans (by decide) hp | (intro _) | with_reducible apply only_ite
                | extract_lets | with_reducible apply doorbell_only | with_reducible apply clearMbx_only | split
                | (refine only_mk _ ?_ (by intro p hq; cases p <;> first | exact absurd (hp _ (by decide)) hq | exact rfl)) | dsimp only

theorem canBlockWrite_only {ps : List Part} {u0 : State} (hp : ∀ p ∈ ([.out, .host, .causes, .stats, .can] : List Part), p ∈ ps) (ch : Nat)
    (off : Nat) (v : Nat) (s : State)  (hk : Only ps u0 s) :
    Only ps u0 (canBlockWrite ch off v s) := by
  unfold canBlockWrite
  repeat' first | with_reducible assumption | with_reducible exact sub_trans (by decide) hp | (intro _) | with_reducible apply only_ite
                | extract_lets | with_reducible apply canCancel_only | with_reducible apply clearCause_only | with_reducible apply setMask_only
                | with_reducible apply setCan_only | with_reducible apply only_foldl | split
                | (refine only_mk _ ?_ (by intro p hq; cases p <;> first | exact absurd (hp _ (by decide)) hq | exact rfl)) | dsimp only

theorem canRegWrite_only {ps : List Part} {u0 : State} (hp : ∀ p ∈ ([.out, .host, .causes, .stats, .can] : List Part), p ∈ ps) (off : Nat) (v : Nat)
    (s : State)  (hk : Only ps u0 s) :
    Only ps u0 (canRegWrite off v s) := by
  unfold canRegWrite
  repeat' first | with_reducible assumption | with_reducible exact sub_trans (by decide) hp | (intro _) | with_reducible apply only_ite
                | extract_lets | with_reducible apply canWrite0_only | with_reducible apply canWriteWord_only | with_reducible apply setCan_only
                | with_reducible apply canBlockWrite_only | split
                | (refine only_mk _ ?_ (by intro p hq; cases p <;> first | exact absurd (hp _ (by decide)) hq | exact rfl)) | dsimp only

theorem writeC_only {ps : List Part} {u0 : State}
    (hp : ∀ p ∈ ([.out, .freeIdx, .node, .pwr, .host, .mem, .causes, .stats, .log, .hitch, .time, .sw, .rx, .tx, .stream, .ctl, .retain, .red, .wr, .can, .leg, .br] : List Part), p ∈ ps)
    (agent : Nat) (off : Nat) (v : Nat) (s : State)  (hk : Only ps u0 s) :
    Only ps u0 (writeC agent off v s) := by
  unfold writeC
  repeat' first | with_reducible assumption | with_reducible exact sub_trans (by decide) hp | (intro _) | with_reducible apply only_ite
                | extract_lets | with_reducible apply hostWatch_only | with_reducible apply causeWrite_only | with_reducible apply setMask_only
                | with_reducible apply ringWrite_only | with_reducible apply mbxWrite_only | with_reducible apply canRegWrite_only | split
                | (refine only_mk _ ?_ (by intro p hq; cases p <;> first | exact absurd (hp _ (by decide)) hq | exact rfl)) | dsimp only

theorem writeM_only {ps : List Part} {u0 : State}
    (hp : ∀ p ∈ ([.out, .freeIdx, .node, .pwr, .host, .mem, .causes, .stats, .log, .hitch, .time, .sw, .stream, .ctl, .retain, .red, .wr, .can, .leg, .br] : List Part), p ∈ ps)
    (a : Nat) (data : List Byte) (s : State)  (hk : Only ps u0 s) :
    Only ps u0 (writeM a data s) := by
  unfold writeM
  repeat' first | with_reducible assumption | with_reducible exact sub_trans (by decide) hp | (intro _) | with_reducible apply only_ite
                | extract_lets | with_reducible apply requestWrite_only | split | dsimp only

theorem writeX_only {ps : List Part} {u0 : State} (hp : ∀ p ∈ ([.out, .host, .stats] : List Part), p ∈ ps) (off : Nat) (v : Nat) (s : State) 
    (hk : Only ps u0 s) :
    Only ps u0 (writeX off v s) := by
  unfold writeX
  repeat' first | with_reducible assumption | with_reducible exact sub_trans (by decide) hp | (intro _) | with_reducible apply only_ite
                | extract_lets | with_reducible apply unmask_only | split
                | (refine only_mk _ ?_ (by intro p hq; cases p <;> first | exact absurd (hp _ (by decide)) hq | exact rfl)) | dsimp only

theorem writeDl_only {ps : List Part} {u0 : State} (hp : ∀ p ∈ ([.boot] : List Part), p ∈ ps) (off : Nat) (v : Nat) (s : State)  (hk : Only ps u0 s) :
    Only ps u0 (writeDl off v s) := by
  unfold writeDl
  repeat' first | with_reducible assumption | (intro _) | with_reducible apply only_ite | extract_lets | split
                | (refine only_mk _ ?_ (by intro p hq; cases p <;> first | exact absurd (hp _ (by decide)) hq | exact rfl)) | dsimp only

theorem qspiEnd_only {ps : List Part} {u0 : State} (hp : ∀ p ∈ ([.out, .host, .causes, .stats] : List Part), p ∈ ps) (bad : Bool) (s : State) 
    (hk : Only ps u0 s) :
    Only ps u0 (qspiEnd bad s) := by
  unfold qspiEnd
  repeat' first | with_reducible assumption | with_reducible exact sub_trans (by decide) hp | (intro _) | with_reducible apply only_ite
                | extract_lets | with_reducible apply count_only | split
                | (refine only_mk _ ?_ (by intro p hq; cases p <;> first | exact absurd (hp _ (by decide)) hq | exact rfl)) | dsimp only

theorem qspiWrite_only {ps : List Part} {u0 : State}
    (hp : ∀ p ∈ ([.out, .freeIdx, .node, .pwr, .host, .mem, .causes, .stats, .log, .hitch, .time, .sw, .rx, .tx, .stream, .ctl, .retain, .red, .wr, .can, .leg, .br] : List Part), p ∈ ps)
    (addr : Nat) (data : List Byte) (s : State)  (hk : Only ps u0 s) :
    Only ps u0 (qspiWrite addr data s) := by
  unfold qspiWrite
  repeat' first | with_reducible assumption | with_reducible exact sub_trans (by decide) hp | (intro _) | with_reducible apply only_ite
                | extract_lets | with_reducible apply writeC_only | with_reducible apply writeM_only | with_reducible apply qspiEnd_only
                | with_reducible apply only_foldl | split | dsimp only

theorem qspiRead_only {ps : List Part} {u0 : State}
    (hp : ∀ p ∈ ([.out, .freeIdx, .host, .causes, .stats, .log, .time, .sw, .red, .can] : List Part), p ∈ ps) (addr : Nat) (words : Nat) (cut : Bool)
    (s : State)  (hk : Only ps u0 s) :
    Only ps u0 (qspiRead addr words cut s) := by
  unfold qspiRead
  repeat' first | with_reducible assumption | with_reducible exact sub_trans (by decide) hp | (intro _) | with_reducible apply only_ite
                | extract_lets | with_reducible apply readC_only | with_reducible apply emit_only | with_reducible apply qspiEnd_only
                | with_reducible apply only_foldl | with_reducible apply only_foldl2 | split | dsimp only

end Sys2Proof.Machine
end

