-- ==== Sys2Proof/Laws/OnlyBridge.lean ====
section
/-! SUPPORT. The parts of the state that every operation of Machine/Bridge.lean may change, said once for each: all others are left alone (Only of
Safety.lean). -/
set_option Elab.async false
set_option linter.all false
namespace Sys2Proof.Machine
theorem readSpace_only {ps : List Part} {u0 : State} (hp : ∀ p ∈ ([.out, .host, .causes, .stats] : List Part), p ∈ ps) (body : List Byte)
    (vol : Bool) (s : State)  (hk : Only ps u0 s) :
    Only ps u0 (readSpace body vol s).2 := by
  unfold readSpace
  repeat' first | with_reducible assumption | with_reducible exact sub_trans (by decide) hp | (intro _) | with_reducible apply only_ite
                | extract_lets | with_reducible apply statRead_only | with_reducible apply only_foldl | with_reducible apply only_foldl2 | split
                | (refine only_mk _ ?_ (by intro p hq; cases p <;> first | exact absurd (hp _ (by decide)) hq | exact rfl)) | dsimp only

theorem startTxn_only {ps : List Part} {u0 : State}
    (hp : ∀ p ∈ ([.out, .freeIdx, .host, .mem, .causes, .stats, .log, .time, .sw, .rx, .tx, .red, .can, .br] : List Part), p ∈ ps) (who : Asker)
    (body : List Byte) (s : State)  (hk : Only ps u0 s) :
    Only ps u0 (startTxn who body s) := by
  unfold startTxn
  repeat' first | with_reducible assumption | with_reducible exact sub_trans (by decide) hp | (intro _) | with_reducible apply only_ite
                | extract_lets | with_reducible apply respond_only | with_reducible apply txnPlace_only | split
                | (refine only_mk _ ?_ (by intro p hq; cases p <;> first | exact absurd (hp _ (by decide)) hq | exact rfl)) | dsimp only

theorem serveRead_only {ps : List Part} {u0 : State}
    (hp : ∀ p ∈ ([.out, .freeIdx, .host, .mem, .causes, .stats, .log, .time, .sw, .rx, .tx, .red, .can, .br] : List Part), p ∈ ps) (who : Asker)
    (body : List Byte) (s : State)  (hk : Only ps u0 s) :
    Only ps u0 (serveRead who body s) := by
  unfold serveRead
  repeat' first | with_reducible assumption | with_reducible exact sub_trans (by decide) hp | (intro _) | with_reducible apply only_ite
                | extract_lets | with_reducible apply startTxn_only | with_reducible apply readSpace_only | with_reducible apply respond_only
                | with_reducible apply sendEnvelope_only | with_reducible apply count_only | split
                | (refine only_mk _ ?_ (by intro p hq; cases p <;> first | exact absurd (hp _ (by decide)) hq | exact rfl)) | dsimp only

theorem takeRequest_only {ps : List Part} {u0 : State}
    (hp : ∀ p ∈ ([.out, .freeIdx, .host, .mem, .causes, .stats, .log, .time, .sw, .rx, .tx, .red, .can, .br] : List Part), p ∈ ps) (outside : Bool)
    (b : List Byte) (s : State)  (hk : Only ps u0 s) :
    Only ps u0 (takeRequest outside b s) := by
  unfold takeRequest
  repeat' first | with_reducible assumption | with_reducible exact sub_trans (by decide) hp | (intro _) | with_reducible apply only_ite
                | extract_lets | with_reducible apply serveRead_only | with_reducible apply sendEnvTug_only | split
                | (refine only_mk _ ?_ (by intro p hq; cases p <;> first | exact absurd (hp _ (by decide)) hq | exact rfl)) | dsimp only

theorem onEnvelope_only {ps : List Part} {u0 : State} (hp : ∀ p ∈ ([.out, .freeIdx, .host, .causes, .stats, .log, .sw, .red] : List Part), p ∈ ps)
    (kind : Nat) (f : Frame) (go : List Byte → State → State) (s : State) (h_go : ∀ (x0 : List Byte) (s9 : State), Only ps u0 s9 → Only ps u0
    (go x0 s9)) (hk : Only ps u0 s) :
    Only ps u0 (onEnvelope kind f go s) := by
  unfold onEnvelope
  repeat' first | with_reducible assumption | with_reducible exact sub_trans (by decide) hp | (intro _) | with_reducible apply only_ite
                | extract_lets | apply h_go | with_reducible apply count_only | with_reducible apply raise_only | with_reducible apply logEvent_only
                | split | dsimp only

theorem execTunnelReceive_only (f : Frame) (err : Nat) (s : State) {s9 : State}
    (hk : execTunnelReceive f err s = .next s9) : Only [.out, .freeIdx, .host, .causes, .stats, .log, .sw, .red, .can, .leg, .br] s s9 := by
  unfold execTunnelReceive at hk
  cases hk
  repeat' first | with_reducible assumption | decide | (intro _) | with_reducible exact Only.rfl | with_reducible apply only_ite | extract_lets
                | with_reducible apply onEnvelope_only | with_reducible apply sendEnvTug_only | with_reducible apply takeTunnel_only
                | with_reducible apply count_only | with_reducible apply bridgeParity_only | with_reducible apply setSession_only
                | with_reducible apply tunDrop_only | with_reducible apply popImport_only | with_reducible apply only_foldl | split
                | (refine only_mk _ ?_ (by intro p hp; cases p <;> first | exact absurd (by decide) hp | exact rfl)) | dsimp only

theorem execReadReqReceive_only (f : Frame) (err : Bool) (s : State) {s9 : State}
    (hk : execReadReqReceive f err s = .next s9) : Only [.out, .freeIdx, .host, .mem, .causes, .stats, .log, .time, .sw, .rx, .tx, .red, .can, .br] s s9 := by
  unfold execReadReqReceive at hk
  cases hk
  repeat' first | with_reducible assumption | decide | (intro _) | with_reducible exact Only.rfl | with_reducible apply only_ite | extract_lets
                | with_reducible apply onEnvelope_only | with_reducible apply bridgeParity_only | with_reducible apply takeRequest_only | split
                | (refine only_mk _ ?_ (by intro p hp; cases p <;> first | exact absurd (by decide) hp | exact rfl)) | dsimp only

theorem routeResponse_only {ps : List Part} {u0 : State}
    (hp : ∀ p ∈ ([.out, .freeIdx, .host, .mem, .causes, .stats, .log, .sw, .red, .br] : List Part), p ∈ ps) (b : List Byte) (s : State) 
    (hk : Only ps u0 s) :
    Only ps u0 (routeResponse b s) := by
  unfold routeResponse
  repeat' first | with_reducible assumption | with_reducible exact sub_trans (by decide) hp | (intro _) | with_reducible apply only_ite
                | extract_lets | with_reducible apply takeResponse_only | with_reducible apply sendEnvTug_only | split
                | (refine only_mk _ ?_ (by intro p hq; cases p <;> first | exact absurd (hp _ (by decide)) hq | exact rfl)) | dsimp only

theorem execReadRspReceive_only (f : Frame) (err : Bool) (s : State) {s9 : State}
    (hk : execReadRspReceive f err s = .next s9) : Only [.out, .freeIdx, .host, .mem, .causes, .stats, .log, .sw, .red, .br] s s9 := by
  unfold execReadRspReceive at hk
  cases hk
  repeat' first | with_reducible assumption | decide | (intro _) | with_reducible exact Only.rfl | with_reducible apply only_ite | extract_lets
                | with_reducible apply onEnvelope_only | with_reducible apply endRead_only | with_reducible apply bridgeParity_only
                | with_reducible apply routeResponse_only | split
                | (refine only_mk _ ?_ (by intro p hp; cases p <;> first | exact absurd (by decide) hp | exact rfl)) | dsimp only

theorem envSegment_only {ps : List Part} {u0 : State} (hp : ∀ p ∈ ([.out, .host, .causes, .stats, .red] : List Part), p ∈ ps) (c : TugChan)
    (m : TugRx) (s : State)  (hk : Only ps u0 s) :
    Only ps u0 (envSegment c m s).2 := by
  unfold envSegment
  try dsimp only
  repeat' first | with_reducible assumption | with_reducible exact sub_trans (by decide) hp | (intro _) | with_reducible exact Only.rfl
                | with_reducible apply only_ite | with_reducible apply only_ite_app | with_reducible apply only_id | with_reducible apply count_only
                | with_reducible apply only_foldl | with_reducible apply only_foldl2 | split
                | (refine only_mk _ ?_ (by intro p hq; cases p <;> first | exact absurd (hp _ (by decide)) hq | exact rfl)) | dsimp only

theorem execTugReqSegmentReceive_only (m : TugRx) {s s9 : State}
    (hk : execTugReqSegmentReceive m s = .next s9) : Only [.out, .freeIdx, .host, .mem, .causes, .stats, .log, .time, .sw, .rx, .tx, .red, .can, .leg, .br] s s9 := by
  unfold execTugReqSegmentReceive at hk
  cases hk
  refine onTug_only (by decide) _ _ _ _ (fun x hx => ?_) Only.rfl
  have he := envSegment_only (ps := [.out, .freeIdx, .host, .mem, .causes, .stats, .log, .time, .sw, .rx, .tx, .red, .can, .leg, .br]) (by decide) .req m x hx
  split
  · rename_i heq
    rw [heq] at he
    exact he
  · rename_i heq
    rw [heq] at he
    split
    · exact takeTunnel_only (by decide) _ _ he
    · exact takeRequest_only (by decide) _ _ _ he

theorem execTugRspSegmentReceive_only (m : TugRx) {s s9 : State}
    (hk : execTugRspSegmentReceive m s = .next s9) : Only [.out, .freeIdx, .host, .mem, .causes, .stats, .log, .sw, .red, .br] s s9 := by
  unfold execTugRspSegmentReceive at hk
  cases hk
  refine onTug_only (by decide) _ _ _ _ (fun x hx => ?_) Only.rfl
  have he := envSegment_only (ps := [.out, .freeIdx, .host, .mem, .causes, .stats, .log, .sw, .red, .br]) (by decide) .rsp m x hx
  split
  · rename_i heq
    rw [heq] at he
    exact he
  · rename_i heq
    rw [heq] at he
    split
    · exact takeResponse_only (by decide) _ _ he
    · exact he

theorem execExportHoldExpiry_only (session : Nat) (s : State) {s9 : State}
    (hk : execExportHoldExpiry session s = .next s9) : Only [.out, .freeIdx, .host, .causes, .stats, .log, .time, .sw, .rx, .tx, .red, .br] s s9 := by
  unfold execExportHoldExpiry at hk
  cases hk
  repeat' first | with_reducible assumption | decide | (intro _) | with_reducible exact Only.rfl | with_reducible apply only_ite | extract_lets
                | with_reducible apply sendExport_only | split | dsimp only

theorem execTunAged_only (session : Nat) (s : State) {s9 : State}
    (hk : execTunAged session s = .next s9) : Only [.out, .freeIdx, .host, .causes, .stats, .log, .sw, .red, .can, .leg, .br] s s9 := by
  unfold execTunAged at hk
  cases hk
  repeat' first | with_reducible assumption | decide | (intro _) | with_reducible exact Only.rfl | with_reducible apply only_ite | extract_lets
                | with_reducible apply importPlace_only | with_reducible apply tunDrop_only | with_reducible apply popImport_only | split
                | (refine only_mk _ ?_ (by intro p hp; cases p <;> first | exact absurd (by decide) hp | exact rfl)) | dsimp only

theorem issueRead_only {ps : List Part} {u0 : State}
    (hp : ∀ p ∈ ([.out, .freeIdx, .host, .mem, .causes, .stats, .log, .time, .sw, .rx, .tx, .red, .can, .br] : List Part), p ∈ ps) (o : OpenRead)
    (resend : Bool) (s : State)  (hk : Only ps u0 s) :
    Only ps u0 (issueRead o resend s) := by
  unfold issueRead
  repeat' first | with_reducible assumption | with_reducible exact sub_trans (by decide) hp | (intro _) | with_reducible apply only_ite
                | extract_lets | with_reducible apply sendRead_only | with_reducible apply takeRequest_only | split
                | (refine only_mk _ ?_ (by intro p hq; cases p <;> first | exact absurd (hp _ (by decide)) hq | exact rfl)) | dsimp only

theorem execReadResend_only (reqId : Nat) (s : State) {s9 : State}
    (hk : execReadResend reqId s = .next s9) : Only [.out, .freeIdx, .host, .mem, .causes, .stats, .log, .time, .sw, .rx, .tx, .red, .can, .br] s s9 := by
  unfold execReadResend at hk
  cases hk
  repeat' first | with_reducible assumption | decide | (intro _) | with_reducible exact Only.rfl | with_reducible apply only_ite | extract_lets
                | with_reducible apply issueRead_only | with_reducible apply count_only | split
                | (refine only_mk _ ?_ (by intro p hp; cases p <;> first | exact absurd (by decide) hp | exact rfl)) | dsimp only

theorem execReadTimeout_only (reqId : Nat) (s : State) {s9 : State}
    (hk : execReadTimeout reqId s = .next s9) : Only [.out, .freeIdx, .host, .mem, .causes, .stats, .log, .sw, .red, .br] s s9 := by
  unfold execReadTimeout at hk
  cases hk
  repeat' first | with_reducible assumption | decide | (intro _) | with_reducible exact Only.rfl | with_reducible apply only_ite | extract_lets
                | with_reducible apply endRead_only | with_reducible apply raise_only | with_reducible apply logEvent_only
                | with_reducible apply count_only | split
                | (refine only_mk _ ?_ (by intro p hp; cases p <;> first | exact absurd (by decide) hp | exact rfl)) | dsimp only

theorem execResponderRequestExpiry_only (nid : Nid) (chip : Nat) (reqId : Nat) (s : State) {s9 : State}
    (hk : execResponderRequestExpiry nid chip reqId s = .next s9) : Only [.br] s s9 := by
  unfold execResponderRequestExpiry at hk
  cases hk
  repeat' first | with_reducible assumption | (intro _) | with_reducible exact Only.rfl | extract_lets
                | (refine only_mk _ ?_ (by intro p hp; cases p <;> first | exact absurd (by decide) hp | exact rfl)) | dsimp only

theorem execSessionReloadDone_only (session : Nat) (s : State) {s9 : State}
    (hk : execSessionReloadDone session s = .next s9) : Only [.out, .freeIdx, .host, .causes, .stats, .log, .sw, .red, .br] s s9 := by
  unfold execSessionReloadDone at hk
  cases hk
  repeat' first | with_reducible assumption | decide | (intro _) | with_reducible exact Only.rfl | with_reducible apply only_ite | extract_lets
                | with_reducible apply setSession_only | with_reducible apply sessionSaid_only | split
                | (refine only_mk _ ?_ (by intro p hp; cases p <;> first | exact absurd (by decide) hp | exact rfl)) | dsimp only

theorem execBridgeStatus_only (c : Acs) (s : State) {s9 : State}
    (hk : execBridgeStatus c s = .next s9) : Only [.out, .host, .mem, .causes, .stats] s s9 := by
  unfold execBridgeStatus at hk
  cases hk
  repeat' first | with_reducible assumption | decide | (intro _) | with_reducible exact Only.rfl | extract_lets | with_reducible apply acsLen_only
                | with_reducible apply done_only | dsimp only

theorem effBridgeSession_only {ps : List Part} {u0 : State}
    (hp : ∀ p ∈ ([.out, .freeIdx, .host, .mem, .causes, .stats, .log, .sw, .red, .br] : List Part), p ∈ ps) (a : List Byte) (r : Option AcsRef)
    (s : State)  (hk : Only ps u0 s) :
    Only ps u0 (effBridgeSession a r s) := by
  unfold effBridgeSession
  repeat' first | with_reducible assumption | with_reducible exact sub_trans (by decide) hp | (intro _) | with_reducible apply only_ite
                | extract_lets | with_reducible apply finish_only | with_reducible apply sessionSaid_only | with_reducible apply setSession_only
                | split | (refine only_mk _ ?_ (by intro p hq; cases p <;> first | exact absurd (hp _ (by decide)) hq | exact rfl)) | dsimp only

theorem execBridgeSession_only (c : Acs) (s : State) {s9 : State}
    (hk : execBridgeSession c s = .next s9) : Only [.out, .freeIdx, .host, .mem, .causes, .stats, .log, .sw, .red, .br] s s9 := by
  unfold execBridgeSession at hk
  cases hk
  repeat' first | with_reducible assumption | decide | (intro _) | with_reducible exact Only.rfl | with_reducible apply only_ite | extract_lets
                | with_reducible apply acsLen_only | with_reducible apply badArgIf_only | with_reducible apply done_only
                | with_reducible apply nodeWide_only | with_reducible apply effBridgeSession_only | split | dsimp only

theorem execBridgeRead_only (c : Acs) (s : State) {s9 : State}
    (hk : execBridgeRead c s = .next s9) : Only [.out, .freeIdx, .host, .mem, .causes, .stats, .log, .time, .sw, .rx, .tx, .red, .can, .br] s s9 := by
  unfold execBridgeRead at hk
  cases hk
  repeat' first | with_reducible assumption | decide | (intro _) | with_reducible exact Only.rfl | with_reducible apply only_ite | extract_lets
                | with_reducible apply acs_only | with_reducible apply done_only | with_reducible apply badArgIf_only
                | with_reducible apply freeTag_only | with_reducible apply takeTag_only | with_reducible apply issueRead_only | split
                | (refine only_mk _ ?_ (by intro p hp; cases p <;> first | exact absurd (by decide) hp | exact rfl)) | dsimp only

theorem execBridgeCollect_only (c : Acs) (s : State) {s9 : State}
    (hk : execBridgeCollect c s = .next s9) : Only [.out, .host, .mem, .causes, .stats, .br] s s9 := by
  unfold execBridgeCollect at hk
  cases hk
  repeat' first | with_reducible assumption | decide | (intro _) | with_reducible exact Only.rfl | with_reducible apply only_ite | extract_lets
                | with_reducible apply acsLen_only | with_reducible apply badArgIf_only | with_reducible apply done_only
                | with_reducible apply freeTag_only | with_reducible apply only_foldl | split
                | (refine only_mk _ ?_ (by intro p hp; cases p <;> first | exact absurd (by decide) hp | exact rfl)) | dsimp only

end Sys2Proof.Machine
end

