-- ==== Sys2Proof/Laws/OnlyCan.lean ====
section
/-! SUPPORT. The parts of the state that every operation of Machine/Can.lean may change, said once for each: all others are left alone (Only of
Safety.lean). -/
set_option Elab.async false
set_option linter.all false
namespace Sys2Proof.Machine
theorem execCanStartOfFrame_only (ch : Nat) (err : Bool) (s : State) {s9 : State}
    (hk : execCanStartOfFrame ch err s = .next s9) : Only [.out, .freeIdx, .host, .causes, .stats, .log, .sw, .red, .can] s s9 := by
  unfold execCanStartOfFrame at hk
  cases hk
  repeat' first | with_reducible assumption | decide | (intro _) | with_reducible exact Only.rfl | with_reducible apply only_ite | extract_lets
                | with_reducible apply canBufParity_only | with_reducible apply emit_only | with_reducible apply setCan_only
                | with_reducible apply setBuf_only | split
                | (refine only_mk _ ?_ (by intro p hp; cases p <;> first | exact absurd (by decide) hp | exact rfl)) | dsimp only

theorem canSent_only {ps : List Part} {u0 : State} (hp : ∀ p ∈ ([.out, .host, .causes, .stats, .can] : List Part), p ∈ ps) (ch : Nat) (b : Nat)
    (s : State)  (hk : Only ps u0 s) :
    Only ps u0 (canSent ch b s) := by
  unfold canSent
  repeat' first | with_reducible assumption | with_reducible exact sub_trans (by decide) hp | (intro _) | with_reducible apply only_ite
                | extract_lets | with_reducible apply setCan_only | with_reducible apply setBuf_only | with_reducible apply canTxEnd_only
                | with_reducible apply count_only | split
                | (refine only_mk _ ?_ (by intro p hq; cases p <;> first | exact absurd (hp _ (by decide)) hq | exact rfl)) | dsimp only

theorem execCanTxSuccess_only (ch : Nat) (s : State) {s9 : State}
    (hk : execCanTxSuccess ch s = .next s9) : Only [.out, .freeIdx, .host, .mem, .causes, .stats, .log, .time, .sw, .rx, .tx, .red, .can, .leg, .br] s s9 := by
  unfold execCanTxSuccess at hk
  cases hk
  repeat' first | with_reducible assumption | decide | (intro _) | with_reducible exact Only.rfl | with_reducible apply only_ite | extract_lets
                | with_reducible apply count_only | with_reducible apply canErrState_only | with_reducible apply setCan_only
                | with_reducible apply canSent_only | with_reducible apply canDeliver_only | with_reducible apply exportCan_only
                | with_reducible apply canSettle_only | with_reducible apply importAll_only | with_reducible apply txnSent_only | split
                | (refine only_mk _ ?_ (by intro p hp; cases p <;> first | exact absurd (by decide) hp | exact rfl)) | dsimp only

theorem execCanArbitrationLost_only (ch : Nat) (s : State) {s9 : State}
    (hk : execCanArbitrationLost ch s = .next s9) : Only [.out, .freeIdx, .host, .mem, .causes, .stats, .log, .sw, .red, .can] s s9 := by
  unfold execCanArbitrationLost at hk
  cases hk
  repeat' first | with_reducible assumption | decide | (intro _) | with_reducible exact Only.rfl | with_reducible apply only_ite | extract_lets
                | with_reducible apply canSettle_only | with_reducible apply canRequeue_only | with_reducible apply setBuf_only
                | with_reducible apply count_only | split
                | (refine only_mk _ ?_ (by intro p hp; cases p <;> first | exact absurd (by decide) hp | exact rfl)) | dsimp only

theorem duplicateId_only {ps : List Part} {u0 : State}
    (hp : ∀ p ∈ ([.out, .freeIdx, .host, .causes, .stats, .log, .sw, .red, .can] : List Part), p ∈ ps) (ch : Nat) (b : Nat) (s : State) 
    (hk : Only ps u0 s) :
    Only ps u0 (duplicateId ch b s) := by
  unfold duplicateId
  repeat' first | with_reducible assumption | with_reducible exact sub_trans (by decide) hp | (intro _) | with_reducible apply only_ite
                | extract_lets | with_reducible apply logEvent_only | with_reducible apply count_only | with_reducible apply setBuf_only
                | with_reducible apply raise_only | with_reducible apply canTxEnd_only | split
                | (refine only_mk _ ?_ (by intro p hq; cases p <;> first | exact absurd (hp _ (by decide)) hq | exact rfl)) | dsimp only

theorem canFailed_only {ps : List Part} {u0 : State}
    (hp : ∀ p ∈ ([.out, .freeIdx, .host, .causes, .stats, .log, .sw, .red, .can] : List Part), p ∈ ps) (ch : Nat) (b : Nat) (bitData : Bool)
    (s : State)  (hk : Only ps u0 s) :
    Only ps u0 (canFailed ch b bitData s) := by
  unfold canFailed
  repeat' first | with_reducible assumption | with_reducible exact sub_trans (by decide) hp | (intro _) | with_reducible apply only_ite
                | extract_lets | with_reducible apply canRequeue_only | with_reducible apply setBuf_only | with_reducible apply duplicateId_only
                | split | (refine only_mk _ ?_ (by intro p hq; cases p <;> first | exact absurd (hp _ (by decide)) hq | exact rfl)) | dsimp only

theorem execCanErrorDetected_only (ch : Nat) (tx : Bool) (kind : Nat) (inData : Bool) (exempt : Bool) (extra : Nat) (tdc : Bool) (s : State)
    {s9 : State}
    (hk : execCanErrorDetected ch tx kind inData exempt extra tdc s = .next s9) : Only [.out, .freeIdx, .host, .mem, .causes, .stats, .log, .sw, .red, .can] s s9 := by
  unfold execCanErrorDetected at hk
  cases hk
  repeat' first | with_reducible assumption | decide | (intro _) | with_reducible exact Only.rfl | with_reducible apply only_ite | extract_lets
                | with_reducible apply count_only | with_reducible apply setCan_only | with_reducible apply emit_only
                | with_reducible apply canFailed_only | with_reducible apply canSettle_only | with_reducible apply canErrState_only | split
                | (refine only_mk _ ?_ (by intro p hp; cases p <;> first | exact absurd (by decide) hp | exact rfl)) | dsimp only

theorem execBusOffRecovered_only (ch : Nat) (s : State) {s9 : State}
    (hk : execBusOffRecovered ch s = .next s9) : Only [.out, .freeIdx, .host, .causes, .stats, .log, .sw, .red, .can] s s9 := by
  unfold execBusOffRecovered at hk
  cases hk
  repeat' first | with_reducible assumption | decide | (intro _) | with_reducible exact Only.rfl | with_reducible apply only_ite | extract_lets
                | with_reducible apply raise_only | with_reducible apply logEvent_only | with_reducible apply count_only
                | with_reducible apply setCan_only | split
                | (refine only_mk _ ?_ (by intro p hp; cases p <;> first | exact absurd (by decide) hp | exact rfl)) | dsimp only

theorem execCanIntegrationDone_only (ch : Nat) (s : State) {s9 : State} (hk : execCanIntegrationDone ch s = .next s9) : Only [.can] s s9 := by
  unfold execCanIntegrationDone at hk
  cases hk
  repeat' first | with_reducible assumption | decide | (intro _) | with_reducible exact Only.rfl | with_reducible apply only_ite | extract_lets
                | with_reducible apply setCan_only | split
                | (refine only_mk _ ?_ (by intro p hp; cases p <;> first | exact absurd (by decide) hp | exact rfl)) | dsimp only

theorem readOut_only {ps : List Part} {u0 : State} (hp : ∀ p ∈ ([.out] : List Part), p ∈ ps) (off : Nat) (r : Nat × State)  (hk : Only ps u0 r.2) :
    Only ps u0 (readOut off r) := by
  unfold readOut
  repeat' first | with_reducible assumption | with_reducible exact sub_trans (by decide) hp | (intro _) | extract_lets
                | with_reducible apply emit_only | dsimp only

theorem execCanBufferWord0Read_only (buf : Nat) (err : Bool) (s : State) {s9 : State}
    (hk : execCanBufferWord0Read buf err s = .next s9) : Only [.out, .freeIdx, .host, .causes, .stats, .log, .sw, .red, .can] s s9 := by
  unfold execCanBufferWord0Read at hk
  cases hk
  repeat' first | with_reducible assumption | decide | (intro _) | with_reducible exact Only.rfl | with_reducible apply only_ite | extract_lets
                | with_reducible apply readOut_only | with_reducible apply canRead0_only | split | dsimp only

theorem execCanBufferWord17Read_only (buf : Nat) (s : State) {s9 : State}
    (hk : execCanBufferWord17Read buf s = .next s9) : Only [.out, .host, .causes, .stats, .can] s s9 := by
  unfold execCanBufferWord17Read at hk
  cases hk
  repeat' first | with_reducible assumption | decide | (intro _) | with_reducible exact Only.rfl | with_reducible apply only_ite | extract_lets
                | with_reducible apply readOut_only | with_reducible apply canRead17_only | split | dsimp only

theorem execCanFifoHeadWord0Read_only (err : Bool) (s : State) {s9 : State}
    (hk : execCanFifoHeadWord0Read err s = .next s9) : Only [.out, .freeIdx, .host, .causes, .stats, .log, .sw, .red, .can] s s9 := by
  unfold execCanFifoHeadWord0Read at hk
  cases hk
  repeat' first | with_reducible assumption | decide | (intro _) | with_reducible exact Only.rfl | with_reducible apply only_ite | extract_lets
                | with_reducible apply readOut_only | with_reducible apply fifoRead0_only | split | dsimp only

theorem execCanFifoHeadWord17Read_only (s : State) {s9 : State} (hk : execCanFifoHeadWord17Read s = .next s9) : Only [.out, .can] s s9 := by
  unfold execCanFifoHeadWord17Read at hk
  cases hk
  repeat' first | with_reducible assumption | decide | (intro _) | with_reducible exact Only.rfl | with_reducible apply only_ite | extract_lets
                | with_reducible apply readOut_only | with_reducible apply fifoRead17_only | split | dsimp only

theorem execCanWriteRxEmpty_only (buf : Nat) (s : State) {s9 : State}
    (hk : execCanWriteRxEmpty buf s = .next s9) : Only [.out, .host, .causes, .stats, .can] s s9 := by
  unfold execCanWriteRxEmpty at hk
  cases hk
  repeat' first | with_reducible assumption | decide | (intro _) | with_reducible exact Only.rfl | with_reducible apply only_ite | extract_lets
                | with_reducible apply canWriteEmpty_only | split | dsimp only

theorem execCanWriteTxPending_only (buf : Nat) (w : Word) (s : State) {s9 : State}
    (hk : execCanWriteTxPending buf w s = .next s9) : Only [.out, .host, .causes, .stats, .can] s s9 := by
  unfold execCanWriteTxPending at hk
  cases hk
  repeat' first | with_reducible assumption | decide | (intro _) | with_reducible exact Only.rfl | with_reducible apply only_ite | extract_lets
                | with_reducible apply canWritePending_only | split | dsimp only

theorem execCanWriteTxIdle_only (buf : Nat) (w : Word) (s : State) {s9 : State} (hk : execCanWriteTxIdle buf w s = .next s9) : Only [.can] s s9 := by
  unfold execCanWriteTxIdle at hk
  cases hk
  repeat' first | with_reducible assumption | decide | (intro _) | with_reducible exact Only.rfl | with_reducible apply only_ite | extract_lets
                | with_reducible apply canWriteIdle_only | split | dsimp only

theorem execCanCancelBuffer_only (ch : Nat) (buf : Nat) (s : State) {s9 : State}
    (hk : execCanCancelBuffer ch buf s = .next s9) : Only [.out, .host, .causes, .stats, .can] s s9 := by
  unfold execCanCancelBuffer at hk
  cases hk
  repeat' first | with_reducible assumption | decide | (intro _) | with_reducible exact Only.rfl | with_reducible apply only_ite | extract_lets
                | with_reducible apply canCancel_only | split | dsimp only

theorem execCanCancelAll_only (ch : Nat) (s : State) {s9 : State}
    (hk : execCanCancelAll ch s = .next s9) : Only [.out, .host, .causes, .stats, .can] s s9 := by
  unfold execCanCancelAll at hk
  cases hk
  repeat' first | with_reducible assumption | decide | (intro _) | with_reducible exact Only.rfl | with_reducible apply only_ite | extract_lets
                | with_reducible apply canCancel_only | with_reducible apply only_foldl | split | dsimp only

theorem execCanConfigReloadDone_only (ch : Nat) (s : State) {s9 : State}
    (hk : execCanConfigReloadDone ch s = .next s9) : Only [.out, .freeIdx, .host, .causes, .stats, .log, .sw, .red, .can] s s9 := by
  unfold execCanConfigReloadDone at hk
  cases hk
  repeat' first | with_reducible assumption | decide | (intro _) | with_reducible exact Only.rfl | with_reducible apply only_ite | extract_lets
                | with_reducible apply canLoad_only | with_reducible apply canSetBlock_only | with_reducible apply setCan_only | split
                | (refine only_mk _ ?_ (by intro p hp; cases p <;> first | exact absurd (by decide) hp | exact rfl)) | dsimp only

theorem effCanConfig_only {ps : List Part} {u0 : State}
    (hp : ∀ p ∈ ([.out, .freeIdx, .host, .mem, .causes, .stats, .log, .sw, .red, .can] : List Part), p ∈ ps) (a : List Byte) (r : Option AcsRef)
    (s : State)  (hk : Only ps u0 s) :
    Only ps u0 (effCanConfig a r s) := by
  unfold effCanConfig
  repeat' first | with_reducible assumption | with_reducible exact sub_trans (by decide) hp | (intro _) | with_reducible apply only_ite
                | extract_lets | with_reducible apply finish_only | with_reducible apply canSettle_only | with_reducible apply setCan_only | split
                | (refine only_mk _ ?_ (by intro p hq; cases p <;> first | exact absurd (hp _ (by decide)) hq | exact rfl)) | dsimp only

theorem execCanConfig_only (c : Acs) (s : State) {s9 : State}
    (hk : execCanConfig c s = .next s9) : Only [.out, .freeIdx, .host, .mem, .causes, .stats, .log, .sw, .red, .can] s s9 := by
  unfold execCanConfig at hk
  cases hk
  repeat' first | with_reducible assumption | decide | (intro _) | with_reducible exact Only.rfl | with_reducible apply only_ite | extract_lets
                | with_reducible apply acsLen_only | with_reducible apply badArgIf_only | with_reducible apply nodeWide_only
                | with_reducible apply effCanConfig_only | split | dsimp only

theorem execCanConfigRead_only (c : Acs) (s : State) {s9 : State}
    (hk : execCanConfigRead c s = .next s9) : Only [.out, .host, .mem, .causes, .stats] s s9 := by
  unfold execCanConfigRead at hk
  cases hk
  repeat' first | with_reducible assumption | decide | (intro _) | with_reducible exact Only.rfl | with_reducible apply only_ite | extract_lets
                | with_reducible apply acsLen_only | with_reducible apply badArgIf_only | with_reducible apply done_only | split | dsimp only

theorem wakeMatched_only {ps : List Part} {u0 : State} (hp : ∀ p ∈ ([.out, .freeIdx, .host, .causes, .stats, .log, .sw, .red] : List Part), p ∈ ps)
    (ch : Nat) (what : Nat) (s : State)  (hk : Only ps u0 s) :
    Only ps u0 (wakeMatched ch what s) := by
  unfold wakeMatched
  repeat' first | with_reducible assumption | with_reducible exact sub_trans (by decide) hp | (intro _) | extract_lets
                | with_reducible apply raise_only | with_reducible apply logEvent_only | with_reducible apply count_only | dsimp only

theorem execCanFrameReceive_only (ch : Nat) (f : CanFrame) (sof : Nat) (bad : Option Nat) (s : State) {s9 : State}
    (hk : execCanFrameReceive ch f sof bad s = .next s9) : Only [.out, .freeIdx, .node, .pwr, .boot, .sec, .host, .mem, .causes, .stats, .log, .hitch, .time, .sw, .macs, .rx, .tx, .stream, .ctl, .red, .can, .leg, .br] s s9 := by
  unfold execCanFrameReceive at hk
  cases hk
  repeat' first | with_reducible assumption | decide | (intro _) | with_reducible exact Only.rfl | with_reducible apply only_ite | extract_lets
                | with_reducible apply wakeEvent_only | with_reducible apply wakeMatched_only | with_reducible apply canConfigParity_only
                | with_reducible apply raise_only | with_reducible apply count_only | with_reducible apply canDeliver_only
                | with_reducible apply exportCan_only | with_reducible apply canRxGood_only | with_reducible apply txnMatch_only | split
                | (refine only_mk _ ?_ (by intro p hp; cases p <;> first | exact absurd (by decide) hp | exact rfl)) | dsimp only

theorem execCanWakeActivity_only (ch : Nat) (s : State) {s9 : State}
    (hk : execCanWakeActivity ch s = .next s9) : Only [.out, .freeIdx, .node, .pwr, .boot, .sec, .host, .causes, .stats, .log, .hitch, .time, .sw, .macs, .stream, .ctl, .red, .can, .leg] s s9 := by
  unfold execCanWakeActivity at hk
  cases hk
  repeat' first | with_reducible assumption | decide | (intro _) | with_reducible exact Only.rfl | with_reducible apply only_ite | extract_lets
                | with_reducible apply wakeEvent_only | with_reducible apply wakeMatched_only | split | dsimp only

end Sys2Proof.Machine
end

