-- ==== Sys2Proof/Laws/OnlyControl.lean ====
section
/-! SUPPORT. The parts of the state that every operation of Machine/Control.lean may change, said once for each: all others are left alone (Only of
Safety.lean). -/
set_option Elab.async false
set_option linter.all false
namespace Sys2Proof.Machine
theorem doSwap_only {ps : List Part} {u0 : State}
    (hp : ∀ p ∈ ([.out, .freeIdx, .host, .mem, .causes, .stats, .log, .sw, .ctl, .red] : List Part), p ∈ ps) (w : SwapWait) (s : State) 
    (hk : Only ps u0 s) :
    Only ps u0 (doSwap w s) := by
  unfold doSwap
  repeat' first | with_reducible assumption | with_reducible exact sub_trans (by decide) hp | (intro _) | with_reducible apply only_ite
                | extract_lets | with_reducible apply setTask_only | with_reducible apply committed_only | with_reducible apply forceReleased_only
                | with_reducible apply raise_only | with_reducible apply logEvent_only | with_reducible apply finish_only
                | with_reducible apply only_foldl | split
                | (refine only_mk _ ?_ (by intro p hq; cases p <;> first | exact absurd (hp _ (by decide)) hq | exact rfl)) | dsimp only

theorem dueSwaps_only {ps : List Part} {u0 : State}
    (hp : ∀ p ∈ ([.out, .freeIdx, .host, .mem, .causes, .stats, .log, .sw, .ctl, .red] : List Part), p ∈ ps) (n : Nat) (s : State) 
    (hk : Only ps u0 s) :
    Only ps u0 (dueSwaps n s) := by
  unfold dueSwaps
  repeat' first | with_reducible assumption | with_reducible exact sub_trans (by decide) hp | (intro _) | extract_lets
                | with_reducible apply doSwap_only | with_reducible apply only_foldl
                | (refine only_mk _ ?_ (by intro p hq; cases p <;> first | exact absurd (hp _ (by decide)) hq | exact rfl)) | dsimp only

theorem varParity_only {ps : List Part} {u0 : State} (hp : ∀ p ∈ ([.out, .freeIdx, .host, .causes, .stats, .log, .sw, .red] : List Part), p ∈ ps)
    (n : Nat) (where_ : Nat) (result : Nat) (s : State)  (hk : Only ps u0 s) :
    Only ps u0 (varParity n where_ result s) := by
  unfold varParity
  repeat' first | with_reducible assumption | with_reducible exact sub_trans (by decide) hp | (intro _) | extract_lets
                | with_reducible apply logEvent_only | with_reducible apply count_only | dsimp only

theorem latchTask_only {ps : List Part} {u0 : State}
    (hp : ∀ p ∈ ([.out, .freeIdx, .host, .mem, .causes, .stats, .log, .hitch, .time, .sw, .stream, .ctl, .red, .can, .leg] : List Part), p ∈ ps)
    (n : Nat) (err : Bool) (s : State)  (hk : Only ps u0 s) :
    Only ps u0 (latchTask n err s) := by
  unfold latchTask
  repeat' first | with_reducible assumption | with_reducible exact sub_trans (by decide) hp | (intro _) | with_reducible apply only_ite
                | extract_lets | with_reducible apply migHandOver_only | with_reducible apply dueSwaps_only | with_reducible apply dueForces_only
                | with_reducible apply setTask_only | with_reducible apply latchImage_only | with_reducible apply holdTask_only
                | with_reducible apply varParity_only | with_reducible apply offerImage_only | with_reducible apply makeReady_only | split
                | (refine only_mk _ ?_ (by intro p hq; cases p <;> first | exact absurd (hp _ (by decide)) hq | exact rfl)) | dsimp only

theorem stopDuplicate_only {ps : List Part} {u0 : State}
    (hp : ∀ p ∈ ([.out, .freeIdx, .pwr, .host, .mem, .causes, .stats, .log, .hitch, .time, .sw, .stream, .ctl, .red, .wr, .leg] : List Part), p ∈ ps)
    (n : Nat) (kept : Nid) (s : State)  (hk : Only ps u0 s) :
    Only ps u0 (stopDuplicate n kept s) := by
  unfold stopDuplicate
  repeat' first | with_reducible assumption | with_reducible exact sub_trans (by decide) hp | (intro _) | with_reducible apply only_ite
                | extract_lets | with_reducible apply leaveTask_only | with_reducible apply resetGpio_only | with_reducible apply wrSay_only
                | with_reducible apply releaseForces_only | split
                | (refine only_mk _ ?_ (by intro p hq; cases p <;> first | exact absurd (hp _ (by decide)) hq | exact rfl)) | dsimp only

theorem execLatch_only (task : Nat) (err : Nat) (ctxErr : Option Nat) (s : State) {s9 : State}
    (hk : execLatch task err ctxErr s = .next s9) : Only [.out, .freeIdx, .pwr, .host, .mem, .causes, .stats, .log, .hitch, .time, .sw, .stream, .ctl, .red, .wr, .can, .leg] s s9 := by
  unfold execLatch at hk
  cases hk
  repeat' first | with_reducible assumption | decide | (intro _) | with_reducible exact Only.rfl | with_reducible apply only_ite | extract_lets
                | with_reducible apply stopDuplicate_only | with_reducible apply migAtGrid_only | with_reducible apply latchTask_only
                | with_reducible apply payloadBad_only | split
                | (refine only_mk _ ?_ (by intro p hp; cases p <;> first | exact absurd (by decide) hp | exact rfl)) | dsimp only

theorem execTaskExecutionEnd_only (task : Nat) (working : List Byte) (outImage : List Byte) (ns : Nat) (s : State) {s9 : State}
    (hk : execTaskExecutionEnd task working outImage ns s = .next s9) : Only [.out, .host, .mem, .causes, .stats, .log, .ctl] s s9 := by
  unfold execTaskExecutionEnd at hk
  cases hk
  repeat' first | with_reducible assumption | decide | (intro _) | with_reducible exact Only.rfl | with_reducible apply only_ite | extract_lets
                | with_reducible apply schedule_only | with_reducible apply setTask_only | with_reducible apply committed_only | split
                | (refine only_mk _ ?_ (by intro p hp; cases p <;> first | exact absurd (by decide) hp | exact rfl)) | dsimp only

theorem shadowCommit_only {ps : List Part} {u0 : State} (hp : ∀ p ∈ ([.out, .host, .mem, .causes, .stats, .log, .ctl, .wr] : List Part), p ∈ ps)
    (n : Nat) (s : State)  (hk : Only ps u0 s) :
    Only ps u0 (shadowCommit n s) := by
  unfold shadowCommit
  repeat' first | with_reducible assumption | with_reducible exact sub_trans (by decide) hp | (intro _) | with_reducible apply only_ite
                | extract_lets | with_reducible apply setTask_only | with_reducible apply commitBank_only | with_reducible apply wrMeasure_only
                | split | (refine only_mk _ ?_ (by intro p hq; cases p <;> first | exact absurd (hp _ (by decide)) hq | exact rfl)) | dsimp only

theorem commitEnded_only {ps : List Part} {u0 : State}
    (hp : ∀ p ∈ ([.out, .freeIdx, .node, .pwr, .host, .mem, .causes, .stats, .log, .hitch, .time, .sw, .stream, .ctl, .retain, .red, .wr, .can, .leg, .br] : List Part), p ∈ ps)
    (n : Nat) (err : Nat) (t : Task) (s : State)  (hk : Only ps u0 s) :
    Only ps u0 (commitEnded n err t s) := by
  unfold commitEnded
  repeat' first | with_reducible assumption | with_reducible exact sub_trans (by decide) hp | (intro _) | with_reducible apply only_ite
                | extract_lets | with_reducible apply taskFault_only | with_reducible apply varParity_only | with_reducible apply heldCommit_only
                | with_reducible apply setTask_only | with_reducible apply migTaken_only | with_reducible apply commitTask_only
                | with_reducible apply wrMeasure_only | with_reducible apply shadowCommit_only | with_reducible apply commitSingle_only
                | with_reducible apply offerOutput_only | with_reducible apply commitAlone_only | split
                | (refine only_mk _ ?_ (by intro p hq; cases p <;> first | exact absurd (hp _ (by decide)) hq | exact rfl)) | dsimp only

theorem commitHeld_only {ps : List Part} {u0 : State}
    (hp : ∀ p ∈ ([.out, .freeIdx, .node, .pwr, .host, .mem, .causes, .stats, .log, .hitch, .time, .sw, .stream, .ctl, .retain, .red, .wr, .can, .leg, .br] : List Part), p ∈ ps)
    (n : Nat) (t : Task) (s : State)  (hk : Only ps u0 s) :
    Only ps u0 (commitHeld n t s) := by
  unfold commitHeld
  repeat' first | with_reducible assumption | with_reducible exact sub_trans (by decide) hp | (intro _) | with_reducible apply only_ite
                | extract_lets | with_reducible apply offerOutput_only | with_reducible apply heldCommit_only | split | dsimp only

theorem overrun_only {ps : List Part} {u0 : State}
    (hp : ∀ p ∈ ([.out, .freeIdx, .node, .pwr, .host, .mem, .causes, .stats, .log, .hitch, .time, .sw, .stream, .ctl, .retain, .red, .wr, .can, .leg, .br] : List Part), p ∈ ps)
    (n : Nat) (t : Task) (s : State)  (hk : Only ps u0 s) :
    Only ps u0 (overrun n t s) := by
  unfold overrun
  repeat' first | with_reducible assumption | with_reducible exact sub_trans (by decide) hp | (intro _) | with_reducible apply only_ite
                | extract_lets | with_reducible apply logEvent_only | with_reducible apply count_only | with_reducible apply setTask_only
                | with_reducible apply commitHeld_only | with_reducible apply holdTask_only | with_reducible apply taskFault_only | split
                | (refine only_mk _ ?_ (by intro p hq; cases p <;> first | exact absurd (hp _ (by decide)) hq | exact rfl)) | dsimp only

theorem execCommit_only (task : Nat) (err : Nat) (canBad : Option (Nat × Nat)) (s : State) {s9 : State}
    (hk : execCommit task err canBad s = .next s9) : Only [.out, .freeIdx, .node, .pwr, .host, .mem, .causes, .stats, .log, .hitch, .time, .sw, .stream, .ctl, .retain, .red, .wr, .can, .leg, .br] s s9 := by
  unfold execCommit at hk
  cases hk
  repeat' first | with_reducible assumption | decide | (intro _) | with_reducible exact Only.rfl | with_reducible apply only_ite | extract_lets
                | with_reducible apply commitEnded_only | with_reducible apply commitHeld_only | with_reducible apply setTask_only
                | with_reducible apply overrun_only | with_reducible apply canBufParity_only | split
                | (refine only_mk _ ?_ (by intro p hp; cases p <;> first | exact absurd (by decide) hp | exact rfl)) | dsimp only

theorem execControlLockstepMismatch_only (pair : Nat) (s : State) {s9 : State}
    (hk : execControlLockstepMismatch pair s = .next s9) : Only [.out, .freeIdx, .node, .pwr, .host, .mem, .causes, .stats, .log, .hitch, .time, .sw, .stream, .ctl, .red, .wr, .can, .leg, .br] s s9 := by
  unfold execControlLockstepMismatch at hk
  cases hk
  repeat' first | with_reducible assumption | decide | (intro _) | with_reducible exact Only.rfl | with_reducible apply only_ite | extract_lets
                | with_reducible apply setPair_only | with_reducible apply raise_only | with_reducible apply logEvent_only
                | with_reducible apply count_only | with_reducible apply setTask_only | with_reducible apply holdTask_only
                | with_reducible apply retirePair_only | split
                | (refine only_mk _ ?_ (by intro p hp; cases p <;> first | exact absurd (by decide) hp | exact rfl)) | dsimp only

theorem execPairResyncDone_only (pair : Nat) (s : State) {s9 : State}
    (hk : execPairResyncDone pair s = .next s9) : Only [.out, .host, .mem, .causes, .stats, .log, .ctl] s s9 := by
  unfold execPairResyncDone at hk
  cases hk
  repeat' first | with_reducible assumption | decide | (intro _) | with_reducible exact Only.rfl | with_reducible apply only_ite | extract_lets
                | with_reducible apply setPair_only | with_reducible apply redoTask_only | with_reducible apply schedule_only | split
                | (refine only_mk _ ?_ (by intro p hp; cases p <;> first | exact absurd (by decide) hp | exact rfl)) | dsimp only

theorem redoOrHold_only {ps : List Part} {u0 : State} (hp : ∀ p ∈ ([.out, .host, .mem, .causes, .stats, .log, .ctl] : List Part), p ∈ ps) (n : Nat)
    (s : State)  (hk : Only ps u0 s) :
    Only ps u0 (redoOrHold n s) := by
  unfold redoOrHold
  repeat' first | with_reducible assumption | with_reducible exact sub_trans (by decide) hp | (intro _) | with_reducible apply only_ite
                | extract_lets | with_reducible apply redoTask_only | with_reducible apply holdTask_only | split
                | (refine only_mk _ ?_ (by intro p hq; cases p <;> first | exact absurd (hp _ (by decide)) hq | exact rfl)) | dsimp only

theorem execMemoryParityError_only (kind : Nat) (task : Nat) (addr : Nat) (s : State) {s9 : State}
    (hk : execMemoryParityError kind task addr s = .next s9) : Only [.out, .freeIdx, .host, .mem, .causes, .stats, .log, .sw, .ctl, .red] s s9 := by
  unfold execMemoryParityError at hk
  cases hk
  repeat' first | with_reducible assumption | decide | (intro _) | with_reducible exact Only.rfl | with_reducible apply only_ite | extract_lets
                | with_reducible apply releaseForces_only | with_reducible apply redoOrHold_only | with_reducible apply varParity_only
                | with_reducible apply logEvent_only | with_reducible apply count_only | with_reducible apply setTask_only
                | with_reducible apply schedule_only | split
                | (refine only_mk _ ?_ (by intro p hp; cases p <;> first | exact absurd (by decide) hp | exact rfl)) | dsimp only

theorem execPageReloadDone_only (task : Nat) (ok : Bool) (s : State) {s9 : State}
    (hk : execPageReloadDone task ok s = .next s9) : Only [.out, .freeIdx, .node, .pwr, .host, .mem, .causes, .stats, .log, .hitch, .time, .sw, .stream, .ctl, .red, .wr, .can, .leg, .br] s s9 := by
  unfold execPageReloadDone at hk
  cases hk
  repeat' first | with_reducible assumption | decide | (intro _) | with_reducible exact Only.rfl | with_reducible apply only_ite | extract_lets
                | with_reducible apply taskFault_only | with_reducible apply count_only | with_reducible apply redoOrHold_only | split
                | (refine only_mk _ ?_ (by intro p hp; cases p <;> first | exact absurd (by decide) hp | exact rfl)) | dsimp only

theorem retainDie_only {ps : List Part} {u0 : State}
    (hp : ∀ p ∈ ([.out, .freeIdx, .node, .host, .causes, .stats, .log, .sw, .retain, .red] : List Part), p ∈ ps) (n : Nat) (k : Nat) (b : List Byte)
    (die : Nat) (ok : Bool) (s : State)  (hk : Only ps u0 s) :
    Only ps u0 (retainDie n k b die ok s) := by
  unfold retainDie
  repeat' first | with_reducible assumption | with_reducible exact sub_trans (by decide) hp | (intro _) | with_reducible apply only_ite
                | extract_lets | with_reducible apply setRetain_only | with_reducible apply retainFault_only | with_reducible apply setResource_only
                | with_reducible apply degradeDie_only | split | dsimp only

theorem execRetainWriteDone_only (task : Nat) (ok0 : Bool) (ok1 : Bool) (s : State) {s9 : State}
    (hk : execRetainWriteDone task ok0 ok1 s = .next s9) : Only [.out, .freeIdx, .node, .host, .causes, .stats, .log, .sw, .ctl, .retain, .red] s s9 := by
  unfold execRetainWriteDone at hk
  cases hk
  repeat' first | with_reducible assumption | decide | (intro _) | with_reducible exact Only.rfl | with_reducible apply only_ite | extract_lets
                | with_reducible apply retainDie_only | with_reducible apply setTask_only | with_reducible apply count_only
                | with_reducible apply retainDead_only | split
                | (refine only_mk _ ?_ (by intro p hp; cases p <;> first | exact absurd (by decide) hp | exact rfl)) | dsimp only

theorem execStartWaitExpiry_only (s : State) {s9 : State} (hk : execStartWaitExpiry s = .next s9) : Only [.ctl] s s9 := by
  unfold execStartWaitExpiry at hk
  cases hk
  repeat' first | with_reducible assumption | decide | (intro _) | with_reducible exact Only.rfl | with_reducible apply only_ite | extract_lets
                | with_reducible apply startNow_only | split | dsimp only

theorem execControlStart_only (s : State) {s9 : State}
    (hk : execControlStart s = .next s9) : Only [.out, .freeIdx, .node, .host, .mem, .causes, .stats, .log, .hitch, .time, .sw, .stream, .ctl, .retain, .red, .wr, .can, .leg] s s9 := by
  unfold execControlStart at hk
  cases hk
  repeat' first | with_reducible assumption | decide | (intro _) | with_reducible exact Only.rfl | with_reducible apply only_ite | extract_lets
                | with_reducible apply wrCheck_only | with_reducible apply controlStart_only | split
                | (refine only_mk _ ?_ (by intro p hp; cases p <;> first | exact absurd (by decide) hp | exact rfl)) | dsimp only

theorem execTaskList_only (c : Acs) (s : State) {s9 : State} (hk : execTaskList c s = .next s9) : Only [.out, .host, .mem, .causes, .stats] s s9 := by
  unfold execTaskList at hk
  cases hk
  repeat' first | with_reducible assumption | decide | (intro _) | with_reducible exact Only.rfl | extract_lets | with_reducible apply acsLen_only
                | with_reducible apply done_only | dsimp only

theorem effTaskStart_only {ps : List Part} {u0 : State}
    (hp : ∀ p ∈ ([.out, .freeIdx, .node, .host, .mem, .causes, .stats, .log, .hitch, .time, .sw, .stream, .ctl, .retain, .red, .wr, .can, .leg] : List Part), p ∈ ps)
    (a : List Byte) (r : Option AcsRef) (s : State)  (hk : Only ps u0 s) :
    Only ps u0 (effTaskStart a r s) := by
  unfold effTaskStart
  repeat' first | with_reducible assumption | with_reducible exact sub_trans (by decide) hp | (intro _) | with_reducible apply only_ite
                | extract_lets | with_reducible apply finish_only | with_reducible apply wrCheck_only | with_reducible apply controlStart_only
                | split | (refine only_mk _ ?_ (by intro p hq; cases p <;> first | exact absurd (hp _ (by decide)) hq | exact rfl)) | dsimp only

theorem execTaskStart_only (c : Acs) (s : State) {s9 : State}
    (hk : execTaskStart c s = .next s9) : Only [.out, .freeIdx, .node, .host, .mem, .causes, .stats, .log, .hitch, .time, .sw, .stream, .ctl, .retain, .red, .wr, .can, .leg] s s9 := by
  unfold execTaskStart at hk
  cases hk
  repeat' first | with_reducible assumption | decide | (intro _) | with_reducible exact Only.rfl | with_reducible apply only_ite | extract_lets
                | with_reducible apply acsLen_only | with_reducible apply badArgIf_only | with_reducible apply nodeWide_only
                | with_reducible apply effTaskStart_only | split | dsimp only

theorem effTaskStop_only {ps : List Part} {u0 : State}
    (hp : ∀ p ∈ ([.out, .freeIdx, .pwr, .host, .mem, .causes, .stats, .log, .hitch, .time, .sw, .stream, .ctl, .red, .wr, .can, .leg] : List Part), p ∈ ps)
    (a : List Byte) (r : Option AcsRef) (s : State)  (hk : Only ps u0 s) :
    Only ps u0 (effTaskStop a r s) := by
  unfold effTaskStop
  repeat' first | with_reducible assumption | with_reducible exact sub_trans (by decide) hp | (intro _) | with_reducible apply only_ite
                | extract_lets | with_reducible apply finish_only | with_reducible apply stopTask_only | with_reducible apply abortOut_only | split
                | (refine only_mk _ ?_ (by intro p hq; cases p <;> first | exact absurd (hp _ (by decide)) hq | exact rfl)) | dsimp only

theorem execTaskStop_only (c : Acs) (s : State) {s9 : State}
    (hk : execTaskStop c s = .next s9) : Only [.out, .freeIdx, .pwr, .host, .mem, .causes, .stats, .log, .hitch, .time, .sw, .stream, .ctl, .red, .wr, .can, .leg] s s9 := by
  unfold execTaskStop at hk
  cases hk
  repeat' first | with_reducible assumption | decide | (intro _) | with_reducible exact Only.rfl | with_reducible apply only_ite | extract_lets
                | with_reducible apply acsLen_only | with_reducible apply badArgIf_only | with_reducible apply nodeWide_only
                | with_reducible apply effTaskStop_only | split | dsimp only

theorem effTaskResume_only {ps : List Part} {u0 : State}
    (hp : ∀ p ∈ ([.out, .freeIdx, .host, .mem, .causes, .stats, .log, .hitch, .time, .sw, .stream, .ctl, .red, .leg] : List Part), p ∈ ps)
    (a : List Byte) (r : Option AcsRef) (s : State)  (hk : Only ps u0 s) :
    Only ps u0 (effTaskResume a r s) := by
  unfold effTaskResume
  repeat' first | with_reducible assumption | with_reducible exact sub_trans (by decide) hp | (intro _) | with_reducible apply only_ite
                | extract_lets | with_reducible apply finish_only | with_reducible apply setTask_only | with_reducible apply enablePubs_only
                | with_reducible apply assignPair_only | split
                | (refine only_mk _ ?_ (by intro p hq; cases p <;> first | exact absurd (hp _ (by decide)) hq | exact rfl)) | dsimp only

theorem execTaskResume_only (c : Acs) (s : State) {s9 : State}
    (hk : execTaskResume c s = .next s9) : Only [.out, .freeIdx, .host, .mem, .causes, .stats, .log, .hitch, .time, .sw, .stream, .ctl, .red, .leg] s s9 := by
  unfold execTaskResume at hk
  cases hk
  repeat' first | with_reducible assumption | decide | (intro _) | with_reducible exact Only.rfl | with_reducible apply only_ite | extract_lets
                | with_reducible apply acsLen_only | with_reducible apply badArgIf_only | with_reducible apply nodeWide_only
                | with_reducible apply effTaskResume_only | split | dsimp only

theorem effTaskSwap_only {ps : List Part} {u0 : State} (hp : ∀ p ∈ ([.out, .host, .mem, .causes, .stats, .ctl, .red] : List Part), p ∈ ps)
    (a : List Byte) (r : Option AcsRef) (s : State)  (hk : Only ps u0 s) :
    Only ps u0 (effTaskSwap a r s) := by
  unfold effTaskSwap
  repeat' first | with_reducible assumption | with_reducible exact sub_trans (by decide) hp | (intro _) | with_reducible apply only_ite
                | extract_lets | with_reducible apply finish_only | split
                | (refine only_mk _ ?_ (by intro p hq; cases p <;> first | exact absurd (hp _ (by decide)) hq | exact rfl)) | dsimp only

theorem sendStage_only {ps : List Part} {u0 : State} (hp : ∀ p ∈ ([.out, .host, .causes, .stats, .red] : List Part), p ∈ ps) (s : State) 
    (hk : Only ps u0 s) :
    Only ps u0 (sendStage s) := by
  unfold sendStage
  repeat' first | with_reducible assumption | with_reducible exact sub_trans (by decide) hp | (intro _) | with_reducible apply only_ite
                | extract_lets | with_reducible apply tugAll_only | with_reducible apply only_foldl | split | dsimp only

theorem execTaskSwap_only (c : Acs) (s : State) {s9 : State}
    (hk : execTaskSwap c s = .next s9) : Only [.out, .host, .mem, .causes, .stats, .ctl, .red] s s9 := by
  unfold execTaskSwap at hk
  cases hk
  repeat' first | with_reducible assumption | decide | (intro _) | with_reducible exact Only.rfl | with_reducible apply only_ite | extract_lets
                | with_reducible apply acsLen_only | with_reducible apply badArgIf_only | with_reducible apply nodeWide_only
                | with_reducible apply effTaskSwap_only | with_reducible apply sendStage_only | split | dsimp only

theorem stageChunk_only {ps : List Part} {u0 : State} (hp : ∀ p ∈ ([.ctl] : List Part), p ∈ ps) (off : Nat) (total : Nat) (chunk : List Byte)
    (s : State)  (hk : Only ps u0 s) :
    Only ps u0 (stageChunk off total chunk s) := by
  unfold stageChunk
  repeat' first | with_reducible assumption | (intro _) | with_reducible apply only_ite | extract_lets | split
                | (refine only_mk _ ?_ (by intro p hq; cases p <;> first | exact absurd (hp _ (by decide)) hq | exact rfl)) | dsimp only

theorem execTaskStage_only (c : Acs) (s : State) {s9 : State}
    (hk : execTaskStage c s = .next s9) : Only [.out, .host, .mem, .causes, .stats, .ctl] s s9 := by
  unfold execTaskStage at hk
  cases hk
  repeat' first | with_reducible assumption | decide | (intro _) | with_reducible exact Only.rfl | with_reducible apply only_ite | extract_lets
                | with_reducible apply acs_only | with_reducible apply done_only | with_reducible apply badArgIf_only
                | with_reducible apply stageChunk_only | split | dsimp only

theorem effForceSet_only {ps : List Part} {u0 : State}
    (hp : ∀ p ∈ ([.out, .freeIdx, .host, .mem, .causes, .stats, .log, .sw, .ctl, .red] : List Part), p ∈ ps) (a : List Byte) (r : Option AcsRef)
    (s : State)  (hk : Only ps u0 s) :
    Only ps u0 (effForceSet a r s) := by
  unfold effForceSet
  repeat' first | with_reducible assumption | with_reducible exact sub_trans (by decide) hp | (intro _) | with_reducible apply only_ite
                | extract_lets | with_reducible apply finish_only | with_reducible apply dueForces_only | split
                | (refine only_mk _ ?_ (by intro p hq; cases p <;> first | exact absurd (hp _ (by decide)) hq | exact rfl)) | dsimp only

theorem execForceSet_only (c : Acs) (s : State) {s9 : State}
    (hk : execForceSet c s = .next s9) : Only [.out, .freeIdx, .host, .mem, .causes, .stats, .log, .sw, .ctl, .red] s s9 := by
  unfold execForceSet at hk
  cases hk
  repeat' first | with_reducible assumption | decide | (intro _) | with_reducible exact Only.rfl | with_reducible apply only_ite | extract_lets
                | with_reducible apply acsLen_only | with_reducible apply done_only | with_reducible apply nodeWide_only
                | with_reducible apply effForceSet_only | split | dsimp only

theorem effForceRelease_only {ps : List Part} {u0 : State}
    (hp : ∀ p ∈ ([.out, .freeIdx, .host, .mem, .causes, .stats, .log, .sw, .ctl, .red] : List Part), p ∈ ps) (a : List Byte) (r : Option AcsRef)
    (s : State)  (hk : Only ps u0 s) :
    Only ps u0 (effForceRelease a r s) := by
  unfold effForceRelease
  repeat' first | with_reducible assumption | with_reducible exact sub_trans (by decide) hp | (intro _) | with_reducible apply only_ite
                | extract_lets | with_reducible apply finish_only | with_reducible apply dueForces_only | split
                | (refine only_mk _ ?_ (by intro p hq; cases p <;> first | exact absurd (hp _ (by decide)) hq | exact rfl)) | dsimp only

theorem execForceRelease_only (c : Acs) (s : State) {s9 : State}
    (hk : execForceRelease c s = .next s9) : Only [.out, .freeIdx, .host, .mem, .causes, .stats, .log, .sw, .ctl, .red] s s9 := by
  unfold execForceRelease at hk
  cases hk
  repeat' first | with_reducible assumption | decide | (intro _) | with_reducible exact Only.rfl | extract_lets | with_reducible apply acsLen_only
                | with_reducible apply badArgIf_only | with_reducible apply nodeWide_only | with_reducible apply effForceRelease_only | dsimp only

theorem execForceList_only (c : Acs) (s : State) {s9 : State}
    (hk : execForceList c s = .next s9) : Only [.out, .host, .mem, .causes, .stats] s s9 := by
  unfold execForceList at hk
  cases hk
  repeat' first | with_reducible assumption | decide | (intro _) | with_reducible exact Only.rfl | extract_lets | with_reducible apply acsLen_only
                | with_reducible apply badArgIf_only | with_reducible apply done_only | dsimp only

theorem effForceReleaseAll_only {ps : List Part} {u0 : State}
    (hp : ∀ p ∈ ([.out, .freeIdx, .host, .mem, .causes, .stats, .log, .sw, .ctl, .red] : List Part), p ∈ ps) (a0 : List Byte) (r : Option AcsRef)
    (s : State)  (hk : Only ps u0 s) :
    Only ps u0 (effForceReleaseAll a0 r s) := by
  unfold effForceReleaseAll
  repeat' first | with_reducible assumption | with_reducible exact sub_trans (by decide) hp | (intro _) | extract_lets
                | with_reducible apply releaseForces_only | with_reducible apply finish_only
                | (refine only_mk _ ?_ (by intro p hq; cases p <;> first | exact absurd (hp _ (by decide)) hq | exact rfl)) | dsimp only

theorem execForceReleaseAll_only (c : Acs) (s : State) {s9 : State}
    (hk : execForceReleaseAll c s = .next s9) : Only [.out, .freeIdx, .host, .mem, .causes, .stats, .log, .sw, .ctl, .red] s s9 := by
  unfold execForceReleaseAll at hk
  cases hk
  repeat' first | with_reducible assumption | decide | (intro _) | with_reducible exact Only.rfl | extract_lets | with_reducible apply acsLen_only
                | with_reducible apply nodeWide_only | with_reducible apply effForceReleaseAll_only | dsimp only

end Sys2Proof.Machine
end

