-- ==== Sys2Proof/Laws/OnlyHost.lean ====
section
/-! SUPPORT. The parts of the state that every operation of Machine/Host.lean may change, said once for each: all others are left alone (Only of
Safety.lean). -/
set_option Elab.async false
set_option linter.all false
namespace Sys2Proof.Machine
theorem execBatchSubmit_only (m : Nat) (count : Nat) (seq : Half) (s : State) {s9 : State}
    (hk : execBatchSubmit m count seq s = .next s9) : Only [.out, .freeIdx, .node, .pwr, .host, .mem, .causes, .stats, .log, .hitch, .time, .sw, .stream, .ctl, .retain, .red, .wr, .can, .leg, .br] s s9 := by
  unfold execBatchSubmit at hk
  cases hk
  repeat' first | with_reducible assumption | decide | (intro _) | with_reducible exact Only.rfl | with_reducible apply only_ite | extract_lets
                | with_reducible apply submit_only | with_reducible apply count_only | split | dsimp only

theorem execBatchAbort_only (m : Nat) (s : State) {s9 : State}
    (hk : execBatchAbort m s = .next s9) : Only [.out, .host, .mem, .causes, .stats, .hitch, .br] s s9 := by
  unfold execBatchAbort at hk
  cases hk
  repeat' first | with_reducible assumption | decide | (intro _) | with_reducible exact Only.rfl | with_reducible apply only_ite | extract_lets
                | with_reducible apply abortBox_only | split | dsimp only

theorem execBatchComplete_only (m : Nat) (s : State) {s9 : State}
    (hk : execBatchComplete m s = .next s9) : Only [.out, .host, .mem, .causes, .stats] s s9 := by
  unfold execBatchComplete at hk
  cases hk
  repeat' first | with_reducible assumption | decide | (intro _) | with_reducible exact Only.rfl | with_reducible apply only_ite | extract_lets
                | with_reducible apply endUnknown_only | with_reducible apply endBatch_only | split | dsimp only

theorem execMbxRequestWrite_only (m : Nat) (off : Nat) (data : List Byte) (s : State) {s9 : State}
    (hk : execMbxRequestWrite m off data s = .next s9) : Only [.out, .freeIdx, .node, .pwr, .host, .mem, .causes, .stats, .log, .hitch, .time, .sw, .stream, .ctl, .retain, .red, .wr, .can, .leg, .br] s s9 := by
  unfold execMbxRequestWrite at hk
  cases hk
  repeat' first | with_reducible assumption | decide | (intro _) | with_reducible exact Only.rfl | with_reducible apply only_ite | extract_lets
                | with_reducible apply requestWrite_only | split | dsimp only

theorem execCauseClear_only (off : Nat) (value : Word) (s : State) {s9 : State}
    (hk : execCauseClear off value s = .next s9) : Only [.out, .freeIdx, .node, .pwr, .host, .mem, .causes, .stats, .log, .hitch, .time, .sw, .stream, .ctl, .retain, .red, .wr, .can, .leg, .br] s s9 := by
  unfold execCauseClear at hk
  cases hk
  repeat' first | with_reducible assumption | decide | (intro _) | with_reducible exact Only.rfl | with_reducible apply only_ite | extract_lets
                | with_reducible apply causeWrite_only | split | dsimp only

theorem execMsixVectorUnmask_only (v : Nat) (s : State) {s9 : State}
    (hk : execMsixVectorUnmask v s = .next s9) : Only [.out, .host, .stats] s s9 := by
  unfold execMsixVectorUnmask at hk
  cases hk
  repeat' first | with_reducible assumption | decide | (intro _) | with_reducible exact Only.rfl | with_reducible apply only_ite | extract_lets
                | with_reducible apply unmask_only | split | dsimp only

theorem execUnsupportedAccess_only (s : State) {s9 : State} (hk : execUnsupportedAccess s = .next s9) : Only [.out, .host, .causes, .stats] s s9 := by
  unfold execUnsupportedAccess at hk
  cases hk
  repeat' first | with_reducible assumption | decide | (intro _) | with_reducible exact Only.rfl | with_reducible apply only_ite | extract_lets
                | with_reducible apply count_only | split | dsimp only

theorem execHostWatchWrite_only (value : Word) (s : State) {s9 : State} (hk : execHostWatchWrite value s = .next s9) : Only [.host] s s9 := by
  unfold execHostWatchWrite at hk
  cases hk
  repeat' first | with_reducible assumption | decide | (intro _) | with_reducible exact Only.rfl | with_reducible apply only_ite | extract_lets
                | with_reducible apply hostWatch_only | split | dsimp only

theorem execHostWatchExpiry_only (s : State) {s9 : State}
    (hk : execHostWatchExpiry s = .next s9) : Only [.out, .freeIdx, .host, .mem, .causes, .stats, .log, .hitch, .sw, .rx, .tx, .red, .br] s s9 := by
  unfold execHostWatchExpiry at hk
  cases hk
  repeat' first | with_reducible assumption | decide | (intro _) | with_reducible exact Only.rfl | with_reducible apply only_ite | extract_lets
                | with_reducible apply abortAll_only | with_reducible apply stopRings_only | with_reducible apply raise_only
                | with_reducible apply logEvent_only | with_reducible apply count_only | split
                | (refine only_mk _ ?_ (by intro p hp; cases p <;> first | exact absurd (by decide) hp | exact rfl)) | dsimp only

theorem execPcieReset_only (kind : Nat) (s : State) {s9 : State}
    (hk : execPcieReset kind s = .next s9) : Only [.out, .freeIdx, .host, .mem, .causes, .stats, .log, .hitch, .sw, .rx, .tx, .red, .br] s s9 := by
  unfold execPcieReset at hk
  cases hk
  repeat' first | with_reducible assumption | decide | (intro _) | with_reducible exact Only.rfl | with_reducible apply only_ite | extract_lets
                | with_reducible apply hostGone_only | with_reducible apply hostLink_only | with_reducible apply count_only
                | with_reducible apply settleDma_only | split
                | (refine only_mk _ ?_ (by intro p hp; cases p <;> first | exact absurd (by decide) hp | exact rfl)) | dsimp only

theorem execPcieLinkUp_only (speed : Nat) (width : Nat) (s : State) {s9 : State}
    (hk : execPcieLinkUp speed width s = .next s9) : Only [.out, .freeIdx, .host, .causes, .stats, .log, .sw, .rx, .tx, .red] s s9 := by
  unfold execPcieLinkUp at hk
  cases hk
  repeat' first | with_reducible assumption | decide | (intro _) | with_reducible exact Only.rfl | with_reducible apply only_ite | extract_lets
                | with_reducible apply settleDma_only | with_reducible apply hostLink_only | split
                | (refine only_mk _ ?_ (by intro p hp; cases p <;> first | exact absurd (by decide) hp | exact rfl)) | dsimp only

theorem execBusMasteringChange_only (on : Bool) (s : State) {s9 : State}
    (hk : execBusMasteringChange on s = .next s9) : Only [.host, .rx, .tx] s s9 := by
  unfold execBusMasteringChange at hk
  cases hk
  repeat' first | with_reducible assumption | decide | (intro _) | with_reducible exact Only.rfl | with_reducible apply only_ite | extract_lets
                | with_reducible apply settleDma_only | split
                | (refine only_mk _ ?_ (by intro p hp; cases p <;> first | exact absurd (by decide) hp | exact rfl)) | dsimp only

theorem execSysIdentify_only (c : Acs) (s : State) {s9 : State}
    (hk : execSysIdentify c s = .next s9) : Only [.out, .host, .mem, .causes, .stats] s s9 := by
  unfold execSysIdentify at hk
  cases hk
  repeat' first | with_reducible assumption | decide | (intro _) | with_reducible exact Only.rfl | with_reducible apply only_ite | extract_lets
                | with_reducible apply acsLen_only | with_reducible apply done_only | split
                | (refine only_mk _ ?_ (by intro p hp; cases p <;> first | exact absurd (by decide) hp | exact rfl)) | dsimp only

theorem execSysState_only (c : Acs) (s : State) {s9 : State} (hk : execSysState c s = .next s9) : Only [.out, .host, .mem, .causes, .stats] s s9 := by
  unfold execSysState at hk
  cases hk
  repeat' first | with_reducible assumption | decide | (intro _) | with_reducible exact Only.rfl | extract_lets | with_reducible apply acsLen_only
                | with_reducible apply done_only | dsimp only

theorem execSysFence_only (c : Acs) (s : State) {s9 : State} (hk : execSysFence c s = .next s9) : Only [.out, .host, .mem, .causes, .stats] s s9 := by
  unfold execSysFence at hk
  cases hk
  repeat' first | with_reducible assumption | decide | (intro _) | with_reducible exact Only.rfl | with_reducible apply only_ite | extract_lets
                | with_reducible apply acsLen_only | with_reducible apply badArgIf_only | with_reducible apply releaseFences_only | split
                | (refine only_mk _ ?_ (by intro p hp; cases p <;> first | exact absurd (by decide) hp | exact rfl)) | dsimp only

end Sys2Proof.Machine
end

