-- ==== Sys2Proof/Laws/OnlyLegacy.lean ====
section
/-! SUPPORT. The parts of the state that every operation of Machine/Legacy.lean may change, said once for each: all others are left alone (Only of
Safety.lean). -/
set_option Elab.async false
set_option linter.all false
namespace Sys2Proof.Machine
theorem answerPort_only {ps : List Part} {u0 : State} (hp : ∀ p ∈ ([.out, .host, .causes, .stats] : List Part), p ∈ ps) (u : Nat) (addr : Nat)
    (s : State)  (hk : Only ps u0 s) :
    Only ps u0 (answerPort u addr s) := by
  unfold answerPort
  repeat' first | with_reducible assumption | with_reducible exact sub_trans (by decide) hp | (intro _) | with_reducible apply only_ite
                | extract_lets | with_reducible apply legSlave_only | split
                | (refine only_mk _ ?_ (by intro p hq; cases p <;> first | exact absurd (hp _ (by decide)) hq | exact rfl)) | dsimp only

theorem pollOne_only {ps : List Part} {u0 : State} (hp : ∀ p ∈ ([.out, .host, .causes, .stats, .leg] : List Part), p ∈ ps) (u : Nat) (s : State)
    (e : Nat)  (hk : Only ps u0 s) :
    Only ps u0 (pollOne u s e) := by
  unfold pollOne
  repeat' first | with_reducible assumption | with_reducible exact sub_trans (by decide) hp | (intro _) | with_reducible apply only_ite
                | extract_lets | with_reducible apply legMaster_only | with_reducible apply answerPort_only | with_reducible apply setLeg_only
                | split | (refine only_mk _ ?_ (by intro p hq; cases p <;> first | exact absurd (hp _ (by decide)) hq | exact rfl)) | dsimp only

theorem execMvbBasicPeriod_only (unit : Nat) (events : List Nat) (err : Bool) (s : State) {s9 : State}
    (hk : execMvbBasicPeriod unit events err s = .next s9) : Only [.out, .freeIdx, .host, .causes, .stats, .log, .sw, .red, .leg] s s9 := by
  unfold execMvbBasicPeriod at hk
  cases hk
  repeat' first | with_reducible assumption | decide | (intro _) | with_reducible exact Only.rfl | with_reducible apply only_ite | extract_lets
                | with_reducible apply legReload_only | with_reducible apply pollOne_only | with_reducible apply setLeg_only
                | with_reducible apply legMaster_only | with_reducible apply sendMessage_only | with_reducible apply only_foldl | split
                | (refine only_mk _ ?_ (by intro p hp; cases p <;> first | exact absurd (by decide) hp | exact rfl)) | dsimp only

theorem execMvbMasterFrameReceive_only (unit : Nat) (m : MvbMaster) (a : LineRx) (b : LineRx) (s : State) {s9 : State}
    (hk : execMvbMasterFrameReceive unit m a b s = .next s9) : Only [.out, .freeIdx, .host, .causes, .stats, .log, .sw, .red, .leg] s s9 := by
  unfold execMvbMasterFrameReceive at hk
  cases hk
  repeat' first | with_reducible assumption | decide | (intro _) | with_reducible exact Only.rfl | with_reducible apply only_ite | extract_lets
                | with_reducible apply legLines_only | with_reducible apply loseMaster_only | with_reducible apply answerPort_only
                | with_reducible apply legSlave_only | with_reducible apply sendMessage_only | with_reducible apply useFree_only
                | with_reducible apply takeMaster_only | split
                | (refine only_mk _ ?_ (by intro p hp; cases p <;> first | exact absurd (by decide) hp | exact rfl)) | dsimp only

theorem execMvbSlaveFrameReceive_only (unit : Nat) (f : MvbSlave) (a : LineRx) (b : LineRx) (err : Nat) (s : State) {s9 : State}
    (hk : execMvbSlaveFrameReceive unit f a b err s = .next s9) : Only [.out, .freeIdx, .host, .causes, .stats, .log, .time, .sw, .rx, .tx, .red, .leg, .br] s s9 := by
  unfold execMvbSlaveFrameReceive at hk
  cases hk
  repeat' first | with_reducible assumption | decide | (intro _) | with_reducible exact Only.rfl | with_reducible apply only_ite | extract_lets
                | with_reducible apply legReload_only | with_reducible apply legParity_only | with_reducible apply setPort_only
                | with_reducible apply legLines_only | with_reducible apply setLeg_only | with_reducible apply legCapture_only
                | with_reducible apply exportPort_only | with_reducible apply takeMessage_only | split
                | (refine only_mk _ ?_ (by intro p hp; cases p <;> first | exact absurd (by decide) hp | exact rfl)) | dsimp only

theorem execMvbReplyTimeout_only (unit : Nat) (addr : Nat) (s : State) {s9 : State}
    (hk : execMvbReplyTimeout unit addr s = .next s9) : Only [.out, .host, .causes, .stats, .leg] s s9 := by
  unfold execMvbReplyTimeout at hk
  cases hk
  repeat' first | with_reducible assumption | decide | (intro _) | with_reducible exact Only.rfl | with_reducible apply only_ite | extract_lets
                | with_reducible apply count_only | with_reducible apply setLeg_only | split
                | (refine only_mk _ ?_ (by intro p hp; cases p <;> first | exact absurd (by decide) hp | exact rfl)) | dsimp only

theorem execBaSilenceExpiry_only (unit : Nat) (s : State) {s9 : State}
    (hk : execBaSilenceExpiry unit s = .next s9) : Only [.out, .freeIdx, .host, .causes, .stats, .log, .sw, .red, .leg] s s9 := by
  unfold execBaSilenceExpiry at hk
  cases hk
  repeat' first | with_reducible assumption | decide | (intro _) | with_reducible exact Only.rfl | with_reducible apply only_ite | extract_lets
                | with_reducible apply takeMaster_only | split | dsimp only

theorem execMastershipTurnEnd_only (unit : Nat) (s : State) {s9 : State}
    (hk : execMastershipTurnEnd unit s = .next s9) : Only [.out, .freeIdx, .host, .causes, .stats, .log, .sw, .red, .leg] s s9 := by
  unfold execMastershipTurnEnd at hk
  cases hk
  repeat' first | with_reducible assumption | decide | (intro _) | with_reducible exact Only.rfl | with_reducible apply only_ite | extract_lets
                | with_reducible apply loseMaster_only | with_reducible apply legMaster_only | split | dsimp only

theorem execLineDisturbRestore_only (unit : Nat) (line : Line) (s : State) {s9 : State}
    (hk : execLineDisturbRestore unit line s = .next s9) : Only [.out, .freeIdx, .host, .causes, .stats, .log, .sw, .red, .leg] s s9 := by
  unfold execLineDisturbRestore at hk
  cases hk
  repeat' first | with_reducible assumption | decide | (intro _) | with_reducible exact Only.rfl | with_reducible apply only_ite | extract_lets
                | with_reducible apply lineSaid_only | with_reducible apply setLeg_only | split
                | (refine only_mk _ ?_ (by intro p hp; cases p <;> first | exact absurd (by decide) hp | exact rfl)) | dsimp only

theorem wtbAnswer_only {ps : List Part} {u0 : State} (hp : ∀ p ∈ ([.out, .host, .causes, .stats] : List Part), p ∈ ps) (s : State) 
    (hk : Only ps u0 s) :
    Only ps u0 (wtbAnswer s) := by
  unfold wtbAnswer
  repeat' first | with_reducible assumption | with_reducible exact sub_trans (by decide) hp | (intro _) | with_reducible apply only_ite
                | extract_lets | with_reducible apply legSlave_only | split
                | (refine only_mk _ ?_ (by intro p hq; cases p <;> first | exact absurd (hp _ (by decide)) hq | exact rfl)) | dsimp only

theorem execWtbFrameReceive_only (f : WtbFrame) (a : LineRx) (b : LineRx) (s : State) {s9 : State}
    (hk : execWtbFrameReceive f a b s = .next s9) : Only [.out, .freeIdx, .host, .causes, .stats, .log, .time, .sw, .rx, .tx, .red, .leg, .br] s s9 := by
  unfold execWtbFrameReceive at hk
  cases hk
  repeat' first | with_reducible assumption | decide | (intro _) | with_reducible exact Only.rfl | with_reducible apply only_ite | extract_lets
                | with_reducible apply legLines_only | with_reducible apply legCapture_only | with_reducible apply exportPort_only
                | with_reducible apply sendMessage_only | with_reducible apply wtbAnswer_only | with_reducible apply takeMessage_only
                | with_reducible apply useFree_only | with_reducible apply legSlave_only | split
                | (refine only_mk _ ?_ (by intro p hp; cases p <;> first | exact absurd (by decide) hp | exact rfl)) | dsimp only

theorem execWtbIndividualPeriod_only (s : State) {s9 : State}
    (hk : execWtbIndividualPeriod s = .next s9) : Only [.out, .host, .causes, .stats, .leg] s s9 := by
  unfold execWtbIndividualPeriod at hk
  cases hk
  repeat' first | with_reducible assumption | decide | (intro _) | with_reducible exact Only.rfl | with_reducible apply only_ite | extract_lets
                | with_reducible apply legSlave_only | with_reducible apply sendMessage_only | with_reducible apply wtbAnswer_only
                | with_reducible apply only_foldl | split | dsimp only

theorem execWtbInaugurated_only (comp : List WtbNode) (own : Nat) (master : Nat) (endA : Bool) (endB : Bool) (s : State) {s9 : State}
    (hk : execWtbInaugurated comp own master endA endB s = .next s9) : Only [.out, .freeIdx, .host, .causes, .stats, .log, .sw, .red, .leg] s s9 := by
  unfold execWtbInaugurated at hk
  cases hk
  repeat' first | with_reducible assumption | decide | (intro _) | with_reducible exact Only.rfl | with_reducible apply only_ite | extract_lets
                | with_reducible apply setLeg_only | with_reducible apply wtbEnds_only | with_reducible apply raise_only
                | with_reducible apply logEvent_only | with_reducible apply count_only | split
                | (refine only_mk _ ?_ (by intro p hp; cases p <;> first | exact absurd (by decide) hp | exact rfl)) | dsimp only

theorem execLegacyReloadDone_only (unit : Nat) (s : State) {s9 : State} (hk : execLegacyReloadDone unit s = .next s9) : Only [.leg] s s9 := by
  unfold execLegacyReloadDone at hk
  cases hk
  repeat' first | with_reducible assumption | decide | (intro _) | with_reducible exact Only.rfl | extract_lets | with_reducible apply setLeg_only
                | (refine only_mk _ ?_ (by intro p hp; cases p <;> first | exact absurd (by decide) hp | exact rfl)) | dsimp only

theorem execLegacyStatus_only (c : Acs) (s : State) {s9 : State}
    (hk : execLegacyStatus c s = .next s9) : Only [.out, .host, .mem, .causes, .stats] s s9 := by
  unfold execLegacyStatus at hk
  cases hk
  repeat' first | with_reducible assumption | decide | (intro _) | with_reducible exact Only.rfl | with_reducible apply only_ite | extract_lets
                | with_reducible apply acsLen_only | with_reducible apply badArgIf_only | with_reducible apply done_only | split | dsimp only

theorem onPort_only {ps : List Part} {u0 : State} (hp : ∀ p ∈ ([.out, .host, .mem, .causes, .stats] : List Part), p ∈ ps) (c : Acs) (opcode : Nat)
    (body : List Byte → State → State) (s : State) (h_body : ∀ (x0 : List Byte) (s9 : State), Only ps u0 s9 → Only ps u0 (body x0 s9))
    (hk : Only ps u0 s) :
    Only ps u0 (onPort c opcode body s) := by
  unfold onPort
  repeat' first | with_reducible assumption | with_reducible exact sub_trans (by decide) hp | (intro _) | with_reducible apply only_ite
                | extract_lets | apply h_body | with_reducible apply done_only | split
                | (refine only_mk _ ?_ (by intro p hq; cases p <;> first | exact absurd (hp _ (by decide)) hq | exact rfl)) | dsimp only

theorem execLegacyPortRead_only (c : Acs) (s : State) {s9 : State}
    (hk : execLegacyPortRead c s = .next s9) : Only [.out, .host, .mem, .causes, .stats] s s9 := by
  unfold execLegacyPortRead at hk
  cases hk
  repeat' first | with_reducible assumption | decide | (intro _) | with_reducible exact Only.rfl | extract_lets | with_reducible apply acsLen_only
                | with_reducible apply onPort_only | with_reducible apply done_only | dsimp only

theorem effLegacyPortWrite_only {ps : List Part} {u0 : State} (hp : ∀ p ∈ ([.out, .host, .mem, .causes, .stats, .red, .leg] : List Part), p ∈ ps)
    (a : List Byte) (r : Option AcsRef) (s : State)  (hk : Only ps u0 s) :
    Only ps u0 (effLegacyPortWrite a r s) := by
  unfold effLegacyPortWrite
  repeat' first | with_reducible assumption | with_reducible exact sub_trans (by decide) hp | (intro _) | extract_lets
                | with_reducible apply finish_only | with_reducible apply legCommit_only | dsimp only

theorem execLegacyPortWrite_only (c : Acs) (s : State) {s9 : State}
    (hk : execLegacyPortWrite c s = .next s9) : Only [.out, .host, .mem, .causes, .stats, .red, .leg] s s9 := by
  unfold execLegacyPortWrite at hk
  cases hk
  repeat' first | with_reducible assumption | decide | (intro _) | with_reducible exact Only.rfl | with_reducible apply only_ite | extract_lets
                | with_reducible apply acs_only | with_reducible apply done_only | with_reducible apply onPort_only
                | with_reducible apply nodeWide_only | with_reducible apply effLegacyPortWrite_only | split | dsimp only

theorem execLegacyComposition_only (c : Acs) (s : State) {s9 : State}
    (hk : execLegacyComposition c s = .next s9) : Only [.out, .host, .mem, .causes, .stats] s s9 := by
  unfold execLegacyComposition at hk
  cases hk
  repeat' first | with_reducible assumption | decide | (intro _) | with_reducible exact Only.rfl | with_reducible apply only_ite | extract_lets
                | with_reducible apply acsLen_only | with_reducible apply done_only | split | dsimp only

theorem effLegacyMsgSend_only {ps : List Part} {u0 : State} (hp : ∀ p ∈ ([.out, .host, .mem, .causes, .stats, .red, .leg] : List Part), p ∈ ps)
    (a : List Byte) (r : Option AcsRef) (s : State)  (hk : Only ps u0 s) :
    Only ps u0 (effLegacyMsgSend a r s) := by
  unfold effLegacyMsgSend
  repeat' first | with_reducible assumption | with_reducible exact sub_trans (by decide) hp | (intro _) | extract_lets
                | with_reducible apply finish_only | with_reducible apply queueMessage_only | dsimp only

theorem execLegacyMsgSend_only (c : Acs) (s : State) {s9 : State}
    (hk : execLegacyMsgSend c s = .next s9) : Only [.out, .host, .mem, .causes, .stats, .red, .leg] s s9 := by
  unfold execLegacyMsgSend at hk
  cases hk
  repeat' first | with_reducible assumption | decide | (intro _) | with_reducible exact Only.rfl | with_reducible apply only_ite | extract_lets
                | with_reducible apply acs_only | with_reducible apply done_only | with_reducible apply badArgIf_only
                | with_reducible apply nodeWide_only | with_reducible apply effLegacyMsgSend_only | split | dsimp only

theorem execLegacyMsgRecv_only (c : Acs) (s : State) {s9 : State}
    (hk : execLegacyMsgRecv c s = .next s9) : Only [.out, .host, .mem, .causes, .stats, .leg] s s9 := by
  unfold execLegacyMsgRecv at hk
  cases hk
  repeat' first | with_reducible assumption | decide | (intro _) | with_reducible exact Only.rfl | with_reducible apply only_ite | extract_lets
                | with_reducible apply acsLen_only | with_reducible apply badArgIf_only | with_reducible apply done_only
                | with_reducible apply setLeg_only | split
                | (refine only_mk _ ?_ (by intro p hp; cases p <;> first | exact absurd (by decide) hp | exact rfl)) | dsimp only

end Sys2Proof.Machine
end

