-- ==== Sys2Proof/Laws/OnlyPower.lean ====
section
/-! SUPPORT. The parts of the state that every operation of Machine/Power.lean may change, said once for each: all others are left alone (Only of
Safety.lean). -/
set_option Elab.async false
set_option linter.all false
namespace Sys2Proof.Machine
theorem execVbakApplied_only (s : State) {s9 : State} (hk : execVbakApplied s = .next s9) : Only [.out, .node, .pwr, .time] s s9 := by
  unfold execVbakApplied at hk
  cases hk
  repeat' first | with_reducible assumption | decide | (intro _) | with_reducible exact Only.rfl | with_reducible apply only_ite | extract_lets
                | with_reducible apply drivePin_only | split
                | (refine only_mk _ ?_ (by intro p hp; cases p <;> first | exact absurd (by decide) hp | exact rfl)) | dsimp only

theorem execVbakLost_only (s : State) {s9 : State} (hk : execVbakLost s = .next s9) : Only [.out, .node, .pwr, .time] s s9 := by
  unfold execVbakLost at hk
  cases hk
  repeat' first | with_reducible assumption | decide | (intro _) | with_reducible exact Only.rfl | with_reducible apply only_ite | extract_lets
                | with_reducible apply drivePin_only | split
                | (refine only_mk _ ?_ (by intro p hp; cases p <;> first | exact absurd (by decide) hp | exact rfl)) | dsimp only

theorem execResetRelease_only (mode : Nat) (s : State) {s9 : State}
    (hk : execResetRelease mode s = .next s9) : Only [.out, .freeIdx, .node, .pwr, .boot, .tack, .sec, .host, .mem, .causes, .stats, .log, .hitch, .time, .sw, .macs, .rx, .tx, .stream, .ctl, .retain, .red, .wr, .can, .leg, .br] s s9 := by
  unfold execResetRelease at hk
  cases hk
  repeat' first | with_reducible assumption | decide | (intro _) | with_reducible exact Only.rfl | with_reducible apply only_ite | extract_lets
                | with_reducible apply startUp_only | split
                | (refine only_mk _ ?_ (by intro p hp; cases p <;> first | exact absurd (by decide) hp | exact rfl)) | dsimp only

theorem execPgoodFall_only (s : State) {s9 : State}
    (hk : execPgoodFall s = .next s9) : Only [.out, .freeIdx, .node, .pwr, .boot, .tack, .sec, .host, .mem, .causes, .stats, .log, .hitch, .time, .sw, .macs, .rx, .tx, .stream, .ctl, .retain, .red, .wr, .can, .leg, .br] s s9 := by
  unfold execPgoodFall at hk
  cases hk
  repeat' first | with_reducible assumption | decide | (intro _) | with_reducible exact Only.rfl | extract_lets
                | with_reducible apply loseRails_only
                | (refine only_mk _ ?_ (by intro p hp; cases p <;> first | exact absurd (by decide) hp | exact rfl)) | dsimp only

theorem execResetNLow_only (s : State) {s9 : State}
    (hk : execResetNLow s = .next s9) : Only [.out, .freeIdx, .node, .pwr, .boot, .tack, .sec, .host, .mem, .causes, .stats, .log, .hitch, .time, .sw, .macs, .rx, .tx, .stream, .ctl, .retain, .red, .wr, .can, .leg, .br] s s9 := by
  unfold execResetNLow at hk
  cases hk
  repeat' first | with_reducible assumption | decide | (intro _) | with_reducible exact Only.rfl | with_reducible apply only_ite | extract_lets
                | with_reducible apply enterBoot_only | split | dsimp only

theorem execRailMonitorTrip_only (s : State) {s9 : State}
    (hk : execRailMonitorTrip s = .next s9) : Only [.out, .freeIdx, .node, .pwr, .boot, .tack, .sec, .host, .mem, .causes, .stats, .log, .hitch, .time, .sw, .macs, .rx, .tx, .stream, .ctl, .retain, .red, .wr, .can, .leg, .br] s s9 := by
  unfold execRailMonitorTrip at hk
  cases hk
  repeat' first | with_reducible assumption | decide | (intro _) | with_reducible exact Only.rfl | with_reducible apply only_ite | extract_lets
                | with_reducible apply loseRails_only | split
                | (refine only_mk _ ?_ (by intro p hp; cases p <;> first | exact absurd (by decide) hp | exact rfl)) | dsimp only

theorem execRailRecovery_only (s : State) {s9 : State}
    (hk : execRailRecovery s = .next s9) : Only [.out, .freeIdx, .node, .pwr, .boot, .tack, .sec, .host, .mem, .causes, .stats, .log, .hitch, .time, .sw, .macs, .rx, .tx, .stream, .ctl, .retain, .red, .wr, .can, .leg, .br] s s9 := by
  unfold execRailRecovery at hk
  cases hk
  repeat' first | with_reducible assumption | decide | (intro _) | with_reducible exact Only.rfl | with_reducible apply only_ite | extract_lets
                | with_reducible apply startUp_only | split
                | (refine only_mk _ ?_ (by intro p hp; cases p <;> first | exact absurd (by decide) hp | exact rfl)) | dsimp only

theorem execRootPllUnlock_only (s : State) {s9 : State}
    (hk : execRootPllUnlock s = .next s9) : Only [.out, .freeIdx, .node, .pwr, .boot, .tack, .sec, .host, .mem, .causes, .stats, .log, .hitch, .time, .sw, .macs, .rx, .tx, .stream, .ctl, .retain, .red, .wr, .can, .leg, .br] s s9 := by
  unfold execRootPllUnlock at hk
  cases hk
  repeat' first | with_reducible assumption | decide | (intro _) | with_reducible exact Only.rfl | with_reducible apply only_ite | extract_lets
                | with_reducible apply enterBoot_only | split | dsimp only

theorem execRootPllLock_only (s : State) {s9 : State} (hk : execRootPllLock s = .next s9) : Only [.out, .node, .pwr, .time] s s9 := by
  unfold execRootPllLock at hk
  cases hk
  repeat' first | with_reducible assumption | decide | (intro _) | with_reducible exact Only.rfl | with_reducible apply only_ite | extract_lets
                | with_reducible apply assertBypass_only | split
                | (refine only_mk _ ?_ (by intro p hp; cases p <;> first | exact absurd (by decide) hp | exact rfl)) | dsimp only

theorem execGroomLockstepMismatch_only (s : State) {s9 : State}
    (hk : execGroomLockstepMismatch s = .next s9) : Only [.out, .freeIdx, .node, .pwr, .boot, .tack, .sec, .host, .mem, .causes, .stats, .log, .hitch, .time, .sw, .macs, .rx, .tx, .stream, .ctl, .retain, .red, .wr, .can, .leg, .br] s s9 := by
  unfold execGroomLockstepMismatch at hk
  cases hk
  repeat' first | with_reducible assumption | decide | (intro _) | with_reducible exact Only.rfl | with_reducible apply only_ite | extract_lets
                | with_reducible apply enterBoot_only | split | dsimp only

theorem execGroomParityError_only (s : State) {s9 : State}
    (hk : execGroomParityError s = .next s9) : Only [.out, .freeIdx, .node, .pwr, .boot, .tack, .sec, .host, .mem, .causes, .stats, .log, .hitch, .time, .sw, .macs, .rx, .tx, .stream, .ctl, .retain, .red, .wr, .can, .leg, .br] s s9 := by
  unfold execGroomParityError at hk
  cases hk
  repeat' first | with_reducible assumption | decide | (intro _) | with_reducible exact Only.rfl | with_reducible apply only_ite | extract_lets
                | with_reducible apply enterBoot_only | split | dsimp only

theorem execGroomWatchdogExpiry_only (s : State) {s9 : State}
    (hk : execGroomWatchdogExpiry s = .next s9) : Only [.out, .freeIdx, .node, .pwr, .boot, .tack, .sec, .host, .mem, .causes, .stats, .log, .hitch, .time, .sw, .macs, .rx, .tx, .stream, .ctl, .retain, .red, .wr, .can, .leg, .br] s s9 := by
  unfold execGroomWatchdogExpiry at hk
  cases hk
  repeat' first | with_reducible assumption | decide | (intro _) | with_reducible exact Only.rfl | with_reducible apply only_ite | extract_lets
                | with_reducible apply enterBoot_only | split | dsimp only

theorem thermalSaid_only {ps : List Part} {u0 : State}
    (hp : ∀ p ∈ ([.out, .freeIdx, .pwr, .host, .causes, .stats, .log, .sw, .red] : List Part), p ∈ ps) (sensor : Nat) (temp : Int) (threshold : Nat)
    (sev : Nat) (s : State)  (hk : Only ps u0 s) :
    Only ps u0 (thermalSaid sensor temp threshold sev s) := by
  unfold thermalSaid
  repeat' first | with_reducible assumption | with_reducible exact sub_trans (by decide) hp | (intro _) | extract_lets
                | with_reducible apply logEvent_only
                | (refine only_mk _ ?_ (by intro p hq; cases p <;> first | exact absurd (hp _ (by decide)) hq | exact rfl)) | dsimp only

theorem execThermalThreshold_only (sensor : Nat) (temp : Int) (s : State) {s9 : State}
    (hk : execThermalThreshold sensor temp s = .next s9) : Only [.out, .freeIdx, .node, .pwr, .boot, .tack, .sec, .host, .mem, .causes, .stats, .log, .hitch, .time, .sw, .macs, .rx, .tx, .stream, .ctl, .retain, .red, .wr, .can, .leg, .br] s s9 := by
  unfold execThermalThreshold at hk
  cases hk
  repeat' first | with_reducible assumption | decide | (intro _) | with_reducible exact Only.rfl | with_reducible apply only_ite | extract_lets
                | with_reducible apply loseRails_only | with_reducible apply thermalSaid_only | split
                | (refine only_mk _ ?_ (by intro p hp; cases p <;> first | exact absurd (by decide) hp | exact rfl)) | dsimp only

theorem execThermalRecovery_only (s : State) {s9 : State} (hk : execThermalRecovery s = .next s9) : Only [.pwr] s s9 := by
  unfold execThermalRecovery at hk
  cases hk
  repeat' first | with_reducible assumption | (intro _) | with_reducible exact Only.rfl | extract_lets
                | (refine only_mk _ ?_ (by intro p hp; cases p <;> first | exact absurd (by decide) hp | exact rfl)) | dsimp only

theorem execStableIdleExpiry_only (s : State) {s9 : State}
    (hk : execStableIdleExpiry s = .next s9) : Only [.out, .freeIdx, .node, .pwr, .host, .causes, .stats, .log, .hitch, .sw, .red] s s9 := by
  unfold execStableIdleExpiry at hk
  cases hk
  repeat' first | with_reducible assumption | decide | (intro _) | with_reducible exact Only.rfl | with_reducible apply only_ite | extract_lets
                | with_reducible apply startStabled_only | split | dsimp only

theorem execStabledEntryDone_only (s : State) {s9 : State}
    (hk : execStabledEntryDone s = .next s9) : Only [.out, .freeIdx, .node, .pwr, .boot, .sec, .host, .mem, .causes, .stats, .log, .hitch, .time, .sw, .macs, .stream, .ctl, .red, .wr, .can, .leg, .br] s s9 := by
  unfold execStabledEntryDone at hk
  cases hk
  repeat' first | with_reducible assumption | decide | (intro _) | with_reducible exact Only.rfl | with_reducible apply only_ite | extract_lets
                | with_reducible apply enterStabled_only | with_reducible apply wakeEvent_only | with_reducible apply finish_only | split
                | (refine only_mk _ ?_ (by intro p hp; cases p <;> first | exact absurd (by decide) hp | exact rfl)) | dsimp only

theorem execWakeInEdge_only (s : State) {s9 : State}
    (hk : execWakeInEdge s = .next s9) : Only [.out, .freeIdx, .node, .pwr, .boot, .sec, .host, .causes, .stats, .log, .hitch, .time, .sw, .macs, .stream, .ctl, .red, .can, .leg] s s9 := by
  unfold execWakeInEdge at hk
  cases hk
  repeat' first | with_reducible assumption | decide | (intro _) | with_reducible exact Only.rfl | with_reducible apply only_ite | extract_lets
                | with_reducible apply wakeEvent_only | split
                | (refine only_mk _ ?_ (by intro p hp; cases p <;> first | exact absurd (by decide) hp | exact rfl)) | dsimp only

theorem execWakeInInactiveEdge_only (s : State) {s9 : State} (hk : execWakeInInactiveEdge s = .next s9) : Only [.pwr] s s9 := by
  unfold execWakeInInactiveEdge at hk
  cases hk
  repeat' first | with_reducible assumption | (intro _) | with_reducible exact Only.rfl | extract_lets
                | (refine only_mk _ ?_ (by intro p hp; cases p <;> first | exact absurd (by decide) hp | exact rfl)) | dsimp only

theorem execWakeAlarmExpiry_only (s : State) {s9 : State}
    (hk : execWakeAlarmExpiry s = .next s9) : Only [.out, .freeIdx, .node, .pwr, .boot, .sec, .host, .causes, .stats, .log, .hitch, .time, .sw, .macs, .stream, .ctl, .red, .can, .leg] s s9 := by
  unfold execWakeAlarmExpiry at hk
  cases hk
  repeat' first | with_reducible assumption | decide | (intro _) | with_reducible exact Only.rfl | with_reducible apply only_ite | extract_lets
                | with_reducible apply wakeEvent_only | with_reducible apply drivePin_only | split
                | (refine only_mk _ ?_ (by intro p hp; cases p <;> first | exact absurd (by decide) hp | exact rfl)) | dsimp only

theorem execWakeOutPulseEnd_only (s : State) {s9 : State} (hk : execWakeOutPulseEnd s = .next s9) : Only [.out, .node, .pwr, .time] s s9 := by
  unfold execWakeOutPulseEnd at hk
  cases hk
  repeat' first | with_reducible assumption | decide | (intro _) | with_reducible exact Only.rfl | with_reducible apply only_ite | extract_lets
                | with_reducible apply drivePin_only | split | dsimp only

theorem execBypassAnnounceExpiry_only (s : State) {s9 : State}
    (hk : execBypassAnnounceExpiry s = .next s9) : Only [.out, .freeIdx, .node, .pwr, .boot, .tack, .sec, .host, .mem, .causes, .stats, .log, .hitch, .time, .sw, .macs, .rx, .tx, .stream, .ctl, .retain, .red, .wr, .can, .leg, .br] s s9 := by
  unfold execBypassAnnounceExpiry at hk
  cases hk
  repeat' first | with_reducible assumption | decide | (intro _) | with_reducible exact Only.rfl | with_reducible apply only_ite | extract_lets
                | with_reducible apply assertBypass_only | with_reducible apply enterBoot_only | split
                | (refine only_mk _ ?_ (by intro p hp; cases p <;> first | exact absurd (by decide) hp | exact rfl)) | dsimp only

theorem execBypassSettleExpiry_only (s : State) {s9 : State}
    (hk : execBypassSettleExpiry s = .next s9) : Only [.out, .freeIdx, .node, .host, .causes, .stats, .log, .time, .sw, .tx, .red] s s9 := by
  unfold execBypassSettleExpiry at hk
  cases hk
  repeat' first | with_reducible assumption | decide | (intro _) | with_reducible exact Only.rfl | with_reducible apply only_ite | extract_lets
                | with_reducible apply endSettle_only | split | dsimp only

theorem leaveFor_only {ps : List Part} {u0 : State}
    (hp : ∀ p ∈ ([.out, .freeIdx, .node, .pwr, .boot, .tack, .sec, .host, .mem, .causes, .stats, .log, .hitch, .time, .sw, .macs, .rx, .tx, .stream, .ctl, .retain, .red, .wr, .can, .leg, .br] : List Part), p ∈ ps)
    (r : Removal) (cause : Nat) (s : State)  (hk : Only ps u0 s) :
    Only ps u0 (leaveFor r cause s) := by
  unfold leaveFor
  repeat' first | with_reducible assumption | with_reducible exact sub_trans (by decide) hp | (intro _) | with_reducible apply only_ite
                | extract_lets | with_reducible apply announceBypass_only | with_reducible apply enterBoot_only | split
                | (refine only_mk _ ?_ (by intro p hq; cases p <;> first | exact absurd (hp _ (by decide)) hq | exact rfl)) | dsimp only

theorem execSysRestart_only (c : Acs) (s : State) {s9 : State}
    (hk : execSysRestart c s = .next s9) : Only [.out, .freeIdx, .node, .pwr, .boot, .tack, .sec, .host, .mem, .causes, .stats, .log, .hitch, .time, .sw, .macs, .rx, .tx, .stream, .ctl, .retain, .red, .wr, .can, .leg, .br] s s9 := by
  unfold execSysRestart at hk
  cases hk
  repeat' first | with_reducible assumption | decide | (intro _) | with_reducible exact Only.rfl | with_reducible apply only_ite | extract_lets
                | with_reducible apply acsLen_only | with_reducible apply badArgIf_only | with_reducible apply done_only
                | with_reducible apply logEvent_only | with_reducible apply leaveFor_only | split
                | (refine only_mk _ ?_ (by intro p hp; cases p <;> first | exact absurd (by decide) hp | exact rfl)) | dsimp only

theorem effSysStable_only {ps : List Part} {u0 : State}
    (hp : ∀ p ∈ ([.out, .freeIdx, .node, .pwr, .host, .mem, .causes, .stats, .log, .hitch, .sw, .red] : List Part), p ∈ ps) (r : Option AcsRef)
    (s : State)  (hk : Only ps u0 s) :
    Only ps u0 (effSysStable r s) := by
  unfold effSysStable
  repeat' first | with_reducible assumption | with_reducible exact sub_trans (by decide) hp | (intro _) | with_reducible apply only_ite
                | extract_lets | with_reducible apply finish_only | with_reducible apply startStabled_only | split | dsimp only

theorem execSysStable_only (c : Acs) (s : State) {s9 : State}
    (hk : execSysStable c s = .next s9) : Only [.out, .freeIdx, .node, .pwr, .host, .mem, .causes, .stats, .log, .hitch, .sw, .red] s s9 := by
  unfold execSysStable at hk
  cases hk
  repeat' first | with_reducible assumption | decide | (intro _) | with_reducible exact Only.rfl | with_reducible apply only_ite | extract_lets
                | with_reducible apply acsLen_only | with_reducible apply done_only | with_reducible apply nodeWide_only
                | with_reducible apply effSysStable_only | split | dsimp only

theorem execFwPage_only (kind : Nat) (addr : Nat) (source : Nat) (s : State) {s9 : State}
    (hk : execFwPage kind addr source s = .next s9) : Only [.out, .freeIdx, .host, .mem, .causes, .stats, .log, .hitch, .time, .sw, .stream, .ctl, .red, .wr, .leg] s s9 := by
  unfold execFwPage at hk
  cases hk
  repeat' first | with_reducible assumption | decide | (intro _) | with_reducible exact Only.rfl | with_reducible apply only_ite | extract_lets
                | with_reducible apply logEvent_only | with_reducible apply abortOut_only | with_reducible apply dropIn_only
                | with_reducible apply requestFull_only | with_reducible apply only_foldl | split
                | (refine only_mk _ ?_ (by intro p hp; cases p <;> first | exact absurd (by decide) hp | exact rfl)) | dsimp only

end Sys2Proof.Machine
end

