-- ==== Sys2Proof/Laws/OnlySwitch.lean ====
section
/-! SUPPORT. The parts of the state that every operation of Machine/Switch.lean may change, said once for each: all others are left alone (Only of
Safety.lean). -/
set_option Elab.async false
set_option linter.all false
namespace Sys2Proof.Machine
theorem countFrame_only {ps : List Part} {u0 : State} (hp : ∀ p ∈ ([.out, .host, .causes, .stats] : List Part), p ∈ ps) (p : Nat) (base : Nat)
    (len : Nat) (da : Mac) (s : State)  (hk : Only ps u0 s) :
    Only ps u0 (countFrame p base len da s) := by
  unfold countFrame
  repeat' first | with_reducible assumption | with_reducible exact sub_trans (by decide) hp | (intro _) | with_reducible apply only_ite
                | extract_lets | with_reducible apply count_only | with_reducible apply countN_only | split | dsimp only

theorem wakeFilter_only {ps : List Part} {u0 : State}
    (hp : ∀ p ∈ ([.out, .freeIdx, .node, .pwr, .boot, .sec, .host, .causes, .stats, .log, .hitch, .time, .sw, .macs, .stream, .ctl, .red, .can, .leg] : List Part), p ∈ ps)
    (p : Nat) (r : RxFrame) (s : State)  (hk : Only ps u0 s) :
    Only ps u0 (wakeFilter p r s) := by
  unfold wakeFilter
  try dsimp only
  repeat' first | with_reducible assumption | with_reducible exact sub_trans (by decide) hp | (intro _) | with_reducible exact Only.rfl
                | with_reducible apply only_ite | with_reducible apply only_ite_app | with_reducible apply only_id | with_reducible apply count_only
                | with_reducible apply setMac_only | with_reducible apply wakeEvent_only | with_reducible apply logEvent_only
                | with_reducible apply raise_only | with_reducible apply only_foldl | with_reducible apply only_foldl2 | split
                | (refine only_mk _ ?_ (by intro p hq; cases p <;> first | exact absurd (hp _ (by decide)) hq | exact rfl)) | dsimp only

theorem linkLocalFrame_only {ps : List Part} {u0 : State}
    (hp : ∀ p ∈ ([.out, .freeIdx, .host, .causes, .stats, .log, .sw, .rx, .red] : List Part), p ∈ ps) (p : Nat) (r : RxFrame) (s : State) 
    (hk : Only ps u0 s) :
    Only ps u0 (linkLocalFrame p r s) := by
  unfold linkLocalFrame
  repeat' first | with_reducible assumption | with_reducible exact sub_trans (by decide) hp | (intro _) | with_reducible apply only_ite
                | extract_lets | with_reducible apply toInternal_only | with_reducible apply bumpUid_only | split
                | (refine only_mk _ ?_ (by intro p hq; cases p <;> first | exact absurd (hp _ (by decide)) hq | exact rfl)) | dsimp only

theorem tableError_only {ps : List Part} {u0 : State} (hp : ∀ p ∈ ([.out, .freeIdx, .host, .causes, .stats, .log, .sw, .red] : List Part), p ∈ ps)
    (port : Nat) (table : Nat) (index : Nat) (s : State)  (hk : Only ps u0 s) :
    Only ps u0 (tableError port table index s) := by
  unfold tableError
  repeat' first | with_reducible assumption | with_reducible exact sub_trans (by decide) hp | (intro _) | with_reducible apply only_ite
                | extract_lets | with_reducible apply logEvent_only | split
                | (refine only_mk _ ?_ (by intro p hq; cases p <;> first | exact absurd (hp _ (by decide)) hq | exact rfl)) | dsimp only

theorem reloadEntry_only {ps : List Part} {u0 : State} (hp : ∀ p ∈ ([.sw] : List Part), p ∈ ps) (table : Nat) (port : Nat) (index : Nat) (s : State) 
    (hk : Only ps u0 s) :
    Only ps u0 (reloadEntry table port index s) := by
  unfold reloadEntry
  repeat' first | with_reducible assumption | with_reducible exact sub_trans (by decide) hp | (intro _) | with_reducible apply only_ite
                | extract_lets | with_reducible apply setGate_only | split
                | (refine only_mk _ ?_ (by intro p hq; cases p <;> first | exact absurd (hp _ (by decide)) hq | exact rfl)) | dsimp only

theorem execTableReloadDone_only (table : Nat) (port : Nat) (index : Nat) (s : State) {s9 : State}
    (hk : execTableReloadDone table port index s = .next s9) : Only [.sw] s s9 := by
  unfold execTableReloadDone at hk
  cases hk
  repeat' first | with_reducible assumption | decide | (intro _) | with_reducible exact Only.rfl | with_reducible apply only_ite | extract_lets
                | with_reducible apply reloadEntry_only | split
                | (refine only_mk _ ?_ (by intro p hp; cases p <;> first | exact absurd (by decide) hp | exact rfl)) | dsimp only

theorem forward_only {ps : List Part} {u0 : State}
    (hp : ∀ p ∈ ([.out, .freeIdx, .host, .causes, .stats, .log, .time, .sw, .rx, .tx, .stream, .red] : List Part), p ∈ ps) (x : Fwd) (id : StreamId)
    (err : Option Nat) (s : State)  (hk : Only ps u0 s) :
    Only ps u0 (forward x id err s) := by
  unfold forward
  repeat' first | with_reducible assumption | with_reducible exact sub_trans (by decide) hp | (intro _) | with_reducible apply only_ite
                | extract_lets | with_reducible apply forwardReplicated_only | with_reducible apply forwardSplit_only
                | with_reducible apply forwardPlain_only | with_reducible apply unitParity_only | split
                | (refine only_mk _ ?_ (by intro p hq; cases p <;> first | exact absurd (hp _ (by decide)) hq | exact rfl)) | dsimp only

theorem stages_only {ps : List Part} {u0 : State}
    (hp : ∀ p ∈ ([.out, .freeIdx, .host, .causes, .stats, .log, .time, .sw, .rx, .tx, .stream, .red] : List Part), p ∈ ps) (p : Nat) (r : RxFrame)
    (s : State)  (hk : Only ps u0 s) :
    Only ps u0 (stages p r s) := by
  unfold stages
  repeat' first | with_reducible assumption | with_reducible exact sub_trans (by decide) hp | (intro _) | with_reducible apply only_ite
                | extract_lets | with_reducible apply count_only | with_reducible apply police_only | with_reducible apply forward_only
                | with_reducible apply learn_only | split
                | (refine only_mk _ ?_ (by intro p hq; cases p <;> first | exact absurd (hp _ (by decide)) hq | exact rfl)) | dsimp only

theorem switchFrame_only {ps : List Part} {u0 : State}
    (hp : ∀ p ∈ ([.out, .freeIdx, .host, .causes, .stats, .log, .time, .sw, .macs, .rx, .tx, .stream, .red] : List Part), p ∈ ps) (p : Nat)
    (r : RxFrame) (s : State)  (hk : Only ps u0 s) :
    Only ps u0 (switchFrame p r s) := by
  unfold switchFrame
  repeat' first | with_reducible assumption | with_reducible exact sub_trans (by decide) hp | (intro _) | with_reducible apply only_ite
                | extract_lets | with_reducible apply linkLocalFrame_only | with_reducible apply count_only | with_reducible apply pauseCheck_only
                | with_reducible apply stages_only | split | dsimp only

theorem stompOn_only {ps : List Part} {u0 : State} (hp : ∀ p ∈ ([.out, .host, .causes, .stats] : List Part), p ∈ ps) (x : Fwd) (ps9 : List Nat)
    (s : State)  (hk : Only ps u0 s) :
    Only ps u0 (stompOn x ps9 s) := by
  unfold stompOn
  repeat' first | with_reducible assumption | with_reducible exact sub_trans (by decide) hp | (intro _) | extract_lets
                | with_reducible apply emit_only | with_reducible apply count_only | with_reducible apply only_foldl | dsimp only

theorem stompFrame_only {ps : List Part} {u0 : State} (hp : ∀ p ∈ ([.out, .freeIdx, .host, .causes, .stats, .log, .sw, .red] : List Part), p ∈ ps)
    (p : Nat) (r : RxFrame) (s : State)  (hk : Only ps u0 s) :
    Only ps u0 (stompFrame p r s) := by
  unfold stompFrame
  repeat' first | with_reducible assumption | with_reducible exact sub_trans (by decide) hp | (intro _) | with_reducible apply only_ite
                | extract_lets | with_reducible apply police_only | with_reducible apply stompOn_only | with_reducible apply lostArmed_only
                | with_reducible apply setFrer_only | with_reducible apply frerClean_only | split
                | (refine only_mk _ ?_ (by intro p hq; cases p <;> first | exact absurd (hp _ (by decide)) hq | exact rfl)) | dsimp only

theorem streamBad_only {ps : List Part} {u0 : State} (hp : ∀ p ∈ ([.sw, .rx] : List Part), p ∈ ps) (p : Nat) (kind : Nat) (r : RxFrame) (s : State) 
    (hk : Only ps u0 s) :
    Only ps u0 (streamBad p kind r s) := by
  unfold streamBad
  repeat' first | with_reducible assumption | with_reducible exact sub_trans (by decide) hp | (intro _) | with_reducible apply only_ite
                | extract_lets | with_reducible apply bumpUid_only | with_reducible apply setRx_only | split
                | (refine only_mk _ ?_ (by intro p hq; cases p <;> first | exact absurd (hp _ (by decide)) hq | exact rfl)) | dsimp only

theorem faulty_only {ps : List Part} {u0 : State} (hp : ∀ p ∈ ([.out, .freeIdx, .host, .causes, .stats, .log, .sw, .rx, .red] : List Part), p ∈ ps)
    (p : Nat) (kind : Nat) (r : RxFrame) (s : State)  (hk : Only ps u0 s) :
    Only ps u0 (faulty p kind r s) := by
  unfold faulty
  repeat' first | with_reducible assumption | with_reducible exact sub_trans (by decide) hp | (intro _) | with_reducible apply only_ite
                | extract_lets | with_reducible apply stompFrame_only | with_reducible apply streamBad_only | split | dsimp only

theorem goodFrame_only {ps : List Part} {u0 : State}
    (hp : ∀ p ∈ ([.out, .freeIdx, .host, .causes, .stats, .log, .time, .sw, .macs, .rx, .tx, .stream, .red] : List Part), p ∈ ps) (p : Nat)
    (r : RxFrame) (s : State)  (hk : Only ps u0 s) :
    Only ps u0 (goodFrame p r s) := by
  unfold goodFrame
  repeat' first | with_reducible assumption | with_reducible exact sub_trans (by decide) hp | (intro _) | with_reducible apply only_ite
                | extract_lets | with_reducible apply secStage_only | with_reducible apply faulty_only | with_reducible apply switchFrame_only
                | split | dsimp only

theorem execFrameReceive_only (port : Nat) (rx : RxFrame) (s : State) {s9 : State}
    (hk : execFrameReceive port rx s = .next s9) : Only [.out, .freeIdx, .node, .pwr, .boot, .sec, .host, .causes, .stats, .log, .hitch, .time, .sw, .macs, .rx, .tx, .stream, .ctl, .red, .can, .leg] s s9 := by
  unfold execFrameReceive at hk
  cases hk
  repeat' first | with_reducible assumption | decide | (intro _) | with_reducible exact Only.rfl | with_reducible apply only_ite | extract_lets
                | with_reducible apply count_only | with_reducible apply countN_only | with_reducible apply faulty_only
                | with_reducible apply wakeFilter_only | with_reducible apply countFrame_only | with_reducible apply tableError_only
                | with_reducible apply goodFrame_only | split
                | (refine only_mk _ ?_ (by intro p hp; cases p <;> first | exact absurd (by decide) hp | exact rfl)) | dsimp only

theorem hitchSent_only {ps : List Part} {u0 : State} (hp : ∀ p ∈ ([.hitch] : List Part), p ∈ ps) (p : Nat) (q : QFrame) (stamp : Stamp) (s : State) 
    (hk : Only ps u0 s) :
    Only ps u0 (hitchSent p q stamp s) := by
  unfold hitchSent
  repeat' first | with_reducible assumption | with_reducible exact sub_trans (by decide) hp | (intro _) | extract_lets
                | with_reducible apply setHPort_only
                | (refine only_mk _ ?_ (by intro p hq; cases p <;> first | exact absurd (hp _ (by decide)) hq | exact rfl)) | dsimp only

theorem departed_only {ps : List Part} {u0 : State}
    (hp : ∀ p ∈ ([.out, .freeIdx, .host, .causes, .stats, .log, .hitch, .time, .sw, .red] : List Part), p ∈ ps) (p : Nat) (q : QFrame)
    (stamp : Stamp) (s : State)  (hk : Only ps u0 s) :
    Only ps u0 (departed p q stamp s) := by
  unfold departed
  repeat' first | with_reducible assumption | with_reducible exact sub_trans (by decide) hp | (intro _) | with_reducible apply only_ite
                | extract_lets | with_reducible apply hitchSent_only | with_reducible apply pushTxTs_only | split
                | (refine only_mk _ ?_ (by intro p hq; cases p <;> first | exact absurd (hp _ (by decide)) hq | exact rfl)) | dsimp only

theorem execFrameTransmitDone_only (port : Nat) (cls : Nat) (stamp : Stamp) (frags : Nat) (s : State) {s9 : State}
    (hk : execFrameTransmitDone port cls stamp frags s = .next s9) : Only [.out, .freeIdx, .host, .causes, .stats, .log, .hitch, .time, .sw, .macs, .tx, .red] s s9 := by
  unfold execFrameTransmitDone at hk
  cases hk
  repeat' first | with_reducible assumption | decide | (intro _) | with_reducible exact Only.rfl | with_reducible apply only_ite | extract_lets
                | with_reducible apply countN_only | with_reducible apply countFrame_only | with_reducible apply emit_only
                | with_reducible apply setQueue_only | with_reducible apply countPn_only | with_reducible apply departed_only
                | with_reducible apply frerRead_only | with_reducible apply settleHeads_only | with_reducible apply settleUids_only
                | with_reducible apply pauseCheck_only | split
                | (refine only_mk _ ?_ (by intro p hp; cases p <;> first | exact absurd (by decide) hp | exact rfl)) | dsimp only

theorem cellError_only {ps : List Part} {u0 : State}
    (hp : ∀ p ∈ ([.out, .freeIdx, .node, .pwr, .host, .causes, .stats, .log, .time, .sw, .red, .can, .leg, .br] : List Part), p ∈ ps) (cell : Nat)
    (s : State)  (hk : Only ps u0 s) :
    Only ps u0 (cellError cell s) := by
  unfold cellError
  repeat' first | with_reducible assumption | with_reducible exact sub_trans (by decide) hp | (intro _) | with_reducible apply only_ite
                | extract_lets | with_reducible apply count_only | with_reducible apply raise_only | with_reducible apply logEvent_only
                | with_reducible apply setResource_only | with_reducible apply releaseClaim_only | split
                | (refine only_mk _ ?_ (by intro p hq; cases p <;> first | exact absurd (hp _ (by decide)) hq | exact rfl)) | dsimp only

theorem parityLoss_only {ps : List Part} {u0 : State}
    (hp : ∀ p ∈ ([.out, .freeIdx, .host, .causes, .stats, .log, .sw, .rx, .red] : List Part), p ∈ ps) (port : Nat) (cell : Nat) (handle : Option Nat)
    (frer : Option (Nat × Nat)) (s : State)  (hk : Only ps u0 s) :
    Only ps u0 (parityLoss port cell handle frer s) := by
  unfold parityLoss
  repeat' first | with_reducible assumption | with_reducible exact sub_trans (by decide) hp | (intro _) | with_reducible apply only_ite
                | extract_lets | with_reducible apply count_only | with_reducible apply raise_only | with_reducible apply frerParity_only
                | with_reducible apply logParity_only | split
                | (refine only_mk _ ?_ (by intro p hq; cases p <;> first | exact absurd (hp _ (by decide)) hq | exact rfl)) | dsimp only

theorem execCellParityError_only (port : Nat) (cls : Nat) (cell : Nat) (later : Bool) (s : State) {s9 : State}
    (hk : execCellParityError port cls cell later s = .next s9) : Only [.out, .freeIdx, .node, .pwr, .host, .causes, .stats, .log, .time, .sw, .rx, .tx, .red, .can, .leg, .br] s s9 := by
  unfold execCellParityError at hk
  cases hk
  repeat' first | with_reducible assumption | decide | (intro _) | with_reducible exact Only.rfl | with_reducible apply only_ite | extract_lets
                | with_reducible apply parityLoss_only | with_reducible apply setRx_only | with_reducible apply cellError_only
                | with_reducible apply settleUids_only | with_reducible apply failTxTs_only | with_reducible apply setQueue_only
                | with_reducible apply emit_only | with_reducible apply count_only | with_reducible apply settleHeads_only | split
                | (refine only_mk _ ?_ (by intro p hp; cases p <;> first | exact absurd (by decide) hp | exact rfl)) | dsimp only

theorem execAddressAgeOut_only (mac : Mac) (vid : Nat) (s : State) {s9 : State} (hk : execAddressAgeOut mac vid s = .next s9) : Only [.sw] s s9 := by
  unfold execAddressAgeOut at hk
  cases hk
  repeat' first | with_reducible assumption | decide | (intro _) | with_reducible exact Only.rfl | with_reducible apply only_ite | extract_lets
                | with_reducible apply unlearn_only | split | dsimp only

theorem enterGate_only {ps : List Part} {u0 : State} (hp : ∀ p ∈ ([.out, .host, .causes, .stats, .sw, .macs] : List Part), p ∈ ps) (p : Nat)
    (i : Nat) (s : State)  (hk : Only ps u0 s) :
    Only ps u0 (enterGate p i s) := by
  unfold enterGate
  repeat' first | with_reducible assumption | with_reducible exact sub_trans (by decide) hp | (intro _) | with_reducible apply only_ite
                | extract_lets | with_reducible apply setGate_only | with_reducible apply count_only | with_reducible apply setMac_only | split
                | (refine only_mk _ ?_ (by intro p hq; cases p <;> first | exact absurd (hp _ (by decide)) hq | exact rfl)) | dsimp only

theorem execGateEvent_only (port : Nat) (err : Bool) (s : State) {s9 : State}
    (hk : execGateEvent port err s = .next s9) : Only [.out, .freeIdx, .host, .causes, .stats, .log, .time, .sw, .macs, .tx, .red] s s9 := by
  unfold execGateEvent at hk
  cases hk
  repeat' first | with_reducible assumption | decide | (intro _) | with_reducible exact Only.rfl | with_reducible apply only_ite | extract_lets
                | with_reducible apply tableError_only | with_reducible apply settleHeads_only | with_reducible apply enterGate_only | split
                | (refine only_mk _ ?_ (by intro p hp; cases p <;> first | exact absurd (by decide) hp | exact rfl)) | dsimp only

theorem execGateConfigChange_only (port : Nat) (s : State) {s9 : State}
    (hk : execGateConfigChange port s = .next s9) : Only [.out, .freeIdx, .host, .causes, .stats, .log, .time, .sw, .macs, .tx, .red] s s9 := by
  unfold execGateConfigChange at hk
  cases hk
  repeat' first | with_reducible assumption | decide | (intro _) | with_reducible exact Only.rfl | with_reducible apply only_ite | extract_lets
                | with_reducible apply setGate_only | with_reducible apply setMac_only | with_reducible apply enterGate_only
                | with_reducible apply settleHeads_only | with_reducible apply logEvent_only | split
                | (refine only_mk _ ?_ (by intro p hp; cases p <;> first | exact absurd (by decide) hp | exact rfl)) | dsimp only

theorem launchRing_only {ps : List Part} {u0 : State}
    (hp : ∀ p ∈ ([.out, .freeIdx, .host, .causes, .stats, .log, .time, .sw, .tx, .red] : List Part), p ∈ ps) (n : Nat) (lateNs : Nat) (s : State) 
    (hk : Only ps u0 s) :
    Only ps u0 (launchRing n lateNs s) := by
  unfold launchRing
  repeat' first | with_reducible assumption | with_reducible exact sub_trans (by decide) hp | (intro _) | with_reducible apply only_ite
                | extract_lets | with_reducible apply setTx_only | with_reducible apply logEvent_only | with_reducible apply dropQueued_only
                | with_reducible apply count_only | with_reducible apply settleHeads_only | with_reducible apply setQueue_only | split
                | (refine only_mk _ ?_ (by intro p hq; cases p <;> first | exact absurd (hp _ (by decide)) hq | exact rfl)) | dsimp only

theorem execLaunchTimeReached_only (ctx : Bool) (source : Nat) (lateNs : Nat) (s : State) {s9 : State}
    (hk : execLaunchTimeReached ctx source lateNs s = .next s9) : Only [.out, .freeIdx, .host, .mem, .causes, .stats, .log, .time, .sw, .rx, .tx, .stream, .red] s s9 := by
  unfold execLaunchTimeReached at hk
  cases hk
  repeat' first | with_reducible assumption | decide | (intro _) | with_reducible exact Only.rfl | with_reducible apply only_ite | extract_lets
                | with_reducible apply launchStream_only | with_reducible apply launchRing_only | split | dsimp only

theorem execPortFdbRead_only (c : Acs) (s : State) {s9 : State}
    (hk : execPortFdbRead c s = .next s9) : Only [.out, .host, .mem, .causes, .stats] s s9 := by
  unfold execPortFdbRead at hk
  cases hk
  repeat' first | with_reducible assumption | decide | (intro _) | with_reducible exact Only.rfl | with_reducible apply only_ite | extract_lets
                | with_reducible apply acsLen_only | with_reducible apply badArgIf_only | with_reducible apply done_only | split | dsimp only

theorem execPortFdbWrite_only (c : Acs) (s : State) {s9 : State}
    (hk : execPortFdbWrite c s = .next s9) : Only [.out, .freeIdx, .host, .mem, .causes, .stats, .sw] s s9 := by
  unfold execPortFdbWrite at hk
  cases hk
  repeat' first | with_reducible assumption | decide | (intro _) | with_reducible exact Only.rfl | with_reducible apply only_ite | extract_lets
                | with_reducible apply acsLen_only | with_reducible apply badArgIf_only | with_reducible apply done_only
                | with_reducible apply useFree_only | split
                | (refine only_mk _ ?_ (by intro p hp; cases p <;> first | exact absurd (by decide) hp | exact rfl)) | dsimp only

theorem execPortFdbFlush_only (c : Acs) (s : State) {s9 : State}
    (hk : execPortFdbFlush c s = .next s9) : Only [.out, .host, .mem, .causes, .stats, .sw] s s9 := by
  unfold execPortFdbFlush at hk
  cases hk
  repeat' first | with_reducible assumption | decide | (intro _) | with_reducible exact Only.rfl | with_reducible apply only_ite | extract_lets
                | with_reducible apply acsLen_only | with_reducible apply badArgIf_only | with_reducible apply done_only
                | with_reducible apply unlearn_only | split | dsimp only

theorem execPortVlanSet_only (c : Acs) (s : State) {s9 : State}
    (hk : execPortVlanSet c s = .next s9) : Only [.out, .host, .mem, .causes, .stats, .sw] s s9 := by
  unfold execPortVlanSet at hk
  cases hk
  repeat' first | with_reducible assumption | decide | (intro _) | with_reducible exact Only.rfl | with_reducible apply only_ite | extract_lets
                | with_reducible apply acsLen_only | with_reducible apply badArgIf_only | with_reducible apply done_only | split
                | (refine only_mk _ ?_ (by intro p hp; cases p <;> first | exact absurd (by decide) hp | exact rfl)) | dsimp only

theorem execPortGateSet_only (c : Acs) (s : State) {s9 : State}
    (hk : execPortGateSet c s = .next s9) : Only [.out, .freeIdx, .host, .mem, .causes, .stats, .log, .sw, .red] s s9 := by
  unfold execPortGateSet at hk
  cases hk
  repeat' first | with_reducible assumption | decide | (intro _) | with_reducible exact Only.rfl | with_reducible apply only_ite | extract_lets
                | with_reducible apply acs_only | with_reducible apply done_only | with_reducible apply raise_only
                | with_reducible apply logEvent_only | with_reducible apply setGate_only | split
                | (refine only_mk _ ?_ (by intro p hp; cases p <;> first | exact absurd (by decide) hp | exact rfl)) | dsimp only

theorem execPortGateStatus_only (c : Acs) (s : State) {s9 : State}
    (hk : execPortGateStatus c s = .next s9) : Only [.out, .host, .mem, .causes, .stats] s s9 := by
  unfold execPortGateStatus at hk
  cases hk
  repeat' first | with_reducible assumption | decide | (intro _) | with_reducible exact Only.rfl | with_reducible apply only_ite | extract_lets
                | with_reducible apply acsLen_only | with_reducible apply badArgIf_only | with_reducible apply done_only | split
                | (refine only_mk _ ?_ (by intro p hp; cases p <;> first | exact absurd (by decide) hp | exact rfl)) | dsimp only

theorem execPortQuotaSet_only (c : Acs) (s : State) {s9 : State}
    (hk : execPortQuotaSet c s = .next s9) : Only [.out, .host, .mem, .causes, .stats, .sw] s s9 := by
  unfold execPortQuotaSet at hk
  cases hk
  repeat' first | with_reducible assumption | decide | (intro _) | with_reducible exact Only.rfl | with_reducible apply only_ite | extract_lets
                | with_reducible apply acsLen_only | with_reducible apply done_only | split
                | (refine only_mk _ ?_ (by intro p hp; cases p <;> first | exact absurd (by decide) hp | exact rfl)) | dsimp only

theorem execPortPsfpSet_only (c : Acs) (s : State) {s9 : State}
    (hk : execPortPsfpSet c s = .next s9) : Only [.out, .host, .mem, .causes, .stats, .sw] s s9 := by
  unfold execPortPsfpSet at hk
  cases hk
  repeat' first | with_reducible assumption | decide | (intro _) | with_reducible exact Only.rfl | with_reducible apply only_ite | extract_lets
                | with_reducible apply acsLen_only | with_reducible apply badArgIf_only | with_reducible apply done_only | split
                | (refine only_mk _ ?_ (by intro p hp; cases p <;> first | exact absurd (by decide) hp | exact rfl)) | dsimp only

theorem execPortFrerStatus_only (c : Acs) (s : State) {s9 : State}
    (hk : execPortFrerStatus c s = .next s9) : Only [.out, .host, .mem, .causes, .stats] s s9 := by
  unfold execPortFrerStatus at hk
  cases hk
  repeat' first | with_reducible assumption | decide | (intro _) | with_reducible exact Only.rfl | with_reducible apply only_ite | extract_lets
                | with_reducible apply acsLen_only | with_reducible apply badArgIf_only | with_reducible apply done_only | split
                | (refine only_mk _ ?_ (by intro p hp; cases p <;> first | exact absurd (by decide) hp | exact rfl)) | dsimp only

theorem execPortMacsecStatus_only (c : Acs) (s : State) {s9 : State}
    (hk : execPortMacsecStatus c s = .next s9) : Only [.out, .host, .mem, .causes, .stats, .red] s s9 := by
  unfold execPortMacsecStatus at hk
  cases hk
  repeat' first | with_reducible assumption | decide | (intro _) | with_reducible exact Only.rfl | with_reducible apply only_ite | extract_lets
                | with_reducible apply acsLen_only | with_reducible apply badArgIf_only | with_reducible apply done_only | split | dsimp only

theorem execPortForward_only (c : Acs) (s : State) {s9 : State}
    (hk : execPortForward c s = .next s9) : Only [.out, .freeIdx, .host, .mem, .causes, .stats, .log, .sw, .red] s s9 := by
  unfold execPortForward at hk
  cases hk
  repeat' first | with_reducible assumption | decide | (intro _) | with_reducible exact Only.rfl | with_reducible apply only_ite | extract_lets
                | with_reducible apply acsLen_only | with_reducible apply badArgIf_only | with_reducible apply done_only
                | with_reducible apply logEvent_only | split
                | (refine only_mk _ ?_ (by intro p hp; cases p <;> first | exact absurd (by decide) hp | exact rfl)) | dsimp only

end Sys2Proof.Machine
end

