-- ==== Sys2Proof/Laws/OnlyWrangler.lean ====
section
/-! SUPPORT. The parts of the state that every operation of Machine/Wrangler.lean may change, said once for each: all others are left alone (Only of
Safety.lean). -/
set_option Elab.async false
set_option linter.all false
namespace Sys2Proof.Machine
theorem wrStep_only {ps : List Part} {u0 : State} (hp : ∀ p ∈ ([.out, .host, .causes, .stats, .red] : List Part), p ∈ ps) (no : Nat)
    (f : State → State) (s : State) (h_f : ∀ (s9 : State), Only ps u0 s9 → Only ps u0 (f  s9)) (hk : Only ps u0 s) :
    Only ps u0 (wrStep no f s) := by
  unfold wrStep
  repeat' first | with_reducible assumption | with_reducible exact sub_trans (by decide) hp | (intro _) | with_reducible apply only_ite
                | extract_lets | apply h_f | with_reducible apply wrTell_only | split | dsimp only

theorem execScheduledRound_only (resA : Nat) (resB : Nat) (s : State) {s9 : State}
    (hk : execScheduledRound resA resB s = .next s9) : Only [.out, .freeIdx, .host, .causes, .stats, .sw, .red, .wr] s s9 := by
  unfold execScheduledRound at hk
  cases hk
  repeat' first | with_reducible assumption | decide | (intro _) | with_reducible exact Only.rfl | with_reducible apply only_ite | extract_lets
                | with_reducible apply startWrRound_only | split
                | (refine only_mk _ ?_ (by intro p hp; cases p <;> first | exact absurd (by decide) hp | exact rfl)) | dsimp only

theorem execReportReceive_only (f : Frame) (s : State) {s9 : State}
    (hk : execReportReceive f s = .next s9) : Only [.out, .freeIdx, .host, .mem, .causes, .stats, .log, .hitch, .time, .sw, .stream, .ctl, .red, .wr, .leg] s s9 := by
  unfold execReportReceive at hk
  cases hk
  repeat' first | with_reducible assumption | decide | (intro _) | with_reducible exact Only.rfl | with_reducible apply only_ite | extract_lets
                | with_reducible apply wrFrame_only | split | dsimp only

theorem execVerdictReceive_only (f : Frame) (s : State) {s9 : State}
    (hk : execVerdictReceive f s = .next s9) : Only [.out, .freeIdx, .host, .mem, .causes, .stats, .log, .hitch, .time, .sw, .stream, .ctl, .red, .wr, .leg] s s9 := by
  unfold execVerdictReceive at hk
  cases hk
  repeat' first | with_reducible assumption | decide | (intro _) | with_reducible exact Only.rfl | with_reducible apply only_ite | extract_lets
                | with_reducible apply wrFrame_only | split | dsimp only

theorem execWranglerFreeze_only (s : State) {s9 : State}
    (hk : execWranglerFreeze s = .next s9) : Only [.out, .host, .causes, .stats, .red, .wr] s s9 := by
  unfold execWranglerFreeze at hk
  cases hk
  repeat' first | with_reducible assumption | decide | (intro _) | with_reducible exact Only.rfl | extract_lets | with_reducible apply wrStep_only
                | with_reducible apply wrFreeze_only | dsimp only

theorem execPlacementComputed_only (s : State) {s9 : State}
    (hk : execPlacementComputed s = .next s9) : Only [.out, .freeIdx, .host, .causes, .stats, .log, .sw, .red, .wr] s s9 := by
  unfold execPlacementComputed at hk
  cases hk
  repeat' first | with_reducible assumption | decide | (intro _) | with_reducible exact Only.rfl | extract_lets | with_reducible apply wrStep_only
                | with_reducible apply wrCompute_only | dsimp only

theorem execPlacementApply_only (s : State) {s9 : State}
    (hk : execPlacementApply s = .next s9) : Only [.out, .freeIdx, .host, .mem, .causes, .stats, .log, .hitch, .time, .sw, .stream, .ctl, .red, .wr, .leg] s s9 := by
  unfold execPlacementApply at hk
  cases hk
  repeat' first | with_reducible assumption | decide | (intro _) | with_reducible exact Only.rfl | extract_lets | with_reducible apply wrStep_only
                | with_reducible apply wrApply_only | dsimp only

theorem execRoundDisagreeCheck_only (s : State) {s9 : State}
    (hk : execRoundDisagreeCheck s = .next s9) : Only [.out, .freeIdx, .host, .causes, .stats, .log, .sw, .red, .wr] s s9 := by
  unfold execRoundDisagreeCheck at hk
  cases hk
  repeat' first | with_reducible assumption | decide | (intro _) | with_reducible exact Only.rfl | extract_lets | with_reducible apply wrStep_only
                | with_reducible apply wrDisagree_only | dsimp only

theorem execDwellExpiry_only (placeId : Nat) (s : State) {s9 : State} (hk : execDwellExpiry placeId s = .next s9) : Only [.wr] s s9 := by
  unfold execDwellExpiry at hk
  cases hk
  repeat' first | with_reducible assumption | (intro _) | with_reducible exact Only.rfl | extract_lets
                | (refine only_mk _ ?_ (by intro p hp; cases p <;> first | exact absurd (by decide) hp | exact rfl)) | dsimp only

theorem execStateReceive_only (f : Frame) (s : State) {s9 : State}
    (hk : execStateReceive f s = .next s9) : Only [.out, .freeIdx, .host, .mem, .causes, .stats, .log, .hitch, .time, .sw, .stream, .ctl, .red, .wr, .leg] s s9 := by
  unfold execStateReceive at hk
  cases hk
  repeat' first | with_reducible assumption | decide | (intro _) | with_reducible exact Only.rfl | with_reducible apply only_ite | extract_lets
                | with_reducible apply wrFrame_only | split | dsimp only

theorem execAckReceive_only (f : Frame) (s : State) {s9 : State}
    (hk : execAckReceive f s = .next s9) : Only [.out, .freeIdx, .host, .mem, .causes, .stats, .log, .hitch, .time, .sw, .stream, .ctl, .red, .wr, .leg] s s9 := by
  unfold execAckReceive at hk
  cases hk
  repeat' first | with_reducible assumption | decide | (intro _) | with_reducible exact Only.rfl | with_reducible apply only_ite | extract_lets
                | with_reducible apply wrFrame_only | split | dsimp only

theorem execReleaseReceive_only (f : Frame) (s : State) {s9 : State}
    (hk : execReleaseReceive f s = .next s9) : Only [.out, .freeIdx, .host, .mem, .causes, .stats, .log, .hitch, .time, .sw, .stream, .ctl, .red, .wr, .leg] s s9 := by
  unfold execReleaseReceive at hk
  cases hk
  repeat' first | with_reducible assumption | decide | (intro _) | with_reducible exact Only.rfl | with_reducible apply only_ite | extract_lets
                | with_reducible apply wrFrame_only | split | dsimp only

theorem execTakenReceive_only (f : Frame) (s : State) {s9 : State}
    (hk : execTakenReceive f s = .next s9) : Only [.out, .freeIdx, .host, .mem, .causes, .stats, .log, .hitch, .time, .sw, .stream, .ctl, .red, .wr, .leg] s s9 := by
  unfold execTakenReceive at hk
  cases hk
  repeat' first | with_reducible assumption | decide | (intro _) | with_reducible exact Only.rfl | with_reducible apply only_ite | extract_lets
                | with_reducible apply wrFrame_only | split | dsimp only

theorem execAbortReceive_only (f : Frame) (s : State) {s9 : State}
    (hk : execAbortReceive f s = .next s9) : Only [.out, .freeIdx, .host, .mem, .causes, .stats, .log, .hitch, .time, .sw, .stream, .ctl, .red, .wr, .leg] s s9 := by
  unfold execAbortReceive at hk
  cases hk
  repeat' first | with_reducible assumption | decide | (intro _) | with_reducible exact Only.rfl | with_reducible apply only_ite | extract_lets
                | with_reducible apply wrFrame_only | split | dsimp only

theorem execMigrateAbort_only (task : Nat) (s : State) {s9 : State}
    (hk : execMigrateAbort task s = .next s9) : Only [.out, .freeIdx, .host, .mem, .causes, .stats, .log, .hitch, .time, .sw, .stream, .ctl, .red, .wr, .leg] s s9 := by
  unfold execMigrateAbort at hk
  cases hk
  repeat' first | with_reducible assumption | decide | (intro _) | with_reducible exact Only.rfl | with_reducible apply only_ite | extract_lets
                | with_reducible apply abortOut_only | split
                | (refine only_mk _ ?_ (by intro p hp; cases p <;> first | exact absurd (by decide) hp | exact rfl)) | dsimp only

theorem wrOnly_only {ps : List Part} {u0 : State} (hp : ∀ p ∈ ([.out, .host, .mem, .causes, .stats] : List Part), p ∈ ps) (opcode : Nat) (c : Acs)
    (body : State → State) (s : State) (h_body : ∀ (s9 : State), Only ps u0 s9 → Only ps u0 (body  s9)) (hk : Only ps u0 s) :
    Only ps u0 (wrOnly opcode c body s) := by
  unfold wrOnly
  repeat' first | with_reducible assumption | with_reducible exact sub_trans (by decide) hp | (intro _) | with_reducible apply only_ite
                | extract_lets | apply h_body | with_reducible apply done_only | split | dsimp only

theorem execWranglerStatus_only (c : Acs) (s : State) {s9 : State}
    (hk : execWranglerStatus c s = .next s9) : Only [.out, .host, .mem, .causes, .stats] s s9 := by
  unfold execWranglerStatus at hk
  cases hk
  repeat' first | with_reducible assumption | decide | (intro _) | with_reducible exact Only.rfl | extract_lets | with_reducible apply acsLen_only
                | with_reducible apply wrOnly_only | with_reducible apply done_only | dsimp only

theorem execWranglerPlacement_only (c : Acs) (s : State) {s9 : State}
    (hk : execWranglerPlacement c s = .next s9) : Only [.out, .host, .mem, .causes, .stats] s s9 := by
  unfold execWranglerPlacement at hk
  cases hk
  repeat' first | with_reducible assumption | decide | (intro _) | with_reducible exact Only.rfl | extract_lets | with_reducible apply acsLen_only
                | with_reducible apply wrOnly_only | with_reducible apply badArgIf_only | with_reducible apply done_only | dsimp only

theorem effWranglerHold_only {ps : List Part} {u0 : State} (hp : ∀ p ∈ ([.out, .host, .mem, .causes, .stats, .red, .wr] : List Part), p ∈ ps)
    (a : List Byte) (r : Option AcsRef) (s : State)  (hk : Only ps u0 s) :
    Only ps u0 (effWranglerHold a r s) := by
  unfold effWranglerHold
  repeat' first | with_reducible assumption | with_reducible exact sub_trans (by decide) hp | (intro _) | extract_lets
                | with_reducible apply finish_only
                | (refine only_mk _ ?_ (by intro p hq; cases p <;> first | exact absurd (hp _ (by decide)) hq | exact rfl)) | dsimp only

theorem execWranglerHold_only (c : Acs) (s : State) {s9 : State}
    (hk : execWranglerHold c s = .next s9) : Only [.out, .host, .mem, .causes, .stats, .red, .wr] s s9 := by
  unfold execWranglerHold at hk
  cases hk
  repeat' first | with_reducible assumption | decide | (intro _) | with_reducible exact Only.rfl | extract_lets | with_reducible apply acsLen_only
                | with_reducible apply wrOnly_only | with_reducible apply badArgIf_only | with_reducible apply nodeWide_only
                | with_reducible apply effWranglerHold_only | dsimp only

end Sys2Proof.Machine
end

