-- ==== Sys2Proof/Laws/OnlyNodeWide.lean ====
section
/-! SUPPORT. The parts of the state that every operation of Machine/NodeWide.lean may change, said once for each: all others are left alone (Only of
Safety.lean). -/
set_option Elab.async false
set_option linter.all false
namespace Sys2Proof.Machine
theorem effOf_only {ps : List Part} {u0 : State}
    (hp : ∀ p ∈ ([.out, .freeIdx, .node, .pwr, .tack, .host, .mem, .causes, .stats, .log, .hitch, .time, .sw, .stream, .ctl, .retain, .red, .wr, .can, .leg, .br] : List Part), p ∈ ps)
    (opcode : Nat) (a : List Byte) (r : Option AcsRef) (s : State)  (hk : Only ps u0 s) :
    Only ps u0 (effOf opcode a r s) := by
  unfold effOf
  repeat' first | with_reducible assumption | with_reducible exact sub_trans (by decide) hp | (intro _) | with_reducible apply only_ite
                | extract_lets | with_reducible apply effSysStable_only | with_reducible apply effTackCommit_only
                | with_reducible apply effHitchInhibit_only | with_reducible apply effHitchRequest_only | with_reducible apply effTimeSelect_only
                | with_reducible apply effTimeSet_only | with_reducible apply effStreamPut_only | with_reducible apply effStreamLine_only
                | with_reducible apply effStreamEnable_only | with_reducible apply effTaskStart_only | with_reducible apply effTaskStop_only
                | with_reducible apply effTaskResume_only | with_reducible apply effTaskSwap_only | with_reducible apply effForceSet_only
                | with_reducible apply effForceRelease_only | with_reducible apply effForceReleaseAll_only
                | with_reducible apply effWranglerHold_only | with_reducible apply effRedundSwitch_only | with_reducible apply effCanConfig_only
                | with_reducible apply effLegacyPortWrite_only | with_reducible apply effLegacyMsgSend_only
                | with_reducible apply effBridgeSession_only | with_reducible apply finish_only | split
                | (refine only_mk _ ?_ (by intro p hq; cases p <;> first | exact absurd (hp _ (by decide)) hq | exact rfl)) | dsimp only

theorem answer_only {ps : List Part} {u0 : State} (hp : ∀ p ∈ ([.out, .host, .causes, .stats, .red] : List Part), p ∈ ps) (c : NodeCmd)
    (status : Nat) (payload : List Byte) (s : State)  (hk : Only ps u0 s) :
    Only ps u0 (answer c status payload s) := by
  unfold answer
  repeat' first | with_reducible assumption | with_reducible exact sub_trans (by decide) hp | (intro _) | extract_lets
                | with_reducible apply tugAll_only | dsimp only

theorem reportFor_only {ps : List Part} {u0 : State} (hp : ∀ p ∈ ([.out, .host, .causes, .stats, .red] : List Part), p ∈ ps) (c : NodeCmd)
    (s : State)  (hk : Only ps u0 s) :
    Only ps u0 (reportFor c s) := by
  unfold reportFor
  repeat' first | with_reducible assumption | with_reducible exact sub_trans (by decide) hp | (intro _) | with_reducible apply only_ite
                | extract_lets | with_reducible apply tugAll_only | split | dsimp only

theorem takeCommand_only {ps : List Part} {u0 : State}
    (hp : ∀ p ∈ ([.out, .freeIdx, .node, .pwr, .host, .causes, .stats, .log, .time, .sw, .ctl, .red, .can, .leg, .br] : List Part), p ∈ ps)
    (link : Nat) (b : List Byte) (s : State)  (hk : Only ps u0 s) :
    Only ps u0 (takeCommand link b s) := by
  unfold takeCommand
  repeat' first | with_reducible assumption | with_reducible exact sub_trans (by decide) hp | (intro _) | with_reducible apply only_ite
                | extract_lets | with_reducible apply stageChunk_only | with_reducible apply excludeSelf_only | with_reducible apply answer_only
                | with_reducible apply tugAll_only | with_reducible apply reportFor_only | split
                | (refine only_mk _ ?_ (by intro p hq; cases p <;> first | exact absurd (hp _ (by decide)) hq | exact rfl)) | dsimp only

theorem takeStaging_only {ps : List Part} {u0 : State}
    (hp : ∀ p ∈ ([.out, .freeIdx, .host, .causes, .stats, .log, .time, .sw, .rx, .tx, .stream, .red] : List Part), p ∈ ps) (b : List Byte)
    (s : State)  (hk : Only ps u0 s) :
    Only ps u0 (takeStaging b s) := by
  unfold takeStaging
  repeat' first | with_reducible assumption | with_reducible exact sub_trans (by decide) hp | (intro _) | with_reducible apply only_ite
                | extract_lets | with_reducible apply stages_only | split
                | (refine only_mk _ ?_ (by intro p hq; cases p <;> first | exact absurd (hp _ (by decide)) hq | exact rfl)) | dsimp only

theorem takeFirmware_only {ps : List Part} {u0 : State}
    (hp : ∀ p ∈ ([.out, .freeIdx, .node, .host, .causes, .stats, .log, .time, .sw, .rx, .tx, .stream, .red] : List Part), p ∈ ps) (b : List Byte)
    (s : State)  (hk : Only ps u0 s) :
    Only ps u0 (takeFirmware b s) := by
  unfold takeFirmware
  repeat' first | with_reducible assumption | with_reducible exact sub_trans (by decide) hp | (intro _) | with_reducible apply only_ite
                | extract_lets | with_reducible apply takeStaging_only | with_reducible apply storeWitness_only | split | dsimp only

theorem execMgmtCommandReceive_only (m : TugRx) (s : State) {s9 : State}
    (hk : execMgmtCommandReceive m s = .next s9) : Only [.out, .freeIdx, .node, .pwr, .host, .causes, .stats, .log, .time, .sw, .rx, .tx, .stream, .ctl, .red, .can, .leg, .br] s s9 := by
  unfold execMgmtCommandReceive at hk
  cases hk
  repeat' first | with_reducible assumption | decide | (intro _) | with_reducible exact Only.rfl | with_reducible apply only_ite | extract_lets
                | with_reducible apply onTug_only | with_reducible apply takeCommand_only | with_reducible apply takeFirmware_only | split
                | dsimp only

theorem completeCmd_only {ps : List Part} {u0 : State} (hp : ∀ p ∈ ([.out, .host, .mem, .causes, .stats, .red] : List Part), p ∈ ps) (c : NodeCmd)
    (s : State)  (hk : Only ps u0 s) :
    Only ps u0 (completeCmd c s) := by
  unfold completeCmd
  repeat' first | with_reducible assumption | with_reducible exact sub_trans (by decide) hp | (intro _) | with_reducible apply only_ite
                | extract_lets | with_reducible apply acsDone_only | split
                | (refine only_mk _ ?_ (by intro p hq; cases p <;> first | exact absurd (hp _ (by decide)) hq | exact rfl)) | dsimp only

theorem takeAnswer_only {ps : List Part} {u0 : State} (hp : ∀ p ∈ ([.out, .host, .mem, .causes, .stats, .red] : List Part), p ∈ ps) (link : Nat)
    (b : List Byte) (s : State)  (hk : Only ps u0 s) :
    Only ps u0 (takeAnswer link b s) := by
  unfold takeAnswer
  repeat' first | with_reducible assumption | with_reducible exact sub_trans (by decide) hp | (intro _) | with_reducible apply only_ite
                | extract_lets | with_reducible apply completeCmd_only | split
                | (refine only_mk _ ?_ (by intro p hq; cases p <;> first | exact absurd (hp _ (by decide)) hq | exact rfl)) | dsimp only

theorem execMgmtResponseReceive_only (m : TugRx) (s : State) {s9 : State}
    (hk : execMgmtResponseReceive m s = .next s9) : Only [.out, .host, .mem, .causes, .stats, .red] s s9 := by
  unfold execMgmtResponseReceive at hk
  cases hk
  repeat' first | with_reducible assumption | decide | (intro _) | with_reducible exact Only.rfl | with_reducible apply only_ite | extract_lets
                | with_reducible apply onTug_only | with_reducible apply takeAnswer_only | split | dsimp only

theorem applyOwn_only {ps : List Part} {u0 : State}
    (hp : ∀ p ∈ ([.out, .freeIdx, .node, .pwr, .tack, .host, .mem, .causes, .stats, .log, .hitch, .time, .sw, .stream, .ctl, .retain, .red, .wr, .can, .leg, .br] : List Part), p ∈ ps)
    (c : NodeCmd) (s : State)  (hk : Only ps u0 s) :
    Only ps u0 (applyOwn c s) := by
  unfold applyOwn
  repeat' first | with_reducible assumption | with_reducible exact sub_trans (by decide) hp | (intro _) | with_reducible apply only_ite
                | extract_lets | with_reducible apply effOf_only | with_reducible apply completeCmd_only | split
                | (refine only_mk _ ?_ (by intro p hq; cases p <;> first | exact absurd (hp _ (by decide)) hq | exact rfl)) | dsimp only

theorem applyGuest_only {ps : List Part} {u0 : State}
    (hp : ∀ p ∈ ([.out, .freeIdx, .node, .pwr, .tack, .host, .mem, .causes, .stats, .log, .hitch, .time, .sw, .stream, .ctl, .retain, .red, .wr, .can, .leg, .br] : List Part), p ∈ ps)
    (c : NodeCmd) (s : State)  (hk : Only ps u0 s) :
    Only ps u0 (applyGuest c s) := by
  unfold applyGuest
  repeat' first | with_reducible assumption | with_reducible exact sub_trans (by decide) hp | (intro _) | with_reducible apply only_ite
                | extract_lets | with_reducible apply effOf_only | with_reducible apply answer_only | split
                | (refine only_mk _ ?_ (by intro p hq; cases p <;> first | exact absurd (hp _ (by decide)) hq | exact rfl)) | dsimp only

theorem execNodeWideApply_only (s : State) {s9 : State}
    (hk : execNodeWideApply s = .next s9) : Only [.out, .freeIdx, .node, .pwr, .tack, .host, .mem, .causes, .stats, .log, .hitch, .time, .sw, .rx, .tx, .stream, .ctl, .retain, .red, .wr, .can, .leg, .br] s s9 := by
  unfold execNodeWideApply at hk
  cases hk
  repeat' first | with_reducible assumption | decide | (intro _) | with_reducible exact Only.rfl | with_reducible apply only_ite | extract_lets
                | with_reducible apply applyOwn_only | with_reducible apply applyGuest_only | with_reducible apply stages_only | split
                | (refine only_mk _ ?_ (by intro p hp; cases p <;> first | exact absurd (by decide) hp | exact rfl)) | dsimp only

theorem execNodeWideTimeout_only (s : State) {s9 : State}
    (hk : execNodeWideTimeout s = .next s9) : Only [.out, .freeIdx, .node, .pwr, .host, .mem, .causes, .stats, .log, .time, .sw, .ctl, .red, .can, .leg, .br] s s9 := by
  unfold execNodeWideTimeout at hk
  cases hk
  repeat' first | with_reducible assumption | decide | (intro _) | with_reducible exact Only.rfl | with_reducible apply only_ite | extract_lets
                | with_reducible apply linkDown_only | with_reducible apply completeCmd_only | with_reducible apply only_foldl | split
                | (refine only_mk _ ?_ (by intro p hp; cases p <;> first | exact absurd (by decide) hp | exact rfl)) | dsimp only

end Sys2Proof.Machine
end

