-- ==== Sys2Proof/Laws/OnlyPort.lean ====
section
/-! SUPPORT. The parts of the state that every operation of Machine/Port.lean may change, said once for each: all others are left alone (Only of
Safety.lean). -/
set_option Elab.async false
set_option linter.all false
namespace Sys2Proof.Machine
theorem sendMerge_only {ps : List Part} {u0 : State}
    (hp : ∀ p ∈ ([.out, .freeIdx, .host, .mem, .causes, .stats, .log, .time, .sw, .rx, .tx, .red, .br] : List Part), p ∈ ps) (p : Nat)
    (respond : Bool) (s : State)  (hk : Only ps u0 s) :
    Only ps u0 (sendMerge p respond s) := by
  unfold sendMerge
  repeat' first | with_reducible assumption | with_reducible exact sub_trans (by decide) hp | (intro _) | with_reducible apply only_ite
                | extract_lets | with_reducible apply emit_only | with_reducible apply respond_only | split | dsimp only

theorem startVerify_only {ps : List Part} {u0 : State}
    (hp : ∀ p ∈ ([.out, .freeIdx, .host, .mem, .causes, .stats, .log, .time, .sw, .macs, .rx, .tx, .red, .br] : List Part), p ∈ ps) (p : Nat)
    (s : State)  (hk : Only ps u0 s) :
    Only ps u0 (startVerify p s) := by
  unfold startVerify
  repeat' first | with_reducible assumption | with_reducible exact sub_trans (by decide) hp | (intro _) | with_reducible apply only_ite
                | extract_lets | with_reducible apply setMac_only | with_reducible apply sendMerge_only | split
                | (refine only_mk _ ?_ (by intro p hq; cases p <;> first | exact absurd (hp _ (by decide)) hq | exact rfl)) | dsimp only

theorem verified_only {ps : List Part} {u0 : State}
    (hp : ∀ p ∈ ([.out, .freeIdx, .host, .causes, .stats, .log, .sw, .macs, .red] : List Part), p ∈ ps) (p : Nat) (ok : Bool) (s : State) 
    (hk : Only ps u0 s) :
    Only ps u0 (verified p ok s) := by
  unfold verified
  repeat' first | with_reducible assumption | with_reducible exact sub_trans (by decide) hp | (intro _) | with_reducible apply only_ite
                | extract_lets | with_reducible apply raise_only | with_reducible apply logEvent_only | with_reducible apply setMac_only | split
                | (refine only_mk _ ?_ (by intro p hq; cases p <;> first | exact absurd (hp _ (by decide)) hq | exact rfl)) | dsimp only

theorem execVerifyFrameReceive_only (port : Nat) (s : State) {s9 : State}
    (hk : execVerifyFrameReceive port s = .next s9) : Only [.out, .freeIdx, .host, .mem, .causes, .stats, .log, .time, .sw, .rx, .tx, .red, .br] s s9 := by
  unfold execVerifyFrameReceive at hk
  cases hk
  repeat' first | with_reducible assumption | decide | (intro _) | with_reducible exact Only.rfl | with_reducible apply only_ite | extract_lets
                | with_reducible apply sendMerge_only | split | dsimp only

theorem execRespondFrameReceive_only (port : Nat) (s : State) {s9 : State}
    (hk : execRespondFrameReceive port s = .next s9) : Only [.out, .freeIdx, .host, .causes, .stats, .log, .sw, .macs, .red] s s9 := by
  unfold execRespondFrameReceive at hk
  cases hk
  repeat' first | with_reducible assumption | decide | (intro _) | with_reducible exact Only.rfl | with_reducible apply only_ite | extract_lets
                | with_reducible apply verified_only | split | dsimp only

theorem execVerifyTimeExpiry_only (port : Nat) (s : State) {s9 : State}
    (hk : execVerifyTimeExpiry port s = .next s9) : Only [.out, .freeIdx, .host, .mem, .causes, .stats, .log, .time, .sw, .macs, .rx, .tx, .red, .br] s s9 := by
  unfold execVerifyTimeExpiry at hk
  cases hk
  repeat' first | with_reducible assumption | decide | (intro _) | with_reducible exact Only.rfl | with_reducible apply only_ite | extract_lets
                | with_reducible apply verified_only | with_reducible apply count_only | with_reducible apply sendMerge_only
                | with_reducible apply setMac_only | split
                | (refine only_mk _ ?_ (by intro p hp; cases p <;> first | exact absurd (by decide) hp | exact rfl)) | dsimp only

theorem endPause_only {ps : List Part} {u0 : State} (hp : ∀ p ∈ ([.out, .host, .causes, .stats, .macs] : List Part), p ∈ ps) (p : Nat) (s : State) 
    (hk : Only ps u0 s) :
    Only ps u0 (endPause p s) := by
  unfold endPause
  repeat' first | with_reducible assumption | with_reducible exact sub_trans (by decide) hp | (intro _) | with_reducible apply only_ite
                | extract_lets | with_reducible apply countN_only | with_reducible apply setMac_only | split
                | (refine only_mk _ ?_ (by intro p hq; cases p <;> first | exact absurd (hp _ (by decide)) hq | exact rfl)) | dsimp only

theorem execPauseFrameReceive_only (port : Nat) (quanta : Nat) (sa : Mac) (s : State) {s9 : State}
    (hk : execPauseFrameReceive port quanta sa s = .next s9) : Only [.out, .host, .causes, .stats, .macs] s s9 := by
  unfold execPauseFrameReceive at hk
  cases hk
  repeat' first | with_reducible assumption | decide | (intro _) | with_reducible exact Only.rfl | with_reducible apply only_ite | extract_lets
                | with_reducible apply count_only | with_reducible apply setMac_only | with_reducible apply endPause_only | split
                | (refine only_mk _ ?_ (by intro p hp; cases p <;> first | exact absurd (by decide) hp | exact rfl)) | dsimp only

theorem execPauseExpiry_only (port : Nat) (s : State) {s9 : State}
    (hk : execPauseExpiry port s = .next s9) : Only [.out, .host, .causes, .stats, .macs] s s9 := by
  unfold execPauseExpiry at hk
  cases hk
  repeat' first | with_reducible assumption | decide | (intro _) | with_reducible exact Only.rfl | with_reducible apply only_ite | extract_lets
                | with_reducible apply endPause_only | split | dsimp only

theorem execPauseWatchdog_only (port : Nat) (s : State) {s9 : State}
    (hk : execPauseWatchdog port s = .next s9) : Only [.out, .freeIdx, .host, .causes, .stats, .log, .sw, .macs, .red] s s9 := by
  unfold execPauseWatchdog at hk
  cases hk
  repeat' first | with_reducible assumption | decide | (intro _) | with_reducible exact Only.rfl | with_reducible apply only_ite | extract_lets
                | with_reducible apply endPause_only | with_reducible apply setMac_only | with_reducible apply raise_only
                | with_reducible apply logEvent_only | with_reducible apply count_only | split
                | (refine only_mk _ ?_ (by intro p hp; cases p <;> first | exact absurd (by decide) hp | exact rfl)) | dsimp only

theorem execPauseHoldoffExpiry_only (port : Nat) (s : State) {s9 : State} (hk : execPauseHoldoffExpiry port s = .next s9) : Only [.macs] s s9 := by
  unfold execPauseHoldoffExpiry at hk
  cases hk
  repeat' first | with_reducible assumption | decide | (intro _) | with_reducible exact Only.rfl | with_reducible apply only_ite | extract_lets
                | with_reducible apply setMac_only | split
                | (refine only_mk _ ?_ (by intro p hp; cases p <;> first | exact absurd (by decide) hp | exact rfl)) | dsimp only

theorem execPauseRefresh_only (port : Nat) (s : State) {s9 : State}
    (hk : execPauseRefresh port s = .next s9) : Only [.out, .host, .causes, .stats, .macs] s s9 := by
  unfold execPauseRefresh at hk
  cases hk
  repeat' first | with_reducible assumption | decide | (intro _) | with_reducible exact Only.rfl | with_reducible apply only_ite | extract_lets
                | with_reducible apply sendPause_only | with_reducible apply pauseCheck_only | split | dsimp only

theorem linkChanged_only {ps : List Part} {u0 : State}
    (hp : ∀ p ∈ ([.out, .freeIdx, .host, .causes, .stats, .log, .sw, .macs, .red] : List Part), p ∈ ps) (p : Nat) (up : Bool) (rate : Nat)
    (s : State)  (hk : Only ps u0 s) :
    Only ps u0 (linkChanged p up rate s) := by
  unfold linkChanged
  repeat' first | with_reducible assumption | with_reducible exact sub_trans (by decide) hp | (intro _) | with_reducible apply only_ite
                | extract_lets | with_reducible apply raise_only | with_reducible apply logEvent_only | with_reducible apply setMac_only | split
                | (refine only_mk _ ?_ (by intro p hq; cases p <;> first | exact absurd (hp _ (by decide)) hq | exact rfl)) | dsimp only

theorem execLinkUp_only (port : Nat) (rate : Nat) (s : State) {s9 : State}
    (hk : execLinkUp port rate s = .next s9) : Only [.out, .freeIdx, .node, .pwr, .boot, .sec, .host, .mem, .causes, .stats, .log, .hitch, .time, .sw, .macs, .rx, .tx, .stream, .ctl, .red, .can, .leg, .br] s s9 := by
  unfold execLinkUp at hk
  cases hk
  repeat' first | with_reducible assumption | decide | (intro _) | with_reducible exact Only.rfl | with_reducible apply only_ite | extract_lets
                | with_reducible apply startVerify_only | with_reducible apply linkChanged_only | with_reducible apply setMac_only
                | with_reducible apply wakeEvent_only | with_reducible apply logEvent_only | split
                | (refine only_mk _ ?_ (by intro p hp; cases p <;> first | exact absurd (by decide) hp | exact rfl)) | dsimp only

theorem execLinkDown_only (port : Nat) (cutOff : Bool) (s : State) {s9 : State}
    (hk : execLinkDown port cutOff s = .next s9) : Only [.out, .freeIdx, .node, .pwr, .host, .mem, .causes, .stats, .log, .hitch, .time, .sw, .macs, .rx, .tx, .ctl, .red, .wr, .leg, .br] s s9 := by
  unfold execLinkDown at hk
  cases hk
  repeat' first | with_reducible assumption | decide | (intro _) | with_reducible exact Only.rfl | with_reducible apply only_ite | extract_lets
                | with_reducible apply count_only | with_reducible apply endPause_only | with_reducible apply setMac_only
                | with_reducible apply linkChanged_only | with_reducible apply dropPort_only | with_reducible apply startVerify_only
                | with_reducible apply setHPort_only | with_reducible apply neighbourLost_only | with_reducible apply setSec_only
                | with_reducible apply mkaLost_only | with_reducible apply unlearn_only | split
                | (refine only_mk _ ?_ (by intro p hp; cases p <;> first | exact absurd (by decide) hp | exact rfl)) | dsimp only

theorem execLinkDebounceExpiry_only (port : Nat) (s : State) {s9 : State}
    (hk : execLinkDebounceExpiry port s = .next s9) : Only [.out, .freeIdx, .host, .causes, .stats, .hitch, .sw, .macs, .red, .wr] s s9 := by
  unfold execLinkDebounceExpiry at hk
  cases hk
  repeat' first | with_reducible assumption | decide | (intro _) | with_reducible exact Only.rfl | with_reducible apply only_ite | extract_lets
                | with_reducible apply setMac_only | with_reducible apply hitchAfter_only | with_reducible apply setSec_only
                | with_reducible apply setHPort_only | split
                | (refine only_mk _ ?_ (by intro p hp; cases p <;> first | exact absurd (by decide) hp | exact rfl)) | dsimp only

theorem execMkaFrameReceive_only (port : Nat) (ev : MkaEvent) (s : State) {s9 : State}
    (hk : execMkaFrameReceive port ev s = .next s9) : Only [.out, .freeIdx, .host, .causes, .stats, .log, .sw, .red] s s9 := by
  unfold execMkaFrameReceive at hk
  cases hk
  repeat' first | with_reducible assumption | decide | (intro _) | with_reducible exact Only.rfl | with_reducible apply only_ite | extract_lets
                | with_reducible apply setSec_only | with_reducible apply saSaid_only | with_reducible apply replay_only | split
                | (refine only_mk _ ?_ (by intro p hp; cases p <;> first | exact absurd (by decide) hp | exact rfl)) | dsimp only

theorem execMkaHelloTimer_only (port : Nat) (s : State) {s9 : State}
    (hk : execMkaHelloTimer port s = .next s9) : Only [.out, .freeIdx, .host, .causes, .stats, .sw] s s9 := by
  unfold execMkaHelloTimer at hk
  cases hk
  repeat' first | with_reducible assumption | decide | (intro _) | with_reducible exact Only.rfl | with_reducible apply only_ite | extract_lets
                | with_reducible apply sendMka_only | split | dsimp only

theorem execMkaLifetimeExpiry_only (port : Nat) (s : State) {s9 : State}
    (hk : execMkaLifetimeExpiry port s = .next s9) : Only [.out, .freeIdx, .host, .causes, .stats, .log, .sw, .red] s s9 := by
  unfold execMkaLifetimeExpiry at hk
  cases hk
  repeat' first | with_reducible assumption | decide | (intro _) | with_reducible exact Only.rfl | with_reducible apply only_ite | extract_lets
                | with_reducible apply mkaLost_only | split | dsimp only

theorem execSakRekeyTimer_only (port : Nat) (s : State) {s9 : State}
    (hk : execSakRekeyTimer port s = .next s9) : Only [.out, .freeIdx, .host, .causes, .stats, .sw] s s9 := by
  unfold execSakRekeyTimer at hk
  cases hk
  repeat' first | with_reducible assumption | decide | (intro _) | with_reducible exact Only.rfl | with_reducible apply only_ite | extract_lets
                | with_reducible apply newSak_only | split | dsimp only

theorem execPortMacStatus_only (c : Acs) (s : State) {s9 : State}
    (hk : execPortMacStatus c s = .next s9) : Only [.out, .host, .mem, .causes, .stats] s s9 := by
  unfold execPortMacStatus at hk
  cases hk
  repeat' first | with_reducible assumption | decide | (intro _) | with_reducible exact Only.rfl | with_reducible apply only_ite | extract_lets
                | with_reducible apply acsLen_only | with_reducible apply badArgIf_only | with_reducible apply done_only | split
                | (refine only_mk _ ?_ (by intro p hp; cases p <;> first | exact absurd (by decide) hp | exact rfl)) | dsimp only

theorem execPortMacSet_only (c : Acs) (s : State) {s9 : State}
    (hk : execPortMacSet c s = .next s9) : Only [.out, .freeIdx, .host, .mem, .causes, .stats, .log, .time, .sw, .macs, .rx, .tx, .red, .br] s s9 := by
  unfold execPortMacSet at hk
  cases hk
  repeat' first | with_reducible assumption | decide | (intro _) | with_reducible exact Only.rfl | with_reducible apply only_ite | extract_lets
                | with_reducible apply acsLen_only | with_reducible apply done_only | with_reducible apply setMac_only
                | with_reducible apply pauseCheck_only | with_reducible apply startVerify_only | split
                | (refine only_mk _ ?_ (by intro p hp; cases p <;> first | exact absurd (by decide) hp | exact rfl)) | dsimp only

theorem execPortWakeSet_only (c : Acs) (s : State) {s9 : State}
    (hk : execPortWakeSet c s = .next s9) : Only [.out, .host, .mem, .causes, .stats, .macs] s s9 := by
  unfold execPortWakeSet at hk
  cases hk
  repeat' first | with_reducible assumption | decide | (intro _) | with_reducible exact Only.rfl | with_reducible apply only_ite | extract_lets
                | with_reducible apply acs_only | with_reducible apply done_only | with_reducible apply setMac_only | split
                | (refine only_mk _ ?_ (by intro p hp; cases p <;> first | exact absurd (by decide) hp | exact rfl)) | dsimp only

theorem execPortWakeRead_only (c : Acs) (s : State) {s9 : State}
    (hk : execPortWakeRead c s = .next s9) : Only [.out, .host, .mem, .causes, .stats] s s9 := by
  unfold execPortWakeRead at hk
  cases hk
  repeat' first | with_reducible assumption | decide | (intro _) | with_reducible exact Only.rfl | with_reducible apply only_ite | extract_lets
                | with_reducible apply acsLen_only | with_reducible apply badArgIf_only | with_reducible apply done_only | split | dsimp only

end Sys2Proof.Machine
end

