-- ==== Sys2Proof/Laws/OnlyRing.lean ====
section
/-! SUPPORT. The parts of the state that every operation of Machine/Ring.lean may change, said once for each: all others are left alone (Only of
Safety.lean). -/
set_option Elab.async false
set_option linter.all false
namespace Sys2Proof.Machine
theorem execRingEnable_only (tx : Bool) (ring : Nat) (value : Word) (s : State) {s9 : State}
    (hk : execRingEnable tx ring value s = .next s9) : Only [.out, .host, .causes, .stats, .sw, .rx, .tx] s s9 := by
  unfold execRingEnable at hk
  cases hk
  repeat' first | with_reducible assumption | decide | (intro _) | with_reducible exact Only.rfl | with_reducible apply only_ite | extract_lets
                | with_reducible apply ringCtrl_only | split | dsimp only

theorem execRingDisable_only (tx : Bool) (ring : Nat) (s : State) {s9 : State}
    (hk : execRingDisable tx ring s = .next s9) : Only [.out, .host, .causes, .stats, .sw, .rx, .tx] s s9 := by
  unfold execRingDisable at hk
  cases hk
  repeat' first | with_reducible assumption | decide | (intro _) | with_reducible exact Only.rfl | with_reducible apply only_ite | extract_lets
                | with_reducible apply stopRing_only | split | dsimp only

theorem execRingTailWrite_only (tx : Bool) (ring : Nat) (index : Nat) (s : State) {s9 : State}
    (hk : execRingTailWrite tx ring index s = .next s9) : Only [.rx, .tx] s s9 := by
  unfold execRingTailWrite at hk
  cases hk
  repeat' first | with_reducible assumption | decide | (intro _) | with_reducible exact Only.rfl | with_reducible apply only_ite | extract_lets
                | with_reducible apply ringTail_only | split | dsimp only

theorem execTxFrameFetched_only (ring : Nat) (descs : List (List Byte)) (data : List Byte) (s : State) {s9 : State}
    (hk : execTxFrameFetched ring descs data s = .next s9) : Only [.out, .freeIdx, .host, .mem, .causes, .stats, .log, .time, .sw, .rx, .tx, .red] s s9 := by
  unfold execTxFrameFetched at hk
  cases hk
  repeat' first | with_reducible assumption | decide | (intro _) | with_reducible exact Only.rfl | with_reducible apply only_ite | extract_lets
                | with_reducible apply txWriteBack_only | with_reducible apply txFail_only | with_reducible apply ringError_only
                | with_reducible apply count_only | with_reducible apply setTx_only | with_reducible apply settleUids_only
                | with_reducible apply txFinish_only | split
                | (refine only_mk _ ?_ (by intro p hp; cases p <;> first | exact absurd (by decide) hp | exact rfl)) | dsimp only

theorem execTxFenceRelease_only (ring : Nat) (s : State) {s9 : State}
    (hk : execTxFenceRelease ring s = .next s9) : Only [.out, .freeIdx, .host, .mem, .causes, .stats, .log, .time, .sw, .rx, .tx, .red] s s9 := by
  unfold execTxFenceRelease at hk
  cases hk
  repeat' first | with_reducible assumption | decide | (intro _) | with_reducible exact Only.rfl | with_reducible apply only_ite | extract_lets
                | with_reducible apply txFinish_only | with_reducible apply setTx_only | split
                | (refine only_mk _ ?_ (by intro p hp; cases p <;> first | exact absurd (by decide) hp | exact rfl)) | dsimp only

theorem execRxRingDeliver_only (ring : Nat) (bufs : List Nat) (cutAt : Nat) (s : State) {s9 : State}
    (hk : execRxRingDeliver ring bufs cutAt s = .next s9) : Only [.out, .freeIdx, .host, .causes, .stats, .log, .sw, .macs, .rx, .tx, .red] s s9 := by
  unfold execRxRingDeliver at hk
  cases hk
  repeat' first | with_reducible assumption | decide | (intro _) | with_reducible exact Only.rfl | with_reducible apply only_ite | extract_lets
                | with_reducible apply setRx_only | with_reducible apply logEvent_only | with_reducible apply count_only
                | with_reducible apply ringDone_only | with_reducible apply rxWrite_only | with_reducible apply settleUids_only
                | with_reducible apply unread_only | with_reducible apply pauseCheck_only | split
                | (refine only_mk _ ?_ (by intro p hp; cases p <;> first | exact absurd (by decide) hp | exact rfl)) | dsimp only

theorem execRxHoldExpiry_only (ring : Nat) (s : State) {s9 : State}
    (hk : execRxHoldExpiry ring s = .next s9) : Only [.out, .freeIdx, .host, .causes, .stats, .log, .sw, .macs, .rx, .tx, .red] s s9 := by
  unfold execRxHoldExpiry at hk
  cases hk
  repeat' first | with_reducible assumption | decide | (intro _) | with_reducible exact Only.rfl | with_reducible apply only_ite | extract_lets
                | with_reducible apply rxHoldDrop_only | with_reducible apply setRx_only | with_reducible apply settleUids_only
                | with_reducible apply unread_only | with_reducible apply pauseCheck_only | split
                | (refine only_mk _ ?_ (by intro p hp; cases p <;> first | exact absurd (by decide) hp | exact rfl)) | dsimp only

theorem execRingIrqDelayExpiry_only (tx : Bool) (ring : Nat) (s : State) {s9 : State}
    (hk : execRingIrqDelayExpiry tx ring s = .next s9) : Only [.out, .host, .stats, .rx, .tx] s s9 := by
  unfold execRingIrqDelayExpiry at hk
  cases hk
  repeat' first | with_reducible assumption | decide | (intro _) | with_reducible exact Only.rfl | with_reducible apply only_ite | extract_lets
                | with_reducible apply sendVector_only | with_reducible apply setRing_only | split
                | (refine only_mk _ ?_ (by intro p hp; cases p <;> first | exact absurd (by decide) hp | exact rfl)) | dsimp only

theorem pcieError_only {ps : List Part} {u0 : State} (hp : ∀ p ∈ ([.out, .freeIdx, .host, .causes, .stats, .log, .sw, .red] : List Part), p ∈ ps)
    (status : Word) (s : State)  (hk : Only ps u0 s) :
    Only ps u0 (pcieError status s) := by
  unfold pcieError
  repeat' first | with_reducible assumption | with_reducible exact sub_trans (by decide) hp | (intro _) | extract_lets
                | with_reducible apply raise_only | with_reducible apply logEvent_only | with_reducible apply count_only | dsimp only

theorem execPcieDmaError_only (tx : Bool) (ring : Nat) (kind : Nat) (status : Word) (descs : List (List Byte)) (s : State) {s9 : State}
    (hk : execPcieDmaError tx ring kind status descs s = .next s9) : Only [.out, .freeIdx, .host, .causes, .stats, .log, .time, .sw, .rx, .tx, .red] s s9 := by
  unfold execPcieDmaError at hk
  cases hk
  repeat' first | with_reducible assumption | decide | (intro _) | with_reducible exact Only.rfl | with_reducible apply only_ite | extract_lets
                | with_reducible apply pcieError_only | with_reducible apply txWriteBack_only | with_reducible apply txFail_only
                | with_reducible apply raise_only | with_reducible apply ringError_only | with_reducible apply setRing_only
                | with_reducible apply stopRing_only | split
                | (refine only_mk _ ?_ (by intro p hp; cases p <;> first | exact absurd (by decide) hp | exact rfl)) | dsimp only

end Sys2Proof.Machine
end

