-- ==== Sys2Proof/Laws/OnlySecurity.lean ====
section
/-! SUPPORT. The parts of the state that every operation of Machine/Security.lean may change, said once for each: all others are left alone (Only of
Safety.lean). -/
set_option Elab.async false
set_option linter.all false
namespace Sys2Proof.Machine
theorem authorised_only {ps : List Part} {u0 : State} (hp : ∀ p ∈ ([.out, .sec, .host, .mem, .causes, .stats] : List Part), p ∈ ps) (op : Nat)
    (c : Acs) (f : State → State) (s : State) (h_f : ∀ (s9 : State), Only ps u0 s9 → Only ps u0 (f  s9)) (hk : Only ps u0 s) :
    Only ps u0 (authorised op c f s) := by
  unfold authorised
  repeat' first | with_reducible assumption | with_reducible exact sub_trans (by decide) hp | (intro _) | with_reducible apply only_ite
                | extract_lets | apply h_f | with_reducible apply useAuth_only | with_reducible apply done_only | split | dsimp only

theorem execSecStatus_only (c : Acs) (s : State) {s9 : State}
    (hk : execSecStatus c s = .next s9) : Only [.out, .host, .mem, .causes, .stats] s s9 := by
  unfold execSecStatus at hk
  cases hk
  repeat' first | with_reducible assumption | decide | (intro _) | with_reducible exact Only.rfl | with_reducible apply only_ite | extract_lets
                | with_reducible apply acsLen_only | with_reducible apply done_only | split
                | (refine only_mk _ ?_ (by intro p hp; cases p <;> first | exact absurd (by decide) hp | exact rfl)) | dsimp only

theorem execSecChallenge_only (c : Acs) (s : State) {s9 : State}
    (hk : execSecChallenge c s = .next s9) : Only [.out, .freeIdx, .sec, .host, .mem, .causes, .stats] s s9 := by
  unfold execSecChallenge at hk
  cases hk
  repeat' first | with_reducible assumption | decide | (intro _) | with_reducible exact Only.rfl | with_reducible apply only_ite | extract_lets
                | with_reducible apply acsLen_only | with_reducible apply badArgIf_only | with_reducible apply done_only
                | with_reducible apply useFree_only | split
                | (refine only_mk _ ?_ (by intro p hp; cases p <;> first | exact absurd (by decide) hp | exact rfl)) | dsimp only

theorem authFailed_only {ps : List Part} {u0 : State}
    (hp : ∀ p ∈ ([.out, .freeIdx, .sec, .host, .causes, .stats, .log, .sw, .red] : List Part), p ∈ ps) (op : Nat) (slot : Nat) (s : State) 
    (hk : Only ps u0 s) :
    Only ps u0 (authFailed op slot s) := by
  unfold authFailed
  repeat' first | with_reducible assumption | with_reducible exact sub_trans (by decide) hp | (intro _) | with_reducible apply only_ite
                | extract_lets | with_reducible apply logEvent_only | split
                | (refine only_mk _ ?_ (by intro p hq; cases p <;> first | exact absurd (hp _ (by decide)) hq | exact rfl)) | dsimp only

theorem execSecAuthorise_only (c : Acs) (s : State) {s9 : State}
    (hk : execSecAuthorise c s = .next s9) : Only [.out, .freeIdx, .sec, .host, .mem, .causes, .stats, .log, .sw, .red] s s9 := by
  unfold execSecAuthorise at hk
  cases hk
  repeat' first | with_reducible assumption | decide | (intro _) | with_reducible exact Only.rfl | with_reducible apply only_ite | extract_lets
                | with_reducible apply acsLen_only | with_reducible apply badArgIf_only | with_reducible apply done_only
                | with_reducible apply authFailed_only | split
                | (refine only_mk _ ?_ (by intro p hp; cases p <;> first | exact absurd (by decide) hp | exact rfl)) | dsimp only

theorem keyChange_only {ps : List Part} {u0 : State} (hp : ∀ p ∈ ([.out, .freeIdx, .host, .causes, .stats, .log, .sw, .red] : List Part), p ∈ ps)
    (slot : Nat) (what : Nat) (perm : Nat) (s : State)  (hk : Only ps u0 s) :
    Only ps u0 (keyChange slot what perm s) := by
  unfold keyChange
  repeat' first | with_reducible assumption | with_reducible exact sub_trans (by decide) hp | (intro _) | extract_lets
                | with_reducible apply logEvent_only | dsimp only

theorem execSecKeyInstall_only (c : Acs) (s : State) {s9 : State}
    (hk : execSecKeyInstall c s = .next s9) : Only [.out, .freeIdx, .sec, .host, .mem, .causes, .stats, .log, .sw, .red] s s9 := by
  unfold execSecKeyInstall at hk
  cases hk
  repeat' first | with_reducible assumption | decide | (intro _) | with_reducible exact Only.rfl | with_reducible apply only_ite | extract_lets
                | with_reducible apply acsLen_only | with_reducible apply badArgIf_only | with_reducible apply authorised_only
                | with_reducible apply done_only | with_reducible apply keyChange_only | split
                | (refine only_mk _ ?_ (by intro p hp; cases p <;> first | exact absurd (by decide) hp | exact rfl)) | dsimp only

theorem execSecKeyRevoke_only (c : Acs) (s : State) {s9 : State}
    (hk : execSecKeyRevoke c s = .next s9) : Only [.out, .freeIdx, .sec, .host, .mem, .causes, .stats, .log, .sw, .red] s s9 := by
  unfold execSecKeyRevoke at hk
  cases hk
  repeat' first | with_reducible assumption | decide | (intro _) | with_reducible exact Only.rfl | with_reducible apply only_ite | extract_lets
                | with_reducible apply acsLen_only | with_reducible apply badArgIf_only | with_reducible apply authorised_only
                | with_reducible apply done_only | with_reducible apply keyChange_only | split
                | (refine only_mk _ ?_ (by intro p hp; cases p <;> first | exact absurd (by decide) hp | exact rfl)) | dsimp only

theorem execSecAdvance_only (c : Acs) (s : State) {s9 : State}
    (hk : execSecAdvance c s = .next s9) : Only [.out, .freeIdx, .sec, .host, .mem, .causes, .stats, .log, .sw, .red] s s9 := by
  unfold execSecAdvance at hk
  cases hk
  repeat' first | with_reducible assumption | decide | (intro _) | with_reducible exact Only.rfl | with_reducible apply only_ite | extract_lets
                | with_reducible apply acsLen_only | with_reducible apply badArgIf_only | with_reducible apply authorised_only
                | with_reducible apply done_only | with_reducible apply logEvent_only | split
                | (refine only_mk _ ?_ (by intro p hp; cases p <;> first | exact absurd (by decide) hp | exact rfl)) | dsimp only

theorem execSecLock_only (c : Acs) (s : State) {s9 : State}
    (hk : execSecLock c s = .next s9) : Only [.out, .freeIdx, .sec, .host, .mem, .causes, .stats, .log, .sw, .red] s s9 := by
  unfold execSecLock at hk
  cases hk
  repeat' first | with_reducible assumption | decide | (intro _) | with_reducible exact Only.rfl | with_reducible apply only_ite | extract_lets
                | with_reducible apply acsLen_only | with_reducible apply done_only | with_reducible apply authorised_only
                | with_reducible apply logEvent_only | split
                | (refine only_mk _ ?_ (by intro p hp; cases p <;> first | exact absurd (by decide) hp | exact rfl)) | dsimp only

theorem execSecDebugUnlock_only (c : Acs) (s : State) {s9 : State}
    (hk : execSecDebugUnlock c s = .next s9) : Only [.out, .freeIdx, .sec, .host, .mem, .causes, .stats, .log, .sw, .red] s s9 := by
  unfold execSecDebugUnlock at hk
  cases hk
  repeat' first | with_reducible assumption | decide | (intro _) | with_reducible exact Only.rfl | extract_lets | with_reducible apply acsLen_only
                | with_reducible apply authorised_only | with_reducible apply done_only | with_reducible apply logEvent_only
                | (refine only_mk _ ?_ (by intro p hp; cases p <;> first | exact absurd (by decide) hp | exact rfl)) | dsimp only

theorem execSecFwWrite_only (c : Acs) (s : State) {s9 : State}
    (hk : execSecFwWrite c s = .next s9) : Only [.out, .boot, .host, .mem, .causes, .stats] s s9 := by
  unfold execSecFwWrite at hk
  cases hk
  repeat' first | with_reducible assumption | decide | (intro _) | with_reducible exact Only.rfl | with_reducible apply only_ite | extract_lets
                | with_reducible apply acs_only | with_reducible apply done_only | split
                | (refine only_mk _ ?_ (by intro p hp; cases p <;> first | exact absurd (by decide) hp | exact rfl)) | dsimp only

theorem execSecFwSelect_only (c : Acs) (s : State) {s9 : State}
    (hk : execSecFwSelect c s = .next s9) : Only [.out, .boot, .sec, .host, .mem, .causes, .stats] s s9 := by
  unfold execSecFwSelect at hk
  cases hk
  repeat' first | with_reducible assumption | decide | (intro _) | with_reducible exact Only.rfl | with_reducible apply only_ite | extract_lets
                | with_reducible apply acsLen_only | with_reducible apply badArgIf_only | with_reducible apply authorised_only
                | with_reducible apply done_only | split
                | (refine only_mk _ ?_ (by intro p hp; cases p <;> first | exact absurd (by decide) hp | exact rfl)) | dsimp only

end Sys2Proof.Machine
end

