-- ==== Sys2Proof/Laws/OnlyWindow.lean ====
section
/-! SUPPORT. The parts of the state that every operation of Machine/Window.lean may change, said once for each: all others are left alone (Only of
Safety.lean). -/
set_option Elab.async false
set_option linter.all false
namespace Sys2Proof.Machine
theorem execRegisterWrite_only (off : Nat) (value : Word) (s : State) {s9 : State}
    (hk : execRegisterWrite off value s = .next s9) : Only [.out, .freeIdx, .node, .pwr, .boot, .host, .mem, .causes, .stats, .log, .hitch, .time, .sw, .rx, .tx, .stream, .ctl, .retain, .red, .wr, .can, .leg, .br] s s9 := by
  unfold execRegisterWrite at hk
  cases hk
  repeat' first | with_reducible assumption | decide | (intro _) | with_reducible exact Only.rfl | with_reducible apply only_ite | extract_lets
                | with_reducible apply writeC_only | with_reducible apply writeX_only | with_reducible apply writeDl_only | split | dsimp only

theorem execQspiWrite_only (addr : Nat) (data : List Byte) (s : State) {s9 : State}
    (hk : execQspiWrite addr data s = .next s9) : Only [.out, .freeIdx, .node, .pwr, .host, .mem, .causes, .stats, .log, .hitch, .time, .sw, .rx, .tx, .stream, .ctl, .retain, .red, .wr, .can, .leg, .br] s s9 := by
  unfold execQspiWrite at hk
  cases hk
  repeat' first | with_reducible assumption | decide | (intro _) | with_reducible exact Only.rfl | with_reducible apply only_ite | extract_lets
                | with_reducible apply qspiWrite_only | split | dsimp only

theorem execQspiWriteQuad_only (addr : Nat) (data : List Byte) (s : State) {s9 : State}
    (hk : execQspiWriteQuad addr data s = .next s9) : Only [.out, .freeIdx, .node, .pwr, .host, .mem, .causes, .stats, .log, .hitch, .time, .sw, .rx, .tx, .stream, .ctl, .retain, .red, .wr, .can, .leg, .br] s s9 := by
  unfold execQspiWriteQuad at hk
  cases hk
  repeat' first | with_reducible assumption | decide | (intro _) | with_reducible exact Only.rfl | with_reducible apply only_ite | extract_lets
                | with_reducible apply qspiWrite_only | split | dsimp only

theorem execQspiRead_only (addr : Nat) (words : Nat) (cut : Bool) (s : State) {s9 : State}
    (hk : execQspiRead addr words cut s = .next s9) : Only [.out, .freeIdx, .host, .causes, .stats, .log, .time, .sw, .red, .can] s s9 := by
  unfold execQspiRead at hk
  cases hk
  repeat' first | with_reducible assumption | decide | (intro _) | with_reducible exact Only.rfl | with_reducible apply only_ite | extract_lets
                | with_reducible apply qspiRead_only | split | dsimp only

theorem execQspiReadQuad_only (addr : Nat) (words : Nat) (cut : Bool) (s : State) {s9 : State}
    (hk : execQspiReadQuad addr words cut s = .next s9) : Only [.out, .freeIdx, .host, .causes, .stats, .log, .time, .sw, .red, .can] s s9 := by
  unfold execQspiReadQuad at hk
  cases hk
  repeat' first | with_reducible assumption | decide | (intro _) | with_reducible exact Only.rfl | with_reducible apply only_ite | extract_lets
                | with_reducible apply qspiRead_only | split | dsimp only

theorem execQspiStatus_only (s : State) {s9 : State} (hk : execQspiStatus s = .next s9) : Only [.out, .host] s s9 := by
  unfold execQspiStatus at hk
  cases hk
  repeat' first | with_reducible assumption | decide | (intro _) | with_reducible exact Only.rfl | with_reducible apply only_ite | extract_lets
                | with_reducible apply emit_only | split
                | (refine only_mk _ ?_ (by intro p hp; cases p <;> first | exact absurd (by decide) hp | exact rfl)) | dsimp only

theorem execStatCounterRead_only (off : Nat) (s : State) {s9 : State}
    (hk : execStatCounterRead off s = .next s9) : Only [.out, .host, .causes, .stats] s s9 := by
  unfold execStatCounterRead at hk
  cases hk
  repeat' first | with_reducible assumption | decide | (intro _) | with_reducible exact Only.rfl | with_reducible apply only_ite | extract_lets
                | with_reducible apply readOut_only | with_reducible apply statRead_only | split | dsimp only

theorem execSatMapRead_only (off : Nat) (s : State) {s9 : State}
    (hk : execSatMapRead off s = .next s9) : Only [.out, .host, .causes, .stats] s s9 := by
  unfold execSatMapRead at hk
  cases hk
  repeat' first | with_reducible assumption | decide | (intro _) | with_reducible exact Only.rfl | with_reducible apply only_ite | extract_lets
                | with_reducible apply readOut_only | with_reducible apply statRead_only | split | dsimp only

theorem execSnapFcLoRead_only (s : State) {s9 : State} (hk : execSnapFcLoRead s = .next s9) : Only [.out, .time] s s9 := by
  unfold execSnapFcLoRead at hk
  cases hk
  repeat' first | with_reducible assumption | decide | (intro _) | with_reducible exact Only.rfl | with_reducible apply only_ite | extract_lets
                | with_reducible apply readOut_only | with_reducible apply snapRead_only | split | dsimp only

theorem execPpsinStatRead_only (s : State) {s9 : State} (hk : execPpsinStatRead s = .next s9) : Only [.out, .time] s s9 := by
  unfold execPpsinStatRead at hk
  cases hk
  repeat' first | with_reducible assumption | decide | (intro _) | with_reducible exact Only.rfl | with_reducible apply only_ite | extract_lets
                | with_reducible apply readOut_only | with_reducible apply ppsinRead_only | split | dsimp only

theorem execTxtsPop_only (s : State) {s9 : State} (hk : execTxtsPop s = .next s9) : Only [.out, .time] s s9 := by
  unfold execTxtsPop at hk
  cases hk
  repeat' first | with_reducible assumption | decide | (intro _) | with_reducible exact Only.rfl | with_reducible apply only_ite | extract_lets
                | with_reducible apply readOut_only | with_reducible apply txtsPop_only | split | dsimp only

end Sys2Proof.Machine
end

