-- ==== Sys2Proof/Laws/State.lean ====
section
/-! SUPPORT. What the shared operations leave of the state, one lemma per operation and part, so that no proof unfolds a record update. -/
set_option Elab.async false
set_option linter.all false
namespace Sys2Proof.Machine
@[simp] theorem useFree_pending (s : State) : (useFree s).pending = s.pending :=
  (useFree_only (ps := [.freeIdx]) (fun _ h => h) _ Only.rfl).same .pending (by decide)
@[simp] theorem useFree_out (s : State) : (useFree s).out = s.out :=
  (useFree_only (ps := [.freeIdx]) (fun _ h => h) _ Only.rfl).same .out (by decide)
@[simp] theorem useFree_node (s : State) : (useFree s).node = s.node :=
  (useFree_only (ps := [.freeIdx]) (fun _ h => h) _ Only.rfl).same .node (by decide)
@[simp] theorem useFree_pwr (s : State) : (useFree s).pwr = s.pwr :=
  (useFree_only (ps := [.freeIdx]) (fun _ h => h) _ Only.rfl).same .pwr (by decide)
@[simp] theorem useFree_boot (s : State) : (useFree s).boot = s.boot :=
  (useFree_only (ps := [.freeIdx]) (fun _ h => h) _ Only.rfl).same .boot (by decide)
@[simp] theorem useFree_tack (s : State) : (useFree s).tack = s.tack :=
  (useFree_only (ps := [.freeIdx]) (fun _ h => h) _ Only.rfl).same .tack (by decide)
@[simp] theorem useFree_sec (s : State) : (useFree s).sec = s.sec :=
  (useFree_only (ps := [.freeIdx]) (fun _ h => h) _ Only.rfl).same .sec (by decide)
@[simp] theorem useFree_host (s : State) : (useFree s).host = s.host :=
  (useFree_only (ps := [.freeIdx]) (fun _ h => h) _ Only.rfl).same .host (by decide)
@[simp] theorem useFree_mem (s : State) : (useFree s).mem = s.mem :=
  (useFree_only (ps := [.freeIdx]) (fun _ h => h) _ Only.rfl).same .mem (by decide)
@[simp] theorem useFree_causes (s : State) : (useFree s).causes = s.causes :=
  (useFree_only (ps := [.freeIdx]) (fun _ h => h) _ Only.rfl).same .causes (by decide)
@[simp] theorem useFree_stats (s : State) : (useFree s).stats = s.stats :=
  (useFree_only (ps := [.freeIdx]) (fun _ h => h) _ Only.rfl).same .stats (by decide)
@[simp] theorem useFree_log (s : State) : (useFree s).log = s.log :=
  (useFree_only (ps := [.freeIdx]) (fun _ h => h) _ Only.rfl).same .log (by decide)
@[simp] theorem useFree_hitch (s : State) : (useFree s).hitch = s.hitch :=
  (useFree_only (ps := [.freeIdx]) (fun _ h => h) _ Only.rfl).same .hitch (by decide)
@[simp] theorem useFree_time (s : State) : (useFree s).time = s.time :=
  (useFree_only (ps := [.freeIdx]) (fun _ h => h) _ Only.rfl).same .time (by decide)
@[simp] theorem useFree_sw (s : State) : (useFree s).sw = s.sw :=
  (useFree_only (ps := [.freeIdx]) (fun _ h => h) _ Only.rfl).same .sw (by decide)
@[simp] theorem useFree_macs (s : State) : (useFree s).macs = s.macs :=
  (useFree_only (ps := [.freeIdx]) (fun _ h => h) _ Only.rfl).same .macs (by decide)
@[simp] theorem useFree_rx (s : State) : (useFree s).rx = s.rx :=
  (useFree_only (ps := [.freeIdx]) (fun _ h => h) _ Only.rfl).same .rx (by decide)
@[simp] theorem useFree_tx (s : State) : (useFree s).tx = s.tx :=
  (useFree_only (ps := [.freeIdx]) (fun _ h => h) _ Only.rfl).same .tx (by decide)
@[simp] theorem useFree_stream (s : State) : (useFree s).stream = s.stream :=
  (useFree_only (ps := [.freeIdx]) (fun _ h => h) _ Only.rfl).same .stream (by decide)
@[simp] theorem useFree_ctl (s : State) : (useFree s).ctl = s.ctl :=
  (useFree_only (ps := [.freeIdx]) (fun _ h => h) _ Only.rfl).same .ctl (by decide)
@[simp] theorem useFree_retain (s : State) : (useFree s).retain = s.retain :=
  (useFree_only (ps := [.freeIdx]) (fun _ h => h) _ Only.rfl).same .retain (by decide)
@[simp] theorem useFree_red (s : State) : (useFree s).red = s.red :=
  (useFree_only (ps := [.freeIdx]) (fun _ h => h) _ Only.rfl).same .red (by decide)
@[simp] theorem useFree_wr (s : State) : (useFree s).wr = s.wr :=
  (useFree_only (ps := [.freeIdx]) (fun _ h => h) _ Only.rfl).same .wr (by decide)
@[simp] theorem useFree_can (s : State) : (useFree s).can = s.can :=
  (useFree_only (ps := [.freeIdx]) (fun _ h => h) _ Only.rfl).same .can (by decide)
@[simp] theorem useFree_leg (s : State) : (useFree s).leg = s.leg :=
  (useFree_only (ps := [.freeIdx]) (fun _ h => h) _ Only.rfl).same .leg (by decide)
@[simp] theorem useFree_br (s : State) : (useFree s).br = s.br :=
  (useFree_only (ps := [.freeIdx]) (fun _ h => h) _ Only.rfl).same .br (by decide)
@[simp] theorem emit_pending (o : Output) (s : State) : (emit o s).pending = s.pending :=
  (emit_only (ps := [.out]) (fun _ h => h) _ _ Only.rfl).same .pending (by decide)
@[simp] theorem emit_freeIdx (o : Output) (s : State) : (emit o s).freeIdx = s.freeIdx :=
  (emit_only (ps := [.out]) (fun _ h => h) _ _ Only.rfl).same .freeIdx (by decide)
@[simp] theorem emit_node (o : Output) (s : State) : (emit o s).node = s.node :=
  (emit_only (ps := [.out]) (fun _ h => h) _ _ Only.rfl).same .node (by decide)
@[simp] theorem emit_pwr (o : Output) (s : State) : (emit o s).pwr = s.pwr :=
  (emit_only (ps := [.out]) (fun _ h => h) _ _ Only.rfl).same .pwr (by decide)
@[simp] theorem emit_boot (o : Output) (s : State) : (emit o s).boot = s.boot :=
  (emit_only (ps := [.out]) (fun _ h => h) _ _ Only.rfl).same .boot (by decide)
@[simp] theorem emit_tack (o : Output) (s : State) : (emit o s).tack = s.tack :=
  (emit_only (ps := [.out]) (fun _ h => h) _ _ Only.rfl).same .tack (by decide)
@[simp] theorem emit_sec (o : Output) (s : State) : (emit o s).sec = s.sec :=
  (emit_only (ps := [.out]) (fun _ h => h) _ _ Only.rfl).same .sec (by decide)
@[simp] theorem emit_host (o : Output) (s : State) : (emit o s).host = s.host :=
  (emit_only (ps := [.out]) (fun _ h => h) _ _ Only.rfl).same .host (by decide)
@[simp] theorem emit_mem (o : Output) (s : State) : (emit o s).mem = s.mem :=
  (emit_only (ps := [.out]) (fun _ h => h) _ _ Only.rfl).same .mem (by decide)
@[simp] theorem emit_causes (o : Output) (s : State) : (emit o s).causes = s.causes :=
  (emit_only (ps := [.out]) (fun _ h => h) _ _ Only.rfl).same .causes (by decide)
@[simp] theorem emit_stats (o : Output) (s : State) : (emit o s).stats = s.stats :=
  (emit_only (ps := [.out]) (fun _ h => h) _ _ Only.rfl).same .stats (by decide)
@[simp] theorem emit_log (o : Output) (s : State) : (emit o s).log = s.log :=
  (emit_only (ps := [.out]) (fun _ h => h) _ _ Only.rfl).same .log (by decide)
@[simp] theorem emit_hitch (o : Output) (s : State) : (emit o s).hitch = s.hitch :=
  (emit_only (ps := [.out]) (fun _ h => h) _ _ Only.rfl).same .hitch (by decide)
@[simp] theorem emit_time (o : Output) (s : State) : (emit o s).time = s.time :=
  (emit_only (ps := [.out]) (fun _ h => h) _ _ Only.rfl).same .time (by decide)
@[simp] theorem emit_sw (o : Output) (s : State) : (emit o s).sw = s.sw :=
  (emit_only (ps := [.out]) (fun _ h => h) _ _ Only.rfl).same .sw (by decide)
@[simp] theorem emit_macs (o : Output) (s : State) : (emit o s).macs = s.macs :=
  (emit_only (ps := [.out]) (fun _ h => h) _ _ Only.rfl).same .macs (by decide)
@[simp] theorem emit_rx (o : Output) (s : State) : (emit o s).rx = s.rx :=
  (emit_only (ps := [.out]) (fun _ h => h) _ _ Only.rfl).same .rx (by decide)
@[simp] theorem emit_tx (o : Output) (s : State) : (emit o s).tx = s.tx :=
  (emit_only (ps := [.out]) (fun _ h => h) _ _ Only.rfl).same .tx (by decide)
@[simp] theorem emit_stream (o : Output) (s : State) : (emit o s).stream = s.stream :=
  (emit_only (ps := [.out]) (fun _ h => h) _ _ Only.rfl).same .stream (by decide)
@[simp] theorem emit_ctl (o : Output) (s : State) : (emit o s).ctl = s.ctl :=
  (emit_only (ps := [.out]) (fun _ h => h) _ _ Only.rfl).same .ctl (by decide)
@[simp] theorem emit_retain (o : Output) (s : State) : (emit o s).retain = s.retain :=
  (emit_only (ps := [.out]) (fun _ h => h) _ _ Only.rfl).same .retain (by decide)
@[simp] theorem emit_red (o : Output) (s : State) : (emit o s).red = s.red :=
  (emit_only (ps := [.out]) (fun _ h => h) _ _ Only.rfl).same .red (by decide)
@[simp] theorem emit_wr (o : Output) (s : State) : (emit o s).wr = s.wr :=
  (emit_only (ps := [.out]) (fun _ h => h) _ _ Only.rfl).same .wr (by decide)
@[simp] theorem emit_can (o : Output) (s : State) : (emit o s).can = s.can :=
  (emit_only (ps := [.out]) (fun _ h => h) _ _ Only.rfl).same .can (by decide)
@[simp] theorem emit_leg (o : Output) (s : State) : (emit o s).leg = s.leg :=
  (emit_only (ps := [.out]) (fun _ h => h) _ _ Only.rfl).same .leg (by decide)
@[simp] theorem emit_br (o : Output) (s : State) : (emit o s).br = s.br :=
  (emit_only (ps := [.out]) (fun _ h => h) _ _ Only.rfl).same .br (by decide)
@[simp] theorem idleTick_pending (s : State) : (idleTick s).pending = s.pending :=
  (idleTick_only (ps := [.time]) (fun _ h => h) _ Only.rfl).same .pending (by decide)
@[simp] theorem idleTick_out (s : State) : (idleTick s).out = s.out :=
  (idleTick_only (ps := [.time]) (fun _ h => h) _ Only.rfl).same .out (by decide)
@[simp] theorem idleTick_freeIdx (s : State) : (idleTick s).freeIdx = s.freeIdx :=
  (idleTick_only (ps := [.time]) (fun _ h => h) _ Only.rfl).same .freeIdx (by decide)
@[simp] theorem idleTick_node (s : State) : (idleTick s).node = s.node :=
  (idleTick_only (ps := [.time]) (fun _ h => h) _ Only.rfl).same .node (by decide)
@[simp] theorem idleTick_pwr (s : State) : (idleTick s).pwr = s.pwr :=
  (idleTick_only (ps := [.time]) (fun _ h => h) _ Only.rfl).same .pwr (by decide)
@[simp] theorem idleTick_boot (s : State) : (idleTick s).boot = s.boot :=
  (idleTick_only (ps := [.time]) (fun _ h => h) _ Only.rfl).same .boot (by decide)
@[simp] theorem idleTick_tack (s : State) : (idleTick s).tack = s.tack :=
  (idleTick_only (ps := [.time]) (fun _ h => h) _ Only.rfl).same .tack (by decide)
@[simp] theorem idleTick_sec (s : State) : (idleTick s).sec = s.sec :=
  (idleTick_only (ps := [.time]) (fun _ h => h) _ Only.rfl).same .sec (by decide)
@[simp] theorem idleTick_host (s : State) : (idleTick s).host = s.host :=
  (idleTick_only (ps := [.time]) (fun _ h => h) _ Only.rfl).same .host (by decide)
@[simp] theorem idleTick_mem (s : State) : (idleTick s).mem = s.mem :=
  (idleTick_only (ps := [.time]) (fun _ h => h) _ Only.rfl).same .mem (by decide)
@[simp] theorem idleTick_causes (s : State) : (idleTick s).causes = s.causes :=
  (idleTick_only (ps := [.time]) (fun _ h => h) _ Only.rfl).same .causes (by decide)
@[simp] theorem idleTick_stats (s : State) : (idleTick s).stats = s.stats :=
  (idleTick_only (ps := [.time]) (fun _ h => h) _ Only.rfl).same .stats (by decide)
@[simp] theorem idleTick_log (s : State) : (idleTick s).log = s.log :=
  (idleTick_only (ps := [.time]) (fun _ h => h) _ Only.rfl).same .log (by decide)
@[simp] theorem idleTick_hitch (s : State) : (idleTick s).hitch = s.hitch :=
  (idleTick_only (ps := [.time]) (fun _ h => h) _ Only.rfl).same .hitch (by decide)
@[simp] theorem idleTick_sw (s : State) : (idleTick s).sw = s.sw :=
  (idleTick_only (ps := [.time]) (fun _ h => h) _ Only.rfl).same .sw (by decide)
@[simp] theorem idleTick_macs (s : State) : (idleTick s).macs = s.macs :=
  (idleTick_only (ps := [.time]) (fun _ h => h) _ Only.rfl).same .macs (by decide)
@[simp] theorem idleTick_rx (s : State) : (idleTick s).rx = s.rx :=
  (idleTick_only (ps := [.time]) (fun _ h => h) _ Only.rfl).same .rx (by decide)
@[simp] theorem idleTick_tx (s : State) : (idleTick s).tx = s.tx :=
  (idleTick_only (ps := [.time]) (fun _ h => h) _ Only.rfl).same .tx (by decide)
@[simp] theorem idleTick_stream (s : State) : (idleTick s).stream = s.stream :=
  (idleTick_only (ps := [.time]) (fun _ h => h) _ Only.rfl).same .stream (by decide)
@[simp] theorem idleTick_ctl (s : State) : (idleTick s).ctl = s.ctl :=
  (idleTick_only (ps := [.time]) (fun _ h => h) _ Only.rfl).same .ctl (by decide)
@[simp] theorem idleTick_retain (s : State) : (idleTick s).retain = s.retain :=
  (idleTick_only (ps := [.time]) (fun _ h => h) _ Only.rfl).same .retain (by decide)
@[simp] theorem idleTick_red (s : State) : (idleTick s).red = s.red :=
  (idleTick_only (ps := [.time]) (fun _ h => h) _ Only.rfl).same .red (by decide)
@[simp] theorem idleTick_wr (s : State) : (idleTick s).wr = s.wr :=
  (idleTick_only (ps := [.time]) (fun _ h => h) _ Only.rfl).same .wr (by decide)
@[simp] theorem idleTick_can (s : State) : (idleTick s).can = s.can :=
  (idleTick_only (ps := [.time]) (fun _ h => h) _ Only.rfl).same .can (by decide)
@[simp] theorem idleTick_leg (s : State) : (idleTick s).leg = s.leg :=
  (idleTick_only (ps := [.time]) (fun _ h => h) _ Only.rfl).same .leg (by decide)
@[simp] theorem idleTick_br (s : State) : (idleTick s).br = s.br :=
  (idleTick_only (ps := [.time]) (fun _ h => h) _ Only.rfl).same .br (by decide)
@[simp] theorem sendVector_pending (v : Nat) (s : State) : (sendVector v s).pending = s.pending :=
  (sendVector_only (ps := [.out, .host, .stats]) (fun _ h => h) _ _ Only.rfl).same .pending (by decide)
@[simp] theorem sendVector_freeIdx (v : Nat) (s : State) : (sendVector v s).freeIdx = s.freeIdx :=
  (sendVector_only (ps := [.out, .host, .stats]) (fun _ h => h) _ _ Only.rfl).same .freeIdx (by decide)
@[simp] theorem sendVector_node (v : Nat) (s : State) : (sendVector v s).node = s.node :=
  (sendVector_only (ps := [.out, .host, .stats]) (fun _ h => h) _ _ Only.rfl).same .node (by decide)
@[simp] theorem sendVector_pwr (v : Nat) (s : State) : (sendVector v s).pwr = s.pwr :=
  (sendVector_only (ps := [.out, .host, .stats]) (fun _ h => h) _ _ Only.rfl).same .pwr (by decide)
@[simp] theorem sendVector_boot (v : Nat) (s : State) : (sendVector v s).boot = s.boot :=
  (sendVector_only (ps := [.out, .host, .stats]) (fun _ h => h) _ _ Only.rfl).same .boot (by decide)
@[simp] theorem sendVector_tack (v : Nat) (s : State) : (sendVector v s).tack = s.tack :=
  (sendVector_only (ps := [.out, .host, .stats]) (fun _ h => h) _ _ Only.rfl).same .tack (by decide)
@[simp] theorem sendVector_sec (v : Nat) (s : State) : (sendVector v s).sec = s.sec :=
  (sendVector_only (ps := [.out, .host, .stats]) (fun _ h => h) _ _ Only.rfl).same .sec (by decide)
@[simp] theorem sendVector_mem (v : Nat) (s : State) : (sendVector v s).mem = s.mem :=
  (sendVector_only (ps := [.out, .host, .stats]) (fun _ h => h) _ _ Only.rfl).same .mem (by decide)
@[simp] theorem sendVector_causes (v : Nat) (s : State) : (sendVector v s).causes = s.causes :=
  (sendVector_only (ps := [.out, .host, .stats]) (fun _ h => h) _ _ Only.rfl).same .causes (by decide)
@[simp] theorem sendVector_log (v : Nat) (s : State) : (sendVector v s).log = s.log :=
  (sendVector_only (ps := [.out, .host, .stats]) (fun _ h => h) _ _ Only.rfl).same .log (by decide)
@[simp] theorem sendVector_hitch (v : Nat) (s : State) : (sendVector v s).hitch = s.hitch :=
  (sendVector_only (ps := [.out, .host, .stats]) (fun _ h => h) _ _ Only.rfl).same .hitch (by decide)
@[simp] theorem sendVector_time (v : Nat) (s : State) : (sendVector v s).time = s.time :=
  (sendVector_only (ps := [.out, .host, .stats]) (fun _ h => h) _ _ Only.rfl).same .time (by decide)
@[simp] theorem sendVector_sw (v : Nat) (s : State) : (sendVector v s).sw = s.sw :=
  (sendVector_only (ps := [.out, .host, .stats]) (fun _ h => h) _ _ Only.rfl).same .sw (by decide)
@[simp] theorem sendVector_macs (v : Nat) (s : State) : (sendVector v s).macs = s.macs :=
  (sendVector_only (ps := [.out, .host, .stats]) (fun _ h => h) _ _ Only.rfl).same .macs (by decide)
@[simp] theorem sendVector_rx (v : Nat) (s : State) : (sendVector v s).rx = s.rx :=
  (sendVector_only (ps := [.out, .host, .stats]) (fun _ h => h) _ _ Only.rfl).same .rx (by decide)
@[simp] theorem sendVector_tx (v : Nat) (s : State) : (sendVector v s).tx = s.tx :=
  (sendVector_only (ps := [.out, .host, .stats]) (fun _ h => h) _ _ Only.rfl).same .tx (by decide)
@[simp] theorem sendVector_stream (v : Nat) (s : State) : (sendVector v s).stream = s.stream :=
  (sendVector_only (ps := [.out, .host, .stats]) (fun _ h => h) _ _ Only.rfl).same .stream (by decide)
@[simp] theorem sendVector_ctl (v : Nat) (s : State) : (sendVector v s).ctl = s.ctl :=
  (sendVector_only (ps := [.out, .host, .stats]) (fun _ h => h) _ _ Only.rfl).same .ctl (by decide)
@[simp] theorem sendVector_retain (v : Nat) (s : State) : (sendVector v s).retain = s.retain :=
  (sendVector_only (ps := [.out, .host, .stats]) (fun _ h => h) _ _ Only.rfl).same .retain (by decide)
@[simp] theorem sendVector_red (v : Nat) (s : State) : (sendVector v s).red = s.red :=
  (sendVector_only (ps := [.out, .host, .stats]) (fun _ h => h) _ _ Only.rfl).same .red (by decide)
@[simp] theorem sendVector_wr (v : Nat) (s : State) : (sendVector v s).wr = s.wr :=
  (sendVector_only (ps := [.out, .host, .stats]) (fun _ h => h) _ _ Only.rfl).same .wr (by decide)
@[simp] theorem sendVector_can (v : Nat) (s : State) : (sendVector v s).can = s.can :=
  (sendVector_only (ps := [.out, .host, .stats]) (fun _ h => h) _ _ Only.rfl).same .can (by decide)
@[simp] theorem sendVector_leg (v : Nat) (s : State) : (sendVector v s).leg = s.leg :=
  (sendVector_only (ps := [.out, .host, .stats]) (fun _ h => h) _ _ Only.rfl).same .leg (by decide)
@[simp] theorem sendVector_br (v : Nat) (s : State) : (sendVector v s).br = s.br :=
  (sendVector_only (ps := [.out, .host, .stats]) (fun _ h => h) _ _ Only.rfl).same .br (by decide)
@[simp] theorem raise_pending (b : CauseBlk) (i : Nat) (s : State) : (raise b i s).pending = s.pending :=
  (raise_only (ps := [.out, .host, .causes, .stats]) (fun _ h => h) _ _ _ Only.rfl).same .pending (by decide)
@[simp] theorem raise_freeIdx (b : CauseBlk) (i : Nat) (s : State) : (raise b i s).freeIdx = s.freeIdx :=
  (raise_only (ps := [.out, .host, .causes, .stats]) (fun _ h => h) _ _ _ Only.rfl).same .freeIdx (by decide)
@[simp] theorem raise_node (b : CauseBlk) (i : Nat) (s : State) : (raise b i s).node = s.node :=
  (raise_only (ps := [.out, .host, .causes, .stats]) (fun _ h => h) _ _ _ Only.rfl).same .node (by decide)
@[simp] theorem raise_pwr (b : CauseBlk) (i : Nat) (s : State) : (raise b i s).pwr = s.pwr :=
  (raise_only (ps := [.out, .host, .causes, .stats]) (fun _ h => h) _ _ _ Only.rfl).same .pwr (by decide)
@[simp] theorem raise_boot (b : CauseBlk) (i : Nat) (s : State) : (raise b i s).boot = s.boot :=
  (raise_only (ps := [.out, .host, .causes, .stats]) (fun _ h => h) _ _ _ Only.rfl).same .boot (by decide)
@[simp] theorem raise_tack (b : CauseBlk) (i : Nat) (s : State) : (raise b i s).tack = s.tack :=
  (raise_only (ps := [.out, .host, .causes, .stats]) (fun _ h => h) _ _ _ Only.rfl).same .tack (by decide)
@[simp] theorem raise_sec (b : CauseBlk) (i : Nat) (s : State) : (raise b i s).sec = s.sec :=
  (raise_only (ps := [.out, .host, .causes, .stats]) (fun _ h => h) _ _ _ Only.rfl).same .sec (by decide)
@[simp] theorem raise_mem (b : CauseBlk) (i : Nat) (s : State) : (raise b i s).mem = s.mem :=
  (raise_only (ps := [.out, .host, .causes, .stats]) (fun _ h => h) _ _ _ Only.rfl).same .mem (by decide)
@[simp] theorem raise_log (b : CauseBlk) (i : Nat) (s : State) : (raise b i s).log = s.log :=
  (raise_only (ps := [.out, .host, .causes, .stats]) (fun _ h => h) _ _ _ Only.rfl).same .log (by decide)
@[simp] theorem raise_hitch (b : CauseBlk) (i : Nat) (s : State) : (raise b i s).hitch = s.hitch :=
  (raise_only (ps := [.out, .host, .causes, .stats]) (fun _ h => h) _ _ _ Only.rfl).same .hitch (by decide)
@[simp] theorem raise_time (b : CauseBlk) (i : Nat) (s : State) : (raise b i s).time = s.time :=
  (raise_only (ps := [.out, .host, .causes, .stats]) (fun _ h => h) _ _ _ Only.rfl).same .time (by decide)
@[simp] theorem raise_sw (b : CauseBlk) (i : Nat) (s : State) : (raise b i s).sw = s.sw :=
  (raise_only (ps := [.out, .host, .causes, .stats]) (fun _ h => h) _ _ _ Only.rfl).same .sw (by decide)
@[simp] theorem raise_macs (b : CauseBlk) (i : Nat) (s : State) : (raise b i s).macs = s.macs :=
  (raise_only (ps := [.out, .host, .causes, .stats]) (fun _ h => h) _ _ _ Only.rfl).same .macs (by decide)
@[simp] theorem raise_rx (b : CauseBlk) (i : Nat) (s : State) : (raise b i s).rx = s.rx :=
  (raise_only (ps := [.out, .host, .causes, .stats]) (fun _ h => h) _ _ _ Only.rfl).same .rx (by decide)
@[simp] theorem raise_tx (b : CauseBlk) (i : Nat) (s : State) : (raise b i s).tx = s.tx :=
  (raise_only (ps := [.out, .host, .causes, .stats]) (fun _ h => h) _ _ _ Only.rfl).same .tx (by decide)
@[simp] theorem raise_stream (b : CauseBlk) (i : Nat) (s : State) : (raise b i s).stream = s.stream :=
  (raise_only (ps := [.out, .host, .causes, .stats]) (fun _ h => h) _ _ _ Only.rfl).same .stream (by decide)
@[simp] theorem raise_ctl (b : CauseBlk) (i : Nat) (s : State) : (raise b i s).ctl = s.ctl :=
  (raise_only (ps := [.out, .host, .causes, .stats]) (fun _ h => h) _ _ _ Only.rfl).same .ctl (by decide)
@[simp] theorem raise_retain (b : CauseBlk) (i : Nat) (s : State) : (raise b i s).retain = s.retain :=
  (raise_only (ps := [.out, .host, .causes, .stats]) (fun _ h => h) _ _ _ Only.rfl).same .retain (by decide)
@[simp] theorem raise_red (b : CauseBlk) (i : Nat) (s : State) : (raise b i s).red = s.red :=
  (raise_only (ps := [.out, .host, .causes, .stats]) (fun _ h => h) _ _ _ Only.rfl).same .red (by decide)
@[simp] theorem raise_wr (b : CauseBlk) (i : Nat) (s : State) : (raise b i s).wr = s.wr :=
  (raise_only (ps := [.out, .host, .causes, .stats]) (fun _ h => h) _ _ _ Only.rfl).same .wr (by decide)
@[simp] theorem raise_can (b : CauseBlk) (i : Nat) (s : State) : (raise b i s).can = s.can :=
  (raise_only (ps := [.out, .host, .causes, .stats]) (fun _ h => h) _ _ _ Only.rfl).same .can (by decide)
@[simp] theorem raise_leg (b : CauseBlk) (i : Nat) (s : State) : (raise b i s).leg = s.leg :=
  (raise_only (ps := [.out, .host, .causes, .stats]) (fun _ h => h) _ _ _ Only.rfl).same .leg (by decide)
@[simp] theorem raise_br (b : CauseBlk) (i : Nat) (s : State) : (raise b i s).br = s.br :=
  (raise_only (ps := [.out, .host, .causes, .stats]) (fun _ h => h) _ _ _ Only.rfl).same .br (by decide)
@[simp] theorem countN_pending (k : Nat) (n : Nat) (s : State) : (countN k n s).pending = s.pending :=
  (countN_only (ps := [.out, .host, .causes, .stats]) (fun _ h => h) _ _ _ Only.rfl).same .pending (by decide)
@[simp] theorem countN_freeIdx (k : Nat) (n : Nat) (s : State) : (countN k n s).freeIdx = s.freeIdx :=
  (countN_only (ps := [.out, .host, .causes, .stats]) (fun _ h => h) _ _ _ Only.rfl).same .freeIdx (by decide)
@[simp] theorem countN_node (k : Nat) (n : Nat) (s : State) : (countN k n s).node = s.node :=
  (countN_only (ps := [.out, .host, .causes, .stats]) (fun _ h => h) _ _ _ Only.rfl).same .node (by decide)
@[simp] theorem countN_pwr (k : Nat) (n : Nat) (s : State) : (countN k n s).pwr = s.pwr :=
  (countN_only (ps := [.out, .host, .causes, .stats]) (fun _ h => h) _ _ _ Only.rfl).same .pwr (by decide)
@[simp] theorem countN_boot (k : Nat) (n : Nat) (s : State) : (countN k n s).boot = s.boot :=
  (countN_only (ps := [.out, .host, .causes, .stats]) (fun _ h => h) _ _ _ Only.rfl).same .boot (by decide)
@[simp] theorem countN_tack (k : Nat) (n : Nat) (s : State) : (countN k n s).tack = s.tack :=
  (countN_only (ps := [.out, .host, .causes, .stats]) (fun _ h => h) _ _ _ Only.rfl).same .tack (by decide)
@[simp] theorem countN_sec (k : Nat) (n : Nat) (s : State) : (countN k n s).sec = s.sec :=
  (countN_only (ps := [.out, .host, .causes, .stats]) (fun _ h => h) _ _ _ Only.rfl).same .sec (by decide)
@[simp] theorem countN_mem (k : Nat) (n : Nat) (s : State) : (countN k n s).mem = s.mem :=
  (countN_only (ps := [.out, .host, .causes, .stats]) (fun _ h => h) _ _ _ Only.rfl).same .mem (by decide)
@[simp] theorem countN_log (k : Nat) (n : Nat) (s : State) : (countN k n s).log = s.log :=
  (countN_only (ps := [.out, .host, .causes, .stats]) (fun _ h => h) _ _ _ Only.rfl).same .log (by decide)
@[simp] theorem countN_hitch (k : Nat) (n : Nat) (s : State) : (countN k n s).hitch = s.hitch :=
  (countN_only (ps := [.out, .host, .causes, .stats]) (fun _ h => h) _ _ _ Only.rfl).same .hitch (by decide)
@[simp] theorem countN_time (k : Nat) (n : Nat) (s : State) : (countN k n s).time = s.time :=
  (countN_only (ps := [.out, .host, .causes, .stats]) (fun _ h => h) _ _ _ Only.rfl).same .time (by decide)
@[simp] theorem countN_sw (k : Nat) (n : Nat) (s : State) : (countN k n s).sw = s.sw :=
  (countN_only (ps := [.out, .host, .causes, .stats]) (fun _ h => h) _ _ _ Only.rfl).same .sw (by decide)
@[simp] theorem countN_macs (k : Nat) (n : Nat) (s : State) : (countN k n s).macs = s.macs :=
  (countN_only (ps := [.out, .host, .causes, .stats]) (fun _ h => h) _ _ _ Only.rfl).same .macs (by decide)
@[simp] theorem countN_rx (k : Nat) (n : Nat) (s : State) : (countN k n s).rx = s.rx :=
  (countN_only (ps := [.out, .host, .causes, .stats]) (fun _ h => h) _ _ _ Only.rfl).same .rx (by decide)
@[simp] theorem countN_tx (k : Nat) (n : Nat) (s : State) : (countN k n s).tx = s.tx :=
  (countN_only (ps := [.out, .host, .causes, .stats]) (fun _ h => h) _ _ _ Only.rfl).same .tx (by decide)
@[simp] theorem countN_stream (k : Nat) (n : Nat) (s : State) : (countN k n s).stream = s.stream :=
  (countN_only (ps := [.out, .host, .causes, .stats]) (fun _ h => h) _ _ _ Only.rfl).same .stream (by decide)
@[simp] theorem countN_ctl (k : Nat) (n : Nat) (s : State) : (countN k n s).ctl = s.ctl :=
  (countN_only (ps := [.out, .host, .causes, .stats]) (fun _ h => h) _ _ _ Only.rfl).same .ctl (by decide)
@[simp] theorem countN_retain (k : Nat) (n : Nat) (s : State) : (countN k n s).retain = s.retain :=
  (countN_only (ps := [.out, .host, .causes, .stats]) (fun _ h => h) _ _ _ Only.rfl).same .retain (by decide)
@[simp] theorem countN_red (k : Nat) (n : Nat) (s : State) : (countN k n s).red = s.red :=
  (countN_only (ps := [.out, .host, .causes, .stats]) (fun _ h => h) _ _ _ Only.rfl).same .red (by decide)
@[simp] theorem countN_wr (k : Nat) (n : Nat) (s : State) : (countN k n s).wr = s.wr :=
  (countN_only (ps := [.out, .host, .causes, .stats]) (fun _ h => h) _ _ _ Only.rfl).same .wr (by decide)
@[simp] theorem countN_can (k : Nat) (n : Nat) (s : State) : (countN k n s).can = s.can :=
  (countN_only (ps := [.out, .host, .causes, .stats]) (fun _ h => h) _ _ _ Only.rfl).same .can (by decide)
@[simp] theorem countN_leg (k : Nat) (n : Nat) (s : State) : (countN k n s).leg = s.leg :=
  (countN_only (ps := [.out, .host, .causes, .stats]) (fun _ h => h) _ _ _ Only.rfl).same .leg (by decide)
@[simp] theorem countN_br (k : Nat) (n : Nat) (s : State) : (countN k n s).br = s.br :=
  (countN_only (ps := [.out, .host, .causes, .stats]) (fun _ h => h) _ _ _ Only.rfl).same .br (by decide)
@[simp] theorem count_pending (k : Nat) (s : State) : (count k s).pending = s.pending :=
  (count_only (ps := [.out, .host, .causes, .stats]) (fun _ h => h) _ _ Only.rfl).same .pending (by decide)
@[simp] theorem count_freeIdx (k : Nat) (s : State) : (count k s).freeIdx = s.freeIdx :=
  (count_only (ps := [.out, .host, .causes, .stats]) (fun _ h => h) _ _ Only.rfl).same .freeIdx (by decide)
@[simp] theorem count_node (k : Nat) (s : State) : (count k s).node = s.node :=
  (count_only (ps := [.out, .host, .causes, .stats]) (fun _ h => h) _ _ Only.rfl).same .node (by decide)
@[simp] theorem count_pwr (k : Nat) (s : State) : (count k s).pwr = s.pwr :=
  (count_only (ps := [.out, .host, .causes, .stats]) (fun _ h => h) _ _ Only.rfl).same .pwr (by decide)
@[simp] theorem count_boot (k : Nat) (s : State) : (count k s).boot = s.boot :=
  (count_only (ps := [.out, .host, .causes, .stats]) (fun _ h => h) _ _ Only.rfl).same .boot (by decide)
@[simp] theorem count_tack (k : Nat) (s : State) : (count k s).tack = s.tack :=
  (count_only (ps := [.out, .host, .causes, .stats]) (fun _ h => h) _ _ Only.rfl).same .tack (by decide)
@[simp] theorem count_sec (k : Nat) (s : State) : (count k s).sec = s.sec :=
  (count_only (ps := [.out, .host, .causes, .stats]) (fun _ h => h) _ _ Only.rfl).same .sec (by decide)
@[simp] theorem count_mem (k : Nat) (s : State) : (count k s).mem = s.mem :=
  (count_only (ps := [.out, .host, .causes, .stats]) (fun _ h => h) _ _ Only.rfl).same .mem (by decide)
@[simp] theorem count_log (k : Nat) (s : State) : (count k s).log = s.log :=
  (count_only (ps := [.out, .host, .causes, .stats]) (fun _ h => h) _ _ Only.rfl).same .log (by decide)
@[simp] theorem count_hitch (k : Nat) (s : State) : (count k s).hitch = s.hitch :=
  (count_only (ps := [.out, .host, .causes, .stats]) (fun _ h => h) _ _ Only.rfl).same .hitch (by decide)
@[simp] theorem count_time (k : Nat) (s : State) : (count k s).time = s.time :=
  (count_only (ps := [.out, .host, .causes, .stats]) (fun _ h => h) _ _ Only.rfl).same .time (by decide)
@[simp] theorem count_sw (k : Nat) (s : State) : (count k s).sw = s.sw :=
  (count_only (ps := [.out, .host, .causes, .stats]) (fun _ h => h) _ _ Only.rfl).same .sw (by decide)
@[simp] theorem count_macs (k : Nat) (s : State) : (count k s).macs = s.macs :=
  (count_only (ps := [.out, .host, .causes, .stats]) (fun _ h => h) _ _ Only.rfl).same .macs (by decide)
@[simp] theorem count_rx (k : Nat) (s : State) : (count k s).rx = s.rx :=
  (count_only (ps := [.out, .host, .causes, .stats]) (fun _ h => h) _ _ Only.rfl).same .rx (by decide)
@[simp] theorem count_tx (k : Nat) (s : State) : (count k s).tx = s.tx :=
  (count_only (ps := [.out, .host, .causes, .stats]) (fun _ h => h) _ _ Only.rfl).same .tx (by decide)
@[simp] theorem count_stream (k : Nat) (s : State) : (count k s).stream = s.stream :=
  (count_only (ps := [.out, .host, .causes, .stats]) (fun _ h => h) _ _ Only.rfl).same .stream (by decide)
@[simp] theorem count_ctl (k : Nat) (s : State) : (count k s).ctl = s.ctl :=
  (count_only (ps := [.out, .host, .causes, .stats]) (fun _ h => h) _ _ Only.rfl).same .ctl (by decide)
@[simp] theorem count_retain (k : Nat) (s : State) : (count k s).retain = s.retain :=
  (count_only (ps := [.out, .host, .causes, .stats]) (fun _ h => h) _ _ Only.rfl).same .retain (by decide)
@[simp] theorem count_red (k : Nat) (s : State) : (count k s).red = s.red :=
  (count_only (ps := [.out, .host, .causes, .stats]) (fun _ h => h) _ _ Only.rfl).same .red (by decide)
@[simp] theorem count_wr (k : Nat) (s : State) : (count k s).wr = s.wr :=
  (count_only (ps := [.out, .host, .causes, .stats]) (fun _ h => h) _ _ Only.rfl).same .wr (by decide)
@[simp] theorem count_can (k : Nat) (s : State) : (count k s).can = s.can :=
  (count_only (ps := [.out, .host, .causes, .stats]) (fun _ h => h) _ _ Only.rfl).same .can (by decide)
@[simp] theorem count_leg (k : Nat) (s : State) : (count k s).leg = s.leg :=
  (count_only (ps := [.out, .host, .causes, .stats]) (fun _ h => h) _ _ Only.rfl).same .leg (by decide)
@[simp] theorem count_br (k : Nat) (s : State) : (count k s).br = s.br :=
  (count_only (ps := [.out, .host, .causes, .stats]) (fun _ h => h) _ _ Only.rfl).same .br (by decide)
@[simp] theorem logQueue_pending (r : Rec) (s : State) : (logQueue r s).pending = s.pending :=
  (logQueue_only (ps := [.out, .host, .causes, .stats, .log]) (fun _ h => h) _ _ Only.rfl).same .pending (by decide)
@[simp] theorem logQueue_freeIdx (r : Rec) (s : State) : (logQueue r s).freeIdx = s.freeIdx :=
  (logQueue_only (ps := [.out, .host, .causes, .stats, .log]) (fun _ h => h) _ _ Only.rfl).same .freeIdx (by decide)
@[simp] theorem logQueue_node (r : Rec) (s : State) : (logQueue r s).node = s.node :=
  (logQueue_only (ps := [.out, .host, .causes, .stats, .log]) (fun _ h => h) _ _ Only.rfl).same .node (by decide)
@[simp] theorem logQueue_pwr (r : Rec) (s : State) : (logQueue r s).pwr = s.pwr :=
  (logQueue_only (ps := [.out, .host, .causes, .stats, .log]) (fun _ h => h) _ _ Only.rfl).same .pwr (by decide)
@[simp] theorem logQueue_boot (r : Rec) (s : State) : (logQueue r s).boot = s.boot :=
  (logQueue_only (ps := [.out, .host, .causes, .stats, .log]) (fun _ h => h) _ _ Only.rfl).same .boot (by decide)
@[simp] theorem logQueue_tack (r : Rec) (s : State) : (logQueue r s).tack = s.tack :=
  (logQueue_only (ps := [.out, .host, .causes, .stats, .log]) (fun _ h => h) _ _ Only.rfl).same .tack (by decide)
@[simp] theorem logQueue_sec (r : Rec) (s : State) : (logQueue r s).sec = s.sec :=
  (logQueue_only (ps := [.out, .host, .causes, .stats, .log]) (fun _ h => h) _ _ Only.rfl).same .sec (by decide)
@[simp] theorem logQueue_mem (r : Rec) (s : State) : (logQueue r s).mem = s.mem :=
  (logQueue_only (ps := [.out, .host, .causes, .stats, .log]) (fun _ h => h) _ _ Only.rfl).same .mem (by decide)
@[simp] theorem logQueue_hitch (r : Rec) (s : State) : (logQueue r s).hitch = s.hitch :=
  (logQueue_only (ps := [.out, .host, .causes, .stats, .log]) (fun _ h => h) _ _ Only.rfl).same .hitch (by decide)
@[simp] theorem logQueue_time (r : Rec) (s : State) : (logQueue r s).time = s.time :=
  (logQueue_only (ps := [.out, .host, .causes, .stats, .log]) (fun _ h => h) _ _ Only.rfl).same .time (by decide)
@[simp] theorem logQueue_sw (r : Rec) (s : State) : (logQueue r s).sw = s.sw :=
  (logQueue_only (ps := [.out, .host, .causes, .stats, .log]) (fun _ h => h) _ _ Only.rfl).same .sw (by decide)
@[simp] theorem logQueue_macs (r : Rec) (s : State) : (logQueue r s).macs = s.macs :=
  (logQueue_only (ps := [.out, .host, .causes, .stats, .log]) (fun _ h => h) _ _ Only.rfl).same .macs (by decide)
@[simp] theorem logQueue_rx (r : Rec) (s : State) : (logQueue r s).rx = s.rx :=
  (logQueue_only (ps := [.out, .host, .causes, .stats, .log]) (fun _ h => h) _ _ Only.rfl).same .rx (by decide)
@[simp] theorem logQueue_tx (r : Rec) (s : State) : (logQueue r s).tx = s.tx :=
  (logQueue_only (ps := [.out, .host, .causes, .stats, .log]) (fun _ h => h) _ _ Only.rfl).same .tx (by decide)
@[simp] theorem logQueue_stream (r : Rec) (s : State) : (logQueue r s).stream = s.stream :=
  (logQueue_only (ps := [.out, .host, .causes, .stats, .log]) (fun _ h => h) _ _ Only.rfl).same .stream (by decide)
@[simp] theorem logQueue_ctl (r : Rec) (s : State) : (logQueue r s).ctl = s.ctl :=
  (logQueue_only (ps := [.out, .host, .causes, .stats, .log]) (fun _ h => h) _ _ Only.rfl).same .ctl (by decide)
@[simp] theorem logQueue_retain (r : Rec) (s : State) : (logQueue r s).retain = s.retain :=
  (logQueue_only (ps := [.out, .host, .causes, .stats, .log]) (fun _ h => h) _ _ Only.rfl).same .retain (by decide)
@[simp] theorem logQueue_red (r : Rec) (s : State) : (logQueue r s).red = s.red :=
  (logQueue_only (ps := [.out, .host, .causes, .stats, .log]) (fun _ h => h) _ _ Only.rfl).same .red (by decide)
@[simp] theorem logQueue_wr (r : Rec) (s : State) : (logQueue r s).wr = s.wr :=
  (logQueue_only (ps := [.out, .host, .causes, .stats, .log]) (fun _ h => h) _ _ Only.rfl).same .wr (by decide)
@[simp] theorem logQueue_can (r : Rec) (s : State) : (logQueue r s).can = s.can :=
  (logQueue_only (ps := [.out, .host, .causes, .stats, .log]) (fun _ h => h) _ _ Only.rfl).same .can (by decide)
@[simp] theorem logQueue_leg (r : Rec) (s : State) : (logQueue r s).leg = s.leg :=
  (logQueue_only (ps := [.out, .host, .causes, .stats, .log]) (fun _ h => h) _ _ Only.rfl).same .leg (by decide)
@[simp] theorem logQueue_br (r : Rec) (s : State) : (logQueue r s).br = s.br :=
  (logQueue_only (ps := [.out, .host, .causes, .stats, .log]) (fun _ h => h) _ _ Only.rfl).same .br (by decide)
@[simp] theorem setLimiter_pending (k : Nat) (l : Limiter) (s : State) : (setLimiter k l s).pending = s.pending :=
  (setLimiter_only (ps := [.log]) (fun _ h => h) _ _ _ Only.rfl).same .pending (by decide)
@[simp] theorem setLimiter_out (k : Nat) (l : Limiter) (s : State) : (setLimiter k l s).out = s.out :=
  (setLimiter_only (ps := [.log]) (fun _ h => h) _ _ _ Only.rfl).same .out (by decide)
@[simp] theorem setLimiter_freeIdx (k : Nat) (l : Limiter) (s : State) : (setLimiter k l s).freeIdx = s.freeIdx :=
  (setLimiter_only (ps := [.log]) (fun _ h => h) _ _ _ Only.rfl).same .freeIdx (by decide)
@[simp] theorem setLimiter_node (k : Nat) (l : Limiter) (s : State) : (setLimiter k l s).node = s.node :=
  (setLimiter_only (ps := [.log]) (fun _ h => h) _ _ _ Only.rfl).same .node (by decide)
@[simp] theorem setLimiter_pwr (k : Nat) (l : Limiter) (s : State) : (setLimiter k l s).pwr = s.pwr :=
  (setLimiter_only (ps := [.log]) (fun _ h => h) _ _ _ Only.rfl).same .pwr (by decide)
@[simp] theorem setLimiter_boot (k : Nat) (l : Limiter) (s : State) : (setLimiter k l s).boot = s.boot :=
  (setLimiter_only (ps := [.log]) (fun _ h => h) _ _ _ Only.rfl).same .boot (by decide)
@[simp] theorem setLimiter_tack (k : Nat) (l : Limiter) (s : State) : (setLimiter k l s).tack = s.tack :=
  (setLimiter_only (ps := [.log]) (fun _ h => h) _ _ _ Only.rfl).same .tack (by decide)
@[simp] theorem setLimiter_sec (k : Nat) (l : Limiter) (s : State) : (setLimiter k l s).sec = s.sec :=
  (setLimiter_only (ps := [.log]) (fun _ h => h) _ _ _ Only.rfl).same .sec (by decide)
@[simp] theorem setLimiter_host (k : Nat) (l : Limiter) (s : State) : (setLimiter k l s).host = s.host :=
  (setLimiter_only (ps := [.log]) (fun _ h => h) _ _ _ Only.rfl).same .host (by decide)
@[simp] theorem setLimiter_mem (k : Nat) (l : Limiter) (s : State) : (setLimiter k l s).mem = s.mem :=
  (setLimiter_only (ps := [.log]) (fun _ h => h) _ _ _ Only.rfl).same .mem (by decide)
@[simp] theorem setLimiter_causes (k : Nat) (l : Limiter) (s : State) : (setLimiter k l s).causes = s.causes :=
  (setLimiter_only (ps := [.log]) (fun _ h => h) _ _ _ Only.rfl).same .causes (by decide)
@[simp] theorem setLimiter_stats (k : Nat) (l : Limiter) (s : State) : (setLimiter k l s).stats = s.stats :=
  (setLimiter_only (ps := [.log]) (fun _ h => h) _ _ _ Only.rfl).same .stats (by decide)
@[simp] theorem setLimiter_hitch (k : Nat) (l : Limiter) (s : State) : (setLimiter k l s).hitch = s.hitch :=
  (setLimiter_only (ps := [.log]) (fun _ h => h) _ _ _ Only.rfl).same .hitch (by decide)
@[simp] theorem setLimiter_time (k : Nat) (l : Limiter) (s : State) : (setLimiter k l s).time = s.time :=
  (setLimiter_only (ps := [.log]) (fun _ h => h) _ _ _ Only.rfl).same .time (by decide)
@[simp] theorem setLimiter_sw (k : Nat) (l : Limiter) (s : State) : (setLimiter k l s).sw = s.sw :=
  (setLimiter_only (ps := [.log]) (fun _ h => h) _ _ _ Only.rfl).same .sw (by decide)
@[simp] theorem setLimiter_macs (k : Nat) (l : Limiter) (s : State) : (setLimiter k l s).macs = s.macs :=
  (setLimiter_only (ps := [.log]) (fun _ h => h) _ _ _ Only.rfl).same .macs (by decide)
@[simp] theorem setLimiter_rx (k : Nat) (l : Limiter) (s : State) : (setLimiter k l s).rx = s.rx :=
  (setLimiter_only (ps := [.log]) (fun _ h => h) _ _ _ Only.rfl).same .rx (by decide)
@[simp] theorem setLimiter_tx (k : Nat) (l : Limiter) (s : State) : (setLimiter k l s).tx = s.tx :=
  (setLimiter_only (ps := [.log]) (fun _ h => h) _ _ _ Only.rfl).same .tx (by decide)
@[simp] theorem setLimiter_stream (k : Nat) (l : Limiter) (s : State) : (setLimiter k l s).stream = s.stream :=
  (setLimiter_only (ps := [.log]) (fun _ h => h) _ _ _ Only.rfl).same .stream (by decide)
@[simp] theorem setLimiter_ctl (k : Nat) (l : Limiter) (s : State) : (setLimiter k l s).ctl = s.ctl :=
  (setLimiter_only (ps := [.log]) (fun _ h => h) _ _ _ Only.rfl).same .ctl (by decide)
@[simp] theorem setLimiter_retain (k : Nat) (l : Limiter) (s : State) : (setLimiter k l s).retain = s.retain :=
  (setLimiter_only (ps := [.log]) (fun _ h => h) _ _ _ Only.rfl).same .retain (by decide)
@[simp] theorem setLimiter_red (k : Nat) (l : Limiter) (s : State) : (setLimiter k l s).red = s.red :=
  (setLimiter_only (ps := [.log]) (fun _ h => h) _ _ _ Only.rfl).same .red (by decide)
@[simp] theorem setLimiter_wr (k : Nat) (l : Limiter) (s : State) : (setLimiter k l s).wr = s.wr :=
  (setLimiter_only (ps := [.log]) (fun _ h => h) _ _ _ Only.rfl).same .wr (by decide)
@[simp] theorem setLimiter_can (k : Nat) (l : Limiter) (s : State) : (setLimiter k l s).can = s.can :=
  (setLimiter_only (ps := [.log]) (fun _ h => h) _ _ _ Only.rfl).same .can (by decide)
@[simp] theorem setLimiter_leg (k : Nat) (l : Limiter) (s : State) : (setLimiter k l s).leg = s.leg :=
  (setLimiter_only (ps := [.log]) (fun _ h => h) _ _ _ Only.rfl).same .leg (by decide)
@[simp] theorem setLimiter_br (k : Nat) (l : Limiter) (s : State) : (setLimiter k l s).br = s.br :=
  (setLimiter_only (ps := [.log]) (fun _ h => h) _ _ _ Only.rfl).same .br (by decide)
@[simp] theorem logWith_pending (code : Nat) (sev : Nat) (witness : Bool) (host : Bool) (payload : List Byte) (s : State) : (logWith code sev witness host payload s).pending = s.pending :=
  (logWith_only (ps := [.out, .freeIdx, .host, .causes, .stats, .log, .sw, .red]) (fun _ h => h) _ _ _ _ _ _ Only.rfl).same .pending (by decide)
@[simp] theorem logWith_node (code : Nat) (sev : Nat) (witness : Bool) (host : Bool) (payload : List Byte) (s : State) : (logWith code sev witness host payload s).node = s.node :=
  (logWith_only (ps := [.out, .freeIdx, .host, .causes, .stats, .log, .sw, .red]) (fun _ h => h) _ _ _ _ _ _ Only.rfl).same .node (by decide)
@[simp] theorem logWith_pwr (code : Nat) (sev : Nat) (witness : Bool) (host : Bool) (payload : List Byte) (s : State) : (logWith code sev witness host payload s).pwr = s.pwr :=
  (logWith_only (ps := [.out, .freeIdx, .host, .causes, .stats, .log, .sw, .red]) (fun _ h => h) _ _ _ _ _ _ Only.rfl).same .pwr (by decide)
@[simp] theorem logWith_boot (code : Nat) (sev : Nat) (witness : Bool) (host : Bool) (payload : List Byte) (s : State) : (logWith code sev witness host payload s).boot = s.boot :=
  (logWith_only (ps := [.out, .freeIdx, .host, .causes, .stats, .log, .sw, .red]) (fun _ h => h) _ _ _ _ _ _ Only.rfl).same .boot (by decide)
@[simp] theorem logWith_tack (code : Nat) (sev : Nat) (witness : Bool) (host : Bool) (payload : List Byte) (s : State) : (logWith code sev witness host payload s).tack = s.tack :=
  (logWith_only (ps := [.out, .freeIdx, .host, .causes, .stats, .log, .sw, .red]) (fun _ h => h) _ _ _ _ _ _ Only.rfl).same .tack (by decide)
@[simp] theorem logWith_sec (code : Nat) (sev : Nat) (witness : Bool) (host : Bool) (payload : List Byte) (s : State) : (logWith code sev witness host payload s).sec = s.sec :=
  (logWith_only (ps := [.out, .freeIdx, .host, .causes, .stats, .log, .sw, .red]) (fun _ h => h) _ _ _ _ _ _ Only.rfl).same .sec (by decide)
@[simp] theorem logWith_mem (code : Nat) (sev : Nat) (witness : Bool) (host : Bool) (payload : List Byte) (s : State) : (logWith code sev witness host payload s).mem = s.mem :=
  (logWith_only (ps := [.out, .freeIdx, .host, .causes, .stats, .log, .sw, .red]) (fun _ h => h) _ _ _ _ _ _ Only.rfl).same .mem (by decide)
@[simp] theorem logWith_hitch (code : Nat) (sev : Nat) (witness : Bool) (host : Bool) (payload : List Byte) (s : State) : (logWith code sev witness host payload s).hitch = s.hitch :=
  (logWith_only (ps := [.out, .freeIdx, .host, .causes, .stats, .log, .sw, .red]) (fun _ h => h) _ _ _ _ _ _ Only.rfl).same .hitch (by decide)
@[simp] theorem logWith_time (code : Nat) (sev : Nat) (witness : Bool) (host : Bool) (payload : List Byte) (s : State) : (logWith code sev witness host payload s).time = s.time :=
  (logWith_only (ps := [.out, .freeIdx, .host, .causes, .stats, .log, .sw, .red]) (fun _ h => h) _ _ _ _ _ _ Only.rfl).same .time (by decide)
@[simp] theorem logWith_macs (code : Nat) (sev : Nat) (witness : Bool) (host : Bool) (payload : List Byte) (s : State) : (logWith code sev witness host payload s).macs = s.macs :=
  (logWith_only (ps := [.out, .freeIdx, .host, .causes, .stats, .log, .sw, .red]) (fun _ h => h) _ _ _ _ _ _ Only.rfl).same .macs (by decide)
@[simp] theorem logWith_rx (code : Nat) (sev : Nat) (witness : Bool) (host : Bool) (payload : List Byte) (s : State) : (logWith code sev witness host payload s).rx = s.rx :=
  (logWith_only (ps := [.out, .freeIdx, .host, .causes, .stats, .log, .sw, .red]) (fun _ h => h) _ _ _ _ _ _ Only.rfl).same .rx (by decide)
@[simp] theorem logWith_tx (code : Nat) (sev : Nat) (witness : Bool) (host : Bool) (payload : List Byte) (s : State) : (logWith code sev witness host payload s).tx = s.tx :=
  (logWith_only (ps := [.out, .freeIdx, .host, .causes, .stats, .log, .sw, .red]) (fun _ h => h) _ _ _ _ _ _ Only.rfl).same .tx (by decide)
@[simp] theorem logWith_stream (code : Nat) (sev : Nat) (witness : Bool) (host : Bool) (payload : List Byte) (s : State) : (logWith code sev witness host payload s).stream = s.stream :=
  (logWith_only (ps := [.out, .freeIdx, .host, .causes, .stats, .log, .sw, .red]) (fun _ h => h) _ _ _ _ _ _ Only.rfl).same .stream (by decide)
@[simp] theorem logWith_ctl (code : Nat) (sev : Nat) (witness : Bool) (host : Bool) (payload : List Byte) (s : State) : (logWith code sev witness host payload s).ctl = s.ctl :=
  (logWith_only (ps := [.out, .freeIdx, .host, .causes, .stats, .log, .sw, .red]) (fun _ h => h) _ _ _ _ _ _ Only.rfl).same .ctl (by decide)
@[simp] theorem logWith_retain (code : Nat) (sev : Nat) (witness : Bool) (host : Bool) (payload : List Byte) (s : State) : (logWith code sev witness host payload s).retain = s.retain :=
  (logWith_only (ps := [.out, .freeIdx, .host, .causes, .stats, .log, .sw, .red]) (fun _ h => h) _ _ _ _ _ _ Only.rfl).same .retain (by decide)
@[simp] theorem logWith_wr (code : Nat) (sev : Nat) (witness : Bool) (host : Bool) (payload : List Byte) (s : State) : (logWith code sev witness host payload s).wr = s.wr :=
  (logWith_only (ps := [.out, .freeIdx, .host, .causes, .stats, .log, .sw, .red]) (fun _ h => h) _ _ _ _ _ _ Only.rfl).same .wr (by decide)
@[simp] theorem logWith_can (code : Nat) (sev : Nat) (witness : Bool) (host : Bool) (payload : List Byte) (s : State) : (logWith code sev witness host payload s).can = s.can :=
  (logWith_only (ps := [.out, .freeIdx, .host, .causes, .stats, .log, .sw, .red]) (fun _ h => h) _ _ _ _ _ _ Only.rfl).same .can (by decide)
@[simp] theorem logWith_leg (code : Nat) (sev : Nat) (witness : Bool) (host : Bool) (payload : List Byte) (s : State) : (logWith code sev witness host payload s).leg = s.leg :=
  (logWith_only (ps := [.out, .freeIdx, .host, .causes, .stats, .log, .sw, .red]) (fun _ h => h) _ _ _ _ _ _ Only.rfl).same .leg (by decide)
@[simp] theorem logWith_br (code : Nat) (sev : Nat) (witness : Bool) (host : Bool) (payload : List Byte) (s : State) : (logWith code sev witness host payload s).br = s.br :=
  (logWith_only (ps := [.out, .freeIdx, .host, .causes, .stats, .log, .sw, .red]) (fun _ h => h) _ _ _ _ _ _ Only.rfl).same .br (by decide)
@[simp] theorem logEvent_pending (code : Nat) (sev : Nat) (payload : List Byte) (s : State) : (logEvent code sev payload s).pending = s.pending :=
  (logEvent_only (ps := [.out, .freeIdx, .host, .causes, .stats, .log, .sw, .red]) (fun _ h => h) _ _ _ _ Only.rfl).same .pending (by decide)
@[simp] theorem logEvent_node (code : Nat) (sev : Nat) (payload : List Byte) (s : State) : (logEvent code sev payload s).node = s.node :=
  (logEvent_only (ps := [.out, .freeIdx, .host, .causes, .stats, .log, .sw, .red]) (fun _ h => h) _ _ _ _ Only.rfl).same .node (by decide)
@[simp] theorem logEvent_pwr (code : Nat) (sev : Nat) (payload : List Byte) (s : State) : (logEvent code sev payload s).pwr = s.pwr :=
  (logEvent_only (ps := [.out, .freeIdx, .host, .causes, .stats, .log, .sw, .red]) (fun _ h => h) _ _ _ _ Only.rfl).same .pwr (by decide)
@[simp] theorem logEvent_boot (code : Nat) (sev : Nat) (payload : List Byte) (s : State) : (logEvent code sev payload s).boot = s.boot :=
  (logEvent_only (ps := [.out, .freeIdx, .host, .causes, .stats, .log, .sw, .red]) (fun _ h => h) _ _ _ _ Only.rfl).same .boot (by decide)
@[simp] theorem logEvent_tack (code : Nat) (sev : Nat) (payload : List Byte) (s : State) : (logEvent code sev payload s).tack = s.tack :=
  (logEvent_only (ps := [.out, .freeIdx, .host, .causes, .stats, .log, .sw, .red]) (fun _ h => h) _ _ _ _ Only.rfl).same .tack (by decide)
@[simp] theorem logEvent_sec (code : Nat) (sev : Nat) (payload : List Byte) (s : State) : (logEvent code sev payload s).sec = s.sec :=
  (logEvent_only (ps := [.out, .freeIdx, .host, .causes, .stats, .log, .sw, .red]) (fun _ h => h) _ _ _ _ Only.rfl).same .sec (by decide)
@[simp] theorem logEvent_mem (code : Nat) (sev : Nat) (payload : List Byte) (s : State) : (logEvent code sev payload s).mem = s.mem :=
  (logEvent_only (ps := [.out, .freeIdx, .host, .causes, .stats, .log, .sw, .red]) (fun _ h => h) _ _ _ _ Only.rfl).same .mem (by decide)
@[simp] theorem logEvent_hitch (code : Nat) (sev : Nat) (payload : List Byte) (s : State) : (logEvent code sev payload s).hitch = s.hitch :=
  (logEvent_only (ps := [.out, .freeIdx, .host, .causes, .stats, .log, .sw, .red]) (fun _ h => h) _ _ _ _ Only.rfl).same .hitch (by decide)
@[simp] theorem logEvent_time (code : Nat) (sev : Nat) (payload : List Byte) (s : State) : (logEvent code sev payload s).time = s.time :=
  (logEvent_only (ps := [.out, .freeIdx, .host, .causes, .stats, .log, .sw, .red]) (fun _ h => h) _ _ _ _ Only.rfl).same .time (by decide)
@[simp] theorem logEvent_macs (code : Nat) (sev : Nat) (payload : List Byte) (s : State) : (logEvent code sev payload s).macs = s.macs :=
  (logEvent_only (ps := [.out, .freeIdx, .host, .causes, .stats, .log, .sw, .red]) (fun _ h => h) _ _ _ _ Only.rfl).same .macs (by decide)
@[simp] theorem logEvent_rx (code : Nat) (sev : Nat) (payload : List Byte) (s : State) : (logEvent code sev payload s).rx = s.rx :=
  (logEvent_only (ps := [.out, .freeIdx, .host, .causes, .stats, .log, .sw, .red]) (fun _ h => h) _ _ _ _ Only.rfl).same .rx (by decide)
@[simp] theorem logEvent_tx (code : Nat) (sev : Nat) (payload : List Byte) (s : State) : (logEvent code sev payload s).tx = s.tx :=
  (logEvent_only (ps := [.out, .freeIdx, .host, .causes, .stats, .log, .sw, .red]) (fun _ h => h) _ _ _ _ Only.rfl).same .tx (by decide)
@[simp] theorem logEvent_stream (code : Nat) (sev : Nat) (payload : List Byte) (s : State) : (logEvent code sev payload s).stream = s.stream :=
  (logEvent_only (ps := [.out, .freeIdx, .host, .causes, .stats, .log, .sw, .red]) (fun _ h => h) _ _ _ _ Only.rfl).same .stream (by decide)
@[simp] theorem logEvent_ctl (code : Nat) (sev : Nat) (payload : List Byte) (s : State) : (logEvent code sev payload s).ctl = s.ctl :=
  (logEvent_only (ps := [.out, .freeIdx, .host, .causes, .stats, .log, .sw, .red]) (fun _ h => h) _ _ _ _ Only.rfl).same .ctl (by decide)
@[simp] theorem logEvent_retain (code : Nat) (sev : Nat) (payload : List Byte) (s : State) : (logEvent code sev payload s).retain = s.retain :=
  (logEvent_only (ps := [.out, .freeIdx, .host, .causes, .stats, .log, .sw, .red]) (fun _ h => h) _ _ _ _ Only.rfl).same .retain (by decide)
@[simp] theorem logEvent_wr (code : Nat) (sev : Nat) (payload : List Byte) (s : State) : (logEvent code sev payload s).wr = s.wr :=
  (logEvent_only (ps := [.out, .freeIdx, .host, .causes, .stats, .log, .sw, .red]) (fun _ h => h) _ _ _ _ Only.rfl).same .wr (by decide)
@[simp] theorem logEvent_can (code : Nat) (sev : Nat) (payload : List Byte) (s : State) : (logEvent code sev payload s).can = s.can :=
  (logEvent_only (ps := [.out, .freeIdx, .host, .causes, .stats, .log, .sw, .red]) (fun _ h => h) _ _ _ _ Only.rfl).same .can (by decide)
@[simp] theorem logEvent_leg (code : Nat) (sev : Nat) (payload : List Byte) (s : State) : (logEvent code sev payload s).leg = s.leg :=
  (logEvent_only (ps := [.out, .freeIdx, .host, .causes, .stats, .log, .sw, .red]) (fun _ h => h) _ _ _ _ Only.rfl).same .leg (by decide)
@[simp] theorem logEvent_br (code : Nat) (sev : Nat) (payload : List Byte) (s : State) : (logEvent code sev payload s).br = s.br :=
  (logEvent_only (ps := [.out, .freeIdx, .host, .causes, .stats, .log, .sw, .red]) (fun _ h => h) _ _ _ _ Only.rfl).same .br (by decide)
@[simp] theorem setState_pending (new : NodeState) (cause : Nat) (res : Nat) (s : State) : (setState new cause res s).pending = s.pending :=
  (setState_only (ps := [.out, .freeIdx, .node, .host, .causes, .stats, .log, .sw, .red]) (fun _ h => h) _ _ _ _ Only.rfl).same .pending (by decide)
@[simp] theorem setState_pwr (new : NodeState) (cause : Nat) (res : Nat) (s : State) : (setState new cause res s).pwr = s.pwr :=
  (setState_only (ps := [.out, .freeIdx, .node, .host, .causes, .stats, .log, .sw, .red]) (fun _ h => h) _ _ _ _ Only.rfl).same .pwr (by decide)
@[simp] theorem setState_boot (new : NodeState) (cause : Nat) (res : Nat) (s : State) : (setState new cause res s).boot = s.boot :=
  (setState_only (ps := [.out, .freeIdx, .node, .host, .causes, .stats, .log, .sw, .red]) (fun _ h => h) _ _ _ _ Only.rfl).same .boot (by decide)
@[simp] theorem setState_tack (new : NodeState) (cause : Nat) (res : Nat) (s : State) : (setState new cause res s).tack = s.tack :=
  (setState_only (ps := [.out, .freeIdx, .node, .host, .causes, .stats, .log, .sw, .red]) (fun _ h => h) _ _ _ _ Only.rfl).same .tack (by decide)
@[simp] theorem setState_sec (new : NodeState) (cause : Nat) (res : Nat) (s : State) : (setState new cause res s).sec = s.sec :=
  (setState_only (ps := [.out, .freeIdx, .node, .host, .causes, .stats, .log, .sw, .red]) (fun _ h => h) _ _ _ _ Only.rfl).same .sec (by decide)
@[simp] theorem setState_mem (new : NodeState) (cause : Nat) (res : Nat) (s : State) : (setState new cause res s).mem = s.mem :=
  (setState_only (ps := [.out, .freeIdx, .node, .host, .causes, .stats, .log, .sw, .red]) (fun _ h => h) _ _ _ _ Only.rfl).same .mem (by decide)
@[simp] theorem setState_hitch (new : NodeState) (cause : Nat) (res : Nat) (s : State) : (setState new cause res s).hitch = s.hitch :=
  (setState_only (ps := [.out, .freeIdx, .node, .host, .causes, .stats, .log, .sw, .red]) (fun _ h => h) _ _ _ _ Only.rfl).same .hitch (by decide)
@[simp] theorem setState_time (new : NodeState) (cause : Nat) (res : Nat) (s : State) : (setState new cause res s).time = s.time :=
  (setState_only (ps := [.out, .freeIdx, .node, .host, .causes, .stats, .log, .sw, .red]) (fun _ h => h) _ _ _ _ Only.rfl).same .time (by decide)
@[simp] theorem setState_macs (new : NodeState) (cause : Nat) (res : Nat) (s : State) : (setState new cause res s).macs = s.macs :=
  (setState_only (ps := [.out, .freeIdx, .node, .host, .causes, .stats, .log, .sw, .red]) (fun _ h => h) _ _ _ _ Only.rfl).same .macs (by decide)
@[simp] theorem setState_rx (new : NodeState) (cause : Nat) (res : Nat) (s : State) : (setState new cause res s).rx = s.rx :=
  (setState_only (ps := [.out, .freeIdx, .node, .host, .causes, .stats, .log, .sw, .red]) (fun _ h => h) _ _ _ _ Only.rfl).same .rx (by decide)
@[simp] theorem setState_tx (new : NodeState) (cause : Nat) (res : Nat) (s : State) : (setState new cause res s).tx = s.tx :=
  (setState_only (ps := [.out, .freeIdx, .node, .host, .causes, .stats, .log, .sw, .red]) (fun _ h => h) _ _ _ _ Only.rfl).same .tx (by decide)
@[simp] theorem setState_stream (new : NodeState) (cause : Nat) (res : Nat) (s : State) : (setState new cause res s).stream = s.stream :=
  (setState_only (ps := [.out, .freeIdx, .node, .host, .causes, .stats, .log, .sw, .red]) (fun _ h => h) _ _ _ _ Only.rfl).same .stream (by decide)
@[simp] theorem setState_ctl (new : NodeState) (cause : Nat) (res : Nat) (s : State) : (setState new cause res s).ctl = s.ctl :=
  (setState_only (ps := [.out, .freeIdx, .node, .host, .causes, .stats, .log, .sw, .red]) (fun _ h => h) _ _ _ _ Only.rfl).same .ctl (by decide)
@[simp] theorem setState_retain (new : NodeState) (cause : Nat) (res : Nat) (s : State) : (setState new cause res s).retain = s.retain :=
  (setState_only (ps := [.out, .freeIdx, .node, .host, .causes, .stats, .log, .sw, .red]) (fun _ h => h) _ _ _ _ Only.rfl).same .retain (by decide)
@[simp] theorem setState_wr (new : NodeState) (cause : Nat) (res : Nat) (s : State) : (setState new cause res s).wr = s.wr :=
  (setState_only (ps := [.out, .freeIdx, .node, .host, .causes, .stats, .log, .sw, .red]) (fun _ h => h) _ _ _ _ Only.rfl).same .wr (by decide)
@[simp] theorem setState_can (new : NodeState) (cause : Nat) (res : Nat) (s : State) : (setState new cause res s).can = s.can :=
  (setState_only (ps := [.out, .freeIdx, .node, .host, .causes, .stats, .log, .sw, .red]) (fun _ h => h) _ _ _ _ Only.rfl).same .can (by decide)
@[simp] theorem setState_leg (new : NodeState) (cause : Nat) (res : Nat) (s : State) : (setState new cause res s).leg = s.leg :=
  (setState_only (ps := [.out, .freeIdx, .node, .host, .causes, .stats, .log, .sw, .red]) (fun _ h => h) _ _ _ _ Only.rfl).same .leg (by decide)
@[simp] theorem setState_br (new : NodeState) (cause : Nat) (res : Nat) (s : State) : (setState new cause res s).br = s.br :=
  (setState_only (ps := [.out, .freeIdx, .node, .host, .causes, .stats, .log, .sw, .red]) (fun _ h => h) _ _ _ _ Only.rfl).same .br (by decide)
@[simp] theorem setResource_pending (i : Nat) (lost : Bool) (s : State) : (setResource i lost s).pending = s.pending :=
  (setResource_only (ps := [.out, .freeIdx, .node, .host, .causes, .stats, .log, .sw, .red]) (fun _ h => h) _ _ _ Only.rfl).same .pending (by decide)
@[simp] theorem setResource_pwr (i : Nat) (lost : Bool) (s : State) : (setResource i lost s).pwr = s.pwr :=
  (setResource_only (ps := [.out, .freeIdx, .node, .host, .causes, .stats, .log, .sw, .red]) (fun _ h => h) _ _ _ Only.rfl).same .pwr (by decide)
@[simp] theorem setResource_boot (i : Nat) (lost : Bool) (s : State) : (setResource i lost s).boot = s.boot :=
  (setResource_only (ps := [.out, .freeIdx, .node, .host, .causes, .stats, .log, .sw, .red]) (fun _ h => h) _ _ _ Only.rfl).same .boot (by decide)
@[simp] theorem setResource_tack (i : Nat) (lost : Bool) (s : State) : (setResource i lost s).tack = s.tack :=
  (setResource_only (ps := [.out, .freeIdx, .node, .host, .causes, .stats, .log, .sw, .red]) (fun _ h => h) _ _ _ Only.rfl).same .tack (by decide)
@[simp] theorem setResource_sec (i : Nat) (lost : Bool) (s : State) : (setResource i lost s).sec = s.sec :=
  (setResource_only (ps := [.out, .freeIdx, .node, .host, .causes, .stats, .log, .sw, .red]) (fun _ h => h) _ _ _ Only.rfl).same .sec (by decide)
@[simp] theorem setResource_mem (i : Nat) (lost : Bool) (s : State) : (setResource i lost s).mem = s.mem :=
  (setResource_only (ps := [.out, .freeIdx, .node, .host, .causes, .stats, .log, .sw, .red]) (fun _ h => h) _ _ _ Only.rfl).same .mem (by decide)
@[simp] theorem setResource_hitch (i : Nat) (lost : Bool) (s : State) : (setResource i lost s).hitch = s.hitch :=
  (setResource_only (ps := [.out, .freeIdx, .node, .host, .causes, .stats, .log, .sw, .red]) (fun _ h => h) _ _ _ Only.rfl).same .hitch (by decide)
@[simp] theorem setResource_time (i : Nat) (lost : Bool) (s : State) : (setResource i lost s).time = s.time :=
  (setResource_only (ps := [.out, .freeIdx, .node, .host, .causes, .stats, .log, .sw, .red]) (fun _ h => h) _ _ _ Only.rfl).same .time (by decide)
@[simp] theorem setResource_macs (i : Nat) (lost : Bool) (s : State) : (setResource i lost s).macs = s.macs :=
  (setResource_only (ps := [.out, .freeIdx, .node, .host, .causes, .stats, .log, .sw, .red]) (fun _ h => h) _ _ _ Only.rfl).same .macs (by decide)
@[simp] theorem setResource_rx (i : Nat) (lost : Bool) (s : State) : (setResource i lost s).rx = s.rx :=
  (setResource_only (ps := [.out, .freeIdx, .node, .host, .causes, .stats, .log, .sw, .red]) (fun _ h => h) _ _ _ Only.rfl).same .rx (by decide)
@[simp] theorem setResource_tx (i : Nat) (lost : Bool) (s : State) : (setResource i lost s).tx = s.tx :=
  (setResource_only (ps := [.out, .freeIdx, .node, .host, .causes, .stats, .log, .sw, .red]) (fun _ h => h) _ _ _ Only.rfl).same .tx (by decide)
@[simp] theorem setResource_stream (i : Nat) (lost : Bool) (s : State) : (setResource i lost s).stream = s.stream :=
  (setResource_only (ps := [.out, .freeIdx, .node, .host, .causes, .stats, .log, .sw, .red]) (fun _ h => h) _ _ _ Only.rfl).same .stream (by decide)
@[simp] theorem setResource_ctl (i : Nat) (lost : Bool) (s : State) : (setResource i lost s).ctl = s.ctl :=
  (setResource_only (ps := [.out, .freeIdx, .node, .host, .causes, .stats, .log, .sw, .red]) (fun _ h => h) _ _ _ Only.rfl).same .ctl (by decide)
@[simp] theorem setResource_retain (i : Nat) (lost : Bool) (s : State) : (setResource i lost s).retain = s.retain :=
  (setResource_only (ps := [.out, .freeIdx, .node, .host, .causes, .stats, .log, .sw, .red]) (fun _ h => h) _ _ _ Only.rfl).same .retain (by decide)
@[simp] theorem setResource_wr (i : Nat) (lost : Bool) (s : State) : (setResource i lost s).wr = s.wr :=
  (setResource_only (ps := [.out, .freeIdx, .node, .host, .causes, .stats, .log, .sw, .red]) (fun _ h => h) _ _ _ Only.rfl).same .wr (by decide)
@[simp] theorem setResource_can (i : Nat) (lost : Bool) (s : State) : (setResource i lost s).can = s.can :=
  (setResource_only (ps := [.out, .freeIdx, .node, .host, .causes, .stats, .log, .sw, .red]) (fun _ h => h) _ _ _ Only.rfl).same .can (by decide)
@[simp] theorem setResource_leg (i : Nat) (lost : Bool) (s : State) : (setResource i lost s).leg = s.leg :=
  (setResource_only (ps := [.out, .freeIdx, .node, .host, .causes, .stats, .log, .sw, .red]) (fun _ h => h) _ _ _ Only.rfl).same .leg (by decide)
@[simp] theorem setResource_br (i : Nat) (lost : Bool) (s : State) : (setResource i lost s).br = s.br :=
  (setResource_only (ps := [.out, .freeIdx, .node, .host, .causes, .stats, .log, .sw, .red]) (fun _ h => h) _ _ _ Only.rfl).same .br (by decide)
@[simp] theorem drivePin_pending (p : PinName) (l : Level) (s : State) : (drivePin p l s).pending = s.pending :=
  (drivePin_only (ps := [.out, .node, .pwr, .time]) (fun _ h => h) _ _ _ Only.rfl).same .pending (by decide)
@[simp] theorem drivePin_freeIdx (p : PinName) (l : Level) (s : State) : (drivePin p l s).freeIdx = s.freeIdx :=
  (drivePin_only (ps := [.out, .node, .pwr, .time]) (fun _ h => h) _ _ _ Only.rfl).same .freeIdx (by decide)
@[simp] theorem drivePin_boot (p : PinName) (l : Level) (s : State) : (drivePin p l s).boot = s.boot :=
  (drivePin_only (ps := [.out, .node, .pwr, .time]) (fun _ h => h) _ _ _ Only.rfl).same .boot (by decide)
@[simp] theorem drivePin_tack (p : PinName) (l : Level) (s : State) : (drivePin p l s).tack = s.tack :=
  (drivePin_only (ps := [.out, .node, .pwr, .time]) (fun _ h => h) _ _ _ Only.rfl).same .tack (by decide)
@[simp] theorem drivePin_sec (p : PinName) (l : Level) (s : State) : (drivePin p l s).sec = s.sec :=
  (drivePin_only (ps := [.out, .node, .pwr, .time]) (fun _ h => h) _ _ _ Only.rfl).same .sec (by decide)
@[simp] theorem drivePin_host (p : PinName) (l : Level) (s : State) : (drivePin p l s).host = s.host :=
  (drivePin_only (ps := [.out, .node, .pwr, .time]) (fun _ h => h) _ _ _ Only.rfl).same .host (by decide)
@[simp] theorem drivePin_mem (p : PinName) (l : Level) (s : State) : (drivePin p l s).mem = s.mem :=
  (drivePin_only (ps := [.out, .node, .pwr, .time]) (fun _ h => h) _ _ _ Only.rfl).same .mem (by decide)
@[simp] theorem drivePin_causes (p : PinName) (l : Level) (s : State) : (drivePin p l s).causes = s.causes :=
  (drivePin_only (ps := [.out, .node, .pwr, .time]) (fun _ h => h) _ _ _ Only.rfl).same .causes (by decide)
@[simp] theorem drivePin_stats (p : PinName) (l : Level) (s : State) : (drivePin p l s).stats = s.stats :=
  (drivePin_only (ps := [.out, .node, .pwr, .time]) (fun _ h => h) _ _ _ Only.rfl).same .stats (by decide)
@[simp] theorem drivePin_log (p : PinName) (l : Level) (s : State) : (drivePin p l s).log = s.log :=
  (drivePin_only (ps := [.out, .node, .pwr, .time]) (fun _ h => h) _ _ _ Only.rfl).same .log (by decide)
@[simp] theorem drivePin_hitch (p : PinName) (l : Level) (s : State) : (drivePin p l s).hitch = s.hitch :=
  (drivePin_only (ps := [.out, .node, .pwr, .time]) (fun _ h => h) _ _ _ Only.rfl).same .hitch (by decide)
@[simp] theorem drivePin_sw (p : PinName) (l : Level) (s : State) : (drivePin p l s).sw = s.sw :=
  (drivePin_only (ps := [.out, .node, .pwr, .time]) (fun _ h => h) _ _ _ Only.rfl).same .sw (by decide)
@[simp] theorem drivePin_macs (p : PinName) (l : Level) (s : State) : (drivePin p l s).macs = s.macs :=
  (drivePin_only (ps := [.out, .node, .pwr, .time]) (fun _ h => h) _ _ _ Only.rfl).same .macs (by decide)
@[simp] theorem drivePin_rx (p : PinName) (l : Level) (s : State) : (drivePin p l s).rx = s.rx :=
  (drivePin_only (ps := [.out, .node, .pwr, .time]) (fun _ h => h) _ _ _ Only.rfl).same .rx (by decide)
@[simp] theorem drivePin_tx (p : PinName) (l : Level) (s : State) : (drivePin p l s).tx = s.tx :=
  (drivePin_only (ps := [.out, .node, .pwr, .time]) (fun _ h => h) _ _ _ Only.rfl).same .tx (by decide)
@[simp] theorem drivePin_stream (p : PinName) (l : Level) (s : State) : (drivePin p l s).stream = s.stream :=
  (drivePin_only (ps := [.out, .node, .pwr, .time]) (fun _ h => h) _ _ _ Only.rfl).same .stream (by decide)
@[simp] theorem drivePin_ctl (p : PinName) (l : Level) (s : State) : (drivePin p l s).ctl = s.ctl :=
  (drivePin_only (ps := [.out, .node, .pwr, .time]) (fun _ h => h) _ _ _ Only.rfl).same .ctl (by decide)
@[simp] theorem drivePin_retain (p : PinName) (l : Level) (s : State) : (drivePin p l s).retain = s.retain :=
  (drivePin_only (ps := [.out, .node, .pwr, .time]) (fun _ h => h) _ _ _ Only.rfl).same .retain (by decide)
@[simp] theorem drivePin_red (p : PinName) (l : Level) (s : State) : (drivePin p l s).red = s.red :=
  (drivePin_only (ps := [.out, .node, .pwr, .time]) (fun _ h => h) _ _ _ Only.rfl).same .red (by decide)
@[simp] theorem drivePin_wr (p : PinName) (l : Level) (s : State) : (drivePin p l s).wr = s.wr :=
  (drivePin_only (ps := [.out, .node, .pwr, .time]) (fun _ h => h) _ _ _ Only.rfl).same .wr (by decide)
@[simp] theorem drivePin_can (p : PinName) (l : Level) (s : State) : (drivePin p l s).can = s.can :=
  (drivePin_only (ps := [.out, .node, .pwr, .time]) (fun _ h => h) _ _ _ Only.rfl).same .can (by decide)
@[simp] theorem drivePin_leg (p : PinName) (l : Level) (s : State) : (drivePin p l s).leg = s.leg :=
  (drivePin_only (ps := [.out, .node, .pwr, .time]) (fun _ h => h) _ _ _ Only.rfl).same .leg (by decide)
@[simp] theorem drivePin_br (p : PinName) (l : Level) (s : State) : (drivePin p l s).br = s.br :=
  (drivePin_only (ps := [.out, .node, .pwr, .time]) (fun _ h => h) _ _ _ Only.rfl).same .br (by decide)
@[simp] theorem mbxVector_pending (en : Bool) (s : State) : (mbxVector en s).pending = s.pending :=
  (mbxVector_only (ps := [.out, .host, .stats]) (fun _ h => h) _ _ Only.rfl).same .pending (by decide)
@[simp] theorem mbxVector_freeIdx (en : Bool) (s : State) : (mbxVector en s).freeIdx = s.freeIdx :=
  (mbxVector_only (ps := [.out, .host, .stats]) (fun _ h => h) _ _ Only.rfl).same .freeIdx (by decide)
@[simp] theorem mbxVector_node (en : Bool) (s : State) : (mbxVector en s).node = s.node :=
  (mbxVector_only (ps := [.out, .host, .stats]) (fun _ h => h) _ _ Only.rfl).same .node (by decide)
@[simp] theorem mbxVector_pwr (en : Bool) (s : State) : (mbxVector en s).pwr = s.pwr :=
  (mbxVector_only (ps := [.out, .host, .stats]) (fun _ h => h) _ _ Only.rfl).same .pwr (by decide)
@[simp] theorem mbxVector_boot (en : Bool) (s : State) : (mbxVector en s).boot = s.boot :=
  (mbxVector_only (ps := [.out, .host, .stats]) (fun _ h => h) _ _ Only.rfl).same .boot (by decide)
@[simp] theorem mbxVector_tack (en : Bool) (s : State) : (mbxVector en s).tack = s.tack :=
  (mbxVector_only (ps := [.out, .host, .stats]) (fun _ h => h) _ _ Only.rfl).same .tack (by decide)
@[simp] theorem mbxVector_sec (en : Bool) (s : State) : (mbxVector en s).sec = s.sec :=
  (mbxVector_only (ps := [.out, .host, .stats]) (fun _ h => h) _ _ Only.rfl).same .sec (by decide)
@[simp] theorem mbxVector_mem (en : Bool) (s : State) : (mbxVector en s).mem = s.mem :=
  (mbxVector_only (ps := [.out, .host, .stats]) (fun _ h => h) _ _ Only.rfl).same .mem (by decide)
@[simp] theorem mbxVector_causes (en : Bool) (s : State) : (mbxVector en s).causes = s.causes :=
  (mbxVector_only (ps := [.out, .host, .stats]) (fun _ h => h) _ _ Only.rfl).same .causes (by decide)
@[simp] theorem mbxVector_log (en : Bool) (s : State) : (mbxVector en s).log = s.log :=
  (mbxVector_only (ps := [.out, .host, .stats]) (fun _ h => h) _ _ Only.rfl).same .log (by decide)
@[simp] theorem mbxVector_hitch (en : Bool) (s : State) : (mbxVector en s).hitch = s.hitch :=
  (mbxVector_only (ps := [.out, .host, .stats]) (fun _ h => h) _ _ Only.rfl).same .hitch (by decide)
@[simp] theorem mbxVector_time (en : Bool) (s : State) : (mbxVector en s).time = s.time :=
  (mbxVector_only (ps := [.out, .host, .stats]) (fun _ h => h) _ _ Only.rfl).same .time (by decide)
@[simp] theorem mbxVector_sw (en : Bool) (s : State) : (mbxVector en s).sw = s.sw :=
  (mbxVector_only (ps := [.out, .host, .stats]) (fun _ h => h) _ _ Only.rfl).same .sw (by decide)
@[simp] theorem mbxVector_macs (en : Bool) (s : State) : (mbxVector en s).macs = s.macs :=
  (mbxVector_only (ps := [.out, .host, .stats]) (fun _ h => h) _ _ Only.rfl).same .macs (by decide)
@[simp] theorem mbxVector_rx (en : Bool) (s : State) : (mbxVector en s).rx = s.rx :=
  (mbxVector_only (ps := [.out, .host, .stats]) (fun _ h => h) _ _ Only.rfl).same .rx (by decide)
@[simp] theorem mbxVector_tx (en : Bool) (s : State) : (mbxVector en s).tx = s.tx :=
  (mbxVector_only (ps := [.out, .host, .stats]) (fun _ h => h) _ _ Only.rfl).same .tx (by decide)
@[simp] theorem mbxVector_stream (en : Bool) (s : State) : (mbxVector en s).stream = s.stream :=
  (mbxVector_only (ps := [.out, .host, .stats]) (fun _ h => h) _ _ Only.rfl).same .stream (by decide)
@[simp] theorem mbxVector_ctl (en : Bool) (s : State) : (mbxVector en s).ctl = s.ctl :=
  (mbxVector_only (ps := [.out, .host, .stats]) (fun _ h => h) _ _ Only.rfl).same .ctl (by decide)
@[simp] theorem mbxVector_retain (en : Bool) (s : State) : (mbxVector en s).retain = s.retain :=
  (mbxVector_only (ps := [.out, .host, .stats]) (fun _ h => h) _ _ Only.rfl).same .retain (by decide)
@[simp] theorem mbxVector_red (en : Bool) (s : State) : (mbxVector en s).red = s.red :=
  (mbxVector_only (ps := [.out, .host, .stats]) (fun _ h => h) _ _ Only.rfl).same .red (by decide)
@[simp] theorem mbxVector_wr (en : Bool) (s : State) : (mbxVector en s).wr = s.wr :=
  (mbxVector_only (ps := [.out, .host, .stats]) (fun _ h => h) _ _ Only.rfl).same .wr (by decide)
@[simp] theorem mbxVector_can (en : Bool) (s : State) : (mbxVector en s).can = s.can :=
  (mbxVector_only (ps := [.out, .host, .stats]) (fun _ h => h) _ _ Only.rfl).same .can (by decide)
@[simp] theorem mbxVector_leg (en : Bool) (s : State) : (mbxVector en s).leg = s.leg :=
  (mbxVector_only (ps := [.out, .host, .stats]) (fun _ h => h) _ _ Only.rfl).same .leg (by decide)
@[simp] theorem mbxVector_br (en : Bool) (s : State) : (mbxVector en s).br = s.br :=
  (mbxVector_only (ps := [.out, .host, .stats]) (fun _ h => h) _ _ Only.rfl).same .br (by decide)
@[simp] theorem acsDone_pending (r : AcsRef) (status : Nat) (payload : List Byte) (s : State) : (acsDone r status payload s).pending = s.pending :=
  (acsDone_only (ps := [.out, .host, .mem, .causes, .stats]) (fun _ h => h) _ _ _ _ Only.rfl).same .pending (by decide)
@[simp] theorem acsDone_freeIdx (r : AcsRef) (status : Nat) (payload : List Byte) (s : State) : (acsDone r status payload s).freeIdx = s.freeIdx :=
  (acsDone_only (ps := [.out, .host, .mem, .causes, .stats]) (fun _ h => h) _ _ _ _ Only.rfl).same .freeIdx (by decide)
@[simp] theorem acsDone_node (r : AcsRef) (status : Nat) (payload : List Byte) (s : State) : (acsDone r status payload s).node = s.node :=
  (acsDone_only (ps := [.out, .host, .mem, .causes, .stats]) (fun _ h => h) _ _ _ _ Only.rfl).same .node (by decide)
@[simp] theorem acsDone_pwr (r : AcsRef) (status : Nat) (payload : List Byte) (s : State) : (acsDone r status payload s).pwr = s.pwr :=
  (acsDone_only (ps := [.out, .host, .mem, .causes, .stats]) (fun _ h => h) _ _ _ _ Only.rfl).same .pwr (by decide)
@[simp] theorem acsDone_boot (r : AcsRef) (status : Nat) (payload : List Byte) (s : State) : (acsDone r status payload s).boot = s.boot :=
  (acsDone_only (ps := [.out, .host, .mem, .causes, .stats]) (fun _ h => h) _ _ _ _ Only.rfl).same .boot (by decide)
@[simp] theorem acsDone_tack (r : AcsRef) (status : Nat) (payload : List Byte) (s : State) : (acsDone r status payload s).tack = s.tack :=
  (acsDone_only (ps := [.out, .host, .mem, .causes, .stats]) (fun _ h => h) _ _ _ _ Only.rfl).same .tack (by decide)
@[simp] theorem acsDone_sec (r : AcsRef) (status : Nat) (payload : List Byte) (s : State) : (acsDone r status payload s).sec = s.sec :=
  (acsDone_only (ps := [.out, .host, .mem, .causes, .stats]) (fun _ h => h) _ _ _ _ Only.rfl).same .sec (by decide)
@[simp] theorem acsDone_log (r : AcsRef) (status : Nat) (payload : List Byte) (s : State) : (acsDone r status payload s).log = s.log :=
  (acsDone_only (ps := [.out, .host, .mem, .causes, .stats]) (fun _ h => h) _ _ _ _ Only.rfl).same .log (by decide)
@[simp] theorem acsDone_hitch (r : AcsRef) (status : Nat) (payload : List Byte) (s : State) : (acsDone r status payload s).hitch = s.hitch :=
  (acsDone_only (ps := [.out, .host, .mem, .causes, .stats]) (fun _ h => h) _ _ _ _ Only.rfl).same .hitch (by decide)
@[simp] theorem acsDone_time (r : AcsRef) (status : Nat) (payload : List Byte) (s : State) : (acsDone r status payload s).time = s.time :=
  (acsDone_only (ps := [.out, .host, .mem, .causes, .stats]) (fun _ h => h) _ _ _ _ Only.rfl).same .time (by decide)
@[simp] theorem acsDone_sw (r : AcsRef) (status : Nat) (payload : List Byte) (s : State) : (acsDone r status payload s).sw = s.sw :=
  (acsDone_only (ps := [.out, .host, .mem, .causes, .stats]) (fun _ h => h) _ _ _ _ Only.rfl).same .sw (by decide)
@[simp] theorem acsDone_macs (r : AcsRef) (status : Nat) (payload : List Byte) (s : State) : (acsDone r status payload s).macs = s.macs :=
  (acsDone_only (ps := [.out, .host, .mem, .causes, .stats]) (fun _ h => h) _ _ _ _ Only.rfl).same .macs (by decide)
@[simp] theorem acsDone_rx (r : AcsRef) (status : Nat) (payload : List Byte) (s : State) : (acsDone r status payload s).rx = s.rx :=
  (acsDone_only (ps := [.out, .host, .mem, .causes, .stats]) (fun _ h => h) _ _ _ _ Only.rfl).same .rx (by decide)
@[simp] theorem acsDone_tx (r : AcsRef) (status : Nat) (payload : List Byte) (s : State) : (acsDone r status payload s).tx = s.tx :=
  (acsDone_only (ps := [.out, .host, .mem, .causes, .stats]) (fun _ h => h) _ _ _ _ Only.rfl).same .tx (by decide)
@[simp] theorem acsDone_stream (r : AcsRef) (status : Nat) (payload : List Byte) (s : State) : (acsDone r status payload s).stream = s.stream :=
  (acsDone_only (ps := [.out, .host, .mem, .causes, .stats]) (fun _ h => h) _ _ _ _ Only.rfl).same .stream (by decide)
@[simp] theorem acsDone_ctl (r : AcsRef) (status : Nat) (payload : List Byte) (s : State) : (acsDone r status payload s).ctl = s.ctl :=
  (acsDone_only (ps := [.out, .host, .mem, .causes, .stats]) (fun _ h => h) _ _ _ _ Only.rfl).same .ctl (by decide)
@[simp] theorem acsDone_retain (r : AcsRef) (status : Nat) (payload : List Byte) (s : State) : (acsDone r status payload s).retain = s.retain :=
  (acsDone_only (ps := [.out, .host, .mem, .causes, .stats]) (fun _ h => h) _ _ _ _ Only.rfl).same .retain (by decide)
@[simp] theorem acsDone_red (r : AcsRef) (status : Nat) (payload : List Byte) (s : State) : (acsDone r status payload s).red = s.red :=
  (acsDone_only (ps := [.out, .host, .mem, .causes, .stats]) (fun _ h => h) _ _ _ _ Only.rfl).same .red (by decide)
@[simp] theorem acsDone_wr (r : AcsRef) (status : Nat) (payload : List Byte) (s : State) : (acsDone r status payload s).wr = s.wr :=
  (acsDone_only (ps := [.out, .host, .mem, .causes, .stats]) (fun _ h => h) _ _ _ _ Only.rfl).same .wr (by decide)
@[simp] theorem acsDone_can (r : AcsRef) (status : Nat) (payload : List Byte) (s : State) : (acsDone r status payload s).can = s.can :=
  (acsDone_only (ps := [.out, .host, .mem, .causes, .stats]) (fun _ h => h) _ _ _ _ Only.rfl).same .can (by decide)
@[simp] theorem acsDone_leg (r : AcsRef) (status : Nat) (payload : List Byte) (s : State) : (acsDone r status payload s).leg = s.leg :=
  (acsDone_only (ps := [.out, .host, .mem, .causes, .stats]) (fun _ h => h) _ _ _ _ Only.rfl).same .leg (by decide)
@[simp] theorem acsDone_br (r : AcsRef) (status : Nat) (payload : List Byte) (s : State) : (acsDone r status payload s).br = s.br :=
  (acsDone_only (ps := [.out, .host, .mem, .causes, .stats]) (fun _ h => h) _ _ _ _ Only.rfl).same .br (by decide)
@[simp] theorem done_pending (c : Acs) (opcode : Nat) (status : Nat) (payload : List Byte) (s : State) : (done c opcode status payload s).pending = s.pending :=
  (done_only (ps := [.out, .host, .mem, .causes, .stats]) (fun _ h => h) _ _ _ _ _ Only.rfl).same .pending (by decide)
@[simp] theorem done_freeIdx (c : Acs) (opcode : Nat) (status : Nat) (payload : List Byte) (s : State) : (done c opcode status payload s).freeIdx = s.freeIdx :=
  (done_only (ps := [.out, .host, .mem, .causes, .stats]) (fun _ h => h) _ _ _ _ _ Only.rfl).same .freeIdx (by decide)
@[simp] theorem done_node (c : Acs) (opcode : Nat) (status : Nat) (payload : List Byte) (s : State) : (done c opcode status payload s).node = s.node :=
  (done_only (ps := [.out, .host, .mem, .causes, .stats]) (fun _ h => h) _ _ _ _ _ Only.rfl).same .node (by decide)
@[simp] theorem done_pwr (c : Acs) (opcode : Nat) (status : Nat) (payload : List Byte) (s : State) : (done c opcode status payload s).pwr = s.pwr :=
  (done_only (ps := [.out, .host, .mem, .causes, .stats]) (fun _ h => h) _ _ _ _ _ Only.rfl).same .pwr (by decide)
@[simp] theorem done_boot (c : Acs) (opcode : Nat) (status : Nat) (payload : List Byte) (s : State) : (done c opcode status payload s).boot = s.boot :=
  (done_only (ps := [.out, .host, .mem, .causes, .stats]) (fun _ h => h) _ _ _ _ _ Only.rfl).same .boot (by decide)
@[simp] theorem done_tack (c : Acs) (opcode : Nat) (status : Nat) (payload : List Byte) (s : State) : (done c opcode status payload s).tack = s.tack :=
  (done_only (ps := [.out, .host, .mem, .causes, .stats]) (fun _ h => h) _ _ _ _ _ Only.rfl).same .tack (by decide)
@[simp] theorem done_sec (c : Acs) (opcode : Nat) (status : Nat) (payload : List Byte) (s : State) : (done c opcode status payload s).sec = s.sec :=
  (done_only (ps := [.out, .host, .mem, .causes, .stats]) (fun _ h => h) _ _ _ _ _ Only.rfl).same .sec (by decide)
@[simp] theorem done_log (c : Acs) (opcode : Nat) (status : Nat) (payload : List Byte) (s : State) : (done c opcode status payload s).log = s.log :=
  (done_only (ps := [.out, .host, .mem, .causes, .stats]) (fun _ h => h) _ _ _ _ _ Only.rfl).same .log (by decide)
@[simp] theorem done_hitch (c : Acs) (opcode : Nat) (status : Nat) (payload : List Byte) (s : State) : (done c opcode status payload s).hitch = s.hitch :=
  (done_only (ps := [.out, .host, .mem, .causes, .stats]) (fun _ h => h) _ _ _ _ _ Only.rfl).same .hitch (by decide)
@[simp] theorem done_time (c : Acs) (opcode : Nat) (status : Nat) (payload : List Byte) (s : State) : (done c opcode status payload s).time = s.time :=
  (done_only (ps := [.out, .host, .mem, .causes, .stats]) (fun _ h => h) _ _ _ _ _ Only.rfl).same .time (by decide)
@[simp] theorem done_sw (c : Acs) (opcode : Nat) (status : Nat) (payload : List Byte) (s : State) : (done c opcode status payload s).sw = s.sw :=
  (done_only (ps := [.out, .host, .mem, .causes, .stats]) (fun _ h => h) _ _ _ _ _ Only.rfl).same .sw (by decide)
@[simp] theorem done_macs (c : Acs) (opcode : Nat) (status : Nat) (payload : List Byte) (s : State) : (done c opcode status payload s).macs = s.macs :=
  (done_only (ps := [.out, .host, .mem, .causes, .stats]) (fun _ h => h) _ _ _ _ _ Only.rfl).same .macs (by decide)
@[simp] theorem done_rx (c : Acs) (opcode : Nat) (status : Nat) (payload : List Byte) (s : State) : (done c opcode status payload s).rx = s.rx :=
  (done_only (ps := [.out, .host, .mem, .causes, .stats]) (fun _ h => h) _ _ _ _ _ Only.rfl).same .rx (by decide)
@[simp] theorem done_tx (c : Acs) (opcode : Nat) (status : Nat) (payload : List Byte) (s : State) : (done c opcode status payload s).tx = s.tx :=
  (done_only (ps := [.out, .host, .mem, .causes, .stats]) (fun _ h => h) _ _ _ _ _ Only.rfl).same .tx (by decide)
@[simp] theorem done_stream (c : Acs) (opcode : Nat) (status : Nat) (payload : List Byte) (s : State) : (done c opcode status payload s).stream = s.stream :=
  (done_only (ps := [.out, .host, .mem, .causes, .stats]) (fun _ h => h) _ _ _ _ _ Only.rfl).same .stream (by decide)
@[simp] theorem done_ctl (c : Acs) (opcode : Nat) (status : Nat) (payload : List Byte) (s : State) : (done c opcode status payload s).ctl = s.ctl :=
  (done_only (ps := [.out, .host, .mem, .causes, .stats]) (fun _ h => h) _ _ _ _ _ Only.rfl).same .ctl (by decide)
@[simp] theorem done_retain (c : Acs) (opcode : Nat) (status : Nat) (payload : List Byte) (s : State) : (done c opcode status payload s).retain = s.retain :=
  (done_only (ps := [.out, .host, .mem, .causes, .stats]) (fun _ h => h) _ _ _ _ _ Only.rfl).same .retain (by decide)
@[simp] theorem done_red (c : Acs) (opcode : Nat) (status : Nat) (payload : List Byte) (s : State) : (done c opcode status payload s).red = s.red :=
  (done_only (ps := [.out, .host, .mem, .causes, .stats]) (fun _ h => h) _ _ _ _ _ Only.rfl).same .red (by decide)
@[simp] theorem done_wr (c : Acs) (opcode : Nat) (status : Nat) (payload : List Byte) (s : State) : (done c opcode status payload s).wr = s.wr :=
  (done_only (ps := [.out, .host, .mem, .causes, .stats]) (fun _ h => h) _ _ _ _ _ Only.rfl).same .wr (by decide)
@[simp] theorem done_can (c : Acs) (opcode : Nat) (status : Nat) (payload : List Byte) (s : State) : (done c opcode status payload s).can = s.can :=
  (done_only (ps := [.out, .host, .mem, .causes, .stats]) (fun _ h => h) _ _ _ _ _ Only.rfl).same .can (by decide)
@[simp] theorem done_leg (c : Acs) (opcode : Nat) (status : Nat) (payload : List Byte) (s : State) : (done c opcode status payload s).leg = s.leg :=
  (done_only (ps := [.out, .host, .mem, .causes, .stats]) (fun _ h => h) _ _ _ _ _ Only.rfl).same .leg (by decide)
@[simp] theorem done_br (c : Acs) (opcode : Nat) (status : Nat) (payload : List Byte) (s : State) : (done c opcode status payload s).br = s.br :=
  (done_only (ps := [.out, .host, .mem, .causes, .stats]) (fun _ h => h) _ _ _ _ _ Only.rfl).same .br (by decide)
@[simp] theorem finish_pending (r : Option AcsRef) (status : Nat) (payload : List Byte) (s : State) : (finish r status payload s).pending = s.pending :=
  (finish_only (ps := [.out, .host, .mem, .causes, .stats, .red]) (fun _ h => h) _ _ _ _ Only.rfl).same .pending (by decide)
@[simp] theorem finish_freeIdx (r : Option AcsRef) (status : Nat) (payload : List Byte) (s : State) : (finish r status payload s).freeIdx = s.freeIdx :=
  (finish_only (ps := [.out, .host, .mem, .causes, .stats, .red]) (fun _ h => h) _ _ _ _ Only.rfl).same .freeIdx (by decide)
@[simp] theorem finish_node (r : Option AcsRef) (status : Nat) (payload : List Byte) (s : State) : (finish r status payload s).node = s.node :=
  (finish_only (ps := [.out, .host, .mem, .causes, .stats, .red]) (fun _ h => h) _ _ _ _ Only.rfl).same .node (by decide)
@[simp] theorem finish_pwr (r : Option AcsRef) (status : Nat) (payload : List Byte) (s : State) : (finish r status payload s).pwr = s.pwr :=
  (finish_only (ps := [.out, .host, .mem, .causes, .stats, .red]) (fun _ h => h) _ _ _ _ Only.rfl).same .pwr (by decide)
@[simp] theorem finish_boot (r : Option AcsRef) (status : Nat) (payload : List Byte) (s : State) : (finish r status payload s).boot = s.boot :=
  (finish_only (ps := [.out, .host, .mem, .causes, .stats, .red]) (fun _ h => h) _ _ _ _ Only.rfl).same .boot (by decide)
@[simp] theorem finish_tack (r : Option AcsRef) (status : Nat) (payload : List Byte) (s : State) : (finish r status payload s).tack = s.tack :=
  (finish_only (ps := [.out, .host, .mem, .causes, .stats, .red]) (fun _ h => h) _ _ _ _ Only.rfl).same .tack (by decide)
@[simp] theorem finish_sec (r : Option AcsRef) (status : Nat) (payload : List Byte) (s : State) : (finish r status payload s).sec = s.sec :=
  (finish_only (ps := [.out, .host, .mem, .causes, .stats, .red]) (fun _ h => h) _ _ _ _ Only.rfl).same .sec (by decide)
@[simp] theorem finish_log (r : Option AcsRef) (status : Nat) (payload : List Byte) (s : State) : (finish r status payload s).log = s.log :=
  (finish_only (ps := [.out, .host, .mem, .causes, .stats, .red]) (fun _ h => h) _ _ _ _ Only.rfl).same .log (by decide)
@[simp] theorem finish_hitch (r : Option AcsRef) (status : Nat) (payload : List Byte) (s : State) : (finish r status payload s).hitch = s.hitch :=
  (finish_only (ps := [.out, .host, .mem, .causes, .stats, .red]) (fun _ h => h) _ _ _ _ Only.rfl).same .hitch (by decide)
@[simp] theorem finish_time (r : Option AcsRef) (status : Nat) (payload : List Byte) (s : State) : (finish r status payload s).time = s.time :=
  (finish_only (ps := [.out, .host, .mem, .causes, .stats, .red]) (fun _ h => h) _ _ _ _ Only.rfl).same .time (by decide)
@[simp] theorem finish_sw (r : Option AcsRef) (status : Nat) (payload : List Byte) (s : State) : (finish r status payload s).sw = s.sw :=
  (finish_only (ps := [.out, .host, .mem, .causes, .stats, .red]) (fun _ h => h) _ _ _ _ Only.rfl).same .sw (by decide)
@[simp] theorem finish_macs (r : Option AcsRef) (status : Nat) (payload : List Byte) (s : State) : (finish r status payload s).macs = s.macs :=
  (finish_only (ps := [.out, .host, .mem, .causes, .stats, .red]) (fun _ h => h) _ _ _ _ Only.rfl).same .macs (by decide)
@[simp] theorem finish_rx (r : Option AcsRef) (status : Nat) (payload : List Byte) (s : State) : (finish r status payload s).rx = s.rx :=
  (finish_only (ps := [.out, .host, .mem, .causes, .stats, .red]) (fun _ h => h) _ _ _ _ Only.rfl).same .rx (by decide)
@[simp] theorem finish_tx (r : Option AcsRef) (status : Nat) (payload : List Byte) (s : State) : (finish r status payload s).tx = s.tx :=
  (finish_only (ps := [.out, .host, .mem, .causes, .stats, .red]) (fun _ h => h) _ _ _ _ Only.rfl).same .tx (by decide)
@[simp] theorem finish_stream (r : Option AcsRef) (status : Nat) (payload : List Byte) (s : State) : (finish r status payload s).stream = s.stream :=
  (finish_only (ps := [.out, .host, .mem, .causes, .stats, .red]) (fun _ h => h) _ _ _ _ Only.rfl).same .stream (by decide)
@[simp] theorem finish_ctl (r : Option AcsRef) (status : Nat) (payload : List Byte) (s : State) : (finish r status payload s).ctl = s.ctl :=
  (finish_only (ps := [.out, .host, .mem, .causes, .stats, .red]) (fun _ h => h) _ _ _ _ Only.rfl).same .ctl (by decide)
@[simp] theorem finish_retain (r : Option AcsRef) (status : Nat) (payload : List Byte) (s : State) : (finish r status payload s).retain = s.retain :=
  (finish_only (ps := [.out, .host, .mem, .causes, .stats, .red]) (fun _ h => h) _ _ _ _ Only.rfl).same .retain (by decide)
@[simp] theorem finish_wr (r : Option AcsRef) (status : Nat) (payload : List Byte) (s : State) : (finish r status payload s).wr = s.wr :=
  (finish_only (ps := [.out, .host, .mem, .causes, .stats, .red]) (fun _ h => h) _ _ _ _ Only.rfl).same .wr (by decide)
@[simp] theorem finish_can (r : Option AcsRef) (status : Nat) (payload : List Byte) (s : State) : (finish r status payload s).can = s.can :=
  (finish_only (ps := [.out, .host, .mem, .causes, .stats, .red]) (fun _ h => h) _ _ _ _ Only.rfl).same .can (by decide)
@[simp] theorem finish_leg (r : Option AcsRef) (status : Nat) (payload : List Byte) (s : State) : (finish r status payload s).leg = s.leg :=
  (finish_only (ps := [.out, .host, .mem, .causes, .stats, .red]) (fun _ h => h) _ _ _ _ Only.rfl).same .leg (by decide)
@[simp] theorem finish_br (r : Option AcsRef) (status : Nat) (payload : List Byte) (s : State) : (finish r status payload s).br = s.br :=
  (finish_only (ps := [.out, .host, .mem, .causes, .stats, .red]) (fun _ h => h) _ _ _ _ Only.rfl).same .br (by decide)
@[simp] theorem acsMark_pending (c : Acs) (s : State) : (acsMark c s).pending = s.pending :=
  (acsMark_only (ps := [.host]) (fun _ h => h) _ _ Only.rfl).same .pending (by decide)
@[simp] theorem acsMark_out (c : Acs) (s : State) : (acsMark c s).out = s.out :=
  (acsMark_only (ps := [.host]) (fun _ h => h) _ _ Only.rfl).same .out (by decide)
@[simp] theorem acsMark_freeIdx (c : Acs) (s : State) : (acsMark c s).freeIdx = s.freeIdx :=
  (acsMark_only (ps := [.host]) (fun _ h => h) _ _ Only.rfl).same .freeIdx (by decide)
@[simp] theorem acsMark_node (c : Acs) (s : State) : (acsMark c s).node = s.node :=
  (acsMark_only (ps := [.host]) (fun _ h => h) _ _ Only.rfl).same .node (by decide)
@[simp] theorem acsMark_pwr (c : Acs) (s : State) : (acsMark c s).pwr = s.pwr :=
  (acsMark_only (ps := [.host]) (fun _ h => h) _ _ Only.rfl).same .pwr (by decide)
@[simp] theorem acsMark_boot (c : Acs) (s : State) : (acsMark c s).boot = s.boot :=
  (acsMark_only (ps := [.host]) (fun _ h => h) _ _ Only.rfl).same .boot (by decide)
@[simp] theorem acsMark_tack (c : Acs) (s : State) : (acsMark c s).tack = s.tack :=
  (acsMark_only (ps := [.host]) (fun _ h => h) _ _ Only.rfl).same .tack (by decide)
@[simp] theorem acsMark_sec (c : Acs) (s : State) : (acsMark c s).sec = s.sec :=
  (acsMark_only (ps := [.host]) (fun _ h => h) _ _ Only.rfl).same .sec (by decide)
@[simp] theorem acsMark_mem (c : Acs) (s : State) : (acsMark c s).mem = s.mem :=
  (acsMark_only (ps := [.host]) (fun _ h => h) _ _ Only.rfl).same .mem (by decide)
@[simp] theorem acsMark_causes (c : Acs) (s : State) : (acsMark c s).causes = s.causes :=
  (acsMark_only (ps := [.host]) (fun _ h => h) _ _ Only.rfl).same .causes (by decide)
@[simp] theorem acsMark_stats (c : Acs) (s : State) : (acsMark c s).stats = s.stats :=
  (acsMark_only (ps := [.host]) (fun _ h => h) _ _ Only.rfl).same .stats (by decide)
@[simp] theorem acsMark_log (c : Acs) (s : State) : (acsMark c s).log = s.log :=
  (acsMark_only (ps := [.host]) (fun _ h => h) _ _ Only.rfl).same .log (by decide)
@[simp] theorem acsMark_hitch (c : Acs) (s : State) : (acsMark c s).hitch = s.hitch :=
  (acsMark_only (ps := [.host]) (fun _ h => h) _ _ Only.rfl).same .hitch (by decide)
@[simp] theorem acsMark_time (c : Acs) (s : State) : (acsMark c s).time = s.time :=
  (acsMark_only (ps := [.host]) (fun _ h => h) _ _ Only.rfl).same .time (by decide)
@[simp] theorem acsMark_sw (c : Acs) (s : State) : (acsMark c s).sw = s.sw :=
  (acsMark_only (ps := [.host]) (fun _ h => h) _ _ Only.rfl).same .sw (by decide)
@[simp] theorem acsMark_macs (c : Acs) (s : State) : (acsMark c s).macs = s.macs :=
  (acsMark_only (ps := [.host]) (fun _ h => h) _ _ Only.rfl).same .macs (by decide)
@[simp] theorem acsMark_rx (c : Acs) (s : State) : (acsMark c s).rx = s.rx :=
  (acsMark_only (ps := [.host]) (fun _ h => h) _ _ Only.rfl).same .rx (by decide)
@[simp] theorem acsMark_tx (c : Acs) (s : State) : (acsMark c s).tx = s.tx :=
  (acsMark_only (ps := [.host]) (fun _ h => h) _ _ Only.rfl).same .tx (by decide)
@[simp] theorem acsMark_stream (c : Acs) (s : State) : (acsMark c s).stream = s.stream :=
  (acsMark_only (ps := [.host]) (fun _ h => h) _ _ Only.rfl).same .stream (by decide)
@[simp] theorem acsMark_ctl (c : Acs) (s : State) : (acsMark c s).ctl = s.ctl :=
  (acsMark_only (ps := [.host]) (fun _ h => h) _ _ Only.rfl).same .ctl (by decide)
@[simp] theorem acsMark_retain (c : Acs) (s : State) : (acsMark c s).retain = s.retain :=
  (acsMark_only (ps := [.host]) (fun _ h => h) _ _ Only.rfl).same .retain (by decide)
@[simp] theorem acsMark_red (c : Acs) (s : State) : (acsMark c s).red = s.red :=
  (acsMark_only (ps := [.host]) (fun _ h => h) _ _ Only.rfl).same .red (by decide)
@[simp] theorem acsMark_wr (c : Acs) (s : State) : (acsMark c s).wr = s.wr :=
  (acsMark_only (ps := [.host]) (fun _ h => h) _ _ Only.rfl).same .wr (by decide)
@[simp] theorem acsMark_can (c : Acs) (s : State) : (acsMark c s).can = s.can :=
  (acsMark_only (ps := [.host]) (fun _ h => h) _ _ Only.rfl).same .can (by decide)
@[simp] theorem acsMark_leg (c : Acs) (s : State) : (acsMark c s).leg = s.leg :=
  (acsMark_only (ps := [.host]) (fun _ h => h) _ _ Only.rfl).same .leg (by decide)
@[simp] theorem acsMark_br (c : Acs) (s : State) : (acsMark c s).br = s.br :=
  (acsMark_only (ps := [.host]) (fun _ h => h) _ _ Only.rfl).same .br (by decide)
@[simp] theorem setMac_pending (p : Nat) (f : MacPort → MacPort) (s : State) : (setMac p f s).pending = s.pending :=
  (setMac_only (ps := [.macs]) (fun _ h => h) _ _ _ Only.rfl).same .pending (by decide)
@[simp] theorem setMac_out (p : Nat) (f : MacPort → MacPort) (s : State) : (setMac p f s).out = s.out :=
  (setMac_only (ps := [.macs]) (fun _ h => h) _ _ _ Only.rfl).same .out (by decide)
@[simp] theorem setMac_freeIdx (p : Nat) (f : MacPort → MacPort) (s : State) : (setMac p f s).freeIdx = s.freeIdx :=
  (setMac_only (ps := [.macs]) (fun _ h => h) _ _ _ Only.rfl).same .freeIdx (by decide)
@[simp] theorem setMac_node (p : Nat) (f : MacPort → MacPort) (s : State) : (setMac p f s).node = s.node :=
  (setMac_only (ps := [.macs]) (fun _ h => h) _ _ _ Only.rfl).same .node (by decide)
@[simp] theorem setMac_pwr (p : Nat) (f : MacPort → MacPort) (s : State) : (setMac p f s).pwr = s.pwr :=
  (setMac_only (ps := [.macs]) (fun _ h => h) _ _ _ Only.rfl).same .pwr (by decide)
@[simp] theorem setMac_boot (p : Nat) (f : MacPort → MacPort) (s : State) : (setMac p f s).boot = s.boot :=
  (setMac_only (ps := [.macs]) (fun _ h => h) _ _ _ Only.rfl).same .boot (by decide)
@[simp] theorem setMac_tack (p : Nat) (f : MacPort → MacPort) (s : State) : (setMac p f s).tack = s.tack :=
  (setMac_only (ps := [.macs]) (fun _ h => h) _ _ _ Only.rfl).same .tack (by decide)
@[simp] theorem setMac_sec (p : Nat) (f : MacPort → MacPort) (s : State) : (setMac p f s).sec = s.sec :=
  (setMac_only (ps := [.macs]) (fun _ h => h) _ _ _ Only.rfl).same .sec (by decide)
@[simp] theorem setMac_host (p : Nat) (f : MacPort → MacPort) (s : State) : (setMac p f s).host = s.host :=
  (setMac_only (ps := [.macs]) (fun _ h => h) _ _ _ Only.rfl).same .host (by decide)
@[simp] theorem setMac_mem (p : Nat) (f : MacPort → MacPort) (s : State) : (setMac p f s).mem = s.mem :=
  (setMac_only (ps := [.macs]) (fun _ h => h) _ _ _ Only.rfl).same .mem (by decide)
@[simp] theorem setMac_causes (p : Nat) (f : MacPort → MacPort) (s : State) : (setMac p f s).causes = s.causes :=
  (setMac_only (ps := [.macs]) (fun _ h => h) _ _ _ Only.rfl).same .causes (by decide)
@[simp] theorem setMac_stats (p : Nat) (f : MacPort → MacPort) (s : State) : (setMac p f s).stats = s.stats :=
  (setMac_only (ps := [.macs]) (fun _ h => h) _ _ _ Only.rfl).same .stats (by decide)
@[simp] theorem setMac_log (p : Nat) (f : MacPort → MacPort) (s : State) : (setMac p f s).log = s.log :=
  (setMac_only (ps := [.macs]) (fun _ h => h) _ _ _ Only.rfl).same .log (by decide)
@[simp] theorem setMac_hitch (p : Nat) (f : MacPort → MacPort) (s : State) : (setMac p f s).hitch = s.hitch :=
  (setMac_only (ps := [.macs]) (fun _ h => h) _ _ _ Only.rfl).same .hitch (by decide)
@[simp] theorem setMac_time (p : Nat) (f : MacPort → MacPort) (s : State) : (setMac p f s).time = s.time :=
  (setMac_only (ps := [.macs]) (fun _ h => h) _ _ _ Only.rfl).same .time (by decide)
@[simp] theorem setMac_sw (p : Nat) (f : MacPort → MacPort) (s : State) : (setMac p f s).sw = s.sw :=
  (setMac_only (ps := [.macs]) (fun _ h => h) _ _ _ Only.rfl).same .sw (by decide)
@[simp] theorem setMac_rx (p : Nat) (f : MacPort → MacPort) (s : State) : (setMac p f s).rx = s.rx :=
  (setMac_only (ps := [.macs]) (fun _ h => h) _ _ _ Only.rfl).same .rx (by decide)
@[simp] theorem setMac_tx (p : Nat) (f : MacPort → MacPort) (s : State) : (setMac p f s).tx = s.tx :=
  (setMac_only (ps := [.macs]) (fun _ h => h) _ _ _ Only.rfl).same .tx (by decide)
@[simp] theorem setMac_stream (p : Nat) (f : MacPort → MacPort) (s : State) : (setMac p f s).stream = s.stream :=
  (setMac_only (ps := [.macs]) (fun _ h => h) _ _ _ Only.rfl).same .stream (by decide)
@[simp] theorem setMac_ctl (p : Nat) (f : MacPort → MacPort) (s : State) : (setMac p f s).ctl = s.ctl :=
  (setMac_only (ps := [.macs]) (fun _ h => h) _ _ _ Only.rfl).same .ctl (by decide)
@[simp] theorem setMac_retain (p : Nat) (f : MacPort → MacPort) (s : State) : (setMac p f s).retain = s.retain :=
  (setMac_only (ps := [.macs]) (fun _ h => h) _ _ _ Only.rfl).same .retain (by decide)
@[simp] theorem setMac_red (p : Nat) (f : MacPort → MacPort) (s : State) : (setMac p f s).red = s.red :=
  (setMac_only (ps := [.macs]) (fun _ h => h) _ _ _ Only.rfl).same .red (by decide)
@[simp] theorem setMac_wr (p : Nat) (f : MacPort → MacPort) (s : State) : (setMac p f s).wr = s.wr :=
  (setMac_only (ps := [.macs]) (fun _ h => h) _ _ _ Only.rfl).same .wr (by decide)
@[simp] theorem setMac_can (p : Nat) (f : MacPort → MacPort) (s : State) : (setMac p f s).can = s.can :=
  (setMac_only (ps := [.macs]) (fun _ h => h) _ _ _ Only.rfl).same .can (by decide)
@[simp] theorem setMac_leg (p : Nat) (f : MacPort → MacPort) (s : State) : (setMac p f s).leg = s.leg :=
  (setMac_only (ps := [.macs]) (fun _ h => h) _ _ _ Only.rfl).same .leg (by decide)
@[simp] theorem setMac_br (p : Nat) (f : MacPort → MacPort) (s : State) : (setMac p f s).br = s.br :=
  (setMac_only (ps := [.macs]) (fun _ h => h) _ _ _ Only.rfl).same .br (by decide)
@[simp] theorem setRx_pending (n : Nat) (f : Ring → Ring) (s : State) : (setRx n f s).pending = s.pending :=
  (setRx_only (ps := [.rx]) (fun _ h => h) _ _ _ Only.rfl).same .pending (by decide)
@[simp] theorem setRx_out (n : Nat) (f : Ring → Ring) (s : State) : (setRx n f s).out = s.out :=
  (setRx_only (ps := [.rx]) (fun _ h => h) _ _ _ Only.rfl).same .out (by decide)
@[simp] theorem setRx_freeIdx (n : Nat) (f : Ring → Ring) (s : State) : (setRx n f s).freeIdx = s.freeIdx :=
  (setRx_only (ps := [.rx]) (fun _ h => h) _ _ _ Only.rfl).same .freeIdx (by decide)
@[simp] theorem setRx_node (n : Nat) (f : Ring → Ring) (s : State) : (setRx n f s).node = s.node :=
  (setRx_only (ps := [.rx]) (fun _ h => h) _ _ _ Only.rfl).same .node (by decide)
@[simp] theorem setRx_pwr (n : Nat) (f : Ring → Ring) (s : State) : (setRx n f s).pwr = s.pwr :=
  (setRx_only (ps := [.rx]) (fun _ h => h) _ _ _ Only.rfl).same .pwr (by decide)
@[simp] theorem setRx_boot (n : Nat) (f : Ring → Ring) (s : State) : (setRx n f s).boot = s.boot :=
  (setRx_only (ps := [.rx]) (fun _ h => h) _ _ _ Only.rfl).same .boot (by decide)
@[simp] theorem setRx_tack (n : Nat) (f : Ring → Ring) (s : State) : (setRx n f s).tack = s.tack :=
  (setRx_only (ps := [.rx]) (fun _ h => h) _ _ _ Only.rfl).same .tack (by decide)
@[simp] theorem setRx_sec (n : Nat) (f : Ring → Ring) (s : State) : (setRx n f s).sec = s.sec :=
  (setRx_only (ps := [.rx]) (fun _ h => h) _ _ _ Only.rfl).same .sec (by decide)
@[simp] theorem setRx_host (n : Nat) (f : Ring → Ring) (s : State) : (setRx n f s).host = s.host :=
  (setRx_only (ps := [.rx]) (fun _ h => h) _ _ _ Only.rfl).same .host (by decide)
@[simp] theorem setRx_mem (n : Nat) (f : Ring → Ring) (s : State) : (setRx n f s).mem = s.mem :=
  (setRx_only (ps := [.rx]) (fun _ h => h) _ _ _ Only.rfl).same .mem (by decide)
@[simp] theorem setRx_causes (n : Nat) (f : Ring → Ring) (s : State) : (setRx n f s).causes = s.causes :=
  (setRx_only (ps := [.rx]) (fun _ h => h) _ _ _ Only.rfl).same .causes (by decide)
@[simp] theorem setRx_stats (n : Nat) (f : Ring → Ring) (s : State) : (setRx n f s).stats = s.stats :=
  (setRx_only (ps := [.rx]) (fun _ h => h) _ _ _ Only.rfl).same .stats (by decide)
@[simp] theorem setRx_log (n : Nat) (f : Ring → Ring) (s : State) : (setRx n f s).log = s.log :=
  (setRx_only (ps := [.rx]) (fun _ h => h) _ _ _ Only.rfl).same .log (by decide)
@[simp] theorem setRx_hitch (n : Nat) (f : Ring → Ring) (s : State) : (setRx n f s).hitch = s.hitch :=
  (setRx_only (ps := [.rx]) (fun _ h => h) _ _ _ Only.rfl).same .hitch (by decide)
@[simp] theorem setRx_time (n : Nat) (f : Ring → Ring) (s : State) : (setRx n f s).time = s.time :=
  (setRx_only (ps := [.rx]) (fun _ h => h) _ _ _ Only.rfl).same .time (by decide)
@[simp] theorem setRx_sw (n : Nat) (f : Ring → Ring) (s : State) : (setRx n f s).sw = s.sw :=
  (setRx_only (ps := [.rx]) (fun _ h => h) _ _ _ Only.rfl).same .sw (by decide)
@[simp] theorem setRx_macs (n : Nat) (f : Ring → Ring) (s : State) : (setRx n f s).macs = s.macs :=
  (setRx_only (ps := [.rx]) (fun _ h => h) _ _ _ Only.rfl).same .macs (by decide)
@[simp] theorem setRx_tx (n : Nat) (f : Ring → Ring) (s : State) : (setRx n f s).tx = s.tx :=
  (setRx_only (ps := [.rx]) (fun _ h => h) _ _ _ Only.rfl).same .tx (by decide)
@[simp] theorem setRx_stream (n : Nat) (f : Ring → Ring) (s : State) : (setRx n f s).stream = s.stream :=
  (setRx_only (ps := [.rx]) (fun _ h => h) _ _ _ Only.rfl).same .stream (by decide)
@[simp] theorem setRx_ctl (n : Nat) (f : Ring → Ring) (s : State) : (setRx n f s).ctl = s.ctl :=
  (setRx_only (ps := [.rx]) (fun _ h => h) _ _ _ Only.rfl).same .ctl (by decide)
@[simp] theorem setRx_retain (n : Nat) (f : Ring → Ring) (s : State) : (setRx n f s).retain = s.retain :=
  (setRx_only (ps := [.rx]) (fun _ h => h) _ _ _ Only.rfl).same .retain (by decide)
@[simp] theorem setRx_red (n : Nat) (f : Ring → Ring) (s : State) : (setRx n f s).red = s.red :=
  (setRx_only (ps := [.rx]) (fun _ h => h) _ _ _ Only.rfl).same .red (by decide)
@[simp] theorem setRx_wr (n : Nat) (f : Ring → Ring) (s : State) : (setRx n f s).wr = s.wr :=
  (setRx_only (ps := [.rx]) (fun _ h => h) _ _ _ Only.rfl).same .wr (by decide)
@[simp] theorem setRx_can (n : Nat) (f : Ring → Ring) (s : State) : (setRx n f s).can = s.can :=
  (setRx_only (ps := [.rx]) (fun _ h => h) _ _ _ Only.rfl).same .can (by decide)
@[simp] theorem setRx_leg (n : Nat) (f : Ring → Ring) (s : State) : (setRx n f s).leg = s.leg :=
  (setRx_only (ps := [.rx]) (fun _ h => h) _ _ _ Only.rfl).same .leg (by decide)
@[simp] theorem setRx_br (n : Nat) (f : Ring → Ring) (s : State) : (setRx n f s).br = s.br :=
  (setRx_only (ps := [.rx]) (fun _ h => h) _ _ _ Only.rfl).same .br (by decide)
@[simp] theorem setTx_pending (n : Nat) (f : Ring → Ring) (s : State) : (setTx n f s).pending = s.pending :=
  (setTx_only (ps := [.tx]) (fun _ h => h) _ _ _ Only.rfl).same .pending (by decide)
@[simp] theorem setTx_out (n : Nat) (f : Ring → Ring) (s : State) : (setTx n f s).out = s.out :=
  (setTx_only (ps := [.tx]) (fun _ h => h) _ _ _ Only.rfl).same .out (by decide)
@[simp] theorem setTx_freeIdx (n : Nat) (f : Ring → Ring) (s : State) : (setTx n f s).freeIdx = s.freeIdx :=
  (setTx_only (ps := [.tx]) (fun _ h => h) _ _ _ Only.rfl).same .freeIdx (by decide)
@[simp] theorem setTx_node (n : Nat) (f : Ring → Ring) (s : State) : (setTx n f s).node = s.node :=
  (setTx_only (ps := [.tx]) (fun _ h => h) _ _ _ Only.rfl).same .node (by decide)
@[simp] theorem setTx_pwr (n : Nat) (f : Ring → Ring) (s : State) : (setTx n f s).pwr = s.pwr :=
  (setTx_only (ps := [.tx]) (fun _ h => h) _ _ _ Only.rfl).same .pwr (by decide)
@[simp] theorem setTx_boot (n : Nat) (f : Ring → Ring) (s : State) : (setTx n f s).boot = s.boot :=
  (setTx_only (ps := [.tx]) (fun _ h => h) _ _ _ Only.rfl).same .boot (by decide)
@[simp] theorem setTx_tack (n : Nat) (f : Ring → Ring) (s : State) : (setTx n f s).tack = s.tack :=
  (setTx_only (ps := [.tx]) (fun _ h => h) _ _ _ Only.rfl).same .tack (by decide)
@[simp] theorem setTx_sec (n : Nat) (f : Ring → Ring) (s : State) : (setTx n f s).sec = s.sec :=
  (setTx_only (ps := [.tx]) (fun _ h => h) _ _ _ Only.rfl).same .sec (by decide)
@[simp] theorem setTx_host (n : Nat) (f : Ring → Ring) (s : State) : (setTx n f s).host = s.host :=
  (setTx_only (ps := [.tx]) (fun _ h => h) _ _ _ Only.rfl).same .host (by decide)
@[simp] theorem setTx_mem (n : Nat) (f : Ring → Ring) (s : State) : (setTx n f s).mem = s.mem :=
  (setTx_only (ps := [.tx]) (fun _ h => h) _ _ _ Only.rfl).same .mem (by decide)
@[simp] theorem setTx_causes (n : Nat) (f : Ring → Ring) (s : State) : (setTx n f s).causes = s.causes :=
  (setTx_only (ps := [.tx]) (fun _ h => h) _ _ _ Only.rfl).same .causes (by decide)
@[simp] theorem setTx_stats (n : Nat) (f : Ring → Ring) (s : State) : (setTx n f s).stats = s.stats :=
  (setTx_only (ps := [.tx]) (fun _ h => h) _ _ _ Only.rfl).same .stats (by decide)
@[simp] theorem setTx_log (n : Nat) (f : Ring → Ring) (s : State) : (setTx n f s).log = s.log :=
  (setTx_only (ps := [.tx]) (fun _ h => h) _ _ _ Only.rfl).same .log (by decide)
@[simp] theorem setTx_hitch (n : Nat) (f : Ring → Ring) (s : State) : (setTx n f s).hitch = s.hitch :=
  (setTx_only (ps := [.tx]) (fun _ h => h) _ _ _ Only.rfl).same .hitch (by decide)
@[simp] theorem setTx_time (n : Nat) (f : Ring → Ring) (s : State) : (setTx n f s).time = s.time :=
  (setTx_only (ps := [.tx]) (fun _ h => h) _ _ _ Only.rfl).same .time (by decide)
@[simp] theorem setTx_sw (n : Nat) (f : Ring → Ring) (s : State) : (setTx n f s).sw = s.sw :=
  (setTx_only (ps := [.tx]) (fun _ h => h) _ _ _ Only.rfl).same .sw (by decide)
@[simp] theorem setTx_macs (n : Nat) (f : Ring → Ring) (s : State) : (setTx n f s).macs = s.macs :=
  (setTx_only (ps := [.tx]) (fun _ h => h) _ _ _ Only.rfl).same .macs (by decide)
@[simp] theorem setTx_rx (n : Nat) (f : Ring → Ring) (s : State) : (setTx n f s).rx = s.rx :=
  (setTx_only (ps := [.tx]) (fun _ h => h) _ _ _ Only.rfl).same .rx (by decide)
@[simp] theorem setTx_stream (n : Nat) (f : Ring → Ring) (s : State) : (setTx n f s).stream = s.stream :=
  (setTx_only (ps := [.tx]) (fun _ h => h) _ _ _ Only.rfl).same .stream (by decide)
@[simp] theorem setTx_ctl (n : Nat) (f : Ring → Ring) (s : State) : (setTx n f s).ctl = s.ctl :=
  (setTx_only (ps := [.tx]) (fun _ h => h) _ _ _ Only.rfl).same .ctl (by decide)
@[simp] theorem setTx_retain (n : Nat) (f : Ring → Ring) (s : State) : (setTx n f s).retain = s.retain :=
  (setTx_only (ps := [.tx]) (fun _ h => h) _ _ _ Only.rfl).same .retain (by decide)
@[simp] theorem setTx_red (n : Nat) (f : Ring → Ring) (s : State) : (setTx n f s).red = s.red :=
  (setTx_only (ps := [.tx]) (fun _ h => h) _ _ _ Only.rfl).same .red (by decide)
@[simp] theorem setTx_wr (n : Nat) (f : Ring → Ring) (s : State) : (setTx n f s).wr = s.wr :=
  (setTx_only (ps := [.tx]) (fun _ h => h) _ _ _ Only.rfl).same .wr (by decide)
@[simp] theorem setTx_can (n : Nat) (f : Ring → Ring) (s : State) : (setTx n f s).can = s.can :=
  (setTx_only (ps := [.tx]) (fun _ h => h) _ _ _ Only.rfl).same .can (by decide)
@[simp] theorem setTx_leg (n : Nat) (f : Ring → Ring) (s : State) : (setTx n f s).leg = s.leg :=
  (setTx_only (ps := [.tx]) (fun _ h => h) _ _ _ Only.rfl).same .leg (by decide)
@[simp] theorem setTx_br (n : Nat) (f : Ring → Ring) (s : State) : (setTx n f s).br = s.br :=
  (setTx_only (ps := [.tx]) (fun _ h => h) _ _ _ Only.rfl).same .br (by decide)
@[simp] theorem setCan_pending (ch : Nat) (f : CanChan → CanChan) (s : State) : (setCan ch f s).pending = s.pending :=
  (setCan_only (ps := [.can]) (fun _ h => h) _ _ _ Only.rfl).same .pending (by decide)
@[simp] theorem setCan_out (ch : Nat) (f : CanChan → CanChan) (s : State) : (setCan ch f s).out = s.out :=
  (setCan_only (ps := [.can]) (fun _ h => h) _ _ _ Only.rfl).same .out (by decide)
@[simp] theorem setCan_freeIdx (ch : Nat) (f : CanChan → CanChan) (s : State) : (setCan ch f s).freeIdx = s.freeIdx :=
  (setCan_only (ps := [.can]) (fun _ h => h) _ _ _ Only.rfl).same .freeIdx (by decide)
@[simp] theorem setCan_node (ch : Nat) (f : CanChan → CanChan) (s : State) : (setCan ch f s).node = s.node :=
  (setCan_only (ps := [.can]) (fun _ h => h) _ _ _ Only.rfl).same .node (by decide)
@[simp] theorem setCan_pwr (ch : Nat) (f : CanChan → CanChan) (s : State) : (setCan ch f s).pwr = s.pwr :=
  (setCan_only (ps := [.can]) (fun _ h => h) _ _ _ Only.rfl).same .pwr (by decide)
@[simp] theorem setCan_boot (ch : Nat) (f : CanChan → CanChan) (s : State) : (setCan ch f s).boot = s.boot :=
  (setCan_only (ps := [.can]) (fun _ h => h) _ _ _ Only.rfl).same .boot (by decide)
@[simp] theorem setCan_tack (ch : Nat) (f : CanChan → CanChan) (s : State) : (setCan ch f s).tack = s.tack :=
  (setCan_only (ps := [.can]) (fun _ h => h) _ _ _ Only.rfl).same .tack (by decide)
@[simp] theorem setCan_sec (ch : Nat) (f : CanChan → CanChan) (s : State) : (setCan ch f s).sec = s.sec :=
  (setCan_only (ps := [.can]) (fun _ h => h) _ _ _ Only.rfl).same .sec (by decide)
@[simp] theorem setCan_host (ch : Nat) (f : CanChan → CanChan) (s : State) : (setCan ch f s).host = s.host :=
  (setCan_only (ps := [.can]) (fun _ h => h) _ _ _ Only.rfl).same .host (by decide)
@[simp] theorem setCan_mem (ch : Nat) (f : CanChan → CanChan) (s : State) : (setCan ch f s).mem = s.mem :=
  (setCan_only (ps := [.can]) (fun _ h => h) _ _ _ Only.rfl).same .mem (by decide)
@[simp] theorem setCan_causes (ch : Nat) (f : CanChan → CanChan) (s : State) : (setCan ch f s).causes = s.causes :=
  (setCan_only (ps := [.can]) (fun _ h => h) _ _ _ Only.rfl).same .causes (by decide)
@[simp] theorem setCan_stats (ch : Nat) (f : CanChan → CanChan) (s : State) : (setCan ch f s).stats = s.stats :=
  (setCan_only (ps := [.can]) (fun _ h => h) _ _ _ Only.rfl).same .stats (by decide)
@[simp] theorem setCan_log (ch : Nat) (f : CanChan → CanChan) (s : State) : (setCan ch f s).log = s.log :=
  (setCan_only (ps := [.can]) (fun _ h => h) _ _ _ Only.rfl).same .log (by decide)
@[simp] theorem setCan_hitch (ch : Nat) (f : CanChan → CanChan) (s : State) : (setCan ch f s).hitch = s.hitch :=
  (setCan_only (ps := [.can]) (fun _ h => h) _ _ _ Only.rfl).same .hitch (by decide)
@[simp] theorem setCan_time (ch : Nat) (f : CanChan → CanChan) (s : State) : (setCan ch f s).time = s.time :=
  (setCan_only (ps := [.can]) (fun _ h => h) _ _ _ Only.rfl).same .time (by decide)
@[simp] theorem setCan_sw (ch : Nat) (f : CanChan → CanChan) (s : State) : (setCan ch f s).sw = s.sw :=
  (setCan_only (ps := [.can]) (fun _ h => h) _ _ _ Only.rfl).same .sw (by decide)
@[simp] theorem setCan_macs (ch : Nat) (f : CanChan → CanChan) (s : State) : (setCan ch f s).macs = s.macs :=
  (setCan_only (ps := [.can]) (fun _ h => h) _ _ _ Only.rfl).same .macs (by decide)
@[simp] theorem setCan_rx (ch : Nat) (f : CanChan → CanChan) (s : State) : (setCan ch f s).rx = s.rx :=
  (setCan_only (ps := [.can]) (fun _ h => h) _ _ _ Only.rfl).same .rx (by decide)
@[simp] theorem setCan_tx (ch : Nat) (f : CanChan → CanChan) (s : State) : (setCan ch f s).tx = s.tx :=
  (setCan_only (ps := [.can]) (fun _ h => h) _ _ _ Only.rfl).same .tx (by decide)
@[simp] theorem setCan_stream (ch : Nat) (f : CanChan → CanChan) (s : State) : (setCan ch f s).stream = s.stream :=
  (setCan_only (ps := [.can]) (fun _ h => h) _ _ _ Only.rfl).same .stream (by decide)
@[simp] theorem setCan_ctl (ch : Nat) (f : CanChan → CanChan) (s : State) : (setCan ch f s).ctl = s.ctl :=
  (setCan_only (ps := [.can]) (fun _ h => h) _ _ _ Only.rfl).same .ctl (by decide)
@[simp] theorem setCan_retain (ch : Nat) (f : CanChan → CanChan) (s : State) : (setCan ch f s).retain = s.retain :=
  (setCan_only (ps := [.can]) (fun _ h => h) _ _ _ Only.rfl).same .retain (by decide)
@[simp] theorem setCan_red (ch : Nat) (f : CanChan → CanChan) (s : State) : (setCan ch f s).red = s.red :=
  (setCan_only (ps := [.can]) (fun _ h => h) _ _ _ Only.rfl).same .red (by decide)
@[simp] theorem setCan_wr (ch : Nat) (f : CanChan → CanChan) (s : State) : (setCan ch f s).wr = s.wr :=
  (setCan_only (ps := [.can]) (fun _ h => h) _ _ _ Only.rfl).same .wr (by decide)
@[simp] theorem setCan_leg (ch : Nat) (f : CanChan → CanChan) (s : State) : (setCan ch f s).leg = s.leg :=
  (setCan_only (ps := [.can]) (fun _ h => h) _ _ _ Only.rfl).same .leg (by decide)
@[simp] theorem setCan_br (ch : Nat) (f : CanChan → CanChan) (s : State) : (setCan ch f s).br = s.br :=
  (setCan_only (ps := [.can]) (fun _ h => h) _ _ _ Only.rfl).same .br (by decide)
@[simp] theorem setLeg_pending (u : Nat) (f : LegUnit → LegUnit) (s : State) : (setLeg u f s).pending = s.pending :=
  (setLeg_only (ps := [.leg]) (fun _ h => h) _ _ _ Only.rfl).same .pending (by decide)
@[simp] theorem setLeg_out (u : Nat) (f : LegUnit → LegUnit) (s : State) : (setLeg u f s).out = s.out :=
  (setLeg_only (ps := [.leg]) (fun _ h => h) _ _ _ Only.rfl).same .out (by decide)
@[simp] theorem setLeg_freeIdx (u : Nat) (f : LegUnit → LegUnit) (s : State) : (setLeg u f s).freeIdx = s.freeIdx :=
  (setLeg_only (ps := [.leg]) (fun _ h => h) _ _ _ Only.rfl).same .freeIdx (by decide)
@[simp] theorem setLeg_node (u : Nat) (f : LegUnit → LegUnit) (s : State) : (setLeg u f s).node = s.node :=
  (setLeg_only (ps := [.leg]) (fun _ h => h) _ _ _ Only.rfl).same .node (by decide)
@[simp] theorem setLeg_pwr (u : Nat) (f : LegUnit → LegUnit) (s : State) : (setLeg u f s).pwr = s.pwr :=
  (setLeg_only (ps := [.leg]) (fun _ h => h) _ _ _ Only.rfl).same .pwr (by decide)
@[simp] theorem setLeg_boot (u : Nat) (f : LegUnit → LegUnit) (s : State) : (setLeg u f s).boot = s.boot :=
  (setLeg_only (ps := [.leg]) (fun _ h => h) _ _ _ Only.rfl).same .boot (by decide)
@[simp] theorem setLeg_tack (u : Nat) (f : LegUnit → LegUnit) (s : State) : (setLeg u f s).tack = s.tack :=
  (setLeg_only (ps := [.leg]) (fun _ h => h) _ _ _ Only.rfl).same .tack (by decide)
@[simp] theorem setLeg_sec (u : Nat) (f : LegUnit → LegUnit) (s : State) : (setLeg u f s).sec = s.sec :=
  (setLeg_only (ps := [.leg]) (fun _ h => h) _ _ _ Only.rfl).same .sec (by decide)
@[simp] theorem setLeg_host (u : Nat) (f : LegUnit → LegUnit) (s : State) : (setLeg u f s).host = s.host :=
  (setLeg_only (ps := [.leg]) (fun _ h => h) _ _ _ Only.rfl).same .host (by decide)
@[simp] theorem setLeg_mem (u : Nat) (f : LegUnit → LegUnit) (s : State) : (setLeg u f s).mem = s.mem :=
  (setLeg_only (ps := [.leg]) (fun _ h => h) _ _ _ Only.rfl).same .mem (by decide)
@[simp] theorem setLeg_causes (u : Nat) (f : LegUnit → LegUnit) (s : State) : (setLeg u f s).causes = s.causes :=
  (setLeg_only (ps := [.leg]) (fun _ h => h) _ _ _ Only.rfl).same .causes (by decide)
@[simp] theorem setLeg_stats (u : Nat) (f : LegUnit → LegUnit) (s : State) : (setLeg u f s).stats = s.stats :=
  (setLeg_only (ps := [.leg]) (fun _ h => h) _ _ _ Only.rfl).same .stats (by decide)
@[simp] theorem setLeg_log (u : Nat) (f : LegUnit → LegUnit) (s : State) : (setLeg u f s).log = s.log :=
  (setLeg_only (ps := [.leg]) (fun _ h => h) _ _ _ Only.rfl).same .log (by decide)
@[simp] theorem setLeg_hitch (u : Nat) (f : LegUnit → LegUnit) (s : State) : (setLeg u f s).hitch = s.hitch :=
  (setLeg_only (ps := [.leg]) (fun _ h => h) _ _ _ Only.rfl).same .hitch (by decide)
@[simp] theorem setLeg_time (u : Nat) (f : LegUnit → LegUnit) (s : State) : (setLeg u f s).time = s.time :=
  (setLeg_only (ps := [.leg]) (fun _ h => h) _ _ _ Only.rfl).same .time (by decide)
@[simp] theorem setLeg_sw (u : Nat) (f : LegUnit → LegUnit) (s : State) : (setLeg u f s).sw = s.sw :=
  (setLeg_only (ps := [.leg]) (fun _ h => h) _ _ _ Only.rfl).same .sw (by decide)
@[simp] theorem setLeg_macs (u : Nat) (f : LegUnit → LegUnit) (s : State) : (setLeg u f s).macs = s.macs :=
  (setLeg_only (ps := [.leg]) (fun _ h => h) _ _ _ Only.rfl).same .macs (by decide)
@[simp] theorem setLeg_rx (u : Nat) (f : LegUnit → LegUnit) (s : State) : (setLeg u f s).rx = s.rx :=
  (setLeg_only (ps := [.leg]) (fun _ h => h) _ _ _ Only.rfl).same .rx (by decide)
@[simp] theorem setLeg_tx (u : Nat) (f : LegUnit → LegUnit) (s : State) : (setLeg u f s).tx = s.tx :=
  (setLeg_only (ps := [.leg]) (fun _ h => h) _ _ _ Only.rfl).same .tx (by decide)
@[simp] theorem setLeg_stream (u : Nat) (f : LegUnit → LegUnit) (s : State) : (setLeg u f s).stream = s.stream :=
  (setLeg_only (ps := [.leg]) (fun _ h => h) _ _ _ Only.rfl).same .stream (by decide)
@[simp] theorem setLeg_ctl (u : Nat) (f : LegUnit → LegUnit) (s : State) : (setLeg u f s).ctl = s.ctl :=
  (setLeg_only (ps := [.leg]) (fun _ h => h) _ _ _ Only.rfl).same .ctl (by decide)
@[simp] theorem setLeg_retain (u : Nat) (f : LegUnit → LegUnit) (s : State) : (setLeg u f s).retain = s.retain :=
  (setLeg_only (ps := [.leg]) (fun _ h => h) _ _ _ Only.rfl).same .retain (by decide)
@[simp] theorem setLeg_red (u : Nat) (f : LegUnit → LegUnit) (s : State) : (setLeg u f s).red = s.red :=
  (setLeg_only (ps := [.leg]) (fun _ h => h) _ _ _ Only.rfl).same .red (by decide)
@[simp] theorem setLeg_wr (u : Nat) (f : LegUnit → LegUnit) (s : State) : (setLeg u f s).wr = s.wr :=
  (setLeg_only (ps := [.leg]) (fun _ h => h) _ _ _ Only.rfl).same .wr (by decide)
@[simp] theorem setLeg_can (u : Nat) (f : LegUnit → LegUnit) (s : State) : (setLeg u f s).can = s.can :=
  (setLeg_only (ps := [.leg]) (fun _ h => h) _ _ _ Only.rfl).same .can (by decide)
@[simp] theorem setLeg_br (u : Nat) (f : LegUnit → LegUnit) (s : State) : (setLeg u f s).br = s.br :=
  (setLeg_only (ps := [.leg]) (fun _ h => h) _ _ _ Only.rfl).same .br (by decide)
@[simp] theorem setHPort_pending (p : Nat) (f : HPort → HPort) (s : State) : (setHPort p f s).pending = s.pending :=
  (setHPort_only (ps := [.hitch]) (fun _ h => h) _ _ _ Only.rfl).same .pending (by decide)
@[simp] theorem setHPort_out (p : Nat) (f : HPort → HPort) (s : State) : (setHPort p f s).out = s.out :=
  (setHPort_only (ps := [.hitch]) (fun _ h => h) _ _ _ Only.rfl).same .out (by decide)
@[simp] theorem setHPort_freeIdx (p : Nat) (f : HPort → HPort) (s : State) : (setHPort p f s).freeIdx = s.freeIdx :=
  (setHPort_only (ps := [.hitch]) (fun _ h => h) _ _ _ Only.rfl).same .freeIdx (by decide)
@[simp] theorem setHPort_node (p : Nat) (f : HPort → HPort) (s : State) : (setHPort p f s).node = s.node :=
  (setHPort_only (ps := [.hitch]) (fun _ h => h) _ _ _ Only.rfl).same .node (by decide)
@[simp] theorem setHPort_pwr (p : Nat) (f : HPort → HPort) (s : State) : (setHPort p f s).pwr = s.pwr :=
  (setHPort_only (ps := [.hitch]) (fun _ h => h) _ _ _ Only.rfl).same .pwr (by decide)
@[simp] theorem setHPort_boot (p : Nat) (f : HPort → HPort) (s : State) : (setHPort p f s).boot = s.boot :=
  (setHPort_only (ps := [.hitch]) (fun _ h => h) _ _ _ Only.rfl).same .boot (by decide)
@[simp] theorem setHPort_tack (p : Nat) (f : HPort → HPort) (s : State) : (setHPort p f s).tack = s.tack :=
  (setHPort_only (ps := [.hitch]) (fun _ h => h) _ _ _ Only.rfl).same .tack (by decide)
@[simp] theorem setHPort_sec (p : Nat) (f : HPort → HPort) (s : State) : (setHPort p f s).sec = s.sec :=
  (setHPort_only (ps := [.hitch]) (fun _ h => h) _ _ _ Only.rfl).same .sec (by decide)
@[simp] theorem setHPort_host (p : Nat) (f : HPort → HPort) (s : State) : (setHPort p f s).host = s.host :=
  (setHPort_only (ps := [.hitch]) (fun _ h => h) _ _ _ Only.rfl).same .host (by decide)
@[simp] theorem setHPort_mem (p : Nat) (f : HPort → HPort) (s : State) : (setHPort p f s).mem = s.mem :=
  (setHPort_only (ps := [.hitch]) (fun _ h => h) _ _ _ Only.rfl).same .mem (by decide)
@[simp] theorem setHPort_causes (p : Nat) (f : HPort → HPort) (s : State) : (setHPort p f s).causes = s.causes :=
  (setHPort_only (ps := [.hitch]) (fun _ h => h) _ _ _ Only.rfl).same .causes (by decide)
@[simp] theorem setHPort_stats (p : Nat) (f : HPort → HPort) (s : State) : (setHPort p f s).stats = s.stats :=
  (setHPort_only (ps := [.hitch]) (fun _ h => h) _ _ _ Only.rfl).same .stats (by decide)
@[simp] theorem setHPort_log (p : Nat) (f : HPort → HPort) (s : State) : (setHPort p f s).log = s.log :=
  (setHPort_only (ps := [.hitch]) (fun _ h => h) _ _ _ Only.rfl).same .log (by decide)
@[simp] theorem setHPort_time (p : Nat) (f : HPort → HPort) (s : State) : (setHPort p f s).time = s.time :=
  (setHPort_only (ps := [.hitch]) (fun _ h => h) _ _ _ Only.rfl).same .time (by decide)
@[simp] theorem setHPort_sw (p : Nat) (f : HPort → HPort) (s : State) : (setHPort p f s).sw = s.sw :=
  (setHPort_only (ps := [.hitch]) (fun _ h => h) _ _ _ Only.rfl).same .sw (by decide)
@[simp] theorem setHPort_macs (p : Nat) (f : HPort → HPort) (s : State) : (setHPort p f s).macs = s.macs :=
  (setHPort_only (ps := [.hitch]) (fun _ h => h) _ _ _ Only.rfl).same .macs (by decide)
@[simp] theorem setHPort_rx (p : Nat) (f : HPort → HPort) (s : State) : (setHPort p f s).rx = s.rx :=
  (setHPort_only (ps := [.hitch]) (fun _ h => h) _ _ _ Only.rfl).same .rx (by decide)
@[simp] theorem setHPort_tx (p : Nat) (f : HPort → HPort) (s : State) : (setHPort p f s).tx = s.tx :=
  (setHPort_only (ps := [.hitch]) (fun _ h => h) _ _ _ Only.rfl).same .tx (by decide)
@[simp] theorem setHPort_stream (p : Nat) (f : HPort → HPort) (s : State) : (setHPort p f s).stream = s.stream :=
  (setHPort_only (ps := [.hitch]) (fun _ h => h) _ _ _ Only.rfl).same .stream (by decide)
@[simp] theorem setHPort_ctl (p : Nat) (f : HPort → HPort) (s : State) : (setHPort p f s).ctl = s.ctl :=
  (setHPort_only (ps := [.hitch]) (fun _ h => h) _ _ _ Only.rfl).same .ctl (by decide)
@[simp] theorem setHPort_retain (p : Nat) (f : HPort → HPort) (s : State) : (setHPort p f s).retain = s.retain :=
  (setHPort_only (ps := [.hitch]) (fun _ h => h) _ _ _ Only.rfl).same .retain (by decide)
@[simp] theorem setHPort_red (p : Nat) (f : HPort → HPort) (s : State) : (setHPort p f s).red = s.red :=
  (setHPort_only (ps := [.hitch]) (fun _ h => h) _ _ _ Only.rfl).same .red (by decide)
@[simp] theorem setHPort_wr (p : Nat) (f : HPort → HPort) (s : State) : (setHPort p f s).wr = s.wr :=
  (setHPort_only (ps := [.hitch]) (fun _ h => h) _ _ _ Only.rfl).same .wr (by decide)
@[simp] theorem setHPort_can (p : Nat) (f : HPort → HPort) (s : State) : (setHPort p f s).can = s.can :=
  (setHPort_only (ps := [.hitch]) (fun _ h => h) _ _ _ Only.rfl).same .can (by decide)
@[simp] theorem setHPort_leg (p : Nat) (f : HPort → HPort) (s : State) : (setHPort p f s).leg = s.leg :=
  (setHPort_only (ps := [.hitch]) (fun _ h => h) _ _ _ Only.rfl).same .leg (by decide)
@[simp] theorem setHPort_br (p : Nat) (f : HPort → HPort) (s : State) : (setHPort p f s).br = s.br :=
  (setHPort_only (ps := [.hitch]) (fun _ h => h) _ _ _ Only.rfl).same .br (by decide)
@[simp] theorem setPair_pending (p : Nat) (f : CorePair → CorePair) (s : State) : (setPair p f s).pending = s.pending :=
  (setPair_only (ps := [.ctl]) (fun _ h => h) _ _ _ Only.rfl).same .pending (by decide)
@[simp] theorem setPair_out (p : Nat) (f : CorePair → CorePair) (s : State) : (setPair p f s).out = s.out :=
  (setPair_only (ps := [.ctl]) (fun _ h => h) _ _ _ Only.rfl).same .out (by decide)
@[simp] theorem setPair_freeIdx (p : Nat) (f : CorePair → CorePair) (s : State) : (setPair p f s).freeIdx = s.freeIdx :=
  (setPair_only (ps := [.ctl]) (fun _ h => h) _ _ _ Only.rfl).same .freeIdx (by decide)
@[simp] theorem setPair_node (p : Nat) (f : CorePair → CorePair) (s : State) : (setPair p f s).node = s.node :=
  (setPair_only (ps := [.ctl]) (fun _ h => h) _ _ _ Only.rfl).same .node (by decide)
@[simp] theorem setPair_pwr (p : Nat) (f : CorePair → CorePair) (s : State) : (setPair p f s).pwr = s.pwr :=
  (setPair_only (ps := [.ctl]) (fun _ h => h) _ _ _ Only.rfl).same .pwr (by decide)
@[simp] theorem setPair_boot (p : Nat) (f : CorePair → CorePair) (s : State) : (setPair p f s).boot = s.boot :=
  (setPair_only (ps := [.ctl]) (fun _ h => h) _ _ _ Only.rfl).same .boot (by decide)
@[simp] theorem setPair_tack (p : Nat) (f : CorePair → CorePair) (s : State) : (setPair p f s).tack = s.tack :=
  (setPair_only (ps := [.ctl]) (fun _ h => h) _ _ _ Only.rfl).same .tack (by decide)
@[simp] theorem setPair_sec (p : Nat) (f : CorePair → CorePair) (s : State) : (setPair p f s).sec = s.sec :=
  (setPair_only (ps := [.ctl]) (fun _ h => h) _ _ _ Only.rfl).same .sec (by decide)
@[simp] theorem setPair_host (p : Nat) (f : CorePair → CorePair) (s : State) : (setPair p f s).host = s.host :=
  (setPair_only (ps := [.ctl]) (fun _ h => h) _ _ _ Only.rfl).same .host (by decide)
@[simp] theorem setPair_mem (p : Nat) (f : CorePair → CorePair) (s : State) : (setPair p f s).mem = s.mem :=
  (setPair_only (ps := [.ctl]) (fun _ h => h) _ _ _ Only.rfl).same .mem (by decide)
@[simp] theorem setPair_causes (p : Nat) (f : CorePair → CorePair) (s : State) : (setPair p f s).causes = s.causes :=
  (setPair_only (ps := [.ctl]) (fun _ h => h) _ _ _ Only.rfl).same .causes (by decide)
@[simp] theorem setPair_stats (p : Nat) (f : CorePair → CorePair) (s : State) : (setPair p f s).stats = s.stats :=
  (setPair_only (ps := [.ctl]) (fun _ h => h) _ _ _ Only.rfl).same .stats (by decide)
@[simp] theorem setPair_log (p : Nat) (f : CorePair → CorePair) (s : State) : (setPair p f s).log = s.log :=
  (setPair_only (ps := [.ctl]) (fun _ h => h) _ _ _ Only.rfl).same .log (by decide)
@[simp] theorem setPair_hitch (p : Nat) (f : CorePair → CorePair) (s : State) : (setPair p f s).hitch = s.hitch :=
  (setPair_only (ps := [.ctl]) (fun _ h => h) _ _ _ Only.rfl).same .hitch (by decide)
@[simp] theorem setPair_time (p : Nat) (f : CorePair → CorePair) (s : State) : (setPair p f s).time = s.time :=
  (setPair_only (ps := [.ctl]) (fun _ h => h) _ _ _ Only.rfl).same .time (by decide)
@[simp] theorem setPair_sw (p : Nat) (f : CorePair → CorePair) (s : State) : (setPair p f s).sw = s.sw :=
  (setPair_only (ps := [.ctl]) (fun _ h => h) _ _ _ Only.rfl).same .sw (by decide)
@[simp] theorem setPair_macs (p : Nat) (f : CorePair → CorePair) (s : State) : (setPair p f s).macs = s.macs :=
  (setPair_only (ps := [.ctl]) (fun _ h => h) _ _ _ Only.rfl).same .macs (by decide)
@[simp] theorem setPair_rx (p : Nat) (f : CorePair → CorePair) (s : State) : (setPair p f s).rx = s.rx :=
  (setPair_only (ps := [.ctl]) (fun _ h => h) _ _ _ Only.rfl).same .rx (by decide)
@[simp] theorem setPair_tx (p : Nat) (f : CorePair → CorePair) (s : State) : (setPair p f s).tx = s.tx :=
  (setPair_only (ps := [.ctl]) (fun _ h => h) _ _ _ Only.rfl).same .tx (by decide)
@[simp] theorem setPair_stream (p : Nat) (f : CorePair → CorePair) (s : State) : (setPair p f s).stream = s.stream :=
  (setPair_only (ps := [.ctl]) (fun _ h => h) _ _ _ Only.rfl).same .stream (by decide)
@[simp] theorem setPair_retain (p : Nat) (f : CorePair → CorePair) (s : State) : (setPair p f s).retain = s.retain :=
  (setPair_only (ps := [.ctl]) (fun _ h => h) _ _ _ Only.rfl).same .retain (by decide)
@[simp] theorem setPair_red (p : Nat) (f : CorePair → CorePair) (s : State) : (setPair p f s).red = s.red :=
  (setPair_only (ps := [.ctl]) (fun _ h => h) _ _ _ Only.rfl).same .red (by decide)
@[simp] theorem setPair_wr (p : Nat) (f : CorePair → CorePair) (s : State) : (setPair p f s).wr = s.wr :=
  (setPair_only (ps := [.ctl]) (fun _ h => h) _ _ _ Only.rfl).same .wr (by decide)
@[simp] theorem setPair_can (p : Nat) (f : CorePair → CorePair) (s : State) : (setPair p f s).can = s.can :=
  (setPair_only (ps := [.ctl]) (fun _ h => h) _ _ _ Only.rfl).same .can (by decide)
@[simp] theorem setPair_leg (p : Nat) (f : CorePair → CorePair) (s : State) : (setPair p f s).leg = s.leg :=
  (setPair_only (ps := [.ctl]) (fun _ h => h) _ _ _ Only.rfl).same .leg (by decide)
@[simp] theorem setPair_br (p : Nat) (f : CorePair → CorePair) (s : State) : (setPair p f s).br = s.br :=
  (setPair_only (ps := [.ctl]) (fun _ h => h) _ _ _ Only.rfl).same .br (by decide)
@[simp] theorem setTug_pending (l : Nat) (f : TugLink → TugLink) (s : State) : (setTug l f s).pending = s.pending :=
  (setTug_only (ps := [.red]) (fun _ h => h) _ _ _ Only.rfl).same .pending (by decide)
@[simp] theorem setTug_out (l : Nat) (f : TugLink → TugLink) (s : State) : (setTug l f s).out = s.out :=
  (setTug_only (ps := [.red]) (fun _ h => h) _ _ _ Only.rfl).same .out (by decide)
@[simp] theorem setTug_freeIdx (l : Nat) (f : TugLink → TugLink) (s : State) : (setTug l f s).freeIdx = s.freeIdx :=
  (setTug_only (ps := [.red]) (fun _ h => h) _ _ _ Only.rfl).same .freeIdx (by decide)
@[simp] theorem setTug_node (l : Nat) (f : TugLink → TugLink) (s : State) : (setTug l f s).node = s.node :=
  (setTug_only (ps := [.red]) (fun _ h => h) _ _ _ Only.rfl).same .node (by decide)
@[simp] theorem setTug_pwr (l : Nat) (f : TugLink → TugLink) (s : State) : (setTug l f s).pwr = s.pwr :=
  (setTug_only (ps := [.red]) (fun _ h => h) _ _ _ Only.rfl).same .pwr (by decide)
@[simp] theorem setTug_boot (l : Nat) (f : TugLink → TugLink) (s : State) : (setTug l f s).boot = s.boot :=
  (setTug_only (ps := [.red]) (fun _ h => h) _ _ _ Only.rfl).same .boot (by decide)
@[simp] theorem setTug_tack (l : Nat) (f : TugLink → TugLink) (s : State) : (setTug l f s).tack = s.tack :=
  (setTug_only (ps := [.red]) (fun _ h => h) _ _ _ Only.rfl).same .tack (by decide)
@[simp] theorem setTug_sec (l : Nat) (f : TugLink → TugLink) (s : State) : (setTug l f s).sec = s.sec :=
  (setTug_only (ps := [.red]) (fun _ h => h) _ _ _ Only.rfl).same .sec (by decide)
@[simp] theorem setTug_host (l : Nat) (f : TugLink → TugLink) (s : State) : (setTug l f s).host = s.host :=
  (setTug_only (ps := [.red]) (fun _ h => h) _ _ _ Only.rfl).same .host (by decide)
@[simp] theorem setTug_mem (l : Nat) (f : TugLink → TugLink) (s : State) : (setTug l f s).mem = s.mem :=
  (setTug_only (ps := [.red]) (fun _ h => h) _ _ _ Only.rfl).same .mem (by decide)
@[simp] theorem setTug_causes (l : Nat) (f : TugLink → TugLink) (s : State) : (setTug l f s).causes = s.causes :=
  (setTug_only (ps := [.red]) (fun _ h => h) _ _ _ Only.rfl).same .causes (by decide)
@[simp] theorem setTug_stats (l : Nat) (f : TugLink → TugLink) (s : State) : (setTug l f s).stats = s.stats :=
  (setTug_only (ps := [.red]) (fun _ h => h) _ _ _ Only.rfl).same .stats (by decide)
@[simp] theorem setTug_log (l : Nat) (f : TugLink → TugLink) (s : State) : (setTug l f s).log = s.log :=
  (setTug_only (ps := [.red]) (fun _ h => h) _ _ _ Only.rfl).same .log (by decide)
@[simp] theorem setTug_hitch (l : Nat) (f : TugLink → TugLink) (s : State) : (setTug l f s).hitch = s.hitch :=
  (setTug_only (ps := [.red]) (fun _ h => h) _ _ _ Only.rfl).same .hitch (by decide)
@[simp] theorem setTug_time (l : Nat) (f : TugLink → TugLink) (s : State) : (setTug l f s).time = s.time :=
  (setTug_only (ps := [.red]) (fun _ h => h) _ _ _ Only.rfl).same .time (by decide)
@[simp] theorem setTug_sw (l : Nat) (f : TugLink → TugLink) (s : State) : (setTug l f s).sw = s.sw :=
  (setTug_only (ps := [.red]) (fun _ h => h) _ _ _ Only.rfl).same .sw (by decide)
@[simp] theorem setTug_macs (l : Nat) (f : TugLink → TugLink) (s : State) : (setTug l f s).macs = s.macs :=
  (setTug_only (ps := [.red]) (fun _ h => h) _ _ _ Only.rfl).same .macs (by decide)
@[simp] theorem setTug_rx (l : Nat) (f : TugLink → TugLink) (s : State) : (setTug l f s).rx = s.rx :=
  (setTug_only (ps := [.red]) (fun _ h => h) _ _ _ Only.rfl).same .rx (by decide)
@[simp] theorem setTug_tx (l : Nat) (f : TugLink → TugLink) (s : State) : (setTug l f s).tx = s.tx :=
  (setTug_only (ps := [.red]) (fun _ h => h) _ _ _ Only.rfl).same .tx (by decide)
@[simp] theorem setTug_stream (l : Nat) (f : TugLink → TugLink) (s : State) : (setTug l f s).stream = s.stream :=
  (setTug_only (ps := [.red]) (fun _ h => h) _ _ _ Only.rfl).same .stream (by decide)
@[simp] theorem setTug_ctl (l : Nat) (f : TugLink → TugLink) (s : State) : (setTug l f s).ctl = s.ctl :=
  (setTug_only (ps := [.red]) (fun _ h => h) _ _ _ Only.rfl).same .ctl (by decide)
@[simp] theorem setTug_retain (l : Nat) (f : TugLink → TugLink) (s : State) : (setTug l f s).retain = s.retain :=
  (setTug_only (ps := [.red]) (fun _ h => h) _ _ _ Only.rfl).same .retain (by decide)
@[simp] theorem setTug_wr (l : Nat) (f : TugLink → TugLink) (s : State) : (setTug l f s).wr = s.wr :=
  (setTug_only (ps := [.red]) (fun _ h => h) _ _ _ Only.rfl).same .wr (by decide)
@[simp] theorem setTug_can (l : Nat) (f : TugLink → TugLink) (s : State) : (setTug l f s).can = s.can :=
  (setTug_only (ps := [.red]) (fun _ h => h) _ _ _ Only.rfl).same .can (by decide)
@[simp] theorem setTug_leg (l : Nat) (f : TugLink → TugLink) (s : State) : (setTug l f s).leg = s.leg :=
  (setTug_only (ps := [.red]) (fun _ h => h) _ _ _ Only.rfl).same .leg (by decide)
@[simp] theorem setTug_br (l : Nat) (f : TugLink → TugLink) (s : State) : (setTug l f s).br = s.br :=
  (setTug_only (ps := [.red]) (fun _ h => h) _ _ _ Only.rfl).same .br (by decide)
@[simp] theorem setGate_pending (p : Nat) (f : Gate → Gate) (s : State) : (setGate p f s).pending = s.pending :=
  (setGate_only (ps := [.sw]) (fun _ h => h) _ _ _ Only.rfl).same .pending (by decide)
@[simp] theorem setGate_out (p : Nat) (f : Gate → Gate) (s : State) : (setGate p f s).out = s.out :=
  (setGate_only (ps := [.sw]) (fun _ h => h) _ _ _ Only.rfl).same .out (by decide)
@[simp] theorem setGate_freeIdx (p : Nat) (f : Gate → Gate) (s : State) : (setGate p f s).freeIdx = s.freeIdx :=
  (setGate_only (ps := [.sw]) (fun _ h => h) _ _ _ Only.rfl).same .freeIdx (by decide)
@[simp] theorem setGate_node (p : Nat) (f : Gate → Gate) (s : State) : (setGate p f s).node = s.node :=
  (setGate_only (ps := [.sw]) (fun _ h => h) _ _ _ Only.rfl).same .node (by decide)
@[simp] theorem setGate_pwr (p : Nat) (f : Gate → Gate) (s : State) : (setGate p f s).pwr = s.pwr :=
  (setGate_only (ps := [.sw]) (fun _ h => h) _ _ _ Only.rfl).same .pwr (by decide)
@[simp] theorem setGate_boot (p : Nat) (f : Gate → Gate) (s : State) : (setGate p f s).boot = s.boot :=
  (setGate_only (ps := [.sw]) (fun _ h => h) _ _ _ Only.rfl).same .boot (by decide)
@[simp] theorem setGate_tack (p : Nat) (f : Gate → Gate) (s : State) : (setGate p f s).tack = s.tack :=
  (setGate_only (ps := [.sw]) (fun _ h => h) _ _ _ Only.rfl).same .tack (by decide)
@[simp] theorem setGate_sec (p : Nat) (f : Gate → Gate) (s : State) : (setGate p f s).sec = s.sec :=
  (setGate_only (ps := [.sw]) (fun _ h => h) _ _ _ Only.rfl).same .sec (by decide)
@[simp] theorem setGate_host (p : Nat) (f : Gate → Gate) (s : State) : (setGate p f s).host = s.host :=
  (setGate_only (ps := [.sw]) (fun _ h => h) _ _ _ Only.rfl).same .host (by decide)
@[simp] theorem setGate_mem (p : Nat) (f : Gate → Gate) (s : State) : (setGate p f s).mem = s.mem :=
  (setGate_only (ps := [.sw]) (fun _ h => h) _ _ _ Only.rfl).same .mem (by decide)
@[simp] theorem setGate_causes (p : Nat) (f : Gate → Gate) (s : State) : (setGate p f s).causes = s.causes :=
  (setGate_only (ps := [.sw]) (fun _ h => h) _ _ _ Only.rfl).same .causes (by decide)
@[simp] theorem setGate_stats (p : Nat) (f : Gate → Gate) (s : State) : (setGate p f s).stats = s.stats :=
  (setGate_only (ps := [.sw]) (fun _ h => h) _ _ _ Only.rfl).same .stats (by decide)
@[simp] theorem setGate_log (p : Nat) (f : Gate → Gate) (s : State) : (setGate p f s).log = s.log :=
  (setGate_only (ps := [.sw]) (fun _ h => h) _ _ _ Only.rfl).same .log (by decide)
@[simp] theorem setGate_hitch (p : Nat) (f : Gate → Gate) (s : State) : (setGate p f s).hitch = s.hitch :=
  (setGate_only (ps := [.sw]) (fun _ h => h) _ _ _ Only.rfl).same .hitch (by decide)
@[simp] theorem setGate_time (p : Nat) (f : Gate → Gate) (s : State) : (setGate p f s).time = s.time :=
  (setGate_only (ps := [.sw]) (fun _ h => h) _ _ _ Only.rfl).same .time (by decide)
@[simp] theorem setGate_macs (p : Nat) (f : Gate → Gate) (s : State) : (setGate p f s).macs = s.macs :=
  (setGate_only (ps := [.sw]) (fun _ h => h) _ _ _ Only.rfl).same .macs (by decide)
@[simp] theorem setGate_rx (p : Nat) (f : Gate → Gate) (s : State) : (setGate p f s).rx = s.rx :=
  (setGate_only (ps := [.sw]) (fun _ h => h) _ _ _ Only.rfl).same .rx (by decide)
@[simp] theorem setGate_tx (p : Nat) (f : Gate → Gate) (s : State) : (setGate p f s).tx = s.tx :=
  (setGate_only (ps := [.sw]) (fun _ h => h) _ _ _ Only.rfl).same .tx (by decide)
@[simp] theorem setGate_stream (p : Nat) (f : Gate → Gate) (s : State) : (setGate p f s).stream = s.stream :=
  (setGate_only (ps := [.sw]) (fun _ h => h) _ _ _ Only.rfl).same .stream (by decide)
@[simp] theorem setGate_ctl (p : Nat) (f : Gate → Gate) (s : State) : (setGate p f s).ctl = s.ctl :=
  (setGate_only (ps := [.sw]) (fun _ h => h) _ _ _ Only.rfl).same .ctl (by decide)
@[simp] theorem setGate_retain (p : Nat) (f : Gate → Gate) (s : State) : (setGate p f s).retain = s.retain :=
  (setGate_only (ps := [.sw]) (fun _ h => h) _ _ _ Only.rfl).same .retain (by decide)
@[simp] theorem setGate_red (p : Nat) (f : Gate → Gate) (s : State) : (setGate p f s).red = s.red :=
  (setGate_only (ps := [.sw]) (fun _ h => h) _ _ _ Only.rfl).same .red (by decide)
@[simp] theorem setGate_wr (p : Nat) (f : Gate → Gate) (s : State) : (setGate p f s).wr = s.wr :=
  (setGate_only (ps := [.sw]) (fun _ h => h) _ _ _ Only.rfl).same .wr (by decide)
@[simp] theorem setGate_can (p : Nat) (f : Gate → Gate) (s : State) : (setGate p f s).can = s.can :=
  (setGate_only (ps := [.sw]) (fun _ h => h) _ _ _ Only.rfl).same .can (by decide)
@[simp] theorem setGate_leg (p : Nat) (f : Gate → Gate) (s : State) : (setGate p f s).leg = s.leg :=
  (setGate_only (ps := [.sw]) (fun _ h => h) _ _ _ Only.rfl).same .leg (by decide)
@[simp] theorem setGate_br (p : Nat) (f : Gate → Gate) (s : State) : (setGate p f s).br = s.br :=
  (setGate_only (ps := [.sw]) (fun _ h => h) _ _ _ Only.rfl).same .br (by decide)
@[simp] theorem setSec_pending (p : Nat) (f : MacSec → MacSec) (s : State) : (setSec p f s).pending = s.pending :=
  (setSec_only (ps := [.sw]) (fun _ h => h) _ _ _ Only.rfl).same .pending (by decide)
@[simp] theorem setSec_out (p : Nat) (f : MacSec → MacSec) (s : State) : (setSec p f s).out = s.out :=
  (setSec_only (ps := [.sw]) (fun _ h => h) _ _ _ Only.rfl).same .out (by decide)
@[simp] theorem setSec_freeIdx (p : Nat) (f : MacSec → MacSec) (s : State) : (setSec p f s).freeIdx = s.freeIdx :=
  (setSec_only (ps := [.sw]) (fun _ h => h) _ _ _ Only.rfl).same .freeIdx (by decide)
@[simp] theorem setSec_node (p : Nat) (f : MacSec → MacSec) (s : State) : (setSec p f s).node = s.node :=
  (setSec_only (ps := [.sw]) (fun _ h => h) _ _ _ Only.rfl).same .node (by decide)
@[simp] theorem setSec_pwr (p : Nat) (f : MacSec → MacSec) (s : State) : (setSec p f s).pwr = s.pwr :=
  (setSec_only (ps := [.sw]) (fun _ h => h) _ _ _ Only.rfl).same .pwr (by decide)
@[simp] theorem setSec_boot (p : Nat) (f : MacSec → MacSec) (s : State) : (setSec p f s).boot = s.boot :=
  (setSec_only (ps := [.sw]) (fun _ h => h) _ _ _ Only.rfl).same .boot (by decide)
@[simp] theorem setSec_tack (p : Nat) (f : MacSec → MacSec) (s : State) : (setSec p f s).tack = s.tack :=
  (setSec_only (ps := [.sw]) (fun _ h => h) _ _ _ Only.rfl).same .tack (by decide)
@[simp] theorem setSec_sec (p : Nat) (f : MacSec → MacSec) (s : State) : (setSec p f s).sec = s.sec :=
  (setSec_only (ps := [.sw]) (fun _ h => h) _ _ _ Only.rfl).same .sec (by decide)
@[simp] theorem setSec_host (p : Nat) (f : MacSec → MacSec) (s : State) : (setSec p f s).host = s.host :=
  (setSec_only (ps := [.sw]) (fun _ h => h) _ _ _ Only.rfl).same .host (by decide)
@[simp] theorem setSec_mem (p : Nat) (f : MacSec → MacSec) (s : State) : (setSec p f s).mem = s.mem :=
  (setSec_only (ps := [.sw]) (fun _ h => h) _ _ _ Only.rfl).same .mem (by decide)
@[simp] theorem setSec_causes (p : Nat) (f : MacSec → MacSec) (s : State) : (setSec p f s).causes = s.causes :=
  (setSec_only (ps := [.sw]) (fun _ h => h) _ _ _ Only.rfl).same .causes (by decide)
@[simp] theorem setSec_stats (p : Nat) (f : MacSec → MacSec) (s : State) : (setSec p f s).stats = s.stats :=
  (setSec_only (ps := [.sw]) (fun _ h => h) _ _ _ Only.rfl).same .stats (by decide)
@[simp] theorem setSec_log (p : Nat) (f : MacSec → MacSec) (s : State) : (setSec p f s).log = s.log :=
  (setSec_only (ps := [.sw]) (fun _ h => h) _ _ _ Only.rfl).same .log (by decide)
@[simp] theorem setSec_hitch (p : Nat) (f : MacSec → MacSec) (s : State) : (setSec p f s).hitch = s.hitch :=
  (setSec_only (ps := [.sw]) (fun _ h => h) _ _ _ Only.rfl).same .hitch (by decide)
@[simp] theorem setSec_time (p : Nat) (f : MacSec → MacSec) (s : State) : (setSec p f s).time = s.time :=
  (setSec_only (ps := [.sw]) (fun _ h => h) _ _ _ Only.rfl).same .time (by decide)
@[simp] theorem setSec_macs (p : Nat) (f : MacSec → MacSec) (s : State) : (setSec p f s).macs = s.macs :=
  (setSec_only (ps := [.sw]) (fun _ h => h) _ _ _ Only.rfl).same .macs (by decide)
@[simp] theorem setSec_rx (p : Nat) (f : MacSec → MacSec) (s : State) : (setSec p f s).rx = s.rx :=
  (setSec_only (ps := [.sw]) (fun _ h => h) _ _ _ Only.rfl).same .rx (by decide)
@[simp] theorem setSec_tx (p : Nat) (f : MacSec → MacSec) (s : State) : (setSec p f s).tx = s.tx :=
  (setSec_only (ps := [.sw]) (fun _ h => h) _ _ _ Only.rfl).same .tx (by decide)
@[simp] theorem setSec_stream (p : Nat) (f : MacSec → MacSec) (s : State) : (setSec p f s).stream = s.stream :=
  (setSec_only (ps := [.sw]) (fun _ h => h) _ _ _ Only.rfl).same .stream (by decide)
@[simp] theorem setSec_ctl (p : Nat) (f : MacSec → MacSec) (s : State) : (setSec p f s).ctl = s.ctl :=
  (setSec_only (ps := [.sw]) (fun _ h => h) _ _ _ Only.rfl).same .ctl (by decide)
@[simp] theorem setSec_retain (p : Nat) (f : MacSec → MacSec) (s : State) : (setSec p f s).retain = s.retain :=
  (setSec_only (ps := [.sw]) (fun _ h => h) _ _ _ Only.rfl).same .retain (by decide)
@[simp] theorem setSec_red (p : Nat) (f : MacSec → MacSec) (s : State) : (setSec p f s).red = s.red :=
  (setSec_only (ps := [.sw]) (fun _ h => h) _ _ _ Only.rfl).same .red (by decide)
@[simp] theorem setSec_wr (p : Nat) (f : MacSec → MacSec) (s : State) : (setSec p f s).wr = s.wr :=
  (setSec_only (ps := [.sw]) (fun _ h => h) _ _ _ Only.rfl).same .wr (by decide)
@[simp] theorem setSec_can (p : Nat) (f : MacSec → MacSec) (s : State) : (setSec p f s).can = s.can :=
  (setSec_only (ps := [.sw]) (fun _ h => h) _ _ _ Only.rfl).same .can (by decide)
@[simp] theorem setSec_leg (p : Nat) (f : MacSec → MacSec) (s : State) : (setSec p f s).leg = s.leg :=
  (setSec_only (ps := [.sw]) (fun _ h => h) _ _ _ Only.rfl).same .leg (by decide)
@[simp] theorem setSec_br (p : Nat) (f : MacSec → MacSec) (s : State) : (setSec p f s).br = s.br :=
  (setSec_only (ps := [.sw]) (fun _ h => h) _ _ _ Only.rfl).same .br (by decide)
@[simp] theorem setTask_pending (n : Nat) (f : Task → Task) (s : State) : (setTask n f s).pending = s.pending :=
  (setTask_only (ps := [.ctl]) (fun _ h => h) _ _ _ Only.rfl).same .pending (by decide)
@[simp] theorem setTask_out (n : Nat) (f : Task → Task) (s : State) : (setTask n f s).out = s.out :=
  (setTask_only (ps := [.ctl]) (fun _ h => h) _ _ _ Only.rfl).same .out (by decide)
@[simp] theorem setTask_freeIdx (n : Nat) (f : Task → Task) (s : State) : (setTask n f s).freeIdx = s.freeIdx :=
  (setTask_only (ps := [.ctl]) (fun _ h => h) _ _ _ Only.rfl).same .freeIdx (by decide)
@[simp] theorem setTask_node (n : Nat) (f : Task → Task) (s : State) : (setTask n f s).node = s.node :=
  (setTask_only (ps := [.ctl]) (fun _ h => h) _ _ _ Only.rfl).same .node (by decide)
@[simp] theorem setTask_pwr (n : Nat) (f : Task → Task) (s : State) : (setTask n f s).pwr = s.pwr :=
  (setTask_only (ps := [.ctl]) (fun _ h => h) _ _ _ Only.rfl).same .pwr (by decide)
@[simp] theorem setTask_boot (n : Nat) (f : Task → Task) (s : State) : (setTask n f s).boot = s.boot :=
  (setTask_only (ps := [.ctl]) (fun _ h => h) _ _ _ Only.rfl).same .boot (by decide)
@[simp] theorem setTask_tack (n : Nat) (f : Task → Task) (s : State) : (setTask n f s).tack = s.tack :=
  (setTask_only (ps := [.ctl]) (fun _ h => h) _ _ _ Only.rfl).same .tack (by decide)
@[simp] theorem setTask_sec (n : Nat) (f : Task → Task) (s : State) : (setTask n f s).sec = s.sec :=
  (setTask_only (ps := [.ctl]) (fun _ h => h) _ _ _ Only.rfl).same .sec (by decide)
@[simp] theorem setTask_host (n : Nat) (f : Task → Task) (s : State) : (setTask n f s).host = s.host :=
  (setTask_only (ps := [.ctl]) (fun _ h => h) _ _ _ Only.rfl).same .host (by decide)
@[simp] theorem setTask_mem (n : Nat) (f : Task → Task) (s : State) : (setTask n f s).mem = s.mem :=
  (setTask_only (ps := [.ctl]) (fun _ h => h) _ _ _ Only.rfl).same .mem (by decide)
@[simp] theorem setTask_causes (n : Nat) (f : Task → Task) (s : State) : (setTask n f s).causes = s.causes :=
  (setTask_only (ps := [.ctl]) (fun _ h => h) _ _ _ Only.rfl).same .causes (by decide)
@[simp] theorem setTask_stats (n : Nat) (f : Task → Task) (s : State) : (setTask n f s).stats = s.stats :=
  (setTask_only (ps := [.ctl]) (fun _ h => h) _ _ _ Only.rfl).same .stats (by decide)
@[simp] theorem setTask_log (n : Nat) (f : Task → Task) (s : State) : (setTask n f s).log = s.log :=
  (setTask_only (ps := [.ctl]) (fun _ h => h) _ _ _ Only.rfl).same .log (by decide)
@[simp] theorem setTask_hitch (n : Nat) (f : Task → Task) (s : State) : (setTask n f s).hitch = s.hitch :=
  (setTask_only (ps := [.ctl]) (fun _ h => h) _ _ _ Only.rfl).same .hitch (by decide)
@[simp] theorem setTask_time (n : Nat) (f : Task → Task) (s : State) : (setTask n f s).time = s.time :=
  (setTask_only (ps := [.ctl]) (fun _ h => h) _ _ _ Only.rfl).same .time (by decide)
@[simp] theorem setTask_sw (n : Nat) (f : Task → Task) (s : State) : (setTask n f s).sw = s.sw :=
  (setTask_only (ps := [.ctl]) (fun _ h => h) _ _ _ Only.rfl).same .sw (by decide)
@[simp] theorem setTask_macs (n : Nat) (f : Task → Task) (s : State) : (setTask n f s).macs = s.macs :=
  (setTask_only (ps := [.ctl]) (fun _ h => h) _ _ _ Only.rfl).same .macs (by decide)
@[simp] theorem setTask_rx (n : Nat) (f : Task → Task) (s : State) : (setTask n f s).rx = s.rx :=
  (setTask_only (ps := [.ctl]) (fun _ h => h) _ _ _ Only.rfl).same .rx (by decide)
@[simp] theorem setTask_tx (n : Nat) (f : Task → Task) (s : State) : (setTask n f s).tx = s.tx :=
  (setTask_only (ps := [.ctl]) (fun _ h => h) _ _ _ Only.rfl).same .tx (by decide)
@[simp] theorem setTask_stream (n : Nat) (f : Task → Task) (s : State) : (setTask n f s).stream = s.stream :=
  (setTask_only (ps := [.ctl]) (fun _ h => h) _ _ _ Only.rfl).same .stream (by decide)
@[simp] theorem setTask_retain (n : Nat) (f : Task → Task) (s : State) : (setTask n f s).retain = s.retain :=
  (setTask_only (ps := [.ctl]) (fun _ h => h) _ _ _ Only.rfl).same .retain (by decide)
@[simp] theorem setTask_red (n : Nat) (f : Task → Task) (s : State) : (setTask n f s).red = s.red :=
  (setTask_only (ps := [.ctl]) (fun _ h => h) _ _ _ Only.rfl).same .red (by decide)
@[simp] theorem setTask_wr (n : Nat) (f : Task → Task) (s : State) : (setTask n f s).wr = s.wr :=
  (setTask_only (ps := [.ctl]) (fun _ h => h) _ _ _ Only.rfl).same .wr (by decide)
@[simp] theorem setTask_can (n : Nat) (f : Task → Task) (s : State) : (setTask n f s).can = s.can :=
  (setTask_only (ps := [.ctl]) (fun _ h => h) _ _ _ Only.rfl).same .can (by decide)
@[simp] theorem setTask_leg (n : Nat) (f : Task → Task) (s : State) : (setTask n f s).leg = s.leg :=
  (setTask_only (ps := [.ctl]) (fun _ h => h) _ _ _ Only.rfl).same .leg (by decide)
@[simp] theorem setTask_br (n : Nat) (f : Task → Task) (s : State) : (setTask n f s).br = s.br :=
  (setTask_only (ps := [.ctl]) (fun _ h => h) _ _ _ Only.rfl).same .br (by decide)
@[simp] theorem setDomain_pending (i : Nat) (f : Domain → Domain) (s : State) : (setDomain i f s).pending = s.pending :=
  (setDomain_only (ps := [.time]) (fun _ h => h) _ _ _ Only.rfl).same .pending (by decide)
@[simp] theorem setDomain_out (i : Nat) (f : Domain → Domain) (s : State) : (setDomain i f s).out = s.out :=
  (setDomain_only (ps := [.time]) (fun _ h => h) _ _ _ Only.rfl).same .out (by decide)
@[simp] theorem setDomain_freeIdx (i : Nat) (f : Domain → Domain) (s : State) : (setDomain i f s).freeIdx = s.freeIdx :=
  (setDomain_only (ps := [.time]) (fun _ h => h) _ _ _ Only.rfl).same .freeIdx (by decide)
@[simp] theorem setDomain_node (i : Nat) (f : Domain → Domain) (s : State) : (setDomain i f s).node = s.node :=
  (setDomain_only (ps := [.time]) (fun _ h => h) _ _ _ Only.rfl).same .node (by decide)
@[simp] theorem setDomain_pwr (i : Nat) (f : Domain → Domain) (s : State) : (setDomain i f s).pwr = s.pwr :=
  (setDomain_only (ps := [.time]) (fun _ h => h) _ _ _ Only.rfl).same .pwr (by decide)
@[simp] theorem setDomain_boot (i : Nat) (f : Domain → Domain) (s : State) : (setDomain i f s).boot = s.boot :=
  (setDomain_only (ps := [.time]) (fun _ h => h) _ _ _ Only.rfl).same .boot (by decide)
@[simp] theorem setDomain_tack (i : Nat) (f : Domain → Domain) (s : State) : (setDomain i f s).tack = s.tack :=
  (setDomain_only (ps := [.time]) (fun _ h => h) _ _ _ Only.rfl).same .tack (by decide)
@[simp] theorem setDomain_sec (i : Nat) (f : Domain → Domain) (s : State) : (setDomain i f s).sec = s.sec :=
  (setDomain_only (ps := [.time]) (fun _ h => h) _ _ _ Only.rfl).same .sec (by decide)
@[simp] theorem setDomain_host (i : Nat) (f : Domain → Domain) (s : State) : (setDomain i f s).host = s.host :=
  (setDomain_only (ps := [.time]) (fun _ h => h) _ _ _ Only.rfl).same .host (by decide)
@[simp] theorem setDomain_mem (i : Nat) (f : Domain → Domain) (s : State) : (setDomain i f s).mem = s.mem :=
  (setDomain_only (ps := [.time]) (fun _ h => h) _ _ _ Only.rfl).same .mem (by decide)
@[simp] theorem setDomain_causes (i : Nat) (f : Domain → Domain) (s : State) : (setDomain i f s).causes = s.causes :=
  (setDomain_only (ps := [.time]) (fun _ h => h) _ _ _ Only.rfl).same .causes (by decide)
@[simp] theorem setDomain_stats (i : Nat) (f : Domain → Domain) (s : State) : (setDomain i f s).stats = s.stats :=
  (setDomain_only (ps := [.time]) (fun _ h => h) _ _ _ Only.rfl).same .stats (by decide)
@[simp] theorem setDomain_log (i : Nat) (f : Domain → Domain) (s : State) : (setDomain i f s).log = s.log :=
  (setDomain_only (ps := [.time]) (fun _ h => h) _ _ _ Only.rfl).same .log (by decide)
@[simp] theorem setDomain_hitch (i : Nat) (f : Domain → Domain) (s : State) : (setDomain i f s).hitch = s.hitch :=
  (setDomain_only (ps := [.time]) (fun _ h => h) _ _ _ Only.rfl).same .hitch (by decide)
@[simp] theorem setDomain_sw (i : Nat) (f : Domain → Domain) (s : State) : (setDomain i f s).sw = s.sw :=
  (setDomain_only (ps := [.time]) (fun _ h => h) _ _ _ Only.rfl).same .sw (by decide)
@[simp] theorem setDomain_macs (i : Nat) (f : Domain → Domain) (s : State) : (setDomain i f s).macs = s.macs :=
  (setDomain_only (ps := [.time]) (fun _ h => h) _ _ _ Only.rfl).same .macs (by decide)
@[simp] theorem setDomain_rx (i : Nat) (f : Domain → Domain) (s : State) : (setDomain i f s).rx = s.rx :=
  (setDomain_only (ps := [.time]) (fun _ h => h) _ _ _ Only.rfl).same .rx (by decide)
@[simp] theorem setDomain_tx (i : Nat) (f : Domain → Domain) (s : State) : (setDomain i f s).tx = s.tx :=
  (setDomain_only (ps := [.time]) (fun _ h => h) _ _ _ Only.rfl).same .tx (by decide)
@[simp] theorem setDomain_stream (i : Nat) (f : Domain → Domain) (s : State) : (setDomain i f s).stream = s.stream :=
  (setDomain_only (ps := [.time]) (fun _ h => h) _ _ _ Only.rfl).same .stream (by decide)
@[simp] theorem setDomain_ctl (i : Nat) (f : Domain → Domain) (s : State) : (setDomain i f s).ctl = s.ctl :=
  (setDomain_only (ps := [.time]) (fun _ h => h) _ _ _ Only.rfl).same .ctl (by decide)
@[simp] theorem setDomain_retain (i : Nat) (f : Domain → Domain) (s : State) : (setDomain i f s).retain = s.retain :=
  (setDomain_only (ps := [.time]) (fun _ h => h) _ _ _ Only.rfl).same .retain (by decide)
@[simp] theorem setDomain_red (i : Nat) (f : Domain → Domain) (s : State) : (setDomain i f s).red = s.red :=
  (setDomain_only (ps := [.time]) (fun _ h => h) _ _ _ Only.rfl).same .red (by decide)
@[simp] theorem setDomain_wr (i : Nat) (f : Domain → Domain) (s : State) : (setDomain i f s).wr = s.wr :=
  (setDomain_only (ps := [.time]) (fun _ h => h) _ _ _ Only.rfl).same .wr (by decide)
@[simp] theorem setDomain_can (i : Nat) (f : Domain → Domain) (s : State) : (setDomain i f s).can = s.can :=
  (setDomain_only (ps := [.time]) (fun _ h => h) _ _ _ Only.rfl).same .can (by decide)
@[simp] theorem setDomain_leg (i : Nat) (f : Domain → Domain) (s : State) : (setDomain i f s).leg = s.leg :=
  (setDomain_only (ps := [.time]) (fun _ h => h) _ _ _ Only.rfl).same .leg (by decide)
@[simp] theorem setDomain_br (i : Nat) (f : Domain → Domain) (s : State) : (setDomain i f s).br = s.br :=
  (setDomain_only (ps := [.time]) (fun _ h => h) _ _ _ Only.rfl).same .br (by decide)
@[simp] theorem tugPut_pending (l : Nat) (m : TugMsg) (s : State) : (tugPut l m s).pending = s.pending :=
  (tugPut_only (ps := [.out, .red]) (fun _ h => h) _ _ _ Only.rfl).same .pending (by decide)
@[simp] theorem tugPut_freeIdx (l : Nat) (m : TugMsg) (s : State) : (tugPut l m s).freeIdx = s.freeIdx :=
  (tugPut_only (ps := [.out, .red]) (fun _ h => h) _ _ _ Only.rfl).same .freeIdx (by decide)
@[simp] theorem tugPut_node (l : Nat) (m : TugMsg) (s : State) : (tugPut l m s).node = s.node :=
  (tugPut_only (ps := [.out, .red]) (fun _ h => h) _ _ _ Only.rfl).same .node (by decide)
@[simp] theorem tugPut_pwr (l : Nat) (m : TugMsg) (s : State) : (tugPut l m s).pwr = s.pwr :=
  (tugPut_only (ps := [.out, .red]) (fun _ h => h) _ _ _ Only.rfl).same .pwr (by decide)
@[simp] theorem tugPut_boot (l : Nat) (m : TugMsg) (s : State) : (tugPut l m s).boot = s.boot :=
  (tugPut_only (ps := [.out, .red]) (fun _ h => h) _ _ _ Only.rfl).same .boot (by decide)
@[simp] theorem tugPut_tack (l : Nat) (m : TugMsg) (s : State) : (tugPut l m s).tack = s.tack :=
  (tugPut_only (ps := [.out, .red]) (fun _ h => h) _ _ _ Only.rfl).same .tack (by decide)
@[simp] theorem tugPut_sec (l : Nat) (m : TugMsg) (s : State) : (tugPut l m s).sec = s.sec :=
  (tugPut_only (ps := [.out, .red]) (fun _ h => h) _ _ _ Only.rfl).same .sec (by decide)
@[simp] theorem tugPut_host (l : Nat) (m : TugMsg) (s : State) : (tugPut l m s).host = s.host :=
  (tugPut_only (ps := [.out, .red]) (fun _ h => h) _ _ _ Only.rfl).same .host (by decide)
@[simp] theorem tugPut_mem (l : Nat) (m : TugMsg) (s : State) : (tugPut l m s).mem = s.mem :=
  (tugPut_only (ps := [.out, .red]) (fun _ h => h) _ _ _ Only.rfl).same .mem (by decide)
@[simp] theorem tugPut_causes (l : Nat) (m : TugMsg) (s : State) : (tugPut l m s).causes = s.causes :=
  (tugPut_only (ps := [.out, .red]) (fun _ h => h) _ _ _ Only.rfl).same .causes (by decide)
@[simp] theorem tugPut_stats (l : Nat) (m : TugMsg) (s : State) : (tugPut l m s).stats = s.stats :=
  (tugPut_only (ps := [.out, .red]) (fun _ h => h) _ _ _ Only.rfl).same .stats (by decide)
@[simp] theorem tugPut_log (l : Nat) (m : TugMsg) (s : State) : (tugPut l m s).log = s.log :=
  (tugPut_only (ps := [.out, .red]) (fun _ h => h) _ _ _ Only.rfl).same .log (by decide)
@[simp] theorem tugPut_hitch (l : Nat) (m : TugMsg) (s : State) : (tugPut l m s).hitch = s.hitch :=
  (tugPut_only (ps := [.out, .red]) (fun _ h => h) _ _ _ Only.rfl).same .hitch (by decide)
@[simp] theorem tugPut_time (l : Nat) (m : TugMsg) (s : State) : (tugPut l m s).time = s.time :=
  (tugPut_only (ps := [.out, .red]) (fun _ h => h) _ _ _ Only.rfl).same .time (by decide)
@[simp] theorem tugPut_sw (l : Nat) (m : TugMsg) (s : State) : (tugPut l m s).sw = s.sw :=
  (tugPut_only (ps := [.out, .red]) (fun _ h => h) _ _ _ Only.rfl).same .sw (by decide)
@[simp] theorem tugPut_macs (l : Nat) (m : TugMsg) (s : State) : (tugPut l m s).macs = s.macs :=
  (tugPut_only (ps := [.out, .red]) (fun _ h => h) _ _ _ Only.rfl).same .macs (by decide)
@[simp] theorem tugPut_rx (l : Nat) (m : TugMsg) (s : State) : (tugPut l m s).rx = s.rx :=
  (tugPut_only (ps := [.out, .red]) (fun _ h => h) _ _ _ Only.rfl).same .rx (by decide)
@[simp] theorem tugPut_tx (l : Nat) (m : TugMsg) (s : State) : (tugPut l m s).tx = s.tx :=
  (tugPut_only (ps := [.out, .red]) (fun _ h => h) _ _ _ Only.rfl).same .tx (by decide)
@[simp] theorem tugPut_stream (l : Nat) (m : TugMsg) (s : State) : (tugPut l m s).stream = s.stream :=
  (tugPut_only (ps := [.out, .red]) (fun _ h => h) _ _ _ Only.rfl).same .stream (by decide)
@[simp] theorem tugPut_ctl (l : Nat) (m : TugMsg) (s : State) : (tugPut l m s).ctl = s.ctl :=
  (tugPut_only (ps := [.out, .red]) (fun _ h => h) _ _ _ Only.rfl).same .ctl (by decide)
@[simp] theorem tugPut_retain (l : Nat) (m : TugMsg) (s : State) : (tugPut l m s).retain = s.retain :=
  (tugPut_only (ps := [.out, .red]) (fun _ h => h) _ _ _ Only.rfl).same .retain (by decide)
@[simp] theorem tugPut_wr (l : Nat) (m : TugMsg) (s : State) : (tugPut l m s).wr = s.wr :=
  (tugPut_only (ps := [.out, .red]) (fun _ h => h) _ _ _ Only.rfl).same .wr (by decide)
@[simp] theorem tugPut_can (l : Nat) (m : TugMsg) (s : State) : (tugPut l m s).can = s.can :=
  (tugPut_only (ps := [.out, .red]) (fun _ h => h) _ _ _ Only.rfl).same .can (by decide)
@[simp] theorem tugPut_leg (l : Nat) (m : TugMsg) (s : State) : (tugPut l m s).leg = s.leg :=
  (tugPut_only (ps := [.out, .red]) (fun _ h => h) _ _ _ Only.rfl).same .leg (by decide)
@[simp] theorem tugPut_br (l : Nat) (m : TugMsg) (s : State) : (tugPut l m s).br = s.br :=
  (tugPut_only (ps := [.out, .red]) (fun _ h => h) _ _ _ Only.rfl).same .br (by decide)
@[simp] theorem tugSend_pending (l : Nat) (c : TugChan) (typ : Nat) (data : List Byte) (s : State) : (tugSend l c typ data s).pending = s.pending :=
  (tugSend_only (ps := [.out, .host, .causes, .stats, .red]) (fun _ h => h) _ _ _ _ _ Only.rfl).same .pending (by decide)
@[simp] theorem tugSend_freeIdx (l : Nat) (c : TugChan) (typ : Nat) (data : List Byte) (s : State) : (tugSend l c typ data s).freeIdx = s.freeIdx :=
  (tugSend_only (ps := [.out, .host, .causes, .stats, .red]) (fun _ h => h) _ _ _ _ _ Only.rfl).same .freeIdx (by decide)
@[simp] theorem tugSend_node (l : Nat) (c : TugChan) (typ : Nat) (data : List Byte) (s : State) : (tugSend l c typ data s).node = s.node :=
  (tugSend_only (ps := [.out, .host, .causes, .stats, .red]) (fun _ h => h) _ _ _ _ _ Only.rfl).same .node (by decide)
@[simp] theorem tugSend_pwr (l : Nat) (c : TugChan) (typ : Nat) (data : List Byte) (s : State) : (tugSend l c typ data s).pwr = s.pwr :=
  (tugSend_only (ps := [.out, .host, .causes, .stats, .red]) (fun _ h => h) _ _ _ _ _ Only.rfl).same .pwr (by decide)
@[simp] theorem tugSend_boot (l : Nat) (c : TugChan) (typ : Nat) (data : List Byte) (s : State) : (tugSend l c typ data s).boot = s.boot :=
  (tugSend_only (ps := [.out, .host, .causes, .stats, .red]) (fun _ h => h) _ _ _ _ _ Only.rfl).same .boot (by decide)
@[simp] theorem tugSend_tack (l : Nat) (c : TugChan) (typ : Nat) (data : List Byte) (s : State) : (tugSend l c typ data s).tack = s.tack :=
  (tugSend_only (ps := [.out, .host, .causes, .stats, .red]) (fun _ h => h) _ _ _ _ _ Only.rfl).same .tack (by decide)
@[simp] theorem tugSend_sec (l : Nat) (c : TugChan) (typ : Nat) (data : List Byte) (s : State) : (tugSend l c typ data s).sec = s.sec :=
  (tugSend_only (ps := [.out, .host, .causes, .stats, .red]) (fun _ h => h) _ _ _ _ _ Only.rfl).same .sec (by decide)
@[simp] theorem tugSend_mem (l : Nat) (c : TugChan) (typ : Nat) (data : List Byte) (s : State) : (tugSend l c typ data s).mem = s.mem :=
  (tugSend_only (ps := [.out, .host, .causes, .stats, .red]) (fun _ h => h) _ _ _ _ _ Only.rfl).same .mem (by decide)
@[simp] theorem tugSend_log (l : Nat) (c : TugChan) (typ : Nat) (data : List Byte) (s : State) : (tugSend l c typ data s).log = s.log :=
  (tugSend_only (ps := [.out, .host, .causes, .stats, .red]) (fun _ h => h) _ _ _ _ _ Only.rfl).same .log (by decide)
@[simp] theorem tugSend_hitch (l : Nat) (c : TugChan) (typ : Nat) (data : List Byte) (s : State) : (tugSend l c typ data s).hitch = s.hitch :=
  (tugSend_only (ps := [.out, .host, .causes, .stats, .red]) (fun _ h => h) _ _ _ _ _ Only.rfl).same .hitch (by decide)
@[simp] theorem tugSend_time (l : Nat) (c : TugChan) (typ : Nat) (data : List Byte) (s : State) : (tugSend l c typ data s).time = s.time :=
  (tugSend_only (ps := [.out, .host, .causes, .stats, .red]) (fun _ h => h) _ _ _ _ _ Only.rfl).same .time (by decide)
@[simp] theorem tugSend_sw (l : Nat) (c : TugChan) (typ : Nat) (data : List Byte) (s : State) : (tugSend l c typ data s).sw = s.sw :=
  (tugSend_only (ps := [.out, .host, .causes, .stats, .red]) (fun _ h => h) _ _ _ _ _ Only.rfl).same .sw (by decide)
@[simp] theorem tugSend_macs (l : Nat) (c : TugChan) (typ : Nat) (data : List Byte) (s : State) : (tugSend l c typ data s).macs = s.macs :=
  (tugSend_only (ps := [.out, .host, .causes, .stats, .red]) (fun _ h => h) _ _ _ _ _ Only.rfl).same .macs (by decide)
@[simp] theorem tugSend_rx (l : Nat) (c : TugChan) (typ : Nat) (data : List Byte) (s : State) : (tugSend l c typ data s).rx = s.rx :=
  (tugSend_only (ps := [.out, .host, .causes, .stats, .red]) (fun _ h => h) _ _ _ _ _ Only.rfl).same .rx (by decide)
@[simp] theorem tugSend_tx (l : Nat) (c : TugChan) (typ : Nat) (data : List Byte) (s : State) : (tugSend l c typ data s).tx = s.tx :=
  (tugSend_only (ps := [.out, .host, .causes, .stats, .red]) (fun _ h => h) _ _ _ _ _ Only.rfl).same .tx (by decide)
@[simp] theorem tugSend_stream (l : Nat) (c : TugChan) (typ : Nat) (data : List Byte) (s : State) : (tugSend l c typ data s).stream = s.stream :=
  (tugSend_only (ps := [.out, .host, .causes, .stats, .red]) (fun _ h => h) _ _ _ _ _ Only.rfl).same .stream (by decide)
@[simp] theorem tugSend_ctl (l : Nat) (c : TugChan) (typ : Nat) (data : List Byte) (s : State) : (tugSend l c typ data s).ctl = s.ctl :=
  (tugSend_only (ps := [.out, .host, .causes, .stats, .red]) (fun _ h => h) _ _ _ _ _ Only.rfl).same .ctl (by decide)
@[simp] theorem tugSend_retain (l : Nat) (c : TugChan) (typ : Nat) (data : List Byte) (s : State) : (tugSend l c typ data s).retain = s.retain :=
  (tugSend_only (ps := [.out, .host, .causes, .stats, .red]) (fun _ h => h) _ _ _ _ _ Only.rfl).same .retain (by decide)
@[simp] theorem tugSend_wr (l : Nat) (c : TugChan) (typ : Nat) (data : List Byte) (s : State) : (tugSend l c typ data s).wr = s.wr :=
  (tugSend_only (ps := [.out, .host, .causes, .stats, .red]) (fun _ h => h) _ _ _ _ _ Only.rfl).same .wr (by decide)
@[simp] theorem tugSend_can (l : Nat) (c : TugChan) (typ : Nat) (data : List Byte) (s : State) : (tugSend l c typ data s).can = s.can :=
  (tugSend_only (ps := [.out, .host, .causes, .stats, .red]) (fun _ h => h) _ _ _ _ _ Only.rfl).same .can (by decide)
@[simp] theorem tugSend_leg (l : Nat) (c : TugChan) (typ : Nat) (data : List Byte) (s : State) : (tugSend l c typ data s).leg = s.leg :=
  (tugSend_only (ps := [.out, .host, .causes, .stats, .red]) (fun _ h => h) _ _ _ _ _ Only.rfl).same .leg (by decide)
@[simp] theorem tugSend_br (l : Nat) (c : TugChan) (typ : Nat) (data : List Byte) (s : State) : (tugSend l c typ data s).br = s.br :=
  (tugSend_only (ps := [.out, .host, .causes, .stats, .red]) (fun _ h => h) _ _ _ _ _ Only.rfl).same .br (by decide)
@[simp] theorem tugAll_pending (c : TugChan) (typ : Nat) (data : List Byte) (s : State) : (tugAll c typ data s).pending = s.pending :=
  (tugAll_only (ps := [.out, .host, .causes, .stats, .red]) (fun _ h => h) _ _ _ _ Only.rfl).same .pending (by decide)
@[simp] theorem tugAll_freeIdx (c : TugChan) (typ : Nat) (data : List Byte) (s : State) : (tugAll c typ data s).freeIdx = s.freeIdx :=
  (tugAll_only (ps := [.out, .host, .causes, .stats, .red]) (fun _ h => h) _ _ _ _ Only.rfl).same .freeIdx (by decide)
@[simp] theorem tugAll_node (c : TugChan) (typ : Nat) (data : List Byte) (s : State) : (tugAll c typ data s).node = s.node :=
  (tugAll_only (ps := [.out, .host, .causes, .stats, .red]) (fun _ h => h) _ _ _ _ Only.rfl).same .node (by decide)
@[simp] theorem tugAll_pwr (c : TugChan) (typ : Nat) (data : List Byte) (s : State) : (tugAll c typ data s).pwr = s.pwr :=
  (tugAll_only (ps := [.out, .host, .causes, .stats, .red]) (fun _ h => h) _ _ _ _ Only.rfl).same .pwr (by decide)
@[simp] theorem tugAll_boot (c : TugChan) (typ : Nat) (data : List Byte) (s : State) : (tugAll c typ data s).boot = s.boot :=
  (tugAll_only (ps := [.out, .host, .causes, .stats, .red]) (fun _ h => h) _ _ _ _ Only.rfl).same .boot (by decide)
@[simp] theorem tugAll_tack (c : TugChan) (typ : Nat) (data : List Byte) (s : State) : (tugAll c typ data s).tack = s.tack :=
  (tugAll_only (ps := [.out, .host, .causes, .stats, .red]) (fun _ h => h) _ _ _ _ Only.rfl).same .tack (by decide)
@[simp] theorem tugAll_sec (c : TugChan) (typ : Nat) (data : List Byte) (s : State) : (tugAll c typ data s).sec = s.sec :=
  (tugAll_only (ps := [.out, .host, .causes, .stats, .red]) (fun _ h => h) _ _ _ _ Only.rfl).same .sec (by decide)
@[simp] theorem tugAll_mem (c : TugChan) (typ : Nat) (data : List Byte) (s : State) : (tugAll c typ data s).mem = s.mem :=
  (tugAll_only (ps := [.out, .host, .causes, .stats, .red]) (fun _ h => h) _ _ _ _ Only.rfl).same .mem (by decide)
@[simp] theorem tugAll_log (c : TugChan) (typ : Nat) (data : List Byte) (s : State) : (tugAll c typ data s).log = s.log :=
  (tugAll_only (ps := [.out, .host, .causes, .stats, .red]) (fun _ h => h) _ _ _ _ Only.rfl).same .log (by decide)
@[simp] theorem tugAll_hitch (c : TugChan) (typ : Nat) (data : List Byte) (s : State) : (tugAll c typ data s).hitch = s.hitch :=
  (tugAll_only (ps := [.out, .host, .causes, .stats, .red]) (fun _ h => h) _ _ _ _ Only.rfl).same .hitch (by decide)
@[simp] theorem tugAll_time (c : TugChan) (typ : Nat) (data : List Byte) (s : State) : (tugAll c typ data s).time = s.time :=
  (tugAll_only (ps := [.out, .host, .causes, .stats, .red]) (fun _ h => h) _ _ _ _ Only.rfl).same .time (by decide)
@[simp] theorem tugAll_sw (c : TugChan) (typ : Nat) (data : List Byte) (s : State) : (tugAll c typ data s).sw = s.sw :=
  (tugAll_only (ps := [.out, .host, .causes, .stats, .red]) (fun _ h => h) _ _ _ _ Only.rfl).same .sw (by decide)
@[simp] theorem tugAll_macs (c : TugChan) (typ : Nat) (data : List Byte) (s : State) : (tugAll c typ data s).macs = s.macs :=
  (tugAll_only (ps := [.out, .host, .causes, .stats, .red]) (fun _ h => h) _ _ _ _ Only.rfl).same .macs (by decide)
@[simp] theorem tugAll_rx (c : TugChan) (typ : Nat) (data : List Byte) (s : State) : (tugAll c typ data s).rx = s.rx :=
  (tugAll_only (ps := [.out, .host, .causes, .stats, .red]) (fun _ h => h) _ _ _ _ Only.rfl).same .rx (by decide)
@[simp] theorem tugAll_tx (c : TugChan) (typ : Nat) (data : List Byte) (s : State) : (tugAll c typ data s).tx = s.tx :=
  (tugAll_only (ps := [.out, .host, .causes, .stats, .red]) (fun _ h => h) _ _ _ _ Only.rfl).same .tx (by decide)
@[simp] theorem tugAll_stream (c : TugChan) (typ : Nat) (data : List Byte) (s : State) : (tugAll c typ data s).stream = s.stream :=
  (tugAll_only (ps := [.out, .host, .causes, .stats, .red]) (fun _ h => h) _ _ _ _ Only.rfl).same .stream (by decide)
@[simp] theorem tugAll_ctl (c : TugChan) (typ : Nat) (data : List Byte) (s : State) : (tugAll c typ data s).ctl = s.ctl :=
  (tugAll_only (ps := [.out, .host, .causes, .stats, .red]) (fun _ h => h) _ _ _ _ Only.rfl).same .ctl (by decide)
@[simp] theorem tugAll_retain (c : TugChan) (typ : Nat) (data : List Byte) (s : State) : (tugAll c typ data s).retain = s.retain :=
  (tugAll_only (ps := [.out, .host, .causes, .stats, .red]) (fun _ h => h) _ _ _ _ Only.rfl).same .retain (by decide)
@[simp] theorem tugAll_wr (c : TugChan) (typ : Nat) (data : List Byte) (s : State) : (tugAll c typ data s).wr = s.wr :=
  (tugAll_only (ps := [.out, .host, .causes, .stats, .red]) (fun _ h => h) _ _ _ _ Only.rfl).same .wr (by decide)
@[simp] theorem tugAll_can (c : TugChan) (typ : Nat) (data : List Byte) (s : State) : (tugAll c typ data s).can = s.can :=
  (tugAll_only (ps := [.out, .host, .causes, .stats, .red]) (fun _ h => h) _ _ _ _ Only.rfl).same .can (by decide)
@[simp] theorem tugAll_leg (c : TugChan) (typ : Nat) (data : List Byte) (s : State) : (tugAll c typ data s).leg = s.leg :=
  (tugAll_only (ps := [.out, .host, .causes, .stats, .red]) (fun _ h => h) _ _ _ _ Only.rfl).same .leg (by decide)
@[simp] theorem tugAll_br (c : TugChan) (typ : Nat) (data : List Byte) (s : State) : (tugAll c typ data s).br = s.br :=
  (tugAll_only (ps := [.out, .host, .causes, .stats, .red]) (fun _ h => h) _ _ _ _ Only.rfl).same .br (by decide)
@[simp] theorem forwardCmd_pending (m : List Byte) (s : State) : (forwardCmd m s).pending = s.pending :=
  (forwardCmd_only (ps := [.out, .host, .causes, .stats, .red]) (fun _ h => h) _ _ Only.rfl).same .pending (by decide)
@[simp] theorem forwardCmd_freeIdx (m : List Byte) (s : State) : (forwardCmd m s).freeIdx = s.freeIdx :=
  (forwardCmd_only (ps := [.out, .host, .causes, .stats, .red]) (fun _ h => h) _ _ Only.rfl).same .freeIdx (by decide)
@[simp] theorem forwardCmd_node (m : List Byte) (s : State) : (forwardCmd m s).node = s.node :=
  (forwardCmd_only (ps := [.out, .host, .causes, .stats, .red]) (fun _ h => h) _ _ Only.rfl).same .node (by decide)
@[simp] theorem forwardCmd_pwr (m : List Byte) (s : State) : (forwardCmd m s).pwr = s.pwr :=
  (forwardCmd_only (ps := [.out, .host, .causes, .stats, .red]) (fun _ h => h) _ _ Only.rfl).same .pwr (by decide)
@[simp] theorem forwardCmd_boot (m : List Byte) (s : State) : (forwardCmd m s).boot = s.boot :=
  (forwardCmd_only (ps := [.out, .host, .causes, .stats, .red]) (fun _ h => h) _ _ Only.rfl).same .boot (by decide)
@[simp] theorem forwardCmd_tack (m : List Byte) (s : State) : (forwardCmd m s).tack = s.tack :=
  (forwardCmd_only (ps := [.out, .host, .causes, .stats, .red]) (fun _ h => h) _ _ Only.rfl).same .tack (by decide)
@[simp] theorem forwardCmd_sec (m : List Byte) (s : State) : (forwardCmd m s).sec = s.sec :=
  (forwardCmd_only (ps := [.out, .host, .causes, .stats, .red]) (fun _ h => h) _ _ Only.rfl).same .sec (by decide)
@[simp] theorem forwardCmd_mem (m : List Byte) (s : State) : (forwardCmd m s).mem = s.mem :=
  (forwardCmd_only (ps := [.out, .host, .causes, .stats, .red]) (fun _ h => h) _ _ Only.rfl).same .mem (by decide)
@[simp] theorem forwardCmd_log (m : List Byte) (s : State) : (forwardCmd m s).log = s.log :=
  (forwardCmd_only (ps := [.out, .host, .causes, .stats, .red]) (fun _ h => h) _ _ Only.rfl).same .log (by decide)
@[simp] theorem forwardCmd_hitch (m : List Byte) (s : State) : (forwardCmd m s).hitch = s.hitch :=
  (forwardCmd_only (ps := [.out, .host, .causes, .stats, .red]) (fun _ h => h) _ _ Only.rfl).same .hitch (by decide)
@[simp] theorem forwardCmd_time (m : List Byte) (s : State) : (forwardCmd m s).time = s.time :=
  (forwardCmd_only (ps := [.out, .host, .causes, .stats, .red]) (fun _ h => h) _ _ Only.rfl).same .time (by decide)
@[simp] theorem forwardCmd_sw (m : List Byte) (s : State) : (forwardCmd m s).sw = s.sw :=
  (forwardCmd_only (ps := [.out, .host, .causes, .stats, .red]) (fun _ h => h) _ _ Only.rfl).same .sw (by decide)
@[simp] theorem forwardCmd_macs (m : List Byte) (s : State) : (forwardCmd m s).macs = s.macs :=
  (forwardCmd_only (ps := [.out, .host, .causes, .stats, .red]) (fun _ h => h) _ _ Only.rfl).same .macs (by decide)
@[simp] theorem forwardCmd_rx (m : List Byte) (s : State) : (forwardCmd m s).rx = s.rx :=
  (forwardCmd_only (ps := [.out, .host, .causes, .stats, .red]) (fun _ h => h) _ _ Only.rfl).same .rx (by decide)
@[simp] theorem forwardCmd_tx (m : List Byte) (s : State) : (forwardCmd m s).tx = s.tx :=
  (forwardCmd_only (ps := [.out, .host, .causes, .stats, .red]) (fun _ h => h) _ _ Only.rfl).same .tx (by decide)
@[simp] theorem forwardCmd_stream (m : List Byte) (s : State) : (forwardCmd m s).stream = s.stream :=
  (forwardCmd_only (ps := [.out, .host, .causes, .stats, .red]) (fun _ h => h) _ _ Only.rfl).same .stream (by decide)
@[simp] theorem forwardCmd_ctl (m : List Byte) (s : State) : (forwardCmd m s).ctl = s.ctl :=
  (forwardCmd_only (ps := [.out, .host, .causes, .stats, .red]) (fun _ h => h) _ _ Only.rfl).same .ctl (by decide)
@[simp] theorem forwardCmd_retain (m : List Byte) (s : State) : (forwardCmd m s).retain = s.retain :=
  (forwardCmd_only (ps := [.out, .host, .causes, .stats, .red]) (fun _ h => h) _ _ Only.rfl).same .retain (by decide)
@[simp] theorem forwardCmd_wr (m : List Byte) (s : State) : (forwardCmd m s).wr = s.wr :=
  (forwardCmd_only (ps := [.out, .host, .causes, .stats, .red]) (fun _ h => h) _ _ Only.rfl).same .wr (by decide)
@[simp] theorem forwardCmd_can (m : List Byte) (s : State) : (forwardCmd m s).can = s.can :=
  (forwardCmd_only (ps := [.out, .host, .causes, .stats, .red]) (fun _ h => h) _ _ Only.rfl).same .can (by decide)
@[simp] theorem forwardCmd_leg (m : List Byte) (s : State) : (forwardCmd m s).leg = s.leg :=
  (forwardCmd_only (ps := [.out, .host, .causes, .stats, .red]) (fun _ h => h) _ _ Only.rfl).same .leg (by decide)
@[simp] theorem forwardCmd_br (m : List Byte) (s : State) : (forwardCmd m s).br = s.br :=
  (forwardCmd_only (ps := [.out, .host, .causes, .stats, .red]) (fun _ h => h) _ _ Only.rfl).same .br (by decide)
@[simp] theorem releaseFences_pending (s : State) : (releaseFences s).pending = s.pending :=
  (releaseFences_only (ps := [.out, .host, .mem, .causes, .stats]) (fun _ h => h) _ Only.rfl).same .pending (by decide)
@[simp] theorem releaseFences_freeIdx (s : State) : (releaseFences s).freeIdx = s.freeIdx :=
  (releaseFences_only (ps := [.out, .host, .mem, .causes, .stats]) (fun _ h => h) _ Only.rfl).same .freeIdx (by decide)
@[simp] theorem releaseFences_node (s : State) : (releaseFences s).node = s.node :=
  (releaseFences_only (ps := [.out, .host, .mem, .causes, .stats]) (fun _ h => h) _ Only.rfl).same .node (by decide)
@[simp] theorem releaseFences_pwr (s : State) : (releaseFences s).pwr = s.pwr :=
  (releaseFences_only (ps := [.out, .host, .mem, .causes, .stats]) (fun _ h => h) _ Only.rfl).same .pwr (by decide)
@[simp] theorem releaseFences_boot (s : State) : (releaseFences s).boot = s.boot :=
  (releaseFences_only (ps := [.out, .host, .mem, .causes, .stats]) (fun _ h => h) _ Only.rfl).same .boot (by decide)
@[simp] theorem releaseFences_tack (s : State) : (releaseFences s).tack = s.tack :=
  (releaseFences_only (ps := [.out, .host, .mem, .causes, .stats]) (fun _ h => h) _ Only.rfl).same .tack (by decide)
@[simp] theorem releaseFences_sec (s : State) : (releaseFences s).sec = s.sec :=
  (releaseFences_only (ps := [.out, .host, .mem, .causes, .stats]) (fun _ h => h) _ Only.rfl).same .sec (by decide)
@[simp] theorem releaseFences_log (s : State) : (releaseFences s).log = s.log :=
  (releaseFences_only (ps := [.out, .host, .mem, .causes, .stats]) (fun _ h => h) _ Only.rfl).same .log (by decide)
@[simp] theorem releaseFences_hitch (s : State) : (releaseFences s).hitch = s.hitch :=
  (releaseFences_only (ps := [.out, .host, .mem, .causes, .stats]) (fun _ h => h) _ Only.rfl).same .hitch (by decide)
@[simp] theorem releaseFences_time (s : State) : (releaseFences s).time = s.time :=
  (releaseFences_only (ps := [.out, .host, .mem, .causes, .stats]) (fun _ h => h) _ Only.rfl).same .time (by decide)
@[simp] theorem releaseFences_sw (s : State) : (releaseFences s).sw = s.sw :=
  (releaseFences_only (ps := [.out, .host, .mem, .causes, .stats]) (fun _ h => h) _ Only.rfl).same .sw (by decide)
@[simp] theorem releaseFences_macs (s : State) : (releaseFences s).macs = s.macs :=
  (releaseFences_only (ps := [.out, .host, .mem, .causes, .stats]) (fun _ h => h) _ Only.rfl).same .macs (by decide)
@[simp] theorem releaseFences_rx (s : State) : (releaseFences s).rx = s.rx :=
  (releaseFences_only (ps := [.out, .host, .mem, .causes, .stats]) (fun _ h => h) _ Only.rfl).same .rx (by decide)
@[simp] theorem releaseFences_tx (s : State) : (releaseFences s).tx = s.tx :=
  (releaseFences_only (ps := [.out, .host, .mem, .causes, .stats]) (fun _ h => h) _ Only.rfl).same .tx (by decide)
@[simp] theorem releaseFences_stream (s : State) : (releaseFences s).stream = s.stream :=
  (releaseFences_only (ps := [.out, .host, .mem, .causes, .stats]) (fun _ h => h) _ Only.rfl).same .stream (by decide)
@[simp] theorem releaseFences_ctl (s : State) : (releaseFences s).ctl = s.ctl :=
  (releaseFences_only (ps := [.out, .host, .mem, .causes, .stats]) (fun _ h => h) _ Only.rfl).same .ctl (by decide)
@[simp] theorem releaseFences_retain (s : State) : (releaseFences s).retain = s.retain :=
  (releaseFences_only (ps := [.out, .host, .mem, .causes, .stats]) (fun _ h => h) _ Only.rfl).same .retain (by decide)
@[simp] theorem releaseFences_red (s : State) : (releaseFences s).red = s.red :=
  (releaseFences_only (ps := [.out, .host, .mem, .causes, .stats]) (fun _ h => h) _ Only.rfl).same .red (by decide)
@[simp] theorem releaseFences_wr (s : State) : (releaseFences s).wr = s.wr :=
  (releaseFences_only (ps := [.out, .host, .mem, .causes, .stats]) (fun _ h => h) _ Only.rfl).same .wr (by decide)
@[simp] theorem releaseFences_can (s : State) : (releaseFences s).can = s.can :=
  (releaseFences_only (ps := [.out, .host, .mem, .causes, .stats]) (fun _ h => h) _ Only.rfl).same .can (by decide)
@[simp] theorem releaseFences_leg (s : State) : (releaseFences s).leg = s.leg :=
  (releaseFences_only (ps := [.out, .host, .mem, .causes, .stats]) (fun _ h => h) _ Only.rfl).same .leg (by decide)
@[simp] theorem releaseFences_br (s : State) : (releaseFences s).br = s.br :=
  (releaseFences_only (ps := [.out, .host, .mem, .causes, .stats]) (fun _ h => h) _ Only.rfl).same .br (by decide)
end Sys2Proof.Machine
end

