-- ==== Sys2Proof/WellFormed.lean ====
section
/-! DEFINITION. Well-formed commands: each operand names something the chip has. The machine itself is total; a command that is not well-formed is
one that no environment of the chip can send. -/
namespace Sys2Proof

/-- A mailbox, 0 to 15 (R565). -/
def okMbx (m : Nat) : Bool := decide (m < 16)
/-- A place in a batch, 0 to 31 (R578, R643). -/
def okIdx (i : Nat) : Bool := decide (i < 32)
/-- An external port, 0 to 14 (R165). -/
def okPort (p : Nat) : Bool := decide (p < 15)
/-- A backbone port, 0 to 3 (R165). -/
def okBackbone (p : Nat) : Bool := decide (p < 4)
/-- An RX or TX ring, 0 to 7 (R246). -/
def okRing (r : Nat) : Bool := decide (r < 8)
/-- A traffic class, 0 to 7. -/
def okClass (c : Nat) : Bool := decide (c < 8)
/-- A train time domain: 0 primary, 1 secondary (R112). -/
def okDom (d : Nat) : Bool := decide (d < 2)
/-- A CAN channel, 0 to 7 (R446). -/
def okCh (c : Nat) : Bool := decide (c < 8)
/-- A CAN buffer, 0 to 127 (R446). -/
def okBuf (b : Nat) : Bool := decide (b < 128)
/-- A legacy unit: 0 and 1 MVB, 2 WTB (R474). -/
def okUnit (u : Nat) : Bool := decide (u < 3)
/-- An MVB unit. -/
def okMvb (u : Nat) : Bool := decide (u < 2)
/-- A tug link, 0 or 1 (R406). -/
def okLink (l : Nat) : Bool := decide (l < 2)
/-- A task, 0 to 63 (R643). -/
def okTask (t : Nat) : Bool := decide (t < 64)
/-- A control pair, 0 to 3. -/
def okPair (p : Nat) : Bool := decide (p < 4)
/-- A stream context, 0 to 2,047 (R643). -/
def okCtx (c : Nat) : Bool := decide (c < 2048)
/-- A Saddlebag session, 0 to 255 (R643). -/
def okSession (n : Nat) : Bool := decide (n < 256)
/-- An MSI-X vector, 0 to 31 (R588). -/
def okVec (v : Nat) : Bool := decide (v < 32)

/-- An ACS command: its mailbox, its place, an argument that a request buffer holds (R570, R577). -/
def Acs.wf (c : Acs) : Bool := okMbx c.mbx && okIdx c.idx && decide (c.args.length ≤ 4080)

/-- A frame: a tag's fields and the Ethertype in their widths. -/
def Frame.wf (f : Frame) : Bool :=
  (match f.vlan with | some v => decide (v.pcp < 8) && decide (v.vid < 4096) | none => true) && decide (f.etype < 65536)

/-- A stamp's fraction, in sixteenths (R114). -/
def Stamp.wf (t : Stamp) : Bool := decide (t.tick < 2 ^ 64) && decide (t.frac < 16)

/-- A CAN frame: identifier, DLC and data length agree (R449). -/
def CanFrame.wf (f : CanFrame) : Bool := decide (f.id < 2 ^ 29) && decide (f.dlc < 16) && decide (f.data.length ≤ 64)

/-- A tug frame of a link. -/
def TugRx.wf (m : TugRx) : Bool := okLink m.link && decide (m.seq < 65536) && decide (m.typ < 256)

/-- The well-formed commands. -/
def Instr.wf : Instr → Bool
  | .vbakApplied => true
  | .vbakLost => true
  | .resetRelease mode => decide (mode < 4)
  | .pgoodFall => true
  | .resetNLow => true
  | .railMonitorTrip => true
  | .rootPllUnlock => true
  | .groomLockstepMismatch => true
  | .groomParityError => true
  | .groomWatchdogExpiry => true
  | .thermalThreshold sensor _ => decide (sensor < 256)
  | .thermalRecovery => true
  | .firmwareLoadDone => true
  | .dlLoad _ _ => true
  | .recoveryScan _ => true
  | .wholeRegionScanDone _ => true
  | .tackSelect _ => true
  | .heldFlashPoll _ => true
  | .tackStage c => c.wf
  | .tackValidate c => c.wf
  | .tackCommit c => c.wf
  | .tackCommitActivate _ => true
  | .tackRead c => c.wf
  | .tackStatus c => c.wf
  | .secStatus c => c.wf
  | .secChallenge c => c.wf
  | .secAuthorise c => c.wf
  | .secKeyInstall c => c.wf
  | .secKeyRevoke c => c.wf
  | .secAdvance c => c.wf
  | .secLock c => c.wf
  | .secDebugUnlock c => c.wf
  | .secFwWrite c => c.wf
  | .secFwSelect c => c.wf
  | .stableIdleExpiry => true
  | .stabledEntryDone => true
  | .wakeInEdge => true
  | .wakeAlarmExpiry => true
  | .wakeOutPulseEnd => true
  | .bypassAnnounceExpiry => true
  | .bypassSettleExpiry => true
  | .batchSubmit m _ _ => okMbx m
  | .batchAbort m => okMbx m
  | .batchComplete m => okMbx m
  | .mbxRequestWrite m off data => okMbx m && decide (off + data.length ≤ 4096)
  | .causeClear _ _ => true
  | .msixVectorUnmask v => okVec v
  | .registerWrite _ _ => true
  | .unsupportedAccess => true
  | .hostWatchWrite _ => true
  | .hostWatchExpiry => true
  | .pcieReset kind => decide (kind < 4)
  | .pcieLinkUp _ _ => true
  | .pcieDmaError _ ring _ _ _ => okRing ring
  | .qspiWrite _ _ => true
  | .qspiWriteQuad _ _ => true
  | .qspiRead _ _ _ => true
  | .qspiReadQuad _ _ _ => true
  | .qspiStatus => true
  | .statCounterRead _ => true
  | .satMapRead _ => true
  | .snapFcLoRead => true
  | .ppsinStatRead => true
  | .txtsPop => true
  | .sysIdentify c => c.wf
  | .sysState c => c.wf
  | .sysFence c => c.wf
  | .sysRestart c => c.wf
  | .sysStable c => c.wf
  | .ringEnable _ ring _ => okRing ring
  | .ringDisable _ ring => okRing ring
  | .ringTailWrite _ ring _ => okRing ring
  | .txFrameFetched ring _ _ => okRing ring
  | .txFenceRelease ring => okRing ring
  | .rxRingDeliver ring _ _ => okRing ring
  | .rxHoldExpiry ring => okRing ring
  | .ringIrqDelayExpiry _ ring => okRing ring
  | .linkUp port _ => okPort port
  | .linkDown port _ => okPort port
  | .linkDebounceExpiry port => okPort port
  | .frameReceive port rx => okPort port && rx.frame.wf && rx.stamp.wf
  | .frameTransmitDone port cls stamp _ => okPort port && okClass cls && stamp.wf
  | .cellParityError port cls _ _ => decide (port < 16) && okClass cls
  | .frerHoldExpiry ctx _ => okCtx ctx
  | .frerResetTimerExpiry ctx => okCtx ctx
  | .frerLatentPeriodEnd ctx => okCtx ctx
  | .addressAgeOut _ _ => true
  | .gateEvent port _ => okPort port
  | .gateConfigChange port => okPort port
  | .launchTimeReached _ _ _ => true
  | .pauseFrameReceive port _ _ => okPort port
  | .pauseExpiry port => okPort port
  | .pauseWatchdog port => okPort port
  | .pauseHoldoffExpiry port => okPort port
  | .pauseRefresh port => okPort port
  | .verifyFrameReceive port => okPort port
  | .respondFrameReceive port => okPort port
  | .verifyTimeExpiry port => okPort port
  | .mkaFrameReceive port _ => okBackbone port
  | .mkaHelloTimer port => okBackbone port
  | .mkaLifetimeExpiry port => okBackbone port
  | .sakRekeyTimer port => okBackbone port
  | .tableReloadDone _ port _ => decide (port < 16)
  | .portFdbRead c => c.wf
  | .portFdbWrite c => c.wf
  | .portFdbFlush c => c.wf
  | .portVlanSet c => c.wf
  | .portGateSet c => c.wf
  | .portGateStatus c => c.wf
  | .portQuotaSet c => c.wf
  | .portPsfpSet c => c.wf
  | .portFrerStatus c => c.wf
  | .portMacsecStatus c => c.wf
  | .portForward c => c.wf
  | .portMacStatus c => c.wf
  | .portMacSet c => c.wf
  | .portWakeSet c => c.wf
  | .portWakeRead c => c.wf
  | .syncReceive dom _ _ => okDom dom
  | .syncTimeout dom => okDom dom
  | .announceReceive dom _ _ => okDom dom
  | .announceTimeout dom port _ _ => okDom dom && okPort port
  | .pdelayMessageReceive port _ _ => okPort port
  | .syncIntervalTick dom ports => okDom dom && ports.all okPort
  | .backupCounterWrite => true
  | .ppsOutPulse => true
  | .ppsInEdge stamp _ => stamp.wf
  | .syncOutPulse => true
  | .syncInEdge stamp _ => stamp.wf
  | .syncPulseTimeout => true
  | .timeChangeEffective => true
  | .timeStatus c => c.wf
  | .timeSelect c => c.wf
  | .timeSet c => c.wf
  | .timeSetTimeout => true
  | .timeConvert c => c.wf
  | .timeLinks c => c.wf
  | .timePps c => c.wf
  | .hitchBeat => true
  | .hitchFrameReceive port frame stamp => okBackbone port && frame.wf && stamp.wf
  | .hitchPropose => true
  | .hitchSwitch => true
  | .neighbourLossTimeout port => okBackbone port
  | .lineSettleExpiry dir => decide (1 ≤ dir) && decide (dir ≤ 2)
  | .hitchPendingExpiry => true
  | .bypassWindowExpiry => true
  | .ttdpHelloReceive port => okBackbone port
  | .ttdpHelloTimeout port => okBackbone port
  | .ttdpHelloSend => true
  | .inhibitInputChange gpio _ => decide (gpio < 24)
  | .hitchStatus c => c.wf
  | .hitchTopology c => c.wf
  | .hitchLinks c => c.wf
  | .hitchInhibit c => c.wf
  | .hitchRequest c => c.wf
  | .hitchRequestTimeout mbx idx => okMbx mbx && okIdx idx
  | .hitchWait c => c.wf
  | .hitchWaitTimeout mbx idx => okMbx mbx && okIdx idx
  | .streamSnapshot ctx _ => okCtx ctx
  | .streamFrameReceive ctx port frame stamp _ => okCtx ctx && okPort port && frame.wf && stamp.wf
  | .freshTimeoutExpiry ctx => okCtx ctx
  | .holdPeriodsExpiry ctx => okCtx ctx
  | .switchGraceExpiry => true
  | .ctxReload ctx => okCtx ctx
  | .streamStatus c => c.wf
  | .streamRead c => c.wf
  | .streamPut c => c.wf
  | .streamGet c => c.wf
  | .streamLine c => c.wf
  | .streamEnable c => c.wf
  | .latch task _ _ => okTask task
  | .taskExecutionEnd task _ _ _ => okTask task
  | .commit task _ _ => okTask task
  | .controlLockstepMismatch pair => okPair pair
  | .pairResyncDone pair => okPair pair
  | .memoryParityError _ task _ => okTask task
  | .pageReloadDone task _ => okTask task
  | .fwPage _ _ _ => true
  | .retainWriteDone task _ _ => okTask task
  | .startWaitExpiry => true
  | .controlStart => true
  | .taskList c => c.wf
  | .taskStart c => c.wf
  | .taskStop c => c.wf
  | .taskResume c => c.wf
  | .taskSwap c => c.wf
  | .taskStage c => c.wf
  | .forceSet c => c.wf
  | .forceRelease c => c.wf
  | .forceList c => c.wf
  | .forceReleaseAll c => c.wf
  | .scheduledRound _ _ => true
  | .reportReceive f => f.wf
  | .verdictReceive f => f.wf
  | .wranglerFreeze => true
  | .placementComputed => true
  | .placementApply => true
  | .roundDisagreeCheck => true
  | .dwellExpiry _ => true
  | .stateReceive f => f.wf
  | .ackReceive f => f.wf
  | .releaseReceive f => f.wf
  | .takenReceive f => f.wf
  | .abortReceive f => f.wf
  | .migrateAbort task => okTask task
  | .wranglerStatus c => c.wf
  | .wranglerPlacement c => c.wf
  | .wranglerHold c => c.wf
  | .tugHelloReceive link _ => okLink link
  | .tugHelloSend => true
  | .heartbeatSend => true
  | .heartbeatReceive link _ => okLink link
  | .tugLinkDown link _ => okLink link
  | .tug1Handback => true
  | .timingReceive link stamp _ => okLink link && stamp.wf
  | .nakReceive link _ => okLink link
  | .tugReplayTimeout link => okLink link
  | .tugFrameError link _ => okLink link
  | .tugSyncMessage m => m.wf
  | .safeNodeEvent m => m.wf
  | .statePartReceive m => m.wf
  | .stateEndReceive m => m.wf
  | .agreeInputReceive m => m.wf
  | .agreeTimeout task => okTask task
  | .agreeOutputReceive m => m.wf
  | .voteTimeout task => okTask task
  | .frameSegmentReceive m => m.wf
  | .mgmtCommandReceive m => m.wf
  | .mgmtResponseReceive m => m.wf
  | .nodeWideApply => true
  | .nodeWideTimeout => true
  | .peerClaimChange pin _ => decide (pin < 2)
  | .claimWaitExpiry => true
  | .claimWireTimeout => true
  | .rejoinMembership => true
  | .redundStatus c => c.wf
  | .redundTug c => c.wf
  | .redundSwitch c => c.wf
  | .redundSwitchInstant => true
  | .redundExclude c => c.wf
  | .redundRejoin c => c.wf
  | .canFrameReceive ch f _ _ => okCh ch && f.wf
  | .canTxSuccess ch => okCh ch
  | .canArbitrationLost ch => okCh ch
  | .canErrorDetected ch _ kind _ _ _ _ => okCh ch && decide (1 ≤ kind) && decide (kind < 8)
  | .busOffRecovered ch => okCh ch
  | .canIntegrationDone ch => okCh ch
  | .canWakeActivity ch => okCh ch
  | .canBufferWord0Read buf _ => okBuf buf
  | .canBufferWord17Read buf => okBuf buf
  | .canFifoHeadWord0Read _ => true
  | .canFifoHeadWord17Read => true
  | .canWriteRxEmpty buf => okBuf buf
  | .canWriteTxPending buf _ => okBuf buf
  | .canWriteTxIdle buf _ => okBuf buf
  | .canCancelBuffer ch buf => okCh ch && okBuf buf
  | .canCancelAll ch => okCh ch
  | .canConfigReloadDone ch => okCh ch
  | .canConfig c => c.wf
  | .canConfigRead c => c.wf
  | .mvbBasicPeriod unit _ _ => okMvb unit
  | .mvbMasterFrameReceive unit _ _ _ => okMvb unit
  | .mvbSlaveFrameReceive unit _ _ _ _ => okMvb unit
  | .mvbReplyTimeout unit _ => okMvb unit
  | .baSilenceExpiry unit => okMvb unit
  | .mastershipTurnEnd unit => okMvb unit
  | .lineDisturbRestore unit _ => okUnit unit
  | .wtbFrameReceive _ _ _ => true
  | .wtbInaugurated _ _ _ _ _ => true
  | .legacyReloadDone unit => okUnit unit
  | .legacyStatus c => c.wf
  | .legacyPortRead c => c.wf
  | .legacyPortWrite c => c.wf
  | .legacyComposition c => c.wf
  | .legacyMsgSend c => c.wf
  | .legacyMsgRecv c => c.wf
  | .tunnelReceive f _ => f.wf
  | .readReqReceive f _ => f.wf
  | .readRspReceive f _ => f.wf
  | .tugReqSegmentReceive m => m.wf
  | .tugRspSegmentReceive m => m.wf
  | .exportHoldExpiry session => okSession session
  | .tunAged session => okSession session
  | .readResend _ => true
  | .readTimeout _ => true
  | .responderRequestExpiry _ _ _ => true
  | .sessionReloadDone session => okSession session
  | .bridgeStatus c => c.wf
  | .bridgeSession c => c.wf
  | .bridgeRead c => c.wf
  | .bridgeCollect c => c.wf
  | .recordCommitDone _ _ => true
  | .rateSummary _ => true
  | .witnessRepeat => true
  | .witnessReceive _ _ _ => true
  | .scrubPass _ _ _ => true
  | .logRead c _ => c.wf
  | .logWrite c => c.wf
  | .logStatus c => c.wf
  | .logClear c => c.wf
  | .logMedia c _ => c.wf
  | .rootPllLock => true
  | .railRecovery => true
  | .ppsOutPulseEnd => true
  | .syncOutPulseEnd => true
  | .slewTermReturnsTo0 => true
  | .tugTimingSend link stamp => okLink link && stamp.wf
  | .announceSend dom ports => okDom dom && ports.all okPort
  | .pdelayRequestSend port => okPort port
  | .ttdpInaugurationTimer _ => true
  | .canStartOfFrame ch _ => okCh ch
  | .wtbIndividualPeriod => true
  | .wakeInInactiveEdge => true
  | .busMasteringChange _ => true

end Sys2Proof
end

