-- ==== Sys2Proof/Tests/Slice0.lean ====
section
/-! SUPPORT. Tests of the model: states and operands that meet the statements' hypotheses, ill-formed commands that WellFormed refuses, small runs of
single commands. -/
set_option Elab.async false
namespace Sys2Proof.Tests
open Sys2Proof.Machine

/-! ## States -/

/-- A chip that runs in a state, its firmware started, without an active tack image. -/
def tIn (st : NodeState) : State :=
  { State.reset with
    node := { State.reset.node with state := st, prev := .boot, bypassA := .high, bypassB := .high, bootFrom := none }
    pwr := { State.reset.pwr with pllLocked := true }
    boot := { State.reset.boot with fwRunning := true } }

/-- A tack image of these parameters and sections. -/
def tTack (ps : List Param) (xs : List Section) : Tack := { params := ps, sections := xs }

/-- The same state with an active image. -/
def tWith (ps : List Param) (xs : List Section) (s : State) : State := { s with tack := { s.tack with active := some (tTack ps xs) } }

/-- A command of mailbox 0 with these arguments, outside a batch. -/
def tAcs (args : List Byte) : Acs := { mbx := 0, idx := 0, flags := 0, tag := 0, gen := 0, rsvd := 0, args := args }

/-- A slot of a batch with an opcode and no arguments. -/
def tSlot (op : Nat) : Slot := { opcode := op, flags := 0, tag := 7, gen := 0, rsvd := 0, args := [], fits := true, phase := .waiting }

/-- The same state with a batch of one command in mailbox 0. -/
def tBusy (op : Nat) (s : State) : State :=
  { s with host := s.host.setBox 0 (fun b => { b with busy := true, accSeq := 9, slots := [tSlot op] }) }

/-- The same state with an authorisation of an opcode on mailbox 0. -/
def tAuth (op : Nat) (s : State) : State := { s with sec := { s.sec with auths := [{ mbx := 0, opcode := op, tick := s.now, key := 255 }] } }

/-- One parameter entry of a tack image, of at most 8 bytes. -/
def tEntry (id n v : Nat) : List Byte := le 2 id ++ le 2 0xFFFF ++ le 2 n ++ le 2 0 ++ le 8 v

/-- A section table entry. -/
def tSection (typ flags off : Nat) (content : List Byte) : List Byte :=
  le 2 typ ++ le 2 flags ++ le 4 off ++ le 4 content.length ++ wordBytes (crc32 content)

/-- The contents of a small image: NODE with a NID, CHIP with CHIP_INDEX 0, HITCH with CONSIST_ID, VEH_COUNT and VEH_INDEX (R57, R605 to R609). -/
def tNodePart : List Byte := tEntry 1 8 0x1234
def tChipPart : List Byte := tEntry 2 1 0
def tHitchPart : List Byte := tEntry 10 4 7 ++ tEntry 11 1 1 ++ tEntry 12 1 1

/-- A valid unsigned image of three sections and 296 bytes. -/
def tImage : List Byte :=
  le 4 0x5441434B ++ le 2 1 ++ le 2 3 ++ le 4 296 ++ le 2 1 ++ le 2 0 ++ le 8 99 ++ zeros 40
    ++ tSection 1 0 112 tNodePart ++ tSection 2 1 128 tChipPart ++ tSection 4 0 144 tHitchPart
    ++ tNodePart ++ tChipPart ++ tHitchPart ++ [0xFF] ++ zeros 103

/-- A Wrangler message of node 9 in placement domain 5. -/
def tMsg (msg : Nat) (tail : List Byte) : List Byte := [byte msg, 0, 0, 1] ++ be 4 5 ++ zeros 16 ++ tail

/-- The frame that carries it under generation 7. -/
def tWr (msg : Nat) (tail : List Byte) : Frame :=
  { da := 5, sa := 6, vlan := none, rtag := none, etype := 0x88B5
    payload := [1, 0, 0xFF, 0x10] ++ be 8 9 ++ be 4 7 ++ [0, 0] ++ be 2 (24 + tail.length) ++ zeros 12 ++ tMsg msg tail }

/-- A node of placement domain 5 in RUN under generation 7, with this state of Wrangler and these tasks. -/
def tDomain (w : Wrangler) (ts : Store Task) : State :=
  tWith [{ sec := 0x12, id := 1, index := 0xFFFF, val := [5] }, { sec := 0x0D, id := 1, index := 0xFFFF, val := [0xB5, 0x88] }] []
    { tIn .run with hitch := { State.reset.hitch with gen := 7 }, ctl := { State.reset.ctl with tasks := ts }, wr := w }

/-- A chip in RUN of a node of this form, with this state of its links and roles. -/
def tForm (f : Form) (r : Redund) : State := { tIn .run with node := { (tIn .run).node with form := f }, red := r }

/-- Both tug links up. -/
def tUp : List TugLink := [{ up := true }, { up := true }]

/-- A tug frame with the first SEQ of a link. -/
def tRx (link typ : Nat) (data : List Byte) : TugRx := { link := link, seq := 1, ack := none, credit := none, typ := typ, data := data }

/-- A node in RUN whose buffer 0 of CAN channel 0 is of a kind and owned by the host, with this channel 0. -/
def tCan (kind : Nat) (c : CanChan) : State :=
  { tWith [] [{ typ := 0x14, flags := 0, off := 0, len := 0, crc := 0, content := zeros 40 ++ [byte kind, 0] ++ zeros 2 }] (tIn .run) with
    can := { State.reset.can with chans := c :: List.replicate 7 {} } }

/-- A data frame of 1 byte on a CAN bus. -/
def tCanFrame : CanFrame := { id := 5, ide := false, rtr := false, fdf := false, brs := false, esi := false, dlc := 1, data := [7] }

/-- A Saddlebag header to the node of NID 0, of one item. -/
def tSb (kind flags src srcF dstF seq : Nat) : SbHdr :=
  { kind := kind, flags := flags, items := 1, src := BitVec.ofNat 64 src, dst := 0, srcF := srcF, dstF := dstF, gen := 0, seq := seq, chip := 0 }

/-- The frame that carries it. -/
def tFrame (h : SbHdr) (body : List Byte) : Frame := { da := 5, sa := 6, vlan := none, rtag := none, etype := 0x88B5, payload := h.bytes ++ body }

/-- A CAN session with node 9, exporting and importing. -/
def tSess : Session := { record := [0, 1, 0, 3, 5, 0, 0x20, 0xFF] ++ zeros 24, enabled := true, remote := some 9 }

/-- A node in a state that runs or serves, with this session 0. -/
def tBridge (st : NodeState) (x : Session) : State := { tIn st with br := { sessions := [(0, x)] } }

/-- An open read of node 9. -/
def tRead : OpenRead := { reqId := 7, dst := 9, space := 1, vol := false, wait := none, flags := 0, body := zeros 24, ms := 20 }

/-- A parameter of a legacy unit. -/
def tLegParam (id u : Nat) (val : List Byte) : Param := { sec := 0x15, id := id, index := u, val := val }

/-- A node in RUN whose unit u has this role, device address 5 and one port at address 7 of a kind, with these units. -/
def tLeg (u role kind : Nat) (xs : List LegUnit) : State :=
  { tWith [tLegParam 1 u [byte role], tLegParam 7 u [byte role], tLegParam 2 u [5, 0]]
      [{ typ := 0x16, flags := 256 * u, off := 0, len := 0, crc := 0, content := [7, 0, byte kind, 1, 0, 0, 0, 0] }] (tIn .run) with
    leg := { units := xs } }

/-! ## Witnesses: for every statement with hypotheses, a state and operands that meet them all -/

theorem witness_EmptyQueueStepIsTick_1 : ∃ (s : State), s.pending = [] :=
  ⟨State.reset, by decide⟩
theorem witness_StepKeepsInv_1 : ∃ s t : State, Inv s ∧ step s = .next t := ⟨State.reset, State.reset, by constructor <;> decide, rfl⟩
theorem witness_StepKeepsProtection_1 : ∃ s t : State, step s = .next t := ⟨State.reset, State.reset, rfl⟩
theorem witness_RailLossLeavesTheTrain_1 : ∃ (s : State), s.node.state ≠ .off ∧ s.node.state ≠ .backup :=
  ⟨tIn .run, by decide⟩
theorem witness_RailLossLeavesTheTrain_2 : ∃ (s : State), s.node.state ≠ .off ∧ s.node.state ≠ .backup ∧ s.pwr.main = true :=
  ⟨tIn .held, by decide⟩
theorem witness_RailLossLeavesTheTrain_3 : ∃ (s : State) (sensor : Nat) (temp : Int), s.alive = true ∧ 125 ≤ temp :=
  ⟨tIn .safe, 0, 125, by decide⟩
theorem witness_FailedChecksEnterBoot_1 : ∃ (s : State), s.alive = true :=
  ⟨tIn .run, by decide⟩
theorem witness_FailedChecksEnterBoot_2 : ∃ (s : State), s.alive = true :=
  ⟨tIn .stabled, by decide⟩
theorem witness_FailedChecksEnterBoot_3 : ∃ (s : State), s.alive = true :=
  ⟨tIn .ready, by decide⟩
theorem witness_FailedChecksEnterBoot_4 : ∃ (s : State), s.alive = true :=
  ⟨tIn .degraded, by decide⟩
theorem witness_FailedChecksEnterBoot_5 : ∃ (s : State), s.alive = true ∧ s.boot.fwRunning = true :=
  ⟨tIn .held, by decide⟩
theorem witness_SupplyTransitions_1 : ∃ (s : State), s.pwr.vbak = false ∧ s.node.state = .off :=
  ⟨tIn .off, by decide⟩
theorem witness_SupplyTransitions_2 : ∃ (s : State), s.pwr.vbak = true ∧ s.node.state = .backup :=
  ⟨{ tIn .backup with pwr := { (tIn .backup).pwr with vbak := true } }, by decide⟩
theorem witness_SupplyTransitions_3 : ∃ (s : State) (mode : Nat), s.pwr.railTrip = false ∧ s.pwr.thermal = false
  ∧ ((s.node.state = .off ∨ s.node.state = .backup)) :=
  ⟨tIn .off, 3, by decide⟩
theorem witness_SupplyTransitions_4 : ∃ (s : State), s.pwr.railTrip = true ∧ s.pwr.main = true ∧ s.pwr.thermal = false :=
  ⟨{ tIn .off with pwr := { (tIn .off).pwr with railTrip := true } }, by decide⟩
theorem witness_ClockTemperatureFirmware_1 : ∃ (s : State), s.alive = true ∧ s.node.state = .boot ∧ s.pwr.pllLocked = false :=
  ⟨State.reset, by decide⟩
theorem witness_ClockTemperatureFirmware_2 : ∃ (s : State) (sensor : Nat) (temp : Int), s.alive = true ∧ temp < 125 :=
  ⟨tIn .run, 1, 124, by decide⟩
theorem witness_ClockTemperatureFirmware_4 : ∃ (addr : Nat) (source : Nat) (s : State), s.alive = true ∧ s.boot.fwRunning = true :=
  ⟨0, 0, tIn .run, by decide⟩
theorem witness_WakeInputs_1 : ∃ (s : State), s.alive = true ∧ s.node.state = .stabled :=
  ⟨tIn .stabled, by decide⟩
theorem witness_WakeInputs_3 : ∃ (s : State), s.pwr.alarmArmed = true ∧ s.node.state = .backup :=
  ⟨{ tIn .backup with pwr := { (tIn .backup).pwr with alarmArmed := true } }, by decide⟩
theorem witness_WakeInputs_4 : ∃ (s : State), s.pwr.wakeOut = .high :=
  ⟨{ tIn .ready with pwr := { (tIn .ready).pwr with wakeOut := .high } }, by decide⟩
theorem witness_StabledEntry_1 : ∃ (s : State), s.alive = true ∧ s.param 1 2 0xFFFF 0 ≠ 0 ∧ ((s.node.state = .ready ∨ s.node.state = .run))
  ∧ s.wakeActive = false ∧ s.noLatch = false ∧ s.node.removal = none :=
  ⟨tWith [{ sec := 1, id := 2, index := 0xFFFF, val := [60, 0] }] [] (tIn .ready), by decide⟩
theorem witness_StabledEntry_2 : ∃ (s : State), s.alive = true ∧ s.pwr.entering = true ∧ s.cyclesEnded = true ∧ s.node.bypassA ≠ .high
  ∧ s.node.bypassB ≠ .high ∧ ((s.node.state = .ready ∨ s.node.state = .run)) ∧ s.pwr.wakeKept = false :=
  ⟨{ tIn .run with node := { (tIn .run).node with bypassA := .low, bypassB := .low }, pwr := { (tIn .run).pwr with entering := true } }, by decide⟩
theorem witness_StabledEntry_3 : ∃ (c : Acs) (s : State), Accepts s c 0x0104 [.ready, .run] ∧ c.args.length = 0 ∧ s.node.form = .simplex
  ∧ s.tack.commitOn = false ∧ s.pwr.entering = false ∧ s.node.removal = none :=
  ⟨tAcs [], tIn .run, by decide⟩
theorem witness_RemovalEnds_1 : ∃ (s : State), s.alive = true ∧ s.node.removal = some .stable :=
  ⟨{ tIn .ready with node := { (tIn .ready).node with removal := some .stable } }, by decide⟩
theorem witness_RemovalEnds_2 : ∃ (s : State), s.alive = true ∧ ((s.node.removal = some .restart ∨ s.node.removal = some .commit)) :=
  ⟨{ tIn .ready with node := { (tIn .ready).node with removal := some .commit, startNext := 2 } }, by decide⟩
theorem witness_RemovalEnds_3 : ∃ (s : State), s.alive = true ∧ s.node.settling = true :=
  ⟨{ tIn .stabled with node := { (tIn .stabled).node with settling := true } }, by decide⟩
theorem witness_RemovalEnds_4 : ∃ (c : Acs) (s : State), Accepts s c 0x0103 anyState ∧ c.args.length = 4 ∧ c.arg 0 1 ≤ 3 ∧ c.nonZero 1 3 = false
  ∧ s.node.state.inLine = true :=
  ⟨tAcs [1, 0, 0, 0], tIn .safe, by decide⟩
theorem witness_RemovalEnds_5 : ∃ (c : Acs) (s : State), Accepts s c 0x0103 anyState ∧ c.args.length = 4 ∧ c.arg 0 1 ≤ 3 ∧ c.nonZero 1 3 = false
  ∧ s.node.state.inLine = false :=
  ⟨tAcs [3, 0, 0, 0], tIn .held, by decide⟩
theorem witness_AcsChecksInOrder_1 : ∃ (i : Instr) (s : State) (op : Nat) (states : States) (len : Option Nat) (c : Acs), acsRow i = some (op, states, len, c) ∧ s.alive = true ∧ s.mayStart c op = true := ⟨.sysIdentify (tAcs []), tIn .run, 0x0100, anyState, some 0, tAcs [], by decide⟩
theorem witness_AcsCompletionWritesResponse_1 : ∃ (c : Acs) (op : Nat) (x : Slot) (s : State), Inv s ∧ c.mbx < 16 ∧ (s.host.box c.mbx).busy = true ∧ (s.host.box c.mbx).discard = false ∧ s.slot? c.mbx c.idx = some x ∧ x.phase ≠ .done ∧ x.opcode = op := ⟨tAcs [], 0x0100, tSlot 0x0100, tBusy 0x0100 (tIn .run), by constructor <;> decide, by decide, by decide, by decide, by decide, by decide, by decide⟩
theorem witness_SystemQueries_1 : ∃ (c : Acs) (s : State), Accepts s c 0x0100 anyState ∧ c.args.length = 0 :=
  ⟨tAcs [], tIn .boot, by decide⟩
theorem witness_SystemQueries_2 : ∃ (c : Acs) (s : State), Accepts s c 0x0101 anyState ∧ c.args.length = 0 :=
  ⟨tAcs [], tIn .stabled, by decide⟩
theorem witness_SystemQueries_3 : ∃ (c : Acs) (s : State), Accepts s c 0x0102 anyState ∧ c.args = [0, 0, 0, 0] ∧ s.host.fences = [] :=
  ⟨tAcs [0, 0, 0, 0], tIn .run, by decide⟩
theorem witness_FirmwareStart_1 : ∃ (s : State), s.alive = true ∧ s.node.state = .boot ∧ s.pwr.pllLocked = true ∧ s.boot.fwRunning = false
  ∧ s.boot.mode ≠ 2 ∧ s.boot.preferB = false :=
  ⟨{ State.reset with pwr := { State.reset.pwr with pllLocked := true } }, by decide⟩
theorem witness_FirmwareStart_2 : ∃ (s : State), s.alive = true ∧ s.node.state = .boot ∧ s.pwr.pllLocked = true ∧ s.boot.fwRunning = false
  ∧ s.boot.mode ≠ 2 ∧ s.boot.preferB = true :=
  ⟨{ State.reset with pwr := { State.reset.pwr with pllLocked := true }, boot := { State.reset.boot with preferB := true } }, by decide⟩
theorem witness_FirmwareStart_3 : ∃ (image : List Byte) (s : State), s.alive = true ∧ s.host.pcieUp = true ∧ s.host.master = true
  ∧ s.boot.fwRunning = false ∧ ((s.boot.mode = 1 ∨ s.boot.mode = 2)) ∧ s.node.state = .boot :=
  ⟨[], { State.reset with boot := { State.reset.boot with mode := 1 }, host := { State.reset.host with pcieUp := true, master := true } }, by decide⟩
theorem witness_TackSelection_1 : ∃ (ms : Nat) (s : State), s.logs = true ∧ s.node.state = .boot ∧ s.tack.rec0 = none ∧ s.tack.rec1 = none
  ∧ flashImage s.tack.flash = none :=
  ⟨5, tIn .boot, by decide⟩
theorem witness_TackSelection_2 : ∃ (b : List Byte) (s : State), s.logs = true ∧ s.node.state = .boot ∧ s.tack.rec0 = none ∧ s.tack.rec1 = none ∧ flashImage s.tack.flash = some b ∧ validate s (imgLength b) b = none := ⟨tImage, { tIn .boot with tack := { State.reset.tack with flash := tImage } }, by decide +kernel⟩
theorem witness_TackSelection_3 : ∃ (image : List Byte) (s : State), s.logs = true ∧ s.node.state = .held ∧ s.tack.commitOn = false
  ∧ flashImage image = none :=
  ⟨[1, 2, 3], tIn .held, by decide⟩
theorem witness_TackSelection_4 : ∃ (image b : List Byte) (s : State), s.logs = true ∧ s.node.state = .held ∧ s.tack.commitOn = false ∧ flashImage image = some b ∧ s.tack.failed = [] ∧ validate s (imgLength b) b = none := ⟨tImage, tImage, tIn .held, by decide +kernel⟩
theorem witness_TackStaging_1 : ∃ (c : Acs) (s : State), Accepts s c 0x0200 inServing ∧ 9 ≤ c.args.length ∧ c.args.length ≤ 4072 ∧ 0 < c.arg 4 4
  ∧ c.arg 4 4 ≤ 16777216 ∧ c.arg 0 4 + (c.args.length - 8) ≤ c.arg 4 4 ∧ ((c.arg 0 4 = 0 ∨ (c.arg 0 4 = s.tack.staged ∧ c.arg 4 4 = s.tack.total)))
  ∧ s.tack.commitOn = false :=
  ⟨tAcs [0, 0, 0, 0, 2, 0, 0, 0, 7], tIn .held, by decide⟩
theorem witness_TackStaging_2 : ∃ (c : Acs) (s : State), Accepts s c 0x0201 inServing ∧ c.args.length = 0 ∧ s.tack.commitOn = false :=
  ⟨tAcs [], tIn .ready, by decide⟩
theorem witness_TackStaging_3 : ∃ (c : Acs) (s : State), Accepts s c 0x0203 inServing ∧ c.args.length = 12 ∧ c.arg 0 1 ≤ 1 ∧ c.nonZero 1 3 = false
  ∧ 0 < c.arg 8 4 ∧ c.arg 8 4 ≤ 4064 ∧ c.arg 4 4 + c.arg 8 4 ≤ 16777216 :=
  ⟨tAcs [1, 0, 0, 0, 0, 0, 0, 0, 8, 0, 0, 0], tIn .ready, by decide⟩
theorem witness_TackStaging_4 : ∃ (c : Acs) (s : State), Accepts s c 0x0204 inServing ∧ c.args.length = 0 :=
  ⟨tAcs [], tIn .held, by decide⟩
theorem witness_TackCommit_1 : ∃ (c : Acs) (s : State), Accepts s c 0x0202 inServing ∧ c.args.length = 4 ∧ c.arg 0 1 ≤ 3 ∧ c.nonZero 1 3 = false
  ∧ s.sec.jtagOpen = false ∧ s.tack.commitOn = false ∧ s.node.form = .simplex ∧ (commitCheck s).1 = none :=
  ⟨tAcs [1, 0, 0, 0], { tIn .ready with tack := { State.reset.tack with stage := .valid } }, by decide⟩
theorem witness_TackCommit_2 : ∃ (c : Acs) (s : State), Accepts s c 0x0202 inServing ∧ c.args.length = 4 ∧ c.arg 0 1 ≤ 3 ∧ c.nonZero 1 3 = false
  ∧ s.sec.jtagOpen = false ∧ s.tack.commitOn = false ∧ s.node.form = .simplex ∧ (commitCheck s).1 ≠ none :=
  ⟨tAcs [1, 0, 0, 0], tIn .ready, by decide⟩
theorem witness_TackCommit_3 : ∃ (s : State), s.alive = true ∧ s.tack.commitOn = true ∧ s.node.removal = none ∧ s.cyclesEnded = true
  ∧ s.ctl.tasks.any (fun e => e.2.writing.isSome) = false ∧ s.node.state.inLine = true :=
  ⟨{ tIn .ready with tack := { State.reset.tack with commitOn := true } }, by decide⟩
theorem witness_TackCommit_4 : ∃ (s : State), s.alive = true ∧ s.tack.commitOn = true ∧ s.node.removal = none ∧ s.cyclesEnded = true
  ∧ s.ctl.tasks.any (fun e => e.2.writing.isSome) = false ∧ s.node.state = .held :=
  ⟨{ tIn .held with tack := { State.reset.tack with commitOn := true } }, by decide⟩
theorem witness_ProtectionQueries_1 : ∃ (c : Acs) (s : State), Accepts s c 0x0F00 inServing ∧ c.args.length = 0 :=
  ⟨tAcs [], tIn .held, by decide⟩
theorem witness_ProtectionQueries_2 : ∃ (c : Acs) (s : State), Accepts s c 0x0F01 inServing ∧ c.args.length = 4 ∧ c.nonZero 2 2 = false
  ∧ s.challengeBusy = false :=
  ⟨tAcs [3, 15, 0, 0], tIn .held, by decide⟩
theorem witness_ProtectionQueries_3 : ∃ (c : Acs) (s : State), Accepts s c 0x0F02 inServing ∧ c.args.length = 100 ∧ permOf (c.arg 0 2) ≠ none
  ∧ c.nonZero 3 1 = false ∧ s.sec.secured = false :=
  ⟨tAcs ([0x03, 0x0F, 0xFF, 0] ++ zeros 96), tIn .held, by decide⟩
theorem witness_ProtectionQueries_4 : ∃ (c : Acs) (s : State), Accepts s c 0x0F02 inServing ∧ c.args.length = 100 ∧ permOf (c.arg 0 2) ≠ none
  ∧ c.nonZero 3 1 = false ∧ s.sec.secured = true ∧ s.authSigned (c.arg 0 2) (c.arg 2 1) (slice c.args 4 96) = false :=
  ⟨tAcs ([0x03, 0x0F, 0xFF, 0] ++ zeros 96), { tIn .held with sec := { State.reset.sec with secured := true } }, by decide⟩
theorem witness_ProtectionChanges_1 : ∃ (c : Acs) (s : State), Accepts s c 0x0F03 inServing ∧ c.args.length = 104 ∧ c.arg 0 1 ≤ 3 ∧ c.arg 1 1 ≤ 15
  ∧ c.nonZero 2 2 = false ∧ c.nonZero 101 3 = false ∧ s.authOk c.mbx 0x0F03 = false :=
  ⟨tAcs (zeros 104), tIn .held, by decide⟩
theorem witness_ProtectionChanges_2 : ∃ (c : Acs) (s : State), Accepts s c 0x0F03 inServing ∧ c.args.length = 104 ∧ c.arg 0 1 ≤ 3 ∧ c.arg 1 1 ≤ 15
  ∧ c.nonZero 2 2 = false ∧ c.nonZero 101 3 = false ∧ s.authOk c.mbx 0x0F03 = true :=
  ⟨tAcs (zeros 104), tAuth 0x0F03 (tIn .held), by decide⟩
theorem witness_ProtectionChanges_3 : ∃ (c : Acs) (s : State), Accepts s c 0x0F04 inServing ∧ c.args.length = 4 ∧ c.arg 0 1 ≤ 3
  ∧ c.nonZero 1 3 = false ∧ s.authOk c.mbx 0x0F04 = true ∧ s.sec.lastKeys (c.arg 0 1) = false :=
  ⟨tAcs [2, 0, 0, 0], tAuth 0x0F04 (tIn .held), by decide⟩
theorem witness_ProtectionChanges_4 : ∃ (c : Acs) (s : State), Accepts s c 0x0F04 inServing ∧ c.args.length = 4 ∧ 16 ≤ c.arg 0 1 ∧ c.arg 0 1 ≤ 19
  ∧ c.nonZero 1 3 = false ∧ s.authOk c.mbx 0x0F04 = true ∧ s.fwKeyNeeded (c.arg 0 1 - 16) = false :=
  ⟨tAcs [18, 0, 0, 0], tAuth 0x0F04 (tIn .held), by decide⟩
theorem witness_ProtectionChanges_5 : ∃ (c : Acs) (s : State), Accepts s c 0x0F05 inServing ∧ c.args.length = 4 ∧ c.arg 0 4 ≤ 3
  ∧ s.authOk c.mbx 0x0F05 = true :=
  ⟨tAcs [3, 0, 0, 0], tAuth 0x0F05 (tIn .held), by decide⟩
theorem witness_ProtectionChanges_6 : let key (s : State) (i : Nat) : Option OwnerKey := s.sec.key i
    ∃ (c : Acs) (s : State), Accepts s c 0x0F06
    [.held, .ready]
  ∧ c.args.length = 0 ∧ s.sec.secured = false ∧ s.authOk c.mbx 0x0F06 = true ∧ (∃ i, i < 4
  ∧ (key s i).any (fun k => k.has permTack && k.has permKeys) = true) :=
  ⟨tAcs [], tAuth 0x0F06 { tIn .held with sec := { State.reset.sec with key1 := some { key := [], perm := 9 } } }, by decide⟩
theorem witness_ProtectionChanges_7 : ∃ (c : Acs) (s : State), Accepts s c 0x0F07 [.held] ∧ c.args.length = 0 ∧ s.authOk c.mbx 0x0F07 = true :=
  ⟨tAcs [], tAuth 0x0F07 (tIn .held), by decide⟩
theorem witness_FirmwareSlots_1 : ∃ (c : Acs) (s : State), Accepts s c 0x0F08 inServing ∧ 17 ≤ c.args.length ∧ c.args.length ≤ 4080 ∧ c.arg 0 1 ≤ 1
  ∧ c.nonZero 1 3 = false ∧ c.nonZero 12 4 = false ∧ c.arg 8 4 ≤ 16777216 ∧ c.arg 4 4 + (c.args.length - 16) ≤ c.arg 8 4
  ∧ s.boot.runSlot ≠ c.arg 0 1 :=
  ⟨tAcs ([1, 0, 0, 0] ++ le 4 3 ++ le 4 8 ++ zeros 4 ++ [9, 9]), tIn .held, by decide⟩
theorem witness_FirmwareSlots_2 : ∃ (c : Acs) (s : State), Accepts s c 0x0F09 inServing ∧ c.args.length = 4 ∧ c.arg 0 1 ≤ 1 ∧ c.nonZero 1 3 = false
  ∧ s.authOk c.mbx 0x0F09 = true :=
  ⟨tAcs [1, 0, 0, 0], tAuth 0x0F09 (tIn .held), by decide⟩
theorem witness_HostBatches_1 : ∃ (m count : Nat) (slots : List Slot) (s : State), Inv s ∧ s.alive = true ∧ m < 16 ∧ 1 ≤ count ∧ count ≤ 32 ∧ (s.host.box m).busy = false ∧ parseBatch (Mem.readList s.mem (m * 0x2000) 4096) count 0 = some slots ∧ (∀ x ∈ slots, rspMax x.opcode ≠ none) := ⟨0, 1, [{ tSlot 0x0100 with tag := 0 }], { tIn .run with mem := [(1, 1)] }, by constructor <;> decide, by decide, by decide, by decide, by decide, by decide , by decide +kernel, by decide⟩
theorem witness_HostBatches_2 : ∃ (m : Nat) (count : Nat) (seq : Half) (s : State), Inv s ∧ s.alive = true ∧ m < 16 ∧ ((count = 0 ∨ 32 < count)) :=
  ⟨3, 33, 5, tIn .run, by
  refine ⟨by constructor <;> decide, by decide, by decide, by decide⟩⟩
theorem witness_HostBatches_3 : ∃ (m : Nat) (count : Nat) (seq : Half) (s : State), Inv s ∧ s.alive = true ∧ m < 16 ∧ 1 ≤ count ∧ count ≤ 32
  ∧ (s.host.box m).busy = true :=
  ⟨0, 1, 5, tBusy 0x0100 (tIn .run), by
  refine ⟨by constructor <;> decide, by decide, by decide, by decide, by decide, by decide⟩⟩
theorem witness_HostBatches_4 : ∃ (m : Nat) (s : State), Inv s ∧ s.alive = true ∧ m < 16 ∧ (s.host.box m).busy = true :=
  ⟨0, tBusy 0x0100 (tIn .run), by
  refine ⟨by constructor <;> decide, by decide, by decide, by decide⟩⟩
theorem witness_HostBatches_5 : ∃ (m : Nat) (s : State), Inv s ∧ s.alive = true ∧ m < 16 ∧ (s.host.box m).ended = true :=
  ⟨0, { tIn .run with host := (tIn .run).host.setBox 0 (fun b => { b with busy := true, accSeq := 9, slots := [{ tSlot 0x0100 with phase := .done }] }) }, by
  refine ⟨by constructor <;> decide, by decide, by decide, by decide⟩⟩
theorem witness_HostBatches_6 : ∃ (m : Nat) (off : Nat) (data : List Byte) (s : State), Inv s ∧ s.alive = true ∧ m < 16 ∧ off < 4096
  ∧ (s.host.box m).busy = false :=
  ⟨2, 4095, [7, 8], tIn .run, by
  refine ⟨by constructor <;> decide, by decide, by decide, by decide, by decide⟩⟩
theorem witness_HostBatches_7 : ∃ (m : Nat) (off : Nat) (data : List Byte) (s : State), Inv s ∧ s.alive = true ∧ m < 16 ∧ off < 4096 ∧ data ≠ []
  ∧ (s.host.box m).busy = true :=
  ⟨0, 0, [7], tBusy 0x0100 (tIn .run), by
  refine ⟨by constructor <;> decide, by decide, by decide, by decide, by decide, by decide⟩⟩
theorem witness_InterruptCauses_1 : ∃ (b : CauseBlk) (off : Nat) (value : Word) (s : State), Inv s ∧ s.alive = true ∧ off % 8 = 0
  ∧ causeAt off = some b :=
  ⟨.sys, 0x108, 1, { tIn .run with causes := [(0, { cause := 3, mask := 1 })] }, by
  refine ⟨by constructor <;> decide, by decide, by decide, by decide⟩⟩
theorem witness_InterruptCauses_2 : ∃ (v : Nat) (s : State), s.alive = true ∧ v < 32 :=
  ⟨24, { tIn .run with host := { State.reset.host with vecPend := 0x1000000 }, causes := [(0, { cause := 1, mask := 1 })] }, by decide⟩
theorem witness_InterruptCauses_3 : ∃ (s : State), s.alive = true :=
  ⟨tIn .run, by decide⟩
theorem witness_HostLinkAndWatchdog_1 : ∃ (value : Word) (s : State), s.alive = true :=
  ⟨0x80000064, tIn .run, by decide⟩
theorem witness_HostLinkAndWatchdog_2 : ∃ (s : State), Inv s ∧ s.alive = true ∧ s.host.armed = true :=
  ⟨{ tBusy 0x0100 (tIn .run) with host := { (tBusy 0x0100 (tIn .run)).host with armed := true } }, by
  refine ⟨by constructor <;> decide, by decide, by decide⟩⟩
theorem witness_HostLinkAndWatchdog_3 : ∃ (kind : Nat) (s : State), s.alive = true ∧ ((kind = 0 ∨ kind = 1 ∨ kind = 3)) ∧ s.host.pcieUp = true :=
  ⟨3, { tIn .run with host := { State.reset.host with pcieUp := true, master := true } }, by decide⟩
theorem witness_HostLinkAndWatchdog_4 : ∃ (speed : Nat) (width : Nat) (s : State), s.alive = true ∧ s.host.pcieUp = false ∧ 1 ≤ speed ∧ speed ≤ 3
  ∧ ((width = 1 ∨ width = 2)) :=
  ⟨3, 2, tIn .run, by decide⟩
theorem witness_HostLinkAndWatchdog_5 : ∃ (on : Bool) (s : State), s.alive = true ∧ s.host.pcieUp = true :=
  ⟨true, { tIn .run with host := { State.reset.host with pcieUp := true } }, by decide⟩
theorem witness_RegisterAccess_1 : ∃ (value : Word) (s : State), s.alive = true :=
  ⟨0x12345678, tIn .run, by decide⟩
theorem witness_RegisterAccess_2 : ∃ (off : Nat) (value : Word) (s : State), s.alive = true ∧ off < 0x100 ∧ off ≠ 0x24 ∧ off ≠ 0x38 :=
  ⟨0x10, 1, tIn .run, by decide⟩
theorem witness_RegisterAccess_3 : ∃ (b : CauseBlk) (off : Nat) (value : Word) (s : State), Inv s ∧ s.alive = true ∧ off < 0x200 ∧ off % 8 = 4
  ∧ causeAt off = some b :=
  ⟨.log, 0x16C, 0xFFFFFFFF, tIn .run, by
  refine ⟨by constructor <;> decide, by decide, by decide, by decide, by decide⟩⟩
theorem witness_RegisterAccess_4 : ∃ (data : List Byte) (s : State), s.alive = true ∧ data.length = 4 :=
  ⟨[1, 2, 3, 4], tIn .run, by decide⟩
theorem witness_RegisterAccess_5 : ∃ (data : List Byte) (s : State), s.alive = true ∧ data.length = 4 :=
  ⟨[1, 2, 3, 4], tIn .run, by decide⟩
theorem witness_RegisterAccess_6 : ∃ (addr : Nat) (s : State), s.alive = true ∧ addr < 0x100 ∧ addr % 4 = 0 :=
  ⟨0, tIn .run, by decide⟩
theorem witness_RegisterAccess_7 : ∃ (addr : Nat) (s : State), s.alive = true ∧ addr < 0x100 ∧ addr % 4 = 0 :=
  ⟨4, tIn .run, by decide⟩
theorem witness_RegisterAccess_8 : ∃ (s : State), s.alive = true :=
  ⟨{ tIn .run with host := { State.reset.host with qspiErr := true } }, by decide⟩
theorem witness_ReadSideEffects_1 : ∃ (off : Nat) (s : State), Inv s ∧ s.alive = true ∧ off % 4 = 0 ∧ 0x4000 ≤ off
  ∧ isCounter ((off - 0x4000) / 4) = true :=
  ⟨0x4004, { tIn .run with stats := { State.reset.stats with count := [(1, 5)] } }, by
  refine ⟨by constructor <;> decide, by decide, by decide, by decide, by decide⟩⟩
theorem witness_ReadSideEffects_2 : ∃ (off : Nat) (s : State), Inv s ∧ s.alive = true ∧ off % 4 = 0 ∧ 0x4000 ≤ off
  ∧ isSat ((off - 0x4000) / 4) = true :=
  ⟨0x40F8, { tIn .run with stats := { State.reset.stats with sat := [(1, true)] } }, by
  refine ⟨by constructor <;> decide, by decide, by decide, by decide, by decide⟩⟩
theorem witness_ReadSideEffects_3 : ∃ (s : State), s.alive = true :=
  ⟨tIn .run, by decide⟩
theorem witness_ReadSideEffects_4 : ∃ (s : State), s.alive = true :=
  ⟨tIn .run, by decide⟩
theorem witness_ReadSideEffects_5 : ∃ (e : TxTs) (rest : List TxTs) (s : State), Inv s ∧ s.alive = true ∧ s.time.txtsSel < 15
  ∧ (s.txq s.time.txtsSel).entries = e :: rest :=
  ⟨{ id := 5, tick := 99, frac := 3, late := false, fail := false, ovf := false }, [], { tIn .run with time := { State.reset.time with txts := State.reset.time.txts.set 0 { entries := [{ id := 5, tick := 99, frac := 3, late := false, fail := false, ovf := false }] } } }, by
  refine ⟨by constructor <;> decide, by decide, by decide, by decide⟩⟩
theorem witness_RingControl_1 : ∃ (tx : Bool) (ring : Nat) (value : Word) (s : State), Inv s ∧ s.alive = true ∧ ring < 8
  ∧ (s.ring tx ring).enable = false :=
  ⟨true, 3, 0, tIn .run, by
  refine ⟨by constructor <;> decide, by decide, by decide, by decide⟩⟩
theorem witness_RingControl_2 : ∃ (tx : Bool) (ring : Nat) (value : Word) (s : State), s.alive = true ∧ ring < 8 ∧ (s.ring tx ring).enable = true :=
  ⟨false, 0, 0, { tIn .run with rx := [{ State.reset.rxRing 0 with enable := true }] }, by decide⟩
theorem witness_RingControl_3 : ∃ (ring : Nat) (s : State), Inv s ∧ s.alive = true ∧ ring < 8 ∧ (s.rxRing ring).enable = true :=
  ⟨2, { tIn .run with rx := State.reset.rx.set 2 { State.reset.rxRing 0 with enable := true, tail := 5, head := 2 } }, by
  refine ⟨by constructor <;> decide, by decide, by decide, by decide⟩⟩
theorem witness_RingControl_4 : ∃ (ring : Nat) (s : State), Inv s ∧ s.alive = true ∧ ring < 8 ∧ (s.txRing ring).enable = true
  ∧ (s.txRing ring).fenced = none :=
  ⟨2, { tIn .run with tx := State.reset.tx.set 2 { State.reset.txRing 0 with enable := true, tail := 5, head := 2 } }, by
  refine ⟨by constructor <;> decide, by decide, by decide, by decide, by decide⟩⟩
theorem witness_RingControl_5 : ∃ (tx : Bool) (ring : Nat) (index : Nat) (s : State), Inv s ∧ s.alive = true ∧ ring < 8
  ∧ index < (s.ring tx ring).size :=
  ⟨true, 7, 63, tIn .run, by
  refine ⟨by constructor <;> decide, by decide, by decide, by decide⟩⟩
theorem witness_RingControl_6 : ∃ (tx : Bool) (ring : Nat) (index : Nat) (s : State), s.alive = true ∧ ring < 8 ∧ (s.ring tx ring).size ≤ index :=
  ⟨true, 7, 64, tIn .run, by decide⟩
theorem witness_RingControl_7 : ∃ (tx : Bool) (ring : Nat) (s : State), Inv s ∧ s.alive = true ∧ ring < 8 ∧ (s.ring tx ring).unsaid ≠ 0 :=
  ⟨false, 1, { tIn .run with rx := State.reset.rx.set 1 { State.reset.rxRing 0 with enable := true, unsaid := 2 } }, by
  refine ⟨by constructor <;> decide, by decide, by decide, by decide⟩⟩
theorem witness_RingControl_8 : ∃ (tx : Bool) (ring : Nat) (kind : Nat) (status : Word) (descs : List (List Byte)) (s : State), Inv s
  ∧ s.alive = true ∧ ring < 8 ∧ (s.ring tx ring).enable = true ∧ 1 ≤ kind ∧ kind ≤ 3 :=
  ⟨false, 1, 1, 5, [], { tIn .run with rx := State.reset.rx.set 1 { State.reset.rxRing 0 with enable := true, unsaid := 2 } }, by
  refine ⟨by constructor <;> decide, by decide, by decide, by decide, by decide, by decide⟩⟩
theorem witness_RingFrames_1 : ∃ (ring : Nat) (descs : List (List Byte)) (ds : List (List Byte)) (data : List Byte) (s : State), Inv s
  ∧ s.alive = true ∧ s.ringsRun = true ∧ ring < 8 ∧ frameDescs descs = some ds ∧ (s.txRing ring).enable = true ∧ (s.txRing ring).fenced = none
  ∧ (s.txRing ring).launch.length < 64 ∧ ds.length ≤ (s.txRing ring).posted ∧ s.txBad ds data = true :=
  ⟨1, [zeros 28 ++ le 4 0x60000000], [zeros 28 ++ le 4 0x60000000], [1, 2], { tIn .run with tx := State.reset.tx.set 1 { State.reset.txRing 0 with enable := true, tail := 5, head := 2 } , host := { State.reset.host with pcieUp := true, master := true } }, by
  refine ⟨by constructor <;> decide, by decide, by decide, by decide, by decide, by decide, by decide, by decide, by decide, by decide⟩⟩
theorem witness_RingFrames_2 : ∃ (ring : Nat) (descs : List (List Byte)) (ds : List (List Byte)) (data : List Byte) (s : State), Inv s
  ∧ s.alive = true ∧ s.ringsRun = true ∧ ring < 8 ∧ frameDescs descs = some ds ∧ (s.txRing ring).enable = true ∧ (s.txRing ring).fenced = none
  ∧ (s.txRing ring).launch.length < 64 ∧ ds.length ≤ (s.txRing ring).posted ∧ s.txBad ds data = false
  ∧ (settleUids s).fenceSet ring (ds.headD []) ≠ [] :=
  ⟨1, [zeros 8 ++ le 2 60 ++ zeros 18 ++ le 4 0x62000000], [zeros 8 ++ le 2 60 ++ zeros 18 ++ le 4 0x62000000], zeros 60, { tIn .run with tx := State.reset.tx.set 1 { State.reset.txRing 0 with enable := true, tail := 5, head := 2, pending := [9] } , sw := { State.reset.sw with queues := [(0, [{ (tIn .run).mkQ (frameOf (zeros 60)) .hitch with uid := 9 }])] } , host := { State.reset.host with pcieUp := true, master := true } }, by
  refine ⟨by constructor <;> decide, by decide, by decide, by decide, by decide, by decide, by decide, by decide, by decide, by decide, by decide⟩⟩
theorem witness_RingFrames_3 : ∃ (ring : Nat) (descs ds : List (List Byte)) (data : List Byte) (p : Nat) (q : QFrame) (c : Nat) (s : State), Inv s ∧ s.alive = true ∧ s.ringsRun = true ∧ ring < 8 ∧ frameDescs descs = some ds ∧ (s.txRing ring).enable = true ∧ (s.txRing ring).fenced = none ∧ (s.txRing ring).launch.length < 64 ∧ ds.length ≤ (s.txRing ring).posted ∧ s.txBad ds data = false ∧ (settleUids s).fenceSet ring (ds.headD []) = [] ∧ dDirect (ds.headD []) = true ∧ dLaunch (ds.headD []) = false ∧ p = dDest (ds.headD []) % 16 ∧ (q, c) = s.txDirect ring (ds.headD []) (frameOf data) ∧ s.node.state ≠ .held ∧ s.portUp p = true ∧ s.admits p c q.cells = true ∧ (s.gate p).oper = none := ⟨1, [zeros 8 ++ le 2 60 ++ zeros 18 ++ le 4 0x64000000], [zeros 8 ++ le 2 60 ++ zeros 18 ++ le 4 0x64000000], zeros 60, 0, _, _ , { tIn .run with tx := State.reset.tx.set 1 { State.reset.txRing 0 with enable := true, tail := 5, head := 2 } , macs := State.reset.macs.set 0 { link := true, rate := 5 } , host := { State.reset.host with pcieUp := true, master := true } } , by constructor <;> decide, by decide, by decide, by decide, by decide, by decide, by decide, by decide, by decide, by decide, by decide, by decide, by decide , by decide, rfl, by decide, by decide, by decide +kernel, by decide⟩
theorem witness_RingFrames_4 : ∃ (ring : Nat) (f : Fenced) (s : State), Inv s ∧ s.alive = true ∧ s.ringsRun = true ∧ ring < 8
  ∧ (s.txRing ring).fenced = some f ∧ (s.txRing ring).enable = true ∧ f.waitFor.any s.uidLive = false :=
  ⟨1, { descs := [zeros 8 ++ le 2 60 ++ zeros 18 ++ le 4 0x62000000], data := zeros 60, waitFor := [9] }, { tIn .run with tx := State.reset.tx.set 1 { State.reset.txRing 0 with enable := true, tail := 5, head := 2, fenced := some { descs := [zeros 8 ++ le 2 60 ++ zeros 18 ++ le 4 0x62000000] , data := zeros 60, waitFor := [9] } } , host := { State.reset.host with pcieUp := true, master := true } }, by
  refine ⟨by constructor <;> decide, by decide, by decide, by decide, by decide, by decide, by decide⟩⟩
theorem witness_RingFrames_5 : ∃ (ring : Nat) (f : Fenced) (s : State), s.alive = true ∧ (s.txRing ring).fenced = some f
  ∧ f.waitFor.any s.uidLive = true :=
  ⟨1, { descs := [zeros 8 ++ le 2 60 ++ zeros 18 ++ le 4 0x62000000], data := zeros 60, waitFor := [9] }, { tIn .run with tx := State.reset.tx.set 1 { State.reset.txRing 0 with enable := true, tail := 5, head := 2, fenced := some { descs := [zeros 8 ++ le 2 60 ++ zeros 18 ++ le 4 0x62000000] , data := zeros 60, waitFor := [9] } } , sw := { State.reset.sw with queues := [(0, [{ (tIn .run).mkQ (frameOf (zeros 60)) .hitch with uid := 9 }])] } , host := { State.reset.host with pcieUp := true, master := true } }, by decide⟩
theorem witness_RingFrames_6 : ∃ (ring : Nat) (bufs : List Nat) (cutAt : Nat) (x : RxWait) (rest : List RxWait) (s : State), Inv s ∧ s.alive = true
  ∧ s.ringsRun = true ∧ ring < 8 ∧ (s.rxRing ring).enable = true ∧ 1 ≤ (s.rxRing ring).bufUnits ∧ (s.rxRing ring).waiting = x :: rest ∧ x.bad = 0
  ∧ 1 ≤ min (s.rxRing ring).posted bufs.length ∧ (s.rxRing ring).needs x ≤ min (s.rxRing ring).posted bufs.length :=
  ⟨1, [0x1000], 0, { frame := frameOf (zeros 60), tagged := false, len := 64, port := 15, cls := 0, handle := none, seq := none, stamp := ⟨0, 0⟩, tci := 0, cells := 1 , uid := 3, since := 0, frer := none }, [], { tIn .run with rx := State.reset.rx.set 1 { State.reset.rxRing 0 with enable := true, tail := 5, head := 2, waiting := [{ frame := frameOf (zeros 60), tagged := false, len := 64, port := 15 , cls := 0, handle := none, seq := none, stamp := ⟨0, 0⟩, tci := 0, cells := 1, uid := 3, since := 0, frer := none }] } , host := { State.reset.host with pcieUp := true, master := true } }, by
  refine ⟨by constructor <;> decide, by decide, by decide, by decide, by decide, by decide, by decide, by decide, by decide, by decide⟩⟩
theorem witness_RingFrames_7 : ∃ (ring : Nat) (x : RxWait) (rest : List RxWait) (s : State), Inv s ∧ s.alive = true ∧ ring < 8
  ∧ (s.rxRing ring).waiting = x :: rest :=
  ⟨1, { frame := frameOf (zeros 60), tagged := false, len := 64, port := 15, cls := 0, handle := none, seq := none, stamp := ⟨0, 0⟩, tci := 0, cells := 1 , uid := 3, since := 0, frer := none }, [], { tIn .run with rx := State.reset.rx.set 1 { State.reset.rxRing 0 with enable := true, tail := 5, head := 2, waiting := [{ frame := frameOf (zeros 60), tagged := false, len := 64, port := 15 , cls := 0, handle := none, seq := none, stamp := ⟨0, 0⟩, tci := 0, cells := 1, uid := 3, since := 0, frer := none }] } }, by
  refine ⟨by constructor <;> decide, by decide, by decide, by decide⟩⟩
theorem witness_StudbookCommits_1 : ∃ (r : Rec) (rest : List Rec) (s : State), s.logs = true ∧ s.log.scanned = true ∧ s.log.queue = r :: rest
  ∧ s.log.mediaFault = false ∧ s.log.degraded0 = false ∧ s.log.degraded1 = false ∧ ((r.sev = 7 → s.log.sealedFull = false)) :=
  ⟨(tIn .run).stampRec 0x0101 7 0 false false [1], [], { tIn .run with log := { State.reset.log with scanned := true, queue := [(tIn .run).stampRec 0x0101 7 0 false false [1]] } }, by decide⟩
theorem witness_StudbookCommits_2 : ∃ (r : Rec) (rest : List Rec) (s : State), s.logs = true ∧ s.log.scanned = true ∧ s.log.queue = r :: rest
  ∧ s.log.mediaFault = false ∧ s.log.degraded0 = false ∧ s.log.degraded1 = false :=
  ⟨(tIn .run).stampRec 0x0101 7 0 false false [1], [], { tIn .run with log := { State.reset.log with scanned := true, queue := [(tIn .run).stampRec 0x0101 7 0 false false [1]] } }, by decide⟩
theorem witness_StudbookCommits_3 : ∃ (r : Rec) (rest : List Rec) (ok0 : Bool) (ok1 : Bool) (s : State), s.logs = true ∧ s.log.scanned = true
  ∧ s.log.queue = r :: rest ∧ s.log.mediaFault = true ∧ 3 ≤ r.sev :=
  ⟨(tIn .run).stampRec 0x0101 3 0 false false [1], [], true, false, { tIn .run with log := { State.reset.log with scanned := true, mediaFault := true, queue := [(tIn .run).stampRec 0x0101 3 0 false false [1]] } }, by decide⟩
theorem witness_StudbookCommits_4 : ∃ (limiter : Nat) (s : State), s.logs = true ∧ Store.wf {} s.log.limiters = true
  ∧ (Store.get {} s.log.limiters limiter).supp ≠ 0 ∧ s.log.queue.length < 1024 :=
  ⟨5, { tIn .run with log := { State.reset.log with limiters := [(5, { supp := 2, lastCode := 0x0105 })] } }, by decide⟩
theorem witness_StudbookCommits_5 : ∃ (ms : Nat) (s : State), s.logs = true ∧ s.log.scanned = false ∧ s.log.low.needsWhole = false
  ∧ s.log.high.needsWhole = false ∧ s.log.seald.needsWhole = false :=
  ⟨7, tIn .run, by decide⟩
theorem witness_StudbookCommits_6 : ∃ s : State, s.logs = true ∧ s.log.scanned = false ∧ (s.log.low.needsWhole = true ∨ s.log.high.needsWhole = true ∨ s.log.seald.needsWhole = true) := ⟨{ tIn .run with log := { State.reset.log with low := { slots := List.replicate 4097 (0, { die0 := none, die1 := none }) } } }, by decide, by decide , .inl (by unfold Region.needsWhole; simp only [List.length_replicate, Option.isNone_none, Bool.true_and]; decide)⟩
theorem witness_StudbookCommits_7 : ∃ (ms : Nat) (s : State), s.logs = true ∧ s.log.scanning = true :=
  ⟨7, tIn .run, by decide⟩
theorem witness_StudbookCommits_8 : ∃ (slots : Nat) (b : BadCopy) (s : State), s.logs = true ∧ s.node.state.inLine = true ∧ b.twinOk = true :=
  ⟨9, { die := 1, area := 1, slot := 4, twinOk := true }, tIn .run, by decide⟩
theorem witness_StudbookCommits_9 : ∃ (area : Nat) (slots : Nat) (s : State), s.logs = true ∧ s.node.state.inLine = true :=
  ⟨2, 9, tIn .run, by decide⟩
theorem witness_WitnessesAndLogCommands_1 : ∃ (x : WitnessOut) (rest : List WitnessOut) (s : State), s.logs = true ∧ s.log.witnesses = x :: rest :=
  ⟨{ slot := [1], seq := 4, left := 2 }, [], { tIn .run with log := { State.reset.log with witnesses := [{ slot := [1], seq := 4, left := 2 }] } }, by decide⟩
theorem witness_WitnessesAndLogCommands_2 : ∃ (src : Nid) (slot : List Byte) (s : State), s.logs = true ∧ s.node.state.inLine = true ∧ s.streamEtype ≠ none ∧ slotOk slot = true ∧ (src, fLe slot 0 8) ∉ s.log.seen ∧ s.log.queue.length < 1024 := ⟨5, ((tIn .run).stampRec 0x0101 6 0 false false [1]).slot, tWith [{ sec := 0x0D, id := 1, index := 0xFFFF, val := [0xB5, 0x88] }] [] (tIn .run), by decide, by decide, by decide , slotOk_slot _, by decide, by decide⟩
theorem witness_WitnessesAndLogCommands_3 : ∃ (c : Acs) (s : State), Accepts s c 0x0E00 inServing ∧ c.args.length = 16 ∧ c.arg 8 1 ≤ 1
  ∧ c.arg 9 1 ≤ 7 ∧ c.arg 10 1 ≤ 7 ∧ 1 ≤ c.arg 11 1 ∧ c.arg 11 1 ≤ 31 ∧ s.log.scanning = false ∧ s.log.mediaFault = false :=
  ⟨tAcs ([0, 0, 0, 0, 0, 0, 0, 0, 0, 7, 0, 31] ++ zeros 4), { tIn .run with log := { State.reset.log with scanning := false } }, by decide⟩
theorem witness_WitnessesAndLogCommands_4 : ∃ (c : Acs) (n : Nat) (s : State), Accepts s c 0x0E01 inServing ∧ 4 ≤ c.args.length
  ∧ c.args.length = 4 + c.arg 3 1 ∧ c.arg 3 1 ≤ 88 ∧ 0x8000 ≤ c.arg 0 2 ∧ c.arg 2 1 ≤ 7 ∧ ((c.arg 2 1 = 7 → s.hostSeal = true))
  ∧ s.hitch.switching = false ∧ s.fate (c.arg 0 2) (c.arg 2 1) = .accepted n :=
  ⟨tAcs [0, 0x80, 3, 2, 7, 8], 1, tIn .run, by decide⟩
theorem witness_WitnessesAndLogCommands_5 : ∃ (c : Acs) (s : State), Accepts s c 0x0E01 inServing ∧ 4 ≤ c.args.length
  ∧ c.args.length = 4 + c.arg 3 1 ∧ c.arg 3 1 ≤ 88 ∧ 0x8000 ≤ c.arg 0 2 ∧ c.arg 2 1 ≤ 7 ∧ ((c.arg 2 1 = 7 → s.hostSeal = true))
  ∧ s.hitch.switching = false ∧ s.log.mediaFault = false ∧ s.fate (c.arg 0 2) (c.arg 2 1) = .filtered :=
  ⟨tAcs [0, 0x80, 0, 2, 7, 8], tWith [{ sec := 0x1A, id := 3, index := 0xFFFF, val := [2] }] [] (tIn .run), by decide⟩
theorem witness_WitnessesAndLogCommands_6 : ∃ (c : Acs) (s : State), Accepts s c 0x0E02 inServing ∧ c.args.length = 0 :=
  ⟨tAcs [], tIn .run, by decide⟩
theorem witness_WitnessesAndLogCommands_7 : ∃ (c : Acs) (s : State), Accepts s c 0x0E03 inServing ∧ c.args.length = 4 ∧ c.arg 0 1 ≤ 3
  ∧ c.nonZero 1 3 = false :=
  ⟨tAcs [2, 0, 0, 0], tIn .run, by decide⟩
theorem witness_WitnessesAndLogCommands_8 : ∃ (c : Acs) (s : State), Accepts s c 0x0E03 inServing ∧ c.args.length = 4 ∧ 4 ≤ c.arg 0 1
  ∧ c.arg 0 1 ≤ 15 ∧ c.nonZero 1 3 = false ∧ s.node.state = .ready ∧ s.authOk c.mbx 0x0E03 = true ∧ ((bit (c.arg 0 1) 3 = true
  → s.log.mediaFault = false)) :=
  ⟨tAcs [12, 0, 0, 0], tAuth 0x0E03 (tIn .ready), by decide⟩
theorem witness_WitnessesAndLogCommands_9 : ∃ (c : Acs) (s : State), Accepts s c 0x0E04 [.ready] ∧ c.args.length = 4 ∧ c.arg 0 1 = 1 ∧ c.arg 1 1 ≤ 1
  ∧ c.nonZero 2 2 = false ∧ (if c.arg 1 1 = 0 then s.log.degraded0 = true ∧ s.log.degraded1 = false else s.log.degraded0 = false
  ∧ s.log.degraded1 = true) :=
  ⟨tAcs [1, 0, 0, 0], { tIn .ready with log := { State.reset.log with degraded0 := true } }, by decide⟩
theorem witness_PortLinks_1 : ∃ (port : Nat) (rate : Nat) (s : State), Inv s ∧ s.alive = true ∧ port < 15 ∧ s.portOn port = true
  ∧ (s.mac port).link = false ∧ rateOk port rate = true ∧ s.node.state ≠ .stabled :=
  ⟨2, 5, tIn .run, by
  refine ⟨by constructor <;> decide, by decide, by decide, by decide, by decide, by decide, by decide⟩⟩
theorem witness_PortLinks_2 : ∃ (port : Nat) (rate : Nat) (s : State), Inv s ∧ s.alive = true ∧ port < 15 ∧ s.portOn port = true
  ∧ (s.mac port).link = false ∧ rateOk port rate = true ∧ s.node.state = .stabled ∧ s.wakeOnLink port = true :=
  ⟨2, 5, tWith [{ sec := 6, id := 13, index := 0xFFFF, val := [4] }, { sec := 6, id := 14, index := 2, val := [1] }] [] (tIn .stabled), by
  refine ⟨by constructor <;> decide, by decide, by decide, by decide, by decide, by decide, by decide, by decide⟩⟩
theorem witness_PortLinks_3 : ∃ (port : Nat) (cutOff : Bool) (s : State), Inv s ∧ s.alive = true ∧ port < 4 ∧ (s.mac port).link = true :=
  ⟨1, false, { tIn .run with macs := State.reset.macs.set 1 { link := true, rate := 5, paused := true } }, by
  refine ⟨by constructor <;> decide, by decide, by decide, by decide⟩⟩
theorem witness_PortLinks_4 : ∃ (port : Nat) (cutOff : Bool) (s : State), Inv s ∧ Store.wf [] s.sw.queues = true ∧ s.alive = true ∧ 4 ≤ port
  ∧ port < 15 ∧ (s.mac port).link = true :=
  ⟨5, true, { tIn .run with macs := State.reset.macs.set 5 { link := true, rate := 2 } , sw := { State.reset.sw with queues := [(40, [(tIn .run).mkQ (frameOf (zeros 60)) .hitch])] } }, by
  refine ⟨by constructor <;> decide, by decide, by decide, by decide, by decide, by decide⟩⟩
theorem witness_PortLinks_5 : ∃ (port : Nat) (s : State), Inv s ∧ s.alive = true ∧ port < 4 ∧ (s.mac port).debounce = true
  ∧ (s.mac port).link = true ∧ s.hitchOn = true :=
  ⟨1, { tIn .run with macs := State.reset.macs.set 1 { link := true, rate := 5, debounce := true }, hitch := { State.reset.hitch with proc := .steady } }, by
  refine ⟨by constructor <;> decide, by decide, by decide, by decide, by decide, by decide⟩⟩
theorem witness_PauseAndMerge_1 : ∃ (port : Nat) (quanta : Nat) (sa : Mac) (s : State), Inv s ∧ s.alive = true ∧ port < 15 ∧ s.portUp port = true
  ∧ (s.macCfg port).pauseRx = true ∧ (s.mac port).holdTo = none ∧ quanta ≠ 0 :=
  ⟨3, 100, 5, tWith [{ sec := 6, id := 6, index := 3, val := [1] }] [] { tIn .run with macs := State.reset.macs.set 3 { link := true, rate := 5 } }, by
  refine ⟨by constructor <;> decide, by decide, by decide, by decide, by decide, by decide, by decide⟩⟩
theorem witness_PauseAndMerge_2 : ∃ (port : Nat) (sa : Mac) (s : State), Inv s ∧ s.alive = true ∧ port < 15 ∧ s.portUp port = true
  ∧ (s.macCfg port).pauseRx = true ∧ (s.mac port).holdTo = none :=
  ⟨3, 5, tWith [{ sec := 6, id := 6, index := 3, val := [1] }] [] { tIn .run with macs := State.reset.macs.set 3 { link := true, rate := 5, paused := true } }, by
  refine ⟨by constructor <;> decide, by decide, by decide, by decide, by decide, by decide⟩⟩
theorem witness_PauseAndMerge_3 : ∃ (port : Nat) (quanta : Nat) (sa : Mac) (s : State), s.alive = true ∧ port < 15
  ∧ (((s.macCfg port).pauseRx = false ∨ (s.mac port).holdTo ≠ none)) :=
  ⟨3, 100, 5, { tIn .run with macs := State.reset.macs.set 3 { link := true, rate := 5 } }, by decide⟩
theorem witness_PauseAndMerge_4 : ∃ (port : Nat) (s : State), Inv s ∧ s.alive = true ∧ port < 15 ∧ (s.mac port).paused = true :=
  ⟨3, { tIn .run with macs := State.reset.macs.set 3 { link := true, rate := 5, paused := true } }, by
  refine ⟨by constructor <;> decide, by decide, by decide, by decide⟩⟩
theorem witness_PauseAndMerge_5 : ∃ (port : Nat) (s : State), Inv s ∧ s.alive = true ∧ port < 15 ∧ s.pauseMeasured port = true :=
  ⟨3, { tIn .run with macs := State.reset.macs.set 3 { link := true, rate := 5, paused := true, pauseFrom := some 0 } }, by
  refine ⟨by constructor <;> decide, by decide, by decide, by decide⟩⟩
theorem witness_PauseAndMerge_6 : ∃ (port : Nat) (s : State), Inv s ∧ s.alive = true ∧ port < 15 :=
  ⟨3, { tIn .run with macs := State.reset.macs.set 3 { link := true, rate := 5, holdTo := some 5 } }, by
  refine ⟨by constructor <;> decide, by decide, by decide⟩⟩
theorem witness_PauseAndMerge_7 : ∃ (port : Nat) (s : State), Inv s ∧ s.alive = true ∧ port < 15 ∧ (s.mac port).xoffSent = true
  ∧ (s.mac port).link = true ∧ cellsOfKib (s.macCfg port).xonKiB < s.occupancy port :=
  ⟨3, { tWith [{ sec := 6, id := 10, index := 3, val := [0] }] [] (tIn .run) with macs := State.reset.macs.set 3 { link := true, rate := 5, xoffSent := true } , sw := { State.reset.sw with queues := [(40, [{ (tIn .run).mkQ (frameOf (zeros 60)) .hitch with inPort := 3 }])] } }, by
  refine ⟨by constructor <;> decide, by decide, by decide, by decide, by decide, by decide⟩⟩
theorem witness_PauseAndMerge_8 : ∃ (port : Nat) (s : State), Inv s ∧ s.alive = true ∧ port < 15 ∧ (s.mac port).xoffSent = true
  ∧ (s.mac port).link = true ∧ (s.macCfg port).pauseTx = true ∧ s.occupancy port ≤ cellsOfKib (s.macCfg port).xonKiB :=
  ⟨3, { tWith [{ sec := 6, id := 7, index := 3, val := [1] }] [] (tIn .run) with macs := State.reset.macs.set 3 { link := true, rate := 5, xoffSent := true } }, by
  refine ⟨by constructor <;> decide, by decide, by decide, by decide, by decide, by decide, by decide⟩⟩
theorem witness_PauseAndMerge_9 : ∃ (port : Nat) (s : State), s.alive = true ∧ port < 14 ∧ s.switches port = true ∧ s.portUp port = true :=
  ⟨3, { tIn .run with macs := State.reset.macs.set 3 { link := true, rate := 5 } }, by decide⟩
theorem witness_PauseAndMerge_10 : ∃ (port : Nat) (s : State), Inv s ∧ s.alive = true ∧ port < 14 ∧ s.portUp port = true
  ∧ (s.mac port).mm = .verifying :=
  ⟨3, { tIn .run with macs := State.reset.macs.set 3 { link := true, rate := 5, mm := .verifying, attempts := 1 } }, by
  refine ⟨by constructor <;> decide, by decide, by decide, by decide, by decide⟩⟩
theorem witness_PauseAndMerge_11 : ∃ (port : Nat) (s : State), Inv s ∧ s.alive = true ∧ port < 14 ∧ (s.mac port).mm = .verifying
  ∧ (s.mac port).attempts < s.verifyLimit port :=
  ⟨3, { tIn .run with macs := State.reset.macs.set 3 { link := true, rate := 5, mm := .verifying, attempts := 1 } }, by
  refine ⟨by constructor <;> decide, by decide, by decide, by decide, by decide⟩⟩
theorem witness_PauseAndMerge_12 : ∃ (port : Nat) (s : State), Inv s ∧ s.alive = true ∧ port < 14 ∧ (s.mac port).mm = .verifying
  ∧ s.verifyLimit port ≤ (s.mac port).attempts :=
  ⟨3, { tIn .run with macs := State.reset.macs.set 3 { link := true, rate := 5, mm := .verifying, attempts := 3 } }, by
  refine ⟨by constructor <;> decide, by decide, by decide, by decide, by decide⟩⟩
theorem witness_MkaAndPortCommands_1 : ∃ (port : Nat) (sci : Dword) (server : Bool) (s : State), Inv s ∧ s.alive = true ∧ port < 4
  ∧ s.portUp port = true ∧ (s.sec_ port).running = true :=
  ⟨1, 9, true, { tIn .run with macs := State.reset.macs.set 1 { link := true, rate := 5 }, sw := { State.reset.sw with macsec := List.replicate 4 { running := true } } }, by
  refine ⟨by constructor <;> decide, by decide, by decide, by decide, by decide⟩⟩
theorem witness_MkaAndPortCommands_2 : ∃ (port : Nat) (an : Nat) (kn : Nat) (s : State), Inv s ∧ s.alive = true ∧ port < 4 ∧ s.portUp port = true
  ∧ (s.sec_ port).running = true :=
  ⟨1, 5, 3, { tIn .run with macs := State.reset.macs.set 1 { link := true, rate := 5 }, sw := { State.reset.sw with macsec := List.replicate 4 { running := true } } }, by
  refine ⟨by constructor <;> decide, by decide, by decide, by decide, by decide⟩⟩
theorem witness_MkaAndPortCommands_3 : ∃ (port : Nat) (s : State), s.alive = true ∧ port < 4 ∧ s.portUp port = true
  ∧ (s.sec_ port).running = true :=
  ⟨1, { tIn .run with macs := State.reset.macs.set 1 { link := true, rate := 5 }, sw := { State.reset.sw with macsec := List.replicate 4 { running := true } } }, by decide⟩
theorem witness_MkaAndPortCommands_4 : ∃ (port : Nat) (s : State), Inv s ∧ s.alive = true ∧ port < 4 ∧ (s.sec_ port).running = true :=
  ⟨1, { tIn .run with sw := { State.reset.sw with macsec := List.replicate 4 { running := true, st := 2 } } }, by
  refine ⟨by constructor <;> decide, by decide, by decide, by decide⟩⟩
theorem witness_MkaAndPortCommands_5 : ∃ (port : Nat) (s : State), s.alive = true ∧ port < 4 ∧ s.portUp port = true ∧ s.saInUse port = true
  ∧ (s.sec_ port).server = true :=
  ⟨1, tWith [{ sec := 6, id := 26, index := 1, val := [2] }] [] { tIn .run with macs := State.reset.macs.set 1 { link := true, rate := 5 } , sw := { State.reset.sw with macsec := List.replicate 4 { running := true, st := 2, server := true } } }, by decide⟩
theorem witness_MkaAndPortCommands_6 : ∃ (c : Acs) (s : State), Accepts s c 0x0510 inServing ∧ c.args.length = 4 ∧ c.arg 0 1 ≤ 14
  ∧ c.nonZero 1 3 = false :=
  ⟨tAcs [3, 0, 0, 0], tIn .run, by decide⟩
theorem witness_MkaAndPortCommands_7 : ∃ (c : Acs) (s : State), Inv s ∧ Accepts s c 0x0511 inLineStates ∧ c.args.length = 24 ∧ c.arg 0 1 ≤ 14
  ∧ c.arg 1 1 < 32 ∧ c.nonZero 16 8 = false ∧ (macCfgOf c.args).ok (c.arg 0 1) = true :=
  ⟨tAcs ([3, 3, 0, 10, 10, 0, 10, 0, 0, 1, 0, 0, 128, 0, 0, 0] ++ zeros 8), tIn .run, by
  refine ⟨by constructor <;> decide, by decide, by decide, by decide, by decide, by decide, by decide⟩⟩
theorem witness_MkaAndPortCommands_8 : ∃ (c : Acs) (s : State), Inv s ∧ Accepts s c 0x0512 inLineStates ∧ c.args.length = 4 + 24 * c.arg 2 1
  ∧ c.arg 0 1 ≤ 14 ∧ 1 ≤ c.arg 2 1 ∧ c.arg 1 1 + c.arg 2 1 ≤ 16 ∧ c.nonZero 3 1 = false
  ∧ ((List.range (c.arg 2 1)).map (fun k => slice c.args (4 + 24 * k) 24)).all wakeOk = true :=
  ⟨tAcs ([3, 15, 1, 0] ++ List.replicate 16 1 ++ [0, 0, 64, 0, 1, 0, 0, 0]), tIn .run, by
  refine ⟨by constructor <;> decide, by decide, by decide, by decide, by decide, by decide, by decide, by decide⟩⟩
theorem witness_MkaAndPortCommands_9 : ∃ (c : Acs) (s : State), Accepts s c 0x0513 inServing ∧ c.args.length = 4 ∧ c.arg 0 1 ≤ 14
  ∧ c.nonZero 1 3 = false :=
  ⟨tAcs [3, 0, 0, 0], tIn .run, by decide⟩
theorem witness_SwitchFrames_1 : ∃ (port : Nat) (rx : RxFrame) (s : State), s.alive = true ∧ port < 15 ∧ s.portUp port = true ∧ rx.fifoLost = false
  ∧ rx.smdError = false ∧ rx.asmError = false ∧ 64 ≤ rx.len ∧ ((rx.fcsOk = false ∨ rx.codeErr = true)) ∧ rx.cut = false ∧ rx.dma = false :=
  ⟨5, { frame := frameOf (zeros 60), len := 64, fcsOk := false, codeErr := true, frags := 0, asmError := false, smdError := false, express := true, fifoLost := false , cut := false, stamp := ⟨0, 0⟩, macsec := .plain, colour := .green, tableErr := none, cellErr := none, raw := none, dma := false }, tWith [{ sec := 6, id := 15, index := 5, val := [1] }] [] { tIn .run with macs := State.reset.macs.set 5 { link := true, rate := 2 } }, by decide⟩
theorem witness_SwitchFrames_2 : ∃ (port : Nat) (rx : RxFrame) (vid pcp : Nat) (tagged : Bool) (q : Nat) (s : State), Inv s ∧ s.alive = true ∧ 4 ≤ port ∧ port < 15 ∧ s.portUp port = true ∧ s.node.state.inLine = true ∧ rx.fifoLost = false ∧ rx.smdError = false ∧ rx.asmError = false ∧ rx.codeErr = false ∧ rx.fcsOk = true ∧ 64 ≤ rx.len ∧ rx.len ≤ s.maxFrame port ∧ rx.tableErr = none ∧ linkLocal rx.frame.da = false ∧ s.sw.noFwd.getLsbD port = false ∧ s.classify port none rx.frame = some (vid, pcp, tagged) ∧ s.identify port vid rx.frame = {} ∧ s.filterFor none pcp = none ∧ (learn port vid rx.frame s).egressSet port vid none none rx.frame.da = ([.port q], 0) ∧ q < 15 ∧ s.admits q (s.classOf pcp) ((rx.len + 255) / 256) = true ∧ (s.gate q).oper = none := ⟨5, { frame := { da := 0x020000000001#48, sa := 0x020000000002#48, vlan := none, rtag := none, etype := 0x0800, payload := [] }, len := 64, fcsOk := true, codeErr := false , frags := 0, asmError := false, smdError := false, express := true, fifoLost := false, cut := false, stamp := ⟨0, 0⟩, macsec := .plain, colour := .green, tableErr := none , cellErr := none, raw := none, dma := false } , 1, 0, false, 6 , tWith [{ sec := 6, id := 15, index := 5, val := [1] }, { sec := 6, id := 15, index := 6, val := [1] }, { sec := 6, id := 20, index := 5, val := [0] }] [] { tIn .run with macs := (State.reset.macs.set 5 { link := true, rate := 2 }).set 6 { link := true, rate := 2 } , sw := { State.reset.sw with fdb := [{ mac := 0x020000000001#48, vid := 1, dest := 6, static := true, drop := false, locked := false, mask := 0, seen := 0 }] } } , by constructor <;> decide, by decide, by decide, by decide, by decide, by decide, by decide, by decide, by decide, by decide, by decide, by decide, by decide , by decide, by decide, by decide, by decide +kernel, by decide +kernel, by decide, by decide +kernel, by decide, by decide +kernel, by decide⟩
theorem witness_SwitchFrames_3 : ∃ (port : Nat) (cls : Nat) (stamp : Stamp) (frags : Nat) (q : QFrame) (rest : List QFrame) (s : State), Inv s
  ∧ Store.wf [] s.sw.queues = true ∧ s.alive = true ∧ port < 15 ∧ cls < 8 ∧ s.portUp port = true ∧ s.queue port cls = q :: rest
  ∧ s.closed port q.frame = false ∧ (s.gate port).oper = none :=
  ⟨5, 0, ⟨0, 0⟩, 0, (tIn .run).mkQ (frameOf (zeros 60)) .transit, [], tWith [{ sec := 6, id := 15, index := 5, val := [1] }] [] { tIn .run with macs := State.reset.macs.set 5 { link := true, rate := 2 } , sw := { State.reset.sw with queues := [(40, [(tIn .run).mkQ (frameOf (zeros 60)) .transit])] } }, by
  refine ⟨by constructor <;> decide, by decide, by decide, by decide, by decide, by decide, by decide, by decide, by decide⟩⟩
theorem witness_SwitchFrames_4 : ∃ (port : Nat) (cls : Nat) (cell : Nat) (later : Bool) (q : QFrame) (rest : List QFrame) (s : State), Inv s
  ∧ Store.wf [] s.sw.queues = true ∧ s.alive = true ∧ port < 15 ∧ cls < 8 ∧ s.queue port cls = q :: rest ∧ q.frer = none ∧ (s.gate port).oper = none
  ∧ s.sw.retired.length < 64 :=
  ⟨5, 0, 77, true, (tIn .run).mkQ (frameOf (zeros 60)) .transit, [], { tIn .run with sw := { State.reset.sw with queues := [(40, [(tIn .run).mkQ (frameOf (zeros 60)) .transit])] } }, by
  refine ⟨by constructor <;> decide, by decide, by decide, by decide, by decide, by decide, by decide, by decide, by decide⟩⟩
theorem witness_SwitchFrames_5 : ∃ (port : Nat) (cls : Nat) (cell : Nat) (later : Bool) (q : QFrame) (rest : List QFrame) (s : State), Inv s
  ∧ s.alive = true ∧ port < 15 ∧ cls < 8 ∧ s.queue port cls = q :: rest ∧ cell ∉ s.sw.retired ∧ 2 ≤ (Store.get {} s.sw.cellErrs cell).count
  ∧ s.now ≤ (Store.get {} s.sw.cellErrs cell).first + ticksPerSec :=
  ⟨5, 0, 77, true, (tIn .run).mkQ (frameOf (zeros 60)) .transit, [], { tIn .run with sw := { State.reset.sw with queues := [(40, [(tIn .run).mkQ (frameOf (zeros 60)) .transit])], retired := List.range 64, cellErrs := [(77, { count := 2 })] } }, by
  refine ⟨by constructor <;> decide +kernel, by decide +kernel, by decide +kernel, by decide +kernel, by decide +kernel, by decide +kernel, by decide +kernel, by decide +kernel⟩⟩
theorem witness_SwitchFrames_6 : ∃ (mac : Mac) (vid : Nat) (s : State), s.alive = true ∧ s.ageTime ≠ 0 :=
  ⟨5, 1, tIn .run, by decide⟩
theorem witness_SwitchFrames_7 : ∃ (n : Nat) (lateNs : Nat) (x : Nat × QFrame) (s : State), Inv s ∧ s.alive = true
  ∧ ((s.node.state.inLine = true ∨ s.node.state = .held)) ∧ n < 8 ∧ firstLaunch (s.txRing n).launch = some x ∧ lateNs ≤ s.lateTolUs * 1000
  ∧ s.portUp (x.1 / 8) = true ∧ s.admits (x.1 / 8) (x.1 % 8) x.2.cells = true ∧ (s.gate (x.1 / 8)).oper = none :=
  ⟨1, 0, (40, (tIn .run).mkQ (frameOf (zeros 60)) (.ring 1 none)), tWith [{ sec := 6, id := 15, index := 5, val := [1] }] [] { tIn .run with macs := State.reset.macs.set 5 { link := true, rate := 2 } , tx := State.reset.tx.set 1 { launch := [(40, (tIn .run).mkQ (frameOf (zeros 60)) (.ring 1 none))] } }, by
  refine ⟨by constructor <;> decide +kernel, by decide +kernel, by decide +kernel, by decide +kernel, by decide +kernel, by decide +kernel, by decide +kernel, by decide +kernel, by decide +kernel⟩⟩
theorem witness_SwitchFrames_8 : ∃ (n : Nat) (lateNs : Nat) (x : Nat × QFrame) (s : State), Inv s ∧ s.alive = true
  ∧ ((s.node.state.inLine = true ∨ s.node.state = .held)) ∧ n < 8 ∧ firstLaunch (s.txRing n).launch = some x ∧ s.lateTolUs * 1000 < lateNs
  ∧ (s.txRing n).late = false :=
  ⟨1, 5000, (40, (tIn .run).mkQ (frameOf (zeros 60)) (.ring 1 none)), { tIn .run with tx := State.reset.tx.set 1 { launch := [(40, (tIn .run).mkQ (frameOf (zeros 60)) (.ring 1 none))] } }, by
  refine ⟨by constructor <;> decide, by decide, by decide, by decide, by decide, by decide, by decide⟩⟩
theorem witness_SwitchTimers_1 : ∃ (ctx : Nat) (seq : Nat) (s : State), Store.wf {} s.sw.frer = true :=
  ⟨4, 9, { tIn .run with sw := { State.reset.sw with frer := [(4, { fresh := false, live := [{ seq := 9, left := 1, held := [] }] })] } }, by decide⟩
theorem witness_SwitchTimers_2 : ∃ (ctx : Nat) (s : State), (s.frer ctx).fresh = false :=
  ⟨4, { tIn .run with sw := { State.reset.sw with frer := [(4, { fresh := false, live := [{ seq := 9, left := 1, held := [] }] })] } }, by decide⟩
theorem witness_SwitchTimers_3 : ∃ (ctx : Nat) (s : State), s.node.state.inLine = true
  ∧ (s.ctx? ctx).elim false (fun c => c.role = 2 && c.replicates) = true ∧ Store.wf {} s.sw.frer = true :=
  ⟨4, { tIn .run with sw := { State.reset.sw with frer := [(4, { fresh := false, curA := 5 })] } , stream := { State.reset.stream with ctxs := [(4, { record := [2], enabled := true })] } }, by decide⟩
theorem witness_SwitchTimers_4 : ∃ (port : Nat) (g : GateList) (s : State), Inv s ∧ s.alive = true ∧ port < 15 ∧ (s.gate port).oper = some g
  ∧ s.sw.reloads.any (fun r => r.1 = 3 && r.2.1 = port) = false :=
  ⟨5, { entries := [0x20000010, 0x10000020], base := 0, cycle := 400, ext := 0, epoch := 0, changed := 0 }, { tIn .run with sw := { State.reset.sw with gates := State.reset.sw.gates.set 5 { oper := some { entries := [0x20000010, 0x10000020], base := 0, cycle := 400, ext := 0, epoch := 0, changed := 0 } } } }, by
  refine ⟨by constructor <;> decide, by decide, by decide, by decide, by decide⟩⟩
theorem witness_SwitchTimers_5 : ∃ (port : Nat) (l : Option GateList) (at_ : Nat) (s : State), Inv s ∧ s.alive = true ∧ port < 15
  ∧ (s.gate port).pend = some (l, at_) :=
  ⟨5, none, 9, { tIn .run with sw := { State.reset.sw with gates := State.reset.sw.gates.set 5 { pend := some (none, 9) } } }, by
  refine ⟨by constructor <;> decide, by decide, by decide, by decide⟩⟩
theorem witness_SwitchTimers_6 : ∃ (table : Nat) (port : Nat) (index : Nat) (s : State), s.alive = true ∧ (table, port, index) ∈ s.sw.reloads :=
  ⟨2, 0, 7, { tIn .run with sw := { State.reset.sw with reloads := [(2, 0, 7)] } }, by decide⟩
theorem witness_SwitchCommands_1 : ∃ (c : Acs) (s : State), Accepts s c 0x0500 inServing ∧ c.args.length = 8 ∧ c.nonZero 6 2 = false ∧ 1 ≤ c.arg 4 2
  ∧ c.arg 4 2 ≤ 250 :=
  ⟨tAcs [0, 0, 0, 0, 5, 0, 0, 0], tIn .run, by decide⟩
theorem witness_SwitchCommands_2 : ∃ (c : Acs) (s : State), Accepts s c 0x0501 inLineStates ∧ c.args.length = 20 ∧ fdbArgsOk c = true
  ∧ c.arg 0 1 = 0
  ∧ ((s.bucketOf (fdbOf (slice c.args 4 16) s.now).mac (fdbOf (slice c.args 4 16) s.now).vid).filter (fun x => !(decide (x.mac = (fdbOf (slice
    c.args 4 16) s.now).mac) && x.vid = (fdbOf (slice c.args 4 16) s.now).vid))).length < 4 :=
  ⟨tAcs ([0, 0, 0, 0, 2, 0, 0, 0, 0, 9, 1, 0, 6, 1] ++ zeros 6), tIn .run, by decide⟩
theorem witness_SwitchCommands_3 : ∃ (c : Acs) (s : State), Accepts s c 0x0501 inLineStates ∧ c.args.length = 20 ∧ fdbArgsOk c = true
  ∧ c.arg 0 1 = 1 :=
  ⟨tAcs ([1, 0, 0, 0, 2, 0, 0, 0, 0, 9, 1, 0, 6, 1] ++ zeros 6), tIn .run, by decide⟩
theorem witness_SwitchCommands_4 : ∃ (c : Acs) (s : State), Accepts s c 0x0502 inLineStates ∧ c.args.length = 4
  ∧ ((c.arg 2 2 < 4096 ∨ c.arg 2 2 = 0xFFFF)) :=
  ⟨tAcs [32, 0, 255, 255], tIn .run, by decide⟩
theorem witness_SwitchCommands_5 : ∃ (c : Acs) (s : State), Accepts s c 0x0503 inLineStates ∧ c.args.length = 8 ∧ c.arg 0 2 < 4096
  ∧ c.nonZero 6 2 = false :=
  ⟨tAcs [7, 0, 48, 0, 16, 0, 0, 0], tIn .run, by decide⟩
theorem witness_SwitchCommands_6 : ∃ (c : Acs) (s : State), Inv s ∧ Accepts s c 0x0504 inLineStates ∧ c.args.length = 32 + 4 * c.arg 2 2
  ∧ gateHeaderOk c.args = true ∧ ((bit (c.arg 1 1) 0 = true ∨ (gateListOf (c.args.take 32) (c.args.drop 32) 0).fault = 0))
  ∧ BitVec.ofNat 16 (c.arg 24 2) = s.time.epoch :=
  ⟨tAcs ([5, 0, 1, 0] ++ zeros 12 ++ [0xE8, 3, 0, 0] ++ zeros 12 ++ [0, 1, 0, 0x3F]), tIn .run, by
  refine ⟨by constructor <;> decide, by decide, by decide, by decide, by decide, by decide⟩⟩
theorem witness_SwitchCommands_7 : ∃ (c : Acs) (s : State), Accepts s c 0x0505 inServing ∧ c.args.length = 4 ∧ c.arg 0 1 ≤ 14
  ∧ c.nonZero 1 3 = false :=
  ⟨tAcs [5, 0, 0, 0], tIn .run, by decide⟩
theorem witness_SwitchCommands_8 : ∃ (c : Acs) (s : State), Accepts s c 0x0506 inLineStates ∧ c.args.length = 12 ∧ c.arg 0 1 ≤ 15 ∧ c.arg 1 1 ≤ 7
  ∧ c.nonZero 2 2 = false ∧ s.quotaOk (c.arg 0 1) (c.arg 1 1) { reserve := c.arg 4 4, quota := c.arg 8 4 } = true :=
  ⟨tAcs [5, 0, 0, 0, 0, 0, 0, 0, 0, 4, 0, 0], tIn .run, by decide +kernel⟩
theorem witness_SwitchCommands_9 : ∃ (c : Acs) (s : State), Accepts s c 0x0507 inLineStates ∧ c.args.length = 28 ∧ psfpOk c.args = true :=
  ⟨tAcs ([0, 0, 3, 0, 5, 0, 0xFF, 0, 0, 4, 0, 0, 0xFF, 0xFF, 1] ++ zeros 13), tIn .run, by decide⟩
theorem witness_SwitchCommands_10 : ∃ (c : Acs) (s : State), Accepts s c 0x0508 inServing ∧ c.args.length = 4 ∧ c.arg 0 2 ≤ 2047
  ∧ c.nonZero 2 2 = false :=
  ⟨tAcs [5, 0, 0, 0], tIn .run, by decide⟩
theorem witness_SwitchCommands_11 : ∃ (c : Acs) (s : State), Accepts s c 0x0509 inServing ∧ c.args.length = 4 ∧ c.arg 0 1 ≤ 3
  ∧ c.nonZero 1 3 = false :=
  ⟨tAcs [3, 0, 0, 0], tIn .run, by decide⟩
theorem witness_SwitchCommands_12 : ∃ (c : Acs) (s : State), Accepts s c 0x050A inLineStates ∧ c.args.length = 4 ∧ c.arg 0 2 &&& 0x800F = 0
  ∧ c.arg 2 1 ≤ 1 ∧ c.nonZero 3 1 = false :=
  ⟨tAcs [0x60, 0, 0, 0], tIn .run, by decide⟩
theorem witness_TimeDomains_1 : ∃ (dom : Nat) (line : Line) (offset : Int) (s : State), dom ≤ 1 ∧ s.gptp = true ∧ s.node.form = .simplex
  ∧ s.time.changes = [] ∧ s.hitch.switching = false ∧ (s.time.dom dom).st = .free ∧ ((line = .a ∨ (s.time.dom dom).lastA = none)) :=
  ⟨0, .b, 500, tIn .run, by decide⟩
theorem witness_TimeDomains_2 : ∃ (dom : Nat) (line : Line) (offset : Int) (s : State), dom ≤ 1 ∧ s.gptp = true ∧ s.node.form = .simplex
  ∧ s.time.changes = [] ∧ (s.time.dom dom).st = .locked ∧ ((line = .a ∨ (s.time.dom dom).lastA = none)) ∧ -s.stepThreshold ≤ offset
  ∧ offset ≤ s.stepThreshold :=
  ⟨1, .a, 5, { tIn .run with time := { State.reset.time with sec := { st := .locked } } }, by decide⟩
theorem witness_TimeDomains_3 : ∃ (dom : Nat) (line : Line) (offset : Int) (s : State), dom ≤ 1 ∧ s.gptp = true ∧ s.node.form = .simplex
  ∧ s.time.changes = [] ∧ (s.time.dom dom).st = .locked ∧ ((line = .a ∨ (s.time.dom dom).lastA = none))
  ∧ ((offset < -s.stepThreshold ∨ s.stepThreshold < offset)) :=
  ⟨1, .a, 100000000, { tIn .run with time := { State.reset.time with sec := { st := .locked } } }, by decide⟩
theorem witness_TimeDomains_4 : ∃ (dom : Nat) (s : State), dom ≤ 1 ∧ s.gptp = true
  ∧ (((s.time.dom dom).st = .locked ∨ (s.time.dom dom).st = .stepWait)) ∧ s.node.form = .simplex :=
  ⟨0, { tIn .run with time := { State.reset.time with pri := { st := .locked } } }, by decide⟩
theorem witness_TimeDomains_5 : ∃ (dom : Nat) (gm : Nid) (own : Bool) (s : State), dom ≤ 1 ∧ s.gptp = true ∧ (s.time.dom dom).st ≠ .disabled
  ∧ ((own = true → s.gmCapable dom = true)) :=
  ⟨0, 77, false, tIn .run, by decide⟩
theorem witness_TimeDomains_6 : ∃ (dom : Nat) (port : Nat) (gm : Nid) (own : Bool) (s : State), dom ≤ 1 ∧ s.gptp = true ∧ s.portOn port = true
  ∧ (s.time.dom dom).st ≠ .disabled ∧ ((own = true → s.gmCapable dom = true)) :=
  ⟨0, 1, 77, false, tIn .run, by decide⟩
theorem witness_TimeDomains_7 : ∃ (dom : Nat) (port : Nat) (s : State), s.gptp = true ∧ (s.time.dom dom).st ≠ .disabled ∧ s.portUp port = true :=
  ⟨0, 1, { tIn .run with macs := State.reset.macs.set 1 { link := true, rate := 5 } }, by decide⟩
theorem witness_TimeDomains_8 : ∃ (dom : Nat) (ports : List Nat) (s : State), dom ≤ 1 ∧ s.gptp = true ∧ (s.time.dom dom).st ≠ .disabled
  ∧ s.time.setSteps = [] :=
  ⟨0, [1, 2], tIn .run, by decide⟩
theorem witness_TimeDomains_9 : ∃ (dom : Nat) (step : Int) (s : State), dom ≤ 1 ∧ s.gptp = true ∧ s.node.form = .simplex ∧ s.time.changes = []
  ∧ (s.time.dom dom).st ≠ .disabled ∧ s.time.setSteps = [{ dom := dom, step := step, left := 1 }] :=
  ⟨0, 400, { tIn .run with time := { State.reset.time with setSteps := [{ dom := 0, step := 400, left := 1 }] } }, by decide⟩
theorem witness_TimeDomains_10 : ∃ (port : Nat) (typ : Nat) (delay : Nat) (s : State), s.gptp = true ∧ 4 ≤ port ∧ s.portUp port = true :=
  ⟨5, 0, 9, tWith [{ sec := 6, id := 15, index := 5, val := [1] }] [] { tIn .run with macs := State.reset.macs.set 5 { link := true, rate := 2 } }, by decide⟩
theorem witness_TimeDomains_11 : ∃ (port : Nat) (s : State), s.gptp = true ∧ 4 ≤ port :=
  ⟨5, tIn .run, by decide⟩
theorem witness_TimeDomains_13 : ∃ (s : State), s.alive = true ∧ ((s.time.pri.st = .locked ∨ s.time.sec.st = .locked)) :=
  ⟨{ tIn .run with time := { State.reset.time with sec := { st := .locked } } }, by decide⟩
theorem witness_TimeDomains_14 : ∃ (c : TimeChange) (rest : List TimeChange) (s : State), s.time.changes = c :: rest :=
  ⟨{ tick := 5, dom := 1, anchor := 6, offset := 7, rate := 8, slew := 9, sel := 1, epoch := 2, st := .locked }, [], { tIn .run with time := { State.reset.time with changes := [{ tick := 5, dom := 1, anchor := 6, offset := 7, rate := 8, slew := 9, sel := 1, epoch := 2, st := .locked }] } }, by decide⟩
theorem witness_TimePulsesAndCommands_1 : ∃ (s : State), s.gptp = true ∧ s.time.ppsOn = true
  ∧ ((s.ppsDomain.st = .locked ∨ s.ppsDomain.st = .stepWait ∨ s.ppsDomain.st = .holdover)) :=
  ⟨{ tIn .run with time := { State.reset.time with pri := { st := .locked } } }, by decide⟩
theorem witness_TimePulsesAndCommands_2 : ∃ (s : State), s.alive = true :=
  ⟨tIn .run, by decide⟩
theorem witness_TimePulsesAndCommands_3 : ∃ (stamp : Stamp) (ns : Nat) (s : State), s.alive = true ∧ 100 ≤ ns
  ∧ ((s.time.ppsSeen = false ∨ s.time.ppsTick + 100 * ticksPerUs ≤ stamp.tick)) :=
  ⟨⟨1000, 3⟩, 100, tIn .run, by decide⟩
theorem witness_TimePulsesAndCommands_4 : ∃ (stamp : Stamp) (ns : Nat) (s : State), ((ns < 100 ∨ (s.time.ppsSeen = true
  ∧ stamp.tick < s.time.ppsTick + 100 * ticksPerUs))) :=
  ⟨⟨1000, 3⟩, 99, tIn .run, by decide⟩
theorem witness_TimePulsesAndCommands_5 : ∃ (c : Acs) (s : State), Accepts s c 0x0400 inServing ∧ c.args.length = 0 :=
  ⟨tAcs [], tIn .run, by decide⟩
theorem witness_TimePulsesAndCommands_6 : ∃ (c : Acs) (i : Nat) (s : State), Accepts s c 0x0401 inLineStates ∧ s.carriers = []
  ∧ s.node.form = .simplex ∧ s.time.changes = [] ∧ c.args.length = 4 ∧ c.arg 0 4 ≤ 3 ∧ i = c.arg 0 4 % 2 ∧ s.time.sel ≠ i
  ∧ (s.time.dom i).st = .locked ∧ (((s.time.dom i).timeAt s.now 0 - (s.time.dom s.time.sel).timeAt s.now 0 ≤ s.stepThreshold
  ∧ -s.stepThreshold ≤ (s.time.dom i).timeAt s.now 0 - (s.time.dom s.time.sel).timeAt s.now 0 ∨ 2 ≤ c.arg 0 4)) :=
  ⟨tAcs [1, 0, 0, 0], 1, { tIn .run with time := { State.reset.time with sec := { st := .locked } } }, by decide⟩
theorem witness_TimePulsesAndCommands_7 : ∃ (c : Acs) (i : Nat) (s : State), Accepts s c 0x0401 inLineStates ∧ s.carriers = [] ∧ c.args.length = 4
  ∧ c.arg 0 4 ≤ 3 ∧ i = c.arg 0 4 % 2 ∧ s.time.sel ≠ i ∧ (s.time.dom i).st ≠ .locked :=
  ⟨tAcs [1, 0, 0, 0], 1, tIn .run, by decide⟩
theorem witness_TimePulsesAndCommands_8 : ∃ (c : Acs) (s : State), Accepts s c 0x0402 inLineStates ∧ s.carriers = [] ∧ c.args.length = 16
  ∧ timeSetArgs c.args = true ∧ (s.time.dom (c.arg 0 1)).isGm = true ∧ ((s.gmSource (c.arg 0 1) = 1 ∨ s.gmSource (c.arg 0 1) = 2))
  ∧ c.arg 1 1 = 0 :=
  ⟨tAcs ([0, 0, 0, 0] ++ zeros 12), tWith [{ sec := 5, id := 12, index := 0, val := [1] }] [] { tIn .run with time := { State.reset.time with pri := { isGm := true } } }, by decide⟩
theorem witness_TimePulsesAndCommands_9 : ∃ (c : Acs) (s : State), Accepts s c 0x0402 inLineStates ∧ s.carriers = [] ∧ c.args.length = 16
  ∧ timeSetArgs c.args = true ∧ (s.time.dom (c.arg 0 1)).isGm = true ∧ ((s.gmSource (c.arg 0 1) = 1 ∨ s.gmSource (c.arg 0 1) = 2)) ∧ c.arg 1 1 = 1
  ∧ ((((ttOf (c.args.drop 4) : Nat) : Int) - (s.time.dom (c.arg 0 1)).timeAt s.now 0 < -s.stepThreshold ∨ s.stepThreshold < ((ttOf (c.args.drop 4) :
    Nat) : Int) - (s.time.dom (c.arg 0 1)).timeAt s.now 0)) :=
  ⟨tAcs ([0, 1, 0, 0] ++ [9] ++ zeros 11), tWith [{ sec := 5, id := 12, index := 0, val := [1] }] [] { tIn .run with time := { State.reset.time with pri := { isGm := true } } }, by decide⟩
theorem witness_TimePulsesAndCommands_10 : ∃ (x : TimeSetWait) (rest : List TimeSetWait) (s : State), s.time.setWaits = x :: rest :=
  ⟨{ ref := none, dom := 0, value := 5 }, [], { tIn .run with time := { State.reset.time with setWaits := [{ ref := none, dom := 0, value := 5 }] } }, by decide⟩
theorem witness_TimePulsesAndCommands_11 : ∃ (c : Acs) (s : State), Accepts s c 0x0403 inServing ∧ c.args.length = 32 ∧ c.arg 0 1 ≤ 1
  ∧ c.arg 1 1 ≤ 15 ∧ c.nonZero 4 4 = false ∧ c.nonZero 28 4 = false ∧ ((c.arg 0 1 = 1 → c.arg 22 4 < 1000000000))
  ∧ c.arg 2 2 = s.time.epoch.toNat :=
  ⟨tAcs (zeros 32), tIn .run, by decide⟩
theorem witness_TimePulsesAndCommands_12 : ∃ (c : Acs) (s : State), Accepts s c 0x0404 inLineStates ∧ c.args.length = 0 :=
  ⟨tAcs [], tIn .run, by decide⟩
theorem witness_TimePulsesAndCommands_13 : ∃ (c : Acs) (s : State), Accepts s c 0x0405 inLineStates ∧ c.args.length = 8 ∧ c.arg 0 1 ≤ 3
  ∧ c.arg 1 1 ≤ 2 ∧ c.arg 2 1 ≤ 3 ∧ c.nonZero 3 1 = false ∧ 1 ≤ c.arg 4 4 ∧ 2 * c.arg 4 4 ≤ ppsUs (c.arg 0 1) :=
  ⟨tAcs [3, 1, 2, 0, 100, 0, 0, 0], tIn .run, by decide⟩
theorem witness_HitchEvents_1 : ∃ (s : State), Inv s ∧ s.alive = true ∧ s.hitchOn = true :=
  ⟨{ tIn .run with hitch := { State.reset.hitch with proc := .steady } }, by
  refine ⟨by constructor <;> decide, by decide, by decide⟩⟩
theorem witness_HitchEvents_2 : ∃ (port : Nat) (frame : Frame) (stamp : Stamp) (s : State), Inv s ∧ s.alive = true ∧ s.hitchOn = true ∧ port < 4
  ∧ s.portUp port = true ∧ (s.hport port).live = true ∧ frame.etype = s.hitchEtype ∧ linkLocal frame.da = true
  ∧ ((frame.da ≠ 0x0180C200000E#48 ∨ hframeOf (lineOfPort port) frame.payload = none)) :=
  ⟨1, { da := 0x0180C200000E#48, sa := 5, vlan := none, rtag := none, etype := 0x88B6, payload := [] }, ⟨0, 0⟩, { tIn .run with macs := State.reset.macs.set 1 { link := true, rate := 5 }, hitch := { State.reset.hitch with proc := .steady, ports := List.replicate 4 { live := true } } }, by
  refine ⟨by constructor <;> decide, by decide, by decide, by decide, by decide, by decide, by decide, by decide, by decide⟩⟩
theorem witness_HitchEvents_3 : ∃ (port : Nat) (frame : Frame) (f : HFrame) (r : HRec) (s : State), Inv s ∧ s.alive = true ∧ s.hitchOn = true ∧ port < 4 ∧ s.portUp port = true ∧ (s.hport port).live = true ∧ frame.etype = s.hitchEtype ∧ frame.da = 0x0180C200000E#48 ∧ hframeOf (lineOfPort port) frame.payload = some f ∧ f.vec.recs.head? = some r := ⟨1, { da := 0x0180C200000E#48, sa := 5, vlan := none, rtag := none, etype := 0x88B6 , payload := [1, 1, 0, 1] ++ zeros 20 ++ [1, 1] ++ zeros 6 ++ [0, 0, 0, 0, 0, 0, 0, 9] ++ zeros 24 } , { line := 0, dir := 1, seq := 0, rxSeq := 0, txPrev := 0, rxTs := 0, vec := { recs := [hrecOf ([0, 0, 0, 0, 0, 0, 0, 9] ++ zeros 24)], atEnd := true } } , hrecOf ([0, 0, 0, 0, 0, 0, 0, 9] ++ zeros 24) , { tIn .run with macs := State.reset.macs.set 1 { link := true, rate := 5 } , hitch := { State.reset.hitch with proc := .steady, ports := List.replicate 4 { live := true } } } , by constructor <;> decide, by decide, by decide, by decide, by decide, by decide, by decide, by decide, by decide +kernel, by decide +kernel⟩
theorem witness_HitchEvents_4 : ∃ (port : Nat) (n : Nid) (s : State), Inv s ∧ s.alive = true ∧ s.hitchOn = true ∧ port < 4
  ∧ (s.hport port).live = true ∧ s.lossCount ≤ (s.hport port).missedRun ∧ (s.hport port).neighbour = some n :=
  ⟨1, 9, { tIn .run with hitch := { State.reset.hitch with proc := .steady, ports := List.replicate 4 { live := true, missedRun := 4, neighbour := some 9, admitted := true } } }, by
  refine ⟨by constructor <;> decide, by decide, by decide, by decide, by decide, by decide, by decide⟩⟩
theorem witness_HitchEvents_5 : ∃ (dir : Nat) (p : Nat) (n : Nid) (s : State), Inv s ∧ s.alive = true ∧ ((dir = 1 ∨ dir = 2))
  ∧ s.hitch.proc = .steady ∧ s.hitch.inhibited = false ∧ s.hitch.settling dir = true
  ∧ (if dir = 1 then s.hitch.couple1 else s.hitch.couple2) = some p ∧ p < 4 ∧ (s.hport p).neighbour = some n :=
  ⟨2, 1, 9, { tIn .run with hitch := { State.reset.hitch with proc := .steady, settle2 := true, couple2 := some 1 , ports := [{}, { live := true, neighbour := some 9 }, {}, {}] } }, by
  refine ⟨by constructor <;> decide, by decide, by decide, by decide, by decide, by decide, by decide, by decide, by decide⟩⟩
theorem witness_HitchEvents_6 : ∃ (s : State), s.alive = true ∧ s.hitch.proc = .pending :=
  ⟨{ tIn .ready with hitch := { State.reset.hitch with proc := .pending } }, by decide⟩
theorem witness_HitchEvents_7 : ∃ (s : State), s.alive = true ∧ s.hitch.proc = .bypassWait :=
  ⟨{ tIn .run with hitch := { State.reset.hitch with proc := .bypassWait, leaver := some 9 } }, by decide⟩
theorem witness_HitchEvents_8 : ∃ (pr : Proposal) (s : State), s.alive = true ∧ s.hitch.switching = false ∧ (s.hitch.proc = .gather ∨ s.hitch.proc = .agree) ∧ s.chainComplete = true ∧ s.hitch.lastChain ≠ s.chainKey ∧ propose s.physChain ((s.effVec 1).overflow || (s.effVec 2).overflow) = .ok pr := ⟨_, { tIn .ready with hitch := { State.reset.hitch with proc := .gather } }, by decide, by decide, by decide, by decide, by decide, rfl⟩
theorem witness_HitchEvents_9 : ∃ (n : Nat) (s : State), s.alive = true ∧ s.hitch.switching = false ∧ (s.hitch.proc = .gather ∨ s.hitch.proc = .agree) ∧ s.chainComplete = true ∧ s.hitch.lastChain ≠ s.chainKey ∧ propose s.physChain ((s.effVec 1).overflow || (s.effVec 2).overflow) = .error n := ⟨1, { tIn .ready with hitch := { State.reset.hitch with proc := .gather, vec1 := { recs := [], overflow := true } } }, by decide, by decide, by decide, by decide, by decide, rfl⟩
theorem witness_HitchEvents_10 : ∃ (pr : Proposal) (s : State), s.alive = true ∧ s.hitch.prop = some pr ∧ s.hitch.switching = true :=
  ⟨{ gen := 1, fp := 5, chain := [] }, { tIn .ready with hitch := { State.reset.hitch with proc := .agree, switching := true, prop := some { gen := 1, fp := 5, chain := [] } } }, by decide⟩
theorem witness_HitchModesAndCommands_1 : ∃ (port : Nat) (s : State), Inv s ∧ s.alive = true ∧ s.hitchOn = true ∧ port < 4 ∧ s.portUp port = true
  ∧ (s.hport port).neighbour = none ∧ (s.hport port).ttdpNb = false :=
  ⟨1, { tIn .run with macs := State.reset.macs.set 1 { link := true, rate := 5 }, hitch := { State.reset.hitch with proc := .steady } }, by
  refine ⟨by constructor <;> decide, by decide, by decide, by decide, by decide, by decide, by decide⟩⟩
theorem witness_HitchModesAndCommands_2 : ∃ (port : Nat) (s : State), Inv s ∧ s.alive = true ∧ s.hitchOn = true ∧ port < 4
  ∧ (s.hport port).helloWait = true ∧ s.ttdpCompat = true ∧ s.hitch.proc ≠ .ttdp :=
  ⟨1, { tIn .run with hitch := { State.reset.hitch with proc := .steady, ports := List.replicate 4 { helloWait := true } } }, by
  refine ⟨by constructor <;> decide, by decide, by decide, by decide, by decide, by decide, by decide⟩⟩
theorem witness_HitchModesAndCommands_3 : ∃ (port : Nat) (s : State), Inv s ∧ s.alive = true ∧ s.hitchOn = true ∧ port < 4
  ∧ (s.hport port).helloWait = true ∧ s.ttdpCompat = false :=
  ⟨1, tWith [{ sec := 4, id := 5, index := 0xFFFF, val := [0] }] [] { tIn .run with hitch := { State.reset.hitch with proc := .steady, ports := List.replicate 4 { helloWait := true } } }, by
  refine ⟨by constructor <;> decide, by decide, by decide, by decide, by decide, by decide⟩⟩
theorem witness_HitchModesAndCommands_4 : ∃ (s : State), s.alive = true ∧ s.hitchOn = true ∧ s.ttdpCompat = true :=
  ⟨{ tIn .run with macs := State.reset.macs.set 1 { link := true, rate := 5 }, hitch := { State.reset.hitch with proc := .steady } }, by decide⟩
theorem witness_HitchModesAndCommands_5 : ∃ (s : State), s.alive = true ∧ s.hitch.proc = .ttdp ∧ s.hitch.switching = false :=
  ⟨{ tIn .run with hitch := { State.reset.hitch with proc := .ttdp } }, by decide⟩
theorem witness_HitchModesAndCommands_6 : ∃ (ns : List TtdpNode) (pr : Proposal) (s : State), s.alive = true ∧ s.hitch.proc = .ttdp ∧ s.hitch.switching = false ∧ s.hitch.inhibited = false ∧ ns.any (fun x => decide (x.nid = s.node.nid)) = true ∧ proposeOrdered (ns.map TtdpNode.rec_) = .ok pr := ⟨[{ nid := 0, prevGen := 0, consistId := 1, vehCount := 1, vehIndex := 1, cstDir := false, orient := false, form := 0 }], _ , { tIn .run with hitch := { State.reset.hitch with proc := .ttdp } }, by decide, by decide, by decide, by decide, by decide, rfl⟩
theorem witness_HitchModesAndCommands_7 : ∃ (gpio : Nat) (level : Bool) (s : State), s.alive = true ∧ gpio < 24 :=
  ⟨3, true, tWith [{ sec := 4, id := 6, index := 0xFFFF, val := [3] }] [] { tIn .run with hitch := { State.reset.hitch with proc := .steady } }, by decide⟩
theorem witness_HitchModesAndCommands_8 : ∃ (c : Acs) (s : State), Accepts s c 0x0300 inLineStates ∧ c.args.length = 0 :=
  ⟨tAcs [], tIn .run, by decide⟩
theorem witness_HitchModesAndCommands_9 : ∃ (c : Acs) (s : State), Accepts s c 0x0301 inLineStates ∧ c.args.length = 0 :=
  ⟨tAcs [], tIn .run, by decide⟩
theorem witness_HitchModesAndCommands_10 : ∃ (c : Acs) (s : State), Accepts s c 0x0302 inLineStates ∧ c.args.length = 0 :=
  ⟨tAcs [], tIn .run, by decide⟩
theorem witness_HitchModesAndCommands_11 : ∃ (c : Acs) (s : State), Accepts s c 0x0303 inLineStates ∧ s.carriers = [] ∧ c.args.length = 4
  ∧ c.arg 0 4 ≤ 1 :=
  ⟨tAcs [1, 0, 0, 0], { tIn .run with hitch := { State.reset.hitch with proc := .steady } }, by decide⟩
theorem witness_HitchModesAndCommands_12 : ∃ (c : Acs) (s : State), Accepts s c 0x0304 inLineStates ∧ s.carriers = [] ∧ c.args.length = 0
  ∧ s.hitch.inhibited = false ∧ s.hitch.proc ≠ .ttdp ∧ s.hitchOn = true :=
  ⟨tAcs [], { tIn .run with hitch := { State.reset.hitch with proc := .steady } }, by decide⟩
theorem witness_HitchModesAndCommands_14 : ∃ (c : Acs) (s : State), Accepts s c 0x0305 inLineStates ∧ c.args.length = 8 ∧ 1 ≤ c.arg 4 4
  ∧ c.arg 4 4 ≤ 60000 :=
  ⟨tAcs [0, 0, 0, 0, 5, 0, 0, 0], tIn .run, by decide⟩
theorem witness_StreamEvents_1 : ∃ (ctx : Nat) (c : StreamCtx) (et : Nat) (im : PubImage) (s : State), s.ctx? ctx = some c ∧ s.publishes c = true ∧ c.reloading = false ∧ c.beyond = false ∧ c.minCycle = none ∧ s.streamEtype = some et ∧ s.pubImage c = some im := ⟨3, { record := [1] ++ zeros 24 ++ [1] ++ zeros 38, enabled := true }, 0x88B5, _ , tWith [{ sec := 0x0D, id := 1, index := 0xFFFF, val := [0xB5, 0x88] }] [] { tIn .run with stream := { ctxs := [(3, { record := [1] ++ zeros 24 ++ [1] ++ zeros 38, enabled := true })] } } , by decide, by decide, by decide, by decide, by decide, by decide, rfl⟩
theorem witness_StreamEvents_2 : ∃ (ctx : Nat) (err : Nat) (c : StreamCtx) (s : State), s.ctx? ctx = some c ∧ s.publishes c = true
  ∧ ((err = 1 ∨ err = 2 ∨ (err = 0 ∧ c.reloading = true))) :=
  ⟨3, 1, { record := [1] ++ zeros 24 ++ [1] ++ zeros 38, enabled := true }, { tIn .run with stream := { ctxs := [(3, { record := [1] ++ zeros 24 ++ [1] ++ zeros 38, enabled := true })] } }, by decide⟩
theorem witness_StreamEvents_3 : ∃ (ctx : Nat) (lateNs : Nat) (c : StreamCtx) (l : StreamLaunch) (rest : List StreamLaunch) (s : State), s.alive =
    true
  ∧ ((s.node.state.inLine = true ∨ s.node.state = .held)) ∧ s.ctx? ctx = some c ∧ c.launches = l :: rest ∧ lateNs ≤ s.lateTolUs * 1000 :=
  ⟨3, 0, { record := [1], enabled := true, launches := [{ tick := 5, frame := frameOf (zeros 60), pref := none }] }, { tick := 5, frame := frameOf (zeros 60), pref := none }, [], { tIn .run with stream := { ctxs := [(3, { record := [1], enabled := true, launches := [{ tick := 5, frame := frameOf (zeros 60), pref := none }] })] } }, by decide⟩
theorem witness_StreamEvents_4 : ∃ (ctx : Nat) (lateNs : Nat) (c : StreamCtx) (l : StreamLaunch) (rest : List StreamLaunch) (s : State), s.alive =
    true
  ∧ ((s.node.state.inLine = true ∨ s.node.state = .held)) ∧ s.ctx? ctx = some c ∧ c.launches = l :: rest ∧ s.lateTolUs * 1000 < lateNs
  ∧ s.lateSends 8 = false :=
  ⟨3, 9000000, { record := [1], enabled := true, launches := [{ tick := 5, frame := frameOf (zeros 60), pref := none }] }, { tick := 5, frame := frameOf (zeros 60), pref := none }, [], tWith [{ sec := 5, id := 19, index := 8, val := [0] }] [] { tIn .run with stream := { ctxs := [(3, { record := [1], enabled := true , launches := [{ tick := 5, frame := frameOf (zeros 60), pref := none }] })] } }, by decide⟩
theorem witness_StreamEvents_5 : ∃ (ctx : Nat) (port : Nat) (frame : Frame) (stamp : Stamp) (c : StreamCtx) (s : State), s.ctx? ctx = some c
  ∧ s.node.state.inLine = true ∧ c.role = 2 ∧ c.reloading = false ∧ s.rejects c frame = none :=
  ⟨3, 1, { da := 5, sa := 6, vlan := none, rtag := none, etype := 0x88B5, payload := [1] ++ zeros 31 }, ⟨0, 0⟩, { record := [2] ++ zeros 63, enabled := true, fresh := .fresh }, { tIn .run with stream := { ctxs := [(3, { record := [2] ++ zeros 63, enabled := true, fresh := .fresh })] } }, by decide⟩
theorem witness_StreamEvents_6 : ∃ (ctx : Nat) (port : Nat) (frame : Frame) (stamp : Stamp) (k : Nat) (c : StreamCtx) (s : State), s.ctx? ctx = some c
  ∧ s.node.state.inLine = true ∧ c.role = 2 ∧ c.reloading = false ∧ s.rejects c frame = some k :=
  ⟨3, 1, { da := 5, sa := 6, vlan := none, rtag := none, etype := 0x88B5, payload := [2] ++ zeros 31 }, ⟨0, 0⟩, 6, { record := [2] ++ zeros 63, enabled := true }, { tIn .run with stream := { ctxs := [(3, { record := [2] ++ zeros 63, enabled := true })] } }, by decide⟩
theorem witness_StreamEvents_7 : ∃ (ctx : Nat) (c : StreamCtx) (s : State), s.ctx? ctx = some c ∧ s.node.state.inLine = true ∧ c.role = 2
  ∧ c.enabled = true ∧ c.suspended = false ∧ c.fresh ≠ .lost :=
  ⟨3, { record := [2] ++ zeros 63, enabled := true, fresh := .fresh }, { tIn .run with stream := { ctxs := [(3, { record := [2] ++ zeros 63, enabled := true, fresh := .fresh })] } }, by decide⟩
theorem witness_StreamEvents_8 : ∃ (ctx : Nat) (c : StreamCtx) (s : State), s.ctx? ctx = some c ∧ c.fresh = .lost ∧ c.holding = true :=
  ⟨3, { record := [2] ++ zeros 63, enabled := true, fresh := .lost, holding := true }, { tIn .run with stream := { ctxs := [(3, { record := [2] ++ zeros 63, enabled := true, fresh := .lost, holding := true })] } }, by decide⟩
theorem witness_StreamEvents_10 : ∃ (ctx : Nat) (c : StreamCtx) (s : State), s.ctx? ctx = some c ∧ c.reloading = true :=
  ⟨3, { record := [2] ++ zeros 63, enabled := true, reloading := true }, { tIn .run with stream := { ctxs := [(3, { record := [2] ++ zeros 63, enabled := true, reloading := true })] } }, by decide⟩
theorem witness_StreamCommands_1 : ∃ (c : Acs) (x : StreamCtx) (s : State), Accepts s c 0x0600 inLineStates ∧ c.args.length = 4
  ∧ c.nonZero 2 2 = false ∧ c.arg 0 2 < 2048 ∧ s.ctx? (c.arg 0 2) = some x :=
  ⟨tAcs [3, 0, 0, 0], { record := [2] ++ zeros 63, enabled := true }, { tIn .run with stream := { ctxs := [(3, { record := [2] ++ zeros 63, enabled := true })] } }, by decide⟩
theorem witness_StreamCommands_2 : ∃ (c : Acs) (x : StreamCtx) (s : State), Accepts s c 0x0601 inLineStates ∧ c.args.length = 4
  ∧ c.nonZero 2 2 = false ∧ c.arg 0 2 < 2048 ∧ s.ctx? (c.arg 0 2) = some x :=
  ⟨tAcs [3, 0, 0, 0], { record := [2] ++ zeros 63, enabled := true }, { tIn .run with stream := { ctxs := [(3, { record := [2] ++ zeros 63, enabled := true })] } }, by decide⟩
theorem witness_StreamCommands_3 : ∃ (c : Acs) (x : StreamCtx) (s : State), Accepts s c 0x0602 inLineStates ∧ s.carriers = [] ∧ c.arg 0 2 < 2048
  ∧ s.ctx? (c.arg 0 2) = some x ∧ x.hostSource = true ∧ c.arg 2 2 = x.payLen ∧ c.args.length = 4 + x.payLen :=
  ⟨tAcs [3, 0, 0, 0], { record := [1] ++ zeros 24 ++ [1] ++ zeros 38, enabled := true }, { tIn .run with stream := { ctxs := [(3, { record := [1] ++ zeros 24 ++ [1] ++ zeros 38, enabled := true })] } }, by decide⟩
theorem witness_StreamCommands_4 : ∃ (c : Acs) (x : StreamCtx) (s : State), Accepts s c 0x0603 inLineStates ∧ c.args.length = 4
  ∧ c.nonZero 2 2 = false ∧ c.arg 0 2 < 2048 ∧ s.ctx? (c.arg 0 2) = some x ∧ x.role = 2 :=
  ⟨tAcs [3, 0, 0, 0], { record := [2] ++ zeros 63, enabled := true }, { tIn .run with stream := { ctxs := [(3, { record := [2] ++ zeros 63, enabled := true })] } }, by decide⟩
theorem witness_StreamCommands_5 : ∃ (c : Acs) (x : StreamCtx) (s : State), Accepts s c 0x0604 inLineStates ∧ s.carriers = [] ∧ c.args.length = 4
  ∧ 1 ≤ c.arg 2 1 ∧ c.arg 2 1 ≤ 3 ∧ c.nonZero 3 1 = false ∧ c.arg 0 2 < 2048 ∧ s.ctx? (c.arg 0 2) = some x ∧ x.role = 1 ∧ x.lineMode ≠ 0 :=
  ⟨tAcs [3, 0, 2, 0], { record := [1, 0, 0, 0, 1] ++ zeros 59, enabled := true }, { tIn .run with stream := { ctxs := [(3, { record := [1, 0, 0, 0, 1] ++ zeros 59, enabled := true })] } }, by decide⟩
theorem witness_StreamCommands_6 : ∃ (c : Acs) (x : StreamCtx) (s : State), Accepts s c 0x0605 inLineStates ∧ s.carriers = [] ∧ c.args.length = 4
  ∧ c.arg 2 1 ≤ 1 ∧ c.nonZero 3 1 = false ∧ c.arg 0 2 < 2048 ∧ s.ctx? (c.arg 0 2) = some x ∧ s.placedCtx x = false :=
  ⟨tAcs [3, 0, 1, 0], { record := [2] ++ zeros 63, enabled := false }, { tIn .run with stream := { ctxs := [(3, { record := [2] ++ zeros 63, enabled := false })] } }, by decide⟩
theorem witness_TaskCycle_1 : ∃ (task : Nat) (err : Nat) (ctxErr : Option Nat) (tk : Task) (s : State), s.task? task = some tk
  ∧ s.wr.dups.find? (fun d => decide (d.1 = task)) = none ∧ s.mig? task = none ∧ s.latches tk = true ∧ tk.st = .running :=
  ⟨0, 0, none, { desc := [0, 1, 4, 0] ++ zeros 60, obj := [], st := .running }, { tIn .run with ctl := { State.reset.ctl with tasks := [(0, { desc := [0, 1, 4, 0] ++ zeros 60, obj := [], st := .running })] } }, by decide⟩
theorem witness_TaskCycle_2 : ∃ (task : Nat) (tk : Task) (s : State), s.task? task = some tk ∧ s.wr.dups.find? (fun d => decide (d.1 = task)) = none
  ∧ s.mig? task = none ∧ s.latches tk = true ∧ tk.st = .running ∧ s.node.form = .simplex
  ∧ s.ctl.swaps.any (fun w => decide (w.task = task) && decide (w.atTick ≤ s.now)) = false
  ∧ s.ctl.fwaits.any (fun w => decide (w.task = task) && decide (w.cycle ≤ tk.cycle)) = false :=
  ⟨0, { desc := [0, 1, 4, 0] ++ zeros 60, obj := [], st := .running }, { tIn .run with ctl := { State.reset.ctl with tasks := [(0, { desc := [0, 1, 4, 0] ++ zeros 60, obj := [], st := .running })] } }, by decide⟩
theorem witness_TaskCycle_3 : ∃ (task : Nat) (tk : Task) (s : State), s.task? task = some tk ∧ s.wr.dups.find? (fun d => decide (d.1 = task)) = none
  ∧ s.mig? task = none ∧ s.latches tk = true ∧ tk.st = .running :=
  ⟨0, { desc := [0, 1, 4, 0] ++ zeros 60, obj := [], st := .running }, { tIn .run with ctl := { State.reset.ctl with tasks := [(0, { desc := [0, 1, 4, 0] ++ zeros 60, obj := [], st := .running })] } }, by decide⟩
theorem witness_TaskCycle_4 : ∃ (task : Nat) (err : Nat) (ctxErr : Option Nat) (tk : Task) (s : State), s.task? task = some tk
  ∧ s.wr.dups.find? (fun d => decide (d.1 = task)) = none ∧ s.mig? task = none ∧ s.latches tk = false :=
  ⟨0, 0, none, { desc := [0, 1, 4, 0] ++ zeros 60, obj := [], st := .stopped }, { tIn .run with ctl := { State.reset.ctl with tasks := [(0, { desc := [0, 1, 4, 0] ++ zeros 60, obj := [], st := .stopped })] } }, by decide⟩
theorem witness_TaskCycle_5 : ∃ (task : Nat) (p : Nat) (working : List Byte) (outImage : List Byte) (ns : Nat) (tk : Task) (s : State), s.task? task
    = some tk
  ∧ tk.pair = some p ∧ tk.ph = .executing ∧ (s.pairOf p).running = some task ∧ (s.pairOf p).stopped = none
  ∧ s.ctl.tasks.all (fun e => decide (e.2.index = e.1)) = true :=
  ⟨0, 0, [1], [], 5000, { desc := [0, 1, 4, 0] ++ zeros 60, obj := [], st := .running, ph := .executing, pair := some 0, committed := [0] }, { tIn .run with ctl := { State.reset.ctl with tasks := [(0, { desc := [0, 1, 4, 0] ++ zeros 60, obj := [], st := .running, ph := .executing, pair := some 0, committed := [0] })] , pairs := [{ running := some 0 }, {}, {}, {}] } }, by decide⟩
theorem witness_TaskCycle_6 : ∃ (task : Nat) (tk : Task) (s : State), s.task? task = some tk ∧ s.mig? task = none ∧ tk.ph = .ended
  ∧ tk.st = .running ∧ s.node.form = .simplex :=
  ⟨0, { desc := [0, 5, 4, 0] ++ zeros 60, obj := [], st := .running, ph := .ended }, { tIn .run with ctl := { State.reset.ctl with tasks := [(0, { desc := [0, 5, 4, 0] ++ zeros 60, obj := [], st := .running, ph := .ended })] } }, by decide⟩
theorem witness_TaskCycle_7 : ∃ (task : Nat) (err : Nat) (tk : Task) (s : State), s.task? task = some tk ∧ tk.ph = .held ∧ s.node.form = .simplex :=
  ⟨0, 0, { desc := [0, 5, 4, 0] ++ zeros 60, obj := [], st := .running, ph := .held, heldCause := 1 }, { tIn .run with ctl := { State.reset.ctl with tasks := [(0, { desc := [0, 5, 4, 0] ++ zeros 60, obj := [], st := .running, ph := .held, heldCause := 1 })] } }, by decide⟩
theorem witness_TaskCycle_8 : ∃ (task : Nat) (tk : Task) (s : State), s.task? task = some tk ∧ tk.ph = .executing ∧ s.node.form = .simplex
  ∧ ((tk.limit = 0 ∨ tk.overRun + 1 < tk.limit)) :=
  ⟨0, { desc := [0, 1, 4, 0] ++ zeros 60, obj := [], st := .running, ph := .executing }, { tIn .run with ctl := { State.reset.ctl with tasks := [(0, { desc := [0, 1, 4, 0] ++ zeros 60, obj := [], st := .running, ph := .executing })] } }, by decide⟩
theorem witness_TaskCycle_9 : ∃ (task : Nat) (tk : Task) (s : State), s.task? task = some tk ∧ tk.ph = .executing ∧ s.node.form = .simplex
  ∧ tk.limit ≠ 0 ∧ tk.limit ≤ tk.overRun + 1 :=
  ⟨0, { desc := [0, 1, 4, 0, 9, 255, 1] ++ zeros 57, obj := [], st := .running, ph := .executing }, { tIn .run with ctl := { State.reset.ctl with tasks := [(0, { desc := [0, 1, 4, 0, 9, 255, 1] ++ zeros 57, obj := [], st := .running, ph := .executing })] } }, by decide⟩
theorem witness_ControlErrorsAndStart_1 : ∃ (pair : Nat) (s : State), Inv s ∧ pair < 4 ∧ (s.pairOf pair).retired = false
  ∧ (s.pairOf pair).stopped = none ∧ s.node.state.inLine = true
  ∧ ((s.pairOf pair).misses.filter (fun x => decide (s.now ≤ x + 10 * ticksPerSec))).length < 2 :=
  ⟨1, tIn .run, by
  refine ⟨by constructor <;> decide, by decide, by decide, by decide, by decide, by decide⟩⟩
theorem witness_ControlErrorsAndStart_2 : ∃ (pair : Nat) (n : Option Nat) (s : State), Inv s ∧ pair < 4 ∧ (s.pairOf pair).stopped = some n :=
  ⟨1, none, { tIn .run with ctl := { State.reset.ctl with pairs := [{}, { stopped := some none }, {}, {}] } }, by
  refine ⟨by constructor <;> decide, by decide, by decide⟩⟩
theorem witness_ControlErrorsAndStart_3 : ∃ (kind : Nat) (task : Nat) (addr : Nat) (tk : Task) (s : State), s.task? task = some tk
  ∧ ((tk.ph = .ready ∨ tk.ph = .executing ∨ tk.ph = .ended)) ∧ ((kind = 1 ∨ kind = 3 ∨ kind = 4)) :=
  ⟨1, 0, 0, { desc := [0, 1, 4, 0] ++ zeros 60, obj := [], st := .running, ph := .executing }, { tIn .run with ctl := { State.reset.ctl with tasks := [(0, { desc := [0, 1, 4, 0] ++ zeros 60, obj := [], st := .running, ph := .executing })] } }, by decide⟩
theorem witness_ControlErrorsAndStart_4 : ∃ (task : Nat) (addr : Nat) (tk : Task) (s : State), s.task? task = some tk
  ∧ ((tk.ph = .ready ∨ tk.ph = .executing ∨ tk.ph = .ended)) :=
  ⟨0, 0, { desc := [0, 1, 4, 0] ++ zeros 60, obj := [], st := .running, ph := .executing }, { tIn .run with ctl := { State.reset.ctl with tasks := [(0, { desc := [0, 1, 4, 0] ++ zeros 60, obj := [], st := .running, ph := .executing })] } }, by decide⟩
theorem witness_ControlErrorsAndStart_5 : ∃ (task : Nat) (addr : Nat) (x : Force) (s : State), s.ctl.forces[addr]? = some x :=
  ⟨0, 0, { var := 1, typ := 1, task := 0, input := false, value := zeros 8 }, { tIn .run with ctl := { State.reset.ctl with forces := [{ var := 1, typ := 1, task := 0, input := false, value := zeros 8 }] } }, by decide⟩
theorem witness_ControlErrorsAndStart_6 : ∃ (task : Nat) (s : State), s.ctl.pages.contains task = true :=
  ⟨0, { tIn .run with ctl := { State.reset.ctl with pages := [0] } }, by decide⟩
theorem witness_ControlErrorsAndStart_7 : ∃ (task : Nat) (tk : Task) (s : State), s.ctl.pages.contains task = true ∧ s.task? task = some tk :=
  ⟨0, { desc := [0, 9, 4, 0] ++ zeros 60, obj := [], st := .running }, { tIn .run with ctl := { State.reset.ctl with tasks := [(0, { desc := [0, 9, 4, 0] ++ zeros 60, obj := [], st := .running })], pages := [0] } }, by decide⟩
theorem witness_ControlErrorsAndStart_8 : ∃ (task : Nat) (k : Nat) (b : List Byte) (tk : Task) (s : State), s.task? task = some tk
  ∧ tk.writing = some (k, b) ∧ s.log.degraded0 = false ∧ s.log.degraded1 = false :=
  ⟨0, 1, [1, 2], { desc := [0, 1, 4, 0] ++ zeros 60, obj := [], st := .running, writing := some (1, [1, 2]) }, { tIn .run with ctl := { State.reset.ctl with tasks := [(0, { desc := [0, 1, 4, 0] ++ zeros 60, obj := [], st := .running, writing := some (1, [1, 2]) })] } }, by decide⟩
theorem witness_ControlErrorsAndStart_9 : ∃ (task : Nat) (ok1 : Bool) (k : Nat) (b : List Byte) (tk : Task) (s : State), s.task? task = some tk
  ∧ tk.writing = some (k, b) ∧ s.log.degraded0 = false :=
  ⟨0, true, 1, [1, 2], { desc := [0, 1, 4, 0] ++ zeros 60, obj := [], st := .running, writing := some (1, [1, 2]) }, { tIn .run with ctl := { State.reset.ctl with tasks := [(0, { desc := [0, 1, 4, 0] ++ zeros 60, obj := [], st := .running, writing := some (1, [1, 2]) })] } }, by decide⟩
theorem witness_ControlErrorsAndStart_10 : ∃ (s : State), s.node.state = .ready ∧ s.ctl.startArmed = true :=
  ⟨{ tIn .ready with ctl := { State.reset.ctl with startArmed := true } }, by decide⟩
theorem witness_ControlErrorsAndStart_11 : ∃ (k : Nat) (s : State), s.startKind = some k ∧ s.ctl.startDue = true ∧ s.node.state = .ready
  ∧ s.node.active = true :=
  ⟨0, { tIn .ready with ctl := { State.reset.ctl with startDue := true }, node := { (tIn .ready).node with startArg := 1, active := true } }, by decide⟩
theorem witness_TaskAndForceCommands_1 : ∃ (c : Acs) (s : State), Accepts s c 0x0700 inLineStates ∧ c.args.length = 0 :=
  ⟨tAcs [], tIn .run, by decide⟩
theorem witness_TaskAndForceCommands_2 : ∃ (c : Acs) (s : State), Accepts s c 0x0701 [.ready] ∧ s.carriers = [] ∧ c.args.length = 4 ∧ c.arg 0 1 ≤ 1
  ∧ c.nonZero 1 3 = false :=
  ⟨tAcs [0, 0, 0, 0], tIn .ready, by decide⟩
theorem witness_TaskAndForceCommands_3 : ∃ (c : Acs) (x : Task) (s : State), Accepts s c 0x0702 runStates ∧ s.red.cmds = [] ∧ s.carriers = []
  ∧ c.args.length = 4 ∧ c.nonZero 1 3 = false ∧ s.enabledTask (c.arg 0 1) = some x :=
  ⟨tAcs [0, 0, 0, 0], { desc := [0, 1, 4, 0] ++ zeros 60, obj := [], st := .running }, { tIn .run with ctl := { State.reset.ctl with tasks := [(0, { desc := [0, 1, 4, 0] ++ zeros 60, obj := [], st := .running })] } }, by decide⟩
theorem witness_TaskAndForceCommands_4 : ∃ (c : Acs) (x : Task) (s : State), Accepts s c 0x0703 runStates ∧ s.carriers = [] ∧ c.args.length = 4
  ∧ c.nonZero 1 3 = false ∧ s.enabledTask (c.arg 0 1) = some x ∧ ((x.st = .stopped ∨ x.st = .faulted)) :=
  ⟨tAcs [0, 0, 0, 0], { desc := [0, 1, 4, 0] ++ zeros 60, obj := [], st := .stopped }, { tIn .run with ctl := { State.reset.ctl with tasks := [(0, { desc := [0, 1, 4, 0] ++ zeros 60, obj := [], st := .stopped })] } }, by decide⟩
theorem witness_TaskAndForceCommands_5 : ∃ (c : Acs) (x : Task) (s : State), Accepts s c 0x0704 runStates ∧ s.red.cmds = [] ∧ s.carriers = []
  ∧ c.args.length = 24 ∧ c.nonZero 1 3 = false ∧ c.nonZero 22 2 = false ∧ s.enabledTask (c.arg 0 1) = some x :=
  ⟨tAcs (zeros 24), { desc := [0, 1, 4, 0] ++ zeros 60, obj := [], st := .running }, { tIn .run with ctl := { State.reset.ctl with tasks := [(0, { desc := [0, 1, 4, 0] ++ zeros 60, obj := [], st := .running })] } }, by decide⟩
theorem witness_TaskAndForceCommands_6 : ∃ (c : Acs) (s : State), Accepts s c 0x0705 runStates ∧ 9 ≤ c.args.length ∧ c.args.length ≤ 4072
  ∧ s.stageFits (c.arg 0 4) (c.arg 4 4) (c.args.length - 8) = true :=
  ⟨tAcs ([0, 0, 0, 0, 1, 0, 0, 0] ++ [7]), tIn .run, by decide⟩
theorem witness_TaskAndForceCommands_7 : ∃ (c : Acs) (s : State), Accepts s c 0x0800 runStates ∧ s.node.form = .simplex ∧ c.args.length = 16
  ∧ 1 ≤ c.arg 4 1 ∧ c.arg 4 1 ≤ 0x11 ∧ c.arg 6 1 ≤ 1 ∧ c.nonZero 7 1 = false :=
  ⟨tAcs ([1, 0, 0, 0, 1] ++ zeros 11), tIn .run, by decide⟩
theorem witness_TaskAndForceCommands_8 : ∃ (c : Acs) (s : State), Accepts s c 0x0801 runStates ∧ s.red.cmds = [] ∧ s.node.form = .simplex
  ∧ c.args.length = 4 ∧ s.forceVars.contains (c.arg 0 4) = true :=
  ⟨tAcs [1, 0, 0, 0], { tIn .run with ctl := { State.reset.ctl with forces := [{ var := 1, typ := 1, task := 0, input := false, value := zeros 8 }] } }, by decide⟩
theorem witness_TaskAndForceCommands_9 : ∃ (c : Acs) (s : State), Accepts s c 0x0802 inLineStates ∧ c.args.length = 4 ∧ c.nonZero 2 2 = false :=
  ⟨tAcs [0, 0, 0, 0], { tIn .run with ctl := { State.reset.ctl with forces := [{ var := 1, typ := 1, task := 0, input := false, value := zeros 8 }] } }, by decide⟩
theorem witness_TaskAndForceCommands_10 : ∃ (c : Acs) (s : State), Accepts s c 0x0803 runStates ∧ s.carriers = [] ∧ c.args.length = 0 :=
  ⟨tAcs [], { tIn .run with ctl := { State.reset.ctl with forces := [{ var := 1, typ := 1, task := 0, input := false, value := zeros 8 }] } }, by decide⟩
theorem witness_WranglerRounds_1 : ∃ (resA : Nat) (resB : Nat) (s : State), s.alive = true ∧ s.wrSender = true
  ∧ s.wr.lastSched ≠ some (s.trainNow / ttSec % 2 ^ 32) :=
  ⟨3, 70000, tDomain {} [], by decide⟩
theorem witness_WranglerRounds_2 : ∃ (resA : Nat) (resB : Nat) (s : State), s.alive = true ∧ s.wrSender = true
  ∧ s.wr.lastSched = some (s.trainNow / ttSec % 2 ^ 32) :=
  ⟨3, 70000, tDomain { lastSched := some 0 } [], by decide⟩
theorem witness_WranglerRounds_3 : ∃ (f : Frame) (nid : Nid) (m : List Byte) (r : WrRound) (s : State), s.alive = true ∧ s.wrTakes f = some (nid, m)
  ∧ fBe m 0 1 = 1 ∧ s.wr.round = some r ∧ r.kind = fBe m 12 1 ∧ r.round = fBe m 16 4 :=
  ⟨tWr 1 [], 9, tMsg 1 [], { kind := 0, round := 0 }, tDomain { round := some { kind := 0, round := 0 } } [], by decide⟩
theorem witness_WranglerRounds_4 : ∃ (f : Frame) (nid : Nid) (m : List Byte) (s : State), s.alive = true ∧ s.wrTakes f = some (nid, m)
  ∧ fBe m 0 1 = 1 ∧ s.wr.round = none ∧ s.wr.unstarted (fBe m 12 1) (fBe m 16 4) = true :=
  ⟨tWr 1 [], 9, tMsg 1 [], tDomain {} [], by decide⟩
theorem witness_WranglerRounds_5 : ∃ (f : Frame) (s : State), s.wrTakes f = none :=
  ⟨tWr 1 [], tIn .run, by decide⟩
theorem witness_WranglerRounds_6 : ∃ (f : Frame) (nid : Nid) (m : List Byte) (r : WrRound) (s : State), s.alive = true ∧ s.wrTakes f = some (nid, m)
  ∧ fBe m 0 1 = 2 ∧ s.wr.round = some r ∧ r.kind = fBe m 12 1 ∧ r.round = fBe m 16 4 :=
  ⟨tWr 2 (zeros 12), 9, tMsg 2 (zeros 12), { kind := 0, round := 0 }, tDomain { round := some { kind := 0, round := 0 } } [], by decide⟩
theorem witness_WranglerRounds_7 : ∃ (r : WrRound) (s : State), s.wrRuns = true ∧ s.wr.round = some r :=
  ⟨{ kind := 0, round := 0 }, tDomain { round := some { kind := 0, round := 0 } } [], by decide⟩
theorem witness_WranglerRounds_8 : ∃ (r : WrRound) (s : State), s.wrRuns = true ∧ s.wr.round = some r ∧ r.frozen = true ∧ r.own = none :=
  ⟨{ kind := 0, round := 0, frozen := true, reports := [(0, tMsg 1 (zeros 16))] }, tDomain { round := some { kind := 0, round := 0, frozen := true, reports := [(0, tMsg 1 (zeros 16))] } } [], by decide +kernel⟩
theorem witness_WranglerRounds_9 : ∃ (r : WrRound) (s : State), s.wrRuns = true ∧ s.wr.homeDue = none ∧ s.wr.round = some r
  ∧ r.agreed s.node.nid = true :=
  ⟨{ kind := 0, round := 3, frozen := true, place := some [], own := some { nid := 0, digest := 0, fp := 0, moves := 0, unmet := 0 } }, tDomain { round := some { kind := 0, round := 3, frozen := true, place := some [], own := some { nid := 0, digest := 0, fp := 0, moves := 0, unmet := 0 } }, fallback := true } [], by decide +kernel⟩
theorem witness_WranglerRounds_10 : ∃ (r : WrRound) (ps : List Placed) (s : State), s.wrRuns = true ∧ s.wr.homeDue = some ps
  ∧ s.wr.lastInputs = some r :=
  ⟨{ kind := 0, round := 3 }, [], tDomain { homeDue := some [], lastInputs := some { kind := 0, round := 3 }, fallback := true } [], by decide⟩
theorem witness_WranglerRounds_11 : ∃ (r : WrRound) (s : State), s.wrRuns = true ∧ s.wr.round = some r ∧ r.frozen = true
  ∧ r.agreed s.node.nid = false :=
  ⟨{ kind := 0, round := 3, frozen := true }, tDomain { round := some { kind := 0, round := 3, frozen := true } } [], by decide⟩
theorem witness_MigrationsAndWranglerCommands_1 : ∃ (f : Frame) (nid : Nid) (m : List Byte) (g : Migration) (s : State), s.alive = true
  ∧ s.wrTakes f = some (nid, m) ∧ fBe m 0 1 = 3
  ∧ s.wr.migs.find? (fun x => decide (x.id = fBe (m.drop 24) 0 4) && decide (x.peer = nid) && !x.out) = some g ∧ s.mig? g.task = some g :=
  ⟨tWr 3 (be 4 4 ++ [0, 1, 0, 0] ++ zeros 16 ++ zeros 8), 9, tMsg 3 (be 4 4 ++ [0, 1, 0, 0] ++ zeros 16 ++ zeros 8), { task := 0, id := 4, out := false, peer := 9 }, tDomain { migs := [{ task := 0, id := 4, out := false, peer := 9 }] } [], by decide⟩
theorem witness_MigrationsAndWranglerCommands_2 : ∃ (f : Frame) (nid : Nid) (m : List Byte) (g : Migration) (s : State), s.alive = true
  ∧ s.wrTakes f = some (nid, m) ∧ fBe m 0 1 = 4
  ∧ s.wr.migs.find? (fun x => decide (x.id = fBe (m.drop 24) 0 4) && decide (x.peer = nid) && x.out) = some g ∧ s.mig? g.task = some g :=
  ⟨tWr 4 (be 4 4 ++ zeros 20), 9, tMsg 4 (be 4 4 ++ zeros 20), { task := 0, id := 4, out := true, peer := 9 }, tDomain { migs := [{ task := 0, id := 4, out := true, peer := 9 }] } [], by decide⟩
theorem witness_MigrationsAndWranglerCommands_3 : ∃ (f : Frame) (nid : Nid) (m : List Byte) (g : Migration) (s : State), s.alive = true
  ∧ s.wrTakes f = some (nid, m) ∧ fBe m 0 1 = 5
  ∧ s.wr.migs.find? (fun x => decide (x.id = fBe (m.drop 24) 0 4) && decide (x.peer = nid) && !x.out) = some g ∧ s.mig? g.task = some g :=
  ⟨tWr 5 (be 4 4 ++ zeros 20), 9, tMsg 5 (be 4 4 ++ zeros 20), { task := 0, id := 4, out := false, peer := 9 }, tDomain { migs := [{ task := 0, id := 4, out := false, peer := 9 }] } [], by decide⟩
theorem witness_MigrationsAndWranglerCommands_4 : ∃ (f : Frame) (nid : Nid) (m : List Byte) (g : Migration) (s : State), s.alive = true
  ∧ s.wrTakes f = some (nid, m) ∧ fBe m 0 1 = 6
  ∧ s.wr.migs.find? (fun x => decide (x.id = fBe (m.drop 24) 0 4) && decide (x.peer = nid) && x.out) = some g :=
  ⟨tWr 6 (be 4 4 ++ zeros 20), 9, tMsg 6 (be 4 4 ++ zeros 20), { task := 0, id := 4, out := true, peer := 9 }, tDomain { migs := [{ task := 0, id := 4, out := true, peer := 9 }] } [], by decide⟩
theorem witness_MigrationsAndWranglerCommands_5 : ∃ (f : Frame) (nid : Nid) (m : List Byte) (g : Migration) (s : State), s.alive = true
  ∧ s.wrTakes f = some (nid, m) ∧ fBe m 0 1 = 7
  ∧ s.wr.migs.find? (fun x => decide (x.id = fBe (m.drop 24) 0 4) && decide (x.peer = nid) && !x.out) = some g :=
  ⟨tWr 7 (be 4 4 ++ zeros 20), 9, tMsg 7 (be 4 4 ++ zeros 20), { task := 0, id := 4, out := false, peer := 9 }, tDomain { migs := [{ task := 0, id := 4, out := false, peer := 9 }] } [(0, { desc := [0, 3, 4, 0] ++ zeros 60, obj := [], st := .migIn })], by decide⟩
theorem witness_MigrationsAndWranglerCommands_6 : ∃ (task : Nat) (g : Migration) (tk : Task) (s : State), s.alive = true ∧ s.mig? task = some g
  ∧ s.task? task = some tk ∧ g.out = true ∧ g.released = none ∧ ((g.overlaps = 0 ∨ s.migExtend ≤ g.cycles)) :=
  ⟨0, { task := 0, id := 4, out := true, peer := 9 }, { desc := [0, 3, 4, 0] ++ zeros 60, obj := [], st := .migOut }, tDomain { migs := [{ task := 0, id := 4, out := true, peer := 9 }] } [(0, { desc := [0, 3, 4, 0] ++ zeros 60, obj := [], st := .migOut })], by decide⟩
theorem witness_MigrationsAndWranglerCommands_7 : ∃ (task : Nat) (g : Migration) (tk : Task) (s : State), s.mig? task = some g
  ∧ s.task? task = some tk ∧ s.wr.dups.find? (fun d => decide (d.1 = task)) = none ∧ g.out = true ∧ g.released = none :=
  ⟨0, { task := 0, id := 4, out := true, peer := 9, fullSent := true, acked := some 0 }, { desc := [0, 3, 4, 0] ++ zeros 60, obj := [], st := .migOut }, tDomain { migs := [{ task := 0, id := 4, out := true, peer := 9, fullSent := true, acked := some 0 }] } [(0, { desc := [0, 3, 4, 0] ++ zeros 60, obj := [], st := .migOut })], by decide⟩
theorem witness_MigrationsAndWranglerCommands_8 : ∃ (task : Nat) (g : Migration) (k : Nat) (tk : Task) (s : State), s.mig? task = some g
  ∧ s.task? task = some tk ∧ s.wr.dups.find? (fun d => decide (d.1 = task)) = none ∧ g.out = true ∧ g.released = some k ∧ tk.st = .migOut :=
  ⟨0, { task := 0, id := 4, out := true, peer := 9, fullSent := true, released := some 3 }, 3, { desc := [0, 3, 4, 0] ++ zeros 60, obj := [], st := .migOut }, tDomain { migs := [{ task := 0, id := 4, out := true, peer := 9, fullSent := true, released := some 3 }] } [(0, { desc := [0, 3, 4, 0] ++ zeros 60, obj := [], st := .migOut })], by decide⟩
theorem witness_MigrationsAndWranglerCommands_9 : ∃ (c : Acs) (s : State), Accepts s c 0x0900 inLineStates ∧ c.args.length = 0
  ∧ s.placeDomain ≠ 0 :=
  ⟨tAcs [], tDomain {} [], by decide⟩
theorem witness_MigrationsAndWranglerCommands_10 : ∃ (c : Acs) (s : State), Accepts s c 0x0901 inLineStates ∧ c.args.length = 4 ∧ s.placeDomain ≠ 0
  ∧ c.nonZero 2 2 = false :=
  ⟨tAcs [0, 0, 0, 0], tDomain {} [], by decide⟩
theorem witness_MigrationsAndWranglerCommands_11 : ∃ (c : Acs) (s : State), Accepts s c 0x0902 inLineStates ∧ s.carriers = [] ∧ c.args.length = 4
  ∧ s.placeDomain ≠ 0 ∧ c.arg 0 4 ≤ 1 :=
  ⟨tAcs [1, 0, 0, 0], tDomain {} [], by decide⟩
theorem witness_TugLinks_1 : ∃ (l : Nat) (s : State), Inv s ∧ s.alive = true ∧ s.tugLinks.contains l = true :=
  ⟨1, tForm .troika State.reset.red, by
  refine ⟨by constructor <;> decide, by decide, by decide⟩⟩
theorem witness_TugLinks_2 : ∃ (s : State), s.alive = true :=
  ⟨tForm .troika State.reset.red, by decide⟩
theorem witness_TugLinks_3 : ∃ (link : Nat) (data : List Byte) (s : State), Inv s ∧ s.tugOn link = true
  ∧ BitVec.ofNat 64 (fBe data 0 8) = s.node.nid ∧ fBe data 9 1 = s.node.form.code ∧ fBe data 10 2 = 0x0302
  ∧ BitVec.ofNat 256 (fBe data 12 32) = (s.tack.active.map Tack.nodeFp).getD 0 ∧ fBe data 8 1 ≠ s.node.chipIndex :=
  ⟨1, zeros 8 ++ [1, 2, 3, 2] ++ zeros 36, tForm .troika State.reset.red, by
  refine ⟨by constructor <;> decide, by decide, by decide, by decide, by decide, by decide, by decide⟩⟩
theorem witness_TugLinks_4 : ∃ (link : Nat) (data : List Byte) (s : State), Inv s ∧ s.tugOn link = true
  ∧ BitVec.ofNat 64 (fBe data 0 8) ≠ s.node.nid ∧ s.red.claim = true :=
  ⟨1, zeros 7 ++ [1, 1, 2, 3, 2] ++ zeros 36, tForm .troika { State.reset.red with claim := true }, by
  refine ⟨by constructor <;> decide, by decide, by decide, by decide⟩⟩
theorem witness_TugLinks_5 : ∃ (link : Nat) (data : List Byte) (s : State), Inv s ∧ s.tugOn link = true
  ∧ BitVec.ofNat 64 (fBe data 0 8) ≠ s.node.nid ∧ s.red.claim = false ∧ (s.tug link).peerFlags % 4 ≠ 0 ∧ s.node.state.inLine = true :=
  ⟨1, zeros 7 ++ [1, 1, 2, 3, 2] ++ zeros 36, tForm .troika { State.reset.red with tugs := [{}, { peerFlags := 1 }] }, by
  refine ⟨by constructor <;> decide, by decide, by decide, by decide, by decide, by decide⟩⟩
theorem witness_TugLinks_6 : ∃ (link : Nat) (data : List Byte) (s : State), Inv s ∧ s.tugOn link = true :=
  ⟨1, [2, 1, 6, 0] ++ zeros 16, tForm .troika { State.reset.red with tugs := [{}, { beats := 2 }] }, by
  refine ⟨by constructor <;> decide, by decide⟩⟩
theorem witness_TugLinks_7 : ∃ (link : Nat) (lockLost : Bool) (s : State), Inv s ∧ s.tugOn link = true ∧ (s.tug link).up = true :=
  ⟨1, false, tForm .troika { State.reset.red with tugs := tUp }, by
  refine ⟨by constructor <;> decide, by decide, by decide⟩⟩
theorem witness_TugLinks_8 : ∃ (s : State), Inv s ∧ s.alive = true ∧ s.red.onSpare = true ∧ (s.tug 0).up = true :=
  ⟨tForm .span { State.reset.red with tugs := tUp, onSpare := true }, by
  refine ⟨by constructor <;> decide, by decide, by decide, by decide⟩⟩
theorem witness_TugLinks_9 : ∃ (link : Nat) (stamp : Stamp) (s : State), Inv s ∧ s.tugOn link = true :=
  ⟨1, ⟨5, 3⟩, tForm .troika State.reset.red, by
  refine ⟨by constructor <;> decide, by decide⟩⟩
theorem witness_TugLinks_10 : ∃ (link : Nat) (stamp : Stamp) (data : List Byte) (s : State), Inv s ∧ s.tugOn link = true :=
  ⟨1, ⟨5, 3⟩, zeros 24, tForm .troika State.reset.red, by
  refine ⟨by constructor <;> decide, by decide⟩⟩
theorem witness_TugLinks_11 : ∃ (link : Nat) (data : List Byte) (s : State), Inv s ∧ s.tugOn link = true ∧ (s.tug link).up = true :=
  ⟨1, [0, 3, 0, 0], tForm .troika { State.reset.red with tugs := [{}, { up := true, unacked := [{ seq := 2, chan := .sync, typ := 5, data := [] }, { seq := 3, chan := .sync, typ := 5, data := [] }] }] }, by
  refine ⟨by constructor <;> decide, by decide, by decide⟩⟩
theorem witness_TugLinks_12 : ∃ (link : Nat) (s : State), Inv s ∧ s.tugOn link = true ∧ (s.tug link).up = true :=
  ⟨1, tForm .troika { State.reset.red with tugs := [{}, { up := true, unacked := [{ seq := 2, chan := .sync, typ := 5, data := [] }] }] }, by
  refine ⟨by constructor <;> decide, by decide, by decide⟩⟩
theorem witness_TugLinks_13 : ∃ (link : Nat) (crc : Bool) (s : State), Inv s ∧ s.tugOn link = true :=
  ⟨1, true, tForm .troika State.reset.red, by
  refine ⟨by constructor <;> decide, by decide⟩⟩
theorem witness_TugLinks_14 : ∃ (m : TugRx) (s : State), (s.tugOn m.link = false ∨ (s.tug m.link).up = false) :=
  ⟨tRx 1 5 [], tForm .troika State.reset.red, by decide⟩
theorem witness_NodeSharing_1 : ∃ (m : TugRx) (s : State), Inv s ∧ s.tugOn m.link = true ∧ (s.tug m.link).up = true
  ∧ m.seq % 65536 = (s.tug m.link).rxSeq :=
  ⟨tRx 1 6 (zeros 8), tForm .troika { State.reset.red with tugs := tUp }, by
  refine ⟨by constructor <;> decide, by decide, by decide, by decide⟩⟩
theorem witness_NodeSharing_2 : ∃ (m : TugRx) (s : State), Inv s ∧ s.tugOn m.link = true ∧ (s.tug m.link).up = true
  ∧ m.seq % 65536 = (s.tug m.link).rxSeq ∧ s.node.state.running = true :=
  ⟨tRx 1 5 [], tForm .troika { State.reset.red with tugs := tUp }, by
  refine ⟨by constructor <;> decide, by decide, by decide, by decide, by decide⟩⟩
theorem witness_NodeSharing_3 : ∃ (m : TugRx) (s : State), Inv s ∧ s.tugOn m.link = true ∧ (s.tug m.link).up = true
  ∧ m.seq % 65536 = (s.tug m.link).rxSeq ∧ s.keepsCopies = true :=
  ⟨tRx 1 5 ([3, 5, 0, 1] ++ zeros 12 ++ [7, 8]), tForm .troika { State.reset.red with tugs := tUp }, by
  refine ⟨by constructor <;> decide, by decide, by decide, by decide, by decide⟩⟩
theorem witness_NodeSharing_4 : ∃ (m : TugRx) (c : TaskCopy) (s : State), Inv s ∧ s.tugOn m.link = true ∧ (s.tug m.link).up = true
  ∧ m.seq % 65536 = (s.tug m.link).rxSeq ∧ s.node.form = .span ∧ s.red.role = .standby ∧ Store.find s.red.copies (partTask m.data) = some c
  ∧ c.full = true ∧ (crc32 c.lines).toNat = fBe (partData m.data) 0 4 :=
  ⟨tRx 0 4 ([3, 4, 0, 1] ++ zeros 12 ++ be 4 (crc32 []).toNat), { full := true, bank := [7] }, tForm .span { State.reset.red with tugs := tUp, role := .standby, copies := [(3, { full := true, bank := [7] })] }, by
  refine ⟨by constructor <;> decide +kernel, by decide +kernel, by decide +kernel, by decide +kernel, by decide +kernel, by decide +kernel, by decide +kernel, by decide +kernel, by decide +kernel⟩⟩
theorem witness_NodeSharing_5 : ∃ (m : TugRx) (c : TaskCopy) (s : State), Inv s ∧ s.tugOn m.link = true ∧ (s.tug m.link).up = true
  ∧ m.seq % 65536 = (s.tug m.link).rxSeq ∧ s.keepsCopies = true ∧ Store.find s.red.copies (partTask m.data) = some c ∧ c.full = true
  ∧ (crc32 c.lines).toNat ≠ fBe (partData m.data) 0 4 :=
  ⟨tRx 0 4 ([3, 4, 0, 1] ++ zeros 12 ++ [9, 9, 9, 9]), { full := true, bank := [7] }, tForm .span { State.reset.red with tugs := tUp, role := .standby, copies := [(3, { full := true, bank := [7] })] }, by
  refine ⟨by constructor <;> decide +kernel, by decide +kernel, by decide +kernel, by decide +kernel, by decide +kernel, by decide +kernel, by decide +kernel, by decide +kernel⟩⟩
theorem witness_NodeSharing_6 : ∃ (m : TugRx) (tk : Task) (s : State), Inv s ∧ s.tugOn m.link = true ∧ (s.tug m.link).up = true
  ∧ m.seq % 65536 = (s.tug m.link).rxSeq ∧ s.red.claim = true ∧ s.task? (partTask m.data) = some tk ∧ tk.ph ≠ .waiting :=
  ⟨tRx 1 0x11 ([0, 0x11, 0, 1] ++ zeros 12 ++ [7]), { desc := [0, 1, 4, 0] ++ zeros 60, obj := [], st := .running }, { tForm .troika { State.reset.red with tugs := tUp, claim := true } with ctl := { State.reset.ctl with tasks := [(0, { desc := [0, 1, 4, 0] ++ zeros 60, obj := [], st := .running })] } }, by
  refine ⟨by constructor <;> decide, by decide, by decide, by decide, by decide, by decide, by decide⟩⟩
theorem witness_NodeSharing_7 : ∃ (task : Nat) (tk : Task) (s : State), s.alive = true ∧ s.node.form = .troika ∧ s.red.claim = true
  ∧ s.task? task = some tk ∧ s.agreeing task tk = true :=
  ⟨0, { desc := [0, 1, 4, 0] ++ zeros 60, obj := [], st := .running, ph := .waiting }, { tForm .troika { State.reset.red with tugs := tUp, claim := true, inputs := [{ chip := 0, task := 0, cycle := 0, data := [], check := 0, absent := false }] } with ctl := { State.reset.ctl with tasks := [(0, { desc := [0, 1, 4, 0] ++ zeros 60, obj := [], st := .running, ph := .waiting })] } }, by decide⟩
theorem witness_NodeSharing_8 : ∃ (m : TugRx) (tk : Task) (s : State), Inv s ∧ s.tugOn m.link = true ∧ (s.tug m.link).up = true
  ∧ m.seq % 65536 = (s.tug m.link).rxSeq ∧ s.red.claim = true ∧ s.task? (partTask m.data) = some tk ∧ tk.ph ≠ .ended ∧ tk.ph ≠ .held :=
  ⟨tRx 1 0x13 ([0, 0x13, 0, 3] ++ zeros 12 ++ [7, 0, 0, 0]), { desc := [0, 1, 4, 0] ++ zeros 60, obj := [], st := .running }, { tForm .troika { State.reset.red with tugs := tUp, claim := true } with ctl := { State.reset.ctl with tasks := [(0, { desc := [0, 1, 4, 0] ++ zeros 60, obj := [], st := .running })] } }, by
  refine ⟨by constructor <;> decide, by decide, by decide, by decide, by decide, by decide, by decide, by decide⟩⟩
theorem witness_NodeSharing_9 : ∃ (task : Nat) (tk : Task) (w : HeldImage) (s : State), s.alive = true ∧ s.node.form = .troika ∧ s.red.claim = true
  ∧ s.task? task = some tk ∧ ((tk.ph = .ended ∨ tk.ph = .held))
  ∧ s.red.outputs.any (fun x => decide (x.task = task) && decide (x.cycle = tk.cycle) && decide (x.chip = s.node.chipIndex)) = true
  ∧ (((heldOf s.red.outputs task tk.cycle).filter (fun x => s.memberList.contains x.chip)).filter (fun x => !x.absent)).find? (fun x => decide
    (s.memberList.length < 2 * ((((heldOf s.red.outputs task tk.cycle).filter (fun x => s.memberList.contains x.chip)).filter (fun x =>
    !x.absent)).filter (fun y => decide (x.data = y.data) && decide (x.check = y.check))).length)) = some w :=
  ⟨0, { desc := [0, 1, 4, 0] ++ zeros 60, obj := [], st := .running, ph := .ended }, { chip := 0, task := 0, cycle := 0, data := [], check := 0, absent := false }, { tForm .troika { State.reset.red with tugs := tUp, claim := true, members := 1, outputs := [{ chip := 0, task := 0, cycle := 0, data := [], check := 0, absent := false }] } with ctl := { State.reset.ctl with tasks := [(0, { desc := [0, 1, 4, 0] ++ zeros 60, obj := [], st := .running, ph := .ended })] } }, by decide⟩
theorem witness_NodeSharing_10 : ∃ (task : Nat) (tk : Task) (s : State), s.alive = true ∧ s.node.form = .troika ∧ s.red.claim = true
  ∧ s.task? task = some tk ∧ ((tk.ph = .ended ∨ tk.ph = .held))
  ∧ s.red.outputs.any (fun x => decide (x.task = task) && decide (x.cycle = tk.cycle) && decide (x.chip = s.node.chipIndex)) = true
  ∧ (((heldOf s.red.outputs task tk.cycle).filter (fun x => s.memberList.contains x.chip)).filter (fun x => !x.absent)).find? (fun x => decide
    (s.memberList.length < 2 * ((((heldOf s.red.outputs task tk.cycle).filter (fun x => s.memberList.contains x.chip)).filter (fun x =>
    !x.absent)).filter (fun y => decide (x.data = y.data) && decide (x.check = y.check))).length)) = none
  ∧ tk.voteHeld + 1 < s.voteLimit :=
  ⟨0, { desc := [0, 1, 4, 0] ++ zeros 60, obj := [], st := .running, ph := .ended }, { tForm .troika { State.reset.red with tugs := tUp, claim := true, members := 7, outputs := [{ chip := 0, task := 0, cycle := 0, data := [], check := 0, absent := false }] } with ctl := { State.reset.ctl with tasks := [(0, { desc := [0, 1, 4, 0] ++ zeros 60, obj := [], st := .running, ph := .ended })] } }, by decide⟩
theorem witness_NodeSharing_11 : ∃ (m : TugRx) (s : State), Inv s ∧ s.tugOn m.link = true ∧ (s.tug m.link).up = true ∧ m.seq % 65536 = (s.tug m.link).rxSeq ∧ bit (fBe m.data 3 1) 1 = false ∧ (bit (fBe m.data 3 1) 0 = true ∨ ∃ r, r ∈ s.red.parts ∧ r.link = m.link ∧ r.chan = .frame ∧ r.num = fBe m.data 4 2) := ⟨tRx 1 0 ([0, 1, 0, 1] ++ zeros 20), tForm .troika { State.reset.red with tugs := tUp } , by constructor <;> decide, by decide, by decide, by decide, by decide, .inl (by decide)⟩
theorem witness_NodeSharing_12 : ∃ (m : TugRx) (s : State), Inv s ∧ s.tugOn m.link = true ∧ (s.tug m.link).up = true
  ∧ m.seq % 65536 = (s.tug m.link).rxSeq ∧ m.typ = 1 ∧ (mgmtCmd s m.link m.data).opcode ≠ 0x0A03 :=
  ⟨tRx 1 1 ([2, 9] ++ zeros 18), tForm .troika { State.reset.red with tugs := tUp, claim := true }, by
  refine ⟨by constructor <;> decide, by decide, by decide, by decide, by decide, by decide⟩⟩
theorem witness_NodeSharing_13 : ∃ (m : TugRx) (c : NodeCmd) (s : State), Inv s ∧ s.tugOn m.link = true ∧ (s.tug m.link).up = true
  ∧ m.seq % 65536 = (s.tug m.link).rxSeq ∧ m.typ = 2 ∧ fLe m.data 2 2 = stOk ∧ s.red.cmds = [c] ∧ c.ref.isSome = true ∧ c.opcode = fLe m.data 0 2
  ∧ c.tag.toNat = fLe m.data 4 2 ∧ c.left.contains (s.linkChip m.link) = true ∧ c.applied = true ∧ c.result.isSome = true :=
  ⟨tRx 0 2 ([2, 9, 0, 0] ++ zeros 12), { ref := some ((tAcs []).ref 0x0902), chip := 0, opcode := 0x0902, tag := 0, gen := 0, args := [1, 0, 0, 0], left := [1], applied := true, result := some (0, []) }, tForm .troika { State.reset.red with tugs := tUp, claim := true , cmds := [{ ref := some ((tAcs []).ref 0x0902), chip := 0, opcode := 0x0902, tag := 0, gen := 0, args := [1, 0, 0, 0], left := [1], applied := true, result := some (0, []) }] }, by
  refine ⟨by constructor <;> decide, by decide, by decide, by decide, by decide, by decide, by decide, by decide, by decide, by decide, by decide, by decide, by decide⟩⟩
theorem witness_NodeSharing_14 : ∃ (c : NodeCmd) (s : State), s.alive = true ∧ s.red.cmds = [c] ∧ c.ordered = true ∧ c.applied = false
  ∧ c.opcode = 0x0902 ∧ ((c.ref = none ∨ c.left ≠ [])) :=
  ⟨{ ref := none, chip := 1, opcode := 0x0902, tag := 0, gen := 0, args := [1, 0, 0, 0], left := [] }, tForm .troika { State.reset.red with tugs := tUp, cmds := [{ ref := none, chip := 1, opcode := 0x0902, tag := 0, gen := 0, args := [1, 0, 0, 0], left := [] }] }, by decide⟩
theorem witness_NodeSharing_15 : ∃ (c : NodeCmd) (s : State), Inv s ∧ s.alive = true ∧ s.red.cmds = [c] ∧ c.ref.isSome = true ∧ c.left ≠ [] :=
  ⟨{ ref := some ((tAcs []).ref 0x0902), chip := 0, opcode := 0x0902, tag := 0, gen := 0, args := [1, 0, 0, 0], left := [1] }, tForm .troika { State.reset.red with tugs := tUp, cmds := [{ ref := some ((tAcs []).ref 0x0902), chip := 0, opcode := 0x0902, tag := 0, gen := 0, args := [1, 0, 0, 0], left := [1] }] }, by
  refine ⟨by constructor <;> decide, by decide, by decide, by decide, by decide⟩⟩
theorem witness_RolesAndMembership_1 : ∃ (pin : Nat) (level : Bool) (s : State), s.alive = true ∧ pin ≤ 1
  ∧ (if pin = 0 then s.red.peerClaim0 else s.red.peerClaim1) ≠ level ∧ ((s.node.form = .span ∨ (s.node.form = .troika ∧ s.red.claim = false)))
  ∧ s.node.active = s.red.claim :=
  ⟨1, true, { tForm .troika { State.reset.red with tugs := tUp } with node := { (tIn .run).node with form := .troika, active := false } }, by decide⟩
theorem witness_RolesAndMembership_2 : ∃ (pin : Nat) (level : Bool) (s : State), s.node.form = .simplex ∧ pin ≤ 1 :=
  ⟨1, true, tIn .run, by decide⟩
theorem witness_RolesAndMembership_3 : ∃ (s : State), s.alive = true ∧ s.mayClaim = true :=
  ⟨{ tForm .span { State.reset.red with tugs := tUp, role := .standby } with node := { (tIn .run).node with form := .span, active := false } }, by decide⟩
theorem witness_RolesAndMembership_4 : ∃ (s : State), s.mayClaim = false :=
  ⟨tForm .span { State.reset.red with tugs := tUp, peerClaim0 := true }, by decide⟩
theorem witness_RolesAndMembership_5 : ∃ (s : State), s.alive = true ∧ s.node.form = .span ∧ s.red.peerClaim0 = false
  ∧ s.red.tugs.any (fun x => x.up && bit x.peerFlags 0) = true :=
  ⟨tForm .span { State.reset.red with tugs := [{ up := true, peerFlags := 1 }, {}] }, by decide⟩
theorem witness_RolesAndMembership_6 : ∃ (s : State), s.alive = true ∧ s.node.form = .troika ∧ s.red.role = .syncing ∧ s.node.state.inLine = true
  ∧ s.node.state ≠ .safe ∧ ((s.red.members = 0 ∨ (s.synced = true ∧ s.time.tbLock = true))) :=
  ⟨tForm .troika { State.reset.red with tugs := tUp, role := .syncing }, by decide⟩
theorem witness_RolesAndMembership_7 : ∃ (s : State), s.pulses = true :=
  ⟨tForm .troika { State.reset.red with tugs := tUp, claim := true }, by decide⟩
theorem witness_RolesAndMembership_8 : ∃ (s : State), s.pulses = false :=
  ⟨tForm .troika { State.reset.red with tugs := tUp }, by decide⟩
theorem witness_RolesAndMembership_9 : ∃ (s : State), s.pulses = true ∧ s.time.syncOut = .high :=
  ⟨{ tForm .troika { State.reset.red with tugs := tUp, claim := true } with time := { State.reset.time with syncOut := .high } }, by decide⟩
theorem witness_RolesAndMembership_10 : ∃ (stamp : Stamp) (leader : Nat) (s : State), s.alive = true ∧ s.node.form = .troika ∧ s.time.tbLock = true
  ∧ (16 * (leader : Int) - (((stamp.tick * 16 + stamp.frac % 16 : Nat) : Int) - s.tbSkew)) - s.time.tbDelta ≤ 2
  ∧ s.time.tbDelta - (16 * (leader : Int) - (((stamp.tick * 16 + stamp.frac % 16 : Nat) : Int) - s.tbSkew)) ≤ 2 :=
  ⟨⟨5, 0⟩, 5, { tForm .troika { State.reset.red with tugs := tUp } with time := { State.reset.time with tbLock := true } }, by decide⟩
theorem witness_RolesAndMembership_11 : ∃ (stamp : Stamp) (leader : Nat) (s : State), s.alive = true ∧ s.node.form = .troika ∧ s.time.tbLock = true
  ∧ ((2 < (16 * (leader : Int) - (((stamp.tick * 16 + stamp.frac % 16 : Nat) : Int) - s.tbSkew)) - s.time.tbDelta ∨ 2 < s.time.tbDelta - (16 *
    (leader : Int) - (((stamp.tick * 16 + stamp.frac % 16 : Nat) : Int) - s.tbSkew)))) :=
  ⟨⟨5, 0⟩, 6, { tForm .troika { State.reset.red with tugs := tUp, claim := true, role := .member } with time := { State.reset.time with tbLock := true } }, by decide⟩
theorem witness_RolesAndMembership_12 : ∃ (stamp : Stamp) (leader : Nat) (s : State), s.alive = true ∧ s.node.form = .troika ∧ s.time.tbLock = false
  ∧ s.time.tbCount = 15 ∧ s.time.tbCand = 16 * (leader : Int) - (((stamp.tick * 16 + stamp.frac % 16 : Nat) : Int) - s.tbSkew) :=
  ⟨⟨5, 0⟩, 5, { tForm .troika { State.reset.red with tugs := tUp } with time := { State.reset.time with tbCount := 15 } }, by decide⟩
theorem witness_RolesAndMembership_13 : ∃ (s : State), s.alive = true ∧ s.node.form = .troika ∧ s.time.tbLock = true :=
  ⟨{ tForm .troika { State.reset.red with tugs := tUp, claim := true, role := .member } with time := { State.reset.time with tbLock := true } }, by decide⟩
theorem witness_RolesAndMembership_14 : ∃ (c : Acs) (s : State), Accepts s c 0x0A00 inLineStates ∧ c.args.length = 0 ∧ s.node.form ≠ .simplex :=
  ⟨tAcs [], tForm .span State.reset.red, by decide⟩
theorem witness_RolesAndMembership_15 : ∃ (c : Acs) (s : State), Accepts s c 0x0A01 inLineStates ∧ c.args.length = 0 ∧ s.node.form ≠ .simplex :=
  ⟨tAcs [], tForm .span State.reset.red, by decide⟩
theorem witness_RolesAndMembership_16 : ∃ (c : Acs) (s : State), Accepts s c 0x0A02 inLineStates ∧ c.args.length = 16 ∧ c.nonZero 14 2 = false
  ∧ s.node.form = .span ∧ s.hasStandby = true ∧ c.arg 12 2 = s.time.epoch.toNat :=
  ⟨tAcs (zeros 16), tForm .span { State.reset.red with tugs := [{}, { up := true, peerRole := 2 }], role := .active, claim := true }, by decide⟩
theorem witness_RolesAndMembership_17 : ∃ (ref : Option AcsRef) (at_ : Nat) (s : State), s.alive = true ∧ s.node.form = .span ∧ s.red.role = .active
  ∧ s.red.switchAt = some (ref, at_) :=
  ⟨none, 5, tForm .span { State.reset.red with tugs := tUp, role := .active, claim := true, switchAt := some (none, 5) }, by decide⟩
theorem witness_RolesAndMembership_18 : ∃ (c : Acs) (s : State), Accepts s c 0x0A03 inLineStates ∧ c.args.length = 4 ∧ c.arg 0 1 ≤ 2
  ∧ c.nonZero 1 3 = false ∧ s.node.form = .troika ∧ 2 ≤ (s.memberList.filter (fun j => decide (j ≠ c.arg 0 1))).length :=
  ⟨tAcs [0, 0, 0, 0], tForm .troika { State.reset.red with tugs := tUp, role := .member, claim := true, members := 7 }, by decide⟩
theorem witness_RolesAndMembership_19 : ∃ (c : Acs) (s : State), Accepts s c 0x0A04 inLineStates ∧ c.args.length = 0 ∧ s.node.form ≠ .simplex
  ∧ s.red.excludeCause ≠ 1 ∧ s.red.excludeCause ≠ 3 ∧ s.red.needRejoin = true :=
  ⟨tAcs [], tForm .troika { State.reset.red with tugs := tUp, needRejoin := true, role := .excluded, excludeCause := 6 }, by decide⟩
theorem witness_CanTransmission_1 : ∃ (ch : Nat) (b : Nat) (s : State), Inv s ∧ (((s.canCh ch).mode = 1 ∨ (s.canCh ch).mode = 4))
  ∧ (s.canCh ch).ready = true ∧ (s.canCh ch).busOff = false ∧ (s.canCh ch).active = none ∧ s.node.state.running = true
  ∧ (s.canCh ch).choose = some b :=
  ⟨0, 0, tCan 2 { mode := 1, ready := true, bufs := [(0, { code := cTxPending })] }, by
  refine ⟨by constructor <;> decide, by decide, by decide, by decide, by decide, by decide, by decide⟩⟩
theorem witness_CanTransmission_2 : ∃ (ch : Nat) (b : Nat) (s : State), Inv s ∧ (((s.canCh ch).mode = 1 ∨ (s.canCh ch).mode = 4))
  ∧ (s.canCh ch).ready = true ∧ (s.canCh ch).busOff = false ∧ (s.canCh ch).active = none ∧ s.node.state.running = true
  ∧ (s.canCh ch).choose = some b ∧ s.canHost ch b = true ∧ s.canKind ch b = 2 :=
  ⟨0, 0, tCan 2 { mode := 1, ready := true, bufs := [(0, { code := cTxPending })] }, by
  refine ⟨by constructor <;> decide, by decide, by decide, by decide, by decide, by decide, by decide, by decide, by decide⟩⟩
theorem witness_CanTransmission_3 : ∃ (ch : Nat) (b : Nat) (s : State), Inv s ∧ (s.canCh ch).active = some b ∧ ((s.canCh ch).buf b).code = cTxActive
  ∧ (s.canCh ch).pendCfg = none ∧ ((s.canCh ch).buf b).next = none ∧ ((s.canHost ch b = false ∨ s.canMayAsk = true)) :=
  ⟨0, 0, tCan 2 { mode := 1, ready := true, active := some 0, bufs := [(0, { code := cTxActive })] }, by
  refine ⟨by constructor <;> decide, by decide, by decide, by decide, by decide, by decide⟩⟩
theorem witness_CanTransmission_4 : ∃ (ch : Nat) (b : Nat) (s : State), Inv s ∧ (s.canCh ch).active = some b ∧ (s.canCh ch).mode = 1
  ∧ (s.canCh ch).pendCfg = none ∧ ((s.canCh ch).buf b).next = none ∧ s.canHost ch b = true ∧ s.txnBuffer ch ≠ some b
  ∧ s.br.sessions.all (fun e => e.2.queue.isEmpty) = true :=
  ⟨0, 0, tCan 2 { mode := 1, ready := true, active := some 0, bufs := [(0, { code := cTxActive })] }, by
  refine ⟨by constructor <;> decide, by decide, by decide, by decide, by decide, by decide, by decide, by decide⟩⟩
theorem witness_CanTransmission_5 : ∃ (ch : Nat) (b : Nat) (m : CanMsg) (s : State), Inv s ∧ (s.canCh ch).active = some b ∧ (s.canCh ch).mode = 1
  ∧ (s.canCh ch).pendCfg = none ∧ ((s.canCh ch).buf b).next = some m ∧ s.txnBuffer ch ≠ some b
  ∧ s.br.sessions.all (fun e => e.2.queue.isEmpty) = true :=
  ⟨0, 0, { id := 9 }, tCan 2 { mode := 1, ready := true, active := some 0, bufs := [(0, { code := cTxActive, next := some { id := 9 } })] }, by
  refine ⟨by constructor <;> decide, by decide, by decide, by decide, by decide, by decide, by decide⟩⟩
theorem witness_CanTransmission_6 : ∃ (ch : Nat) (kind : Nat) (inData : Bool) (exempt : Bool) (extra : Nat) (tdc : Bool) (b : Nat) (s : State), Inv s
  ∧ (s.canCh ch).mode = 1 ∧ (s.canCh ch).ready = true ∧ (s.canCh ch).busOff = false ∧ 1 ≤ kind ∧ kind ≤ 6 ∧ (s.canCh ch).active = some b
  ∧ ((s.canCh ch).buf b).code = cTxActive ∧ ((s.canCh ch).buf b).cancel = false ∧ ((s.canCh ch).buf b).next = none
  ∧ ((s.canCh ch).buf b).bitRun < 15 ∧ (s.canCh ch).pendCfg = none ∧ ((s.canHost ch b = false ∨ s.canMayAsk = true)) :=
  ⟨0, 4, true, false, 0, false, 0, tCan 2 { mode := 1, ready := true, active := some 0, bufs := [(0, { code := cTxActive })] }, by
  refine ⟨by constructor <;> decide, by decide, by decide, by decide, by decide, by decide, by decide, by decide, by decide, by decide, by decide, by decide, by decide⟩⟩
theorem witness_CanTransmission_7 : ∃ (ch : Nat) (kind : Nat) (inData : Bool) (exempt : Bool) (extra : Nat) (s : State), Inv s
  ∧ (s.canCh ch).mode = 1 ∧ (s.canCh ch).ready = true ∧ (s.canCh ch).busOff = false ∧ (s.canCh ch).tec < 256 ∧ 1 ≤ kind ∧ kind ≤ 6
  ∧ (s.canCh ch).pendCfg = none :=
  ⟨0, 6, false, false, 1, tCan 2 { mode := 1, ready := true }, by
  refine ⟨by constructor <;> decide, by decide, by decide, by decide, by decide, by decide, by decide, by decide⟩⟩
theorem witness_CanTransmission_8 : ∃ (ch : Nat) (exempt : Bool) (b : Nat) (s : State), Inv s ∧ (s.canCh ch).mode = 1 ∧ (s.canCh ch).ready = true
  ∧ (s.canCh ch).busOff = false ∧ (s.canCh ch).active = some b ∧ ((s.canCh ch).buf b).code = cTxActive ∧ ((s.canCh ch).buf b).cancel = false
  ∧ ((s.canCh ch).buf b).next = none ∧ ((s.canCh ch).buf b).bitRun = 15 ∧ (s.canCh ch).pendCfg = none
  ∧ ((s.canHost ch b = false ∨ s.canMayAsk = true)) :=
  ⟨0, false, 0, tCan 2 { mode := 1, ready := true, active := some 0, bufs := [(0, { code := cTxActive, bitRun := 15 })] }, by
  refine ⟨by constructor <;> decide, by decide, by decide, by decide, by decide, by decide, by decide, by decide, by decide, by decide, by decide⟩⟩
theorem witness_CanTransmission_9 : ∃ (ch : Nat) (s : State), Inv s ∧ (s.canCh ch).busOff = true :=
  ⟨0, tCan 2 { mode := 1, ready := true, busOff := true, tec := 260 }, by
  refine ⟨by constructor <;> decide, by decide⟩⟩
theorem witness_CanTransmission_10 : ∃ (ch : Nat) (s : State), Inv s ∧ (s.canCh ch).mode ≠ 0 :=
  ⟨0, tCan 2 { mode := 1 }, by
  refine ⟨by constructor <;> decide, by decide⟩⟩
theorem witness_CanTransmission_11 : ∃ (buf : Nat) (w : Word) (s : State), Inv s ∧ s.alive = true ∧ s.can.winSel < 8 ∧ buf < 128
  ∧ s.canHost s.can.winSel buf = true ∧ s.canKind s.can.winSel buf = 2 ∧ ((s.canCh s.can.winSel).buf buf).code ≠ cTxPending
  ∧ ((s.canCh s.can.winSel).buf buf).code ≠ cTxActive :=
  ⟨0, 0x90000001, tCan 2 { mode := 1, ready := true, bufs := [(0, { code := cTxIdle })] }, by
  refine ⟨by constructor <;> decide, by decide, by decide, by decide, by decide, by decide, by decide, by decide⟩⟩
theorem witness_CanTransmission_12 : ∃ (buf : Nat) (w : Word) (s : State), Inv s ∧ s.alive = true ∧ s.can.winSel < 8 ∧ buf < 128
  ∧ s.canHost s.can.winSel buf = true ∧ s.canKind s.can.winSel buf = 2 ∧ ((s.canCh s.can.winSel).buf buf).code ≠ cTxPending
  ∧ ((s.canCh s.can.winSel).buf buf).code ≠ cTxActive :=
  ⟨0, 0x80000001, tCan 2 { mode := 1, ready := true, bufs := [(0, { code := cTxDone })] }, by
  refine ⟨by constructor <;> decide, by decide, by decide, by decide, by decide, by decide, by decide, by decide⟩⟩
theorem witness_CanTransmission_13 : ∃ (ch : Nat) (buf : Nat) (s : State), Inv s ∧ s.alive = true ∧ ch < 8 ∧ buf < 128 ∧ s.canHost ch buf = true :=
  ⟨0, 0, tCan 2 { mode := 1, ready := true, bufs := [(0, { code := cTxPending })] }, by
  refine ⟨by constructor <;> decide, by decide, by decide, by decide, by decide⟩⟩
theorem witness_CanTransmission_14 : ∃ (ch : Nat) (buf : Nat) (s : State), s.canHost ch buf = false :=
  ⟨0, 0, tIn .run, by decide⟩
theorem witness_CanTransmission_15 : ∃ (ch : Nat) (b : Nat) (s : State), Inv s ∧ s.alive = true ∧ ch < 8 ∧ b < 128 ∧ s.canHost ch b = true
  ∧ ((s.canCh ch).buf b).code = cTxPending :=
  ⟨0, 0, tCan 2 { mode := 1, ready := true, bufs := [(0, { code := cTxPending })] }, by
  refine ⟨by constructor <;> decide, by decide, by decide, by decide, by decide, by decide⟩⟩
theorem witness_CanReceptionAndCommands_1 : ∃ (ch : Nat) (f : CanFrame) (sof : Nat) (b : Nat) (s : State), Inv s ∧ s.alive = true ∧ ch < 8
  ∧ s.node.state ≠ .stabled ∧ (s.canCh ch).mode = 1 ∧ (s.canCh ch).ready = true ∧ (s.canCh ch).busOff = false
  ∧ ((f.fdf = false ∨ (s.canCh ch).fd = true)) ∧ (List.range 128).find? (fun k => decide (s.canKind ch k = 1) && (s.canCh ch).accepts k f) = some b
  ∧ s.canOwnerOf ch b = 0 ∧ (s.canCh ch).tec < 256 :=
  ⟨0, tCanFrame, 99, 0, tCan 1 { mode := 1, ready := true, bufs := [(0, { code := cRxEmpty })] }, by
  refine ⟨by constructor <;> decide, by decide, by decide, by decide, by decide, by decide, by decide, by decide, by decide, by decide, by decide⟩⟩
theorem witness_CanReceptionAndCommands_2 : ∃ (ch : Nat) (f : CanFrame) (sof : Nat) (s : State), Inv s ∧ s.alive = true ∧ ch < 8
  ∧ s.node.state ≠ .stabled ∧ (s.canCh ch).mode = 1 ∧ (s.canCh ch).ready = true ∧ (s.canCh ch).busOff = false
  ∧ ((f.fdf = false ∨ (s.canCh ch).fd = true)) ∧ (List.range 128).find? (fun k => decide (s.canKind ch k = 1) && (s.canCh ch).accepts k f) = none
  ∧ (s.canCh ch).tec < 256 :=
  ⟨0, tCanFrame, 99, tCan 2 { mode := 1, ready := true, bufs := [(0, { code := cTxIdle })] }, by
  refine ⟨by constructor <;> decide, by decide, by decide, by decide, by decide, by decide, by decide, by decide, by decide, by decide⟩⟩
theorem witness_CanReceptionAndCommands_3 : ∃ (ch : Nat) (f : CanFrame) (sof : Nat) (bad : Option Nat) (s : State), Inv s ∧ s.alive = true ∧ ch < 8
  ∧ s.node.state = .stabled ∧ (s.canCh ch).wakeMatch f = true :=
  ⟨0, { tCanFrame with id := 0 }, 99, none, { tIn .stabled with can := { State.reset.can with chans := { block := [1, 32] ++ zeros 21 ++ [128] ++ zeros 8 } :: List.replicate 7 {} } }, by
  refine ⟨by constructor <;> decide, by decide, by decide, by decide, by decide⟩⟩
theorem witness_CanReceptionAndCommands_4 : ∃ (ch : Nat) (s : State), Inv s ∧ s.alive = true ∧ ch < 8 ∧ s.node.state = .stabled
  ∧ (s.canCh ch).wakes = true ∧ (s.canCh ch).blk 14 2 ≠ 0 :=
  ⟨0, { tIn .stabled with can := { State.reset.can with chans := { block := [1, 32] ++ zeros 12 ++ [5] ++ zeros 17 } :: List.replicate 7 {} } }, by
  refine ⟨by constructor <;> decide, by decide, by decide, by decide, by decide, by decide⟩⟩
theorem witness_CanReceptionAndCommands_5 : ∃ (buf : Nat) (s : State), Inv s ∧ s.alive = true ∧ s.can.winSel < 8 ∧ buf < 128
  ∧ s.canHost s.can.winSel buf = true ∧ s.canKind s.can.winSel buf = 1 :=
  ⟨0, tCan 1 { mode := 1, ready := true, bufs := [(0, { code := cRxFull })] }, by
  refine ⟨by constructor <;> decide, by decide, by decide, by decide, by decide, by decide⟩⟩
theorem witness_CanReceptionAndCommands_6 : ∃ (buf : Nat) (s : State), Inv s ∧ s.alive = true ∧ s.can.winSel < 8 ∧ buf < 128
  ∧ ((s.canCh s.can.winSel).buf buf).locked = true :=
  ⟨0, tCan 1 { mode := 1, ready := true, bufs := [(0, { code := cRxFull, locked := true })] }, by
  refine ⟨by constructor <;> decide, by decide, by decide, by decide, by decide⟩⟩
theorem witness_CanReceptionAndCommands_7 : ∃ (m : CanMsg) (rest : List CanMsg) (s : State), Inv s ∧ s.alive = true ∧ s.can.winSel < 8
  ∧ (s.canCh s.can.winSel).fifo = m :: rest :=
  ⟨{}, [], tCan 1 { mode := 1, ready := true, fifo := [{}] }, by
  refine ⟨by constructor <;> decide, by decide, by decide, by decide⟩⟩
theorem witness_CanReceptionAndCommands_8 : ∃ (err : Bool) (s : State), Inv s ∧ s.alive = true ∧ s.can.winSel < 8
  ∧ (s.canCh s.can.winSel).fifo = [] :=
  ⟨true, tCan 1 { mode := 1, ready := true }, by
  refine ⟨by constructor <;> decide, by decide, by decide, by decide⟩⟩
theorem witness_CanReceptionAndCommands_9 : ∃ (m : CanMsg) (rest : List CanMsg) (s : State), Inv s ∧ s.alive = true ∧ s.can.winSel < 8
  ∧ (s.canCh s.can.winSel).fifo = m :: rest :=
  ⟨{}, [], tCan 1 { mode := 1, ready := true, fifo := [{}], fifoLock := true }, by
  refine ⟨by constructor <;> decide, by decide, by decide, by decide⟩⟩
theorem witness_CanReceptionAndCommands_10 : ∃ (buf : Nat) (s : State), Inv s ∧ s.alive = true ∧ s.can.winSel < 8 ∧ buf < 128
  ∧ s.canHost s.can.winSel buf = true ∧ s.canKind s.can.winSel buf = 1 ∧ Store.wf {} (s.canCh s.can.winSel).bufs = true :=
  ⟨0, tCan 1 { mode := 1, ready := true, bufs := [(0, { code := cRxFull, locked := true })] }, by
  refine ⟨by constructor <;> decide, by decide, by decide, by decide, by decide, by decide, by decide⟩⟩
theorem witness_CanReceptionAndCommands_11 : ∃ (ch : Nat) (s : State), Inv s ∧ (s.canCh ch).reloading = true :=
  ⟨0, tCan 1 { mode := 1, ready := true, reloading := true, badFilts := [0] }, by
  refine ⟨by constructor <;> decide, by decide⟩⟩
theorem witness_CanReceptionAndCommands_12 : ∃ (c : Acs) (s : State), Inv s ∧ Accepts s c 0x0B00 inLineStates ∧ s.carriers = [] ∧ c.args.length = 36
  ∧ c.arg 0 1 ≤ 7 ∧ c.nonZero 1 3 = false ∧ canBlockOk (c.args.drop 4) = true ∧ (s.canCh (c.arg 0 1)).pendCfg = none :=
  ⟨tAcs ([0, 0, 0, 0] ++ ({} : CanChan).block), tCan 1 { mode := 1, ready := true }, by
  refine ⟨by constructor <;> decide, by decide, by decide, by decide, by decide, by decide, by decide, by decide⟩⟩
theorem witness_CanReceptionAndCommands_13 : ∃ (c : Acs) (s : State), Accepts s c 0x0B01 inServing ∧ c.args.length = 4 ∧ c.arg 0 1 ≤ 7
  ∧ c.nonZero 1 3 = false :=
  ⟨tAcs [0, 0, 0, 0], tCan 1 { mode := 1, ready := true }, by decide⟩
theorem witness_LegacyLines_1 : ∃ (unit : Nat) (events : List Nat) (s : State), Inv s ∧ unit < 2 ∧ (s.legUnit unit).master = true
  ∧ s.legRole unit = 2 :=
  ⟨1, [9], tLeg 1 2 1 [{}, { master := true }, {}], by
  refine ⟨by constructor <;> decide, by decide, by decide, by decide⟩⟩
theorem witness_LegacyLines_2 : ∃ (unit : Nat) (events : List Nat) (s : State), Inv s ∧ unit < 2 ∧ (s.legUnit unit).master = true
  ∧ s.legRole unit = 2 :=
  ⟨1, [9], tLeg 1 2 1 [{}, { master := true }, {}], by
  refine ⟨by constructor <;> decide, by decide, by decide, by decide⟩⟩
theorem witness_LegacyLines_3 : ∃ (unit : Nat) (m : MvbMaster) (b : LineRx) (s : State), Inv s ∧ unit < 2 ∧ s.legHears unit = true
  ∧ (s.legUnit unit).trustB = false ∧ b ≠ .bad :=
  ⟨1, .transfer 5, .absent, tLeg 1 2 1 [{}, {}, {}], by
  refine ⟨by constructor <;> decide, by decide, by decide, by decide, by decide⟩⟩
theorem witness_LegacyLines_4 : ∃ (unit : Nat) (addr : Nat) (data : List Byte) (b : LineRx) (r : List Byte) (s : State), Inv s ∧ unit < 2
  ∧ s.legHears unit = true ∧ (s.legUnit unit).trustB = false ∧ b ≠ .bad ∧ s.legRec unit addr = some r ∧ (s.legUnit unit).reloading = false :=
  ⟨1, 7, [1, 2, 3, 4], .absent, [7, 0, 2, 1, 0, 0, 0, 0], tLeg 1 1 2 [{}, {}, {}], by
  refine ⟨by constructor <;> decide, by decide, by decide, by decide, by decide, by decide, by decide⟩⟩
theorem witness_LegacyLines_5 : ∃ (unit : Nat) (addr : Nat) (s : State), Inv s ∧ (s.legUnit unit).polls.contains addr = true :=
  ⟨1, 7, tLeg 1 2 2 [{}, { polls := [7] }, {}], by
  refine ⟨by constructor <;> decide, by decide⟩⟩
theorem witness_LegacyLines_6 : ∃ (unit : Nat) (s : State), Inv s ∧ unit < 2 ∧ s.legRole unit = 2 :=
  ⟨1, tLeg 1 2 2 [{}, {}, {}], by
  refine ⟨by constructor <;> decide, by decide, by decide⟩⟩
theorem witness_LegacyLines_7 : ∃ (unit : Nat) (s : State), Inv s ∧ unit < 2 ∧ (s.legUnit unit).master = true
  ∧ ((s.baList unit)[((s.baList unit).findIdx (fun x => decide (x = s.devAddr unit)) + 1) % max 1 (s.baList unit).length]?).getD (s.devAddr unit) ≠
    s.devAddr unit :=
  ⟨1, { tLeg 1 2 2 [{}, { master := true }, {}] with tack := { State.reset.tack with active := some (tTack [tLegParam 2 1 [5, 0], tLegParam 4 1 [5, 0, 6, 0]] []) } }, by
  refine ⟨by constructor <;> decide, by decide, by decide, by decide⟩⟩
theorem witness_LegacyLines_8 : ∃ (unit : Nat) (line : Line) (s : State), Inv s
  ∧ (if line = .a then (s.legUnit unit).badA else (s.legUnit unit).badB) = true :=
  ⟨1, .b, tLeg 1 2 2 [{}, { badB := true }, {}], by
  refine ⟨by constructor <;> decide, by decide⟩⟩
theorem witness_LegacyLines_9 : ∃ (src : Nat) (data : List Byte) (b : LineRx) (r : List Byte) (s : State), Inv s ∧ s.legHears 2 = true
  ∧ (s.legUnit 2).trustB = false ∧ b ≠ .bad ∧ s.legRec 2 src = some r ∧ (s.legUnit 2).reloading = false :=
  ⟨7, [1, 2, 3, 4], .absent, [7, 0, 2, 1, 0, 0, 0, 0], tLeg 2 1 2 [{}, {}, {}], by
  refine ⟨by constructor <;> decide, by decide, by decide, by decide, by decide, by decide⟩⟩
theorem witness_LegacyLines_10 : ∃ (b : LineRx) (s : State), Inv s ∧ s.legHears 2 = true ∧ (s.legUnit 2).trustB = false ∧ b ≠ .bad
  ∧ s.legRole 2 ≠ 0 :=
  ⟨.absent, tLeg 2 1 2 [{}, {}, { sendq := [{ peer := 9, data := [1] }] }], by
  refine ⟨by constructor <;> decide, by decide, by decide, by decide, by decide⟩⟩
theorem witness_LegacyLines_11 : ∃ (comp : List WtbNode) (own : Nat) (master : Nat) (endA : Bool) (endB : Bool) (s : State), Inv s
  ∧ s.legHears 2 = true :=
  ⟨[{ addr := 3, orient := 1, pos := 0 }], 3, 3, true, false, tLeg 2 1 2 [{}, {}, {}], by
  refine ⟨by constructor <;> decide, by decide⟩⟩
theorem witness_LegacyLines_12 : ∃ (s : State), Inv s ∧ s.legRole 2 ≠ 0 ∧ (s.legUnit 2).comp ≠ [] ∧ (s.legUnit 2).masterAddr = (s.legUnit 2).own :=
  ⟨tLeg 2 1 2 [{}, {}, { comp := [{ addr := 3, orient := 1, pos := 0 }, { addr := 4, orient := 1, pos := 1 }], own := 3, masterAddr := 3 }], by
  refine ⟨by constructor <;> decide, by decide, by decide, by decide⟩⟩
theorem witness_LegacyLines_13 : ∃ (unit : Nat) (s : State), Inv s ∧ unit < 3 :=
  ⟨1, tLeg 1 2 2 [{}, { reloading := true }, {}], by
  refine ⟨by constructor <;> decide, by decide⟩⟩
theorem witness_LegacyCommands_1 : ∃ (c : Acs) (s : State), Accepts s c 0x0C00 inLineStates ∧ c.args.length = 4 ∧ c.arg 0 1 ≤ 2
  ∧ c.nonZero 1 3 = false :=
  ⟨tAcs [1, 0, 0, 0], tIn .run, by decide⟩
theorem witness_LegacyCommands_2 : ∃ (c : Acs) (r : List Byte) (s : State), Accepts s c 0x0C01 inLineStates ∧ c.args.length = 4 ∧ c.arg 0 1 ≤ 2
  ∧ c.nonZero 1 1 = false ∧ s.legRec (c.arg 0 1) (c.arg 2 2) = some r :=
  ⟨tAcs [1, 0, 7, 0], [7, 0, 2, 1, 0, 0, 0, 0], tLeg 1 1 2 [{}, {}, {}], by decide⟩
theorem witness_LegacyCommands_3 : ∃ (c : Acs) (r : List Byte) (s : State), Inv s ∧ Accepts s c 0x0C02 inLineStates ∧ s.carriers = []
  ∧ 4 ≤ c.args.length ∧ c.arg 0 1 ≤ 2 ∧ c.nonZero 1 1 = false ∧ s.legRec (c.arg 0 1) (c.arg 2 2) = some r ∧ legKind r = 1 ∧ legOwner r = 0
  ∧ c.args.length = 4 + legSize (c.arg 0 1) r ∧ Store.wf {} (s.legUnit (c.arg 0 1)).ports = true :=
  ⟨tAcs [1, 0, 7, 0, 1, 2, 3, 4], [7, 0, 1, 1, 0, 0, 0, 0], tLeg 1 1 1 [{}, {}, {}], by
  refine ⟨by constructor <;> decide, by decide, by decide, by decide, by decide, by decide, by decide, by decide, by decide, by decide, by decide⟩⟩
theorem witness_LegacyCommands_4 : ∃ (c : Acs) (s : State), Accepts s c 0x0C03 inLineStates ∧ c.args.length = 0 ∧ s.legRoleSet 2 ≠ 0 :=
  ⟨tAcs [], tLeg 2 1 1 [{}, {}, {}], by decide⟩
theorem witness_LegacyCommands_5 : ∃ (c : Acs) (s : State), Inv s ∧ Accepts s c 0x0C04 inLineStates ∧ s.carriers = [] ∧ 5 ≤ c.args.length
  ∧ c.args.length ≤ 260 ∧ c.arg 0 1 ≤ 2 ∧ c.nonZero 1 1 = false :=
  ⟨tAcs [1, 0, 7, 0, 1], tLeg 1 1 1 [{}, {}, {}], by
  refine ⟨by constructor <;> decide, by decide, by decide, by decide, by decide, by decide, by decide⟩⟩
theorem witness_LegacyCommands_6 : ∃ (c : Acs) (s : State), Inv s ∧ Accepts s c 0x0C05 inLineStates ∧ c.args.length = 4 ∧ c.arg 0 1 ≤ 2
  ∧ c.nonZero 1 3 = false :=
  ⟨tAcs [1, 0, 0, 0], tLeg 1 1 1 [{}, { queue := [{ peer := 9, data := [1] }] }, {}], by
  refine ⟨by constructor <;> decide, by decide, by decide, by decide, by decide⟩⟩
theorem witness_Bridge_1 : ∃ (f : Frame) (n : Nat) (x : Session) (h : SbHdr) (d : Int) (s : State), Inv s ∧ s.alive = true ∧ s.boot.fwRunning = true
  ∧ envelopeOk f.payload = true ∧ sbHdrOf f.payload = h ∧ h.kind = 1 ∧ h.dst = s.node.nid ∧ s.node.state.inLine = true ∧ s.carriers = []
  ∧ s.session? n = some x ∧ s.br.sessions.find? (fun e => e.2.enabled && e.2.imports && e.2.f 4 2 = h.dstF) = some (n, x) ∧ x.remote = some h.src
  ∧ x.f 6 2 = h.srcF ∧ x.reloading = false ∧ (bit h.flags 1 = false ∨ h.gen = s.hitch.gen)
  ∧ x.rxSeq.elim (1 : Int) (fun q => signed 16 ((h.seq + 65536 - q.toNat) % 65536)) = d :=
  ⟨tFrame (tSb 1 0 9 0xFF20 5 7) (itemBytes 1 0 1 9 0 [7]), 0, tSess, tSb 1 0 9 0xFF20 5 7, 1, tBridge .ready tSess, by
  refine ⟨by constructor <;> decide, by decide, by decide, by decide, by decide, by decide, by decide, by decide, by decide, by decide, by decide, by decide, by decide, by decide, by decide, by decide⟩⟩
theorem witness_Bridge_2 : ∃ (f : Frame) (n : Nat) (x : Session) (s : State), Inv s ∧ s.alive = true ∧ s.boot.fwRunning = true
  ∧ envelopeOk f.payload = true ∧ (sbHdrOf f.payload).kind = 1 ∧ (sbHdrOf f.payload).dst = s.node.nid ∧ s.carriers = [] ∧ s.session? n = some x
  ∧ s.br.sessions.find? (fun e => e.2.enabled && e.2.imports && e.2.f 4 2 = (sbHdrOf f.payload).dstF) = some (n, x) :=
  ⟨tFrame (tSb 1 0 9 0xFF20 5 7) (itemBytes 1 0 1 9 0 [7]), 0, tSess, tBridge .run tSess, by
  refine ⟨by constructor <;> decide, by decide, by decide, by decide, by decide, by decide, by decide, by decide, by decide⟩⟩
theorem witness_Bridge_3 : ∃ (f : Frame) (err : Bool) (s : State), Inv s ∧ s.alive = true ∧ s.boot.fwRunning = true ∧ envelopeOk f.payload = true
  ∧ (sbHdrOf f.payload).kind = 2 ∧ (sbHdrOf f.payload).dst = s.node.nid ∧ (sbHdrOf f.payload).src ≠ s.node.nid ∧ s.bridgeOwner = true
  ∧ s.node.state.inLine = true ∧ fBe f.payload 32 1 ≠ 5 ∧ ((bit (sbHdrOf f.payload).flags 0 = false ∨ fBe f.payload 32 1 ≠ 2))
  ∧ s.br.served.find? (fun x => x.who.nid = (sbHdrOf f.payload).src && x.who.chip = (sbHdrOf f.payload).chip && x.who.reqId = (sbHdrOf
    f.payload).seq) = none :=
  ⟨tFrame (tSb 2 1 9 0xFF20 0xFF20 7) ([1, 0, 0, 0] ++ zeros 4 ++ [0, 4, 0, 5] ++ zeros 12), false, tBridge .run tSess, by
  refine ⟨by constructor <;> decide, by decide, by decide, by decide, by decide, by decide, by decide, by decide, by decide, by decide, by decide, by decide⟩⟩
theorem witness_Bridge_4 : ∃ (f : Frame) (b : List Byte) (x : Served) (s : State), Inv s ∧ s.alive = true ∧ s.boot.fwRunning = true
  ∧ envelopeOk f.payload = true ∧ (sbHdrOf f.payload).kind = 2 ∧ (sbHdrOf f.payload).dst = s.node.nid ∧ bit (sbHdrOf f.payload).flags 0 = true
  ∧ s.bridgeOwner = true ∧ s.node.state.inLine = true
  ∧ s.br.served.find? (fun x => x.who.nid = (sbHdrOf f.payload).src && x.who.chip = (sbHdrOf f.payload).chip && x.who.reqId = (sbHdrOf
    f.payload).seq) = some x
  ∧ x.bad = false ∧ x.body = some b :=
  ⟨tFrame (tSb 2 1 9 0xFF20 0xFF20 7) ([1, 0, 0, 0] ++ zeros 4 ++ [0, 4, 0, 5] ++ zeros 12), zeros 20, { who := ⟨9, 0, 7, 1⟩, body := some (zeros 20) }, { tBridge .run tSess with br := { served := [{ who := ⟨9, 0, 7, 1⟩, body := some (zeros 20) }] } }, by
  refine ⟨by constructor <;> decide, by decide, by decide, by decide, by decide, by decide, by decide, by decide, by decide, by decide, by decide, by decide⟩⟩
theorem witness_Bridge_5 : ∃ (f : Frame) (ch : Nat) (item : List Byte) (s : State), Inv s ∧ s.alive = true ∧ s.boot.fwRunning = true
  ∧ envelopeOk f.payload = true ∧ (sbHdrOf f.payload).kind = 2 ∧ (sbHdrOf f.payload).dst = s.node.nid ∧ bit (sbHdrOf f.payload).flags 0 = false
  ∧ s.bridgeOwner = true ∧ s.node.state.running = true ∧ fBe f.payload 32 1 = 5 ∧ fBe f.payload 33 1 = ch ∧ ch ≤ 7
  ∧ itemAt (f.payload.drop 56) = some item ∧ fBe item 0 1 = 1 ∧ (s.canCh ch).sendable (itemCan item) = true ∧ (s.canCh ch).mode = 1
  ∧ (s.txnBuffer ch).isSome = true ∧ s.br.txns.length < 256 :=
  ⟨tFrame (tSb 2 0 9 0xFF20 0xFF20 7) ([5, 0, 0, 0] ++ zeros 4 ++ [0, 0, 0, 5] ++ zeros 12 ++ itemBytes 1 0 1 9 0 [7]), 0, itemBytes 1 0 1 9 0 [7], { tWith [{ sec := 0x18, id := 5, index := 0, val := [3] }] [] (tBridge .run tSess) with can := { State.reset.can with chans := { mode := 1 } :: List.replicate 7 {} } }, by
  refine ⟨by constructor <;> decide, by decide, by decide, by decide, by decide, by decide, by decide, by decide, by decide, by decide, by decide, by decide, by decide, by decide, by decide, by decide, by decide, by decide⟩⟩
theorem witness_Bridge_6 : ∃ (f : Frame) (h : SbHdr) (o : OpenRead) (s : State), Inv s ∧ s.alive = true ∧ s.boot.fwRunning = true
  ∧ envelopeOk f.payload = true ∧ sbHdrOf f.payload = h ∧ h.kind = 3 ∧ h.dst = s.node.nid ∧ h.chip = s.node.chipIndex
  ∧ s.br.reads.find? (fun o => o.reqId = h.seq) = some o :=
  ⟨tFrame (tSb 3 0 9 0xFF20 0xFF20 7) (zeros 16), tSb 3 0 9 0xFF20 0xFF20 7, tRead, { tBridge .run tSess with br := { reads := [tRead] } }, by
  refine ⟨by constructor <;> decide, by decide, by decide, by decide, by decide, by decide, by decide, by decide, by decide⟩⟩
theorem witness_Bridge_7 : ∃ (f : Frame) (h : SbHdr) (s : State), Inv s ∧ s.alive = true ∧ s.boot.fwRunning = true ∧ envelopeOk f.payload = true
  ∧ sbHdrOf f.payload = h ∧ h.kind = 3 ∧ h.dst = s.node.nid ∧ h.chip = s.node.chipIndex ∧ s.br.reads.find? (fun o => o.reqId = h.seq) = none :=
  ⟨tFrame (tSb 3 0 9 0xFF20 0xFF20 7) (zeros 16), tSb 3 0 9 0xFF20 0xFF20 7, tBridge .run tSess, by
  refine ⟨by constructor <;> decide, by decide, by decide, by decide, by decide, by decide, by decide, by decide, by decide⟩⟩
theorem witness_Bridge_8 : ∃ (m : TugRx) (s : State), Inv s ∧ s.tugOn m.link = true ∧ (s.tug m.link).up = true
  ∧ m.seq % 65536 = (s.tug m.link).rxSeq ∧ bit (fBe m.data 0 1) 0 = true ∧ bit (fBe m.data 0 1) 1 = false :=
  ⟨tRx 1 0 [1, 0, 0, 3, 9], tForm .troika { State.reset.red with tugs := tUp }, by
  refine ⟨by constructor <;> decide, by decide, by decide, by decide, by decide, by decide⟩⟩
theorem witness_Bridge_9 : ∃ (m : TugRx) (n : Nat) (x : Session) (h : SbHdr) (s : State), Inv s ∧ s.tugOn m.link = true ∧ (s.tug m.link).up = true
  ∧ m.seq % 65536 = (s.tug m.link).rxSeq ∧ bit (fBe m.data 0 1) 0 = true ∧ bit (fBe m.data 0 1) 1 = true ∧ sbHdrOf (m.data.drop 4) = h ∧ h.kind = 1
  ∧ s.node.state.inLine = true ∧ s.session? n = some x
  ∧ s.br.sessions.find? (fun e => e.2.enabled && e.2.imports && e.2.f 4 2 = h.dstF && decide (e.2.remote = some h.src) && e.2.f 6 2 = h.srcF) = some
    (n, x)
  ∧ (bit h.flags 1 = false ∨ h.gen = s.hitch.gen) ∧ x.rxSeq = none :=
  ⟨tRx 1 0 ([3, 0, 0, 3] ++ (tSb 1 0 9 0xFF20 5 7).bytes ++ itemBytes 1 0 1 9 0 [7]), 0, tSess, tSb 1 0 9 0xFF20 5 7, { tForm .troika { State.reset.red with tugs := tUp } with br := { sessions := [(0, tSess)] } }, by
  refine ⟨by constructor <;> decide, by decide, by decide, by decide, by decide, by decide, by decide, by decide, by decide, by decide, by decide, by decide, by decide⟩⟩
theorem witness_Bridge_10 : ∃ (m : TugRx) (h : SbHdr) (o : OpenRead) (s : State), Inv s ∧ s.tugOn m.link = true ∧ (s.tug m.link).up = true
  ∧ m.seq % 65536 = (s.tug m.link).rxSeq ∧ bit (fBe m.data 0 1) 0 = true ∧ bit (fBe m.data 0 1) 1 = true ∧ sbHdrOf (m.data.drop 4) = h
  ∧ h.chip = s.node.chipIndex ∧ s.br.reads.find? (fun o => o.reqId = h.seq) = some o :=
  ⟨tRx 1 0 ([3, 0, 0, 3] ++ (tSb 3 0 9 0xFF20 0xFF20 7).bytes ++ zeros 16), tSb 3 0 9 0xFF20 0xFF20 7, tRead, { tForm .troika { State.reset.red with tugs := tUp } with br := { reads := [tRead] } }, by
  refine ⟨by constructor <;> decide, by decide, by decide, by decide, by decide, by decide, by decide, by decide, by decide⟩⟩
theorem witness_Bridge_11 : ∃ (n : Nat) (x : Session) (r : Nid) (s : State), Inv s ∧ s.node.state.inLine = true ∧ s.bridgeOwner = true
  ∧ s.session? n = some x ∧ x.items ≠ [] ∧ x.remote = some r :=
  ⟨0, { tSess with items := [itemBytes 1 0 1 9 0 [7]] }, 9, tBridge .run { tSess with items := [itemBytes 1 0 1 9 0 [7]] }, by
  refine ⟨by constructor <;> decide, by decide, by decide, by decide, by decide, by decide⟩⟩
theorem witness_Bridge_12 : ∃ (n : Nat) (x : Session) (s : State), Inv s ∧ s.session? n = some x ∧ x.queue ≠ [] :=
  ⟨0, { tSess with queue := [{ item := itemBytes 1 0 1 9 0 [7], tick := 0 }] }, tBridge .run { tSess with queue := [{ item := itemBytes 1 0 1 9 0 [7], tick := 0 }] }, by
  refine ⟨by constructor <;> decide, by decide, by decide⟩⟩
theorem witness_Bridge_13 : ∃ (id : Nat) (o : OpenRead) (s : State), Inv s ∧ s.br.reads.find? (fun o => o.reqId = id) = some o ∧ o.vol = false
  ∧ o.resent = false ∧ o.dst ≠ s.node.nid :=
  ⟨7, tRead, { tBridge .run tSess with br := { reads := [tRead] } }, by
  refine ⟨by constructor <;> decide, by decide, by decide, by decide, by decide⟩⟩
theorem witness_Bridge_14 : ∃ (id : Nat) (o : OpenRead) (s : State), s.br.reads.find? (fun o => o.reqId = id) = some o
  ∧ (o.vol = true ∨ o.resent = true) :=
  ⟨7, { tRead with resent := true }, { tBridge .run tSess with br := { reads := [{ tRead with resent := true }] } }, by decide⟩
theorem witness_Bridge_15 : ∃ (id : Nat) (o : OpenRead) (s : State), Inv s ∧ s.br.reads.find? (fun o => o.reqId = id) = some o :=
  ⟨7, tRead, { tBridge .run tSess with br := { reads := [tRead] } }, by
  refine ⟨by constructor <;> decide, by decide⟩⟩
theorem witness_Bridge_17 : ∃ (n : Nat) (x : Session) (r : List Byte) (s : State), Inv s ∧ s.session? n = some x ∧ x.reloading = true
  ∧ (records (s.sectionOf 0x19 0) 32).find? (fun r => fLe r 1 1 ≠ 0 && fLe r 0 1 = n) = some r :=
  ⟨0, { tSess with reloading := true }, [0, 1] ++ zeros 30, tWith [] [{ typ := 0x19, flags := 0, off := 0, len := 0, crc := 0, content := [0, 1] ++ zeros 30 }] (tBridge .run { tSess with reloading := true }), by
  refine ⟨by constructor <;> decide, by decide, by decide, by decide⟩⟩
theorem witness_Bridge_18 : ∃ (c : Acs) (s : State), Accepts s c 0x0D00 inLineStates ∧ c.args.length = 0 :=
  ⟨tAcs [], tBridge .run tSess, by decide⟩
theorem witness_Bridge_19 : ∃ (c : Acs) (x : Session) (s : State), Accepts s c 0x0D01 inLineStates ∧ c.args.length = 4 ∧ c.arg 1 1 = 0
  ∧ c.nonZero 2 2 = false ∧ s.session? (c.arg 0 1) = some x :=
  ⟨tAcs [0, 0, 0, 0], tSess, tBridge .run tSess, by decide⟩
theorem witness_Bridge_20 : ∃ (c : Acs) (x : Session) (s : State), Inv s ∧ Accepts s c 0x0D01 inLineStates ∧ s.carriers = [] ∧ c.args.length = 4
  ∧ ((c.arg 1 1 = 1 ∨ c.arg 1 1 = 2)) ∧ c.nonZero 2 2 = false ∧ s.session? (c.arg 0 1) = some x :=
  ⟨tAcs [0, 2, 0, 0], tSess, tBridge .run tSess, by
  refine ⟨by constructor <;> decide, by decide, by decide, by decide, by decide, by decide, by decide⟩⟩
theorem witness_Bridge_21 : ∃ (c : Acs) (tag : Nat) (dst : Nid) (s : State), Inv s ∧ Accepts s c 0x0D02 inLineStates ∧ readLenOk c.args = true
  ∧ readArgsOk c.args = true ∧ (if bit (fLe c.args 1 1) 2 then s.hitch.nidAt (fLe c.args 3 1) else BitVec.ofNat 64 (fLe c.args 4 8)) = dst
  ∧ ((bit (fLe c.args 1 1) 2 = false ∨ dst ≠ 0)) ∧ dst ≠ s.node.nid ∧ s.freeTag = some tag :=
  ⟨tAcs ([1, 0, 0, 0] ++ le 8 9 ++ [0, 0, 4, 0] ++ zeros 4 ++ [5, 0, 0, 0]), 0, 9, tBridge .run tSess, by
  refine ⟨by constructor <;> decide, by decide, by decide, by decide, by decide, by decide, by decide, by decide⟩⟩
theorem witness_Bridge_22 : ∃ (c : Acs) (s : State), Accepts s c 0x0D02 inLineStates ∧ readLenOk c.args = true ∧ readArgsOk c.args = true
  ∧ bit (fLe c.args 1 1) 2 = false ∧ s.freeTag = none :=
  ⟨tAcs ([1, 0, 0, 0] ++ le 8 9 ++ [0, 0, 4, 0] ++ zeros 4 ++ [5, 0, 0, 0]), { tBridge .run tSess with br := { fresh := 4096 } }, by decide⟩
theorem witness_Bridge_23 : ∃ (c : Acs) (s : State), Accepts s c 0x0D03 inLineStates ∧ c.args.length = 4 ∧ inRange 1 256 (c.arg 0 2) = true
  ∧ c.nonZero 2 2 = false :=
  ⟨tAcs [4, 0, 0, 0], { tBridge .run tSess with br := { results := [{ reqId := 7, status := 0, stamp := 0, data := [1] }] } }, by decide⟩
theorem witness_IdentificationRegisters_1 : ∃ (s : State), s.alive = true ∧ s.boot.fwRunning = true :=
  ⟨tIn .run, by decide⟩
theorem witness_IdentificationRegisters_2 : ∃ (s : State), s.alive = true ∧ s.boot.fwRunning = true :=
  ⟨tIn .held, by decide⟩
theorem witness_IdentificationRegisters_3 : ∃ (s : State), s.alive = true ∧ s.boot.fwRunning = false :=
  ⟨{ tIn .boot with boot := State.reset.boot }, by decide⟩
theorem witness_IdentificationRegisters_4 : ∃ (c : Acs) (s : State), Accepts s c 0x0100 anyState ∧ s.boot.fwRunning = true ∧ c.args.length = 0 :=
  ⟨tAcs [], tIn .run, by decide⟩
theorem witness_WakePatterns_1 : ∃ (c : Acs) (s : State), Accepts s c 0x0512 inLineStates ∧ c.args.length = 4 + 24 * c.arg 2 1
  ∧ 16 < c.arg 1 1 + c.arg 2 1 :=
  ⟨tAcs ([3, 16, 1, 0] ++ List.replicate 16 1 ++ [0, 0, 64, 0, 1, 0, 0, 0]), tIn .run, by decide⟩
theorem witness_WakePatterns_2 : ∃ (c : Acs) (k : Nat) (s : State), Accepts s c 0x0512 inLineStates ∧ c.args.length = 4 + 24 * c.arg 2 1
  ∧ k < c.arg 2 1 ∧ bit (fLe c.args (4 + 24 * k + 20) 1) 0 = true ∧ fLe c.args (4 + 24 * k) 16 = 0 :=
  ⟨tAcs ([3, 0, 1, 0] ++ zeros 16 ++ [0, 0, 64, 0, 1, 0, 0, 0]), 0, tIn .run, by decide⟩
theorem witness_WakePatterns_3 : ∃ (c : Acs) (i : Nat) (s : State), Inv s ∧ Accepts s c 0x0512 inLineStates ∧ c.args.length = 4 + 24 * c.arg 2 1
  ∧ c.arg 0 1 ≤ 14 ∧ 1 ≤ c.arg 2 1 ∧ c.arg 1 1 + c.arg 2 1 ≤ 16 ∧ c.nonZero 3 1 = false
  ∧ ((List.range (c.arg 2 1)).map (fun k => slice c.args (4 + 24 * k) 24)).all wakeOk = true ∧ (s.mac (c.arg 0 1)).wake.length = 16 ∧ i < 16 :=
  ⟨tAcs ([3, 15, 1, 0] ++ List.replicate 16 1 ++ [0, 0, 64, 0, 1, 0, 0, 0]), 15, tIn .run, by
  refine ⟨by constructor <;> decide, by decide, by decide, by decide, by decide, by decide, by decide, by decide, by decide, by decide⟩⟩

/-! ## Well-formedness: one ill-formed command for each check, refused -/

/-- A frame without tags. -/
def tPlain : Frame := { da := 5, sa := 6, vlan := none, rtag := none, etype := 0x0800, payload := [] }

theorem test_wf_boot_mode : Instr.wf (.resetRelease 4) = false := by decide
theorem test_wf_sensor : Instr.wf (.thermalThreshold 256 110) = false := by decide
theorem test_wf_mailbox : Instr.wf (.sysState { tAcs [] with mbx := 16 }) = false := by decide
theorem test_wf_batch_place : Instr.wf (.sysState { tAcs [] with idx := 32 }) = false := by decide
theorem test_wf_argument_length : Instr.wf (.sysState (tAcs (zeros 4084))) = false := by decide +kernel
theorem test_wf_request_offset : Instr.wf (.mbxRequestWrite 0 4093 [1, 2, 3, 4]) = false := by decide
theorem test_wf_vector : Instr.wf (.msixVectorUnmask 32) = false := by decide
theorem test_wf_reset_kind : Instr.wf (.pcieReset 4) = false := by decide
theorem test_wf_ring : Instr.wf (.rxHoldExpiry 8) = false := by decide
theorem test_wf_port : Instr.wf (.linkDebounceExpiry 15) = false := by decide
theorem test_wf_stamp_fraction : Instr.wf (.frameTransmitDone 0 0 ⟨0, 16⟩ 0) = false := by decide
theorem test_wf_class : Instr.wf (.frameTransmitDone 0 8 ⟨0, 0⟩ 0) = false := by decide
theorem test_wf_stamp_tick : Instr.wf (.syncInEdge ⟨2 ^ 64, 0⟩ 0) = false := by decide
theorem test_wf_cell_port : Instr.wf (.cellParityError 16 0 0 false) = false := by decide
theorem test_wf_context : Instr.wf (.ctxReload 2048) = false := by decide
theorem test_wf_backbone_port : Instr.wf (.mkaHelloTimer 4) = false := by decide
theorem test_wf_table_port : Instr.wf (.tableReloadDone 0 16 0) = false := by decide
theorem test_wf_domain : Instr.wf (.syncTimeout 2) = false := by decide
theorem test_wf_vlan_priority : Instr.wf (.reportReceive { tPlain with vlan := some ⟨8, false, 1⟩ }) = false := by decide
theorem test_wf_vlan_id : Instr.wf (.reportReceive { tPlain with vlan := some ⟨0, false, 4096⟩ }) = false := by decide
theorem test_wf_ethertype : Instr.wf (.reportReceive { tPlain with etype := 65536 }) = false := by decide
theorem test_wf_direction_low : Instr.wf (.lineSettleExpiry 0) = false := by decide
theorem test_wf_direction_high : Instr.wf (.lineSettleExpiry 3) = false := by decide
theorem test_wf_gpio : Instr.wf (.inhibitInputChange 24 true) = false := by decide
theorem test_wf_task : Instr.wf (.agreeTimeout 64) = false := by decide
theorem test_wf_pair : Instr.wf (.pairResyncDone 4) = false := by decide
theorem test_wf_link : Instr.wf (.tugReplayTimeout 2) = false := by decide
theorem test_wf_tug_link : Instr.wf (.tugSyncMessage { tRx 2 5 [] with seq := 1 }) = false := by decide
theorem test_wf_tug_seq : Instr.wf (.tugSyncMessage { tRx 0 5 [] with seq := 65536 }) = false := by decide
theorem test_wf_tug_type : Instr.wf (.tugSyncMessage (tRx 0 256 [])) = false := by decide
theorem test_wf_claim_pin : Instr.wf (.peerClaimChange 2 true) = false := by decide
theorem test_wf_channel : Instr.wf (.canTxSuccess 8) = false := by decide
theorem test_wf_can_id : Instr.wf (.canFrameReceive 0 { tCanFrame with id := 2 ^ 29 } 0 none) = false := by decide
theorem test_wf_can_dlc : Instr.wf (.canFrameReceive 0 { tCanFrame with dlc := 16 } 0 none) = false := by decide
theorem test_wf_can_data : Instr.wf (.canFrameReceive 0 { tCanFrame with data := zeros 65 } 0 none) = false := by decide
theorem test_wf_can_kind_low : Instr.wf (.canErrorDetected 0 false 0 false false 0 false) = false := by decide
theorem test_wf_can_kind_high : Instr.wf (.canErrorDetected 0 false 8 false false 0 false) = false := by decide
theorem test_wf_buffer : Instr.wf (.canWriteRxEmpty 128) = false := by decide
theorem test_wf_unit : Instr.wf (.legacyReloadDone 3) = false := by decide
theorem test_wf_mvb_unit : Instr.wf (.baSilenceExpiry 2) = false := by decide
theorem test_wf_session : Instr.wf (.tunAged 256) = false := by decide
theorem test_wf_good : Instr.wf (.sysState (tAcs [])) = true ∧ Instr.wf (.canTxSuccess 7) = true := by decide

/-! ## Single steps and operations, with values from the spec -/

/-- A node record of the example at R77: NID, generation, consist, vehicles. -/
def tRec (nid gen cid count index : Nat) : HRec :=
  { nid := BitVec.ofNat 64 nid, prevGen := BitVec.ofNat 32 gen, prevFp := 0, propGen := 0, propFp := 0, consistId := BitVec.ofNat 32 cid
    vehCount := count, vehIndex := index, facing := false, prevOri := false, cstDir := false, fast := true, inhibit := false
    bypassing := false, committed := false, ttdp := false, form := 0, linkAFar := false, linkBFar := false }

/-- The state an outcome answers, reset where it answers none. -/
def tNext (o : Host.Outcome State Fault Refusal) : State := match o with | .next t => t | _ => State.reset

/-- The joined Wendle and Brisk train of 02_hitch.md: orientations, consists and vehicles. -/
theorem test_joined_train : (propose [(tRec 1 17 0x57444C01 4 1, true), (tRec 2 17 0x57444C01 4 4, true), (tRec 3 41 0x42524B07 3 2, false)] false).toOption.map (fun p =>
    (p.gen, p.chain.map (fun n => (n.orient, n.consist, n.vehicle)))) = some (42, [(false, 1, 1), (false, 1, 4), (true, 2, 6)]) := by decide +kernel

/-- The check value of CRC-32 (R38, R411, R608). -/
theorem test_crc32 : crc32 [0x31, 0x32, 0x33, 0x34, 0x35, 0x36, 0x37, 0x38, 0x39] = 0xCBF43926 := by decide +kernel

/-- Example of 05_frame_engine.md: 8,996 bytes in buffers of 2 KiB need 5 descriptors. -/
theorem test_descriptors : (8996 + ({ bufUnits := 8 } : Ring).bufSize - 1) / ({ bufUnits := 8 } : Ring).bufSize = 5 := by decide

/-- Example of 16_memories_integrity_load.md: the mirror of port 0's TX_OCTETS lies at 0x2_0078. -/
theorem test_mirror : mirrorAt 0x20078 = some 15 := by decide

/-- DLC of a CAN FD frame: 9 is 12 bytes, 15 is 64; of a classical frame 8 (R449). -/
theorem test_dlc : dlcLen true 9 = 12 ∧ dlcLen true 15 = 64 ∧ dlcLen false 15 = 8 := by decide

/-- A step takes the command at the front and leaves the rest. -/
theorem test_step_takes_front : (tNext (step { tIn .run with pending := [.heartbeatSend, .tugHelloSend] })).pending = [.tugHelloSend] := by decide

/-- VBAK_APPLIED brings OFF to BACKUP (R44). -/
theorem test_vbak : (tNext (exec .vbakApplied (tIn .off))).node.state = .backup := by decide

/-- CHIP_ID and CHIP_STEP (R563). -/
theorem test_chip_id : (tIn .run).regC 0 = 0x9460 ∧ (tIn .run).regC 4 = 0xB1 := by decide

/-- GEN that differs from the chip's ends with STALE_GENERATION (R39). -/
theorem test_stale_gen : (tNext (exec (.hitchStatus { tAcs [] with gen := 17 }) { tIn .run with hitch := { State.reset.hitch with gen := 42 } })).out
    = [.acs 0 0 0x0300 stStale []] := by decide

end Sys2Proof.Tests
end

section
/-! PROOFS. How an ACS command of the table starts (R579, R580): every one is `acs` around its own work, behind the check of its length where that is
fixed; what `acs` does at each of its checks. -/
namespace Sys2Proof.Machine

/-- A command's own work behind the check of its length, where that is fixed (R580). -/
def lenChecked (len : Option Nat) (op : Nat) (c : Acs) (body : State → State) (s : State) : State :=
  match len with
  | none => body s
  | some n => if c.args.length ≠ n then done c op stBadLength [] s else body s

@[simp] theorem lenChecked_ne (op n : Nat) (c : Acs) (body : State → State) (s : State) (h : c.args.length ≠ n) :
    lenChecked (some n) op c body s = done c op stBadLength [] s := by
  simp [lenChecked, h]

/-- Every ACS command of the table is `acs` with the opcode, the node states and the length that the table gives it. -/
theorem exec_of_acsRow {i : Instr} {op : Nat} {states : States} {len : Option Nat} {c : Acs} (h : acsRow i = some (op, states, len, c)) :
    ∃ body, ∀ s, exec i s = .next (acs op states c (lenChecked len op c body) s) := by
  cases i <;> cases h <;> exact ⟨_, fun _ => rfl⟩

/-- FLAGS 15 to 3 and the reserved field are 0 (R579). -/
abbrev headerPlain (c : Acs) : Prop := c.flags.toNat / 8 = 0 ∧ c.rsvd = 0

/-- The command's response fits its reservation, where it has one (R574). -/
abbrev State.fits (s : State) (c : Acs) (op : Nat) : Prop := (s.waitingSlot c op).map Slot.fits ≠ some false

/-- GEN passes: this chip does not judge it, it is 0, or it is the generation in force (R579). -/
abbrev State.genOk (s : State) (op : Nat) (c : Acs) : Prop := s.judgesGen op c = false ∨ c.gen = 0 ∨ c.gen = s.hitch.gen

section
variable {op : Nat} {states : States} {c : Acs} {body : State → State} {s : State}

/-- A command that finds the chip not running, or may not start yet, changes nothing. -/
theorem acs_waits (h : s.alive = false ∨ s.mayStart c op = false) : acs op states c body s = s := by
  rcases h with h | h <;> simp [acs, h]

/-- The checks of a command that starts, in their order (R579), each on the state in which its slot is marked. -/
theorem acs_starts (ha : s.alive = true) (hm : s.mayStart c op = true) : acs op states c body s =
    if ¬ s.fits c op then done c op stNoResource [] (started c op s)
    else if ¬ headerPlain c then done c op stBadArg [] (started c op s)
    else if s.node.state ∉ states then done c op stWrongState [] (started c op s)
    else if ¬ s.genOk op c then done c op stStale [] (started c op s)
    else body (started c op s) := by
  have hgen : (s.judgesGen op c && c.gen ≠ 0 && c.gen ≠ s.hitch.gen) = true ↔ ¬ s.genOk op c := by simp [and_assoc]
  simp only [acs, started, ha, hm, hgen, Bool.not_true, Bool.or_self, Bool.false_eq_true, if_false,
    Classical.not_and_iff_not_or_not, ne_eq, Classical.not_not]

section
variable (ha : s.alive = true) (hm : s.mayStart c op = true)
include ha hm

theorem acs_noResource (hf : ¬ s.fits c op) : acs op states c body s = done c op stNoResource [] (started c op s) := by
  rw [acs_starts ha hm, if_pos hf]

variable (hf : s.fits c op)
include hf

theorem acs_badArg (hp : ¬ headerPlain c) : acs op states c body s = done c op stBadArg [] (started c op s) := by
  rw [acs_starts ha hm, if_neg (· hf), if_pos hp]

variable (hp : headerPlain c)
include hp

theorem acs_wrongState (hn : s.node.state ∉ states) : acs op states c body s = done c op stWrongState [] (started c op s) := by
  rw [acs_starts ha hm, if_neg (· hf), if_neg (· hp), if_pos hn]

variable (hn : s.node.state ∈ states)
include hn

theorem acs_stale (hg : ¬ s.genOk op c) : acs op states c body s = done c op stStale [] (started c op s) := by
  rw [acs_starts ha hm, if_neg (· hf), if_neg (· hp), if_neg (· hn), if_pos hg]

theorem acs_works (hg : s.genOk op c) : acs op states c body s = body (started c op s) := by
  rw [acs_starts ha hm, if_neg (· hf), if_neg (· hp), if_neg (· hn), if_neg (· hg)]

end

theorem acs_of_accepts (h : Accepts s c op states) :
    acs op states c body s = body (started c op s) := by
  obtain ⟨ha, hm, hf, hflags, hrsvd, hn, hg⟩ := h
  exact acs_works ha hm hf ⟨hflags, hrsvd⟩ hn (.inr hg)

theorem acsLen_of_accepts {n : Nat} (h : Accepts s c op states) (hl : c.args.length = n) :
    acsLen op states n c body s = body (started c op s) := by
  rw [acsLen, acs_of_accepts h, if_neg (· hl)]

end

/-- Starting a command marks its slot, which is the host interface's. -/
theorem started_only (c : Acs) (op : Nat) (s : State) : Only [.host] s (started c op s) :=
  only_ite (acsMark_only (fun _ h => h) c s Only.rfl) Only.rfl

@[simp] theorem started_boot (c : Acs) (op : Nat) (s : State) : (started c op s).boot = s.boot :=
  (started_only c op s).same .boot (by decide)

end Sys2Proof.Machine
open Sys2Proof Sys2Proof.Machine

/-- Settles O15: every ACS command is `acs` around its own work, so each status comes from the check of `acs` that fails first, and BAD_LENGTH from
the check before that work. -/
theorem acsChecksInOrder : Obligations.AcsChecksInOrder := by
  unfold Obligations.AcsChecksInOrder
  intro fails fits plain fresh i s op states len c hrow
  obtain ⟨body, hexec⟩ := exec_of_acsRow hrow
  have fails_of {status : Nat} (h : acs op states c (lenChecked len op c body) s = done c op status [] (started c op s)) :
      fails i c op status s := (hexec s).trans (congrArg _ h)
  refine ⟨fun hw => (hexec s).trans (congrArg _ (acs_waits hw)), fun ha hm => ⟨?_, ?_, ?_, ?_, ?_⟩⟩
  · exact fun hf => fails_of (acs_noResource ha hm hf)
  · exact fun hf hp => fails_of (acs_badArg ha hm hf hp)
  · exact fun hf hp hn => fails_of (acs_wrongState ha hm hf hp hn)
  · exact fun hf hp hn hg => fails_of (acs_stale ha hm hf hp hn hg)
  · rintro n rfl hf hp hn hg hl
    exact fails_of ((acs_works ha hm hf hp hn hg).trans (lenChecked_ne op n c body _ hl))
end

section
/-! PROOFS. Little-endian bytes in parts, sparse tables read after a write, the outputs and the host interface as the only parts a command touches. -/
namespace Sys2Proof.Machine

/-- The bytes of a number whose digits to base 256 split at the place m. -/
theorem le_eq_append (m n a b : Nat) (h : a < 256 ^ m) : le (m + n) (b * 256 ^ m + a) = le m a ++ le n b := by
  have hlow (i : Nat) (hi : i < m) : byte ((b * 256 ^ m + a) / 256 ^ i) = byte (a / 256 ^ i) := by
    obtain ⟨k, rfl⟩ : ∃ k, m = i + 1 + k := ⟨m - (i + 1), by omega⟩
    apply BitVec.eq_of_toNat_eq
    rw [byte_toNat, byte_toNat, show b * 256 ^ (i + 1 + k) = 256 ^ i * (256 * (b * 256 ^ k)) by simp only [Nat.pow_add, Nat.pow_one]; ac_rfl,
      Nat.mul_add_div (Nat.pow_pos (by decide)), Nat.mul_add_mod]
  have hhigh (i : Nat) : byte ((b * 256 ^ m + a) / 256 ^ (m + i)) = byte (b / 256 ^ i) := by
    rw [Nat.pow_add, ← Nat.div_div_eq_div_mul, Nat.mul_comm b, Nat.mul_add_div (Nat.pow_pos (by decide)), Nat.div_eq_of_lt h, Nat.add_zero]
  simp only [le, List.range_add, List.map_append, List.map_map]
  congr 1
  · exact List.map_congr_left fun i hi => hlow i (List.mem_range.mp hi)
  · exact List.map_congr_left fun i _ => hhigh i

section
variable {α : Type} (m : Store α) {k j : Nat} (v : α)

theorem Store.find_ins_same : Store.find (Store.ins m k v) k = some v := by
  induction m with
  | nil => simp [Store.ins, Store.find]
  | cons e m ih =>
    obtain ⟨k', w⟩ := e
    unfold Store.ins
    split
    next => simp [Store.find]
    next =>
      split
      next => simp [Store.find]
      next heq => simpa [Store.find, heq] using ih

theorem Store.find_ins_ne (h : j ≠ k) : Store.find (Store.ins m k v) j = Store.find m j := by
  induction m with
  | nil => simp [Store.ins, Store.find, h]
  | cons e m ih =>
    obtain ⟨k', w⟩ := e
    unfold Store.ins
    split
    next => simp [Store.find, h]
    next =>
      split
      next heq => simp [Store.find, h, ← heq]
      next => simp [Store.find, ih]

theorem Store.find_del_ne (h : j ≠ k) : Store.find (Store.del m k) j = Store.find m j := by
  induction m with
  | nil => rfl
  | cons e m ih =>
    obtain ⟨k', w⟩ := e
    unfold Store.del
    split
    next heq => simp [Store.find, h, ← heq]
    next => simp [Store.find, ih]

theorem Store.find_eq_none_of_lt (h : ∀ e ∈ m, k < e.1) : Store.find m k = none := by
  induction m with
  | nil => rfl
  | cons e m ih =>
    have hne : k ≠ e.1 := Nat.ne_of_lt (h e List.mem_cons_self)
    simpa [Store.find, hne] using ih fun x hx => h x (List.mem_cons_of_mem _ hx)

theorem Store.find_del_same (h : m.Pairwise (fun a b => a.1 < b.1)) : Store.find (Store.del m k) k = none := by
  induction m with
  | nil => rfl
  | cons e m ih =>
    obtain ⟨k', w⟩ := e
    unfold Store.del
    split
    next heq => exact Store.find_eq_none_of_lt m (heq ▸ fun x hx => List.rel_of_pairwise_cons h hx)
    next heq => simpa [Store.find, heq] using ih h.of_cons

variable [DecidableEq α] (d : α)

theorem Store.get_put_same (h : Store.wf d m = true) : Store.get d (Store.put d m k v) k = v := by
  simp only [Store.wf, Bool.and_eq_true, sorted_iff] at h
  unfold Store.get Store.put
  split
  next hv => rw [Store.find_del_same m h.1, hv, Option.getD_none]
  next => rw [Store.find_ins_same, Option.getD_some]

theorem Store.get_put_ne (h : j ≠ k) : Store.get d (Store.put d m k v) j = Store.get d m j := by
  unfold Store.get Store.put
  split
  next => rw [Store.find_del_ne m h]
  next => rw [Store.find_ins_ne m v h]

end

theorem only_host_out (s : State) (h : HostIf) (o : List Output) : Only [.host, .out] s { s with host := h, out := o } := by
  constructor
  intro p hp
  cases p
  case host | out => exact absurd (by decide) hp
  all_goals rfl

end Sys2Proof.Machine
end

section
/-! PROOFS. Register accesses by the hosts (R559, R560, R562, R590): the identification area, the cause masks, SCRATCH, QSPI transactions. -/
namespace Sys2Proof.Machine

/-! ## Cause masks -/

/-- The block whose register has a key. -/
def CauseBlk.ofKey : Nat → CauseBlk
  | 0 => .sys | 1 => .hitch | 2 => .time | 3 => .harness | 4 => .port | 5 => .stream | 6 => .control | 7 => .wrangler
  | 8 => .redund | 10 => .legacy | 11 => .bridge | 12 => .log | n => .can (n - 16)

theorem CauseBlk.ofKey_key (b : CauseBlk) : CauseBlk.ofKey b.key = b := by
  cases b with
  | can ch => simp [CauseBlk.key, Nat.add_comm 16 ch, CauseBlk.ofKey]
  | _ => rfl

theorem CauseBlk.key_injective : Function.Injective CauseBlk.key := Function.LeftInverse.injective CauseBlk.ofKey_key

theorem setMask_cause_same (b : CauseBlk) (value : Word) (s : State) (h : Store.wf {} s.causes = true) :
    (setMask b value s).cause b = { s.cause b with mask := value &&& causeBits b } := by
  rw [State.cause, setMask, Store.get_put_same _ _ _ h]

theorem setMask_cause_ne {b k : CauseBlk} (value : Word) (s : State) (h : k ≠ b) : (setMask b value s).cause k = s.cause k := by
  rw [State.cause, setMask, Store.get_put_ne _ _ _ (CauseBlk.key_injective.ne h), State.cause]

/-- The cause registers lie from 0x108 (R590). -/
theorem le_of_causeAt {off : Nat} {b : CauseBlk} (h : causeAt off = some b) : 0x108 ≤ off := by
  unfold causeAt at h
  split at h
  case h_13 => cases h
  all_goals omega

/-! ## Words of Window C -/

theorem writeC_mask (agent v : Nat) (s : State) {off : Nat} {b : CauseBlk} (hb : causeAt off = some b) (hlt : off < 0x200) (h4 : off % 8 = 4) :
    writeC agent off v s = setMask b (BitVec.ofNat 32 v) s := by
  have hge := le_of_causeAt hb
  rw [writeC, if_neg (by omega), if_neg (by omega), if_neg (by omega), if_pos hlt, if_neg (by omega), hb]
  simp only [h4, if_true]

theorem writeC_scratch (agent v : Nat) (s : State) :
    writeC agent 0x38 v s = { s with host := { s.host with scratch := BitVec.ofNat 32 v } } := rfl

theorem writeC_ident (agent v : Nat) (s : State) {off : Nat} (hlt : off < 0x100) (hw : off ≠ 0x24) (hs : off ≠ 0x38) : writeC agent off v s = s := by
  rw [writeC, if_neg hw, if_neg hs, if_pos hlt]

theorem readC_ident (s : State) {off : Nat} (h : off < 0x100) : readC off s = (s.idReg off, s) := by
  rw [readC]
  repeat rw [if_neg (by omega)]
  rw [State.regC, if_pos h]

theorem exec_registerWrite {off : Nat} (value : Word) {s : State} (ha : s.alive = true) (hlt : off < 0x10000) :
    exec (.registerWrite off value) s = .next (if off % 4 = 0 then writeC 1 off value.toNat s else s) := by
  change execRegisterWrite off value s = _
  simp [execRegisterWrite, ha, hlt]

/-! ## QSPI transactions -/

theorem qspiEnd_good (s : State) : qspiEnd false s = { s with host := { s.host with qspiSeen := true } } := by
  simp [qspiEnd]

theorem qspiWrite_scratch (data : List Byte) (s : State) (h : data.length = 4) :
    qspiWrite 0x38 data s = { s with host := { s.host with scratch := BitVec.ofNat 32 (leNat data), qspiSeen := true } } := by
  have hslice : slice data 0 4 = data := by simp [slice, ← h]
  simp [qspiWrite, qspiRoom, h, hslice, writeC_scratch, qspiEnd_good]

theorem foldl_range_eq {β : Type} (f : β → Nat → β) (g : Nat → β) (n : Nat) (h : ∀ i < n, f (g i) i = g (i + 1)) :
    (List.range n).foldl f (g 0) = g n := by
  induction n with
  | zero => rfl
  | succ n ih => rw [List.range_succ, List.foldl_append, ih fun i hi => h i (by omega), List.foldl_cons, List.foldl_nil, h n (by omega)]

/-- Words of the identification area, as a read transaction puts them out. -/
def State.idBytes (s : State) (addr n : Nat) : List Byte := (List.range n).flatMap fun i => le 4 (s.idReg (addr + 4 * i))

theorem State.idBytes_one (s : State) (addr : Nat) : s.idBytes addr 1 = le 4 (s.idReg addr) := by
  simp [State.idBytes]

theorem qspiRead_ident (s : State) {addr words : Nat} (h4 : addr % 4 = 0) (hlt : addr + 4 * words ≤ 0x100) :
    qspiRead addr words false s = emit (.qspi (0xA5 :: s.idBytes addr words)) { s with host := { s.host with qspiSeen := true } } := by
  have hroom : words ≤ qspiRoom addr := by rw [qspiRoom, if_neg (by omega), if_pos (by omega)]; omega
  dsimp only [qspiRead]
  rw [Nat.min_eq_left hroom, show ([], s) = (s.idBytes addr 0, s) from rfl,
    foldl_range_eq (g := fun i => (s.idBytes addr i, s)) (h := ?step)]
  case step =>
    intro i hi
    rw [if_pos (by omega)]
    simp only [readC_ident s (show addr + 4 * i < 0x100 by omega), State.idBytes, List.range_succ, List.flatMap_append, List.flatMap_singleton]
  simp [h4, qspiEnd_good]

/-- A read transaction of the identification area puts its words out and notes that a QSPI host has spoken, whether single or quad. -/
theorem answers_qspiRead_ident {i : Instr} {s : State} {addr words : Nat} (hexec : exec i s = .next (qspiRead addr words false s))
    (h4 : addr % 4 = 0) (hlt : addr + 4 * words ≤ 0x100) :
    Answers i s (fun t => t.out = s.out ++ [.qspi (0xA5 :: s.idBytes addr words)] ∧ t.host = { s.host with qspiSeen := true } ∧ Only [.host, .out] s t) :=
  ⟨_, hexec.trans (congrArg _ (qspiRead_ident s h4 hlt)), rfl, rfl, only_host_out s _ _⟩

section
variable {s : State} (ha : s.alive = true) (addr : Nat)
include ha

theorem exec_qspiRead (words : Nat) (cut : Bool) : exec (.qspiRead addr words cut) s = .next (qspiRead addr words cut s) := by
  change execQspiRead addr words cut s = _
  simp [execQspiRead, ha]

theorem exec_qspiReadQuad (words : Nat) (cut : Bool) : exec (.qspiReadQuad addr words cut) s = .next (qspiRead addr words cut s) := by
  change execQspiReadQuad addr words cut s = _
  simp [execQspiReadQuad, ha]

theorem exec_qspiWrite (data : List Byte) : exec (.qspiWrite addr data) s = .next (qspiWrite addr data s) := by
  change execQspiWrite addr data s = _
  simp [execQspiWrite, ha]

theorem exec_qspiWriteQuad (data : List Byte) : exec (.qspiWriteQuad addr data) s = .next (qspiWrite addr data s) := by
  change execQspiWriteQuad addr data s = _
  simp [execQspiWriteQuad, ha]

end

theorem exec_qspiStatus {s : State} (ha : s.alive = true) : exec .qspiStatus s = .next
    (emit (.qspi [byte (b01 (s.acsVersion ≠ 0) + flag (s.irqSummary ≠ 0) 1 + flag s.host.qspiErr 2)])
      { s with host := { s.host with qspiSeen := true, qspiErr := false } }) := by
  change execQspiStatus s = _
  simp [execQspiStatus, ha]

end Sys2Proof.Machine
open Sys2Proof Sys2Proof.Machine

/-- Settles O28: each access comes down to `writeC`, `setMask` or `readC` at one word, whose effect is said above. -/
theorem registerAccess : Obligations.RegisterAccess := by
  unfold Obligations.RegisterAccess
  refine ⟨?scratch, ?ident, ?mask, ?qspiScratch, ?qspiScratchQuad, ?qspiIdent, ?qspiIdentQuad, ?status⟩
  case scratch =>
    intro value s ha
    exact ⟨_, exec_registerWrite value ha (by decide), by simp [writeC_scratch]⟩
  case ident =>
    intro off value s ha hlt hw hs
    exact ⟨_, exec_registerWrite value ha (by omega), by simp [writeC_ident 1 value.toNat s hlt hw hs]⟩
  case mask =>
    intro b off value s hinv ha hlt h8 hb
    have hword : off % 4 = 0 := by omega
    have hwrite : exec (.registerWrite off value) s = .next (setMask b value s) := by
      rw [exec_registerWrite value ha (by omega), if_pos hword, writeC_mask 1 value.toNat s hb hlt h8, BitVec.ofNat_toNat, BitVec.setWidth_eq]
    have hmask := setMask_cause_same b value s hinv.causes
    exact ⟨_, hwrite, by rw [hmask], by rw [hmask], fun k hk => setMask_cause_ne value s hk,
      setMask_only (fun _ h => h) b value s Only.rfl⟩
  case qspiScratch => exact fun data s ha h => ⟨_, exec_qspiWrite ha 0x38 data, qspiWrite_scratch data s h⟩
  case qspiScratchQuad => exact fun data s ha h => ⟨_, exec_qspiWriteQuad ha 0x38 data, qspiWrite_scratch data s h⟩
  case qspiIdent =>
    intro addr s ha hlt h4
    exact s.idBytes_one addr ▸ answers_qspiRead_ident (exec_qspiRead ha addr 1 false) h4 (by omega)
  case qspiIdentQuad =>
    intro addr s ha hlt h4
    exact s.idBytes_one addr ▸ answers_qspiRead_ident (exec_qspiReadQuad ha addr 1 false) h4 (by omega)
  case status => exact fun s ha => ⟨_, exec_qspiStatus ha, rfl, rfl, only_host_out s _ _⟩
end

section
/-! PROOFS. The identification registers of the covered part (R3, R563, R564, R593). -/
namespace Sys2Proof.Machine

theorem State.fwVersion_of_running {s : State} (h : s.boot.fwRunning = true) : le 4 s.fwVersion = le 2 s.boot.fwBuild.toNat ++ [2, 3] := by
  rw [State.fwVersion, if_pos h]
  exact le_eq_append 2 2 s.boot.fwBuild.toNat 0x0302 s.boot.fwBuild.isLt

theorem State.acsVersion_of_running {s : State} (h : s.boot.fwRunning = true) : le 4 s.acsVersion = [2, 3, 0, 0] := by
  rw [State.acsVersion, if_pos h]
  rfl

theorem State.idBytes_four (s : State) : s.idBytes 0 4 = le 4 0x9460 ++ le 4 0xB1 ++ le 4 s.fwVersion ++ le 4 s.acsVersion := rfl

theorem State.idBytes_of_running {s : State} (h : s.boot.fwRunning = true) :
    s.idBytes 0 4 = le 4 0x9460 ++ le 4 0xB1 ++ (le 2 s.boot.fwBuild.toNat ++ [2, 3]) ++ [2, 3, 0, 0] := by
  rw [State.idBytes_four, State.fwVersion_of_running h, State.acsVersion_of_running h]

theorem State.idBytes_of_not_running {s : State} (h : s.boot.fwRunning = false) : s.idBytes 0 4 = le 4 0x9460 ++ le 4 0xB1 ++ zeros 8 := by
  simp only [State.idBytes_four, State.fwVersion, State.acsVersion, h, Bool.false_eq_true, if_false, List.append_assoc]
  rfl

theorem answers_firstWords {i : Instr} {s : State} {bytes : List Byte} (hexec : exec i s = .next (qspiRead 0 4 false s))
    (hb : s.idBytes 0 4 = bytes) : Answers i s (fun t => t.out = s.out ++ [.qspi (0xA5 :: bytes)] ∧ Only [.host, .out] s t) := by
  obtain ⟨t, ht, hout, -, honly⟩ := answers_qspiRead_ident hexec (by decide) (by decide)
  exact ⟨t, ht, hb ▸ hout, honly⟩

/-- SYS_IDENTIFY's answer begins with the first four words of Window C. -/
theorem answersOk_sysIdentify {c : Acs} {s : State} (h : Accepts s c 0x0100 anyState) (hl : c.args.length = 0) :
    ∃ p, AnswersOk (.sysIdentify c) c 0x0100 s p ∧ p.take 16 = (started c 0x0100 s).idBytes 0 4 := by
  refine ⟨_, congrArg _ (acsLen_of_accepts h hl), ?_⟩
  rw [State.idBytes_four]
  simp [le_length, List.take_append, List.take_of_length_le]

end Sys2Proof.Machine
open Sys2Proof Sys2Proof.Machine

/-- Settles O59: the first four words of Window C spell R563's and R564's values, and SYS_IDENTIFY's answer begins with the same words. -/
theorem identificationRegisters : Obligations.IdentificationRegisters := by
  unfold Obligations.IdentificationRegisters
  refine ⟨?single, ?quad, ?before, ?identify⟩
  case single => exact fun s ha hfw => answers_firstWords (exec_qspiRead ha 0 4 false) (s.idBytes_of_running hfw)
  case quad => exact fun s ha hfw => answers_firstWords (exec_qspiReadQuad ha 0 4 false) (s.idBytes_of_running hfw)
  case before => exact fun s ha hfw => answers_firstWords (exec_qspiRead ha 0 4 false) (s.idBytes_of_not_running hfw)
  case identify =>
    intro c s hacc hfw hl
    obtain ⟨p, hp, htake⟩ := answersOk_sysIdentify hacc hl
    exact ⟨p, hp, by rw [htake, State.idBytes_of_running (by simpa using hfw), started_boot]⟩
end

section
/-! PROOFS. The invariant and the registers at reset (R16, R47, R571, R589, R590, R638, R650). -/
namespace Sys2Proof.Machine

@[simp] theorem HostIf.box_fresh (m : Nat) : ({} : HostIf).box m = {} := by
  change (List.replicate 16 ({} : Mailbox)).getD m {} = {}
  simp only [List.getD_eq_getElem?_getD, List.getElem?_replicate]
  split <;> rfl

@[simp] theorem Store.get_nil {α : Type} (d : α) (k : Nat) : Store.get d [] k = d := rfl

end Sys2Proof.Machine
open Sys2Proof Sys2Proof.Machine

/-- Settles O3: the memory, the causes and the statistics are empty tables at reset, and the lists have the lengths that the fields of State.reset
give them. -/
theorem invAtReset : Obligations.InvAtReset := by
  unfold Obligations.InvAtReset
  have hempty {α : Type} [DecidableEq α] (d : α) : Store.wf d [] = true := rfl
  exact {
    mem := hempty _, causes := hempty _, stats := by simp [Stats.wf, State.reset, hempty]
    macs := List.length_replicate, rx := List.length_replicate, tx := List.length_replicate, gates := List.length_replicate
    can := List.length_replicate, leg := List.length_replicate, boxes := List.length_replicate, ports := List.length_replicate
    pairs := List.length_replicate, tugs := List.length_replicate, macsec := List.length_replicate, txts := List.length_replicate }

/-- Settles O7. That the chip came from OFF, so that PREV is OFF, is the model's choice (log entry 6). -/
theorem resetState : Obligations.ResetState := by
  unfold Obligations.ResetState
  have hidle (m : Nat) : (State.reset.host.box m).busy = false := congrArg Mailbox.busy (HostIf.box_fresh m)
  have hcause (b : CauseBlk) : State.reset.cause b = {} := Store.get_nil ({} : CauseReg) b.key
  have hcount (k : Nat) : Store.get 0 State.reset.stats.count k = 0 := Store.get_nil 0 k
  exact ⟨rfl, rfl, rfl, rfl, rfl, rfl, hidle, hcause, rfl, hcount, rfl, rfl⟩
end

section
/-! PROOFS. NODE_STATE, PREV, HELD_CAUSE and the bypass outputs: what the node's operations make of them (R40 to R47, R87, R414). -/
namespace Sys2Proof.Machine

/-! ## Pins -/

/-- A node's fields once a pin is driven: the bypass outputs are the only pins among them. -/
def Node.driven (p : PinName) (l : Level) (n : Node) : Node :=
  match p with
  | .bypassA => { n with bypassA := l }
  | .bypassB => { n with bypassB := l }
  | _ => n

theorem drivePin_node (p : PinName) (l : Level) (s : State) : (drivePin p l s).node = s.node.driven p l := by
  cases p
  case bypassA | bypassB =>
    dsimp only [drivePin, Node.driven]
    split
    next h => rw [← h]
    next => rfl
  case wakeOut | syncOut => dsimp only [drivePin, Node.driven]; split <;> rfl
  all_goals rfl

theorem assertBypass_node (s : State) : (assertBypass s).node = { s.node with bypassA := .low, bypassB := .low } := by
  simp only [assertBypass, drivePin_node, Node.driven]

theorem drivePin_bypass_only {p : PinName} (hp : p = .bypassA ∨ p = .bypassB) (l : Level) (s : State) : Only [.node, .out] s (drivePin p l s) := by
  have hout (n : Node) (o : List Output) : Only [.node, .out] s { s with node := n, out := o } := by
    constructor
    intro q hq
    cases q
    case node | out => exact absurd (by decide) hq
    all_goals rfl
  rcases hp with rfl | rfl <;> exact only_ite Only.rfl (hout _ _)

theorem assertBypass_only_node_out (s : State) : Only [.node, .out] s (assertBypass s) :=
  (drivePin_bypass_only (.inl rfl) _ _).trans (drivePin_bypass_only (.inr rfl) _ _)

/-! ## What leaves NODE_STATE alone -/

/-- NODE_STATE, PREV and HELD_CAUSE are the same in two states. -/
structure SameNodeState (s t : State) : Prop where
  state : t.node.state = s.node.state
  prev : t.node.prev = s.node.prev
  heldCause : t.node.heldCause = s.node.heldCause

theorem SameNodeState.trans {s t u : State} (h : SameNodeState s t) (k : SameNodeState t u) : SameNodeState s u :=
  ⟨k.state.trans h.state, k.prev.trans h.prev, k.heldCause.trans h.heldCause⟩

theorem SameNodeState.of_node {s t : State} (h : t.node = s.node) : SameNodeState s t := by
  constructor <;> rw [h]

theorem SameNodeState.of_only {s t : State} {ps : List Part} (h : Only ps s t) (hn : .node ∉ ps) : SameNodeState s t :=
  .of_node (h.same .node hn)

theorem drivePin_sameNodeState (p : PinName) (l : Level) (s : State) : SameNodeState s (drivePin p l s) := by
  constructor <;> rw [drivePin_node] <;> cases p <;> rfl

theorem releaseBypass_sameNodeState (s : State) : SameNodeState s (releaseBypass s) :=
  (drivePin_sameNodeState _ _ _).trans (drivePin_sameNodeState _ _ _)

theorem takeIdentity_sameNodeState (s : State) : SameNodeState s (takeIdentity s) := ⟨rfl, rfl, rfl⟩

theorem startSettle_sameNodeState (s : State) : SameNodeState s (startSettle s) := ⟨rfl, rfl, rfl⟩

@[simp] theorem logEvent_red (code sev : Nat) (payload : List Byte) (s : State) : (logEvent code sev payload s).red = s.red := by
  unfold logEvent logWith
  dsimp only
  split
  next => rfl
  next => split <;> simp

theorem setRole_claim (r : Role) (s : State) : (setRole r s).red.claim = s.red.claim := by
  unfold setRole
  split
  next => rfl
  next => dsimp only; split <;> simp

theorem setRole_node (r : Role) (s : State) : (setRole r s).node = s.node :=
  (setRole_only (ps := [.out, .host, .causes, .stats, .red]) (fun _ h => h) r s Only.rfl).same .node (by decide)

theorem ownerChanged_node (was : Bool) (s : State) : (ownerChanged was s).node = s.node :=
  (ownerChanged_only (ps := [.out, .freeIdx, .host, .causes, .stats, .log, .sw, .red, .can, .leg, .br]) (fun _ h => h) was s Only.rfl).same .node
    (by decide)

/-- A chip that claims nothing counts no lost member: settling the members leaves the node's fields alone. -/
theorem settleMembers_node {s : State} (h : s.red.claim = false) : (settleMembers s).node = s.node := by
  dsimp only [settleMembers]
  split
  next => rfl
  next =>
    split
    next => rfl
    next =>
      rw [ownerChanged_node, if_neg]
      · simp only [raise_node, apply_ite State.node, drivePin_node, Node.driven, ite_self]
      · simp only [raise_red, apply_ite State.red, drivePin_red, ite_self, h, Bool.false_eq_true, not_false_eq_true]

theorem releaseClaim_sameNodeState (check : Nat) (r : Role) (s : State) : SameNodeState s (releaseClaim check r s) := by
  dsimp only [releaseClaim]
  split
  next =>
    split
    next => exact .of_node rfl
    next => exact .of_node (setRole_node r s)
  next =>
    refine .trans (t := { s with red := { s.red with claim := false }, node := { s.node with active := false } }) ⟨rfl, rfl, rfl⟩ (.of_node ?_)
    rw [ownerChanged_node, settleMembers_node]
    · simp only [raise_node, logEvent_node, count_node, drivePin_node, Node.driven, setRole_node]
    · simp only [raise_red, logEvent_red, count_red, drivePin_red, setRole_claim]

/-! ## Transitions -/

theorem setState_node {new : NodeState} {s : State} (h : s.node.state ≠ new) (cause res : Nat) :
    (setState new cause res s).node = { s.node with state := new, prev := s.node.state, stateTick := s.now } := by
  simp only [setState, if_neg h, logEvent_node, raise_node]

/-- On the way out of the states in line nothing but `setState` changes the node state. -/
theorem leaveLine_node_eq (new : NodeState) (cause res : Nat) (s : State) :
    ∃ x, SameNodeState s x ∧ (leaveLine new cause res s).node = (setState new cause res x).node := by
  dsimp only [leaveLine]
  refine ⟨?arrives, ?before, ?after⟩
  case after =>
    exact (legSync_only (ps := allBut [.node]) (by decide) _ (canModes_only (by decide) 3 _ (bridgeStop_only (by decide) _
      (unlearn_only (by decide) _ _ .rfl)))).same .node (by decide)
  case before =>
    have hcontrol : Only (allBut [.node]) s (releaseForces (fun _ => true) 5 (haltAll (wrLeave s))) :=
      releaseForces_only (by decide) _ 5 _ (haltAll_only (by decide) _ (wrLeave_only (by decide) s .rfl))
    have hunits (x : State) : Only (allBut [.node]) x (stopStreams (hitchStop (stopGptp x))) :=
      stopStreams_only (by decide) _ (hitchStop_only (by decide) _ (stopGptp_only (by decide) x .rfl))
    have hbypass (was : Bool) (x : State) : SameNodeState x (if was then startSettle (assertBypass x) else assertBypass x) := by
      have h : SameNodeState x (assertBypass x) := by constructor <;> rw [assertBypass_node]
      split
      · exact h.trans (startSettle_sameNodeState _)
      · exact h
    refine .trans ?_ (.of_only (hunits _) (by decide))
    refine .trans ?_ (releaseClaim_sameNodeState 9 .detached _)
    refine .trans ?_ (hbypass _ _)
    exact .of_node (hcontrol.same .node (by decide))

theorem leaveLine_node {new : NodeState} {s : State} (h : s.node.state ≠ new) (cause res : Nat) :
    (leaveLine new cause res s).node.state = new ∧ (leaveLine new cause res s).node.prev = s.node.state
      ∧ (leaveLine new cause res s).node.heldCause = s.node.heldCause := by
  obtain ⟨x, hx, heq⟩ := leaveLine_node_eq new cause res s
  rw [heq, setState_node (hx.state.symm ▸ h), hx.state, hx.heldCause]
  exact ⟨rfl, rfl, rfl⟩

theorem enterHeld_node {s : State} (h : s.node.state ≠ .held) (heldCause cause : Nat) :
    (enterHeld heldCause cause s).node.state = .held ∧ (enterHeld heldCause cause s).node.prev = s.node.state
      ∧ (enterHeld heldCause cause s).node.heldCause = heldCause := by
  have hs : ({ s with node := { s.node with heldCause := heldCause }, pwr := { s.pwr with entering := false } } : State).node.state ≠ .held := h
  simpa only [enterHeld] using leaveLine_node hs cause 0

/-- On the way into READY nothing but `setState` changes the node state. -/
theorem enterReady_sameNodeState (fromBoot : Bool) (cause : Nat) (s : State) :
    SameNodeState (setState .ready cause 0 (readyFields s)) (enterReady fromBoot cause s) := by
  have hstart (x : State) : Only (allBut [.node]) x (hitchStart (if fromBoot then startDomains x else reactivateStreams x)) :=
    hitchStart_only (by decide) _ (only_ite (startDomains_only (by decide) x .rfl) (reactivateStreams_only (by decide) x .rfl))
  have hserve (x : State) : Only (allBut [.node]) x (armStart (legSync (canModes 3 (bridgeEntry x)))) :=
    armStart_only (by decide) _ (legSync_only (by decide) _ (canModes_only (by decide) 3 _ (bridgeEntry_only (by decide) x .rfl)))
  have hsync (x : State) : Only (allBut [.node]) x (trySync (if x.node.form = .simplex then x else setRole .detached x)) :=
    trySync_only (by decide) _ (only_ite .rfl (setRole_only (by decide) _ x .rfl))
  dsimp only [enterReady]
  refine .trans ?_ (.of_only (hsync _) (by decide))
  refine .trans ?_ (.of_only (hserve _) (by decide))
  refine .trans ?_ (releaseBypass_sameNodeState _)
  exact .of_only (hstart _) (by decide)

theorem enterReady_node {s : State} (h : s.node.state ≠ .ready) (fromBoot : Bool) (cause : Nat) :
    (enterReady fromBoot cause s).node.state = .ready ∧ (enterReady fromBoot cause s).node.prev = s.node.state := by
  have hend := enterReady_sameNodeState fromBoot cause s
  rw [hend.state, hend.prev, setState_node (s := readyFields s) h]
  exact ⟨rfl, rfl⟩

end Sys2Proof.Machine
end

section
/-! PROOFS. The end of a removal and SYS_RESTART (R46, R87, R212, R594). -/
namespace Sys2Proof.Machine

section
variable {s : State} (ha : s.alive = true)
include ha

theorem exec_bypassAnnounceExpiry_stable (hr : s.node.removal = some .stable) : exec .bypassAnnounceExpiry s = .next (assertBypass s) := by
  change execBypassAnnounceExpiry s = _
  simp [execBypassAnnounceExpiry, ha, hr]

theorem exec_bypassAnnounceExpiry_boot (hr : s.node.removal = some .restart ∨ s.node.removal = some .commit) :
    ∃ cause, (cause = 12 ∨ cause = 16) ∧ exec .bypassAnnounceExpiry s = .next (enterBoot cause (assertBypass s)) := by
  change ∃ cause, (cause = 12 ∨ cause = 16) ∧ execBypassAnnounceExpiry s = .next (enterBoot cause (assertBypass s))
  rcases hr with hr | hr
  · exact ⟨16, .inr rfl, by simp [execBypassAnnounceExpiry, ha, hr]⟩
  · exact ⟨12, .inl rfl, by simp [execBypassAnnounceExpiry, ha, hr]⟩

theorem exec_bypassSettleExpiry : exec .bypassSettleExpiry s = .next (endSettle s) := by
  change execBypassSettleExpiry s = _
  simp [execBypassSettleExpiry, ha]

end

/-- Entry into BOOT for a restart (cause 16) or a commit (cause 12) keeps START for the first control start. -/
theorem enterBoot_node {cause : Nat} (hc : cause = 12 ∨ cause = 16) (s : State) :
    (enterBoot cause s).node.state = .boot ∧ (enterBoot cause s).node.prev = s.node.state
      ∧ (enterBoot cause s).node.startArg = s.node.startNext :=
  ⟨rfl, rfl, if_pos hc⟩

theorem endSettle_node {s : State} (h : s.node.settling = true) : (endSettle s).node = { s.node with settling := false } := by
  have hports (x : State) : Only (allBut [.node]) x ((List.range 15).foldl (fun s p => dropPort p 44 s) x) :=
    only_foldl _ _ _ (fun y p hy => dropPort_only (by decide) p 44 y hy) .rfl
  rw [endSettle, h, Bool.not_true, if_neg Bool.false_ne_true]
  exact (hports _).same .node (by decide)

theorem endSettle_only_settle (s : State) : Only (allBut [.hitch, .ctl, .mem]) s (endSettle s) := endSettle_only (by decide) s .rfl

@[simp] theorem started_node (c : Acs) (op : Nat) (s : State) : (started c op s).node = s.node :=
  (started_only c op s).same .node (by decide)

/-- An accepted SYS_RESTART answers and is recorded, then leaves for BOOT with its START. -/
theorem exec_sysRestart {c : Acs} {s : State} (hacc : Accepts s c 0x0103 anyState) (hl : c.args.length = 4) (harg : c.arg 0 1 ≤ 3)
    (hz : c.nonZero 1 3 = false) : ∃ x : State, x.node = { s.node with startNext := c.arg 0 1 }
      ∧ exec (.sysRestart c) s = .next (leaveFor .restart 16 x) := by
  change ∃ x : State, x.node = _ ∧ execSysRestart c s = _
  have hok : (decide (3 < c.arg 0 1) || c.nonZero 1 3) = false := by simp [hz, harg]
  rw [execSysRestart, acsLen_of_accepts hacc hl, hok, badArgIf, if_neg Bool.false_ne_true]
  refine ⟨_, ?_, rfl⟩
  simp only [logEvent_node, done_node, started_node]

theorem leaveFor_inLine_node {s : State} (h : s.node.state.inLine = true) (r : Removal) (cause : Nat) :
    (leaveFor r cause s).node = { s.node with removal := some r } := by
  rw [leaveFor, if_pos h]
  exact (announceBypass_only (ps := allBut [.node]) (by decide) _ .rfl).same .node (by decide)

end Sys2Proof.Machine
open Sys2Proof Sys2Proof.Machine

/-- Settles O14: each row is one of `assertBypass`, `enterBoot`, `endSettle` and `leaveFor`, whose effect on the node's fields is said above. That
SYS_RESTART outside the states in line enters BOOT at once is the model's choice (log entry 18). -/
theorem removalEnds : Obligations.RemovalEnds := by
  unfold Obligations.RemovalEnds
  refine ⟨?stable, ?boot, ?settle, ?restartInLine, ?restartElsewhere⟩
  case stable =>
    intro s ha hr
    refine ⟨_, exec_bypassAnnounceExpiry_stable ha hr, ?_, ?_, ?_, assertBypass_only_node_out s⟩ <;> rw [assertBypass_node]
  case boot =>
    intro s ha hr
    obtain ⟨cause, hc, hexec⟩ := exec_bypassAnnounceExpiry_boot ha hr
    have hboot := enterBoot_node hc (assertBypass s)
    rw [assertBypass_node] at hboot
    exact ⟨_, hexec, hboot⟩
  case settle =>
    intro s ha hs
    have honly := endSettle_only_settle s
    have hnode := endSettle_node hs
    exact ⟨_, exec_bypassSettleExpiry ha, by rw [hnode], by rw [hnode], honly.same .hitch (by decide), honly.same .ctl (by decide),
      honly.same .mem (by decide)⟩
  case restartInLine =>
    intro c s hacc hl harg hz hline
    obtain ⟨x, hx, hexec⟩ := exec_sysRestart hacc hl harg hz
    have hleave := leaveFor_inLine_node (s := x) (by rw [hx]; exact hline) .restart 16
    exact ⟨_, hexec, by rw [hleave], by rw [hleave, hx], by rw [hleave, hx]⟩
  case restartElsewhere =>
    intro c s hacc hl harg hz hline
    obtain ⟨x, hx, hexec⟩ := exec_sysRestart hacc hl harg hz
    have hleave : leaveFor .restart 16 x = enterBoot 16 x := if_neg (by rw [hx]; simp [hline])
    obtain ⟨hstate, -, hstart⟩ := enterBoot_node (.inr rfl) x
    exact ⟨_, hexec, by rw [hleave, hstate], by rw [hleave, hstart, hx]⟩
end

section
/-! PROOFS. The selection of a tack image (R612, R616): the sources, the commit of an image from flash, its activation, HELD. -/
namespace Sys2Proof.Machine

/-! ## Activation -/

/-- The units load their parts of an image without touching the node's fields or the tack store. -/
theorem loadUnits_only (x : State) :
    Only (allBut [.node, .tack]) x
      (gpioStart (ringsStart (bridgeLoad (canLoad (loadStreams (controlLoad (loadSwitch (repartition x)))))))) :=
  gpioStart_only (by decide) _ <| ringsStart_only (by decide) _ <| bridgeLoad_only (by decide) _ <| canLoad_only (by decide) _ <|
    loadStreams_only (by decide) _ <| controlLoad_only (by decide) _ <| loadSwitch_only (by decide) _ <| repartition_only (by decide) x .rfl

theorem activate_tack (t : Tack) (s : State) : (activate t s).tack = { s.tack with active := some t } :=
  (loadUnits_only _).same .tack (by decide)

theorem activate_sameNodeState (t : Tack) (s : State) : SameNodeState s (activate t s) := by
  have hload : (activate t s).node = (takeIdentity { s with tack := { s.tack with active := some t } }).node :=
    (loadUnits_only _).same .node (by decide)
  constructor <;> rw [hload] <;> rfl

theorem goReady_tack (t : Tack) (s : State) : (goReady t s).tack = { s.tack with active := some t } := by
  rw [← activate_tack]
  exact (enterReady_only (ps := allBut [.tack]) (by decide) true 7 _ .rfl).same .tack (by decide)

theorem goReady_node {s : State} (h : s.node.state ≠ .ready) (t : Tack) :
    (goReady t s).node.state = .ready ∧ (goReady t s).node.prev = s.node.state := by
  have hact := activate_sameNodeState t s
  have hne : (activate t s).node.state ≠ .ready := by rwa [hact.state]
  rw [goReady, ← hact.state]
  exact enterReady_node hne true 7

/-! ## HELD -/

theorem goHeld_tack (held : Bool) (s : State) : (goHeld held s).tack = s.tack :=
  (goHeld_only (ps := allBut [.tack]) (by decide) held s .rfl).same .tack (by decide)

theorem goHeld_absent_node {s : State} (h : s.node.state ≠ .held) :
    (goHeld false s).node.state = .held ∧ (goHeld false s).node.prev = s.node.state ∧ (goHeld false s).node.heldCause = 1 := by
  simpa only [goHeld, Bool.false_eq_true, if_false] using enterHeld_node h 1 4

/-! ## The flash tack area -/

theorem tryFlash_absent {s : State} (h : flashImage s.tack.flash = none) : tryFlash s = (.absent, s) := by
  simp only [tryFlash, h]

theorem tryFlash_good {s : State} {b : List Byte} (h : flashImage s.tack.flash = some b) (hv : validate s (imgLength b) b = none) :
    tryFlash s = (.good (tackOf b), commitFlash b s) := by
  simp only [tryFlash, h, hv]

theorem commitFlash_node (b : List Byte) (s : State) : (commitFlash b s).node = s.node :=
  (commitFlash_only (ps := allBut [.node]) (by decide) b s .rfl).same .node (by decide)

/-- The commit of an image from flash says two records; the tack store is that of the commit. -/
theorem commitFlash_tack (b : List Byte) (s : State) :
    (commitFlash b s).tack = { (writeCommit s.tack.stageBank true (tackOf b) (putBank s.tack.stageBank (fun _ => b) s)).tack with
      stage := .empty, staged := 0, total := 0 } := by
  simp only [commitFlash, saidCommitted, logEvent_tack]

theorem putBank_records (k : Nat) (f : List Byte → List Byte) (s : State) :
    (putBank k f s).tack.rec0 = s.tack.rec0 ∧ (putBank k f s).tack.rec1 = s.tack.rec1 ∧ (putBank k f s).tack.flash = s.tack.flash := by
  dsimp only [putBank, TackStore.setBank]
  split <;> exact ⟨rfl, rfl, rfl⟩

theorem writeCommit_flash (k : Nat) (flash : Bool) (t : Tack) (s : State) : (writeCommit k flash t s).tack.flash = s.tack.flash := by
  dsimp only [writeCommit]
  split <;> rfl

theorem commitFlash_flash (b : List Byte) (s : State) : (commitFlash b s).tack.flash = s.tack.flash := by
  rw [commitFlash_tack]
  exact (writeCommit_flash _ _ _ _).trans (putBank_records _ _ _).2.2

section
variable {s : State} (h0 : s.tack.rec0 = none) (h1 : s.tack.rec1 = none)
include h0 h1

theorem newer_none : s.tack.newer = none := by simp only [TackStore.newer, h0, h1]

theorem older_none : s.tack.older = none := by simp only [TackStore.older, h0, h1]

/-- The first commit record (R612) has COMMIT_SEQ 1. -/
theorem writeCommit_newer_first (k : Nat) (flash : Bool) (t : Tack) :
    (writeCommit k flash t s).tack.newer = some { seq := 1, bank := k, fromFlash := flash, length := t.length, fp := t.fp } := by
  have htack : (writeCommit k flash t s).tack =
      { s.tack with rec0 := some { seq := 1, bank := k, fromFlash := flash, length := t.length, fp := t.fp } } := by
    simp [writeCommit, newer_none h0 h1]
  simp only [htack, TackStore.newer, h1]

/-- The first image from flash goes into bank 0 (log entry 30). -/
theorem commitFlash_newer_first (b : List Byte) :
    (commitFlash b s).tack.newer = some { seq := 1, bank := 0, fromFlash := true, length := imgLength b, fp := tackFp b } := by
  have hbank : s.tack.stageBank = 0 := by simp only [TackStore.stageBank, newer_none h0 h1]
  obtain ⟨hrec0, hrec1, -⟩ := putBank_records 0 (fun _ => b) s
  rw [commitFlash_tack, hbank]
  exact writeCommit_newer_first (hrec0.trans h0) (hrec1.trans h1) 0 true (tackOf b)

/-- With no commit record, what the flash tack area holds decides. -/
theorem selectTack_absent (hf : flashImage s.tack.flash = none) : selectTack s = goHeld false s := by
  simp [selectTack, newer_none h0 h1, older_none h0 h1, tryBank, tryFlash_absent hf]

theorem selectTack_flash {b : List Byte} (hf : flashImage s.tack.flash = some b) (hv : validate s (imgLength b) b = none) :
    selectTack s = goReady (tackOf b) (commitFlash b s) := by
  simp only [selectTack, newer_none h0 h1, older_none h0 h1, tryBank, tryFlash_good hf hv]

end

/-! ## The two rows -/

theorem exec_tackSelect {s : State} (hlogs : s.logs = true) (hboot : s.node.state = .boot) (ms : Nat) :
    exec (.tackSelect ms) s = .next (saidBoot ms (selectTack s)) := by
  change execTackSelect ms s = _
  simp [execTackSelect, hlogs, hboot]

@[simp] theorem saidBoot_node (ms : Nat) (s : State) : (saidBoot ms s).node = s.node := logEvent_node ..

@[simp] theorem saidBoot_tack (ms : Nat) (s : State) : (saidBoot ms s).tack = s.tack := logEvent_tack ..

/-- What flash holds is kept (R616). -/
def pollFlash (image : List Byte) (s : State) : State := { s with tack := { s.tack with flash := image } }

section
variable {s : State} (hlogs : s.logs = true) (hheld : s.node.state = .held) (hcommit : s.tack.commitOn = false) (image : List Byte)
include hlogs hheld hcommit

theorem exec_heldFlashPoll_absent (hf : flashImage image = none) : exec (.heldFlashPoll image) s = .next (pollFlash image s) := by
  change execHeldFlashPoll image s = _
  simp [execHeldFlashPoll, hlogs, hheld, hcommit, hf, pollFlash]

theorem exec_heldFlashPoll_good {b : List Byte} (hf : flashImage image = some b) (hfailed : s.tack.failed = [])
    (hv : validate s (imgLength b) b = none) :
    exec (.heldFlashPoll image) s = .next (goReady (tackOf b) (commitFlash b (pollFlash image s))) := by
  have htry := tryFlash_good (s := pollFlash image s) hf hv
  change execHeldFlashPoll image s = _
  simp only [pollFlash, hfailed, hcommit] at htry ⊢
  simp [execHeldFlashPoll, hlogs, hheld, hcommit, hf, hfailed, htry]

end

end Sys2Proof.Machine
open Sys2Proof Sys2Proof.Machine

/-- Settles O19: with no commit record the selection comes down to flash, and so does the poll in HELD; an image found there is committed and
activated. That the first one goes into bank 0 is the model's choice (log entry 30). -/
theorem tackSelection : Obligations.TackSelection := by
  unfold Obligations.TackSelection
  refine ⟨?selectAbsent, ?selectFlash, ?pollAbsent, ?pollFlash⟩
  case selectAbsent =>
    intro ms s hlogs hboot h0 h1 hf
    obtain ⟨hstate, hprev, hcause⟩ := goHeld_absent_node (s := s) (by simp [hboot])
    refine ⟨_, exec_tackSelect hlogs hboot ms, ?_⟩
    dsimp only
    rw [selectTack_absent h0 h1 hf, saidBoot_node, saidBoot_tack, goHeld_tack]
    exact ⟨hstate, hprev.trans hboot, hcause, rfl, rfl, rfl⟩
  case selectFlash =>
    intro ms b s hlogs hboot h0 h1 hf hv
    have hnode := commitFlash_node b s
    obtain ⟨hstate, hprev⟩ := goReady_node (s := commitFlash b s) (by simp [hnode, hboot]) (tackOf b)
    refine ⟨_, exec_tackSelect hlogs hboot ms, ?_⟩
    dsimp only
    rw [selectTack_flash h0 h1 hf hv, saidBoot_node, saidBoot_tack, goReady_tack]
    exact ⟨hstate, by rw [hprev, hnode, hboot], rfl, congrArg _ (commitFlash_newer_first h0 h1 b)⟩
  case pollAbsent => exact fun image s hlogs hheld hcommit hf => ⟨_, exec_heldFlashPoll_absent hlogs hheld hcommit image hf, rfl⟩
  case pollFlash =>
    intro image b s hlogs hheld hcommit hf hfailed hv
    have hnode := commitFlash_node b (pollFlash image s)
    have hstate : (commitFlash b (pollFlash image s)).node.state = .held := by rw [hnode]; exact hheld
    obtain ⟨hready, hprev⟩ := goReady_node (s := commitFlash b (pollFlash image s)) (by simp [hstate]) (tackOf b)
    refine ⟨_, exec_heldFlashPoll_good hlogs hheld hcommit image hf hfailed hv, hready, hprev.trans hstate, ?_⟩
    rw [goReady_tack]
    exact ⟨rfl, commitFlash_flash b _⟩
end

section
/-! PROOFS. Rules of shared operations: one entry of a list or a table changed, what a record touches, cause bits. -/
namespace Sys2Proof.Machine

/-! ## One entry changed -/

section
variable {α : Type} (l : List α) (f : α → α) (d : α) {k p : Nat}

theorem getD_modify_same (h : p < l.length) : (l.modify p f).getD p d = f (l.getD p d) := by
  simp [List.getD_eq_getElem?_getD, h]

theorem getD_modify_ne (h : k ≠ p) : (l.modify p f).getD k d = l.getD k d := by
  simp [List.getD_eq_getElem?_getD, h.symm]

end

/-- A value that is not the default is read back from any table, canonical or not. -/
theorem Store.get_put_of_ne_default {α : Type} [DecidableEq α] (d : α) (m : Store α) (k : Nat) {v : α} (h : v ≠ d) :
    Store.get d (Store.put d m k v) k = v := by
  rw [Store.put, if_neg h, Store.get, Store.find_ins_same, Option.getD_some]

theorem setMac_mac_ne {k p : Nat} (f : MacPort → MacPort) (s : State) (h : k ≠ p) : (setMac p f s).mac k = s.mac k :=
  getD_modify_ne s.macs f {} h

theorem setMac_mac_same {p : Nat} (f : MacPort → MacPort) {s : State} (h : p < s.macs.length) : (setMac p f s).mac p = f (s.mac p) :=
  getD_modify_same s.macs f {} h

theorem setSec_sec_ne {k p : Nat} (f : MacSec → MacSec) (s : State) (h : k ≠ p) : (setSec p f s).sec_ k = s.sec_ k :=
  getD_modify_ne s.sw.macsec f {} h

theorem setSec_sec_same {p : Nat} (f : MacSec → MacSec) {s : State} (h : p < s.sw.macsec.length) : (setSec p f s).sec_ p = f (s.sec_ p) :=
  getD_modify_same s.sw.macsec f {} h

theorem setGate_gate_ne {k p : Nat} (f : Gate → Gate) (s : State) (h : k ≠ p) : (setGate p f s).gate k = s.gate k :=
  getD_modify_ne s.sw.gates f {} h

theorem setGate_gate_same {p : Nat} (f : Gate → Gate) {s : State} (h : p < s.sw.gates.length) : (setGate p f s).gate p = f (s.gate p) :=
  getD_modify_same s.sw.gates f {} h

/-! ## Records -/

theorem only_log (s : State) (l : Studbook) : Only recordParts s { s with log := l } := by
  constructor
  intro p hp
  cases p
  case log => exact absurd (by decide) hp
  all_goals rfl

theorem logWith_only_record (code sev : Nat) (witness host : Bool) (payload : List Byte) (s : State) :
    Only recordParts s (logWith code sev witness host payload s) := by
  dsimp only [logWith]
  split
  next => exact only_log s _
  next =>
    have hlimited (k : Nat) (l : Limiter) : Only recordParts s (setLimiter k l s) := setLimiter_only (by decide) k l s .rfl
    split
    next => exact .rfl
    next => exact count_only (by decide) _ _ (hlimited _ _)
    next => exact logQueue_only (by decide) _ _ (hlimited _ _)

theorem logEvent_only_record (code sev : Nat) (payload : List Byte) (s : State) : Only recordParts s (logEvent code sev payload s) :=
  logWith_only_record code sev false false payload s

@[simp] theorem logEvent_sw (code sev : Nat) (payload : List Byte) (s : State) : (logEvent code sev payload s).sw = s.sw :=
  (logEvent_only_record code sev payload s).same .sw (by decide)

/-! ## Cause bits (R589) -/

theorem raise_causes (b : CauseBlk) (i : Nat) (s : State) :
    (raise b i s).causes = Store.put {} s.causes b.key { s.cause b with cause := (s.cause b).cause ||| bit32 i } := by
  dsimp only [raise]
  split
  next => exact sendVector_causes _ _
  next => rfl

theorem raise_cause_ne {b k : CauseBlk} (i : Nat) (s : State) (h : k ≠ b) : (raise b i s).cause k = s.cause k := by
  rw [State.cause, raise_causes, Store.get_put_ne _ _ _ (CauseBlk.key_injective.ne h), State.cause]

/-- A bit that the register has, or that is being raised, is set afterwards. -/
theorem raise_cause_of_bit {b : CauseBlk} {i j : Nat} {s : State} (h : ((s.cause b).cause ||| bit32 i).getLsbD j = true) :
    ((raise b i s).cause b).cause.getLsbD j = true := by
  have hne : ({ s.cause b with cause := (s.cause b).cause ||| bit32 i } : CauseReg) ≠ {} := by
    intro heq
    have hclear : (s.cause b).cause ||| bit32 i = 0 := congrArg CauseReg.cause heq
    simp [hclear] at h
  rw [State.cause, raise_causes, Store.get_put_of_ne_default _ _ _ hne]
  exact h

theorem raise_sets (b : CauseBlk) {i : Nat} (s : State) (h : i < 32) : ((raise b i s).cause b).cause.getLsbD i = true :=
  raise_cause_of_bit (by simp [bit32, h])

/-- No cause bit is cleared between two states. -/
def CausesStay (s t : State) : Prop := ∀ (b : CauseBlk) (j : Nat), (s.cause b).cause.getLsbD j = true → (t.cause b).cause.getLsbD j = true

theorem CausesStay.of_causes {s t : State} (h : t.causes = s.causes) : CausesStay s t := by
  intro b j hj
  rwa [State.cause, h]

theorem CausesStay.trans {s t u : State} (h : CausesStay s t) (k : CausesStay t u) : CausesStay s u := fun b j hj => k b j (h b j hj)

theorem raise_causesStay (b : CauseBlk) (i : Nat) (s : State) : CausesStay s (raise b i s) := by
  intro k j hj
  by_cases hk : k = b
  · subst hk
    exact raise_cause_of_bit (by simp [hj])
  · rwa [raise_cause_ne i s hk]

theorem count_causesStay (n : Nat) (s : State) : CausesStay s (count n s) := by
  have hcount (st : Stats) : CausesStay s { s with stats := st } := .of_causes rfl
  dsimp only [count, countN]
  split
  next =>
    split
    next => exact (hcount _).trans (raise_causesStay _ _ _)
    next => exact hcount _
  next => exact hcount _

theorem logQueue_causesStay (r : Rec) (s : State) : CausesStay s (logQueue r s) := by
  have hlog (l : Studbook) : CausesStay s { s with log := l } := .of_causes rfl
  dsimp only [logQueue]
  split
  next => exact ((hlog _).trans (count_causesStay _ _)).trans (raise_causesStay _ _ _)
  next => exact hlog _

theorem logEvent_causesStay (code sev : Nat) (payload : List Byte) (s : State) : CausesStay s (logEvent code sev payload s) := by
  have hlimited (k : Nat) (l : Limiter) : CausesStay s (setLimiter k l s) := .of_causes rfl
  dsimp only [logEvent, logWith]
  split
  next => exact .of_causes rfl
  next =>
    split
    next => exact .of_causes rfl
    next => exact (hlimited _ _).trans (count_causesStay _ _)
    next => exact (hlimited _ _).trans (logQueue_causesStay _ _)

end Sys2Proof.Machine
end

section
/-! PROOFS. MKA on a backbone port (R205, R207): the SA of a port, MKA frames. -/
namespace Sys2Proof.Machine

/-! ## The SA of a port -/

theorem saSaid_sw (p : Nat) (s : State) : (saSaid p s).sw = s.sw := by simp [saSaid]

theorem State.sec_congr {s t : State} (h : t.sw = s.sw) (k : Nat) : t.sec_ k = s.sec_ k := by rw [State.sec_, h, State.sec_]

theorem saSaid_raises (p : Nat) (s : State) : ((saSaid p s).cause .harness).cause.getLsbD 6 = true := raise_sets _ _ (by decide)

/-- A MACsec port without its peer. -/
def MacSec.lost (m : MacSec) : MacSec := { m with st := 0, an := 0, kn := 0, server := false, peerSci := 0, txPn := 0 }

theorem mkaLost_sw (p : Nat) (s : State) : (mkaLost p s).sw = (setSec p MacSec.lost s).sw := by
  dsimp only [mkaLost]
  split
  next => exact saSaid_sw p _
  next => rfl

theorem mkaLost_raises {p : Nat} {s : State} (h : s.saInUse p = true) : ((mkaLost p s).cause .harness).cause.getLsbD 6 = true := by
  rw [mkaLost, if_pos h]
  exact saSaid_raises _ _

theorem saInUse_eq_false {s : State} {p : Nat} (h : (s.sec_ p).st ≠ 2) : s.saInUse p = false := by
  simp [State.saInUse, h]

/-! ## MKA frames -/

theorem enqueue_queue (p c : Nat) (q : QFrame) (s : State) :
    (enqueue p c q s).queue p c = s.queue p c ++ (if s.admits p c q.cells then [q] else []) := by
  rw [enqueue]
  split
  next => exact Store.get_put_of_ne_default [] _ _ (by simp)
  next => rw [State.queue, count_sw, List.append_nil, State.queue]

theorem enqueue_macsec (p c : Nat) (q : QFrame) (s : State) : (enqueue p c q s).sw.macsec = s.sw.macsec := by
  rw [enqueue]
  split
  next => rfl
  next => rw [count_sw]

/-- What an MKA frame sent on a port does: it joins the queue of TC7 where that admits it, and uses one free value. -/
theorem sendMka_sent {p : Nat} {s : State} (hup : s.portUp p = true) :
    (sendMka p s).queue p 7 = s.queue p 7 ++ (if s.admits p 7 (s.mkQ (s.mkaFrame p) .groom).cells then [s.mkQ (s.mkaFrame p) .groom] else [])
      ∧ (sendMka p s).freeIdx = s.freeIdx + 1 ∧ (sendMka p s).sw.macsec = s.sw.macsec := by
  have hsend : sendMka p s = bumpUid (enqueue p 7 (s.mkQ (s.mkaFrame p) .groom) (useFree s)) := if_pos hup
  have hfree : (enqueue p 7 (s.mkQ (s.mkaFrame p) .groom) (useFree s)).freeIdx = (useFree s).freeIdx :=
    (enqueue_only (ps := allBut [.freeIdx]) (by decide) _ _ _ _ .rfl).same .freeIdx (by decide)
  rw [hsend]
  exact ⟨enqueue_queue p 7 _ (useFree s), hfree, enqueue_macsec p 7 _ (useFree s)⟩

/-! ## The rows -/

section
variable {port : Nat} {s : State} (ha : s.alive = true) (hp : port < 4)
include ha hp

theorem exec_sakRekeyTimer (hsa : s.saInUse port = true) (hserver : (s.sec_ port).server = true) :
    exec (.sakRekeyTimer port) s = .next (sendMka port s) := by
  change execSakRekeyTimer port s = _
  simp [execSakRekeyTimer, newSak, ha, hp, hsa, hserver]

variable (hrun : (s.sec_ port).running = true)
include hrun

theorem exec_mkaHelloTimer : exec (.mkaHelloTimer port) s = .next (sendMka port s) := by
  change execMkaHelloTimer port s = _
  simp [execMkaHelloTimer, ha, hp, hrun]

theorem exec_mkaLifetimeExpiry : exec (.mkaLifetimeExpiry port) s = .next (mkaLost port s) := by
  change execMkaLifetimeExpiry port s = _
  simp [execMkaLifetimeExpiry, ha, hp, hrun]

variable (hup : s.portUp port = true)
include hup

theorem exec_mkaFrameReceive_peerLive (sci : Dword) (server : Bool) : exec (.mkaFrameReceive port (.peerLive sci server)) s =
    .next (setSec port (fun m => { m with st := max 1 m.st, peerSci := sci, server := server }) s) := by
  change execMkaFrameReceive port (.peerLive sci server) s = _
  have hport : ¬ 4 ≤ port := by omega
  simp only [execMkaFrameReceive, ha, hport, hup, hrun]
  rfl

theorem exec_mkaFrameReceive_saInUse (an kn : Nat) : exec (.mkaFrameReceive port (.saInUse an kn)) s = .next (saSaid port
    (setSec port (fun m => { m with st := 2, an := an % 4, kn := kn, txPn := 1, icvFail := 0, replay := 0, fails := 0 }) s)) := by
  change execMkaFrameReceive port (.saInUse an kn) s = _
  have hport : ¬ 4 ≤ port := by omega
  simp only [execMkaFrameReceive, ha, hport, hup, hrun]
  rfl

end

end Sys2Proof.Machine
end

section
/-! PROOFS. The MAC commands (R275 to R278): the settings of a MAC, what a check of the pause thresholds and a start of verification leave of them. -/
namespace Sys2Proof.Machine

/-! ## The settings of a MAC -/

theorem State.mac_congr {s t : State} (h : t.macs = s.macs) (k : Nat) : t.mac k = s.mac k := by rw [State.mac, h, State.mac]

@[simp] theorem started_macs (c : Acs) (op : Nat) (s : State) : (started c op s).macs = s.macs :=
  (started_only c op s).same .macs (by decide)

@[simp] theorem started_mac (c : Acs) (op : Nat) (s : State) (p : Nat) : (started c op s).mac p = s.mac p :=
  State.mac_congr (started_macs c op s) p

@[simp] theorem done_mac (c : Acs) (op status : Nat) (payload : List Byte) (s : State) (p : Nat) : (done c op status payload s).mac p = s.mac p :=
  State.mac_congr (done_macs ..) p

/-- Two states differ in no MAC but a port's, and there neither in the parameters set, nor in link, nor in the wake patterns. -/
structure SameSettings (p : Nat) (s t : State) : Prop where
  cfg : (t.mac p).cfg = (s.mac p).cfg
  link : (t.mac p).link = (s.mac p).link
  wake : (t.mac p).wake = (s.mac p).wake
  others : ∀ k, k ≠ p → t.mac k = s.mac k

theorem SameSettings.of_macs {p : Nat} {s t : State} (h : t.macs = s.macs) : SameSettings p s t := by
  have hmac := State.mac_congr h
  exact ⟨by rw [hmac], by rw [hmac], by rw [hmac], fun k _ => hmac k⟩

theorem SameSettings.trans {p : Nat} {s t u : State} (h : SameSettings p s t) (k : SameSettings p t u) : SameSettings p s u :=
  ⟨k.cfg.trans h.cfg, k.link.trans h.link, k.wake.trans h.wake, fun q hq => (k.others q hq).trans (h.others q hq)⟩

theorem setMac_sameSettings (p : Nat) (f : MacPort → MacPort) (s : State) (hc : ∀ m, (f m).cfg = m.cfg) (hl : ∀ m, (f m).link = m.link)
    (hw : ∀ m, (f m).wake = m.wake) : SameSettings p s (setMac p f s) := by
  by_cases hp : p < s.macs.length
  · have hmac := setMac_mac_same f hp
    exact ⟨by rw [hmac, hc], by rw [hmac, hl], by rw [hmac, hw], fun k hk => setMac_mac_ne f s hk⟩
  · exact .of_macs (List.modify_eq_self (by omega))

theorem sendMerge_sameSettings (p : Nat) (respond : Bool) (s : State) : SameSettings p s (sendMerge p respond s) := by
  rw [sendMerge]
  split
  next => exact .of_macs (emit_macs _ _)
  next => exact .of_macs rfl

theorem startVerify_sameSettings (p : Nat) (s : State) : SameSettings p s (startVerify p s) := by
  have hverify (mm : MmState) (n : Nat) : SameSettings p s (setMac p (fun m => { m with mm := mm, attempts := n }) s) :=
    setMac_sameSettings p _ s (fun _ => rfl) (fun _ => rfl) (fun _ => rfl)
  dsimp only [startVerify]
  split
  next => exact hverify _ _
  next =>
    split
    next => exact hverify _ _
    next =>
      split
      next => exact hverify _ _
      next => exact (hverify _ _).trans (sendMerge_sameSettings p _ _)

theorem sendPause_macs (p quanta : Nat) (s : State) : (sendPause p quanta s).macs = s.macs :=
  (sendPause_only (ps := allBut [.macs]) (by decide) p quanta s .rfl).same .macs (by decide)

theorem pauseCheck_sameSettings (p : Nat) (s : State) : SameSettings p s (pauseCheck p s) := by
  have hxoff (on : Bool) : SameSettings p s (setMac p (fun m => { m with xoffSent := on }) s) :=
    setMac_sameSettings p _ s (fun _ => rfl) (fun _ => rfl) (fun _ => rfl)
  have hpause (on : Bool) (quanta : Nat) : SameSettings p s (sendPause p quanta (setMac p (fun m => { m with xoffSent := on }) s)) :=
    (hxoff on).trans (.of_macs (sendPause_macs p quanta _))
  dsimp only [pauseCheck]
  split
  next => exact .of_macs rfl
  next =>
    split
    next => exact hpause _ _
    next =>
      split
      next => exact hpause _ _
      next => exact .of_macs rfl

/-! ## The commands -/

/-- A command of one port, its three bytes after the port 0, does its own work. -/
theorem acsLen_of_portArg {op : Nat} {states : States} {c : Acs} {body : State → State} {s : State} (hacc : Accepts s c op states)
    (hl : c.args.length = 4) (hp : c.arg 0 1 ≤ 14) (hz : c.nonZero 1 3 = false) :
    acsLen op states 4 c (badArgIf (decide (14 < c.arg 0 1) || c.nonZero 1 3) op c body) s = body (started c op s) := by
  have hok : (decide (14 < c.arg 0 1) || c.nonZero 1 3) = false := by simp [hp, hz]
  rw [acsLen_of_accepts hacc hl, badArgIf, hok, if_neg Bool.false_ne_true]

section
variable {c : Acs} {s : State}

/-- PORT_MAC_STATUS answers 32 bytes that begin with link, rate and merge state and hold the changes of link from byte 12 (R276). -/
theorem answersOk_portMacStatus (hacc : Accepts s c 0x0510 inServing) (hl : c.args.length = 4) (hp : c.arg 0 1 ≤ 14) (hz : c.nonZero 1 3 = false) :
    ∃ p, AnswersOk (.portMacStatus c) c 0x0510 s p ∧ p.length = 32
      ∧ p.take 3 = [byte (b01 (s.mac (c.arg 0 1)).link), byte (s.mac (c.arg 0 1)).rate, byte (s.mac (c.arg 0 1)).mm.code]
      ∧ slice p 12 4 = le 4 (s.mac (c.arg 0 1)).changes := by
  refine ⟨_, congrArg _ (acsLen_of_portArg hacc hl hp hz), ?_⟩
  simp only [started_mac]
  exact ⟨by simp [le_length, zeros], by simp, by simp [slice, le_length, List.drop_append, List.take_append]⟩

theorem answersOk_portWakeRead (hacc : Accepts s c 0x0513 inServing) (hl : c.args.length = 4) (hp : c.arg 0 1 ≤ 14) (hz : c.nonZero 1 3 = false) :
    AnswersOk (.portWakeRead c) c 0x0513 s
      (((s.mac (c.arg 0 1)).wake.map WakePat.bytes).flatten ++ ((s.mac (c.arg 0 1)).wakeHits.map (le 4)).flatten) := by
  rw [← started_mac c 0x0513 s]
  exact congrArg _ (acsLen_of_portArg hacc hl hp hz)

/-- An accepted PORT_MAC_SET sets the parameters; what follows leaves the settings of every MAC alone. -/
theorem exec_portMacSet (hacc : Accepts s c 0x0511 inLineStates) (hl : c.args.length = 24) (hp : c.arg 0 1 ≤ 14) (hf : c.arg 1 1 < 32)
    (hz : c.nonZero 16 8 = false) (hok : (macCfgOf c.args).ok (c.arg 0 1) = true) :
    ∃ t, exec (.portMacSet c) s = .next t ∧ t.node = s.node
      ∧ SameSettings (c.arg 0 1) (setMac (c.arg 0 1) (fun m => { m with cfg := some (macCfgOf c.args) }) (started c 0x0511 s)) t := by
  have hargs : ¬ ((decide (14 < c.arg 0 1) || decide (32 ≤ c.arg 1 1) || c.nonZero 16 8 || !(macCfgOf c.args).ok (c.arg 0 1)) = true) := by
    simp [hz, hok, hp, hf]
  change ∃ t, execPortMacSet c s = .next t ∧ _
  simp only [execPortMacSet, acsLen_of_accepts hacc hl, if_neg hargs]
  refine ⟨_, rfl, ?_, ?_⟩
  · have hset := setMac_only (ps := allBut [.node]) (by decide) (c.arg 0 1) (fun m => { m with cfg := some (macCfgOf c.args) })
      (started c 0x0511 s) .rfl
    rw [done_node, ← started_node c 0x0511 s]
    exact (pauseCheck_only (by decide) _ _ (only_ite (startVerify_only (by decide) _ _ hset) hset)).same .node (by decide)
  · refine .trans (.trans ?_ (pauseCheck_sameSettings _ _)) (.of_macs (done_macs ..))
    split
    next => exact startVerify_sameSettings _ _
    next => exact .of_macs rfl

/-- An accepted PORT_WAKE_SET replaces the patterns from its first one on and starts the match counts from 0 (R278). -/
theorem exec_portWakeSet (hacc : Accepts s c 0x0512 inLineStates) (hl : c.args.length = 4 + 24 * c.arg 2 1) (hp : c.arg 0 1 ≤ 14)
    (h1 : 1 ≤ c.arg 2 1) (hn : c.arg 1 1 + c.arg 2 1 ≤ 16) (hz : c.nonZero 3 1 = false)
    (hok : ((List.range (c.arg 2 1)).map (fun k => slice c.args (4 + 24 * k) 24)).all wakeOk = true) :
    exec (.portWakeSet c) s = .next (done c 0x0512 stOk [] (setMac (c.arg 0 1) (fun m => { m with
      wake := m.wake.take (c.arg 1 1) ++ (List.range (c.arg 2 1)).map (fun k => wakeOf (slice c.args (4 + 24 * k) 24))
        ++ m.wake.drop (c.arg 1 1 + c.arg 2 1)
      wakeHits := List.replicate 16 0 }) (started c 0x0512 s))) := by
  have hlen : ¬ ((decide (c.args.length < 4) || decide (c.args.length ≠ 4 + 24 * c.arg 2 1)) = true) := by simp [hl]
  have hcount : c.arg 2 1 ≠ 0 := Nat.ne_of_gt h1
  have hargs : ¬ ((decide (14 < c.arg 0 1) || decide (c.arg 2 1 = 0) || decide (16 < c.arg 1 1 + c.arg 2 1) || c.nonZero 3 1
      || !((List.range (c.arg 2 1)).map (fun k => slice c.args (4 + 24 * k) 24)).all wakeOk) = true) := by
    rw [hok, hz]
    simp [hp, hn, hcount]
  change execPortWakeSet c s = _
  simp only [execPortWakeSet, acs_of_accepts hacc, if_neg hlen, if_neg hargs, List.map_map]
  rfl

end

end Sys2Proof.Machine
open Sys2Proof Sys2Proof.Machine

/-- Settles O36: each row comes down to `setSec`, `sendMka`, `mkaLost` or `setMac`, whose effect is said above. That MKA frames leave in TC7, their
content a free value, is the model's choice (log entries 24 and 1). -/
theorem mkaAndPortCommands : Obligations.MkaAndPortCommands := by
  unfold Obligations.MkaAndPortCommands
  refine ⟨?peerLive, ?saInUse, ?hello, ?lifetime, ?rekey, ?macStatus, ?macSet, ?wakeSet, ?wakeRead⟩
  case peerLive =>
    intro port sci server s hinv ha hp hup hrun
    exact ⟨_, exec_mkaFrameReceive_peerLive ha hp hrun hup sci server, setSec_sec_same _ (by rw [hinv.macsec]; exact hp),
      fun k hk => setSec_sec_ne _ s hk, setSec_only (by decide) _ _ s .rfl⟩
  case saInUse =>
    intro port an kn s hinv ha hp hup hrun
    refine ⟨_, exec_mkaFrameReceive_saInUse ha hp hrun hup an kn, ?_, saSaid_raises _ _, fun k hk => ?_⟩ <;>
      rw [State.sec_congr (saSaid_sw _ _)]
    · exact setSec_sec_same _ (by rw [hinv.macsec]; exact hp)
    · exact setSec_sec_ne _ s hk
  case hello => exact fun port s ha hp hup hrun => ⟨_, exec_mkaHelloTimer ha hp hrun, sendMka_sent hup⟩
  case lifetime =>
    intro port s hinv ha hp hrun
    have hsec := State.sec_congr (mkaLost_sw port s)
    have hlost : (mkaLost port s).sec_ port = (s.sec_ port).lost := (hsec port).trans (setSec_sec_same _ (by rw [hinv.macsec]; exact hp))
    have hst : ((mkaLost port s).sec_ port).st = 0 := congrArg MacSec.st hlost
    exact ⟨_, exec_mkaLifetimeExpiry ha hp hrun, hst, congrArg MacSec.txPn hlost, saInUse_eq_false (by rw [hst]; decide), mkaLost_raises,
      fun k hk => (hsec k).trans (setSec_sec_ne _ s hk)⟩
  case rekey =>
    intro port s ha hp hup hsa hserver
    obtain ⟨hqueue, hfree, -⟩ := sendMka_sent hup
    exact ⟨_, exec_sakRekeyTimer ha hp hsa hserver, hqueue, hfree⟩
  case macStatus => exact fun c s => answersOk_portMacStatus
  case macSet =>
    intro c s hinv hacc hl hp hf hz hok
    obtain ⟨t, hexec, hnode, hsame⟩ := exec_portMacSet hacc hl hp hf hz hok
    have hset := setMac_mac_same (fun m => { m with cfg := some (macCfgOf c.args) })
      (show c.arg 0 1 < (started c 0x0511 s).macs.length by rw [started_macs, hinv.macs]; omega)
    refine ⟨t, hexec, ?_, ?_, ?_, fun k hk => ?_, hnode⟩
    · rw [hsame.cfg, hset]
    · rw [hsame.link, hset, started_mac]
    · rw [hsame.wake, hset, started_mac]
    · rw [hsame.others k hk, setMac_mac_ne _ _ hk, started_mac]
  case wakeSet =>
    intro c s hinv hacc hl hp hn hfit hz hok
    have hlen : c.arg 0 1 < (started c 0x0512 s).macs.length := by rw [started_macs, hinv.macs]; omega
    refine ⟨_, exec_portWakeSet hacc hl hp hn hfit hz hok, ?_, ?_, fun k hk => ?_, ?_⟩
    · rw [done_mac, setMac_mac_same _ hlen, started_mac]
    · rw [done_mac, setMac_mac_same _ hlen]
    · rw [done_mac, setMac_mac_ne _ _ hk, started_mac]
    · exact done_only (by decide) _ _ _ _ _ (setMac_only (by decide) _ _ _ ((started_only c 0x0512 s).mono (by decide)))
  case wakeRead => exact fun c s => answersOk_portWakeRead
end

section
/-! PROOFS. What the timers of the switch change (R192 to R196, R201 to R204, R632, R633): recovery contexts, gates, table entries. -/
namespace Sys2Proof.Machine

/-! ## Recovery contexts -/

theorem State.frer_congr {s t : State} (h : t.sw = s.sw) (k : Nat) : t.frer k = s.frer k := by rw [State.frer, h, State.frer]

theorem setFrer_frer_ne {k n : Nat} (f : Frer → Frer) (s : State) (h : k ≠ n) : (setFrer n f s).frer k = s.frer k :=
  Store.get_put_ne s.sw.frer _ {} h

theorem setFrer_frer_same (n : Nat) (f : Frer → Frer) {s : State} (h : Store.wf {} s.sw.frer = true) : (setFrer n f s).frer n = f (s.frer n) :=
  Store.get_put_same s.sw.frer _ {} h

/-- A context that differs from a fresh one without counts is read back from any table. -/
theorem setFrer_frer_of_ne_default {n : Nat} {f : Frer → Frer} {s : State} (h : f (s.frer n) ≠ {}) : (setFrer n f s).frer n = f (s.frer n) :=
  Store.get_put_of_ne_default _ _ n h

theorem lostArmed_only_record (n : Nat) (gone : List Armed) (s : State) : Only recordParts s (lostArmed n gone s) :=
  only_foldl _ _ _ (fun _ _ h => h.trans (logEvent_only_record _ _ _ _)) .rfl

/-- A context whose RESET_TIME has passed (R201). -/
def Frer.reset (f : Frer) : Frer :=
  { f with fresh := true, hist := [], armed := [], resets := satAdd f.resets 1
           discard := satAdd f.discard (sumOf (f.live.map (fun p => p.held.length)))
           live := f.live.map (fun p => { p with held := [] }) }

theorem Frer.reset_ne_default (f : Frer) : f.reset ≠ {} := by
  intro h
  have hresets : satAdd f.resets 1 = 0 := congrArg Frer.resets h
  simp [satAdd] at hresets

theorem exec_frerResetTimerExpiry {ctx : Nat} {s : State} (h : (s.frer ctx).fresh = false) :
    exec (.frerResetTimerExpiry ctx) s = .next (lostArmed ctx (s.frer ctx).armed (setFrer ctx Frer.reset s)) := by
  change execFrerResetTimerExpiry ctx s = _
  simp only [execFrerResetTimerExpiry, h, Bool.false_eq_true, if_false]
  rfl

/-! ## Latent periods (R204) -/

theorem latentLine_sw (ctx : Nat) (l : Line) (was now : Bool) (s : State) : (latentLine ctx l was now s).sw = s.sw := by
  rw [latentLine]
  split
  next => rfl
  next => rw [raise_sw, logEvent_sw]

theorem latentLine_frer (ctx : Nat) (l : Line) (was now : Bool) (s : State) (k : Nat) : (latentLine ctx l was now s).frer k = s.frer k :=
  State.frer_congr (latentLine_sw ctx l was now s) k

theorem latentLine_causesStay (ctx : Nat) (l : Line) (was now : Bool) (s : State) : CausesStay s (latentLine ctx l was now s) := by
  rw [latentLine]
  split
  next => exact .of_causes rfl
  next => exact (logEvent_causesStay _ _ _ _).trans (raise_causesStay _ _ _)

theorem latentLine_raises (ctx : Nat) (l : Line) {was now : Bool} (s : State) (h : now ≠ was) :
    ((latentLine ctx l was now s).cause .harness).cause.getLsbD 4 = true := by
  rw [latentLine, if_neg h.symm]
  exact raise_sets _ _ (by decide)

/-- Whether a line from which n of the period's total frames came is silent at the period's end. -/
def silentNow (n total : Nat) (was : Bool) : Bool := if 0 < n then false else if 4 ≤ total then true else was

/-- A context at the end of a latent period. -/
def Frer.endPeriod (f : Frer) : Frer :=
  { f with silentA := silentNow f.curA (f.curA + f.curB) f.silentA, silentB := silentNow f.curB (f.curA + f.curB) f.silentB
           fromA := f.curA, fromB := f.curB, curA := 0, curB := 0 }

theorem exec_frerLatentPeriodEnd {ctx : Nat} {s : State} (hline : s.node.state.inLine = true)
    (hctx : (s.ctx? ctx).elim false (fun c => c.role = 2 && c.replicates) = true) :
    exec (.frerLatentPeriodEnd ctx) s = .next (latentLine ctx .b (s.frer ctx).silentB (s.frer ctx).endPeriod.silentB
      (latentLine ctx .a (s.frer ctx).silentA (s.frer ctx).endPeriod.silentA (setFrer ctx Frer.endPeriod s))) := by
  change execFrerLatentPeriodEnd ctx s = _
  simp only [execFrerLatentPeriodEnd, hline, hctx]
  rfl

/-! ## Gates -/

theorem State.gate_congr {s t : State} (h : t.sw.gates = s.sw.gates) (k : Nat) : t.gate k = s.gate k := by rw [State.gate, h, State.gate]

theorem frerRead_gates (n seq port : Nat) (s : State) : (frerRead n seq port s).sw.gates = s.sw.gates := by
  dsimp only [frerRead]
  split <;> rfl

theorem unread_gates (p : Nat) (o : Option (Nat × Nat)) (s : State) : (unread p o s).sw.gates = s.sw.gates := by
  cases o with
  | none => rfl
  | some x => exact frerRead_gates _ _ _ _

theorem pushTxTs_sw (p : Nat) (e : TxTs) (s : State) : (pushTxTs p e s).sw = s.sw := by
  dsimp only [pushTxTs]
  split
  next => split <;> simp
  next => simp

theorem failTxTs_sw (p : Nat) (o : TxOrigin) (s : State) : (failTxTs p o s).sw = s.sw := by
  unfold failTxTs
  split
  next => exact pushTxTs_sw _ _ _
  next => rfl

theorem dropQueued_gates (p : Nat) (q : QFrame) (s : State) : (dropQueued p q s).sw.gates = s.sw.gates := by
  rw [dropQueued, unread_gates, failTxTs_sw]
  rfl

theorem gates_foldl {α : Type} (f : State → α → State) (l : List α) (s : State) (hf : ∀ x a, (f x a).sw.gates = x.sw.gates) :
    (l.foldl f s).sw.gates = s.sw.gates := by
  induction l generalizing s with
  | nil => rfl
  | cons a l ih => exact (ih (f s a)).trans (hf s a)

theorem settleHeads_gates (p : Nat) (s : State) : (settleHeads p s).sw.gates = s.sw.gates := by
  unfold settleHeads
  refine gates_foldl _ _ _ fun x c => gates_foldl _ _ _ fun y q => ?_
  split
  next => rfl
  next =>
    split
    next => rfl
    next => rw [raise_sw, count_sw, dropQueued_gates]; rfl

theorem settleHeads_gate (p : Nat) (s : State) (k : Nat) : (settleHeads p s).gate k = s.gate k := State.gate_congr (settleHeads_gates p s) k

theorem logEvent_gate (code sev : Nat) (payload : List Byte) (s : State) (k : Nat) : (logEvent code sev payload s).gate k = s.gate k :=
  State.gate_congr (congrArg Switch.gates (logEvent_sw code sev payload s)) k

theorem settleHeads_node (p : Nat) (s : State) : (settleHeads p s).node = s.node :=
  (settleHeads_only (ps := allBut [.node]) (by decide) p s .rfl).same .node (by decide)

theorem enterGate_node (p i : Nat) (s : State) : (enterGate p i s).node = s.node :=
  (enterGate_only (ps := allBut [.node]) (by decide) p i s .rfl).same .node (by decide)

/-- A port's gates as an entry of the list in force begins. -/
def Gate.enter (g : GateList) (i : Nat) (x : Gate) : Gate := { x with cur := i, states := gateMask (g.entries.getD i 0), rephase := false }

theorem enterGate_sw {p : Nat} {g : GateList} {s : State} (h : (s.gate p).oper = some g) (i : Nat) :
    (enterGate p i s).sw = (setGate p (Gate.enter g i) s).sw := by
  simp only [enterGate, h, apply_ite State.sw, count_sw, setMac_sw, ite_self]
  rfl

theorem enterGate_gate_same {p : Nat} {g : GateList} {s : State} (h : (s.gate p).oper = some g) (hp : p < s.sw.gates.length) (i : Nat) :
    (enterGate p i s).gate p = (s.gate p).enter g i := by
  rw [State.gate_congr (congrArg Switch.gates (enterGate_sw h i)), setGate_gate_same _ hp]

theorem enterGate_gate_ne {k p : Nat} {g : GateList} {s : State} (h : (s.gate p).oper = some g) (hk : k ≠ p) (i : Nat) :
    (enterGate p i s).gate k = s.gate k := by
  rw [State.gate_congr (congrArg Switch.gates (enterGate_sw h i)), setGate_gate_ne _ s hk]

/-- A port's gates with a list in force from its first entry on, or none. -/
def Gate.start (l : Option GateList) : Gate :=
  { oper := l, pend := none, cur := 0, states := (l.map fun g => gateMask (g.entries.getD 0 0)).getD 0xFF }

/-- The pending list of a port, or none, comes into force at its first entry (R194). -/
def startList (p : Nat) (l : Option GateList) (s : State) : State :=
  let s1 := setGate p (fun _ => { oper := l, pend := none, cur := 0, states := 0xFF }) s
  if l.isNone then setMac p (fun m => { m with hold := false }) s1 else enterGate p 0 s1

theorem startList_node (p : Nat) (l : Option GateList) (s : State) : (startList p l s).node = s.node := by
  cases l with
  | none => rfl
  | some g => exact enterGate_node p 0 _

theorem startList_gate_same {p : Nat} (l : Option GateList) {s : State} (hp : p < s.sw.gates.length) : (startList p l s).gate p = Gate.start l := by
  have hset := setGate_gate_same (fun _ => { oper := l, pend := none, cur := 0, states := 0xFF }) hp
  cases l with
  | none => exact hset
  | some g =>
    refine (enterGate_gate_same (by rw [hset]) ?_ 0).trans (by rw [hset]; rfl)
    rwa [setGate, List.length_modify]

theorem startList_gate_ne {k p : Nat} (l : Option GateList) {s : State} (hp : p < s.sw.gates.length) (hk : k ≠ p) :
    (startList p l s).gate k = s.gate k := by
  have hset := setGate_gate_same (fun _ => { oper := l, pend := none, cur := 0, states := 0xFF }) hp
  cases l with
  | none => exact setGate_gate_ne _ s hk
  | some g => exact (enterGate_gate_ne (by rw [hset]) hk 0).trans (setGate_gate_ne _ s hk)

/-- The entry that a gate event begins: the next one, or the first after a step of train time (R193, R196). -/
def Gate.next (x : Gate) (g : GateList) : Nat := if x.rephase then 0 else (x.cur + 1) % max 1 g.spans.length

section
variable {port : Nat} {s : State} (ha : s.alive = true) (hp : port < 15)
include ha hp

theorem exec_gateEvent {g : GateList} (hg : (s.gate port).oper = some g)
    (hr : s.sw.reloads.any (fun r => r.1 = 3 && r.2.1 = port) = false) :
    exec (.gateEvent port false) s = .next (settleHeads port (enterGate port ((s.gate port).next g) s)) := by
  change execGateEvent port false s = _
  have hport : ¬ 15 ≤ port := by omega
  simp only [execGateEvent, ha, hport, hg, hr]
  rfl

theorem exec_gateConfigChange {l : Option GateList} {at_ : Nat} (hg : (s.gate port).pend = some (l, at_)) :
    exec (.gateConfigChange port) s =
      .next (settleHeads port (logEvent 0x0502 sevNotice ([byte port] ++ ttBytes at_) (startList port l s))) := by
  change execGateConfigChange port s = _
  have hport : ¬ 15 ≤ port := by omega
  simp only [execGateConfigChange, ha, hport, hg]
  rfl

end

/-! ## Reloads (R632, R633) -/

theorem reloadEntry_reloads (table port index : Nat) (s : State) : (reloadEntry table port index s).sw.reloads = s.sw.reloads := by
  unfold reloadEntry
  split <;> rfl

theorem reloadEntry_queues (table port index : Nat) (s : State) : (reloadEntry table port index s).sw.queues = s.sw.queues := by
  unfold reloadEntry
  split <;> rfl

theorem reloadEntry_vlan {index : Nat} {s : State} {b : List Byte} (port : Nat)
    (h : (records (s.sectionOf 0x08 0) 8).find? (fun b => (vlanOf b).1 = index) = some b) :
    Store.find (reloadEntry 2 port index s).sw.vlan index = some (vlanOf b).2 := by
  simp only [reloadEntry, h]
  exact Store.find_ins_same _ _

/-- A reload that is over. -/
def endReload (r : Nat × Nat × Nat) (s : State) : State := { s with sw := { s.sw with reloads := s.sw.reloads.erase r } }

theorem endReload_only (r : Nat × Nat × Nat) (s : State) : Only [.sw] s (endReload r s) := by
  constructor
  intro p hp
  cases p
  case sw => exact absurd (by decide) hp
  all_goals rfl

theorem exec_tableReloadDone {table port index : Nat} {s : State} (ha : s.alive = true) (hr : (table, port, index) ∈ s.sw.reloads) :
    exec (.tableReloadDone table port index) s = .next (endReload (table, port, index) (reloadEntry table port index s)) := by
  change execTableReloadDone table port index s = _
  simp [execTableReloadDone, ha, hr, endReload]

end Sys2Proof.Machine
open Sys2Proof Sys2Proof.Machine

/-- Settles O38: each row comes down to `setFrer`, `enterGate` or `reloadEntry`; the records that follow leave contexts alone, the drops at the heads
of queues leave gates alone. -/
theorem switchTimers : Obligations.SwitchTimers := by
  unfold Obligations.SwitchTimers
  refine ⟨?hold, ?reset, ?period, ?gateEvent, ?config, ?reload⟩
  case hold =>
    intro ctx seq s hwf
    refine ⟨_, rfl, ?_, ?_, ?_, fun k hk => setFrer_frer_ne _ s hk, setFrer_only (by decide) _ _ s .rfl⟩ <;> rw [setFrer_frer_same ctx _ hwf]
  case reset =>
    intro ctx s hfresh
    have hrecord := lostArmed_only_record ctx (s.frer ctx).armed (setFrer ctx Frer.reset s)
    have hfrer := State.frer_congr (hrecord.same .sw (by decide))
    have hctx := (hfrer ctx).trans (setFrer_frer_of_ne_default (Frer.reset_ne_default _))
    refine ⟨_, exec_frerResetTimerExpiry hfresh, ?_, ?_, ?_, ?_, ?_, fun k hk => (hfrer k).trans (setFrer_frer_ne _ s hk),
      hrecord.same .node (by decide)⟩ <;> rw [hctx] <;> rfl
  case period =>
    intro ctx s hline hctx hwf
    refine ⟨_, exec_frerLatentPeriodEnd hline hctx, ?_⟩
    dsimp only
    rw [latentLine_frer, latentLine_frer, setFrer_frer_same ctx _ hwf]
    exact ⟨rfl, rfl, rfl, rfl, rfl, rfl, fun h => latentLine_causesStay _ _ _ _ _ _ _ (latentLine_raises _ _ _ h), latentLine_raises _ _ _⟩
  case gateEvent =>
    intro port g s hinv ha hp hg hr
    have hgate := enterGate_gate_same hg (by rw [hinv.gates]; exact hp) ((s.gate port).next g)
    refine ⟨_, exec_gateEvent ha hp hg hr, ?nextCur, ?nextStates, ?nextRephase, ?nextOper, ?nextOthers, ?nextNode⟩
    case nextNode => rw [settleHeads_node, enterGate_node]
    case nextOthers => exact fun k hk => by rw [settleHeads_gate, enterGate_gate_ne hg hk]
    all_goals rw [settleHeads_gate, hgate]
    case nextOper => exact hg
    all_goals rfl
  case config =>
    intro port l at_ s hinv ha hp hg
    have hlen : port < s.sw.gates.length := by rw [hinv.gates]; exact hp
    refine ⟨_, exec_gateConfigChange ha hp hg, ?startOper, ?startPend, ?startCur, ?startStates, ?startOthers, ?startNode⟩
    case startNode => rw [settleHeads_node, logEvent_node, startList_node]
    case startOthers => exact fun k hk => by rw [settleHeads_gate, logEvent_gate, startList_gate_ne l hlen hk]
    all_goals rw [settleHeads_gate, logEvent_gate, startList_gate_same l hlen]
    case startStates => cases l <;> rfl
    all_goals rfl
  case reload =>
    intro table port index s ha hr
    refine ⟨_, exec_tableReloadDone ha hr, ?_, ?_, reloadEntry_queues table port index s,
      (reloadEntry_only (by decide) table port index s .rfl).trans (endReload_only _ _)⟩
    · exact congrArg (List.erase · _) (reloadEntry_reloads table port index s)
    · rintro b rfl hb
      exact reloadEntry_vlan port hb
end

section
/-! PROOFS. The STREAM commands (R306 to R309, R432): stream contexts read after a change, a command on a context in use, what each command answers
or sets. -/
namespace Sys2Proof.Machine

/-! ## A context read after a change -/

section
variable {α : Type} (m : Store α) {k j : Nat} (f : α → α)

theorem Store.find_upd_same : Store.find (Store.upd m k f) k = (Store.find m k).map f := by
  induction m with
  | nil => rfl
  | cons e m ih =>
    obtain ⟨k', w⟩ := e
    by_cases hk : k' = k
    · simp [Store.upd, Store.find, hk]
    · simpa [Store.upd, Store.find, hk, Ne.symm hk] using ih

theorem Store.find_upd_ne (h : j ≠ k) : Store.find (Store.upd m k f) j = Store.find m j := by
  induction m with
  | nil => rfl
  | cons e m ih =>
    obtain ⟨k', w⟩ := e
    by_cases hk : k' = k
    · simpa [Store.upd, Store.find, hk, h] using ih
    · simpa [Store.upd, Store.find, hk] using congrArg _ ih

end

theorem State.ctx?_congr {s t : State} (h : t.stream = s.stream) (k : Nat) : t.ctx? k = s.ctx? k := by rw [State.ctx?, h, State.ctx?]

@[simp] theorem started_ctx? (c : Acs) (op : Nat) (s : State) (k : Nat) : (started c op s).ctx? k = s.ctx? k :=
  State.ctx?_congr ((started_only c op s).same .stream (by decide)) k

@[simp] theorem finish_ctx? (r : Option AcsRef) (status : Nat) (payload : List Byte) (s : State) (k : Nat) :
    (finish r status payload s).ctx? k = s.ctx? k :=
  State.ctx?_congr (finish_stream ..) k

@[simp] theorem streamInhibit_ctx? (s : State) (k : Nat) : (streamInhibit s).ctx? k = s.ctx? k :=
  State.ctx?_congr ((streamInhibit_only (ps := allBut [.stream]) (by decide) s .rfl).same .stream (by decide)) k

theorem setCtx_ctx?_same (n : Nat) (f : StreamCtx → StreamCtx) (s : State) : (setCtx n f s).ctx? n = (s.ctx? n).map f :=
  Store.find_upd_same ..

theorem setCtx_ctx?_ne {k n : Nat} (f : StreamCtx → StreamCtx) (s : State) (h : k ≠ n) : (setCtx n f s).ctx? k = s.ctx? k :=
  Store.find_upd_ne _ _ h

/-! ## Enabling and disabling a context -/

theorem streamEnable_ctx?_ne {k n : Nat} (on : Bool) (s : State) (h : k ≠ n) : (streamEnable n on s).ctx? k = s.ctx? k := by
  unfold streamEnable
  split
  next => rfl
  next =>
    split
    next => rfl
    next =>
      split
      all_goals rw [streamInhibit_ctx?, setCtx_ctx?_ne _ s h]

/-- A context that is enabled or disabled keeps its record; where that changes it, it is NONE with nothing queued (R295, R306). -/
theorem streamEnable_ctx?_same {n : Nat} {x : StreamCtx} {s : State} (h : s.ctx? n = some x) (on : Bool) :
    ∃ y, (streamEnable n on s).ctx? n = some y ∧ y.enabled = on ∧ y.record = x.record ∧ (x.enabled ≠ on → y.fresh = .none ∧ y.launches = []) := by
  simp only [streamEnable, h]
  split
  next heq => exact ⟨x, h, heq, rfl, fun hne => absurd heq hne⟩
  next =>
    cases on
    all_goals
      simp only [Bool.false_eq_true, if_true, if_false, streamInhibit_ctx?, setCtx_ctx?_same, h]
      exact ⟨_, rfl, rfl, rfl, fun _ => ⟨rfl, rfl⟩⟩

/-! ## A command on a context in use -/

/-- Which links carry the channels to the node's other chips depends on the node and the redundancy state alone (R403, R410). -/
theorem State.carriers_congr {s t : State} (hnode : t.node = s.node) (hred : t.red = s.red) : t.carriers = s.carriers := by
  have hparts (u : State) : u.carriers = { s with node := u.node, red := u.red }.carriers := rfl
  rw [hparts t, hnode, hred]

section
variable {c : Acs} {x : StreamCtx} {s : State}

theorem onCtx_of_used {op : Nat} {body : StreamCtx → State → State} (hn : c.arg 0 2 < 2048) (hx : s.ctx? (c.arg 0 2) = some x) :
    onCtx c op body s = body x s := by
  simp only [onCtx, if_pos hn, hx]

/-- A STREAM command of four bytes of arguments that pass its checks does its own work on its context. -/
theorem acsLen_onCtx {op : Nat} {states : States} {bad : Bool} {body : StreamCtx → State → State} (hacc : Accepts s c op states)
    (hl : c.args.length = 4) (hok : bad = false) (hn : c.arg 0 2 < 2048) (hx : s.ctx? (c.arg 0 2) = some x) :
    acsLen op states 4 c (badArgIf bad op c (onCtx c op body)) s = body x (started c op s) := by
  rw [acsLen_of_accepts hacc hl, badArgIf, hok, if_neg Bool.false_ne_true, onCtx_of_used hn (by rw [started_ctx?, hx])]

/-- On a node of one chip a node-wide command is carried out at once (R432). -/
theorem nodeWide_started_alone {op : Nat} {eff : Option AcsRef → State → State} (h : s.carriers = []) :
    nodeWide op c eff (started c op s) = eff (some (c.ref op)) (started c op s) := by
  have hred : (started c op s).red = s.red := (started_only c op s).same .red (by decide)
  rw [nodeWide, State.carriers_congr (started_node c op s) hred, h, List.isEmpty_nil, if_pos rfl]

theorem State.placedCtx_started (op : Nat) : (started c op s).placedCtx x = s.placedCtx x := by
  have hctl : (started c op s).ctl = s.ctl := (started_only c op s).same .ctl (by decide)
  rw [State.placedCtx, hctl, State.placedCtx]

/-- STREAM_STATUS answers 56 bytes that begin with role and state and hold COUNT_OK from byte 24 (R308). -/
theorem answersOk_streamStatus (hacc : Accepts s c 0x0600 inLineStates) (hl : c.args.length = 4) (hz : c.nonZero 2 2 = false)
    (hn : c.arg 0 2 < 2048) (hx : s.ctx? (c.arg 0 2) = some x) :
    ∃ p, AnswersOk (.streamStatus c) c 0x0600 s p ∧ p.length = 56 ∧ p.take 2 = [byte x.role, byte x.stateCode] ∧ slice p 24 4 = le 4 x.countOk := by
  refine ⟨_, congrArg _ (acsLen_onCtx hacc hl hz hn hx), ?_, ?_, ?_⟩
  · simp [le_length, wordBytes, macBytes, nidBytes, be, zeros]
  · simp
  · simp [slice, le_length, wordBytes, List.drop_append, List.drop_eq_nil_of_le]

theorem answersOk_streamRead (hacc : Accepts s c 0x0601 inLineStates) (hl : c.args.length = 4) (hz : c.nonZero 2 2 = false)
    (hn : c.arg 0 2 < 2048) (hx : s.ctx? (c.arg 0 2) = some x) : AnswersOk (.streamRead c) c 0x0601 s x.record :=
  congrArg _ (acsLen_onCtx hacc hl hz hn hx)

/-- STREAM_GET of a subscriber answers a header of 24 bytes that begins with the state, then the presented image (R309). -/
theorem answersOk_streamGet (hacc : Accepts s c 0x0603 inLineStates) (hl : c.args.length = 4) (hz : c.nonZero 2 2 = false)
    (hn : c.arg 0 2 < 2048) (hx : s.ctx? (c.arg 0 2) = some x) (hr : x.role = 2) :
    ∃ p, AnswersOk (.streamGet c) c 0x0603 s p ∧ p.length = 24 + x.image.length ∧ p.take 1 = [byte x.stateCode] ∧ p.drop 24 = x.image := by
  refine ⟨_, congrArg _ ((acsLen_onCtx hacc hl hz hn hx).trans (if_neg (· hr))), ?_, ?_, ?_⟩
  · simp [le_length, wordBytes]
    omega
  · simp
  · exact List.drop_left' (by simp [le_length, wordBytes])

/-- STREAM_PUT with the payload's length hands its payload to a publisher of the host (R307). -/
theorem exec_streamPut (hacc : Accepts s c 0x0602 inLineStates) (halone : s.carriers = []) (hn : c.arg 0 2 < 2048)
    (hx : s.ctx? (c.arg 0 2) = some x) (hhost : x.hostSource = true) (hlen : c.arg 2 2 = x.payLen) (hargs : c.args.length = 4 + x.payLen) :
    exec (.streamPut c) s = .next (finish (some (c.ref 0x0602)) stOk [] (streamPut (c.arg 0 2) (c.args.drop 4) (started c 0x0602 s))) := by
  have hlong : ¬ c.args.length < 4 := by omega
  have hstatus : putStatus x c.args = stOk := by
    rw [Acs.arg] at hlen
    simp [putStatus, hhost, hlen, hargs]
  change execStreamPut c s = _
  rw [execStreamPut, acs_of_accepts hacc, if_neg hlong, onCtx_of_used hn (by rw [started_ctx?, hx]), hstatus]
  exact congrArg _ (nodeWide_started_alone halone)

/-- STREAM_LINE sets the line mode of a publisher that has one (R307). -/
theorem exec_streamLine (hacc : Accepts s c 0x0604 inLineStates) (halone : s.carriers = []) (hl : c.args.length = 4) (h1 : 1 ≤ c.arg 2 1)
    (h3 : c.arg 2 1 ≤ 3) (hz : c.nonZero 3 1 = false) (hn : c.arg 0 2 < 2048) (hx : s.ctx? (c.arg 0 2) = some x) (hr : x.role = 1)
    (hm : x.lineMode ≠ 0) :
    exec (.streamLine c) s = .next (finish (some (c.ref 0x0604)) stOk [] (streamLine (c.arg 0 2) (c.arg 2 1) (started c 0x0604 s))) := by
  have hok : (decide (c.arg 2 1 = 0) || decide (c.arg 2 1 > 3) || c.nonZero 3 1) = false := by
    simp [hz, h3, Nat.ne_of_gt h1]
  change execStreamLine c s = _
  refine congrArg _ ((acsLen_onCtx hacc hl hok hn hx).trans ?_)
  rw [if_neg (· hr), if_neg hm, nodeWide_started_alone halone]
  rfl

/-- STREAM_ENABLE enables or disables a context that follows no placeable task (R306, R367). -/
theorem exec_streamEnable (hacc : Accepts s c 0x0605 inLineStates) (halone : s.carriers = []) (hl : c.args.length = 4) (h1 : c.arg 2 1 ≤ 1)
    (hz : c.nonZero 3 1 = false) (hn : c.arg 0 2 < 2048) (hx : s.ctx? (c.arg 0 2) = some x) (hp : s.placedCtx x = false) :
    exec (.streamEnable c) s = .next (finish (some (c.ref 0x0605)) stOk []
      (streamEnable (c.arg 0 2) (decide (c.arg 2 1 = 1)) (started c 0x0605 s))) := by
  have hok : (decide (c.arg 2 1 > 1) || c.nonZero 3 1) = false := by simp [hz, h1]
  change execStreamEnable c s = _
  refine congrArg _ ((acsLen_onCtx hacc hl hok hn hx).trans ?_)
  rw [State.placedCtx_started, hp, if_neg Bool.false_ne_true, nodeWide_started_alone halone]
  rfl

end

end Sys2Proof.Machine
open Sys2Proof Sys2Proof.Machine

/-- Settles O45: the commands that read answer a payload laid out as R308 and R309 say; those that write come down to `streamPut`, `streamLine` and
`streamEnable`, which change their own context only. -/
theorem streamCommands : Obligations.StreamCommands := by
  unfold Obligations.StreamCommands
  refine ⟨fun c x s => answersOk_streamStatus, fun c x s => answersOk_streamRead, ?put, fun c x s => answersOk_streamGet, ?line, ?enable⟩
  case put =>
    intro c x s hacc halone hn hx hhost hlen hargs
    have hexec := exec_streamPut hacc halone hn hx hhost hlen hargs
    refine ⟨_, hexec, ?_, fun k hk => ?_, (execStreamPut_only c s hexec).mono (by decide)⟩
    · rw [finish_ctx?, streamPut, setCtx_ctx?_same, started_ctx?, hx, Option.map_some]
    · rw [finish_ctx?, streamPut, setCtx_ctx?_ne _ _ hk, started_ctx?]
  case line =>
    intro c x s hacc halone hl h1 h3 hz hn hx hr hm
    have hexec := exec_streamLine hacc halone hl h1 h3 hz hn hx hr hm
    refine ⟨_, hexec, ?_, fun k hk => ?_, (execStreamLine_only c s hexec).mono (by decide)⟩
    · rw [finish_ctx?, streamLine, setCtx_ctx?_same, started_ctx?, hx, Option.map_some]
    · rw [finish_ctx?, streamLine, setCtx_ctx?_ne _ _ hk, started_ctx?]
  case enable =>
    intro c x s hacc halone hl h1 hz hn hx hp
    have hexec := exec_streamEnable hacc halone hl h1 hz hn hx hp
    obtain ⟨y, hy, hon, hrecord, hidle⟩ := streamEnable_ctx?_same ((started_ctx? c 0x0605 s _).trans hx) (decide (c.arg 2 1 = 1))
    refine ⟨_, hexec, ?_, fun hne => ?_, fun k hk => ?_, (execStreamEnable_only c s hexec).same .node (by decide)⟩
    · rw [finish_ctx?, hy, Option.map_some, hon, hrecord]
    · obtain ⟨hfresh, hlaunches⟩ := hidle hne
      rw [finish_ctx?, hy, Option.map_some, hfresh, hlaunches, List.length_nil]
    · rw [finish_ctx?, streamEnable_ctx?_ne _ _ hk, started_ctx?]
end
